-- ==== Sys2Proof/Word.lean ====
section
/-!
DEFINITION. The word types of the HX4: widths the manual gives to registers, lanes, commands and bytes (R6, R59, R104, R163).
-/

namespace Sys2Proof

/-- A 64-bit general register, address or work identifier (R104, R26). -/
abbrev Word := BitVec 64

/-- A byte of any memory (R3). -/
abbrev Byte := BitVec 8

/-- A 32-bit lane, layer-1 word or accumulator element (R163, R38, R313). -/
abbrev W32 := BitVec 32

/-- A 16-bit half of a packed lane (R80). -/
abbrev W16 := BitVec 16

/-- A 128-bit layer-2 command (R59). -/
abbrev Cmd128 := BitVec 128

/-- A field naming one of the registers x0 to x31 (R39). -/
abbrev Reg := BitVec 5

end Sys2Proof
end

