-- ==== Sys2Proof/Syntax.lean ====
section
/-!
DEFINITION. The abstract instructions of the HX4: one constructor for each row of the opcode table.
The scalar words (R41-R53) and the ISSUE group (R54) carry their word fields; layer-2 commands (R59-R61) carry the
fields of the command; node words (R63) and task-graph nodes (R389) carry one record each; the other rows are
indivisible events of the device and carry the unit they concern.
-/

namespace Sys2Proof

/-- The fields of a node word other than OPC and LIVE (R63). -/
structure NodeFields where
  mods : BitVec 6
  tgta : BitVec 15
  tgtb : BitVec 15
  cidx : BitVec 6
  el : Bool
  er : Bool
  ep : Bool
  imm : Bool
  rsteoi : Bool
  dual : Bool
  brk : Bool
  brkn : BitVec 3
  deriving DecidableEq, Repr

/-- The fields of a 64-byte task-graph node (R389): the STATE word but for its TYPE byte, four successors, and the body. -/
structure GraphFields where
  state : BitVec 56
  succ0 : Word
  succ1 : Word
  succ2 : Word
  succ3 : Word
  body0 : Word
  body1 : Word
  body2 : Word
  deriving DecidableEq, Repr

/-- The window through which the host reaches the device (R430, R431): BAR0, BAR2, CXL.mem or BAR4. -/
inductive Window where
  | control
  | memory
  | cxl
  | debug
  deriving DecidableEq, Repr

/-- A place in a window of the host. -/
structure HostPlace where
  window : Window
  off : Nat
  deriving DecidableEq, Repr

/-- A page as the host's driver names it: a root and a virtual address. -/
structure HostPage where
  root : Word
  va : Word
  deriving DecidableEq, Repr

/-- One constructor per row of the opcode table. -/
inductive Instr where
  /-- ADD. R119: xd := xa + xb. -/
  | add (d a b : Reg)
  /-- SUB. R119: xd := xa - xb. -/
  | sub (d a b : Reg)
  /-- AND. R119. -/
  | and (d a b : Reg)
  /-- OR. R119. -/
  | or (d a b : Reg)
  /-- XOR. R119. -/
  | xor (d a b : Reg)
  /-- SLL. R119: shift left by xb[5:0]. -/
  | sll (d a b : Reg)
  /-- SRL. R119: shift right, zeros. -/
  | srl (d a b : Reg)
  /-- SRA. R119: shift right, sign. -/
  | sra (d a b : Reg)
  /-- SLT. R119: signed less than. -/
  | slt (d a b : Reg)
  /-- SLTU. R119: unsigned less than. -/
  | sltu (d a b : Reg)
  /-- ADDI. R119, R43: sign-extended immediate. -/
  | addi (d a : Reg) (imm : BitVec 16)
  /-- ANDI. R119, R43: zero-extended immediate. -/
  | andi (d a : Reg) (imm : BitVec 16)
  /-- ORI. R119, R43. -/
  | ori (d a : Reg) (imm : BitVec 16)
  /-- XORI. R119, R43. -/
  | xori (d a : Reg) (imm : BitVec 16)
  /-- SLLI. R119, R43: shift by imm16[5:0]. -/
  | slli (d a : Reg) (sh : BitVec 6)
  /-- SRLI. R119, R43: shift by imm16[5:0]. -/
  | srli (d a : Reg) (sh : BitVec 6)
  /-- SRAI. R119, R43: shift by imm16[5:0]. -/
  | srai (d a : Reg) (sh : BitVec 6)
  /-- SLTI. R119, R43. -/
  | slti (d a : Reg) (imm : BitVec 16)
  /-- SLTIU. R119, R43. -/
  | sltiu (d a : Reg) (imm : BitVec 16)
  /-- LUI. R119, R43: sext64(imm16 : 0x0000). -/
  | lui (d : Reg) (imm : BitVec 16)
  /-- MUL. R120. -/
  | mul (d a b : Reg)
  /-- MULH. R120. -/
  | mulh (d a b : Reg)
  /-- MULHU. R120. -/
  | mulhu (d a b : Reg)
  /-- DIV. R120. -/
  | div (d a b : Reg)
  /-- DIVU. R120. -/
  | divu (d a b : Reg)
  /-- REM. R120. -/
  | rem (d a b : Reg)
  /-- REMU. R120. -/
  | remu (d a b : Reg)
  /-- BFX. R121, R45: width is len + 1. -/
  | bfx (d a : Reg) (pos len : BitVec 6)
  /-- BFXS. R121, R45: width is len + 1. -/
  | bfxs (d a : Reg) (pos len : BitVec 6)
  /-- BFI. R121, R45: width is len + 1. -/
  | bfi (d a : Reg) (pos len : BitVec 6)
  /-- WIDX. R122: field k of the work identifier. -/
  | widx (d : Reg) (k : BitVec 3)
  /-- CLZ. R121. -/
  | clz (d a : Reg)
  /-- CTZ. R121. -/
  | ctz (d a : Reg)
  /-- POPC. R121. -/
  | popc (d a : Reg)
  /-- LDL_D. R123: load from local data memory. -/
  | ldlD (d a : Reg) (imm : BitVec 16)
  /-- LDL_W. R123: load from local data memory. -/
  | ldlW (d a : Reg) (imm : BitVec 16)
  /-- STL_D. R123: store to local data memory; d names the data source. -/
  | stlD (d a : Reg) (imm : BitVec 16)
  /-- STL_W. R123: store to local data memory; d names the data source. -/
  | stlW (d a : Reg) (imm : BitVec 16)
  /-- LDG_D. R124: load from device virtual memory. -/
  | ldgD (d a : Reg) (imm : BitVec 16)
  /-- LDG_W. R124: load from device virtual memory. -/
  | ldgW (d a : Reg) (imm : BitVec 16)
  /-- STG_D. R124: store to device virtual memory; d names the data source. -/
  | stgD (d a : Reg) (imm : BitVec 16)
  /-- STG_W. R124: store to device virtual memory; d names the data source. -/
  | stgW (d a : Reg) (imm : BitVec 16)
  /-- BEQ. R127, R47. -/
  | beq (a b : Reg) (off : BitVec 16)
  /-- BNE. R127, R47. -/
  | bne (a b : Reg) (off : BitVec 16)
  /-- BLT. R127, R47. -/
  | blt (a b : Reg) (off : BitVec 16)
  /-- BGE. R127, R47. -/
  | bge (a b : Reg) (off : BitVec 16)
  /-- BLTU. R127, R47. -/
  | bltu (a b : Reg) (off : BitVec 16)
  /-- BGEU. R127, R47. -/
  | bgeu (a b : Reg) (off : BitVec 16)
  /-- JAL. R127, R47. -/
  | jal (d : Reg) (off : BitVec 21)
  /-- JALR. R127, R38, R47. -/
  | jalr (d a : Reg) (imm : BitVec 16)
  /-- LOOP. R129: count from xc. -/
  | loop (level : BitVec 2) (c : Reg) (last : BitVec 19)
  /-- LOOPI. R129: count from the word. -/
  | loopi (level : BitVec 2) (count : BitVec 12) (last : BitVec 12)
  /-- DONE. R115. -/
  | done
  /-- WAITH. R115. -/
  | waith
  /-- POST. R116. -/
  | post (a b : Reg)
  /-- HMASK. R117. -/
  | hmask (a : Reg)
  /-- HUNMASK. R117. -/
  | hunmask (a : Reg)
  /-- MFS. R133, R50. -/
  | mfs (d : Reg) (num : BitVec 9)
  /-- MTS. R133, R131, R132. -/
  | mts (a : Reg) (num : BitVec 9)
  /-- FENCE. R286, R292. -/
  | fence (scope : BitVec 2)
  /-- BARR. R306. -/
  | barr (a : Reg)
  /-- LDG_ACQ. R292: acquire load of 64 bits. -/
  | ldgAcq (d a : Reg) (scope : BitVec 2)
  /-- STG_REL. R292: release store of 64 bits. -/
  | stgRel (a b : Reg) (scope : BitVec 2)
  /-- LOCQ. R277. -/
  | locq (d a : Reg)
  /-- PHINT_COMP. R134, R427. -/
  | phintComp
  /-- PHINT_MEM. R134, R427. -/
  | phintMem
  /-- PHINT_WAIT. R134, R427. -/
  | phintWait
  /-- DECIDE_IMM. R135. -/
  | decideImm (bay : BitVec 2)
  /-- DECIDE_REG. R135, R52. -/
  | decideReg (a : Reg)
  /-- PREF. R136. -/
  | pref (a : Reg)
  /-- TRAP. R137. -/
  | trap (code : BitVec 8)
  /-- TRET. R138, R414. -/
  | tret
  /-- EBRK. R139. -/
  | ebrk
  /-- ISSUE. R54-R57: the five-word group. -/
  | issue (xt xb0 xb1 xb2 : Reg) (e2 e1 e0 wide : Bool) (cmd : Cmd128)
  /-- HANDLER_DISPATCH. event. R111, R112. -/
  | handlerDispatch (core : Nat)
  /-- CONTROL_WORD_ARRIVAL. event. R109: the idx-th control word in flight arrives. -/
  | controlWordArrival (idx : Nat)
  /-- COMMAND_COMPLETION. event. R57: command id of the core writes its status word. -/
  | commandCompletion (core id : Nat)
  /-- LDG_DATA_RETURN. event. R124, R125: the data of access acc returns. -/
  | ldgDataReturn (acc : Nat)
  /-- TALLOC. R216. -/
  | talloc (level : BitVec 2) (ring : Bool) (cellm : BitVec 2) (h : BitVec 6) (rows rowb : BitVec 32)
  /-- TFREE. R216. -/
  | tfree (h : BitVec 6)
  /-- TRING. R216. -/
  | tring (h : BitVec 6) (fill : BitVec 32)
  /-- TOWN_ENGINE. R213, R216. -/
  | townEngine (h : BitVec 6)
  /-- TOWN_SEQ. R216. -/
  | townSeq (h : BitVec 6)
  /-- ADVP. R214. -/
  | advp (h : BitVec 6) (count : BitVec 32)
  /-- ADVC. R214. -/
  | advc (h : BitVec 6) (count : BitVec 32)
  /-- TWAIT_FILL. R216. -/
  | twaitFill (h : BitVec 6) (k : BitVec 32)
  /-- TWAIT_FREE. R216. -/
  | twaitFree (h : BitVec 6) (k : BitVec 32)
  /-- TZERO. R216. -/
  | tzero (h : BitVec 6)
  /-- TSTAT. R216. -/
  | tstat (h : BitVec 6)
  /-- OWNER_FLIP. event. R213. -/
  | ownerFlip (core : Nat) (h : BitVec 6)
  /-- SPLEV. R231. -/
  | splev (p : BitVec 3) (level : BitVec 2) (stride : Word) (count : BitVec 32)
  /-- SPBASE_TILE. R231: b0[5:0] is the handle. -/
  | spbaseTile (p : BitVec 3) (b0 off : BitVec 32)
  /-- SPBASE_VA. R231. -/
  | spbaseVa (p : BitVec 3) (addr : Word)
  /-- SPMODE. R231. -/
  | spmode (p : BitVec 3) (mods : BitVec 7) (b0 ceil : BitVec 32)
  /-- SPGO. R231. -/
  | spgo (p : BitVec 3) (bar : Bool) (chan : BitVec 4) (n : BitVec 32)
  /-- SPCLOSE. R231. -/
  | spclose (p : BitVec 3)
  /-- SPQRY_LO. R231. -/
  | spqryLo (p : BitVec 3)
  /-- SPQRY_HI. R231. -/
  | spqryHi (p : BitVec 3)
  /-- SPQRY_ST. R231: bad is MOD[1:0] = 3, a value out of range. -/
  | spqrySt (p : BitVec 3) (bad : Bool)
  /-- SPWID. R231. -/
  | spwid (p : BitVec 3) (k : BitVec 3) (step : Word)
  /-- PORT_INJECT_TOKEN. event. R223. -/
  | portInjectToken (core : Nat) (p : BitVec 3)
  /-- PORT_INJECT_EOI. event. R223, R164. -/
  | portInjectEoi (core : Nat) (p : BitVec 3)
  /-- PORT_STORE_TOKEN. event. R224. -/
  | portStoreToken (core : Nat) (p : BitVec 3)
  /-- PORT_INVOCATION_START. event. R226, R228. -/
  | portInvocationStart (core : Nat) (p : BitVec 3)
  /-- PORT_DONE_WORD. event. R230. -/
  | portDoneWord (core : Nat) (p : BitVec 3)
  /-- METER_WINDOW. event. R229, R423. -/
  | meterWindow
  /-- MMA. R316, R326. -/
  | mma (acc : BitVec 2) (z sb sa : Bool) (ty : BitVec 3) (b0 b1 b2 : BitVec 32)
  /-- MMAG. R316, R327. -/
  | mmag (acc : BitVec 2) (z sb scat : Bool) (ty : BitVec 3) (g sc : BitVec 4) (b0 b1 b2 : BitVec 32)
  /-- MMV. R316, R328. -/
  | mmv (acc : BitVec 2) (z : Bool) (ty : BitVec 3) (b0 b1 b2 : BitVec 32)
  /-- MCOOP. R316, R329: gr is GR - 1, gc is GC - 1. -/
  | mcoop (acc : BitVec 2) (z : Bool) (ty : BitVec 3) (gr : Bool) (gc : BitVec 3) (b0 b1 b2 : BitVec 32)
  /-- ACLR. R330. -/
  | aclr (acc : BitVec 2) (b0 : BitVec 32)
  /-- ARD. R332. -/
  | ard (acc : BitVec 2) (bar eoi clr tile : Bool) (b0 b1 : BitVec 32)
  /-- AWR. R331. -/
  | awr (acc : BitVec 2) (b0 b1 : BitVec 32)
  /-- MATRIX_START. event. R315. -/
  | matrixStart (core : Nat)
  /-- MATRIX_WAVE_STEP. event. R322, R323. -/
  | matrixWaveStep (core : Nat)
  /-- MATRIX_COMMIT. event. R336. -/
  | matrixCommit (core : Nat)
  /-- KTOPK. R346. -/
  | ktopk (si so : Bool) (kt : BitVec 2) (b0 b1 b2 : BitVec 32)
  /-- KSORT. R347. -/
  | ksort (si so desc : Bool) (kt : BitVec 2) (b0 b1 b2 : BitVec 32)
  /-- KHIST. R348. -/
  | khist (si so acc : Bool) (b0 b1 b2 : BitVec 32)
  /-- KSCAN. R349. -/
  | kscan (si so excl : Bool) (kt : BitVec 2) (b0 b1 b2 : BitVec 32)
  /-- KMERGE. R351. -/
  | kmerge (fn : BitVec 2) (keepz : Bool) (kt : BitVec 2) (b0 b1 b2 : BitVec 32)
  /-- KPERM_G. R350 gather. -/
  | kpermG (b0 b1 b2 : BitVec 32)
  /-- KPERM_S. R350 scatter. -/
  | kpermS (b0 b1 b2 : BitVec 32)
  /-- KEY_COMMAND_COMPLETE. event. R353. -/
  | keyCommandComplete (core : Nat)
  /-- CPY. R366. -/
  | cpy (sk dk : BitVec 2) (eoi adv : Bool) (eng : BitVec 4) (sidx : BitVec 2) (b0 b1 : BitVec 32)
  /-- CPYX. R367. -/
  | cpyx (sk dk : BitVec 2) (eoi adv : Bool) (eng : BitVec 4) (sidx : BitVec 2) (b0 b1 : BitVec 32)
  /-- CPYF. R369. -/
  | cpyf (sk : BitVec 2) (fb : Bool) (eng : BitVec 4) (sidx : BitVec 2) (b0 b1 b2 : BitVec 32)
  /-- CSIG. R368. -/
  | csig (sk dk : BitVec 2) (sys : Bool) (eng : BitVec 4) (sidx : BitVec 2) (b0 b1 b2 : BitVec 32)
  /-- COPY_COMPLETE. event. R373. -/
  | copyComplete (eng : Nat)
  /-- CGRP. R376. -/
  | cgrp (devs : Bool) (g : BitVec 6) (p rank : BitVec 32)
  /-- CGRP_FREE. R376. -/
  | cgrpFree (devs : Bool) (g : BitVec 6) (p rank : BitVec 32)
  /-- A2AV. R379. -/
  | a2av (esz : BitVec 2) (g : BitVec 6) (ldesc : BitVec 32)
  /-- AGTH. R379. -/
  | agth (esz : BitVec 2) (g : BitVec 6) (ldesc count : BitVec 32)
  /-- RSCT. R379. -/
  | rsct (kt op : BitVec 2) (g : BitVec 6) (ldesc count : BitVec 32)
  /-- ARED. R379. -/
  | ared (kt op : BitVec 2) (g : BitVec 6) (ldesc count : BitVec 32)
  /-- COLLECTIVE_RENDEZVOUS. event. R378. -/
  | collectiveRendezvous (g : Nat)
  /-- COLLECTIVE_COMPLETE. event. R382. -/
  | collectiveComplete (g rank : Nat)
  /-- AMO. R299. -/
  | amo (ord : BitVec 2) (lm dw : Bool) (op : BitVec 4) (addr : Word) (b2 : BitVec 32)
  /-- AMOC. R299. -/
  | amoc (ord : BitVec 2) (dw : Bool) (addr : Word) (b2 : BitVec 32)
  /-- RED. R299. -/
  | red (ord : BitVec 2) (lm dw : Bool) (op : BitVec 4) (addr : Word) (b2 : BitVec 32)
  /-- REDV. R299. -/
  | redv (ord : BitVec 2) (op : BitVec 4) (h : BitVec 6) (addr : Word) (b2 : BitVec 32)
  /-- FADD. node. R149. -/
  | fadd (n : NodeFields)
  /-- FSUB. node. R149. -/
  | fsub (n : NodeFields)
  /-- FMUL. node. R149. -/
  | fmul (n : NodeFields)
  /-- FFMA. node. R150. -/
  | ffma (n : NodeFields)
  /-- FMAX. node. R151. -/
  | fmax (n : NodeFields)
  /-- FMIN. node. R151. -/
  | fmin (n : NodeFields)
  /-- FABS. node. R151. -/
  | fabs (n : NodeFields)
  /-- FNEG. node. R151. -/
  | fneg (n : NodeFields)
  /-- FCMP. node. R152. -/
  | fcmp (n : NodeFields)
  /-- FRND. node. R153. -/
  | frnd (n : NodeFields)
  /-- FCLS. node. R154. -/
  | fcls (n : NodeFields)
  /-- FRCP. node. R155. -/
  | frcp (n : NodeFields)
  /-- FRSQ. node. R155. -/
  | frsq (n : NodeFields)
  /-- FEXP2. node. R155. -/
  | fexp2 (n : NodeFields)
  /-- FLOG2. node. R155. -/
  | flog2 (n : NodeFields)
  /-- IADD. node. R156. -/
  | iadd (n : NodeFields)
  /-- ISUB. node. R156. -/
  | isub (n : NodeFields)
  /-- IMUL. node. R156. -/
  | imul (n : NodeFields)
  /-- IMAX. node. R156. -/
  | imax (n : NodeFields)
  /-- IMIN. node. R156. -/
  | imin (n : NodeFields)
  /-- ICMP. node. R156. -/
  | icmp (n : NodeFields)
  /-- IABS. node. R156. -/
  | iabs (n : NodeFields)
  /-- NODE_AND. node. R157. -/
  | nodeAnd (n : NodeFields)
  /-- NODE_OR. node. R157. -/
  | nodeOr (n : NodeFields)
  /-- NODE_XOR. node. R157. -/
  | nodeXor (n : NodeFields)
  /-- ANDN. node. R157. -/
  | andn (n : NodeFields)
  /-- SHL. node. R157. -/
  | shl (n : NodeFields)
  /-- SHR. node. R157. -/
  | shr (n : NodeFields)
  /-- SAR. node. R157. -/
  | sar (n : NodeFields)
  /-- LSHUF. node. R158. -/
  | lshuf (n : NodeFields)
  /-- LROT. node. R159. -/
  | lrot (n : NodeFields)
  /-- LBCAST. node. R160. -/
  | lbcast (n : NodeFields)
  /-- LSUM. node. R161. -/
  | lsum (n : NodeFields)
  /-- LMAX. node. R161. -/
  | lmax (n : NodeFields)
  /-- LMIN. node. R161. -/
  | lmin (n : NodeFields)
  /-- CVT. node. R95. -/
  | cvt (n : NodeFields)
  /-- PACK. node. R98. -/
  | pack (n : NodeFields)
  /-- UNPACK. node. R101. -/
  | unpack (n : NodeFields)
  /-- STEER. node. R172. -/
  | steer (n : NodeFields)
  /-- MERGE. node. R173. -/
  | merge (n : NodeFields)
  /-- CARRY. node. R174. -/
  | carry (n : NodeFields)
  /-- SELECT. node. R176. -/
  | select (n : NodeFields)
  /-- GATE. node. R177. -/
  | gate (n : NodeFields)
  /-- JOIN. node. R178. -/
  | join (n : NodeFields)
  /-- DUP. node. R179. -/
  | dup (n : NodeFields)
  /-- SINK. node. R179. -/
  | sink (n : NodeFields)
  /-- CONST. node. R180. -/
  | const (n : NodeFields)
  /-- COUNT. node. R181. -/
  | count (n : NodeFields)
  /-- MADDR. node. R217. -/
  | maddr (n : NodeFields)
  /-- MLOAD. node. R218. -/
  | mload (n : NodeFields)
  /-- MSTORE. node. R218. -/
  | mstore (n : NodeFields)
  /-- MATOM. node. R219. -/
  | matom (n : NodeFields)
  /-- MRED. node. R219. -/
  | mred (n : NodeFields)
  /-- GLOAD. node. R220. -/
  | gload (n : NodeFields)
  /-- GSTORE. node. R220. -/
  | gstore (n : NodeFields)
  /-- CMPR. node. R185. -/
  | cmpr (n : NodeFields)
  /-- CSUM. node. R186. -/
  | csum (n : NodeFields)
  /-- TRACE. node. R187. -/
  | trace (n : NodeFields)
  /-- BAR_ORDERING_POINT_RELEASE. event. R293: stage 6 or 7 is a VA port slot. -/
  | barOrderingPointRelease (core cell stage : Nat)
  /-- BAY_SWITCH. event. R205. -/
  | baySwitch (plot : Nat)
  /-- LAUNCH. task-graph node. R396-R398. -/
  | launch (n : GraphFields)
  /-- COND. task-graph node. R391. -/
  | graphCond (n : GraphFields)
  /-- WHILE. task-graph node. R392. -/
  | graphWhile (n : GraphFields)
  /-- WAITM. task-graph node. R393. -/
  | waitm (n : GraphFields)
  /-- SIGNAL. task-graph node. R391. -/
  | signal (n : GraphFields)
  /-- GRAPH_JOIN. task-graph node. R391. -/
  | graphJoin (n : GraphFields)
  /-- END. task-graph node. R391. -/
  | graphEnd (n : GraphFields)
  /-- WALKER_CLAIM. event. R390, R394. -/
  | walkerClaim (die : Nat)
  /-- LINE_WATCH_FIRE. event. R393, R437. -/
  | lineWatchFire (idx : Nat)
  /-- WAITM_RETEST. event. R393. -/
  | waitmRetest (idx : Nat)
  /-- QUEUE_AGING. event. R401. -/
  | queueAging (idx : Nat)
  /-- RESERVE_REQUEST. event. R199. -/
  | reserveRequest (plot : Nat)
  /-- CONFIGURATION_LOAD. event. R194, R195. -/
  | configurationLoad (plot : Nat)
  /-- ROW_DRAIN. event. R201. -/
  | rowDrain (plot row : Nat)
  /-- PREEMPT_REQUEST. event. R405, R406. -/
  | preemptRequest (plot : Nat)
  /-- CONTEXT_SAVE. event. R405, R407. -/
  | contextSave (plot : Nat)
  /-- CONTEXT_RESTORE. event. R408. -/
  | contextRestore (plot : Nat)
  /-- SLICE_EXPIRY. event. R403. -/
  | sliceExpiry (plot : Nat)
  /-- WATCHDOG_EXPIRY. event. R409. -/
  | watchdogExpiry (plot : Nat)
  /-- SAVETIMEOUT. event. R410. -/
  | saveTimeout (plot : Nat)
  /-- SWEEP_ROW_FREE. event. R208. -/
  | sweepRowFree (plot row : Nat)
  /-- TRAP_ENTRY. event. R411: a held command fault is taken at an instruction boundary. -/
  | trapEntry (core : Nat)
  /-- CTXCMD_RESUME. event. R416. -/
  | ctxcmdResume (p : BitVec 16)
  /-- CTXCMD_DESTROY. event. R416. -/
  | ctxcmdDestroy (p : BitVec 16)
  /-- GO. event. R395. -/
  | go
  /-- DEBUG_RESUME. event. R140. -/
  | debugResume (core : Nat)
  /-- DEBUG_STEP. event. R140. -/
  | debugStep (core : Nat)
  /-- BREAKPOINT_HIT_CLEAR. event. R189. -/
  | breakpointHitClear (core : Nat) (n : BitVec 3)
  /-- BREAKPOINT_ENABLE. event. R189: BPCFGn := v with EN set. -/
  | breakpointEnable (core : Nat) (n : BitVec 3) (v : Word)
  /-- BANK_DECLARE_FAILED. event. R235. -/
  | bankDeclareFailed (core : Nat) (m : BitVec 2) (bank : BitVec 5)
  /-- PACKET_DECODE. event. R257, R261. -/
  | packetDecode (die idx : Nat)
  /-- PACKET_DELIVER. event. R258. -/
  | packetDeliver (die idx : Nat)
  /-- ERR. event. R273. -/
  | err (die idx : Nat)
  /-- ACK. event. R263. -/
  | ack (die idx : Nat)
  /-- ACK_TIMER. event. R263. -/
  | ackTimer (die stream : Nat)
  /-- NACK. event. R262. -/
  | nack (die idx : Nat)
  /-- NACK_BACKOFF_EXPIRY. event. R262. -/
  | nackBackoffExpiry (die stream : Nat)
  /-- RETRANSMIT_TIMEOUT. event. R263. -/
  | retransmitTimeout (die stream : Nat)
  /-- LINK_DEAD. event. R269, R270. -/
  | linkDead (link : Nat) (cause : BitVec 2)
  /-- DIE_REMOVAL. event. R272. -/
  | dieRemoval (die : Nat) (cause : BitVec 2)
  /-- RESYNC_QUIESCE. event. R274. -/
  | resyncQuiesce
  /-- RESYNC_EXCHANGE. event. R274. -/
  | resyncExchange
  /-- RESYNC_CLEAR. event. R274. -/
  | resyncClear
  /-- RESYNC_RESUME. event. R274. -/
  | resyncResume
  /-- FENCE_PROBE_ANSWER. event. R286. -/
  | fenceProbeAnswer (die idx : Nat)
  /-- INVGO. event. R432, R244. -/
  | invgo
  /-- INV. event. R276. -/
  | inv (die : Nat)
  /-- INVACK. event. R276. -/
  | invack (die : Nat)
  /-- INV_RESEND_TIMER. event. R276. -/
  | invResendTimer (die : Nat)
  /-- WB_REWALK. event. R244. -/
  | wbRewalk (walk : Nat)
  /-- SQUARE_ARRIVAL. event. R306. -/
  | squareArrival (idx : Nat)
  /-- BARRIER_RELEASE. event. R306. -/
  | barrierRelease (idx : Nat)
  /-- BARRIER_WITHDRAW. event. R308. -/
  | barrierWithdraw (idx : Nat)
  /-- BARRIER_WITHDRAW_ANSWER. event. R308. -/
  | barrierWithdrawAnswer (idx : Nat)
  /-- HOST_READ. event. R430, R431, R238: of device memory or of registers, by the window that it goes through. -/
  | hostRead (port : Bool) (a : HostPlace) (len : Nat)
  /-- HOST_WRITE. event. R430, R284. -/
  | hostWrite (port : Bool) (a : HostPlace) (data : List Byte)
  /-- HOST_ATOMIC. event. R303: `page` names the page of the word; second is the write half of a split pair. -/
  | hostAtomic (port : Bool) (a : HostPlace) (op : BitVec 4) (dw : Bool) (page : HostPage) (second : Bool) (v cmp : Word)
  /-- LVLREQ. event. R421. -/
  | lvlreq (k : Nat) (code : BitVec 2)
  /-- LEVEL_RAMP_SETTLE. event. R421, R422. -/
  | levelRampSettle (k : Nat)
  /-- RAMPTAB_WRITE. event. R424. -/
  | ramptabWrite (k : Nat) (v : Word)
  /-- LOCK. event. R420. -/
  | lock (k : Nat)
  /-- SLEW_LIMITER_STEP. event. R425. -/
  | slewLimiterStep (k : Nat)
  /-- HBEAT. event. R428. -/
  | hbeat
  /-- FWLOSS. event. R428. -/
  | fwloss (update : Bool)
  /-- THERMAL_TRIP. event. R427. -/
  | thermalTrip (k : Nat) (temp : BitVec 16)
  /-- CONVERTER_CURRENT_LIMIT. event. R427. -/
  | converterCurrentLimit (k : Nat)
  /-- POWER_ON_RESET. event. R440, R441: outcome of the steps and the loaded ramp tables. -/
  | powerOnReset (m0ok m1ok : Bool) (fail : Option (BitVec 3 × BitVec 8 × BitVec 8)) (tabs : List Word)
  /-- DEVRST. event. R442. -/
  | devrst (fail : Option (BitVec 3 × BitVec 8 × BitVec 8)) (tabs : List Word)
  /-- ATGO. event. R444. -/
  | atgo
  /-- ATTESTATION_REPORT_DONE. event. R444. -/
  | attestationReportDone
  /-- PCCTL_CLEAR. event. R439. -/
  | pcctlClear (die : Nat)
  /-- ROCE_SEND. event. R387. -/
  | roceSend (port q : Nat)
  /-- ROCE_WRITE. event. R387. -/
  | roceWrite (port q : Nat)
  /-- ROCE_WRITE_IMM. event. R387. -/
  | roceWriteImm (port q : Nat)
  /-- ROCE_READ. event. R387. -/
  | roceRead (port q : Nat)
  /-- INCOMING_SEND. event. R437. -/
  | incomingSend (port q : Nat) (data : List Byte)
  /-- INCOMING_RDMA_WRITE. event. R435, R437. -/
  | incomingRdmaWrite (port q : Nat) (key : BitVec 32) (addr : Word) (data : List Byte) (imm : Option (BitVec 32))
  /-- INCOMING_RDMA_READ. event. R435. -/
  | incomingRdmaRead (port q : Nat) (key : BitVec 32) (addr : Word) (len : Nat)
  /-- ROCE_COMPLETION. event. R388: outcome of the oldest operation that the remote side or the transport ends. -/
  | roceCompletion (port q : Nat) (status : BitVec 8) (data : List Byte)
  /-- SQDB. event. R437. -/
  | sqdb (port q : Nat) (v : Word)
  /-- RQDB. event. R437. -/
  | rqdb (port q : Nat) (v : Word)
  /-- CQDB. event. R437. -/
  | cqdb (port q : Nat) (v : Word)
  /-- QP_STATE_WRITE. event. R436. -/
  | qpStateWrite (port q : Nat) (v : BitVec 3)
  /-- REGISTER_WRITE. event. R4, R430, R433. For BAR2, a new size: `off` is the function and `v` the power of two. -/
  | registerWrite (w : Window) (off : Nat) (v : Word)
  /-- FLIT_BOUNDARY. event. R267. -/
  | flitBoundary (port : Nat)
  /-- FLIT_ARRIVAL. event. R268, R269. -/
  | flitArrival (port : Nat) (corrupt : Bool)
  /-- LINK_RETRAINED. event. R252. -/
  | linkRetrained (link : Nat)
  /-- ACCESS_PERFORMED. event. R281. -/
  | accessPerformed (acc : Nat)
  /-- PAGE_WALK_COMPLETE. event. R243. -/
  | pageWalkComplete (walk : Nat)
  /-- INSTRUCTION_CACHE_FILL. event. R106. -/
  | instructionCacheFill (core : Nat)
  /-- COPY_EXECUTION_FAULT. event. R372. -/
  | copyExecutionFault (eng : Nat)
  /-- KEY_EXECUTION_FAULT. event. R354. -/
  | keyExecutionFault (core : Nat)
  /-- THERMAL_TRIP_CLEAR. event. R427. -/
  | thermalTripClear (k : Nat)
  /-- DIE_REJOIN. event. R442. -/
  | dieRejoin (die : Nat)
  /-- ETHERNET_LINK_STATE. event. R434. -/
  | ethernetLinkState (port : Nat) (up : Bool)
  /-- ROCE_ACK_TIMEOUT. event. R436. -/
  | roceAckTimeout (port q : Nat)
  /-- DOORBELL_LINE_REREAD. event. R437. -/
  | doorbellLineReread (port q : Nat)
  deriving DecidableEq, Repr

end Sys2Proof
end

