-- ==== Sys2Proof/WellFormed.lean ====
section
/-!
DEFINITION. Which abstract instructions a word of the HX4 can name: the operand ranges of R43 to R53, the field rules of
R54 and R55, the legality of stream commands (R62) and the checks that a node word carries in itself (R65, R67, R94, R146,
R171, R217). Events are well formed: they name no word.
-/

namespace Sys2Proof

/-- The special registers that MFS may name (R50). -/
def mfsOk (n : BitVec 9) : Bool :=
  [0, 1, 2, 4, 5, 6, 8, 9, 10, 16, 17, 18, 19, 20, 21, 32, 33, 34, 35].contains n.toNat

/-- The special registers that MTS may name: those of R50 marked RW. -/
def mtsOk (n : BitVec 9) : Bool := [0, 1, 2, 4, 5, 6, 8, 9, 10].contains n.toNat

/-- The pos and len fields of BFX, BFXS and BFI: pos + width is at most 64 (R45). -/
def bitFieldOk (pos len : BitVec 6) : Bool := pos.toNat + len.toNat + 1 ≤ 64

/-- The fields of an ISSUE word (R55): an xb field without its E bit is zero; WIDE needs E0 = 1, E1 = 0 and xb1 = 0. -/
def issueOk (xb0 xb1 xb2 : Reg) (e2 e1 e0 wide : Bool) : Bool :=
  (e0 || xb0 == 0) && (e1 || xb1 == 0) && (e2 || xb2 == 0) && (!wide || (e0 && !e1))

/-- A matrix TYPE (R316): 6 and 7 are illegal. -/
def matrixTypeOk (ty : BitVec 3) : Bool := ty.toNat < 6

/-- Kinds, slot index and end marks of a copy command (R360). -/
def copyOk (sk dk : BitVec 2) (eoi : Bool) (sidx : BitVec 2) : Bool :=
  sk != 3 && dk != 3 && !(sk == 2 && dk == 2) && (sidx == 0 || sk == 2 || dk == 2) && (!eoi || dk == 2)

/-- OP, LM and D of AMO, RED and REDV (R296, R297); `swap` tells whether SWAP is allowed. -/
def atomicOk (swap lm dw : Bool) (op : BitVec 4) (b2 : BitVec 32) : Bool :=
  (op.toNat < 9 || (swap && op == 9)) && !(dw && op == 1) && (!dw || lm) && (!lm || b2 >>> 15 == 0)

/-- How many sources an input or a target may have. -/
inductive Need where
  | no
  | opt
  | req
  deriving DecidableEq, Repr

/-- Whether a presence bit meets a need. -/
def Need.ok : Need → Bool → Bool
  | .no, b => !b
  | .opt, _ => true
  | .req, b => b

/-- A target field that is null (R64): POS = 3. -/
def targetNull (t : BitVec 15) : Bool := t.extractLsb' 0 2 == 3

/-- A null target has bits 14:2 zero (R64). -/
def targetOk (t : BitVec 15) : Bool := !targetNull t || t.extractLsb' 2 13 == 0

/-- The rules that every node word obeys (R63 to R65): BRKN under BRK, null targets, IMM against ER, CIDX unused. -/
def nodeFrameOk (usesPool : Bool) (n : NodeFields) : Bool :=
  (n.brk || n.brkn == 0) && targetOk n.tgta && targetOk n.tgtb && !(n.imm && n.er) && (usesPool || n.imm || n.cidx == 0)

/-- The rules of one opcode: the MODS values it defines, its inputs (EL is always 1) and its targets. -/
def nodeRow (mods : Bool) (er imm ep a b : Need) (usesPool : Bool) (n : NodeFields) : Bool :=
  nodeFrameOk usesPool n && mods && n.el && er.ok n.er && imm.ok n.imm && ep.ok n.ep && a.ok (!targetNull n.tgta) &&
    b.ok (!targetNull n.tgtb)

/-- Lane type bits (R67). -/
def laneType (n : NodeFields) : BitVec 2 := n.mods.extractLsb' 4 2

/-- The float lane types F32, BF16X2 and F16X2 with the low modifier bits within `low` (R162). -/
def floatMods (low : BitVec 4) (n : NodeFields) : Bool :=
  laneType n != 3 && (n.mods.extractLsb' 0 4 &&& ~~~low) == 0

/-- The integer lane types I32 and I16X2 with the low modifier bits within `low` (R162). -/
def intMods (low : BitVec 4) (n : NodeFields) : Bool :=
  (laneType n == 0 || laneType n == 3) && (n.mods.extractLsb' 0 4 &&& ~~~low) == 0

/-- MODS within a mask of defined bits. -/
def modsIn (mask : BitVec 6) (n : NodeFields) : Bool := (n.mods &&& ~~~mask) == 0

/-- Two operands L and R or a constant, with an optional predicate (R146). -/
def binaryOk (mods : Bool) (n : NodeFields) : Bool := nodeRow (mods && (n.er || n.imm)) .opt .opt .opt .req .opt false n

/-- One operand L with an optional predicate (R146). -/
def unaryOk (mods : Bool) (n : NodeFields) : Bool := nodeRow mods .no .no .opt .req .opt false n

/-- LSUM, LMAX and LMIN (R146, R161): .I only with type 0b00 or 0b11. -/
def reduceOk (n : NodeFields) : Bool :=
  nodeRow (modsIn 0x3A n && (!n.mods.getLsbD 3 || laneType n == 0 || laneType n == 3)) .no .no .no .req .opt false n

/-- Codes of CVT (R94, R95): R only for codes 0, 1 and 6; half for 2, 3 and 7; rounding for 0, 1, 4 and 5. -/
def cvtOk (n : NodeFields) : Bool :=
  let code := (n.mods.extractLsb' 3 3).toNat
  nodeRow (!n.mods.getLsbD 0 && (!n.mods.getLsbD 2 || [2, 3, 7].contains code) &&
    (!n.mods.getLsbD 1 || [0, 1, 4, 5].contains code) && (!(n.er || n.imm) || [0, 1, 6].contains code))
    .opt .opt .no .req .opt false n

/-- LVLk of CARRY and COUNT (R171): at most 6, and 0 without RSTEOI. -/
def levelOk (n : NodeFields) : Bool :=
  (n.mods.extractLsb' 0 3).toNat ≤ 6 && (n.rsteoi || n.mods.extractLsb' 0 3 == 0)

/-- Well-formed instructions: exactly those that some word, group, command or configuration word stands for. -/
def wf : Instr → Bool
  | .bfx _ _ pos len | .bfxs _ _ pos len | .bfi _ _ pos len => bitFieldOk pos len
  | .widx _ k => k.toNat ≤ 5
  | .loop level _ last => level != 3 && last != 0
  | .loopi level _ last => level != 3 && last != 0
  | .mfs _ num => mfsOk num
  | .mts _ num => mtsOk num
  | .issue _ xb0 xb1 xb2 e2 e1 e0 wide _ => issueOk xb0 xb1 xb2 e2 e1 e0 wide
  | .mma _ _ sb sa ty _ b1 b2 => matrixTypeOk ty && (!sa || b1 == 0) && (!sb || b2 == 0)
  | .mmag _ _ sb scat ty _ sc _ _ b2 => matrixTypeOk ty && (scat || sc == 0) && (!sb || b2 == 0)
  | .mmv _ _ ty _ _ _ | .mcoop _ _ ty _ _ _ _ _ => matrixTypeOk ty
  | .ard _ bar eoi _ tile _ b1 => if tile then !bar && !eoi else b1 == 0
  | .ktopk _ _ kt _ _ _ | .ksort _ _ _ kt _ _ _ | .kscan _ _ _ kt _ _ _ | .kmerge _ _ kt _ _ _ => kt != 3
  | .cpy sk dk eoi _ _ sidx _ _ => copyOk sk dk eoi sidx
  | .cpyx sk dk eoi _ _ sidx _ _ => copyOk sk dk eoi sidx && sk != 2
  | .cpyf sk fb _ sidx _ _ b2 => copyOk sk 1 false sidx && (fb || b2 == 0)
  | .csig sk dk _ _ sidx _ _ _ => copyOk sk dk false sidx && dk != 2
  | .rsct kt op _ _ _ | .ared kt op _ _ _ => (kt == 1 || kt == 2) && op != 3
  | .amo _ lm dw op _ b2 => atomicOk true lm dw op b2
  | .amoc _ _ _ b2 => b2 >>> 15 == 0
  | .red ord lm dw op _ b2 => !ord.getLsbD 0 && atomicOk false lm dw op b2
  | .redv ord op _ _ _ => !ord.getLsbD 0 && op.toNat < 9
  | .spqrySt _ _ => true
  | .fadd n | .fsub n | .fmul n | .fmax n | .fmin n => binaryOk (floatMods 0 n) n
  | .ffma n => nodeRow (floatMods 3 n && (n.er || n.imm)) .opt .opt .req .req .opt false n
  | .fabs n | .fneg n | .fcls n | .frcp n | .frsq n | .fexp2 n | .flog2 n => unaryOk (floatMods 0 n) n
  | .fcmp n => binaryOk (floatMods 7 n) n
  | .frnd n => unaryOk (floatMods 3 n) n
  | .iadd n | .isub n | .imax n | .imin n => binaryOk (intMods 1 n) n
  | .imul n => binaryOk (intMods 3 n) n
  | .icmp n => binaryOk (intMods 15 n && (n.mods.extractLsb' 0 3).toNat ≤ 5) n
  | .iabs n => unaryOk (intMods 1 n) n
  | .nodeAnd n | .nodeOr n | .nodeXor n | .andn n => binaryOk (modsIn 0 n) n
  | .shl n | .shr n | .sar n => binaryOk (intMods 0 n) n
  | .lshuf n => nodeRow (modsIn 0 n) .req .no .no .req .opt false n
  | .lrot n => nodeRow (modsIn 1 n && (n.er || n.imm)) .opt .opt .no .req .opt false n
  | .lbcast n => nodeRow (modsIn 0 n && (n.er || n.imm)) .opt .opt .no .req .opt false n
  | .lsum n | .lmax n | .lmin n => reduceOk n
  | .cvt n => cvtOk n
  | .pack n => nodeRow (modsIn 0x3E n && n.mods.extractLsb' 3 3 != 0 && (n.er || n.imm)) .opt .opt .opt .req .opt false n
  | .unpack n => nodeRow (modsIn 0x30 n) .no .no .no .req .no false n
  | .steer n => nodeRow (modsIn 1 n && !(targetNull n.tgta && targetNull n.tgtb)) .no .no .req .opt .opt false n
  | .merge n => nodeRow (modsIn 0 n) .req .no .req .req .opt false n
  | .carry n => nodeRow (modsIn 7 n && levelOk n) .req .no .req .req .opt false n
  | .select n => nodeRow (modsIn 0 n && (n.er || n.imm)) .opt .opt .req .req .opt false n
  | .gate n => nodeRow (modsIn 1 n) .no .no .req .req .opt false n
  | .join n => nodeRow (modsIn 0 n && (n.er || n.ep)) .opt .no .opt .req .opt false n
  | .dup n => nodeRow (modsIn 0 n) .no .no .no .req .req false n
  | .sink n => nodeRow (modsIn 0 n) .no .no .no .no .no false n
  | .const n => nodeRow (modsIn 3 n && (!n.mods.getLsbD 0 || n.cidx.toNat ≤ 48)) .no .no .no .req .opt true n
  | .count n => nodeRow (modsIn 0x1F n && levelOk n) .no .opt .no .req .opt false n
  | .maddr n => nodeRow (modsIn 3 n && (n.er || n.imm)) .opt .opt .opt .req .opt false n
  | .mload n => nodeRow (modsIn 0x10 n) .no .no .no .req .opt true n
  | .mstore n => nodeRow (modsIn 0x10 n) .req .no .no .opt .no true n
  | .matom n => nodeRow (modsIn 0x1F n && (n.mods.extractLsb' 0 4).toNat ≤ 10 && n.ep == (n.mods.extractLsb' 0 4 == 10))
      .req .no .opt .req .opt true n
  | .mred n => nodeRow (modsIn 0x1F n && (n.mods.extractLsb' 0 4).toNat ≤ 8) .req .no .no .opt .no true n
  | .gload n => nodeRow (modsIn 0x10 n && n.cidx.toNat ≤ 62) .no .no .no .req .opt true n
  | .gstore n => nodeRow (modsIn 0x10 n && n.cidx.toNat ≤ 62) .req .no .no .opt .no true n
  | .cmpr n => nodeRow (modsIn 0 n && !n.dual) .req .no .no .req .opt false n
  | .csum n => nodeRow (modsIn 0 n) .no .no .no .req .opt false n
  | .trace n => nodeRow (modsIn 0xF n) .no .no .no .req .no false n
  | _ => true

end Sys2Proof
end

