-- ==== Sys2Proof/Decode.lean ====
section
/-!
DEFINITION. The four decoders of the HX4 (R38 to R70, R389): scalar words, the ISSUE group, stream commands, node words
and task-graph nodes; after them the encoder. The layers share no encoding (R30), so the number of words tells the layer.
-/

namespace Sys2Proof

/-- Why a word stands for no instruction. -/
inductive DecodeError where
  /-- A major opcode, class or node opcode that its map leaves unassigned (R41, R60, R67, R72). -/
  | unassignedOpcode
  /-- A sub-function that its map leaves unassigned (R42 to R53, R61). -/
  | unassignedFunction
  /-- A field that the form does not use is not zero (R40, R62, R63). -/
  | reservedField
  /-- An operand field that the form rules out (R45, R48, R50, R55, R62, R65). -/
  | badOperand
  /-- A number of words that no layer uses (R30). -/
  | badLength
  deriving DecidableEq, Repr

/-- The field of `len` bits from bit `lo` up. -/
abbrev fld {w : Nat} (v : BitVec w) (lo len : Nat) : BitVec len := v.extractLsb' lo len

/-- The result of a decoder. -/
abbrev Decoded := Except DecodeError Instr

/-- An instruction whose unused fields must all be zero and whose operands must be in range. -/
def form (zero : Bool) (i : Instr) : Decoded :=
  if zero then if wf i then .ok i else .error .badOperand else .error .reservedField

/-- Bit `k` of a word. -/
abbrev bit {w : Nat} (v : BitVec w) (k : Nat) : Bool := v.getLsbD k

/-- Register ALU forms (R42). -/
def decodeAlu (w : W32) : Decoded :=
  let d := fld w 21 5; let a := fld w 16 5; let b := fld w 11 5
  match (fld w 0 11).toNat with
  | 0 => form true (.add d a b)
  | 1 => form true (.sub d a b)
  | 2 => form true (.and d a b)
  | 3 => form true (.or d a b)
  | 4 => form true (.xor d a b)
  | 5 => form true (.sll d a b)
  | 6 => form true (.srl d a b)
  | 7 => form true (.sra d a b)
  | 8 => form true (.slt d a b)
  | 9 => form true (.sltu d a b)
  | _ => .error .unassignedFunction

/-- Multiply and divide forms (R44). -/
def decodeMul (w : W32) : Decoded :=
  let d := fld w 21 5; let a := fld w 16 5; let b := fld w 11 5
  match (fld w 0 11).toNat with
  | 0 => form true (.mul d a b)
  | 1 => form true (.mulh d a b)
  | 2 => form true (.mulhu d a b)
  | 3 => form true (.div d a b)
  | 4 => form true (.divu d a b)
  | 5 => form true (.rem d a b)
  | 6 => form true (.remu d a b)
  | _ => .error .unassignedFunction

/-- Bit-field forms (R45). -/
def decodeField (w : W32) : Decoded :=
  let d := fld w 21 5; let a := fld w 16 5; let pos := fld w 7 6; let len := fld w 1 6; let z := fld w 0 1 == 0
  match (fld w 13 3).toNat with
  | 0 => form z (.bfx d a pos len)
  | 1 => form z (.bfxs d a pos len)
  | 2 => form z (.bfi d a pos len)
  | 3 => form (fld w 0 10 == 0 && a == 0) (.widx d (fld w 10 3))
  | 4 => form (fld w 0 13 == 0) (.clz d a)
  | 5 => form (fld w 0 13 == 0) (.ctz d a)
  | 6 => form (fld w 0 13 == 0) (.popc d a)
  | _ => .error .unassignedFunction

/-- Handler control (R49, R118). -/
def decodeHandler (w : W32) : Decoded :=
  let d := fld w 21 5; let a := fld w 16 5; let b := fld w 11 5
  match (fld w 0 11).toNat with
  | 0 => form (d == 0 && a == 0 && b == 0) .done
  | 1 => form (d == 0 && a == 0 && b == 0) .waith
  | 2 => form (d == 0) (.post a b)
  | 3 => form (d == 0 && b == 0) (.hmask a)
  | 4 => form (d == 0 && b == 0) (.hunmask a)
  | _ => .error .unassignedFunction

/-- Special-register moves (R50). -/
def decodeMove (w : W32) : Decoded :=
  let d := fld w 21 5; let a := fld w 16 5; let b := fld w 11 5
  match (fld w 9 2).toNat with
  | 0 => form (a == 0 && b == 0) (.mfs d (fld w 0 9))
  | 1 => form (d == 0 && b == 0) (.mts a (fld w 0 9))
  | _ => .error .unassignedFunction

/-- Synchronisation (R51). -/
def decodeSync (w : W32) : Decoded :=
  let d := fld w 21 5; let a := fld w 16 5; let b := fld w 11 5; let sc := fld w 2 2; let z := fld w 0 2 == 0
  match (fld w 4 7).toNat with
  | 0 => form (z && d == 0 && a == 0 && b == 0) (.fence sc)
  | 1 => form (z && sc == 0 && d == 0 && b == 0) (.barr a)
  | 2 => form (z && b == 0) (.ldgAcq d a sc)
  | 3 => form (z && d == 0) (.stgRel a b sc)
  | 4 => form (z && sc == 0 && b == 0) (.locq d a)
  | _ => .error .unassignedFunction

/-- Hints and decisions (R52). -/
def decodeHint (w : W32) : Decoded :=
  let a := fld w 16 5; let z := fld w 21 5 == 0 && fld w 11 5 == 0
  match (fld w 8 3).toNat with
  | 0 =>
    match (fld w 0 2).toNat with
    | 0 => form (z && a == 0 && fld w 2 6 == 0) .phintComp
    | 1 => form (z && a == 0 && fld w 2 6 == 0) .phintMem
    | 2 => form (z && a == 0 && fld w 2 6 == 0) .phintWait
    | _ => .error .badOperand
  | 1 =>
    if bit w 2 then form (z && fld w 3 5 == 0 && fld w 0 2 == 0) (.decideReg a)
    else form (z && a == 0 && fld w 3 5 == 0) (.decideImm (fld w 0 2))
  | 2 => form (z && fld w 0 8 == 0) (.pref a)
  | _ => .error .unassignedFunction

/-- System forms (R53). -/
def decodeSystem (w : W32) : Decoded :=
  let z := fld w 11 15 == 0
  match (fld w 8 3).toNat with
  | 0 => form z (.trap (fld w 0 8))
  | 1 => form (z && fld w 0 8 == 0) .tret
  | 2 => form (z && fld w 0 8 == 0) .ebrk
  | _ => .error .unassignedFunction

/-- Decode one scalar word by its major opcode (R40, R41). -/
def decodeScalar (w : W32) : Decoded :=
  let d := fld w 21 5; let a := fld w 16 5; let imm := fld w 0 16
  match (fld w 26 6).toNat with
  | 0x01 => decodeAlu w
  | 0x02 => form true (.addi d a imm)
  | 0x03 => form true (.andi d a imm)
  | 0x04 => form true (.ori d a imm)
  | 0x05 => form true (.xori d a imm)
  | 0x06 => form (fld w 6 10 == 0) (.slli d a (fld w 0 6))
  | 0x07 => form (fld w 6 10 == 0) (.srli d a (fld w 0 6))
  | 0x08 => form (fld w 6 10 == 0) (.srai d a (fld w 0 6))
  | 0x09 => form true (.slti d a imm)
  | 0x0A => form true (.sltiu d a imm)
  | 0x0B => form (a == 0) (.lui d imm)
  | 0x0C => decodeMul w
  | 0x0D => decodeField w
  | 0x10 => form true (.ldlD d a imm)
  | 0x11 => form true (.ldlW d a imm)
  | 0x12 => form true (.stlD d a imm)
  | 0x13 => form true (.stlW d a imm)
  | 0x14 => form true (.ldgD d a imm)
  | 0x15 => form true (.ldgW d a imm)
  | 0x16 => form true (.stgD d a imm)
  | 0x17 => form true (.stgW d a imm)
  | 0x18 => form true (.beq d a imm)
  | 0x19 => form true (.bne d a imm)
  | 0x1A => form true (.blt d a imm)
  | 0x1B => form true (.bge d a imm)
  | 0x1C => form true (.bltu d a imm)
  | 0x1D => form true (.bgeu d a imm)
  | 0x1E => form true (.jal d (fld w 0 21))
  | 0x1F => form true (.jalr d a imm)
  | 0x20 => form true (.loop (fld w 24 2) (fld w 19 5) (fld w 0 19))
  | 0x21 => form true (.loopi (fld w 24 2) (fld w 12 12) (fld w 0 12))
  | 0x22 => decodeHandler w
  | 0x23 => decodeMove w
  | 0x24 => decodeSync w
  | 0x25 => decodeHint w
  | 0x30 => decodeSystem w
  | _ => .error .unassignedOpcode

/-- Decode an ISSUE word and its four command words (R54, R55). -/
def decodeIssue (w : W32) (c : Cmd128) : Decoded :=
  if fld w 26 6 == 0x3F then
    form (fld w 0 2 == 0) (.issue (fld w 21 5) (fld w 16 5) (fld w 11 5) (fld w 6 5) (bit w 5) (bit w 4) (bit w 3) (bit w 2) c)
  else .error .unassignedOpcode

/-- The 64-bit operand over B1:B0. -/
abbrev cmdWide (c : Cmd128) : Word := fld c 0 64

/-- Tile commands (R215, R216). -/
def decodeTileCmd (c : Cmd128) : Decoded :=
  let md := fld c 104 8; let h := fld c 96 6; let b0 := fld c 0 32; let b1 := fld c 32 32
  let za := fld c 102 2 == 0; let z2 := fld c 64 32 == 0; let z12 := fld c 32 64 == 0; let z := fld c 0 96 == 0
  match (fld c 112 8).toNat with
  | 0 => form (za && z2 && fld md 5 3 == 0) (.talloc (fld md 0 2) (bit md 2) (fld md 3 2) h b0 b1)
  | 1 => form (za && z && md == 0) (.tfree h)
  | 2 => form (za && z12 && md == 0) (.tring h b0)
  | 3 => if bit md 0 then form (za && z && fld md 1 7 == 0) (.townEngine h) else form (za && z && fld md 1 7 == 0) (.townSeq h)
  | 4 => form (za && z12 && md == 0) (.advp h b0)
  | 5 => form (za && z12 && md == 0) (.advc h b0)
  | 6 => if bit md 0 then form (za && z12 && fld md 1 7 == 0) (.twaitFree h b0)
      else form (za && z12 && fld md 1 7 == 0) (.twaitFill h b0)
  | 7 => form (za && z && md == 0) (.tzero h)
  | 8 => form (za && z && md == 0) (.tstat h)
  | _ => .error .unassignedFunction

/-- Stream commands (R231). -/
def decodeStreamCmd (c : Cmd128) : Decoded :=
  let md := fld c 104 8; let p := fld c 96 3; let b0 := fld c 0 32; let b1 := fld c 32 32
  let zarg := fld c 99 5 == 0; let z2 := fld c 64 32 == 0; let z := fld c 0 96 == 0
  match (fld c 112 8).toNat with
  | 0 => form (md == 0 && fld c 99 1 == 0 && fld c 102 2 == 0) (.splev p (fld c 100 2) (cmdWide c) (fld c 64 32))
  | 1 => if bit md 0 then form (zarg && z2 && fld md 1 7 == 0) (.spbaseVa p (cmdWide c))
      else form (zarg && z2 && fld md 1 7 == 0) (.spbaseTile p b0 b1)
  | 2 => form (zarg && z2 && fld md 7 1 == 0) (.spmode p (fld md 0 7) b0 b1)
  | 3 => form (fld c 99 1 == 0 && fld c 32 64 == 0 && fld md 1 7 == 0) (.spgo p (bit md 0) (fld c 100 4) b0)
  | 4 => form (zarg && z && md == 0) (.spclose p)
  | 5 =>
    match (fld md 0 2).toNat with
    | 0 => form (zarg && z && fld md 2 6 == 0) (.spqryLo p)
    | 1 => form (zarg && z && fld md 2 6 == 0) (.spqryHi p)
    | 2 => form (zarg && z && fld md 2 6 == 0) (.spqrySt p false)
    | _ => form (zarg && z && fld md 2 6 == 0) (.spqrySt p true)
  | 6 => form (md == 0 && z2 && fld c 99 1 == 0 && fld c 103 1 == 0) (.spwid p (fld c 100 3) (cmdWide c))
  | _ => .error .unassignedFunction

/-- Matrix commands (R316). -/
def decodeMatrixCmd (c : Cmd128) : Decoded :=
  let md := fld c 104 8; let acc := fld c 110 2; let z := bit md 5; let ty := fld md 0 3
  let b0 := fld c 0 32; let b1 := fld c 32 32; let b2 := fld c 64 32; let za := fld c 96 8 == 0
  match (fld c 112 8).toNat with
  | 0 => form za (.mma acc z (bit md 4) (bit md 3) ty b0 b1 b2)
  | 1 => form true (.mmag acc z (bit md 4) (bit md 3) ty (fld c 96 4) (fld c 100 4) b0 b1 b2)
  | 2 => form (za && fld md 3 2 == 0) (.mmv acc z ty b0 b1 b2)
  | 3 => form (fld md 3 2 == 0 && fld c 100 4 == 0) (.mcoop acc z ty (bit c 96) (fld c 97 3) b0 b1 b2)
  | 4 => form (za && fld md 0 6 == 0 && fld c 32 64 == 0) (.aclr acc b0)
  | 5 => form (za && bit md 5 == false && bit md 2 == false && b2 == 0) (.ard acc (bit md 4) (bit md 3) (bit md 1) (bit md 0) b0 b1)
  | 6 => form (za && fld md 0 6 == 0 && b2 == 0) (.awr acc b0 b1)
  | _ => .error .unassignedFunction

/-- Key commands (R342, R343). -/
def decodeKeyCmd (c : Cmd128) : Decoded :=
  let md := fld c 104 8; let si := bit md 7; let so := bit md 6; let kt := fld md 0 2; let za := fld c 96 8 == 0
  let b0 := fld c 0 32; let b1 := fld c 32 32; let b2 := fld c 64 32
  match (fld c 112 8).toNat with
  | 0 => form (za && fld md 2 4 == 0) (.ktopk si so kt b0 b1 b2)
  | 1 => form (za && fld md 3 3 == 0) (.ksort si so (bit md 2) kt b0 b1 b2)
  | 2 => form (za && fld md 3 3 == 0 && kt == 0) (.khist si so (bit md 2) b0 b1 b2)
  | 3 => form (za && fld md 3 3 == 0) (.kscan si so (bit md 2) kt b0 b1 b2)
  | 4 => form (za && !si && !so && bit md 2 == false) (.kmerge (fld md 4 2) (bit md 3) kt b0 b1 b2)
  | 5 => if bit md 2 then form (za && fld md 3 5 == 0 && kt == 0) (.kpermS b0 b1 b2)
      else form (za && fld md 3 5 == 0 && kt == 0) (.kpermG b0 b1 b2)
  | _ => .error .unassignedFunction

/-- Copy commands (R359, R360). -/
def decodeCopyCmd (c : Cmd128) : Decoded :=
  let md := fld c 104 8; let sk := fld md 6 2; let dk := fld md 4 2; let eng := fld c 96 4; let si := fld c 100 2
  let b0 := fld c 0 32; let b1 := fld c 32 32; let b2 := fld c 64 32; let za := fld c 102 2 == 0
  match (fld c 112 8).toNat with
  | 0 => form (za && fld md 2 2 == 0 && b2 == 0) (.cpy sk dk (bit md 0) (bit md 1) eng si b0 b1)
  | 1 => form (za && fld md 2 2 == 0 && b2 == 0) (.cpyx sk dk (bit md 0) (bit md 1) eng si b0 b1)
  | 2 => form (za && fld md 1 3 == 0 && dk == 1) (.cpyf sk (bit md 0) eng si b0 b1 b2)
  | 3 => form (za && fld md 1 3 == 0) (.csig sk dk (bit md 0) eng si b0 b1 b2)
  | _ => .error .unassignedFunction

/-- Collective commands (R376). -/
def decodeCollectiveCmd (c : Cmd128) : Decoded :=
  let md := fld c 104 8; let g := fld c 96 6; let b0 := fld c 0 32; let b1 := fld c 32 32
  let z2 := fld c 102 2 == 0 && fld c 64 32 == 0
  match (fld c 112 8).toNat with
  | 0 => if bit md 1 then form (z2 && fld md 2 6 == 0) (.cgrpFree (bit md 0) g b0 b1)
      else form (z2 && fld md 2 6 == 0) (.cgrp (bit md 0) g b0 b1)
  | 1 => form (z2 && b1 == 0 && fld md 2 6 == 0) (.a2av (fld md 0 2) g b0)
  | 2 => form (z2 && fld md 2 6 == 0) (.agth (fld md 0 2) g b0 b1)
  | 3 => form (z2 && fld md 4 4 == 0) (.rsct (fld md 0 2) (fld md 2 2) g b0 b1)
  | 4 => form (z2 && fld md 4 4 == 0) (.ared (fld md 0 2) (fld md 2 2) g b0 b1)
  | _ => .error .unassignedFunction

/-- Atomic and reduction commands (R295 to R297). -/
def decodeAtomicCmd (c : Cmd128) : Decoded :=
  let md := fld c 104 8; let ord := fld md 6 2; let lm := bit md 5; let dw := bit md 4; let op := fld md 0 4
  let za := fld c 96 8 == 0; let b2 := fld c 64 32
  match (fld c 112 8).toNat with
  | 0 => form za (.amo ord lm dw op (cmdWide c) b2)
  | 1 => form (za && !lm && op == 0) (.amoc ord dw (cmdWide c) b2)
  | 2 => form za (.red ord lm dw op (cmdWide c) b2)
  | 3 => form (fld c 102 2 == 0 && !lm && !dw) (.redv ord op (fld c 96 6) (cmdWide c) b2)
  | _ => .error .unassignedFunction

/-- Decode a stream command by its class (R59 to R62). -/
def decodeCommand (c : Cmd128) : Decoded :=
  match (fld c 120 8).toNat with
  | 1 => decodeTileCmd c
  | 2 => decodeStreamCmd c
  | 3 => decodeMatrixCmd c
  | 4 => decodeKeyCmd c
  | 5 => decodeCopyCmd c
  | 6 => decodeCollectiveCmd c
  | 7 => decodeAtomicCmd c
  | _ => .error .unassignedOpcode

/-- The B fields that a command accepts as bindable (bit k for Bk), and whether B1:B0 is one 64-bit operand (R62). -/
def bindable : Instr → BitVec 3 × Bool
  | .talloc _ _ _ _ _ _ => (3, false)
  | .tring _ _ | .advp _ _ | .advc _ _ | .twaitFill _ _ | .twaitFree _ _ => (1, false)
  | .splev _ _ _ _ => (7, true)
  | .spbaseTile _ _ _ | .spmode _ _ _ _ => (3, false)
  | .spbaseVa _ _ | .spwid _ _ _ => (3, true)
  | .spgo _ _ _ _ => (1, false)
  | .mma _ _ sb sa _ _ _ _ => (1 ||| (if sa then 0 else 2) ||| (if sb then 0 else 4), false)
  | .mmag _ _ sb _ _ _ _ _ _ _ => (if sb then 3 else 7, false)
  | .mmv _ _ _ _ _ _ | .mcoop _ _ _ _ _ _ _ _ => (7, false)
  | .aclr _ _ => (1, false)
  | .ard _ _ _ _ tile _ _ => (if tile then 3 else 1, false)
  | .awr _ _ _ => (3, false)
  | .ktopk _ _ _ _ _ _ | .ksort _ _ _ _ _ _ _ | .khist _ _ _ _ _ _ | .kscan _ _ _ _ _ _ _ | .kmerge _ _ _ _ _ _
  | .kpermG _ _ _ | .kpermS _ _ _ => (7, false)
  | .cpy _ _ _ _ _ _ _ _ | .cpyx _ _ _ _ _ _ _ _ | .cpyf _ _ _ _ _ _ _ | .csig _ _ _ _ _ _ _ _ => (7, false)
  | .cgrp _ _ _ _ | .cgrpFree _ _ _ _ | .a2av _ _ _ | .agth _ _ _ _ | .rsct _ _ _ _ _ | .ared _ _ _ _ _ => (7, false)
  | .amo _ _ _ _ _ _ | .amoc _ _ _ _ | .red _ _ _ _ _ _ | .redv _ _ _ _ _ => (7, true)
  | _ => (0, false)

/-- `command_legal` of R56: the bound command decodes, and every binding is allowed (R62). -/
def legalCommand (c : Cmd128) (e2 e1 e0 wide : Bool) : Decoded :=
  match decodeCommand c with
  | .error e => .error e
  | .ok i =>
    let bound : BitVec 3 := (if e0 then 1 else 0) ||| (if e1 || wide then 2 else 0) ||| (if e2 then 4 else 0)
    if bound &&& ~~~(bindable i).1 == 0 && (!wide || (bindable i).2) then .ok i else .error .badOperand

/-- The fields of a node word (R63). -/
def nodeFields (w : Word) : NodeFields :=
  { mods := fld w 48 6, tgta := fld w 33 15, tgtb := fld w 18 15, cidx := fld w 12 6, el := bit w 11, er := bit w 10,
    ep := bit w 9, imm := bit w 8, rsteoi := bit w 7, dual := bit w 6, brk := bit w 5, brkn := fld w 2 3 }

/-- Decode a node word whose LIVE bit is 1 by its opcode (R63 to R67). -/
def decodeNode (w : Word) : Decoded :=
  let n := nodeFields w
  let z := bit w 0 && bit w 1 == false
  match (fld w 54 10).toNat with
  | 0x000 => form z (.fadd n)
  | 0x001 => form z (.fsub n)
  | 0x002 => form z (.fmul n)
  | 0x003 => form z (.ffma n)
  | 0x004 => form z (.fmax n)
  | 0x005 => form z (.fmin n)
  | 0x006 => form z (.fabs n)
  | 0x007 => form z (.fneg n)
  | 0x008 => form z (.fcmp n)
  | 0x009 => form z (.frnd n)
  | 0x00A => form z (.fcls n)
  | 0x010 => form z (.frcp n)
  | 0x011 => form z (.frsq n)
  | 0x012 => form z (.fexp2 n)
  | 0x013 => form z (.flog2 n)
  | 0x020 => form z (.iadd n)
  | 0x021 => form z (.isub n)
  | 0x022 => form z (.imul n)
  | 0x023 => form z (.imax n)
  | 0x024 => form z (.imin n)
  | 0x025 => form z (.icmp n)
  | 0x026 => form z (.iabs n)
  | 0x030 => form z (.nodeAnd n)
  | 0x031 => form z (.nodeOr n)
  | 0x032 => form z (.nodeXor n)
  | 0x033 => form z (.andn n)
  | 0x038 => form z (.shl n)
  | 0x039 => form z (.shr n)
  | 0x03A => form z (.sar n)
  | 0x040 => form z (.lshuf n)
  | 0x041 => form z (.lrot n)
  | 0x042 => form z (.lbcast n)
  | 0x050 => form z (.lsum n)
  | 0x051 => form z (.lmax n)
  | 0x052 => form z (.lmin n)
  | 0x100 => form z (.cvt n)
  | 0x101 => form z (.pack n)
  | 0x102 => form z (.unpack n)
  | 0x180 => form z (.steer n)
  | 0x181 => form z (.merge n)
  | 0x182 => form z (.carry n)
  | 0x183 => form z (.select n)
  | 0x184 => form z (.gate n)
  | 0x185 => form z (.join n)
  | 0x186 => form z (.dup n)
  | 0x187 => form z (.sink n)
  | 0x188 => form z (.const n)
  | 0x189 => form z (.count n)
  | 0x1C0 => form z (.maddr n)
  | 0x1C1 => form z (.mload n)
  | 0x1C2 => form z (.mstore n)
  | 0x1C3 => form z (.matom n)
  | 0x1C4 => form z (.mred n)
  | 0x1C5 => form z (.gload n)
  | 0x1C6 => form z (.gstore n)
  | 0x200 => form z (.cmpr n)
  | 0x201 => form z (.csum n)
  | 0x202 => form z (.trace n)
  | _ => .error .unassignedOpcode

/-- The fields of a task-graph node (R389). -/
def graphFields (w : BitVec 512) : GraphFields :=
  { state := fld w 8 56, succ0 := fld w 64 64, succ1 := fld w 128 64, succ2 := fld w 192 64, succ3 := fld w 256 64,
    body0 := fld w 320 64, body1 := fld w 384 64, body2 := fld w 448 64 }

/-- Decode a task-graph node by its type code (R72). -/
def decodeGraph (w : BitVec 512) : Decoded :=
  let n := graphFields w
  match (fld w 0 8).toNat with
  | 1 => .ok (.launch n)
  | 2 => .ok (.graphCond n)
  | 3 => .ok (.graphWhile n)
  | 4 => .ok (.waitm n)
  | 5 => .ok (.signal n)
  | 6 => .ok (.graphJoin n)
  | 7 => .ok (.graphEnd n)
  | _ => .error .unassignedOpcode

/-- Decode a list of 32-bit words, lowest address first: 1 word is layer 1, 5 an ISSUE group, 4 a command, 2 a node word,
16 a task-graph node (R30, R54, R59, R63, R72). -/
def decode : List W32 → Decoded
  | [w] => decodeScalar w
  | [w0, w1] => decodeNode (w1 ++ w0)
  | [w0, w1, w2, w3] => decodeCommand (w3 ++ w2 ++ w1 ++ w0)
  | [w, c0, c1, c2, c3] => decodeIssue w (c3 ++ c2 ++ c1 ++ c0)
  | [w0, w1, w2, w3, w4, w5, w6, w7, w8, w9, w10, w11, w12, w13, w14, w15] =>
      decodeGraph (w15 ++ w14 ++ w13 ++ w12 ++ w11 ++ w10 ++ w9 ++ w8 ++ w7 ++ w6 ++ w5 ++ w4 ++ w3 ++ w2 ++ w1 ++ w0)
  | _ => .error .badLength

/-- Cut a number of `n` 32-bit words into its words, least significant first. -/
def cutWords : Nat → Nat → List W32
  | 0, _ => []
  | n + 1, v => BitVec.ofNat 32 v :: cutWords n (v / 2 ^ 32)

/-- The instruction that the decoder reads from `nbits` bits (a whole number of 32-bit words; R30 gives the layer). -/
def decodeTableWord (nbits w : Nat) : Option Instr :=
  match decode (cutWords (nbits / 32) w) with
  | .ok i => some i
  | .error _ => none

/-! ### The encoder -/

/-- Format A (R39). -/
def encA (op : BitVec 6) (d a b : Reg) (fn : BitVec 11) : W32 := op ++ d ++ a ++ b ++ fn

/-- Format I, and format B with its two registers in place of xd and xa (R39). -/
def encI (op : BitVec 6) (d a : Reg) (imm : BitVec 16) : W32 := op ++ d ++ a ++ imm

/-- Format F (R39). -/
def encF (d a : Reg) (sub : BitVec 3) (pos len : BitVec 6) : W32 := 0x0D#6 ++ d ++ a ++ sub ++ pos ++ len ++ 0#1

/-- A scalar word (R41 to R53), or the ISSUE word of a group; none for the other layers. -/
def encodeScalar : Instr → Option W32
  | .add d a b => some (encA 1 d a b 0)
  | .sub d a b => some (encA 1 d a b 1)
  | .and d a b => some (encA 1 d a b 2)
  | .or d a b => some (encA 1 d a b 3)
  | .xor d a b => some (encA 1 d a b 4)
  | .sll d a b => some (encA 1 d a b 5)
  | .srl d a b => some (encA 1 d a b 6)
  | .sra d a b => some (encA 1 d a b 7)
  | .slt d a b => some (encA 1 d a b 8)
  | .sltu d a b => some (encA 1 d a b 9)
  | .addi d a imm => some (encI 0x02 d a imm)
  | .andi d a imm => some (encI 0x03 d a imm)
  | .ori d a imm => some (encI 0x04 d a imm)
  | .xori d a imm => some (encI 0x05 d a imm)
  | .slli d a sh => some (encI 0x06 d a (0#10 ++ sh))
  | .srli d a sh => some (encI 0x07 d a (0#10 ++ sh))
  | .srai d a sh => some (encI 0x08 d a (0#10 ++ sh))
  | .slti d a imm => some (encI 0x09 d a imm)
  | .sltiu d a imm => some (encI 0x0A d a imm)
  | .lui d imm => some (encI 0x0B d 0 imm)
  | .mul d a b => some (encA 0x0C d a b 0)
  | .mulh d a b => some (encA 0x0C d a b 1)
  | .mulhu d a b => some (encA 0x0C d a b 2)
  | .div d a b => some (encA 0x0C d a b 3)
  | .divu d a b => some (encA 0x0C d a b 4)
  | .rem d a b => some (encA 0x0C d a b 5)
  | .remu d a b => some (encA 0x0C d a b 6)
  | .bfx d a pos len => some (encF d a 0 pos len)
  | .bfxs d a pos len => some (encF d a 1 pos len)
  | .bfi d a pos len => some (encF d a 2 pos len)
  | .widx d k => some (encF d 0 3 (k ++ 0#3) 0)
  | .clz d a => some (encF d a 4 0 0)
  | .ctz d a => some (encF d a 5 0 0)
  | .popc d a => some (encF d a 6 0 0)
  | .ldlD d a imm => some (encI 0x10 d a imm)
  | .ldlW d a imm => some (encI 0x11 d a imm)
  | .stlD d a imm => some (encI 0x12 d a imm)
  | .stlW d a imm => some (encI 0x13 d a imm)
  | .ldgD d a imm => some (encI 0x14 d a imm)
  | .ldgW d a imm => some (encI 0x15 d a imm)
  | .stgD d a imm => some (encI 0x16 d a imm)
  | .stgW d a imm => some (encI 0x17 d a imm)
  | .beq a b off => some (encI 0x18 a b off)
  | .bne a b off => some (encI 0x19 a b off)
  | .blt a b off => some (encI 0x1A a b off)
  | .bge a b off => some (encI 0x1B a b off)
  | .bltu a b off => some (encI 0x1C a b off)
  | .bgeu a b off => some (encI 0x1D a b off)
  | .jal d off => some (0x1E#6 ++ d ++ off)
  | .jalr d a imm => some (encI 0x1F d a imm)
  | .loop level c last => some (0x20#6 ++ level ++ c ++ last)
  | .loopi level count last => some (0x21#6 ++ level ++ count ++ last)
  | .done => some (encA 0x22 0 0 0 0)
  | .waith => some (encA 0x22 0 0 0 1)
  | .post a b => some (encA 0x22 0 a b 2)
  | .hmask a => some (encA 0x22 0 a 0 3)
  | .hunmask a => some (encA 0x22 0 a 0 4)
  | .mfs d num => some (encA 0x23 d 0 0 (0#2 ++ num))
  | .mts a num => some (encA 0x23 0 a 0 (1#2 ++ num))
  | .fence sc => some (encA 0x24 0 0 0 (0#7 ++ sc ++ 0#2))
  | .barr a => some (encA 0x24 0 a 0 (1#7 ++ 0#4))
  | .ldgAcq d a sc => some (encA 0x24 d a 0 (2#7 ++ sc ++ 0#2))
  | .stgRel a b sc => some (encA 0x24 0 a b (3#7 ++ sc ++ 0#2))
  | .locq d a => some (encA 0x24 d a 0 (4#7 ++ 0#4))
  | .phintComp => some (encA 0x25 0 0 0 0x000)
  | .phintMem => some (encA 0x25 0 0 0 0x001)
  | .phintWait => some (encA 0x25 0 0 0 0x002)
  | .decideImm bay => some (encA 0x25 0 0 0 (0x40#9 ++ bay))
  | .decideReg a => some (encA 0x25 0 a 0 0x104)
  | .pref a => some (encA 0x25 0 a 0 0x200)
  | .trap code => some (encA 0x30 0 0 0 (0#3 ++ code))
  | .tret => some (encA 0x30 0 0 0 0x100)
  | .ebrk => some (encA 0x30 0 0 0 0x200)
  | .issue xt xb0 xb1 xb2 e2 e1 e0 wide _ =>
      some (0x3F#6 ++ xt ++ xb0 ++ xb1 ++ xb2 ++ BitVec.ofBool e2 ++ BitVec.ofBool e1 ++ BitVec.ofBool e0 ++ BitVec.ofBool wide ++ 0#2)
  | _ => none

/-- A stream command (R59) from its class, function, MOD and ARG bytes and its B fields. -/
def encC (cls func md arg : BitVec 8) (b2 b1 b0 : BitVec 32) : Cmd128 := cls ++ func ++ md ++ arg ++ b2 ++ b1 ++ b0

/-- The same with one 64-bit operand over B1:B0. -/
def encCW (cls func md arg : BitVec 8) (b2 : BitVec 32) (w : Word) : Cmd128 := cls ++ func ++ md ++ arg ++ b2 ++ w

/-- One bit. -/
abbrev b1 (b : Bool) : BitVec 1 := BitVec.ofBool b

/-- A stream command (R61 and the chapters); none for the other layers. -/
def encodeCommand : Instr → Option Cmd128
  | .talloc level ring cellm h rows rowb => some (encC 1 0 (0#3 ++ cellm ++ b1 ring ++ level) (0#2 ++ h) 0 rowb rows)
  | .tfree h => some (encC 1 1 0 (0#2 ++ h) 0 0 0)
  | .tring h fill => some (encC 1 2 0 (0#2 ++ h) 0 0 fill)
  | .townEngine h => some (encC 1 3 1 (0#2 ++ h) 0 0 0)
  | .townSeq h => some (encC 1 3 0 (0#2 ++ h) 0 0 0)
  | .advp h n => some (encC 1 4 0 (0#2 ++ h) 0 0 n)
  | .advc h n => some (encC 1 5 0 (0#2 ++ h) 0 0 n)
  | .twaitFill h k => some (encC 1 6 0 (0#2 ++ h) 0 0 k)
  | .twaitFree h k => some (encC 1 6 1 (0#2 ++ h) 0 0 k)
  | .tzero h => some (encC 1 7 0 (0#2 ++ h) 0 0 0)
  | .tstat h => some (encC 1 8 0 (0#2 ++ h) 0 0 0)
  | .splev p level stride n => some (encCW 2 0 0 (0#2 ++ level ++ 0#1 ++ p) n stride)
  | .spbaseTile p b0 off => some (encC 2 1 0 (0#5 ++ p) 0 off b0)
  | .spbaseVa p addr => some (encCW 2 1 1 (0#5 ++ p) 0 addr)
  | .spmode p mods b0 ceil => some (encC 2 2 (0#1 ++ mods) (0#5 ++ p) 0 ceil b0)
  | .spgo p bar chan n => some (encC 2 3 (0#7 ++ b1 bar) (chan ++ 0#1 ++ p) 0 0 n)
  | .spclose p => some (encC 2 4 0 (0#5 ++ p) 0 0 0)
  | .spqryLo p => some (encC 2 5 0 (0#5 ++ p) 0 0 0)
  | .spqryHi p => some (encC 2 5 1 (0#5 ++ p) 0 0 0)
  | .spqrySt p bad => some (encC 2 5 (if bad then 3 else 2) (0#5 ++ p) 0 0 0)
  | .spwid p k step => some (encCW 2 6 0 (0#1 ++ k ++ 0#1 ++ p) 0 step)
  | .mma acc z sb sa ty b0 o1 o2 => some (encC 3 0 (acc ++ b1 z ++ b1 sb ++ b1 sa ++ ty) 0 o2 o1 b0)
  | .mmag acc z sb scat ty g sc b0 o1 o2 => some (encC 3 1 (acc ++ b1 z ++ b1 sb ++ b1 scat ++ ty) (sc ++ g) o2 o1 b0)
  | .mmv acc z ty b0 o1 o2 => some (encC 3 2 (acc ++ b1 z ++ 0#2 ++ ty) 0 o2 o1 b0)
  | .mcoop acc z ty gr gc b0 o1 o2 => some (encC 3 3 (acc ++ b1 z ++ 0#2 ++ ty) (0#4 ++ gc ++ b1 gr) o2 o1 b0)
  | .aclr acc b0 => some (encC 3 4 (acc ++ 0#6) 0 0 0 b0)
  | .ard acc bar eoi clr tile b0 o1 => some (encC 3 5 (acc ++ 0#1 ++ b1 bar ++ b1 eoi ++ 0#1 ++ b1 clr ++ b1 tile) 0 0 o1 b0)
  | .awr acc b0 o1 => some (encC 3 6 (acc ++ 0#6) 0 0 o1 b0)
  | .ktopk si so kt b0 o1 o2 => some (encC 4 0 (b1 si ++ b1 so ++ 0#4 ++ kt) 0 o2 o1 b0)
  | .ksort si so desc kt b0 o1 o2 => some (encC 4 1 (b1 si ++ b1 so ++ 0#3 ++ b1 desc ++ kt) 0 o2 o1 b0)
  | .khist si so acc b0 o1 o2 => some (encC 4 2 (b1 si ++ b1 so ++ 0#3 ++ b1 acc ++ 0#2) 0 o2 o1 b0)
  | .kscan si so excl kt b0 o1 o2 => some (encC 4 3 (b1 si ++ b1 so ++ 0#3 ++ b1 excl ++ kt) 0 o2 o1 b0)
  | .kmerge fn keepz kt b0 o1 o2 => some (encC 4 4 (0#2 ++ fn ++ b1 keepz ++ 0#1 ++ kt) 0 o2 o1 b0)
  | .kpermG b0 o1 o2 => some (encC 4 5 0 0 o2 o1 b0)
  | .kpermS b0 o1 o2 => some (encC 4 5 4 0 o2 o1 b0)
  | .cpy sk dk eoi adv eng sidx b0 o1 => some (encC 5 0 (sk ++ dk ++ 0#2 ++ b1 adv ++ b1 eoi) (0#2 ++ sidx ++ eng) 0 o1 b0)
  | .cpyx sk dk eoi adv eng sidx b0 o1 => some (encC 5 1 (sk ++ dk ++ 0#2 ++ b1 adv ++ b1 eoi) (0#2 ++ sidx ++ eng) 0 o1 b0)
  | .cpyf sk fb eng sidx b0 o1 o2 => some (encC 5 2 (sk ++ 1#2 ++ 0#3 ++ b1 fb) (0#2 ++ sidx ++ eng) o2 o1 b0)
  | .csig sk dk sys eng sidx b0 o1 o2 => some (encC 5 3 (sk ++ dk ++ 0#3 ++ b1 sys) (0#2 ++ sidx ++ eng) o2 o1 b0)
  | .cgrp devs g p rank => some (encC 6 0 (0#7 ++ b1 devs) (0#2 ++ g) 0 rank p)
  | .cgrpFree devs g p rank => some (encC 6 0 (0#6 ++ 1#1 ++ b1 devs) (0#2 ++ g) 0 rank p)
  | .a2av esz g ld => some (encC 6 1 (0#6 ++ esz) (0#2 ++ g) 0 0 ld)
  | .agth esz g ld n => some (encC 6 2 (0#6 ++ esz) (0#2 ++ g) 0 n ld)
  | .rsct kt op g ld n => some (encC 6 3 (0#4 ++ op ++ kt) (0#2 ++ g) 0 n ld)
  | .ared kt op g ld n => some (encC 6 4 (0#4 ++ op ++ kt) (0#2 ++ g) 0 n ld)
  | .amo ord lm dw op addr o2 => some (encCW 7 0 (ord ++ b1 lm ++ b1 dw ++ op) 0 o2 addr)
  | .amoc ord dw addr o2 => some (encCW 7 1 (ord ++ 0#1 ++ b1 dw ++ 0#4) 0 o2 addr)
  | .red ord lm dw op addr o2 => some (encCW 7 2 (ord ++ b1 lm ++ b1 dw ++ op) 0 o2 addr)
  | .redv ord op h addr o2 => some (encCW 7 3 (ord ++ 0#2 ++ op) (0#2 ++ h) o2 addr)
  | _ => none

/-- A node word with LIVE = 1 (R63). -/
def encN (opc : BitVec 10) (n : NodeFields) : Word :=
  opc ++ n.mods ++ n.tgta ++ n.tgtb ++ n.cidx ++ b1 n.el ++ b1 n.er ++ b1 n.ep ++ b1 n.imm ++ b1 n.rsteoi ++ b1 n.dual ++
    b1 n.brk ++ n.brkn ++ 1#2

/-- A node word (R67); none for the other layers. -/
def encodeNode : Instr → Option Word
  | .fadd n => some (encN 0x000 n)
  | .fsub n => some (encN 0x001 n)
  | .fmul n => some (encN 0x002 n)
  | .ffma n => some (encN 0x003 n)
  | .fmax n => some (encN 0x004 n)
  | .fmin n => some (encN 0x005 n)
  | .fabs n => some (encN 0x006 n)
  | .fneg n => some (encN 0x007 n)
  | .fcmp n => some (encN 0x008 n)
  | .frnd n => some (encN 0x009 n)
  | .fcls n => some (encN 0x00A n)
  | .frcp n => some (encN 0x010 n)
  | .frsq n => some (encN 0x011 n)
  | .fexp2 n => some (encN 0x012 n)
  | .flog2 n => some (encN 0x013 n)
  | .iadd n => some (encN 0x020 n)
  | .isub n => some (encN 0x021 n)
  | .imul n => some (encN 0x022 n)
  | .imax n => some (encN 0x023 n)
  | .imin n => some (encN 0x024 n)
  | .icmp n => some (encN 0x025 n)
  | .iabs n => some (encN 0x026 n)
  | .nodeAnd n => some (encN 0x030 n)
  | .nodeOr n => some (encN 0x031 n)
  | .nodeXor n => some (encN 0x032 n)
  | .andn n => some (encN 0x033 n)
  | .shl n => some (encN 0x038 n)
  | .shr n => some (encN 0x039 n)
  | .sar n => some (encN 0x03A n)
  | .lshuf n => some (encN 0x040 n)
  | .lrot n => some (encN 0x041 n)
  | .lbcast n => some (encN 0x042 n)
  | .lsum n => some (encN 0x050 n)
  | .lmax n => some (encN 0x051 n)
  | .lmin n => some (encN 0x052 n)
  | .cvt n => some (encN 0x100 n)
  | .pack n => some (encN 0x101 n)
  | .unpack n => some (encN 0x102 n)
  | .steer n => some (encN 0x180 n)
  | .merge n => some (encN 0x181 n)
  | .carry n => some (encN 0x182 n)
  | .select n => some (encN 0x183 n)
  | .gate n => some (encN 0x184 n)
  | .join n => some (encN 0x185 n)
  | .dup n => some (encN 0x186 n)
  | .sink n => some (encN 0x187 n)
  | .const n => some (encN 0x188 n)
  | .count n => some (encN 0x189 n)
  | .maddr n => some (encN 0x1C0 n)
  | .mload n => some (encN 0x1C1 n)
  | .mstore n => some (encN 0x1C2 n)
  | .matom n => some (encN 0x1C3 n)
  | .mred n => some (encN 0x1C4 n)
  | .gload n => some (encN 0x1C5 n)
  | .gstore n => some (encN 0x1C6 n)
  | .cmpr n => some (encN 0x200 n)
  | .csum n => some (encN 0x201 n)
  | .trace n => some (encN 0x202 n)
  | _ => none

/-- A task-graph node (R72, R389). -/
def encG (t : Byte) (n : GraphFields) : BitVec 512 :=
  n.body2 ++ n.body1 ++ n.body0 ++ n.succ3 ++ n.succ2 ++ n.succ1 ++ n.succ0 ++ n.state ++ t

/-- A task-graph node; none for the other layers. -/
def encodeGraph : Instr → Option (BitVec 512)
  | .launch n => some (encG 1 n)
  | .graphCond n => some (encG 2 n)
  | .graphWhile n => some (encG 3 n)
  | .waitm n => some (encG 4 n)
  | .signal n => some (encG 5 n)
  | .graphJoin n => some (encG 6 n)
  | .graphEnd n => some (encG 7 n)
  | _ => none

/-- The words of a well-formed instruction, lowest address first; an event has none. -/
def encode (i : Instr) : List W32 :=
  match i with
  | .issue _ _ _ _ _ _ _ _ c => (encodeScalar i).toList ++ [fld c 0 32, fld c 32 32, fld c 64 32, fld c 96 32]
  | _ =>
    match encodeScalar i, encodeCommand i, encodeNode i, encodeGraph i with
    | some w, _, _, _ => [w]
    | none, some c, _, _ => [fld c 0 32, fld c 32 32, fld c 64 32, fld c 96 32]
    | none, none, some n, _ => [fld n 0 32, fld n 32 32]
    | none, none, none, some g =>
        [fld g 0 32, fld g 32 32, fld g 64 32, fld g 96 32, fld g 128 32, fld g 160 32, fld g 192 32, fld g 224 32,
          fld g 256 32, fld g 288 32, fld g 320 32, fld g 352 32, fld g 384 32, fld g 416 32, fld g 448 32, fld g 480 32]
    | none, none, none, none => []

end Sys2Proof
end

