-- ==== Sys2Proof/Config.lean ====
section
/-!
DEFINITION. What one part fixes and what the manual leaves open: counts of R22, free values without a body, fused constants.
-/

namespace Sys2Proof.Config

/-- Cores of the package: 80 on each of four Field dies (R15, R22). -/
abbrev cores : Nat := 320

/-- Clusters of the package (R19). -/
abbrev clusters : Nat := 40

/-- Bytes of one HBM channel (R236). -/
abbrev channelBytes : Nat := 2 ^ 31

/-- Bytes of device memory (R35). -/
abbrev deviceBytes : Nat := 2 ^ 39

/-- Bytes of one memory cell (R17). -/
abbrev cellBytes : Nat := 524288

/-- Bytes of local data memory (R105). -/
abbrev localBytes : Nat := 32768

/-- The pace counters agree to within one tick (R14): whether the counter of a cluster is one tick ahead. Free value, log 6. -/
opaque paceAhead : Nat → Bool

/-- The entry that leaves a full instruction cache (R106 gives no replacement). Free value, log 7. -/
opaque icacheVictim : Nat → Nat

/-- The fused identity of the device (R444). Free value, log 8. -/
opaque deviceId : BitVec 128

/-- The fused rollback counter of an image KIND (R443). Free value, log 8. -/
opaque rollback : Nat → BitVec 32

/-- The contents of the two flash slots of an image KIND (R443). Free value, log 8. -/
opaque flash : Nat → Nat → List Byte

/-- The fused SHA-384 of the key block (R443). Free value, log 8. -/
opaque keyHash : BitVec 384

/-- SHA-384 (R443): no rule of the machine depends on how it is computed. Free value, log 8. -/
opaque sha384 : List Byte → BitVec 384

/-- SHA-512 (R443, R444). Free value, log 8. -/
opaque sha512 : List Byte → BitVec 512

/-- Ed25519 verification (R443): public key, signature, message. Free value, log 8. -/
opaque edValid : List Byte → List Byte → List Byte → Bool

/-- ML-DSA-65 verification (R443): public key, signature, message. Free value, log 8. -/
opaque mlValid : List Byte → List Byte → List Byte → Bool

/-- The public attestation keys (R444): Ed25519 and ML-DSA-65, byte by byte. Free value, log 8. -/
opaque attestKey : Nat → Byte

/-- The two signatures of a report, byte by byte, as a function of the signed bytes (R444). Free value, log 8. -/
opaque attestSignature : List Byte → Nat → Byte

/-- The fused MAC address of an Ethernet port (R434). Free value, log 8. -/
opaque macAddress : Nat → BitVec 48

/-- What a read of a 32-byte sector with an uncorrectable error delivers beside its poison mark (R238). Free value, log 9. -/
opaque poisonByte : Nat → Byte

/-- Whether the host link of a part runs CXL.cache, or PCIe without it (R298, R385, R430). Free value, log 15. -/
opaque cxlCache : Bool

/-- Whether the host link runs CXL 3.x, which exposes device memory with back-invalidate (R431). Free value, log 15. -/
opaque backInvalidate : Bool

/-- The 30 bits in which SPQRY.ST gives a number of invocations left that they cannot hold (R231). Free value, log 21. -/
opaque leftField : Nat → BitVec 30

end Sys2Proof.Config
end

