-- ==== Sys2Proof/Machine/State.lean ====
section
/-!
DEFINITION. The state of the HX4 as plain data: every piece of state the manual names, the actions still to come,
and the state after reset. Sparse tables list only the entries that differ from what an unlisted key reads as.
-/

namespace Sys2Proof.Machine

/-- A sparse table: keys strictly rising, and no entry equal to the default value of the table. -/
abbrev Tbl (α : Type) := List (Nat × α)

/-- A byte memory in canonical form; an unlisted address reads as zero. -/
abbrev Mem := List Host.Cell

/-- A token: kind, lane mask and 16 lanes (R163). -/
structure Token where
  kind : BitVec 2
  mask : BitVec 16
  lanes : List W32
  deriving DecidableEq, Repr

/-- One slot of an arc (R165): reserved from the producer's firing on, ready when the token has arrived. The slots of one
firing that waits for memory share an `id`. -/
structure Slot where
  id : Nat
  ready : Bool
  tok : Token
  deriving DecidableEq, Repr

/-- STATE of a handler entry (R108). -/
inductive HState where
  | idle
  | running
  | waiting
  | stalled
  deriving DecidableEq, Repr

/-- What a yielding stall waits for (R113): a pending register, a translation, an instruction line (or the fault that its
fetch met), one of the 16 command slots, the acceptance of a command by a port, a matrix operator, the key engine or copy
engines, local bytes held by an atomic, an inbox slot, a decision, an acquire, a fence, a barrier square. -/
inductive Stall where
  | reg (phys : Nat)
  | walk (id : Nat)
  | line (va : Nat)
  | fetchFault (code : Byte) (malformed : Bool) (va : Nat)
  | slots
  | port (p : Nat)
  | matrix (core : Nat)
  | key
  | copy (engines : List Nat)
  | localBytes (addr len : Nat)
  | inbox (core chan : Nat)
  | decide
  | acquire
  | fence
  | square
  deriving DecidableEq, Repr

/-- LC, LS and LE of one loop level (R128). -/
structure Loop where
  lc : W32
  ls : Word
  le : Word
  deriving DecidableEq, Repr

/-- A handler table entry (R108). `order` lists the active loop levels, most recently opened first. -/
structure Handler where
  valid : Bool
  entry : Word
  prio : BitVec 8
  mask : Bool
  state : HState
  wake : Bool
  savedPc : Word
  l0 : Loop
  l1 : Loop
  l2 : Loop
  order : List Nat
  stall : Option Stall
  inbox : List (Word × BitVec 16)
  deriving DecidableEq, Repr

/-- A replay entry (R413), whose DROP bit the frame that TRET read gives, with the operand descriptor of its first acceptance and, for a copy, its progress. -/
structure Replay where
  id : Nat
  cmd : Cmd128
  iaddr : Word
  xt : Nat
  chan : Nat
  drop : Bool
  started : Bool
  follow : Bool
  ecode : Byte
  desc : List Byte
  prog : Nat
  deriving DecidableEq, Repr

/-- How far an outstanding command has come. -/
inductive Phase where
  | accepted
  | running
  | complete
  | faulted
  deriving DecidableEq, Repr

/-- The CTL packet that takes a command to an executor on another die (R291): none is needed, it waits for the earlier accesses of its
sequencer, it is on its way, it has been delivered; and its completion word is on its way back (R290). -/
inductive CtlState where
  | here
  | held
  | sent
  | arrived
  | answered
  deriving DecidableEq, Repr

/-- A command accepted by its executor and not yet complete (R56). `home` is the die of its executor. -/
structure Cmd where
  id : Nat
  cmd : Cmd128
  xt : Nat
  iaddr : Word
  chan : Nat
  follow : Bool
  phase : Phase
  code : Byte
  result : W32
  desc : List Byte
  prog : Nat
  acc : Nat
  home : Nat
  ctl : CtlState
  deriving DecidableEq, Repr

/-- A fault that an event has raised and a sequencer has not yet taken (R411). -/
structure HeldFault where
  code : Byte
  detail : BitVec 24
  tepc : Word
  tval : Word
  engine : Bool
  deriving DecidableEq, Repr

/-- Trap mode of a sequencer (R411). -/
structure TrapMode where
  on : Bool
  idle : Bool
  precise : Bool
  chan : Nat
  resume : Word
  hosted : Bool
  routine : Bool
  engine : Bool
  deriving DecidableEq, Repr

/-- A tile table entry (R209) and the sequencer-side accesses accepted and not yet performed (R213). -/
structure Tile where
  valid : Bool
  level : BitVec 2
  ring : Bool
  cellm : BitVec 2
  owner : Bool
  held : Bool
  holders : Nat
  rows : Nat
  rowb : Nat
  rp : Nat
  wp : Nat
  fill : Nat
  base : Nat
  busy : Nat
  deriving DecidableEq, Repr

/-- State of a stream port (R221, R231). -/
inductive PortState where
  | idle
  | run
  | fault
  deriving DecidableEq, Repr

/-- A stream port (R221): its registers, position and run. `idx` counts the tokens of the invocation in progress, `slot` is its ring
slot (R226), `waitId` the number at which its wait for a ring slot was accepted, 0 for none (R214), `eoiIn` is set from the consumption of an EOI
until the stores before it are performed (R224); `doneDue` and `barDue` are what is left of a run that has ended (R230). -/
structure Port where
  dir : Bool
  va : Bool
  auto : Bool
  sheaf : BitVec 3
  ztail : Bool
  lanes : Nat
  chan : BitVec 4
  ceil : W32
  base : Word
  count : List Nat
  stride : List Int
  wstep : List Int
  pos : Word
  ended : Bool
  state : PortState
  left : Nat
  bar : Bool
  barDue : Bool
  doneDue : Bool
  started : Bool
  idx : Nat
  slot : Nat
  waitId : Nat
  eoiIn : Bool
  window : Nat
  heldBack : Bool
  closeRun : Bool
  doneWid : Word
  barChan : Option Nat
  deriving DecidableEq, Repr

/-- States of CARRY (R174). -/
inductive CarryState where
  | init
  | loop
  | drain
  | drainb
  deriving DecidableEq, Repr

/-- The state a node keeps between firings (R174, R181, R186, R98, R101, R90). `last` is the identifier of the last EOI that it
forwarded since its bay became current, and the bits of `ends` are the inputs that have consumed the EOI of the plot's last invocation (R201). -/
structure NodeState where
  st : CarryState
  v : Token
  keep : Bool
  close : Nat
  c : W32
  s : W32
  extra : Bool
  idx : W32
  sheaf : List W32
  t : Nat
  last : Option Word
  ends : BitVec 3
  faulted : Bool
  deriving DecidableEq, Repr

/-- The node words s0 to s5 and the two port slot words of one bay of a cell (R70). -/
structure Bay where
  nodes : List (BitVec 64)
  ports : List (BitVec 64)
  deriving DecidableEq, Repr

/-- A fabric cell (R16, R70, R205): bays, pool, current bay, arcs keyed 4*stage + position, node state keyed 8*bay + stage. -/
structure Cell where
  bays : Tbl Bay
  pool : Tbl W32
  bay : Nat
  arcs : Tbl (List Slot)
  nstate : Tbl NodeState
  deriving DecidableEq, Repr

/-- A command that the array works on (R323): who issued it, the working copy, the tile row of each product row, the accumulator
row that each product row reaches, the chunk and the row groups or column blocks still to do in it, the steps taken, the tokens
consumed from streams, and the tokens still to inject. -/
structure MRun where
  core : Nat
  id : Nat
  work : Tbl W32
  arows : List (Option Nat)
  crows : List (Option Nat)
  chunk : Nat
  began : Bool
  todo : List Nat
  steps : Nat
  atok : List Token
  btok : List Token
  out : List Token
  deriving DecidableEq, Repr

/-- The matrix operator of a core (R313, R315): accumulator elements keyed 4096 * acc + 64 * row + column, versions, the accepted
commands as (issuing core, command), the command that holds a grant (R425), and the one in progress. -/
structure Matrix where
  accs : Tbl W32
  vers : Tbl Byte
  queue : List (Nat × Nat)
  grant : Option (Nat × Nat)
  run : Option MRun
  deriving DecidableEq, Repr

/-- The key engine of a core (R352, R353): accepted commands, consumed tokens, tokens still to leave; `absent` is TVAL of the slot that the bay
lacked when the command started (R345). -/
structure KeyEng where
  queue : List Nat
  itok : List Token
  out : List Token
  started : Bool
  performed : Bool
  result : W32
  absent : Option Word
  deriving DecidableEq, Repr

/-- A translation cache entry (R243). Sizes are 0 for 4 KiB, 1 for 64 KiB, 2 for 2 MiB, 3 for 1 GiB. -/
structure TcEntry where
  root : Word
  page : Nat
  size : Nat
  pa : Nat
  host : Bool
  place : BitVec 2
  homedie : BitVec 2
  sa : Bool
  wb : Bool
  ac : Bool
  rw : Bool
  wr : Bool
  nf : Bool
  deriving DecidableEq, Repr

/-- The memory cells of a core (R17, R233 to R235): the bytes written, keyed 524288 * m + byte; error counters keyed
18 * m + position; failed banks (m, position); and how each stored symbol differs from the codeword written, keyed
(32768 * m + row) * 18 + position. -/
structure Scratch where
  bytes : Mem
  errs : Tbl Nat
  failed : List (Nat × Nat)
  flips : Tbl Byte
  deriving DecidableEq, Repr

/-- Race detector state of a core (R310). -/
structure RaceCore where
  int : W32
  relPlot : Option W32
  relDevice : Option W32
  relSystem : Option W32
  deriving DecidableEq, Repr

/-- The position of an engine's ingress slot (R332, R345, R365): the next work identifier, whether a token of it has been
injected, and whether the plot's last invocation is over. -/
structure SlotPos where
  pos : Word
  begun : Bool
  ended : Bool
  deriving DecidableEq, Repr

/-- A FENCE in progress (R286): its handler, its address and scope, and whether every earlier access has reached its point. -/
structure Fence where
  chan : Nat
  iaddr : Word
  scope : BitVec 2
  done : Bool
  deriving DecidableEq, Repr

/-- A core: sequencer, tile table, scratchpad, ports, cells, matrix operator and key engine (R15, R104). `dirty` lists the other dies that
hold the home of a write of the sequencer not yet known to be performed, `probes` the dies whose fence probes are out, and `probeFor` the
release that they serve, 0 for the FENCE (R286). -/
structure Core where
  plot : Option Nat
  regs : Tbl Word
  pend : Tbl Bool
  pc : Word
  handlers : Tbl Handler
  running : Option Nat
  last : Nat
  chan : BitVec 4
  tcause : W32
  tepc : Word
  tval : Word
  trqn : Nat
  trap : TrapMode
  held : List HeldFault
  replay : List Replay
  reinj : List Replay
  lmem : Mem
  icache : List (Nat × BitVec 512)
  cmds : List Cmd
  arm : Bool
  stopped : Bool
  stepping : Bool
  acq : Option Nat
  fence : Option Fence
  dirty : List Nat
  probes : List Nat
  probeFor : Option Nat
  race : RaceCore
  tiles : Tbl Tile
  scratch : Scratch
  ports : Tbl Port
  cells : Tbl Cell
  mat : Matrix
  key : KeyEng
  slotPos : Tbl SlotPos
  tcache : Tbl (List TcEntry)
  deriving DecidableEq, Repr

/-- Where a plot stands in its life (R203, R416). -/
inductive PlotState where
  | waiting
  | loading
  | armed
  | hostwait
  | saving
  | saved
  | sweep
  | finished
  deriving DecidableEq, Repr

/-- An arc breakpoint pair (R188). -/
structure Breakpoint where
  trig : W32
  kbar : Bool
  keoi : Bool
  kdata : Bool
  en : Bool
  count : W32
  hit : Bool
  deriving DecidableEq, Repr

/-- A plot fault or sequencer escalation that waits for the host (R416). -/
structure HostWait where
  code : Byte
  core : Nat
  seq : Bool
  escalated : Bool
  deriving DecidableEq, Repr

/-- A plot (R24 to R28, R191, R396). Identifiers of the outermost field run from `lo` to `hi - 1`. `bayStart` and `bayCount` are the
first identifier run, and the invocations retired, when the current bay became current (R205). `bays` are those that some
cell record holds (R70), `duals` the cells (core, cell) that hold copy 1 of dual nodes (R206), `fed` the
copy slots that the plan feeds (R169; keyed as `sinkKey`, which also keys `sinkEoi` and `sinkBar`), `img` the plan image as the walker fetched it (R194 step 1), `image407` the cores
as the save took them, for what R407 gives no place. `begun` is the largest identifier that an ingress slot of a drained row had begun (R204),
`barChans` the barriers that ports of the lead core carry and that are not complete, as (number, port, channel) (R230). `cand` is the offset that the
placer has asked for, with the number of the request (R199); `saveHeld` a pre-emption request that has been sent and has not taken effect (R402, R406). `wdStop` and `runStop` are the ticks that the watchdog and the run time did not count (R409, R403). -/
structure Plot where
  id : Nat
  node : Word
  p : Nat
  state : PlotState
  die : Nat
  col : Nat
  row : Nat
  w : Nat
  h : Nat
  image : Word
  ptroot : Word
  widths : List Nat
  extents : List Nat
  lo : Nat
  hi : Nat
  seed : Word
  racelog : Bool
  codebase : Word
  trapoff : W32
  tfaddr : Nat
  prio : Nat
  slice : Nat
  wdog : Nat
  saveva : Word
  mask : List (BitVec 8)
  dualcol : Nat
  dualrow : Nat
  duals : List (Nat × Nat)
  fed : List Nat
  bays : BitVec 4
  bay : Nat
  bayStart : Word
  bayCount : Nat
  wid : Word
  retired : Nat
  sinkEoi : Tbl Nat
  sinkBar : Tbl Nat
  bars : Nat
  decision : Option Nat
  closing : Bool
  bound : Option Word
  drained : List Nat
  follow : Option Nat
  pred : Option Word
  waits : List HostWait
  ageTime : BitVec 64
  armTime : BitVec 64
  runStart : BitVec 64
  lastRetire : BitVec 64
  budget : Option (BitVec 64)
  ts : Nat
  tr : Nat
  ti : Nat
  sliceUsed : Bool
  restored : Bool
  startPend : Bool
  code : Byte
  bps : Tbl Breakpoint
  ringPa : Word
  ringLog : Nat
  ringNext : Nat
  raceId : BitVec 16
  image407 : List (Nat × Core)
  img : List Byte
  aging : Bool
  wdStop : Nat
  runStop : Nat
  begun : Option Word
  barChans : List (Nat × Nat × Nat)
  cand : Option (Nat × Nat × Nat)
  candAt : Nat
  saveHeld : Bool
  deriving DecidableEq, Repr

/-- A lease table entry (R197). -/
inductive Lease where
  | free
  | loading (plot : Nat)
  | armed (plot : Nat)
  | handoff (plot next : Nat)
  | sweep (plot : Nat)
  deriving DecidableEq, Repr

/-- Who issued an access (R279). -/
inductive Agent where
  | seq (core : Nat)
  | node (core cell stage : Nat)
  | port (core p : Nat)
  | matrix (core : Nat)
  | engine (eng : Nat)
  | host (port : Bool)
  | walker (die : Nat)
  | roce (port : Nat)
  deriving DecidableEq, Repr

/-- What an access does at its home (R281, R299). -/
inductive AccKind where
  | read
  | write
  | atomic
  | reduce
  deriving DecidableEq, Repr

/-- Where the answer of an access goes. An `arc` answer fills `slot` from `lane` up; `cls` and `tail` say how a port checks a sheaf
(R225), 0 for a plain token. -/
inductive Dest where
  | none
  | reg (core phys : Nat) (iaddr : Word)
  | cmd (core id : Nat)
  | arc (core cls tail slot lane : Nat)
  deriving DecidableEq, Repr

/-- How far an access has come: parked at the translation cache of its core (R293), issued at its agent, stamped by the clock unit, accepted
by the host port of a Market die (R281), performed at its home, its answer returned to the agent. -/
inductive AccPhase where
  | parked
  | issued
  | stamped
  | accepted
  | performed
  | returned
  deriving DecidableEq, Repr

/-- An access on the memory path (R281 to R289). `addr` is a storage address, or a host physical address; `xfer` is shared by the pieces of
one transfer (R287), 0 outside transfers; `parts` are the byte ranges that the byte enables of a write leave, none for all of its bytes (R282, R363).
`sub` marks a further part of a request of at most 64 bytes (R245), `span` is the shift of the page through which it was translated (R244). -/
structure Access where
  id : Nat
  agent : Agent
  kind : AccKind
  va : Word
  host : Bool
  addr : Nat
  pa : Nat
  len : Nat
  data : List Byte
  cmp : List Byte
  op : BitVec 4
  rel : Bool
  acq : Bool
  scope : BitVec 2
  rw : Bool
  ac : Bool
  iaddr : Word
  wint : BitVec 16
  phase : AccPhase
  remote : Bool
  dest : Dest
  value : List Byte
  code : Byte
  trail : Bool
  xfer : Nat
  parts : List (Nat × Nat)
  cached : Bool
  sub : Bool
  span : Nat
  deriving DecidableEq, Repr

/-- A non-leaf entry in the walk cache of a die (R243): the table of `level` that the addresses of `page` reach under a root, and the AND of
WR on the way to it. -/
structure WcEntry where
  root : Word
  level : Nat
  page : Nat
  table : Nat
  wr : Bool
  deriving DecidableEq, Repr

/-- A page walk in progress (R243): agent, access kind and virtual address; `fault` once a walk has ended in one (R241), `heldAt` the time
since which a store waits at the walker because of WB (R244). -/
structure Walk where
  id : Nat
  core : Nat
  root : Word
  va : Word
  store : Bool
  fetch : Bool
  fault : Option (Byte × Bool)
  heldAt : Option (BitVec 64)
  deriving DecidableEq, Repr

/-- A control word in flight to a channel (R109). `src` names the sender for the order of POST words. -/
structure CtlWord where
  src : Nat
  core : Nat
  chan : Nat
  word : Word
  origin : BitVec 16
  deriving DecidableEq, Repr

/-- A barrier square (R305), with the arrivals of each die; `who` lists the die, core and channel of each arrival of the open phase (R308, log 69). -/
structure Square where
  gen : Byte
  isOpen : Bool
  nexp : BitVec 16
  arr : BitVec 16
  cnt : Tbl Nat
  who : List (Nat × Nat × Nat)
  deriving DecidableEq, Repr

/-- A message between a die and a square (R306, R308): arrival (op 0), release (1), withdrawal (2), answer (3), and an arrival that its
agent still holds in its memory path (4), issued when `after` was the last number given. Channel 255 is the withdrawal of a sweep. -/
structure BarMsg where
  op : Nat
  square : Nat
  die : Nat
  core : Nat
  chan : Nat
  n : Nat
  ok : Bool
  after : Nat
  deriving DecidableEq, Repr

/-- A waiter on a square at its die (R306); `v` is the operand of its BARR. -/
structure Waiter where
  v : Word
  square : Nat
  die : Nat
  core : Nat
  chan : Nat
  woken : Bool
  refused : Bool
  deriving DecidableEq, Repr

/-- A packet (R249 to R252). `acc` names the access that it carries, whose number TAG cuts to 16 bits (model's own, log 88). -/
structure Packet where
  ptype : Byte
  src : Nat
  dst : Nat
  express : Bool
  detour : Bool
  resp : Bool
  seq : BitVec 16
  gen : BitVec 4
  incs : List (Nat × Nat × Nat)
  ext : List (Nat × Nat × Nat)
  npay : Nat
  trail : Bool
  tag : BitVec 16
  addr : BitVec 64
  len : Nat
  op : Byte
  opw : Bool
  origin : BitVec 16
  acc : Nat
  data : List Byte
  malformed : Bool
  deriving DecidableEq, Repr

/-- A packet in an early buffer and the place that it holds (R261). -/
structure Early where
  pkt : Packet
  place : Nat
  decoded : Bool
  deriving DecidableEq, Repr

/-- A saved atomic reply (R264, R302). -/
structure Reply where
  src : Nat
  seq : BitVec 16
  express : Bool
  acc : Nat
  value : List Byte
  deriving DecidableEq, Repr

/-- The clock unit, early buffer, retry store and reply cache of a die (R254, R261, R263, R264). `unsent` holds
packets that wait at the clock unit (R263, R274). Streams are keyed 4 * other die + 2 * express + resp. `mayRejoin`
is set once a RESYNC has completed since the removal of the die (R442). -/
structure Die where
  v : Tbl W32
  d : Tbl W32
  live : Bool
  removed : Bool
  mayRejoin : Bool
  gen : BitVec 4
  phase : Nat
  phaseStart : BitVec 64
  unsent : List Packet
  lmat : Tbl W32
  rmat : Tbl W32
  sendSeq : Tbl Nat
  recvSeq : Tbl Nat
  stampCount : Tbl Nat
  arrived : List Packet
  early : List Early
  retry : List Packet
  refused : Tbl Nat
  nackWait : Tbl Nat
  nackTime : Tbl Nat
  ackCount : Tbl Nat
  ackTime : Tbl Nat
  lastAck : Tbl Nat
  replies : List Reply
  wcache : List WcEntry
  deriving DecidableEq, Repr

/-- A flit on a link (R267): its virtual channel (7 for link management), whether it is the first or the last of its packet, the packet, and
how many flits of the other direction a link-management flit acknowledges (R269). -/
structure Flit where
  vc : Nat
  ack : Nat
  last : Bool
  head : Bool
  pkt : Packet
  deriving DecidableEq, Repr

/-- One direction of a die link (R265 to R269). `sent` is the replay buffer: the flits sent and not acknowledged, the last of which are still on the
`wire`; `since` is the time of the last acknowledgement, or of the first flit sent after everything had been acknowledged; `got` counts the flits
received in this direction whose acknowledgement the other direction owes. -/
structure LinkPort where
  queues : Tbl (List Packet)
  got : Nat
  openX : Option (Packet × Nat)
  openF : Option (Packet × Nat)
  openXVc : Nat
  openFVc : Nat
  hist : List Bool
  credits : List Nat
  rrX : Nat
  rrF : Nat
  wire : List Flit
  sent : List Flit
  since : BitVec 64
  reasm : Tbl (List Flit)
  replays : Nat
  dead : Bool
  retraining : Bool
  bad : List (BitVec 64)
  deriving DecidableEq, Repr

/-- A copy engine (R358): accepted commands, the first of which may be running. `waited` is set once its rings' regions have been
waited for; `sptr` and `dptr` are the ring pointers that it then started from, `index` the index list of a CPYX, `buf` the stream bytes
consumed and not yet written, `tail` the bytes of the trailing sector taken so far (R363), `take` the bytes of the piece in progress, `flagged` what follows the last byte (CSIG's flag, an EOI). `waitId` numbers
the wait for ring slots that the tile table has accepted, 0 for none, `absent` says that the bay lacked the slot when the command started (R365), and `needs` is what it waits for: handle, filled or free, slots (R214). `dirty`, `probes` and
`probeFor` are those of a sequencer (R286), for the SYSTEM release of a CSIG. -/
structure CopyEng where
  queue : List (Nat × Nat)
  running : Bool
  waited : Bool
  sptr : Nat
  dptr : Nat
  index : List W32
  buf : List Byte
  tail : List Byte
  take : Nat
  flagged : Bool
  waitId : Nat
  needs : List (Nat × Bool × Nat)
  absent : Bool
  dirty : List Nat
  probes : List Nat
  probeFor : Option Nat
  deriving DecidableEq, Repr

/-- A member of a collective group (R375) and its pending commands: (core, id). -/
structure Member where
  plot : Nat
  rank : Nat
  core : Nat
  pending : List Nat
  freed : Option Nat
  deriving DecidableEq, Repr

/-- A collective group (R375). -/
structure Group where
  devs : Bool
  p : Nat
  members : List Member
  met : Bool
  done : List Nat
  deriving DecidableEq, Repr

/-- An entry of the queue set (R400). `restored` names a saved plot. -/
structure QEntry where
  node : Word
  level : Nat
  ready : BitVec 64
  aging : Bool
  launch : Bool
  restored : Option Nat
  rises : Nat
  deriving DecidableEq, Repr

/-- A WAITM that waits (R393), or a queue pair whose doorbell line is watched (R437). -/
structure GWait where
  node : Word
  qp : Option (Nat × Nat)
  line : Option Nat
  since : BitVec 64
  fired : Bool
  deriving DecidableEq, Repr

/-- A LAUNCH with plots (R398). -/
structure LaunchRun where
  node : Word
  plots : Nat
  placed : Nat
  ended : Nat
  fatal : Nat
  code : Byte
  prio : Nat
  deriving DecidableEq, Repr

/-- A power cluster (R420, R425, R427). `mlevel` and `ceil` are the meter level and ceiling that hold in the present window (R423);
`slewAt` is one more than the tick of the limiter's last step. -/
structure Cluster where
  level : BitVec 2
  ramping : Bool
  target : BitVec 2
  pvalid : Bool
  pend : BitVec 2
  rampStart : BitVec 64
  meter : BitVec 2
  mrLo : BitVec 16
  mrMid : BitVec 16
  mrHi : BitVec 16
  scale : BitVec 9
  ramptab : Word
  hints : BitVec 16
  occnt : W32
  lock : Bool
  a : Nat
  fillers : List Nat
  tripped : Bool
  mlevel : BitVec 2
  ceil : Nat
  slewAt : BitVec 64
  seen : List (Nat × (Nat × Nat))
  deriving DecidableEq, Repr

/-- The addressing of the packets that a queue pair sends (R434, R436): MAC and IP addresses (an IPv4 address stands as ::ffff:a.b.c.d), UDP
source port (the destination port is 4791), TTL or hop limit, traffic class, and the destination queue pair. -/
structure WireHeader where
  srcMac : BitVec 48
  dstMac : BitVec 48
  srcIp : BitVec 128
  dstIp : BitVec 128
  sport : BitVec 16
  hops : Byte
  tclass : Byte
  dqpn : BitVec 24
  deriving DecidableEq, Repr

/-- The answers of a port to an incoming operation (R435, R437). -/
inductive AnswerKind where
  | ack
  | readData
  | notReady
  | accessError
  | refused
  deriving DecidableEq, Repr

/-- The last answer that a port has sent: the queue pair, the packet sequence number that it answers, and the data of a READ. -/
structure EthAnswer where
  qp : Nat
  kind : AnswerKind
  psn : BitVec 24
  head : WireHeader
  data : List Byte
  deriving DecidableEq, Repr

/-- A send entry that the engine has started (R387): its index, opcode, completion flag, length and local address; what it sends: remote
address and key, immediate data, the first packet sequence number, the number of packets at the path MTU, their addressing, and the bytes; and the status with which it has failed, 0 while
it has not. -/
structure SendOp where
  idx : Nat
  op : Nat
  comp : Bool
  len : Nat
  lva : Word
  raddr : Word
  rkey : W32
  imm : W32
  psn : BitVec 24
  packets : Nat
  head : WireHeader
  data : List Byte
  status : Byte
  deriving DecidableEq, Repr

/-- A queue pair (R436, R437). `sqpi`, `rqpi` and `cqci` are the indices last read from the doorbell line, `inflight` the entries started
and not completed, `since` the time of the last progress of the oldest, `lastRead` that of the last reading of the line. `psn` and `epsn`
are the next packet sequence numbers sent and expected, `notReady` the ticks of a running receiver-not-ready timer and `unready` its
retries, `stores` the doorbell stores (offset and index) that wait at the walker (R244). -/
structure Qp where
  state : BitVec 3
  sqbase : Word
  sqlog : BitVec 5
  rqbase : Word
  rqlog : BitVec 5
  cqbase : Word
  cqlog : BitVec 5
  dbva : Word
  dqpn : BitVec 24
  diplo : Word
  diphi : Word
  dmac : BitVec 48
  spsn : BitVec 24
  rpsn : BitVec 24
  sport : W32
  retryCfg : BitVec 15
  sqci : Nat
  rqci : Nat
  cqpi : Nat
  errcode : Byte
  sqpi : Nat
  rqpi : Nat
  cqci : Nat
  retries : Nat
  inflight : List SendOp
  since : BitVec 64
  watched : Bool
  lastRead : BitVec 64
  psn : BitVec 24
  epsn : BitVec 24
  notReady : Option Nat
  unready : Nat
  stores : List (Nat × Word)
  deriving DecidableEq, Repr

/-- An Ethernet port (R434). `mac` is `none` while EMAC still holds the fused address; `answer` is the last answer that it has sent. -/
structure EthPort where
  ptroot : Word
  linkup : Bool
  speed : BitVec 2
  mac : Option (BitVec 48)
  ipv4 : W32
  ipv6lo : Word
  ipv6hi : Word
  mtu : BitVec 2
  mkbase : Word
  mkcount : BitVec 16
  en : Bool
  qps : Tbl Qp
  answer : Option EthAnswer
  deriving DecidableEq, Repr

/-- A ring of records in device memory with its registers (R245, R312, R395, R438). -/
structure Ring where
  base : Word
  log : BitVec 5
  head : W32
  tail : W32
  drop : W32
  deriving DecidableEq, Repr

/-- A shadow of the race detector (R309). -/
structure Shadow where
  wplot : BitVec 16
  wcore : BitVec 7
  wint : BitVec 16
  deriving DecidableEq, Repr

/-- An access counter of a serving agent (R245): the agent (a channel's bridge, or 256 + die for a host port), host page or not, frame,
requests, writes. -/
structure AcCounter where
  agent : Nat
  host : Bool
  frame : Nat
  count : Nat
  writes : Nat
  deriving DecidableEq, Repr

/-- A tracked split host atomic (R303). -/
structure SplitAtomic where
  port : Bool
  addr : Nat
  len : Nat
  old : Word
  deriving DecidableEq, Repr

/-- What a host port tells the host: the data of a read or atomic (R303, R430), a register read (R430), or a back-invalidation of a line that the
host caches (R431). -/
inductive HostKind where
  | data
  | register
  | invalidate
  deriving DecidableEq, Repr

/-- What a host port has delivered to the host (R303, R430, R431): port, address, bytes, and the code of a read that found none. -/
structure HostDone where
  port : Bool
  addr : Nat
  value : List Byte
  code : Byte
  kind : HostKind
  deriving DecidableEq, Repr

/-- A translation invalidation in progress (R432, R276). `n` numbers it, `source` is the die that sends its INVs, and `sentAt` holds one
more than the time of the last INV to each die. -/
structure Inval where
  n : Nat
  source : Nat
  busy : Bool
  va : Word
  pages : W32
  left : List Nat
  dropped : List Nat
  waitFor : List Nat
  sentAt : Tbl Nat
  deriving DecidableEq, Repr

/-- The fabric controller's view of resynchronisation (R274): whether a RESYNC is requested, what the dies have reported in phase 2, and which dies
have cleared in phase 3. -/
structure Resync where
  req : Bool
  reports : List (Nat × List Byte)
  cleared : List Nat
  deriving DecidableEq, Repr

/-- What the acting unit of a step is (model's own, log 2). `slot` is the outstanding command that its executor
works on, 0 while a command is being issued; `replay` is set while a replay entry is re-injected. -/
structure Ctx where
  core : Nat
  slot : Nat
  xt : Nat
  iaddr : Word
  cmd : Cmd128
  cell : Nat
  stage : Nat
  die : Nat
  node : Word
  replay : Option Replay
  deriving DecidableEq, Repr

/-- What happens next (model's own, log 2): a unit moves, an event takes place, or pace ticks pass. -/
inductive Act where
  | seq (core : Nat)
  | cmd (core id : Nat)
  | node (core cell stage : Nat)
  | graph (die : Nat) (va : Word)
  | ev (i : Instr)
  | tick (n : Nat)
  deriving DecidableEq, Repr

/-- The request FIFO of a bridge (R237): how many write entries of stream ports have passed, and the most entries of them that it
has held at once. -/
structure Bridge where
  writes : Nat
  high : Nat
  deriving DecidableEq, Repr

/-- Registers of the device control space that stand alone, whether the M1 copy of the security processor runs (R440), and the log record kept across a power-on reset (R438) (R245, R304, R312, R384, R395, R432, R438, R441, R444). -/
structure DevRegs where
  acthr : W32
  nq : Ring
  race : Ring
  rwover : W32
  hpsel : BitVec 2
  groot : Word
  gptr : Word
  gdone : W32
  fq : Ring
  ctxsel : Word
  invva : Word
  invpages : W32
  lg : Ring
  gendisc : W32
  fwloss : Bool
  lastBeat : BitVec 64
  bootstat : W32
  secM1 : Bool
  ataddr : Word
  atdone : Bool
  session : Bool
  bar2 : Tbl Nat
  atcoll : Tbl W32
  counters : Tbl Word
  freeze : List Nat
  kept : Option (List Byte)
  deriving DecidableEq, Repr

/-- A trap frame whose copy to the save area meets a page with WB = 1 and waits at the walker (R244, R416): its core, the code of an escalating
TRAP, the origin of its record, and the time since which it waits. -/
structure HeldFrame where
  id : Nat
  core : Nat
  esc : Option Byte
  origin : Byte
  since : BitVec 64
  deriving DecidableEq, Repr

/-- The machine. `hostPend` lists the accesses that the host ports have accepted and the host has not completed, in their order (R281), `hostLines` the ports and the 64-byte lines of the HASH view that their hosts cache (R431), `frames` the frames that wait at a walker.
`powered` is set once the boot steps of R440 have ended with all BARs enabled; `hostOut` is what has gone out to the
host, oldest first (model's own, log 30). `rollback` holds the rollback counters (by KIND) that a boot has advanced beyond the fused ones,
`images` the flash slot of each running image (R443). -/
structure State where
  sched : List Act
  cur : Ctx
  fresh : Nat
  nextId : Nat
  pace : BitVec 64
  window : BitVec 64
  mem : Mem
  hostMem : Mem
  poisoned : List Nat
  cores : Tbl Core
  plots : List Plot
  lease : Tbl Lease
  flight : List CtlWord
  accs : List Access
  walks : List Walk
  squares : Tbl Square
  barMsgs : List BarMsg
  waiters : List Waiter
  dies : Tbl Die
  links : Tbl LinkPort
  hostPend : List Nat
  hostLines : List (Bool × Nat)
  frames : List HeldFrame
  resync : Resync
  engines : Tbl CopyEng
  groups : Tbl Group
  queue : List QEntry
  overflow : List QEntry
  claimed : List (Nat × Word)
  waits : List GWait
  launches : List LaunchRun
  clusters : Tbl Cluster
  eth : Tbl EthPort
  shadow : Tbl Shadow
  watched : Tbl (List Nat)
  acCounters : List AcCounter
  splits : List SplitAtomic
  inval : Inval
  regs : DevRegs
  powered : Bool
  hostOut : List HostDone
  armCount : Tbl Nat
  bridges : Tbl Bridge
  rollback : List (Nat × W32)
  images : List (Nat × Nat)
  deriving DecidableEq, Repr

/-- Why the machine stops. -/
inductive Fault where
  /-- Raised by `step` when an action names a unit that the package does not have (R22). Safe: no such unit exists. -/
  | noSuchUnit
  deriving DecidableEq, Repr

/-- Why an instruction has no meaning. -/
inductive Refusal where
  /-- Raised by an arm of `exec` that has no meaning yet. Safe. -/
  | notModelled (mnemonic : String)
  /-- Raised by `step` when a scheduled table entry or command is not well formed, so no decoder gives it. Safe. -/
  | illFormed
  deriving DecidableEq, Repr

/-! ### Reset -/

/-- A token with no active lane. -/
def Token.init : Token := { kind := 0, mask := 0, lanes := List.replicate 16 0 }

/-- A loop level that was never opened (R104). -/
def Loop.init : Loop := { lc := 0, ls := 0, le := 0 }

/-- An invalid handler entry (R108). -/
def Handler.init : Handler :=
  { valid := false, entry := 0, prio := 0, mask := false, state := .idle, wake := false, savedPc := 0, l0 := Loop.init,
    l1 := Loop.init, l2 := Loop.init, order := [], stall := none, inbox := [] }

/-- Not in trap mode. -/
def TrapMode.init : TrapMode :=
  { on := false, idle := false, precise := false, chan := 0, resume := 0, hosted := false, routine := false, engine := false }

/-- A tile entry that is not valid (R209). -/
def Tile.init : Tile :=
  { valid := false, level := 0, ring := false, cellm := 0, owner := false, held := false, holders := 0, rows := 0, rowb := 0,
    rp := 0, wp := 0, fill := 0, base := 0, busy := 0 }

/-- A port without a preset (R221): LANES = 16, COUNT0 to COUNT3 = 1, all else 0. -/
def Port.init : Port :=
  { dir := false, va := false, auto := false, sheaf := 0, ztail := false, lanes := 16, chan := 0, ceil := 0, base := 0,
    count := [1, 1, 1, 1], stride := [0, 0, 0, 0], wstep := [0, 0, 0, 0, 0, 0], pos := 0, ended := false, state := .idle,
    left := 0, bar := false, barDue := false, doneDue := false, started := false, idx := 0, slot := 0, waitId := 0, eoiIn := false, window := 0,
    heldBack := false, closeRun := false, doneWid := 0, barChan := none }

/-- A node that has not fired since arming (R174, R181, R186). -/
def NodeState.init : NodeState :=
  { st := .init, v := Token.init, keep := false, close := 0, c := 0, s := 0, extra := false, idx := 0, sheaf := [], t := 0,
    last := none, ends := 0, faulted := false }

/-- An empty bay (R70). -/
def Bay.init : Bay := { nodes := [0, 0, 0, 0, 0, 0], ports := [0, 0] }

/-- A cell without a record (R70). -/
def Cell.init : Cell := { bays := [], pool := [], bay := 0, arcs := [], nstate := [] }

/-- A matrix operator at rest: accumulators +0, versions 0 (R313). -/
def Matrix.init : Matrix := { accs := [], vers := [], queue := [], grant := none, run := none }

/-- A key engine at rest. -/
def KeyEng.init : KeyEng := { queue := [], itok := [], out := [], started := false, performed := false, result := 0, absent := none }

/-- Memory cells that hold zero. -/
def Scratch.init : Scratch := { bytes := [], errs := [], failed := [], flips := [] }

/-- A race detector at rest. -/
def RaceCore.init : RaceCore := { int := 0, relPlot := none, relDevice := none, relSystem := none }

/-- A slot that has not moved. -/
def SlotPos.init : SlotPos := { pos := 0, begun := false, ended := false }

/-- A core that no plot holds: every register at zero (R50, R104), last at 15 (R111). -/
def Core.init : Core :=
  { plot := none, regs := [], pend := [], pc := 0, handlers := [], running := none, last := 15, chan := 0, tcause := 0,
    tepc := 0, tval := 0, trqn := 0, trap := TrapMode.init, held := [], replay := [], reinj := [], lmem := [], icache := [],
    cmds := [], arm := false, stopped := false, stepping := false, acq := none, fence := none, dirty := [], probes := [], probeFor := none,
    race := RaceCore.init, tiles := [], scratch := Scratch.init, ports := [], cells := [], mat := Matrix.init,
    key := KeyEng.init, slotPos := [], tcache := [] }

/-- An arc breakpoint pair (R188). -/
def Breakpoint.init : Breakpoint :=
  { trig := 0xFFFFFFFF, kbar := false, keoi := false, kdata := true, en := false, count := 0, hit := false }

/-- A plot of one core without work: the fields that a placement fills (R203, R396). -/
def Plot.init : Plot :=
  { id := 0, node := 0, p := 0, state := .waiting, die := 0, col := 0, row := 0, w := 1, h := 1, image := 0, ptroot := 0,
    widths := [0, 0, 0, 0, 0, 0], extents := [1, 1, 1, 1, 1, 1], lo := 0, hi := 1, seed := 0, racelog := false, codebase := 0,
    trapoff := 0xFFFFFFFF, tfaddr := 0, prio := 0, slice := 0, wdog := 0, saveva := 0, mask := [], dualcol := 0, dualrow := 0,
    duals := [], fed := [], bays := 0, bay := 0, bayStart := 0, bayCount := 0, wid := 0, retired := 0, sinkEoi := [], sinkBar := [], bars := 0, decision := none, closing := false, bound := none,
    drained := [], follow := none, pred := none, waits := [], ageTime := 0, armTime := 0, runStart := 0, lastRetire := 0,
    budget := none, ts := 0, tr := 0, ti := 0, sliceUsed := false, restored := false, startPend := false, code := 0, bps := [],
    ringPa := 0, ringLog := 0, ringNext := 0, raceId := 0xFFFF, image407 := [], img := [], aging := false, wdStop := 0, runStop := 0,
    begun := none, barChans := [], cand := none, candAt := 0, saveHeld := false }

/-- A closed square (R305). -/
def Square.init : Square := { gen := 0, isOpen := false, nexp := 0, arr := 0, cnt := [], who := [] }

/-- A die with every stamp and sequence at 0. -/
def Die.init : Die :=
  { v := [], d := [], live := true, removed := false, mayRejoin := false, gen := 0, phase := 0, phaseStart := 0, unsent := [], lmat := [],
    rmat := [], sendSeq := [], recvSeq := [], stampCount := [], arrived := [], early := [], retry := [], refused := [],
    nackWait := [], nackTime := [], ackCount := [], ackTime := [], lastAck := [], replies := [], wcache := [] }

/-- One direction of a link at rest: credits 64, 64, 16, 16, 4 and 4 (R266). The manual gives no round-robin position
after reset: both start at 0 (DESIGN CHOICE, log 102). -/
def LinkPort.init : LinkPort :=
  { queues := [], got := 0, openX := none, openF := none, openXVc := 0, openFVc := 0, hist := [],
    credits := [64, 64, 16, 16, 4, 4], rrX := 0, rrF := 0, wire := [], sent := [], since := 0, reasm := [], replays := 0, dead := false,
    retraining := false, bad := [] }

/-- A copy engine at rest. -/
def CopyEng.init : CopyEng :=
  { queue := [], running := false, waited := false, sptr := 0, dptr := 0, index := [], buf := [], tail := [], take := 0, flagged := false,
    waitId := 0, needs := [], absent := false, dirty := [], probes := [], probeFor := none }

/-- A group that no plot has registered (R375). -/
def Group.init : Group := { devs := false, p := 0, members := [], met := false, done := [] }

/-- A power cluster after reset (R420): level LO, caps at FDEF, SCALE 256, the reset ramp table, hints COMP for none. -/
def Cluster.init : Cluster :=
  { level := 0, ramping := false, target := 0, pvalid := false, pend := 0, rampStart := 0, meter := 0, mrLo := 900,
    mrMid := 1200, mrHi := 1400, scale := 256, ramptab := 0x0123456787654321, hints := 0xFFFF, occnt := 0, lock := false,
    a := 0, fillers := [], tripped := false, mlevel := 0, ceil := 900,
    slewAt := 0, seen := [] }

/-- A queue pair after reset (R436). -/
def Qp.init : Qp :=
  { state := 0, sqbase := 0, sqlog := 4, rqbase := 0, rqlog := 4, cqbase := 0, cqlog := 4, dbva := 0, dqpn := 0, diplo := 0,
    diphi := 0, dmac := 0, spsn := 0, rpsn := 0, sport := 0, retryCfg := 0, sqci := 0, rqci := 0, cqpi := 0, errcode := 0,
    sqpi := 0, rqpi := 0, cqci := 0, retries := 0, inflight := [], since := 0, watched := false, lastRead := 0, psn := 0, epsn := 0,
    notReady := none, unready := 0, stores := [] }

/-- An Ethernet port after reset (R434). -/
def EthPort.init : EthPort :=
  { ptroot := 0, linkup := false, speed := 3, mac := none, ipv4 := 0, ipv6lo := 0, ipv6hi := 0, mtu := 2,
    mkbase := 0, mkcount := 0, en := false, qps := [], answer := none }

/-- A ring of records that is not set up. -/
def Ring.init : Ring := { base := 0, log := 0, head := 0, tail := 0, drop := 0 }

/-- A race shadow that names no writer (R309). -/
def Shadow.init : Shadow := { wplot := 0xFFFF, wcore := 0, wint := 0 }

/-- No invalidation in progress (R432). -/
def Inval.init : Inval :=
  { n := 0, source := 4, busy := false, va := 0, pages := 0, left := [], dropped := [], waitFor := [], sentAt := [] }

/-- No RESYNC is requested. -/
def Resync.init : Resync := { req := false, reports := [], cleared := [] }

/-- A bridge that nothing has passed. -/
def Bridge.init : Bridge := { writes := 0, high := 0 }

/-- No unit acts. -/
def Ctx.init : Ctx :=
  { core := 0, slot := 0, xt := 0, iaddr := 0, cmd := 0, cell := 0, stage := 0, die := 0, node := 0, replay := none }

/-- The device control registers after reset (R245, R312, R384, R395, R432, R438, R441, R444). -/
def DevRegs.init : DevRegs :=
  { acthr := 256, nq := Ring.init, race := Ring.init, rwover := 0, hpsel := 0, groot := 0, gptr := 0, gdone := 0,
    fq := Ring.init, ctxsel := 0, invva := 0, invpages := 0, lg := Ring.init, gendisc := 0, fwloss := false, lastBeat := 0,
    bootstat := 0, secM1 := false, ataddr := 0, atdone := true, session := false, bar2 := [], atcoll := [], counters := [], freeze := [], kept := none }

/-- The machine right after reset. No plot is placed and no memory byte is listed; the boot steps (R440) come after. -/
def State.reset : State :=
  { sched := [], cur := Ctx.init, fresh := 0, nextId := 0, pace := 0, window := 0, mem := [], hostMem := [], poisoned := [],
    cores := [], plots := [], lease := [], flight := [], accs := [], walks := [], squares := [], barMsgs := [], waiters := [],
    dies := [], links := [], hostPend := [], hostLines := [], frames := [], resync := Resync.init, engines := [], groups := [], queue := [], overflow := [], claimed := [], waits := [],
    launches := [], clusters := [], eth := [], shadow := [], watched := [], acCounters := [], splits := [],
    inval := Inval.init, regs := DevRegs.init, powered := false, hostOut := [], armCount := [], bridges := [],
    rollback := [], images := [] }

end Sys2Proof.Machine
end

