-- ==== Sys2Proof/Machine/Tables.lean ====
section
/-!
DEFINITION. Sparse tables in canonical form, byte lists (little-endian, R3) and byte memories over them.
-/

namespace Sys2Proof.Machine

/-- The entry of a table, or the default that an unlisted key reads as. -/
def tget {α : Type} (d : α) (t : Tbl α) (k : Nat) : α :=
  match t with
  | [] => d
  | e :: r => if e.1 = k then e.2 else tget d r k

/-- Insert an entry before the first larger key. -/
def tins {α : Type} (t : Tbl α) (k : Nat) (v : α) : Tbl α :=
  match t with
  | [] => [(k, v)]
  | e :: r => if k < e.1 then (k, v) :: e :: r else e :: tins r k v

/-- Remove a key. -/
def tdel {α : Type} (t : Tbl α) (k : Nat) : Tbl α :=
  match t with
  | [] => []
  | e :: r => if e.1 = k then tdel r k else e :: tdel r k

/-- Write an entry; writing the default removes it, so the table keeps its canonical form. -/
def tset {α : Type} [DecidableEq α] (d : α) (t : Tbl α) (k : Nat) (v : α) : Tbl α :=
  if v = d then tdel t k else tins (tdel t k) k v

/-- Change an entry. -/
def tmod {α : Type} [DecidableEq α] (d : α) (t : Tbl α) (k : Nat) (f : α → α) : Tbl α := tset d t k (f (tget d t k))

/-- The canonical form: keys strictly rising and no entry equal to the default. -/
def Tbl.wf {α : Type} [DecidableEq α] (d : α) (t : Tbl α) : Bool :=
  match t with
  | [] => true
  | e :: r => e.2 != d && (match r with | [] => true | n :: _ => e.1 < n.1) && Tbl.wf d r

/-- The canonical form of a byte memory. -/
abbrev Memory.wf (m : Mem) : Bool := Tbl.wf (0 : Byte) m

/-- One byte of a memory; an unlisted byte reads 0. -/
abbrev mbyte (m : Mem) (a : Nat) : Byte := tget 0 m a

/-- `n` bytes from `a` up. -/
def mread (m : Mem) (a n : Nat) : List Byte :=
  match n with
  | 0 => []
  | n + 1 => mbyte m a :: mread m (a + 1) n

/-- Write bytes from `a` up. -/
def mwrite (m : Mem) (a : Nat) (bs : List Byte) : Mem :=
  match bs with
  | [] => m
  | b :: r => mwrite (tset 0 m a b) (a + 1) r

/-- Zero `n` bytes from `a` up. -/
def mzero (m : Mem) (a n : Nat) : Mem := m.filter fun e => e.1 < a || a + n ≤ e.1

/-- The little-endian value of bytes (R3). -/
def leNat : List Byte → Nat
  | [] => 0
  | b :: r => b.toNat + 256 * leNat r

/-- `n` little-endian bytes of a number (R3). -/
def natLe : Nat → Nat → List Byte
  | 0, _ => []
  | n + 1, v => BitVec.ofNat 8 v :: natLe n (v / 256)

/-- A little-endian word of `w` bits from bytes. -/
abbrev leBv (w : Nat) (bs : List Byte) : BitVec w := BitVec.ofNat w (leNat bs)

/-- The bytes of a list from offset `o`, `n` of them. -/
abbrev slice {α : Type} (l : List α) (o n : Nat) : List α := (l.drop o).take n

/-- Overwrite a list from offset `o`. -/
def patch {α : Type} (l : List α) (o : Nat) (v : List α) : List α := l.take o ++ v ++ l.drop (o + v.length)

/-- The little-endian number in `n` bytes at offset `o`. -/
abbrev leAt (l : List Byte) (o n : Nat) : Nat := leNat (slice l o n)

/-- The first index whose entry satisfies `p`. -/
def firstIdx {α : Type} (p : α → Bool) : List α → Nat → Option Nat
  | [], _ => none
  | a :: r, i => if p a then some i else firstIdx p r (i + 1)

/-- Remove the first entry that satisfies `p`. -/
def dropFirst {α : Type} (p : α → Bool) : List α → List α
  | [] => []
  | a :: r => if p a then r else a :: dropFirst p r

/-- Change the first entry that satisfies `p`. -/
def mapFirst {α : Type} (p : α → Bool) (f : α → α) : List α → List α
  | [] => []
  | a :: r => if p a then f a :: r else a :: mapFirst p f r

/-- The numbers below `n` for which `p` holds, rising. -/
abbrev below (n : Nat) (p : Nat → Bool) : List Nat := (List.range n).filter p

/-- Go on with what a read gave, unless it met a fault. -/
def allOk {ε α β : Type} (x : Except ε α) (f : α → Except ε β) : Except ε β :=
  match x with
  | .error e => .error e
  | .ok a => f a

/-- The results of a list of reads, or the first fault. -/
def collect {ε α β : Type} (f : α → Except ε β) : List α → Except ε (List β)
  | [] => .ok []
  | x :: r => allOk (f x) fun a => allOk (collect f r) fun as => .ok (a :: as)

/-- Sign extension of a Nat field of `w` bits as an integer. -/
def signed (w v : Nat) : Int := if v % 2 ^ w < 2 ^ (w - 1) then ((v % 2 ^ w : Nat) : Int) else ((v % 2 ^ w : Nat) : Int) - 2 ^ w

/-- An integer modulo 2^w. -/
abbrev wrapInt (w : Nat) (i : Int) : BitVec w := BitVec.ofInt w i

/-- Ceiling division. -/
abbrev cdiv (a b : Nat) : Nat := (a + b - 1) / b

end Sys2Proof.Machine
end

