-- ==== Sys2Proof/Machine/Blocks.lean ====
section
/-!
DEFINITION. Where the elements of a sheaf stand (R84), who reads it (R87), and what a stream port does with the sheaves of a row
(R225).
-/

namespace Sys2Proof.Machine

/-- Elements of the class of a format code (R84): 0 for the codes of every class, `none` when unassigned. -/
def fmtClass (fmt : Nat) : Option Nat :=
  match fmt with
  | 0 => some 0
  | 1 | 2 | 3 => some 62
  | 4 => some 61
  | 5 | 6 => some 124
  | 7 => some 122
  | 255 => some 0
  | _ => none

/-- A reader of class `n` takes a sheaf (R87). -/
def fmtReads (fmt n : Nat) : Bool := fmtClass fmt == some 0 || fmtClass fmt == some n

/-- Width of an element code. -/
def elemBits (fmt : Nat) : Nat := if fmt = 5 ∨ fmt = 6 ∨ fmt = 7 then 4 else 8

/-- The first payload byte: 3 in the asymmetric formats, else 2 (R84). -/
def elemBase (fmt : Nat) : Nat := if fmt = 4 ∨ fmt = 7 then 3 else 2

/-- Put the code of element `j` into a sheaf (R84). -/
def putElem (sh : List Byte) (fmt j c : Nat) : List Byte :=
  if elemBits fmt = 8 then sh.set (elemBase fmt + j) (BitVec.ofNat 8 c)
  else
    let i := elemBase fmt + j / 2
    let old := (sh.getD i 0).toNat
    sh.set i (BitVec.ofNat 8 (if j % 2 = 0 then old / 16 * 16 + c % 16 else old % 16 + 16 * (c % 16)))

/-- The code that an element past the end of a row receives (R225): 0, or the clamped zero point. -/
def tailCode (sh : List Byte) (fmt : Nat) : Nat :=
  if fmt = 4 ∨ fmt = 7 then
    let z := signed 8 (sh.getD 2 0).toNat
    if z < 0 then 0 else min z.toNat (2 ^ elemBits fmt - 1)
  else 0

/-- A sheaf as a read port of class `n` delivers it: none when its format is of another class; from position `tail` up, when that
is not 0, the codes are replaced; ZERO and POISON pass unchanged (R225). -/
def portSheaf (sh : List Byte) (n tail : Nat) : Option (List Byte) :=
  let fmt := (sh.headD 0).toNat
  if !fmtReads fmt n then none
  else if tail = 0 ∨ fmtClass fmt = some 0 then some sh
  else some ((List.range (n - tail)).foldl (fun s i => putElem s fmt (tail + i) (tailCode sh fmt)) sh)

end Sys2Proof.Machine
end

