-- ==== Sys2Proof/Machine/Fp.lean ====
section
/-!
DEFINITION. Floating-point values as exact dyadic numbers, their formats (R78, R79, R81), rounding (R88, R89), the exact
arithmetic of R149 to R153 and the correctly rounded functions of R155.
-/

namespace Sys2Proof.Machine

/-- A value: NaN, an infinity, or the exact number (-1)^neg · m · 2^e. -/
inductive Fv where
  | nan
  | inf (neg : Bool)
  | num (neg : Bool) (m : Nat) (e : Int)
  deriving DecidableEq, Repr

/-- A binary format: fraction bits, exponent of the unit of the subnormals, the code of the largest finite magnitude, the
canonical NaN and the width. Magnitude codes rise with the magnitude. -/
structure Fmt where
  mb : Nat
  low : Int
  maxCode : Nat
  nanCode : Nat
  width : Nat
  deriving DecidableEq, Repr

/-- FP32 (R78). -/
def fp32 : Fmt := { mb := 23, low := -149, maxCode := 0x7F7FFFFF, nanCode := 0x7FC00000, width := 32 }
/-- FP16 (R78). -/
def fp16 : Fmt := { mb := 10, low := -24, maxCode := 0x7BFF, nanCode := 0x7E00, width := 16 }
/-- BF16 (R78). -/
def bf16 : Fmt := { mb := 7, low := -133, maxCode := 0x7F7F, nanCode := 0x7FC0, width := 16 }
/-- E4M3 (R81). -/
def e4m3 : Fmt := { mb := 3, low := -9, maxCode := 0x7E, nanCode := 0x7F, width := 8 }
/-- E5M2 (R81). -/
def e5m2 : Fmt := { mb := 2, low := -16, maxCode := 0x7B, nanCode := 0x7E, width := 8 }
/-- E2M1 (R81); it has no NaN. -/
def e2m1 : Fmt := { mb := 1, low := -1, maxCode := 7, nanCode := 0, width := 4 }

/-- The magnitude that a finite code stands for (R78, R81). -/
def Fmt.magOf (f : Fmt) (c : Nat) : Nat × Int :=
  if c < 2 ^ f.mb then (c, f.low) else (2 ^ f.mb + c % 2 ^ f.mb, f.low + (c / 2 ^ f.mb : Nat) - 1)

/-- The value of an IEEE code of FP32, FP16 or BF16 (R78): the code after the largest finite one is the infinity. -/
def Fmt.value (f : Fmt) (w : Nat) : Fv :=
  let neg := w / 2 ^ (f.width - 1) % 2 == 1
  let c := w % 2 ^ (f.width - 1)
  if c ≤ f.maxCode then .num neg (f.magOf c).1 (f.magOf c).2
  else if c == f.maxCode + 1 then .inf neg else .nan

/-- A sign bit in front of a magnitude code. -/
def Fmt.sign (f : Fmt) (neg : Bool) (c : Nat) : Nat := if neg then 2 ^ (f.width - 1) + c else c

/-- Bits of a number. -/
abbrev bitLen (n : Nat) : Nat := if n = 0 then 0 else Nat.log2 n + 1

/-- How many units above the lowest the last place of a magnitude m · 2^e lies. -/
def Fmt.place (f : Fmt) (m : Nat) (e : Int) : Nat := if m = 0 then 0 else ((bitLen m : Int) - 1 + e - f.mb - f.low).toNat

/-- Divide by 2^s to nearest, ties to even. -/
def rneShift (m s : Nat) : Nat :=
  let q := m / 2 ^ s
  let r := m % 2 ^ s
  if 2 * r > 2 ^ s || (2 * r == 2 ^ s && s != 0 && q % 2 == 1) then q + 1 else q

/-- The magnitude code of m · 2^e rounded to nearest, the exponent range unbounded above (R88). -/
def Fmt.rnCode (f : Fmt) (m : Nat) (e : Int) : Nat :=
  let j := f.place m e
  let l := f.low + j
  j * 2 ^ f.mb + (if e ≥ l then m * 2 ^ (e - l).toNat else rneShift m (l - e).toNat)

/-- The magnitude code of m · 2^e rounded stochastically by the random word r (R89). -/
def Fmt.rsCode (f : Fmt) (m : Nat) (e : Int) (r : Nat) : Nat :=
  let j := f.place m e
  let l := f.low + j
  if e ≥ l then j * 2 ^ f.mb + m * 2 ^ (e - l).toNat
  else
    let s := (l - e).toNat
    let d := m % 2 ^ s * 2 ^ 32 / 2 ^ s
    j * 2 ^ f.mb + m / 2 ^ s + (if r < d then 1 else 0)

/-- Round to nearest with the IEEE results of R149: overflow gives an infinity. -/
def Fmt.round (f : Fmt) : Fv → Nat
  | .nan => f.nanCode
  | .inf neg => f.sign neg (f.maxCode + 1)
  | .num neg m e => f.sign neg (min (f.rnCode m e) (f.maxCode + 1))

/-! ### Exact arithmetic (R149, R150) -/

/-- Negate. -/
def Fv.neg : Fv → Fv
  | .nan => .nan
  | .inf n => .inf (!n)
  | .num n m e => .num (!n) m e

/-- The signed integer of a number in units of 2^b, b ≤ e. -/
def scaleInt (neg : Bool) (m : Nat) (e b : Int) : Int :=
  let v : Int := m * 2 ^ (e - b).toNat
  if neg then -v else v

/-- Exact sum; an exact zero is -0 only when both addends are negative zeros (R149, R150). -/
def Fv.add : Fv → Fv → Fv
  | .nan, _ => .nan
  | _, .nan => .nan
  | .inf a, .inf b => if a == b then .inf a else .nan
  | .inf a, _ => .inf a
  | _, .inf b => .inf b
  | .num a m e, .num b n g =>
    let u := min e g
    let v := scaleInt a m e u + scaleInt b n g u
    if v = 0 then .num (a && b) 0 u else .num (v < 0) v.natAbs u

/-- Exact product. -/
def Fv.mul : Fv → Fv → Fv
  | .nan, _ => .nan
  | _, .nan => .nan
  | .inf a, .inf b => .inf (a != b)
  | .inf a, .num b n _ => if n = 0 then .nan else .inf (a != b)
  | .num a m _, .inf b => if m = 0 then .nan else .inf (a != b)
  | .num a m e, .num b n g => .num (a != b) (m * n) (e + g)

/-- Comparison of values: none when unordered (R152). -/
def Fv.cmp : Fv → Fv → Option Ordering
  | .nan, _ => none
  | _, .nan => none
  | .inf a, .inf b => some (if a == b then .eq else if a then .lt else .gt)
  | .inf a, .num _ _ _ => some (if a then .lt else .gt)
  | .num _ _ _, .inf b => some (if b then .gt else .lt)
  | .num a m e, .num b n g =>
    let u := min e g
    some (compare (scaleInt a m e u) (scaleInt b n g u))

/-- FP32 or packed sum. -/
abbrev Fmt.addW (f : Fmt) (a b : Nat) : Nat := f.round ((f.value a).add (f.value b))

/-- Product. -/
abbrev Fmt.mulW (f : Fmt) (a b : Nat) : Nat := f.round ((f.value a).mul (f.value b))

/-- Whether a word is a NaN of its format. -/
abbrev Fmt.isNan (f : Fmt) (w : Nat) : Bool := f.value w == .nan

/-- Order of two non-NaN words where -0 counts below +0 (R151). -/
def Fmt.totalLt (f : Fmt) (a b : Nat) : Bool :=
  let sg := fun w => w / 2 ^ (f.width - 1) % 2 == 1
  let mg := fun w => w % 2 ^ (f.width - 1)
  match sg a, sg b with
  | true, false => true
  | false, true => false
  | true, true => mg b < mg a
  | false, false => mg a < mg b

/-- FMAX and FMIN (R151). -/
def Fmt.maxW (f : Fmt) (a b : Nat) : Nat :=
  if f.isNan a || f.isNan b then f.nanCode else if f.totalLt a b then b else a

/-- FMIN. -/
def Fmt.minW (f : Fmt) (a b : Nat) : Nat :=
  if f.isNan a || f.isNan b then f.nanCode else if f.totalLt b a then b else a

/-! ### Rounding to integers (R88, R89, R153) -/

/-- A rational magnitude rounded to an integer, to nearest even. -/
def rneDiv (n d : Nat) : Nat :=
  let q := n / d
  let r := n % d
  if 2 * r > d || (2 * r == d && q % 2 == 1) then q + 1 else q

/-- A rational magnitude rounded stochastically to an integer. -/
def rsDiv (n d r : Nat) : Nat := n / d + (if n % d ≠ 0 ∧ r < n % d * 2 ^ 32 / d then 1 else 0)

/-- The numerator and denominator of m · 2^e. -/
def ratOf (m : Nat) (e : Int) : Nat × Nat := if e ≥ 0 then (m * 2 ^ e.toNat, 1) else (m, 2 ^ (-e).toNat)

/-- FRND (R153): direction 0 nearest even, 1 toward zero, 2 down, 3 up. -/
def Fmt.frnd (f : Fmt) (dir : Nat) (w : Nat) : Nat :=
  match f.value w with
  | .nan => f.nanCode
  | .inf _ => w
  | .num neg m e =>
    if e ≥ 0 then w
    else
      let (n, d) := ratOf m e
      let q := match dir with
        | 0 => rneDiv n d
        | 1 => n / d
        | 2 => if neg then cdiv n d else n / d
        | _ => if neg then n / d else cdiv n d
      f.sign neg (f.rnCode q 0)

/-- FCLS (R154): the class bit of a word. -/
def Fmt.cls (f : Fmt) (w : Nat) : Nat :=
  match f.value w with
  | .nan => 256
  | .inf neg => if neg then 1 else 128
  | .num neg m _ =>
    if m = 0 then (if neg then 8 else 16)
    else if w % 2 ^ (f.width - 1) < 2 ^ f.mb then (if neg then 4 else 32) else (if neg then 2 else 64)

/-! ### Functions (R155) -/

/-- A truncated magnitude q · 2^e with a mark of what lies beyond it, ready for rounding to nearest. -/
def sticky (neg : Bool) (q : Nat) (e : Int) (rest : Bool) : Fv := .num neg (2 * q + (if rest then 1 else 0)) (e - 1)

/-- Integer square root, bit by bit from bit `k`. -/
def isqrtFrom (n : Nat) : Nat → Nat → Nat
  | 0, r => r
  | k + 1, r => if (r + 2 ^ k) * (r + 2 ^ k) ≤ n then isqrtFrom n k (r + 2 ^ k) else isqrtFrom n k r

/-- Reciprocal. -/
def Fv.rcp : Fv → Fv
  | .nan => .nan
  | .inf neg => .num neg 0 0
  | .num neg m e =>
    if m = 0 then .inf neg
    else
      let k := bitLen m + 80
      sticky neg (2 ^ k / m) (-(k : Int) - e) (2 ^ k % m != 0)

/-- Reciprocal square root. -/
def Fv.rsq : Fv → Fv
  | .nan => .nan
  | .inf neg => if neg then .nan else .num false 0 0
  | .num neg m e =>
    if m = 0 then .inf neg
    else if neg then .nan
    else
      let odd := e % 2 != 0
      let m2 := if odd then 2 * m else m
      let e2 := if odd then e - 1 else e
      let k := bitLen m2 + 40
      let q := isqrtFrom (2 ^ (2 * k) / m2) (k + 2) 0
      sticky false q (-(k : Int) - e2 / 2) (q * q * m2 != 2 ^ (2 * k))

/-- The natural logarithm of 2 in units of 2^-192, truncated. -/
def ln2 : Nat := 0xb17217f7d1cf79abc9e3b39803f2f6af40f343267298b62d

/-- exp of a fixed-point number t in units of 2^-192, by its series: the sum of the terms after `term`. -/
def expSeries (t : Nat) : Nat → Nat → Nat → Nat
  | 0, _, _ => 0
  | fuel + 1, n, term => let next := term * t / 2 ^ 192 / n; next + expSeries t fuel (n + 1) next

/-- 2^x of a number (R155): the fraction through a series of 60 terms in 192 bits. -/
def Fv.exp2 : Fv → Fv
  | .nan => .nan
  | .inf neg => if neg then .num false 0 0 else .inf false
  | .num neg m e =>
    if m = 0 then .num false 1 0
    else if (bitLen m : Int) + e > 9 then (if neg then .num false 0 0 else .inf false)
    else
      let x := scaleInt neg m e (-192)
      let n := x / 2 ^ 192
      let frac := (x % 2 ^ 192).toNat
      if e < -192 then sticky false (2 ^ 192) (-192) true
      else if frac = 0 then .num false 1 n
      else sticky false (2 ^ 192 + expSeries (frac * ln2 / 2 ^ 192) 60 1 (2 ^ 192)) (n - 192) true

/-- The series of the inverse hyperbolic tangent of z in units of 2^-192. -/
def atanhSeries (z2 : Nat) : Nat → Nat → Nat → Nat
  | 0, _, _ => 0
  | fuel + 1, n, p => p / n + atanhSeries z2 fuel (n + 2) (p * z2 / 2 ^ 192)

/-- log2 of a number (R155). -/
def Fv.log2 : Fv → Fv
  | .nan => .nan
  | .inf neg => if neg then .nan else .inf false
  | .num neg m e =>
    if m = 0 then .inf true
    else if neg then .nan
    else
      let b := bitLen m - 1
      let k : Int := e + b
      if m = 2 ^ b then .num (k < 0) k.natAbs 0
      else
        let z := (m - 2 ^ b) * 2 ^ 192 / (m + 2 ^ b)
        let lnY := 2 * atanhSeries (z * z / 2 ^ 192) 65 1 z
        let v := k * 2 ^ 192 + (lnY * 2 ^ 192 / ln2 : Nat)
        sticky (v < 0) v.natAbs (-192) true

end Sys2Proof.Machine
end

