-- ==== Sys2Proof/Machine/Units.lean ====
section
/-!
DEFINITION. Units of the package and where they stand (R15 to R22): cores, dies, clusters, links, plots and their parts, each
with one reader and one writer.
-/

namespace Sys2Proof.Machine

/-- Results of the meanings. -/
abbrev Res := Host.Outcome State Fault Refusal

/-! ### Cores -/

/-- The die of a core: 80 cores on each Field die (R15). -/
abbrev dieOf (core : Nat) : Nat := core / 80

/-- Die row of a core. -/
abbrev rowOf (core : Nat) : Nat := core % 80 / 8

/-- Die column of a core. -/
abbrev colOf (core : Nat) : Nat := core % 8

/-- Package core number of a die position. -/
abbrev coreAt (die col row : Nat) : Nat := 80 * die + 8 * row + col

/-- Rows 0 and 9 hold the bridge cores (R18). -/
abbrev isBridge (core : Nat) : Bool := rowOf core == 0 || rowOf core == 9

/-- The channel behind port 4 + c of a bridge core: the core owns four, each through its own bridge (R18, R227, R236). -/
abbrev portChannel (core p : Nat) : Nat := 64 * dieOf core + 32 * (rowOf core / 9) + 4 * colOf core + (p - 4)

/-- Package index of the cluster of a core (R19). -/
abbrev clusterOf (core : Nat) : Nat := 10 * dieOf core + 2 * (rowOf core / 2) + colOf core / 4

/-- Position of a core in its cluster, 4 columns by 2 rows. -/
abbrev inCluster (core : Nat) : Nat := 4 * (rowOf core % 2) + colOf core % 4

/-- A core. -/
abbrev State.core (s : State) (c : Nat) : Core := tget Core.init s.cores c

/-- Replace a core. -/
def State.setCore (s : State) (c : Nat) (k : Core) : State := { s with cores := tset Core.init s.cores c k }

/-- Change a core. -/
def State.modCore (s : State) (c : Nat) (f : Core → Core) : State := s.setCore c (f (s.core c))

/-- A handler entry; entry 16 is the trap context (R411). -/
abbrev Core.handler (k : Core) (c : Nat) : Handler := tget Handler.init k.handlers c

/-- Change a handler entry. -/
def Core.modHandler (k : Core) (c : Nat) (f : Handler → Handler) : Core :=
  { k with handlers := tmod Handler.init k.handlers c f }

/-- A stream port of a core. -/
abbrev State.port (s : State) (c p : Nat) : Port := tget Port.init (s.core c).ports p

/-- Change a stream port. -/
def State.modPort (s : State) (c p : Nat) (f : Port → Port) : State :=
  s.modCore c fun k => { k with ports := tmod Port.init k.ports p f }

/-- A cell of a core; local index 4 * y + x (R16). -/
abbrev State.cell (s : State) (c i : Nat) : Cell := tget Cell.init (s.core c).cells i

/-- Change a cell. -/
def State.modCell (s : State) (c i : Nat) (f : Cell → Cell) : State :=
  s.modCore c fun k => { k with cells := tmod Cell.init k.cells i f }

/-- A cell is a memory cell when its column plus its row is odd (R16). -/
abbrev isMemCell (i : Nat) : Bool := (i % 4 + i / 4) % 2 == 1

/-- Change the matrix operator of a core. -/
def State.modMat (s : State) (c : Nat) (f : Matrix → Matrix) : State := s.modCore c fun k => { k with mat := f k.mat }

/-- Change the key engine of a core. -/
def State.modKey (s : State) (c : Nat) (f : KeyEng → KeyEng) : State := s.modCore c fun k => { k with key := f k.key }

/-! ### Other units -/

/-- The fabric state of a die. -/
abbrev State.die (s : State) (d : Nat) : Die := tget Die.init s.dies d

/-- Change the fabric state of a die. -/
def State.modDie (s : State) (d : Nat) (f : Die → Die) : State := { s with dies := tmod Die.init s.dies d f }

/-- A cluster. -/
abbrev State.cluster (s : State) (k : Nat) : Cluster := tget Cluster.init s.clusters k

/-- Change a cluster. -/
def State.modCluster (s : State) (k : Nat) (f : Cluster → Cluster) : State :=
  { s with clusters := tmod Cluster.init s.clusters k f }

/-- A link direction. -/
abbrev State.link (s : State) (l : Nat) : LinkPort := tget LinkPort.init s.links l

/-- Change a link direction. -/
def State.modLink (s : State) (l : Nat) (f : LinkPort → LinkPort) : State :=
  { s with links := tmod LinkPort.init s.links l f }

/-- The request FIFO of the bridge of a channel. -/
abbrev State.bridge (s : State) (ch : Nat) : Bridge := tget Bridge.init s.bridges ch

/-- Change a bridge. -/
def State.modBridge (s : State) (ch : Nat) (f : Bridge → Bridge) : State := { s with bridges := tmod Bridge.init s.bridges ch f }

/-- A copy engine. -/
abbrev State.engine (s : State) (e : Nat) : CopyEng := tget CopyEng.init s.engines e

/-- Change a copy engine. -/
def State.modEngine (s : State) (e : Nat) (f : CopyEng → CopyEng) : State :=
  { s with engines := tmod CopyEng.init s.engines e f }

/-- An Ethernet port. -/
abbrev State.ethPort (s : State) (p : Nat) : EthPort := tget EthPort.init s.eth p

/-- Change an Ethernet port. -/
def State.modEth (s : State) (p : Nat) (f : EthPort → EthPort) : State := { s with eth := tmod EthPort.init s.eth p f }

/-- A queue pair. -/
abbrev State.qp (s : State) (p q : Nat) : Qp := tget Qp.init (s.ethPort p).qps q

/-- Change a queue pair. -/
def State.modQp (s : State) (p q : Nat) (f : Qp → Qp) : State :=
  s.modEth p fun e => { e with qps := tmod Qp.init e.qps q f }

/-- A barrier square. -/
abbrev State.square (s : State) (n : Nat) : Square := tget Square.init s.squares n

/-- Change a barrier square. -/
def State.modSquare (s : State) (n : Nat) (f : Square → Square) : State :=
  { s with squares := tmod Square.init s.squares n f }

/-- A lease table entry (R197), keyed by core. -/
abbrev State.leaseOf (s : State) (c : Nat) : Lease := tget Lease.free s.lease c

/-- Set a lease table entry. -/
def State.setLease (s : State) (c : Nat) (l : Lease) : State := { s with lease := tset Lease.free s.lease c l }

/-- Add to a performance counter of a die (R439), unless the die freezes its counters. -/
def State.count (s : State) (die i n : Nat) : State :=
  if s.regs.freeze.contains die then s
  else { s with regs := { s.regs with counters := tmod 0 s.regs.counters (32 * die + i) (· + BitVec.ofNat 64 n) } }

/-- A new number for an access, command, walk or plot. -/
def State.bump (s : State) : State := { s with nextId := s.nextId + 1 }

/-! ### Plots -/

/-- The plot with an identifier. -/
def State.findPlot (s : State) (id : Nat) : Option Plot := s.plots.find? fun q => q.id == id

/-- The plot that holds a core. -/
def State.plotOf (s : State) (core : Nat) : Option Plot :=
  match (s.core core).plot with
  | none => none
  | some id => s.findPlot id

/-- Change a plot. -/
def State.modPlot (s : State) (id : Nat) (f : Plot → Plot) : State :=
  { s with plots := mapFirst (fun q => q.id == id) f s.plots }

/-- The cores of a plot, row-major from its lead core (R25, R210). -/
def Plot.cores (q : Plot) : List Nat :=
  (List.range (q.w * q.h)).map fun i => coreAt q.die (q.col + i % q.w) (q.row + i / q.w)

/-- The cores that a plot still holds: a drained row no longer belongs to it (R201). -/
def heldCores (s : State) (q : Plot) : List Nat := q.cores.filter fun c => (s.core c).plot == some q.id

/-- The lead core (R25). -/
abbrev Plot.lead (q : Plot) : Nat := coreAt q.die q.col q.row

/-- Row and column of a core within its plot (R50 COREPOS). -/
abbrev Plot.pos (q : Plot) (core : Nat) : Nat × Nat := (rowOf core - q.row, colOf core - q.col)

/-- Index of a core within its plot, row-major. -/
abbrev Plot.index (q : Plot) (core : Nat) : Nat := (q.pos core).1 * q.w + (q.pos core).2

/-- COREPOS (R50): row in bits 7:4, column in bits 3:0. -/
def corePos (s : State) (core : Nat) : Byte :=
  match s.plotOf core with
  | none => 0
  | some q => BitVec.ofNat 8 (16 * (q.pos core).1 + (q.pos core).2)

/-- The core that stands at a row and column of a plot. -/
abbrev Plot.coreIn (q : Plot) (row col : Nat) : Nat := coreAt q.die (q.col + col) (q.row + row)

/-- The core and local cell of a plot-relative cell position (R16). -/
abbrev Plot.cellIn (q : Plot) (dx dy : Nat) : Nat × Nat := (q.coreIn (dy / 2) (dx / 4), 4 * (dy % 2) + dx % 4)

/-- The plot-relative column and row of a cell (R16). -/
abbrev Plot.cellPos (q : Plot) (core cell : Nat) : Nat × Nat :=
  (4 * (q.pos core).2 + cell % 4, 2 * (q.pos core).1 + cell / 4)

/-! ### Work identifiers (R27, R28) -/

/-- Bit offset of field `k`. -/
def fieldOffset (widths : List Nat) (k : Nat) : Nat := (widths.take k).sum

/-- Field `k` of a work identifier (R27). -/
def widField (widths : List Nat) (k : Nat) (wid : Word) : Word :=
  let w := widths.getD k 0
  if w == 64 then wid else (wid >>> fieldOffset widths k) &&& BitVec.ofNat 64 (2 ^ w - 1)

/-- The outermost field: the highest of nonzero width (R27). -/
def outermost (widths : List Nat) : Option Nat := (List.range 6).reverse.find? fun k => widths.getD k 0 != 0

/-- First value and end of field `k` of a plot: the outermost field runs over the plot's own range (R28). -/
def Plot.fieldRange (q : Plot) (k : Nat) : Nat × Nat :=
  if outermost q.widths == some k then (q.lo, q.hi) else (0, q.extents.getD k 1)

/-- The first work identifier of a plot. -/
def Plot.firstWid (q : Plot) : Word :=
  match outermost q.widths with
  | none => 0
  | some k => BitVec.ofNat 64 (q.lo * 2 ^ fieldOffset q.widths k)

/-- Invocations of a plot (R28). -/
def Plot.total (q : Plot) : Nat :=
  (List.range 6).foldl (fun n k => n * ((q.fieldRange k).2 - (q.fieldRange k).1)) 1

/-- The fields that end with an identifier, innermost first, and the next identifier if there is one: an odometer over
the fields of nonzero width (R26, R27). -/
def nextFrom (q : Plot) (wid : Word) : List Nat → Option Word
  | [] => none
  | k :: r =>
    if q.widths.getD k 0 == 0 then nextFrom q wid r
    else
      let o := fieldOffset q.widths k
      let v := (widField q.widths k wid).toNat
      if v + 1 < (q.fieldRange k).2 then some (wid + BitVec.ofNat 64 (2 ^ o))
      else nextFrom q (wid - BitVec.ofNat 64 ((v - (q.fieldRange k).1) * 2 ^ o)) r

/-- The identifier after `wid` in the plot. -/
abbrev Plot.next (q : Plot) (wid : Word) : Option Word := nextFrom q wid (List.range 6)

/-- Whether `wid` is the last invocation of the plot. -/
abbrev Plot.isLast (q : Plot) (wid : Word) : Bool := (q.next wid).isNone

/-- CLOSE of an EOI (R164): how many fields, from field 0 up, end with this identifier. -/
def closeFrom (q : Plot) (wid : Word) : List Nat → Nat
  | [] => 0
  | k :: r => if (widField q.widths k wid).toNat + 1 == (q.fieldRange k).2 then closeFrom q wid r + 1 else 0

/-- CLOSE of an identifier. -/
abbrev Plot.close (q : Plot) (wid : Word) : Nat := closeFrom q wid (List.range 6)

/-- An upper bound of the identifiers that a slot with this position has begun; no identifier of the plot lies between. -/
def begunBy (q : Plot) (pos : Word) (begun ended : Bool) : Option Word :=
  if begun || ended then some pos else if pos == q.firstWid then none else some (pos - 1)

/-- The larger of two work identifiers, where one may not exist. -/
def maxWid : Option Word → Option Word → Option Word
  | none, b => b
  | a, none => a
  | some a, some b => some (if a.toNat < b.toNat then b else a)

/-- The largest work identifier whose first token or EOI an ingress slot of the plot has injected (R205 step 1), those of rows that have drained
included. -/
def begunWid (s : State) (q : Plot) : Option Word :=
  (heldCores s q).foldl (fun m c =>
    let k := s.core c
    let m1 := k.ports.foldl (fun m e => if e.2.dir then m else maxWid m (begunBy q e.2.pos (e.2.started && e.2.idx != 0) e.2.ended)) m
    k.slotPos.foldl (fun m e => maxWid m (begunBy q e.2.pos e.2.begun e.2.ended)) m1) q.begun

end Sys2Proof.Machine
end

