-- ==== Sys2Proof/Machine/Memory.lean ====
section
/-!
DEFINITION. Device memory as the controllers, the walkers and the hardware itself reach it: the three placement views (R242),
sector protection (R238), page walks (R239 to R241), translation caches (R243), record rings (R245, R312, R395, R438).
-/

namespace Sys2Proof.Machine

/-! ### Placement (R236, R242) -/

/-- The storage key of a channel and an offset in it. -/
abbrev stKey (ch off : Nat) : Nat := ch * Config.channelBytes + off

/-- The channel of a storage key. -/
abbrev keyChannel (a : Nat) : Nat := a / Config.channelBytes

/-- The die of a storage key. -/
abbrev keyDie (a : Nat) : Nat := keyChannel a / 64

/-- HASH view of R242. -/
def hashKey (pa : Nat) : Nat :=
  let g := pa / 256
  let ch := ((g % 256) ^^^ (g / 256 % 256)) ^^^ ((g / 65536 % 256) ^^^ (g / 16777216 % 128))
  stKey ch (g / 256 % 2 ^ 23 * 256 + pa % 256)

/-- HOME view of R242. -/
def homeKey (die pa : Nat) : Nat :=
  let g := pa / 256 % 2 ^ 29
  stKey (64 * die + g % 64) (g / 64 * 256 + pa % 256)

/-- SPREAD view of R242. -/
def spreadKey (pa : Nat) : Nat :=
  let f := pa / 4096 % 2 ^ 27
  let g := f / 4 * 16 + pa / 256 % 16
  stKey (64 * (f % 4) + g % 64) (g / 64 * 256 + pa % 256)

/-- Where a byte of a device page is stored (R242). -/
def placeKey (place homedie : BitVec 2) (pa : Nat) : Nat :=
  if place == 0 then homeKey homedie.toNat pa else if place == 1 then spreadKey pa else hashKey pa

/-! ### Sectors (R238) -/

/-- A 32-byte sector has an uncorrectable error. -/
abbrev badSector (s : State) (sec : Nat) : Bool := s.poisoned.contains sec

/-- Whether any sector that `n` bytes from `a` touch is uncorrectable. -/
def hbmBad (s : State) (a n : Nat) : Bool :=
  n != 0 && s.poisoned.any fun x => a / 32 ≤ x && x ≤ (a + n - 1) / 32

/-- What a read delivers: the stored bytes, and free bytes from an uncorrectable sector (log 9). -/
def hbmBytes (s : State) (a n : Nat) : List Byte :=
  (List.range n).map fun i => if badSector s ((a + i) / 32) then Config.poisonByte (a + i) else mbyte s.mem (a + i)

/-! ### Writes to device memory (R238, R393, R431) -/

/-- A write to a watched 64-byte line marks its watch (R393, R437). -/
def fireWatches (s : State) (a n : Nat) : State :=
  if n == 0 then s
  else
    { s with waits := s.waits.map fun w =>
        match w.line with
        | some l => if a / 64 ≤ l && l ≤ (a + n - 1) / 64 then { w with fired := true } else w
        | none => w }

/-- A device write back-invalidates the lines that the host caches before it is performed: its port names the line by the HASH-view
address by which the host has read it (R431). -/
def backInvalidate (s : State) (a n : Nat) : State :=
  let hit := fun (x : Bool × Nat) => n != 0 && a / 64 ≤ hashKey (64 * x.2) / 64 && hashKey (64 * x.2) / 64 ≤ (a + n - 1) / 64
  { s with
    hostLines := s.hostLines.filter fun x => !hit x
    hostOut := s.hostOut ++ (s.hostLines.filter hit).map fun x => { port := x.1, addr := 64 * x.2, value := [], code := 0, kind := .invalidate } }

/-- The uncorrectable sectors that a write touches only in part (R238). -/
def partSectors (s : State) (a n : Nat) : List Nat :=
  s.poisoned.filter fun x => n != 0 && a / 32 ≤ x && x ≤ (a + n - 1) / 32 && !(a ≤ 32 * x && 32 * x + 32 ≤ a + n)

/-- Store bytes at a storage key: a whole sector written clears its error, and counter 7 of the die counts them (R238, R439). -/
def hbmStore (s : State) (a : Nat) (bs : List Byte) : State :=
  let n := bs.length
  fireWatches ({ s with mem := mwrite s.mem a bs, poisoned := s.poisoned.filter fun x => !(a ≤ 32 * x && 32 * x + 32 ≤ a + n) }.count (keyDie a) 7 n) a n

/-- Cut `n` bytes from `va` up at 256-byte boundaries (R247); `fuel` bounds the number of pieces. -/
def cut256 (va : Nat) (n : Nat) : Nat → List (Nat × Nat)
  | 0 => []
  | fuel + 1 =>
    if n == 0 then []
    else
      let m := min n (256 - va % 256)
      (va, m) :: cut256 (va + m) (n - m) fuel

/-- Store bytes at HASH-view physical addresses, as the hardware does for its own records. -/
def hashStore (s : State) (pa : Nat) (bs : List Byte) : State :=
  (cut256 pa bs.length (bs.length / 256 + 2)).foldl (fun t p =>
    hbmStore (backInvalidate t (hashKey p.1) p.2) (hashKey p.1) (slice bs (p.1 - pa) p.2)) s

/-! ### Rings of records (R245, R312, R395, R438) -/

/-- Read bytes at HASH-view physical addresses; an uncorrectable sector delivers free bytes (log 9). -/
def readHash (s : State) (pa n : Nat) : List Byte :=
  (List.range n).map fun i =>
    let k := hashKey (pa + i)
    if badSector s (k / 32) then Config.poisonByte k else mbyte s.mem k

/-- A ring is full when its head would meet its tail; a ring of log 0 does not exist. -/
def ringFull (r : Ring) : Bool :=
  r.log == 0 || (r.head.toNat + 1) % 2 ^ r.log.toNat == r.tail.toNat % 2 ^ r.log.toNat

/-- Append one record of a ring by a writer, or count the drop (R245). -/
def ringPut (write : State → Nat → List Byte → State) (s : State) (r : Ring) (bs : List Byte) : State × Ring :=
  if ringFull r then (s, { r with drop := r.drop + 1 })
  else
    (write s (r.base.toNat + r.head.toNat * bs.length) bs,
      { r with head := BitVec.ofNat 32 ((r.head.toNat + 1) % 2 ^ r.log.toNat) })

/-- Append a device log record (R438): kind, die, unit and 16 detail bytes. The record is one whole sector of 32 bytes. -/
def logRecord (s : State) (kind die unit : Nat) (detail : List Byte) : State :=
  let bs := natLe 2 kind ++ natLe 1 die ++ natLe 1 unit ++ natLe 4 0 ++ natLe 8 s.pace.toNat ++
    (detail ++ List.replicate 16 0).take 16
  let (t, r) := ringPut hashStore s s.regs.lg bs
  { t with regs := { t.regs with lg := r } }

/-- Log the partial writes to uncorrectable sectors, which stay poisoned (R238). -/
def logParts (s : State) (xs : List Nat) : State :=
  xs.foldl (fun t x =>
    let ch := keyChannel (32 * x)
    logRecord t 9 (ch / 64) (ch / 32) (natLe 1 ch ++ natLe 3 0 ++ natLe 4 (32 * x % Config.channelBytes))) s

/-- Write device memory at a storage key (R238); `byHost` is a write of the host, which invalidates no line of its own. -/
def hbmWriteBy (byHost : Bool) (s : State) (a : Nat) (bs : List Byte) : State :=
  logParts (hbmStore (if byHost then s else backInvalidate s a bs.length) a bs) (partSectors s a bs.length)

/-- Write device memory at a storage key (R238). -/
abbrev hbmWrite (s : State) (a : Nat) (bs : List Byte) : State := hbmWriteBy false s a bs

/-- Write bytes at HASH-view physical addresses. -/
def writeHash (s : State) (pa : Nat) (bs : List Byte) : State :=
  (cut256 pa bs.length (bs.length / 256 + 2)).foldl (fun t p => hbmWrite t (hashKey p.1) (slice bs (p.1 - pa) p.2)) s

/-- Append one record of a ring, or count the drop (R245). -/
abbrev ringAppend (s : State) (r : Ring) (bs : List Byte) : State × Ring := ringPut writeHash s r bs

/-- Append a fault record of 64 bytes (R395, R418). -/
def faultRecord (s : State) (bs : List Byte) : State :=
  let (t, r) := ringAppend s s.regs.fq bs
  { t with regs := { t.regs with fq := r } }

/-! ### Page walks (R239 to R241) -/

/-- The index of a level in its table (R239). -/
def walkIndex (level va : Nat) : Nat := va / 2 ^ (12 + 9 * level) % (if level == 4 then 256 else 512)

/-- A page table entry (R240), read through the HASH view. -/
def readPte (s : State) (table idx : Nat) : Word := leBv 64 (readHash s (table + 8 * idx) 8)

/-- PA field of an entry (R240). -/
abbrev ptePa (e : Word) : Nat := (e.extractLsb' 12 40).toNat * 4096

/-- Whether an entry ends the walk at a level: level 0 always, levels 1 and 2 with LEAF. -/
def pteLeaf (level : Nat) (e : Word) : Bool := level == 0 || ((level == 1 || level == 2) && e.getLsbD 1)

/-- The 16 entries of a CONTIG group agree but for PA[15:12], which counts up (R241). -/
def contigOk (s : State) (table idx : Nat) (e : Word) : Bool :=
  (List.range 16).all fun i =>
    let x := readPte s table (idx / 16 * 16 + i)
    x &&& ~~~(0xF000#64) == e &&& ~~~(0xF000#64) && (x.extractLsb' 12 4).toNat == i

/-- A malformed entry (R241). -/
def pteMalformed (s : State) (level table idx : Nat) (e : Word) : Bool :=
  e.extractLsb' 54 10 != 0 || (e.getLsbD 1 && (level == 4 || level == 3 || level == 0)) ||
  if pteLeaf level e then
    e.extractLsb' 4 2 == 3 || (e.getLsbD 2 && (level != 0 || !contigOk s table idx e)) ||
      (level == 2 && e.extractLsb' 12 18 != 0) || (level == 1 && e.extractLsb' 12 9 != 0)
  else e.getLsbD 53 || e.extractLsb' 2 10 != 0

/-- A fault of a walk: its code and whether the entry was malformed (TCAUSE detail bit 8). -/
abbrev WalkFault := Byte × Bool

/-- Code TRANSLATION (R58). -/
abbrev cTRANSLATION : Byte := 0x02
/-- Code PERMISSION (R58). -/
abbrev cPERMISSION : Byte := 0x03

/-- Code MEMUNCORR (R58). -/
abbrev cMEMUNCORR : Byte := 0x09

/-- An entry, or the group of 16 that a CONTIG leaf stands in, lies in an uncorrectable sector (R238). -/
def pteBad (s : State) (level table idx : Nat) : Bool :=
  hbmBad s (hashKey (table + 8 * idx)) 8 ||
    (level == 0 && (readPte s table idx).getLsbD 2 && hbmBad s (hashKey (table + 128 * (idx / 16))) 128)

/-- Walk the tables from a level down (R239 to R241). A walk that reads an uncorrectable entry ends with MEMUNCORR (R238, log 93). `wr` is the AND of WR so far. -/
def walkFrom (s : State) (root : Word) (va : Nat) (store fetch : Bool) : Nat → Nat → Bool → Except WalkFault TcEntry
  | level, table, wr =>
    let idx := walkIndex level va
    let e := readPte s table idx
    if pteBad s level table idx then .error (cMEMUNCORR, false)
    else if !e.getLsbD 0 then .error (cTRANSLATION, false)
    else if pteMalformed s level table idx e then .error (cTRANSLATION, true)
    else
      let w := wr && e.getLsbD 52
      if pteLeaf level e then
        let contig := level == 0 && e.getLsbD 2
        let shift := if contig then 16 else 12 + 9 * level
        let base := ptePa e / 2 ^ shift * 2 ^ shift
        let host := e.getLsbD 3
        if !host && (base ≥ Config.deviceBytes || (e.extractLsb' 4 2 == 0 && BitVec.ofNat 2 (base / 2 ^ 37) != e.extractLsb' 6 2)) then
          .error (cTRANSLATION, false)
        else if (store && !w) || (fetch && e.getLsbD 53) then .error (cPERMISSION, false)
        else .ok
          { root := root, page := va / 2 ^ shift, size := if contig then 1 else if level == 0 then 0 else level + 1, pa := base,
            host := host, place := e.extractLsb' 4 2, homedie := e.extractLsb' 6 2, sa := e.getLsbD 8, wb := e.getLsbD 9,
            ac := e.getLsbD 10, rw := e.getLsbD 11, wr := w, nf := e.getLsbD 53 }
      else if ptePa e ≥ Config.deviceBytes then .error (cTRANSLATION, false)
      else
        match level with
        | 0 => .error (cTRANSLATION, false)
        | n + 1 => walkFrom s root va store fetch n (ptePa e) w

/-- An address is canonical when bits 63:55 are all equal (R124). -/
def canonical (va : Word) : Bool := va.extractLsb' 55 9 == 0 || va.extractLsb' 55 9 == 0x1FF

/-- One walk of a virtual address under a root (R239): the entry or the first fault that applies. A root at or above 2^39 names no table: the manual
speaks only of entries that name one (R241 case 4), and the root raises TRANSLATION in the same way (DESIGN CHOICE, log 93). -/
def walkPage (s : State) (root va : Word) (store fetch : Bool) : Except WalkFault TcEntry :=
  if !canonical va then .error (cTRANSLATION, false)
  else if root.toNat ≥ Config.deviceBytes then .error (cTRANSLATION, false)
  else walkFrom s root va.toNat store fetch 4 root.toNat true

/-! ### Walk caches (R243) -/

/-- Bits of an address below those that reach a table of a level. -/
abbrev wcShift (level : Nat) : Nat := 21 + 9 * level

/-- The non-leaf entries that a walk passes, from a table down; it ends at the first entry that is a leaf or a fault. -/
def walkTables (s : State) (root : Word) (va : Nat) : Nat → Nat → Bool → List WcEntry
  | 0, _, _ => []
  | n + 1, table, wr =>
    let idx := walkIndex (n + 1) va
    let e := readPte s table idx
    if pteBad s (n + 1) table idx || !e.getLsbD 0 || pteMalformed s (n + 1) table idx e || pteLeaf (n + 1) e || Config.deviceBytes ≤ ptePa e then []
    else
      let w := wr && e.getLsbD 52
      { root := root, level := n, page := va / 2 ^ wcShift n, table := ptePa e, wr := w } :: walkTables s root va n (ptePa e) w

/-- The entry of a walk cache that is nearest to the leaf of an address. -/
def wcFind (d : Die) (root : Word) (va : Nat) : Option WcEntry :=
  (List.range 4).findSome? fun l => d.wcache.find? fun e => e.level == l && e.root == root && e.page == va / 2 ^ wcShift l

/-- Put entries at the front of a walk cache of 256 entries; the last is least recently used (the manual gives no replacement, log 32). -/
def wcTouch (d : Die) (es : List WcEntry) : Die :=
  { d with wcache := (es ++ d.wcache.filter fun x => !(es.any fun e => e.root == x.root && e.level == x.level && e.page == x.page)).take 256 }

/-- The reads of 8 bytes that a walk makes at the dies of its entries (R439 counter 6). -/
def countWalk (s : State) (va : Nat) : Nat → Nat → State
  | 0, table => s.count (keyDie (hashKey (table + 8 * walkIndex 0 va))) 6 8
  | n + 1, table =>
    let idx := walkIndex (n + 1) va
    let e := readPte s table idx
    let t := s.count (keyDie (hashKey (table + 8 * idx))) 6 8
    if pteBad s (n + 1) table idx || !e.getLsbD 0 || pteMalformed s (n + 1) table idx e || pteLeaf (n + 1) e || Config.deviceBytes ≤ ptePa e then t
    else countWalk t va n (ptePa e)

/-- A walk by the walker of a die (R239, R243): it starts at the nearest table that the walk cache names. -/
def walkDie (s0 : State) (die : Nat) (root va : Word) (store fetch : Bool) : Except WalkFault TcEntry × State :=
  let s := match wcFind (s0.die die) root va.toNat with
    | none => if !canonical va || root.toNat ≥ Config.deviceBytes then s0 else countWalk s0 va.toNat 4 root.toNat
    | some e => if !canonical va then s0 else countWalk s0 va.toNat e.level e.table
  match wcFind (s.die die) root va.toNat with
  | none =>
    (walkPage s root va store fetch,
      if !canonical va || root.toNat ≥ Config.deviceBytes then s
      else s.modDie die fun d => wcTouch d (walkTables s root va.toNat 4 root.toNat true))
  | some e =>
    (if !canonical va then .error (cTRANSLATION, false) else walkFrom s root va.toNat store fetch e.level e.table e.wr,
      s.modDie die fun d => wcTouch d (e :: walkTables s root va.toNat e.level e.table e.wr))

/-- Bits of the page offset of an entry. -/
def TcEntry.shift (e : TcEntry) : Nat := match e.size with | 0 => 12 | 1 => 16 | 2 => 21 | _ => 30

/-- The physical address of a virtual address through an entry. -/
def TcEntry.addr (e : TcEntry) (va : Word) : Nat := e.pa + va.toNat % 2 ^ e.shift

/-- Whether an entry translates an address of a context. -/
def TcEntry.hits (e : TcEntry) (root va : Word) : Bool := e.root == root && e.page == va.toNat / 2 ^ e.shift

/-- The storage key of a virtual address: device storage, or the host physical address. -/
def TcEntry.key (e : TcEntry) (va : Word) : Nat := if e.host then e.addr va else placeKey e.place e.homedie (e.addr va)

/-- The Market die whose host port serves a host physical address (R384). -/
def hostDie (s : State) (pa : Nat) : Nat :=
  if s.regs.hpsel == 1 then 5 else if s.regs.hpsel == 2 then (if pa / 4096 % 2 == 1 then 5 else 4) else 4

/-- The home die of a byte (R247). -/
def TcEntry.homeOf (e : TcEntry) (s : State) (va : Word) : Nat := if e.host then hostDie s (e.addr va) else keyDie (e.key va)

/-! ### Translation caches (R243) -/

/-- The set of a page number: the manual gives 64 sets and no index; the low bits of the page number (log 11). -/
abbrev tcSet (page : Nat) : Nat := page % 64

/-- Find an entry of a core's translation cache: every page size may occupy an entry. -/
def tcFind (k : Core) (root va : Word) : Option TcEntry :=
  ([12, 16, 21, 30].map fun sh => (tget [] k.tcache (tcSet (va.toNat / 2 ^ sh))).find? fun e => e.shift == sh && e.hits root va).findSome? id

/-- Move an entry to the front of its set, so the last of the set is least recently used. -/
def tcTouch (k : Core) (e : TcEntry) : Core :=
  let set := tcSet e.page
  let rest := (tget [] k.tcache set).filter fun x => !(x.root == e.root && x.page == e.page && x.size == e.size)
  { k with tcache := tset [] k.tcache set ((e :: rest).take 8) }

/-- What a translation answers: an entry, a fault, or a walk to wait for. -/
inductive Xlate where
  | hit (e : TcEntry)
  | fault (f : WalkFault)
  | wait (walk : Nat)
  deriving DecidableEq, Repr

/-- An entry serves an access: stores need WR and no write block, fetches need NF = 0; any other access walks again. -/
def tcServes (e : TcEntry) (store fetch : Bool) : Bool := (!store || (e.wr && !e.wb)) && (!fetch || !e.nf)

/-- A walk of this core for the page and kind of an access. -/
def sameWalk (core : Nat) (root va : Word) (store fetch : Bool) (w : Walk) : Bool :=
  w.core == core && w.root == root && w.va.toNat / 4096 == va.toNat / 4096 && w.store == store && w.fetch == fetch

/-- Translate for an agent of a core (R124 steps 2 to 4, R243, R244): a walk that has ended in a fault is consumed. -/
def translate (s : State) (core : Nat) (root va : Word) (store fetch : Bool) : Xlate × State :=
  if !canonical va then (.fault (cTRANSLATION, false), s)
  else
    match s.walks.find? (sameWalk core root va store fetch) with
    | some w =>
      match w.fault with
      | some f => (.fault f, { s with walks := dropFirst (fun x => x.id == w.id) s.walks })
      | none => (.wait w.id, s)
    | none =>
      match (tcFind (s.core core) root va).filter fun e => tcServes e store fetch with
      | some e => (.hit e, s.modCore core fun k => tcTouch k e)
      | none =>
        let id := s.nextId + 1
        let w : Walk := { id := id, core := core, root := root, va := va, store := store, fetch := fetch, fault := none, heldAt := none }
        (.wait id, { ((s.count (dieOf core) 8 1).count (dieOf core) 9 1).bump with walks := s.walks ++ [w] })

/-! ### Accesses of walkers, copy engines and RoCE engines: translated where they are performed -/

/-- The pieces of an access. -/
abbrev pieces (va : Word) (n : Nat) : List (Nat × Nat) := cut256 va.toNat n (n / 256 + 2)

/-- Host memory as a read of the device finds it: behind the writes that the host ports have accepted and the host has not completed (R281). -/
def hostView (s : State) : Mem :=
  (s.hostPend.filterMap fun id => s.accs.find? fun a => a.id == id).foldl (fun m a =>
    (if a.parts.isEmpty then [(0, a.data.length)] else a.parts).foldl (fun m p => mwrite m (a.addr + p.1) (slice a.data p.1 p.2)) m) s.hostMem

/-- Read bytes of a virtual range: the bytes, or the first fault with its address; a home die that is removed gives CAUSALGAP (R273). -/
def readVa (s : State) (root va : Word) (n : Nat) : Except (Byte × Word) (List Byte) :=
  (pieces va n).foldl (fun acc p =>
    match acc with
    | .error e => .error e
    | .ok bs =>
      let a := BitVec.ofNat 64 p.1
      match walkPage s root a false false with
      | .error f => .error (f.1, a)
      | .ok e =>
        if (s.die (e.homeOf s a)).removed then .error (0x0B, a)
        else if e.host then .ok (bs ++ mread (hostView s) (e.addr a) p.2)
        else if hbmBad s (e.key a) p.2 then .error (cMEMUNCORR, a)
        else .ok (bs ++ mread s.mem (e.key a) p.2)) (.ok [])

/-- Check that every page of a virtual range takes stores. -/
def checkStoreVa (s : State) (root va : Word) (n : Nat) : Option (Byte × Word) :=
  (pieces va n).findSome? fun p =>
    match walkPage s root (BitVec.ofNat 64 p.1) true false with
    | .error f => some (f.1, BitVec.ofNat 64 p.1)
    | .ok e => if (s.die (e.homeOf s (BitVec.ofNat 64 p.1))).removed then some (0x0B, BitVec.ofNat 64 p.1) else none

/-- A store of these bytes meets a page with WB = 1, so that it waits at the walker (R244). -/
def storeHeld (s : State) (root va : Word) (n : Nat) : Bool :=
  (pieces va n).any fun p => match walkPage s root (BitVec.ofNat 64 p.1) true false with | .ok e => e.wb | .error _ => false

/-- Store one piece at its home. -/
def storeAt (s : State) (e : TcEntry) (va : Word) (bs : List Byte) : State :=
  if e.host then ({ s with hostMem := mwrite s.hostMem (e.addr va) bs }).count (hostDie s (e.addr va)) 6 1
  else hbmWrite s (e.key va) bs

/-- Write bytes of a virtual range: the state, or the first fault with its address; nothing is written on a fault. -/
def writeVa (s : State) (root va : Word) (bs : List Byte) : Except (Byte × Word) State :=
  match checkStoreVa s root va bs.length with
  | some f => .error f
  | none =>
    .ok ((pieces va bs.length).foldl (fun acc p =>
      match walkPage s root (BitVec.ofNat 64 p.1) true false with
      | .error _ => acc
      | .ok e => storeAt acc e (BitVec.ofNat 64 p.1) (slice bs (p.1 - va.toNat) p.2)) s)

/-- A 64-bit word at a virtual address. -/
def readWordVa (s : State) (root va : Word) : Except (Byte × Word) Word :=
  match readVa s root va 8 with
  | .error e => .error e
  | .ok bs => .ok (leBv 64 bs)

/-! ### Access counting (R245, R246) -/

/-- Count one request on a page with AC = 1 at its serving agent, and append a record when the threshold is reached. A device page is
served by the bridge of the channel, numbered as the channel; a host page by the port of a die, numbered 256 + die. -/
def countAccess (s : State) (agent : Nat) (host : Bool) (pa : Nat) (write : Bool) : State :=
  if s.regs.acthr == 0 then s
  else
    let frame := pa / 4096
    let same := fun (c : AcCounter) => c.agent == agent && c.host == host && c.frame == frame
    let old := (s.acCounters.find? same).getD { agent := agent, host := host, frame := frame, count := 0, writes := 0 }
    let c := { old with count := old.count + 1, writes := if write then old.writes + 1 else old.writes }
    let others := s.acCounters.filter fun x => !same x
    let mine := others.filter fun x => x.agent == agent
    let rest := if mine.length ≥ 4096 then others.filter fun x => !(some x == mine.getLast?) else others
    if c.count ≥ s.regs.acthr.toNat then
      let die := if agent < 256 then agent / 64 else agent - 256
      let tag := BitVec.ofNat 64 (frame * 4096) ||| (if host then 1 else 0) ||| BitVec.ofNat 64 (2 * die)
      let bs := natLe 8 tag.toNat ++ natLe 4 s.regs.acthr.toNat ++ natLe 1 (min c.writes 255) ++ natLe 3 0
      let (t, r) := ringAppend s s.regs.nq bs
      { t with regs := { t.regs with nq := r }, acCounters := { c with count := 0, writes := 0 } :: rest }
    else { s with acCounters := c :: rest }

/-- Count the requests of at most 64 bytes that `n` bytes take: at a storage key with its physical address, or at a host address. -/
def countLines (s : State) (host : Bool) (addr pa n : Nat) (write : Bool) : State :=
  (List.range ((addr + n - 1) / 64 + 1 - addr / 64)).foldl (fun t _ =>
    countAccess t (if host then 256 + hostDie t addr else keyChannel addr) host (if host then addr else pa) write) s

/-! ### The race detector (R309 to R312) -/

/-- Shadow key of a device sector. -/
abbrev shadowDevice (key : Nat) : Nat := key / 32

/-- Shadow key of a scratchpad sector. -/
abbrev shadowScratch (core cellByte : Nat) : Nat := 2 ^ 40 + core * 65536 + cellByte / 32

/-- A live plot with a race identity. -/
def racePlot (s : State) (p : BitVec 16) : Option Plot :=
  s.plots.find? fun q => q.raceId == p && (q.state == .armed || q.state == .hostwait || q.state == .saving)

/-- RELINT of a scope (R310). -/
def relInt (r : RaceCore) : BitVec 2 → Option W32
  | 1 => r.relPlot
  | 2 => r.relDevice
  | 3 => r.relSystem
  | _ => none

/-- A release of scope `sc` by the agents of a core (R310). -/
def raceRelease (s : State) (core : Nat) (sc : BitVec 2) : State :=
  s.modCore core fun k =>
    { k with race :=
      { int := k.race.int + 1,
        relPlot := if sc.toNat ≥ 1 then some k.race.int else k.race.relPlot,
        relDevice := if sc.toNat ≥ 2 then some k.race.int else k.race.relDevice,
        relSystem := if sc.toNat ≥ 3 then some k.race.int else k.race.relSystem } }

/-- A conflict that the detector reports: the scope and the writer's shadow. -/
structure Conflict where
  scope : BitVec 2
  shadow : Shadow
  deriving DecidableEq, Repr

/-- The check of R311 on one sector for core `c` of plot `q`, or for the host when `core` is none. -/
def raceCheck (s : State) (key : Nat) (core : Option Nat) : Option Conflict :=
  let sh := tget Shadow.init s.shadow key
  match racePlot s sh.wplot with
  | none => none
  | some wp =>
    let me := core.bind fun c => (s.plotOf c).map fun q => (q.raceId, BitVec.ofNat 7 (q.index c))
    if sh.wplot == 0xFFFF || me == some (sh.wplot, sh.wcore) then none
    else
      let r : BitVec 2 := if core.isNone then 3 else if me.map (·.1) == some sh.wplot then 1 else 2
      let k := (s.core (wp.cores.getD sh.wcore.toNat 0)).race
      let a := k.int.setWidth 16 - sh.wint
      match relInt k r with
      | none => some { scope := r, shadow := sh }
      | some rel => if (k.int - rel).toNat > a.toNat then some { scope := r, shadow := sh } else none

/-- The shadow that a write leaves: the writer's identity with its interval count at issue, or 0xFFFF for an exempt agent. -/
def raceMark (s : State) (key : Nat) (core : Option Nat) (wint : BitVec 16) : State :=
  let v := match core.bind fun c => (s.plotOf c).map fun q => (q, c) with
    | none => Shadow.init
    | some (q, c) => { wplot := q.raceId, wcore := BitVec.ofNat 7 (q.index c), wint := wint }
  { s with shadow := tset Shadow.init s.shadow key v }

/-- A race log record (R312). -/
def raceLog (s : State) (where_ : Word) (core : Nat) (write : Bool) (c : Conflict) : State :=
  let (ap, ac) := match s.plotOf core with
    | none => (0xFFFF#16, 0)
    | some q => (q.raceId, q.index core)
  let bs := natLe 8 where_.toNat ++ natLe 2 ap.toNat ++ natLe 1 ac ++ natLe 1 ((if write then 1 else 0) + 2 * c.scope.toNat) ++
    natLe 2 c.shadow.wplot.toNat ++ natLe 1 c.shadow.wcore.toNat ++ natLe 1 0 ++ natLe 2 c.shadow.wint.toNat ++ natLe 6 0 ++
    natLe 8 s.pace.toNat
  let (t, r) := ringAppend s s.regs.race bs
  { t with regs := { t.regs with race := r } }

/-- Whether a physical frame is watched at a home die: at most 4 GiB of frames per die, in the order of first access (R309). -/
def raceWatch (s : State) (die frame : Nat) : Bool × State :=
  let l := tget [] s.watched die
  if l.contains frame then (true, s)
  else if l.length < 2 ^ 20 then (true, { s with watched := tset [] s.watched die (l ++ [frame]) })
  else (false, { s with regs := { s.regs with rwover := if s.regs.rwover == 0xFFFFFFFF then s.regs.rwover else s.regs.rwover + 1 } })

/-- Count what the accesses of an agent to a virtual range do beside their bytes: requests on pages with AC = 1 (R245), and the bytes that they read
(R439 counter 6; the stores count themselves). An access through an RW page makes its frame a watched one
(R309). -/
def countVa (s : State) (root va : Word) (n : Nat) (write : Bool) : State :=
  (pieces va n).foldl (fun t p =>
    let a := BitVec.ofNat 64 p.1
    match walkPage t root a write false with
    | .ok e =>
      let t := if e.rw && !e.host then (raceWatch t (keyDie (e.key a)) (e.addr a / 4096)).2 else t
      let u := if e.ac then countLines t e.host (e.key a) (e.addr a) p.2 write else t
      if write then u else if e.host then u.count (hostDie u (e.addr a)) 6 1 else u.count (keyDie (e.key a)) 6 p.2
    | .error _ => t) s

end Sys2Proof.Machine
end

