-- ==== Sys2Proof/Machine/GraphOps.lean ====
section
/-!
DEFINITION. Task-graph nodes as the walkers see them (R389 to R400): the STATE word, the queue set, faults of nodes,
release of successors, and the end of a LAUNCH. Every access goes through the root in GPTR (R395).
-/

namespace Sys2Proof.Machine

/-- FORMAT (R58). -/
abbrev cFORMAT : Byte := 0x06

/-- ST of a node (R389). -/
abbrev stWAITING : BitVec 8 := 0
/-- READY. -/
abbrev stREADY : BitVec 8 := 1
/-- CLAIMED. -/
abbrev stCLAIMED : BitVec 8 := 2
/-- RUNNING. -/
abbrev stRUNNING : BitVec 8 := 3
/-- DONE. -/
abbrev stDONE : BitVec 8 := 4
/-- FAULT. -/
abbrev stFAULT : BitVec 8 := 5

/-- ST field of a STATE word. -/
abbrev nodeSt (v : Word) : BitVec 8 := v.extractLsb' 8 8
/-- PENDING field. -/
abbrev nodePending (v : Word) : BitVec 16 := v.extractLsb' 16 16
/-- INITPEND field. -/
abbrev nodeInit (v : Word) : BitVec 16 := v.extractLsb' 32 16
/-- PRIO field. -/
abbrev nodePrio (v : Word) : BitVec 8 := v.extractLsb' 48 8

/-- A STATE word with another ST. -/
def withSt (v : Word) (st : BitVec 8) : Word := v.extractLsb' 16 48 ++ st ++ v.extractLsb' 0 8

/-- A STATE word with another PENDING. -/
def withPending (v : Word) (p : BitVec 16) : Word := v.extractLsb' 32 32 ++ p ++ v.extractLsb' 0 16

/-- Read a word of a node. -/
abbrev gread (s : State) (va : Word) : Except (Byte × Word) Word := readWordVa s s.regs.gptr va

/-- Write a word of a node. -/
abbrev gwrite (s : State) (va v : Word) : Except (Byte × Word) State := writeVa s s.regs.gptr va (natLe 8 v.toNat)

/-- The 64 bytes of a fault record (R418). -/
def recordBytes (s : State) (node : Word) (code origin flags core : Byte) (plot : Nat) (chan : Byte) (where_ tval : Word)
    (tcause : W32) (frame : Word) : List Byte :=
  natLe 8 node.toNat ++ [code, origin, flags, core] ++ natLe 2 plot ++ [chan, 0] ++ natLe 8 where_.toNat ++ natLe 8 tval.toNat ++
    natLe 4 tcause.toNat ++ natLe 4 0 ++ natLe 8 frame.toNat ++ natLe 8 s.pace.toNat ++ natLe 8 0

/-- The record of a fault that a walker finds (R394, R418): origin 4, FATAL. -/
def walkerRecord (s : State) (node : Word) (code : Byte) (tval : Word) : State :=
  faultRecord s (recordBytes s node code 4 1 0 0 0xFF 0 tval (code.setWidth 32) 0)

/-- Set ST of a node. -/
def setSt (s : State) (node : Word) (st : BitVec 8) : Except (Byte × Word) State := allOk (gread s node) fun v => gwrite s node (withSt v st)

/-- A node becomes FAULT with a record (R394); its successors stay as they are. Where its STATE word cannot be reached, the record stands
alone. -/
def nodeFault (s : State) (node : Word) (code : Byte) (tval : Word) : State :=
  match setSt s node stFAULT with
  | .ok t => walkerRecord t node code tval
  | .error _ => walkerRecord s node code tval

/-- Put an entry into the queue set, or hold it until an entry frees (R400). -/
def enqueue (s : State) (e : QEntry) : State :=
  if s.queue.length < 4096 then { s with queue := s.queue ++ [e] } else { s with overflow := s.overflow ++ [e] }

/-- Remove the entry of a node from the queue set; a held entry then enters (R400). -/
def dequeue (s : State) (p : QEntry → Bool) : State :=
  let q := dropFirst p s.queue
  if q.length == s.queue.length then s
  else
    match s.overflow with
    | [] => { s with queue := q }
    | e :: r => { s with queue := q ++ [e], overflow := r }

/-- Level and aging of a node that becomes READY (R397, R400): a LAUNCH takes both from its record; a record that cannot be
read gives level 0 without aging. -/
def readyLevel (s : State) (node v : Word) : Nat × Bool :=
  if v.extractLsb' 0 8 == 1 then
    match gread s (node + 40) with
    | .error _ => (0, false)
    | .ok rec =>
      match readVa s s.regs.gptr (rec + 72) 2 with
      | .error _ => (0, false)
      | .ok bs => (leAt bs 0 1, leAt bs 1 1 % 2 == 1)
  else ((nodePrio v).toNat, v.getLsbD 56)

/-- A node whose PENDING is 0 becomes READY and enters the queue set (R390), or the fault of its STATE write. `v` is its STATE word. -/
def makeReady (s : State) (node v : Word) : Except (Byte × Word) State :=
  let (level, aging) := readyLevel s node v
  allOk (gwrite s node (withSt v stREADY)) fun t => .ok (enqueue t
    { node := node, level := level, ready := s.pace, aging := aging, launch := v.extractLsb' 0 8 == 1, restored := none, rises := 0 })

/-- What GO does to a node (R394, R395): READY, or a record of the fault. -/
def startNode (s : State) (node v : Word) : State :=
  match makeReady s node v with
  | .ok t => t
  | .error e => nodeFault s node e.1 e.2

/-- Release one successor (R390): decrement PENDING; a wrong state marks the successor FAULT. `none` when its word cannot be
reached. -/
def releaseOne (s : State) (succ : Word) : Except (Byte × Word) State :=
  match gread s succ with
  | .error e => .error e
  | .ok v =>
    if nodePending v == 0 || nodeSt v != stWAITING then .ok (nodeFault s succ cFORMAT succ)
    else
      let w := withPending v (nodePending v - 1)
      match gwrite s succ w with
      | .error e => .error e
      | .ok t => if nodePending w == 0 then makeReady t succ w else .ok t

/-- Release successors in order; an address of 0 is none. A fault marks the releasing node FAULT and ends the release (log 12). -/
def releaseAll (s : State) (node : Word) : List Word → State
  | [] => s
  | a :: r =>
    if a == 0 then releaseAll s node r
    else
      match releaseOne s a with
      | .error e => nodeFault s node e.1 e.2
      | .ok t => releaseAll t node r

/-- The four successors of a node in memory. -/
def successors (s : State) (node : Word) : List Word :=
  [8, 16, 24, 32].map fun o => match gread s (node + BitVec.ofNat 64 o) with | .ok a => a | .error _ => 0

/-- A node becomes DONE and releases the named successors (R390). -/
def nodeDone (s : State) (node : Word) (succ : List Word) : State :=
  match gread s node with
  | .error e => walkerRecord s node e.1 e.2
  | .ok v =>
    match gwrite s node (withSt v stDONE) with
    | .error e => nodeFault s node e.1 e.2
    | .ok t => releaseAll t node succ

/-- A LAUNCH that did not end well becomes FAULT, and releases its successors only under RELF (R398). -/
def launchFault (s : State) (node : Word) (relf : Bool) : State :=
  match setSt s node stFAULT with
  | .error e => walkerRecord s node e.1 e.2
  | .ok t => if relf then releaseAll t node (successors t node) else t

/-- The end of a LAUNCH (R398): DONEW, ST, and the release of its successors. `ok` says that its record was accepted. A fault of one of these
accesses is recorded (R394). -/
def launchEnd (s : State) (r : LaunchRun) (ok : Bool) : State :=
  let word := BitVec.ofNat 64 (r.code.toNat + 65536 * r.fatal)
  let s1 := { s with launches := s.launches.filter fun x => x.node != r.node }
  let done := allOk (gread s (r.node + 48)) fun donew => allOk (gread s (r.node + 56)) fun w =>
    allOk (if donew == 0 then .ok s1 else gwrite s1 donew word) fun t => .ok (t, w.getLsbD 0)
  match done with
  | .error e => nodeFault s1 r.node e.1 e.2
  | .ok (t, relf) => if ok && r.fatal == 0 then nodeDone t r.node (successors t r.node) else launchFault t r.node relf

/-- Count the end of one plot under its LAUNCH, which ends with its last plot (R398). -/
def plotEnded (s : State) (node : Word) (fatal : Option Byte) : State :=
  match s.launches.find? fun r => r.node == node with
  | none => s
  | some r =>
    let r1 := { r with ended := r.ended + 1, fatal := r.fatal + (if fatal.isSome then 1 else 0),
                       code := if r.fatal == 0 then fatal.getD 0 else r.code }
    if r1.ended ≥ r1.plots then launchEnd s r1 true
    else { s with launches := mapFirst (fun x => x.node == node) (fun _ => r1) s.launches }

end Sys2Proof.Machine
end

