-- ==== Sys2Proof/Machine/Ops.lean ====
section
/-!
DEFINITION. The shared operations of a sequencer and of faults: registers and pending marks (R104, R114), yielding stalls
(R113), the end-of-body test (R130), taking a trap (R411 to R413) and returning from one (R414), HOSTWAIT (R416), the sweep
and fatal end of a plot (R207, R419), acceptance and completion of commands (R56, R57).
-/

namespace Sys2Proof.Machine

/-- ILLEGAL (R58). -/
abbrev cILLEGAL : Byte := 0x01
/-- ALIGN (R58). -/
abbrev cALIGN : Byte := 0x04
/-- OWNER (R58). -/
abbrev cOWNER : Byte := 0x05
/-- MATCHECK (R58). -/
abbrev cMATCHECK : Byte := 0x07
/-- DUALMISMATCH (R58). -/
abbrev cDUALMISMATCH : Byte := 0x08
/-- RACE (R58). -/
abbrev cRACE : Byte := 0x0A
/-- CAUSALGAP (R58). -/
abbrev cCAUSALGAP : Byte := 0x0B
/-- WATCHDOG (R58). -/
abbrev cWATCHDOG : Byte := 0x0C
/-- SAVETIMEOUT (R58). -/
abbrev cSAVETIMEOUT : Byte := 0x0D
/-- LOOPCOUNT (R58). -/
abbrev cLOOPCOUNT : Byte := 0x0E
/-- LOOPREG (R58). -/
abbrev cLOOPREG : Byte := 0x0F
/-- CFGBAD (R58). -/
abbrev cCFGBAD : Byte := 0x10

/-! ### Registers (R104) -/

/-- The bank that the running context sees: its channel, or 16 in trap mode (R411). -/
abbrev Core.bank (k : Core) : Nat := k.running.getD 0

/-- Physical register of a register number in a bank: x1 to x23 are shared, x24 to x31 banked (R104). -/
def physReg (bank : Nat) (r : Nat) : Nat := if r < 24 then r else 24 + 8 * bank + (r - 24)

/-- Read a register: x0 reads as zero. -/
def Core.rd (k : Core) (r : Reg) : Word := if r = 0 then 0 else tget 0 k.regs (physReg k.bank r.toNat)

/-- Write a register: a write to x0 is discarded. -/
def Core.wr (k : Core) (r : Reg) (v : Word) : Core :=
  if r = 0 then k else { k with regs := tset 0 k.regs (physReg k.bank r.toNat) v }

/-- Whether a register is pending (R57, R114); x0 never is. -/
def Core.isPending (k : Core) (r : Reg) : Bool := r != 0 && tget false k.pend (physReg k.bank r.toNat)

/-- Set or clear the pending mark of a physical register. -/
def Core.setPend (k : Core) (phys : Nat) (b : Bool) : Core := { k with pend := tset false k.pend phys b }

/-- The core that acts. -/
abbrev State.me (s : State) : Core := s.core s.cur.core

/-- Change the core that acts. -/
abbrev State.modMe (s : State) (f : Core → Core) : State := s.modCore s.cur.core f

/-- Read a register of the acting core. -/
abbrev State.rd (s : State) (r : Reg) : Word := s.me.rd r

/-! ### Loops and the end of an instruction (R128, R130) -/

/-- Level `n` of a handler. -/
def Handler.level (h : Handler) (n : Nat) : Loop := if n = 0 then h.l0 else if n = 1 then h.l1 else h.l2

/-- Replace level `n`. -/
def Handler.setLevel (h : Handler) (n : Nat) (l : Loop) : Handler :=
  if n = 0 then { h with l0 := l } else if n = 1 then { h with l1 := l } else { h with l2 := l }

/-- The end-of-body test over the active levels, most recently opened first (R130). -/
def bodyTest (h : Handler) (ia npc : Word) : List Nat → Handler × Word
  | [] => (h, npc)
  | n :: r =>
    let l := h.level n
    if l.le = ia then
      if l.lc.toNat > 1 then (h.setLevel n { l with lc := l.lc - 1 }, l.ls)
      else bodyTest { h.setLevel n { l with lc := 0 } with order := h.order.erase n } ia npc r
    else bodyTest h ia npc r

/-- The instruction boundary: a single step of a debug session ends here (R140). -/
def boundary (k : Core) : Core := if k.stepping then { k with stepping := false, stopped := true } else k

/-- Complete an instruction that does not transfer control: the end-of-body test picks the next address (R130). -/
def Core.finish (k : Core) (npc : Word) : Core :=
  let (h, next) := bodyTest (k.handler k.bank) k.pc npc (k.handler k.bank).order
  boundary { k.modHandler k.bank (fun _ => h) with pc := next }

/-- Complete a transfer of control: no test (R130). -/
def Core.jump (k : Core) (npc : Word) : Core := boundary { k with pc := npc }

/-- Complete a one-word instruction of the acting core after a change of its core. -/
def advance (s : State) (f : Core → Core) : State := s.modMe fun k => (f k).finish (k.pc + 4)

/-! ### Yielding stalls (R113) -/

/-- The running context stalls: it is STALLED at its instruction and the sequencer may select another. -/
def stallOn (s : State) (why : Stall) : State :=
  s.modMe fun k =>
    boundary { k.modHandler k.bank (fun h => { h with state := .stalled, stall := some why, savedPc := k.pc }) with running := none }

/-- The first pending register of a list. -/
def firstPending (k : Core) (rs : List Reg) : Option Reg := rs.find? fun r => k.isPending r

/-- Run an instruction that names registers: a pending one stalls it before any effect (R114). -/
def withRegs (s : State) (rs : List Reg) (f : State → State) : State :=
  match firstPending s.me rs with
  | some r => stallOn s (.reg (physReg s.me.bank r.toNat))
  | none => f s

/-- A word of the instruction cache (R106). -/
def cachedWord (k : Core) (va : Word) : Option W32 :=
  (k.icache.find? fun e => e.1 == va.toNat / 64).map fun e => e.2.extractLsb' (8 * (va.toNat % 64)) 32

/-! ### The sweep and the fatal end of a plot (R207, R419) -/

/-- Shadows of a core's scratchpad return to 0xFFFF (R309). -/
def clearShadows (s : State) (core : Nat) : State :=
  { s with shadow := s.shadow.filter fun e => !(2 ^ 40 + core * 65536 ≤ e.1 && e.1 < 2 ^ 40 + (core + 1) * 65536) }

/-- A handler entry of a core that its plot has left: nothing runs, waits or is delivered there; its loop registers and PC stay until a plot is
armed (R104). -/
def Handler.leave (h : Handler) : Handler :=
  { h with valid := false, state := .idle, wake := false, order := [], stall := none, inbox := [] }

/-- A core that its plot leaves: every unit at rest, tiles released and storage zero (R211). The registers, local memory, accumulators and
version counters hold what they held until a plot is armed (R104, R194 step 5, R313); caches of translations and the error state of the cells
stay too. -/
def emptyCore (k : Core) : Core :=
  { Core.init with
    regs := k.regs, pc := k.pc, last := k.last, chan := k.chan, tcause := k.tcause
    handlers := (k.handlers.map fun e => (e.1, e.2.leave)).filter fun e => e.2 != Handler.init
    tepc := k.tepc, tval := k.tval, trqn := k.trqn, lmem := k.lmem, mat := { Matrix.init with accs := k.mat.accs, vers := k.mat.vers }
    tcache := k.tcache, scratch := { k.scratch with bytes := [], flips := [] }, arm := k.arm }

/-- A core as arming clears it: every register, local memory and accumulator zero (R104, R194 step 5, R313). -/
def clearCore (k : Core) : Core :=
  { Core.init with tcache := k.tcache, scratch := { k.scratch with bytes := [], flips := [] }, arm := k.arm }

/-- Whether an agent belongs to one of these cores. -/
def agentIn (cores : List Nat) : Agent → Bool
  | .seq c => cores.contains c
  | .node c _ _ => cores.contains c
  | .port c _ => cores.contains c
  | .matrix c => cores.contains c
  | _ => false

/-- Whether the answer of an access goes to one of these cores. -/
def destIn (cores : List Nat) : Dest → Bool
  | .none => false
  | .reg c _ _ => cores.contains c
  | .cmd c _ => cores.contains c
  | .arc c _ _ _ _ => cores.contains c

/-- The copy engines that serve a command of these cores. -/
def enginesOf (s : State) (cores : List Nat) : List Nat :=
  (s.engines.filter fun e => (e.2.queue.head?.map fun x => cores.contains x.1).getD false).map (·.1)

/-- An access of the command that a copy engine runs for one of these cores. -/
def runningCopy (s : State) (cores : List Nat) (a : Access) : Bool :=
  match a.agent, a.dest with
  | .engine e, .cmd c id => cores.contains c && (tget CopyEng.init s.engines e).queue.head? == some (c, id)
  | _, _ => false

/-- An issued access of a copy that stops (R207 step 3): the oldest write goes on to the end of its 32-byte sector, and nothing more is written, a
trailing release sector least of all. What the clock unit has stamped has left the engine (DEDUCED, log 110). -/
def stopEngine (s : State) (cores : List Nat) (a : Access) : Option Access :=
  if !runningCopy s cores a || a.phase != .issued then some a
  else
    let first := (s.accs.find? fun x => runningCopy s cores x && x.agent == a.agent && x.phase == .issued && x.kind == .write).map (·.id)
    let n := min a.len (32 - a.addr % 32)
    if first != some a.id || a.rel then none else some { a with len := n, data := a.data.take n }

/-- An access behind a faulted one in the ordering queue of its stream (R294). -/
def behindFault (s : State) (a : Access) : Bool :=
  a.phase == .issued && s.accs.any fun x => x.agent == a.agent && x.phase == .parked && x.code != 0 && x.id < a.id

/-- What becomes of an access when the context of these cores is destroyed: the ordering queues are discarded (R294), answers go nowhere, copy
engines stop (R207), and what had been handed to the memory path still lands. -/
def abandonAccess (s : State) (cores : List Nat) (a : Access) : Option Access :=
  if agentIn cores a.agent && (a.phase == .parked || behindFault s a) then none
  else if a.phase == .returned && destIn cores a.dest then none
  else (stopEngine s cores a).map fun b => if destIn cores b.dest then { b with dest := .none } else b

/-- Commands, answers, walks and waits of these cores are abandoned (R207, R308). -/
def abandon (s : State) (cores : List Nat) : State :=
  { s with
    accs := s.accs.filterMap (abandonAccess s cores)
    walks := s.walks.filter fun w => !cores.contains w.core
    flight := s.flight.filter fun w => !cores.contains w.core
    frames := s.frames.filter fun f => !cores.contains f.core
    barMsgs := (s.barMsgs.filter fun m => !(m.op == 4 && cores.contains m.core)) ++
      (s.waiters.filter fun w => cores.contains w.core && !w.woken && !w.refused && !(s.barMsgs.any fun m => m.op == 4 && m.core == w.core && m.chan == w.chan)).map fun w =>
      { op := 2, square := w.square, die := w.die, core := w.core, chan := 255, n := 0, ok := false, after := 0 }
    waiters := s.waiters.filter fun w => !cores.contains w.core
    engines := s.engines.map fun e =>
      (e.1, if (enginesOf s cores).contains e.1 then { CopyEng.init with queue := e.2.queue.filter fun x => !cores.contains x.1, dirty := e.2.dirty }
            else { e.2 with queue := e.2.queue.filter fun x => !cores.contains x.1 })
    groups := s.groups.map fun g =>
      (g.1, { g.2 with members := g.2.members.map fun m => if cores.contains m.core then { m with pending := [] } else m }) }

/-- Put a LAUNCH whose plot is searched afresh back into the queue set, unless its entry still stands there (R203, R400). -/
def requeue (s : State) (f : Plot) : State :=
  if (s.queue ++ s.overflow).any fun e => e.node == f.node && e.launch then s
  else enqueue s { node := f.node, level := f.prio, ready := f.ageTime, aging := f.aging, launch := true, restored := none, rises := 0 }

/-- Drop a FOLLOW binding: the rows that the FOLLOW plot already holds go back to FREE and it is searched afresh (R203). -/
def dropFollow (s : State) (q : Plot) : State :=
  match q.follow with
  | none => s
  | some f =>
    let held := q.cores.filter fun c => s.leaseOf c == .loading f
    let s1 := held.foldl (fun t c => (t.setLease c .free).modCore c fun k => { emptyCore k with plot := none }) s
    let s2 := (s1.modPlot f fun p => { p with state := .waiting, drained := [] }).modPlot q.id fun p => { p with follow := none }
    match s2.findPlot f with
    | some fp => requeue s2 fp
    | none => s2

/-- An executor has finished a command: its status word is due (COMMAND_COMPLETION writes it). -/
def finishCmd (s : State) (core id : Nat) (code : Byte) (result : W32) : State :=
  s.modCore core fun k =>
    { k with cmds := mapFirst (fun c => c.id == id) (fun c => { c with phase := .complete, code := code, result := result }) k.cmds }

/-- Every group that a plot belongs to is dissolved: the commands that its other members have pending complete with CAUSALGAP (R383). -/
def dissolveGroups (s : State) (plot : Nat) : State :=
  (s.groups.filter fun g => g.2.members.any fun m => m.plot == plot).foldl (fun t g =>
    let gone := (g.2.members.filter fun m => m.plot != plot && !g.2.done.contains m.rank).flatMap fun m => (m.pending ++ m.freed.toList).map fun id => (m.core, id)
    gone.foldl (fun u x => finishCmd u x.1 x.2 cCAUSALGAP 0) { t with groups := tdel t.groups g.1 }) s

/-- The sweep of R207: every core that the plot still holds is emptied under a SWEEP lease. -/
def sweepPlot (s : State) (q : Plot) (code : Byte) : State :=
  let cores := heldCores s q
  let s1 := abandon (dropFollow (dissolveGroups s q.id) q) cores
  let s2 := cores.foldl (fun t c =>
    (clearShadows t c |>.setLease c (.sweep q.id)).modCore c fun k => { emptyCore k with plot := some q.id }) s1
  s2.modPlot q.id fun p =>
    { p with state := .sweep, code := code, waits := [], decision := none, closing := false, bound := none, bps := [], budget := none }

/-- A fatal end (R419): sweep, record with FATAL, and the plot counts as ended under its LAUNCH. -/
def fatalEnd (s : State) (q : Plot) (code : Byte) (rec : List Byte) : State :=
  plotEnded (faultRecord (sweepPlot s q code) rec) q.node (some code)

/-- Whether a plot runs, so that a fault of it counts. -/
def Plot.live (q : Plot) : Bool := q.state == .armed || q.state == .hostwait || q.state == .saving

/-- CORE byte of a fault record (R418). -/
def recCore (q : Plot) (core : Nat) : Byte := BitVec.ofNat 8 (16 * (q.pos core).1 + (q.pos core).2)

/-- A plot fault of a node, port or command (R416, R417): recoverable ones enter HOSTWAIT, the others end the plot. -/
def plotFault (s : State) (core : Nat) (code : Byte) (detail : Nat) (origin : Byte) (where_ tval : Word) (recoverable : Bool) : State :=
  match s.plotOf core with
  | none => s
  | some q =>
    if !q.live then s
    else
      let tcause := BitVec.ofNat 32 (code.toNat + 256 * detail)
      let mk := fun (flags : Byte) => recordBytes s q.node code origin flags (recCore q core) q.p 0xFF where_ tval tcause 0
      if recoverable then
        (faultRecord s (mk 2)).modPlot q.id fun p =>
          { p with state := .hostwait, waits := p.waits ++ [{ code := code, core := core, seq := false, escalated := false }] }
      else fatalEnd s q code (mk 1)

/-! ### The trap (R411 to R413) -/

/-- Order replay entries by issue (R411). -/
def insReplay (r : Replay) : List Replay → List Replay
  | [] => [r]
  | x :: xs => if r.id < x.id then r :: x :: xs else x :: insReplay r xs

/-- The replay queue in issue order. -/
def sortReplay : List Replay → List Replay
  | [] => []
  | r :: rs => insReplay r (sortReplay rs)

/-- The 32 bytes of a replay entry (R413). DROP is clear unless an earlier frame had it set and the entry was not yet reached (R414, log 92). -/
def replayBytes (r : Replay) : List Byte :=
  natLe 16 r.cmd.toNat ++ natLe 8 r.iaddr.toNat ++ natLe 1 r.xt ++
    natLe 1 ((if r.drop then 1 else 0) + (if r.started then 2 else 0) + (if r.follow then 4 else 0)) ++ [r.ecode] ++ natLe 5 0

/-- FLAGS byte of a frame (R412). -/
def frameFlags (t : TrapMode) : Nat := (if t.precise then 1 else 0) + (if t.idle then 2 else 0) + (if t.hosted then 4 else 0)

/-- The 576 bytes of a trap frame (R412). -/
def frameBytes (k : Core) : List Byte :=
  natLe 4 k.tcause.toNat ++ natLe 1 k.trqn ++ natLe 1 (frameFlags k.trap) ++ natLe 1 (if k.trap.idle then 0xFF else k.trap.chan) ++
    [0] ++ natLe 8 k.tepc.toNat ++ natLe 8 k.tval.toNat ++ natLe 8 k.trap.resume.toNat ++ natLe 32 0 ++
    ((k.replay.take 16).flatMap replayBytes ++ natLe 512 0).take 512

/-- Bytes of a save area of one plot (R407). -/
abbrev saveSize (q : Plot) : Nat := 4096 + q.w * q.h * 2228224

/-- Virtual address of the save area of a plot. -/
abbrev saveBase (q : Plot) : Word := q.saveva + BitVec.ofNat 64 (q.p * saveSize q)

/-- Virtual address of a core block in the save area. -/
abbrev saveBlock (q : Plot) (core : Nat) : Word := saveBase q + BitVec.ofNat 64 (4096 + 131072 * q.index core)

/-- The walker copies a frame to the save area and the plot enters HOSTWAIT (R416). `esc` is the code of a TRAP of its routine; `origin` as R418
gives. -/
def hostwaitNow (s : State) (q : Plot) (core : Nat) (esc : Option Byte) (origin : Byte) : State :=
  let k := s.core core
  let frame0 := mread k.lmem q.tfaddr 576
  let frame := match esc with | some c => patch frame0 2 [c] | none => frame0
  let va := saveBlock q core + 0x19400
  let tcause := BitVec.ofNat 32 (leAt frame 0 4)
  let code := k.tcause.extractLsb' 0 8
  let chan : Byte := if k.trap.idle then 0xFF else BitVec.ofNat 8 k.trap.chan
  let mk := fun (t : State) (c flags : Byte) => recordBytes t q.node c origin flags (recCore q core) q.p chan k.tepc k.tval tcause va
  match writeVa s q.ptroot va frame with
  | .error e => fatalEnd s q e.1 (mk s e.1 1)
  | .ok t =>
    (faultRecord (countVa t q.ptroot va 576 true) (mk t code 2)).modPlot q.id fun p =>
      { p with state := .hostwait, waits := p.waits ++ [{ code := code, core := core, seq := true, escalated := esc.isSome }] }

/-- A sequencer hands its trap to the host (R416). A frame whose page has WB = 1 waits at the walker first (R244). -/
def hostwaitSeq (s : State) (q : Plot) (core : Nat) (esc : Option Byte) (origin : Byte) : State :=
  if storeHeld s q.ptroot (saveBlock q core + 0x19400) 576 then
    { s.bump with frames := s.frames ++ [{ id := s.nextId + 1, core := core, esc := esc, origin := origin, since := s.pace }] }
  else hostwaitNow s q core esc origin

/-- Start the trap routine: trap bank, x31 and x30, no active loop level (R411 step 3). -/
def startRoutine (q : Plot) (k : Core) : Core :=
  let k1 := { k with running := some 16, pc := q.codebase + q.trapoff.setWidth 64 }
  let k2 := k1.modHandler 16 fun _ => { Handler.init with state := .running }
  (k2.wr 31 (BitVec.ofNat 64 q.tfaddr)).wr 30 (k.tcause.setWidth 64)

/-- Take a trap on a core (R411): the one operation that enters trap mode. A single step of a debug session ends with it (R140). -/
def enterTrap (s : State) (core : Nat) (tcause : W32) (tepc tval resume : Word) (precise engine : Bool) : State :=
  match s.plotOf core with
  | none => s
  | some q =>
    let k := s.core core
    let rep := sortReplay k.replay
    let routine := q.trapoff != 0xFFFFFFFF
    let k1 := { k with
      tcause := tcause, tepc := tepc, tval := tval, trqn := rep.length, replay := rep
      trap := { on := true, idle := k.running.isNone, precise := precise, chan := k.running.getD 0, resume := resume,
                hosted := false, routine := routine, engine := engine } }
    let k2 := boundary { k1 with lmem := mwrite k1.lmem q.tfaddr (frameBytes k1) }
    if routine then s.setCore core (startRoutine q k2)
    else hostwaitSeq (s.setCore core { k2 with running := none }) q core none (if engine then 3 else 0)

/-- TCAUSE of a fault code with its detail (R50). -/
abbrev causeOf (code : Byte) (detail : Nat) : W32 := BitVec.ofNat 32 (code.toNat + 256 * detail)

/-- A precise fault of the acting core's instruction (R141): a trap at its address, or the fatal end of the plot when the
trap routine itself faults (R415). -/
def preciseFault (s : State) (code : Byte) (detail : Nat) (tval : Word) : State :=
  let c := s.cur.core
  let k := s.me
  if k.trap.on then
    match s.plotOf c with
    | none => s
    | some q =>
      fatalEnd s q code
        (recordBytes s q.node code 0 1 (recCore q c) q.p 0xFF k.pc tval (causeOf code detail) 0)
  else enterTrap s c (causeOf code detail) k.pc tval k.pc true false

/-- A fault that an event raised and the sequencer takes at its next instruction boundary (R411). -/
def holdFault (s : State) (core : Nat) (f : HeldFault) : State := s.modCore core fun k => { k with held := k.held ++ [f] }

/-- A command of a core ends in a fault that traps: it leaves the outstanding commands and enters the replay queue; its
register stays pending (R57, R411). -/
def faultCommand (s : State) (core id : Nat) (code : Byte) (detail : Nat) (tval : Word) (prog : Nat) (started : Bool) : State :=
  match (s.core core).cmds.find? fun c => c.id == id with
  | none => s
  | some c =>
    let r : Replay := { id := id, cmd := c.cmd, iaddr := c.iaddr, xt := c.xt, chan := c.chan, drop := false, started := started, follow := c.follow,
                        ecode := code, desc := c.desc, prog := prog }
    let s1 := s.modCore core fun k => { k with cmds := k.cmds.filter (fun x => x.id != id), replay := k.replay ++ [r] }
    holdFault s1 core { code := code, detail := BitVec.ofNat 24 detail, tepc := c.iaddr, tval := tval, engine := true }

/-- Take the oldest held fault as a trap (R411), which resumes at TEPC as every fault does (R412); command faults held with it are part of the same frame (log 13). -/
def takeHeld (s : State) (core : Nat) : State :=
  let k := s.core core
  match k.held with
  | [] => s
  | f :: r =>
    if k.trap.on || (s.plotOf core).isNone then s
    else
      let rest := if f.engine then r.filter fun x => !x.engine else r
      enterTrap (s.setCore core { k with held := rest }) core (causeOf f.code f.detail.toNat) f.tepc f.tval f.tepc false f.engine

/-! ### Status words and completion (R57) -/

/-- The status word of a command (R57). -/
def statusWord (cmd : Cmd128) (code : Byte) (result : W32) : Word :=
  result ++ (0 : Byte) ++ cmd.extractLsb' 112 8 ++ cmd.extractLsb' 120 8 ++ code

/-- Write a status word to the token register of a command, clear its mark and set WAKE (R57, R109). -/
def writeStatus (k : Core) (chan xt : Nat) (v : Word) : Core :=
  let k1 := if xt = 0 then k else { k with regs := tset 0 k.regs (physReg chan xt) v, pend := tset false k.pend (physReg chan xt) false }
  k1.modHandler chan fun h => { h with wake := true }

/-- The outstanding command with an identifier. -/
def Core.cmd (k : Core) (id : Nat) : Option Cmd := k.cmds.find? fun c => c.id == id

/-- Change an outstanding command. -/
def modCmd (s : State) (core id : Nat) (f : Cmd → Cmd) : State :=
  s.modCore core fun k => { k with cmds := mapFirst (fun c => c.id == id) f k.cmds }

/-! ### Acceptance of a command (R56) -/

/-- The identifier that the next accepted command receives. -/
abbrev newId (s : State) : Nat := s.nextId + 1

/-- The executor accepts the command being issued: it becomes outstanding, its token register pending, and the group
completes; a re-injected entry leaves the queue of entries to re-inject (R414). -/
def accept (s : State) (desc : List Byte) (prog : Nat) : State :=
  let id := newId s
  let s1 := s.bump
  match s.cur.replay with
  | some r =>
    s1.modMe fun k =>
      let c : Cmd := { id := id, cmd := r.cmd, xt := r.xt, iaddr := r.iaddr, chan := r.chan, follow := r.follow, phase := .accepted,
                       code := 0, result := 0, desc := desc, prog := prog, acc := 0, home := dieOf s.cur.core, ctl := .here }
      { k with cmds := k.cmds ++ [c], reinj := k.reinj.drop 1,
               pend := if r.xt = 0 then k.pend else tset false k.pend (physReg r.chan r.xt) true }
  | none =>
    s1.modMe fun k =>
      let c : Cmd := { id := id, cmd := s.cur.cmd, xt := s.cur.xt, iaddr := k.pc, chan := k.bank, follow := false, phase := .accepted,
                       code := 0, result := 0, desc := desc, prog := prog, acc := 0, home := dieOf s.cur.core, ctl := .here }
      let k1 := { k with cmds := k.cmds ++ [c],
                         pend := if s.cur.xt = 0 then k.pend else tset false k.pend (physReg k.bank s.cur.xt) true }
      k1.finish (k.pc + 20)

/-- The executor cannot accept the command yet: an ISSUE stalls; a re-injected entry stays first in its queue. -/
def acceptStall (s : State) (why : Stall) : State :=
  match s.cur.replay with
  | some _ => s
  | none => stallOn s why

/-- Acceptance fails with a fault: precise at the ISSUE word; for a re-injected entry a new frame holds it and every later
entry, and RESUME is that of the frame that TRET read (R414). -/
def acceptFault (s : State) (code : Byte) (detail : Nat) (tval : Word) : State :=
  match s.cur.replay with
  | none => preciseFault s code detail tval
  | some r =>
    let c := s.cur.core
    let s1 := s.modCore c fun k =>
      { k with replay := k.reinj.zipIdx.map (fun e => if e.2 = 0 then { e.1 with ecode := code } else e.1) ++ k.replay, reinj := [] }
    enterTrap s1 c (causeOf code detail) r.iaddr tval (s.core c).trap.resume true true

/-- The descriptor of a command being accepted: saved with a re-injected entry, read from local memory otherwise (R413). -/
def descriptor (s : State) (addr n : Nat) : List Byte :=
  match s.cur.replay with
  | some r => if r.desc.length = n then r.desc else mread s.me.lmem addr n
  | none => mread s.me.lmem addr n

/-- Progress saved with a re-injected entry (R414). -/
def savedProgress (s : State) : Nat := match s.cur.replay with | some r => r.prog | none => 0

/-- Whether the command with the acting slot is the follow-on of a CPYF. -/
abbrev issuing (s : State) : Bool := s.cur.slot == 0

/-! ### Return from a trap (R414) -/

/-- A dropped entry: its token register gets ECODE with RESULT 0 (R414). -/
def dropEntry (k : Core) (r : Replay) : Core := writeStatus k r.chan r.xt (statusWord r.cmd r.ecode 0)

/-- Leave trap mode by the frame at TFADDR (R414); its entries follow in issue order, to be dropped or re-injected before any instruction. -/
def leaveTrap (k : Core) (tf : Nat) : Core :=
  let frame := mread k.lmem tf 576
  let resume : Word := leBv 64 (slice frame 24 8)
  let idle := leAt frame 5 1 / 2 % 2 == 1
  let n := min (leAt frame 4 1) k.replay.length
  let mine := (k.replay.take n).zipIdx
  { k.modHandler 16 (fun _ => Handler.init) with
    trap := { TrapMode.init with resume := resume }
    reinj := mine.map fun e => { e.1 with drop := leAt frame (64 + 32 * e.2 + 25) 1 % 2 == 1 }
    replay := k.replay.drop n
    running := if idle then none else some k.trap.chan
    pc := if idle then k.pc else resume }

/-! ### Control words (R109) -/

/-- Send a control word to a channel of a core. -/
def sendWord (s : State) (src core chan : Nat) (kind source : Nat) (w : Word) : State :=
  { s with flight := s.flight ++ [{ src := src, core := core, chan := chan, word := w, origin := BitVec.ofNat 16 (kind + 256 * source) }] }

/-- Words that an inbox holds or that are on their way to it as POST words. -/
def inboxLoad (s : State) (core chan : Nat) : Nat :=
  ((s.core core).handler chan).inbox.length + (s.flight.filter fun w => w.core == core && w.chan == chan && w.src < Config.cores).length

end Sys2Proof.Machine
end

