-- ==== Sys2Proof/Machine/Settle.lean ====
section
/-!
DEFINITION. Agents of the memory model (R279) and what an access does when its answer has come: tokens fill their slots, sheaves are
checked (R225), the host gets its data (R430).
-/

namespace Sys2Proof.Machine

/-! ### Agents -/

/-- The die of an agent (R15, R279). -/
def agentDie : Agent → Nat
  | .seq c => dieOf c
  | .node c _ _ => dieOf c
  | .port c _ => dieOf c
  | .matrix c => dieOf c
  | .engine e => 4 + e / 24
  | .host p => if p then 5 else 4
  | .walker d => d
  | .roce p => 4 + p / 2

/-- The core whose detector an agent belongs to: its sequencer, memory-cell nodes and stream ports (R310). -/
def agentCore : Agent → Option Nat
  | .seq c => some c
  | .node c _ _ => some c
  | .port c _ => some c
  | _ => none

/-- ORIGIN of an agent's packets (R251). -/
def agentOrigin (a : Agent) : BitVec 16 :=
  match a with
  | .seq c => BitVec.ofNat 16 (c % 80)
  | .node c _ _ => BitVec.ofNat 16 (c % 80)
  | .port c _ => BitVec.ofNat 16 (c % 80)
  | .matrix c => BitVec.ofNat 16 (c % 80)
  | .engine e => BitVec.ofNat 16 (0x4000 + e % 24)
  | .host _ => 0x8000
  | .walker d => BitVec.ofNat 16 (0xC000 + d)
  | .roce p => BitVec.ofNat 16 (0x8001 + p)

/-- The node site of R90: bay, column, row and stage of a node as the plan image has them; the second copy of a dual
subgraph uses the position of the first (R91). -/
def siteOf (s : State) (core cell stage : Nat) : Nat :=
  match s.plotOf core with
  | none => 0
  | some q =>
    let (dx, dy) := q.cellPos core cell
    let second := q.duals.contains (core, cell)
    let dx := if second then dx - 4 * q.dualcol else dx
    let dy := if second then dy - 2 * q.dualrow else dy
    8192 * (s.cell core cell).bay + 256 * dx + 8 * dy + stage

/-! ### The answer of an access -/

/-- An access has been performed. -/
abbrev accPerformed (a : Access) : Bool := a.phase == .performed || a.phase == .returned

/-- Change every arc slot of a core's plot that shares an identifier. -/
def modSlots (s : State) (core id : Nat) (f : Slot → Slot) : State :=
  let cores := ((s.plotOf core).map Plot.cores).getD [core]
  cores.foldl (fun t c => t.modCore c fun k =>
    { k with cells := k.cells.map fun e =>
        (e.1, { e.2 with arcs := e.2.arcs.map fun x => (x.1, x.2.map fun sl => if sl.id == id then f sl else sl) }) }) s

/-- The 32-bit words of bytes. -/
def wordsOf : Nat → List Byte → List W32
  | 0, _ => []
  | n + 1, bs => leBv 32 (bs.take 4) :: wordsOf n (bs.drop 4)

/-- A fault of a stream port (R228): it enters FAULT and moves no further token. -/
def portFault (s : State) (core p : Nat) (code : Byte) (detail : Nat) (tval : Word) (recoverable : Bool) : State :=
  plotFault (s.modPort core p fun x => { x with state := .fault }) core code detail 2 (BitVec.ofNat 64 p) tval recoverable

/-- The slots that one identifier names in the plot of a core. -/
def slotsOf (s : State) (core id : Nat) : List Slot :=
  (((s.plotOf core).map Plot.cores).getD [core]).flatMap fun c =>
    (s.core c).cells.flatMap fun e => (e.2.arcs.flatMap (·.2)).filter fun sl => sl.id == id

/-- A sheaf of a read port is of another class (R87): FORMAT. -/
def sheafFault (s : State) (a : Access) : State :=
  match a.agent with
  | .port c p => portFault s c p cFORMAT 0 (a.va &&& ~~~63) false
  | _ => s

/-- The last part of a token has arrived. A blocked-sheaf port checks and rewrites its sheaf: `n` is the class, 0 for none, and
`tail` the first position to rewrite (R225). -/
def tokenArrived (s : State) (a : Access) (core id n tail : Nat) : State :=
  if n = 0 then modSlots s core id fun sl => { sl with ready := true }
  else
    match slotsOf s core id with
    | [] => s
    | sl :: _ =>
      match portSheaf (sl.tok.lanes.flatMap fun w => natLe 4 w.toNat) n tail with
      | some bs => modSlots s core id fun sl => { sl with ready := true, tok := { sl.tok with lanes := wordsOf 16 bs } }
      | none => sheafFault s a

/-- A part of a token arrives: its lanes are set, and the token is ready when no part is missing (R218, R220, R223). An
uncorrectable part is a fault of the node or port. A sheaf that no slot waits for, its targets being null, is checked all the same (R87). -/
def arriveAtArc (s : State) (a : Access) (core n tail id lane : Nat) (v : List Byte) (code : Byte) : State :=
  let s1 := { s with accs := s.accs.filter fun x => x.id != a.id }
  if code ≠ 0 then
    match a.agent with
    | .node _ cell stage => plotFault s1 core code 0 1 (BitVec.ofNat 64 (siteOf s1 core cell stage)) a.va false
    | .port c p => portFault s1 c p code 0 a.va false
    | _ => s1
  else
    let s2 := if v.isEmpty then s1
      else modSlots s1 core id fun sl => { sl with tok := { sl.tok with lanes := patch sl.tok.lanes lane (wordsOf (v.length / 4) v) } }
    if n ≠ 0 ∧ lane = 0 ∧ (slotsOf s core id).isEmpty ∧ (portSheaf v n 0).isNone then sheafFault s2 a
    else if s2.accs.any fun x => match x.dest with | .arc c _ _ i _ => c == core && i == id | _ => false then s2
    else tokenArrived s2 a core id n tail

/-- What a host port hands to the host when a read or atomic of the host has returned (R430). -/
def hostAnswer (a : Access) (v : List Byte) (code : Byte) : List HostDone :=
  match a.agent with
  | .host p => if a.kind == .write then [] else [{ port := p, addr := a.pa, value := v, code := code, kind := .data }]
  | _ => []

/-- Under CXL 3.x the host caches the lines of device memory that it has read through CXL.mem (R431). -/
def hostCaches (s : State) (a : Access) : State :=
  match a.agent with
  | .host port =>
    if a.cached && a.len != 0 then
      { s with hostLines := s.hostLines ++
          ((List.range ((a.pa + a.len - 1) / 64 + 1 - a.pa / 64)).map fun i => (port, a.pa / 64 + i)).filter fun x => !s.hostLines.contains x }
    else s
  | _ => s

/-- Record what an access returned. A write and an answer that nobody waits for leave the memory path; parts of a token go to
their arc when they have returned. -/
def settle (s : State) (a : Access) (phase : AccPhase) (v : List Byte) (code : Byte) : State :=
  match a.dest with
  | .arc core n tail id lane =>
    if a.kind == .write || phase == .returned then arriveAtArc s a core n tail id lane v code
    else { s with accs := mapFirst (fun x => x.id == a.id) (fun x => { x with phase := phase, value := v, code := code }) s.accs }
  | d =>
    if a.kind == .write || (d == .none && phase == .returned) then
      hostCaches { s with accs := s.accs.filter fun x => x.id != a.id, hostOut := s.hostOut ++ hostAnswer a v code } a
    else { s with accs := mapFirst (fun x => x.id == a.id) (fun x => { x with phase := phase, value := v, code := code }) s.accs }

end Sys2Proof.Machine
end

