-- ==== Sys2Proof/Machine/Links.lean ====
section
/-!
DEFINITION. Packets between dies: the topology and paths of R10, R11 and R270, classes and channels (R249, R250, R265), the
stamping of a packet by the clock unit of its die (R255, R256), the drop of a packet (R271, R273), and packets that cross in one step.
-/

namespace Sys2Proof.Machine

/-! ### Paths (R10, R11, R270) -/

/-- The ends of a die link (R441 gives the order). -/
def linkEnds : Nat → Nat × Nat
  | 0 => (0, 1)
  | 1 => (2, 3)
  | 2 => (0, 2)
  | 3 => (1, 3)
  | 4 => (4, 0)
  | 5 => (4, 2)
  | 6 => (5, 1)
  | _ => (5, 3)

/-- The die that a directed port sends from: port 2 * link + direction. -/
def portFrom (p : Nat) : Nat := if p % 2 = 0 then (linkEnds (p / 2)).1 else (linkEnds (p / 2)).2

/-- The die that a directed port sends to. -/
def portTo (p : Nat) : Nat := if p % 2 = 0 then (linkEnds (p / 2)).2 else (linkEnds (p / 2)).1

/-- The directed port from one die to a neighbour. -/
def portBetween (a b : Nat) : Option Nat := (List.range 16).find? fun p => portFrom p == a && portTo p == b

/-- Whether a link can carry a packet. -/
def linkUp (s : State) (l : Nat) : Bool := !(s.link (2 * l)).dead

/-- Whether the link between two dies is up: a die that has been removed without a reset still forwards (R270, R272). -/
def hopUp (s : State) (a b : Nat) : Bool :=
  match portBetween a b with
  | none => false
  | some p => linkUp s (p / 2)

/-- Whether `b` is reached from `a` in at most `n` links that cross no Market die between the ends. -/
def reach (s : State) : Nat → Nat → Nat → Bool
  | 0, a, b => a == b
  | n + 1, a, b => a == b || (List.range 6).any fun c => hopUp s a c && (c == b || c < 4) && reach s n c b

/-- The next die on the default path (R11). -/
def defaultHop (a b : Nat) : Nat :=
  ([[0, 1, 2, 1, 4, 1], [0, 1, 0, 3, 0, 5], [0, 3, 2, 3, 4, 3], [2, 1, 2, 3, 2, 5], [0, 0, 2, 2, 4, 0], [1, 1, 3, 3, 1, 5]].getD a []).getD b 0

/-- Every link is up. -/
def allUp (s : State) : Bool := (List.range 8).all fun l => linkUp s l

/-- The number of links of the shortest path. -/
def pathLength (s : State) (a b : Nat) : Option Nat := (List.range 6).find? fun n => reach s n a b

/-- Links on the default path (R11). -/
def defaultLength : Nat → Nat → Nat → Nat
  | 0, _, _ => 0
  | n + 1, a, b => if a == b then 0 else 1 + defaultLength n (defaultHop a b) b

/-- The next die on the present path: the default path while every link is up, then the shortest path that is left, ties to
the lowest die (R270). -/
def nextHop (s : State) (a b : Nat) : Option Nat :=
  if allUp s then some (defaultHop a b)
  else
    match pathLength s a b with
    | none => none
    | some n => (List.range 6).find? fun c => hopUp s a c && (c == b || c < 4) && reach s (n - 1) c b

/-- Links on the present path from a die to another (R277 HOPS). To a die without a path, of which the manual gives no count, it is 0 (DESIGN CHOICE,
log 115). -/
def hops (s : State) (a b : Nat) : Nat := if allUp s then defaultLength 6 a b else (pathLength s a b).getD 0

/-! ### Packets (R249 to R253) -/

/-- WR. -/
abbrev pWR : Byte := 1
/-- RD. -/
abbrev pRD : Byte := 2
/-- RDR. -/
abbrev pRDR : Byte := 3
/-- AT. -/
abbrev pAT : Byte := 4
/-- ATR. -/
abbrev pATR : Byte := 5
/-- RED. -/
abbrev pRED : Byte := 6
/-- BARA. -/
abbrev pBARA : Byte := 7
/-- INV. -/
abbrev pINV : Byte := 8
/-- INVACK. -/
abbrev pINVACK : Byte := 9
/-- CTL. -/
abbrev pCTL : Byte := 0xA
/-- CLK. -/
abbrev pCLK : Byte := 0xB
/-- ERR. -/
abbrev pERR : Byte := 0xC
/-- ACK. -/
abbrev pACK : Byte := 0xD
/-- NACK. -/
abbrev pNACK : Byte := 0xE
/-- RESYNC. -/
abbrev pRESYNC : Byte := 0xF

/-- Types that count as writes (R250). -/
def counted (t : Byte) : Bool := t == pWR || t == pAT || t == pRED

/-- Types that wait for the delivery condition (R250). -/
def ordered (t : Byte) : Bool := counted t || t == pRD || t == pRDR || t == pATR || t == pBARA || t == pCTL

/-- Types that belong to a stream (R253). -/
def streamed (t : Byte) : Bool := ordered t || t == pCLK || t == pERR

/-- The class of a packet by its type and length (R250). -/
def isExpress (t : Byte) (len : Nat) (trail : Bool) : Bool :=
  if t == pWR then len ≤ 64 || trail else if t == pRDR || t == pRED then len ≤ 64 else true

/-- Whether a type is a response (R253). -/
def isResp (t : Byte) : Bool := t == pRDR || t == pATR || t == pERR

/-- Payload flits of `n` bytes of data (R247). -/
def payFlits (n : Nat) : Nat := if n ≤ 32 then 0 else cdiv n 64

/-- A packet with nothing in it. -/
def Packet.init : Packet :=
  { ptype := 0, src := 0, dst := 0, express := true, detour := false, resp := false, seq := 0, gen := 0, incs := [], ext := [],
    npay := 0, trail := false, tag := 0, addr := 0, len := 0, op := 0, opw := false, origin := 0, acc := 0, data := [],
    malformed := false }

/-- Flits of a packet (R249, R252). -/
def Packet.flits (p : Packet) : Nat := 1 + p.npay + (if p.ext.isEmpty then 0 else 1)

/-- The stream key of a packet at one of its ends: 4 * the other die + 2 * express + resp (R253). -/
def Packet.stream (p : Packet) (other : Nat) : Nat := 4 * other + (if p.express then 2 else 0) + (if p.resp then 1 else 0)

/-- The virtual channel of a packet (R265, R270). -/
def Packet.vc (p : Packet) : Nat :=
  if p.detour then (if p.express then 5 else 4)
  else (if p.express then 2 else 0) + (if p.resp || p.ptype == pINVACK || p.ptype == pACK || p.ptype == pNACK then 1 else 0)

/-! ### The header flit (R251, R252) -/

/-- A clock increment in 16 bits: row, column, amount. -/
def incWord (x : Nat × Nat × Nat) : Nat := 8192 * x.1 + 1024 * x.2.1 + x.2.2

/-- CLKF: GEN, NINC, RESP, EXT. -/
def Packet.clkf (p : Packet) : Nat :=
  p.gen.toNat + 16 * min 3 p.incs.length + (if p.resp then 64 else 0) + (if p.ext.isEmpty then 0 else 128)

/-- The 64 bytes of the header flit. A malformed packet has some reserved bit set, here bit 7 of SHAPE (log 89). -/
def Packet.header (p : Packet) : List Byte :=
  [p.ptype, BitVec.ofNat 8 (p.src + 8 * p.dst + (if p.express then 64 else 0) + (if p.detour then 128 else 0))] ++ natLe 2 p.seq.toNat ++
    natLe 1 p.clkf ++ natLe 1 (p.npay % 8 + (if p.trail then 8 else 0) + (if p.malformed then 128 else 0)) ++ natLe 2 p.tag.toNat ++
    natLe 8 p.addr.toNat ++ ((p.incs.take 3).flatMap fun x => natLe 2 (incWord x)) ++ natLe (2 * (3 - min 3 p.incs.length)) 0 ++
    natLe 2 p.len ++ [p.op, if p.opw then 1 else 0] ++ natLe 2 p.origin.toNat ++ natLe 4 0 ++
    (if p.npay = 0 then (p.data ++ List.replicate 32 0).take 32 else List.replicate 32 0)

/-- The header's ADDR of a storage key or a host address (R251). -/
def packetAddr (host : Bool) (a : Nat) : BitVec 64 :=
  if host then BitVec.ofNat 64 (a % 2 ^ 52 + 2 ^ 63) else BitVec.ofNat 64 a

/-! ### Drops (R271, R273) -/

/-- The core that ORIGIN names on a source die, when it names a core (R251). -/
def originCore (die : Nat) (origin : BitVec 16) : Option Nat :=
  if origin.extractLsb' 14 2 == 0 then some (80 * die + (origin.extractLsb' 0 14).toNat) else none

/-- The log record of a dropped packet: stream, SEQ and ORIGIN (R273, R438 kind 4). -/
def logDrop (s : State) (die : Nat) (p : Packet) : State :=
  logRecord s 4 die p.src ([BitVec.ofNat 8 p.src, BitVec.ofNat 8 p.dst, if p.express then 1 else 0, if p.resp then 1 else 0] ++
    natLe 2 p.seq.toNat ++ natLe 2 p.origin.toNat ++ [p.ptype])

/-- The access of a dropped packet completes with CAUSALGAP, as one that met an uncorrectable word completes with MEMUNCORR (R273). A write of
a copy engine keeps the code for its command. -/
def failAccess (s : State) (id : Nat) : State :=
  match s.accs.find? fun a => a.id == id with
  | none => s
  | some a =>
    if a.kind == .read || a.kind == .atomic then settle s a .returned [] cCAUSALGAP
    else { s with accs := mapFirst (fun a => a.id == id) (fun a => { a with phase := .returned, code := cCAUSALGAP, value := [] }) s.accs }

/-- A waiter whose arrival or release is lost raises CAUSALGAP at its BARR (R273, R308). -/
def failWaiter (s : State) (w : Waiter) : State :=
  holdFault { s with waiters := dropFirst (fun x => x == w) s.waiters } w.core
    { code := cCAUSALGAP, detail := 0, tepc := ((s.core w.core).handler w.chan).savedPc, tval := 0, engine := false }

/-- The square that a BARA is about stands in ADDR. -/
abbrev Packet.square (p : Packet) : Nat := p.addr.toNat

/-- TAG of a BARA (log 88): core and channel of the waiter, or bit 15 and the core for the withdrawal of a sweep. -/
def barTag (core chan : Nat) : BitVec 16 := BitVec.ofNat 16 (if chan = 255 then 32768 + core else 16 * core + chan)

/-- Core and channel that a TAG of a BARA names. -/
def tagWaiter (tag : BitVec 16) : Nat × Nat :=
  if tag.getLsbD 15 then (tag.toNat - 32768, 255) else (tag.toNat / 16, tag.toNat % 16)

/-- OP of the CTL packet that carries a command to its executor (R291), of one that carries its completion word (R290), and of one by which the
executors of a collective meet (R375); the manual numbers only the fence probes, 0xF0 and 0xF1 (log 88). -/
abbrev ctlCommand : Byte := 0x01
/-- See `ctlCommand`. -/
abbrev ctlDone : Byte := 0x02
/-- See `ctlCommand`. -/
abbrev ctlMeet : Byte := 0x03
/-- OP of the CTL packet of a pre-emption request (R405 step 1), see `ctlCommand`. -/
abbrev ctlPreempt : Byte := 0x04
/-- OP of the CTL packets by which a walker reserves an offset on another die and learns the answer (R199), see `ctlCommand`. -/
abbrev ctlReserve : Byte := 0x05

/-- A fence probe is lost (R273, R292). TAG names a core, whose FENCE or release raises CAUSALGAP with TVAL 0, or 512 and a copy engine, whose CSIG flag
fails with CAUSALGAP. -/
def failProbe (s : State) (tag : Nat) : State :=
  if 512 ≤ tag then
    let e := tag - 512
    let t := s.modEngine e fun g => { g with probes := [], probeFor := none }
    match (s.engine e).probeFor with
    | none => t
    | some id => { t with accs := mapFirst (fun a => a.id == id) (fun a => { a with phase := .returned, code := cCAUSALGAP, value := [] }) t.accs }
  else
    let k := s.core tag
    let at_ := match k.probeFor, k.fence with
      | some 0, some f => f.iaddr
      | some id, _ => ((s.accs.find? fun a => a.id == id).map (·.iaddr)).getD k.pc
      | none, _ => k.pc
    holdFault (s.modCore tag fun k => { k with probes := [], probeFor := none, fence := if k.probeFor == some 0 then none else k.fence }) tag
      { code := cCAUSALGAP, detail := 0, tepc := at_, tval := 0, engine := false }

/-- The dies whose fence probes an agent waits for; TAG names it. -/
def probesOut (s : State) (tag : Nat) : List Nat := if 512 ≤ tag then (s.engine (tag - 512)).probes else (s.core tag).probes

/-- The command that a CTL packet is about: its core by ORIGIN on the die of the core, its number by TAG. -/
def ctlTarget (s : State) (die : Nat) (p : Packet) : Option (Nat × Cmd) :=
  (originCore die p.origin).bind fun c =>
    ((s.core c).cmds.find? fun x => BitVec.ofNat 16 x.id == p.tag && (x.ctl == .sent || x.ctl == .answered)).map fun x => (c, x)

/-- What a dropped packet does to the agent that waits for it or that wrote it (R273). A write of a host port or walker has no plot: the log
record alone tells of it. -/
def dropPacket (s : State) (die : Nat) (p : Packet) : State :=
  let s1 := logDrop s die p
  if p.ptype == pRD || p.ptype == pAT || p.ptype == pRDR || p.ptype == pATR || p.ptype == pERR then failAccess s1 p.acc
  else if p.ptype == pWR || p.ptype == pRED then
    let engine := p.origin.extractLsb' 14 2 == 1
    let s2 := if engine then s1 else { s1 with accs := s1.accs.filter fun a => !(a.id == p.acc && a.kind == .write) }
    let s3 := if p.ptype == pRED || engine then failAccess s2 p.acc else s2
    match originCore p.src p.origin with
    | none => s3
    | some c => plotFault s3 c cCAUSALGAP 0 1 0 p.addr false
  else if p.ptype == pBARA then
    let s2 := { s1 with barMsgs := s1.barMsgs.filter fun m => !(m.op == 2 && m.n == 2 && m.square == p.square) }
    (s2.waiters.filter fun w => w.square == p.square && !w.woken && !w.refused &&
      (if p.op == 1 then w.die == p.dst && !(s.die p.dst).removed else tagWaiter p.tag == (w.core, w.chan))).foldl failWaiter s2
  else if p.ptype == pCTL then
    if p.op == 0xF0 || p.op == 0xF1 then
      if (probesOut s1 p.tag.toNat).contains p.dst || (probesOut s1 p.tag.toNat).contains p.src then failProbe s1 p.tag.toNat else s1
    else
      match ctlTarget s1 (if p.op == ctlCommand then p.src else p.dst) p with
      | none => s1
      | some (c, x) => finishCmd s1 c x.id cCAUSALGAP 0
  else s1

/-- A RESYNC is requested (R260, R271, R272). -/
def askResync (s : State) : State := { s with resync := { s.resync with req := true } }

/-! ### Sending -/

/-- Queue a packet at a die for its next link; a packet without a path is dropped (R270, R271). -/
def sendPacket (s : State) (die : Nat) (p : Packet) : State :=
  match (nextHop s die p.dst).bind fun h => portBetween die h with
  | none => dropPacket (askResync s) die p
  | some port => s.modLink port fun l => { l with queues := tmod [] l.queues p.vc (· ++ [p]) }

/-- One entry's increments: amounts of at most 1,023 (R256). -/
def entryIncs (k j : Nat) : Nat → Nat → List (Nat × Nat × Nat)
  | 0, _ => []
  | fuel + 1, d => if d = 0 then [] else (k, j, min d 1023) :: entryIncs k j fuel (d - min d 1023)

/-- The increments from one matrix to another, in increasing (k, j) order (R256). -/
def matrixIncs (m l : Tbl W32) : List (Nat × Nat × Nat) :=
  (List.range 36).flatMap fun i =>
    let d := (tget 0 m i).toNat - (tget 0 l (36000 + i)).toNat
    entryIncs (i / 6) (i % 6) (d / 1023 + 1) d

/-- The entries of the matrix that a die holds for one stream, keyed as a matrix at 36000. -/
def streamMatrix (t : Tbl W32) (st : Nat) : Tbl W32 := (List.range 36).map fun i => (36000 + i, tget 0 t (36 * st + i))

/-- Set the matrix of one stream. -/
def setStreamMatrix (t : Tbl W32) (st : Nat) (v : Tbl W32) : Tbl W32 :=
  (List.range 36).foldl (fun t i => tset 0 t (36 * st + i) (tget 0 v i)) t

/-- Give a packet its SEQ and GEN, keep it in the retry store and send it. -/
def emitPacket (s : State) (die : Nat) (p : Packet) : State :=
  let st := p.stream p.dst
  let d := s.die die
  let q := { p with seq := BitVec.ofNat 16 (tget 0 d.sendSeq st), gen := d.gen }
  let s1 := s.modDie die fun d =>
    { d with sendSeq := tset 0 d.sendSeq st ((tget 0 d.sendSeq st + 1) % 65536), retry := d.retry ++ [q],
             ackTime := if (d.retry.any fun x => x.stream x.dst == st) then d.ackTime else tset 0 d.ackTime st s.pace.toNat }
  sendPacket s1 die q

/-- The CLK packets that carry increments ahead of a packet, and those left for it (R256): three in the header of each, and an extension of at
most 31 only while more than three would still remain (log 90). -/
def splitIncs (p : Packet) : Nat → List (Nat × Nat × Nat) → List Packet × List (Nat × Nat × Nat)
  | 0, l => ([], l)
  | fuel + 1, l =>
    if l.length ≤ 3 then ([], l)
    else
      let n := min 31 (l.length - 6)
      let clk := { Packet.init with ptype := pCLK, src := p.src, dst := p.dst, express := p.express, resp := p.resp,
                                    incs := l.take 3, ext := (l.drop 3).take n }
      let (r, rest) := splitIncs p fuel (l.drop (3 + n))
      (clk :: r, rest)

/-- Bytes of the retry store of a die (R263). -/
def retryLimit (die : Nat) : Nat := if die < 4 then 4 * 2 ^ 20 else 2 * 2 ^ 20

/-- Bytes that the retry store holds: 64 for each flit of a packet (DEDUCED, log 117). -/
def retryBytes (d : Die) : Nat := (d.retry.map fun p => 64 * p.flits).sum

/-- Whether the clock unit of a die stamps a further packet for a stream (R263, R274): the retry store has room for a packet of six flits, the longest
(DEDUCED, log 117). -/
def mayStamp (s : State) (die st : Nat) : Bool :=
  let d := s.die die
  d.phase == 0 && retryBytes d + 64 * 6 ≤ retryLimit die && (d.retry.filter fun p => p.stream p.dst == st).length < 32768

/-- A packet as its source sends it: its class and RESP follow its type (R249, R253). -/
def asSent (die : Nat) (p : Packet) : Packet := { p with src := die, express := isExpress p.ptype p.len p.trail, resp := isResp p.ptype }

/-- What stamping does at the clock unit (R255, R256): L becomes M, and a counted packet is then in the causal past. -/
def stampClock (d : Die) (die st : Nat) (p : Packet) : Die :=
  let x := { d with lmat := setStreamMatrix d.lmat st d.v }
  if counted p.ptype then
    { x with v := tmod 0 x.v (6 * die + p.dst) (· + 1), stampCount := tmod 0 x.stampCount p.dst (· + 1) }
  else x

/-- Stamp a packet and send it (R255, R256). One that may not be stamped waits at the clock unit, and so does one behind it on its stream
(R263, R274). -/
def stampPacket (s : State) (die : Nat) (p0 : Packet) : State :=
  let p := asSent die p0
  let st := p.stream p.dst
  if (s.die p.dst).removed || (s.die die).removed then dropPacket s die p
  else if !mayStamp s die st || (s.die die).unsent.any fun x => x.stream x.dst == st then
    s.modDie die fun d => { d with unsent := d.unsent ++ [p] }
  else
    let d := s.die die
    let incs := matrixIncs d.v (streamMatrix d.lmat st)
    let (clks, rest) := splitIncs p incs.length incs
    let s1 := clks.foldl (fun t c => emitPacket t die c) s
    let s2 := s1.modDie die fun d => stampClock d die st p
    emitPacket s2 die { p with incs := rest }

/-- Stamp, in their order, the packets that wait at the clock units and may go now. -/
def stampUnsent (s : State) : State :=
  (List.range 6).foldl (fun t d =>
    if (t.die d).unsent.isEmpty then t
    else (t.die d).unsent.foldl (fun u p => stampPacket u d p) (t.modDie d fun x => { x with unsent := [] })) s

/-! ### Clocks at the receiver (R257, R258) -/

/-- The delivery condition of a decoded packet at a die (R258); removed dies take no part in it (R272). -/
def mayDeliver (s : State) (die : Nat) (p : Packet) : Bool :=
  !ordered p.ptype || (List.range 6).all fun k =>
    (s.die k).removed || ((p.incs.find? fun x => x.1 == k && x.2.1 == die).map fun x => x.2.2).getD 0 ≤ (tget 0 (s.die die).d k).toNat

/-- What the delivery of an ordered packet does to the clock of a die (R258). The count of writes from a removed die is sealed (R272). -/
def clockDeliver (d : Die) (die : Nat) (sealed : Bool) (p : Packet) : Die :=
  if !ordered p.ptype then d
  else
    let v := p.incs.foldl (fun t x => tmod 0 t (6 * x.1 + x.2.1) fun o => if o.toNat < x.2.2 then BitVec.ofNat 32 x.2.2 else o) d.v
    if counted p.ptype && !sealed then
      let n := tget 0 d.d p.src + 1
      { d with v := tset 0 v (6 * p.src + die) n, d := tset 0 d.d p.src n }
    else { d with v := v }

/-- A count that reaches 2^31 requests a RESYNC (R260). -/
def checkCount (s : State) (die : Nat) : State :=
  if (List.range 6).any fun k => (tget 0 (s.die die).d k).getLsbD 31 then askResync s else s

/-! ### Packets that cross in one step

The walkers' plan and save traffic, instruction lines, MMV rows, the RoCE engines and the tile traffic of the Market dies' engines reach another die
by packets whose whole journey (stamping, the links, decoding, delivery, acknowledgement) falls into the step of the event that needs them. Such a
crossing takes place only in a state where nothing of its stream stands before it and the delivery condition holds at once; otherwise the event
waits. It is one of the interleavings that R255 to R259 allow (log 91). -/

/-- A packet of a stream may cross from die `a` to die `b` now. -/
def mayCross (s : State) (a b : Nat) (p : Packet) : Bool :=
  let da := s.die a
  let db := s.die b
  let st := p.stream b
  let m := { p with incs := (da.v.map fun e => (e.1 / 6, e.1 % 6, e.2.toNat)) }
  !da.removed && (nextHop s a b).isSome && mayStamp s a st && db.phase == 0 && !(da.unsent.any fun x => x.stream x.dst == st) &&
    tget 0 da.sendSeq st == tget 0 db.recvSeq (p.stream a) && mayDeliver s b m && !(db.early.any fun e => e.decoded && mayDeliver s b e.pkt)

/-- `n` flits pass every link of the present path from a die to another (R439 counter 10). -/
def countHops (n b : Nat) : Nat → Nat → State → State
  | 0, _, s => s
  | fuel + 1, a, s =>
    if a == b then s
    else
      match nextHop s a b with
      | none => s
      | some h => countHops n b fuel h (s.count a 10 n)

/-- A packet crosses from die `a` to die `b`: SEQ and the matrices of its stream move on at both ends, its delivery merges the clock, and its flits are
counted on every link. -/
def cross (s : State) (a b : Nat) (p0 : Packet) : Option State :=
  let p := { asSent a p0 with dst := b }
  if !mayCross s a b p then none
  else
    let da := s.die a
    let sa := p.stream b
    let sb := p.stream a
    let incs := matrixIncs da.v (streamMatrix da.lmat sa)
    let clks := (splitIncs p incs.length incs).1
    let n := clks.length + 1
    let m := (List.range 36).map fun i => (i, tget 0 da.v i)
    let s1 := s.modDie a fun d => { stampClock d a sa p with sendSeq := tset 0 d.sendSeq sa ((tget 0 d.sendSeq sa + n) % 65536) }
    let s2 := s1.modDie b fun d =>
      clockDeliver { d with recvSeq := tset 0 d.recvSeq sb ((tget 0 d.recvSeq sb + n) % 65536), rmat := setStreamMatrix d.rmat sb m } b false
        { p with incs := da.v.map fun e => (e.1 / 6, e.1 % 6, e.2.toNat) }
    some (countHops ((clks.map Packet.flits).sum + p.flits) b 6 a (checkCount s2 b))

/-- A CTL packet of a walker (R250) crosses to another die. -/
def walkerSend (s : State) (a b : Nat) (op : Byte) : Option State :=
  if a = b then some s else cross s a b { Packet.init with ptype := pCTL, op := op }

/-- A read of `n` bytes at most 256 by an agent of die `a` at die `b`: RD and RDR cross. -/
def crossRead (s : State) (a b n : Nat) : Option State :=
  if a = b then some s
  else (cross s a b { Packet.init with ptype := pRD, len := n }).bind fun t =>
    cross t b a { Packet.init with ptype := pRDR, len := n, npay := payFlits n }

/-- A write of `n` bytes at most 256 by an agent of die `a` at die `b`: WR crosses. -/
def crossWrite (s : State) (a b n : Nat) (trail : Bool) : Option State :=
  if a = b then some s
  else cross s a b { Packet.init with ptype := pWR, len := n, trail := trail, npay := payFlits n }

/-- The pieces of a virtual range cross between an agent's die and their homes (R247). Pieces that cannot be translated, or whose home is removed, send
nothing. The accesses of walkers and RoCE engines are no transfers of R287, so that no piece is a trailing sector. -/
def crossVa (s : State) (die : Nat) (root va : Word) (n : Nat) (write : Bool) : Option State :=
  (pieces va n).foldl (fun acc p => acc.bind fun t =>
    match walkPage t root (BitVec.ofNat 64 p.1) write false with
    | .error _ => some t
    | .ok e =>
      let h := e.homeOf t (BitVec.ofNat 64 p.1)
      if (t.die h).removed then some t
      else if write then crossWrite t die h p.2 false else crossRead t die h p.2) (some s)

/-- The reads of table entries that a walker makes from a table down (R239, R247): each is an access of 8 bytes at the home of the entry. `none` while a
packet has to wait; `true` when a home has been removed, so that the walk ends with CAUSALGAP (R273). -/
def crossWalk (die va : Nat) : Nat → Nat → State → Option (State × Bool)
  | n, table, s =>
    let idx := walkIndex n va
    let home := keyDie (hashKey (table + 8 * idx))
    if (s.die home).removed then some (s, true)
    else
      match crossRead s die home 8 with
      | none => none
      | some t =>
        match n with
        | 0 => some (t, false)
        | m + 1 =>
          let e := readPte s table idx
          if pteBad s (m + 1) table idx || !e.getLsbD 0 || pteMalformed s (m + 1) table idx e || pteLeaf (m + 1) e || Config.deviceBytes ≤ ptePa e then some (t, false)
          else crossWalk die va m (ptePa e) t

/-- The packets of a walk: it starts at the nearest table that the walk cache of the die names (R243). -/
def walkTraffic (s : State) (die : Nat) (root va : Word) : Option (State × Bool) :=
  if !canonical va then some (s, false)
  else
    match wcFind (s.die die) root va.toNat with
    | none => if root.toNat ≥ Config.deviceBytes then some (s, false) else crossWalk die va.toNat 4 root.toNat s
    | some e => crossWalk die va.toNat e.level e.table s

end Sys2Proof.Machine
end

