-- ==== Sys2Proof/Machine/Access.lean ====
section
/-!
DEFINITION. The memory path: accesses from their issue over stamping to performance at their home (R247, R281 to R285), what
atomics and reductions do there (R296, R299), the race detector's report (R311, R312) and host collisions (R303).
-/

namespace Sys2Proof.Machine

/-! ### Operations at the home (R296, R299) -/

/-- The new value of an atomic or reduction on a word of `w` bits; FADD is on FP32 words only. -/
def atomicOp (op w old v : Nat) : Nat :=
  match op with
  | 0 => (old + v) % 2 ^ w
  | 1 => fp32.addW old v
  | 2 => if signed w old ≤ signed w v then old else v
  | 3 => if signed w old ≥ signed w v then old else v
  | 4 => min old v
  | 5 => max old v
  | 6 => old &&& v
  | 7 => old ||| v
  | 8 => old ^^^ v
  | _ => v

/-- Old value to RESULT, and the word after AMO (R299). -/
def atomicWord (op w : Nat) (cmp : Option Nat) (old v : Nat) : Nat :=
  match cmp with
  | some c => if old = c then v else old
  | none => atomicOp op w old v

/-- Each word of `w` bytes on which a device atomic or reduction is performed while it is tracked counts a collision at its die (R303, R304). -/
def collide (s : State) (key n w : Nat) : State :=
  let hits := ((List.range (n / w)).filter fun i => s.splits.any fun t => t.addr < key + w * i + w && key + w * i < t.addr + t.len).length
  let d := keyDie key
  let c := tget 0 s.regs.atcoll d
  if hits = 0 then s
  else { s with regs := { s.regs with atcoll := tset 0 s.regs.atcoll d (BitVec.ofNat 32 (min (c.toNat + hits) 0xFFFFFFFF)) } }

/-- The value of bytes at the home of an access: stored bytes, and MEMUNCORR from an uncorrectable sector (R238). -/
def homeRead (s : State) (host : Bool) (addr n : Nat) : List Byte × Byte :=
  if host then (mread s.hostMem addr n, 0)
  else (hbmBytes s addr n, if hbmBad s addr n then cMEMUNCORR else 0)

/-- Write bytes at the home of an access; `byHost` is a write of the host. -/
def homeWrite (s : State) (byHost host : Bool) (addr : Nat) (bs : List Byte) : State :=
  if host then { s with hostMem := mwrite s.hostMem addr bs } else hbmWriteBy byHost s addr bs

/-- Count an access at its home (R439 counter 6): an access of the device to host memory once, and the bytes that one to device memory reads. -/
def countHome (s : State) (a : Access) : State :=
  if a.host then s.count (hostDie s a.addr) 6 1 else if a.kind == .write then s else s.count (keyDie a.addr) 6 a.len

/-- Apply a reduction to the words of a row, lane by lane (R299). -/
def reduceBytes (op w : Nat) : List Byte → List Byte → Nat → List Byte
  | _, _, 0 => []
  | old, v, n + 1 =>
    natLe w (atomicOp op (8 * w) (leNat (old.take w)) (leNat (v.take w))) ++ reduceBytes op w (old.drop w) (v.drop w) n

/-! ### The race detector on an access (R311, R312) -/

/-- Report a conflict of an access to the plot of its agent: RACE, or a race log record under RACELOG. A conflict of the host
goes to the race log. -/
def raceReport (s : State) (agent : Agent) (iaddr va where_ : Word) (write : Bool) (c : Conflict) : State :=
  match agentCore agent with
  | none => raceLog s where_ Config.cores write c
  | some core =>
    if ((s.plotOf core).map fun q => q.racelog).getD true then raceLog s where_ core write c
    else
      match agent with
      | .node _ cell stage => plotFault s core cRACE 0 1 (BitVec.ofNat 64 (siteOf s core cell stage)) va true
      | .port _ p => plotFault s core cRACE 0 2 (BitVec.ofNat 64 p) va true
      | _ => holdFault s core { code := cRACE, detail := 0, tepc := iaddr, tval := va, engine := false }

/-- The sectors that an access touches. -/
def sectorsOf (a n : Nat) : List Nat := (List.range ((a + n - 1) / 32 + 1 - a / 32)).map fun i => 32 * (a / 32 + i)

/-- Whether the detector checks an access (R311): those of a core's own agents, and host reads. -/
def raceChecks (a : Access) : Bool :=
  match a.agent with
  | .seq _ | .node _ _ _ | .port _ _ => true
  | .host _ => a.kind == .read
  | _ => false

/-- Whether an access changes the shadow: a core's own writes, and copies, which leave no writer (R311). -/
def raceWrites (a : Access) : Bool :=
  a.kind == .write && match a.agent with
    | .seq _ | .node _ _ _ | .port _ _ | .engine _ => true
    | _ => false

/-- An access of the host. -/
def Agent.isHost : Agent → Bool
  | .host _ => true
  | _ => false

/-- One sector of an access at storage key `k`, whose frame is watched: the check of R311, then the shadow that a write leaves. An atomic or
reduction is neither checked nor recorded. -/
def raceSector (s : State) (a : Access) (k : Nat) : State :=
  if a.kind == .atomic || a.kind == .reduce then s
  else
    let t := match if raceChecks a then raceCheck s (shadowDevice k) (agentCore a.agent) else none with
      | none => s
      | some c => raceReport s a.agent a.iaddr a.va (BitVec.ofNat 64 (a.pa / 32 * 32 + (k - a.addr / 32 * 32))) (a.kind == .write) c
    if raceWrites a then raceMark t (shadowDevice k) (agentCore a.agent) a.wint else t

/-- The race detector on the sectors of a device access through an RW page (R309, R311); a host read is checked on frames already watched. An
access stands in one block of 256 bytes, so that it touches one frame; a conflict names the sector that it is about (R312). -/
def raceAccess (s : State) (a : Access) : State :=
  if !(a.rw || a.agent.isHost) || a.host then s
  else
    let frame := a.pa / 4096
    let (w, t) := if a.agent.isHost then ((tget [] s.watched (keyDie a.addr)).contains frame, s) else raceWatch s (keyDie a.addr) frame
    if w then (sectorsOf a.addr a.len).foldl (fun u k => raceSector u a k) t else t

/-! ### Performance at the home -/

/-- Perform an access at its home: what it returns and its code. A word that fails is unchanged (R298); further parts of one request are not counted
again (R245). -/
def homeEffect (s : State) (a : Access) : State × List Byte × Byte :=
  let s0 := raceAccess s a
  let s1 := if a.ac && !a.sub then countLines s0 a.host a.addr a.pa a.len (a.kind != .read) else s0
  let s2 := countHome s1 a
  let w := if a.kind == .reduce && a.len != 8 then 4 else a.len
  let hit := fun (t : State) => if a.host || a.agent.isHost then t else collide t a.addr a.len w
  match a.kind with
  | .read =>
    let (v, c) := homeRead s2 a.host a.addr a.len
    (s2, v, c)
  | .write =>
    let all := if a.parts.isEmpty then [(0, a.data.length)] else a.parts
    (all.foldl (fun t p => homeWrite t a.agent.isHost a.host (a.addr + p.1) (slice a.data p.1 p.2)) s2, [], 0)
  | .atomic =>
    let (old, c) := homeRead s2 a.host a.addr a.len
    if c != 0 then (s2, [], c)
    else
      let v := atomicWord a.op.toNat (8 * a.len) (if a.cmp.isEmpty then none else some (leNat a.cmp)) (leNat old) (leNat a.data)
      (homeWrite (hit s2) a.agent.isHost a.host a.addr (natLe a.len v), old, 0)
  | .reduce =>
    let (old, c) := homeRead s2 a.host a.addr a.len
    if c != 0 then (s2, [], c)
    else
      let v := reduceBytes a.op.toNat w old a.data (a.len / w)
      (homeWrite (hit s2) a.agent.isHost a.host a.addr v, [], 0)

/-- Perform an access at its home and record what it returned. -/
def performNow (s : State) (a : Access) (phase : AccPhase) : State :=
  let (t, v, c) := homeEffect s a
  settle { t with hostPend := t.hostPend.filter fun i => i != a.id } a phase v c

/-! ### Bridges (R237) -/

/-- An access leaves its bridge; with the last sector of a token its entry has passed. -/
def bridgeLeft (s : State) (a : Access) : State :=
  match a.agent with
  | .port core p =>
    if a.kind != .write || a.phase != .issued || s.accs.any fun x => x.id != a.id && x.agent == a.agent && x.xfer == a.xfer && (x.phase == .issued || x.phase == .parked) then s
    else s.modBridge (portChannel core p) fun b => { b with writes := b.writes + 1 }
  | _ => s

/-- The host completes the writes that its ports have accepted (R281): a later read by the port to the same host pushes them. -/
def flushHost (s : State) : State :=
  s.hostPend.foldl (fun t id =>
    match t.accs.find? fun a => a.id == id with
    | none => { t with hostPend := t.hostPend.filter fun i => i != id }
    | some a => performNow t a .returned) s

/-- The accesses of an agent to a virtual range beside their bytes: a read of host memory pushes the writes that its port has accepted before (R281), and
all are counted. -/
def touchVa (s : State) (root va : Word) (n : Nat) (write : Bool) : State :=
  let toHost := (pieces va n).any fun p => match walkPage s root (BitVec.ofNat 64 p.1) write false with | .ok e => e.host | .error _ => false
  countVa (if toHost && !write then flushHost s else s) root va n write

/-- Perform an access at its home. A write to a HOSTM page is accepted by the port of its Market die, and performed when the host has completed
it (R281); any other access to the host comes after the writes accepted before it. -/
def performAccess (s : State) (a : Access) (phase : AccPhase) : State :=
  let s := bridgeLeft s a
  if a.host && a.kind == .write then
    { s with hostPend := s.hostPend ++ [a.id], accs := mapFirst (fun x => x.id == a.id) (fun x => { x with phase := .accepted }) s.accs }
  else performNow (if a.host then flushHost s else s) a phase

/-! ### Order (R283 to R285, R289) -/

/-- An earlier access has reached the point that a release of a scope waits for (R284). -/
def reached (a : Access) (scope : BitVec 2) : Bool :=
  accPerformed a || (scope != 3 && (if a.host then a.phase == .accepted else a.remote && a.phase == .stamped))

/-- Two accesses touch the same sector. -/
def sameSector (a b : Access) : Bool :=
  a.phase != .parked && a.host == b.host && a.addr / 32 ≤ (b.addr + b.len - 1) / 32 && b.addr / 32 ≤ (a.addr + a.len - 1) / 32

/-- An earlier access has gone far enough for a later one to the same home: performed, or stamped ahead of it (R255, R258), or accepted ahead of it
by the host's port. -/
def ahead (a b : Access) : Bool := accPerformed a || a.phase == .accepted || (a.remote && b.remote && a.phase == .stamped)

/-- Two pieces of one transfer have the same home (R287). -/
def sameTransfer (a b : Access) : Bool :=
  a.xfer != 0 && a.xfer == b.xfer && a.phase != .parked && a.host == b.host && (a.host || keyDie a.addr == keyDie b.addr)

/-- A piece of the transfer of `b`, or of the command whose flag `b` is, has failed. -/
def failedPart (a b : Access) : Bool := a.code != 0 && a.dest == b.dest && a.dest != .none && (b.xfer == 0 || a.xfer == b.xfer)

/-- Whether an earlier access lets `b` go on: the agent orders them when they touch one sector or belong to one transfer with one home, when `a`
is an acquire or `b` a release; the rows of one REDV follow each other and stop at a failure, and the trailing sector or flag of a transfer of which a
piece has failed is not written (R283, R285, R287, R298, R372, R382). -/
def orderedBefore (a b : Access) : Bool :=
  !(a.phase == .parked && a.code != 0) && !(a.acq && a.phase != .returned) &&
    !(a.kind == .reduce && a.dest == b.dest && !(accPerformed a && a.code == 0)) && !(b.rel && failedPart a b) &&
    (!(sameSector a b || sameTransfer a b) || ahead a b) && (!b.rel || reached a b.scope)

/-- Every earlier access of its agent lets an access go on. -/
def mayGo (s : State) (b : Access) : Bool :=
  (s.accs.takeWhile fun a => a.id != b.id).all fun a => a.agent != b.agent || orderedBefore a b

/-! ### The FIFOs of the bridges (R237) -/

/-- The requests of a VA port that stand in the FIFO of its bridge, or before it while their translation is not known: one for each token (log 39). -/
def bridgeLoad (s : State) (core p : Nat) : Nat :=
  ((s.accs.filter fun a => a.agent == .port core p && (a.phase == .issued || a.phase == .parked)).map fun a => a.xfer).eraseDups.length

/-- Whether an access stands at the bridge of a channel: it has left its agent, and it is homed at the channel or comes from the VA port of the bridge. -/
def atBridge (s : State) (ch : Nat) (a : Access) : Bool :=
  a.phase == .issued && ((!a.remote && !a.host && keyChannel a.addr == ch) || match a.agent with | .port c p => portChannel c p == ch | _ => false) && mayGo s a

/-- The entries that some accesses take in the request FIFO of a channel: one for each token of a port, one for each 64 bytes of any other request. -/
def bridgeEntries (s : State) (ch : Nat) (l : List Access) : Nat :=
  let x := l.filter (atBridge s ch)
  let port := fun (a : Access) => match a.agent with | .port _ _ => true | _ => false
  ((x.filter port).map fun a => a.xfer).eraseDups.length + ((x.filter fun a => !port a && !a.sub).map fun a => cdiv a.len 64).sum

/-- The entries in the FIFO of a port's bridge, its own and those of other agents. -/
def bridgeHeld (s : State) (core p : Nat) : Nat :=
  bridgeLoad s core p + bridgeEntries s (portChannel core p) (s.accs.filter fun a => a.agent != .port core p)

/-- The FIFO of a port's bridge offers no slot. -/
abbrev bridgeFull (s : State) (core p : Nat) : Bool := Nat.ble 32 (bridgeHeld s core p)

/-- A request of a VA port has entered its bridge. -/
def bridgeEntered (s : State) (core p : Nat) : State := s.modBridge (portChannel core p) fun b => { b with high := max b.high (bridgeHeld s core p) }

/-- The replies of a channel that wait at the clock unit of its die fill its reply FIFO, which holds the controller (R237, R263). -/
def replyFull (s : State) (ch : Nat) : Bool :=
  Nat.ble 32 (((s.die (ch / 64)).unsent.filter fun p => (p.ptype == pRDR || p.ptype == pATR) &&
    s.accs.any fun a => a.id == p.acc && !a.host && keyChannel a.addr == ch).map fun p => max 1 (cdiv p.len 64)).sum

/-- An access of the home's own die has a slot in the FIFO of its channel, and the controller goes on. -/
def bridgeTurn (s : State) (a : Access) : Bool :=
  a.host || (Nat.blt (bridgeEntries s (keyChannel a.addr) (s.accs.takeWhile fun x => x.id != a.id)) 32 && !replyFull s (keyChannel a.addr))

/-- A request from another die finds a slot in the FIFO of its channel, and the controller goes on. -/
def bridgeRoom (s : State) (p : Packet) : Bool :=
  p.addr.getLsbD 63 || (Nat.blt (bridgeEntries s (keyChannel p.addr.toNat) (s.accs.filter fun a => !a.remote)) 32 && !replyFull s (keyChannel p.addr.toNat))

/-! ### Stamping (R255, R264) -/

/-- The home die of an access. -/
def Access.home (a : Access) (s : State) : Nat := if a.host then hostDie s a.addr else keyDie a.addr

/-- The packet of an access (R247, R250, R251). TAG stands where a response repeats it. -/
def accessPacket (s : State) (a : Access) : Packet :=
  let t : Byte := match a.kind with | .read => pRD | .write => pWR | .atomic => pAT | .reduce => pRED
  let bytes := match a.kind with | .read => [] | .atomic => a.cmp ++ a.data | _ => a.data
  { Packet.init with ptype := t, dst := a.home s, npay := payFlits bytes.length, trail := a.trail,
                     tag := if a.kind == .read || a.kind == .atomic then BitVec.ofNat 16 a.id else 0, addr := packetAddr a.host a.addr,
                     len := a.len, op := a.op.setWidth 8, opw := a.len == 8 && (a.kind == .atomic || a.kind == .reduce),
                     origin := agentOrigin a.agent, acc := a.id, data := bytes }

/-- Atomics from a die to a home die that have no delivered answer (R264). -/
def atomicsOut (s : State) (die home : Nat) : Nat :=
  (s.accs.filter fun a => a.kind == .atomic && a.remote && agentDie a.agent == die && a.home s == home &&
    (a.phase == .stamped || a.phase == .performed)).length

/-! ### Fence probes (R284, R286) -/

/-- The probe fields of an agent: a sequencer's, or a copy engine's for the SYSTEM release of a CSIG (R284, R286, R368). `probeFor` names the release
that the probes serve, 0 for a FENCE. -/
structure ProbeView where
  dirty : List Nat
  probes : List Nat
  probeFor : Option Nat
  deriving DecidableEq, Repr

/-- The probe fields of an agent. -/
def probeView (s : State) : Agent → Option ProbeView
  | .seq c => some { dirty := (s.core c).dirty, probes := (s.core c).probes, probeFor := (s.core c).probeFor }
  | .engine e => some { dirty := (s.engine e).dirty, probes := (s.engine e).probes, probeFor := (s.engine e).probeFor }
  | _ => none

/-- Set the probe fields of an agent. -/
def setProbes (s : State) (a : Agent) (v : ProbeView) : State :=
  match a with
  | .seq c => s.modCore c fun k => { k with dirty := v.dirty, probes := v.probes, probeFor := v.probeFor }
  | .engine e => s.modEngine e fun g => { g with dirty := v.dirty, probes := v.probes, probeFor := v.probeFor }
  | _ => s

/-- TAG of a fence probe: the core, or 512 and the engine (log 88). -/
def probeTag : Agent → BitVec 16
  | .seq c => BitVec.ofNat 16 c
  | .engine e => BitVec.ofNat 16 (512 + e)
  | _ => 0

/-- Other dies that hold the home of a write of an agent not yet known to be performed: an atomic is known by its answer, any other write by a
probe (R286). -/
def unknownDies (s : State) (ag : Agent) : List Nat :=
  below 6 fun d => ((probeView s ag).map fun v => v.dirty.contains d).getD false ||
    s.accs.any fun a => a.agent == ag && a.kind == .atomic && a.remote && a.phase == .stamped && a.home s == d

/-- Send the fence probes of an agent: CTL, OP 0xF0. `for_` names the release that they serve, 0 for a FENCE. -/
def sendProbes (s : State) (ag : Agent) (for_ : Nat) : State :=
  let dies := unknownDies s ag
  dies.foldl (fun t d => stampPacket t (agentDie ag)
      { Packet.init with ptype := pCTL, dst := d, op := 0xF0, tag := probeTag ag, origin := agentOrigin ag })
    (setProbes s ag { dirty := [], probes := dies, probeFor := some for_ })

/-- Whether a SYSTEM release of a sequencer or engine still has to learn by probes that its earlier writes are performed (R284). -/
def needsProbes (s : State) (b : Access) : Bool :=
  match probeView s b.agent with
  | some v => b.rel && b.scope == 3 && !(v.probes.isEmpty && (v.probeFor == some b.id || (unknownDies s b.agent).isEmpty))
  | none => false

/-- A SYSTEM release whose earlier accesses have all been stamped, performed or accepted sends its probes, once (R284, R286). -/
def probeRelease (s : State) (b : Access) : State :=
  match probeView s b.agent with
  | some v =>
    if needsProbes s b && v.probes.isEmpty && v.probeFor != some b.id && (s.accs.takeWhile fun a => a.id != b.id).all fun a => a.agent != b.agent || reached a 2 then
      sendProbes s b.agent b.id
    else s
  | none => s

/-- A write of a sequencer or engine that has been stamped leaves its home not known to have performed it (R286). -/
def noteDirty (s : State) (a : Access) (home : Nat) : State :=
  match probeView s a.agent with
  | some v => if (a.kind == .write || a.kind == .reduce) && !v.dirty.contains home then setProbes s a.agent { v with dirty := home :: v.dirty } else s
  | none => s

/-- Stamp one remote access if nothing holds it back. -/
def tryStamp (s0 : State) (a : Access) : State :=
  let s := if a.phase == .issued then probeRelease s0 a else s0
  let die := agentDie a.agent
  let p := accessPacket s a
  let st := (asSent die p).stream p.dst
  if a.phase == .issued && a.remote && !needsProbes s a && mayGo s a && mayStamp s die st && (a.kind != .atomic || atomicsOut s die p.dst < 64) then
    noteDirty (stampPacket { bridgeLeft s a with accs := mapFirst (fun x => x.id == a.id) (fun x => { x with phase := .stamped }) s.accs } die p) a p.dst
  else s

/-- Earlier accesses of a sequencer have reached the point of R284 for a scope. -/
def seqReached (s : State) (core : Nat) (scope : BitVec 2) : Bool :=
  s.accs.all fun a => a.agent != .seq core || reached a scope

/-- Accesses of a sequencer issued before a number was given have reached the point of R284 for DEVICE scope (R291, R306). -/
def seqReachedBefore (s : State) (core id : Nat) : Bool :=
  s.accs.all fun a => a.agent != .seq core || a.id > id || reached a 2

/-- The FENCE of a core goes on (R286): once every earlier access has been stamped, performed or accepted, a FENCE.SYSTEM sends its probes; it is
done when its scope is reached and no probe is out. -/
def fenceStep (s : State) (core : Nat) : State :=
  match (s.core core).fence with
  | none => s
  | some f =>
    let k := s.core core
    let t := if f.scope == 3 && !f.done && k.probes.isEmpty && k.probeFor != some 0 && seqReached s core 2 then sendProbes s (.seq core) 0 else s
    let ok := seqReached t core f.scope && (f.scope != 3 || ((t.core core).probes.isEmpty && (t.core core).probeFor == some 0))
    if f.done || !ok then t
    else t.modCore core fun k => { k with fence := some { f with done := true }, probeFor := if k.probeFor == some 0 then none else k.probeFor }

/-! ### Barrier arrivals and commands in the memory path (R284, R291, R306) -/

/-- The packet of a barrier message (R306, R308): the square in ADDR, the waiter in TAG, the operand in the data (log 88). -/
def barPacket (dst : Nat) (m : BarMsg) : Packet :=
  let n := if m.op == 3 then (if m.ok then 0 else if m.n == 2 then 2 else 1) else if m.op == 2 then 0 else m.n
  { Packet.init with ptype := pBARA, dst := dst, op := BitVec.ofNat 8 m.op, addr := BitVec.ofNat 64 m.square, tag := barTag m.core m.chan,
                     data := natLe 2 n, origin := agentOrigin (.seq m.core) }

/-- Send a barrier message from a die to another, or hand it over on the same die (R306). -/
def sendBar (s : State) (src dst : Nat) (m : BarMsg) : State :=
  if src == dst then { s with barMsgs := s.barMsgs ++ [m] } else stampPacket s src (barPacket dst m)

/-- Whether a message that its agent holds has to stay behind an earlier one: arrivals of a die at a square keep the order of their waiters (R306), as
do those of a sequencer, and a withdrawal of the sequencer not yet sent goes first. -/
def behindMsg (x m : BarMsg) : Bool :=
  (x.op == 4 && (x.core == m.core || (x.die == m.die && x.square == m.square))) || (x.op == 2 && x.n == 0 && x.core == m.core)

/-- Send the arrivals that memory paths hold and whose earlier accesses have reached the point of R284, in order. -/
def sendArrivals (s : State) : State :=
  (s.barMsgs.filter fun m => m.op == 4).foldl (fun t m =>
    if seqReachedBefore t m.core m.after && !((t.barMsgs.takeWhile fun x => x != m).any fun x => behindMsg x m) then
      sendBar { t with barMsgs := t.barMsgs.erase m } m.die (m.square / 64) { m with op := 0 }
    else t) s

/-- The packet that takes a command to its executor: its words in the data, its number in TAG (R291, log 88). -/
def commandPacket (core : Nat) (c : Cmd) : Packet :=
  { Packet.init with ptype := pCTL, dst := c.home, op := ctlCommand, tag := BitVec.ofNat 16 c.id, origin := agentOrigin (.seq core),
                     data := natLe 16 c.cmd.toNat }

/-- Send the commands for executors on other dies whose earlier accesses have reached the point of R284 (R291). -/
def sendCommands (s : State) : State :=
  (s.cores.flatMap fun e => (e.2.cmds.filter fun c => c.ctl == .held).map fun c => (e.1, c)).foldl (fun t x =>
    if seqReachedBefore t x.1 x.2.id then stampPacket (modCmd t x.1 x.2.id fun c => { c with ctl := .sent }) (dieOf x.1) (commandPacket x.1 x.2)
    else t) s

/-- The executor of a command has it (R291). -/
abbrev atExecutor (c : Cmd) : Bool := c.ctl == .here || c.ctl == .arrived

/-- An executor has finished a command: the status word is due at once on its own die, and travels as an ordered CTL packet otherwise (R290). -/
def completeFrom (s : State) (core id : Nat) (code : Byte) (result : W32) : State :=
  match (s.core core).cmd id with
  | none => s
  | some c =>
    if c.home == dieOf core then finishCmd s core id code result
    else
      stampPacket (modCmd s core id fun x => { x with ctl := .answered, code := code, result := result }) c.home
        { Packet.init with ptype := pCTL, dst := dieOf core, op := ctlDone, tag := BitVec.ofNat 16 id, origin := agentOrigin (.seq core),
                           data := natLe 8 (statusWord c.cmd code result).toNat }

/-- Every FENCE in progress goes on. -/
def sendFences (s : State) : State := ((s.cores.filter fun e => e.2.fence.isSome).map (·.1)).foldl fenceStep s

/-- Stamp every packet that waits at a clock unit and then, in issue order, every remote access, arrival and command that nothing holds back. -/
def stampReady (s : State) : State :=
  sendFences (sendCommands (sendArrivals ((s.accs.map fun a => a.id).foldl (fun t id =>
    match t.accs.find? fun a => a.id == id with
    | none => t
    | some a => tryStamp t a) (stampUnsent s))))

/-! ### Issue -/

/-- An access of an agent at a translated address, with nothing special about it. -/
def mkAccess (s : State) (agent : Agent) (kind : AccKind) (e : TcEntry) (va : Word) (len : Nat) (data : List Byte) (dest : Dest) : Access :=
  { id := newId s, agent := agent, kind := kind, va := va, host := e.host, addr := e.key va, pa := e.addr va, len := len, data := data,
    cmp := [], op := 0, rel := false, acq := false, scope := 0, rw := e.rw, ac := e.ac, iaddr := 0,
    wint := ((agentCore agent).map fun c => (s.core c).race.int.setWidth 16).getD 0, phase := .issued,
    remote := e.homeOf s va != agentDie agent, dest := dest, value := [], code := 0, trail := false, xfer := 0, parts := [],
    cached := false, sub := false, span := e.shift }

/-- An access comes to the memory path and is not stamped yet. -/
def queueAccess (s : State) (a : Access) : State := { s.bump with accs := s.accs ++ [a] }

/-- Hand an access to the memory path (R124); a remote one is stamped as soon as its order allows (R255). -/
def issueAccess (s : State) (a : Access) : State :=
  let s1 := queueAccess s a
  if a.remote then tryStamp s1 a else s1

/-! ### Parked accesses (R293, R294) -/

/-- PTROOT of the plot of a core. -/
def coreRoot (s : State) (core : Nat) : Word := ((s.plotOf core).map (·.ptroot)).getD 0

/-- The fault of a parked access: it stays parked with its code, and its node or port raises the fault (R103, R228, R294).
A fault of the page is recoverable, an uncorrectable entry or a removed home is not (R417). -/
def parkFault (s : State) (a : Access) (f : WalkFault) : State :=
  let s1 := { s with accs := mapFirst (fun x => x.id == a.id) (fun x => { x with code := f.1 }) s.accs }
  let detail := if f.2 then 1 else 0
  let again := f.1 == cTRANSLATION || f.1 == cPERMISSION
  match a.agent with
  | .node c cell stage => plotFault s1 c f.1 detail 1 (BitVec.ofNat 64 (siteOf s1 c cell stage)) a.va again
  | .port c p => portFault s1 c p f.1 detail a.va again
  | _ => s1

/-- Translate a parked access again: it goes on, waits, or faults. One behind a faulted access of its agent waits (R294). -/
def resolveOne (s : State) (core id : Nat) : State :=
  match s.accs.find? fun a => a.id == id with
  | none => s
  | some a =>
    if a.phase != .parked || a.code != 0 || s.accs.any fun x => x.agent == a.agent && x.phase == .parked && x.code != 0 then s
    else
      match translate s core (coreRoot s core) a.va (a.kind != .read) false with
      | (.wait _, t) => t
      | (.fault f, t) => parkFault t a f
      | (.hit e, t) =>
        let b := { a with host := e.host, addr := e.key a.va, pa := e.addr a.va, rw := e.rw, ac := e.ac, span := e.shift,
                          remote := e.homeOf t a.va != agentDie a.agent, phase := .issued }
        let u := { t with accs := mapFirst (fun x => x.id == id) (fun _ => b) t.accs }
        if b.remote then tryStamp u b else u

/-- Translate every parked access of a core again, in order. -/
def resolveParked (s : State) (core : Nat) : State :=
  (s.accs.filterMap fun a => if a.phase == .parked && agentCore a.agent == some core then some a.id else none).foldl
    (fun t id => resolveOne t core id) s

/-- Issue an access of a memory-cell node or port at a virtual address: it passes the ordering point of its stream, where it is
parked while its translation is not known (R293). `xfer` names the transfer that it is a piece of, 0 for none; `parts` are its byte enables, and `sub`
marks a further part of one request. -/
def issueVa (s : State) (core : Nat) (agent : Agent) (kind : AccKind) (va : Word) (len : Nat) (data : List Byte) (rel : Bool) (dest : Dest)
    (xfer : Nat := 0) (parts : List (Nat × Nat) := []) (sub : Bool := false) : State :=
  let a : Access :=
    { id := newId s, agent := agent, kind := kind, va := va, host := false, addr := 0, pa := 0, len := len, data := data, cmp := [], op := 0,
      rel := rel, acq := false, scope := if rel then 2 else 0, rw := false, ac := false, iaddr := 0,
      wint := (s.core core).race.int.setWidth 16, phase := .parked, remote := false, dest := dest, value := [], code := 0, trail := rel, xfer := xfer, parts := parts,
      cached := false, sub := sub, span := 12 }
  resolveOne { s.bump with accs := s.accs ++ [a] } core a.id

end Sys2Proof.Machine
end

