-- ==== Sys2Proof/Machine/Alu.lean ====
section
/-!
DEFINITION. Integer, bit-field and multiply instructions of the sequencer (R119 to R122), and moves of special registers (R133).
-/

namespace Sys2Proof.Machine

/-! ### Values -/

/-- Sign-extended immediate (R39). -/
abbrev sext16 (i : BitVec 16) : Word := i.signExtend 64

/-- DIV (R120). -/
def divS (a b : Word) : Word :=
  if b = 0 then -1 else if a = 0x8000000000000000 ∧ b = -1 then a else BitVec.sdiv a b

/-- DIVU (R120). -/
def divU (a b : Word) : Word := if b = 0 then -1 else a / b

/-- REM (R120): sign of the dividend. -/
def remS (a b : Word) : Word :=
  if b = 0 then a else if a = 0x8000000000000000 ∧ b = -1 then 0 else a - b * divS a b

/-- REMU (R120). -/
def remU (a b : Word) : Word := if b = 0 then a else a - b * divU a b

/-- MULH (R120): the high half of the signed product. -/
def mulHigh (a b : Word) : Word := ((a.signExtend 128 * b.signExtend 128) >>> 64).setWidth 64

/-- MULHU (R120). -/
def mulHighU (a b : Word) : Word := ((a.setWidth 128 * b.setWidth 128) >>> 64).setWidth 64

/-- The mask of a field of width len + 1 (R121). -/
def fieldMask (len : BitVec 6) : Word := if len = 63 then -1 else 1#64 <<< (len.toNat + 1) - 1

/-- BFX (R121). -/
def bitsOf (a : Word) (pos len : BitVec 6) : Word := (a >>> pos.toNat) &&& fieldMask len

/-- BFXS (R121). -/
def bitsSigned (a : Word) (pos len : BitVec 6) : Word :=
  let r := bitsOf a pos len
  if len ≠ 63 ∧ r.getLsbD len.toNat then r ||| ~~~(fieldMask len) else r

/-- BFI (R121). -/
def bitsInsert (x a : Word) (pos len : BitVec 6) : Word :=
  let mm := fieldMask len <<< pos.toNat
  (x &&& ~~~mm) ||| ((a <<< pos.toNat) &&& mm)

/-- Zero bits above the highest set bit (R121). -/
def leadingZeros (a : Word) : Word := if a = 0 then 64 else BitVec.ofNat 64 (63 - Nat.log2 a.toNat)

/-- Zero bits below the lowest set bit (R121). -/
def trailingZeros (a : Word) : Word := BitVec.ofNat 64 (((List.range 64).find? fun i => a.getLsbD i).getD 64)

/-- Set bits (R121). -/
def popCount (a : Word) : Word := BitVec.ofNat 64 ((List.range 64).filter fun i => a.getLsbD i).length

/-! ### Forms -/

/-- A form with two register operands and a result (R119, R120). -/
def alu2 (s : State) (d a b : Reg) (f : Word → Word → Word) : Res :=
  .next (withRegs s [d, a, b] fun t => advance t fun k => k.wr d (f (k.rd a) (k.rd b)))

/-- A form with one register operand and a result. -/
def alu1 (s : State) (d a : Reg) (f : Word → Word) : Res :=
  .next (withRegs s [d, a] fun t => advance t fun k => k.wr d (f (k.rd a)))

/-- ADD. -/
def execAdd (d a b : Reg) (s : State) : Res := alu2 s d a b (· + ·)
/-- SUB. -/
def execSub (d a b : Reg) (s : State) : Res := alu2 s d a b (· - ·)
/-- AND. -/
def execAnd (d a b : Reg) (s : State) : Res := alu2 s d a b (· &&& ·)
/-- OR. -/
def execOr (d a b : Reg) (s : State) : Res := alu2 s d a b (· ||| ·)
/-- XOR. -/
def execXor (d a b : Reg) (s : State) : Res := alu2 s d a b (· ^^^ ·)
/-- SLL. -/
def execSll (d a b : Reg) (s : State) : Res := alu2 s d a b fun x y => x <<< (y.toNat % 64)
/-- SRL. -/
def execSrl (d a b : Reg) (s : State) : Res := alu2 s d a b fun x y => x >>> (y.toNat % 64)
/-- SRA. -/
def execSra (d a b : Reg) (s : State) : Res := alu2 s d a b fun x y => x.sshiftRight (y.toNat % 64)
/-- SLT. -/
def execSlt (d a b : Reg) (s : State) : Res := alu2 s d a b fun x y => if x.slt y then 1 else 0
/-- SLTU. -/
def execSltu (d a b : Reg) (s : State) : Res := alu2 s d a b fun x y => if x.ult y then 1 else 0
/-- ADDI. -/
def execAddi (d a : Reg) (imm : BitVec 16) (s : State) : Res := alu1 s d a fun x => x + sext16 imm
/-- ANDI: the immediate is zero-extended (R43). -/
def execAndi (d a : Reg) (imm : BitVec 16) (s : State) : Res := alu1 s d a fun x => x &&& imm.setWidth 64
/-- ORI. -/
def execOri (d a : Reg) (imm : BitVec 16) (s : State) : Res := alu1 s d a fun x => x ||| imm.setWidth 64
/-- XORI. -/
def execXori (d a : Reg) (imm : BitVec 16) (s : State) : Res := alu1 s d a fun x => x ^^^ imm.setWidth 64
/-- SLLI. -/
def execSlli (d a : Reg) (sh : BitVec 6) (s : State) : Res := alu1 s d a fun x => x <<< sh.toNat
/-- SRLI. -/
def execSrli (d a : Reg) (sh : BitVec 6) (s : State) : Res := alu1 s d a fun x => x >>> sh.toNat
/-- SRAI. -/
def execSrai (d a : Reg) (sh : BitVec 6) (s : State) : Res := alu1 s d a fun x => x.sshiftRight sh.toNat
/-- SLTI. -/
def execSlti (d a : Reg) (imm : BitVec 16) (s : State) : Res := alu1 s d a fun x => if x.slt (sext16 imm) then 1 else 0
/-- SLTIU. -/
def execSltiu (d a : Reg) (imm : BitVec 16) (s : State) : Res := alu1 s d a fun x => if x.ult (sext16 imm) then 1 else 0
/-- LUI. -/
def execLui (d : Reg) (imm : BitVec 16) (s : State) : Res := alu1 s d 0 fun _ => (imm ++ (0 : BitVec 16)).signExtend 64
/-- MUL. -/
def execMul (d a b : Reg) (s : State) : Res := alu2 s d a b (· * ·)
/-- MULH. -/
def execMulh (d a b : Reg) (s : State) : Res := alu2 s d a b mulHigh
/-- MULHU. -/
def execMulhu (d a b : Reg) (s : State) : Res := alu2 s d a b mulHighU
/-- DIV. -/
def execDiv (d a b : Reg) (s : State) : Res := alu2 s d a b divS
/-- DIVU. -/
def execDivu (d a b : Reg) (s : State) : Res := alu2 s d a b divU
/-- REM. -/
def execRem (d a b : Reg) (s : State) : Res := alu2 s d a b remS
/-- REMU. -/
def execRemu (d a b : Reg) (s : State) : Res := alu2 s d a b remU
/-- BFX. -/
def execBfx (d a : Reg) (pos len : BitVec 6) (s : State) : Res := alu1 s d a fun x => bitsOf x pos len
/-- BFXS. -/
def execBfxs (d a : Reg) (pos len : BitVec 6) (s : State) : Res := alu1 s d a fun x => bitsSigned x pos len
/-- BFI reads the destination as well. -/
def execBfi (d a : Reg) (pos len : BitVec 6) (s : State) : Res := alu2 s d d a fun x y => bitsInsert x y pos len
/-- CLZ. -/
def execClz (d a : Reg) (s : State) : Res := alu1 s d a leadingZeros
/-- CTZ. -/
def execCtz (d a : Reg) (s : State) : Res := alu1 s d a trailingZeros
/-- POPC. -/
def execPopc (d a : Reg) (s : State) : Res := alu1 s d a popCount

/-- WID of the plot of a core (R122). -/
def coreWid (s : State) (core : Nat) : Word := ((s.plotOf core).map (·.wid)).getD 0

/-- WIDX: field k of WID (R122, R27). -/
def execWidx (d : Reg) (k : BitVec 3) (s : State) : Res :=
  let v := widField (((s.plotOf s.cur.core).map (·.widths)).getD []) k.toNat (coreWid s s.cur.core)
  alu1 s d 0 fun _ => v

/-! ### Special registers (R50, R131 to R133) -/

/-- The pace counter of a core's cluster: the counters agree to within one tick (R14, log 6). -/
def clusterPace (s : State) (core : Nat) : Word := if Config.paceAhead (clusterOf core) then s.pace + 1 else s.pace

/-- The value of a special register (R50). -/
def special (s : State) (n : Nat) : Word :=
  let k := s.me
  let h := k.handler k.bank
  match n with
  | 0 | 1 | 2 => (h.level n).lc.setWidth 64
  | 4 | 5 | 6 => (h.level (n - 4)).ls
  | 8 | 9 | 10 => (h.level (n - 8)).le
  | 16 => coreWid s s.cur.core
  | 17 => BitVec.ofNat 64 (((s.plotOf s.cur.core).map (·.p)).getD 0)
  | 18 => (corePos s s.cur.core).setWidth 64
  | 19 => clusterPace s s.cur.core
  | 20 => k.chan.setWidth 64
  | 21 => ((s.plotOf s.cur.core).map (·.seed)).getD 0
  | 32 => k.tcause.setWidth 64
  | 33 => k.tepc
  | 34 => k.tval
  | _ => BitVec.ofNat 64 k.trqn

/-- MFS (R133). -/
def execMfs (d : Reg) (num : BitVec 9) (s : State) : Res :=
  let v := special s num.toNat
  alu1 s d 0 fun _ => v

/-- MTS (R133): LOOPCOUNT for a count above 32 bits (R131), LOOPREG for a bound of an active level (R132). -/
def execMts (a : Reg) (num : BitVec 9) (s : State) : Res :=
  .next (withRegs s [a] fun t =>
    let k := t.me
    let v := k.rd a
    let h := k.handler k.bank
    let n := num.toNat % 4
    if num.toNat < 4 then
      if v.extractLsb' 32 32 ≠ 0 then preciseFault t cLOOPCOUNT 0 v
      else advance t fun k => k.modHandler k.bank fun h => h.setLevel n { h.level n with lc := v.setWidth 32 }
    else if h.order.contains n then preciseFault t cLOOPREG 0 v
    else if num.toNat < 8 then advance t fun k => k.modHandler k.bank fun h => h.setLevel n { h.level n with ls := v }
    else advance t fun k => k.modHandler k.bank fun h => h.setLevel n { h.level n with le := v })

end Sys2Proof.Machine
end

