-- ==== Sys2Proof/Machine/Control.lean ====
section
/-!
DEFINITION. Loads and stores (R123 to R125), branches and jumps (R127), hardware loops (R129), handler control (R115 to R117),
ordering (R284 to R286, R292), hints, decisions and system instructions (R134 to R139), LOCQ (R277).
-/

namespace Sys2Proof.Machine

/-! ### Local data memory (R123) -/

/-- Local bytes that an outstanding AMO or AMOC with local operands writes (R299). -/
def heldLocal (k : Core) (addr n : Nat) : Bool :=
  k.cmds.any fun c =>
    let func := c.cmd.extractLsb' 112 8
    let w := if c.cmd.getLsbD 108 then 8 else 4
    let b := (c.cmd.extractLsb' 64 15).toNat
    c.cmd.extractLsb' 120 8 == 7 && (c.phase == .accepted || c.phase == .running) &&
      ((func == 0 && c.cmd.getLsbD 109) || func == 1) && addr < b + w && b < addr + n

/-- The checks of a local access of `n` bytes, then its effect. -/
def localAccess (s : State) (a : Reg) (imm : BitVec 16) (n : Nat) (f : Nat → Core → Core) : State :=
  let ea := s.rd a + sext16 imm
  if ea.toNat % n ≠ 0 then preciseFault s cALIGN 0 ea
  else if ea.toNat > 0x7FFF - n + 1 then preciseFault s cPERMISSION 0 ea
  else if heldLocal s.me ea.toNat n then stallOn s (.localBytes ea.toNat n)
  else advance s (f ea.toNat)

/-- LDL. -/
def loadLocal (s : State) (d a : Reg) (imm : BitVec 16) (n : Nat) : Res :=
  .next (withRegs s [d, a] fun t => localAccess t a imm n fun ea k => k.wr d (leBv 64 (mread k.lmem ea n)))

/-- STL: `d` is the data source. -/
def storeLocal (s : State) (d a : Reg) (imm : BitVec 16) (n : Nat) : Res :=
  .next (withRegs s [d, a] fun t => localAccess t a imm n fun ea k => { k with lmem := mwrite k.lmem ea (natLe n (k.rd d).toNat) })

/-- LDL.D. -/
def execLdlD (d a : Reg) (imm : BitVec 16) (s : State) : Res := loadLocal s d a imm 8
/-- LDL.W zero-extends. -/
def execLdlW (d a : Reg) (imm : BitVec 16) (s : State) : Res := loadLocal s d a imm 4
/-- STL.D. -/
def execStlD (d a : Reg) (imm : BitVec 16) (s : State) : Res := storeLocal s d a imm 8
/-- STL.W. -/
def execStlW (d a : Reg) (imm : BitVec 16) (s : State) : Res := storeLocal s d a imm 4

/-! ### Device memory (R124, R285, R292) -/

/-- Another handler's FENCE in progress holds the later accesses of the sequencer (R286). -/
def otherFence (k : Core) : Bool := (k.fence.map fun f => f.chan != k.bank && !f.done).getD false

/-- The checks of R124 on an aligned access, then its issue; an acquire or a FENCE in progress stalls it first (R285, R286, R292). -/
def deviceAccess (s : State) (ea : Word) (n : Nat) (store : Bool) (f : State → TcEntry → State) : State :=
  if s.me.acq.isSome then stallOn s .acquire
  else if otherFence s.me then stallOn s .fence
  else if ea.toNat % n ≠ 0 then preciseFault s cALIGN 0 ea
  else
    match translate s s.cur.core (coreRoot s s.cur.core) ea store false with
    | (.fault e, t) => preciseFault t e.1 (if e.2 then 1 else 0) ea
    | (.wait w, t) => stallOn t (.walk w)
    | (.hit e, t) => f t e

/-- Issue a load: xd becomes pending (R124), or the acquire takes the sequencer's path (R285). -/
def issueLoad (s : State) (d : Reg) (ea : Word) (n : Nat) (acq : Bool) (scope : BitVec 2) (e : TcEntry) : State :=
  let c := s.cur.core
  let phys := if d = 0 then 0 else physReg s.me.bank d.toNat
  let a := { mkAccess s (.seq c) .read e ea n [] (.reg c phys s.me.pc) with acq := acq, scope := scope, iaddr := s.me.pc }
  advance (issueAccess s a) fun k =>
    { k with pend := if d = 0 then k.pend else tset false k.pend phys true, acq := if acq then some a.id else k.acq }

/-- Issue a store; a release stamps its interval before its own release (R310, R311). -/
def issueStore (s : State) (ea : Word) (n : Nat) (v : Word) (rel : Option (BitVec 2)) (e : TcEntry) : State :=
  let c := s.cur.core
  let a := { mkAccess s (.seq c) .write e ea n (natLe n v.toNat) .none with rel := rel.isSome, scope := rel.getD 0, iaddr := s.me.pc }
  let t := issueAccess s a
  advance (match rel with | some sc => raceRelease t c sc | none => t) id

/-- LDG. -/
def loadDevice (s : State) (d a : Reg) (imm : BitVec 16) (n : Nat) : Res :=
  .next (withRegs s [d, a] fun t =>
    let ea := t.rd a + sext16 imm
    deviceAccess t ea n false fun u e => issueLoad u d ea n false 0 e)

/-- STG. -/
def storeDevice (s : State) (d a : Reg) (imm : BitVec 16) (n : Nat) : Res :=
  .next (withRegs s [d, a] fun t =>
    let ea := t.rd a + sext16 imm
    deviceAccess t ea n true fun u e => issueStore u ea n (u.rd d) none e)

/-- LDG.D. -/
def execLdgD (d a : Reg) (imm : BitVec 16) (s : State) : Res := loadDevice s d a imm 8
/-- LDG.W. -/
def execLdgW (d a : Reg) (imm : BitVec 16) (s : State) : Res := loadDevice s d a imm 4
/-- STG.D. -/
def execStgD (d a : Reg) (imm : BitVec 16) (s : State) : Res := storeDevice s d a imm 8
/-- STG.W. -/
def execStgW (d a : Reg) (imm : BitVec 16) (s : State) : Res := storeDevice s d a imm 4

/-- LDG.ACQ (R292). -/
def execLdgAcq (d a : Reg) (scope : BitVec 2) (s : State) : Res :=
  .next (withRegs s [d, a] fun t => deviceAccess t (t.rd a) 8 false fun u e => issueLoad u d (u.rd a) 8 true scope e)

/-- STG.REL (R292). -/
def execStgRel (a b : Reg) (scope : BitVec 2) (s : State) : Res :=
  .next (withRegs s [a, b] fun t => deviceAccess t (t.rd a) 8 true fun u e => issueStore u (u.rd a) 8 (u.rd b) (some scope) e)

/-- PREF: the translation only; it never faults (R136, R113). -/
def execPref (a : Reg) (s : State) : Res :=
  .next (withRegs s [a] fun t =>
    match translate t t.cur.core (coreRoot t t.cur.core) (t.rd a) false false with
    | (.wait w, u) => stallOn u (.walk w)
    | (_, u) => advance u id)

/-- The word that LOCQ gives for a translated address (R277). -/
def locqWord (s : State) (core : Nat) (e : TcEntry) (va : Word) : Word :=
  let self := dieOf core
  let home := e.homeOf s va
  (1 : BitVec 1) ++ BitVec.ofBool e.host ++ e.place ++ BitVec.ofNat 2 e.size ++ BitVec.ofBool e.wr ++ BitVec.ofBool e.sa ++
    (0 : BitVec 37) ++ BitVec.ofNat 3 self ++ BitVec.ofBool (s.die home).removed ++ BitVec.ofNat 3 home ++
    BitVec.ofNat 2 (hops s self home) ++ (0 : BitVec 2) ++ (if e.host then 0 else BitVec.ofNat 8 (keyChannel (e.key va)))

/-- LOCQ (R277): translates as a load of one byte would, without a fault. -/
def execLocq (d a : Reg) (s : State) : Res :=
  .next (withRegs s [d, a] fun t =>
    let va := t.rd a
    match translate t t.cur.core (coreRoot t t.cur.core) va false false with
    | (.wait w, u) => stallOn u (.walk w)
    | (.fault _, u) => advance u fun k => k.wr d (BitVec.ofNat 64 (65536 * dieOf t.cur.core))
    | (.hit e, u) => advance u fun k => k.wr d (locqWord u t.cur.core e va))

/-! ### Fences and barriers (R286, R306) -/

/-- FENCE (R286): a release and an acquire at once. One FENCE of a sequencer is in progress at a time; a later one, and every later access, waits for
it. -/
def execFence (scope : BitVec 2) (s : State) : Res :=
  let c := s.cur.core
  let k := s.me
  .next (
    if k.acq.isSome || otherFence k then stallOn s .fence
    else
      let mine := (k.fence.map fun f => f.chan == k.bank).getD false
      let t := if mine then s else s.modMe fun k => { k with fence := some { chan := k.bank, iaddr := k.pc, scope := scope, done := false } }
      let u := fenceStep t c
      if (u.me.fence.map (·.done)).getD false then advance (raceRelease (u.modMe fun k => { k with fence := none }) c scope) id
      else stallOn u .fence)

/-- The waiter of the running handler on a square at its die (R306). -/
def myWaiter (s : State) : Option Waiter :=
  s.waiters.find? fun w => w.core == s.cur.core && w.chan == s.me.bank

/-- BARR (R306): the arrival is a release at DEVICE scope, which the memory path holds while the handler waits (R284); the wake-up is an acquire. A
refusal raises ILLEGAL with the operand that the arrival carried. -/
def execBarr (a : Reg) (s : State) : Res :=
  .next (withRegs s [a] fun t =>
    let v := t.rd a
    let c := t.cur.core
    match myWaiter t with
    | some w =>
      let gone := { t with waiters := dropFirst (fun x => x == w) t.waiters }
      if w.refused then preciseFault gone cILLEGAL 0 w.v
      else if w.woken then advance gone id
      else stallOn t .square
    | none =>
      if v.extractLsb' 32 32 ≠ 0 ∨ v.extractLsb' 8 8 ≠ 0 ∨ v.extractLsb' 16 16 = 0 then preciseFault t cILLEGAL 0 v
      else if t.me.acq.isSome then stallOn t .acquire
      else if otherFence t.me then stallOn t .fence
      else
        let sq := (v.extractLsb' 0 8).toNat
        let m : BarMsg := { op := 4, square := sq, die := dieOf c, core := c, chan := t.me.bank, n := (v.extractLsb' 16 16).toNat, ok := false,
                            after := t.nextId }
        let w : Waiter := { v := v, square := sq, die := dieOf c, core := c, chan := t.me.bank, woken := false, refused := false }
        let u := raceRelease { t with waiters := t.waiters ++ [w], barMsgs := t.barMsgs ++ [m] } c 2
        stallOn (sendArrivals u) .square)

/-! ### Branches and jumps (R127) -/

/-- A conditional branch: taken, it transfers control without the end-of-body test (R130). -/
def branch (s : State) (a b : Reg) (off : BitVec 16) (c : Word → Word → Bool) : Res :=
  .next (withRegs s [a, b] fun t =>
    t.modMe fun k => if c (k.rd a) (k.rd b) then k.jump (k.pc + 4 * sext16 off) else k.finish (k.pc + 4))

/-- BEQ. -/
def execBeq (a b : Reg) (off : BitVec 16) (s : State) : Res := branch s a b off fun x y => x == y
/-- BNE. -/
def execBne (a b : Reg) (off : BitVec 16) (s : State) : Res := branch s a b off fun x y => x != y
/-- BLT. -/
def execBlt (a b : Reg) (off : BitVec 16) (s : State) : Res := branch s a b off fun x y => x.slt y
/-- BGE. -/
def execBge (a b : Reg) (off : BitVec 16) (s : State) : Res := branch s a b off fun x y => !(x.slt y)
/-- BLTU. -/
def execBltu (a b : Reg) (off : BitVec 16) (s : State) : Res := branch s a b off fun x y => x.ult y
/-- BGEU. -/
def execBgeu (a b : Reg) (off : BitVec 16) (s : State) : Res := branch s a b off fun x y => !(x.ult y)

/-- JAL (R47). -/
def execJal (d : Reg) (off : BitVec 21) (s : State) : Res :=
  .next (withRegs s [d] fun t => t.modMe fun k => (k.wr d (k.pc + 4)).jump (k.pc + 4 * off.signExtend 64))

/-- JALR: a target that is no word address raises ALIGN with the target in TVAL (R38, R141). -/
def execJalr (d a : Reg) (imm : BitVec 16) (s : State) : Res :=
  .next (withRegs s [d, a] fun t =>
    let target := t.rd a + sext16 imm
    if target.extractLsb' 0 2 ≠ 0 then preciseFault t cALIGN 0 target
    else t.modMe fun k => (k.wr d (k.pc + 4)).jump target)

/-! ### Hardware loops (R129) -/

/-- Open a level, or skip the whole body when the count is 0. -/
def openLoop (s : State) (n : Nat) (c : W32) (last : Word) : State :=
  if c = 0 then
    match cachedWord s.me last with
    | none => stallOn s (.line last.toNat)
    | some w => s.modMe fun k => k.jump (last + (if w.extractLsb' 26 6 = 0x3F then 20 else 4))
  else
    s.modMe fun k =>
      (k.modHandler k.bank fun h =>
        { h.setLevel n { lc := c, ls := k.pc + 4, le := last } with order := n :: h.order.erase n }).finish (k.pc + 4)

/-- LOOP (R129): LOOPCOUNT for a count above 32 bits. -/
def execLoop (level : BitVec 2) (c : Reg) (last : BitVec 19) (s : State) : Res :=
  .next (withRegs s [c] fun t =>
    let v := t.rd c
    if v.extractLsb' 32 32 ≠ 0 then preciseFault t cLOOPCOUNT 0 v
    else openLoop t level.toNat (v.setWidth 32) (t.me.pc + 4 * last.setWidth 64))

/-- LOOPI (R129). -/
def execLoopi (level : BitVec 2) (count last : BitVec 12) (s : State) : Res :=
  .next (openLoop s level.toNat (count.setWidth 32) (s.me.pc + 4 * last.setWidth 64))

/-! ### Handler control (R115 to R117) -/

/-- DONE: every level is deactivated, the entry is IDLE (R115); in trap mode that is the trap context (log 16). -/
def execDone (s : State) : Res :=
  .next (
    s.modMe fun k =>
      boundary { k.modHandler k.bank (fun h =>
        { h with state := .idle, order := [], l0 := if h.order.contains 0 then { h.l0 with lc := 0 } else h.l0,
                 l1 := if h.order.contains 1 then { h.l1 with lc := 0 } else h.l1,
                 l2 := if h.order.contains 2 then { h.l2 with lc := 0 } else h.l2 }) with running := none })

/-- WAITH: SAVEDPC takes the address that the end-of-body test selects (R115, R130). -/
def execWaith (s : State) : Res :=
  .next (
    s.modMe fun k =>
      let (h, next) := bodyTest (k.handler k.bank) k.pc (k.pc + 4) (k.handler k.bank).order
      boundary { k.modHandler k.bank (fun _ => { h with state := .waiting, savedPc := next }) with running := none, pc := next })

/-- POST (R116). -/
def execPost (a b : Reg) (s : State) : Res :=
  .next (withRegs s [a, b] fun t =>
    let v := t.rd a
    let c := t.cur.core
    match t.plotOf c with
    | none => t
    | some q =>
      let row := (v.extractLsb' 8 4).toNat
      let col := (v.extractLsb' 4 4).toNat
      let ch := (v.extractLsb' 0 4).toNat
      let dst := q.coreIn row col
      if v.extractLsb' 12 52 ≠ 0 ∨ row ≥ q.h ∨ col ≥ q.w ∨ !((t.core dst).handler ch).valid ∨ q.drained.contains row then
        preciseFault t cILLEGAL 0 v
      else if inboxLoad t dst ch ≥ 4 then stallOn t (.inbox dst ch)
      else advance (sendWord t c dst ch 1 (corePos t c).toNat (t.rd b)) id)

/-- HMASK and HUNMASK (R117). -/
def setMasks (s : State) (a : Reg) (m : Bool) : Res :=
  .next (withRegs s [a] fun t =>
    let v := t.rd a
    advance t fun k =>
      (List.range 16).foldl (fun k c => if v.getLsbD c then k.modHandler c fun h => { h with mask := m } else k) k)

/-- HMASK. -/
def execHmask (a : Reg) (s : State) : Res := setMasks s a true
/-- HUNMASK. -/
def execHunmask (a : Reg) (s : State) : Res := setMasks s a false

/-! ### Hints and decisions (R134, R135, R427) -/

/-- PHINT writes its kind into the core's field of HINTS (R427). -/
def phint (s : State) (kind : BitVec 2) : Res :=
  let c := s.cur.core
  let sh := 2 * inCluster c
  .next (advance (s.modCluster (clusterOf c) fun k =>
    { k with hints := (k.hints &&& ~~~(3#16 <<< sh)) ||| (kind.setWidth 16 <<< sh) }) id)

/-- PHINT.COMP. -/
def execPhintComp (s : State) : Res := phint s 0
/-- PHINT.MEM. -/
def execPhintMem (s : State) : Res := phint s 1
/-- PHINT.WAIT. -/
def execPhintWait (s : State) : Res := phint s 2

/-- A decision (R135, R205): checks in order, then the decision token leaves. TVAL is the word, or the value when its bits
63:2 are not zero (R52, R141). -/
def chooseBay (s : State) (bay word : Word) : State :=
  match s.plotOf s.cur.core with
  | none => s
  | some q =>
    if q.lead ≠ s.cur.core then preciseFault s cILLEGAL 0 word
    else if bay.extractLsb' 2 62 ≠ 0 then preciseFault s cILLEGAL 0 bay
    else if !q.bays.getLsbD bay.toNat then preciseFault s cILLEGAL 0 word
    else if q.decision.isSome then stallOn s .decide
    else advance (s.modPlot q.id fun p => { p with decision := some bay.toNat, bound := begunWid s q }) id

/-- DECIDE b. -/
def execDecideImm (bay : BitVec 2) (s : State) : Res := .next (chooseBay s (bay.setWidth 64) (0x94000100 ||| bay.setWidth 64))

/-- DECIDE xa. -/
def execDecideReg (a : Reg) (s : State) : Res :=
  .next (withRegs s [a] fun t => chooseBay t (t.rd a) (0x94000104 ||| (a.setWidth 64 <<< 16)))

/-! ### System instructions (R137 to R139) -/

/-- TRAP (R137): taken after the end-of-body test; in trap mode it hands the trap to the host (R415). -/
def execTrap (code : BitVec 8) (s : State) : Res :=
  let c := s.cur.core
  let k := s.me
  let (h, next) := bodyTest (k.handler k.bank) k.pc (k.pc + 4) (k.handler k.bank).order
  .next (
    if k.trap.on then
      let s1 := s.modMe fun k => boundary { k.modHandler k.bank (fun _ => h) with pc := next, trap := { k.trap with hosted := true } }
      match s1.plotOf c with
      | none => s1
      | some q => hostwaitSeq s1 q c (some code) 0
    else enterTrap (s.modMe fun k => { k.modHandler k.bank (fun _ => h) with pc := next }) c (causeOf 0 code.toNat) k.pc 0 next true false)

/-- A register stays pending only while a command, a replay entry or a load still owes it a value: the target of a load that
returned MEMUNCORR is pending until the context resumes (R125). -/
def clearOrphans (s : State) (core : Nat) : State :=
  s.modCore core fun k =>
    { k with pend := k.pend.filter fun e =>
        (k.cmds.any fun c => c.xt != 0 && physReg c.chan c.xt == e.1) ||
          ((k.replay ++ k.reinj).any fun r => r.xt != 0 && physReg r.chan r.xt == e.1) ||
          s.accs.any fun a => match a.dest with | .reg c p _ => c == core && p == e.1 | _ => false }

/-- TRET (R138, R414): outside trap mode ILLEGAL; a resume address that is no word address ends the plot with ALIGN (R415). -/
def execTret (s : State) : Res :=
  let k := s.me
  let tf := ((s.plotOf s.cur.core).map (·.tfaddr)).getD 0
  let frame := mread k.lmem tf 576
  .next (
    if !k.trap.on then preciseFault s cILLEGAL 0 0xC0000100
    else if leAt frame 5 1 / 2 % 2 = 0 ∧ leAt frame 24 8 % 4 ≠ 0 then preciseFault s cALIGN 0 (leBv 64 (slice frame 24 8))
    else clearOrphans (s.modMe fun k => boundary (leaveTrap k tf)) s.cur.core)

/-- EBRK (R139): completes, then stops an armed sequencer. -/
def execEbrk (s : State) : Res :=
  .next (advance s id |>.modMe fun k => if k.arm then { k with stopped := true } else k)

end Sys2Proof.Machine
end

