-- ==== Sys2Proof/Machine/Handlers.lean ====
section
/-!
DEFINITION. Events of the handler mechanism: dispatch (R111, R112), arrival of control words (R109), completion of commands
(R57) and the return of load data (R124, R125).
-/

namespace Sys2Proof.Machine

/-- Commands that a matrix operator or key engine holds beside the one in progress (R315, R352). -/
abbrev queueDepth : Nat := 8

/-- Commands that the key engine holds beside the one in progress. -/
def keyLoad (k : Core) : Nat := k.key.queue.length - (if k.key.started then 1 else 0)

/-- Whether a copy engine has room: 16 commands beside the one in progress (R358). -/
def copyRoom (s : State) (e : Nat) : Bool := Nat.blt ((s.engine e).queue.length - (if (s.engine e).running then 1 else 0)) 16

/-- Whether a yielding stall has cleared (R111, R113). -/
def stallCleared (s : State) (core chan : Nat) : Bool :=
  let k := s.core core
  match (k.handler chan).stall with
  | none => true
  | some (.reg phys) => !tget false k.pend phys
  | some (.walk id) => s.walks.all fun w => w.id != id || w.fault.isSome
  | some (.line va) => k.icache.any fun e => e.1 == va / 64
  | some (.fetchFault _ _ _) => true
  | some .slots => k.cmds.length + k.replay.length + k.reinj.length < 16
  | some (.port p) => (s.port core p).state == .idle
  | some (.matrix c) => (s.core c).mat.queue.length < queueDepth
  | some .key => keyLoad k < queueDepth
  | some (.copy es) => es.any (copyRoom s)
  | some (.localBytes a n) => !heldLocal k a n
  | some (.inbox c ch) => inboxLoad s c ch < 4
  | some .decide => ((s.plotOf core).map fun q => q.decision.isNone).getD true
  | some .acquire => k.acq.isNone
  | some .fence => k.acq.isNone && (k.fence.map fun f => f.done || (f.chan == chan && k.probes.isEmpty)).getD true
  | some .square => s.waiters.all fun w => w.core != core || w.chan != chan || w.woken || w.refused

/-- Whether an entry is runnable (R111). -/
def runnable (s : State) (core chan : Nat) : Bool :=
  let h := (s.core core).handler chan
  h.valid &&
    match h.state with
    | .idle => !h.inbox.isEmpty
    | .waiting => !h.inbox.isEmpty || h.wake
    | .stalled => stallCleared s core chan
    | .running => false

/-- During a single step of a debug session a stopped handler that stalls keeps the sequencer: no other one is selected (R140). -/
def stepKeeps (k : Core) (c : Nat) : Bool := k.stepping && (k.handler k.last).state == .stalled && c != k.last

/-- The channels that are runnable and not masked. -/
def eligible (s : State) (core : Nat) : List Nat :=
  below 16 fun c => runnable s core c && !((s.core core).handler c).mask && !stepKeeps (s.core core) c

/-- The selection of R111: highest PRIO, then the first channel after `last`. -/
def selectNext (s : State) (core : Nat) : Option Nat :=
  let k := s.core core
  let e := eligible s core
  let top := e.foldl (fun m c => max m (k.handler c).prio.toNat) 0
  ((List.range 16).map fun i => (k.last + 1 + i) % 16).find? fun c => e.contains c && (k.handler c).prio.toNat == top

/-- A fetch fault stays with the entry until its handler takes it (R106). -/
def keptStall : Option Stall → Option Stall
  | some (.fetchFault c m v) => some (.fetchFault c m v)
  | _ => none

/-- A stalled context continues at its instruction. -/
def resumeStalled (k : Core) (c : Nat) : Core :=
  { k.modHandler c (fun h => { h with state := .running, stall := keptStall h.stall }) with running := some c, pc := (k.handler c).savedPc }

/-- Dispatch of an entry (R112). -/
def dispatchEntry (k : Core) (c : Nat) : Core :=
  let h := k.handler c
  if h.state = .stalled then
    { (resumeStalled k c).modHandler c (fun h => { h with wake := false }) with last := c, chan := BitVec.ofNat 4 c }
  else
    let k1 := { k with running := some c }
    let k2 := match h.inbox with
      | [] => k1.wr 30 0
      | w :: _ => (k1.wr 31 w.1).wr 30 (w.2.setWidth 64)
    { k2.modHandler c (fun h => { h with inbox := h.inbox.drop 1, wake := false, state := .running }) with
      pc := if h.state = .idle then h.entry else h.savedPc, last := c, chan := BitVec.ofNat 4 c }

/-- Whether the sequencer of a core is free to select (R112, R140, R411); after a restore, once every sequencer of the plot has
re-injected its entries (R408). -/
def freeToSelect (s : State) (core : Nat) : Bool :=
  let k := s.core core
  k.running.isNone && !k.stopped && k.held.isEmpty && k.reinj.isEmpty &&
    ((s.plotOf core).map fun q => (q.state == .armed || q.state == .hostwait || q.state == .saving) &&
      (q.image407.isEmpty || (heldCores s q).all fun c => (s.core c).reinj.isEmpty)).getD false

/-- The re-injection of a restored context is over: its saved cores are no longer needed (R408). -/
def restoreOver (s : State) (core : Nat) : State :=
  match s.plotOf core with
  | some q => if q.image407.isEmpty then s else s.modPlot q.id fun p => { p with image407 := [] }
  | none => s

/-- HANDLER_DISPATCH. In trap mode only the trap context continues; a stalled handler that no other entry displaces keeps the
sequencer and no switch takes place (R113). -/
def execHandlerDispatch (core : Nat) (s : State) : Res :=
  let k := s.core core
  .next (
    if k.trap.on then
      if k.running.isNone && !k.stopped && k.trap.routine && !k.trap.hosted && (k.handler 16).state == .stalled && stallCleared s core 16 then
        s.modCore core fun k => resumeStalled k 16
      else s
    else if !freeToSelect s core then s
    else
      match selectNext s core with
      | none => s
      | some c =>
        let t := restoreOver s core
        if c = k.last ∧ (k.handler c).state = .stalled ∧ eligible s core = [c] then t.modCore core fun k => resumeStalled k c
        else t.modCore core fun k => dispatchEntry k c)

/-- The numbers from which the words of saved plots carry their core, and POST words among them their sender, by plot and index: number + 100 * plot +
index. -/
abbrev parkedAt : Nat := 1000
/-- See `parkedAt`. -/
abbrev parkedFrom : Nat := 1000000000000

/-- The sender of a control word: a sequencer, the control network, which carries the words of ports and plots, or a walker (R109). -/
def wordSender (src : Nat) : Nat := if 1000000 ≤ src ∧ src < 3000000 then 1000000 else src

/-- Whether the inbox has a slot for a word: a POST has had its slot since it was sent (R116), any other word takes one that no POST on its way
has. -/
def inboxRoom (s : State) (w : CtlWord) : Bool :=
  Nat.blt (if w.src < Config.cores then ((s.core w.core).handler w.chan).inbox.length else inboxLoad s w.core w.chan) 4

/-- CONTROL_WORD_ARRIVAL (R109): a word bound for a full inbox is held, and so is every later word of its sender to that
channel; one bound for an invalid entry is discarded; one bound for a saved plot stays with the plot. -/
def execControlWordArrival (idx : Nat) (s : State) : Res :=
  .next (
    match s.flight[idx]? with
    | none => s
    | some w =>
      let rest := s.flight.take idx ++ s.flight.drop (idx + 1)
      if (parkedAt ≤ w.core) || (s.flight.take idx).any fun x => wordSender x.src == wordSender w.src && x.core == w.core && x.chan == w.chan then s
      else if !((s.core w.core).handler w.chan).valid then { s with flight := rest }
      else if !inboxRoom s w then s
      else ({ s with flight := rest }).modCore w.core fun k =>
        k.modHandler w.chan fun h => { h with inbox := h.inbox ++ [(w.word, w.origin)] })

/-- COMMAND_COMPLETION (R57): the status word, the pending mark, WAKE. -/
def execCommandCompletion (core id : Nat) (s : State) : Res :=
  .next (
    match (s.core core).cmd id with
    | none => s
    | some c =>
      if c.phase ≠ .complete then s
      else s.modCore core fun k =>
        { writeStatus k c.chan c.xt (statusWord c.cmd c.code c.result) with
          cmds := k.cmds.filter fun x => x.id != id, acq := if c.acc ≠ 0 ∧ k.acq = some c.acc then none else k.acq })

/-- LDG_DATA_RETURN (R124): xd receives the data and its mark clears; an uncorrectable error is held as a trap and xd stays
pending (R125); so is the loss of the answer (R273). -/
def execLdgDataReturn (acc : Nat) (s : State) : Res :=
  .next (
    match s.accs.find? fun a => a.id == acc with
    | none => s
    | some a =>
      match a.dest with
      | .reg core phys iaddr =>
        if a.phase ≠ .returned then s
        else
          let s1 := ({ s with accs := s.accs.filter fun x => x.id != acc }).modCore core fun k =>
            { k with acq := if k.acq = some acc then none else k.acq }
          if a.code ≠ 0 then holdFault s1 core { code := a.code, detail := 0, tepc := iaddr, tval := a.va, engine := false }
          else s1.modCore core fun k =>
            if phys = 0 then k
            else { k with regs := tset 0 k.regs phys (leBv 64 a.value), pend := tset false k.pend phys false }
      | _ => s)

/-- INSTRUCTION_CACHE_FILL (R106): the line that a stalled context waits for crosses from its home and enters the cache, or its fetch faults. The cache
holds 256 lines; the one that leaves is free (log 7). -/
def execInstructionCacheFill (core : Nat) (s : State) : Res :=
  let k := s.core core
  let want := (List.range 17).findSome? fun c =>
    match (k.handler c).stall with
    | some (.line va) => if k.icache.any fun e => e.1 == va / 64 then none else some (c, va)
    | _ => none
  .next (
    match want with
    | none => s
    | some (c, va) =>
      let a := BitVec.ofNat 64 va
      let fail := fun (t : State) (code : Byte) (malformed : Bool) =>
        t.modCore core fun k => k.modHandler c fun h => { h with stall := some (.fetchFault code malformed va) }
      match translate s core (coreRoot s core) a false true with
      | (.wait _, t) => t
      | (.fault f, t) => fail t f.1 f.2
      | (.hit e, t) =>
        let base := a - BitVec.ofNat 64 (va % 64)
        let home := e.homeOf t base
        if (t.die home).removed then fail t cCAUSALGAP false
        else
          match crossRead t (dieOf core) home 64 with
          | none => t
          | some t =>
            let (bs, code) := homeRead t e.host (e.key base) 64
            if code ≠ 0 then fail t code false
            else
              let kept := if k.icache.length < 256 then k.icache
                else k.icache.eraseIdx (Config.icacheVictim t.fresh % 256)
              ({ t with fresh := t.fresh + 1 }).modCore core fun k => { k with icache := (va / 64, leBv 512 bs) :: kept })

end Sys2Proof.Machine
end

