-- ==== Sys2Proof/Machine/Flags.lean ====
section
/-!
DEFINITION. Saturation and its flags (R92, R156): what replaces a result beyond the range of its destination, and whether the
case is flagged on an overflow target.
-/

namespace Sys2Proof.Machine

/-- A result and whether R92 flags it. -/
structure Flagged where
  code : Nat
  flag : Bool
  deriving DecidableEq, Repr

/-- An integer clamped to a range. -/
def clampInt (lo hi v : Int) : Int := if v < lo then lo else if v > hi then hi else v

/-- Wrap or saturate a signed result at `w` bits (R156). -/
def narrow (w : Nat) (sat : Bool) (v : Int) : Nat :=
  let r := if sat then clampInt (-(2 ^ (w - 1) : Nat)) ((2 ^ (w - 1) : Nat) - 1) v else v
  (BitVec.ofInt w r).toNat

/-- A value converted to a float format (R92): the largest finite value replaces an overflow, and the case is flagged.
`rs` gives the random word of stochastic rounding. -/
def toFloat (f : Fmt) (rs : Option Nat) : Fv → Flagged
  | .nan => if f = e2m1 then { code := 0, flag := true } else { code := f.nanCode, flag := false }
  | .inf neg =>
    if f = e4m3 ∨ f = e2m1 then { code := f.sign neg f.maxCode, flag := true }
    else { code := f.sign neg (f.maxCode + 1), flag := false }
  | .num neg m e =>
    let c := match rs with
      | none => f.rnCode m e
      | some r => f.rsCode m e r
    if c > f.maxCode then { code := f.sign neg f.maxCode, flag := true } else { code := f.sign neg c, flag := false }

/-- An integer clamped to a destination of `w` bits, flagged when it was outside (R92). -/
def clampFlag (w : Nat) (lo hi v : Int) : Flagged :=
  { code := (BitVec.ofInt w (clampInt lo hi v)).toNat, flag := v < lo || v > hi }

/-- A rational magnitude with a sign rounded to an integer (R88, R89). -/
def roundInt (neg : Bool) (n d : Nat) (rs : Option Nat) : Int :=
  let q : Int := match rs with
    | none => rneDiv n d
    | some r => rsDiv n d r
  if neg then -q else q

/-- A value converted to an integer range (R92): NaN gives `nanTo`, flagged; an infinity clamps, flagged. -/
def toInt (w : Nat) (lo hi nanTo : Int) (rs : Option Nat) : Fv → Flagged
  | .nan => { code := (BitVec.ofInt w (clampInt lo hi nanTo)).toNat, flag := true }
  | .inf neg => { code := (BitVec.ofInt w (if neg then lo else hi)).toNat, flag := true }
  | .num neg m e => let (n, d) := ratOf m e; clampFlag w lo hi (roundInt neg n d rs)

end Sys2Proof.Machine
end

