-- ==== Sys2Proof/Machine/Scratch.lean ====
section
/-!
DEFINITION. The scratchpad: the symbol code of its cells (R233 to R235), tiles and their storage (R209 to R211), owner bits and
ring regions (R213, R214), and reads and writes of tile bytes.
-/

namespace Sys2Proof.Machine

/-! ### The symbol code (R233 to R235) -/

/-- Product in GF(2^8) over x^8 + x^4 + x^3 + x^2 + 1, eight steps of shift and add. -/
def gmulFrom : Nat → Nat → Nat → Nat → Nat
  | 0, _, _, acc => acc
  | n + 1, a, b, acc =>
    let acc := if b % 2 = 1 then acc ^^^ a else acc
    let a2 := 2 * a
    gmulFrom n (if a2 ≥ 256 then a2 ^^^ 0x11D else a2) (b / 2) acc

/-- Product in GF(2^8). -/
abbrev gmul (a b : Nat) : Nat := gmulFrom 8 a b 0

/-- α^i. -/
def alphaPow : Nat → Nat
  | 0 => 1
  | n + 1 => gmul 2 (alphaPow n)

/-- S0 of an error pattern of 18 symbols. -/
def synd0 (e : List Nat) : Nat := e.foldl (· ^^^ ·) 0

/-- S1 of an error pattern. -/
def synd1 (e : List Nat) : Nat := e.zipIdx.foldl (fun a x => a ^^^ gmul x.1 (alphaPow x.2)) 0

/-- Key of a symbol of the error pattern. -/
abbrev flipKey (m row pos : Nat) : Nat := (32768 * m + row) * 18 + pos

/-- The error pattern of a row: how each stored symbol differs from the codeword that was written. -/
def rowErrors (k : Scratch) (m row : Nat) : List Nat := (List.range 18).map fun p => (tget (0 : Byte) k.flips (flipKey m row p)).toNat

/-- Replace the error pattern of a row. -/
def setErrors (k : Scratch) (m row : Nat) (e : List Nat) : Scratch :=
  { k with flips := e.zipIdx.foldl (fun t x => tset (0 : Byte) t (flipKey m row x.2) (BitVec.ofNat 8 x.1)) k.flips }

/-- Failed banks of a cell. -/
abbrev failedOf (k : Scratch) (m : Nat) : List Nat := (k.failed.filter fun x => x.1 == m).map (·.2)

/-- What the decoder makes of a row (R234, R235): the pattern left, the position corrected, or `none` when uncorrectable. -/
def decodeRow (k : Scratch) (m row : Nat) : Option (List Nat × Option Nat) :=
  let e := rowErrors k m row
  match failedOf k m with
  | [] =>
    let s0 := synd0 e
    let s1 := synd1 e
    if s0 = 0 ∧ s1 = 0 then some (e, none)
    else if s0 = 0 ∨ s1 = 0 then none
    else
      match (List.range 18).find? fun j => gmul s0 (alphaPow j) == s1 with
      | none => none
      | some j => some (e.set j (e.getD j 0 ^^^ s0), some j)
  | [f] =>
    let e0 := e.set f 0
    let e1 := e0.set f (synd0 e0)
    if synd1 e1 = 0 then some (e1, none) else none
  | _ => none

/-- Declare a bank failed, with its log record (R235, R438 kind 1). -/
def declareBank (s : State) (core m bank : Nat) (byFirmware : Bool) : State :=
  if (s.core core).scratch.failed.contains (m, bank) then s
  else
    let s1 := s.modCore core fun k => { k with scratch := { k.scratch with failed := k.scratch.failed ++ [(m, bank)] } }
    logRecord s1 1 (dieOf core) bank (natLe 2 (core % 80) ++ [BitVec.ofNat 8 m, if byFirmware then 1 else 0])

/-- Count a corrected error of a bank; the 16th declares it failed (R234, R235). -/
def countError (s : State) (core m bank : Nat) : State :=
  let n := tget 0 (s.core core).scratch.errs (18 * m + bank) + 1
  let s1 := (s.count (dieOf core) 15 1).modCore core fun k => { k with scratch := { k.scratch with errs := tset 0 k.scratch.errs (18 * m + bank) n } }
  if n ≥ 16 then declareBank s1 core m bank false else s1

/-- The bank of a codeword position: data bank b stands at b + 2, check bank j (16 + j) at j. -/
abbrev bankOf (pos : Nat) : Nat := if pos < 2 then 16 + pos else pos - 2

/-- Codeword position of a bank. -/
abbrev posOfBank (bank : Nat) : Nat := if bank < 16 then bank + 2 else bank - 16

/-- Whether a cell has neither errors nor failed banks. -/
def cellClean (k : Scratch) (m : Nat) : Bool :=
  (failedOf k m).isEmpty && k.flips.all fun e => !(flipKey m 0 0 ≤ e.1 && e.1 < flipKey (m + 1) 0 0)

/-- Read one row: the state after a correction, and its 16 bytes or none when uncorrectable. `failed` is by position. -/
def readRow (s : State) (core m row : Nat) : State × Option (List Byte) :=
  let k := (s.core core).scratch
  let stored := mread k.bytes (Config.cellBytes * m + 16 * row) 16
  match decodeRow { k with failed := k.failed.map fun x => (x.1, posOfBank x.2) } m row with
  | none => (s, none)
  | some (e, fixed) =>
    let bytes := stored.zipIdx.map fun x => x.1 ^^^ BitVec.ofNat 8 (e.getD (x.2 + 2) 0)
    match fixed with
    | none => (s, some bytes)
    | some j => (countError (s.modCore core fun c => { c with scratch := setErrors c.scratch m row e }) core m (bankOf j), some bytes)

/-- Read rows of a cell: the bytes of each. -/
def readRows (s : State) (core m : Nat) : List Nat → State × Option (List (List Byte))
  | [] => (s, some [])
  | r :: rs =>
    match readRow s core m r with
    | (t, none) => (t, none)
    | (t, some b) =>
      match readRows t core m rs with
      | (u, none) => (u, none)
      | (u, some bs) => (u, some (b :: bs))

/-- Read bytes of a memory cell (R234, R235). -/
def cellRead (s : State) (core m a n : Nat) : State × Option (List Byte) :=
  if n = 0 then (s, some [])
  else if cellClean (s.core core).scratch m then (s, some (mread (s.core core).scratch.bytes (Config.cellBytes * m + a) n))
  else
    match readRows s core m ((List.range ((a + n - 1) / 16 + 1 - a / 16)).map fun i => a / 16 + i) with
    | (t, none) => (t, none)
    | (t, some bs) => (t, some (slice bs.flatten (a % 16) n))

/-- Write bytes of a memory cell: whole rows are encoded afresh; a row written in part is read first, and what was read is encoded with the new
bytes (R233). -/
def cellWrite (s : State) (core m a : Nat) (bs : List Byte) : State × Bool :=
  let n := bs.length
  let put := fun (t : State) (o : Nat) (v : List Byte) => t.modCore core fun c =>
    { c with scratch := { c.scratch with bytes := mwrite c.scratch.bytes (Config.cellBytes * m + o) v } }
  if n = 0 ∨ cellClean (s.core core).scratch m then (put s a bs, true)
  else if (failedOf (s.core core).scratch m).length ≥ 2 then (s, false)
  else
    let rows := (List.range ((a + n - 1) / 16 + 1 - a / 16)).map fun i => a / 16 + i
    let part := rows.filter fun r => !(a ≤ 16 * r && 16 * r + 16 ≤ a + n)
    match readRows s core m part with
    | (t, none) => (t, false)
    | (t, some old) =>
      let u := (part.zip old).foldl (fun u x => put u (16 * x.1) x.2) t
      (put (rows.foldl (fun u r => u.modCore core fun c => { c with scratch := setErrors c.scratch m r (List.replicate 18 0) }) u) a bs, true)

/-! ### Tiles (R209 to R211) -/

/-- The table that holds the PLOT tiles of a plot: that of its lead core, while the plot still holds it (R201). -/
def plotTable (s : State) (q : Plot) : Tbl Tile := if (s.core q.lead).plot == some q.id then (s.core q.lead).tiles else []

/-- The core whose table holds a handle: a PLOT tile occupies the same handle of every core, held once in the lead core's
table. -/
def tileHome (s : State) (core h : Nat) : Nat :=
  match s.plotOf core with
  | none => core
  | some q =>
    let e := tget Tile.init (plotTable s q) h
    if e.valid && e.level == 2 then q.lead else core

/-- The tile that a handle names at a core. -/
abbrev getTile (s : State) (core h : Nat) : Tile := tget Tile.init (s.core (tileHome s core h)).tiles h

/-- Change a tile. -/
def modTile (s : State) (core h : Nat) (f : Tile → Tile) : State :=
  s.modCore (tileHome s core h) fun k => { k with tiles := tmod Tile.init k.tiles h f }

/-- Bytes of a tile. -/
abbrev Tile.size (t : Tile) : Nat := t.rows * t.rowb

/-- Free slots of a ring. -/
abbrev Tile.free (t : Tile) : Nat := t.rows - t.fill

/-- The memory cells of a stripe set, as (core, m) (R210). -/
def stripeSet (s : State) (core : Nat) (level cellm : BitVec 2) : List (Nat × Nat) :=
  if level == 0 then [(core, cellm.toNat)]
  else if level == 1 then (List.range 4).map fun m => (core, m)
  else
    match s.plotOf core with
    | none => []
    | some q => (heldCores s q).flatMap fun c => (List.range 4).map fun m => (c, m)

/-- 4 KiB units that a tile takes in each cell of its set (R211). -/
def tileUnits (size t : Nat) : Nat := cdiv (cdiv size (256 * t) * 256) 4096

/-- The unit ranges that tiles take in a memory cell: those of its core's own table, and PLOT tiles of the lead core. -/
def usedUnits (s : State) (core m : Nat) : List (Nat × Nat) :=
  let own := (s.core core).tiles.filterMap fun e =>
    let t := e.2
    if !t.valid || t.level == 2 || (t.level == 0 && t.cellm.toNat != m) then none
    else some (t.base, tileUnits t.size (if t.level == 0 then 1 else 4))
  match s.plotOf core with
  | none => own
  | some q =>
    own ++ (plotTable s q).filterMap fun e =>
      if e.2.valid && e.2.level == 2 then some (e.2.base, tileUnits e.2.size (4 * (heldCores s q).length)) else none

/-- The lowest base at which `n` units are free in every cell of a set (R211). -/
def findBase (s : State) (cells : List (Nat × Nat)) (n : Nat) : Option Nat :=
  let used := cells.flatMap fun c => usedUnits s c.1 c.2
  (List.range 129).find? fun b => b + n ≤ 128 && used.all fun u => b + n ≤ u.1 || u.1 + u.2 ≤ b

/-- Where byte `o` of a tile stands: core, memory cell and byte (R210). -/
def tileByte (s : State) (core h : Nat) (t : Tile) (o : Nat) : Nat × Nat × Nat :=
  let cells := stripeSet s (tileHome s core h) t.level t.cellm
  let g := o / 256
  let n := max cells.length 1
  let c := cells.getD (g % n) (core, 0)
  (c.1, c.2, t.base * 4096 + g / n * 256 + o % 256)

/-- Zero every byte of a tile, in every cell (R211); its sectors name no writer (R309). -/
def zeroTile (s : State) (core h : Nat) (t : Tile) : State :=
  let cells := stripeSet s (tileHome s core h) t.level t.cellm
  let n := 4096 * tileUnits t.size (max cells.length 1)
  cells.foldl (fun u c =>
    let a := Config.cellBytes * c.2 + 4096 * t.base
    let k0 := shadowScratch c.1 a
    let u1 := u.modCore c.1 fun k =>
      { k with scratch := { k.scratch with
        bytes := mzero k.scratch.bytes a n
        flips := k.scratch.flips.filter fun e => !(flipKey c.2 (256 * t.base) 0 ≤ e.1 && e.1 < flipKey c.2 (256 * t.base + n / 16) 0) } }
    { u1 with shadow := u1.shadow.filter fun e => !(k0 ≤ e.1 && e.1 < k0 + n / 32) }) s

/-- Read `n` bytes of a tile from offset `o`: none when uncorrectable. -/
def tileReadFrom (s : State) (core h : Nat) (t : Tile) : List (Nat × Nat) → State × Option (List Byte)
  | [] => (s, some [])
  | p :: ps =>
    let (c, m, a) := tileByte s core h t p.1
    match cellRead s c m a p.2 with
    | (u, none) => (u, none)
    | (u, some b) =>
      match tileReadFrom u core h t ps with
      | (v, none) => (v, none)
      | (v, some bs) => (v, some (b ++ bs))

/-- Read bytes of a tile. -/
abbrev tileRead (s : State) (core h o n : Nat) : State × Option (List Byte) :=
  tileReadFrom s core h (getTile s core h) (cut256 o n (n / 256 + 2))

/-- Write bytes of a tile from offset `o`; false when a partly written row is uncorrectable. -/
def tileWrite (s : State) (core h o : Nat) (bs : List Byte) : State × Bool :=
  let t := getTile s core h
  (cut256 o bs.length (bs.length / 256 + 2)).foldl (fun r p =>
    let (c, m, a) := tileByte r.1 core h t p.1
    let (u, ok) := cellWrite r.1 c m a (slice bs (p.1 - o) p.2)
    (u, r.2 && ok)) (s, true)

/-! ### Who may access a tile (R213, R214) -/

/-- The slots of a ring that a span touches lie in a region of `n` slots from `p` up. -/
def inRegion (t : Tile) (p n o len : Nat) : Bool :=
  (List.range ((o + len - 1) / t.rowb + 1 - o / t.rowb)).all fun i => ((o / t.rowb + i) + t.rows - p) % t.rows < n

/-- Whether R213 or R214 lets an access of one side at a span pass: `engine` tells the side, `produce` a ring's producer. -/
def mayAccess (t : Tile) (engine produce : Bool) (o len : Nat) : Bool :=
  if t.ring then (if produce then inRegion t t.wp t.free o len else inRegion t t.rp t.fill o len)
  else if engine then t.owner else !t.owner && t.holders == 0

/-- The checks of a sequencer-side access in their order (R218): PERMISSION for the range, ALIGN, OWNER. R228 gives no order for a port; the model takes
that of R218 (DESIGN CHOICE, log 100). -/
def tileCheck (t : Tile) (o len align : Nat) (produce : Bool) : Option Byte :=
  if !t.valid || o + len > t.size then some cPERMISSION
  else if o % align ≠ 0 then some cALIGN
  else if !mayAccess t false produce o len then some cOWNER
  else none

/-! ### The race detector on scratchpad sectors (R309, R311) -/

/-- WHERE of a scratchpad record (R312). -/
def scratchWhere (s : State) (core h o : Nat) : Word :=
  0x8000000000000000 ||| BitVec.ofNat 64 (h % 64 * 65536 + ((s.plotOf core).map fun q => q.index core).getD 0 * 4194304 + o / 32 % 65536)

/-- Check and mark the sectors of a tile access of a node or port. -/
def raceTile (s : State) (agent : Agent) (core h o len : Nat) (write : Bool) : State :=
  let t := getTile s core h
  (sectorsOf o len).foldl (fun u k =>
    let (c, m, a) := tileByte u core h t k
    let key := shadowScratch c (Config.cellBytes * m + a)
    let u1 := match raceCheck u key (some core) with
      | none => u
      | some x => raceReport u agent 0 (BitVec.ofNat 64 o) (scratchWhere u core h k) write x
    if write then raceMark u1 key (some core) ((u1.core core).race.int.setWidth 16) else u1) s

/-- An engine's write leaves no writer in the shadow (R311, log 17). -/
def unmarkTile (s : State) (core h o len : Nat) : State :=
  let t := getTile s core h
  (sectorsOf o len).foldl (fun u k =>
    let (c, m, a) := tileByte u core h t k
    { u with shadow := tdel u.shadow (shadowScratch c (Config.cellBytes * m + a)) }) s

/-! ### Holders (R213) -/

/-- An engine command takes a tile: rings are ordered by their slots instead. -/
def holdTile (s : State) (core h : Nat) : State :=
  modTile s core h fun t => if t.ring then t else { t with holders := t.holders + 1 }

/-- A completing command lets go of a tile; the last holder returns it to the sequencer side, which counts as a PLOT release of
the issuing core (R310). -/
def releaseTile (s : State) (core h : Nat) : State :=
  let t := getTile s core h
  if t.ring || t.holders == 0 then s
  else
    let s1 := modTile s core h fun t => { t with holders := t.holders - 1, owner := if t.holders ≤ 1 then false else t.owner }
    if t.holders ≤ 1 then raceRelease s1 core 1 else s1

/-- A tile that a command holds is the engine side's (R213); a ring always is accessible. -/
def tileReady (s : State) (core h : Nat) : Bool := (getTile s core h).ring || (getTile s core h).owner

/-- ADVP and ADVC of a ring (R214). -/
def advanceP (t : Tile) (n : Nat) : Tile := { t with wp := (t.wp + n) % t.rows, fill := t.fill + n }

/-- Release consumed slots. -/
def advanceC (t : Tile) (n : Nat) : Tile := { t with rp := (t.rp + n) % t.rows, fill := t.fill - n }

end Sys2Proof.Machine
end

