-- ==== Sys2Proof/Machine/Operands.lean ====
section
/-!
DEFINITION. The operands of a fabric node: its word, the heads of its arcs (R165, R166), its targets (R64, R184, R206), the
firing, the in-step rule for markers (R168), and the invocation that a node works on (R90, R169).
-/

namespace Sys2Proof.Machine

/-! ### Words and arcs -/

/-- DATA, EOI, BAR (R163). -/
abbrev kDATA : BitVec 2 := 0
/-- EOI. -/
abbrev kEOI : BitVec 2 := 1
/-- BAR. -/
abbrev kBAR : BitVec 2 := 2

/-- Sixteen lanes of zero. -/
abbrev zeroLanes : List W32 := List.replicate 16 0

/-- A DATA token from a mask and lanes; inactive lanes hold 0 (R163). -/
def dataTok (mask : BitVec 16) (lane : Nat → W32) : Token :=
  { kind := kDATA, mask := mask, lanes := (List.range 16).map fun i => if mask.getLsbD i then lane i else 0 }

/-- Lane `i` of a token. -/
abbrev Token.lane (t : Token) (i : Nat) : W32 := t.lanes.getD i 0

/-- An EOI of a work identifier (R163, R164). -/
def eoiTok (wid : Word) (close : Nat) : Token :=
  { kind := kEOI, mask := 7, lanes := [wid.setWidth 32, wid.extractLsb' 32 32, BitVec.ofNat 32 close] ++ List.replicate 13 0 }

/-- A BAR token. -/
def barTok : Token := { kind := kBAR, mask := 0, lanes := zeroLanes }

/-- The work identifier of an EOI. -/
def Token.wid (t : Token) : Word := t.lane 1 ++ t.lane 0

/-- CLOSE of an EOI. -/
def Token.close (t : Token) : Nat := (t.lane 2).toNat % 8

/-- The node word of a stage in the current bay of a cell. -/
def wordAt (s : State) (core cell stage : Nat) : BitVec 64 :=
  ((tget Bay.init (s.cell core cell).bays (s.cell core cell).bay).nodes).getD stage 0

/-- The port slot word of slot 0 or 1 in the current bay of a cell (R69). -/
def slotWord (s : State) (core cell j : Nat) : BitVec 64 :=
  ((tget Bay.init (s.cell core cell).bays (s.cell core cell).bay).ports).getD j 0

/-- Pool entry of a cell (R66, R70). -/
def poolAt (s : State) (core cell i : Nat) : W32 := tget 0 (s.cell core cell).pool i

/-- An arc of a cell, keyed 4 * stage + position. -/
abbrev arcOf (s : State) (core cell key : Nat) : List Slot := tget [] (s.cell core cell).arcs key

/-- The token at the head of an arc, once it has arrived. -/
def headOf (s : State) (core cell key : Nat) : Option Token :=
  match arcOf s core cell key with
  | [] => none
  | sl :: _ => if sl.ready then some sl.tok else none

/-- Consume the head of an arc. -/
def popArc (s : State) (core cell key : Nat) : State :=
  s.modCell core cell fun c => { c with arcs := tset [] c.arcs key ((tget [] c.arcs key).drop 1) }

/-- The breakpoint that the node behind an arc's L input arms (R188). The manual does not say what a dual node with BRK arms: both its copies hold the
word, and the arcs of both count into the one pair and are halted by it (DESIGN CHOICE, log 98). -/
def brkOf (s : State) (core cell key : Nat) : Option Nat :=
  let w := wordAt s core cell (key / 4)
  if key % 4 = 0 ∧ key / 4 < 6 ∧ w.getLsbD 0 ∧ w.getLsbD 5 then some (w.extractLsb' 2 3).toNat else none

/-- Whether an arc offers a free slot: four slots, and no halted breakpoint (R165, R189). -/
def arcFree (s : State) (x : Nat × Nat × Nat) : Bool :=
  (arcOf s x.1 x.2.1 x.2.2).length < 4 &&
    match brkOf s x.1 x.2.1 x.2.2, s.plotOf x.1 with
    | some n, some q => !(tget Breakpoint.init q.bps n).hit
    | _, _ => true

/-- A breakpoint counts an accepted token and halts its arc at TRIG (R189). -/
def Breakpoint.accept (b : Breakpoint) (kind : BitVec 2) : Breakpoint :=
  if b.en && !b.hit && ((kind == kDATA && b.kdata) || (kind == kEOI && b.keoi) || (kind == kBAR && b.kbar)) then
    { b with count := b.count + 1, hit := b.count + 1 == b.trig }
  else b

/-- Put a slot at the end of an arc. -/
def pushArc (s : State) (x : Nat × Nat × Nat) (sl : Slot) : State :=
  let s1 := s.modCell x.1 x.2.1 fun c => { c with arcs := tset [] c.arcs x.2.2 (tget [] c.arcs x.2.2 ++ [sl]) }
  match brkOf s x.1 x.2.1 x.2.2, s.plotOf x.1 with
  | some n, some q => s1.modPlot q.id fun p => { p with bps := tmod Breakpoint.init p.bps n fun b => b.accept sl.tok.kind }
  | _, _ => s1

/-! ### Targets (R64, R184, R206) -/

/-- Whether a target field is null. -/
abbrev nullTarget (t : BitVec 15) : Bool := t.extractLsb' 0 2 == 3

/-- The arcs that a target of a producer stands for: an outside producer feeds both copies of a dual node; copy 1 feeds the
second copies, and a CMPR at R. -/
def targetArcs (s : State) (core cell : Nat) (dual : Bool) (t : BitVec 15) : List (Nat × Nat × Nat) :=
  if nullTarget t then []
  else
    match s.plotOf core with
    | none => []
    | some q =>
      let pos := (t.extractLsb' 0 2).toNat
      let stage := (t.extractLsb' 2 3).toNat
      let dy := (t.extractLsb' 5 5).toNat
      let dx := (t.extractLsb' 10 5).toNat
      let (c0, i0) := q.cellIn dx dy
      let (c1, i1) := q.cellIn (dx + 4 * q.dualcol) (dy + 2 * q.dualrow)
      let w := wordAt s c0 i0 stage
      let toDual := stage < 6 && w.getLsbD 0 && w.getLsbD 6
      let second := dual && q.duals.contains (core, cell)
      if second then (if toDual then [(c1, i1, 4 * stage + pos)] else [(c0, i0, 4 * stage + 1)])
      else if toDual && !dual then [(c0, i0, 4 * stage + pos), (c1, i1, 4 * stage + pos)]
      else [(c0, i0, 4 * stage + pos)]

/-! ### The node that acts -/

/-- Targets of the acting node. -/
abbrev arcsA (s : State) (n : NodeFields) : List (Nat × Nat × Nat) := targetArcs s s.cur.core s.cur.cell n.dual n.tgta
/-- Targets B of the acting node. -/
abbrev arcsB (s : State) (n : NodeFields) : List (Nat × Nat × Nat) := targetArcs s s.cur.core s.cur.cell n.dual n.tgtb

/-- Every non-null target has a free slot (R166). -/
def roomy (s : State) (n : NodeFields) : Bool := (arcsA s n ++ arcsB s n).all fun x => arcFree s x

/-- The head of the acting node's input: 0 L, 1 R, 2 P. -/
def input (s : State) (pos : Nat) : Option Token := headOf s s.cur.core s.cur.cell (4 * s.cur.stage + pos)

/-- Key of a node's state. -/
abbrev stKeyOf (s : State) : Nat := 8 * (s.cell s.cur.core s.cur.cell).bay + s.cur.stage

/-- The acting node's state. -/
def nodeSt' (s : State) : NodeState := tget NodeState.init (s.cell s.cur.core s.cur.cell).nstate (stKeyOf s)

/-- Change the acting node's state. -/
def modNode (s : State) (f : NodeState → NodeState) : State :=
  s.modCell s.cur.core s.cur.cell fun c => { c with nstate := tmod NodeState.init c.nstate (8 * c.bay + s.cur.stage) f }

/-- Emit a token on arcs. -/
def emit (s : State) (arcs : List (Nat × Nat × Nat)) (t : Token) : State :=
  arcs.foldl (fun u x => pushArc u x { id := 0, ready := true, tok := t }) s

/-- Reserve slots that memory will fill (R165). -/
def reserve (s : State) (arcs : List (Nat × Nat × Nat)) (id : Nat) (t : Token) : State :=
  arcs.foldl (fun u x => pushArc u x { id := id, ready := false, tok := t }) s

/-- The acting node notes on an input the EOI of its plot's last invocation (R201). -/
def noteEnd (s : State) (p : Nat) : State :=
  match input s p, s.plotOf s.cur.core with
  | some t, some q => if t.kind == kEOI && q.isLast t.wid then modNode s fun x => { x with ends := x.ends ||| BitVec.ofNat 3 (2 ^ p) } else s
  | _, _ => s

/-- Consume inputs of the acting node. -/
def consume (s : State) (ps : List Nat) : State :=
  ps.foldl (fun u p => popArc (noteEnd u p) s.cur.core s.cur.cell (4 * s.cur.stage + p)) s

/-- The enabled inputs of a node word (R63). -/
def enabled (n : NodeFields) : List Nat := (if n.el then [0] else []) ++ (if n.er then [1] else []) ++ (if n.ep then [2] else [])

/-- Emit optional tokens on A and B. -/
def emitAB (s : State) (n : NodeFields) (a b : Option Token) : State :=
  let s1 := match a with | some t => emit s (arcsA s n) t | none => s
  match b with | some t => emit s1 (arcsB s n) t | none => s1

/-- The ordinary firing: consume every enabled input, emit one token on every non-null target. -/
def fireAll (s : State) (n : NodeFields) (t : Token) : State := emitAB (consume s (enabled n)) n (some t) (some t)

/-- A fault of the acting node (R103, R168): it consumes and emits nothing and stays faulted until the context resumes. -/
def raiseNode (s : State) (code : Byte) (detail : Nat) (tval : Word) (recoverable : Bool) : State :=
  plotFault (modNode s fun x => { x with faulted := true }) s.cur.core code detail 1
    (BitVec.ofNat 64 (siteOf s s.cur.core s.cur.cell s.cur.stage)) tval recoverable

/-- The input bits of a FORMAT under R168: heads that differ in kind from L or have kind 3 (TCAUSE[10:8]). MERGE, CARRY and JOIN, for which the manual
gives no bits, set them in the same way, and R and P count as differing only from an L head that is present (DESIGN CHOICE, log 95). -/
def formatBits (s : State) (n : NodeFields) : Nat :=
  let k := fun p => (input s p).map (·.kind)
  (if k 0 == some 3 then 1 else 0) +
    (if n.er && (k 1).isSome && (k 1 == some 3 || (n.el && (k 0).isSome && k 1 != k 0)) then 2 else 0) +
    (if n.ep && (k 2).isSome && (k 2 == some 3 || (n.el && (k 0).isSome && k 2 != k 0)) then 4 else 0)

/-- A FORMAT of the acting node with its input bits. -/
def formatFault (s : State) (n : NodeFields) : State := raiseNode s cFORMAT (formatBits s n) 0 false

/-- Whether the acting node may be tried: its plot runs and it does not stand in a fault. -/
def nodeRuns (s : State) : Bool :=
  ((s.plotOf s.cur.core).map Plot.live).getD false && !(nodeSt' s).faulted

/-- The in-step rule (R168): what an operator does that consumes all its enabled inputs in every firing. `onEoi` and `onBar`
say what else a marker does before it is forwarded, `data` is the DATA firing; each is run only with room on every target. -/
def inStep (s : State) (n : NodeFields) (onMark : Token → State → State) (data : State → State) : Res :=
  let hs := (enabled n).map fun p => input s p
  .next (
    if !nodeRuns s then s
    else if hs.any fun h => h.any fun t => t.kind == 3 then formatFault s n
    else
      match hs with
      | some l :: rest =>
        if rest.any Option.isNone then s
        else if rest.any fun h => h.any fun t => t.kind != l.kind then formatFault s n
        else if !roomy s n then s
        else if l.kind == kDATA then data s
        else onMark l s
      | _ => s)

/-- Forward a marker with the lanes of L (R164). -/
def forward (n : NodeFields) (l : Token) (s : State) : State := fireAll s n l

/-- An operator without state: markers pass, DATA gives one token on every target. -/
def pureNode (s : State) (n : NodeFields) (f : State → Token → Token) : Res :=
  inStep s n (forward n) fun t =>
    match input t 0 with
    | none => t
    | some l => fireAll t n (f t l)

/-- The R operand of a lane operator: the R token, or the constant broadcast to every lane (R66, R144). -/
def rOperand (s : State) (n : NodeFields) : Token :=
  if n.imm then { kind := kDATA, mask := 0xFFFF, lanes := List.replicate 16 (poolAt s s.cur.core s.cur.cell n.cidx.toNat) }
  else (input s 1).getD Token.init

/-- The P token. -/
def pOperand (s : State) : Token := (input s 2).getD Token.init

/-- Per-lane truth of a predicate (R171). -/
def truth (p : Token) : BitVec 16 := BitVec.ofNat 16 (((List.range 16).map fun i => if p.mask.getLsbD i && (p.lane i).getLsbD 0 then 2 ^ i else 0).sum)

/-- Truth of a predicate token (R171). -/
def isTrue (p : Token) : Bool := p.mask.getLsbD 0 && (p.lane 0).getLsbD 0

/-! ### Ingress slots (R205, R332, R345, R365) -/

/-- The kind of a port slot word. -/
abbrev slotKind (w : Word) : Nat := (w.extractLsb' 58 6).toNat
/-- The index of a port slot word. -/
abbrev slotIdx (w : Word) : Nat := (w.extractLsb' 54 4).toNat
/-- Kinds with an ingress target (R69). -/
abbrev ingressKind (k : Nat) : Bool := [1, 5, 7, 8, 10].contains k

/-- The position of an engine's ingress slot, keyed by its kind and index; before any move, the plot's first identifier. -/
def slotPosOf (s : State) (core key : Nat) : SlotPos :=
  let p := tget SlotPos.init (s.core core).slotPos key
  if p == SlotPos.init then { p with pos := ((s.plotOf core).map Plot.firstWid).getD 0 } else p

/-- The ingress slots of a plot's current bay: core, kind and index. -/
def ingressSlots (s : State) (q : Plot) : List (Nat × Nat × Nat) :=
  (heldCores s q).flatMap fun c => (List.range 8).flatMap fun i => (List.range 2).filterMap fun j =>
    let w := slotWord s c i j
    if ingressKind (slotKind w) && (slotKind w != 10 || !nullTarget (w.extractLsb' 33 15)) then some (c, slotKind w, slotIdx w) else none

/-- Whether an ingress slot has injected the EOI of the plot's last invocation. -/
def slotEnded (s : State) (x : Nat × Nat × Nat) : Bool :=
  if x.2.1 == 1 then (s.port x.1 x.2.2).ended
  else if x.2.1 == 8 then (s.port x.1 (x.2.2 + 4)).ended
  else (s.core x.1).slotPos.any fun e => e.1 == 16 * x.2.1 + x.2.2 && e.2.ended

/-- Whether an ingress slot has injected the EOI of an identifier (R205 step 2). -/
def slotPast (s : State) (w : Word) (x : Nat × Nat × Nat) : Bool :=
  let port := fun (p : Port) => p.ended || decide (w.toNat < p.pos.toNat)
  if x.2.1 == 1 then port (s.port x.1 x.2.2)
  else if x.2.1 == 8 then port (s.port x.1 (x.2.2 + 4))
  else (slotPosOf s x.1 (16 * x.2.1 + x.2.2)).ended || decide (w.toNat < (slotPosOf s x.1 (16 * x.2.1 + x.2.2)).pos.toNat)

/-! ### Sinks and invocations (R169, R90) -/

/-- The key of a stage of a plot's current bay: it names the bay, and the core by its place in the plot. -/
def sinkKey (q : Plot) (core cell stage : Nat) : Nat := 8192 * q.bay + 64 * q.index core + 8 * cell + stage

/-- The sinks of a plot's current bay: SINK nodes and egress slots. A copy slot is one when the plan feeds it in that bay, also once the row of its
producer has drained (log 20). -/
def sinksOf (s : State) (q : Plot) : List Nat :=
  (heldCores s q).flatMap fun c => (List.range 8).flatMap fun i =>
    ((List.range 6).filterMap fun st =>
      let w := wordAt s c i st
      if w.getLsbD 0 && w.extractLsb' 54 10 == 0x187 then some (sinkKey q c i st) else none) ++
    ((List.range 2).filterMap fun j =>
      let w := slotWord s c i j
      let key := sinkKey q c i (6 + j)
      if [2, 3, 4, 6, 9].contains (w.extractLsb' 58 6).toNat || (w.extractLsb' 58 6 == 10 && q.fed.contains key) then some key else none)

/-- The channel of the word of barrier `n` (R230): that of the .BAR command of the lowest-numbered lead-core port that carries it, else c0. -/
def barChannel (q : Plot) (n : Nat) : Nat :=
  ((List.range 8).findSome? fun p => (q.barChans.find? fun x => x.1 == n && x.2.1 == p).map fun x => x.2.2).getD 0

/-- A BAR of a stream port has been injected: a port of the lead core carries the next barrier that it has not carried yet (R230). -/
def noteBar (s : State) (core p : Nat) : State :=
  match s.plotOf core with
  | none => s
  | some q =>
    if core != q.lead then s
    else
      let last := (q.barChans.filter fun x => x.2.1 == p).foldl (fun m x => max m x.1) q.bars
      s.modPlot q.id fun y => { y with barChans := y.barChans ++ [(last + 1, p, ((s.port core p).barChan).getD 0)] }

/-- An invocation retires: WID moves on, the retirement clock is noted; the time from an arming or a restore to the first retirement is no interval
between two retirements (R122, R169, R403). -/
def retireOne (s : State) (q : Plot) : State :=
  ((s.count q.die 0 1).modPlot q.id fun p =>
    { p with wid := (p.next p.wid).getD p.wid, retired := p.retired + 1,
             ti := if !p.sliceUsed then p.ti else max p.ti (s.pace - p.lastRetire).toNat, lastRetire := s.pace, wdStop := 0, sliceUsed := true })

/-- A marker has been consumed at a sink (R169): when every sink has consumed one, the invocation retires, or the barrier count
rises and its word goes to the lead core, which may have left the plot with its row (R201). -/
def sinkMark (s : State) (core cell stage : Nat) (kind : BitVec 2) : State :=
  match s.plotOf core with
  | none => s
  | some q =>
    let key := sinkKey q core cell stage
    let sinks := sinksOf s q
    if kind == kEOI then
      let t := tmod 0 q.sinkEoi key (· + 1)
      if sinks.all fun x => tget 0 t x ≥ 1 then
        retireOne (s.modPlot q.id fun p => { p with sinkEoi := sinks.foldl (fun t x => tmod 0 t x (· - 1)) t }) q
      else s.modPlot q.id fun p => { p with sinkEoi := t }
    else
      let t := tmod 0 q.sinkBar key (· + 1)
      if sinks.all fun x => tget 0 t x ≥ 1 then
        let u := s.modPlot q.id fun p =>
          { p with sinkBar := sinks.foldl (fun t x => tmod 0 t x (· - 1)) t, bars := p.bars + 1, barChans := p.barChans.filter fun x => q.bars + 1 < x.1 }
        if (s.core q.lead).plot != some q.id then u
        else sendWord u (1000000 + q.id) q.lead (barChannel q (q.bars + 1)) 2 0xB0 (BitVec.ofNat 64 (q.bars + 1))
      else s.modPlot q.id fun p => { p with sinkBar := t }

/-- The work identifier of the invocation that the acting node's next token belongs to (R90). -/
def nodeWid (s : State) : Word :=
  match s.plotOf s.cur.core with
  | none => 0
  | some q =>
    match (nodeSt' s).last with
    | none => q.bayStart
    | some w => (q.next w).getD w

/-- One step of the mixing function of R90. -/
def mix64 (z : Word) : Word :=
  let a := (z ^^^ (z >>> 30)) * 0xBF58476D1CE4E5B9
  let b := (a ^^^ (a >>> 27)) * 0x94D049BB133111EB
  b ^^^ (b >>> 31)

/-- The random word of R90. -/
def rand32 (seed wid : Word) (site idx sub : Nat) : Nat :=
  let z := mix64 (seed ^^^ wid)
  let z := mix64 (z ^^^ (BitVec.ofNat 64 (site % 2 ^ 15 * 2 ^ 32) ||| BitVec.ofNat 64 (idx % 2 ^ 32)))
  let z := mix64 (z ^^^ BitVec.ofNat 64 (sub % 256))
  (z >>> 32).toNat

/-- The random word of the acting node for an element (R90). -/
def nodeRand (s : State) (sub : Nat) : Nat :=
  rand32 (((s.plotOf s.cur.core).map (·.seed)).getD 0) (nodeWid s) (siteOf s s.cur.core s.cur.cell s.cur.stage) (nodeSt' s).idx.toNat sub

end Sys2Proof.Machine
end

