-- ==== Sys2Proof/Machine/Vector.lean ====
section
/-!
DEFINITION. Vector arithmetic operators of compute cells (R142 to R162): lane masks, lane types, the operators, lane movement
and lane reductions.
-/

namespace Sys2Proof.Machine

/-! ### Lanes (R144, R145) -/

/-- The lane mask of a DATA firing (R144): L, R when enabled, and P as addend or predicate. -/
def laneMask (n : NodeFields) (l r p : Token) (addend : Bool) : BitVec 16 :=
  l.mask &&& (if n.er then r.mask else 0xFFFF) &&& (if addend then p.mask else if n.ep then truth p else 0xFFFF)

/-- A vector operator on tokens: `op` on each active lane. -/
def vecNode (s : State) (n : NodeFields) (addend : Bool) (op : W32 → W32 → W32 → W32) : Res :=
  pureNode s n fun t l =>
    let r := rOperand t n
    let p := pOperand t
    dataTok (laneMask n l r p addend) fun i => op (l.lane i) (r.lane i) (p.lane i)

/-- The low and high halves of a lane (R80). -/
abbrev lo16 (x : W32) : Nat := x.toNat % 65536
/-- The HI half. -/
abbrev hi16 (x : W32) : Nat := x.toNat / 65536

/-- Two halves as a lane. -/
abbrev pack16 (lo hi : Nat) : W32 := BitVec.ofNat 32 (lo % 65536 + 65536 * (hi % 65536))

/-- Apply a float operation in the format of the lane type: FP32, BF16×2 or FP16×2 (R67, R80). -/
def floatLane (ty : BitVec 2) (f : Fmt → Nat → Nat → Nat → Nat) (a b c : W32) : W32 :=
  if ty == 0 then BitVec.ofNat 32 (f fp32 a.toNat b.toNat c.toNat)
  else
    let m := if ty == 1 then bf16 else fp16
    pack16 (f m (lo16 a) (lo16 b) (lo16 c)) (f m (hi16 a) (hi16 b) (hi16 c))

/-- Apply an integer operation at 32 bits or to both halves (R156). -/
def intLane (ty : BitVec 2) (f : Nat → Nat → Nat → Nat) (a b : W32) : W32 :=
  if ty == 0 then BitVec.ofNat 32 (f 32 a.toNat b.toNat)
  else pack16 (f 16 (lo16 a) (lo16 b)) (f 16 (hi16 a) (hi16 b))

/-- A float operator. -/
def floatNode (s : State) (n : NodeFields) (f : Fmt → Nat → Nat → Nat → Nat) : Res :=
  vecNode s n false (floatLane (laneType n) f)

/-- An integer operator. -/
def intNode (s : State) (n : NodeFields) (f : Nat → Nat → Nat → Nat) : Res :=
  vecNode s n false fun a b _ => intLane (laneType n) f a b

/-! ### Floating-point operators (R149 to R155) -/

/-- FFMA (R150): one rounding of the exact value. -/
def ffmaW (np na : Bool) (f : Fmt) (a b c : Nat) : Nat :=
  let prod := (f.value a).mul (f.value b)
  let add := f.value c
  f.round ((if np then prod.neg else prod).add (if na then add.neg else add))

/-- FABS and FNEG (R151): only the sign of a number changes. -/
def signW (f : Fmt) (flip : Bool) (a : Nat) : Nat :=
  if f.isNan a then f.nanCode
  else
    let m := a % 2 ^ (f.width - 1)
    if flip && a < 2 ^ (f.width - 1) then m + 2 ^ (f.width - 1) else m

/-- FCMP (R152). -/
def fcmpW (cond : Nat) (f : Fmt) (a b : Nat) : Nat :=
  let c := (f.value a).cmp (f.value b)
  let r : Bool := match cond with
    | 0 => c == some .eq
    | 1 => c != some .eq
    | 2 => c == some .lt
    | 3 => c == some .lt || c == some .eq
    | 4 => c == some .gt
    | 5 => c == some .gt || c == some .eq
    | 6 => c == none
    | _ => c != none
  if r then 1 else 0

/-- FADD. -/
def execFadd (n : NodeFields) (s : State) : Res := floatNode s n fun f a b _ => f.addW a b

/-- FSUB. -/
def execFsub (n : NodeFields) (s : State) : Res := floatNode s n fun f a b _ => f.round ((f.value a).add (f.value b).neg)

/-- FMUL. -/
def execFmul (n : NodeFields) (s : State) : Res := floatNode s n fun f a b _ => f.mulW a b

/-- FFMA: P is the addend. -/
def execFfma (n : NodeFields) (s : State) : Res := vecNode s n true (floatLane (laneType n) (ffmaW (n.mods.getLsbD 0) (n.mods.getLsbD 1)))

/-- FMAX. -/
def execFmax (n : NodeFields) (s : State) : Res := floatNode s n fun f a b _ => f.maxW a b

/-- FMIN. -/
def execFmin (n : NodeFields) (s : State) : Res := floatNode s n fun f a b _ => f.minW a b

/-- FABS. -/
def execFabs (n : NodeFields) (s : State) : Res := floatNode s n fun f a _ _ => signW f false a

/-- FNEG. -/
def execFneg (n : NodeFields) (s : State) : Res := floatNode s n fun f a _ _ => signW f true a

/-- FCMP. -/
def execFcmp (n : NodeFields) (s : State) : Res := floatNode s n fun f a b _ => fcmpW (n.mods.extractLsb' 0 3).toNat f a b

/-- FRND. -/
def execFrnd (n : NodeFields) (s : State) : Res := floatNode s n fun f a _ _ => f.frnd (n.mods.extractLsb' 0 2).toNat a

/-- FCLS. -/
def execFcls (n : NodeFields) (s : State) : Res := floatNode s n fun f a _ _ => f.cls a

/-- FRCP. -/
def execFrcp (n : NodeFields) (s : State) : Res := floatNode s n fun f a _ _ => f.round (f.value a).rcp

/-- FRSQ. -/
def execFrsq (n : NodeFields) (s : State) : Res := floatNode s n fun f a _ _ => f.round (f.value a).rsq

/-- FEXP2. -/
def execFexp2 (n : NodeFields) (s : State) : Res := floatNode s n fun f a _ _ => f.round (f.value a).exp2

/-- FLOG2. -/
def execFlog2 (n : NodeFields) (s : State) : Res := floatNode s n fun f a _ _ => f.round (f.value a).log2

/-! ### Integer, logic and shift operators (R156, R157) -/

/-- IMUL (R156): low bits, saturated, high signed, high unsigned. -/
def imulW (md w a b : Nat) : Nat :=
  let p := signed w a * signed w b
  match md with
  | 0 => narrow w false p
  | 1 => narrow w true p
  | 2 => (BitVec.ofInt (2 * w) p).toNat / 2 ^ w
  | _ => a * b / 2 ^ w

/-- ICMP (R156). -/
def icmpW (cond : Nat) (u : Bool) (w a b : Nat) : Nat :=
  let x : Int := if u then a else signed w a
  let y : Int := if u then b else signed w b
  let r : Bool := match cond with
    | 0 => decide (x = y)
    | 1 => decide (x ≠ y)
    | 2 => decide (x < y)
    | 3 => decide (x ≤ y)
    | 4 => decide (x > y)
    | _ => decide (x ≥ y)
  if r then 1 else 0

/-- Signed or unsigned order of IMAX and IMIN. -/
def ileW (u : Bool) (w a b : Nat) : Bool := if u then decide (a ≤ b) else decide (signed w a ≤ signed w b)

/-- IADD. -/
def execIadd (n : NodeFields) (s : State) : Res := intNode s n fun w a b => narrow w (n.mods.getLsbD 0) (signed w a + signed w b)

/-- ISUB. -/
def execIsub (n : NodeFields) (s : State) : Res := intNode s n fun w a b => narrow w (n.mods.getLsbD 0) (signed w a - signed w b)

/-- IMUL. -/
def execImul (n : NodeFields) (s : State) : Res := intNode s n (imulW (n.mods.extractLsb' 0 2).toNat)

/-- IMAX. -/
def execImax (n : NodeFields) (s : State) : Res := intNode s n fun w a b => if ileW (n.mods.getLsbD 0) w a b then b else a

/-- IMIN. -/
def execImin (n : NodeFields) (s : State) : Res := intNode s n fun w a b => if ileW (n.mods.getLsbD 0) w a b then a else b

/-- ICMP. -/
def execIcmp (n : NodeFields) (s : State) : Res := intNode s n (icmpW (n.mods.extractLsb' 0 3).toNat (n.mods.getLsbD 3))

/-- IABS. -/
def execIabs (n : NodeFields) (s : State) : Res := intNode s n fun w a _ => narrow w (n.mods.getLsbD 0) (signed w a).natAbs

/-- AND. -/
def execNodeAnd (n : NodeFields) (s : State) : Res := vecNode s n false fun a b _ => a &&& b

/-- OR. -/
def execNodeOr (n : NodeFields) (s : State) : Res := vecNode s n false fun a b _ => a ||| b

/-- XOR. -/
def execNodeXor (n : NodeFields) (s : State) : Res := vecNode s n false fun a b _ => a ^^^ b

/-- ANDN. -/
def execAndn (n : NodeFields) (s : State) : Res := vecNode s n false fun a b _ => a &&& ~~~b

/-- SHL: the amount is taken modulo the width. -/
def execShl (n : NodeFields) (s : State) : Res := intNode s n fun w a b => a * 2 ^ (b % w) % 2 ^ w

/-- SHR. -/
def execShr (n : NodeFields) (s : State) : Res := intNode s n fun w a b => a / 2 ^ (b % w)

/-- SAR. -/
def execSar (n : NodeFields) (s : State) : Res := intNode s n fun w a b => narrow w false (signed w a / (2 ^ (b % w) : Nat))

/-! ### Lane movement (R158 to R160) -/

/-- LSHUF: each output lane by the selector in the same lane of R. -/
def execLshuf (n : NodeFields) (s : State) : Res :=
  pureNode s n fun t l =>
    let r := rOperand t n
    let sel := fun i => (r.lane i).toNat % 32
    let on := fun i => r.mask.getLsbD i && (sel i ≥ 16 || l.mask.getLsbD (sel i % 16))
    dataTok (BitVec.ofNat 16 (((List.range 16).map fun i => if on i then 2 ^ i else 0).sum)) fun i =>
      if sel i ≥ 16 then 0 else l.lane (sel i % 16)

/-- The lane number of LROT and LBCAST: 0 when the R token's lane 0 is inactive. -/
def laneCount (t : State) (n : NodeFields) : Nat :=
  let r := rOperand t n
  if r.mask.getLsbD 0 then (r.lane 0).toNat % 16 else 0

/-- LROT: rotate, or shift with .SHIFT. -/
def execLrot (n : NodeFields) (s : State) : Res :=
  pureNode s n fun t l =>
    let k := laneCount t n
    let on := fun i => l.mask.getLsbD ((i + k) % 16) && !(n.mods.getLsbD 0 && decide (i + k ≥ 16))
    dataTok (BitVec.ofNat 16 (((List.range 16).map fun i => if on i then 2 ^ i else 0).sum)) fun i => l.lane ((i + k) % 16)

/-- LBCAST: one lane to every lane. -/
def execLbcast (n : NodeFields) (s : State) : Res :=
  pureNode s n fun t l =>
    let k := laneCount t n
    if l.mask.getLsbD k then dataTok 0xFFFF fun _ => l.lane k else dataTok 0 fun _ => 0

/-! ### Lane reductions (R161) -/

/-- One level of the pairwise tree: neighbours combine, the lower lane on the left. -/
def treeLevel {α : Type} (f : α → α → α) : List α → List α
  | a :: b :: r => f a b :: treeLevel f r
  | l => l

/-- The fixed tree over 16 values: four levels. -/
def tree16 {α : Type} (f : α → α → α) (d : α) (l : List α) : α :=
  (treeLevel f (treeLevel f (treeLevel f (treeLevel f l)))).headD d

/-- Reduce one element of every lane: `get` reads it, `ident` fills inactive lanes. -/
def reduceLanes (l : Token) (ident : Nat) (f : Nat → Nat → Nat) (get : W32 → Nat) : Nat :=
  tree16 f ident ((List.range 16).map fun i => if l.mask.getLsbD i then get (l.lane i) else ident)

/-- A lane reduction: the float tree runs in FP32, halves are widened first and rounded last (R161). The last rounding is R88's to nearest, with which a
total beyond the largest finite value of the half format is an infinity; R91 and R92 saturate in the conversion operators only (DEDUCED, log 114). -/
def reduceNode (s : State) (n : NodeFields) (fop : Nat → Nat → Nat) (fid : Nat) (iop : Nat → Nat → Nat → Nat) (iid : Nat → Nat) : Res :=
  pureNode s n fun _ l =>
    let ty := laneType n
    let widen := fun (m : Fmt) (x : Nat) => fp32.round (m.value x)
    let thin := fun (m : Fmt) (x : Nat) => m.round (fp32.value x)
    let v : W32 :=
      if ty == 3 then pack16 (reduceLanes l (iid 16) (iop 16) lo16) (reduceLanes l (iid 16) (iop 16) hi16)
      else if ty == 0 then
        if n.mods.getLsbD 3 then BitVec.ofNat 32 (reduceLanes l (iid 32) (iop 32) BitVec.toNat)
        else BitVec.ofNat 32 (reduceLanes l fid fop BitVec.toNat)
      else
        let m := if ty == 1 then bf16 else fp16
        pack16 (thin m (reduceLanes l fid fop fun x => widen m (lo16 x))) (thin m (reduceLanes l fid fop fun x => widen m (hi16 x)))
    dataTok (if l.mask == 0 then 0 else if n.mods.getLsbD 1 then 0xFFFF else 1) fun _ => v

/-- LSUM. -/
def execLsum (n : NodeFields) (s : State) : Res := reduceNode s n fp32.addW 0x80000000 (fun w a b => (a + b) % 2 ^ w) fun _ => 0

/-- LMAX. -/
def execLmax (n : NodeFields) (s : State) : Res := reduceNode s n fp32.maxW 0xFF800000 (fun w a b => if signed w a < signed w b then b else a) fun w => 2 ^ (w - 1)

/-- LMIN. -/
def execLmin (n : NodeFields) (s : State) : Res := reduceNode s n fp32.minW 0x7F800000 (fun w a b => if signed w b < signed w a then b else a) fun w => 2 ^ (w - 1) - 1

end Sys2Proof.Machine
end

