-- ==== Sys2Proof/Machine/MemNodes.lean ====
section
/-!
DEFINITION. Memory-cell operators (R217 to R220) and the release of a fence token at an ordering point (R293).
-/

namespace Sys2Proof.Machine

/-- MADDR (R217). -/
def execMaddr (n : NodeFields) (s : State) : Res :=
  vecNode s n false fun a b _ => (a <<< (n.mods.extractLsb' 0 2).toNat) + b

/-! ### Tile operators -/

/-- The handle in pool entry CIDX. -/
def nodeHandle (s : State) (n : NodeFields) : Nat := (poolAt s s.cur.core s.cur.cell n.cidx.toNat).toNat % 64

/-- The accesses of a firing (R218): (lane, offset, bytes). In row form lane 0 gives the one row. -/
def spansOf (n : NodeFields) (l : Token) (m : BitVec 16) : List (Nat × Nat × Nat) :=
  if n.mods.getLsbD 4 then (if l.mask.getLsbD 0 then [(0, (l.lane 0).toNat, 64)] else [])
  else ((List.range 16).filter fun i => m.getLsbD i).map fun i => (i, (l.lane i).toNat, 4)

/-- The first fault of a firing in the order of R218, with the offset of its first lane. -/
def spanFault (t : Tile) (spans : List (Nat × Nat × Nat)) (produce : Bool) : Option (Byte × Nat) :=
  let at_ := fun (c : Byte) => (spans.find? fun x => tileCheck t x.2.1 x.2.2 x.2.2 produce == some c).map fun x => (c, x.2.1)
  (at_ cPERMISSION).or ((at_ cALIGN).or (at_ cOWNER))

/-- The words of a firing: (lane, offset) of each accessed word, in increasing lane order. -/
def wordSpans (n : NodeFields) (l : Token) (m : BitVec 16) : List (Nat × Nat) :=
  if n.mods.getLsbD 4 then
    if l.mask.getLsbD 0 then ((List.range 16).filter fun i => m.getLsbD i).map fun i => (i, (l.lane 0).toNat + 4 * i) else []
  else ((List.range 16).filter fun i => m.getLsbD i).map fun i => (i, (l.lane i).toNat)

/-- Read the spans of a firing: the bytes of each, or the offset of the first uncorrectable one. -/
def readSpans (s : State) (core h : Nat) : List (Nat × Nat × Nat) → State × Except Nat (List (Nat × List Byte))
  | [] => (s, .ok [])
  | x :: xs =>
    match tileRead s core h x.2.1 x.2.2 with
    | (t, none) => (t, .error x.2.1)
    | (t, some b) =>
      match readSpans t core h xs with
      | (u, .error e) => (u, .error e)
      | (u, .ok bs) => (u, .ok ((x.1, b) :: bs))

/-- The shared frame of the tile operators: checks of every access, the read of those that read, then the firing (R218). -/
def tileFiring (s : State) (n : NodeFields) (m : Token → State → BitVec 16) (reads produce : Bool)
    (go : State → Token → Nat → List (Nat × List Byte) → State) : Res :=
  inStep s n (forward n) fun t =>
    match input t 0 with
    | none => t
    | some l =>
      let h := nodeHandle t n
      let spans := spansOf n l (m l t)
      match spanFault (getTile t t.cur.core h) spans produce with
      | some f => raiseNode t f.1 0 (BitVec.ofNat 64 f.2) false
      | none =>
        match readSpans t t.cur.core h (if reads then spans else []) with
        | (u, .error o) => raiseNode u cMEMUNCORR 0 (BitVec.ofNat 64 o) false
        | (u, .ok bs) => go u l h bs

/-- The agent of the acting node. -/
def nodeAgent (s : State) : Agent := .node s.cur.core s.cur.cell s.cur.stage

/-- Note the accesses of a firing at the race detector (R311). -/
def raceSpans (s : State) (h : Nat) (spans : List (Nat × Nat × Nat)) (write : Bool) : State :=
  spans.foldl (fun t x => raceTile t (nodeAgent s) s.cur.core h x.2.1 x.2.2 write) s

/-- MLOAD (R218). -/
def execMload (n : NodeFields) (s : State) : Res :=
  tileFiring s n (fun l _ => l.mask) true false fun t l h bs =>
    let u := raceSpans t h (spansOf n l l.mask) false
    let out :=
      if n.mods.getLsbD 4 then
        match bs with
        | [] => dataTok 0 fun _ => 0
        | b :: _ => { kind := kDATA, mask := 0xFFFF, lanes := wordsOf 16 b.2 }
      else dataTok l.mask fun i => leBv 32 (((bs.find? fun x => x.1 == i).map (·.2)).getD [])
    fireAll u n out

/-- The acknowledgement of a store (R218): L's token with every lane 0. -/
def ackTok (n : NodeFields) (l : Token) : Token :=
  dataTok (if n.mods.getLsbD 4 && !l.mask.getLsbD 0 then 0 else l.mask) fun _ => 0

/-- Lanes of L that R supplies too; in row form the lanes of R. -/
def pairMask (n : NodeFields) (l : Token) (s : State) : BitVec 16 :=
  if n.mods.getLsbD 4 then (rOperand s n).mask else l.mask &&& (rOperand s n).mask

/-- The bytes that an MSTORE writes, in lane order: in row form a 16-byte row of four active lanes is written whole (R218, R233). -/
def storePieces (n : NodeFields) (l r : Token) (m : BitVec 16) : List (Nat × List Byte) :=
  let word := fun (i : Nat) => natLe 4 (r.lane i).toNat
  if n.mods.getLsbD 4 then
    (List.range 4).flatMap fun q =>
      if (m.extractLsb' (4 * q) 4) == 0xF then
        (((wordSpans n l m).find? fun x => x.1 == 4 * q).map fun x => (x.2, (List.range 4).flatMap fun j => word (4 * q + j))).toList
      else ((wordSpans n l m).filter fun x => x.1 / 4 == q).map fun x => (x.2, word x.1)
  else (wordSpans n l m).map fun x => (x.2, word x.1)

/-- Write the pieces of an MSTORE: the offset of the first whose row is uncorrectable, or the state. -/
def storeLanes (core h : Nat) : List (Nat × List Byte) → State → Except Nat State
  | [], s => .ok s
  | x :: xs, s =>
    match tileWrite s core h x.1 x.2 with
    | (_, false) => .error x.1
    | (t, true) => storeLanes core h xs t

/-- MSTORE (R218): lanes in increasing order, so the highest wins. -/
def execMstore (n : NodeFields) (s : State) : Res :=
  tileFiring s n (pairMask n) false true fun t l h _ =>
    let m := pairMask n l t
    let u := raceSpans t h ((wordSpans n l m).map fun x => (x.1, x.2, 4)) true
    match storeLanes t.cur.core h (storePieces n l (rOperand t n) m) u with
    | .ok v => fireAll v n (ackTok n l)
    | .error o => raiseNode u cMEMUNCORR 0 (BitVec.ofNat 64 o) false

/-- The lanes that a read-modify-write updates: also those of P for CAS. -/
def rmwMask (n : NodeFields) (l : Token) (s : State) : BitVec 16 :=
  pairMask n l s &&& (if n.ep then (pOperand s).mask else 0xFFFF)

/-- Read-modify-write of the words of a firing in increasing lane order: the state and each old value (R219). -/
def rmwWords (core h op : Nat) (r p : Token) : State → List (Nat × Nat) → State × List (Nat × W32)
  | s, [] => (s, [])
  | s, x :: xs =>
    match tileRead s core h x.2 4 with
    | (t, none) => (t, [])
    | (t, some b) =>
      let old : W32 := leBv 32 b
      let new := if op = 10 then (if old = p.lane x.1 then (r.lane x.1).toNat else old.toNat)
        else atomicOp op 32 old.toNat (r.lane x.1).toNat
      let (u, rest) := rmwWords core h op r p (tileWrite t core h x.2 (natLe 4 new)).1 xs
      (u, (x.1, old) :: rest)

/-- MATOM: old values on A, with exactly the accessed lanes active (R219). -/
def execMatom (n : NodeFields) (s : State) : Res :=
  tileFiring s n (rmwMask n) true true fun t l h _ =>
    let ws := wordSpans n l (rmwMask n l t)
    let (u, olds) := rmwWords t.cur.core h (n.mods.extractLsb' 0 4).toNat (rOperand t n) (pOperand t) t ws
    let mask := BitVec.ofNat 16 ((ws.map fun x => 2 ^ x.1).sum)
    fireAll u n (dataTok mask fun i => ((olds.find? fun x => x.1 == i).map (·.2)).getD 0)

/-- MRED: no old values; A receives the acknowledgement. -/
def execMred (n : NodeFields) (s : State) : Res :=
  tileFiring s n (pairMask n) true true fun t l h _ =>
    fireAll (rmwWords t.cur.core h (n.mods.extractLsb' 0 4).toNat (rOperand t n) Token.init t (wordSpans n l (pairMask n l t))).1 n (ackTok n l)

/-! ### Device memory operators (R220) -/

/-- The base in pool entries CIDX and CIDX + 1. -/
def nodeBase (s : State) (n : NodeFields) : Word :=
  poolAt s s.cur.core s.cur.cell (n.cidx.toNat + 1) ++ poolAt s s.cur.core s.cur.cell n.cidx.toNat

/-- The device accesses of a firing: (first lane, address, bytes). -/
def deviceSpans (s : State) (n : NodeFields) (l : Token) (m : BitVec 16) : List (Nat × Word × Nat) :=
  if n.mods.getLsbD 4 then (if l.mask.getLsbD 0 then [(0, nodeBase s n + (l.lane 0).signExtend 64, 64)] else [])
  else ((List.range 16).filter fun i => m.getLsbD i).map fun i => (i, nodeBase s n + (l.lane i).signExtend 64, 4)

/-- The frame of GLOAD and GSTORE: ALIGN before the firing; each access is translated on its way (R293). A BAR waits at the ordering
point. -/
def deviceFiring (s : State) (n : NodeFields) (m : Token → State → BitVec 16) (go : State → Token → List (Nat × Word × Nat) → State) : Res :=
  inStep s n (fun l t => if l.kind == kBAR then t else forward n l t) fun t =>
    match input t 0 with
    | none => t
    | some l =>
      let spans := deviceSpans t n l (m l t)
      match spans.find? fun x => x.2.1.toNat % x.2.2 != 0 with
      | some x => raiseNode t cALIGN 0 x.2.1 false
      | none => go t l spans

/-- GLOAD: the firing reserves its slots, and memory fills them. A row is one request, read as two sectors (R245). -/
def execGload (n : NodeFields) (s : State) : Res :=
  deviceFiring s n (fun l _ => l.mask) fun t l xs =>
    if xs.isEmpty then fireAll t n (dataTok (if n.mods.getLsbD 4 then 0 else l.mask) fun _ => 0)
    else
      let id := newId t
      let tok : Token := { kind := kDATA, mask := if n.mods.getLsbD 4 then 0xFFFF else l.mask, lanes := zeroLanes }
      let u := reserve (reserve (consume t.bump (enabled n)) (arcsA t n) id tok) (arcsB t n) id tok
      let row := n.mods.getLsbD 4
      let ys := xs.flatMap fun x => if row then [(0, x.2.1, 32), (8, x.2.1 + 32, 32)] else [x]
      ys.foldl (fun v x => issueVa v t.cur.core (nodeAgent t) .read x.2.1 x.2.2 [] false (.arc t.cur.core 0 0 id x.1) (sub := row && x.1 != 0)) u

/-- GSTORE: the acknowledgement stands in its slot until every lane has been accepted by its home. A row is one request (R245). -/
def execGstore (n : NodeFields) (s : State) : Res :=
  deviceFiring s n (fun l t => l.mask &&& (rOperand t n).mask) fun t l xs =>
    let r := rOperand t n
    let stores := if n.mods.getLsbD 4 then
        xs.flatMap fun x => ((List.range 16).filter fun i => r.mask.getLsbD i).map fun i => (i, x.2.1 + BitVec.ofNat 64 (4 * i))
      else xs.map fun x => (x.1, x.2.1)
    if stores.isEmpty then fireAll t n (ackTok n l)
    else
      let id := newId t
      let hasA := !nullTarget n.tgta
      let u := reserve (consume t.bump (enabled n)) (arcsA t n) id (ackTok n l)
      stores.zipIdx.foldl (fun v y => issueVa v t.cur.core (nodeAgent t) .write y.1.2 4 (natLe 4 (r.lane y.1.1).toNat) false
        (if hasA then .arc t.cur.core 0 0 id y.1.1 else .none) (sub := n.mods.getLsbD 4 && y.2 != 0)) u

/-! ### The ordering point (R293) -/

/-- Every access of an agent has been accepted by its home. -/
def streamAccepted (s : State) (a : Agent) : Bool := s.accs.all fun x => x.agent != a || reached x 2

/-- BAR_ORDERING_POINT_RELEASE: a GLOAD or GSTORE forwards its BAR, a VA write port counts it at its sink; a fence at DEVICE
scope for its stream (R293, R310). -/
def execBarOrderingPointRelease (core cell stage : Nat) (s0 : State) : Res :=
  let s := { s0 with cur := { Ctx.init with core := core, cell := cell, stage := stage } }
  .next (
    if stage < 6 then
      match decodeNode (wordAt s core cell stage) with
      | .ok (.gload n) | .ok (.gstore n) =>
        if nodeRuns s && ((enabled n).all fun p => (input s p).any fun t => t.kind == kBAR) && roomy s n && streamAccepted s (nodeAgent s) then
          match input s 0 with
          | some l => raceRelease (forward n l s) core 2
          | none => s0
        else s0
      | _ => s0
    else
      let w := slotWord s core cell (stage - 6)
      let p := 4 + (w.extractLsb' 54 4).toNat
      if w.extractLsb' 58 6 == 9 && !(s.port core p).eoiIn && ((headOf s core cell (4 * stage)).any fun t => t.kind == kBAR) && streamAccepted s (.port core p) then
        raceRelease (sinkMark (popArc s core cell (4 * stage)) core cell stage kBAR) core 2
      else if w.extractLsb' 58 6 == 8 && (s.port core p).barDue && streamAccepted s (.port core p) &&
          ((targetArcs s core cell false (w.extractLsb' 33 15)).all fun x => arcFree s x) then
        raceRelease ((noteBar (emit s (targetArcs s core cell false (w.extractLsb' 33 15)) barTok) core p).modPort core p fun x => { x with barDue := false }) core 2
      else s0)

end Sys2Proof.Machine
end

