-- ==== Sys2Proof/Machine/Tiles.lean ====
section
/-!
DEFINITION. The tile commands (R215, R216) and the flip of the owner bit (R213).
-/

namespace Sys2Proof.Machine

/-- What the tile table answers a command. -/
inductive TileAns where
  | wait (s : State)
  | done (s : State) (result : W32)
  | bad (reason : W32)

/-- A tile command: accepted at once; taken in order; a waiting one holds up only itself (R215), and its `prog` numbers the wait. -/
def tileCmd (s : State) (act : State → TileAns) : Res :=
  let c := s.cur.core
  let id := s.cur.slot
  .next (
    if issuing s then accept s [] 0
    else
      match (s.core c).cmd id with
      | none => s
      | some me =>
        if !(me.phase == .accepted || me.phase == .running) then s
        else if (s.core c).cmds.any fun x => x.id < id && x.cmd.extractLsb' 120 8 == 1 && x.phase == .accepted then s
        else
          match act s with
          | .wait t => if me.phase == .running then t else modCmd t.bump c id fun x => { x with phase := .running, prog := newId t }
          | .done t r => finishCmd t c id 0 r
          | .bad r => finishCmd s c id cFORMAT r)

/-! ### Waits for ring slots (R214) -/

/-- Whether an ingress slot may begin an invocation while a decision or a pre-emption is applied (R205, R405 step 1). -/
def mayBegin (q : Plot) (pos : Word) : Bool :=
  q.live && ((q.decision.isNone && !q.closing) ||
    match q.bound with
    | none => false
    | some w => decide (pos.toNat ≤ w.toNat))

/-- A wait that the tile table has accepted: its number, and what it waits for as handle, filled or free, slots. -/
abbrev RingWait := Nat × List (Nat × Bool × Nat)

/-- The waits of one core: its TWAIT commands, its AUTO ports that would start an invocation, and copies that it has issued with .ADV. -/
def waitsOf (s : State) (core : Nat) : List RingWait :=
  ((s.core core).cmds.filterMap fun x =>
    if x.phase == .running && x.cmd.extractLsb' 120 8 == 1 && x.cmd.extractLsb' 112 8 == 6 then
      some (x.prog, [((x.cmd.extractLsb' 96 6).toNat, x.cmd.extractLsb' 104 8 == 0, (x.cmd.extractLsb' 0 32).toNat)])
    else none) ++
  ((s.core core).ports.filterMap fun e =>
    if e.2.waitId != 0 && e.2.state == .run && !e.2.started && ((s.plotOf core).map fun q => mayBegin q e.2.pos).getD false then
      some (e.2.waitId, [((e.2.base.extractLsb' 0 6).toNat, !e.2.dir, 1)])
    else none) ++
  s.engines.filterMap fun e => if e.2.waitId != 0 && e.2.queue.head?.any (fun x => x.1 == core) then some (e.2.waitId, e.2.needs) else none

/-- Whether the slots that a wait asks for are there. -/
def slotsThere (s : State) (core : Nat) (needs : List (Nat × Bool × Nat)) : Bool :=
  needs.all fun x => let t := getTile s core x.1; if x.2.1 then x.2.2 ≤ t.fill else x.2.2 ≤ t.free

/-- A wait on a ring of a core, accepted before number `n`, that could go on: it is served first (R214). A PLOT tile is the same at every core. -/
def servedFirst (s : State) (core h n : Nat) : Bool :=
  let cores := if (getTile s core h).level == 2 then ((s.plotOf core).map (heldCores s)).getD [core] else [core]
  cores.any fun c => (waitsOf s c).any fun w => w.1 < n && (w.2.any fun x => x.1 == h) && slotsThere s c w.2

/-- Whether the pointers of a ring must stay: a wait on it could go on at this moment (R214). -/
abbrev pointersHeld (s : State) (core h : Nat) : Bool := servedFirst s core h (newId s)

/-- Whether the acting core is the lead core of its plot. -/
def isLead (s : State) : Bool := ((s.plotOf s.cur.core).map fun q => q.lead == s.cur.core).getD false

/-- Limits of R209 and R210 on a new tile. -/
def tileLimits (s : State) (level : BitVec 2) (ring : Bool) (rows rowb : Nat) : Bool :=
  let cap := if level == 0 then 524288 else if level == 1 then 2097152
    else 2097152 * ((s.plotOf s.cur.core).map fun q => (heldCores s q).length).getD 0
  level != 3 && 1 ≤ rows && rows ≤ (if ring then 4096 else 65536) && rowb % 64 == 0 && 64 ≤ rowb && rowb ≤ 65536 && rows * rowb ≤ cap

/-- The entry of a new tile. -/
def newTile (level : BitVec 2) (ring : Bool) (cellm : BitVec 2) (rows rowb base : Nat) : Tile :=
  { Tile.init with valid := true, level := level, ring := ring, cellm := cellm, rows := rows, rowb := rowb, base := base }

/-- Allocate a tile (R211, R215, R216): the entry, or the reason of a refusal. -/
def allocTile (s : State) (core : Nat) (level : BitVec 2) (ring : Bool) (cellm : BitVec 2) (h rows rowb : Nat) : Except W32 State :=
  let st := { s with cur := { s.cur with core := core } }
  let plotCores := ((s.plotOf core).map (heldCores s)).getD [core]
  if level == 2 && !isLead st then .error 4
  else if (getTile s core h).valid || (level == 2 && plotCores.any fun c => (tget Tile.init (s.core c).tiles h).valid) then .error 1
  else if !tileLimits st level ring rows rowb then .error 2
  else
    let cells := stripeSet s core level cellm
    match findBase s cells (tileUnits (rows * rowb) cells.length) with
    | none => .error 3
    | some b => .ok (s.modCore core fun k => { k with tiles := tset Tile.init k.tiles h (newTile level ring cellm rows rowb b) })

/-- TALLOC. -/
def execTalloc (level : BitVec 2) (ring : Bool) (cellm : BitVec 2) (h : BitVec 6) (rows rowb : BitVec 32) (s : State) : Res :=
  tileCmd s fun t =>
    match allocTile t t.cur.core level ring cellm h.toNat rows.toNat rowb.toNat with
    | .error r => .bad r
    | .ok u => .done u 0

/-- TFREE (R216, R211). -/
def execTfree (h : BitVec 6) (s : State) : Res :=
  tileCmd s fun t =>
    let c := t.cur.core
    let e := getTile t c h.toNat
    if !e.valid then .bad 1
    else if e.level == 2 && !isLead t then .bad 4
    else if e.held then .bad 1
    else if e.holders != 0 || e.busy != 0 then .wait t
    else .done (modTile (zeroTile t c h.toNat e) c h.toNat fun _ => Tile.init) 0

/-- TRING (R216). -/
def execTring (h : BitVec 6) (fill : BitVec 32) (s : State) : Res :=
  tileCmd s fun t =>
    let c := t.cur.core
    let e := getTile t c h.toNat
    if !e.valid then .bad 1
    else if e.level == 2 && !isLead t then .bad 4
    else if !e.ring then .bad 5
    else if fill.toNat > e.rows then .bad 2
    else if e.busy != 0 || pointersHeld t c h.toNat then .wait t
    else .done (modTile t c h.toNat fun x => { x with rp := 0, wp := fill.toNat % x.rows, fill := fill.toNat }) 0

/-- Whether the command has already been taken. -/
def taken (s : State) : Bool := (((s.core s.cur.core).cmd s.cur.slot).map fun x => x.phase == .running).getD false

/-- TOWN.ENGINE: one holder until TOWN.SEQ; it completes when OWNER is ENGINE (R213). -/
def execTownEngine (h : BitVec 6) (s : State) : Res :=
  tileCmd s fun t =>
    let c := t.cur.core
    let e := getTile t c h.toNat
    if taken t then (if e.owner then .done t 0 else .wait t)
    else if !e.valid then .bad 1
    else if e.ring || e.held then .bad 1
    else
      let u := modTile t c h.toNat fun x => { x with held := true, holders := x.holders + 1 }
      if e.owner then .done u 0 else .wait u

/-- TOWN.SEQ. -/
def execTownSeq (h : BitVec 6) (s : State) : Res :=
  tileCmd s fun t =>
    let c := t.cur.core
    let e := getTile t c h.toNat
    if !e.valid then .bad 1
    else if e.ring || !e.held then .bad 1
    else .done (releaseTile (modTile t c h.toNat fun x => { x with held := false }) c h.toNat) 0

/-- ADVP (R214): RESULT is FILL after. -/
def execAdvp (h : BitVec 6) (count : BitVec 32) (s : State) : Res :=
  tileCmd s fun t =>
    let c := t.cur.core
    let e := getTile t c h.toNat
    if !e.valid then .bad 1
    else if !e.ring then .bad 5
    else if count.toNat > e.free then .bad 2
    else if (e.busy != 0 || pointersHeld t c h.toNat) && count != 0 then .wait t
    else .done (modTile t c h.toNat fun x => advanceP x count.toNat) (BitVec.ofNat 32 (e.fill + count.toNat))

/-- ADVC (R214): RESULT is FREE after. -/
def execAdvc (h : BitVec 6) (count : BitVec 32) (s : State) : Res :=
  tileCmd s fun t =>
    let c := t.cur.core
    let e := getTile t c h.toNat
    if !e.valid then .bad 1
    else if !e.ring then .bad 5
    else if count.toNat > e.fill then .bad 2
    else if (e.busy != 0 || pointersHeld t c h.toNat) && count != 0 then .wait t
    else .done (modTile t c h.toNat fun x => advanceC x count.toNat) (BitVec.ofNat 32 (e.free + count.toNat))

/-- The number of the acting TWAIT's wait; one that the tile table takes now comes after every other. -/
def waitNumber (s : State) : Nat :=
  match (s.core s.cur.core).cmd s.cur.slot with
  | some x => if x.phase == .running then x.prog else newId s
  | none => newId s

/-- TWAIT.FILL. -/
def execTwaitFill (h : BitVec 6) (k : BitVec 32) (s : State) : Res :=
  tileCmd s fun t =>
    let e := getTile t t.cur.core h.toNat
    if !e.valid then .bad 1
    else if !e.ring then .bad 5
    else if k.toNat > e.rows then .bad 2
    else if e.fill < k.toNat || servedFirst t t.cur.core h.toNat (waitNumber t) then .wait t
    else .done t (BitVec.ofNat 32 e.fill)

/-- TWAIT.FREE. -/
def execTwaitFree (h : BitVec 6) (k : BitVec 32) (s : State) : Res :=
  tileCmd s fun t =>
    let e := getTile t t.cur.core h.toNat
    if !e.valid then .bad 1
    else if !e.ring then .bad 5
    else if k.toNat > e.rows then .bad 2
    else if e.free < k.toNat || servedFirst t t.cur.core h.toNat (waitNumber t) then .wait t
    else .done t (BitVec.ofNat 32 e.free)

/-- TZERO (R216). -/
def execTzero (h : BitVec 6) (s : State) : Res :=
  tileCmd s fun t =>
    let c := t.cur.core
    let e := getTile t c h.toNat
    if !e.valid then .bad 1
    else if e.held then .bad 1
    else if e.owner || e.holders != 0 || e.busy != 0 then .wait t
    else .done (zeroTile t c h.toNat e) 0

/-- TSTAT (R216). -/
def execTstat (h : BitVec 6) (s : State) : Res :=
  tileCmd s fun t =>
    let e := getTile t t.cur.core h.toNat
    let free := if e.ring then e.free else 0
    .done t (BitVec.ofBool e.valid ++ BitVec.ofBool e.owner ++ BitVec.ofBool e.held ++ BitVec.ofBool e.ring ++ e.level ++
      BitVec.ofNat 13 free ++ BitVec.ofNat 13 e.fill)

/-- OWNER_FLIP (R213): a held plain tile becomes ENGINE when every earlier sequencer-side access has been performed. -/
def execOwnerFlip (core : Nat) (h : BitVec 6) (s : State) : Res :=
  let t := getTile s core h.toNat
  .next (if t.valid && !t.ring && t.holders != 0 && !t.owner && t.busy == 0 then modTile s core h.toNat fun x => { x with owner := true } else s)

end Sys2Proof.Machine
end

