-- ==== Sys2Proof/Machine/Ports.lean ====
section
/-!
DEFINITION. Stream ports: their registers and commands (R221, R231), the invocations that they run (R223 to R228), the injection
meters (R229, R423), and the words and barriers at the end of a run (R230).
-/

namespace Sys2Proof.Machine

/-! ### The plot that a port serves -/

/-- The number of identifiers of a plot before `wid` (R26, R27). -/
def Plot.rank (q : Plot) (wid : Word) : Nat :=
  [5, 4, 3, 2, 1, 0].foldl (fun n k => n * ((q.fieldRange k).2 - (q.fieldRange k).1) + ((widField q.widths k wid).toNat - (q.fieldRange k).1)) 0

/-- Invocations of the plot that a slot at a position has still to run. -/
def invLeft (q : Plot) (pos : Word) (ended : Bool) : Nat := if ended then 0 else q.total - q.rank pos

/-- The slot of a kind and index that the current bay of a core holds: cell and slot number (R69, R205). -/
def findSlot (s : State) (core kind idx : Nat) : Option (Nat × Nat) :=
  (List.range 16).findSome? fun i =>
    let w := slotWord s core (i / 2) (i % 2)
    if (w.extractLsb' 58 6).toNat == kind && (w.extractLsb' 54 4).toNat == idx then some (i / 2, i % 2) else none

/-- The slot that a port uses (R228): kinds 1 and 2, or 8 and 9 in VA mode (R227). -/
def portSlot (s : State) (core p : Nat) : Option (Nat × Nat) :=
  let q := s.port core p
  if q.va then (if p < 4 then none else findSlot s core (if q.dir then 9 else 8) (p - 4)) else findSlot s core (if q.dir then 2 else 1) p

/-- The arcs that an ingress slot feeds. -/
def slotArcs (s : State) (core : Nat) (x : Nat × Nat) : List (Nat × Nat × Nat) :=
  targetArcs s core x.1 false ((slotWord s core x.1 x.2).extractLsb' 33 15)

/-- The key of an egress slot's arc. -/
abbrev egressKey (x : Nat × Nat) : Nat := 4 * (6 + x.2)

/-! ### Commands (R231) -/

/-- A stream command: accepted at once, or only while the port is IDLE; its effect is the port's new registers with the RESULT, or
a value out of range (CODE FORMAT, RESULT 2). -/
def streamCmd (s : State) (p : BitVec 3) (idleOnly : Bool) (f : Port → Option (Port × W32)) : Res :=
  let c := s.cur.core
  .next (
    if !issuing s then s
    else if idleOnly && (s.port c p.toNat).state != .idle then acceptStall s (.port p.toNat)
    else
      let id := newId s
      let t := accept s [] 0
      match f (t.port c p.toNat) with
      | none => finishCmd t c id cFORMAT 2
      | some (q, r) => finishCmd (t.modPort c p.toNat fun _ => q) c id 0 r)

/-- A 40-bit value is the sign extension of its bits 39:0. -/
def fits40 (v : Word) : Bool := (v.extractLsb' 0 40).signExtend 64 == v

/-- SPLEV. -/
def execSplev (p : BitVec 3) (level : BitVec 2) (stride : Word) (count : BitVec 32) (s : State) : Res :=
  streamCmd s p true fun q =>
    if fits40 stride then some ({ q with stride := q.stride.set level.toNat stride.toInt, count := q.count.set level.toNat count.toNat }, 0)
    else none

/-- SPBASE.TILE. -/
def execSpbaseTile (p : BitVec 3) (b0 off : BitVec 32) (s : State) : Res :=
  streamCmd s p true fun q => if b0.extractLsb' 6 26 ≠ 0 then none else some ({ q with base := off ++ b0 }, 0)

/-- SPBASE.VA. -/
def execSpbaseVa (p : BitVec 3) (addr : Word) (s : State) : Res := streamCmd s p true fun q => some ({ q with base := addr }, 0)

/-- SPMODE: values out of range are SHEAF above 4, LANES outside 1 to 16, undefined bits of B0, VA on a port without it (R227), and
VA with AUTO (R226). -/
def execSpmode (p : BitVec 3) (mods : BitVec 7) (b0 ceil : BitVec 32) (s : State) : Res :=
  let c := s.cur.core
  streamCmd s p true fun q =>
    let lanes := (b0.extractLsb' 0 5).toNat
    let va := mods.getLsbD 1
    if b0.extractLsb' 5 3 ≠ 0 ∨ b0.extractLsb' 12 20 ≠ 0 ∨ lanes = 0 ∨ lanes > 16 ∨ (mods.extractLsb' 3 3).toNat > 4 ∨
        (va ∧ (p.toNat < 4 ∨ !isBridge c)) ∨ (va ∧ mods.getLsbD 2) then none
    else some ({ q with dir := mods.getLsbD 0, va := va, auto := mods.getLsbD 2, sheaf := mods.extractLsb' 3 3, ztail := mods.getLsbD 6,
                        lanes := lanes, chan := b0.extractLsb' 8 4, ceil := ceil }, 0)

/-- SPGO: RUN for `n` invocations, 0 for all that are left (R231). -/
def execSpgo (p : BitVec 3) (bar : Bool) (chan : BitVec 4) (n : BitVec 32) (s : State) : Res :=
  let q0 := s.plotOf s.cur.core
  streamCmd s p true fun q =>
    let avail := (q0.map fun x => invLeft x q.pos q.ended).getD 0
    let run := if n = 0 then avail else min n.toNat avail
    if run = 0 then some (q, 0)
    else some ({ q with state := .run, left := run, bar := bar, barChan := if bar then some chan.toNat else q.barChan },
      BitVec.ofNat 32 (min run 0xFFFFFFFF))

/-- No access of a port is still to be performed. -/
def portSettled (s : State) (core p : Nat) : Bool := s.accs.all fun a => a.agent != .port core p || accPerformed a

/-- SPCLOSE: the run ends after the invocation in progress; the command completes when the port is IDLE, which a write port becomes once its stores
have been performed. A run that it cuts short sends no DONE word and injects no BAR: the manual gives both to the last invocation that an SPGO asked
for (DEDUCED, logs 48, 101). -/
def execSpclose (p : BitVec 3) (s : State) : Res :=
  let c := s.cur.core
  .next (
    if issuing s then accept s [] 0
    else
      match (s.core c).cmd s.cur.slot with
      | none => s
      | some me =>
        let q := s.port c p.toNat
        if !(me.phase == .accepted || me.phase == .running) then s
        else if q.state == .idle then finishCmd s c me.id 0 (q.pos.setWidth 32)
        else if me.phase == .accepted && q.state == .run && !q.doneDue then
          let t := modCmd s c me.id fun x => { x with phase := .running }
          t.modPort c p.toNat fun x =>
            if x.started then { x with left := min x.left 1, bar := x.bar && x.left ≤ 1, closeRun := x.closeRun || x.left > 1 }
            else if portSettled s c p.toNat then { x with left := 0, bar := false, closeRun := false, waitId := 0, state := .idle }
            else { x with left := 0, bar := false, closeRun := true, doneDue := true, waitId := 0 }
        else s)

/-- SPQRY.LO. -/
def execSpqryLo (p : BitVec 3) (s : State) : Res := streamCmd s p false fun q => some (q, q.pos.setWidth 32)
/-- SPQRY.HI. -/
def execSpqryHi (p : BitVec 3) (s : State) : Res := streamCmd s p false fun q => some (q, q.pos.extractLsb' 32 32)

/-- The state code of SPQRY.ST. -/
def portCode (q : Port) : BitVec 2 :=
  match q.state with
  | .idle => if q.ended then 3 else 0
  | .run => 1
  | .fault => 2

/-- SPQRY.ST; a count that 30 bits cannot hold is a free value (log 21). -/
def execSpqrySt (p : BitVec 3) (bad : Bool) (s : State) : Res :=
  streamCmd s p false fun q =>
    if bad then none else some (q, (if q.left < 2 ^ 30 then BitVec.ofNat 30 q.left else Config.leftField q.left) ++ portCode q)

/-- SPWID. -/
def execSpwid (p : BitVec 3) (k : BitVec 3) (step : Word) (s : State) : Res :=
  streamCmd s p true fun q => if k.toNat > 5 || !fits40 step then none else some ({ q with wstep := q.wstep.set k.toNat step.toInt }, 0)

/-! ### Addresses (R223, R225) -/

/-- Elements of the class of a port's SHEAF code (R221); 0 for none. -/
def sheafClass (c : BitVec 3) : Nat := [0, 62, 61, 124, 122].getD c.toNat 0

/-- Trip counts of the nest: in blocked-sheaf mode level 0 counts sheaves. -/
def Port.trips (q : Port) : List Nat :=
  let n := sheafClass q.sheaf
  if n = 0 then q.count else q.count.set 0 (cdiv (q.count.getD 0 0) n)

/-- Tokens of one invocation. -/
def Port.tokens (q : Port) : Nat := q.trips.foldl (· * ·) 1

/-- Lanes of a token. -/
def Port.width (q : Port) : Nat := if sheafClass q.sheaf = 0 then q.lanes else 16

/-- The handle of a tile-mode port. -/
abbrev Port.handle (q : Port) : Nat := (q.base.extractLsb' 0 6).toNat

/-- The address of token `q.idx` of the invocation in progress. -/
def portAddr (s : State) (core : Nat) (q : Port) : Word :=
  let widths := ((s.plotOf core).map (·.widths)).getD []
  let base : Int := if q.va then (q.base.toNat : Int) else ((q.base.extractLsb' 32 32).toNat : Int)
  let b := (List.range 6).foldl (fun a k => a + (widField widths k q.pos).toNat * q.wstep.getD k 0) base
  let b := if q.auto then b + q.slot * (getTile s core q.handle).rowb else b
  let t := q.trips
  let n0 := max (t.getD 0 1) 1
  let n1 := max (t.getD 1 1) 1
  let n2 := max (t.getD 2 1) 1
  let i0 := q.idx % n0
  let i1 := q.idx / n0 % n1
  let i2 := q.idx / n0 / n1 % n2
  let i3 := q.idx / n0 / n1 / n2
  let s0 : Int := if sheafClass q.sheaf = 0 then q.stride.getD 0 0 else 64
  BitVec.ofInt 64 (b + i0 * s0 + i1 * q.stride.getD 1 0 + i2 * q.stride.getD 2 0 + i3 * q.stride.getD 3 0)

/-- The first position that a read port rewrites in the sheaf of token `q.idx`, 0 for none (R225). -/
def Port.tail (q : Port) : Nat :=
  let n := sheafClass q.sheaf
  let k := q.count.getD 0 0
  if n ≠ 0 ∧ q.ztail ∧ k % n ≠ 0 ∧ q.idx % cdiv k n = cdiv k n - 1 then k % n else 0

/-- Alignment of a port's tokens. -/
def Port.align (q : Port) : Nat := if sheafClass q.sheaf = 0 then 4 else 64

/-! ### Meters (R229, R423) -/

/-- Meter rate of a level. -/
def Cluster.rate (k : Cluster) (l : BitVec 2) : Nat := if l == 0 then k.mrLo.toNat else if l == 1 then k.mrMid.toNat else k.mrHi.toNat

/-- FMAX of a level (R420). -/
def fmaxOf (l : BitVec 2) : Nat := if l == 0 then 900 else if l == 1 then 1500 else 2000

/-- FDEF of a level (R420). -/
def fdefOf (l : BitVec 2) : Nat := if l == 0 then 900 else if l == 1 then 1200 else 1400

/-- The ceiling that a cluster's registers give (R423). -/
def Cluster.ceiling (k : Cluster) : Nat := min (k.rate k.meter) (fmaxOf k.meter) * k.scale.toNat / 256

/-- The power controller's ceiling for the ports of a core: FDEF while the firmware is lost (R428), at most FDEFLO after a thermal
trip (R427). -/
def powerCeiling (s : State) (core : Nat) : Nat :=
  let k := s.cluster (clusterOf core)
  let c := if s.regs.fwloss then fdefOf k.mlevel else k.ceil
  if k.tripped then min c (fdefOf 0) else c

/-- The tokens that a port may inject in one window. -/
def portCeiling (s : State) (core : Nat) (q : Port) : Nat := if q.ceil = 0 then powerCeiling s core else min q.ceil.toNat (powerCeiling s core)

/-- A new window of 1,000 ticks has begun: the counts start again and the ceilings take their present values (R229, R423). -/
def newWindow (s : State) : State :=
  if s.pace.toNat / 1000 = s.window.toNat then s
  else
    let s1 := { s with
      window := BitVec.ofNat 64 (s.pace.toNat / 1000)
      cores := s.cores.map fun e => (e.1, { e.2 with ports := e.2.ports.map fun x => (x.1, { x.2 with window := 0 }) }) }
    (List.range Config.clusters).foldl (fun t k => t.modCluster k fun c => { c with mlevel := c.meter, ceil := c.ceiling }) s1

/-- METER_WINDOW. -/
def execMeterWindow (s : State) : Res := .next (newWindow s)

/-! ### Invocations -/

/-- A port is able to move. -/
def portRuns (s : State) (core : Nat) (q : Port) : Bool := q.state == .run && ((s.plotOf core).map Plot.live).getD false

/-- PORT_INVOCATION_START (R226, R228): the slot, and for AUTO the ring and its next slot, for which it waits in the order of R214. The manual gives
no TVAL for a fault of the handle before any address exists: it is 0 (DESIGN CHOICE, log 100). -/
def execPortInvocationStart (core : Nat) (p : BitVec 3) (s : State) : Res :=
  let q := s.port core p.toNat
  .next (
    match s.plotOf core with
    | none => s
    | some pl =>
      if !portRuns s core q || q.started || q.left = 0 || q.ended || !mayBegin pl q.pos then s
      else
        match portSlot s core p.toNat with
        | none => portFault s core p.toNat cFORMAT 0 (portAddr s core { q with auto := false, idx := 0 }) false
        | some x =>
          let t := getTile s core q.handle
          if q.dir && (headOf s core x.1 (egressKey x)).isNone then s
          else if q.auto && !t.valid then portFault s core p.toNat cPERMISSION 0 0 false
          else if q.auto && !t.ring then portFault s core p.toNat cFORMAT 0 0 false
          else if q.auto && ((if q.dir then t.free = 0 else t.fill = 0) || servedFirst s core q.handle (if q.waitId = 0 then newId s else q.waitId)) then
            (if q.waitId = 0 then s.bump.modPort core p.toNat fun y => { y with waitId := newId s } else s)
          else s.modPort core p.toNat fun y => { y with started := true, idx := 0, waitId := 0, slot := if y.dir then t.wp else t.rp })

/-- The sectors of a span: (offset in the span, bytes) (R282, R287). -/
def sectorCuts (a : Word) (n : Nat) : List (Nat × Nat) :=
  (List.range (n / 32 + 2)).filterMap fun i =>
    let base := a.toNat / 32 * 32 + 32 * i
    let lo := max base a.toNat
    let hi := min (base + 32) (a.toNat + n)
    if lo < hi then some (lo - a.toNat, hi - lo) else none

/-- The part at offset `o` of a token at `a` belongs to the request of an earlier part: requests are cut at 256-byte boundaries only (R245, R247). -/
def laterPart (a : Word) (offs : List Nat) (o : Nat) : Bool := offs.any fun y => Nat.blt y o && (a.toNat + y) / 256 == (a.toNat + o) / 256

/-- A DATA token has been injected. -/
def portInjected (s : State) (core p : Nat) : State :=
  (s.count (dieOf core) 4 1).modPort core p fun x => { x with idx := x.idx + 1, window := x.window + 1, heldBack := false }

/-- Inject from a tile. -/
def injectTile (s : State) (core p : Nat) (q : Port) (arcs : List (Nat × Nat × Nat)) : State :=
  let a := portAddr s core q
  match tileCheck (getTile s core q.handle) a.toNat (4 * q.width) q.align false with
  | some c => portFault s core p c 0 a false
  | none =>
    match tileRead s core q.handle a.toNat (4 * q.width) with
    | (t, none) => portFault t core p cMEMUNCORR 0 a false
    | (t, some bs) =>
      let u := raceTile t (.port core p) core q.handle a.toNat (4 * q.width) false
      let bytes := if sheafClass q.sheaf = 0 then some bs else portSheaf bs (sheafClass q.sheaf) q.tail
      match bytes with
      | none => portFault u core p cFORMAT 0 a false
      | some bs =>
        let tok : Token := { kind := kDATA, mask := BitVec.ofNat 16 (2 ^ q.width - 1), lanes := wordsOf q.width bs ++ List.replicate (16 - q.width) 0 }
        portInjected (emit u arcs tok) core p

/-- Inject from device memory: the slots are reserved and memory fills them; a full FIFO of the bridge holds the token back (R237). -/
def injectVa (s : State) (core p : Nat) (q : Port) (arcs : List (Nat × Nat × Nat)) : State :=
  let a := portAddr s core q
  if a.toNat % q.align ≠ 0 then portFault s core p cALIGN 0 a false
  else if bridgeFull s core p then s
  else
    let id := newId s
    let u := reserve s.bump arcs id { kind := kDATA, mask := BitVec.ofNat 16 (2 ^ q.width - 1), lanes := zeroLanes }
    portInjected (bridgeEntered ((sectorCuts a (4 * q.width)).foldl (fun v x =>
      issueVa v core (.port core p) .read (a + BitVec.ofNat 64 x.1) x.2 [] false (.arc core (sheafClass q.sheaf) q.tail id (x.1 / 4)) (xfer := id)
        (sub := laterPart a ((sectorCuts a (4 * q.width)).map (·.1)) x.1)) u) core p) core p

/-- Whether a started invocation may go on: one of which no token has been injected begins only if a decision or a pre-emption lets it (R205). -/
def mayInject (s : State) (core : Nat) (q : Port) : Bool := q.idx != 0 || ((s.plotOf core).map fun x => mayBegin x q.pos).getD false

/-- PORT_INJECT_TOKEN (R223, R229): the meter of the present window holds a token back until the next one. -/
def execPortInjectToken (core : Nat) (p : BitVec 3) (s0 : State) : Res :=
  let s := newWindow s0
  let q := s.port core p.toNat
  .next (
    if !portRuns s core q || q.dir || !q.started || q.idx ≥ q.tokens || !mayInject s core q then s
    else
      match portSlot s core p.toNat with
      | none => s
      | some x =>
        let arcs := slotArcs s core x
        if q.window ≥ portCeiling s core q then
          if q.heldBack then s else (s.count (dieOf core) 5 1).modPort core p.toNat fun y => { y with heldBack := true }
        else if !(arcs.all fun y => arcFree s y) then s
        else if q.va then injectVa s core p.toNat q arcs
        else injectTile s core p.toNat q arcs)

/-- The invocation in progress is over: POS moves on, and the last one that an SPGO asked for is followed by the DONE word (R223,
R230). -/
def endInvocation (q : Plot) (x : Port) : Port :=
  let y := { x with started := false, idx := 0, left := x.left - 1, pos := (q.next x.pos).getD x.pos, ended := (q.next x.pos).isNone }
  if y.left = 0 then { y with doneDue := true, barDue := x.bar && !x.dir, bar := false, doneWid := x.pos } else y

/-- PORT_INJECT_EOI (R223, R164): the EOI of the invocation, then a BAR that the run ends with (R230); in VA mode the BAR waits at
its ordering point instead (R293). A ring pointer that a wait needs stays until the wait has been served (R214). -/
def execPortInjectEoi (core : Nat) (p : BitVec 3) (s : State) : Res :=
  let q := s.port core p.toNat
  .next (
    match s.plotOf core, portSlot s core p.toNat with
    | some pl, some x =>
      let arcs := slotArcs s core x
      if !portRuns s core q || q.dir || !(arcs.all fun y => arcFree s y) then s
      else if q.barDue then (if q.va then s else (noteBar (emit s arcs barTok) core p.toNat).modPort core p.toNat fun y => { y with barDue := false })
      else if !q.started || q.idx < q.tokens || !mayInject s core q || (q.auto && pointersHeld s core q.handle) then s
      else
        let t := emit s arcs (eoiTok q.pos (pl.close q.pos))
        let u := if q.auto then modTile t core q.handle fun e => advanceC e 1 else t
        u.modPort core p.toNat fun y => endInvocation pl y
    | _, _ => s)

/-- The runs of neighbouring active lanes of a token within sectors: (first lane, bytes). -/
def laneRuns (a : Word) (t : Token) (width : Nat) : List (Nat × List Byte) :=
  ((List.range width).filter fun j => t.mask.getLsbD j).foldl (fun acc j =>
    let b := natLe 4 (t.lane j).toNat
    match acc.getLast? with
    | none => [(j, b)]
    | some r =>
      if r.1 + r.2.length / 4 = j ∧ (a.toNat + 4 * r.1) / 32 = (a.toNat + 4 * j) / 32 then acc.dropLast ++ [(r.1, r.2 ++ b)]
      else acc ++ [(j, b)]) []

/-- Store a token to a tile. -/
def storeTile (s : State) (core p : Nat) (q : Port) (t : Token) (x : Nat × Nat) : State :=
  let a := portAddr s core q
  match tileCheck (getTile s core q.handle) a.toNat (4 * q.width) q.align true with
  | some c => portFault s core p c 0 a false
  | none =>
    let (u, ok) := (laneRuns a t q.width).foldl (fun r y =>
      let o := a.toNat + 4 * y.1
      let (v, ok) := tileWrite (raceTile r.1 (.port core p) core q.handle o y.2.length true) core q.handle o y.2
      (v, r.2 && ok)) (s, true)
    if ok then (popArc u core x.1 (egressKey x)).modPort core p fun y => { y with idx := y.idx + 1 }
    else portFault u core p cMEMUNCORR 0 a false

/-- The pages of a row of which no lane is stored must be mapped all the same (R223): the first that is not translated yet, or that faults. -/
def spanMapped (s : State) (core : Nat) (runs : List (Nat × List Byte)) (a : Word) (n : Nat) : Option (Xlate × State × Word) :=
  let used := runs.map fun r => (a.toNat + 4 * r.1) / 4096
  ((List.range ((a.toNat + n - 1) / 4096 + 1 - a.toNat / 4096)).filter fun i => !used.contains (a.toNat / 4096 + i)).findSome? fun i =>
    let va := if i = 0 then a else BitVec.ofNat 64 ((a.toNat / 4096 + i) * 4096)
    match translate s core (coreRoot s core) va false false with
    | (.hit _, _) => none
    | (x, t) => some (x, t, va)

/-- What a token stores, sector by sector: the offset of the first active lane of a sector, the bytes up to its last active lane, and the byte enables
where lanes between them are inactive. A sector is one access (R282). -/
def storeParts (a : Word) (t : Token) (width : Nat) : List (Nat × List Byte × List (Nat × Nat)) :=
  let runs := laneRuns a t width
  (sectorCuts a (4 * width)).filterMap fun x =>
    let mine := runs.filter fun r => x.1 ≤ 4 * r.1 && Nat.blt (4 * r.1) (x.1 + x.2)
    match mine.head?, mine.getLast? with
    | some r0, some r1 =>
      let n := r1.1 + r1.2.length / 4 - r0.1
      some (4 * r0.1, (List.range n).flatMap fun j => natLe 4 (t.lane (r0.1 + j)).toNat,
        if mine.length = 1 then [] else mine.map fun r => (4 * (r.1 - r0.1), r.2.length))
    | _, _ => none

/-- Store a token to device memory; the last sector of the row is a release at DEVICE scope (R287, R310, log 22). A full FIFO of the bridge leaves the
token in its arc (R237, R449). -/
def storeVa (s : State) (core p : Nat) (q : Port) (t : Token) (x : Nat × Nat) : State :=
  let a := portAddr s core q
  let parts := storeParts a t q.width
  if a.toNat % q.align ≠ 0 then portFault s core p cALIGN 0 a false
  else if bridgeFull s core p then s
  else
    match spanMapped s core (laneRuns a t q.width) a (4 * q.width) with
    | some (.fault f, u, va) => portFault u core p f.1 (if f.2 then 1 else 0) va (f.1 == cTRANSLATION || f.1 == cPERMISSION)
    | some (_, u, _) => u
    | none =>
      let id := newId s
      let v := parts.zipIdx.foldl (fun w y =>
        issueVa w core (.port core p) .write (a + BitVec.ofNat 64 y.1.1) y.1.2.1.length y.1.2.1 (y.2 + 1 = parts.length) .none (xfer := id)
          (parts := y.1.2.2) (sub := laterPart a (parts.map (·.1)) y.1.1)) s.bump
      let u := if parts.isEmpty then v else raceRelease (bridgeEntered v core p) core 2
      (popArc u core x.1 (egressKey x)).modPort core p fun y => { y with idx := y.idx + 1 }

/-- An EOI that a write port has consumed counts at its sink, and the invocation ends, once every store before it has been performed (R169, R224,
R449). -/
def storedEoi (s : State) (pl : Plot) (core p : Nat) (x : Nat × Nat) : State :=
  sinkMark (s.modPort core p fun y => endInvocation pl { y with eoiIn := false }) core x.1 (6 + x.2) kEOI

/-- PORT_STORE_TOKEN (R224, R225): stores DATA, ends the invocation at an EOI once its stores are performed, and lets a BAR pass; in VA mode a BAR
waits at its ordering point (R293). -/
def execPortStoreToken (core : Nat) (p : BitVec 3) (s : State) : Res :=
  let q := s.port core p.toNat
  .next (
    match s.plotOf core, portSlot s core p.toNat with
    | some pl, some x =>
      if q.eoiIn then (if portSettled s core p.toNat then storedEoi s pl core p.toNat x else s)
      else match headOf s core x.1 (egressKey x) with
      | none => s
      | some t =>
        let a := portAddr s core q
        if !pl.live || !q.dir || q.state == .fault then s
        else if t.kind == kBAR then
          if q.va then s else sinkMark (popArc s core x.1 (egressKey x)) core x.1 (6 + x.2) kBAR
        else if q.state != .run || !q.started then s
        else if t.kind == kEOI then
          if q.auto && pointersHeld s core q.handle then s
          else
            let u := popArc (if q.auto then modTile s core q.handle fun e => advanceP e 1 else s) core x.1 (egressKey x)
            if portSettled s core p.toNat then storedEoi u pl core p.toNat x else u.modPort core p.toNat fun y => { y with eoiIn := true }
        else if t.kind == 3 || q.idx ≥ q.tokens then portFault s core p.toNat cFORMAT 0 a false
        else if sheafClass q.sheaf ≠ 0 && !(t.mask == 0xFFFF && fmtReads ((t.lane 0).toNat % 256) (sheafClass q.sheaf)) then
          portFault s core p.toNat cFORMAT 0 a false
        else if q.va then storeVa s core p.toNat q t x
        else storeTile s core p.toNat q t x
    | _, _ => s)

/-- PORT_DONE_WORD (R230): the run has ended, a BAR that ends it has left, and every store has been performed. A run that SPCLOSE cut
short sends no word. -/
def execPortDoneWord (core : Nat) (p : BitVec 3) (s : State) : Res :=
  let q := s.port core p.toNat
  .next (
    if q.state != .run || !q.doneDue || q.barDue || (q.dir && !portSettled s core p.toNat) then s
    else
      let t := s.modPort core p.toNat fun y => { y with state := .idle, doneDue := false, closeRun := false }
      if q.closeRun then t else sendWord t (2000000 + core) core q.chan.toNat 2 (16 + p.toNat) q.doneWid)

end Sys2Proof.Machine
end

