-- ==== Sys2Proof/Machine/Sheaf.lean ====
section
/-!
DEFINITION. Sheaves (R81 to R87): formats, element classes, element values, and the building of a sheaf (R99).
-/

namespace Sys2Proof.Machine

/-- Float sheaf formats (R82). -/
def fmtFloat (fmt : Nat) : Option Fmt :=
  match fmt with
  | 1 => some e4m3
  | 2 => some e5m2
  | 5 => some e2m1
  | _ => none

/-- The code of element `j` (R84). -/
def elemCode (sh : List Byte) (fmt j : Nat) : Nat :=
  if elemBits fmt = 8 then (sh.getD (elemBase fmt + j) 0).toNat
  else (sh.getD (elemBase fmt + j / 2) 0).toNat / (if j % 2 = 0 then 1 else 16) % 16

/-- The value of a narrow float code (R81). -/
def narrowValue (f : Fmt) (c : Nat) : Fv :=
  let neg := c / 2 ^ (f.width - 1) % 2 == 1
  let m := c % 2 ^ (f.width - 1)
  if m ≤ f.maxCode then .num neg (f.magOf m).1 (f.magOf m).2
  else if f = e5m2 ∧ m = 0x7C then .inf neg else .nan

/-- The scale of the integer formats, UE5M3 (R82). -/
def ue5m3 (s : Nat) : Nat × Int := if s < 8 then (s, -17) else (8 + s % 8, (s / 8 : Nat) - 18)

/-- The signed integer that an element of an integer format stands for before scaling: c, or c - ZP (R85). -/
def intElem (sh : List Byte) (fmt j : Nat) : Int :=
  let c := elemCode sh fmt j
  let zp := signed 8 (sh.getD 2 0).toNat
  match fmt with
  | 3 => signed 8 c
  | 6 => signed 4 c
  | _ => c - zp

/-- The value of element `j` of a sheaf (R85). -/
def elemValue (sh : List Byte) (j : Nat) : Fv :=
  let fmt := (sh.headD 0).toNat
  let s := (sh.getD 1 0).toNat
  match fmt with
  | 0 => .num false 0 0
  | 1 | 2 | 5 =>
    if s = 255 then .nan
    else
      match narrowValue ((fmtFloat fmt).getD e4m3) (elemCode sh fmt j) with
      | .num neg m e => .num neg m (e + s - 127)
      | v => v
  | 3 | 4 | 6 | 7 =>
    let v := intElem sh fmt j
    let (m, e) := ue5m3 s
    .num (v < 0) (v.natAbs * m) e
  | _ => .nan

/-- The 64 bytes of a token, and the lanes of 64 bytes (R83). -/
def tokBytes (lanes : List W32) : List Byte := lanes.flatMap fun w => natLe 4 w.toNat

/-- The lanes of bytes. -/
def laneWords : Nat → List Byte → List W32
  | 0, _ => []
  | n + 1, bs => leBv 32 (bs.take 4) :: laneWords n (bs.drop 4)

/-- Encode one element (R99, R92): the exact quotient by the scale, rounded once. -/
def encodeElem (fmt s zp : Nat) (rs : Option Nat) (v : Fv) : Flagged :=
  match fmtFloat fmt with
  | some f =>
    match v with
    | .num neg m e => toFloat f rs (.num neg m (e + 127 - s))
    | x => toFloat f rs x
  | none =>
    let w := elemBits fmt
    let asym := fmt = 4 ∨ fmt = 7
    let lo : Int := if asym then 0 else -(2 ^ (w - 1) : Nat)
    let hi : Int := if asym then (2 ^ w : Nat) - 1 else (2 ^ (w - 1) : Nat) - 1
    let z : Int := if asym then signed 8 zp else 0
    match v with
    | .num neg m e =>
      let (sm, se) := ue5m3 s
      let (n, d) := ratOf m (e - se)
      let den := d * max sm 1
      let q : Int := (if neg then -(n : Int) else n) + z * den
      clampFlag w lo hi (roundInt (q < 0) q.natAbs den rs)
    | .inf neg => { code := (BitVec.ofInt w (if neg then lo else hi)).toNat, flag := true }
    | .nan => { code := (BitVec.ofInt w (clampInt lo hi z)).toNat, flag := true }

/-- A closed sheaf and the flag of each element. -/
structure Closed where
  bytes : List Byte
  flags : List Bool
  deriving DecidableEq, Repr

/-- Close a sheaf (R99): FP32 elements, scale word, format; `rand` gives the random word of an element under RS. -/
def closeSheaf (fmt : Nat) (sw : W32) (zd : Bool) (rand : Nat → Option Nat) (es : List W32) : Closed :=
  let s := sw.toNat % 256
  let zp := sw.toNat / 256 % 256
  let zero := List.replicate 64 (0 : Byte)
  if (fmtFloat fmt).isSome ∧ s = 255 then { bytes := zero.set 0 0xFF |>.set 1 (BitVec.ofNat 8 s), flags := es.map fun _ => false }
  else if (fmtFloat fmt).isNone ∧ s = 0 then
    { bytes := zero, flags := es.map fun e => e.toNat % 2 ^ 31 != 0 }
  else
    let r := es.zipIdx.map fun x => encodeElem fmt s zp (rand x.2) (fp32.value x.1.toNat)
    let base := (zero.set 0 (BitVec.ofNat 8 fmt)).set 1 (BitVec.ofNat 8 s)
    let base := if fmt = 4 ∨ fmt = 7 then base.set 2 (BitVec.ofNat 8 zp) else base
    let full := r.zipIdx.foldl (fun sh x => putElem sh fmt x.2 x.1.code) base
    let isZero := fun j => match elemValue full j with | .num _ m _ => m == 0 | _ => false
    { bytes := if zd && (List.range es.length).all isZero then zero else full, flags := r.map (·.flag) }

/-- The index of the flagged element of largest magnitude, a NaN largest, the lowest position on a tie (R96, R100). -/
def largestFlagged (key : Nat → Nat) (flags : List Bool) : Option Nat :=
  (List.range flags.length).foldl (fun best j =>
    if !flags.getD j false then best
    else
      match best with
      | none => some j
      | some b => if key b < key j then some j else best) none

/-- Magnitude order of FP32 words: a NaN counts as larger than every number. -/
def magKey (w : W32) : Nat := if fp32.isNan w.toNat then 2 ^ 32 else w.toNat % 2 ^ 31

/-- The source value as it stands on an overflow target: a NaN is written as the canonical NaN. -/
def srcValue (w : W32) : W32 := if fp32.isNan w.toNat then 0x7FC00000 else w

end Sys2Proof.Machine
end

