-- ==== Sys2Proof/Machine/Matrix.lean ====
section
/-!
DEFINITION. The matrix operator (R313 to R339): fields, acceptance, waves in the accumulation order of R323 with their checksums,
streams, accumulator commands, and commit.
-/

namespace Sys2Proof.Machine

/-! ### Fields (R316 to R318) -/

/-- What a matrix command does. -/
inductive MKind where
  | mma
  | mmv
  | mcoop
  | aclr
  | ard
  | awr
  deriving DecidableEq, Repr

/-- The fields of a matrix command. `rows` and `cols` are M and N, or the region of ARD and AWR; `row0` is the first accumulator row. -/
structure MInfo where
  kind : MKind
  acc : Nat
  ver : Byte
  z : Bool
  ty : Nat
  k : Nat
  rows : Nat
  cols : Nat
  row0 : Nat
  sa : Bool
  sb : Bool
  a : W32
  b : W32
  g : Option Nat
  sc : Option Nat
  gr : Nat
  gc : Nat
  tile : Bool
  clr : Bool
  eoi : Bool
  bar : Bool
  deriving DecidableEq, Repr

/-- A command without operands. -/
def MInfo.init : MInfo :=
  { kind := .aclr, acc := 0, ver := 0, z := false, ty := 0, k := 0, rows := 64, cols := 64, row0 := 0, sa := false, sb := false, a := 0, b := 0,
    g := none, sc := none, gr := 1, gc := 1, tile := false, clr := false, eoi := false, bar := false }

/-- The SHAPE field of a command (R317). -/
def MInfo.shape (i : MInfo) (v : W32) : MInfo :=
  { i with k := (v.extractLsb' 20 12).toNat, ver := v.extractLsb' 12 8, cols := (v.extractLsb' 6 6).toNat + 1, rows := (v.extractLsb' 0 6).toNat + 1 }

/-- The REGION field of a command (R317). -/
def MInfo.region (i : MInfo) (v : W32) : MInfo :=
  { i with ver := v.extractLsb' 12 8, cols := (v.extractLsb' 20 6).toNat + 1, rows := (v.extractLsb' 6 6).toNat + 1, row0 := (v.extractLsb' 0 6).toNat }

/-- The fields of a matrix command, `none` for another instruction. -/
def mInfo : Instr → Option MInfo
  | .mma acc z sb sa ty b0 b1 b2 =>
    some ({ MInfo.init with kind := .mma, acc := acc.toNat, z := z, sb := sb, sa := sa, ty := ty.toNat, a := b1, b := b2 }.shape b0)
  | .mmag acc z sb scat ty g sc b0 b1 b2 =>
    some ({ MInfo.init with kind := .mma, acc := acc.toNat, z := z, sb := sb, ty := ty.toNat, a := b1, b := b2, g := some g.toNat,
                            sc := if scat then some sc.toNat else none }.shape b0)
  | .mmv acc z ty b0 b1 b2 =>
    some { MInfo.init with kind := .mmv, acc := acc.toNat, z := z, ty := ty.toNat, a := b1, b := b2, k := (b0.extractLsb' 20 12).toNat,
                           ver := b0.extractLsb' 12 8, cols := (b0.extractLsb' 3 9).toNat + 1, rows := (b0.extractLsb' 0 3).toNat + 1 }
  | .mcoop acc z ty gr gc b0 b1 b2 =>
    some ({ MInfo.init with kind := .mcoop, acc := acc.toNat, z := z, ty := ty.toNat, a := b1, b := b2, gr := if gr then 2 else 1,
                            gc := gc.toNat + 1 }.shape b0)
  | .aclr acc b0 => some { MInfo.init with kind := .aclr, acc := acc.toNat, ver := b0.extractLsb' 12 8 }
  | .ard acc bar eoi clr tile b0 b1 =>
    some ({ MInfo.init with kind := .ard, acc := acc.toNat, bar := bar, eoi := eoi, clr := clr, tile := tile, a := b1 }.region b0)
  | .awr acc b0 b1 => some ({ MInfo.init with kind := .awr, acc := acc.toNat, a := b1 }.region b0)
  | _ => none

/-- Handle of an OPND field. -/
abbrev opHandle (v : W32) : Nat := (v.extractLsb' 0 6).toNat
/-- Byte origin of the columns of an OPND field. -/
abbrev opCol (v : W32) : Nat := 64 * (v.extractLsb' 6 10).toNat
/-- ROW0 of an OPND field. -/
abbrev opRow (v : W32) : Nat := (v.extractLsb' 16 16).toNat

/-- Elements per sheaf of a TYPE, 0 for the plain types (R318). -/
def typeClass (ty : Nat) : Nat := [0, 0, 62, 61, 124, 122].getD ty 0

/-- k-depth of a TYPE (R318). -/
def typeDepth (ty : Nat) : Nat := [8, 8, 16, 16, 32, 32].getD ty 8

/-- The row span of R319. -/
def rowSpan (ty k : Nat) : Nat := if typeClass ty = 0 then 2 * k else 64 * cdiv k (typeClass ty)

/-- Tokens of a streamed row (R320). -/
def rowTokens (ty k : Nat) : Nat := if typeClass ty = 0 then cdiv k 32 else cdiv k (typeClass ty)

/-- The handles that a command names, in the order of its fields. -/
def MInfo.handles (i : MInfo) : List Nat :=
  match i.kind with
  | .mma => (if i.sa then [] else [opHandle i.a]) ++ (if i.sb then [] else [opHandle i.b]) ++ i.g.toList ++ i.sc.toList
  | .mcoop => [opHandle i.a, opHandle i.b]
  | .mmv => [opHandle i.a]
  | .aclr => []
  | .ard => if i.tile then [opHandle i.a] else []
  | .awr => [opHandle i.a]

/-! ### Acceptance (R333) -/

/-- The cores of an MCOOP group, or the issuing core alone; none when the group does not lie in the plot or reaches a drained row. -/
def mGroup (s : State) (core : Nat) (i : MInfo) : Option (List Nat) :=
  if i.kind != .mcoop then some [core]
  else
    match s.plotOf core with
    | none => none
    | some q =>
      let (r, c) := q.pos core
      if r + i.gr ≤ q.h ∧ c + i.gc ≤ q.w ∧ (List.range i.gr).all (fun x => !q.drained.contains (r + x)) then
        some ((List.range (i.gr * i.gc)).map fun x => core + 8 * (x / i.gc) + x % i.gc)
      else none

/-- What the checks of R333 answer. -/
inductive MCheck where
  | ok (s : State)
  | bad (s : State) (code : Byte) (detail : Nat) (tval : Word)
  | wait (s : State) (walk : Nat)

/-- A field of R317 that breaks its layout. -/
def mFieldFault (core : Nat) (i : MInfo) (b0 b2 : W32) : Option W32 :=
  match i.kind with
  | .aclr => if b0 &&& ~~~0x000FF000#32 ≠ 0 then some b0 else none
  | .ard | .awr => if b0.extractLsb' 26 6 ≠ 0 ∨ i.row0 + i.rows > 64 then some b0 else none
  | .mmv => if b2.extractLsb' 15 17 ≠ 0 then some b2 else if !isBridge core then some b0 else none
  | .mma | .mcoop => none

/-- The row spans of R319 and the index ranges of R327: the OPND field of the first one outside its tile. -/
def mSpanFault (s : State) (core : Nat) (i : MInfo) : Option W32 :=
  let fits := fun (v : W32) (rows span : Nat) (anyRow : Bool) =>
    let t := getTile s core (opHandle v)
    span = 0 || (opCol v + span ≤ t.rowb && (anyRow || opRow v + rows ≤ t.rows))
  let span := rowSpan i.ty i.k
  let index := fun (h : Nat) => 4 * (opRow i.a + i.rows) ≤ (getTile s core h).size
  match i.kind with
  | .mma =>
    if !i.sa && !fits i.a i.rows span i.g.isSome then some i.a
    else if !i.sb && !fits i.b i.cols span false then some i.b
    else if (i.g.toList ++ i.sc.toList).all index then none else some i.a
  | .mcoop =>
    if !fits i.a (64 * (i.gr - 1) + i.rows) span false then some i.a
    else if !fits i.b (64 * (i.gc - 1) + i.cols) span false then some i.b else none
  | .mmv => if fits i.a i.rows span false then none else some i.a
  | .aclr => none
  | .ard => if !i.tile || fits i.a i.rows (4 * i.cols) false then none else some i.a
  | .awr => if fits i.a i.rows (4 * i.cols) false then none else some i.a

/-- The checks of R333 in their order. `desc` is the weight descriptor of an MMV. -/
def matrixCheck (s : State) (core : Nat) (i : MInfo) (b0 b2 : W32) (desc : List Byte) : MCheck :=
  let hs := i.handles
  match mFieldFault core i b0 b2 with
  | some v => .bad s cFORMAT 0 (v.setWidth 64)
  | none =>
    if (mGroup s core i).isNone then .bad s cFORMAT 0 (b0.setWidth 64)
    else
      match hs.find? fun h => !(getTile s core h).valid with
      | some h => .bad s cPERMISSION 0 (BitVec.ofNat 64 h)
      | none =>
        match hs.find? fun h => (getTile s core h).ring with
        | some h => .bad s cOWNER 0 (BitVec.ofNat 64 h)
        | none =>
          match mSpanFault s core i with
          | some v => .bad s cPERMISSION 0 (v.setWidth 64)
          | none =>
            if i.kind != .mmv then .ok s
            else
              let la := i.b.setWidth 64
              let wva : Word := leBv 64 (desc.take 8)
              let ws := leAt desc 8 8
              if i.b.toNat > 0x7FF0 then .bad s cPERMISSION 0 la
              else if i.b.toNat % 16 ≠ 0 then .bad s cALIGN 0 la
              else if wva.toNat % 64 ≠ 0 ∨ ws % 64 ≠ 0 ∨ ws < rowSpan i.ty i.k then .bad s cFORMAT 0 wva
              else
                match translate s core (coreRoot s core) wva false false with
                | (.fault f, t) => .bad t f.1 (if f.2 then 1 else 0) wva
                | (.wait w, t) => .wait t w
                | (.hit _, t) => .ok t

/-- Take holders on the tiles that a command names (R213). -/
def holdAll (s : State) (core : Nat) (hs : List Nat) : State := hs.eraseDups.foldl (fun t h => holdTile t core h) s

/-- Release the holders. -/
def releaseHolds (s : State) (core : Nat) (hs : List Nat) : State := hs.eraseDups.foldl (fun t h => releaseTile t core h) s

/-- Put an accepted command into the queue of every core of its group. -/
def matrixEnqueue (s : State) (core id : Nat) (i : MInfo) : State :=
  holdAll (((mGroup s core i).getD [core]).foldl (fun t c => t.modMat c fun m => { m with queue := m.queue ++ [(core, id)] }) s) core i.handles

/-- The core of the group whose queue is full. -/
def matrixFull (s : State) (core : Nat) (i : MInfo) : Option Nat :=
  ((mGroup s core i).getD [core]).find? fun c => (s.core c).mat.queue.length ≥ queueDepth

/-- The ISSUE of a matrix command; an accepted one waits for the events of its operator. -/
def matrixCmd (s : State) (x : Instr) (b0 b2 : W32) : Res :=
  let c := s.cur.core
  .next (
    if !issuing s then s
    else
      match mInfo x with
      | none => s
      | some i =>
        match matrixFull s c i with
        | some m => acceptStall s (.matrix m)
        | none =>
          let desc := if i.kind == .mmv then descriptor s (i.b.toNat % Config.localBytes) 16 else []
          match matrixCheck s c i b0 b2 desc with
          | .bad t code d tval => acceptFault t code d tval
          | .wait t w => acceptStall t (.walk w)
          | .ok t => matrixEnqueue (accept t desc 0) c (newId t) i)

/-- MMA (R326). -/
def execMma (acc : BitVec 2) (z sb sa : Bool) (ty : BitVec 3) (b0 b1 b2 : BitVec 32) (s : State) : Res :=
  matrixCmd s (.mma acc z sb sa ty b0 b1 b2) b0 b2

/-- MMAG (R327). -/
def execMmag (acc : BitVec 2) (z sb scat : Bool) (ty : BitVec 3) (g sc : BitVec 4) (b0 b1 b2 : BitVec 32) (s : State) : Res :=
  matrixCmd s (.mmag acc z sb scat ty g sc b0 b1 b2) b0 b2

/-- MMV (R328). -/
def execMmv (acc : BitVec 2) (z : Bool) (ty : BitVec 3) (b0 b1 b2 : BitVec 32) (s : State) : Res :=
  matrixCmd s (.mmv acc z ty b0 b1 b2) b0 b2

/-- MCOOP (R329). -/
def execMcoop (acc : BitVec 2) (z : Bool) (ty : BitVec 3) (gr : Bool) (gc : BitVec 3) (b0 b1 b2 : BitVec 32) (s : State) : Res :=
  matrixCmd s (.mcoop acc z ty gr gc b0 b1 b2) b0 b2

/-- ACLR (R330). -/
def execAclr (acc : BitVec 2) (b0 : BitVec 32) (s : State) : Res := matrixCmd s (.aclr acc b0) b0 0

/-- ARD (R332). -/
def execArd (acc : BitVec 2) (bar eoi clr tile : Bool) (b0 b1 : BitVec 32) (s : State) : Res :=
  matrixCmd s (.ard acc bar eoi clr tile b0 b1) b0 0

/-- AWR (R331). -/
def execAwr (acc : BitVec 2) (b0 b1 : BitVec 32) (s : State) : Res := matrixCmd s (.awr acc b0 b1) b0 0

/-! ### Ingress slots of engines (R332, R345, R365) -/

/-- Whether an engine's slot may inject (R205). -/
def slotMay (s : State) (core key : Nat) : Bool :=
  match s.plotOf core with
  | none => false
  | some q => q.live && ((slotPosOf s core key).begun || mayBegin q (slotPosOf s core key).pos)

/-- Change the position of an engine's slot. -/
def modSlotPos (s : State) (core key : Nat) (f : SlotPos → SlotPos) : State :=
  let p := f (slotPosOf s core key)
  s.modCore core fun k => { k with slotPos := tset SlotPos.init k.slotPos key p }

/-- A token has left an engine's slot: DATA begins an invocation, an EOI ends it and moves the position (R332). -/
def slotInjected (s : State) (core key : Nat) (kind : BitVec 2) : State :=
  if kind == kDATA then (modSlotPos s core key fun p => { p with begun := true }).count (dieOf core) 4 1
  else if kind == kEOI then
    match s.plotOf core with
    | none => s
    | some q => modSlotPos s core key fun p => { pos := (q.next p.pos).getD p.pos, begun := false, ended := (q.next p.pos).isNone }
  else s

/-- The EOI that a slot injects at its position. -/
def slotEoi (s : State) (core key : Nat) : Token :=
  let p := (slotPosOf s core key).pos
  eoiTok p (((s.plotOf core).map fun q => q.close p).getD 6)

/-- Inject one token through an ingress slot of an engine: the state after, when a slot exists, may inject and has room. -/
def injectSlot (s : State) (core kind idx : Nat) (t : Token) : Option State :=
  match findSlot s core kind idx with
  | none => none
  | some x =>
    let arcs := slotArcs s core x
    let key := 16 * kind + idx
    if slotMay s core key && arcs.all fun y => arcFree s y then some (slotInjected (emit s arcs t) core key t.kind) else none

/-- A marker at the head of an egress slot of an engine is consumed as at a sink (R320, R345, R365). -/
def slotSink (s : State) (core cell j : Nat) : State :=
  let w := slotWord s core cell j
  if ([3, 4, 6].contains (w.extractLsb' 58 6).toNat || (w.extractLsb' 58 6 == 10)) && ((s.plotOf core).map Plot.live).getD false then
    match headOf s core cell (egressKey (cell, j)) with
    | some t => if t.kind == kEOI || t.kind == kBAR then sinkMark (popArc s core cell (egressKey (cell, j))) core cell (6 + j) t.kind else s
    | none => s
  else s

/-! ### Faults of a command (R334, R335) -/

/-- Every core that works on a command, or queues it, lets it go. -/
def matrixDrop (s : State) (core id : Nat) : State :=
  { s with cores := s.cores.map fun e => (e.1, { e.2 with mat :=
      { e.2.mat with
        queue := e.2.mat.queue.filter fun x => x != (core, id)
        grant := if e.2.mat.grant == some (core, id) then none else e.2.mat.grant
        run := match e.2.mat.run with | some r => if r.core == core && r.id == id then none else some r | none => none } }) }

/-- The site of a command's stream slot, for the record of a plot fault (log 25). -/
def slotSite (s : State) (core kind idx : Nat) : Word :=
  match findSlot s core kind idx with
  | some x => BitVec.ofNat 64 (siteOf s core x.1 (6 + x.2))
  | none => 0

/-- A command ends in a fault without a commit: a trap of its sequencer, or for a streamed operand a plot fault (R334, R335). -/
def matrixFault (s : State) (core id : Nat) (i : MInfo) (code : Byte) (detail : Nat) (tval : Word) : State :=
  let t := releaseHolds (matrixDrop s core id) core i.handles
  if i.sa || i.sb then
    plotFault (t.modCore core fun k => { k with cmds := k.cmds.filter fun c => c.id != id }) core code detail 1 (slotSite s core (if i.sa then 3 else 4) 0) tval false
  else faultCommand t core id code detail tval 0 false

/-! ### Elements of operands (R319 to R321) -/

/-- A fault of an operand: its code, the detail of TCAUSE, and TVAL. -/
abbrev OpFault := Byte × Nat × Word

/-- Where the bytes of an operand row come from: the answer of a read is its bytes, a fault, or nothing yet. -/
abbrev RowRead := State → Nat → Nat → State × Except (Option OpFault) (List Byte)

/-- A row of a tile. -/
def rowOfTile (core h base : Nat) : RowRead := fun s o n =>
  match tileRead s core h (base + o) n with
  | (t, none) => (t, .error (some (cMEMUNCORR, 0, BitVec.ofNat 64 (base + o))))
  | (t, some b) => (t, .ok b)

/-- A row of stream tokens: inactive lanes supply zero. -/
def rowOfTokens (ts : List Token) : RowRead := fun s o n =>
  (s, .ok (slice (ts.flatMap fun t => tokBytes ((List.range 16).map fun j => if t.mask.getLsbD j then t.lane j else 0)) o n))

/-- Bytes of device memory as the operator reads them, through the core's translation cache (R328); those homed on another die cross the fabric (R247,
R291). -/
def readPieces (core : Nat) : List (Nat × Nat) → State → State × Except (Option OpFault) (List Byte)
  | [], s => (s, .ok [])
  | p :: ps, s =>
    let va := BitVec.ofNat 64 p.1
    match translate s core (coreRoot s core) va false false with
    | (.wait _, t) => (t, .error none)
    | (.fault f, t) => (t, .error (some (f.1, if f.2 then 1 else 0, va)))
    | (.hit e, t) =>
      let a := mkAccess t (.matrix core) .read e va p.2 [] .none
      if (t.die (a.home t)).removed then (t, .error (some (cCAUSALGAP, 0, va)))
      else
        match crossRead t (dieOf core) (a.home t) p.2 with
        | none => (t, .error none)
        | some t1 =>
          let (u, bs, code) := homeEffect (if a.host then flushHost t1 else t1) a
          if code ≠ 0 then (u, .error (some (code, 0, va)))
          else
            match readPieces core ps u with
            | (v, .error f) => (v, .error f)
            | (v, .ok rest) => (v, .ok (bs ++ rest))

/-- A row of weights (R328). -/
def rowOfDevice (core : Nat) (va : Word) : RowRead := fun s o n => readPieces core (pieces (va + BitVec.ofNat 64 o) n) s

/-- The halves of a plain row as numbers. -/
def plainValues (ty : Nat) : Nat → List Byte → List Fv
  | 0, _ => []
  | n + 1, bs => (if ty = 0 then bf16 else fp16).value (leNat (bs.take 2)) :: plainValues ty n (bs.drop 2)

/-- The elements k0 to k1 - 1 of a sheaf row, sheaf by sheaf. -/
def sheafValues (rd : RowRead) (n k0 k1 : Nat) (tval : Nat → Word) : List Nat → State → State × Except (Option OpFault) (List Fv)
  | [], s => (s, .ok [])
  | i :: is, s =>
    match rd s (64 * i) 64 with
    | (t, .error f) => (t, .error f)
    | (t, .ok sh) =>
      if !fmtReads (sh.headD 0).toNat n then (t, .error (some (cFORMAT, 0, tval (n * i))))
      else
        let mine := ((List.range n).filter fun j => k0 ≤ n * i + j && n * i + j < k1).map fun j => elemValue sh j
        match sheafValues rd n k0 k1 tval is t with
        | (u, .error f) => (u, .error f)
        | (u, .ok r) => (u, .ok (mine ++ r))

/-- The elements k0 to k1 - 1 of a row. -/
def chunkValues (ty k0 k1 : Nat) (rd : RowRead) (tval : Nat → Word) (s : State) : State × Except (Option OpFault) (List Fv) :=
  let n := typeClass ty
  if k1 ≤ k0 then (s, .ok [])
  else if n = 0 then
    match rd s (2 * k0) (2 * (k1 - k0)) with
    | (t, .error f) => (t, .error f)
    | (t, .ok bs) => (t, .ok (plainValues ty (k1 - k0) bs))
  else sheafValues rd n k0 k1 tval ((List.range ((k1 - 1) / n + 1 - k0 / n)).map fun i => k0 / n + i) s

/-- Read several rows. -/
def manyRows (f : Nat → State → State × Except (Option OpFault) (List Fv)) : List Nat → State → State × Except (Option OpFault) (List (List Fv))
  | [], s => (s, .ok [])
  | r :: rs, s =>
    match f r s with
    | (t, .error e) => (t, .error e)
    | (t, .ok v) =>
      match manyRows f rs t with
      | (u, .error e) => (u, .error e)
      | (u, .ok vs) => (u, .ok (v :: vs))

/-! ### Waves (R321 to R325) -/

/-- The value +0. -/
abbrev fvZero : Fv := .num false 0 0

/-- Whether a value is +0 or -0. -/
def Fv.isZero : Fv → Bool
  | .num _ m _ => m == 0
  | _ => false

/-- A product (R321): a zero A element gives +0 whatever B holds. -/
def mProduct (a b : Fv) : Fv := if a.isZero then fvZero else a.mul b

/-- The exact sum of the products of a chunk (R323): the specials first, and a zero sum is +0. -/
def chunkSum (as bs : List Fv) : Fv :=
  match (List.zipWith mProduct as bs).foldl Fv.add fvZero with
  | .num neg m e => if m = 0 then fvZero else .num neg m e
  | x => x

/-- The exponent of a common unit of finite values. -/
def unitExp (vs : List Fv) : Int :=
  vs.foldl (fun b v => match v with | .num _ m e => if m = 0 then b else min b e | _ => b) 0

/-- A value in a unit; a non-finite one counts 0, where it stands only against zeros. -/
def inUnit (u : Int) : Fv → Int
  | .num neg m e => scaleInt neg m e u
  | _ => 0

/-- The dot product of integers. -/
def dotInt (xs ys : List Int) : Int := (List.zipWith (· * ·) xs ys).sum

/-- The sum of integer vectors of `n` elements. -/
def sumVecs (n : Nat) (vs : List (List Int)) : List Int := (List.range n).map fun i => (vs.map fun v => v.getD i 0).sum

/-- The checksum comparison of a step (R325): residues modulo 255 of each row sum against the checksum column, and of each column
sum against the checksum row; rows and columns with a non-finite product are left out. -/
def waveOk (as bs : List (List Fv)) : Bool :=
  let n := (as.headD []).length
  let finite := fun (a b : List Fv) => (List.zipWith mProduct a b).all fun p => match p with | .num _ _ _ => true | _ => false
  let ia := as.map fun r => r.map (inUnit (unitExp as.flatten))
  let ib := bs.map fun r => r.map (inUnit (unitExp bs.flatten))
  let sb := sumVecs n ib
  let sa := sumVecs n ia
  ((as.zip ia).all fun x => !(bs.all fun b => finite x.1 b) || ((ib.map fun b => dotInt x.2 b).sum - dotInt x.2 sb) % 255 == 0) &&
    ((bs.zip ib).all fun y => !(as.all fun a => finite a y.1) || ((ia.map fun a => dotInt a y.2).sum - dotInt sa y.2) % 255 == 0)

/-- Key of an accumulator element. -/
abbrev accKey (acc row col : Nat) : Nat := 4096 * acc + 64 * row + col

/-- Where product (i, j) of a run stands: none for a discarded row (R327, R328). -/
def destOf (i : MInfo) (r : MRun) (row col : Nat) : Option Nat :=
  if i.kind == .mmv then some (accKey i.acc (8 * (col / 64) + row) (col % 64))
  else (r.crows.getD row none).map fun t => accKey i.acc t col

/-- Add the rounded chunk sums of rows and columns to the working copy (R323). -/
def addSums (i : MInfo) (r : MRun) (w : Tbl W32) (rows : List (Nat × List Fv)) (cols : List (Nat × List Fv)) : Tbl W32 :=
  rows.foldl (fun w x => cols.foldl (fun w y =>
    match destOf i r x.1 y.1 with
    | none => w
    | some k => tset 0 w k (BitVec.ofNat 32 (fp32.addW (tget 0 w k).toNat (fp32.round (chunkSum x.2 y.2))))) w) w

/-- Add the +0 of an inactive row (R323). -/
def addZeros (i : MInfo) (r : MRun) (w : Tbl W32) (rows cols : List Nat) : Tbl W32 :=
  addSums i r w (rows.map fun x => (x, [])) (cols.map fun y => (y, []))

/-- The rows and columns of the part of a command that a core computes, and the offset of its block (R329). -/
def localDims (core : Nat) (r : MRun) (i : MInfo) : Nat × Nat × Nat × Nat :=
  if i.kind == .mcoop then
    let dr := rowOf core - rowOf r.core
    let dc := colOf core - colOf r.core
    (if dr + 1 < i.gr then 64 else i.rows, if dc + 1 < i.gc then 64 else i.cols, 64 * dr, 64 * dc)
  else (i.rows, i.cols, 0, 0)

/-- TVAL of a FORMAT in an operand (R334). -/
def operandTval (ty : Nat) (operand row k : Nat) : Word :=
  BitVec.ofNat 64 (k / typeDepth ty % 65536 * 65536 + operand * 256 + row % 256)

/-- The A elements of a chunk for product row `x`. -/
def aValues (r : MRun) (i : MInfo) (off k0 k1 x : Nat) (s : State) : State × Except (Option OpFault) (List Fv) :=
  let t := rowTokens i.ty i.k
  if i.sa then chunkValues i.ty k0 k1 (rowOfTokens (slice r.atok (t * x) t)) (operandTval i.ty 0 x) s
  else
    match r.arows.getD x none with
    | none => (s, .ok (List.replicate (k1 - k0) fvZero))
    | some row => chunkValues i.ty k0 k1 (rowOfTile r.core (opHandle i.a) ((row + off) * (getTile s r.core (opHandle i.a)).rowb + opCol i.a)) (operandTval i.ty 0 (x + off)) s

/-- The B elements of a chunk for column `y`. -/
def bValues (core : Nat) (r : MRun) (i : MInfo) (off k0 k1 y : Nat) (s : State) : State × Except (Option OpFault) (List Fv) :=
  let t := rowTokens i.ty i.k
  if i.kind == .mmv then
    let desc := (((s.core r.core).cmd r.id).map (·.desc)).getD []
    chunkValues i.ty k0 k1 (rowOfDevice core (leBv 64 (desc.take 8) + BitVec.ofNat 64 (y * leAt desc 8 8))) (operandTval i.ty 1 y) s
  else if i.sb then chunkValues i.ty k0 k1 (rowOfTokens (slice r.btok (t * y) t)) (operandTval i.ty 1 y) s
  else chunkValues i.ty k0 k1 (rowOfTile r.core (opHandle i.b) ((opRow i.b + off + y) * (getTile s r.core (opHandle i.b)).rowb + opCol i.b)) (operandTval i.ty 1 (y + off)) s

/-- Replace the run of a core. -/
def setRun (s : State) (core : Nat) (r : MRun) : State := s.modMat core fun m => { m with run := some r }

/-- One step of a wave (R322): at the first step of a chunk the active row groups are found; then one active group, or for MMV one
block of 64 columns, is multiplied, checked and added. `core` is where the block is computed. -/
def waveStep (s : State) (core : Nat) (r : MRun) (i : MInfo) : State :=
  let d := typeDepth i.ty
  let mmv := i.kind == MKind.mmv
  let k0 := r.chunk * d
  let k1 := min (k0 + d) i.k
  let (m, n, ro, co) := localDims core r i
  let fail := fun (t : State) (f : OpFault) => matrixFault t r.core r.id i f.1 f.2.1 f.2.2
  match manyRows (aValues r i ro k0 k1) (List.range m) s with
  | (t, .error none) => t
  | (t, .error (some f)) => fail t f
  | (t, .ok as) =>
    let active := (List.range (cdiv m 8)).filter fun g => (slice as (8 * g) 8).any fun a => a.any fun v => !v.isZero
    let todo := if r.began then r.todo else if mmv then (if active.isEmpty then [] else List.range (cdiv n 64)) else active
    let cols := if mmv then (match todo with | [] => [] | b :: _ => (List.range (min 64 (n - 64 * b))).map fun y => 64 * b + y) else List.range n
    match manyRows (bValues core r i co k0 k1) cols t with
    | (u, .error none) => u
    | (u, .error (some f)) => fail u f
    | (u, .ok bs) =>
      let rows := match todo with | [] => [] | g :: _ => if mmv then List.range m else (List.range (min 8 (m - 8 * g))).map fun x => 8 * g + x
      let mine := rows.map fun x => (x, as.getD x [])
      if !waveOk (mine.map (·.2)) bs then
        fail u (cMATCHECK, 0, BitVec.ofNat 64 (r.chunk % 65536 * 65536 + todo.headD 0 % 256 * 256 +
          (if i.kind == .mcoop then (rowOf core - rowOf r.core) * i.gc + (colOf core - colOf r.core) else 0)))
      else
        let idle := (List.range m).filter fun x => !active.contains (x / 8)
        let w0 := if r.began then r.work else addZeros i r r.work idle (List.range n)
        let w1 := addSums i r w0 mine (cols.zip bs)
        let left := todo.drop 1
        let r1 := { r with work := w1, steps := r.steps + 1, todo := left, began := !left.isEmpty, chunk := if left.isEmpty then r.chunk + 1 else r.chunk }
        let v := (setRun u core r1).count (dieOf core) 1 1
        if r.began then v else v.count (dieOf core) 2 (cdiv m 8 - active.length)

/-! ### Start (R315, R320, R327) -/

/-- The outstanding command and fields that a queue entry names. -/
def mCommand (s : State) (e : Nat × Nat) : Option (Cmd × MInfo) :=
  match (s.core e.1).cmd e.2 with
  | none => none
  | some c =>
    match decodeCommand c.cmd with
    | .error _ => none
    | .ok x => (mInfo x).map fun i => (c, i)

/-- A queued command is ready at an operator but for the grant (R315): its version, its tiles, the accesses before an MMV (R291), and the
slot of a streaming ARD (R332). -/
def mReady (s : State) (core : Nat) (e : Nat × Nat) : Bool :=
  match mCommand s e with
  | none => false
  | some (_, i) =>
    tget 0 (s.core core).mat.vers i.acc == i.ver && i.handles.all (fun h => tileReady s e.1 h) &&
      (i.kind != .mmv || seqReachedBefore s e.1 e.2) && (i.kind != .ard || i.tile || slotMay s core (16 * 5)) &&
      ((s.plotOf e.1).map Plot.live).getD false

/-- The oldest ready command of an operator that waits for a grant. -/
def mCandidate (s : State) (core : Nat) : Option (Nat × Nat) :=
  let m := (s.core core).mat
  if m.run.isSome || m.grant.isSome then none else m.queue.find? fun e => mReady s core e

/-- The index entries of MMAG: 32-bit words (R327). -/
def indexEntries (s : State) (core h e n : Nat) : State × Except OpFault (List Nat) :=
  match tileRead s core h (4 * e) (4 * n) with
  | (t, none) => (t, .error (cMEMUNCORR, 0, BitVec.ofNat 64 (4 * e)))
  | (t, some bs) => (t, .ok ((wordsOf n bs).map (·.toNat)))

/-- The first scatter entry that is out of range or named before. -/
def badScatter (l : List Nat) : Option Nat :=
  (List.range l.length).find? fun x =>
    let v := l.getD x 0
    v != 0xFFFFFFFF && (v > 63 || (l.take x).contains v)

/-- The rows of a run: the tile row of each product row of A, and the accumulator row that it reaches. The index entries of MMAG are read and checked
(R327) with K = 0 too, where R326 has the command read nothing of A and B (DESIGN CHOICE, log 120). -/
def runRows (s : State) (core : Nat) (i : MInfo) : State × Except OpFault (List (Option Nat) × List (Option Nat)) :=
  let own := (List.range 64).map some
  let bad := fun (x : Nat) => (cFORMAT, 0, BitVec.ofNat 64 (2 * 256 + x))
  match i.g with
  | none => (s, .ok ((List.range 64).map fun x => some (opRow i.a + x), own))
  | some g =>
    match indexEntries s core g (opRow i.a) i.rows with
    | (t, .error f) => (t, .error f)
    | (t, .ok gs) =>
      let lim := min 65536 (getTile t core (opHandle i.a)).rows
      match (List.range i.rows).find? fun x => gs.getD x 0 != 0xFFFFFFFF && gs.getD x 0 ≥ lim with
      | some x => (t, .error (bad x))
      | none =>
        let arows := gs.map fun v => if v = 0xFFFFFFFF then none else some v
        match i.sc with
        | none => (t, .ok (arows, own))
        | some h =>
          match indexEntries t core h (opRow i.a) i.rows with
          | (u, .error f) => (u, .error f)
          | (u, .ok ss) =>
            match badScatter ss with
            | some x => (u, .error (bad x))
            | none => (u, .ok (arows, ss.map fun v => if v = 0xFFFFFFFF then none else some v))

/-- The elements of the region of a command on a core (R323, R332). -/
def regionKeys (core : Nat) (r : MRun) (i : MInfo) : List Nat :=
  let (m, n, _, _) := localDims core r i
  match i.kind with
  | .aclr => (List.range 4096).map fun x => 4096 * i.acc + x
  | .ard | .awr => (List.range i.rows).flatMap fun x => (List.range i.cols).map fun y => accKey i.acc (i.row0 + x) y
  | _ => (List.range m).flatMap fun x => (List.range n).filterMap fun y => destOf i r x y

/-- The tokens of an ARD (R332). -/
def ardTokens (s : State) (core : Nat) (i : MInfo) : List Token :=
  let a := (s.core core).mat.accs
  let rows := (List.range i.rows).flatMap fun x => (List.range (cdiv i.cols 16)).map fun t =>
    dataTok (if 16 * t + 16 ≤ i.cols then 0xFFFF else BitVec.ofNat 16 (2 ^ (i.cols - 16 * t) - 1)) fun j => tget 0 a (accKey i.acc (i.row0 + x) (16 * t + j))
  rows ++ (if i.eoi then [slotEoi s core (16 * 5)] else []) ++ (if i.bar then [barTok] else [])

/-- Start one core's part of a command. -/
def startRun (s : State) (core : Nat) (e : Nat × Nat) (i : MInfo) (arows crows : List (Option Nat)) : State :=
  let r : MRun := { core := e.1, id := e.2, work := (s.core core).mat.accs, arows := arows, crows := crows, chunk := 0, began := false, todo := [],
                    steps := 0, atok := [], btok := [], out := if i.kind == .ard && !i.tile then ardTokens s core i else [] }
  let clear := i.kind == .aclr || i.z || (i.kind == .ard && i.clr)
  let work := if clear then (regionKeys core r i).foldl (fun w k => tdel w k) r.work else r.work
  s.modMat core fun m => { m with queue := m.queue.filter fun x => x != e, run := some { r with work := work } }

/-- MATRIX_START: a granted command begins; the cores of an MCOOP group begin together (R315, R329, R426). -/
def execMatrixStart (core : Nat) (s : State) : Res :=
  .next (
    match (s.core core).mat.grant with
    | none => s
    | some e =>
      match mCommand s e with
      | none => s
      | some (_, i) =>
        let group := (mGroup s e.1 i).getD [core]
        if !group.all (fun c => (s.core c).mat.run.isNone && (s.core c).mat.grant == some e && mReady s c e) then s
        else
          let t := modCmd s e.1 e.2 fun c => { c with phase := .running }
          if (i.sa && (findSlot t core 3 0).isNone) || (i.sb && (findSlot t core 4 0).isNone) ||
              (i.kind == .ard && !i.tile && (findSlot t core 5 0).isNone) then matrixFault t e.1 e.2 i cFORMAT 0 0
          else
            match runRows t e.1 i with
            | (u, .error f) => matrixFault u e.1 e.2 i f.1 f.2.1 f.2.2
            | (u, .ok (arows, crows)) => group.foldl (fun v c => startRun v c e i arows crows) u)

/-! ### Steps and commit (R322, R336) -/

/-- Take the next token that a streamed operand needs (R320). -/
def takeToken (s : State) (core : Nat) (r : MRun) (i : MInfo) (kind : Nat) : State :=
  match findSlot s core kind 0 with
  | none => s
  | some x =>
    match headOf s core x.1 (egressKey x) with
    | none => s
    | some t =>
      let n := if kind = 3 then r.atok.length else r.btok.length
      let w := rowTokens i.ty i.k
      let tval := operandTval i.ty (kind - 3) (n / w) (n % w * (if typeClass i.ty = 0 then 32 else typeClass i.ty))
      if t.kind == 3 || (t.kind == kDATA && typeClass i.ty ≠ 0 && t.mask != 0xFFFF) then matrixFault s r.core r.id i cFORMAT 0 tval
      else if t.kind != kDATA then s
      else
        let u := popArc s core x.1 (egressKey x)
        setRun u core (if kind = 3 then { r with atok := r.atok ++ [t] } else { r with btok := r.btok ++ [t] })

/-- Chunks of a command. -/
def chunks (i : MInfo) : Nat :=
  match i.kind with
  | .mma | .mmv | .mcoop => cdiv i.k (typeDepth i.ty)
  | _ => 0

/-- MATRIX_WAVE_STEP: the command in progress takes a token, injects one, or does one step of a wave. -/
def execMatrixWaveStep (core : Nat) (s : State) : Res :=
  .next (
    match (s.core core).mat.run with
    | none => s
    | some r =>
      match mCommand s (r.core, r.id) with
      | none => s
      | some (_, i) =>
        let t := rowTokens i.ty i.k
        match r.out with
        | x :: rest =>
          match injectSlot s core 5 0 x with
          | some u => setRun u core { r with out := rest, steps := if x.kind == kDATA then r.steps + 1 else r.steps }
          | none => s
        | [] =>
          if i.sa && r.atok.length < i.rows * t then takeToken s core r i 3
          else if i.sb && r.btok.length < i.cols * t then takeToken s core r i 4
          else if r.chunk < chunks i then waveStep s core r i
          else s)

/-- A core's part of a command is done. -/
def runDone (r : MRun) (i : MInfo) : Bool := r.chunk ≥ chunks i && r.out.isEmpty

/-- The rows of AWR as they stand in the tile: the working copy, or a fault (R331). -/
def awrRows (core : Nat) (r : MRun) (i : MInfo) : List Nat → State × Except OpFault (Tbl W32) → State × Except OpFault (Tbl W32)
  | [], a => a
  | _, (s, .error f) => (s, .error f)
  | x :: xs, (s, .ok w) =>
    let o := (opRow i.a + x) * (getTile s r.core (opHandle i.a)).rowb + opCol i.a
    awrRows core r i xs (
      match tileRead s r.core (opHandle i.a) o (4 * i.cols) with
      | (t, none) => (t, .error (cMEMUNCORR, 0, BitVec.ofNat 64 o))
      | (t, some bs) => (t, .ok (((wordsOf i.cols bs).zipIdx).foldl (fun w y => tset 0 w (accKey i.acc (i.row0 + x) y.2) y.1) w)))

/-- The rows of ARD.TILE into the tile (R332). -/
def ardRows (core : Nat) (r : MRun) (i : MInfo) : List Nat → State × Option OpFault → State × Option OpFault
  | [], a => a
  | _, (s, some f) => (s, some f)
  | x :: xs, (s, none) =>
    let o := (opRow i.a + x) * (getTile s r.core (opHandle i.a)).rowb + opCol i.a
    let bs := (List.range i.cols).flatMap fun y => natLe 4 (tget 0 (s.core core).mat.accs (accKey i.acc (i.row0 + x) y)).toNat
    ardRows core r i xs (
      match tileWrite s r.core (opHandle i.a) o bs with
      | (t, true) => (unmarkTile t r.core (opHandle i.a) o bs.length, none)
      | (t, false) => (t, some (cMEMUNCORR, 0, BitVec.ofNat 64 o)))

/-- The part of a commit that moves a tile's bytes. -/
def commitTile (s : State) (core : Nat) (r : MRun) (i : MInfo) : State × Except OpFault (Tbl W32) :=
  match i.kind with
  | .awr => awrRows core r i (List.range i.rows) (s, .ok r.work)
  | .ard =>
    if i.tile then
      match ardRows core r i (List.range i.rows) (s, none) with
      | (t, some f) => (t, .error f)
      | (t, none) => (t, .ok r.work)
    else (s, .ok r.work)
  | _ => (s, .ok r.work)

/-- MATRIX_COMMIT: every core of the group has done its part; accumulators, versions, holders and the status word in that order
(R329, R336). -/
def execMatrixCommit (core : Nat) (s : State) : Res :=
  .next (
    match (s.core core).mat.run with
    | none => s
    | some r =>
      match mCommand s (r.core, r.id) with
      | none => s
      | some (_, i) =>
        let group := (mGroup s r.core i).getD [core]
        let runs := group.filterMap fun c => ((s.core c).mat.run.filter fun x => x.core == r.core && x.id == r.id && runDone x i).map fun x => (c, x)
        if runs.length < group.length then s
        else
          match commitTile s core r i with
          | (t, .error f) => matrixFault t r.core r.id i f.1 f.2.1 f.2.2
          | (t, .ok w) =>
            let u := runs.foldl (fun v x => v.modMat x.1 fun m =>
              { m with accs := if x.1 = core then w else x.2.work, vers := tmod 0 m.vers i.acc (· + 1), run := none, grant := none }) t
            finishCmd (releaseHolds u r.core i.handles) r.core r.id 0 (BitVec.ofNat 32 (if i.kind == .ard && i.tile then 0 else (runs.map fun x => x.2.steps).sum)))

end Sys2Proof.Machine
end

