-- ==== Sys2Proof/Machine/Copy.lean ====
section
/-!
DEFINITION. Copy engines (R357 to R374): fields, the descriptor and its nests, acceptance, the movement of bytes in sequence order,
streams, flags, follow-on commands, completion and faults.
-/

namespace Sys2Proof.Machine

/-! ### Fields and descriptor (R359 to R362) -/

/-- The copy functions. -/
inductive CFn where
  | cpy
  | cpyx
  | cpyf
  | csig
  deriving DecidableEq, Repr

/-- The fields of a copy command. Kinds are 0 VA, 1 tile, 2 stream slot. -/
structure CInfo where
  fn : CFn
  sk : Nat
  dk : Nat
  eoi : Bool
  adv : Bool
  flag : Bool
  eng : Nat
  sidx : Nat
  ldesc : W32
  n1 : W32
  b2 : W32
  deriving DecidableEq, Repr

/-- The fields of a copy command, `none` for another instruction. `flag` is .FB or .SYS. -/
def cInfo : Instr → Option CInfo
  | .cpy sk dk eoi adv eng sidx b0 b1 =>
    some { fn := .cpy, sk := sk.toNat, dk := dk.toNat, eoi := eoi, adv := adv, flag := false, eng := eng.toNat, sidx := sidx.toNat, ldesc := b0, n1 := b1, b2 := 0 }
  | .cpyx sk dk eoi adv eng sidx b0 b1 =>
    some { fn := .cpyx, sk := sk.toNat, dk := dk.toNat, eoi := eoi, adv := adv, flag := false, eng := eng.toNat, sidx := sidx.toNat, ldesc := b0, n1 := b1, b2 := 0 }
  | .cpyf sk fb eng sidx b0 b1 b2 =>
    some { fn := .cpyf, sk := sk.toNat, dk := 1, eoi := false, adv := false, flag := fb, eng := eng.toNat, sidx := sidx.toNat, ldesc := b0, n1 := b1, b2 := b2 }
  | .csig sk dk sys eng sidx b0 b1 b2 =>
    some { fn := .csig, sk := sk.toNat, dk := dk.toNat, eoi := false, adv := false, flag := sys, eng := eng.toNat, sidx := sidx.toNat, ldesc := b0, n1 := b1, b2 := b2 }
  | _ => none

/-- One side of a copy (R361): a virtual base, or a handle and a tile offset. -/
structure Side where
  kind : Nat
  h : Nat
  base : Int
  run : Nat
  cnt : List Nat
  str : List Int
  deriving DecidableEq, Repr

/-- The side whose base stands at offset `o` of a descriptor; N1 replaces the first count (R359). -/
def sideAt (desc : List Byte) (o kind : Nat) (n1 : W32) : Side :=
  let b := leAt desc o 8
  { kind := kind, h := b % 64, base := if kind = 1 then ((b / 2 ^ 32 : Nat) : Int) else (b : Int), run := leAt desc (o + 8) 4,
    cnt := [if n1 = 0 then leAt desc (o + 12) 4 else n1.toNat, leAt desc (o + 16) 4, leAt desc (o + 20) 4],
    str := [signed 64 (leAt desc (o + 24) 8), signed 64 (leAt desc (o + 32) 8), signed 64 (leAt desc (o + 40) 8)] }

/-- Source of a command. -/
abbrev CInfo.src (i : CInfo) (desc : List Byte) : Side := sideAt desc 0 i.sk i.n1
/-- Destination of a command. -/
abbrev CInfo.dst (i : CInfo) (desc : List Byte) : Side := sideAt desc 64 i.dk i.n1

/-- Runs of a nest. -/
def Side.runs (d : Side) : Nat := d.cnt.foldl (· * ·) 1
/-- Bytes of a nest. -/
def Side.total (d : Side) : Nat := d.run * d.runs

/-- The address or tile offset of run `n` (R362). -/
def Side.start (d : Side) (n : Nat) : Int :=
  let c1 := max (d.cnt.getD 0 1) 1
  let c2 := max (d.cnt.getD 1 1) 1
  d.base + (n % c1 : Nat) * d.str.getD 0 0 + (n / c1 % c2 : Nat) * d.str.getD 1 0 + (n / c1 / c2 : Nat) * d.str.getD 2 0

/-- Where byte `p` of the sequence stands on a side. -/
def Side.at_ (d : Side) (p : Nat) : Int := d.start (p / max d.run 1) + (p % max d.run 1 : Nat)

/-- The lowest byte of a nest and the end of its highest run. -/
def Side.span (d : Side) : Int × Int :=
  let ext := (d.cnt.zip d.str).map fun x => ((x.1 : Int) - 1) * x.2
  (d.base + (ext.map fun x => min 0 x).sum, d.base + (ext.map fun x => max 0 x).sum + d.run)

/-- The destination nest is ascending (R362). -/
def Side.ascending (d : Side) : Bool :=
  let c1 := d.cnt.getD 0 1
  let c2 := d.cnt.getD 1 1
  let s1 := d.str.getD 0 0
  let s2 := d.str.getD 1 0
  let s3 := d.str.getD 2 0
  d.total == 0 || ((c1 ≤ 1 || (d.run : Int) ≤ s1) && (c2 ≤ 1 || (d.run : Int) ≤ s2 - ((c1 : Int) - 1) * s1) &&
    (d.cnt.getD 2 1 ≤ 1 || (d.run : Int) ≤ s3 - ((c1 : Int) - 1) * s1 - ((c2 : Int) - 1) * s2))

/-- Handle and offset of IDXREF. -/
def idxRef (desc : List Byte) : Nat × Nat := (leAt desc 48 8 % 64, leAt desc 48 8 / 2 ^ 32)

/-- The flag address of a CSIG. -/
abbrev flagVa (desc : List Byte) : Word := leBv 64 (slice desc 112 8)

/-- The follow-on command of a CPYF: TAIL with its B0 replaced under .FB (R369). -/
def followCmd (i : CInfo) (desc : List Byte) : Cmd128 :=
  let t : Cmd128 := leBv 128 (slice desc 112 16)
  if i.flag then t.extractLsb' 32 96 ++ i.b2 else t

/-- A follow-on is of class 0x03 with FUNC 0x00 to 0x03, uses no stream and is legal (R369). -/
def followOk (i : CInfo) (desc : List Byte) : Bool :=
  match legalCommand (followCmd i desc) false false i.flag false with
  | .error _ => false
  | .ok x =>
    match mInfo x with
    | none => false
    | some m => (m.kind == .mma || m.kind == .mmv || m.kind == .mcoop) && !m.sa && !m.sb

/-- The engines that serve a die (R357): the first of twelve. -/
def engineBase (die : Nat) : Nat := [0, 24, 12, 36].getD die 0

/-- The engines that a command may go to. -/
def engineSet (die eng : Nat) : List Nat :=
  if eng = 15 then (List.range 12).map fun n => engineBase die + n else if eng < 12 then [engineBase die + eng] else []

/-! ### Acceptance (R371) -/

/-- A base or index reference whose reserved bits are set: bits 31:6 of a tile reference, every bit of a stream's base (R361). -/
def refBad (v kind : Nat) : Bool := if kind = 1 then v / 64 % 2 ^ 26 != 0 else kind == 2 && v != 0

/-- The offset of the first reserved field of a descriptor that is not zero (R361). -/
def reservedBad (i : CInfo) (desc : List Byte) : Option Nat :=
  if refBad (leAt desc 0 8) i.sk then some 0
  else if (if i.fn == .cpyx then refBad (leAt desc 48 8) 1 else leAt desc 48 8 != 0) then some 48
  else if leAt desc 56 8 ≠ 0 then some 56
  else if refBad (leAt desc 64 8) i.dk then some 64
  else
    match i.fn with
    | .cpyf => none
    | .csig => if leAt desc 120 8 ≠ 0 then some 120 else none
    | _ => if leAt desc 112 16 ≠ 0 then some 112 else none

/-- A base that is not a multiple of 4: the offset of a tile reference, or the address (R362). -/
def baseOdd (v kind : Nat) : Bool := if kind = 1 then v / 2 ^ 32 % 4 != 0 else v % 4 != 0

/-- The descriptor offset of the first field of a nest that is not a multiple of 4; a stream's strides are not used (R362). -/
def nestBad (desc : List Byte) (o kind : Nat) : Option Nat :=
  if baseOdd (leAt desc o 8) kind then some o
  else if leAt desc (o + 8) 4 % 4 ≠ 0 then some (o + 8)
  else if kind = 2 then none
  else [o + 24, o + 32, o + 40].find? fun x => leAt desc x 8 % 4 != 0

/-- The offset of the field of a CPYX that R367 restricts. -/
def indexBad (i : CInfo) (desc : List Byte) : Option Nat :=
  if i.fn != .cpyx then none
  else if leAt desc 32 8 ≠ 0 then some 32
  else if leAt desc 40 8 ≠ 0 then some 40
  else if baseOdd (leAt desc 48 8) 1 then some 48
  else none

/-- Whether an endpoint is a ring that .ADV advances. -/
def advances (s : State) (core : Nat) (i : CInfo) (d : Side) : Bool :=
  i.adv && d.kind = 1 && (getTile s core d.h).valid && (getTile s core d.h).ring

/-- Check 2 of R371, in the order of its parts: the offset of the failing field, 0 for ENG and for .ADV without a ring. -/
def copyFormat (s : State) (core : Nat) (i : CInfo) (desc : List Byte) : Option Nat :=
  let a := i.src desc
  let b := i.dst desc
  if (engineSet 0 i.eng).isEmpty then some 0
  else
    match (reservedBad i desc).or ((nestBad desc 0 i.sk).or ((indexBad i desc).or (nestBad desc 64 i.dk))) with
    | some o => some o
    | none =>
      if a.total ≠ b.total ∨ a.total ≥ 2 ^ 40 then some 72
      else if i.dk ≠ 2 ∧ !b.ascending then some 88
      else if i.adv && !advances s core i a && !advances s core i b then some 0
      else if i.fn == .cpyf && !followOk i desc then some 112
      else none

/-- The handles that a command names, with the offset of the reference. -/
def copyHandles (i : CInfo) (desc : List Byte) : List (Nat × Nat) :=
  (if i.sk = 1 then [(0, (i.src desc).h)] else []) ++ (if i.dk = 1 then [(64, (i.dst desc).h)] else []) ++
    (if i.fn == .cpyx then [(48, (idxRef desc).1)] else [])

/-- Check 4 of R371: whether the span at a reference leaves its tile. -/
def copySpanBad (s : State) (core : Nat) (i : CInfo) (desc : List Byte) (x : Nat × Nat) : Bool :=
  let size := (getTile s core x.2).size
  let d := if x.1 = 0 then i.src desc else i.dst desc
  if x.1 = 48 then (idxRef desc).2 + 4 * (i.src desc).runs > size
  else if d.total = 0 || (x.1 = 0 && i.fn == .cpyx) then false
  else !(0 ≤ d.span.1 && d.span.2 ≤ (size : Int))

/-- The addresses that check 5 of R371 translates, with their kind of access. -/
def copyVas (i : CInfo) (desc : List Byte) : List (Word × Bool) :=
  (if i.sk = 0 && i.fn != .cpyx && (i.src desc).total != 0 then [(leBv 64 (slice desc 0 8), false)] else []) ++
    (if i.dk = 0 && (i.dst desc).total != 0 then [(leBv 64 (slice desc 64 8), true)] else []) ++
    (if i.fn == .csig then [(flagVa desc, true)] else [])

/-- Translate the addresses of check 5 in order. -/
def checkVas (core : Nat) : List (Word × Bool) → State → MCheck
  | [], s => .ok s
  | x :: xs, s =>
    match translate s core (coreRoot s core) x.1 x.2 false with
    | (.fault f, t) => .bad t f.1 (if f.2 then 1 else 0) x.1
    | (.wait w, t) => .wait t w
    | (.hit _, t) => checkVas core xs t

/-- The checks of R371 in their order. -/
def copyCheck (s : State) (core : Nat) (i : CInfo) (desc : List Byte) : MCheck :=
  let la := (i.ldesc.extractLsb' 0 15).setWidth 64
  if i.ldesc.toNat % 64 ≠ 0 then .bad s cALIGN 0 la
  else if i.ldesc.toNat + 127 > 0x7FFF then .bad s cPERMISSION 0 la
  else
    match copyFormat s core i desc with
    | some o => .bad s cFORMAT 0 (BitVec.ofNat 64 o)
    | none =>
      match (copyHandles i desc).find? fun x => !(getTile s core x.2).valid with
      | some x => .bad s cPERMISSION 0 (BitVec.ofNat 64 x.2)
      | none =>
        match (copyHandles i desc).find? fun x => copySpanBad s core i desc x with
        | some x => .bad s cPERMISSION 0 (BitVec.ofNat 64 x.1)
        | none =>
          if i.fn == .csig && (flagVa desc).toNat % 8 != 0 then
            match checkVas core ((copyVas i desc).dropLast) s with
            | .ok t => .bad t cALIGN 0 (flagVa desc)
            | x => x
          else checkVas core (copyVas i desc) s

/-! ### The command in progress -/

/-- The engine whose queue an outstanding command heads. -/
def engineOf (s : State) (core id : Nat) : Option Nat := (s.engines.find? fun e => e.2.queue.head? == some (core, id)).map (·.1)

/-- The outstanding copy command with an identifier. -/
def cCommand (s : State) (core id : Nat) : Option (Cmd × CInfo) :=
  match (s.core core).cmd id with
  | none => none
  | some c =>
    match decodeCommand c.cmd with
    | .error _ => none
    | .ok x => (cInfo x).map fun i => (c, i)

/-- The accesses of a command on the memory path. -/
def accsOf (s : State) (core id : Nat) : List Access := s.accs.filter fun a => a.dest == .cmd core id

/-- A command ends: what it still waits for is let go. Writes on their way still land, but for the trailing sector or flag that has not left its
engine (R372). -/
def letGo (s : State) (core id : Nat) : State :=
  { s with accs := (s.accs.filter fun a => !(a.dest == .cmd core id && (a.phase == .returned || (a.rel && a.phase == .issued)))).map fun a =>
      if a.dest == .cmd core id then { a with dest := .none } else a }

/-- A fault of a copy: code, TCAUSE detail and TVAL. -/
abbrev CFault := Byte × Nat × Word

/-- Where one word of the sequence stands: zeros of an index 0xFFFF_FFFF, a virtual address, a tile offset, or a stream. -/
inductive Loc where
  | zero
  | va (a : Word)
  | off (o : Nat)
  | stream
  deriving DecidableEq, Repr

/-- A tile offset under .ADV counts from the ring pointer, modulo the ring (R364). -/
def ringOff (s : State) (core h ptr o : Nat) : Nat :=
  let t := getTile s core h
  (ptr * t.rowb + o) % max t.size 1

/-- The place of byte `p` on a side that is no index list. -/
def sideLoc (s : State) (core : Nat) (i : CInfo) (d : Side) (ptr : Nat) (a : Int) : Loc :=
  if d.kind = 0 then .va (BitVec.ofInt 64 a)
  else if d.kind = 1 then .off (if advances s core i d then ringOff s core d.h ptr a.toNat else a.toNat)
  else .stream

/-- Source place of byte `p` (R362, R367). -/
def srcLoc (s : State) (core : Nat) (g : CopyEng) (i : CInfo) (desc : List Byte) (p : Nat) : Loc :=
  let d := i.src desc
  if i.fn == .cpyx then
    let x := (g.index.getD (p / max d.run 1) 0).toNat
    if x = 0xFFFFFFFF then .zero else sideLoc s core i d g.sptr (d.base + x * d.str.getD 0 0 + (p % max d.run 1 : Nat))
  else sideLoc s core i d g.sptr (d.at_ p)

/-- Destination place of byte `p`. -/
def dstLoc (s : State) (core : Nat) (g : CopyEng) (i : CInfo) (desc : List Byte) (p : Nat) : Loc :=
  sideLoc s core i (i.dst desc) g.dptr ((i.dst desc).at_ p)

/-- Whether a word can be moved. -/
inductive WStat where
  | ok
  | wait
  | bad (f : CFault)
  deriving DecidableEq, Repr

/-- The state of one word of a tile endpoint: a ring without .ADV is bound to its region (R364). -/
def tileStat (s : State) (core : Nat) (i : CInfo) (d : Side) (o : Nat) (produce : Bool) : WStat :=
  let t := getTile s core d.h
  if !t.valid then .bad (cPERMISSION, 0, BitVec.ofNat 64 o)
  else if t.ring && !i.adv && !mayAccess t true produce o 4 then .bad (cOWNER, 0, BitVec.ofNat 64 o)
  else if !produce && (tileRead s core d.h o 4).2.isNone then .bad (cMEMUNCORR, 0, BitVec.ofNat 64 o)
  else .ok

/-- The state of the source of byte `p`. -/
def srcStat (s : State) (core : Nat) (g : CopyEng) (i : CInfo) (desc : List Byte) (p : Nat) : WStat :=
  match srcLoc s core g i desc p with
  | .va a =>
    match walkPage s (coreRoot s core) a false false with
    | .error f => .bad (f.1, if f.2 then 1 else 0, a)
    | .ok _ => .ok
  | .off o => tileStat s core i (i.src desc) o false
  | _ => .ok

/-- The state of the destination of byte `p`; a write-blocked page holds the copy back (R244). -/
def dstStat (s : State) (core : Nat) (g : CopyEng) (i : CInfo) (desc : List Byte) (p : Nat) : WStat :=
  match dstLoc s core g i desc p with
  | .va a =>
    match walkPage s (coreRoot s core) a true false with
    | .error f => .bad (f.1, if f.2 then 1 else 0, a)
    | .ok e => if e.wb then .wait else .ok
  | .off o => tileStat s core i (i.dst desc) o true
  | _ => .ok

/-- The state of the word at byte `p`. -/
def wordStat (s : State) (core : Nat) (g : CopyEng) (i : CInfo) (desc : List Byte) (p : Nat) : WStat :=
  match srcStat s core g i desc p with
  | .ok => dstStat s core g i desc p
  | x => x

/-- What two places have in common: the storage that they stand for. -/
def locKey (s : State) (core h : Nat) : Loc → Option (Nat × Nat × Nat)
  | .va a =>
    match walkPage s (coreRoot s core) a false false with
    | .error _ => none
    | .ok e => some (if e.host then 1 else 0, e.key a, 0)
  | .off o =>
    let (c, m, b) := tileByte s core h (getTile s core h) o
    some (2 + c, m, b)
  | _ => none

/-- Where byte `p` of the sequence stands in its destination: an address, or a tile offset. -/
def dstAt (s : State) (core : Nat) (g : CopyEng) (i : CInfo) (desc : List Byte) (p : Nat) : Nat :=
  match dstLoc s core g i desc p with
  | .va a => a.toNat
  | .off o => o
  | _ => p

/-- Bytes `p` and `q` of the sequence stand in one destination sector. -/
def oneSector (s : State) (core : Nat) (g : CopyEng) (i : CInfo) (desc : List Byte) (p q : Nat) : Bool :=
  dstAt s core g i desc p / 32 == dstAt s core g i desc q / 32

/-- The position of the first byte of the trailing sector (R363): the destination ascends, so that the sector holds the last bytes of the sequence.
A stream has none. -/
def tailStart (s : State) (core : Nat) (g : CopyEng) (i : CInfo) (desc : List Byte) : Nat :=
  let n := (i.dst desc).total
  if (i.dst desc).kind = 2 || n = 0 then n
  else n - 4 * ((List.range 8).takeWhile fun k => 4 * (k + 1) ≤ n && oneSector s core g i desc (n - 4 * (k + 1)) (n - 4)).length

/-- The position behind the last byte of the destination sector in which byte `p` stands: a sector may take words of several runs, and is written
whole (R282, R363). -/
def sectorEnd (s : State) (core : Nat) (g : CopyEng) (i : CInfo) (desc : List Byte) (p : Nat) : Nat :=
  p + 4 * max 1 ((List.range 8).takeWhile fun k => p + 4 * k < (i.dst desc).total && oneSector s core g i desc (p + 4 * k) p).length

/-- Some row of the memory cells of a tile has an error, so that it is written sector by sector. -/
def tileErrs (s : State) (core h : Nat) : Bool :=
  !((List.range 4).all fun m => (stripeSet s (tileHome s core h) (getTile s core h).level (getTile s core h).cellm).all fun c =>
    c.2 != m || cellClean (s.core c.1).scratch m)

/-- The end of the piece that begins at byte `p` (R247, R282, R287): whole sectors, of at most 256 bytes up to a boundary, the end of a run, the end of the
ring (R364) or the trailing sector, which is a piece of its own; a stream takes whole tokens. A run that ends inside a sector which the next run goes on
with ends its piece before that sector. -/
def pieceEnd (s : State) (core : Nat) (g : CopyEng) (i : CInfo) (desc : List Byte) (p : Nat) : Nat :=
  let d := i.dst desc
  let t := tailStart s core g i desc
  if d.kind = 2 then p + min 64 (d.total - p)
  else if t ≤ p then d.total
  else
    let a := dstAt s core g i desc p
    let block := if d.kind = 1 && tileErrs s core d.h then 32 else 256
    let ring := if advances s core i d then (getTile s core d.h).size - a else t - p
    let e := p + min (min (t - p) (d.run - p % max d.run 1)) (min ring (block - a % block))
    if e = t || !oneSector s core g i desc (e - 4) e then e
    else if p < e - 4 - dstAt s core g i desc (e - 4) % 32 then e - 4 - dstAt s core g i desc (e - 4) % 32
    else sectorEnd s core g i desc p

/-- The position up to which the sectors of a piece from byte `p` are whole when its bytes before `q` have been taken; `fuel` bounds their number. -/
def wholeTo (s : State) (core : Nat) (g : CopyEng) (i : CInfo) (desc : List Byte) (q : Nat) : Nat → Nat → Nat
  | 0, p => p
  | fuel + 1, p =>
    if i.dk = 2 || q < sectorEnd s core g i desc p then p else wholeTo s core g i desc q fuel (sectorEnd s core g i desc p)

/-- The runs of neighbouring bytes, as (position, length), that `rest` bytes from position `p` of a side stand in; at most `fuel` of them. -/
def sideFrags (d : Side) : Nat → Nat → Nat → List (Nat × Nat)
  | 0, _, _ => []
  | fuel + 1, p, rest =>
    let n := min rest (d.run - p % max d.run 1)
    if rest = 0 then [] else (p, n) :: sideFrags d fuel (p + n) (rest - n)

/-- The runs of a piece: one, or those of one sector. -/
abbrev pieceFrags (d : Side) (p n : Nat) : List (Nat × Nat) := sideFrags d 9 p n

/-- The byte ranges of a piece that its byte enables leave (R363), from its first byte on: none when it has no gap. -/
def pieceParts (d : Side) (p n : Nat) : List (Nat × Nat) :=
  let o := fun (x : Nat) => (d.at_ x - d.at_ p).toNat
  if o (p + n - 4) + 4 = n then [] else (pieceFrags d p n).map fun f => (o f.1, f.2)

/-- The bytes of a piece laid out from its first byte on, zeros in the gaps. -/
def pieceData (d : Side) (p : Nat) (bs : List Byte) : List Byte :=
  (pieceFrags d p bs.length).foldl (fun acc f =>
    acc ++ List.replicate ((d.at_ f.1 - d.at_ p).toNat - acc.length) 0 ++ slice bs (f.1 - p) f.2) []

/-- The bytes of a source word that the engine has just taken as a word of the piece at byte `p`, which is not written yet: destination and source
overlap (R363). -/
def stagedWord (s : State) (core : Nat) (g : CopyEng) (i : CInfo) (desc : List Byte) (p q : Nat) : Option (List Byte) :=
  if g.tail.isEmpty then none
  else
    match locKey s core (i.src desc).h (srcLoc s core g i desc q) with
    | none => none
    | some k =>
      ((List.range (g.tail.length / 4)).find? fun j =>
        locKey s core (i.dst desc).h (dstLoc s core g i desc (p + 4 * j)) == some k).map fun j => slice g.tail (4 * j) 4

/-- The words of the piece at byte `p` that can be moved together: no source word is a destination word before it (R363). -/
def pieceWords (s : State) (core : Nat) (g : CopyEng) (i : CInfo) (desc : List Byte) (p n : Nat) : Nat → List (Nat × Nat × Nat) → Nat
  | 0, _ => 0
  | fuel + 1, seen =>
    if n = 0 then 0
    else
      match wordStat s core g i desc p with
      | .ok =>
        if (locKey s core (i.src desc).h (srcLoc s core g i desc p)).any fun k => seen.contains k then 0
        else 1 + pieceWords s core g i desc (p + 4) (n - 4) fuel (seen ++ (locKey s core (i.dst desc).h (dstLoc s core g i desc p)).toList)
      | _ => 0

/-- The key of the stream slot in a core's slot positions. -/
abbrev copySlotKey (i : CInfo) : Nat := 16 * 10 + i.sidx

/-- TVAL of a token or slot fault (R372). -/
def slotTval (i : CInfo) (desc : List Byte) (p : Nat) : Word :=
  let d := if i.sk = 2 then i.src desc else i.dst desc
  BitVec.ofNat 64 (p / max d.run 1 % 2 ^ 24 * 256 + (if i.sk = 2 then 0 else 64))

/-- The index list of a CPYX: from its tile, or the fault; every run of a tile source stays in the tile (R367). -/
def readIndex (s : State) (core : Nat) (i : CInfo) (desc : List Byte) : State × Except CFault (List W32) :=
  if i.fn != .cpyx then (s, .ok [])
  else
    let d := i.src desc
    let (h, o) := idxRef desc
    let t := getTile s core h
    if t.ring && !mayAccess t true false o (4 * d.runs) && d.runs != 0 then (s, .error (cOWNER, 0, BitVec.ofNat 64 o))
    else
      match tileRead s core h o (4 * d.runs) with
      | (u, none) => (u, .error (cMEMUNCORR, 0, BitVec.ofNat 64 o))
      | (u, some bs) =>
        let idx := wordsOf d.runs bs
        let size : Int := (getTile u core d.h).size
        let out := fun (x : W32) =>
          let a := d.base + x.toNat * d.str.getD 0 0
          x != 0xFFFFFFFF && !(0 ≤ a && a + (d.run : Int) ≤ size)
        match if d.kind = 1 then (List.range d.runs).find? (fun n => out (idx.getD n 0)) else none with
        | some n => (u, .error (cFORMAT, 0, BitVec.ofNat 64 (n % 2 ^ 24 * 256 + 48)))
        | none => (u, .ok idx)

/-- The slots, from the ring pointer on, that an endpoint touches (R364). -/
def slotsNeeded (s : State) (core : Nat) (i : CInfo) (desc : List Byte) (d : Side) (index : List W32) : Nat :=
  let rowb := max (getTile s core d.h).rowb 1
  let ends := if i.fn == .cpyx && d == i.src desc then
      (index.filter fun x => x != 0xFFFFFFFF).map fun x => (d.base + x.toNat * d.str.getD 0 0 + (d.run : Int)).toNat
    else [d.span.2.toNat]
  if d.total = 0 then 0 else (ends.map fun e => (e - 1) / rowb + 1).foldl max 0

/-- What a copy with .ADV waits for: handle, filled or free, slots (R214, R364). -/
def ringNeeds (s : State) (core : Nat) (i : CInfo) (desc : List Byte) (index : List W32) : List (Nat × Bool × Nat) :=
  let a := i.src desc
  let b := i.dst desc
  (if advances s core i a then [(a.h, true, slotsNeeded s core i desc a index)] else []) ++
    if advances s core i b then [(b.h, false, slotsNeeded s core i desc b index)] else []

/-- Whether the regions that .ADV waits for have opened, and no wait accepted before that of the engine goes first (R214). -/
def regionsOpen (s : State) (e core : Nat) (needs : List (Nat × Bool × Nat)) : Bool :=
  let n := if (s.engine e).waitId = 0 then newId s else (s.engine e).waitId
  slotsThere s core needs && needs.all fun x => !servedFirst s core x.1 n

/-- The reads of the piece in progress. -/
def readsOf (s : State) (core id : Nat) : List Access := (accsOf s core id).filter fun a => a.kind == .read

/-- Where the first uncorrectable sector of a read stands in it. -/
def badOffset (s : State) (a : Access) : Nat :=
  if a.code == cMEMUNCORR && !a.host then
    ((sectorsOf a.addr a.len).find? fun k => hbmBad s k 32).elim 0 fun k => max a.addr k - a.addr
  else 0

/-- The bytes before it that have come: none where an ERR has answered a read. -/
abbrev goodPrefix (s : State) (a : Access) : Nat := min (badOffset s a) a.value.length

/-- The bytes that the reads of the piece in progress have brought before the first that failed. -/
def goodBytes (s : State) (rs : List Access) : List Byte :=
  (rs.takeWhile fun a => a.code == 0).flatMap (·.value) ++
    (((rs.dropWhile fun a => a.code == 0).head?.map fun a => a.value.take (goodPrefix s a)).getD [])

/-- The fault of the word at position `q` of the sequence, or of the token at the head of a source slot. -/
def nextFault (s : State) (core : Nat) (g : CopyEng) (i : CInfo) (desc : List Byte) (p q : Nat) : Option CFault :=
  if i.sk = 2 && g.buf.isEmpty then
    match findSlot s core 10 i.sidx with
    | none => none
    | some x => if (headOf s core x.1 (egressKey x)).any fun t => t.kind == 3 then some (cFORMAT, 0, slotTval i desc p) else none
  else match wordStat s core g i desc q with | .bad f => some f | _ => none

/-- The fault of a write of runs of the sequence that cannot be made: a page, or a partly written row that cannot be corrected. -/
def writeFault (s : State) (core : Nat) (g : CopyEng) (i : CInfo) (desc : List Byte) (fs : List (Nat × Nat)) : Option CFault :=
  fs.findSome? fun f =>
    match dstStat s core g i desc f.1, dstLoc s core g i desc f.1 with
    | .bad x, _ => some x
    | _, .off o => if (tileWrite s core (i.dst desc).h o (List.replicate f.2 0)).2 then none else some (cMEMUNCORR, 0, BitVec.ofNat 64 o)
    | _, _ => none

/-- The fault at which the piece from byte `p` cannot go on to byte `q`: a read that has failed, or the next word. -/
def pieceFault (s : State) (core id : Nat) (g : CopyEng) (i : CInfo) (desc : List Byte) (q : Nat) : Option CFault :=
  if g.take ≠ 0 then
    match (readsOf s core id).head? with
    | some a => if a.phase == .returned && a.code != 0 && goodPrefix s a = 0 then some (a.code, 0, a.va + BitVec.ofNat 64 (badOffset s a)) else none
    | none => none
  else nextFault s core g i desc q q

/-- The position at which a running command stands in a fault, and the fault (R372): the sectors before it have been written, and of the sector in
which it stands nothing is. -/
def copyFault (s : State) (e : Nat) (core : Nat) (c : Cmd) (i : CInfo) : Option (Nat × CFault) :=
  let g := s.engine e
  let p := c.prog
  let d := i.dst c.desc
  let at_ := fun (q : Nat) => match srcLoc s core g i c.desc q with | .va a => a | .off o => BitVec.ofNat 64 o | _ => 0
  if !g.running then none
  else if g.absent then some (p, cFORMAT, 0, slotTval i c.desc p)
  else if !g.waited then
    match (readIndex s core i c.desc).2 with
    | .error f => some (p, f)
    | .ok _ => none
  else
    match (accsOf s core c.id).find? fun a => a.kind == .write && a.code != 0 with
    | some a => some (a.iaddr.toNat, a.code, 0, if a.iaddr.toNat ≥ d.total then flagVa c.desc else at_ a.iaddr.toNat)
    | none =>
      if p < d.total then
        let q := p + g.tail.length
        let e' := pieceEnd s core g i c.desc p
        if e' ≤ q then (writeFault s core g i c.desc (pieceFrags d p (e' - p))).map fun x => (p, x)
        else
          match pieceFault s core c.id g i c.desc q with
          | some f =>
            let w := wholeTo s core g i c.desc q 9 p
            if p < w then (writeFault s core g i c.desc (pieceFrags d p (w - p))).map fun x => (p, x) else some (p, f)
          | none => match dstStat s core g i c.desc p with | .bad f => some (p, f) | _ => none
      else if i.fn == .csig && !g.flagged then
        match walkPage s (coreRoot s core) (flagVa c.desc) true false with
        | .error f => some (p, f.1, if f.2 then 1 else 0, flagVa c.desc)
        | .ok _ => none
      else none

/-! ### Movement (R362 to R368) -/

/-- Cut `n` source words from byte `q` of the piece at byte `p` into reads (R247): runs of neighbouring words up to a boundary of 256 bytes. -/
def readRuns (s : State) (core : Nat) (g : CopyEng) (i : CInfo) (desc : List Byte) (p q n : Nat) : List (Word × Nat) :=
  (List.range n).foldl (fun acc w =>
    match if (stagedWord s core g i desc p (q + 4 * w)).isSome then .zero else srcLoc s core g i desc (q + 4 * w) with
    | .va a =>
      match acc.getLast? with
      | some r => if r.1 + BitVec.ofNat 64 r.2 = a ∧ a.toNat % 256 ≠ 0 then acc.dropLast ++ [(r.1, r.2 + 4)] else acc ++ [(a, 4)]
      | none => [(a, 4)]
    | _ => acc) []

/-- Issue the reads of a piece (R247, R279). -/
def issueReads (s : State) (e core id : Nat) (rs : List (Word × Nat)) : State :=
  rs.foldl (fun t r =>
    match walkPage t (coreRoot t core) r.1 false false with
    | .error _ => t
    | .ok x => issueAccess t (mkAccess t (.engine e) .read x r.1 r.2 [] (.cmd core id))) s

/-- The bytes of the word at byte `q` of the sequence, in the piece at byte `p`, and what is left of those that reads have returned. -/
def gatherWord (core : Nat) (g : CopyEng) (i : CInfo) (desc : List Byte) (p q : Nat) (got : List Byte) (s : State) : State × List Byte × List Byte :=
  match stagedWord s core g i desc p q, srcLoc s core g i desc q with
  | some w, _ => (s, w, got)
  | none, .zero => (s, List.replicate 4 (0 : Byte), got)
  | none, .off o =>
    let r := tileRead s core (i.src desc).h o 4
    (r.1, r.2.getD (List.replicate 4 0), got)
  | none, _ => (s, got.take 4, got.drop 4)

/-- The bytes of at most `n` words of the sequence from byte `q`: `got` are those that reads have returned, in order, and the first word that they do
not hold ends the piece. -/
def gather (core : Nat) (g : CopyEng) (i : CInfo) (desc : List Byte) (p : Nat) : Nat → Nat → List Byte → State → State × List Byte
  | 0, _, _, s => (s, [])
  | n + 1, q, got, s =>
    let (t, w, rest) := gatherWord core g i desc p q got s
    if w.isEmpty then (t, [])
    else
      let r := gather core g i desc p n (q + 4) rest t
      (r.1, w ++ r.2)

/-- The reads of a piece have been used. -/
def dropReads (s : State) (core id : Nat) : State := { s with accs := s.accs.filter fun a => !(a.dest == .cmd core id && a.kind == .read) }

/-- Bytes of a command's piece have been handed on: the position moves. -/
def movedOn (s : State) (e core id n : Nat) : State :=
  (modCmd s core id fun c => { c with prog := c.prog + n }).modEngine e fun g => { g with tail := g.tail.drop n }

/-- Bytes of a piece have been taken: nothing of it is written before all of it has been (R282, R363). -/
def stageBytes (s : State) (e core id : Nat) (bs : List Byte) : State :=
  (dropReads s core id).modEngine e fun g => { g with tail := g.tail ++ bs, take := 0, buf := g.buf.drop bs.length }

/-- The bytes of a piece before a read that has failed have been taken: of its reads that one is kept. -/
def stageGood (s : State) (e core id : Nat) (bad : Access) (bs : List Byte) : State :=
  { dropReads s core id with accs := (dropReads s core id).accs ++ [{ bad with value := [] }] }.modEngine e fun g => { g with tail := g.tail ++ bs }

/-- The packets of a tile access of an engine, in pieces of 256 bytes (R247); `none` while one has to wait. -/
def crossTile (s : State) (e core n : Nat) (write trail : Bool) : Option State :=
  (List.range (cdiv n 256)).foldl (fun acc j => acc.bind fun t =>
    if write then crossWrite t (4 + e / 24) (dieOf core) (min 256 (n - 256 * j)) (trail && n ≤ 256 * (j + 1))
    else crossRead t (4 + e / 24) (dieOf core) (min 256 (n - 256 * j))) (some s)

/-- The token that carries up to 64 bytes. -/
def bytesToken (bs : List Byte) : Token :=
  let ws := wordsOf (bs.length / 4) bs
  dataTok (BitVec.ofNat 16 (2 ^ ws.length - 1)) fun j => ws.getD j 0

/-- Write runs of the sequence into a tile; false when a partly written row is uncorrectable. -/
def putTile (s : State) (core : Nat) (g : CopyEng) (i : CInfo) (desc : List Byte) (p : Nat) (bs : List Byte) (fs : List (Nat × Nat)) : State × Bool :=
  fs.foldl (fun r f =>
    match dstLoc r.1 core g i desc f.1 with
    | .off o =>
      let u := tileWrite r.1 core (i.dst desc).h o (slice bs (f.1 - p) f.2)
      (unmarkTile u.1 core (i.dst desc).h o f.2, r.2 && u.2)
    | _ => r) (s, true)

/-- Write the first `n` bytes of the piece in progress, whole sectors, in one access with byte enables (R282, R287, R363); that of the trailing sector is
a release. -/
def putBytes (s : State) (e core : Nat) (c : Cmd) (i : CInfo) (n : Nat) : State :=
  let g := s.engine e
  let p := c.prog
  let d := i.dst c.desc
  let bs := g.tail.take n
  let last := tailStart s core g i c.desc ≤ p
  match dstLoc s core g i c.desc p with
  | .va a =>
    match walkPage s (coreRoot s core) a true false with
    | .error _ => s
    | .ok x =>
      let data := pieceData d p bs
      let w := mkAccess s (.engine e) .write x a data.length data (.cmd core c.id)
      movedOn ((issueAccess s { w with rel := last, trail := last, scope := if last then 2 else 0, iaddr := BitVec.ofNat 64 p, xfer := c.id,
                                       parts := pieceParts d p n }).count (4 + e / 24) 0 n) e core c.id n
  | .off _ =>
    match crossTile s e core n true last with
    | none => s
    | some t =>
      let r := putTile t core g i c.desc p bs (pieceFrags d p n)
      if r.2 then movedOn (r.1.count (4 + e / 24) 0 n) e core c.id n else s
  | .stream =>
    match injectSlot s core 10 i.sidx (bytesToken bs) with
    | some t => movedOn t e core c.id n
    | none => s
  | .zero => s

/-- Write the first `n` bytes of the piece in progress, if its destination takes them. -/
def writePiece (s : State) (e core : Nat) (c : Cmd) (i : CInfo) (n : Nat) : State :=
  let g := s.engine e
  let fs := pieceFrags (i.dst c.desc) c.prog n
  if (i.dk = 2 || fs.all fun f => dstStat s core g i c.desc f.1 == .ok) && (writeFault s core g i c.desc fs).isNone then putBytes s e core c i n else s

/-- A stream source takes its next token. -/
def takeStream (s : State) (e core : Nat) (c : Cmd) (i : CInfo) : State :=
  match findSlot s core 10 i.sidx with
  | none => s
  | some x =>
    match headOf s core x.1 (egressKey x) with
    | some t =>
      if t.kind != kDATA then s
      else
        let bs := tokBytes ((List.range 16).map fun j => if t.mask.getLsbD j then t.lane j else 0)
        (popArc s core x.1 (egressKey x)).modEngine e fun g => { g with buf := bs.take ((i.dst c.desc).total - c.prog - g.tail.length) }
    | none => s

/-- Bytes of the piece in progress have been taken: it is written once it is whole. -/
def handBytes (s : State) (e core : Nat) (c : Cmd) (i : CInfo) (bs : List Byte) : State :=
  let t := stageBytes s e core c.id bs
  let n := pieceEnd t core (t.engine e) i c.desc c.prog - c.prog
  if bs.isEmpty then s else if n ≤ (t.engine e).tail.length then writePiece t e core c i n else t

/-- Bytes of the piece in progress are taken: from a stream or a tile at once, from memory by reads. -/
def takePiece (s : State) (e core : Nat) (c : Cmd) (i : CInfo) : State :=
  let g := s.engine e
  let q := c.prog + g.tail.length
  let rest := pieceEnd s core g i c.desc c.prog - q
  let k := pieceWords s core g i c.desc q (if i.sk = 2 then min rest g.buf.length else rest) 65 []
  if k = 0 then s
  else if i.sk = 0 && !(readRuns s core g i c.desc c.prog q k).isEmpty then
    (issueReads s e core c.id (readRuns s core g i c.desc c.prog q k)).modEngine e fun g => { g with take := 4 * k }
  else
    match if i.sk = 1 then crossTile s e core (4 * k) false false else some s with
    | none => s
    | some t =>
      let r := gather core g i c.desc c.prog k q (g.buf.take (4 * k)) t
      handBytes r.1 e core c i r.2

/-- The reads of the piece in progress have returned: their bytes are taken, up to the first that has failed. -/
def takeReads (s : State) (e core : Nat) (c : Cmd) (i : CInfo) : State :=
  let g := s.engine e
  let rs := readsOf s core c.id
  if rs.any fun a => a.phase != .returned then s
  else
    let r := gather core g i c.desc c.prog (g.take / 4) (c.prog + g.tail.length) (goodBytes s rs) s
    match rs.find? fun a => a.code != 0 with
    | some bad => stageGood r.1 e core c.id bad r.2
    | none => handBytes r.1 e core c i r.2

/-- One move of a running command: a stream token, the reads of a piece, their bytes, or a piece that is whole. At a fault the whole sectors before it are
written first (R372). -/
def movePiece (s : State) (e core : Nat) (c : Cmd) (i : CInfo) : State :=
  let g := s.engine e
  let n := g.tail.length
  let len := pieceEnd s core g i c.desc c.prog - c.prog
  if len ≤ n then writePiece s e core c i len
  else if (pieceFault s core c.id g i c.desc (c.prog + n)).isSome then writePiece s e core c i (wholeTo s core g i c.desc (c.prog + n) 9 c.prog - c.prog)
  else if g.take ≠ 0 then takeReads s e core c i
  else if i.sk = 2 && g.buf.isEmpty then takeStream s e core c i
  else takePiece s e core c i

/-- What follows the last byte: the flag of a CSIG (R368), or an EOI (R365). -/
def afterBytes (s : State) (e core : Nat) (c : Cmd) (i : CInfo) : State :=
  let g := s.engine e
  if g.flagged then s
  else if i.fn == .csig then
    match walkPage s (coreRoot s core) (flagVa c.desc) true false with
    | .error _ => s
    | .ok x =>
      if x.wb then s
      else
        let w := mkAccess s (.engine e) .write x (flagVa c.desc) 8 (natLe 8 i.b2.toNat) (.cmd core c.id)
        (issueAccess s { w with rel := true, scope := if i.flag then 3 else 2, iaddr := BitVec.ofNat 64 c.prog }).modEngine e fun g => { g with flagged := true }
  else if i.eoi then
    match injectSlot s core 10 i.sidx (slotEoi s core (copySlotKey i)) with
    | some t => t.modEngine e fun g => { g with flagged := true }
    | none => s
  else s

/-- A queued command may start: it has reached the engine, behind the sequencer's earlier accesses (R291), its tiles are the engine's, and a
destination slot may inject (R205). -/
def copyReady (s : State) (core : Nat) (c : Cmd) (i : CInfo) : Bool :=
  atExecutor c && ((copyHandles i c.desc).all fun x => tileReady s core x.2) && (i.dk != 2 || slotMay s core (copySlotKey i)) && ((s.plotOf core).map Plot.live).getD false

/-- The executor works on the first command of its queue. -/
def copyWork (s : State) : State :=
  let core := s.cur.core
  match engineOf s core s.cur.slot, cCommand s core s.cur.slot with
  | some e, some (c, i) =>
    let g := s.engine e
    if !g.running then
      if copyReady s core c i then
        modCmd (s.modEngine e fun g => { g with running := true, absent := (i.sk = 2 || i.dk = 2) && (findSlot s core 10 i.sidx).isNone }) core c.id
          fun x => { x with phase := .running }
      else s
    else if (copyFault s e core c i).isSome then s
    else if !g.waited then
      match readIndex s core i c.desc with
      | (t, .ok idx) =>
        let needs := ringNeeds t core i c.desc idx
        if regionsOpen t e core needs then
          match if i.fn == .cpyx then crossTile t e core (4 * idx.length) false false else some t with
          | none => s
          | some u =>
            u.modEngine e fun g =>
              { g with waited := true, index := idx, sptr := (getTile t core (i.src c.desc).h).rp, dptr := (getTile t core (i.dst c.desc).h).wp, waitId := 0, needs := [] }
        else if g.waitId = 0 then s.bump.modEngine e fun g => { g with waitId := newId s, needs := needs }
        else s
      | (_, .error _) => s
    else if c.prog < (i.dst c.desc).total then movePiece s e core c i
    else afterBytes s e core c i
  | _, _ => s

/-- The ISSUE of a copy command, and the work of its engine. With ANY the lowest engine with room takes it (R357, R358). -/
def copyCmd (s : State) (x : Instr) : Res :=
  let c := s.cur.core
  .next (
    if !issuing s then copyWork s
    else
      match cInfo x with
      | none => s
      | some i =>
        let set := engineSet (dieOf c) i.eng
        let desc := descriptor s (i.ldesc.toNat % Config.localBytes) 128
        match set.find? (copyRoom s) with
        | none =>
          if set.isEmpty then
            match copyCheck s c i desc with
            | .bad t code d tval => acceptFault t code d tval
            | _ => acceptFault s cFORMAT 0 0
          else acceptStall s (.copy set)
        | some e =>
          match copyCheck s c i desc with
          | .bad t code d tval => acceptFault t code d tval
          | .wait t w => acceptStall t (.walk w)
          | .ok t =>
            let u := (accept t desc (savedProgress t)).modEngine e fun g => { g with queue := g.queue ++ [(c, newId t)] }
            sendCommands (modCmd (holdAll u c ((copyHandles i desc).map (·.2))) c (newId t) fun x => { x with home := 4 + e / 24, ctl := .held }))

/-- CPY (R366). -/
def execCpy (sk dk : BitVec 2) (eoi adv : Bool) (eng : BitVec 4) (sidx : BitVec 2) (b0 b1 : BitVec 32) (s : State) : Res :=
  copyCmd s (.cpy sk dk eoi adv eng sidx b0 b1)
/-- CPYX (R367). -/
def execCpyx (sk dk : BitVec 2) (eoi adv : Bool) (eng : BitVec 4) (sidx : BitVec 2) (b0 b1 : BitVec 32) (s : State) : Res :=
  copyCmd s (.cpyx sk dk eoi adv eng sidx b0 b1)
/-- CPYF (R369). -/
def execCpyf (sk : BitVec 2) (fb : Bool) (eng : BitVec 4) (sidx : BitVec 2) (b0 b1 b2 : BitVec 32) (s : State) : Res :=
  copyCmd s (.cpyf sk fb eng sidx b0 b1 b2)
/-- CSIG (R368). -/
def execCsig (sk dk : BitVec 2) (sys : Bool) (eng : BitVec 4) (sidx : BitVec 2) (b0 b1 b2 : BitVec 32) (s : State) : Res :=
  copyCmd s (.csig sk dk sys eng sidx b0 b1 b2)

/-! ### Completion, follow-on and fault (R338, R370, R372, R373) -/

/-- The command in progress leaves its engine; the homes of writes that it does not know to be performed stay known (R284). -/
def enginePop (s : State) (e : Nat) : State := s.modEngine e fun g => { CopyEng.init with queue := g.queue.drop 1, dirty := g.dirty }

/-- Advance the rings of a completed copy (R364). -/
def advanceRings (s : State) (e core : Nat) (c : Cmd) (i : CInfo) : State :=
  let idx := (s.engine e).index
  let a := i.src c.desc
  let b := i.dst c.desc
  let t := if advances s core i a then modTile s core a.h fun x => advanceC x (slotsNeeded s core i c.desc a idx) else s
  if advances s core i b then modTile t core b.h fun x => advanceP x (slotsNeeded s core i c.desc b idx) else t

/-- The follow-on of a CPYF goes to the matrix operator (R338): it waits for room, takes its holders before the copy lets go of its
own, or fails its acceptance. -/
def handOver (s : State) (e core : Nat) (c : Cmd) (i : CInfo) : State :=
  let fc := followCmd i c.desc
  let hs := (copyHandles i c.desc).map (·.2)
  match decodeCommand fc with
  | .error _ => s
  | .ok x =>
    match mInfo x with
    | none => s
    | some m =>
      if (matrixFull s core m).isSome then s
      else
        let desc := if m.kind == .mmv then mread (s.core core).lmem (m.b.toNat % Config.localBytes) 16 else []
        let asFollow := fun (t : State) => modCmd (t.count (4 + e / 24) 1 1) core c.id fun y =>
          { y with cmd := fc, follow := true, phase := .accepted, desc := desc, prog := 0, home := dieOf core, ctl := .here }
        match matrixCheck s core m (fc.extractLsb' 0 32) (fc.extractLsb' 64 32) desc with
        | .wait t _ => t
        | .bad t code d tval => faultCommand (releaseHolds (asFollow (enginePop t e)) core hs) core c.id code d tval 0 false
        | .ok t => releaseHolds (matrixEnqueue (asFollow (enginePop t e)) core c.id m) core hs

/-- The head of an engine's queue, when it is a copy that runs. -/
def engineRun (s : State) (e : Nat) : Option (Nat × Cmd × CInfo) :=
  match (s.engine e).queue with
  | [] => none
  | x :: _ => if (s.engine e).running then (cCommand s x.1 x.2).map fun y => (x.1, y.1, y.2) else none

/-- COPY_COMPLETE (R373): every byte and the flag performed; rings, holders, then the status word (R290). The rings of .ADV move once no wait on them
could go on (R214). -/
def execCopyComplete (eng : Nat) (s : State) : Res :=
  .next (
    match engineRun s eng with
    | none => s
    | some (core, c, i) =>
      let g := s.engine eng
      let total := (i.dst c.desc).total
      if !g.waited || c.prog < total || !(accsOf s core c.id).isEmpty || (!g.flagged && (i.fn == .csig || i.eoi)) || (copyFault s eng core c i).isSome ||
          (ringNeeds s core i c.desc g.index).any fun x => pointersHeld s core x.1 then s
      else if i.fn == .cpyf then handOver s eng core c i
      else
        let t := (advanceRings s eng core c i).count (4 + eng / 24) 1 1
        completeFrom (releaseHolds (enginePop t eng) core ((copyHandles i c.desc).map (·.2))) core c.id 0 (BitVec.ofNat 32 total))

/-- COPY_EXECUTION_FAULT (R372): the command in progress stands at a fault; one with a stream is a plot fault. -/
def execCopyExecutionFault (eng : Nat) (s : State) : Res :=
  .next (
    match engineRun s eng with
    | none => s
    | some (core, c, i) =>
      match copyFault s eng core c i with
      | none => s
      | some (p, code, d, tval) =>
        let t := releaseHolds (enginePop (letGo s core c.id) eng) core ((copyHandles i c.desc).map (·.2))
        if i.sk = 2 || i.dk = 2 then
          plotFault (t.modCore core fun k => { k with cmds := k.cmds.filter fun y => y.id != c.id }) core code d 1 (slotSite s core 10 i.sidx) tval false
        else faultCommand t core c.id code d tval p true)

end Sys2Proof.Machine
end

