-- ==== Sys2Proof/Machine/Key.lean ====
section
/-!
DEFINITION. The key engine (R342 to R355): fields, operand descriptors, acceptance, the six functions, streams and completion.
-/

namespace Sys2Proof.Machine

/-! ### Fields and operands (R342 to R345) -/

/-- What a key command does. -/
inductive KFn where
  | topk
  | sort
  | hist
  | scan
  | merge
  | perm
  deriving DecidableEq, Repr

/-- The fields of a key command. `flag` is .DESC, .ACC, .EXCL, .KEEPZ or .S. -/
structure KInfo where
  fn : KFn
  si : Bool
  so : Bool
  kt : Nat
  flag : Bool
  comb : Nat
  n : W32
  ldesc : W32
  param : W32
  deriving DecidableEq, Repr

/-- The fields of a key command, `none` for another instruction. -/
def kInfo : Instr → Option KInfo
  | .ktopk si so kt b0 b1 b2 => some { fn := .topk, si := si, so := so, kt := kt.toNat, flag := false, comb := 0, n := b0, ldesc := b1, param := b2 }
  | .ksort si so desc kt b0 b1 b2 => some { fn := .sort, si := si, so := so, kt := kt.toNat, flag := desc, comb := 0, n := b0, ldesc := b1, param := b2 }
  | .khist si so acc b0 b1 b2 => some { fn := .hist, si := si, so := so, kt := 0, flag := acc, comb := 0, n := b0, ldesc := b1, param := b2 }
  | .kscan si so excl kt b0 b1 b2 => some { fn := .scan, si := si, so := so, kt := kt.toNat, flag := excl, comb := 0, n := b0, ldesc := b1, param := b2 }
  | .kmerge fn keepz kt b0 b1 b2 => some { fn := .merge, si := false, so := false, kt := kt.toNat, flag := keepz, comb := fn.toNat, n := b0, ldesc := b1, param := b2 }
  | .kpermG b0 b1 b2 => some { fn := .perm, si := false, so := false, kt := 0, flag := false, comb := 0, n := b0, ldesc := b1, param := b2 }
  | .kpermS b0 b1 b2 => some { fn := .perm, si := false, so := false, kt := 0, flag := true, comb := 0, n := b0, ldesc := b1, param := b2 }
  | _ => none

/-- The reference in a slot of a descriptor (R344). -/
def slotRef (desc : List Byte) (j : Nat) : Word := leBv 64 (slice desc (8 * j) 8)

/-- A slot names no operand. -/
abbrev refNone (v : Word) : Bool := v.getLsbD 6
/-- Handle of a reference. -/
abbrev refHandle (v : Word) : Nat := (v.extractLsb' 0 6).toNat
/-- Offset of a reference. -/
abbrev refOffset (v : Word) : Nat := (v.extractLsb' 32 32).toNat

/-- KTOPK's k and E; KHIST's B and SH; KPERM's W. -/
abbrev KInfo.k (i : KInfo) : Nat := (i.param.extractLsb' 0 4).toNat
/-- E. -/
abbrev KInfo.e (i : KInfo) : Nat := (i.param.extractLsb' 4 12).toNat + 1
/-- B. -/
abbrev KInfo.bins (i : KInfo) : Nat := (i.param.extractLsb' 0 12).toNat + 1
/-- SH. -/
abbrev KInfo.shift (i : KInfo) : Nat := (i.param.extractLsb' 16 5).toNat
/-- W. -/
abbrev KInfo.w (i : KInfo) : Nat := (i.param.extractLsb' 0 10).toNat + 1

/-- The first output slot of a function (R345). -/
def KInfo.outSlot (i : KInfo) : Nat := if i.fn == .sort then 2 else 1

/-- What a slot must hold: an operand, nothing, or either. -/
def slotNeed (i : KInfo) (desc : List Byte) (j : Nat) : Need :=
  if i.si && j = 0 then .no
  else if i.so && j = i.outSlot then .no
  else
    match i.fn, j with
    | .topk, 0 | .topk, 1 => .req
    | .topk, 2 => .opt
    | .sort, 0 | .sort, 2 => .req
    | .sort, 1 => .opt
    | .sort, 3 => if refNone (slotRef desc 1) then .no else .req
    | .hist, 0 | .hist, 1 => .req
    | .hist, 2 => if i.so && i.flag then .req else .no
    | .scan, 0 | .scan, 1 => .req
    | .merge, j => if j < 6 then .req else .no
    | .perm, j => if j < 3 then .req else .no
    | _, _ => .no

/-- The fixed length of an operand in bytes; KPERM's bounded operand has none (R344). -/
def slotLen (i : KInfo) (j : Nat) : Option Nat :=
  let n := i.n.toNat
  match i.fn with
  | .topk => some (if j = 0 then 4 * n * i.e else 4 * n * i.k)
  | .sort | .scan => some (4 * n)
  | .hist => some (if j = 0 then 4 * n else 4 * i.bins)
  | .merge => some (if j < 2 then 4 * n else if j < 4 then 4 * i.param.toNat else 4 * (n + i.param.toNat))
  | .perm => if j = 1 then some (4 * n) else if (j = 2) == !i.flag then some (4 * i.w * n) else none

/-- The bytes that an operand takes in its tile: offset and length; the bounded one runs to the end of the tile. -/
def slotRange (s : State) (core : Nat) (i : KInfo) (desc : List Byte) (j : Nat) : Nat × Nat :=
  let v := slotRef desc j
  (refOffset v, (slotLen i j).getD ((getTile s core (refHandle v)).size - refOffset v))

/-- The slots that name operands. -/
def usedSlots (desc : List Byte) : List Nat := (List.range 8).filter fun j => !refNone (slotRef desc j)

/-! ### Acceptance (R352) -/

/-- COUNT and PARAM within their ranges: the field at fault (R343). -/
def kFieldFault (i : KInfo) : Option W32 :=
  let big := fun (v : W32) (lim : Nat) => lim.blt v.toNat
  match i.fn with
  | .topk => if i.n = 0 ∨ big i.n 65536 then some i.n else if i.k = 0 ∨ i.k > 8 ∨ i.param.extractLsb' 16 16 ≠ 0 ∨ i.k > i.e then some i.param else none
  | .sort => if big i.n 65536 then some i.n else none
  | .hist => if big i.n 16777216 then some i.n else if i.param.extractLsb' 12 4 ≠ 0 ∨ i.param.extractLsb' 21 11 ≠ 0 then some i.param else none
  | .scan => if big i.n 16777216 then some i.n else none
  | .merge => if big i.n 65536 then some i.n else if big i.param 65536 then some i.param else none
  | .perm => if big i.n 16777216 then some i.n else if i.param.extractLsb' 10 22 ≠ 0 then some i.param else none

/-- A slot that breaks R344 or R345. -/
def slotBad (i : KInfo) (desc : List Byte) (j : Nat) : Bool :=
  let v := slotRef desc j
  v.extractLsb' 7 25 != 0 || (refNone v && (refOffset v != 0 || refHandle v != 0)) || !(slotNeed i desc j).ok (!refNone v) || refOffset v % 4 != 0

/-- Two operands that may coincide (R352 check 7). -/
def mayCoincide (i : KInfo) (a b : Nat) : Bool :=
  (i.fn == .sort && ((a = 0 && b = 2) || (a = 1 && b = 3))) || (i.fn == .scan && a = 0 && b = 1)

/-- Two operands overlap in a tile. -/
def slotsOverlap (s : State) (core : Nat) (i : KInfo) (desc : List Byte) (a b : Nat) : Bool :=
  let (oa, la) := slotRange s core i desc a
  let (ob, lb) := slotRange s core i desc b
  refHandle (slotRef desc a) == refHandle (slotRef desc b) && oa.blt (ob + lb) && ob.blt (oa + la) && la != 0 && lb != 0 &&
    !(mayCoincide i a b && oa == ob && la == lb)

/-- The checks of R352 in their order. -/
def keyCheck (s : State) (core : Nat) (i : KInfo) (desc : List Byte) : Option (Byte × Word) :=
  let w := fun (n : Nat) => BitVec.ofNat 64 n
  if i.ldesc.extractLsb' 15 17 ≠ 0 then some (cPERMISSION, i.ldesc.setWidth 64)
  else if i.ldesc.toNat % 64 ≠ 0 then some (cALIGN, i.ldesc.setWidth 64)
  else
    match kFieldFault i with
    | some v => some (cFORMAT, v.setWidth 64)
    | none =>
      match (List.range 8).find? fun j => slotBad i desc j with
      | some j => some (cFORMAT, w j)
      | none =>
        let used := usedSlots desc
        let tile := fun (j : Nat) => getTile s core (refHandle (slotRef desc j))
        match used.find? fun j => !(tile j).valid with
        | some j => some (cPERMISSION, w (refHandle (slotRef desc j)))
        | none =>
          match used.find? fun j => (tile j).ring with
          | some j => some (cOWNER, w (refHandle (slotRef desc j)))
          | none =>
            match used.find? fun j => (slotLen i j).any fun l => refOffset (slotRef desc j) + l > (tile j).size with
            | some j => some (cPERMISSION, w j)
            | none => (used.find? fun j => (used.filter fun a => a < j).any fun a => slotsOverlap s core i desc a j).map fun j => (cFORMAT, w j)

/-- The handles of a descriptor. -/
def descHandles (desc : List Byte) : List Nat := (usedSlots desc).map fun j => refHandle (slotRef desc j)

/-- The outstanding key command with an identifier. -/
def kCommand (s : State) (core id : Nat) : Option (Cmd × KInfo) :=
  match (s.core core).cmd id with
  | none => none
  | some c =>
    match decodeCommand c.cmd with
    | .error _ => none
    | .ok x => (kInfo x).map fun i => (c, i)

/-! ### The functions (R346 to R351) -/

/-- m(x) of a key (the comparison order). -/
def keyOrder (kt : Nat) (x : W32) : Nat :=
  if kt = 0 then x.toNat
  else if kt = 1 then (x ^^^ 0x80000000).toNat
  else if fp32.isNan x.toNat then 0xFFFFFFFF
  else if x.getLsbD 31 then (~~~x).toNat
  else (x ||| 0x80000000).toNat

/-- Insert before the first entry that does not stand strictly ahead. -/
def insertKey {α : Type} (ahead : α → α → Bool) (x : α) : List α → List α
  | [] => [x]
  | y :: r => if ahead y x then y :: insertKey ahead x r else x :: y :: r

/-- A stable sort: an entry stands ahead of another when `ahead` says so. -/
def stableSort {α : Type} (ahead : α → α → Bool) : List α → List α
  | [] => []
  | x :: r => insertKey ahead x (stableSort ahead r)

/-- Cut a list into segments of `l` entries; `fuel` bounds their number. -/
def segments {α : Type} (l : Nat) : Nat → List α → List (List α)
  | 0, _ => []
  | fuel + 1, xs => if xs.isEmpty then [] else xs.take l :: segments l fuel (xs.drop l)

/-- The segment length of KSORT and KSCAN (R343). -/
def segLen (i : KInfo) : Nat := if i.param = 0 ∨ i.param.toNat > i.n.toNat then max i.n.toNat 1 else i.param.toNat

/-- KTOPK: the experts and keys of one token (R346). -/
def topkToken (kt k : Nat) (keys : List W32) : List (Nat × W32) :=
  ((stableSort (fun a b => keyOrder kt b.2 < keyOrder kt a.2) (keys.zipIdx.map fun x => (x.2, x.1))).take k)

/-- KSORT: sorted pairs (R347). -/
def sortPairs (i : KInfo) (ps : List (W32 × W32)) : List (W32 × W32) :=
  (segments (segLen i) (ps.length + 1) ps).flatMap fun seg =>
    stableSort (fun a b => if i.flag then keyOrder i.kt b.1 < keyOrder i.kt a.1 else keyOrder i.kt a.1 < keyOrder i.kt b.1) seg

/-- KHIST: counts and the lost keys (R348). -/
def histCounts (bins shift : Nat) (start keys : List W32) : List W32 × W32 :=
  ((List.range bins).map fun b => start.getD b 0 + BitVec.ofNat 32 (keys.filter fun x => x.toNat / 2 ^ shift == b).length,
    BitVec.ofNat 32 (keys.filter fun x => x.toNat / 2 ^ shift ≥ bins).length)

/-- The sum of KSCAN and KMERGE.ADD. -/
def keyAdd (kt : Nat) (a b : W32) : W32 := if kt = 2 then BitVec.ofNat 32 (fp32.addW a.toNat b.toNat) else a + b

/-- Inclusive sums after an accumulator. -/
def scanFrom (kt : Nat) (acc : W32) : List W32 → List W32
  | [] => []
  | x :: r => keyAdd kt acc x :: scanFrom kt (keyAdd kt acc x) r

/-- Inclusive sums of a segment: the first element is copied (R349). -/
def scanSegment (kt : Nat) : List W32 → List W32
  | [] => []
  | x :: r => x :: scanFrom kt x r

/-- KSCAN: the output and the last inclusive value (R349). -/
def scanAll (i : KInfo) (xs : List W32) : List W32 × W32 :=
  let inc := (segments (segLen i) (xs.length + 1) xs).map (scanSegment i.kt)
  (inc.flatMap fun s => if i.flag then 0 :: s.dropLast else s, (inc.getLast?.bind (·.getLast?)).getD 0)

/-- The combine functions of KMERGE (R351). -/
def keyCombine (kt comb : Nat) (a b : W32) : W32 :=
  match comb with
  | 0 => keyAdd kt a b
  | 1 => if kt = 2 then BitVec.ofNat 32 (fp32.maxW a.toNat b.toNat) else if kt = 1 then (if a.slt b then b else a) else if a.ult b then b else a
  | 2 => if kt = 2 then BitVec.ofNat 32 (fp32.minW a.toNat b.toNat) else if kt = 1 then (if b.slt a then b else a) else if b.ult a then b else a
  | _ => a

/-- Whether a combined value is zero. -/
def keyZero (kt : Nat) (v : W32) : Bool := if kt = 2 then v &&& 0x7FFFFFFF == 0 else v == 0

/-- KMERGE: the sorted union (R351). -/
def mergeLists (i : KInfo) : Nat → List (W32 × W32) → List (W32 × W32) → List (W32 × W32)
  | 0, _, _ => []
  | _ + 1, [], bs => bs
  | _ + 1, as, [] => as
  | n + 1, a :: as, b :: bs =>
    if a.1.ult b.1 then a :: mergeLists i n as (b :: bs)
    else if b.1.ult a.1 then b :: mergeLists i n (a :: as) bs
    else
      let v := keyCombine i.kt i.comb a.2 b.2
      if i.flag || !keyZero i.kt v then (a.1, v) :: mergeLists i n as bs else mergeLists i n as bs

/-- The first entry of an index list that is not above its predecessor (R351, R354). -/
def notAscending (l : List W32) : Option Nat := (List.range l.length).find? fun x => x > 0 && !(l.getD (x - 1) 0).ult (l.getD x 0)

/-! ### Execution (R353, R354) -/

/-- The starts of the rows that a span of a tile touches. -/
abbrev rowStarts (o n : Nat) : List Nat := (List.range (n / 16 + 2)).map fun i => o / 16 * 16 + 16 * i

/-- The offset of the first row of a list that cannot be corrected, within a span that starts at `o`. -/
def badRow (s : State) (core h o : Nat) (rows : List Nat) : Nat :=
  ((rows.map (max o)).find? fun a => (tileRead s core h a 1).2.isNone).getD o

/-- The offset of the first row that a read of a tile cannot correct. -/
abbrev firstBad (s : State) (core h o n : Nat) : Nat := badRow s core h o (rowStarts o n)

/-- The offset of the first row of which a write of a tile fails: one covered in part that cannot be corrected, or any row of a cell with two failed
banks (R233, R235). -/
def firstPart (s : State) (core h o n : Nat) : Nat :=
  ((rowStarts o n).find? fun r =>
    let a := max o r
    Nat.blt a (min (o + n) (r + 16)) && !(tileWrite s core h a (List.replicate (min (o + n) (r + 16) - a) 0)).2).elim o (max o)

/-- Read the words of an operand from its tile, or the fault. -/
def readWords (s : State) (core h o n : Nat) : State × Except (Byte × Word) (List W32) :=
  match tileRead s core h o (4 * n) with
  | (t, none) => (t, .error (cMEMUNCORR, BitVec.ofNat 64 (firstBad s core h o (4 * n))))
  | (t, some b) => (t, .ok (wordsOf n b))

/-- The words of a slot's operand: from the stream under .SI, else from its tile; an absent slot gives none. -/
def slotWords (s : State) (core : Nat) (i : KInfo) (desc : List Byte) (j : Nat) : State × Except (Byte × Word) (List W32) :=
  let n := ((slotLen i j).getD 0) / 4
  if i.si && j = 0 then
    (s, .ok (((s.core core).key.itok.flatMap fun t => (List.range 16).map fun l => if t.mask.getLsbD l then t.lane l else 0).take n))
  else if refNone (slotRef desc j) then (s, .ok [])
  else readWords s core (refHandle (slotRef desc j)) (refOffset (slotRef desc j)) n

/-- Read several operands in order. -/
def manySlots (core : Nat) (i : KInfo) (desc : List Byte) : List Nat → State → State × Except (Byte × Word) (List (List W32))
  | [], s => (s, .ok [])
  | j :: js, s =>
    match slotWords s core i desc j with
    | (t, .error e) => (t, .error e)
    | (t, .ok v) =>
      match manySlots core i desc js t with
      | (u, .error e) => (u, .error e)
      | (u, .ok vs) => (u, .ok (v :: vs))

/-- A write of a command: handle, offset and words. -/
abbrev KWrite := Nat × Nat × List W32

/-- Write an output; a row that cannot be written is a fault. -/
def writeOut (core : Nat) : List KWrite → State → State × Option (Byte × Word)
  | [], s => (s, none)
  | w :: ws, s =>
    let bs := w.2.2.flatMap fun x => natLe 4 x.toNat
    match tileWrite s core w.1 w.2.1 bs with
    | (t, false) => (t, some (cMEMUNCORR, BitVec.ofNat 64 (firstPart s core w.1 w.2.1 bs.length)))
    | (t, true) => writeOut core ws (unmarkTile t core w.1 w.2.1 bs.length)

/-- A position and a slot as TVAL (R354). -/
abbrev posTval (pos slot : Nat) : Word := BitVec.ofNat 64 (pos * 256 + slot)

/-- What a command does: the words of its first output, the writes of its other outputs, and RESULT; or its fault. -/
def keyEffect (s : State) (core : Nat) (i : KInfo) (desc : List Byte) : State × Except (Byte × Word) (List W32 × List KWrite × W32) :=
  let ref := fun (j : Nat) => slotRef desc j
  let at_ := fun (j : Nat) (ws : List W32) => if refNone (ref j) then [] else [(refHandle (ref j), refOffset (ref j), ws)]
  let lift := fun (r : State × Except (Byte × Word) (List (List W32))) (f : List (List W32) → Except (Byte × Word) (List W32 × List KWrite × W32)) =>
    match r with
    | (t, .error e) => (t, .error e)
    | (t, .ok v) => (t, f v)
  match i.fn with
  | .topk =>
    lift (manySlots core i desc [0] s) fun v =>
      let top := (segments i.e (i.n.toNat + 1) (v.getD 0 [])).flatMap (topkToken i.kt i.k)
      .ok (top.map fun x => BitVec.ofNat 32 x.1, at_ 2 (top.map (·.2)), 0)
  | .sort =>
    lift (manySlots core i desc [0, 1] s) fun v =>
      let keys := v.getD 0 []
      let vals := v.getD 1 []
      let r := sortPairs i (keys.zipIdx.map fun x => (x.1, vals.getD x.2 0))
      .ok (r.map (·.1), at_ 3 (r.map (·.2)), 0)
  | .hist =>
    let from_ := if !i.flag then [0] else if i.so then [0, 2] else [0, 1]
    lift (manySlots core i desc from_ s) fun v =>
      let (c, lost) := histCounts i.bins i.shift (v.getD 1 []) (v.getD 0 [])
      .ok (c, [], lost)
  | .scan =>
    lift (manySlots core i desc [0] s) fun v =>
      let (o, last) := scanAll i (v.getD 0 [])
      .ok (o, [], last)
  | .merge =>
    lift (manySlots core i desc [0, 1, 2, 3] s) fun v =>
      match notAscending (v.getD 0 []), notAscending (v.getD 2 []) with
      | some p, _ => .error (cFORMAT, posTval p 0)
      | _, some p => .error (cFORMAT, posTval p 2)
      | none, none =>
        let r := mergeLists i (i.n.toNat + i.param.toNat + 1) ((v.getD 0 []).zip (v.getD 1 [])) ((v.getD 2 []).zip (v.getD 3 []))
        .ok ([], at_ 4 (r.map (·.1)) ++ at_ 5 (r.map (·.2)), BitVec.ofNat 32 r.length)
  | .perm =>
    match manySlots core i desc [1] s with
    | (t, .error e) => (t, .error e)
    | (t, .ok v) =>
      let idx := v.getD 0 []
      let w := i.w
      let room := (slotRange t core i desc (if i.flag then 2 else 0)).2
      match (List.range idx.length).find? fun x => idx.getD x 0 != 0xFFFFFFFF && ((idx.getD x 0).toNat + 1) * (4 * w) > room with
      | some p => (t, .error (cFORMAT, posTval p 1))
      | none =>
        let moves := idx.zipIdx.filterMap fun x =>
          if x.1 = 0xFFFFFFFF then (if i.flag then none else some (none, x.2))
          else some (if i.flag then (some x.2, x.1.toNat) else (some x.1.toNat, x.2))
        let (u, ws) := moves.foldl (fun r m =>
          match r with
          | (u, .error e) => (u, .error e)
          | (u, .ok ws) =>
            match m.1 with
            | none => (u, .ok (ws ++ [(refHandle (ref 2), refOffset (ref 2) + 4 * w * m.2, List.replicate w 0)]))
            | some src =>
              match readWords u core (refHandle (ref 0)) (refOffset (ref 0) + 4 * w * src) w with
              | (x, .error e) => (x, .error e)
              | (x, .ok el) => (x, .ok (ws ++ [(refHandle (ref 2), refOffset (ref 2) + 4 * w * m.2, el)]))) (t, (.ok [] : Except (Byte × Word) (List KWrite)))
        match ws with
        | .error e => (u, .error e)
        | .ok l => (u, .ok ([], l, BitVec.ofNat 32 (idx.filter fun x => x = 0xFFFFFFFF).length))

/-- The tokens of a streamed output (R345): words in groups of 16, then the EOI. -/
def outTokens (s : State) (core : Nat) (ws : List W32) : List Token :=
  ((segments 16 (ws.length + 1) ws).map fun g => dataTok (BitVec.ofNat 16 (2 ^ g.length - 1)) fun j => g.getD j 0) ++ [slotEoi s core (16 * 7)]

/-- Tokens that a streamed input takes. -/
def inTokens (i : KInfo) : Nat := if i.si then cdiv ((slotLen i 0).getD 0) 64 else 0

/-- The first queued command may start: its tiles are the engine's, and its output slot may inject (R353, R345). -/
def keyReady (s : State) (core : Nat) (c : Cmd) (i : KInfo) : Bool :=
  (descHandles c.desc).all (fun h => tileReady s core h) && (!i.so || slotMay s core (16 * 7)) && ((s.plotOf core).map Plot.live).getD false

/-- TVAL of a slot that a command needs and the current bay lacks (R345, R354). -/
def slotAbsent (s : State) (core : Nat) (i : KInfo) : Option Word :=
  if i.si && (findSlot s core 6 0).isNone then some 0
  else if i.so && (findSlot s core 7 0).isNone then some (BitVec.ofNat 64 i.outSlot)
  else none

/-- The fault that a started command stands at (R345, R354), with the state that the accesses before it leave. -/
def keyFault (s : State) (core : Nat) (c : Cmd) (i : KInfo) : Option (State × Byte × Word) :=
  let k := (s.core core).key
  if k.absent.isSome then some (s, cFORMAT, k.absent.getD 0)
  else if k.performed then none
  else if k.itok.length < inTokens i then
    match findSlot s core 6 0 with
    | none => none
    | some x => if (headOf s core x.1 (egressKey x)).any fun t => t.kind == 3 then some (s, cFORMAT, 0) else none
  else
    match keyEffect s core i c.desc with
    | (t, .error f) => some (t, f.1, f.2)
    | (t, .ok (first, ws, _)) =>
      let o := slotRef c.desc i.outSlot
      let mine := if i.so || refNone o || first.isEmpty then ws else (refHandle o, refOffset o, first) :: ws
      match writeOut core mine t with
      | (u, some f) => some (u, f.1, f.2)
      | _ => none

/-- The executor works on the command at the head of its queue: it starts it, takes a token, performs the function or injects a
token. -/
def keyWork (s : State) : State :=
  let core := s.cur.core
  let k := (s.core core).key
  match k.queue, kCommand s core s.cur.slot with
  | id :: _, some (c, i) =>
    if id != s.cur.slot then s
    else if !k.started then
      if keyReady s core c i then
        modCmd (s.modKey core fun k => { KeyEng.init with queue := k.queue, started := true, absent := slotAbsent s core i }) core id fun x => { x with phase := .running }
      else s
    else if (keyFault s core c i).isSome then s
    else if k.performed then
      match k.out with
      | [] => s
      | t :: r =>
        match injectSlot s core 7 0 t with
        | some u => u.modKey core fun k => { k with out := r }
        | none => s
    else if k.itok.length < inTokens i then
      match findSlot s core 6 0 with
      | none => s
      | some x =>
        match headOf s core x.1 (egressKey x) with
        | some t => if t.kind == kDATA then (popArc s core x.1 (egressKey x)).modKey core fun k => { k with itok := k.itok ++ [t] } else s
        | none => s
    else
      match keyEffect s core i c.desc with
      | (_, .error _) => s
      | (t, .ok (first, ws, res)) =>
        let o := slotRef c.desc i.outSlot
        let mine := if i.so || refNone o || first.isEmpty then ws else (refHandle o, refOffset o, first) :: ws
        (writeOut core mine t).1.modKey core fun k => { k with performed := true, result := res, out := if i.so then outTokens t core first else [] }
  | _, _ => s

/-- The ISSUE of a key command, and the work of its executor. -/
def keyCmd (s : State) (x : Instr) : Res :=
  let c := s.cur.core
  .next (
    if !issuing s then keyWork s
    else
      match kInfo x with
      | none => s
      | some i =>
        if keyLoad s.me ≥ queueDepth then acceptStall s .key
        else
          let desc := descriptor s (i.ldesc.toNat % Config.localBytes) 64
          match keyCheck s c i desc with
          | some f => acceptFault s f.1 0 f.2
          | none => holdAll ((accept s desc 0).modKey c fun k => { k with queue := k.queue ++ [newId s] }) c (descHandles desc))

/-- KTOPK. -/
def execKtopk (si so : Bool) (kt : BitVec 2) (b0 b1 b2 : BitVec 32) (s : State) : Res := keyCmd s (.ktopk si so kt b0 b1 b2)
/-- KSORT. -/
def execKsort (si so desc : Bool) (kt : BitVec 2) (b0 b1 b2 : BitVec 32) (s : State) : Res := keyCmd s (.ksort si so desc kt b0 b1 b2)
/-- KHIST. -/
def execKhist (si so acc : Bool) (b0 b1 b2 : BitVec 32) (s : State) : Res := keyCmd s (.khist si so acc b0 b1 b2)
/-- KSCAN. -/
def execKscan (si so excl : Bool) (kt : BitVec 2) (b0 b1 b2 : BitVec 32) (s : State) : Res := keyCmd s (.kscan si so excl kt b0 b1 b2)
/-- KMERGE. -/
def execKmerge (fn : BitVec 2) (keepz : Bool) (kt : BitVec 2) (b0 b1 b2 : BitVec 32) (s : State) : Res := keyCmd s (.kmerge fn keepz kt b0 b1 b2)
/-- KPERM.G. -/
def execKpermG (b0 b1 b2 : BitVec 32) (s : State) : Res := keyCmd s (.kpermG b0 b1 b2)
/-- KPERM.S. -/
def execKpermS (b0 b1 b2 : BitVec 32) (s : State) : Res := keyCmd s (.kpermS b0 b1 b2)

/-- The command in progress leaves the engine. -/
def keyPop (s : State) (core : Nat) : State :=
  s.modKey core fun k => { KeyEng.init with queue := k.queue.drop 1 }

/-- KEY_COMMAND_COMPLETE (R353): every access performed and every token gone; holders, then the status word. -/
def execKeyCommandComplete (core : Nat) (s : State) : Res :=
  let k := (s.core core).key
  .next (
    match k.queue with
    | [] => s
    | id :: _ =>
      match kCommand s core id with
      | none => s
      | some (c, _) =>
        if k.started && k.performed && k.out.isEmpty then finishCmd (releaseHolds (keyPop s core) core (descHandles c.desc)) core id 0 k.result
        else s)

/-- KEY_EXECUTION_FAULT (R354): the command in progress stands at a fault; a streamed one is a plot fault. -/
def execKeyExecutionFault (core : Nat) (s : State) : Res :=
  let k := (s.core core).key
  .next (
    match k.queue with
    | [] => s
    | id :: _ =>
      match kCommand s core id with
      | none => s
      | some (c, i) =>
        if !k.started then s
        else
          match keyFault s core c i with
          | none => s
          | some (t, code, tval) =>
            let u := releaseHolds (keyPop t core) core (descHandles c.desc)
            if i.si || i.so then
              plotFault (u.modCore core fun x => { x with cmds := x.cmds.filter fun y => y.id != id }) core code 0 1 (slotSite s core (if i.si then 6 else 7) 0) tval false
            else faultCommand u core id code 0 tval 0 false)

end Sys2Proof.Machine
end

