-- ==== Sys2Proof/Machine/Collective.lean ====
section
/-!
DEFINITION. Collective groups and commands (R375 to R383): registration, acceptance, the rendezvous, the transfers, completion.
-/

namespace Sys2Proof.Machine

/-! ### Groups (R375, R376) -/

/-- A group. -/
abbrev State.group (s : State) (g : Nat) : Group := tget Group.init s.groups g

/-- Change a group. -/
abbrev State.modGroup (s : State) (g : Nat) (f : Group → Group) : State := { s with groups := tmod Group.init s.groups g f }

/-- Every member has registered. -/
def Group.whole (g : Group) : Bool := g.p != 0 && g.members.length == g.p

/-- The member that a plot is. -/
def Group.memberOf (g : Group) (plot : Nat) : Option Member := g.members.find? fun m => m.plot == plot

/-- The plot whose lead core this is. -/
def leadPlot (s : State) (core : Nat) : Option Plot := (s.plotOf core).filter fun q => q.lead == core

/-- The Market die whose engines serve a core (R357). -/
abbrev marketOf (core : Nat) : Nat := 4 + engineBase (dieOf core) / 24

/-- End the pending commands of every member with one result. -/
def finishAll (s : State) (ms : List Member) (code : Byte) (result : W32) : State :=
  ms.foldl (fun t m => (m.pending ++ m.freed.toList).foldl (fun u id => completeFrom u m.core id code result) t) s

/-- A member registers (R376). -/
def register (s : State) (core id plot : Nat) (devs : Bool) (g p rank : Nat) : State :=
  let gr := s.group g
  if !gr.members.isEmpty && (gr.devs != devs || gr.p != p || gr.members.any fun m => m.rank == rank) then completeFrom s core id cFORMAT 0
  else
    let me : Member := { plot := plot, rank := rank, core := core, pending := [id], freed := none }
    let gr1 := { gr with devs := devs, p := p, members := gr.members ++ [me] }
    let t := modCmd (s.modGroup g fun _ => gr1) core id fun c => { c with phase := .running }
    if gr1.whole then
      (finishAll t gr1.members 0 (BitVec.ofNat 32 p)).modGroup g fun x => { x with members := x.members.map fun m => { m with pending := [] } }
    else t

/-- Every member has freed the group: each CGRP.FREE completes with its own P (R376), and a collective command that never met its
counterparts completes with CAUSALGAP, as it does when a group dissolves (R383). -/
def finishFreed (s : State) (ms : List Member) : State :=
  ms.foldl (fun t m =>
    let u := m.pending.foldl (fun v id => completeFrom v m.core id cCAUSALGAP 0) t
    match m.freed with
    | none => u
    | some id => completeFrom u m.core id 0 (((s.core m.core).cmd id).elim 0 fun y => y.cmd.extractLsb' 0 32)) s

/-- A member frees its group, which ends when every member has (R376). -/
def freeGroup (s : State) (core id plot g : Nat) : State :=
  let gr := s.group g
  match if gr.whole then gr.memberOf plot else none with
  | none => completeFrom s core id cFORMAT 0
  | some m =>
    if m.freed.isSome then s
    else
      let ms := mapFirst (fun x => x.plot == plot) (fun x => { x with freed := some id }) gr.members
      if ms.all fun x => x.freed.isSome then { finishFreed s ms with groups := tdel s.groups g }
      else modCmd (s.modGroup g fun x => { x with members := ms }) core id fun c => { c with phase := .running }

/-- CGRP and CGRP.FREE: the checks at the ISSUE word; the registration at the group by the collective logic of the Market die (R60), where the command
arrives as a packet and from where its completion comes as one (R290, R291). -/
def cgrpCmd (s : State) (devs free : Bool) (g : BitVec 6) (p rank : W32) : Res :=
  let c := s.cur.core
  .next (
    if issuing s then
      if (leadPlot s c).isNone then acceptFault s cFORMAT 0 (p.setWidth 64)
      else if p = 0 ∨ p.toNat > (if devs then 192 else 320) then acceptFault s cFORMAT 0 (p.setWidth 64)
      else if !rank.ult p then acceptFault s cFORMAT 0 (rank.setWidth 64)
      else sendCommands (modCmd (accept s [] 0) c (newId s) fun x => { x with home := marketOf c, ctl := .held })
    else
      match (s.core c).cmd s.cur.slot, leadPlot s c with
      | some me, some q =>
        if me.phase != .accepted || !atExecutor me then s
        else if free then freeGroup s c me.id q.id g.toNat
        else register s c me.id q.id devs g.toNat p.toNat rank.toNat
      | _, _ => s)

/-- CGRP (R376). -/
def execCgrp (devs : Bool) (g : BitVec 6) (p rank : BitVec 32) (s : State) : Res := cgrpCmd s devs false g p rank
/-- CGRP.FREE (R376). -/
def execCgrpFree (devs : Bool) (g : BitVec 6) (p rank : BitVec 32) (s : State) : Res := cgrpCmd s devs true g p rank

/-! ### Collective commands (R376, R377) -/

/-- The collective functions. -/
inductive GFn where
  | a2av
  | agth
  | rsct
  | ared
  deriving DecidableEq, Repr

/-- The fields of a collective command: element bytes, key type, operation, group, descriptor and count. -/
structure GInfo where
  fn : GFn
  e : Nat
  kt : Nat
  op : Nat
  g : Nat
  ldesc : W32
  count : W32
  deriving DecidableEq, Repr

/-- Bytes of an element (R376). -/
def eszBytes (z : BitVec 2) : Nat := [4, 8, 16, 64].getD z.toNat 4

/-- The fields of a collective command, `none` for another instruction. -/
def gInfo : Instr → Option GInfo
  | .a2av z g l => some { fn := .a2av, e := eszBytes z, kt := 0, op := 0, g := g.toNat, ldesc := l, count := 0 }
  | .agth z g l n => some { fn := .agth, e := eszBytes z, kt := 0, op := 0, g := g.toNat, ldesc := l, count := n }
  | .rsct kt op g l n => some { fn := .rsct, e := 4, kt := kt.toNat, op := op.toNat, g := g.toNat, ldesc := l, count := n }
  | .ared kt op g l n => some { fn := .ared, e := 4, kt := kt.toNat, op := op.toNat, g := g.toNat, ldesc := l, count := n }
  | _ => none

/-- A field of the descriptor (R377). -/
abbrev gField (desc : List Byte) (o : Nat) : Word := leBv 64 (slice desc o 8)

/-- The checks of R377 in their order. -/
def collectiveCheck (s : State) (core : Nat) (i : GInfo) (desc : List Byte) : Option (Byte × Word) :=
  let la := (i.ldesc.extractLsb' 0 15).setWidth 64
  let member := fun (q : Plot) => (s.group i.g).whole && ((s.group i.g).memberOf q.id).isSome
  let zero := if i.fn == .a2av then [48, 56] else [16, 24, 32, 40, 48, 56]
  let arrays := if i.fn == .a2av then [16, 24, 32, 40] else []
  if i.ldesc.toNat % 64 ≠ 0 then some (cALIGN, la)
  else if i.ldesc.toNat + 127 > 0x7FFF then some (cPERMISSION, la)
  else if (leadPlot s core).isNone then some (cFORMAT, la)
  else if !(leadPlot s core).any member then some (cFORMAT, BitVec.ofNat 64 i.g)
  else
    match zero.find? fun o => gField desc o != 0 with
    | some o => some (cFORMAT, gField desc o)
    | none =>
      if i.count.toNat > 2 ^ 28 then some (cFORMAT, i.count.setWidth 64)
      else
        match [0, 8].find? fun o => (gField desc o).toNat % i.e != 0 with
        | some o => some (cALIGN, gField desc o)
        | none => (arrays.find? fun o => (gField desc o).toNat % 4 != 0).map fun o => (cALIGN, gField desc o)

/-- The ISSUE of a collective command: an accepted one joins its member's pending commands and travels to the collective logic at the Market die
(R291). -/
def collectiveCmd (s : State) (x : Instr) : Res :=
  let c := s.cur.core
  .next (
    if !issuing s then s
    else
      match gInfo x with
      | none => s
      | some i =>
        let desc := descriptor s (i.ldesc.toNat % Config.localBytes) 64
        match collectiveCheck s c i desc with
        | some f => acceptFault s f.1 0 f.2
        | none =>
          let t := modCmd (accept s desc 0) c (newId s) fun x => { x with home := marketOf c, ctl := .held }
          sendCommands (t.modGroup i.g fun gr =>
            { gr with members := mapFirst (fun m => m.core == c) (fun m => { m with pending := m.pending ++ [newId s] }) gr.members }))

/-- A2AV (R379). -/
def execA2av (esz : BitVec 2) (g : BitVec 6) (ldesc : BitVec 32) (s : State) : Res := collectiveCmd s (.a2av esz g ldesc)
/-- AGTH (R379). -/
def execAgth (esz : BitVec 2) (g : BitVec 6) (ldesc count : BitVec 32) (s : State) : Res := collectiveCmd s (.agth esz g ldesc count)
/-- RSCT (R379). -/
def execRsct (kt op : BitVec 2) (g : BitVec 6) (ldesc count : BitVec 32) (s : State) : Res := collectiveCmd s (.rsct kt op g ldesc count)
/-- ARED (R379). -/
def execAred (kt op : BitVec 2) (g : BitVec 6) (ldesc count : BitVec 32) (s : State) : Res := collectiveCmd s (.ared kt op g ldesc count)

/-! ### Transfers (R379 to R381) -/

/-- A party of a rendezvous: rank, core, command, fields, page table. -/
structure Party where
  rank : Nat
  core : Nat
  cmd : Cmd
  i : GInfo
  root : Word
  deriving DecidableEq, Repr

/-- What one transfer carries: the ranks it goes from and to, its destination, and its bytes or the code of a fault. -/
structure Transfer where
  src : Nat
  dst : Nat
  va : Word
  data : Except Byte (List Byte)

/-- Read a range: a page or sector fault, or a removed home die, gives its code. -/
def readCode (s : State) (root va : Word) (n : Nat) : Except Byte (List Byte) :=
  match readVa s root va n with
  | .error e => .error e.1
  | .ok bs =>
    let lost := (pieces va n).any fun p =>
      match walkPage s root (BitVec.ofNat 64 p.1) false false with
      | .error _ => false
      | .ok e => (s.die (e.homeOf s (BitVec.ofNat 64 p.1))).removed
    if lost then .error cCAUSALGAP else .ok bs

/-- Entry `n` of an array of counts or displacements. -/
def arrayAt (a : Except Byte (List Byte)) (n : Nat) : Except Byte Nat :=
  match a with
  | .error c => .error c
  | .ok bs => .ok (leAt bs (4 * n) 4)

/-- An array of P entries at a field of a party's descriptor. -/
def partyArray (s : State) (q : Party) (o p : Nat) : Except Byte (List Byte) := readCode s q.root (gField q.cmd.desc o) (4 * p)

/-- One segment of A2AV; a mismatch of the counts moves nothing and is FORMAT for both ends. -/
def segment (s : State) (p : Nat) (a b : Party) : Option Transfer :=
  let va := gField b.cmd.desc 8
  match arrayAt (partyArray s a 16 p) b.rank, arrayAt (partyArray s a 24 p) b.rank, arrayAt (partyArray s b 32 p) a.rank, arrayAt (partyArray s b 40 p) a.rank with
  | .ok sc, .ok sd, .ok rc, .ok rd =>
    if sc ≠ rc then some { src := a.rank, dst := b.rank, va := va, data := .error cFORMAT }
    else if sc = 0 then none
    else some { src := a.rank, dst := b.rank, va := va + BitVec.ofNat 64 (a.i.e * rd),
                data := readCode s a.root (gField a.cmd.desc 0 + BitVec.ofNat 64 (a.i.e * sd)) (a.i.e * sc) }
  | .error c, _, _, _ | _, .error c, _, _ | _, _, .error c, _ | _, _, _, .error c => some { src := a.rank, dst := b.rank, va := va, data := .error c }

/-- The left fold of R380 over the blocks of the members, word by word. -/
def foldBlocks (kt op : Nat) : List (List Byte) → List Byte
  | [] => []
  | x :: r => (r.foldl (fun acc b => List.zipWith (keyCombine kt op) acc (wordsOf (b.length / 4) b)) (wordsOf (x.length / 4) x)).flatMap fun w => natLe 4 w.toNat

/-- The blocks of every member, or the code of the first that cannot be read. -/
def allBlocks (s : State) (o n : Nat) : List Party → Except Byte (List (List Byte))
  | [] => .ok []
  | q :: qs =>
    match readCode s q.root (gField q.cmd.desc 0 + BitVec.ofNat 64 o) n with
    | .error c => .error c
    | .ok b =>
      match allBlocks s o n qs with
      | .error c => .error c
      | .ok bs => .ok (b :: bs)

/-- The transfers of a collective (R379). -/
def transfers (s : State) (ps : List Party) : List Transfer :=
  match ps with
  | [] => []
  | p0 :: _ =>
    let i := p0.i
    let n := i.e * i.count.toNat
    match i.fn with
    | .a2av => ps.flatMap fun a => ps.filterMap fun b => segment s ps.length a b
    | .agth =>
      if n = 0 then []
      else ps.flatMap fun b => ps.map fun a =>
        { src := a.rank, dst := b.rank, va := gField b.cmd.desc 8 + BitVec.ofNat 64 (n * a.rank), data := readCode s a.root (gField a.cmd.desc 0) n }
    | .rsct | .ared =>
      if n = 0 then []
      else ps.map fun b =>
        { src := b.rank, dst := b.rank, va := gField b.cmd.desc 8,
          data := match allBlocks s (if i.fn == .rsct then n * b.rank else 0) n ps with
            | .error c => .error c
            | .ok bs => .ok (foldBlocks i.kt i.op bs) }

/-- The pieces of a transfer (R247, R287): offsets and lengths; the trailing sector is the last. One of at most 32 bytes is its own trailing sector
(R381), cut only where R247 cuts every access. -/
def transferPieces (va : Word) (n : Nat) : List (Nat × Nat) :=
  let last := (va.toNat + n - 1) / (if n ≤ 32 then 256 else 32) * (if n ≤ 32 then 256 else 32)
  let body := if va.toNat < last then last - va.toNat else 0
  (cut256 va.toNat body (body / 256 + 2)).map (fun x => (x.1 - va.toNat, x.2)) ++ [(body, n - body)]

/-- Hand the bytes of a transfer to the memory path: the state, and the code of the first piece that has no page. `snd` is the command
of the sender, which waits for them too. The trailing sector behind a body comes to the clock unit later than the body, at the next event that stamps what
waits, so that the body's flits may have left before it (R459; DESIGN CHOICE, log 118). -/
def sendTransfer (s : State) (eng : Nat) (rcv : Party) (snd : Nat) (va : Word) (bs : List Byte) : State × Byte :=
  let ps := transferPieces va bs.length
  let n := newId s
  ps.foldl (fun r x =>
    if r.2 ≠ 0 then r
    else
      let a := va + BitVec.ofNat 64 x.1
      match walkPage r.1 rcv.root a true false with
      | .error f => (r.1, f.1)
      | .ok e =>
        let last := x.1 + x.2 = bs.length
        let w := mkAccess r.1 (.engine eng) .write e a x.2 (slice bs x.1 x.2) (.cmd rcv.core rcv.cmd.id)
        ((if last && ps.length != 1 then queueAccess else issueAccess) r.1 { w with rel := last, trail := last, scope := if last then 2 else 0, cmp := natLe 8 snd, xfer := n }, 0)) (s, 0)

/-- The outcome of a collective at one member, as its command keeps it. -/
def setOutcome (s : State) (q : Party) (code : Byte) (result : Nat) : State :=
  modCmd s q.core q.cmd.id fun c => { c with phase := .running, code := if c.code = 0 then code else c.code,
                                             result := if c.code = 0 && code == 0 then c.result + BitVec.ofNat 32 result else 0 }

/-- The core whose engine set carries a transfer: for A2AV and AGTH the manual leaves it to the logic, and the model takes the sender's (R381, DESIGN
CHOICE, log 104); a reduced block is its receiver's. -/
def carrier (a b : Party) : Nat := if b.i.fn == .a2av || b.i.fn == .agth then a.core else b.core

/-- Carry out one transfer; a fault is reported to the members at both ends, for a reduced block to its receiver. -/
def doTransfer (ps : List Party) (s : State) (t : Transfer) : State :=
  match ps.find? (fun q => q.rank == t.src), ps.find? fun q => q.rank == t.dst with
  | some a, some b =>
    let eng := engineBase (dieOf (carrier a b)) + (t.src + t.dst) % 12
    match t.data with
    | .error c => setOutcome (setOutcome s a c 0) b c 0
    | .ok bs =>
      let (u, c) := sendTransfer s eng b a.cmd.id t.va bs
      if c ≠ 0 then setOutcome (setOutcome u a c 0) b c 0
      else setOutcome ((u.count (4 + engineBase (dieOf a.core) / 24) 2 bs.length).count (4 + eng / 24) 3 bs.length) b 0
        (if b.i.fn == .a2av then bs.length else 0)
  | _, _ => s

/-- The members' matching commands, by rank. -/
def parties (s : State) (g : Group) : List Party :=
  (List.range g.p).filterMap fun r =>
    match g.members.find? fun m => m.rank == r with
    | none => none
    | some m =>
      match m.pending.head?.bind fun id => (s.core m.core).cmd id with
      | none => none
      | some c =>
        match decodeCommand c.cmd with
        | .error _ => none
        | .ok x => (gInfo x).map fun i => { rank := r, core := m.core, cmd := c, i := i, root := coreRoot s m.core }

/-- Whether a page that a transfer writes is write-blocked (R244). -/
def blockedDest (s : State) (ps : List Party) (t : Transfer) : Bool :=
  match t.data, ps.find? fun q => q.rank == t.dst with
  | .ok bs, some b => (transferPieces t.va bs.length).any fun x =>
      match walkPage s b.root (t.va + BitVec.ofNat 64 x.1) true false with
      | .ok e => e.wb
      | .error _ => false
  | _, _ => false

/-- What a party's commands read before any byte is written (R378), as (carrier, party, address, length): its arrays and the blocks that go out. -/
def partyReads (ps : List Party) (q : Party) : List (Nat × Party × Word × Nat) :=
  let n := q.i.e * q.i.count.toNat
  let send := gField q.cmd.desc 0
  match q.i.fn with
  | .a2av => [16, 24, 32, 40].map fun o => (q.core, q, gField q.cmd.desc o, 4 * ps.length)
  | .agth => if n = 0 then [] else ps.map fun _ => (q.core, q, send, n)
  | .rsct => if n = 0 then [] else ps.map fun b => (b.core, q, send + BitVec.ofNat 64 (n * b.rank), n)
  | .ared => if n = 0 then [] else ps.map fun b => (b.core, q, send, n)

/-- The reads of a collective: those of each party, and the segments of an A2AV. -/
def collectiveReads (s : State) (ps : List Party) : List (Nat × Party × Word × Nat) :=
  ps.flatMap (partyReads ps) ++ ps.flatMap fun a =>
    if a.i.fn != .a2av then []
    else ps.filterMap fun b =>
      match arrayAt (partyArray s a 16 ps.length) b.rank, arrayAt (partyArray s a 24 ps.length) b.rank with
      | .ok n, .ok d => if n = 0 then none else some (a.core, a, gField a.cmd.desc 0 + BitVec.ofNat 64 (a.i.e * d), a.i.e * n)
      | _, _ => none

/-- The packets of a rendezvous: the Market dies of the members exchange it as ordered CTL packets (R378), and the engines read what the members send
(R247); `none` while one has to wait. -/
def meetTraffic (s : State) (ps : List Party) : Option State :=
  let dies := (ps.map fun q => marketOf q.core).eraseDups
  let meet := if dies.length < 2 then some s
    else (cross s 4 5 { Packet.init with ptype := pCTL, op := ctlMeet }).bind fun t => cross t 5 4 { Packet.init with ptype := pCTL, op := ctlMeet }
  (collectiveReads s ps).foldl (fun acc r => acc.bind fun t =>
    (crossVa t (marketOf r.1) r.2.1.root r.2.2.1 r.2.2.2 false).map fun u => touchVa u r.2.1.root r.2.2.1 r.2.2.2 false) meet

/-- The matched commands leave their members. -/
def groupNext (s : State) (g : Nat) : State :=
  s.modGroup g fun x => { x with met := false, done := [], members := x.members.map fun m => { m with pending := m.pending.drop 1 } }

/-- COLLECTIVE_RENDEZVOUS (R378): every member has issued its matching command, which has come to the collective logic behind its sequencer's earlier
accesses (R291). Every SEND range is read before any byte is written. -/
def execCollectiveRendezvous (g : Nat) (s : State) : Res :=
  let gr := s.group g
  let ps := parties s gr
  .next (
    match ps with
    | [] => s
    | p0 :: _ =>
      if !gr.whole || gr.met || ps.length < gr.p || ps.any (fun q => !atExecutor q.cmd) then s
      else if ps.any fun q => q.i.fn != p0.i.fn || q.i.e != p0.i.e || q.i.kt != p0.i.kt || q.i.op != p0.i.op || q.i.count != p0.i.count then
        groupNext (ps.foldl (fun t q => completeFrom t q.core q.cmd.id cFORMAT 0) s) g
      else
        let ts := transfers s ps
        if ts.any fun t => blockedDest s ps t then s
        else
          match meetTraffic s ps with
          | none => s
          | some u =>
            ts.foldl (doTransfer ps) (ps.foldl (fun t q => setOutcome t q 0 0) (u.modGroup g fun x => { x with met := true, done := [] })))

/-- The accesses that a member's command waits for: those it receives and those it sends. -/
def partyAccs (s : State) (q : Party) : List Access :=
  s.accs.filter fun a => a.dest == .cmd q.core q.cmd.id ||
    (a.kind == .write && a.cmp == natLe 8 q.cmd.id && (match a.agent with | .engine _ => true | _ => false))

/-- The trailing sectors of transfers of which a piece has failed are not written (R382). -/
def dropTrailing (s : State) : State :=
  { s with accs := s.accs.filter fun b => !(b.rel && b.phase == .issued && b.xfer != 0 && s.accs.any fun a => Nat.blt a.id b.id && failedPart a b) }

/-- COLLECTIVE_COMPLETE (R382): what a member sends has been performed and what it receives has landed; a lost packet is CAUSALGAP. While they have not,
the logic stamps what waits and no order holds back (log 118). -/
def execCollectiveComplete (g rank : Nat) (s0 : State) : Res :=
  let s := dropTrailing s0
  let gr := s.group g
  .next (
    match (parties s gr).find? fun q => q.rank == rank with
    | none => s
    | some q =>
      let mine := partyAccs s q
      if !gr.met || gr.done.contains rank then s
      else if mine.any fun a => a.phase != .returned then stampReady s
      else
        let t := if mine.isEmpty then completeFrom s q.core q.cmd.id q.cmd.code q.cmd.result else completeFrom s q.core q.cmd.id cCAUSALGAP 0
        if (rank :: gr.done).length ≥ gr.p then
          let ids := gr.members.flatMap fun m => (m.pending.take 1).map fun id => (m.core, id)
          groupNext { t with accs := t.accs.filter fun a => !(a.phase == .returned && ids.any fun x => a.dest == .cmd x.1 x.2) } g
        else t.modGroup g fun x => { x with done := rank :: x.done })

end Sys2Proof.Machine
end

