-- ==== Sys2Proof/Machine/Routing.lean ====
section
/-!
DEFINITION. Token routing operators (R172 to R181), CMPR, CSUM and TRACE (R185 to R187), the bay switch (R205) and the
breakpoint events (R189).
-/

namespace Sys2Proof.Machine

/-- A token with some lanes removed; inactive lanes hold 0. -/
def maskTok (t : Token) (m : BitVec 16) : Token := dataTok (t.mask &&& m) t.lane

/-- STEER (R172). -/
def execSteer (n : NodeFields) (s : State) : Res :=
  inStep s n (forward n) fun t =>
    match input t 0 with
    | none => t
    | some l =>
      let p := pOperand t
      let u := consume t (enabled n)
      if n.mods.getLsbD 0 then emitAB u n (some (maskTok l (truth p))) (some (maskTok l (~~~(truth p))))
      else if isTrue p then emitAB u n (some l) none else emitAB u n none (some l)

/-- MERGE (R173): the order is that of the P stream. -/
def execMerge (n : NodeFields) (s : State) : Res :=
  let p := input s 2
  .next (
    if !nodeRuns s then s
    else if [input s 0, input s 1, p].any fun h => h.any fun t => t.kind == 3 then formatFault s n
    else
      match p with
      | none => s
      | some pt =>
        if pt.kind == kDATA then
          let i := if isTrue pt then 0 else 1
          match input s i with
          | none => s
          | some x =>
            if x.kind != kDATA then formatFault s n
            else if !roomy s n then s
            else emitAB (consume s [2, i]) n (some x) (some x)
        else
          match input s 0, input s 1 with
          | some l, some r =>
            if l.kind != pt.kind || r.kind != pt.kind then formatFault s n
            else if !roomy s n then s
            else fireAll s n l
          | _, _ => s)

/-- CARRY (R174, R175). -/
def execCarry (n : NodeFields) (s : State) : Res :=
  let st := nodeSt' s
  let l := input s 0
  let r := input s 1
  let p := input s 2
  let go := fun (f : State → State) => if roomy s n then f s else s
  let kind3 := fun (ps : List (Option Token)) => ps.any fun h => h.any fun t => t.kind == 3
  .next (
    if !nodeRuns s then s
    else
      match st.st with
      | .init =>
        match l with
        | none => s
        | some x =>
          if kind3 [l] then formatFault s n
          else if x.kind == kDATA then
            go fun t => modNode (emitAB (consume t [0]) n (some (if st.keep then st.v else x)) none) fun y => { y with st := .loop, keep := false }
          else
            go fun t => modNode (emitAB (consume t [0]) n (some x) (some x)) fun y =>
              { y with st := if x.kind == kEOI then .drain else .drainb, close := x.close }
      | .loop =>
        match p with
        | none => if kind3 [r] then formatFault s n else s
        | some pt =>
          if pt.kind != kDATA then formatFault s n
          else
            match r with
            | none => s
            | some rt =>
              if rt.kind != kDATA then formatFault s n
              else if isTrue pt then go fun t => emitAB (consume t [1, 2]) n (some rt) none
              else go fun t => modNode (emitAB (consume t [1, 2]) n none (some rt)) fun y => { y with st := .init, v := rt }
      | .drain =>
        if [p, r].any fun h => h.any fun t => t.kind != kEOI then formatFault s n
        else if p.isNone || r.isNone then s
        else go fun t => modNode (consume t [1, 2]) fun y =>
          if n.rsteoi && decide (y.close ≥ (n.mods.extractLsb' 0 3).toNat) then { y with st := .init, v := Token.init, keep := false, close := 0 }
          else { y with st := .init, keep := true, close := 0 }
      | .drainb =>
        if [p, r].any fun h => h.any fun t => t.kind != kBAR then formatFault s n
        else if p.isNone || r.isNone then s
        else go fun t => modNode (consume t [1, 2]) fun y => { y with st := .init, close := 0 })

/-- SELECT (R176). -/
def execSelect (n : NodeFields) (s : State) : Res :=
  pureNode s n fun t l =>
    let r := rOperand t n
    let m := truth (pOperand t)
    dataTok ((l.mask &&& m) ||| (r.mask &&& ~~~m)) fun i => if m.getLsbD i then l.lane i else r.lane i

/-- GATE (R177). -/
def execGate (n : NodeFields) (s : State) : Res :=
  inStep s n (forward n) fun t =>
    match input t 0 with
    | none => t
    | some l =>
      let p := pOperand t
      if n.mods.getLsbD 0 then (if isTrue p then fireAll t n l else consume t (enabled n))
      else fireAll t n (maskTok l (truth p))

/-- JOIN (R178): L is the main stream; side-stream DATA is discarded; a marker passes when it heads every input. -/
def execJoin (n : NodeFields) (s : State) : Res :=
  let ins := enabled n
  let hs := ins.map fun p => input s p
  .next (
    if !nodeRuns s then s
    else if hs.any fun h => h.any fun t => t.kind == 3 then formatFault s n
    else if hs.all fun h => h.any fun t => t.kind != kDATA then
      match hs with
      | some l :: rest =>
        if rest.any fun h => h.any fun t => t.kind != l.kind then formatFault s n
        else if roomy s n then forward n l s else s
      | _ => s
    else if !roomy s n then s
    else
      let isData := fun p => (input s p).any fun t => t.kind == kDATA
      let side := (ins.filter fun p => p != 0 && isData p)
      match input s 0 with
      | some l => if l.kind == kDATA then emitAB (consume s (0 :: side)) n (some l) (some l) else consume s side
      | none => consume s side)

/-- DUP (R179). -/
def execDup (n : NodeFields) (s : State) : Res := pureNode s n fun _ l => l

/-- SINK (R179): markers count for the retirement of the invocation (R169). -/
def execSink (n : NodeFields) (s : State) : Res :=
  inStep s n (fun l t => sinkMark (consume t [0]) t.cur.core t.cur.cell t.cur.stage l.kind) fun t => consume t [0]

/-- CONST (R180). -/
def execConst (n : NodeFields) (s : State) : Res :=
  pureNode s n fun t l =>
    let c := n.cidx.toNat
    dataTok (if n.mods.getLsbD 1 then l.mask else 0xFFFF) fun i =>
      poolAt t t.cur.core t.cur.cell (if n.mods.getLsbD 0 then c + i else c)

/-- COUNT (R181). Under .LAST an EOI first gives one token, in a firing of its own. -/
def execCount (n : NodeFields) (s : State) : Res :=
  let last := n.mods.getLsbD 3
  inStep s n (fun l t =>
      let st := nodeSt' t
      if l.kind == kEOI then
        if last && !st.extra then
          modNode (emitAB t n (some (dataTok 1 fun _ => st.c)) (some (dataTok 1 fun _ => st.c))) fun x => { x with extra := true }
        else
          modNode (forward n l t) fun x =>
            { x with extra := false, c := if n.rsteoi && decide (l.close ≥ (n.mods.extractLsb' 0 3).toNat) then 0 else x.c }
      else forward n l t) fun t =>
    match input t 0 with
    | none => t
    | some l =>
      let st := nodeSt' t
      let d : W32 := if n.imm then poolAt t t.cur.core t.cur.cell n.cidx.toNat else 1
      let rank := fun i => ((List.range i).filter fun j => l.mask.getLsbD j).length
      let act := n.mods.getLsbD 4
      let out := if act then dataTok l.mask fun i => st.c + BitVec.ofNat 32 (rank i) else dataTok 0xFFFF fun _ => st.c
      let step := if act then BitVec.ofNat 32 (rank 16) else d
      let u := consume t [0]
      modNode (if last then u else emitAB u n (some out) (some out)) fun x => { x with c := x.c + step }

/-- The first lane in which two tokens differ, 16 for kind or mask (R185). -/
def firstDiff (a b : Token) : Nat :=
  if a.kind != b.kind || a.mask != b.mask then 16
  else ((List.range 16).find? fun i => a.lane i != b.lane i).getD 16

/-- CMPR (R185): the heads of both copies must be equal bit for bit. A head of kind 3 is reported at once, before the other copy's token has come, and
TVAL is 16 for it when both heads are equal: the manual gives neither (DESIGN CHOICE, log 96). -/
def execCmpr (n : NodeFields) (s : State) : Res :=
  .next (
    if !nodeRuns s then s
    else
      match input s 0, input s 1 with
      | some l, some r =>
        if l != r || l.kind == 3 then raiseNode s cDUALMISMATCH 0 (BitVec.ofNat 64 (if l == r then 16 else firstDiff l r)) false
        else if roomy s n then fireAll s n l else s
      | some l, none => if l.kind == 3 then raiseNode s cDUALMISMATCH 0 16 false else s
      | none, some r => if r.kind == 3 then raiseNode s cDUALMISMATCH 0 16 false else s
      | none, none => s)

/-- CSUM (R186). With B, an EOI first gives the sum there, in a firing of its own. -/
def execCsum (n : NodeFields) (s : State) : Res :=
  let hasB := !nullTarget n.tgtb
  inStep s n (fun l t =>
      let st := nodeSt' t
      if l.kind == kEOI then
        if hasB && !st.extra then modNode (emitAB t n none (some (dataTok 1 fun _ => st.s))) fun x => { x with extra := true }
        else modNode (forward n l t) fun x => { x with extra := false, s := 0 }
      else forward n l t) fun t =>
    match input t 0 with
    | none => t
    | some l =>
      let sum := ((List.range 16).filter fun i => l.mask.getLsbD i).foldl (fun a i => a.rotateLeft 5 + l.lane i) (nodeSt' t).s
      modNode (emitAB (consume t [0]) n (some l) none) fun x => { x with s := sum }

/-- Write a record of the trace ring, which overwrites its oldest (R187). -/
def traceRecord (s : State) (q : Plot) (t : Token) (tag num : Nat) : State :=
  let bs := natLe 2 t.mask.toNat ++ natLe 1 t.kind.toNat ++ natLe 1 tag ++ natLe 4 num ++ natLe 4 (t.lane 0).toNat ++ natLe 4 (t.lane 1).toNat
  (writeHash s (q.ringPa.toNat + 16 * (q.ringNext % 2 ^ q.ringLog)) bs).modPlot q.id fun p => { p with ringNext := p.ringNext + 1 }

/-- TRACE (R187): every token passes; it is recorded while a debug session has enabled the plot's ring. The number of the first invocation is 0, and a
ring that is enabled again or resized goes on at the plot's record number: the manual gives neither (DESIGN CHOICE, log 97). -/
def execTrace (n : NodeFields) (s : State) : Res :=
  let tag := (n.mods.extractLsb' 0 4).toNat
  let note := fun (x : Token) (t : State) =>
    match t.plotOf t.cur.core with
    | none => t
    | some q => if q.ringLog == 0 then t else traceRecord t q x tag (q.bayCount + (nodeSt' t).t)
  inStep s n (fun l t =>
      let u := forward n l (note l t)
      if l.kind == kEOI then modNode u fun x => { x with t := x.t + 1 } else u) fun t =>
    match input t 0 with
    | none => t
    | some l => fireAll (note l t) n l

/-! ### Bays (R205) -/

/-- Every arc of a plot is empty. -/
def arcsEmpty (s : State) (q : Plot) : Bool :=
  (heldCores s q).all fun c => (List.range 8).all fun i => (s.cell c i).arcs.isEmpty

/-- No node of the plot holds a part of a token's work. -/
def stagesIdle (s : State) (q : Plot) : Bool :=
  s.accs.all fun a =>
    match a.agent with
    | .node c _ _ => !(heldCores s q).contains c
    | .port c _ => !(heldCores s q).contains c
    | _ => true

/-- Every ingress slot has injected the EOI of W and every invocation up to W has retired; no port stands inside an invocation (R205 step 2). -/
def boundReached (s : State) (q : Plot) : Bool :=
  (match q.bound with
    | none => true
    | some w => (ingressSlots s q).all (slotPast s w) && (decide (w.toNat < q.wid.toNat) || decide (q.retired ≥ q.total))) &&
    (heldCores s q).all fun c => (s.core c).ports.all fun e => if e.2.dir then !e.2.eoiIn else !e.2.started || e.2.idx == 0

/-- The slots of a core's current bay go on with the invocation at `pos` (R205 step 4), also those that no earlier bay has; the manual speaks of ingress
slots, and the model lets the egress ports follow them (DEDUCED, log 103). An invocation of which no token has moved starts again. -/
def slotsFrom (s : State) (core : Nat) (pos : Word) : State :=
  let ws := (List.range 16).map fun i => slotWord s core (i / 2) (i % 2)
  let idxOf := fun (kinds : List Nat) => (ws.filter fun w => kinds.contains (slotKind w)).map slotIdx
  let ports := idxOf [1, 2] ++ (idxOf [8, 9]).map (· + 4)
  let keys := [5, 7, 10].flatMap fun k => (idxOf [k]).map (16 * k + ·)
  s.modCore core fun k =>
    { k with
      ports := ports.foldl (fun t p => tmod Port.init t p fun x => if x.idx == 0 then { x with pos := if x.ended then x.pos else pos, started := false } else x) k.ports
      slotPos := keys.foldl (fun t i => tmod SlotPos.init t i fun x => if x.begun || x.ended then x else { x with pos := pos }) k.slotPos }

/-- No invocation follows the last: in the bay that a decision makes current after it, every slot and node of a core is past the EOI of `pos` (R205,
R201; log 111). -/
def slotsOver (s : State) (core : Nat) (pos : Word) : State :=
  let ws := (List.range 16).map fun i => slotWord s core (i / 2) (i % 2)
  let idxOf := fun (kinds : List Nat) => (ws.filter fun w => kinds.contains (slotKind w)).map slotIdx
  let ports := idxOf [1, 2] ++ (idxOf [8, 9]).map (· + 4)
  let keys := [5, 7, 10].flatMap fun k => (idxOf [k]).map (16 * k + ·)
  s.modCore core fun k =>
    { k with
      ports := ports.foldl (fun t p => tmod Port.init t p fun x => { x with pos := pos, ended := true }) k.ports
      slotPos := keys.foldl (fun t i => tset SlotPos.init t i { pos := pos, begun := false, ended := true }) k.slotPos
      cells := (List.range 8).foldl (fun cs i => tmod Cell.init cs i fun x =>
        { x with nstate := (List.range 6).foldl (fun t st => tmod NodeState.init t (8 * x.bay + st) fun y => { y with ends := 7 }) x.nstate }) k.cells }

/-- BAY_SWITCH (R205): every ingress slot has injected the EOI of W and the plot is empty; all cells change bay in one step. -/
def execBaySwitch (plot : Nat) (s : State) : Res :=
  .next (
    match s.findPlot plot with
    | none => s
    | some q =>
      match q.decision with
      | none => s
      | some b =>
        if !q.live || !arcsEmpty s q || !stagesIdle s q || !boundReached s q || (List.range 8).any fun n => (tget Breakpoint.init q.bps n).hit then s
        else
          let s1 := (heldCores s q).foldl (fun t c => t.modCore c fun k =>
            { k with cells := (List.range 8).foldl (fun cs i => tmod Cell.init cs i fun x =>
                { x with bay := b, nstate := x.nstate.map fun e => (e.1, { e.2 with last := none, t := 0 }) }) k.cells }) s
          let s2 := match q.bound with
            | none => s1
            | some w => (heldCores s q).foldl (fun t c =>
              if !q.isLast w then slotsFrom t c q.wid else if b == q.bay then t else slotsOver t c w) s1
          s2.modPlot q.id fun p => { p with bay := b, decision := none, bound := none, bayStart := p.wid, bayCount := p.retired })

/-- BREAKPOINT_ENABLE (R189): BPCFG takes the value with EN set; EN rising clears COUNT, and TRIG = 0 halts at once. A TRIG that is written while EN is
1 halts nothing by itself, also when it equals COUNT or is 0: the manual speaks only of COUNT reaching TRIG (DESIGN CHOICE, log 99). -/
def execBreakpointEnable (core : Nat) (n : BitVec 3) (v : Word) (s : State) : Res :=
  .next (
    match s.plotOf core with
    | none => s
    | some q => s.modPlot q.id fun p =>
      { p with bps := tmod Breakpoint.init p.bps n.toNat fun b =>
          let trig := v.extractLsb' 32 32
          let count := if b.en then b.count else 0
          { trig := trig, kbar := v.getLsbD 7, keoi := v.getLsbD 6, kdata := v.getLsbD 5, en := true, count := count,
            hit := b.hit || (!b.en && trig == 0) } })

/-- BREAKPOINT_HIT_CLEAR (R189): the arc is open again. -/
def execBreakpointHitClear (core : Nat) (n : BitVec 3) (s : State) : Res :=
  .next (
    match s.plotOf core with
    | none => s
    | some q => s.modPlot q.id fun p => { p with bps := tmod Breakpoint.init p.bps n.toNat fun b => { b with hit := false } })

end Sys2Proof.Machine
end

