-- ==== Sys2Proof/Machine/Plans.lean ====
section
/-!
DEFINITION. Plan images and their checks (R191, R192, R195, R70), the placer (R197 to R199), the configuration load (R194),
the release of rows and FOLLOW (R201 to R203), the end of a sweep (R208). Every check collects the offsets that fail; the load
reports the smallest (R71, R195).
-/

namespace Sys2Proof.Machine

/-- CFGBAD and the fetch faults of a load: code and image offset. -/
abbrev LoadFault := Byte × Nat

/-! ### The image (R191, R192, R70) -/

/-- A cell record: where it starts, its cell, its header, the bays it holds, and whether a pool follows. -/
structure CellRec where
  off : Nat
  dx : Nat
  dy : Nat
  header : Nat
  bays : List Nat
  pool : Bool
  deriving DecidableEq, Repr

/-- WIDTH of an image. -/
abbrev imgW (img : List Byte) : Nat := leAt img 4 1
/-- HEIGHT of an image. -/
abbrev imgH (img : List Byte) : Nat := leAt img 5 1
/-- INITBAY of an image. -/
abbrev imgBay (img : List Byte) : Nat := leAt img 6 1 % 4
/-- Whether a MASK bit is set for core (i, j) of the rectangle. -/
abbrev imgMask (img : List Byte) (i j : Nat) : Bool := (leAt img (8 + j) 1).testBit i

/-- Length of a record's words and pool. -/
abbrev recLen (bays : List Nat) (pool : Bool) : Nat := 8 + 64 * bays.length + (if pool then 256 else 0)

/-- The cell records from an offset up, and the offset of a record that reaches past the image (R70, R195). -/
def parseRecs (img : List Byte) : Nat → Nat → List CellRec × List Nat
  | 0, _ => ([], [])
  | n + 1, o =>
    if img.length < o + 8 then ([], [o])
    else
      let h := leAt img o 8
      let bays := below 4 fun b => h.testBit (12 + b)
      if img.length < o + recLen bays (h.testBit 11) then ([], [o])
      else
        let r := parseRecs img n (o + recLen bays (h.testBit 11))
        ({ off := o, dx := h % 32, dy := h / 32 % 32, header := h, bays := bays, pool := h.testBit 11 } :: r.1, r.2)

/-- The records of an image; a count past 640 fails by itself (R191). -/
abbrev imgRecs (img : List Byte) : List CellRec × List Nat := parseRecs img (min 640 (leAt img 36 4)) (leAt img 32 4)

/-- Offset of word `st` of a bay of a record. -/
def CellRec.wordOff (r : CellRec) (b st : Nat) : Nat := r.off + 8 + 64 * (r.bays.idxOf b) + 8 * st

/-- Word `st` (stage 0 to 5, port slot 6 or 7) of a bay; zero in a bay that the record omits (R194 step 4). -/
def CellRec.word (r : CellRec) (img : List Byte) (b st : Nat) : Word :=
  if r.bays.contains b then BitVec.ofNat 64 (leAt img (r.wordOff b st) 8) else 0

/-- Pool entry of a record: zero without a pool (R70). -/
def CellRec.poolWord (r : CellRec) (img : List Byte) (i : Nat) : W32 :=
  if r.pool then BitVec.ofNat 32 (leAt img (r.off + 8 + 64 * r.bays.length + 4 * i) 4) else 0

/-- Opcode of a node word. -/
abbrev opcOf (w : Word) : Nat := (w.extractLsb' 54 10).toNat
/-- Opcodes of memory cells (R68). -/
abbrev isMemOp (w : Word) : Bool := 0x1C0 ≤ opcOf w && opcOf w ≤ 0x1FF

/-! ### Checks of the cell records (R65, R68 to R70, R169, R184, R188, R206, R227) -/

/-- Failing offsets of the record headers (R70, R16). Of two records with the same DX and DY the later one fails (DESIGN CHOICE, log 108). -/
def headerErrors (img : List Byte) (rs : List CellRec) : List Nat :=
  (rs.zipIdx.filter fun e =>
    let r := e.1
    r.header / 2 ^ 16 ≠ 0 || r.bays.isEmpty || (r.header.testBit 10 != ((r.dx + r.dy) % 2 == 1)) || 4 * imgW img ≤ r.dx ||
      2 * imgH img ≤ r.dy || (rs.take e.2).any fun x => x.dx == r.dx && x.dy == r.dy).map fun e => e.1.off

/-- A live node of the image: its record, bay, stage and word. -/
structure NodeAt where
  r : CellRec
  b : Nat
  st : Nat
  w : Word
  deriving DecidableEq, Repr

/-- Every word of every bay present. -/
def imgWords (img : List Byte) (rs : List CellRec) : List NodeAt :=
  rs.flatMap fun r => r.bays.flatMap fun b => (List.range 8).map fun st => { r := r, b := b, st := st, w := r.word img b st }

/-- Whether a node word fails by itself: R63 to R68, the operator's own rules, and the tile handle in the pool of a tile operator. -/
def nodeWordBad (x : NodeAt) : Bool :=
  if !x.w.getLsbD 0 then x.w != 0
  else
    let mem := x.r.header.testBit 10
    (match decodeNode x.w with | .error _ => true | .ok _ => false) || (mem != isMemOp x.w) || (mem && 4 ≤ x.st)

/-- The offset of a pool entry that a tile operator of the image uses and that names no handle (R217). -/
def poolErrors (img : List Byte) (x : NodeAt) : List Nat :=
  let i := (x.w.extractLsb' 12 6).toNat
  if x.w.getLsbD 0 && 0x1C1 ≤ opcOf x.w && opcOf x.w ≤ 0x1C4 && 64 ≤ (x.r.poolWord img i).toNat then
    [x.r.off + 8 + 64 * x.r.bays.length + 4 * i]
  else []

/-- Whether a port slot word fails by itself (R69, R64, R195). -/
def slotWordBad (img : List Byte) (x : NodeAt) : Bool :=
  if x.w == 0 then false
  else
    let k := slotKind x.w
    let t := x.w.extractLsb' 33 15
    k == 0 || 10 < k || [0, 7, 7, 0, 0, 0, 0, 0, 3, 3, 3].getD k 0 < slotIdx x.w || x.w.extractLsb' 48 6 != 0 ||
      x.w.extractLsb' 0 33 != 0 || (nullTarget t && t.extractLsb' 2 13 != 0) || (!ingressKind k && !nullTarget t) ||
      ((k == 8 || k == 9) && !imgMask img (x.r.dx / 4) (x.r.dy / 2))

/-- The core of a record within its rectangle, as a pair. -/
abbrev CellRec.coreOf (r : CellRec) : Nat × Nat := (r.dx / 4, r.dy / 2)

/-- Slots of one core and bay that name the same port in the same direction, or the same port 4 + c in both of its modes
(R69, R227): the word that comes later fails. -/
def slotClashes (xs : List NodeAt) : List Nat :=
  let slots := xs.filter fun x => 6 ≤ x.st && x.w != 0
  (slots.zipIdx.filter fun e =>
    let x := e.1
    let here := fun (y : NodeAt) => y.r.coreOf == x.r.coreOf && y.b == x.b
    ((slots.take e.2).any fun y => here y && slotKind y.w == slotKind x.w && slotIdx y.w == slotIdx x.w) ||
      ((slotKind x.w == 1 || slotKind x.w == 2) && slots.any fun y =>
        here y && (slotKind y.w == 8 || slotKind y.w == 9) && slotIdx y.w + 4 == slotIdx x.w)).map fun e => e.1.r.wordOff e.1.b e.1.st

/-- Nodes that arm a breakpoint that an earlier node of the bay arms (R188). -/
def brkClashes (xs : List NodeAt) : List Nat :=
  let arms := xs.filter fun x => x.st < 6 && x.w.getLsbD 0 && x.w.getLsbD 5
  (arms.zipIdx.filter fun e =>
    (arms.take e.2).any fun y => y.b == e.1.b && y.w.extractLsb' 2 3 == e.1.w.extractLsb' 2 3).map fun e => e.1.r.wordOff e.1.b e.1.st

/-- The word that a stage of a cell holds in a bay. -/
def wordIn (xs : List NodeAt) (b dx dy st : Nat) : Word :=
  ((xs.find? fun x => x.b == b && x.st == st && x.r.dx == dx && x.r.dy == dy).map NodeAt.w).getD 0

/-- The inputs that a target of a producer claims, or `none` when the target fails (R65, R184): s4 and s5 of a memory cell are no targets. An input is keyed by bay, cell,
stage and position. -/
def claimOf (img : List Byte) (xs : List NodeAt) (b : Nat) (dual node : Bool) (t : BitVec 15) : Option (List (Nat × Nat × Nat × Nat × Nat)) :=
  if nullTarget t then some []
  else
    let dx := (t.extractLsb' 10 5).toNat
    let dy := (t.extractLsb' 5 5).toNat
    let st := (t.extractLsb' 2 3).toNat
    let pos := (t.extractLsb' 0 2).toNat
    let w := wordIn xs b dx dy st
    if 4 * imgW img ≤ dx || 2 * imgH img ≤ dy then none
    else if 6 ≤ st then
      (if w == 0 || pos ≠ 0 || [1, 5, 7, 8].contains (slotKind w) || (node && dual) then none else some [(b, dx, dy, st, 0)])
    else if !w.getLsbD 0 || !w.getLsbD (11 - pos) || (4 ≤ st && (dx + dy) % 2 == 1) then none
    else if dual && !w.getLsbD 6 then
      (if opcOf w == 0x200 && pos == 0 then some [(b, dx, dy, st, 0), (b, dx, dy, st, 1)] else none)
    else some [(b, dx, dy, st, pos)]

/-- The targets of a word: A and B of a live node, the ingress target of a slot. -/
def targetsOf (x : NodeAt) : List (BitVec 15) :=
  if 6 ≤ x.st then (if ingressKind (slotKind x.w) then [x.w.extractLsb' 33 15] else [])
  else if x.w.getLsbD 0 then [x.w.extractLsb' 33 15, x.w.extractLsb' 18 15]
  else []

/-- Targets that fail, and words whose target names an input that an earlier target already names (R65). -/
def targetErrors (img : List Byte) (xs : List NodeAt) : List Nat :=
  (xs.foldl (fun acc x =>
    (targetsOf x).foldl (fun acc t =>
      match claimOf img xs x.b (x.w.getLsbD 6) (x.st < 6) t with
      | none => (acc.1, x.r.wordOff x.b x.st :: acc.2)
      | some cs =>
        if cs.any fun c => acc.1.contains c then (acc.1, x.r.wordOff x.b x.st :: acc.2) else (cs ++ acc.1, acc.2)) acc)
    (([], []) : List (Nat × Nat × Nat × Nat × Nat) × List Nat)).2

/-- Whether a word is a sink (R169). -/
def isSinkWord (x : NodeAt) : Bool :=
  if 6 ≤ x.st then [2, 3, 4, 6, 9, 10].contains (slotKind x.w) else x.w.getLsbD 0 && opcOf x.w == 0x187

/-- Whether a target of the image feeds a word of a bay. -/
def fedWord (xs : List NodeAt) (x : NodeAt) : Bool :=
  xs.any fun y => y.b == x.b && (targetsOf y).any fun t =>
    !nullTarget t && (t.extractLsb' 10 5).toNat == x.r.dx && (t.extractLsb' 5 5).toNat == x.r.dy && (t.extractLsb' 2 3).toNat == x.st

/-- Bays that some record holds and that have no sink: the offset of the bay in the first record that holds it (R169). A copy slot is a sink
when something feeds it (log 20). -/
def sinkErrors (rs : List CellRec) (xs : List NodeAt) : List Nat :=
  (List.range 4).filterMap fun b =>
    if xs.any fun x => x.b == b && isSinkWord x && (x.st < 6 || slotKind x.w != 10 || fedWord xs x) then none else (rs.find? fun r => r.bays.contains b).map fun r => r.wordOff b 0

/-- Failing offsets of the dual offset (R206). -/
def dualErrors (img : List Byte) (rs : List CellRec) (xs : List NodeAt) : List Nat :=
  let dc := leAt img 18 1
  let dr := leAt img 19 1
  let duals := xs.filter fun x => x.st < 6 && x.w.getLsbD 0 && x.w.getLsbD 6
  let out := duals.any fun x =>
    4 * imgW img ≤ x.r.dx + 4 * dc || 2 * imgH img ≤ x.r.dy + 2 * dr ||
      rs.any fun r => r.dx == x.r.dx + 4 * dc && r.dy == x.r.dy + 2 * dr
  (if 7 < dc then [18] else []) ++ (if 9 < dr then [19] else []) ++
    (if duals.isEmpty then (if dc ≠ 0 then [18] else if dr ≠ 0 then [19] else []) else if (dc = 0 ∧ dr = 0) || out then [18] else [])

/-! ### Checks of the header and the core table (R191, R192, R195, R212, R222) -/

/-- Offsets of the nonzero bytes among those that must be zero. -/
def nonzero (img : List Byte) (os : List Nat) : List Nat := os.filter fun o => leAt img o 1 ≠ 0

/-- Failing offsets of the plan header by itself. -/
def planHeaderErrors (img : List Byte) : List Nat :=
  (if leAt img 0 4 ≠ 1 then [0] else []) ++
  (if imgW img = 0 ∨ 8 < imgW img then [4] else []) ++
  (if imgH img = 0 ∨ 10 < imgH img then [5] else []) ++
  (if 4 ≤ leAt img 6 1 then [6] else []) ++
  (if 2 ≤ leAt img 7 1 then [7] else []) ++
  ((List.range 10).filter fun j => leAt img (8 + j) 1 / 2 ^ (if j < imgH img then imgW img else 0) ≠ 0).map (8 + ·) ++
  nonzero img [20, 21, 22, 23, 44, 45, 46, 47] ++
  (if leAt img 32 4 % 8 ≠ 0 then [32] else []) ++
  (if leAt img 36 4 = 0 ∨ 640 < leAt img 36 4 then [36] else []) ++
  (if leAt img 40 4 % 8 ≠ 0 then [40] else []) ++
  (if leAt img 48 8 % 64 ≠ 0 then [48] else [])

/-- A region that reaches past the image fails at its start (R195). -/
def regionError (img : List Byte) (o n : Nat) : List Nat := if n ≠ 0 ∧ img.length < o + n then [o] else []

/-- Offset of the core table entry of core `i`. -/
abbrev coreEntry (img : List Byte) (i : Nat) : Nat := leAt img 40 4 + 32 * i

/-- Failing offsets of the handler records of a core entry at `eo`. -/
def handlerErrors (img : List Byte) (eo : Nat) : List Nat :=
  let ho := leAt img (eo + 8) 4
  (List.range (leAt img (eo + 6) 1)).flatMap fun k =>
    let ro := ho + 16 * k
    if img.length < ro + 16 then []
    else
      (if leAt img ro 4 % 4 ≠ 0 then [ro] else []) ++
      (if 15 < leAt img (ro + 4) 1 ∨ (List.range k).any (fun j => leAt img (ho + 16 * j + 4) 1 == leAt img (ro + 4) 1) then [ro + 4] else []) ++
      nonzero img ((List.range 10).map (ro + 6 + ·))

/-- Failing offsets of the tile declarations of core `i`, but for their allocation (R212). -/
def tileDeclErrors (img : List Byte) (i eo : Nat) : List Nat :=
  let to_ := leAt img (eo + 12) 4
  (List.range (leAt img (eo + 7) 1)).flatMap fun k =>
    let ro := to_ + 16 * k
    if img.length < ro + 16 then []
    else
      (if 63 < leAt img ro 1 then [ro] else []) ++
      (if 32 ≤ leAt img (ro + 1) 1 ∨ leAt img (ro + 1) 1 % 4 = 3 ∨ (leAt img (ro + 1) 1 % 4 = 2 ∧ i ≠ 0) then [ro + 1] else []) ++
      nonzero img [ro + 2, ro + 3, ro + 12, ro + 13, ro + 14, ro + 15]

/-- Failing offsets of the port presets of a core entry; `bridge` says whether the core stands in row 0 or 9 (R222, R227). -/
def presetErrors (img : List Byte) (eo : Nat) (bridge : Bool) : List Nat :=
  let po := leAt img (eo + 16) 4
  (List.range (min 8 (leAt img (eo + 20) 1))).flatMap fun j =>
    let ro := po + 64 * j
    if img.length < ro + 64 then []
    else
      let cfg : Word := BitVec.ofNat 64 (leAt img ro 8)
      let va := cfg.getLsbD 1
      (if cfg.getLsbD 7 || cfg.extractLsb' 13 3 != 0 || cfg.extractLsb' 20 12 != 0 ||
          4 < (cfg.extractLsb' 3 3).toNat || cfg.extractLsb' 8 5 == 0 || 16 < (cfg.extractLsb' 8 5).toNat ||
          (va && (j < 4 || !bridge)) || (va && cfg.getLsbD 2) then [ro] else []) ++
      (if !va && (leAt img (ro + 8) 8) / 64 % 2 ^ 26 ≠ 0 then [ro + 8] else []) ++
      ((List.range 4).filter fun k => !fits40 (BitVec.ofNat 64 (leAt img (ro + 32 + 8 * k) 8))).map fun k => ro + 32 + 8 * k

/-- Failing offsets of the core entry of core `i`. -/
def coreErrors (img : List Byte) (i : Nat) (bridge : Bool) : List Nat :=
  let eo := coreEntry img i
  if img.length < eo + 32 then []
  else
    let plen := leAt img (eo + 4) 2
    ([0, 8, 12, 16].filter fun o => leAt img (eo + o) 4 % 8 ≠ 0).map (eo + ·) ++
    (if plen % 8 ≠ 0 ∨ 32768 < plen then [eo + 4] else []) ++
    (if 16 < leAt img (eo + 6) 1 then [eo + 6] else []) ++ (if 64 < leAt img (eo + 7) 1 then [eo + 7] else []) ++
    (if 8 < leAt img (eo + 20) 1 then [eo + 20] else []) ++ nonzero img ((List.range 11).map (eo + 21 + ·)) ++
    regionError img (leAt img eo 4) plen ++ regionError img (leAt img (eo + 8) 4) (16 * leAt img (eo + 6) 1) ++
    regionError img (leAt img (eo + 12) 4) (16 * leAt img (eo + 7) 1) ++ regionError img (leAt img (eo + 16) 4) (64 * leAt img (eo + 20) 1) ++
    handlerErrors img eo ++ tileDeclErrors img i eo ++ presetErrors img eo bridge

/-- The declarations of an image in core order: core of the rectangle and offset. -/
def declsOf (img : List Byte) : List (Nat × Nat) :=
  (List.range (imgW img * imgH img)).flatMap fun i =>
    (List.range (min 64 (leAt img (coreEntry img i + 7) 1))).map fun k => (i, leAt img (coreEntry img i + 12) 4 + 16 * k)

/-- Perform one declaration on the cores of a plot as a TALLOC of the same values (R212). -/
def allocDecl (img : List Byte) (cores : List Nat) (s : State) (d : Nat × Nat) : Except W32 State :=
  let kind : Byte := BitVec.ofNat 8 (leAt img (d.2 + 1) 1)
  allocTile s (cores.getD d.1 0) (kind.extractLsb' 0 2) (kind.getLsbD 2) (kind.extractLsb' 3 2) (leAt img d.2 1)
    (leAt img (d.2 + 4) 4) (leAt img (d.2 + 8) 4)

/-- Perform the declarations of an image on the cores of a plot: the state, or the declaration that fails (R212). -/
def allocDecls (img : List Byte) (cores : List Nat) (s : State) : List (Nat × Nat) → Except Nat State
  | [] => .ok s
  | d :: r =>
    match allocDecl img cores s d with
    | .error _ => .error d.2
    | .ok t => allocDecls img cores t r

/-- The declarations that cannot be performed, each tried after those before it that can (R212). -/
def allocErrors (img : List Byte) (cores : List Nat) (s : State) : List (Nat × Nat) → List Nat
  | [] => []
  | d :: r =>
    match allocDecl img cores s d with
    | .error _ => d.2 :: allocErrors img cores s r
    | .ok t => allocErrors img cores t r

/-- An empty rectangle of a plan's size, on which its declarations are tried (R212). -/
def emptyRect (w h : Nat) : State :=
  let q : Plot := { Plot.init with id := 1, w := w, h := h }
  q.cores.foldl (fun t c => t.setCore c { Core.init with plot := some 1 }) { State.reset with plots := [q] }

/-- Failing offsets of the cell records of an image (R70, R195). -/
def recordErrors (img : List Byte) : List Nat :=
  let (rs, past) := imgRecs img
  let xs := imgWords img rs
  let nodes := xs.filter fun x => x.st < 6
  let slots := xs.filter fun x => 6 ≤ x.st
  past ++ headerErrors img rs ++ (nodes.filter nodeWordBad).map (fun x => x.r.wordOff x.b x.st) ++ nodes.flatMap (poolErrors img) ++
    (slots.filter (slotWordBad img)).map (fun x => x.r.wordOff x.b x.st) ++ slotClashes xs ++ brkClashes xs ++
    targetErrors img xs ++ sinkErrors rs xs ++ dualErrors img rs xs ++ if rs.any fun r => r.bays.contains (imgBay img) then [] else [6]

/-- Failing offsets of the core table of an image; a declaration whose own fields fail is not tried (R192, R212). -/
def coreTableErrors (img : List Byte) (bridge : Nat → Bool) : List Nat :=
  let n := imgW img * imgH img
  let bad := (List.range n).flatMap fun i => tileDeclErrors img i (coreEntry img i)
  let e := emptyRect (imgW img) (imgH img)
  regionError img (leAt img 40 4) (32 * n) ++ ((List.range n).flatMap fun i => coreErrors img i (bridge i)) ++
    allocErrors img (e.plots.flatMap Plot.cores) e
      ((declsOf img).filter fun d => d.2 + 16 ≤ img.length && (List.range 16).all fun i => !bad.contains (d.2 + i))

/-- Failing offsets of an image (R195 and the cases it names). Without a rectangle only the header has any. `bridge` says which cores of
the rectangle stand in row 0 or 9. -/
def imageErrors (img : List Byte) (bridge : Nat → Bool) : List Nat :=
  let he := planHeaderErrors img
  if he.contains 4 || he.contains 5 then he else he ++ recordErrors img ++ coreTableErrors img bridge

/-- The smallest of a list. -/
def minNat? : List Nat → Option Nat
  | [] => none
  | a :: r => some (r.foldl min a)

/-- Check an image: CFGBAD with the first failing byte (R195, R71). -/
def checkImage (img : List Byte) (bridge : Nat → Bool) : Option LoadFault := (minNat? (imageErrors img bridge)).map fun o => (cCFGBAD, o)

/-- The first sector from an address up that cannot be read, within 256 bytes. -/
def firstUnread (s : State) (root a : Word) : Word :=
  (((List.range 9).map fun i => BitVec.ofNat 64 ((a.toNat / 32 + i) * 32)).find? fun x =>
    match readVa s root x 1 with | .error _ => true | .ok _ => false).getD a

/-- Read bytes of an image, or the fault with its offset (R194 step 1, R195). -/
def fetchBytes (s : State) (root image : Word) (n : Nat) : Except LoadFault (List Byte) :=
  match readVa s root image n with
  | .ok bs => .ok bs
  | .error e =>
    let at_ := if e.1 == cMEMUNCORR then firstUnread s root e.2 else e.2
    .error (e.1, (at_ - image).toNat)

/-- Steps 1 and 2 of R194: fetch the whole image and check it. -/
def fetchImage (s : State) (root image : Word) (bridge : Nat → Bool) : Except LoadFault (List Byte) :=
  match fetchBytes s root image 64 with
  | .error e => .error e
  | .ok h =>
    if leAt h 56 8 < 64 then .error (cCFGBAD, ((minNat? (planHeaderErrors h)).map (min 56)).getD 56)
    else
      match fetchBytes s root image (leAt h 56 8) with
      | .error e => .error e
      | .ok img =>
        match checkImage img bridge with
        | some f => .error f
        | none => .ok img

/-- The image crosses from its homes to the die whose walker fetches it (R194 step 1, R247), and its requests are counted (R245); `none` while a
packet has to wait. -/
def imageTraffic (s : State) (die : Nat) (root image : Word) : Option State :=
  let n := match readVa s root image 64 with
    | .error _ => 64
    | .ok h => max 64 (leAt h 56 8)
  (crossVa s die root image n false).map fun t => touchVa t root image n false

/-! ### The placer (R198 to R200) -/

/-- Whether a rectangle takes a plot: every core satisfies `free`, and the mask's cores are bridge cores (R198). -/
def fits (free : Nat → Bool) (w h : Nat) (mask : Nat → Nat → Bool) (die col row : Nat) : Bool :=
  (List.range h).all fun j => (List.range w).all fun i =>
    free (coreAt die (col + i) (row + j)) && (!mask i j || row + j == 0 || row + j == 9)

/-- Every offset in the order of R198: die, then row, then column. -/
def offsets (w h : Nat) : List (Nat × Nat × Nat) :=
  (List.range 4).flatMap fun die => (List.range (11 - h)).flatMap fun row => (List.range (9 - w)).map fun col => (die, col, row)

/-- Whether every core that a plan would take at an offset is FREE. -/
def freeAt (s : State) (img : List Byte) (o : Nat × Nat × Nat) : Bool :=
  fits (fun c => s.leaseOf c == .free) (imgW img) (imgH img) (imgMask img) o.1 o.2.1 o.2.2

/-- First fit (R198). -/
def firstFit (s : State) (img : List Byte) : Option (Nat × Nat × Nat) := (offsets (imgW img) (imgH img)).find? (freeAt s img)

/-- The first fit after a refused offset, in the same order (R199). -/
def nextFit (s : State) (img : List Byte) (refused : Nat × Nat × Nat) : Option (Nat × Nat × Nat) :=
  (((offsets (imgW img) (imgH img)).dropWhile fun o => o != refused).drop 1).find? (freeAt s img)

/-- A search asks the walker of the die of its candidate for it, or ends without one (R199). -/
def askOffset (s : State) (q : Plot) (img : List Byte) (o : Option (Nat × Nat × Nat)) : State :=
  s.bump.modPlot q.id fun p => { p with img := img, cand := o, candAt := newId s }

/-- The request of a plot is the oldest that the walker of its die has still to serve (R199). -/
def served (s : State) (q : Plot) (die : Nat) : Bool := !(s.plots.any fun x => x.candAt < q.candAt && x.cand.any fun o => o.1 == die)

/-- The walker of the candidate's die serves a request: it accepts while every core is still FREE, and a refused search goes on from the next
candidate (R199). The walker of die 0 asks, and a request to another die and its answer are CTL packets (R250, log 91). -/
def reserveAt (s : State) (q : Plot) (o : Nat × Nat × Nat) (accept : State → State) : State :=
  if !served s q o.1 then s
  else
    match (walkerSend s 0 o.1 ctlReserve).bind fun t => walkerSend t o.1 0 ctlReserve with
    | none => s
    | some t =>
      if freeAt t q.img o then accept (t.modPlot q.id fun p => { p with cand := none })
      else askOffset t q q.img (nextFit t q.img o)

/-- The entry of a plot's LAUNCH or saved context in the queue set. -/
def entryOf (s : State) (q : Plot) : Option QEntry :=
  s.queue.find? fun e => e.restored == some q.id || (e.restored.isNone && e.launch && e.node == q.node && q.state != .saved)

/-- An entry that a placer serves. -/
abbrev QEntry.places (e : QEntry) : Bool := e.launch || e.restored.isSome

/-- Whether an entry stands before another: higher level, then older (R400). -/
def QEntry.before (a b : QEntry) : Bool := b.level < a.level || (a.level == b.level && a.ready.toNat < b.ready.toNat)

/-- Whether an entry is the head among the LAUNCH entries and saved contexts (R400). -/
def isHead (s : State) (e : QEntry) : Bool := s.queue.all fun x => !x.places || x == e || !x.before e

/-- Remove the entry of a LAUNCH once none of its plots waits for cores (R400). -/
def settleLaunch (s : State) (node : Word) : State :=
  if s.plots.any fun q => q.node == node && q.state == .waiting then s
  else dequeue s fun e => e.launch && e.restored.isNone && e.node == node

/-- Cores of a plot become FREE and empty. -/
def freeCores (s : State) (cores : List Nat) : State :=
  cores.foldl (fun t c => (clearShadows (t.setLease c .free) c).modCore c fun k => { emptyCore k with plot := none }) s

/-- A load that fails (R195, R71, R203): the cores return to FREE, a record of origin 5 carries the offset, and the plot counts as
ended. -/
def loadFailure (s : State) (q : Plot) (f : LoadFault) : State :=
  let held := q.cores.filter fun c => s.leaseOf c == .loading q.id
  let s1 := (freeCores s held).modPlot q.id fun p => { p with state := .finished, code := f.1, cand := none }
  let s2 := faultRecord s1 (recordBytes s1 q.node f.1 5 1 0 q.p 0xFF 0 (BitVec.ofNat 64 f.2) (f.1.setWidth 32) 0)
  settleLaunch (plotEnded s2 q.node (some f.1)) q.node

/-- A plot as its image describes it (R191). -/
def withImage (q : Plot) (img : List Byte) : Plot :=
  { q with
    img := img, w := imgW img, h := imgH img, bay := imgBay img, seed := BitVec.ofNat 64 (leAt img 24 8), racelog := (leAt img 7 1).testBit 0
    codebase := BitVec.ofNat 64 (leAt img 48 8), mask := slice img 8 10, dualcol := leAt img 18 1, dualrow := leAt img 19 1 }

/-- The placer's search for the head LAUNCH's first plot that waits: it fetches and checks the image and asks for the first offset that fits
(R194 steps 1 and 2, R198, R400); the walker of die 0 fetches for a plot that has no die yet (log 91). -/
def searchPlot (s : State) (q : Plot) (e : QEntry) : State :=
  if !isHead s e || s.plots.any fun x => x.node == q.node && x.state == .waiting && x.p < q.p then s
  else if !q.img.isEmpty then askOffset s q q.img (firstFit s q.img)
  else
    match imageTraffic s 0 q.ptroot q.image with
    | none => s
    | some t =>
      match fetchImage t q.ptroot q.image fun _ => true with
      | .error f => loadFailure t q f
      | .ok img => askOffset t q img (firstFit t img)

/-- The plot takes the offset that the walker has reserved (R194 step 3, R203). -/
def takeOffset (s : State) (q : Plot) (e : QEntry) (o : Nat × Nat × Nat) : State :=
  let q1 := { withImage q q.img with die := o.1, col := o.2.1, row := o.2.2, state := .loading, prio := e.level, runStart := s.pace, cand := none }
  settleLaunch (q1.cores.foldl (fun t c => t.setLease c (.loading q.id)) (s.modPlot q.id fun _ => q1)) q.node

/-- RESERVE_REQUEST (R194 steps 1 to 3, R198 to R200): a plot that waits searches, or the walker of its candidate's die serves its request. -/
def execReserveRequest (plot : Nat) (s : State) : Res :=
  .next (
    match s.findPlot plot with
    | none => s
    | some q =>
      match entryOf s q with
      | none => s
      | some e =>
        if q.state != .waiting then s
        else
          match q.cand with
          | none => searchPlot s q e
          | some o => reserveAt s q o fun t => takeOffset t q e o)

/-! ### The configuration load (R194 steps 4 to 7) -/

/-- The bays of a cell record: all words, or only those of dual nodes for a copy-1 cell (R206). -/
def loadBays (img : List Byte) (r : CellRec) (dualOnly : Bool) : Tbl Bay :=
  r.bays.foldl (fun t b =>
    let ws := (List.range 6).map fun st => r.word img b st
    let nodes := if dualOnly then ws.map fun w => if w.getLsbD 6 then w else 0 else ws
    tset Bay.init t b { nodes := nodes, ports := if dualOnly then [0, 0] else [r.word img b 6, r.word img b 7] }) []

/-- A cell as a record fills it. -/
def loadCell (img : List Byte) (bay : Nat) (r : CellRec) (dualOnly : Bool) : Cell :=
  { Cell.init with bays := loadBays img r dualOnly, bay := bay,
                   pool := (List.range 64).foldl (fun t i => tset 0 t i (r.poolWord img i)) [] }

/-- Whether a record holds a dual node (R206). -/
def hasDual (img : List Byte) (r : CellRec) : Bool :=
  r.bays.any fun b => (List.range 6).any fun st => (r.word img b st).getLsbD 0 && (r.word img b st).getLsbD 6

/-- The cells of a loaded plot: (core, cell, contents); the second copies after the records (R206). -/
def loadCells (q : Plot) : List (Nat × Nat × Cell) :=
  let rs := (imgRecs q.img).1
  (rs.map fun r => let x := q.cellIn r.dx r.dy; (x.1, x.2, loadCell q.img q.bay r false)) ++
    (rs.filter (hasDual q.img)).map fun r =>
      let x := q.cellIn (r.dx + 4 * q.dualcol) (r.dy + 2 * q.dualrow)
      (x.1, x.2, loadCell q.img q.bay r true)

/-- The cells that hold copy 1 of dual nodes (R206). -/
def dualCells (q : Plot) : List (Nat × Nat) :=
  ((imgRecs q.img).1.filter (hasDual q.img)).map fun r => q.cellIn (r.dx + 4 * q.dualcol) (r.dy + 2 * q.dualrow)

/-- The copy slots that targets of the plan feed (R169). -/
def fedSlots (q : Plot) : List Nat :=
  let xs := imgWords q.img (imgRecs q.img).1
  (xs.filter fun x => 6 ≤ x.st && slotKind x.w == 10 && fedWord xs x).map fun x =>
    let c := q.cellIn x.r.dx x.r.dy
    sinkKey { q with bay := x.b } c.1 c.2 x.st

/-- A port as its preset loads it (R222), at the plot's first identifier (R223). -/
def loadPort (img : List Byte) (ro : Nat) (pos : Word) : Port :=
  let cfg : Word := BitVec.ofNat 64 (leAt img ro 8)
  { Port.init with
    dir := cfg.getLsbD 0, va := cfg.getLsbD 1, auto := cfg.getLsbD 2, sheaf := cfg.extractLsb' 3 3, ztail := cfg.getLsbD 6
    lanes := (cfg.extractLsb' 8 5).toNat, chan := cfg.extractLsb' 16 4, ceil := cfg.extractLsb' 32 32
    base := BitVec.ofNat 64 (leAt img (ro + 8) 8), count := (List.range 4).map fun k => leAt img (ro + 16 + 4 * k) 4
    stride := (List.range 4).map fun k => signed 64 (leAt img (ro + 32 + 8 * k) 8), pos := pos }

/-- The sequencer, local memory and ports of a core as its table entry fills them (R194 step 5). -/
def loadCore (q : Plot) (k : Core) (i : Nat) : Core :=
  let img := q.img
  let eo := coreEntry img i
  let po := leAt img (eo + 16) 4
  { k with
    lmem := mwrite [] 0 (slice img (leAt img eo 4) (leAt img (eo + 4) 2))
    handlers := (List.range (leAt img (eo + 6) 1)).foldl (fun t j =>
      let ro := leAt img (eo + 8) 4 + 16 * j
      tset Handler.init t (leAt img (ro + 4) 1)
        { Handler.init with valid := true, entry := q.codebase + BitVec.ofNat 64 (leAt img ro 4), prio := BitVec.ofNat 8 (leAt img (ro + 5) 1) }) []
    ports := (List.range 8).foldl (fun t j =>
      tset Port.init t j (if j < leAt img (eo + 20) 1 then loadPort img (po + 64 * j) q.firstWid else { Port.init with pos := q.firstWid })) [] }

/-- Write every cell record of a plot that falls into some of its cores, with every other cell of them empty (R194 step 4). -/
def writeCells (s : State) (q : Plot) (cores : List Nat) : State :=
  let s1 := cores.foldl (fun t c => t.modCore c fun k =>
    { k with cells := (List.range 8).foldl (fun cs i => tset Cell.init cs i { Cell.init with bay := q.bay }) [] }) s
  ((loadCells q).filter fun x => cores.contains x.1).foldl (fun t x => t.modCell x.1 x.2.1 fun _ => x.2.2) s1

/-- Write every cell, sequencer and port of a plot (R194 steps 4 to 6), its cores being empty. -/
def loadCoresOf (s : State) (q : Plot) : State :=
  writeCells (q.cores.zipIdx.foldl (fun t e =>
    (clearShadows t e.1).modCore e.1 fun k => loadCore q { clearCore k with plot := some q.id } e.2) s) q q.cores

/-- The start event of R110: a word of kind 3 to every valid c0 of the plot. -/
def startEvent (s : State) (q : Plot) : State :=
  q.cores.foldl (fun t c => if ((t.core c).handler 0).valid then sendWord t (3000000 + q.id) c 0 3 0 1 else t) s

/-- Arming (R194 step 7, R309, R310): the lease entries become ARMED and every clock of the plot starts. -/
def armPlot (s : State) (q : Plot) : State :=
  let n := tget 0 s.armCount q.die
  let s1 := q.cores.foldl (fun t c => t.setLease c (.armed q.id)) { s with armCount := tset 0 s.armCount q.die (n + 1) }
  s1.modPlot q.id fun p =>
    { p with state := .armed, raceId := BitVec.ofNat 16 (q.die * 16384 + n % 16384), armTime := s.pace, runStart := s.pace, lastRetire := s.pace,
             tr := (s.pace - p.runStart).toNat, drained := [] }

/-- Whether every core of a plot is LOADING for it (R202, R203). -/
def allLoading (s : State) (q : Plot) : Bool := q.cores.all fun c => s.leaseOf c == .loading q.id

/-- CONFIGURATION_LOAD (R194 steps 2 and 4 to 7): the checks that need the placement, then the load of every core, and arming. A
pre-emption that was requested meanwhile withholds the start event (R406). -/
def execConfigurationLoad (plot : Nat) (s : State) : Res :=
  .next (
    match s.findPlot plot with
    | none => s
    | some q =>
      if q.state != .loading || !allLoading s q || q.restored then s
      else
        match checkImage q.img fun i => isBridge (q.cores.getD i 0) with
        | some f => loadFailure s q f
        | none =>
          let s1 := (loadCoresOf s q).modPlot plot fun p =>
            { p with bays := BitVec.ofNat 4 (((imgRecs q.img).1.flatMap CellRec.bays).foldl (fun m b => m ||| 2 ^ b) 0), duals := dualCells q,
                     fed := fedSlots q, wid := q.firstWid, bayStart := q.firstWid }
          match allocDecls q.img q.cores s1 (declsOf q.img) with
          | .error o => loadFailure s q (cCFGBAD, o)
          | .ok s2 =>
            let s3 := armPlot s2 q
            if q.closing then s3.modPlot plot fun p => { p with startPend := true, budget := some s.pace }
            else startEvent s3 q)

/-! ### Release (R201 to R203) -/

/-- Whether an ingress slot has injected its last token: that EOI and any BAR after it (R201). -/
def slotDone (s : State) (x : Nat × Nat × Nat) : Bool :=
  let k := s.core x.1
  slotEnded s x && (x.2.1 != 1 || !(s.port x.1 x.2.2).barDue) && (x.2.1 != 8 || !(s.port x.1 (x.2.2 + 4)).barDue) &&
    (x.2.1 != 5 || (k.mat.run.all fun r => r.out.isEmpty)) && (x.2.1 != 7 || k.key.out.isEmpty)

/-- The stages (core, cell, stage; slots are stages 6 and 7) that the targets of a stage of the current bay reach in one firing. -/
def unitTargets (s : State) (x : Nat × Nat × Nat) : List (Nat × Nat × Nat) :=
  let arcs :=
    if x.2.2 < 6 then
      let w := wordAt s x.1 x.2.1 x.2.2
      if w.getLsbD 0 then
        targetArcs s x.1 x.2.1 (w.getLsbD 6) (w.extractLsb' 33 15) ++ targetArcs s x.1 x.2.1 (w.getLsbD 6) (w.extractLsb' 18 15)
      else []
    else
      let w := slotWord s x.1 x.2.1 (x.2.2 - 6)
      if w == 0 then [] else targetArcs s x.1 x.2.1 false (w.extractLsb' 33 15)
  arcs.map fun a => (a.1, a.2.1, a.2.2 / 4)

/-- The stages that tokens at `new` can be carried to, themselves included: at most `n` rounds, each of which finds a new stage. -/
def reachUnits (s : State) : Nat → List (Nat × Nat × Nat) → List (Nat × Nat × Nat) → List (Nat × Nat × Nat)
  | 0, _, seen => seen
  | n + 1, new, seen =>
    let next := ((new.flatMap (unitTargets s)).filter fun x => !seen.contains x).eraseDups
    if next.isEmpty then seen else reachUnits s n next (seen ++ next)

/-- The stages of a plot at which a token stands: in an arc, or in the work of a node. -/
def busyUnits (s : State) (q : Plot) : List (Nat × Nat × Nat) :=
  ((heldCores s q).flatMap fun c => (s.core c).cells.flatMap fun e => e.2.arcs.filterMap fun a =>
    if a.2.isEmpty then none else some (c, e.1, a.1 / 4)) ++
  s.accs.filterMap fun a =>
    match a.agent with
    | .node c i st => if (heldCores s q).contains c then some (c, i, st) else none
    | _ => none

/-- Every live node of a core has consumed the last EOI on every enabled input (R201); what comes after it has left the arcs. -/
def nodesEnded (s : State) (c : Nat) : Bool :=
  (List.range 8).all fun i => (List.range 6).all fun st =>
    let w := wordAt s c i st
    let x := tget NodeState.init (s.cell c i).nstate (8 * (s.cell c i).bay + st)
    !w.getLsbD 0 || (List.range 3).all fun p => !w.getLsbD (11 - p) || x.ends.getLsbD p

/-- The sequencers and engines of a core are at rest: handlers IDLE, inboxes empty, no command (R201), and not in debug state, which only RESUME, STEP, a
sweep or a device reset ends (R140). -/
def coreQuiet (s : State) (c : Nat) : Bool :=
  let k := s.core c
  !k.stopped && k.cmds.isEmpty && k.replay.isEmpty && k.reinj.isEmpty && k.held.isEmpty && !k.trap.on &&
    (k.handlers.all fun e => e.2.state == .idle && e.2.inbox.isEmpty) && (s.flight.all fun w => w.core != c) &&
    k.mat.run.isNone && k.mat.queue.isEmpty && k.key.queue.isEmpty && (k.ports.all fun e => !e.2.eoiIn && (e.2.state != .run || !(e.2.doneDue || e.2.barDue))) &&
    k.tiles.all fun e => !e.2.owner

/-- Whether a row meets every condition of R201 but that of PLOT tiles: the ingress slots of the plot are at their end, no token
stands where the targets of the current bay can carry it into the row (log 61), its nodes have consumed the last EOI, and the row's cores are at
rest. -/
def rowQuiet (s : State) (q : Plot) (row : Nat) : Bool :=
  let cores := (List.range q.w).map (q.coreIn row)
  let busy := busyUnits s q
  q.state == .armed && (ingressSlots s q).all (slotDone s) &&
    ((reachUnits s (64 * (q.w * q.h)) busy busy).all fun x => !cores.contains x.1) &&
    (s.accs.all fun a => !agentIn cores a.agent) &&
    cores.all fun c => nodesEnded s c && coreQuiet s c

/-- Whether a plot holds a valid PLOT tile. -/
def plotTiles (s : State) (q : Plot) : Bool := (plotTable s q).any fun e => e.2.level == 2

/-- A row leaves its plot (R201): to FREE, or under a FOLLOW binding, loaded with the cell records of the plot that follows, to LOADING for it
(R202, R203). -/
def leaveRow (s : State) (q : Plot) (row : Nat) : State :=
  let cores := (List.range q.w).map (q.coreIn row)
  let s1 := freeCores s cores
  let s2 := match q.follow.bind s1.findPlot with
    | none => s1
    | some f => cores.foldl (fun t c => t.setLease c (.loading f.id)) (writeCells s1 f cores)
  let s3 := s2.modPlot q.id fun p => { p with drained := p.drained ++ [row], begun := begunWid s q }
  match (s3.findPlot q.id).bind fun p => p.follow with
  | none => s3
  | some f => if (s3.findPlot f).any (allLoading s3) then s3.modPlot f fun p => { p with runStart := s3.pace } else s3

/-- The plot has completed (R201): its groups dissolve (R383) and its LAUNCH counts it (R398). -/
def plotCompleted (s : State) (q : Plot) : State :=
  plotEnded ((dissolveGroups s q.id).modPlot q.id fun p => { p with state := .finished, decision := none }) q.node none

/-- ROW_DRAIN (R201 to R203). PLOT tiles are released at the moment when every row meets the other conditions; otherwise they hold
back every row, as each row holds storage of them. -/
def execRowDrain (plot row : Nat) (s : State) : Res :=
  .next (
    match s.findPlot plot with
    | none => s
    | some q =>
      if q.h ≤ row || q.drained.contains row || !rowQuiet s q row then s
      else if plotTiles s q && !(List.range q.h).all (fun r => q.drained.contains r || rowQuiet s q r) then s
      else
        let s1 := if plotTiles s q then
            (plotTable s q).foldl (fun t e => if e.2.level == 2 then modTile (zeroTile t q.lead e.1 e.2) q.lead e.1 (fun _ => Tile.init) else t) s
          else s
        let s2 := leaveRow s1 q row
        if (List.range q.h).all fun r => r == row || q.drained.contains r then plotCompleted s2 q else s2)

/-- SWEEP_ROW_FREE (R208): nothing of a swept row is left in flight. -/
def execSweepRowFree (plot row : Nat) (s : State) : Res :=
  .next (
    match s.findPlot plot with
    | none => s
    | some q =>
      let cores := ((List.range q.w).map (q.coreIn row)).filter fun c => s.leaseOf c == .sweep plot
      if q.h ≤ row || cores.isEmpty || s.accs.any (fun a => agentIn cores a.agent && !(a.phase == .performed || a.phase == .returned)) then s
      else
        let s1 := freeCores s cores
        if q.cores.any fun c => s1.leaseOf c == .sweep plot then s1
        else s1.modPlot plot fun p => { p with state := .finished })

end Sys2Proof.Machine
end

