-- ==== Sys2Proof/Machine/Graph.lean ====
section
/-!
DEFINITION. Task-graph nodes as the walkers execute them (R389 to R395), launch records (R396 to R398), the queue set
(R400, R401). A walker that runs a node is `cur.die`, the node `cur.node`.
-/

namespace Sys2Proof.Machine

/-- 10 µs in pace ticks (R14, R393). -/
abbrev tickWatch : Nat := 10000
/-- 1 ms in pace ticks (R393). -/
abbrev tickRetest : Nat := 1000000
/-- 10 ms in pace ticks (R401). -/
abbrev tickAge : Nat := 10000000

/-! ### Nodes (R389 to R394) -/

/-- Bits 63:57 of STATE are zero and every successor is a multiple of 64 (R389, R394). -/
def nodeOk (n : GraphFields) : Bool :=
  n.state.extractLsb' 49 7 == 0 && [n.succ0, n.succ1, n.succ2, n.succ3].all fun a => a.extractLsb' 0 6 == 0

/-- The address is a multiple of 8. -/
abbrev mult8 (a : Word) : Bool := a.extractLsb' 0 3 == 0

/-- The four successors of a node. -/
abbrev succsOf (n : GraphFields) : List Word := [n.succ0, n.succ1, n.succ2, n.succ3]

/-- The walker that ran a node is free again. -/
def freeWalker (s : State) : State := { s with claimed := s.claimed.filter fun x => x != (s.cur.die, s.cur.node) }

/-- Execute a node: a malformed one becomes FAULT with FORMAT (R394). -/
def graphNode (s : State) (n : GraphFields) (ok : Bool) (f : State → State) : Res :=
  let t := freeWalker s
  .next (if nodeOk n && ok then f t else nodeFault t s.cur.node cFORMAT s.cur.node)

/-- Read a word for a node; a fault has the effect of R394. -/
def nodeRead (s : State) (node va : Word) (f : Word → State) : State :=
  match gread s va with
  | .error e => nodeFault s node e.1 e.2
  | .ok v => f v

/-- COND (R391). -/
def execGraphCond (n : GraphFields) (s : State) : Res :=
  graphNode s n (mult8 n.body0 && n.body2 == 0) fun t =>
    nodeRead t s.cur.node n.body0 fun v => nodeDone t s.cur.node [if v &&& n.body1 != 0 then n.succ0 else n.succ1, n.succ2, n.succ3]

/-- Reset one body node of a WHILE (R392): `none` when it is CLAIMED or RUNNING. -/
def resetBody (s : State) (node : Word) : Except (Byte × Word) (Option State) :=
  match gread s node with
  | .error e => .error e
  | .ok v =>
    if nodeSt v == stCLAIMED || nodeSt v == stRUNNING then .ok none
    else
      match gwrite s node (withPending (withSt v stWAITING) (nodeInit v)) with
      | .error e => .error e
      | .ok t => .ok (some t)

/-- Reset body nodes in order, or mark the WHILE FAULT (R392). -/
def resetBodies (s : State) (loop node : Word) : Nat → State × Bool
  | 0 => (s, true)
  | n + 1 =>
    match resetBody s node with
    | .error e => (nodeFault s loop e.1 e.2, false)
    | .ok none => (nodeFault s loop cFORMAT loop, false)
    | .ok (some t) => resetBodies t loop (node + 64) n

/-- WHILE (R391, R392). -/
def execGraphWhile (n : GraphFields) (s : State) : Res :=
  let node := s.cur.node
  let bodyn := (n.body2.extractLsb' 0 16).toNat
  graphNode s n (mult8 n.body0 && n.body2.extractLsb' 16 48 == 0 && 1 ≤ bodyn && bodyn ≤ 4096 && n.succ2 == 0 && n.succ3 == 0 &&
      n.state.extractLsb' 24 16 == 1) fun t =>
    nodeRead t node n.body0 fun v =>
      if v &&& n.body1 == 0 then nodeDone t node [n.succ1]
      else
        let r := resetBodies t node n.succ0 bodyn
        if !r.2 then r.1
        else
          nodeRead r.1 node node fun w =>
            match gwrite r.1 node (withPending (withSt w stWAITING) 1) with
            | .error e => nodeFault r.1 node e.1 e.2
            | .ok u => releaseAll u node [n.succ0]

/-- Whether the test of a WAITM holds (R391, R393). -/
def waitHolds (cond : BitVec 2) (v wval : Word) : Bool :=
  if cond == 0 then v == wval else if cond == 1 then v != wval else if cond == 2 then wval.toNat ≤ v.toNat else v != 0

/-- The line that a watch on an address stands for, when its home bridge has one free (R393): none for a host page. -/
def freeLine (s : State) (va : Word) : Option Nat :=
  match walkPage s s.regs.gptr va false false with
  | .error _ => none
  | .ok e =>
    let used := (s.waits.filter fun w => (w.line.map fun l => keyChannel (64 * l)) == some (keyChannel (e.key va))).length
    if e.host || 16 ≤ used then none else some (e.key va / 64)

/-- The test of a WAITM: it completes, or waits on a watch or the clock (R393). -/
def waitTest (s : State) (node : Word) (n : GraphFields) : State :=
  nodeRead s node n.body0 fun v =>
    let cond := n.body2.extractLsb' 0 2
    if !waitHolds cond v n.body1 then
      { s with waits := s.waits ++ [{ node := node, qp := none, line := freeLine s n.body0, since := s.pace, fired := false }] }
    else if cond == 3 && v.extractLsb' 0 6 != 0 then nodeFault s node cFORMAT node
    else nodeDone s node (succsOf n ++ (if cond == 3 then [v] else []))

/-- Whether the fields of a WAITM are well formed (R391). -/
abbrev waitOk (n : GraphFields) : Bool := mult8 n.body0 && n.body2.extractLsb' 2 62 == 0

/-- WAITM (R391, R393). -/
def execWaitm (n : GraphFields) (s : State) : Res :=
  graphNode s n (waitOk n) fun t => waitTest t s.cur.node n

/-- A waiting WAITM is executed again (R393): its node is read afresh. -/
def waitAgain (s : State) (w : GWait) : State :=
  let t := { s with waits := dropFirst (fun x => x == w) s.waits }
  match readVa t t.regs.gptr w.node 64 with
  | .error e => nodeFault t w.node e.1 e.2
  | .ok bs =>
    match decodeGraph (leBv 512 bs) with
    | .ok (.waitm n) => if nodeOk n && waitOk n then waitTest t w.node n else nodeFault t w.node cFORMAT w.node
    | _ => nodeFault t w.node cFORMAT w.node

/-- WAITM_RETEST (R393): every 10 µs without a watch, and every 1 ms in any case. -/
def execWaitmRetest (idx : Nat) (s : State) : Res :=
  .next (
    match s.waits[idx]? with
    | none => s
    | some w =>
      if w.qp.isSome || (s.pace - w.since).toNat < (if w.line.isSome then tickRetest else tickWatch) then s else waitAgain s w)

/-- Store or add a word (R391). -/
def signalWord (s : State) (node : Word) (n : GraphFields) (f : State → State) : State :=
  match if n.body2.getLsbD 0 then gread s n.body0 else .ok 0 with
  | .error e => nodeFault s node e.1 e.2
  | .ok v =>
    match gwrite s n.body0 (v + n.body1) with
    | .error e => nodeFault s node e.1 e.2
    | .ok t => f t

/-- Whether the fields of a SIGNAL or END are well formed (R391). -/
abbrev signalOk (n : GraphFields) : Bool := mult8 n.body0 && n.body2.extractLsb' 1 63 == 0

/-- SIGNAL (R391). -/
def execSignal (n : GraphFields) (s : State) : Res :=
  graphNode s n (signalOk n) fun t => signalWord t s.cur.node n fun u => nodeDone u s.cur.node (succsOf n)

/-- JOIN (R391). -/
def execGraphJoin (n : GraphFields) (s : State) : Res :=
  graphNode s n (n.body0 == 0 && n.body1 == 0 && n.body2 == 0) fun t => nodeDone t s.cur.node (succsOf n)

/-- END (R391): GDONE counts it. -/
def execGraphEnd (n : GraphFields) (s : State) : Res :=
  graphNode s n (signalOk n && (succsOf n).all fun a => a == 0) fun t =>
    signalWord t s.cur.node n fun u =>
      match gread u s.cur.node with
      | .error e => walkerRecord u s.cur.node e.1 e.2
      | .ok v =>
        match gwrite u s.cur.node (withSt v stDONE) with
        | .error e => nodeFault u s.cur.node e.1 e.2
        | .ok w => { w with regs := { w.regs with gdone := w.regs.gdone + 1 } }

/-! ### Launch records (R396 to R398) -/

/-- Width of field `k` in a record. -/
abbrev recWidth (r : List Byte) (k : Nat) : Nat := leAt r (16 + k) 1
/-- Extent of field `k` in a record. -/
abbrev recExtent (r : List Byte) (k : Nat) : Nat := leAt r (24 + 8 * k) 8 + 1

/-- The rules of R27 on widths and extents. -/
def recFields (r : List Byte) : Bool :=
  decide (((List.range 6).map (recWidth r)).sum ≤ 64) && (List.range 6).all fun k => recWidth r k ≤ 64 && recExtent r k ≤ 2 ^ recWidth r k

/-- Every byte of a list of offsets is zero. -/
def zeroBytes (r : List Byte) (o n : Nat) : Bool := (slice r o n).all fun b => b == 0

/-- The checks of R397 that the record alone decides. -/
def recordOk (r : List Byte) : Bool :=
  recFields r && zeroBytes r 74 2 && zeroBytes r 90 6 && zeroBytes r 112 16 && leAt r 73 1 < 4 && leAt r 22 2 != 0 &&
    leAt r 88 2 % 64 == 0 && leAt r 88 2 ≤ 0x7D80 && (leAt r 84 4 == 0xFFFFFFFF || leAt r 84 4 % 4 == 0) && leAt r 0 8 % 64 == 0 &&
    leAt r 104 8 % 4096 == 0 && ((leAt r 73 1).testBit 1 || leAt r 96 8 == 0)

/-- FOLLOW of a record. -/
abbrev recFollow (r : List Byte) : Bool := (leAt r 73 1).testBit 1

/-- The plots of an accepted record (R28), waiting for cores. -/
def recordPlots (s : State) (node : Word) (r : List Byte) (level : Nat) (ready : BitVec 64) : List Plot :=
  let widths := (List.range 6).map (recWidth r)
  let extents := (List.range 6).map (recExtent r)
  let e := match outermost widths with | none => 1 | some k => extents.getD k 1
  let q := min (leAt r 22 2) e
  (List.range q).map fun p =>
    { Plot.init with
      id := s.nextId + 1 + p, node := node, p := p, image := BitVec.ofNat 64 (leAt r 0 8), ptroot := BitVec.ofNat 64 (leAt r 8 8)
      widths := widths, extents := extents, lo := p * e / q, hi := (p + 1) * e / q, prio := level, ageTime := ready
      aging := (leAt r 73 1).testBit 0, slice := leAt r 76 4, wdog := leAt r 80 4, trapoff := BitVec.ofNat 32 (leAt r 84 4)
      tfaddr := leAt r 88 2, saveva := BitVec.ofNat 64 (leAt r 104 8), pred := if recFollow r then some (BitVec.ofNat 64 (leAt r 96 8)) else none }

/-- The predecessor plot that a FOLLOW plot may take over (R202): ARMED, not yet followed, and some ingress slot has still to inject
the last EOI, so that no row has drained. -/
def followable (s : State) (q : Plot) : Option Plot :=
  match q.pred with
  | none => none
  | some node => s.plots.find? fun x =>
      x.node == node && x.p == q.p && x.state == .armed && x.follow.isNone && x.drained.isEmpty &&
        ((ingressSlots s x).isEmpty || !(ingressSlots s x).all (slotEnded s))

/-- Whether a FOLLOW plan suits the predecessor's rectangle (R202). -/
def suits (img : List Byte) (x : Plot) : Bool :=
  imgW img == x.w && imgH img == x.h && fits (fun _ => true) x.w x.h (imgMask img) x.die x.col x.row

/-- Bind a FOLLOW plot to its predecessor (R202); a plan that cannot be fetched or fails a check leaves it waiting. `none` while a packet of the
fetch has to wait. -/
def bindFollow (s0 : State) (q : Plot) : Option State :=
  match followable s0 q with
  | none => some s0
  | some x =>
    (imageTraffic s0 x.die q.ptroot q.image).map fun s =>
      match fetchImage s q.ptroot q.image fun i => isBridge (x.cores.getD i 0) with
      | .error _ => s
      | .ok img =>
        let q1 := { withImage q img with die := x.die, col := x.col, row := x.row, state := .loading, runStart := s.pace }
        let s1 := (s.modPlot q.id fun _ => q1).modPlot x.id fun p => { p with follow := some q.id }
        (x.cores.filter fun c => s.leaseOf c == .armed x.id).foldl (fun t c => t.setLease c (.handoff x.id q.id)) s1

/-- Whether a FOLLOW record is turned away by R202: a predecessor plot to take over whose rectangle does not suit the plan. -/
def misfit (s : State) (ps : List Plot) : Bool :=
  ps.any fun q =>
    match followable s q with
    | none => false
    | some x =>
      match fetchBytes s q.ptroot q.image 64 with
      | .error _ => false
      | .ok img => !suits img x

/-- A rejected LAUNCH (R397, R398): a record of the fault, DONEW with its code, ST = FAULT. -/
def rejectLaunch (s : State) (node : Word) (code : Byte) (tval : Word) : State :=
  let t := walkerRecord (dequeue s fun e => e.launch && e.restored.isNone && e.node == node) node code tval
  launchEnd t { node := node, plots := 0, placed := 0, ended := 0, fatal := 0, code := code, prio := 0 } false

/-- Whether PRED names a LAUNCH node: a fault of the read is returned. -/
def predOk (s : State) (r : List Byte) : Except (Byte × Word) Bool :=
  if !recFollow r then .ok true
  else if leAt r 96 8 % 64 ≠ 0 then .ok false
  else
    match gread s (BitVec.ofNat 64 (leAt r 96 8)) with
    | .error e => .error e
    | .ok v => .ok (v.extractLsb' 0 8 == 1)

/-- Start an accepted LAUNCH: RUNNING, with its plots bound or waiting (R390, R202). `old` is the state before the walker began, which stays while a
packet has to wait. -/
def startLaunch (old s : State) (node : Word) (ps : List Plot) : State :=
  match gread s node with
  | .error e => nodeFault s node e.1 e.2
  | .ok v =>
    match gwrite s node (withSt v stRUNNING) with
    | .error e => nodeFault s node e.1 e.2
    | .ok t =>
      let t1 := { t with
        nextId := t.nextId + ps.length
        plots := (t.plots.filter fun q => !(q.node == node && q.state == .finished)) ++ ps
        launches := t.launches ++ [{ node := node, plots := ps.length, placed := 0, ended := 0, fatal := 0, code := 0, prio := (ps.headD Plot.init).prio }] }
      match ps.foldl (fun acc q => acc.bind fun u => bindFollow u q) (some t1) with
      | none => old
      | some u => settleLaunch u node

/-- LAUNCH (R391, R396 to R398). -/
def execLaunch (n : GraphFields) (s : State) : Res :=
  let node := s.cur.node
  let entry := (s.queue.find? fun e => e.launch && e.restored.isNone && e.node == node).getD
    { node := node, level := 0, ready := s.pace, aging := false, launch := true, restored := none, rises := 0 }
  let ok := nodeOk n && n.state.extractLsb' 40 9 == 0 && n.body0.extractLsb' 0 6 == 0 && mult8 n.body1 && n.body2.extractLsb' 1 63 == 0
  if !ok then graphNode (dequeue s fun e => e.launch && e.restored.isNone && e.node == node) n false id
  else
    graphNode s n true fun t =>
      match readVa t t.regs.gptr n.body0 128 with
      | .error e => rejectLaunch t node e.1 e.2
      | .ok r =>
        if !recordOk r then rejectLaunch t node cFORMAT node
        else
          match predOk t r with
          | .error e => rejectLaunch t node e.1 e.2
          | .ok false => rejectLaunch t node cFORMAT node
          | .ok true =>
            let ps := (recordPlots t node r entry.level entry.ready).map fun q => { q with aging := entry.aging }
            if misfit t ps then rejectLaunch t node cFORMAT node else startLaunch s t node ps

/-! ### The queue set (R390, R400, R401) -/

/-- The first of some entries by level, then by age (R400). -/
def firstEntry (es : List QEntry) : Option QEntry :=
  es.foldl (fun m e => match m with | none => some e | some x => if e.before x then some e else some x) none

/-- The entry that a free walker executes: any node that is not a LAUNCH first; else the head LAUNCH (R400). -/
def nextEntry (s : State) : Option QEntry :=
  match firstEntry (s.queue.filter fun e => !e.places) with
  | some e => some e
  | none =>
    match firstEntry (s.queue.filter fun e => e.places) with
    | some e => if e.restored.isSome || s.plots.any (fun q => q.node == e.node && q.state == .waiting) || s.claimed.any (fun x => x.2 == e.node) then none else some e
    | none => none

/-- WALKER_CLAIM (R390): the compare-and-swap of STATE from READY to CLAIMED; an entry whose swap fails is another walker's. -/
def execWalkerClaim (die : Nat) (s : State) : Res :=
  .next (
    if 4 ≤ die || s.claimed.any fun x => x.1 == die then s
    else
      match nextEntry s with
      | none => s
      | some e =>
        let drop := fun (t : State) => dequeue t fun x => x == e
        match gread s e.node with
        | .error f => nodeFault (drop s) e.node f.1 f.2
        | .ok v =>
          if nodeSt v != stREADY then drop s
          else
            match gwrite s e.node (withSt v stCLAIMED) with
            | .error f => nodeFault (drop s) e.node f.1 f.2
            | .ok t =>
              let u := { t with claimed := t.claimed ++ [(die, e.node)] }
              if e.launch then u else drop u)

/-- QUEUE_AGING (R401): one level for every 10 ms, never above the highest level that holds another waiting entry. -/
def execQueueAging (idx : Nat) (s : State) : Res :=
  .next (
    match s.queue[idx]? with
    | none => s
    | some e =>
      let top := ((s.queue.eraseIdx idx).map QEntry.level).foldl max 0
      if !e.aging || top ≤ e.level || (s.pace - e.ready).toNat < tickAge * (e.rises + 1) then s
      else { s with queue := s.queue.set idx { e with level := e.level + 1, rises := e.rises + 1 } })

/-- GO (R395): the node of GROOT becomes READY when its PENDING is 0. -/
def execGo (s : State) : Res :=
  .next (
    if s.regs.groot == 0 then s
    else
      match gread s s.regs.groot with
      | .error e => walkerRecord s s.regs.groot e.1 e.2
      | .ok v => if nodePending v == 0 then startNode s s.regs.groot v else s)

end Sys2Proof.Machine
end

