-- ==== Sys2Proof/Machine/Power.lean ====
section
/-!
DEFINITION. Power: levels and their ramps (R420 to R422), the ramp table (R424), the slew limiter (R425, R426), thermal trips and the
loss of firmware (R427, R428), reset and boot (R440 to R442), attestation (R444), performance counters (R439).
-/

namespace Sys2Proof.Machine

/-! ### Levels (R421, R422) -/

/-- Start a ramp (R421): on the way down the meters switch to the new table first. -/
def startRamp (s : State) (k : Nat) (r : BitVec 2) : State :=
  s.modCluster k fun c =>
    { c with ramping := true, target := r, rampStart := s.pace, meter := if r.toNat < c.level.toNat then r else c.meter }

/-- A request for a level (R421); a tripped cluster holds LO (R427). Code 3 is ignored. -/
def levelRequest (s : State) (k : Nat) (r : BitVec 2) : State :=
  let c := s.cluster k
  if r == 3 || (c.tripped && r != 0) then s
  else if c.ramping then s.modCluster k fun c => { c with pend := r, pvalid := true }
  else if r == c.level then s
  else startRamp s k r

/-- LVLREQ (R421): writes are ignored while the firmware is lost (R428). -/
def execLvlreq (k : Nat) (code : BitVec 2) (s : State) : Res :=
  .next (if Config.clusters ≤ k || s.regs.fwloss then s else levelRequest s k code)

/-- The voltage of a cluster settles (R421); a pending request is then handled at the new level. -/
def settleRamp (s : State) (k : Nat) : State :=
  let t := s.modCluster k fun c =>
    { c with ramping := false, level := c.target, meter := if c.level.toNat < c.target.toNat then c.target else c.meter, pvalid := false }
  if (s.cluster k).pvalid then levelRequest t k (s.cluster k).pend else t

/-- LEVEL_RAMP_SETTLE (R421, R422): at least 1,800 ticks after the start of the ramp. -/
def execLevelRampSettle (k : Nat) (s : State) : Res :=
  .next (if !(s.cluster k).ramping || (s.pace - (s.cluster k).rampStart).toNat < 1800 then s else settleRamp s k)

/-- By the time `now` a ramp has settled that began 2,048 ticks before (R422); it settled then, and so did a second one that it led to. -/
def rampDue (s : State) (k : Nat) (now : BitVec 64) : Nat → State
  | 0 => s
  | fuel + 1 =>
    let c := s.cluster k
    if c.ramping && Nat.ble 2048 (now - c.rampStart).toNat then
      rampDue { settleRamp { s with pace := c.rampStart + 2048 } k with pace := s.pace } k now fuel
    else s

/-! ### The ramp table (R424) -/

/-- Entry `j` of a ramp table (R420). -/
def rampEntry (t : Word) (j : Nat) : Nat := (t.extractLsb' (4 * j) 4).toNat

/-- A legal table (R424). -/
def rampLegal (t : Word) : Bool :=
  (List.range 7).all (fun j => rampEntry t j ≤ rampEntry t (j + 1) && rampEntry t (j + 9) ≤ rampEntry t (j + 8)) &&
    (List.range 16).all (fun j => rampEntry t j ≤ 8) && rampEntry t 15 == 0

/-- RAMPTAB_WRITE (R420, R424). -/
def execRamptabWrite (k : Nat) (v : Word) (s : State) : Res :=
  .next (if Config.clusters ≤ k || (s.cluster k).lock || !rampLegal v then s else s.modCluster k fun c => { c with ramptab := v })

/-- LOCK (R420). -/
def execLock (k : Nat) (s : State) : Res :=
  .next (if Config.clusters ≤ k then s else s.modCluster k fun c => { c with lock := true })

/-! ### The slew limiter (R425, R426) -/

/-- UP (R425): the smallest rising entry above `a`, or `a` when there is none; at most entry 7. -/
def rampUp (t : Word) (a : Nat) : Nat :=
  min ((((List.range 8).map (rampEntry t)).find? fun x => a < x).getD a) (rampEntry t 7)

/-- DN (R425): the largest falling entry below `a`. -/
def rampDown (t : Word) (a : Nat) : Nat := (((List.range 8).map fun j => rampEntry t (j + 8)).filter fun x => x < a).foldl max 0

/-- The cores of a cluster in the order of their index in it (R19, R420). -/
def clusterCores (k : Nat) : List Nat :=
  (List.range 8).map fun i => coreAt (k / 10) (4 * (k % 2) + i % 4) (2 * (k % 10 / 2) + i / 4)

/-- An operator counts as active: it holds a grant or its started command has not committed (R425, R426). -/
def operatorBusy (s : State) (core : Nat) : Bool := (s.core core).mat.run.isSome || (s.core core).mat.grant.isSome

/-- The ready commands without a grant, one per operator: (core, command), the oldest ready first (R425): those that an earlier step found ready in
the order of that step, then those that are new in the order of their cores, so that a tie goes to the lower index (log 24). -/
def readyStarts (s : State) (k : Nat) : List (Nat × (Nat × Nat)) :=
  let all := (clusterCores k).filterMap fun c => (mCandidate s c).map fun e => (c, e)
  let old := (s.cluster k).seen.filter fun x => all.contains x
  old ++ all.filter fun x => !old.contains x

/-- SLEW_LIMITER_STEP (R425): at every pace tick that is a multiple of 4. -/
def execSlewLimiterStep (k : Nat) (s : State) : Res :=
  .next (
    let c := s.cluster k
    if Config.clusters ≤ k || s.pace.toNat % 4 ≠ 0 || c.slewAt == s.pace + 1 then s
    else
      let cores := clusterCores k
      let r := (cores.filter fun x => operatorBusy s x).length
      let ready := readyStarts s k
      let g := min ready.length (min (rampUp c.ramptab c.a) (rampEntry c.ramptab 7) - r)
      let given := ready.take g
      let t := given.foldl (fun t x => t.modMat x.1 fun m => { m with grant := some x.2 }) s
      let f := rampDown c.ramptab c.a - (r + g)
      let idle := (cores.filter fun x => !operatorBusy t x).take f
      (t.modCluster k fun c => { c with a := r + g + f, fillers := idle, slewAt := s.pace + 1, seen := ready.drop g }).count (k / 10) 3 f)

/-! ### Thermal sensors, converters, firmware (R427, R428) -/

/-- The DETAIL bytes of a thermal log record (R438 kind 7). -/
def thermalDetail (temp : BitVec 16) (por : Bool) : List Byte := natLe 2 temp.toNat ++ [if por then 1 else 0]

/-- A record of 32 bytes as the log holds it (R438). -/
def logBytes (s : State) (kind die unit : Nat) (detail : List Byte) : List Byte :=
  natLe 2 kind ++ natLe 1 die ++ natLe 1 unit ++ natLe 4 0 ++ natLe 8 s.pace.toNat ++ (detail ++ List.replicate 16 0).take 16

/-- The package after a reset of its power: what the host holds stays, and the schedule and the model's own counters go on. -/
def darkPackage (s : State) : State :=
  { State.reset with sched := s.sched, fresh := s.fresh, nextId := s.nextId, hostMem := s.hostMem, hostOut := s.hostOut, rollback := s.rollback }

/-- THERMAL_TRIP (R427): at 105 °C the cluster requests LO and its ceiling falls to FDEFLO; at 125 °C the package enters power-on reset
and the record is kept. -/
def execThermalTrip (k : Nat) (temp : BitVec 16) (s : State) : Res :=
  .next (
    if Config.clusters ≤ k || temp.toNat < 105 then s
    else if 125 ≤ temp.toNat then
      let d := darkPackage s
      { d with regs := { d.regs with kept := some (logBytes s 7 (k / 10) k (thermalDetail temp true)) } }
    else if (s.cluster k).tripped then s
    else logRecord (levelRequest (s.modCluster k fun c => { c with tripped := true }) k 0) 7 (k / 10) k (thermalDetail temp false))

/-- THERMAL_TRIP_CLEAR (R427): the sensor reads 95 °C. -/
def execThermalTripClear (k : Nat) (s : State) : Res :=
  .next (if (s.cluster k).tripped then s.modCluster k fun c => { c with tripped := false } else s)

/-- CONVERTER_CURRENT_LIMIT (R420, R427). -/
def execConverterCurrentLimit (k : Nat) (s : State) : Res :=
  .next (
    if Config.clusters ≤ k then s
    else s.modCluster k fun c => { c with occnt := if c.occnt == 0xFFFFFFFF then c.occnt else c.occnt + 1 })

/-- HBEAT (R428): a loss ends. -/
def execHbeat (s : State) : Res := .next { s with regs := { s.regs with lastBeat := s.pace, fwloss := false } }

/-- FWLOSS (R428): 10 ms without a heartbeat, or an update of the power controller. -/
def execFwloss (update : Bool) (s : State) : Res :=
  .next (
    if s.regs.fwloss || !(update || 10000000 ≤ (s.pace - s.regs.lastBeat).toNat) then s
    else
      (List.range Config.clusters).foldl (fun t k =>
        let c := t.cluster k
        if c.level == 2 || (c.ramping && c.target == 2) then levelRequest t k 1 else t.modCluster k fun c => { c with pvalid := false, pend := 0 })
        ({ s with regs := { s.regs with fwloss := true } } : State))

/-! ### Reset and boot (R440 to R442) -/

/-- A failure of a boot step: the step, the code of R441 and the unit. -/
abbrev BootFail := BitVec 3 × BitVec 8 × BitVec 8

/-- The failures that R441 assigns to the steps of R440 and that an event brings; no slot that verifies (0x10) follows from the flash. -/
def bootFailOk (f : BootFail) : Bool :=
  let step := f.1.toNat
  let unit := f.2.2.toNat
  match f.2.1.toNat with
  | 0x20 => step == 4 && unit < 8
  | 0x30 => step == 5 && unit < 4
  | 0x31 => step == 5 && unit < 8
  | 0x40 => 1 ≤ step && step ≤ 6 && unit < 40
  | _ => false

/-- BOOTSTAT (R441). -/
def bootWord (failover : Bool) (unit step code : BitVec 8) : W32 := (if failover then (1 : BitVec 8) else 0) ++ unit ++ step ++ code

/-- Step 3 of R440: the ramp tables are loaded, where legal, and locked. -/
def loadRamps (s : State) (tabs : List Word) : State :=
  (List.range Config.clusters).foldl (fun t k => t.modCluster k fun c =>
    { c with lock := true, ramptab := match tabs[k]? with | some v => if rampLegal v then v else c.ramptab | none => c.ramptab }) s

/-- The boot stops at a step (R440): BOOTSTAT holds the failure, and only BAR0 is enabled. -/
def bootStops (s : State) (failover : Bool) (f : BootFail) : State :=
  { s with powered := false, regs := { s.regs with bootstat := bootWord failover f.2.2 (f.1.setWidth 8) f.2.1 } }

/-- Steps 3 to 6 of R440, up to a step that fails. -/
def bootFrom3 (s : State) (failover : Bool) (fail : Option BootFail) (tabs : List Word) : State :=
  match fail with
  | some f => bootStops (if f.1.toNat < 4 then s else loadRamps s tabs) failover f
  | none => { loadRamps s tabs with powered := true, regs := { s.regs with bootstat := bootWord failover 0 6 1 } }

/-! ### Firmware images (R443) -/

/-- The rollback counter of a KIND. -/
def rollbackOf (s : State) (kind : Nat) : BitVec 32 := (s.rollback.lookup kind).getD (Config.rollback kind)

/-- The VERSION of an image. -/
def imageVersion (img : List Byte) : BitVec 32 := leBv 32 (slice img 8 4)

/-- The payload of an image. -/
def imagePayload (img : List Byte) : List Byte := slice img 5440 (leAt img 12 4)

/-- The bytes that both signatures of an image sign. -/
def signedBytes (img : List Byte) : List Byte := img.take 64 ++ natLe 64 (Config.sha512 (imagePayload img)).toNat

/-- An image of a KIND verifies: the key block (bytes 64 to 2,047) has the fused hash, both signatures are valid, and VERSION is at least the
rollback counter. A slot without the MAGIC and the KIND holds no such image (log 8). -/
def imageVerifies (s : State) (kind : Nat) (img : List Byte) : Bool :=
  leAt img 0 4 == 0x57465848 && leAt img 4 2 == kind && Config.sha384 (slice img 64 1984) == Config.keyHash &&
    Config.edValid (slice img 64 32) (slice img 2048 64) (signedBytes img) &&
    Config.mlValid (slice img 96 1952) (slice img 2112 3309) (signedBytes img) &&
    (rollbackOf s kind).ule (imageVersion img)

/-- The flash slot from which a KIND boots: slot 0 is tried first (log 8). -/
def bootSlot (s : State) (kind : Nat) : Option Nat := [0, 1].find? fun i => imageVerifies s kind (Config.flash kind i)

/-- An image boots from a slot: with FLAGS bit 0 set the rollback counter advances to VERSION. -/
def bootImage (s : State) (kind slot : Nat) : State :=
  let img := Config.flash kind slot
  { s with
    images := (kind, slot) :: s.images
    rollback := if leAt img 6 2 % 2 == 1 then (kind, imageVersion img) :: s.rollback.filter (fun e => e.1 != kind) else s.rollback }

/-- Step 2 of R440 for the KINDs of a list: the state, and the KIND of which no slot verifies. -/
def bootImages (s : State) : List Nat → State × Option Nat
  | [] => (s, none)
  | k :: ks =>
    match bootSlot s k with
    | none => (s, some k)
    | some i => bootImages (bootImage s k i) ks

/-- Steps 2 to 6 of R440 with a security processor that works. -/
def bootFrom2 (s : State) (failover : Bool) (fail : Option BootFail) (tabs : List Word) : State :=
  match fail.filter fun f => f.1.toNat < 3 with
  | some f => bootStops s failover f
  | none =>
    match bootImages s [1, 2, 3, 4] with
    | (t, some k) => bootStops t failover (2, 0x10, BitVec.ofNat 8 k)
    | (t, none) => bootFrom3 t failover fail tabs

/-- POWER_ON_RESET (R440, R441): every unit starts afresh; the sequence stops at a step that fails. -/
def execPowerOnReset (m0ok m1ok : Bool) (fail : Option BootFail) (tabs : List Word) (s : State) : Res :=
  .next (
    let d0 := darkPackage s
    let d := { d0 with regs := { d0.regs with kept := s.regs.kept } }
    if !(fail.map bootFailOk).getD true then s
    else if !m0ok && !m1ok then bootStops d false (2, 0x11, 0)
    else bootFrom2 { d with regs := { d.regs with secM1 := !m0ok } } (!m0ok) fail tabs)

/-- Steps 1 and 2 of R440 have run: STEP of BOOTSTAT is at least 3 (R441). -/
def startedUp (s : State) : Bool := (3 : BitVec 8).ule (s.regs.bootstat.extractLsb' 8 8)

/-- DEVRST (R442): steps 3 to 6. Every context is destroyed, device memory keeps its contents, scratchpad is cleared, and FAILOVER is 0, its value after
a device reset (R4, R441). A package on which steps 1 and 2 have not run, or at one of which the boot stopped, has no firmware that could run the
steps after them: the request has no effect (DEDUCED, log 82). -/
def execDevrst (fail : Option BootFail) (tabs : List Word) (s : State) : Res :=
  .next (
    if !startedUp s || !(fail.map fun f => bootFailOk f && 3 ≤ f.1.toNat).getD true then s
    else
      let d := darkPackage s
      bootFrom3 { d with mem := s.mem, poisoned := s.poisoned, images := s.images, regs := { d.regs with kept := s.regs.kept, secM1 := s.regs.secM1 } } false fail tabs)

/-! ### Attestation and counters (R439, R444) -/

/-- ATGO (R444): ignored while a report is being made. -/
def execAtgo (s : State) : Res := .next (if s.regs.atdone then { s with regs := { s.regs with atdone := false } } else s)

/-- The image of a KIND that runs, header and payload. -/
def runningImage (s : State) (k : Nat) : List Byte :=
  let img := Config.flash k ((s.images.lookup k).getD 0)
  img.take (5440 + leAt img 12 4)

/-- The record of an image of a report (R444). -/
def imageRecord (s : State) (k : Nat) : List Byte :=
  natLe 2 k ++ natLe 2 0 ++ natLe 4 (imageVersion (runningImage s k)).toNat ++ natLe 8 0 ++ natLe 64 (Config.sha512 (runningImage s k)).toNat

/-- The signed bytes of a report (R444). -/
def reportBody (s : State) (nonce : List Byte) : List Byte :=
  natLe 4 0x54415848 ++ natLe 2 1 ++ natLe 2 4 ++ natLe 4 5776 ++ natLe 4 0 ++ nonce ++ natLe 16 Config.deviceId.toNat ++
    [1, 2, 3, 4].flatMap (imageRecord s) ++ ([1, 2, 3, 4].flatMap fun k => natLe 4 (rollbackOf s k).toNat) ++ natLe 4 s.regs.bootstat.toNat ++ natLe 12 0 ++
    (List.range 1984).map Config.attestKey

/-- A whole report (R444): the signatures are over its first 2,400 bytes. -/
def reportBytes (s : State) (nonce : List Byte) : List Byte :=
  let b := reportBody s nonce
  b ++ (List.range 3373).map (Config.attestSignature b) ++ natLe 3 0

/-- ATTESTATION_REPORT_DONE (R444): the report stands in the buffer. -/
def execAttestationReportDone (s : State) : Res :=
  .next (
    if s.regs.atdone then s
    else
      let pa := s.regs.ataddr.toNat
      let t := writeHash s pa (reportBytes s (readHash s pa 32))
      { t with regs := { t.regs with atdone := true } })

/-- PCCTL_CLEAR (R439). -/
def execPcctlClear (die : Nat) (s : State) : Res :=
  .next { s with regs := { s.regs with counters := s.regs.counters.filter fun e => e.1 / 32 != die } }

end Sys2Proof.Machine
end

