-- ==== Sys2Proof/Machine/Context.lean ====
section
/-!
DEFINITION. Contexts: the choice of victims (R402, R403), pre-emption and the save image (R405 to R407), the restore (R408), the
watchdog and the save budget (R409, R410), what the host does with a plot in HOSTWAIT (R416), debug state (R140), and the
declaration of a failed bank (R235).
-/

namespace Sys2Proof.Machine

/-- 2 ms in pace ticks (R410). -/
abbrev tickBudget : Nat := 2000000

/-! ### Clocks of a plot (R403, R409) -/

/-- Whether a plot counts as halted: a breakpoint holds an arc, or a sequencer is in debug state (R190, R140). -/
def plotHalted (s : State) (q : Plot) : Bool :=
  ((List.range 8).any fun n => (tget Breakpoint.init q.bps n).hit) || (heldCores s q).any fun c => (s.core c).stopped

/-- Pace ticks pass (R14), and with them the ramps that end by then (R422). The watchdog and the run time of a plot do not count them while it is
halted or a RESYNC runs (R190, R274). -/
def passTime (s : State) (n : Nat) : State :=
  let resync := s.dies.any fun d => d.2.phase != 0 && !d.2.removed
  let now := s.pace + BitVec.ofNat 64 n
  { (s.clusters.map (·.1)).foldl (fun t k => rampDue t k now 2) s with
    pace := now
    plots := s.plots.map fun q => if q.live && (resync || plotHalted s q) then { q with wdStop := q.wdStop + n, runStop := q.runStop + n } else q }

/-- The effective slice in pace ticks (R403). -/
def effectiveSlice (s : State) (q : Plot) : Nat :=
  max (1000 * q.slice) (q.ts + q.tr + (if q.retired < 2 then (s.pace - q.armTime).toNat else q.ti))

/-- Whether a plot has used its slice (R403), given that an entry of its level waits. -/
def usedSlice (s : State) (q : Plot) : Bool :=
  q.slice != 0 && effectiveSlice s q ≤ (s.pace - q.runStart).toNat - q.runStop && (!q.restored || q.sliceUsed)

/-! ### Victims (R402, R406) -/

/-- Whether some ingress slot has begun the plot's last invocation (R204). -/
def lastBegun (s : State) (q : Plot) : Bool :=
  match begunWid s q with
  | none => false
  | some w => q.isLast w

/-- Whether a plot traps or waits for the host, so that a request to it waits (R406). -/
def plotTraps (s : State) (q : Plot) : Bool := q.state == .hostwait || (heldCores s q).any fun c => (s.core c).trap.on

/-- Whether a plot may be a victim for level `l` (R402, R406); one that is already closing or has a request under way goes on being one. -/
def candidate (s : State) (l : Nat) (q : Plot) : Bool :=
  (q.prio < l || (q.prio == l && usedSlice s q)) &&
    (((q.closing || q.saveHeld) && (q.live || q.state == .loading)) || q.state == .loading ||
      (q.state == .armed && !plotHalted s q && !lastBegun s q && !plotTraps s q))

/-- The plot that holds a core by its lease entry. -/
def leasePlot (s : State) (c : Nat) : Option Nat :=
  match s.leaseOf c with
  | .free => none
  | .loading p | .armed p | .handoff p _ | .sweep p => some p

/-- Whether a core is FREE or held by a candidate. -/
def takeable (s : State) (l c : Nat) : Bool :=
  s.leaseOf c == .free ||
    match (leasePlot s c).bind s.findPlot with
    | none => false
    | some q => candidate s l q

/-- The candidates that hold cores of a rectangle. -/
def victimsAt (s : State) (w h : Nat) (o : Nat × Nat × Nat) : List Nat :=
  ((List.range h).flatMap fun j => (List.range w).filterMap fun i => leasePlot s (coreAt o.1 (o.2.1 + i) (o.2.2 + j))).eraseDups

/-- The plot that the head entry would place next: the restored context, or the first waiting plot of its LAUNCH. -/
def headPlot (s : State) (e : QEntry) : Option Plot :=
  match e.restored with
  | some id => s.findPlot id
  | none => s.plots.find? fun q => q.node == e.node && q.state == .waiting

/-- The victims of the head of the queue set (R402): of the offsets that candidates could free, the one whose highest victim priority is
lowest, the earliest in R198 order. Empty when an offset is free or the image has not been fetched. -/
def victims (s : State) : List Nat :=
  match firstEntry (s.queue.filter fun e => e.places) with
  | none => []
  | some e =>
    match headPlot s e with
    | none => []
    | some q =>
      if q.img.isEmpty || (firstFit s q.img).isSome then []
      else
        let w := imgW q.img
        let h := imgH q.img
        let os := (offsets w h).filter fun o => fits (takeable s e.level) w h (imgMask q.img) o.1 o.2.1 o.2.2
        let cost := fun (o : Nat × Nat × Nat) => ((victimsAt s w h o).filterMap fun p => (s.findPlot p).map Plot.prio).foldl max 0
        match os.foldl (fun m o => match m with | none => some o | some x => if cost o < cost x then some o else some x) (none : Option (Nat × Nat × Nat)) with
        | none => []
        | some o => victimsAt s w h o

/-- The walker of die 0 sends a pre-emption request to a victim (R402), as a CTL packet to the die of its lead core (R250, R405 step 1, log 91). -/
def sendRequest (s : State) (q : Plot) : State :=
  if q.closing || !(victims s).contains q.id then s
  else
    match walkerSend s 0 q.die ctlPreempt with
    | none => s
    | some t => t.modPlot q.id fun p => { p with saveHeld := true }

/-- A pre-emption request reaches a plot (R405 step 1, R406): after the beginning of the last invocation it is discarded, during a load it is deferred, and
while a sequencer traps or the plot waits for the host it waits. -/
def requestSave (s : State) (q : Plot) : State :=
  if q.closing || lastBegun s q then s.modPlot q.id fun p => { p with saveHeld := false }
  else if q.state == .loading then s.modPlot q.id fun p => { p with closing := true, saveHeld := false }
  else if plotTraps s q || q.state != .armed then s
  else s.modPlot q.id fun p =>
    { p with closing := true, saveHeld := false, bound := if p.decision.isSome then p.bound else begunWid s q, budget := some s.pace }

/-- PREEMPT_REQUEST (R402, R405, R406): a request is sent to a victim of the head of the queue set, or the one that has been sent reaches its plot. -/
def execPreemptRequest (plot : Nat) (s : State) : Res :=
  .next (
    match s.findPlot plot with
    | none => s
    | some q => if q.saveHeld then requestSave s q else sendRequest s q)

/-- SLICE_EXPIRY (R403): a plot that has used its slice becomes a candidate for an entry of its own level. -/
def execSliceExpiry (plot : Nat) (s : State) : Res :=
  .next (
    match s.findPlot plot with
    | none => s
    | some q => if q.state == .armed && usedSlice s q then sendRequest s q else s)

/-! ### Withdrawal of commands (R405 step 3, R337, R355, R374, R383) -/

/-- Whether an engine's slot is stopped between invocations (R405 step 3). -/
def slotStopped (s : State) (core key : Nat) : Bool := !(slotPosOf s core key).begun && !slotMay s core key

/-- Whether the save need not wait for an outstanding command: it has not started, or its engine can stop it. One that has injected tokens of the
invocation, its EOI or its flag has to complete, since a restored command would do so again. -/
def mayWithdraw (s : State) (core : Nat) (c : Cmd) : Bool :=
  if c.phase == .complete || c.ctl == .answered then false
  else
    match decodeCommand c.cmd with
    | .error _ => true
    | .ok x =>
      match mInfo x, kInfo x, cInfo x, gInfo x with
      | some i, _, _, _ =>
        let runs := s.cores.filterMap fun e => e.2.mat.run.filter fun r => r.core == core && r.id == c.id
        runs.isEmpty || (i.kind == .ard && !i.tile && slotStopped s core (16 * 5) && runs.all fun r => r.steps == 0)
      | _, some i, _, _ =>
        let k := (s.core core).key
        !(k.started && k.queue.head? == some c.id) || (i.so && slotStopped s core (16 * 7) && !(k.performed && k.out.isEmpty))
      | _, _, some i, _ =>
        match engineOf s core c.id with
        | none => true
        | some e =>
          let g := s.engine e
          !(g.running && g.queue.head? == some (core, c.id)) ||
            ((accsOf s core c.id).all (fun a => a.phase == .returned || a.code != 0) && (!g.flagged || (copyFault s e core c i).isSome) &&
              ((i.sk != 2 && i.dk != 2) || (copyFault s e core c i).isSome || (i.dk == 2 && slotStopped s core (copySlotKey i)) ||
                (i.fn == .cpyf && g.waited && (i.dst c.desc).total ≤ c.prog)))
      | _, _, _, some i =>
        let gr := s.group i.g
        !(gr.met && gr.members.any fun m => m.core == core && m.pending.head? == some c.id)
      | _, _, _, _ =>
        match x with
        | .townEngine _ => c.phase != .running
        | _ => c.cmd.extractLsb' 120 8 != 7 || (c.phase == .accepted && (accsOf s core c.id).isEmpty)

/-- Collective groups forget a withdrawn command (R383). -/
def leaveGroups (s : State) (core id : Nat) : State :=
  { s with groups := s.groups.map fun g =>
      (g.1, { g.2 with members :=
        (g.2.members.filter fun m => g.2.whole || !(m.core == core && m.pending.contains id)).map fun m =>
          if m.core == core then { m with pending := m.pending.erase id, freed := m.freed.filter fun x => x != id } else m }) }

/-- Withdraw a command into the replay queue: what its executor holds is given back. A running copy keeps its position, or the fault
that it stands at; a CPYF that waits for queue space becomes its follow-on (R374, R337). -/
def withdraw (s : State) (core : Nat) (c : Cmd) : State :=
  let r : Replay := { id := c.id, cmd := c.cmd, iaddr := c.iaddr, xt := c.xt, chan := c.chan, drop := false, started := false, follow := c.follow, ecode := 0,
                      desc := c.desc, prog := c.prog }
  let put := fun (t : State) (r : Replay) =>
    t.modCore core fun k => { k with cmds := k.cmds.filter (fun x => x.id != c.id), replay := k.replay ++ [r] }
  match decodeCommand c.cmd with
  | .error _ => put s r
  | .ok x =>
    match mInfo x, kInfo x, cInfo x with
    | some i, _, _ => put (releaseHolds (matrixDrop s core c.id) core i.handles) r
    | _, some _, _ =>
      let t := s.modKey core fun k =>
        if k.started && k.queue.head? == some c.id then { KeyEng.init with queue := k.queue.drop 1 } else { k with queue := k.queue.filter fun i => i != c.id }
      put (releaseHolds t core (descHandles c.desc)) r
    | _, _, some i =>
      match engineOf s core c.id with
      | none => put s r
      | some e =>
        let g := s.engine e
        let hs := (copyHandles i c.desc).map (·.2)
        if g.running && g.queue.head? == some (core, c.id) then
          let done := g.waited && (i.dst c.desc).total ≤ c.prog && i.fn == .cpyf
          let r1 := match copyFault s e core c i with
            | some (p, code, _, _) => { r with started := true, ecode := code, prog := p }
            | none => if done then { r with cmd := followCmd i c.desc, follow := true, prog := 0, desc := [] } else { r with started := g.waited }
          put (releaseHolds (enginePop (letGo s core c.id) e) core hs) r1
        else put (releaseHolds (s.modEngine e fun g => { g with queue := g.queue.filter fun y => y != (core, c.id) }) core hs) r
    | _, _, _ => put (leaveGroups s core c.id) r

/-! ### The save image (R407) -/

/-- `n` bytes of a list, with zeros behind. -/
def padTo (n : Nat) (bs : List Byte) : List Byte := (bs ++ List.replicate n (0 : Byte)).take n

/-- Bit numbers of a list of flags. -/
def flagBits (l : List Bool) : Nat := (l.zipIdx.map fun e => if e.1 then 2 ^ e.2 else 0).sum

/-- STATE code of a handler (R108). -/
def hstateCode : HState → Nat
  | .idle => 0
  | .running => 1
  | .waiting => 2
  | .stalled => 3

/-- The 256 bytes of a handler entry (R407 gives the fields and their place, not their order, log 29): the banked registers and their pending marks
stand with it. -/
def handlerBytes (k : Core) (c : Nat) : List Byte :=
  let h := k.handler c
  let loop := fun (l : Loop) => natLe 4 l.lc.toNat ++ natLe 8 l.ls.toNat ++ natLe 8 l.le.toNat
  padTo 256 (natLe 1 (flagBits [h.valid, h.mask, h.wake] + 8 * hstateCode h.state) ++ natLe 1 h.prio.toNat ++ natLe 1 h.inbox.length ++ natLe 5 0 ++
    natLe 8 h.entry.toNat ++
    natLe 8 h.savedPc.toNat ++ loop h.l0 ++ loop h.l1 ++ loop h.l2 ++ padTo 4 (h.order.map fun n => BitVec.ofNat 8 (n + 1)) ++
    padTo 40 (h.inbox.flatMap fun w => natLe 8 w.1.toNat ++ natLe 2 w.2.toNat) ++
    ((List.range 8).flatMap fun i => natLe 8 (tget 0 k.regs (24 + 8 * c + i)).toNat) ++
    natLe 1 (flagBits ((List.range 8).map fun i => tget false k.pend (24 + 8 * c + i))))

/-- The 128 bytes of a port: the registers of R221, POS, state and invocations left, then what its run still owes (R230, log 29). -/
def portBytes (p : Port) : List Byte :=
  let cfg := flagBits [p.dir, p.va, p.auto] + 8 * p.sheaf.toNat + 64 * (if p.ztail then 1 else 0) + 256 * p.lanes + 65536 * p.chan.toNat + 2 ^ 32 * p.ceil.toNat
  padTo 128 (natLe 8 cfg ++ natLe 8 p.base.toNat ++ (p.count.flatMap fun n => natLe 4 n) ++
    ((p.stride ++ p.wstep).flatMap fun i => natLe 5 (BitVec.ofInt 40 i).toNat) ++ natLe 8 p.pos.toNat ++
    natLe 1 (match p.state with | .idle => 0 | .run => 1 | .fault => 2) ++ natLe 8 p.left ++
    natLe 1 (flagBits [p.ended, p.bar, p.barDue, p.doneDue, p.closeRun, p.heldBack]) ++ natLe 8 p.doneWid.toNat ++
    natLe 1 (p.barChan.elim 0 (· + 1)))

/-- The 32 bytes of a tile table entry: the bits of R209. -/
def tileBytes (t : Tile) : List Byte :=
  natLe 32 (flagBits [t.valid] + 2 * t.level.toNat + 8 * flagBits [t.ring] + 16 * t.cellm.toNat + 64 * flagBits [t.owner, t.held] + 2 ^ 8 * t.holders +
    2 ^ 16 * t.rows + 2 ^ 48 * t.rowb + 2 ^ 80 * t.rp + 2 ^ 92 * t.wp + 2 ^ 104 * t.fill + 2 ^ 117 * (if t.ring then t.rows - t.fill else 0) + 2 ^ 130 * t.base)

/-- The 80 bytes of a node's state (R407). -/
def nodeBytes (k : Core) (cell bay stage : Nat) : List Byte :=
  let x := tget Cell.init k.cells cell
  let w := (tget Bay.init x.bays bay).nodes.getD stage 0
  let n := tget NodeState.init x.nstate (8 * bay + stage)
  if opcOf w == 0x182 then padTo 80 ((n.v.lanes.flatMap fun l => natLe 4 l.toNat) ++ natLe 2 n.v.mask.toNat ++ natLe 1 (if n.keep then 1 else 0))
  else if opcOf w == 0x189 then padTo 80 (natLe 4 n.c.toNat)
  else padTo 80 []

/-- Bytes 0 to 0x193FF of a core block. -/
def blockLow (k : Core) : List Byte :=
  (List.range 16384).flatMap (fun i => natLe 4 (tget 0 k.mat.accs i).toNat) ++ mread k.lmem 0 32768 ++
    padTo 1024 ((List.range 23).flatMap (fun r => natLe 8 (tget 0 k.regs (r + 1)).toNat) ++
      (List.range 8).flatMap (fun i => natLe 8 (tget 0 k.regs (24 + 8 * 16 + i)).toNat) ++
      natLe 4 (flagBits ((List.range 32).map fun r => tget false k.pend (if r < 24 then r else 24 + 8 * 16 + (r - 24)))) ++ natLe 1 k.last) ++
    (List.range 16).flatMap (handlerBytes k)

/-- The slots whose positions a core block holds (R407): ARD, key engine, copy engine. -/
abbrev savedSlots : List Nat := [80, 112, 160, 161, 162, 163]

/-- The nest counters of a copy at byte `p` of its sequence (R374): the byte within the run, and the counts of the three levels. -/
def nestCounters (d : Side) (p : Nat) : List Byte :=
  let r := max d.run 1
  let c1 := max (d.cnt.getD 0 1) 1
  let c2 := max (d.cnt.getD 1 1) 1
  natLe 4 (p % r) ++ natLe 4 (p / r % c1) ++ natLe 4 (p / r / c1 % c2) ++ natLe 4 (p / r / c1 / c2)

/-- The 128 bytes of the record of a copy in progress (R374, R407): command, P, and the nest counters of its source and destination. -/
def copyRecord (r : Replay) : List Byte :=
  let nests := match decodeCommand r.cmd with
    | .ok x => (cInfo x).elim [] fun i => nestCounters (i.src r.desc) r.prog ++ nestCounters (i.dst r.desc) r.prog
    | .error _ => []
  padTo 128 (natLe 16 r.cmd.toNat ++ natLe 8 r.prog ++ nests)

/-- Bytes 0x19800 to 0x1FFFF of a core block; `first` is the plot's first identifier, where a slot stands that has not moved. -/
def blockHigh (first : Word) (k : Core) : List Byte :=
  let pos := fun (key : Nat) => let p := tget SlotPos.init k.slotPos key; if p == SlotPos.init then first else p.pos
  let opt := fun (r : Option W32) => natLe 4 (r.getD 0).toNat ++ natLe 1 (if r.isSome then 1 else 0)
  padTo 512 ((k.replay.take 16).flatMap replayBytes) ++
    padTo 256 ((List.range 4).map (fun a => tget 0 k.mat.vers a) ++
      (savedSlots.flatMap fun key => natLe 8 (pos key).toNat) ++
      natLe 4 k.race.int.toNat ++ opt k.race.relPlot ++ opt k.race.relDevice ++ opt k.race.relSystem) ++
    (List.range 8).flatMap (fun p => portBytes (tget Port.init k.ports p)) ++ padTo 256 [] ++
    padTo 2048 ((k.replay.filter fun r => r.started).flatMap copyRecord) ++
    (List.range 64).flatMap (fun h => tileBytes (tget Tile.init k.tiles h)) ++
    (List.range 8).flatMap (fun cell => (List.range 4).flatMap fun bay => (List.range 6).flatMap fun st => nodeBytes k cell bay st) ++
    padTo 2048 ((k.replay.take 16).flatMap fun r => padTo 128 r.desc) ++ padTo 3072 []

/-- The plot header of the save area (R407 gives its fields, not their order, log 29). -/
def saveHeader (s : State) (q : Plot) (bytes : Nat) : List Byte :=
  padTo 4096 (natLe 2 q.p ++ natLe 1 q.w ++ natLe 1 q.h ++ natLe 1 q.bay ++ natLe 1 (match q.decision with | some b => 4 + b | none => 0) ++
    natLe 1 (if q.startPend then 1 else 0) ++ natLe 1 q.prio ++ natLe 8 q.wid.toNat ++ natLe 8 q.bars ++ natLe 8 (s.pace.toNat - (q.budget.getD 0).toNat) ++
    natLe 8 q.tr ++ natLe 8 q.ti ++ natLe 8 q.ageTime.toNat ++ natLe 8 bytes)

/-- The valid tiles of a plot in the order of the image: core and handle, a PLOT tile under its lead core. -/
def savedTiles (s : State) (q : Plot) : List (Nat × Nat) :=
  (heldCores s q).flatMap fun c => ((s.core c).tiles.filter fun e => e.2.valid && (e.2.level != 2 || c == q.lead)).map fun e => (c, e.1)

/-- Tile data of the image; `none` when a tile cannot be read. -/
def tileData (s : State) : List (Nat × Nat) → Option (List Byte)
  | [] => some []
  | x :: r =>
    match (tileRead s x.1 x.2 0 (getTile s x.1 x.2).size).2, tileData s r with
    | some a, some b => some (a ++ b)
    | _, _ => none

/-- A core as the image shows it: one that has left the plot is empty (R201). -/
def imageCore (s : State) (q : Plot) (c : Nat) : Core := if (s.core c).plot == some q.id then s.core c else Core.init

/-- Virtual address of the tile data of a save area. -/
abbrev saveTiles (q : Plot) : Word := saveBase q + BitVec.ofNat 64 (4096 + 131072 * q.w * q.h)

/-- The address ranges that a save image with `n` bytes of tile data takes: all but the copies of the trap frames. -/
def imageRanges (q : Plot) (n : Nat) : List (Word × Nat) :=
  (saveBase q, 4096) :: (q.cores.flatMap fun c => [(saveBlock q c, 0x19400), (saveBlock q c + 0x19800, 0x6800)]) ++ [(saveTiles q, n)]

/-- Bytes of the tile data of an image. -/
def tileBytesOf (s : State) (xs : List (Nat × Nat)) : Nat := (xs.map fun x => (getTile s x.1 x.2).size).sum

/-- Whether the image meets a page with WB = 1, so that it waits (R244). -/
def imageHeld (s : State) (q : Plot) (n : Nat) : Bool := (imageRanges q n).any fun r => storeHeld s q.ptroot r.1 r.2

/-- The ranges of an image cross between the walker of its plot's die and their homes, and are counted (R245, R247); `none` while a packet waits. -/
def saveTraffic (s : State) (q : Plot) (n : Nat) (write : Bool) : Option State :=
  (imageRanges q n).foldl (fun acc r => acc.bind fun t =>
    (crossVa t q.die q.ptroot r.1 r.2 write).map fun u => touchVa u q.ptroot r.1 r.2 write) (some s)

/-- Write the save image, or the fault that it meets with its address. -/
def writeImage (s : State) (q : Plot) : Except (Byte × Word) State :=
  match tileData s (savedTiles s q) with
  | none => .error (cMEMUNCORR, saveBase q)
  | some data =>
    let put := fun (t : State) (va : Word) (bs : List Byte) => writeVa t q.ptroot va bs
    allOk (put s (saveBase q) (saveHeader s q data.length)) fun t0 =>
      allOk (q.cores.foldl (fun (acc : Except (Byte × Word) State) c => allOk acc fun t =>
          allOk (put t (saveBlock q c) (blockLow (imageCore t q c))) fun u =>
            put u (saveBlock q c + 0x19800) (blockHigh q.firstWid (imageCore u q c))) (.ok t0)) fun t1 =>
        put t1 (saveTiles q) data

/-! ### CONTEXT_SAVE (R405) -/

/-- A sequencer as it stops at its instruction boundary (R405 step 4): the running handler becomes STALLED. -/
def stopCore (k : Core) : Core :=
  let k1 := match k.running with
    | some c => k.modHandler c fun h => { h with state := .stalled, stall := none, savedPc := k.pc }
    | none => k
  { k1 with
    handlers := k1.handlers.map fun e => (e.1, { e.2 with stall := keptStall e.2.stall })
    running := none, icache := [], fence := none, probeFor := none, dirty := [], held := k1.held.filter (fun f => !f.engine), replay := sortReplay (k1.replay ++ k1.reinj), reinj := [] }

/-- Whether nothing of a plot keeps its save waiting (R405 steps 2 to 4). -/
def saveReady (s : State) (q : Plot) : Bool :=
  q.state == .armed && q.closing && q.decision.isNone && arcsEmpty s q && stagesIdle s q && boundReached s q &&
    (heldCores s q).all fun c =>
      let k := s.core c
      !k.trap.on && !k.stopped && k.acq.isNone && k.probes.isEmpty && k.cmds.all (mayWithdraw s c) &&
        (s.accs.all fun a => a.agent != .seq c && (match a.dest with | .reg d _ _ => d != c | _ => true)) &&
        s.barMsgs.all fun m => m.core != c || m.chan == 255 || m.op == 1 || m.op == 4

/-- Waiters at BARR of a plot that the save has still to withdraw (R308). -/
def barrWaiters (s : State) (q : Plot) : List Waiter := s.waiters.filter fun w => q.cores.contains w.core && (s.core w.core).plot == some q.id

/-- The arrival of a waiter is still held in the memory path. -/
abbrev heldArrival (w : Waiter) (m : BarMsg) : Bool := m.op == 4 && m.core == w.core && m.chan == w.chan

/-- Ask the squares of waiting handlers to withdraw their arrivals (R308); an arrival that has not left its die is dropped with its waiter. -/
def askWithdraw (s : State) (ws : List Waiter) : State :=
  let away := ws.filter fun w => !(s.barMsgs.any (heldArrival w))
  { s with
    barMsgs := (s.barMsgs.filter fun m => !(ws.any fun w => heldArrival w m)) ++
      away.map fun w => { op := 2, square := w.square, die := w.die, core := w.core, chan := w.chan, n := 0, ok := false, after := 0 }
    waiters := s.waiters.filter fun w => !ws.contains w || away.contains w }

/-- Control words on their way to a plot that is saved keep its core index, and that of the sequencer that sent them (R109). -/
def parkWords (s : State) (q : Plot) : State :=
  { s with flight := s.flight.map fun w =>
      if (heldCores s q).contains w.core then
        { w with core := parkedAt + 100 * q.id + q.index w.core, src := if w.src < Config.cores then parkedFrom + 100 * q.id + q.index w.src else w.src }
      else w }

/-- CONTEXT_SAVE (R405 steps 3 to 5, R407): waiting handlers are withdrawn first; then every command that has not started goes to its
replay queue, the sequencers stop, and the image is written. -/
def execContextSave (plot : Nat) (s : State) : Res :=
  .next (
    match s.findPlot plot with
    | none => s
    | some q =>
      if !saveReady s q then s
      else if !(barrWaiters s q).isEmpty then
        (if (barrWaiters s q).any fun w => w.woken || w.refused then s else askWithdraw s (barrWaiters s q))
      else
        let held := heldCores s q
        let s1 := held.foldl (fun t c => ((t.core c).cmds).foldl (fun u x => withdraw u c x) t) s
        let s2 := held.foldl (fun t c => t.modCore c stopCore) s1
        let n := tileBytesOf s2 (savedTiles s2 q)
        match if imageHeld s2 q n then none else saveTraffic s2 q n true with
        | none => s
        | some s2 =>
        match writeImage s2 q with
        | .error e => fatalEnd s2 q e.1 (recordBytes s2 q.node e.1 4 1 0 q.p 0xFF 0 e.2 (e.1.setWidth 32) 0)
        | .ok s3 =>
          let saved := q.cores.map fun c => (q.index c, imageCore s3 q c)
          let s4 := freeCores (parkWords (dropFollow s3 q) q) held
          let s5 := s4.modPlot plot fun p =>
            { p with state := .saved, closing := false, saveHeld := false, bound := none, budget := none, ts := (s.pace - (p.budget.getD s.pace)).toNat, image407 := saved }
          enqueue s5 { node := q.node, level := q.prio, ready := q.ageTime, aging := q.aging, launch := false, restored := some plot,
                       rises := if q.aging then (s.pace - q.ageTime).toNat / tickAge else 0 })

/-! ### CONTEXT_RESTORE (R408) -/

/-- The state of a node as its record of the image gives it (R407): V, its mask and KEEP of a CARRY, C of a COUNT. -/
def nodeFrom (w : Word) (n : NodeState) (bs : List Byte) : NodeState :=
  if opcOf w == 0x182 then
    { n with v := { n.v with lanes := wordsOf 16 (bs.take 64), mask := BitVec.ofNat 16 (leAt bs 64 2) }, keep := (leAt bs 66 1).testBit 0 }
  else if opcOf w == 0x189 then { n with c := BitVec.ofNat 32 (leAt bs 0 4) }
  else n

/-- The node state of a cell from its records, which begin with those of cell 0 (R407). -/
def cellFrom (i : Nat) (x : Cell) (bs : List Byte) : Cell :=
  { x with nstate := x.nstate.map fun e =>
      (e.1, nodeFrom ((tget Bay.init x.bays (e.1 / 8)).nodes.getD (e.1 % 8) 0) e.2 (slice bs (80 * ((4 * i + e.1 / 8) * 6 + e.1 % 8)) 80)) }

/-- A loop level of a handler record. -/
def loopFrom (bs : List Byte) (o : Nat) : Loop :=
  { lc := BitVec.ofNat 32 (leAt bs o 4), ls := leBv 64 (slice bs (o + 4) 8), le := leBv 64 (slice bs (o + 12) 8) }

/-- STATE of a handler from its code (R108). -/
def hstateFrom (n : Nat) : HState := if n = 0 then .idle else if n = 1 then .running else if n = 2 then .waiting else .stalled

/-- A handler entry from its record. -/
def handlerFrom (bs : List Byte) : Handler :=
  let f := leAt bs 0 1
  { valid := f.testBit 0, mask := f.testBit 1, wake := f.testBit 2, state := hstateFrom (f / 8 % 4), prio := BitVec.ofNat 8 (leAt bs 1 1)
    entry := leBv 64 (slice bs 8 8), savedPc := leBv 64 (slice bs 16 8), l0 := loopFrom bs 24, l1 := loopFrom bs 44, l2 := loopFrom bs 64
    order := ((List.range 4).map fun i => leAt bs (84 + i) 1).filterMap fun n => if n = 0 then none else some (n - 1)
    stall := none
    inbox := (List.range (min 4 (leAt bs 2 1))).map fun i => (leBv 64 (slice bs (88 + 10 * i) 8), BitVec.ofNat 16 (leAt bs (96 + 10 * i) 2)) }

/-- A port from its record. -/
def savedPort (bs : List Byte) : Port :=
  let cfg := leAt bs 0 8
  let f := leAt bs 99 1
  { Port.init with
    dir := cfg.testBit 0, va := cfg.testBit 1, auto := cfg.testBit 2, sheaf := BitVec.ofNat 3 (cfg / 8), ztail := cfg.testBit 6
    lanes := cfg / 256 % 32, chan := BitVec.ofNat 4 (cfg / 65536), ceil := BitVec.ofNat 32 (cfg / 2 ^ 32), base := leBv 64 (slice bs 8 8)
    count := (List.range 4).map fun i => leAt bs (16 + 4 * i) 4
    stride := (List.range 4).map fun i => signed 40 (leAt bs (32 + 5 * i) 5), wstep := (List.range 6).map fun i => signed 40 (leAt bs (52 + 5 * i) 5)
    pos := leBv 64 (slice bs 82 8), state := if leAt bs 90 1 = 0 then .idle else if leAt bs 90 1 = 1 then .run else .fault, left := leAt bs 91 8
    ended := f.testBit 0, bar := f.testBit 1, barDue := f.testBit 2, doneDue := f.testBit 3, closeRun := f.testBit 4, heldBack := f.testBit 5
    doneWid := leBv 64 (slice bs 100 8), barChan := if leAt bs 108 1 = 0 then none else some (leAt bs 108 1 - 1) }

/-- A tile table entry from its record: the bits of R209. -/
def tileFrom (bs : List Byte) : Tile :=
  let n := leNat bs
  { Tile.init with
    valid := n.testBit 0, level := BitVec.ofNat 2 (n / 2), ring := n.testBit 3, cellm := BitVec.ofNat 2 (n / 16), owner := n.testBit 6, held := n.testBit 7
    holders := n / 2 ^ 8 % 2 ^ 8, rows := n / 2 ^ 16 % 2 ^ 32, rowb := n / 2 ^ 48 % 2 ^ 32, rp := n / 2 ^ 80 % 2 ^ 12, wp := n / 2 ^ 92 % 2 ^ 12
    fill := n / 2 ^ 104 % 2 ^ 13, base := n / 2 ^ 130 % 2 ^ 18 }

/-- Bytes of the descriptor that a command holds (R413): 128 for a copy, 64 for a key or collective command, 16 for an MMV, none otherwise and for a
follow-on. -/
def descLen (cmd : Cmd128) (follow : Bool) : Nat :=
  match decodeCommand cmd with
  | .error _ => 0
  | .ok x =>
    if (cInfo x).isSome then 128
    else if (kInfo x).isSome || (gInfo x).isSome then 64
    else if !follow && (mInfo x).any fun m => m.kind == .mmv then 16
    else 0

/-- The replay queue from its entries, descriptors and copy records; the number and handler of an entry, which R413 does not hold, are those of the
core as it was saved (log 29). -/
def replayFrom (old : List Replay) (entries records descs : List Byte) : List Replay :=
  let at_ := fun (i : Nat) => slice entries (32 * i) 32
  let n := min 16 old.length
  (List.range n).map fun i =>
    let e := at_ i
    let f := leAt e 25 1
    let x := old.getD i { id := 0, cmd := 0, iaddr := 0, xt := 0, chan := 0, drop := false, started := false, follow := false, ecode := 0, desc := [], prog := 0 }
    let cmd : Cmd128 := leBv 128 (slice e 0 16)
    let k := ((List.range i).filter fun j => (leAt (at_ j) 25 1).testBit 1).length
    { id := x.id, cmd := cmd, iaddr := leBv 64 (slice e 16 8), xt := leAt e 24 1, chan := x.chan, drop := f.testBit 0, started := f.testBit 1
      follow := f.testBit 2, ecode := BitVec.ofNat 8 (leAt e 26 1), desc := slice descs (128 * i) (descLen cmd (f.testBit 2))
      prog := if f.testBit 1 then leAt records (128 * k + 16) 8 else 0 }

/-- RELINT of a scope from its record. -/
def relFrom (bs : List Byte) (o : Nat) : Option W32 := if leAt bs (o + 4) 1 = 0 then none else some (BitVec.ofNat 32 (leAt bs o 4))

/-- A core as its block of the save area gives it (R407, R408); what R407 gives no place is that of the saved core (log 29). -/
def coreFrom (k : Core) (bs : List Byte) : Core :=
  let marks := leAt bs 0x180F8 4
  let rec16 := fun (c : Nat) => slice bs (0x18400 + 256 * c) 256
  let nodes := slice bs 0x1B000 0x3C00
  let lowRegs : Tbl Word := (List.range 31).foldl (fun t i => tset 0 t (if i < 23 then i + 1 else 24 + 8 * 16 + (i - 23)) (leBv 64 (slice bs (0x18000 + 8 * i) 8))) []
  let lowPend : Tbl Bool := (List.range 32).foldl (fun t r => tset false t (if r < 24 then r else 24 + 8 * 16 + (r - 24)) (marks.testBit r)) []
  let banked := (List.range 16).flatMap fun c => (List.range 8).map fun i => (c, i)
  { k with
    lmem := mwrite [] 0 (slice bs 0x10000 0x8000)
    regs := banked.foldl (fun t x => tset 0 t (24 + 8 * x.1 + x.2) (leBv 64 (slice (rec16 x.1) (128 + 8 * x.2) 8))) lowRegs
    pend := banked.foldl (fun t x => tset false t (24 + 8 * x.1 + x.2) ((leAt (rec16 x.1) 192 1).testBit x.2)) lowPend
    last := leAt bs 0x180FC 1
    handlers := (List.range 16).foldl (fun t c => tset Handler.init t c (handlerFrom (rec16 c))) (k.handlers.filter fun e => e.1 == 16)
    replay := replayFrom k.replay (slice bs 0x19800 512) (slice bs 0x1A000 2048) (slice bs 0x1EC00 2048)
    slotPos := savedSlots.zipIdx.foldl (fun t x => tset SlotPos.init t x.1 { SlotPos.init with pos := leBv 64 (slice bs (0x19A04 + 8 * x.2) 8) }) []
    race := { int := BitVec.ofNat 32 (leAt bs 0x19A34 4), relPlot := relFrom bs 0x19A38, relDevice := relFrom bs 0x19A3D, relSystem := relFrom bs 0x19A42 }
    ports := (List.range 8).foldl (fun t p => tset Port.init t p (savedPort (slice bs (0x19B00 + 128 * p) 128))) []
    tiles := (List.range 64).foldl (fun t h => tset Tile.init t h (tileFrom (slice bs (0x1A800 + 32 * h) 32))) []
    cells := k.cells.map fun e => (e.1, cellFrom e.1 e.2 nodes)
    mat := { k.mat with
      accs := (wordsOf 16384 bs).zipIdx.filterMap fun e => if e.1 == 0 then none else some (e.2, e.1)
      vers := (List.range 4).foldl (fun t a => tset 0 t a (bs.getD (0x19A00 + a) 0)) [] } }

/-- Read a saved core from its block; core `i` of the rectangle. -/
def readBlock (s : State) (q : Plot) (i : Nat) (k : Core) : Except (Byte × Word) Core :=
  let va := saveBase q + BitVec.ofNat 64 (4096 + 131072 * i)
  allOk (readVa s q.ptroot va 0x19400) fun low =>
    allOk (readVa s q.ptroot (va + 0x19800) 0x5C00) fun high => .ok (coreFrom k (low ++ List.replicate 0x400 0 ++ high))

/-- The saved cores of a plot, each read from its block of the save area. -/
def savedCores (s : State) (q : Plot) (xs : List (Nat × Core)) : Except (Byte × Word) (List (Nat × Core)) :=
  collect (fun x => allOk (readBlock s q x.1 x.2) fun k => .ok (x.1, k)) xs

/-- A core takes its saved state at its new place: tiles and storage follow. -/
def restoreCore (fresh saved : Core) : Core :=
  { saved with
    plot := fresh.plot, running := none, reinj := saved.replay, replay := [], cmds := [], tiles := [], scratch := fresh.scratch, tcache := fresh.tcache
    arm := fresh.arm, stopped := false, stepping := false, mat := { Matrix.init with accs := saved.mat.accs, vers := saved.mat.vers }, key := KeyEng.init
    cells := fresh.cells.map fun e => (e.1, { e.2 with nstate := (tget Cell.init saved.cells e.1).nstate }) }

/-- The tiles of a saved context, allocated afresh in the order of the image, with their data from the image. -/
def restoreTiles (old : State) (s : State) (data : List Byte) : List (Nat × Nat) → Option State
  | [] => some s
  | x :: r =>
    let t := getTile old x.1 x.2
    match allocTile s x.1 t.level t.ring t.cellm x.2 t.rows t.rowb with
    | .error _ => none
    | .ok u =>
      let v := modTile u x.1 x.2 fun e => { t with base := e.base, busy := 0 }
      restoreTiles old (tileWrite v x.1 x.2 0 (data.take t.size)).1 (data.drop t.size) r

/-- The fields of the plot header that a restore takes from the save area (R407). -/
def headerFrom (q : Plot) (bs : List Byte) : Plot :=
  { q with bay := leAt bs 4 1, startPend := leAt bs 6 1 != 0, wid := leBv 64 (slice bs 8 8), bars := leAt bs 16 8 }

/-- The search for a place for a saved context: its image is fetched and checked as for a load (R408, R194 steps 1 and 2). -/
def searchSaved (s : State) (q : Plot) (e : QEntry) : State :=
  if !isHead s e then s
  else
    match imageTraffic s q.die q.ptroot q.image with
    | none => s
    | some t =>
      match fetchImage t q.ptroot q.image (fun _ => true) with
      | .error f => loadFailure (dequeue t fun x => x == e) q f
      | .ok img => askOffset t q img (firstFit t img)

/-- The saved context takes the offset that the walker has reserved: its restore begins, and Tr counts from here (R203, R403). -/
def placeSaved (s : State) (q : Plot) (e : QEntry) (o : Nat × Nat × Nat) : State :=
  let q1 := { withImage q q.img with
    die := o.1, col := o.2.1, row := o.2.2, bay := q.bay, prio := e.level, restored := true, sliceUsed := false, state := .loading, cand := none
    runStart := s.pace, wdStop := 0, runStop := 0, drained := [], bayStart := q.wid }
  q1.cores.foldl (fun t c => t.setLease c (.loading q.id)) ((dequeue s fun x => x == e).modPlot q.id fun _ => q1)

/-- Words and group memberships of a restored plot follow it to its new place. -/
def rebase (s : State) (q : Plot) : State :=
  { s with
    flight := s.flight.map fun w =>
      if parkedAt + 100 * q.id ≤ w.core ∧ w.core < parkedAt + 100 * q.id + 100 then
        { w with core := q.cores.getD (w.core - parkedAt - 100 * q.id) 0,
                 src := if parkedFrom ≤ w.src then q.cores.getD (w.src - parkedFrom - 100 * q.id) 0 else w.src }
      else w
    groups := s.groups.map fun g => (g.1, { g.2 with members := g.2.members.map fun m => if m.plot == q.id then { m with core := q.lead } else m }) }

/-- The end of a restore (R408): the cores with their saved state, the tiles at newly chosen places, and arming with the saved bay current; a
pre-emption that was requested meanwhile withholds the start event (R406). `ks` are the saved cores. -/
def finishRestore (s : State) (q : Plot) (ks : List (Nat × Core)) : State :=
  let s1 := loadCoresOf (s.modPlot q.id fun _ => { q with duals := dualCells q, fed := fedSlots q }) q
  let old := q.cores.foldl (fun t c => t.modCore c fun _ =>
    { (((ks.find? fun x => x.1 == q.index c).map (·.2)).getD Core.init) with plot := some q.id }) s1
  let s2 := q.cores.foldl (fun t c => t.modCore c fun k => restoreCore k (old.core c)) s1
  let tiles := savedTiles old q
  match (readVa s q.ptroot (saveTiles q) (tileBytesOf old tiles)).toOption.bind fun data => restoreTiles old s2 data tiles with
  | none => loadFailure s q (cCFGBAD, 0)
  | some s3 =>
    let s5 := rebase (armPlot s3 q) q
    if q.closing then s5.modPlot q.id fun p => { p with budget := some s.pace, bound := begunWid s5 q }
    else if q.startPend then startEvent (s5.modPlot q.id fun p => { p with startPend := false }) q
    else s5

/-- The second event of a restore: the saved state is read from the save area (R408). -/
def restorePlot (s : State) (q : Plot) : State :=
  let size := ((q.image407.flatMap fun x => x.2.tiles.map fun e => if e.2.valid then e.2.size else 0)).sum
  match saveTraffic s q size false with
  | none => s
  | some t =>
    match checkImage q.img (fun i => isBridge (q.cores.getD i 0)), readVa t q.ptroot (saveBase q) 4096, savedCores t q q.image407 with
    | some f, _, _ => loadFailure t q f
    | none, .error f, _ => loadFailure t q (f.1, (f.2 - saveBase q).toNat)
    | none, _, .error f => loadFailure t q (f.1, (f.2 - saveBase q).toNat)
    | none, .ok hd, .ok ks => finishRestore t (headerFrom q hd) ks

/-- CONTEXT_RESTORE (R408, R194 steps 1 to 4, R199): a saved context searches a place, the walker of its candidate's die reserves it, and the saved state
is read and the plot armed with the saved bay current. -/
def execContextRestore (plot : Nat) (s : State) : Res :=
  .next (
    match s.findPlot plot with
    | none => s
    | some q =>
      if q.state == .loading && q.restored && allLoading s q then restorePlot s q
      else if q.state != .saved then s
      else
        match entryOf s q with
        | none => s
        | some e =>
          match q.cand with
          | none => searchSaved s q e
          | some o => reserveAt s q o fun t => placeSaved t q e o)

/-! ### Watchdog and budget (R409, R410) -/

/-- A fatal end that a walker finds (R418, R419). -/
def walkerEnd (s : State) (q : Plot) (code : Byte) : State :=
  fatalEnd s q code (recordBytes s q.node code 4 1 0 q.p 0xFF 0 0 (code.setWidth 32) 0)

/-- WATCHDOG_EXPIRY (R409). -/
def execWatchdogExpiry (plot : Nat) (s : State) : Res :=
  .next (
    match s.findPlot plot with
    | none => s
    | some q =>
      if !q.live || q.wdog = 0 || q.budget.isSome || plotHalted s q || (s.pace - q.lastRetire).toNat - q.wdStop < 1000 * q.wdog then s
      else walkerEnd s q cWATCHDOG)

/-- SAVETIMEOUT (R410). -/
def execSaveTimeout (plot : Nat) (s : State) : Res :=
  .next (
    match s.findPlot plot with
    | none => s
    | some q =>
      match q.budget with
      | none => s
      | some b => if q.live && tickBudget ≤ (s.pace - b).toNat then walkerEnd s q cSAVETIMEOUT else s)

/-! ### Traps and HOSTWAIT (R411, R416) -/

/-- TRAP_ENTRY (R411): a held fault is taken at the instruction boundary. -/
def execTrapEntry (core : Nat) (s : State) : Res :=
  .next (
    match s.plotOf core with
    | none => s
    | some q => if q.live && !(s.core core).stopped && (s.core core).reinj.isEmpty then takeHeld s core else s)

/-- The plot that CTXCMD names: the LAUNCH node of CTXSEL and plot `p`, in HOSTWAIT (R395, R416). -/
def ctxPlot (s : State) (p : BitVec 16) : Option Plot :=
  s.plots.find? fun q => q.node == s.regs.ctxsel && q.p == p.toNat && q.state == .hostwait

/-- RESUME of a sequencer (R416): its frame comes back with HOSTED set; without a routine it executes TRET at once (R414, R415). -/
def resumeSeq (s : State) (q : Plot) (core : Nat) : State :=
  match readVa s q.ptroot (saveBlock q core + 0x19400) 576 with
  | .error e => fatalEnd s q e.1 (recordBytes s q.node e.1 4 1 (recCore q core) q.p 0xFF 0 e.2 (e.1.setWidth 32) 0)
  | .ok bs =>
    let frame := patch bs 5 [BitVec.ofNat 8 (leAt bs 5 1) ||| 4]
    let s1 := s.modCore core fun k => { k with lmem := mwrite k.lmem q.tfaddr frame, trap := { k.trap with hosted := false } }
    if (s.core core).trap.routine then s1
    else if leAt frame 5 1 / 2 % 2 = 0 ∧ leAt frame 24 8 % 4 ≠ 0 then
      fatalEnd s1 q cALIGN (recordBytes s1 q.node cALIGN 0 1 (recCore q core) q.p 0xFF (s.core core).tepc (leBv 64 (slice frame 24 8)) (causeOf cALIGN 0) 0)
    else clearOrphans (s1.modCore core fun k => leaveTrap k q.tfaddr) core

/-- RESUME of a plot fault (R416, R294): faulted accesses are tried again first; a port in FAULT goes on. -/
def resumePlot (s : State) (core : Nat) : State :=
  let s1 : State := { s with accs := s.accs.map fun a => if a.phase == .parked && agentCore a.agent == some core then { a with code := 0 } else a }
  let s2 := s1.modCore core fun (k : Core) =>
    { k with
      ports := k.ports.map fun e => (e.1, if e.2.state == .fault then { e.2 with state := .run } else e.2)
      cells := k.cells.map fun e => (e.1, { e.2 with nstate := e.2.nstate.map fun x => (x.1, { x.2 with faulted := false }) }) }
  resolveParked s2 core

/-- CTXCMD_RESUME (R416): the plot leaves HOSTWAIT; every wait of it ends. -/
def execCtxcmdResume (p : BitVec 16) (s : State) : Res :=
  .next (
    match ctxPlot s p with
    | none => s
    | some q =>
      let s1 := s.modPlot q.id fun x => { x with state := .armed, waits := [] }
      q.waits.foldl (fun t w =>
        match t.findPlot q.id with
        | some q1 => if !q1.live then t else if w.seq then resumeSeq t q1 w.core else resumePlot t w.core
        | none => t) s1)

/-- CTXCMD_DESTROY (R416): the plot ends fatally with the recorded code. -/
def execCtxcmdDestroy (p : BitVec 16) (s : State) : Res :=
  .next (
    match ctxPlot s p with
    | none => s
    | some q => walkerEnd s q ((q.waits.head?.map HostWait.code).getD 0))

/-! ### Debug state and failed banks (R140, R235) -/

/-- DEBUG_RESUME (R140). -/
def execDebugResume (core : Nat) (s : State) : Res :=
  .next (if (s.core core).stopped then s.modCore core fun k => { k with stopped := false, stepping := false } else s)

/-- DEBUG_STEP (R140): one instruction, then debug state again. A handler that is still STALLED has no instruction to run yet: the sequencer leaves debug
state and waits for its stall to clear (DEDUCED, log 109). -/
def execDebugStep (core : Nat) (s : State) : Res :=
  .next (if (s.core core).stopped then s.modCore core fun k => { k with stopped := false, stepping := true } else s)

/-- BANK_DECLARE_FAILED (R235): firmware declares a bank of a memory cell failed. -/
def execBankDeclareFailed (core : Nat) (m : BitVec 2) (bank : BitVec 5) (s : State) : Res :=
  .next (if bank.toNat < 18 then declareBank s core m.toNat bank.toNat true else s)

end Sys2Proof.Machine
end

