-- ==== Sys2Proof/Machine/Atomics.lean ====
section
/-!
DEFINITION. Atomic and reduction commands (R295 to R300).
-/

namespace Sys2Proof.Machine

/-- The access of an atomic at a translated address: `ord` 1 and 3 acquire, 2 and 3 release, at DEVICE scope (R295). -/
def atomicAccess (s : State) (kind : AccKind) (e : TcEntry) (va : Word) (w op : Nat) (ord : BitVec 2) (cmp data : List Byte) : Access :=
  { mkAccess s (.seq s.cur.core) kind e va w data .none with
    cmp := cmp, op := BitVec.ofNat 4 op, rel := ord.getLsbD 1, acq := ord.getLsbD 0, scope := 2, iaddr := s.me.pc }

/-- Send an accepted command's access; an acquire takes the sequencer's path, a release counts for the detector (R300, R310). -/
def sendAtomic (s : State) (a : Access) : State :=
  let c := s.cur.core
  let t := accept s [] 0
  let id := newId s
  let b := { a with id := newId t, dest := .cmd c id }
  let u := issueAccess t b
  let v := modCmd u c id fun x => { x with acc := b.id }
  let w := if a.acq then v.modCore c fun k => { k with acq := some b.id } else v
  if a.rel then raceRelease w c 2 else w

/-- Checks 3 and 4 of R298 on one address, then the command. -/
def withTarget (s : State) (va : Word) (align : Nat) (hostOk : Bool) (f : State → TcEntry → State) : State :=
  if va.toNat % align ≠ 0 then acceptFault s cALIGN 0 va
  else
    match translate s s.cur.core (coreRoot s s.cur.core) va true false with
    | (.fault x, t) => acceptFault t x.1 (if x.2 then 1 else 0) va
    | (.wait w, t) => acceptStall t (.walk w)
    | (.hit e, t) => if e.host && !hostOk && !Config.cxlCache then acceptFault t cPERMISSION 0 va else f t e

/-- Check 1 of R298: `n` operand bytes in local data memory. -/
def withLocal (s : State) (lm : Bool) (addr w n : Nat) (f : State → State) : State :=
  if lm && addr % w != 0 then acceptFault s cALIGN 0 (BitVec.ofNat 64 addr)
  else if lm && addr + n > Config.localBytes then acceptFault s cPERMISSION 0 (BitVec.ofNat 64 addr)
  else f s

/-- Acceptance waits for an acquire in progress (R285). -/
def afterAcquire (s : State) (f : State → State) : State := if s.me.acq.isSome then acceptStall s .acquire else f s

/-- The accesses of the acting command. -/
def cmdAccs (s : State) : List Access := s.accs.filter fun a => a.dest == .cmd s.cur.core s.cur.slot

/-- Drop the accesses of the acting command. -/
def dropCmdAccs (s : State) : State := { s with accs := s.accs.filter fun a => a.dest != .cmd s.cur.core s.cur.slot }

/-- The operand of AMO and RED. -/
def atomicOperand (s : State) (lm dw : Bool) (b2 : BitVec 32) : List Byte :=
  let w := if dw then 8 else 4
  if lm then mread s.me.lmem b2.toNat w else natLe w b2.toNat

/-- The end of an AMO or AMOC: the old value to local memory, then the status (R299). -/
def atomicDone (s : State) (back : Option Nat) (result : List Byte → Access → W32) : State :=
  match (cmdAccs s).head? with
  | none => s
  | some a =>
    if a.phase != .returned then s
    else if a.code ≠ 0 then finishCmd (dropCmdAccs s) s.cur.core s.cur.slot a.code 0
    else
      let t := match back with
        | some addr => (dropCmdAccs s).modMe fun k => { k with lmem := mwrite k.lmem addr a.value }
        | none => dropCmdAccs s
      finishCmd t s.cur.core s.cur.slot 0 (result a.value a)

/-- AMO. -/
def execAmo (ord : BitVec 2) (lm dw : Bool) (op : BitVec 4) (addr : Word) (b2 : BitVec 32) (s : State) : Res :=
  let w := if dw then 8 else 4
  .next (
    if issuing s then
      afterAcquire s fun t => withLocal t lm b2.toNat w w fun t => withTarget t addr w (op == 0 || op == 9) fun t e =>
        sendAtomic t (atomicAccess t .atomic e addr w op.toNat ord [] (atomicOperand t lm dw b2))
    else atomicDone s (if lm then some b2.toNat else none) fun v _ => leBv 32 (v.take 4))

/-- AMOC: RESULT is 1 when the swap took place. -/
def execAmoc (ord : BitVec 2) (dw : Bool) (addr : Word) (b2 : BitVec 32) (s : State) : Res :=
  let w := if dw then 8 else 4
  .next (
    if issuing s then
      afterAcquire s fun t => withLocal t true b2.toNat w (2 * w) fun t => withTarget t addr w true fun t e =>
        sendAtomic t (atomicAccess t .atomic e addr w 9 ord (mread t.me.lmem b2.toNat w) (mread t.me.lmem (b2.toNat + w) w))
    else atomicDone s (some b2.toNat) fun v a => if v = a.cmp then 1 else 0)

/-- The end of a RED or REDV: every piece has been performed, or one has failed: those before it are performed first, those after it are
dropped (R298, R299). -/
def reduceDone (s : State) : State :=
  match (s.core s.cur.core).cmd s.cur.slot with
  | none => s
  | some me =>
    if me.phase != .accepted then s
    else
      let l := cmdAccs s
      match l.find? fun a => a.code ≠ 0 with
      | some a => if (l.takeWhile fun x => x.code == 0).all accPerformed then finishCmd (dropCmdAccs s) s.cur.core s.cur.slot a.code 0 else s
      | none => if l.all accPerformed then finishCmd (dropCmdAccs s) s.cur.core s.cur.slot me.code 0 else s

/-- RED. -/
def execRed (ord : BitVec 2) (lm dw : Bool) (op : BitVec 4) (addr : Word) (b2 : BitVec 32) (s : State) : Res :=
  let w := if dw then 8 else 4
  .next (
    if issuing s then
      afterAcquire s fun t => withLocal t lm b2.toNat w w fun t => withTarget t addr w (op == 0) fun t e =>
        sendAtomic t (atomicAccess t .reduce e addr w op.toNat ord [] (atomicOperand t lm dw b2))
    else reduceDone s)

/-- Translate the first byte of every page that a range touches, in order (R298); check 4 follows check 3. -/
def translatePages (s : State) : List Word → State × Except (State → State) (List TcEntry)
  | [] => (s, .ok [])
  | va :: r =>
    match translate s s.cur.core (coreRoot s s.cur.core) va true false with
    | (.fault x, t) => (t, .error fun u => acceptFault u x.1 (if x.2 then 1 else 0) va)
    | (.wait w, t) => (t, .error fun u => acceptStall u (.walk w))
    | (.hit e, t) =>
      match translatePages t r with
      | (u, .error f) => (u, .error f)
      | (u, .ok es) => (u, .ok (e :: es))

/-- First addresses of the 4 KiB pages of a range. -/
def pagesOf (va : Word) (n : Nat) : List Word :=
  (List.range ((va.toNat % 4096 + n + 4095) / 4096)).map fun i => if i = 0 then va else BitVec.ofNat 64 ((va.toNat / 4096 + i) * 4096)

/-- The rows of a tile range, up to the first that is uncorrectable. -/
def tileRows (s : State) (core h o : Nat) : Nat → State × List (List Byte)
  | 0 => (s, [])
  | n + 1 =>
    match tileRead s core h o 64 with
    | (t, none) => (t, [])
    | (t, some b) =>
      let (u, bs) := tileRows t core h (o + 64) n
      (u, b :: bs)

/-- REDV: one reduction for each 64-byte row, in address order. -/
def execRedv (ord : BitVec 2) (op : BitVec 4) (h : BitVec 6) (addr : Word) (b2 : BitVec 32) (s : State) : Res :=
  let c := s.cur.core
  let n := (b2.extractLsb' 0 6).toNat + 1
  let o := (b2.extractLsb' 6 26).toNat * 64
  let e := getTile s c h.toNat
  .next (
    if !issuing s then reduceDone s
    else afterAcquire s fun s =>
      if !e.valid || o + 64 * n > e.size then acceptFault s cPERMISSION 0 (b2.setWidth 64)
      else if !mayAccess e false false o (64 * n) then acceptFault s cOWNER 0 (b2.setWidth 64)
      else if addr.toNat % 64 ≠ 0 then acceptFault s cALIGN 0 addr
      else
        match translatePages s (pagesOf addr (64 * n)) with
        | (t, .error f) => f t
        | (t, .ok es) =>
          match ((pagesOf addr (64 * n)).zip es).find? fun x => x.2.host && !(op == 0) && !Config.cxlCache with
          | some x => acceptFault t cPERMISSION 0 x.1
          | none =>
            let (u, rows) := tileRows t c h.toNat o n
            let id := newId u
            let v := modCmd (accept u [] 0) c id fun x => { x with code := if rows.length < n then cMEMUNCORR else 0 }
            let w := rows.zipIdx.foldl (fun x r =>
              let va := addr + BitVec.ofNat 64 (64 * r.2)
              let e := es.getD ((addr.toNat % 4096 + 64 * r.2) / 4096) (es.headD { root := 0, page := 0, size := 0, pa := 0, host := false, place := 0, homedie := 0, sa := false, wb := false, ac := false, rw := false, wr := false, nf := false })
              issueAccess x { mkAccess x (.seq c) .reduce e va 64 r.1 (.cmd c id) with
                op := op, rel := ord.getLsbD 1, scope := 2, iaddr := s.me.pc }) v
            if ord.getLsbD 1 then raceRelease w c 2 else w)

end Sys2Proof.Machine
end

