-- ==== Sys2Proof/Machine/Convert.lean ====
section
/-!
DEFINITION. The conversion nodes CVT (R95, R96), PACK (R97 to R100) and UNPACK (R101, R102).
-/

namespace Sys2Proof.Machine

/-- A marker passes a conversion node: EOI ends the invocation's count (R91). -/
def cvtMark (n : NodeFields) (l : Token) (s : State) : State :=
  let t := fireAll s n l
  if l.kind == kEOI then modNode t fun x => { x with idx := 0, last := some l.wid } else t

/-- One half or lane of a conversion: result, flag, source. -/
def cvtHalf (code : Nat) (rs : Option Nat) (src : W32) : Flagged :=
  match code with
  | 0 => toFloat bf16 rs (fp32.value src.toNat)
  | 1 => toFloat fp16 rs (fp32.value src.toNat)
  | 4 => toInt 32 (-2147483648) 2147483647 0 rs (fp32.value src.toNat)
  | _ => clampFlag 16 (-32768) 32767 (signed 32 src.toNat)

/-- Magnitude of a source of a conversion: an integer for code 6, else an FP32 word. -/
def cvtKey (code : Nat) (w : W32) : Nat := if code = 6 then (signed 32 w.toNat).natAbs else magKey w

/-- The result lane of a conversion and what stands on the overflow target for it (R95, R96). -/
def cvtLane (code : Nat) (hiHalf : Bool) (rs : Nat → Option Nat) (i : Nat) (l : W32) (r : Option W32) : W32 × Option W32 :=
  match code with
  | 0 | 1 | 6 =>
    let a := cvtHalf code (rs i) l
    let b : Flagged := match r with
      | some x => cvtHalf code (rs (i + 16)) x
      | none => { code := 0, flag := false }
    let rv := r.getD 0
    let spill := if a.flag && b.flag then (if cvtKey code l < cvtKey code rv then some rv else some l)
      else if a.flag then some l else if b.flag then some rv else none
    (pack16 a.code b.code, spill.map fun w => if code = 6 then w else srcValue w)
  | 2 => (BitVec.ofNat 32 (fp32.round (bf16.value (if hiHalf then hi16 l else lo16 l))), none)
  | 3 => (BitVec.ofNat 32 (fp32.round (fp16.value (if hiHalf then hi16 l else lo16 l))), none)
  | 4 =>
    let a := cvtHalf code (rs i) l
    (BitVec.ofNat 32 a.code, if a.flag then some (srcValue l) else none)
  | 5 =>
    let v := signed 32 l.toNat
    let x := match rs i with
      | none => fp32.rnCode v.natAbs 0
      | some r => fp32.rsCode v.natAbs 0 r
    (BitVec.ofNat 32 (fp32.sign (v < 0) x), none)
  | _ => (BitVec.ofInt 32 (signed 16 (if hiHalf then hi16 l else lo16 l)), none)

/-- CVT: converts lane by lane; flagged lanes give one token on B. -/
def execCvt (n : NodeFields) (s : State) : Res :=
  inStep s n (cvtMark n) fun t =>
    match input t 0 with
    | none => t
    | some l =>
      let code := (n.mods.extractLsb' 3 3).toNat
      let rs := fun sub => if n.mods.getLsbD 1 then some (nodeRand t sub) else none
      let r := rOperand t n
      let lanes := (List.range 16).map fun i =>
        if l.mask.getLsbD i then
          cvtLane code (n.mods.getLsbD 2) rs i (l.lane i) (if (n.er || n.imm) && r.mask.getLsbD i then some (r.lane i) else none)
        else (0, none)
      let flagged := BitVec.ofNat 16 ((lanes.zipIdx.map fun x => if x.1.2.isSome then 2 ^ x.2 else 0).sum)
      let u := emitAB (consume t (enabled n)) n (some { kind := kDATA, mask := l.mask, lanes := lanes.map (·.1) })
        (if flagged == 0 then none else some { kind := kDATA, mask := flagged, lanes := lanes.map fun x => x.2.getD 0 })
      modNode u fun x => { x with idx := x.idx + 1 }

/-! ### PACK -/

/-- Elements of a sheaf that PACK closes. -/
def packClass (n : NodeFields) : Nat := (fmtClass (n.mods.extractLsb' 3 3).toNat).getD 62

/-- A closing firing (R98, R99, R100): the elements, and the inputs that it consumes beside R. -/
def packClose (n : NodeFields) (s : State) (es : List W32) (ins : List Nat) : State :=
  let st := nodeSt' s
  let sw := (rOperand s n).lane 0
  let c := closeSheaf (n.mods.extractLsb' 3 3).toNat sw (n.mods.getLsbD 1)
    (fun j => if n.mods.getLsbD 2 then some (nodeRand s j) else none) es
  let count := (c.flags.filter id).length
  let big := (largestFlagged (fun j => magKey (es.getD j 0)) c.flags).getD 0
  let spill : Token := { kind := kDATA, mask := 7, lanes := [BitVec.ofNat 32 count, srcValue (es.getD big 0), st.idx] ++ List.replicate 13 0 }
  let u := emitAB (consume s (ins ++ (if n.er then [1] else []))) n (some { kind := kDATA, mask := 0xFFFF, lanes := laneWords 16 c.bytes })
    (if count = 0 then none else some spill)
  modNode u fun x => { x with sheaf := [], idx := x.idx + 1 }

/-- PACK (R98): R is consumed by closing firings only, and a marker on L that meets an open sheaf first closes it without L and P. When the head of R is
then a marker too, and not the DATA token that the closing firing needs, the spec does not say whether the node waits: it faults with FORMAT, as R168
has it for heads of different kinds (DESIGN CHOICE, log 113). -/
def execPack (n : NodeFields) (s : State) : Res :=
  let lp := [0] ++ (if n.ep then [2] else [])
  let hs := lp.map fun p => input s p
  let r := input s 1
  let held := (nodeSt' s).sheaf
  let closing := fun (es : List W32) (ins : List Nat) =>
    if n.er then
      match r with
      | none => s
      | some x => if x.kind == kDATA then packClose n s es ins else formatFault s n
    else packClose n s es ins
  .next (
    if !nodeRuns s then s
    else if (hs ++ (if n.er then [r] else [])).any fun h => h.any fun t => t.kind == 3 then formatFault s n
    else
      match hs with
      | some l :: rest =>
        if l.kind != kDATA && !held.isEmpty then (if roomy s n then closing held [] else s)
        else if rest.any Option.isNone then s
        else if rest.any fun h => h.any fun t => t.kind != l.kind then formatFault s n
        else if !roomy s n then s
        else
          if l.kind == kDATA then
            let es := held ++ ((List.range 16).filter fun i => l.mask.getLsbD i).map fun i => l.lane i
            let mark := n.ep && (pOperand s).mask.getLsbD 0 && ((pOperand s).lane 0).getLsbD 0
            if es.length > packClass n then raiseNode s cFORMAT 0 0 false
            else if es.length = packClass n ∨ (es.length > 0 ∧ mark) then closing es lp
            else modNode (consume s lp) fun x => { x with sheaf := es }
          else if n.er then
            match r with
            | none => s
            | some x => if x.kind == l.kind then cvtMark n l s else formatFault s n
          else cvtMark n l s
      | _ => s)

/-! ### UNPACK -/

/-- Elements of the class that UNPACK names in MODS[5:4] (R101). -/
def unpackClass (n : NodeFields) : Nat :=
  match (n.mods.extractLsb' 4 2).toNat with
  | 0 => 62
  | 1 => 61
  | 2 => 124
  | _ => 122

/-- UNPACK: one token of 16 elements per firing; the sheaf is consumed with the last (R101, R102). -/
def execUnpack (n : NodeFields) (s : State) : Res :=
  inStep s n (cvtMark n) fun t =>
    match input t 0 with
    | none => t
    | some l =>
      let k := unpackClass n
      let sh := tokBytes l.lanes
      let i := (nodeSt' t).t
      let count := min 16 (k - 16 * i)
      if l.mask != 0xFFFF || !fmtReads (sh.headD 0).toNat k then raiseNode t cFORMAT 0 0 false
      else
        let out := dataTok (BitVec.ofNat 16 (2 ^ count - 1)) fun j => BitVec.ofNat 32 (fp32.round (elemValue sh (16 * i + j)))
        let last := 16 * (i + 1) ≥ k
        let u := emitAB (if last then consume t [0] else t) n (some out) none
        modNode u fun x => { x with t := if last then 0 else i + 1 }

end Sys2Proof.Machine
end

