-- ==== Sys2Proof/Machine/Roce.lean ====
section
/-!
DEFINITION. The Ethernet ports and their RoCEv2 engines (R386 to R388, R434 to R437): doorbell lines, send and receive queues, completion
records, memory keys, incoming operations, and the line watches of R393.
-/

namespace Sys2Proof.Machine

/-! ### Device memory as an engine reaches it (R386, R434)

An access ends in a state, in a fault (`some` code), or has to wait (`none`): for a page with WB = 1, or for a packet that may not cross yet. -/

/-- EPTROOT of a port. -/
abbrev ethRoot (s : State) (port : Nat) : Word := (s.ethPort port).ptroot

/-- The Market die of a port (R434). -/
abbrev ethDie (port : Nat) : Nat := 4 + port / 2

/-- An access of an engine as packets of its Market die (R386), counted on pages with AC = 1 (R245). -/
def engCross (s : State) (port : Nat) (va : Word) (n : Nat) (write : Bool) : Option State :=
  (crossVa s (ethDie port) (ethRoot s port) va n write).map fun t => touchVa t (ethRoot s port) va n write

/-- Read bytes for an engine. -/
def engRead (s : State) (port : Nat) (va : Word) (n : Nat) : Except (Option Byte) (State × List Byte) :=
  match readVa s (ethRoot s port) va n, engCross s port va n false with
  | .error e, _ => .error (some e.1)
  | .ok _, none => .error none
  | .ok bs, some t => .ok (t, bs)

/-- Write bytes for an engine; nothing is written on a fault. -/
def engWrite (s : State) (port : Nat) (va : Word) (bs : List Byte) : Except (Option Byte) State :=
  match checkStoreVa s (ethRoot s port) va bs.length, engCross s port va bs.length true with
  | some e, _ => .error (some e.1)
  | none, none => .error none
  | none, some t =>
    if storeHeld s (ethRoot s port) va bs.length then .error none
    else match writeVa t (ethRoot s port) va bs with
      | .error e => .error (some e.1)
      | .ok u => .ok u

/-! ### Packets (R386, R434, R436) -/

/-- The path MTU in bytes (R434). -/
def mtuBytes (s : State) (port : Nat) : Nat := if (s.ethPort port).mtu == 0 then 1024 else if (s.ethPort port).mtu == 1 then 2048 else 4096

/-- The packets of a message: at least one. -/
def packetsOf (s : State) (port n : Nat) : Nat := max 1 ((n + mtuBytes s port - 1) / mtuBytes s port)

/-- The addressing of a queue pair's packets (R434, R436). -/
def wireHead (s : State) (port q : Nat) : WireHeader :=
  let e := s.ethPort port
  let x := s.qp port q
  let v4 := x.diphi == 0 && x.diplo.extractLsb' 32 32 == 0xFFFF
  { srcMac := e.mac.getD (Config.macAddress port), dstMac := x.dmac
    srcIp := if v4 then ((0xFFFF00000000 : BitVec 128) ||| e.ipv4.setWidth 128) else e.ipv6hi ++ e.ipv6lo
    dstIp := x.diphi ++ x.diplo, sport := x.sport.extractLsb' 16 16, hops := x.sport.extractLsb' 8 8, tclass := x.sport.extractLsb' 0 8
    dqpn := x.dqpn }

/-- The port answers an incoming operation of `n` bytes: its packets move the expected sequence number on, except while the receiver is
not ready. -/
def answer (s : State) (port q : Nat) (kind : AnswerKind) (n : Nat) (data : List Byte) : State :=
  let k := if kind == .notReady then 0 else packetsOf s port n
  let a : EthAnswer := { qp := q, kind := kind, psn := (s.qp port q).epsn, head := wireHead s port q, data := data }
  (s.modQp port q fun x => { x with epsn := x.epsn + BitVec.ofNat 24 k }).modEth port fun e => { e with answer := some a }

/-! ### Doorbells (R437) -/

/-- The engine reads the doorbell line: the three indices modulo the sizes of their rings. A line that cannot be read changes nothing. -/
def readDoorbell (s : State) (port q : Nat) : State :=
  let x := s.qp port q
  let t := s.modQp port q fun y => { y with lastRead := s.pace }
  match engRead t port x.dbva 24 with
  | .error (some _) => t
  | .error none => s
  | .ok (u, bs) => u.modQp port q fun y =>
      { y with sqpi := leAt bs 0 8 % 2 ^ x.sqlog.toNat, rqpi := leAt bs 8 8 % 2 ^ x.rqlog.toNat, cqci := leAt bs 16 8 % 2 ^ x.cqlog.toNat }

/-- The line of a doorbell at its home bridge, when the bridge has a watch free (R393). -/
def doorbellLine (s : State) (port : Nat) (va : Word) : Option Nat :=
  match walkPage s (ethRoot s port) va false false with
  | .error _ => none
  | .ok e =>
    let used := (s.waits.filter fun w => (w.line.map fun l => keyChannel (64 * l)) == some (keyChannel (e.key va))).length
    if e.host || 16 ≤ used then none else some (e.key va / 64)

/-- Take away the watch of a queue pair. -/
def unwatch (s : State) (port q : Nat) : State :=
  { s with waits := s.waits.filter fun w => w.qp != some (port, q) }

/-- Place the line watch of a queue pair and read its line (R437). -/
def watchDoorbell (s : State) (port q : Nat) : State :=
  let t := unwatch s port q
  let u := match doorbellLine t port (s.qp port q).dbva with
    | none => t.modQp port q fun x => { x with watched := false }
    | some l =>
      ({ t with waits := t.waits ++ [{ node := 0, qp := some (port, q), line := some l, since := s.pace, fired := false }] } : State).modQp port q fun x =>
        { x with watched := true }
  readDoorbell u port q

/-- A write of an index to a doorbell register acts as a write of the same index to the line (R437); the store may have to wait at the
walker (R244). In RESET the engine takes no index. -/
def doorbellWrite (s : State) (port q off : Nat) (v : Word) (set : Qp → Qp) : State :=
  if 4 ≤ port || 4096 ≤ q then s
  else
    match engWrite s port ((s.qp port q).dbva + BitVec.ofNat 64 off) (natLe 8 v.toNat) with
    | .ok u => if (s.qp port q).state == 0 then u else u.modQp port q set
    | .error (some _) => s
    | .error none => s.modQp port q fun x => { x with stores := x.stores ++ [(off, v)] }

/-- The oldest doorbell store that waits goes on. -/
def doorbellAgain (s : State) (port q : Nat) : State :=
  match (s.qp port q).stores with
  | [] => s
  | p :: r =>
    let t := s.modQp port q fun x => { x with stores := r }
    match engWrite t port ((s.qp port q).dbva + BitVec.ofNat 64 p.1) (natLe 8 p.2.toNat) with
    | .ok u => if (s.qp port q).state.toNat < 2 then u else readDoorbell u port q
    | .error (some _) => t
    | .error none => s

/-- SQDB (R436, R437). -/
def execSqdb (port q : Nat) (v : Word) (s : State) : Res :=
  .next (doorbellWrite s port q 0 (v.setWidth 16 |>.setWidth 64) fun x => { x with sqpi := (v.setWidth 16).toNat % 2 ^ x.sqlog.toNat })

/-- RQDB (R436, R437). -/
def execRqdb (port q : Nat) (v : Word) (s : State) : Res :=
  .next (doorbellWrite s port q 8 (v.setWidth 16 |>.setWidth 64) fun x => { x with rqpi := (v.setWidth 16).toNat % 2 ^ x.rqlog.toNat })

/-- CQDB (R436, R437). -/
def execCqdb (port q : Nat) (v : Word) (s : State) : Res :=
  .next (doorbellWrite s port q 16 (v.setWidth 20 |>.setWidth 64) fun x => { x with cqci := (v.setWidth 20).toNat % 2 ^ x.cqlog.toNat })

/-- DOORBELL_LINE_REREAD (R437): every 10 µs when the bridge has no free watch; a doorbell store that waits goes on with it. -/
def execDoorbellLineReread (port q : Nat) (s : State) : Res :=
  .next (
    let x := s.qp port q
    if port < 4 && !x.stores.isEmpty then doorbellAgain s port q
    else if 4 ≤ port || x.state.toNat < 2 || x.watched || (s.pace - x.lastRead).toNat < tickWatch then s else readDoorbell s port q)

/-- LINE_WATCH_FIRE (R393, R437): a write to a watched line executes the WAITM again, or makes the engine read the doorbell line. -/
def execLineWatchFire (idx : Nat) (s : State) : Res :=
  .next (
    match s.waits[idx]? with
    | none => s
    | some w =>
      if !w.fired then s
      else
        match w.qp with
        | none => waitAgain s w
        | some (port, q) => readDoorbell { s with waits := s.waits.set idx { w with fired := false } } port q)

/-! ### The state of a queue pair (R436) -/

/-- A queue pair enters RESET: indices, posted work and the watch are gone; the context fields stay (log 31). -/
def resetQp (s : State) (port q : Nat) : State :=
  (unwatch s port q).modQp port q fun x =>
    { x with state := 0, sqci := 0, rqci := 0, cqpi := 0, errcode := 0, sqpi := 0, rqpi := 0, cqci := 0, retries := 0, inflight := [],
             watched := false, notReady := none, unready := 0 }

/-- QP_STATE_WRITE (R436): RESET, INIT, RTR and RTS in that order; RESET and ERROR from any state; nothing else, and nothing while EEN = 0. -/
def execQpStateWrite (port q : Nat) (v : BitVec 3) (s : State) : Res :=
  .next (
    let x := s.qp port q
    if 4 ≤ port || 4096 ≤ q || !(s.ethPort port).en then s
    else if v == 0 then resetQp s port q
    else if v == 4 then s.modQp port q fun x => { x with state := 4 }
    else if v.toNat < 4 && v.toNat == x.state.toNat + 1 then
      let t := s.modQp port q fun x => { x with state := v, epsn := if v == 2 then x.rpsn else x.epsn, psn := if v == 3 then x.spsn else x.psn }
      if v == 2 then watchDoorbell t port q else t
    else s)

/-- ETHERNET_LINK_STATE (R434). -/
def execEthernetLinkState (port : Nat) (up : Bool) (s : State) : Res :=
  .next (if 4 ≤ port then s else s.modEth port fun e => { e with linkup := up && e.speed != 0 })

/-! ### Completions (R388, R437) -/

/-- The completion ring is full (R437). -/
def cqFull (x : Qp) : Bool := (x.cqpi + 1) % 2 ^ x.cqlog.toNat == x.cqci

/-- The record at CQPI (R388). -/
def cqRecord (idx : Nat) (status : Byte) (recv : Bool) (imm : Option (BitVec 32)) (moved : Nat) : List Byte :=
  natLe 4 idx ++ [status, (if recv then 1 else 0) + (if imm.isSome then 2 else 0), 0, 0] ++
    match imm with
    | none => natLe 8 moved
    | some v => natLe 4 moved ++ natLe 4 v.toNat

/-- An error moves the queue pair to ERROR; ERRCODE keeps the code that set it (R436, R437). -/
def qpError (s : State) (port q : Nat) (status : Byte) : State :=
  s.modQp port q fun x => if x.state == 4 then x else { x with state := 4, errcode := status }

/-- Write a completion record; a ring that cannot be written is an error of the queue pair. -/
def complete (s : State) (port q idx : Nat) (status : Byte) (recv : Bool) (imm : Option (BitVec 32)) (moved : Nat) : Option State :=
  let x := s.qp port q
  let wrote := match engWrite s port (x.cqbase + BitVec.ofNat 64 (16 * x.cqpi)) (cqRecord idx status recv imm moved) with
    | .error none => none
    | .error (some e) => some (qpError s port q e)
    | .ok u => some (u.modQp port q fun y => { y with cqpi := (y.cqpi + 1) % 2 ^ y.cqlog.toNat })
  wrote.map fun t => if status == 0 then t else qpError t port q status

/-! ### The send queue (R387) -/

/-- A send entry. -/
structure SendEntry where
  op : Nat
  flags : Nat
  len : Nat
  lva : Word
  raddr : Word
  rkey : W32
  imm : W32
  ok : Bool
  deriving DecidableEq, Repr

/-- The fields of a send entry; `ok` when it holds no reserved value. -/
def sendEntry (bs : List Byte) : SendEntry :=
  let op := leAt bs 0 1
  { op := op, flags := leAt bs 1 1, len := leAt bs 4 4, lva := leBv 64 (slice bs 8 8), raddr := leBv 64 (slice bs 16 8)
    rkey := leBv 32 (slice bs 24 4), imm := leBv 32 (slice bs 28 4)
    ok := op < 4 && leAt bs 1 1 < 4 && leAt bs 2 2 == 0 && leAt bs 4 4 ≤ 2 ^ 31 && leAt bs 32 32 == 0 }

/-- Note a send entry as started; one that has failed waits for its turn to complete, and sends nothing. -/
def started (s : State) (port q : Nat) (op : SendOp) : State :=
  s.modQp port q fun x =>
    { x with inflight := x.inflight ++ [op], sqci := (x.sqci + 1) % 2 ^ x.sqlog.toNat, since := if x.inflight.isEmpty then s.pace else x.since
             psn := if op.status == 0 then x.psn + BitVec.ofNat 24 op.packets else x.psn }

/-- Whether the engine may start a send entry: RTS, an entry posted, room for its completion, no failed entry ahead (R437). -/
def maySend (x : Qp) : Bool := x.state == 3 && x.sqci != x.sqpi && !cqFull x && x.inflight.all fun o => o.status == 0

/-- What an entry sends (R387): a READ takes as many sequence numbers as its answer has packets. -/
def sendOf (s : State) (port q : Nat) (e : SendEntry) (data : List Byte) : SendOp :=
  { idx := (s.qp port q).sqci, op := e.op, comp := e.flags % 2 == 1, len := e.len, lva := e.lva, raddr := e.raddr, rkey := e.rkey, imm := e.imm
    psn := (s.qp port q).psn, packets := packetsOf s port e.len, head := wireHead s port q, data := data, status := 0 }

/-- Start the entry at SQCI when its opcode is `want` (R387, R437). The opcodes that no event names complete with FORMAT under SEND. -/
def sendOp (s : State) (port q want : Nat) : State :=
  let x := s.qp port q
  if 4 ≤ port || !maySend x then s
  else
    let bad := fun (t : State) (e : SendEntry) (c : Byte) => started t port q { sendOf s port q e [] with comp := true, status := c }
    match engRead s port (x.sqbase + BitVec.ofNat 64 (64 * x.sqci)) 64 with
    | .error none => s
    | .error (some c) => bad s (sendEntry []) c
    | .ok (t, bs) =>
      let e := sendEntry bs
      if (if e.op < 4 then e.op else 0) ≠ want then s
      else if !e.ok then bad t e cFORMAT
      else if e.flags / 2 == 1 && x.inflight.any (fun o => o.op == 3) then s
      else if e.op == 3 then started t port q (sendOf s port q e [])
      else
        match engRead t port e.lva e.len with
        | .error none => s
        | .error (some c) => bad t e c
        | .ok (u, data) => started (u.count (ethDie port) 7 e.len) port q (sendOf s port q e data)

/-- ROCE_SEND (R387). -/
def execRoceSend (port q : Nat) (s : State) : Res := .next (sendOp s port q 0)
/-- ROCE_WRITE (R387). -/
def execRoceWrite (port q : Nat) (s : State) : Res := .next (sendOp s port q 1)
/-- ROCE_WRITE_IMM (R387). -/
def execRoceWriteImm (port q : Nat) (s : State) : Res := .next (sendOp s port q 2)
/-- ROCE_READ (R387). -/
def execRoceRead (port q : Nat) (s : State) : Res := .next (sendOp s port q 3)

/-- In ERROR, the oldest entry still posted completes with CAUSALGAP: those started, then the send queue, then the receive queue (R437). -/
def flushOne (s : State) (port q : Nat) : Option State :=
  let x := s.qp port q
  match x.inflight with
  | o :: r => complete (s.modQp port q fun y => { y with inflight := r }) port q o.idx cCAUSALGAP false none 0
  | [] =>
    if x.sqci != x.sqpi then complete (s.modQp port q fun y => { y with sqci := (y.sqci + 1) % 2 ^ y.sqlog.toNat }) port q x.sqci cCAUSALGAP false none 0
    else if x.rqci != x.rqpi then complete (s.modQp port q fun y => { y with rqci := (y.rqci + 1) % 2 ^ y.rqlog.toNat }) port q x.rqci cCAUSALGAP true none 0
    else some s

/-- The statuses that the remote side or the transport gives a send entry: success, a remote access error, a SEND longer than its receive
entry, the retries exhausted (R437). -/
def remoteStatus (c : Byte) : Bool := c == 0 || c == cPERMISSION || c == cFORMAT || c == cCAUSALGAP

/-- The receiver-not-ready timer of an answer in ticks, by its 5-bit code in units of 10 µs (R434: RoCEv2; PRESUMED, log 105). -/
def readyTicks (code : Nat) : Nat :=
  10000 * ([65536, 1, 2, 3, 4, 6, 8, 12, 16, 24, 32, 48, 64, 96, 128, 192, 256, 384, 512, 768, 1024, 1536, 2048, 3072, 4096, 6144, 8192, 12288,
    16384, 24576, 32768, 49152][code]?).getD 0

/-- The oldest started entry completes with a status; its own data, of a READ, lands first. -/
def completeOldest (s : State) (port q : Nat) (o : SendOp) (r : List SendOp) (c : Byte) (data : List Byte) : Option State :=
  let t := s.modQp port q fun y => { y with inflight := r, retries := 0, unready := 0, notReady := none, since := s.pace }
  let last := fun (u : State) (c : Byte) => if c == 0 && !o.comp then some u else complete u port q o.idx c false none (if c == 0 then o.len else 0)
  if c == 0 && o.op == 3 then
    if data.length ≠ o.len then none
    else
      match engWrite t port o.lva data with
      | .error none => none
      | .error (some e) => last t e
      | .ok u => last (u.count (ethDie port) 8 o.len) 0
  else last t c

/-- ROCE_COMPLETION (R388, R437): the oldest started entry completes with its own status or with that of the event; the data of a READ lands
first. In ERROR it flushes one entry. A status with bits 7:5 = 1 is the answer receiver-not-ready with its timer in bits 4:0, which
completes nothing (log 105). -/
def execRoceCompletion (port q : Nat) (status : Byte) (data : List Byte) (s : State) : Res :=
  .next (
    let x := s.qp port q
    if 4 ≤ port || cqFull x then s
    else if x.state == 4 then (flushOne s port q).getD s
    else
      match x.inflight with
      | [] => s
      | o :: r =>
        if o.status != 0 then (completeOldest s port q o r o.status data).getD s
        else if status.extractLsb' 5 3 == 1 then
          (if x.notReady.isSome then s
           else s.modQp port q fun y => { y with notReady := some (readyTicks (status.toNat % 32)), since := s.pace })
        else if remoteStatus status then (completeOldest s port q o r status data).getD s
        else s)

/-- The acknowledgement timeout of a queue pair in ticks (R436). -/
def ackTimeout (x : Qp) : Nat := 4096 * 2 ^ (x.retryCfg.extractLsb' 0 5).toNat

/-- ROCE_ACK_TIMEOUT (R436, R437): the acknowledgement timer, or the receiver-not-ready timer that runs instead, expires: the oldest entry
is retransmitted, or its retries are exhausted. -/
def execRoceAckTimeout (port q : Nat) (s : State) : Res :=
  .next (
    let x := s.qp port q
    match x.inflight with
    | [] => s
    | o :: r =>
      let limit := if x.notReady.isSome then (x.retryCfg.extractLsb' 12 3).toNat else (x.retryCfg.extractLsb' 8 3).toNat
      let tried := if x.notReady.isSome then x.unready else x.retries
      if 4 ≤ port || x.state != 3 || o.status != 0 || (s.pace - x.since).toNat < x.notReady.getD (ackTimeout x) then s
      else if tried < limit then
        (s.modQp port q fun y =>
          { y with retries := y.retries + (if y.notReady.isSome then 0 else 1), unready := y.unready + (if y.notReady.isSome then 1 else 0)
                   notReady := none, since := s.pace }).count (ethDie port) 9 1
      else s.modQp port q fun y => { y with inflight := { o with status := cCAUSALGAP } :: r })

/-! ### Incoming operations (R435, R437) -/

/-- A queue pair takes incoming operations: RTR or RTS, with the link up and room for a completion (R436, R437). -/
def mayReceive (s : State) (port q : Nat) : Bool :=
  let x := s.qp port q
  port < 4 && (x.state == 2 || x.state == 3) && (s.ethPort port).linkup && !cqFull x

/-- The memory key table lets an operation in (R435): the key, the access bit, the queue pair and the range. -/
def keyAllows (s : State) (port q : Nat) (key : BitVec 32) (bit : Nat) (addr : Word) (n : Nat) : Bool :=
  let e := s.ethPort port
  let i := (key.extractLsb' 8 24).toNat
  i < e.mkcount.toNat &&
    match readVa s e.ptroot (e.mkbase + BitVec.ofNat 64 (32 * i)) 32 with
    | .error _ => false
    | .ok bs =>
      let base := leAt bs 0 8
      let acc := leAt bs 16 1
      acc % 2 == 1 && acc / 2 ^ bit % 2 == 1 && leAt bs 17 1 == (key.extractLsb' 0 8).toNat && (leAt bs 20 4 == q || leAt bs 20 4 == 0xFFFFFFFF) &&
        base ≤ addr.toNat && addr.toNat + n ≤ base + leAt bs 8 8

/-- The read of a memory key table entry is an access of the engine too. -/
def keyRead (s : State) (port : Nat) (key : BitVec 32) : Option State :=
  let e := s.ethPort port
  let i := (key.extractLsb' 8 24).toNat
  if i < e.mkcount.toNat then engCross s port (e.mkbase + BitVec.ofNat 64 (32 * i)) 32 false else some s

/-- A receive entry (R437): LVA and LEN, or the status with which it completes. -/
def recvEntry (s : State) (port : Nat) (x : Qp) : Option (State × Except Byte (Word × Nat)) :=
  match engRead s port (x.rqbase + BitVec.ofNat 64 (16 * x.rqci)) 16 with
  | .error none => none
  | .error (some c) => some (s, .error c)
  | .ok (t, bs) => some (t, if leAt bs 12 4 == 0 then .ok (leBv 64 (slice bs 0 8), leAt bs 8 4) else .error cFORMAT)

/-- Consume the receive entry at RQCI with its completion record. -/
def consumeRecv (s : State) (port q : Nat) (status : Byte) (imm : Option (BitVec 32)) (moved : Nat) : Option State :=
  let x := s.qp port q
  complete (s.modQp port q fun y => { y with rqci := (y.rqci + 1) % 2 ^ y.rqlog.toNat }) port q x.rqci status true imm moved

/-- The effect of an incoming SEND on its receive entry. -/
def landSend (s : State) (port q : Nat) (e : Except Byte (Word × Nat)) (data : List Byte) : Option State :=
  let refuse := fun (c : Byte) => (consumeRecv s port q c none 0).map fun t => answer t port q .refused data.length []
  match e with
  | .error c => refuse c
  | .ok (lva, len) =>
    if len < data.length then refuse cFORMAT
    else
      match engWrite s port lva data with
      | .error none => none
      | .error (some c) => refuse c
      | .ok t => (consumeRecv (t.count (ethDie port) 8 data.length) port q 0 none data.length).map fun u => answer u port q .ack data.length []

/-- INCOMING_SEND (R437): without a posted entry the answer is receiver-not-ready. -/
def execIncomingSend (port q : Nat) (data : List Byte) (s : State) : Res :=
  .next (
    let x := s.qp port q
    if !mayReceive s port q then s
    else if x.rqci == x.rqpi then answer s port q .notReady data.length []
    else ((recvEntry s port x).bind fun r => landSend r.1 port q r.2 data).getD s)

/-- The receive entry that an incoming WRITE with immediate data consumes, without data (R437). -/
def landImmediate (s : State) (port q : Nat) (v : BitVec 32) (n : Nat) : Option State :=
  (recvEntry s port (s.qp port q)).bind fun r =>
    match r.2 with
    | .error c => consumeRecv r.1 port q c (some v) n
    | .ok _ => consumeRecv r.1 port q 0 (some v) n

/-- The effect of an incoming RDMA WRITE that its memory key allows. -/
def landWrite (s : State) (port q : Nat) (addr : Word) (data : List Byte) (imm : Option (BitVec 32)) : Option State :=
  match engWrite s port addr data with
  | .error none => none
  | .error (some _) => some (answer s port q .refused data.length [])
  | .ok t =>
    let u := t.count (ethDie port) 8 data.length
    (match imm with
     | none => some u
     | some v => landImmediate u port q v data.length).map fun w => answer w port q .ack data.length []

/-- INCOMING_RDMA_WRITE (R435, R437): refused by the key table, it writes nothing; with immediate data it consumes a receive entry. -/
def execIncomingRdmaWrite (port q : Nat) (key : BitVec 32) (addr : Word) (data : List Byte) (imm : Option (BitVec 32)) (s : State) : Res :=
  .next (
    let x := s.qp port q
    if !mayReceive s port q then s
    else if imm.isSome && x.rqci == x.rqpi then answer s port q .notReady data.length []
    else
      ((keyRead s port key).bind fun t =>
        if keyAllows s port q key 2 addr data.length then landWrite t port q addr data imm
        else some (answer t port q .accessError data.length [])).getD s)

/-- INCOMING_RDMA_READ (R435): the bytes leave the port when the key table allows it. -/
def execIncomingRdmaRead (port q : Nat) (key : BitVec 32) (addr : Word) (len : Nat) (s : State) : Res :=
  .next (
    if !mayReceive s port q then s
    else
      ((keyRead s port key).bind fun t =>
        if !keyAllows s port q key 1 addr len then some (answer t port q .accessError len [])
        else
          match engRead t port addr len with
          | .error none => none
          | .error (some _) => some (answer t port q .refused len [])
          | .ok (u, data) => some (answer (u.count (ethDie port) 7 len) port q .readData len data)).getD s)

end Sys2Proof.Machine
end

