-- ==== Sys2Proof/Machine/Lanot.lean ====
section
/-!
DEFINITION. Packets at the dies (R257 to R264, R273): decoding in stream order, the early buffer, delivery under the causal clock,
acknowledgement and retransmission; the flits on the links and what becomes of them when a link dies (R265 to R270); removal of a die,
resynchronisation (R272 to R275) and its rejoining (R442).
-/

namespace Sys2Proof.Machine

/-! ### Clock matrices (R254, R257, R258) -/

/-- The entries of the matrix of an incoming stream after a packet's increments (R257). -/
def decodedMatrix (d : Die) (st : Nat) (p : Packet) : Tbl W32 :=
  (List.range 36).map fun i =>
    (i, tget 0 d.rmat (36 * st + i) + BitVec.ofNat 32 (((p.incs ++ p.ext).filter fun x => 6 * x.1 + x.2.1 == i).map fun x => x.2.2).sum)

/-- A decoded packet carries the entries of its matrix in `incs`. -/
def withMatrix (p : Packet) (m : Tbl W32) : Packet :=
  { p with incs := (m.filter fun e => e.2 != 0).map fun e => (e.1 / 6, e.1 % 6, e.2.toNat), ext := [] }

/-- Entry (k, j) of the matrix of a decoded packet. -/
def matrixAt (p : Packet) (k j : Nat) : Nat := ((p.incs.find? fun x => x.1 == k && x.2.1 == j).map fun x => x.2.2).getD 0

/-! ### Acknowledgement (R263) -/

/-- The SEQ after the highest one of a stream such that it and all before it have been decoded or admitted: "the highest such SEQ" of R263 is read as the
highest with no gap before it (DEDUCED, log 64). -/
def ackSeq (d : Die) (src st : Nat) : Nat → Nat → Nat
  | 0, n => n
  | fuel + 1, n =>
    if d.early.any fun e => !e.decoded && e.pkt.src == src && e.pkt.stream src == st && e.pkt.seq.toNat == n % 65536 then ackSeq d src st fuel (n + 1)
    else n

/-- A packet that belongs to no stream: ACK, NACK (R250). -/
def sideSend (s : State) (die dst : Nat) (t : Byte) (addr : Nat) : State :=
  sendPacket s die { Packet.init with ptype := t, src := die, dst := dst, gen := (s.die die).gen, addr := BitVec.ofNat 64 addr }

/-- Send an ACK for a stream (R263). -/
def sendAck (s : State) (die st : Nat) : State :=
  let d := s.die die
  let n := ackSeq d (st / 4) st 1024 (tget 0 d.recvSeq st) + 65535
  sideSend (s.modDie die fun d => { d with ackCount := tset 0 d.ackCount st 0, lastAck := tset 0 d.lastAck st 0 }) die (st / 4) pACK
    (n % 65536 + 65536 * (st % 4))

/-- One more packet of a stream to acknowledge: at 64 the ACK leaves (R263). `lastAck` is one more than the time of the oldest. -/
def noteAck (s : State) (die st : Nat) : State :=
  let t := s.modDie die fun d =>
    { d with ackCount := tmod 0 d.ackCount st (· + 1), lastAck := if tget 0 d.lastAck st = 0 then tset 0 d.lastAck st (s.pace.toNat + 1) else d.lastAck }
  if 64 ≤ tget 0 (t.die die).ackCount st then sendAck t die st else t

/-- ACK_TIMER (R263): 200 ns after the oldest packet not yet acknowledged. -/
def execAckTimer (die stream : Nat) (s : State) : Res :=
  .next (
    let t := tget 0 (s.die die).lastAck stream
    if t = 0 ∨ s.pace.toNat < t - 1 + 200 then s else sendAck s die stream)

/-! ### The early buffer (R261, R262) -/

/-- Entries of a kind that hold packets of a source: place 1 reserved, 2 shared, 3 the entry kept for the head. -/
def placesUsed (d : Die) (place : Nat) (src : Nat) : Nat :=
  (d.early.filter fun e => e.place == place && (place == 2 || e.pkt.src == src)).length

/-- The place that a packet takes, if one is free (R261). -/
def choosePlace (d : Die) (src : Nat) (head : Bool) : Option Nat :=
  if placesUsed d 1 src < 127 then some 1
  else if placesUsed d 2 src < 384 then some 2
  else if head && placesUsed d 3 src = 0 then some 3
  else none

/-- Put a packet into the early buffer; place 0 is a packet on its way through, which needs no entry. -/
def putEarly (s : State) (die : Nat) (p : Packet) (place : Nat) (decoded : Bool) : State :=
  let t := s.modDie die fun d => { d with early := d.early ++ [{ pkt := p, place := place, decoded := decoded }] }
  if place = 0 then t else t.count die 12 1

/-- Refuse a packet (R262): a NACK names its SEQ, and later packets of the stream are refused until it comes again. -/
def refusePacket (s : State) (die : Nat) (p : Packet) : State :=
  let st := p.stream p.src
  (sideSend (s.modDie die fun d => { d with refused := tset 0 d.refused st (p.seq.toNat + 1) }) die p.src pNACK
    (p.seq.toNat + 65536 * (st % 4))).count die 13 1

/-- The refusals that stand when a packet has been taken in: the one of its own SEQ is over (R262). -/
def cameAgain (d : Die) (st : Nat) (p : Packet) : Tbl Nat :=
  if tget 0 d.refused st = p.seq.toNat + 1 then tset 0 d.refused st 0 else d.refused

/-- Whether a packet of a stream comes after one that has been refused and has not come again (R262, log 86). -/
def afterRefused (d : Die) (st : Nat) (p : Packet) : Bool :=
  let r := tget 0 d.refused st
  let n := (p.seq.toNat + 65537 - r) % 65536
  r != 0 && n != 0 && Nat.ble n 32767

/-- Decode the next packet of a stream: its increments are applied, and it waits for delivery (R257). -/
def acceptDecoded (s : State) (die : Nat) (p : Packet) (m : Tbl W32) (place : Option Nat) : State :=
  let st := p.stream p.src
  let t := s.modDie die fun d =>
    { d with rmat := setStreamMatrix d.rmat st m, recvSeq := tset 0 d.recvSeq st ((p.seq.toNat + 1) % 65536), refused := cameAgain d st p }
  let u := match place with
    | none => t
    | some n => putEarly t die (withMatrix p m) n true
  noteAck u die st

/-- A decoded packet has writes of a removed die in its past that have not come and never will: it is dropped, as R272 drops those that wait (log 112). -/
def pastLost (s : State) (die : Nat) (p : Packet) : Bool :=
  ordered p.ptype && (List.range 6).any fun r => (s.die r).removed && Nat.blt (tget 0 (s.die die).d r).toNat (matrixAt p r die)

/-- The next packet of a stream has arrived (R257, R261). -/
def decodeNext (s : State) (die : Nat) (p : Packet) : State :=
  let d := s.die die
  let m := decodedMatrix d (p.stream p.src) p
  if p.ptype == pCLK then acceptDecoded s die p m none
  else
    let q := withMatrix p m
    if pastLost s die q then dropPacket (acceptDecoded s die p m none) die q
    else if mayDeliver s die q then acceptDecoded s die p m (some 0)
    else
      match choosePlace d p.src (!counted p.ptype || matrixAt q p.src die == (tget 0 d.d p.src).toNat) with
      | some n => acceptDecoded s die p m (some n)
      | none => refusePacket s die p

/-- A response of a home die to the requester of an access (R250, R259). -/
def respond (s : State) (die : Nat) (t : Byte) (a : Nat) (dst : Nat) (tag origin : BitVec 16) (op : Byte) (v : List Byte) : State :=
  stampPacket s die { Packet.init with ptype := t, dst := dst, npay := payFlits v.length, tag := tag, op := op, origin := origin, acc := a, len := v.length, data := v }

/-- A duplicate (R264): a RD is performed again, unless the first copy still waits for delivery and will be performed with everything in its causal
past (R259); an AT is answered from the reply cache, anything else discarded. It is acknowledged again. -/
def duplicate (s : State) (die : Nat) (p : Packet) : State :=
  let t := noteAck s die (p.stream p.src)
  if p.ptype == pRD then
    if (s.die die).early.any fun e => e.pkt.acc == p.acc && e.pkt.src == p.src && e.pkt.ptype == pRD then t
    else
      match t.accs.find? fun a => a.id == p.acc && a.kind == .read && a.phase != .returned with
      | none => t
      | some a =>
        let (u, v, c) := homeEffect (if a.host then flushHost t else t) a
        respond u die (if c == 0 then pRDR else pERR) a.id p.src p.tag p.origin c v
  else if p.ptype == pAT then
    match (t.die die).replies.find? fun r => r.src == p.src && r.seq == p.seq && r.express == p.express with
    | none => t
    | some r => respond t die pATR r.acc p.src p.tag p.origin 0 r.value
  else t

/-- A complete packet of a stream at its destination (R257, R261, R262, R264). -/
def decodeArrived (s : State) (die : Nat) (p : Packet) : State :=
  let d := s.die die
  let st := p.stream p.src
  let ahead := (p.seq.toNat + 65536 - tget 0 d.recvSeq st) % 65536
  if ahead = 0 then decodeNext s die p
  else if 32768 ≤ ahead then duplicate s die p
  else if afterRefused d st p || d.early.any fun e => !e.decoded && e.pkt.src == p.src && e.pkt.stream p.src == st && e.pkt.seq == p.seq then s
  else
    match choosePlace d p.src false with
    | some n => noteAck (putEarly (s.modDie die fun d => { d with refused := cameAgain d st p }) die p n false) die st
    | none => refusePacket s die p

/-- A discarded packet of another GEN is counted (R275). -/
def genDiscard (s : State) : State :=
  { s with regs := { s.regs with gendisc := if s.regs.gendisc == 0xFFFFFFFF then s.regs.gendisc else s.regs.gendisc + 1 } }

/-- Take a packet out of those that have arrived, unless its source is removed or its GEN is another (R272, R275). A removed die takes in
nothing. -/
def takeArrived (s : State) (die idx : Nat) (p : Packet) (f : State → State) : State :=
  let t := s.modDie die fun d => { d with arrived := d.arrived.eraseIdx idx }
  if (s.die p.src).removed || (s.die die).removed then t else if p.gen != (s.die die).gen then genDiscard t else f t

/-- PACKET_DECODE (R257): packet `idx` of those that have arrived, or after them of the early buffer, where an undecoded packet waits
for its turn. -/
def execPacketDecode (die idx : Nat) (s : State) : Res :=
  .next (
    let d := s.die die
    match d.arrived[idx]? with
    | some p => if streamed p.ptype then takeArrived s die idx p fun t => decodeArrived t die p else s
    | none =>
      match d.early[idx - d.arrived.length]? with
      | none => s
      | some e =>
        if d.removed || e.decoded || e.pkt.seq.toNat != tget 0 d.recvSeq (e.pkt.stream e.pkt.src) then s
        else
          let st := e.pkt.stream e.pkt.src
          let m := decodedMatrix d st e.pkt
          let i := idx - d.arrived.length
          let q := withMatrix e.pkt m
          let lost := pastLost s die q
          let t := s.modDie die fun d =>
            { d with
              rmat := setStreamMatrix d.rmat st m, recvSeq := tset 0 d.recvSeq st ((e.pkt.seq.toNat + 1) % 65536)
              early := if e.pkt.ptype == pCLK || lost then d.early.eraseIdx i else d.early.set i { e with pkt := q, decoded := true } }
          if lost then dropPacket t die q else t)

/-! ### Delivery (R258, R259) -/

/-- An atomic's reply is saved: the last 64 of each source (R264, R302). -/
def saveReply (s : State) (die : Nat) (p : Packet) (v : List Byte) : State :=
  s.modDie die fun d =>
    let mine := d.replies.filter fun r => r.src == p.src
    let kept := if mine.length < 64 then d.replies else dropFirst (fun r => r.src == p.src) d.replies
    { d with replies := kept ++ [{ src := p.src, seq := p.seq, express := p.express, acc := p.acc, value := v }] }

/-- A request is performed at its home, and answered (R250, R259, R301, R302). -/
def deliverRequest (s : State) (die : Nat) (p : Packet) : State :=
  match s.accs.find? fun a => a.id == p.acc with
  | none => s
  | some a =>
    if p.ptype == pWR || p.ptype == pRED then performAccess s a .returned
    else
      let (t, v, c) := homeEffect (if a.host then flushHost s else s) a
      let u := settle t a .performed v c
      if c != 0 then respond u die pERR a.id p.src p.tag p.origin c []
      else if p.ptype == pAT then respond (saveReply u die p v) die pATR a.id p.src p.tag p.origin 0 v
      else respond u die pRDR a.id p.src p.tag p.origin 0 v

/-- A response reaches the requester; one for an access that has been answered is discarded (R264). -/
def deliverResponse (s : State) (p : Packet) : State :=
  match s.accs.find? fun a => a.id == p.acc && a.phase != .returned with
  | none => s
  | some a => settle s a .returned p.data 0

/-- A BARA at a square or at the die of a waiter (R306, R308). -/
def deliverBara (s : State) (die : Nat) (p : Packet) : State :=
  let n := leNat p.data
  let op := p.op.toNat
  let w := tagWaiter p.tag
  { s with barMsgs := s.barMsgs ++ [{ op := op, square := p.square, die := if op == 0 || op == 2 then p.src else die, core := w.1, chan := w.2,
                                      n := if op == 2 then 1 else n, ok := op == 3 && n == 0, after := 0 }] }

/-- A CTL packet (R286, R290, R291): a fence probe is answered, a command has reached its executor, or a completion word its core; `ctlMeet` has no
further effect than its delivery. -/
def deliverCtl (s : State) (die : Nat) (p : Packet) : State :=
  if p.op == 0xF0 then stampPacket s die { Packet.init with ptype := pCTL, dst := p.src, op := 0xF1, tag := p.tag, origin := p.origin }
  else if p.op == ctlCommand then
    match ctlTarget s p.src p with
    | none => s
    | some (c, x) => if x.ctl == .sent then modCmd s c x.id fun y => { y with ctl := .arrived } else s
  else if p.op == ctlDone then
    match ctlTarget s die p with
    | none => s
    | some (c, x) => finishCmd s c x.id (p.data.headD 0) (leBv 32 (slice p.data 4 4))
  else s

/-- Hand a packet to its executor. -/
def handOn (s : State) (die : Nat) (p : Packet) : State :=
  if p.ptype == pRDR || p.ptype == pATR then deliverResponse s p
  else if p.ptype == pBARA then deliverBara s die p
  else if p.ptype == pCTL then deliverCtl s die p
  else deliverRequest s die p

/-- A request finds a slot at the bridge of its home (R237); any other packet needs none. -/
def bridgeFree (s : State) (p : Packet) : Bool := !(p.ptype == pWR || p.ptype == pRD || p.ptype == pAT || p.ptype == pRED) || bridgeRoom s p

/-- Deliver the entry `idx` of the early buffer when it is the oldest that may be delivered (R258); the count of writes from a removed die
is sealed (R272). A count that reaches 2^31 requests a RESYNC (R260). -/
def deliverAt (s : State) (die idx : Nat) (sel : Packet → Bool) (f : State → Packet → State) : State :=
  let d := s.die die
  match d.early[idx]? with
  | none => s
  | some e =>
    let ready := fun (x : Early) => x.decoded && mayDeliver s die x.pkt && bridgeFree s x.pkt
    if d.removed || !ready e || !sel e.pkt || (d.early.take idx).any ready then s
    else
      let t := s.modDie die fun d => clockDeliver { d with early := d.early.eraseIdx idx } die (s.die e.pkt.src).removed e.pkt
      f (checkCount t die) e.pkt

/-- PACKET_DELIVER (R258). -/
def execPacketDeliver (die idx : Nat) (s : State) : Res :=
  .next (stampReady (deliverAt s die idx (fun p => p.ptype != pERR && !(p.ptype == pCTL && p.op == 0xF1)) fun t p => handOn t die p))

/-- FENCE_PROBE_ANSWER (R286): the answer of a home die reaches the sequencer or engine whose FENCE or SYSTEM release waits. -/
def execFenceProbeAnswer (die idx : Nat) (s : State) : Res :=
  .next (stampReady (deliverAt s die idx (fun p => p.ptype == pCTL && p.op == 0xF1) fun t p =>
    if 512 ≤ p.tag.toNat then t.modEngine (p.tag.toNat - 512) fun g => { g with probes := g.probes.erase p.src }
    else t.modCore p.tag.toNat fun k => { k with probes := k.probes.erase p.src }))

/-- ERR (R273): a failed read or atomic completes at the requester with its code. -/
def execErr (die idx : Nat) (s : State) : Res :=
  .next (deliverAt s die idx (fun p => p.ptype == pERR) fun t p =>
    match t.accs.find? fun a => a.id == p.acc && a.phase != .returned with
    | none => t
    | some a => settle t a .returned [] p.op)

/-! ### Acknowledgements at the source (R262, R263) -/

/-- The stream, at its source, that an ACK or NACK names. -/
def namedStream (p : Packet) : Nat := 4 * p.src + (p.addr.extractLsb' 16 2).toNat

/-- The SEQ that an ACK or NACK names. -/
abbrev namedSeq (p : Packet) : Nat := (p.addr.extractLsb' 0 16).toNat

/-- Whether a packet stands at or before a SEQ in its stream. -/
def upTo (p : Packet) (n : Nat) : Bool := (n + 65536 - p.seq.toNat) % 65536 < 32768

/-- ACK (R263): packets up to the SEQ leave the retry store, and what waited for room may be stamped. -/
def execAck (die idx : Nat) (s : State) : Res :=
  .next (
    match (s.die die).arrived[idx]? with
    | none => s
    | some p =>
      if p.ptype != pACK then s
      else takeArrived s die idx p fun t =>
        stampReady (t.modDie die fun d =>
          { d with retry := d.retry.filter fun x => !(x.stream x.dst == namedStream p && upTo x (namedSeq p)), ackTime := tset 0 d.ackTime (namedStream p) s.pace.toNat }))

/-- NACK (R262): the source waits 256 ticks before it retransmits, and twice as long for each further refusal of the same SEQ, up to
4,096. The table holds 8192 * (SEQ + 1) + wait. -/
def execNack (die idx : Nat) (s : State) : Res :=
  .next (
    match (s.die die).arrived[idx]? with
    | none => s
    | some p =>
      if p.ptype != pNACK then s
      else takeArrived s die idx p fun t => t.modDie die fun d =>
        let st := namedStream p
        let old := tget 0 d.nackWait st
        let wait := if old / 8192 == namedSeq p + 1 then min 4096 (2 * (old % 8192)) else 256
        { d with nackWait := tset 0 d.nackWait st (8192 * (namedSeq p + 1) + wait), nackTime := tset 0 d.nackTime st (s.pace.toNat + 1) })

/-- Send the packets of a stream again, in order, from those that satisfy `p` (R262, R263). -/
def resend (s : State) (die st : Nat) (p : Packet → Bool) : State :=
  ((s.die die).retry.filter fun x => x.stream x.dst == st && p x).foldl (fun t x => (sendPacket t die x).count die 14 1) s

/-- NACK_BACKOFF_EXPIRY (R262). -/
def execNackBackoffExpiry (die stream : Nat) (s : State) : Res :=
  .next (
    let d := s.die die
    let t := tget 0 d.nackTime stream
    let w := tget 0 d.nackWait stream
    if t = 0 ∨ s.pace.toNat < t - 1 + w % 8192 then s
    else
      let n := w / 8192 - 1
      resend (s.modDie die fun d => { d with nackTime := tset 0 d.nackTime stream 0 }) die stream fun x => x.seq.toNat == n || !upTo x n)

/-- RETRANSMIT_TIMEOUT (R263): 20 µs without an ACK. -/
def execRetransmitTimeout (die stream : Nat) (s : State) : Res :=
  .next (
    let d := s.die die
    if !(d.retry.any fun x => x.stream x.dst == stream) || s.pace.toNat < tget 0 d.ackTime stream + 20000 then s
    else resend (s.modDie die fun d => { d with ackTime := tset 0 d.ackTime stream s.pace.toNat }) die stream fun _ => true)

/-! ### Flits (R265 to R268) -/

/-- Flit slots of a channel at the receiver (R265). -/
def slotsOfVc (vc : Nat) : Nat := if vc < 2 then 64 else if vc < 4 then 16 else 4

/-- Whether the receiver has credited a channel with slots for every flit of a packet (R266). A freight packet of five flits on VC4, which has four
slots, starts when all four are free (R270 has such a packet arrive, log 94). -/
def creditFor (l : LinkPort) (v : Nat) (p : Packet) : Bool := min p.flits (slotsOfVc v) ≤ l.credits.getD v 0

/-- The first channel after `last`, in the order given, whose first packet has credit for all its flits (R266, R267). -/
def pickChannel (l : LinkPort) (vcs : List Nat) (last : Nat) : Option Nat :=
  let i := (vcs.idxOf last + 1) % max vcs.length 1
  (vcs.drop i ++ vcs.take i).find? fun v =>
    match tget [] l.queues v with
    | [] => false
    | p :: _ => creditFor l v p

/-- The next flit of an open packet; `n` flits of it have been sent. -/
def flitOf (p : Packet) (n vc : Nat) : Flit := { vc := vc, ack := 0, last := n + 1 == p.flits, head := n == 0, pkt := p }

/-- Put a flit of a packet on the wire and into the replay buffer (R269). -/
def sendFlit (l : LinkPort) (now : BitVec 64) (f : Flit) (freight : Bool) : LinkPort :=
  { l with wire := l.wire ++ [f], sent := l.sent ++ [f], since := if l.sent.isEmpty then now else l.since, hist := (freight :: l.hist).take 7 }

/-- Send a flit of the open express packet. -/
def sendExpress (l : LinkPort) (now : BitVec 64) (p : Packet) (n : Nat) : LinkPort :=
  { sendFlit l now (flitOf p n l.openXVc) false with openX := if n + 1 == p.flits then none else some (p, n + 1) }

/-- Send a flit of the open freight packet. -/
def sendFreight (l : LinkPort) (now : BitVec 64) (p : Packet) (n : Nat) : LinkPort :=
  { sendFlit l now (flitOf p n l.openFVc) true with openF := if n + 1 == p.flits then none else some (p, n + 1) }

/-- Start the first packet of a channel. -/
def openPacket (l : LinkPort) (v : Nat) : Option (LinkPort × Packet) :=
  match tget [] l.queues v with
  | [] => none
  | p :: r => some ({ l with queues := tset [] l.queues v r, credits := l.credits.set v (l.credits.getD v 0 - p.flits) }, p)

/-- A slot in which no flit of a packet is sent. -/
def emptySlot (l : LinkPort) : LinkPort := { l with hist := (false :: l.hist).take 7 }

/-- The slot of one flit boundary (R267): the first rule that applies. `owed` is the number of flits of the other direction that a pending
link-management flit acknowledges (R269); a full replay buffer of 512 flits sends nothing else. -/
def flitSlot (l : LinkPort) (now : BitVec 64) (owed : Nat) : LinkPort :=
  let freight := match l.openF with | some _ => none | none => pickChannel l [0, 1, 4] l.rrF
  let fpend := l.openF.isSome || freight.isSome
  let startF := fun (_ : Unit) =>
    match l.openF with
    | some (p, n) => sendFreight l now p n
    | none =>
      match freight.bind fun v => (openPacket l v).map fun x => (v, x) with
      | some (v, m, p) => sendFreight { m with rrF := v, openFVc := v } now p 0
      | none => emptySlot l
  if owed ≠ 0 then { l with wire := l.wire ++ [{ vc := 7, ack := owed, last := true, head := true, pkt := Packet.init }] }
  else if 512 ≤ l.sent.length then emptySlot l
  else
    match l.openX with
    | some (p, n) => sendExpress l now p n
    | none =>
      if fpend && l.hist.all fun b => !b then startF ()
      else
        match (pickChannel l [2, 3, 5] l.rrX).bind fun v => (openPacket l v).map fun x => (v, x) with
        | some (v, m, p) => sendExpress { m with rrX := v, openXVc := v } now p 0
        | none => startF ()

/-- The other direction of the link of a port. -/
def otherWay (port : Nat) : Nat := if port % 2 = 0 then port + 1 else port - 1

/-- FLIT_BOUNDARY (R267): one slot of a directed port. Counters 10 and 11 follow R439. A die in reset sends nothing (log 107). -/
def execFlitBoundary (port : Nat) (s : State) : Res :=
  let l := s.link port
  .next (
    if 16 ≤ port || l.dead || l.retraining || !(s.die (portFrom port)).live then s
    else
      let m := flitSlot l s.pace (s.link (otherWay port)).got
      let die := portFrom port
      let t := (s.modLink port fun _ => m).modLink (otherWay port) fun x => { x with got := 0 }
      let u := if m.wire.length > l.wire.length then t.count die 10 1 else t
      if l.openX.isNone && m.sent.length > l.sent.length && l.openF.isSome && m.openF == l.openF then u.count die 11 1 else u)

/-- Whether a packet is malformed (R252). -/
def malformed (p : Packet) : Bool :=
  p.malformed || p.ptype == 0 || 0x0F < p.ptype.toNat || (!p.ext.isEmpty && p.ptype != pCLK) || (if p.express then 1 else 4) < p.npay ||
    (p.incs ++ p.ext).any fun x => x.1 == x.2.1 || 5 < x.1 || 5 < x.2.1 || x.2.2 == 0

/-- The packets that wait at a port, in queue order: a packet stays there until the receiver has acknowledged its last flit (R269). The manual gives no
order between the channels of a port: those sent come first, then the open freight and express packets, then VC 0, 1, 4, 2, 3, 5 (DESIGN CHOICE,
log 119). -/
def waitingAt (l : LinkPort) : List Packet :=
  ((l.sent.filter fun f => f.last).map fun f => f.pkt) ++ (l.openF.map (·.1)).toList ++ (l.openX.map (·.1)).toList ++
    [0, 1, 4, 2, 3, 5].flatMap fun v => tget [] l.queues v

/-- Declare a link dead (R269, R270): partial packets are discarded on both sides, and at each end the packets that wait for it move, in
their queue order, to the escape channels of the new path. A packet that has been moved before is dropped, and a RESYNC follows (R271). `die` is the
end that observes it (R438, log 121). -/
def killLink (s : State) (link : Nat) (cause die : Nat) : State :=
  let ports := [2 * link, 2 * link + 1]
  let s1 := ports.foldl (fun t p => t.modLink p fun l => { LinkPort.init with dead := true, bad := l.bad }) s
  let s2 := logRecord s1 3 die link (natLe 1 cause)
  ports.foldl (fun t p => (waitingAt (s.link p)).foldl (fun u k =>
    if k.detour then dropPacket (askResync u) (portFrom p) k else sendPacket u (portFrom p) { k with detour := true }) t) s2

/-- A complete packet leaves the link: it goes on to its next link, or has arrived (R248, R253). -/
def packetIn (s : State) (die : Nat) (p : Packet) : State :=
  if p.dst == die then s.modDie die fun d => { d with arrived := d.arrived ++ [p] }
  else
    match (nextHop s die p.dst).bind fun h => portBetween die h with
    | none => dropPacket (askResync s) die p
    | some _ => sendPacket s die p

/-- A malformed packet is discarded and logged and the link retrained; the third within 1 ms kills it (R252). -/
def badPacket (s : State) (port : Nat) (p : Packet) : State :=
  let link := port / 2
  let s1 := logRecord s 2 (portTo port) link (p.header.take 16)
  let s2 := [2 * link, 2 * link + 1].foldl (fun t q => t.modLink q fun l => { l with retraining := true }) s1
  let s3 := s2.modLink (2 * link) fun l => { l with bad := (l.bad.filter fun x => (s.pace - x).toNat < 1000000) ++ [s.pace] }
  if 3 ≤ (s3.link (2 * link)).bad.length then killLink s3 link 3 (portTo port) else s3

/-- An acknowledgement of `n` flits has come back to a port (R269). -/
def flitsAcked (l : LinkPort) (now : BitVec 64) (n : Nat) : LinkPort := { l with sent := l.sent.drop n, since := now }

/-- A good flit of a packet has arrived (R268): it opens or fills the reassembly slot of its channel, and is owed an acknowledgement (R269). -/
def flitIn (s : State) (port : Nat) (f : Flit) : State :=
  let l := s.link port
  let slot := tget [] l.reasm f.vc
  let s1 := s.modLink port fun l => { l with got := l.got + 1, reasm := tset [] l.reasm f.vc (slot ++ [f]) }
  let done := s1.modLink port fun l =>
    { l with reasm := tset [] l.reasm f.vc [], credits := l.credits.set f.vc (min (slotsOfVc f.vc) (l.credits.getD f.vc 0 + f.pkt.flits)) }
  if f.head && !slot.isEmpty then badPacket done port f.pkt
  else if !f.last then s1
  else if malformed f.pkt then badPacket done port f.pkt
  else packetIn done (portTo port) f.pkt

/-- The Market die that holds the active security processor, whose fabric controller runs the fabric (R271, R440).
A device reset runs no step 2, so the copy that took over goes on, although BOOTSTAT.FAILOVER is 0 after it (R4, R441; log 82). -/
def fabricDie (s : State) : Nat := if s.regs.secM1 then 5 else 4

/-- The fabric controller has a path to a die. -/
def connected (s : State) (die : Nat) : Bool := die == fabricDie s || (pathLength s (fabricDie s) die).isSome

/-! ### Removal (R271 to R273) -/

/-- The live dies. -/
def liveDies (s : State) : List Nat := below 6 fun d => !(s.die d).removed

/-- Drop packets (R273). -/
def dropAll (s : State) (die : Nat) (ps : List Packet) : State := ps.foldl (fun t p => dropPacket t die p) s

/-- What a live die does when a die is removed (R272, R273): D of it stays sealed; what has come from it and is not taken in is discarded, waiting
packets that need more of its writes are dropped, and so are packets bound for it. -/
def sealFor (s : State) (die d : Nat) : State :=
  let x := s.die d
  let lost := x.early.filter fun e => e.decoded && (tget 0 x.d die).toNat < matrixAt e.pkt die d
  let bound := (x.retry ++ x.unsent).filter fun p => p.dst == die
  let t := s.modDie d fun y =>
    { y with
      arrived := y.arrived.filter fun p => p.src != die
      early := y.early.filter fun e => !lost.contains e
      retry := y.retry.filter fun p => p.dst != die
      unsent := y.unsent.filter fun p => p.dst != die }
  dropAll t d (lost.map (·.pkt) ++ bound)

/-- Whether `n` bytes from a virtual address overlap the range of the invalidation in progress; INVPAGES = 0 means every translation. -/
def invCovers (i : Inval) (va n : Nat) : Bool := i.pages == 0 || (va < i.va.toNat + 4096 * i.pages.toNat && i.va.toNat < va + n)

/-- Walk a store that waits at the walker because of WB again (R244). -/
def rewalk (s : State) (p : Walk → Bool) : State :=
  { s with walks := s.walks.map fun w => if w.heldAt.isSome && p w then { w with heldAt := none } else w }

/-- A die that is removed leaves the acknowledgement set (R276). With the last one the invalidation completes: held walks of its range are walked
again, and held frames are due (R244). -/
def leaveInv (s : State) (die : Nat) : State :=
  let i := s.inval
  let left := i.left.erase die
  if !i.busy || !i.left.contains die then s
  else if left.isEmpty then
    { rewalk { s with inval := { Inval.init with n := i.n } } fun w => invCovers i (w.va.toNat / 4096 * 4096) 4096 with
      frames := s.frames.map fun f => { f with since := s.pace - 10000 } }
  else { s with inval := { i with left := left } }

/-- What stands inside a die is lost when the die enters reset (the example after R275), and its links fall silent (log 107). -/
def loseInside (s : State) (die : Nat) : State :=
  (List.range 16).foldl (fun t p =>
      if portFrom p == die then t.modLink p fun l => { LinkPort.init with dead := l.dead, retraining := l.retraining, bad := l.bad, wire := l.wire, reasm := l.reasm }
      else if portTo p == die then t.modLink p fun l => { l with got := 0, reasm := [] }
      else t)
    (s.modDie die fun d => { d with live := false, unsent := [], arrived := [], early := [], retry := [] })

/-- The die that observes a removal: that of the fabric controller, or the lowest other live die when it is itself removed (log 121). -/
def observer (s : State) (die : Nat) : Nat := if fabricDie s != die then fabricDie s else ((liveDies s).filter fun d => d != die).headD die

/-- Remove a die (R272, R273, R276): every live die seals its count; accesses that its home still owes complete with CAUSALGAP; its squares drop
their arrivals, and their waiters raise CAUSALGAP (R308); it leaves the set of an invalidation; its plots end with it; a RESYNC follows (R271). A
die that enters reset (cause 0) loses the packets inside it, and its cores start afresh, their caches empty (R276, R442). -/
def removeDie (s : State) (die : Nat) (cause : Nat) : State :=
  let s1 := logRecord (s.modDie die fun d => { d with removed := true, mayRejoin := false }) 6 (observer s die) die (natLe 1 cause)
  let s2 := askResync (leaveInv (if cause = 0 then loseInside s1 die else s1) die)
  let s3 := (liveDies s2).foldl (fun t d => sealFor t die d) s2
  let owed := s3.accs.filter fun a => a.remote && a.home s3 == die && agentDie a.agent != die && (a.phase == .stamped || a.phase == .performed)
  let s4 := (s3.waiters.filter fun w => w.square / 64 == die && w.die != die && !w.woken).foldl failWaiter
    { owed.foldl (fun t a => failAccess t a.id) s3 with
      squares := s3.squares.filter fun e => e.1 / 64 != die, barMsgs := s3.barMsgs.filter fun m => m.square / 64 != die }
  let s5 := (s4.plots.filter fun q => q.die == die && (q.live || q.state == .loading)).foldl (fun t q =>
    fatalEnd t q cCAUSALGAP (recordBytes t q.node cCAUSALGAP 4 1 0 q.p 0xFF 0 0 (cCAUSALGAP.setWidth 32) 0)) s4
  if cause = 0 then { s5 with cores := s5.cores.filter fun e => dieOf e.1 != die } else s5

/-- When a packet has been dropped, the fabric controller recomputes connectivity and removes every die to which it has no path (R271). -/
def connect (s : State) : State :=
  if !s.resync.req then s
  else (below 6 fun d => !(s.die d).removed && !connected s d).foldl (fun t d => if (t.die d).removed then t else removeDie t d 1) s

/-- DIE_REMOVAL (R272): a die enters reset (cause 0), has no path to the fabric controller (1), or its clock unit or early buffer reports an
uncorrectable error (2, 3). -/
def execDieRemoval (die : Nat) (cause : BitVec 2) (s : State) : Res :=
  .next (
    if 6 ≤ die || (s.die die).removed || (cause == 1 && connected s die) then s
    else removeDie s die (min cause.toNat 2))

/-! ### Links that fail (R252, R269) -/

/-- FLIT_ARRIVAL (R268, R269): the oldest flit on the wire reaches the receiver. A corrupted flit is replayed, and the eighth replay in a row that
fails kills the link. A link-management flit is consumed and acknowledges flits of the other direction. A die in reset takes nothing in and
acknowledges nothing (log 107). -/
def execFlitArrival (port : Nat) (corrupt : Bool) (s : State) : Res :=
  let l := s.link port
  .next (
    match l.wire with
    | [] => s
    | f :: r =>
      if l.dead || l.retraining then s
      else if !(s.die (portTo port)).live then s.modLink port fun l => { l with wire := r }
      else if corrupt then
        (if 8 ≤ l.replays then connect (killLink s (port / 2) 0 (portTo port)) else s.modLink port fun l => { l with replays := l.replays + 1 })
      else
        let s1 := s.modLink port fun l => { l with wire := r, replays := 0 }
        if f.vc = 7 then s1.modLink (otherWay port) fun x => flitsAcked x s.pace f.ack
        else connect (flitIn s1 port f))

/-- LINK_RETRAINED (R252). -/
def execLinkRetrained (link : Nat) (s : State) : Res :=
  .next ([2 * link, 2 * link + 1].foldl (fun t q => t.modLink q fun l => { l with retraining := false }) s)

/-- Flits of a port have been outstanding without an acknowledgement for 10 µs (R269). -/
def ackOverdue (s : State) (port : Nat) : Bool := !(s.link port).sent.isEmpty && Nat.ble 10000 (s.pace - (s.link port).since).toNat

/-- LINK_DEAD (R269, R270): retraining has failed (1), or no flit has been acknowledged for 10 µs while flits are outstanding (2); the other two
causes arise at a flit's arrival. -/
def execLinkDead (link : Nat) (cause : BitVec 2) (s : State) : Res :=
  .next (
    if 8 ≤ link || (s.link (2 * link)).dead then s
    else if (cause == 1 && (s.link (2 * link)).retraining) || (cause == 2 && (ackOverdue s (2 * link) || ackOverdue s (2 * link + 1))) then
      connect (killLink s link cause.toNat (portFrom (if cause == 2 && !ackOverdue s (2 * link) then 2 * link + 1 else 2 * link)))
    else s)

/-! ### Resynchronisation (R274) -/

/-- A RESYNC packet: the phase in OP (R250). -/
def resyncPacket (s : State) (src dst phase : Nat) (data : List Byte) : Packet :=
  { Packet.init with ptype := pRESYNC, src := src, dst := dst, gen := (s.die src).gen, op := BitVec.ofNat 8 phase, npay := payFlits data.length, data := data,
                     len := data.length }

/-- The fabric controller tells every other live die of a phase. -/
def announce (s : State) (phase : Nat) : State :=
  let m := fabricDie s
  ((liveDies s).filter fun d => d != m).foldl (fun t d => sendPacket t m (resyncPacket t m d phase [])) s

/-- The first live die at which a RESYNC packet of a phase has arrived, with the packet and its place. -/
def findResync (s : State) (phase : Nat) : Option (Nat × Nat × Packet) :=
  (liveDies s).findSome? fun d =>
    ((s.die d).arrived.zipIdx.find? fun x => x.1.ptype == pRESYNC && x.1.op.toNat == phase).map fun x => (d, x.2, x.1)

/-- Take a RESYNC packet that has arrived. -/
def withResync (s : State) (phase : Nat) (f : State → Nat → Packet → State) : State :=
  match findResync s phase with
  | none => s
  | some (d, i, p) => takeArrived s d i p fun t => f t d p

/-- A die quiesces (R274 phase 1): it stops stamping. -/
def quiesce (s : State) (d : Nat) : State := s.modDie d fun x => { x with phase := 1, phaseStart := s.pace }

/-- Whether the controller starts a RESYNC: none is running, or one has overrun its 40 µs (log 81). -/
def mayStart (s : State) : Bool :=
  ((liveDies s).all fun d => (s.die d).phase == 0) || ((s.die (fabricDie s)).phase != 0 && Nat.ble 40000 (s.pace - (s.die (fabricDie s)).phaseStart).toNat)

/-- RESYNC_QUIESCE (R274 phase 1): the fabric controller starts a RESYNC, which a count (R260), a drop or a removal (R271, R272) has requested or which
firmware asks for; while one runs, a die takes the packet of phase 1. -/
def execResyncQuiesce (s : State) : Res :=
  .next (
    if mayStart s then announce (quiesce { s with resync := { s.resync with reports := [], cleared := [] } } (fabricDie s)) 1
    else withResync s 1 fun t d _ => quiesce t d)

/-- What a die reports in phase 2 (R274): D, and the counted packets stamped for each destination. The manual gives no layout: six D and then six counts,
of 4 bytes each (DESIGN CHOICE, log 116). -/
def resyncReport (d : Die) : List Byte :=
  ((List.range 6).flatMap fun k => natLe 4 (tget 0 d.d k).toNat) ++ ((List.range 6).flatMap fun k => natLe 4 (tget 0 d.stampCount k))

/-- A quiescing die has every packet acknowledged, or 20 µs have passed (R274 phase 1). -/
def settledDie (s : State) (d : Nat) : Bool :=
  (s.die d).phase == 1 && ((s.die d).retry.isEmpty || Nat.ble 20000 (s.pace - (s.die d).phaseStart).toNat)

/-- A die drops what is still unacknowledged (R273) and reports to the controller (R274 phase 2). -/
def reportDie (s : State) (d : Nat) : State :=
  let t := dropAll (s.modDie d fun x => { x with retry := [], phase := 2 }) d (s.die d).retry
  let bs := resyncReport (t.die d)
  if d == fabricDie s then { t with resync := { t.resync with reports := (d, bs) :: t.resync.reports } }
  else sendPacket t d (resyncPacket t d (fabricDie s) 2 bs)

/-- The controller has every live die's report. -/
def allReported (s : State) : Bool := (liveDies s).all fun d => (s.die d).phase == 2 && s.resync.reports.any fun r => r.1 == d

/-- The gaps that the reports show: for each ordered pair of live dies, what was stamped and not delivered (R274 phase 2). The
fabric controller, which compares them, observes them (log 121). -/
def logGaps (s : State) : State :=
  let ds := liveDies s
  let rep := fun (d : Nat) => ((s.resync.reports.find? fun r => r.1 == d).map (·.2)).getD []
  (ds.flatMap fun a => ds.map fun b => (a, b)).foldl (fun t p =>
    let n := leAt (rep p.1) (24 + 4 * p.2) 4
    let m := leAt (rep p.2) (4 * p.1) 4
    if m < n then logRecord t 5 (fabricDie s) 0 ([BitVec.ofNat 8 p.1, BitVec.ofNat 8 p.2, 0, 0] ++ natLe 4 (n - m)) else t) s

/-- RESYNC_EXCHANGE (R274 phases 1 and 2): a settled die reports; the controller takes a report; with the last one it logs the gaps and announces
phase 3. -/
def execResyncExchange (s : State) : Res :=
  .next (
    match (liveDies s).find? fun d => settledDie s d with
    | some d => reportDie s d
    | none =>
      if !(liveDies s).isEmpty && allReported s then announce (logGaps { s with resync := { s.resync with reports := [], cleared := [fabricDie s] } }) 3
      else withResync s 2 fun t _ p => { t with resync := { t.resync with reports := (p.src, p.data) :: t.resync.reports } })

/-- A die clears its clock state and drops its early buffer (R274 phase 3, R302). -/
def clearDie (s : State) (d : Nat) : State :=
  let lost := (s.die d).early.map (·.pkt)
  let t := s.modDie d fun x =>
    { x with
      phase := 3, gen := x.gen + 1, early := [], v := [], d := [], lmat := [], rmat := [], sendSeq := [], recvSeq := [], stampCount := []
      refused := [], nackWait := [], nackTime := [], ackCount := [], ackTime := [], lastAck := [], replies := [] }
  dropAll t d lost

/-- RESYNC_CLEAR (R274 phase 3): the controller clears once it has announced the phase; any other die clears when the packet reaches it, and says
so with a packet of its new GEN (OP 3), which the controller notes; the manual does not say how the controller learns it (DESIGN CHOICE, log 116). -/
def execResyncClear (s : State) : Res :=
  let m := fabricDie s
  .next (
    if (s.die m).phase == 2 && s.resync.cleared.contains m then clearDie s m
    else
      match findResync s 3 with
      | none => s
      | some (d, i, p) =>
        if d == m then takeArrived s d i p fun t => { t with resync := { t.resync with cleared := p.src :: t.resync.cleared } }
        else takeArrived s d i p fun t => let u := clearDie t d; sendPacket u d (resyncPacket u d m 3 []))

/-- The controller knows that every live die has cleared. -/
def allCleared (s : State) : Bool := (liveDies s).all fun d => (s.die d).phase == 3 && s.resync.cleared.contains d

/-- RESYNC_RESUME (R274 phase 4): the controller announces phase 4 when every die has cleared, and the RESYNC is complete: a die removed before may
rejoin (R442). A die starts stamping again when the packet reaches it. -/
def execResyncResume (s : State) : Res :=
  let m := fabricDie s
  .next (
    if !(liveDies s).isEmpty && allCleared s then
      let t := announce { s with resync := Resync.init } 4
      let u := (below 6 fun d => (t.die d).removed).foldl (fun u d => u.modDie d fun x => { x with mayRejoin := true }) t
      stampReady (logRecord (u.modDie m fun x => { x with phase := 0 }) 8 m 0 (natLe 1 (u.die m).gen.toNat))
    else stampReady (withResync s 4 fun t d _ => t.modDie d fun x => { x with phase := 0 }))

/-- The links of a die train when it leaves reset (R440 step 5); packets that wait for it at its neighbours stay (log 107). -/
def trainLinks (s : State) (die : Nat) : State :=
  (List.range 16).foldl (fun t p =>
    if portFrom p == die then t.modLink p fun _ => LinkPort.init
    else if portTo p == die then t.modLink p fun l => { LinkPort.init with queues := l.queues }
    else t) s

/-- DIE_REJOIN (R442): a die that was reset takes part again after the next RESYNC, with the GEN of the others. -/
def execDieRejoin (die : Nat) (s : State) : Res :=
  .next (
    if 6 ≤ die || !(s.die die).removed || !(s.die die).mayRejoin || (liveDies s).any fun d => (s.die d).phase != 0 then s
    else (if (s.die die).live then s else trainLinks s die).modDie die fun _ => { Die.init with gen := (s.die ((liveDies s).headD 0)).gen })

end Sys2Proof.Machine
end

