-- ==== Sys2Proof/Machine/Sync.lean ====
section
/-!
DEFINITION. Barrier squares (R305 to R308), translation invalidations (R244, R276, R432), the end of a page walk (R243) and the
performance of an access at its home (R281).
-/

namespace Sys2Proof.Machine

/-! ### Barrier squares (R305 to R308) -/

/-- Remove one entry of the barrier messages. -/
abbrev dropMsg (s : State) (idx : Nat) : State := { s with barMsgs := s.barMsgs.eraseIdx idx }

/-- Whether a message stands at its square: an arrival, or a withdrawal that has come there. -/
def atSquare (m : BarMsg) : Bool := m.op == 0 || (m.op == 2 && (m.n == 1 || (m.n == 0 && m.die == m.square / 64)))

/-- A square serves its messages in the order of their arrival (R306). -/
def squareTurn (s : State) (idx : Nat) (m : BarMsg) : Bool :=
  atSquare m && (s.barMsgs.take idx).all fun x => !(atSquare x && x.square == m.square)

/-- Messages of a square reach a die in the order in which the square sent them: releases and answers alike (R306, R308). -/
def dieTurn (s : State) (idx : Nat) (m : BarMsg) : Bool :=
  (s.barMsgs.take idx).all fun x => !((x.op == 1 || x.op == 3) && x.square == m.square && x.die == m.die)

/-- The answer of a square to a withdrawal or the refusal of an arrival (R306, R308). -/
def answerBar (s : State) (m : BarMsg) (n : Nat) (ok : Bool) : State := sendBar s (m.square / 64) m.die { m with op := 3, n := n, ok := ok }

/-- The releases of a phase that is complete: one to each die with arrivals (R306). -/
def releaseBar (s : State) (sq : Nat) (q : Square) : State :=
  (below 6 fun e => tget 0 q.cnt e != 0).foldl (fun t e =>
    sendBar t (sq / 64) e { op := 1, square := sq, die := e, core := 0, chan := 0, n := tget 0 q.cnt e, ok := true, after := 0 })
    (s.modSquare sq fun q => { q with gen := q.gen + 1, arr := 0, cnt := [], who := [], isOpen := false })

/-- SQUARE_ARRIVAL (R306). -/
def execSquareArrival (idx : Nat) (s : State) : Res :=
  .next (
    match s.barMsgs[idx]? with
    | none => s
    | some m =>
      if m.op != 0 || !squareTurn s idx m then s
      else
        let q := s.square m.square
        let n := BitVec.ofNat 16 m.n
        if q.isOpen && n != q.nexp then answerBar (dropMsg s idx) m 2 false
        else
          let t := (dropMsg s idx).modSquare m.square fun q =>
            { q with isOpen := true, nexp := n, arr := q.arr + 1, cnt := tmod 0 q.cnt m.die (· + 1), who := q.who ++ [(m.die, m.core, m.chan)] }
          if (t.square m.square).arr == n then releaseBar t m.square (t.square m.square) else t)

/-- Wake the `n` oldest waiters of a square on a die. -/
def wakeWaiters (square die : Nat) : Nat → List Waiter → List Waiter
  | _, [] => []
  | n, w :: r =>
    if n != 0 && w.square == square && w.die == die && !w.woken && !w.refused then { w with woken := true } :: wakeWaiters square die (n - 1) r
    else w :: wakeWaiters square die n r

/-- BARRIER_RELEASE (R306). -/
def execBarrierRelease (idx : Nat) (s : State) : Res :=
  .next (
    match s.barMsgs[idx]? with
    | none => s
    | some m => if m.op != 1 || !dieTurn s idx m then s else { dropMsg s idx with waiters := wakeWaiters m.square m.die m.n s.waiters })

/-- The arrival of the open phase that a withdrawal takes back: that of its waiter, or of any waiter of the core for a sweep (log 69). -/
def arrivalOf (q : Square) (m : BarMsg) : Option (Nat × Nat × Nat) :=
  if q.isOpen then q.who.find? fun x => x.1 == m.die && x.2.1 == m.core && (m.chan == 255 || x.2.2 == m.chan) else none

/-- BARRIER_WITHDRAW (R308): the die of the waiter sends it; at the square it takes the arrival out of the open phase, if it was counted there: the phase
of any other arrival has completed. A message with `n` = 2 has been sent and waits for its answer. -/
def execBarrierWithdraw (idx : Nat) (s : State) : Res :=
  .next (
    match s.barMsgs[idx]? with
    | none => s
    | some m =>
      if m.op != 2 || m.n == 2 then s
      else if !atSquare m then
        sendBar (if m.chan == 255 then dropMsg s idx else { s with barMsgs := s.barMsgs.set idx { m with n := 2 } }) m.die (m.square / 64) m
      else if !squareTurn s idx m then s
      else
        match arrivalOf (s.square m.square) m with
        | some x =>
          answerBar ((dropMsg s idx).modSquare m.square fun q =>
            { q with arr := q.arr - 1, cnt := tmod 0 q.cnt m.die (· - 1), who := q.who.erase x, isOpen := q.arr != 1 }) m 0 true
        | none => answerBar (dropMsg s idx) m 1 false)

/-- BARRIER_WITHDRAW_ANSWER (R306, R308): a withdrawn waiter is gone, a refused one raises ILLEGAL, a released one is woken by its
release. A sweep ignores the answer. -/
def execBarrierWithdrawAnswer (idx : Nat) (s : State) : Res :=
  .next (
    match s.barMsgs[idx]? with
    | none => s
    | some m =>
      if m.op != 3 || !dieTurn s idx m then s
      else if m.chan == 255 then dropMsg s idx
      else
        let mine := fun (w : Waiter) => w.square == m.square && w.core == m.core && w.chan == m.chan
        let t := dropMsg s idx
        let u := { t with barMsgs := t.barMsgs.filter fun x => !(x.op == 2 && x.n == 2 && x.square == m.square && x.core == m.core && x.chan == m.chan) }
        if m.ok then { u with waiters := dropFirst mine u.waiters }
        else if m.n == 2 then { u with waiters := mapFirst mine (fun w => { w with refused := true }) u.waiters }
        else u)

/-! ### Invalidation (R244, R276, R432) -/

/-- Whether a translation overlaps the range. -/
def invEntry (i : Inval) (e : TcEntry) : Bool := invCovers i (e.page * 2 ^ e.shift) (2 ^ e.shift)

/-- The INV packet of the invalidation in progress (R276, log 88): its number in TAG, its range in the data. -/
def invPacket (s : State) (dst : Nat) : Packet :=
  { Packet.init with ptype := pINV, src := s.inval.source, dst := dst, gen := (s.die s.inval.source).gen, tag := BitVec.ofNat 16 s.inval.n,
                     data := natLe 8 s.inval.va.toNat ++ natLe 4 s.inval.pages.toNat }

/-- Send an INV to a die; the source itself needs no packet. -/
def sendInv (s : State) (die : Nat) : State :=
  let t := { s with inval := { s.inval with sentAt := tset 0 s.inval.sentAt die (s.pace.toNat + 1) } }
  if die == s.inval.source then t else sendPacket t s.inval.source (invPacket t die)

/-- INVGO (R432): the invalidation starts, unless one is in progress. Its dies are the live ones, and each gets an INV (R276). The Market die with
the active security processor sends them (log 88). -/
def execInvgo (s : State) : Res :=
  .next (
    if s.inval.busy then s
    else
      let left := below 6 fun d => (s.die d).live && !(s.die d).removed
      left.foldl sendInv
        { s with inval := { n := s.inval.n + 1, source := fabricDie s, busy := true, va := s.regs.invva, pages := s.regs.invpages, dropped := [], waitFor := [],
                            sentAt := [], left := left } })

/-- An accepted atomic or reduction that has not left its sequencer is translated again when its entry is dropped: a page that has been remapped in the
meantime gives the new place, or a fault that its command reports in CODE (R298, log 45). -/
def translateAgain (s : State) (a : Access) : Access :=
  match a.agent, a.dest with
  | .seq c, .cmd _ _ =>
    match walkPage s (coreRoot s c) a.va true false with
    | .error f => { a with phase := .returned, code := f.1 }
    | .ok e =>
      if e.wb then a
      else if e.host && !(a.op == 0 || (a.kind == .atomic && (a.op == 9 || !a.cmp.isEmpty))) && !Config.cxlCache then { a with phase := .returned, code := cPERMISSION }
      else { a with host := e.host, addr := e.key a.va, pa := e.addr a.va, rw := e.rw, ac := e.ac, span := e.shift, remote := e.homeOf s a.va != dieOf c }
  | _, _ => a

/-- Whether an access was translated through a page that overlaps the range. -/
def invPage (r : Inval) (a : Access) : Bool := invCovers r (a.va.toNat / 2 ^ a.span * 2 ^ a.span) (2 ^ a.span)

/-- A die drops every translation that overlaps a range; the writes translated through them must reach their homes before it answers (R244). -/
def dropRange (s0 : State) (die : Nat) (r : Inval) : State :=
  let again := fun (a : Access) =>
    agentDie a.agent == die && (a.kind == .atomic || a.kind == .reduce) && a.phase == .issued && invPage r a
  let s := { s0 with accs := s0.accs.map fun a => if again a then translateAgain s0 a else a }
  let i := s.inval
  let mine := s.accs.filter fun a => agentDie a.agent == die && a.kind != .read && a.phase != .parked && !accPerformed a && invPage r a
  { s with
    cores := s.cores.map fun e =>
      (e.1, if dieOf e.1 == die then
              { e.2 with tcache := (e.2.tcache.map fun x => (x.1, x.2.filter fun t => !invEntry r t)).filter fun x => !x.2.isEmpty }
            else e.2)
    dies := tmod Die.init s.dies die fun d =>
      { d with wcache := d.wcache.filter fun e => !invCovers r (e.page * 2 ^ wcShift e.level) (2 ^ wcShift e.level) }
    inval := if r.n == i.n then
        { i with dropped := die :: i.dropped.erase die, waitFor := i.waitFor ++ (mine.map fun a => a.id).filter fun x => !i.waitFor.contains x }
      else i }

/-- The place of the first packet of a type from a die among those that have arrived at another. -/
def arrivedIdx (s : State) (die : Nat) (t : Byte) (src : Nat) : Option Nat :=
  firstIdx (fun p => p.ptype == t && p.src == src) (s.die die).arrived 0

/-- INV (R276): a die takes the INV that has reached it, or the source its own, and drops what overlaps the range. A repeated INV is harmless. -/
def execInv (die : Nat) (s : State) : Res :=
  let i := s.inval
  .next (
    if die == i.source then (if i.busy && i.left.contains die && !i.dropped.contains die then dropRange s die i else s)
    else
      match (List.range 6).findSome? fun src => arrivedIdx s die pINV src with
      | none => s
      | some idx =>
        match (s.die die).arrived[idx]? with
        | none => s
        | some p => takeArrived s die idx p fun t =>
            dropRange t die
              { Inval.init with
                n := if p.tag == BitVec.ofNat 16 i.n then i.n else i.n + 1
                source := p.src
                va := leBv 64 (slice p.data 0 8)
                pages := leBv 32 (slice p.data 8 4) })

/-- Whether the writes of a die that the invalidation waits for have been accepted by their homes. -/
def invSettled (s : State) (die : Nat) : Bool :=
  s.accs.all fun a => !s.inval.waitFor.contains a.id || agentDie a.agent != die || accPerformed a || a.phase == .accepted

/-- Try the held trap frames again (R244, R416). -/
def rewalkFrames (s : State) (p : HeldFrame → Bool) : State :=
  (s.frames.filter p).foldl (fun t f =>
    let u := { t with frames := t.frames.filter fun x => x.id != f.id }
    match u.plotOf f.core with
    | none => u
    | some q => hostwaitSeq u q f.core f.esc f.origin) s

/-- A die leaves the acknowledgement set; with the last one the invalidation completes, and held walks of its range are walked again (R244). -/
def ackInv (s : State) (die : Nat) : State :=
  let i := s.inval
  if !i.busy || !i.left.contains die then s
  else
    let left := i.left.erase die
    if left.isEmpty then
      rewalkFrames (rewalk { s with inval := { Inval.init with n := i.n } } fun w => invCovers i (w.va.toNat / 4096 * 4096) 4096) fun _ => true
    else { s with inval := { i with left := left } }

/-- INVACK (R276): the INVACK of a die has reached the source; or a die that has dropped its entries and whose writes have been accepted sends it. A
repeated INVACK finds the die gone, and one of an earlier invalidation another number. -/
def execInvack (die : Nat) (s : State) : Res :=
  let i := s.inval
  .next (
    match arrivedIdx s i.source pINVACK die with
    | some idx =>
      match (s.die i.source).arrived[idx]? with
      | none => s
      | some p => takeArrived s i.source idx p fun t => if p.tag == BitVec.ofNat 16 i.n then ackInv t die else t
    | none =>
      if !i.busy || !i.dropped.contains die || !invSettled s die then s
      else if die == i.source then ackInv { s with inval := { i with dropped := i.dropped.erase die } } die
      else
        sendPacket { s with inval := { i with dropped := i.dropped.erase die } } die
          { Packet.init with ptype := pINVACK, src := die, dst := i.source, gen := (s.die die).gen, tag := BitVec.ofNat 16 i.n })

/-- INV_RESEND_TIMER (R276): a die that has not answered within 10 µs of its INV gets it again. -/
def execInvResendTimer (die : Nat) (s : State) : Res :=
  .next (
    let i := s.inval
    if !i.busy || !i.left.contains die || die == i.source || s.pace.toNat < tget 0 i.sentAt die - 1 + 10000 then s
    else sendInv s die)

/-- WB_REWALK (R244): in any case every 10 µs. `walk` numbers a held walk or a held trap frame. -/
def execWbRewalk (walk : Nat) (s : State) : Res :=
  .next (rewalkFrames (rewalk s fun w => w.id == walk && match w.heldAt with | some t => Nat.ble 10000 (s.pace - t).toNat | none => false)
    fun f => f.id == walk && Nat.ble 10000 (s.pace - f.since).toNat)

/-! ### Walks and accesses -/

/-- Walks that a walker serves: 128 at once, further misses in arrival order (R243). -/
def walkServed (s : State) (w : Walk) : Bool :=
  ((s.walks.filter fun x => x.fault.isNone && dieOf x.core == dieOf w.core).take 128).any fun x => x.id == w.id

/-- PAGE_WALK_COMPLETE (R243, R244): the reads of the walk cross the fabric where an entry is homed on another die (R247); the translation enters the cache of its core; a store to a page with WB waits; a fault is kept for
the attempt that meets it, because a cache holds none. -/
def execPageWalkComplete (walk : Nat) (s : State) : Res :=
  .next (
    match s.walks.find? fun w => w.id == walk with
    | none => s
    | some w =>
      if w.fault.isSome || w.heldAt.isSome || !walkServed s w then s
      else
        match walkTraffic s (dieOf w.core) w.root w.va with
        | none => s
        | some (s1, lost) =>
          let (ans, u) := if lost then (.error (cCAUSALGAP, false), s1) else walkDie s1 (dieOf w.core) w.root w.va w.store w.fetch
          let keep := fun (f : Walk → Walk) => { u with walks := mapFirst (fun x => x.id == walk) f u.walks }
          match ans with
          | .error f => stampReady (resolveParked (keep fun x => { x with fault := some f }) w.core)
          | .ok e =>
            if w.store && e.wb then keep fun x => { x with heldAt := some s.pace }
            else
              let t : State := { u with walks := dropFirst (fun x => x.id == walk) u.walks }
              stampReady (resolveParked (t.modCore w.core fun k => tcTouch k e) w.core))

/-- ACCESS_PERFORMED (R281): an access of the home's own die is performed when its agent's order allows and its bridge has a slot for it (R237); a remote one leaves as a packet; a write that
a host port has accepted is completed by the host, after those accepted before it. -/
def execAccessPerformed (acc : Nat) (s : State) : Res :=
  .next (
    match s.accs.find? fun a => a.id == acc with
    | none => s
    | some a =>
      if a.phase == .accepted then (if s.hostPend.head? == some acc then stampReady (performNow s a .returned) else s)
      else if a.phase != .issued then s
      else
        let t := probeRelease s a
        if needsProbes t a || !mayGo t a || !(a.remote || bridgeTurn t a) then t
        else if a.remote then tryStamp t a
        else stampReady (performAccess t a .returned))

end Sys2Proof.Machine
end

