-- ==== Sys2Proof/Machine/Host.lean ====
section
/-!
DEFINITION. What the host does: reads, writes and atomics of device memory through a host port (R238, R284, R303, R430), and writes of the
registers of the device control space (BAR0) and of the debug window (BAR4) (R4, R430 to R436).
-/

namespace Sys2Proof.Machine

/-! ### Device memory (R430, R303) -/

/-- The HASH view as a translation: physical address `pa` stands for itself. -/
def hashEntry (pa : Nat) : TcEntry :=
  { root := 0, page := pa / 2 ^ 30, size := 3, pa := pa / 2 ^ 30 * 2 ^ 30, host := false, place := 2, homedie := 0, sa := false, wb := false,
    ac := false, rw := false, wr := true, nf := false }

/-- An access of a host port at a HASH-view address; writes are releases (R284), which names no scope (DEVICE, log 106), reads are acquires (R285). -/
def hostAccess (s : State) (port : Bool) (kind : AccKind) (pa n : Nat) (data : List Byte) : Access :=
  { mkAccess s (.host port) kind (hashEntry pa) (BitVec.ofNat 64 pa) n data .none with
    rel := kind == .write, acq := kind == .read, scope := if kind == .write then 2 else 0 }

/-- The size of BAR2 of a function as a power of two (R430): 512 GiB unless it has been resized. -/
abbrev bar2Log (s : State) (port : Bool) : Nat := tget 39 s.regs.bar2 port.toNat

/-- Whether a place of a port's windows is device memory for `n` bytes (R430, R431, R440): BAR2 at its size, or CXL.mem on a CXL link. -/
def hostWindow (s : State) (port : Bool) (a : HostPlace) (n : Nat) : Bool :=
  s.powered && n != 0 && a.off + n ≤ Config.deviceBytes &&
    match a.window with
    | .memory => a.off + n ≤ 2 ^ bar2Log s port
    | .cxl => Config.cxlCache
    | .control | .debug => false

/-- The Market die of a host port (R429). -/
abbrev hostPortDie (port : Bool) : Nat := if port then 5 else 4

/-- Issue the accesses of a host request, cut at 256 bytes; a host with back-invalidate caches what it reads through CXL.mem (R431). -/
def hostPieces (s : State) (port : Bool) (kind : AccKind) (a : HostPlace) (n : Nat) (data : List Byte) : State :=
  (cut256 a.off n (n / 256 + 2)).foldl (fun t p =>
    issueAccess t { hostAccess t port kind p.1 p.2 (if kind == .write then slice data (p.1 - a.off) p.2 else []) with
                    cached := a.window == .cxl && kind == .read && Config.backInvalidate }) s

/-- HOST_WRITE (R430, R284). -/
def execHostWrite (port : Bool) (a : HostPlace) (data : List Byte) (s : State) : Res :=
  .next (
    if !hostWindow s port a data.length then s
    else hostPieces (s.count (hostPortDie port) 5 data.length) port .write a data.length data)

/-- The new value of a host atomic: an operation of R296, or compare and swap for the codes that it leaves free. -/
def hostNew (op : BitVec 4) (n : Nat) (cmp old v : Word) : Nat := atomicWord op.toNat (8 * n) (if op.toNat < 10 then none else some cmp.toNat) old.toNat v.toNat

/-- A host port hands a value to the host. -/
def hostGives (s : State) (port : Bool) (addr : Nat) (v : List Byte) (code : Byte) (kind : HostKind) : State :=
  { s with hostOut := s.hostOut ++ [{ port := port, addr := addr, value := v, code := code, kind := kind }] }

/-- Every earlier access of a host port to a word has been performed, and no split atomic holds it in a tracker. -/
def hostSettled (s : State) (port : Bool) (key : Nat) : Bool :=
  (s.accs.all fun a => a.agent != .host port || accPerformed a || a.addr + a.len ≤ key / 32 * 32 || key / 32 * 32 + 32 ≤ a.addr) &&
    s.splits.all fun x => x.addr / 8 != key / 8

/-- SA of the page of a device address; 0 when the page named is none of the address (log 106). -/
def pageSa (s : State) (pa : Nat) (p : HostPage) : Bool :=
  match walkPage s p.root p.va false false with
  | .error _ => false
  | .ok e => !e.host && e.key p.va == hashKey pa && e.sa

/-- The split atomics that the tracker of a port holds. -/
abbrev tracked (s : State) (port : Bool) : Nat := (s.splits.filter fun x => x.port == port).length

/-- The read of a split host atomic, which the port's tracker of 64 entries keeps (R303). -/
def splitRead (s : State) (port : Bool) (pa n : Nat) : State :=
  let key := hashKey pa
  if !hostSettled s port key then s
  else if (s.die (keyDie key)).removed then hostGives s port pa [] cCAUSALGAP .data
  else
    match crossRead s (hostPortDie port) (keyDie key) n with
    | none => s
    | some t =>
      match homeRead t false key n with
      | (bs, 0) => { t with splits := t.splits ++ [{ port := port, addr := key, len := n, old := leBv 64 bs }] }
      | (bs, c) => hostGives t port pa bs c .data

/-- The write of a split host atomic (R303). -/
def splitWrite (s : State) (port : Bool) (pa n : Nat) (op : BitVec 4) (v cmp : Word) : State :=
  let key := hashKey pa
  match s.splits.find? fun x => x.port == port && x.addr == key && x.len == n with
  | none => s
  | some x =>
    let u : State := { s with splits := dropFirst (fun y => y == x) s.splits }
    if (s.die (keyDie key)).removed then hostGives u port pa [] cCAUSALGAP .data
    else
      match crossWrite u (hostPortDie port) (keyDie key) n false with
      | none => s
      | some t => hostGives (homeWrite t true false key (natLe n (hostNew op n cmp x.old v))) port pa (natLe n x.old.toNat) 0 .data

/-- HOST_ATOMIC (R303): one AT on a page with SA = 1; otherwise a read that a tracker keeps, and later the write. A full tracker stalls every further
host atomic of the port. -/
def execHostAtomic (port : Bool) (a : HostPlace) (op : BitVec 4) (dw : Bool) (page : HostPage) (second : Bool) (v cmp : Word) (s : State) : Res :=
  .next (
    let n := if dw then 8 else 4
    let pa := a.off
    let v' := BitVec.ofNat 64 (v.toNat % 2 ^ (8 * n))
    let cmp' := BitVec.ofNat 64 (cmp.toNat % 2 ^ (8 * n))
    if !hostWindow s port a n || pa % n ≠ 0 then s
    else if second then splitWrite s port pa n op v' cmp'
    else if 64 ≤ tracked s port then s
    else if pageSa s pa page then
      issueAccess s { hostAccess s port .atomic pa n (natLe n v'.toNat) with op := op, cmp := if op.toNat < 10 then [] else natLe n cmp'.toNat }
    else splitRead s port pa n)

/-! ### Rings and plain registers of BAR0 -/

/-- A size field takes 0 and the values of its range; a write of another value is ignored (R245). -/
def logField (old : BitVec 5) (v : Word) (hi : Nat) : BitVec 5 :=
  let n := v.extractLsb' 0 5
  if n == 0 || (4 ≤ n.toNat && n.toNat ≤ hi) then n else old

/-- A count that any 1 bit of a write clears. -/
def w1c (old : W32) (v : Word) : W32 := if v.extractLsb' 0 32 == 0 then old else 0

/-- A write to register `i` of a ring's block: BASE, LOG, HEAD (read only), TAIL, DROP. -/
def ringWrite (r : Ring) (i : Nat) (v : Word) (hi : Nat) : Ring :=
  match i with
  | 0 => { r with base := v }
  | 1 => { r with log := logField r.log v hi }
  | 3 => { r with tail := v.setWidth 32 }
  | 4 => { r with drop := w1c r.drop v }
  | _ => r

/-- A kept record is the first of a log that has been enabled (R438). -/
def writeKept (s : State) : State :=
  match s.regs.kept with
  | none => s
  | some bs =>
    if s.regs.lg.log == 0 then s
    else
      let (t, r) := ringAppend s s.regs.lg bs
      { t with regs := { t.regs with lg := r, kept := none } }

/-- Change the registers that stand alone. -/
abbrev modRegs (s : State) (f : DevRegs → DevRegs) : State := { s with regs := f s.regs }

/-- The value of a next state. -/
def outcomeState (s : State) : Res → State
  | .next t => t
  | _ => s

/-- A write in the first KiB of BAR0 (R245, R304, R312, R384, R395, R428, R432, R438, R442). -/
def lowWrite (s : State) (off : Nat) (v : Word) : State :=
  let ev := outcomeState s
  if off == 0x00 then modRegs s fun r => { r with acthr := v.setWidth 32 }
  else if 0x08 ≤ off && off ≤ 0x28 then modRegs s fun r => { r with nq := ringWrite r.nq (off / 8 - 1) v 20 }
  else if 0x80 ≤ off && off < 0xA0 then
    let d := (off - 0x80) / 8
    modRegs s fun r => { r with atcoll := tset 0 r.atcoll d (w1c (tget 0 r.atcoll d) v) }
  else if 0x100 ≤ off && off ≤ 0x120 then modRegs s fun r => { r with race := ringWrite r.race ((off - 0x100) / 8) v 20 }
  else if off == 0x128 then modRegs s fun r => { r with rwover := w1c r.rwover v }
  else if off == 0x140 then modRegs s fun r => { r with hpsel := v.setWidth 2 }
  else if off == 0x180 then modRegs s fun r => { r with groot := v }
  else if off == 0x188 then modRegs s fun r => { r with gptr := v }
  else if off == 0x190 then (if v.getLsbD 0 then ev (execGo s) else s)
  else if off == 0x198 then modRegs s fun r => { r with gdone := w1c r.gdone v }
  else if 0x1A0 ≤ off && off ≤ 0x1C0 then modRegs s fun r => { r with fq := ringWrite r.fq ((off - 0x1A0) / 8) v 16 }
  else if off == 0x1C8 then modRegs s fun r => { r with ctxsel := v }
  else if off == 0x1D0 then
    (if v.extractLsb' 16 2 == 1 then ev (execCtxcmdResume (v.setWidth 16) s)
     else if v.extractLsb' 16 2 == 2 then ev (execCtxcmdDestroy (v.setWidth 16) s) else s)
  else if off == 0x200 then modRegs s fun r => { r with invva := v }
  else if off == 0x208 then modRegs s fun r => { r with invpages := v.setWidth 32 }
  else if off == 0x210 then (if v.getLsbD 0 then ev (execInvgo s) else s)
  else if 0x240 ≤ off && off ≤ 0x260 then writeKept (modRegs s fun r => { r with lg := ringWrite r.lg ((off - 0x240) / 8) v 20 })
  else if off == 0x268 then modRegs s fun r => { r with gendisc := w1c r.gendisc v }
  else if off == 0x3C0 then ev (execHbeat s)
  else if off == 0x3D8 then (if v.getLsbD 0 then ev (execDevrst none [] s) else s)
  else s

/-- A write to a register of a cluster (R420). -/
def clusterWrite (s : State) (k off : Nat) (v : Word) : State :=
  let ev := outcomeState s
  if off == 0x08 then ev (execLvlreq k (v.setWidth 2) s)
  else if off == 0x10 then s.modCluster k fun c => { c with mrLo := v.extractLsb' 0 16, mrMid := v.extractLsb' 16 16, mrHi := v.extractLsb' 32 16 }
  else if off == 0x18 then s.modCluster k fun c => { c with scale := BitVec.ofNat 9 (min (v.extractLsb' 0 9).toNat 256) }
  else if off == 0x30 then ev (execRamptabWrite k v s)
  else if off == 0x38 then
    let t := if v.extractLsb' 16 32 == 0 then s else s.modCluster k fun c => { c with occnt := 0 }
    if v.getLsbD 0 then t.modCluster k fun c => { c with lock := true } else t
  else s

/-- A write to PCCTL of a die (R439). -/
def pcctlWrite (s : State) (die : Nat) (v : Word) : State :=
  let t := modRegs s fun r => { r with freeze := if v.getLsbD 0 then die :: r.freeze.erase die else r.freeze.erase die }
  if v.getLsbD 1 then outcomeState t (execPcctlClear die t) else t

/-! ### Ethernet registers (R434, R436) -/

/-- A context field of a queue pair (R436); a ring size outside its range is ignored (log 31). -/
def qpField (x : Qp) (i : Nat) (v : Word) : Qp :=
  let n := v.extractLsb' 0 5
  let size := fun (old : BitVec 5) (hi : Nat) => if 4 ≤ n.toNat && n.toNat ≤ hi then n else old
  match i with
  | 1 => { x with sqbase := v }
  | 2 => { x with sqlog := size x.sqlog 16 }
  | 3 => { x with rqbase := v }
  | 4 => { x with rqlog := size x.rqlog 16 }
  | 5 => { x with cqbase := v }
  | 6 => { x with cqlog := size x.cqlog 20 }
  | 7 => { x with dbva := v }
  | 8 => { x with dqpn := v.setWidth 24 }
  | 9 => { x with diplo := v }
  | 10 => { x with diphi := v }
  | 11 => { x with dmac := v.setWidth 48 }
  | 12 => { x with spsn := v.setWidth 24 }
  | 13 => { x with rpsn := v.setWidth 24 }
  | 14 => { x with sport := v.setWidth 32 }
  | 15 => { x with retryCfg := v.setWidth 15 &&& 0x771F }
  | _ => x

/-- A write to a register of a queue pair (R436). -/
def qpWrite (s : State) (port q i : Nat) (v : Word) : State :=
  let ev := outcomeState s
  if i == 0 then ev (execQpStateWrite port q (v.setWidth 3) s)
  else if i == 20 then ev (execSqdb port q v s)
  else if i == 21 then ev (execRqdb port q v s)
  else if i == 22 then ev (execCqdb port q v s)
  else if (s.qp port q).state.toNat < 2 then s.modQp port q fun x => qpField x i v
  else s

/-- A write to a register of an Ethernet port (R434). EEN = 0 puts every queue pair of the port into RESET; a new speed takes the link
down. -/
def ethWrite (s : State) (port i : Nat) (v : Word) : State :=
  let md := s.modEth port
  match i with
  | 0 => md fun e => { e with ptroot := v }
  | 1 => md fun e => { e with speed := v.setWidth 2, linkup := e.linkup && e.speed == v.setWidth 2 }
  | 2 => md fun e => { e with mac := some (v.setWidth 48) }
  | 3 => md fun e => { e with ipv4 := v.setWidth 32 }
  | 4 => md fun e => { e with ipv6lo := v }
  | 5 => md fun e => { e with ipv6hi := v }
  | 6 => md fun e => { e with mtu := v.setWidth 2 }
  | 7 => md fun e => { e with mkbase := v }
  | 8 => md fun e => { e with mkcount := v.setWidth 16 }
  | 9 =>
    if v.getLsbD 0 then md fun e => { e with en := true }
    else ((s.ethPort port).qps.map (·.1)).foldl (fun t q => resetQp t port q) (md fun e => { e with en := false })
  | _ => s

/-- A write in the block of an Ethernet port: its registers, or those of its queue pairs. -/
def ethBlockWrite (s : State) (port off : Nat) (v : Word) : State :=
  if off < 0x10000 then ethWrite s port (off / 8) v
  else if off < 0x110000 then qpWrite s port ((off - 0x10000) / 256) ((off - 0x10000) % 256 / 8) v
  else s

/-- A write to BAR0: an offset that names no register has no effect (R430). -/
def bar0Write (s : State) (off : Nat) (v : Word) : State :=
  if off < 0x400 then lowWrite s off v
  else if off < 0xE00 then clusterWrite s ((off - 0x400) / 64) ((off - 0x400) % 64) v
  else if off == 0x1000 then modRegs s fun r => { r with ataddr := v }
  else if off == 0x1008 then (if v.getLsbD 0 then outcomeState s (execAtgo s) else s)
  else if 0x1100 ≤ off && off < 0x1700 && off % 256 == 0xF8 then pcctlWrite s ((off - 0x1100) / 256) v
  else if 0x1000000 ≤ off && off < 0x2000000 then ethBlockWrite s ((off - 0x1000000) / 0x400000) (off % 0x400000) v
  else s

/-! ### The debug window (R140, R187, R188, R433) -/

/-- The handler whose registers a session sees: the running one, the trap context, or the one that ran last, also when a stepped DONE or WAITH has ended
its turn (DEDUCED, log 109). -/
def debugBank (k : Core) : Nat := k.running.getD (if k.trap.on then 16 else k.last)

/-- Write a general register of a stopped sequencer: x0 and pending registers ignore it (R140). -/
def debugReg (k : Core) (r : Nat) (v : Word) : Core :=
  let p := physReg (debugBank k) r
  if !k.stopped || r == 0 || tget false k.pend p then k else { k with regs := tset 0 k.regs p v }

/-- Write the PC of a stopped sequencer (R140); another value than a multiple of 4 is ignored. A STALLED handler that is sent to another address no longer
waits for what its old instruction waited for. -/
def debugPc (k : Core) (v : Word) : Core :=
  if !k.stopped || v.extractLsb' 0 2 != 0 then k
  else if k.running.isSome then { k with pc := v }
  else k.modHandler (debugBank k) fun h => { h with savedPc := v, stall := if h.savedPc = v then h.stall else none }

/-- BPCFGn with EN = 0 (R188, R189). -/
def bpDisable (s : State) (core n : Nat) (v : Word) : State :=
  match s.plotOf core with
  | none => s
  | some q => s.modPlot q.id fun p =>
    { p with bps := tmod Breakpoint.init p.bps n fun b =>
        { b with trig := v.extractLsb' 32 32, kbar := v.getLsbD 7, keoi := v.getLsbD 6, kdata := v.getLsbD 5, en := false } }

/-- Change the plot whose lead core this is. -/
def modLed (s : State) (core : Nat) (f : Plot → Plot) : State :=
  match s.plotOf core with
  | some q => if q.lead == core then s.modPlot q.id f else s
  | none => s

/-- A write in the block of a core (R433). -/
def coreWrite (s : State) (core off : Nat) (v : Word) : State :=
  let lead := ((s.plotOf core).map fun q => q.lead == core).getD false
  if off < 0x80 then
    let n := BitVec.ofNat 3 (off / 16)
    if !lead then s
    else if off % 16 == 0 then (if v.getLsbD 0 then outcomeState s (execBreakpointEnable core n v s) else bpDisable s core n.toNat v)
    else if v.getLsbD 0 then outcomeState s (execBreakpointHitClear core n s) else s
  else if off == 0x88 then
    let t := s.modCore core fun k => { k with arm := v.getLsbD 0 }
    if v.getLsbD 2 then outcomeState t (execDebugResume core t)
    else if v.getLsbD 3 then outcomeState t (execDebugStep core t) else t
  else if off == 0x90 then modLed s core fun q => { q with ringPa := v }
  else if off == 0x98 then modLed s core fun q => { q with ringLog := (logField (BitVec.ofNat 5 q.ringLog) v 20).toNat }
  else if off == 0xA0 then
    (if v.getLsbD 8 then outcomeState s (execBankDeclareFailed core (v.extractLsb' 5 2) (v.extractLsb' 0 5) s) else s)
  else if 0x100 ≤ off && off < 0x200 then s.modCore core fun k => debugReg k ((off - 0x100) / 8) v
  else if off == 0x200 then s.modCore core fun k => debugPc k v
  else s

/-- A write to BAR4: registers other than DBGCTL take it only while SESSION = 1. -/
def bar4Write (s : State) (off : Nat) (v : Word) : State :=
  if off == 0 then modRegs s fun r => { r with session := v.getLsbD 0 }
  else if !s.regs.session then s
  else if 0x100000 ≤ off && off < 0x240000 then coreWrite s ((off - 0x100000) / 0x1000) ((off - 0x100000) % 0x1000) v
  else if 0x400000 ≤ off && off < 0xE00000 then
    s.modCore ((off - 0x400000) / 0x8000) fun k => if k.stopped then { k with lmem := mwrite k.lmem ((off - 0x400000) % 0x8000) (natLe 8 v.toNat) } else k
  else s

/-- Resize BAR2 of a function to a power of two from 1 GiB to 512 GiB (R430; log 106). -/
def bar2Write (s : State) (function : Nat) (v : Word) : State :=
  if 2 ≤ function || v.toNat < 30 || 39 < v.toNat then s else modRegs s fun r => { r with bar2 := tset 39 r.bar2 function v.toNat }

/-- A host port has trained (R440): the boot has come to its end or has stopped at a step, and BOOTSTAT holds a CODE. -/
def portsUp (s : State) : Bool := s.regs.bootstat.setWidth 8 != (0 : BitVec 8)

/-- REGISTER_WRITE (R4, R430, R433): a 64-bit write at a multiple of 8; BAR0 answers once the ports have trained, BAR2 and BAR4 once the boot has
ended (R440). -/
def execRegisterWrite (w : Window) (off : Nat) (v : Word) (s : State) : Res :=
  .next (
    match w with
    | .control => if off % 8 ≠ 0 || !portsUp s then s else bar0Write s off v
    | .debug => if off % 8 ≠ 0 || !s.powered then s else bar4Write s off v
    | .memory => if s.powered then bar2Write s off v else s
    | .cxl => s)

/-! ### Reads of registers (R4: WO and RSV read as zero; R430: an offset that names no register reads as zero) -/

/-- Register `i` of a ring's block. -/
def ringRead (r : Ring) (i : Nat) : Word :=
  match i with
  | 0 => r.base
  | 1 => r.log.setWidth 64
  | 2 => r.head.setWidth 64
  | 3 => r.tail.setWidth 64
  | 4 => r.drop.setWidth 64
  | _ => 0

/-- A read in the first KiB of BAR0 (R245, R304, R312, R384, R395, R428, R432, R438, R441). -/
def lowRead (s : State) (off : Nat) : Word :=
  let r := s.regs
  if off == 0x00 then r.acthr.setWidth 64
  else if 0x08 ≤ off && off ≤ 0x28 then ringRead r.nq (off / 8 - 1)
  else if 0x80 ≤ off && off < 0xA0 then (tget 0 r.atcoll ((off - 0x80) / 8)).setWidth 64
  else if 0x100 ≤ off && off ≤ 0x120 then ringRead r.race ((off - 0x100) / 8)
  else if off == 0x128 then r.rwover.setWidth 64
  else if off == 0x140 then r.hpsel.setWidth 64
  else if off == 0x180 then r.groot
  else if off == 0x188 then r.gptr
  else if off == 0x198 then r.gdone.setWidth 64
  else if 0x1A0 ≤ off && off ≤ 0x1C0 then ringRead r.fq ((off - 0x1A0) / 8)
  else if off == 0x1C8 then r.ctxsel
  else if off == 0x200 then r.invva
  else if off == 0x208 then r.invpages.setWidth 64
  else if off == 0x218 then (BitVec.ofBool s.inval.busy).setWidth 64
  else if 0x240 ≤ off && off ≤ 0x260 then ringRead r.lg ((off - 0x240) / 8)
  else if off == 0x268 then r.gendisc.setWidth 64
  else if off == 0x3C8 then (BitVec.ofBool r.fwloss).setWidth 64
  else if off == 0x3D0 then r.bootstat.setWidth 64
  else 0

/-- Three rates of a cluster, LO in the low 16 bits (R420). -/
def ratesWord (lo mid hi : Nat) : Word := BitVec.ofNat 64 (lo + 2 ^ 16 * mid + 2 ^ 32 * hi)

/-- A read of a register of a cluster (R420). -/
def clusterRead (s : State) (k off : Nat) : Word :=
  let c := s.cluster k
  if off == 0x00 then (c.pend ++ BitVec.ofBool c.pvalid ++ c.target ++ BitVec.ofBool c.ramping ++ c.level : BitVec 8).setWidth 64
  else if off == 0x10 then ratesWord c.mrLo.toNat c.mrMid.toNat c.mrHi.toNat
  else if off == 0x18 then c.scale.setWidth 64
  else if off == 0x20 then ratesWord (fmaxOf 0) (fmaxOf 1) (fmaxOf 2)
  else if off == 0x28 then ratesWord (fdefOf 0) (fdefOf 1) (fdefOf 2)
  else if off == 0x30 then c.ramptab
  else if off == 0x38 then c.hints ++ c.occnt ++ (0 : BitVec 15) ++ BitVec.ofBool c.lock
  else 0

/-- A read of a counter of a die or of its PCCTL (R439). -/
def counterRead (s : State) (die i : Nat) : Word :=
  if i < 31 then tget 0 s.regs.counters (32 * die + i) else (BitVec.ofBool (s.regs.freeze.contains die)).setWidth 64

/-- A read of a register of a queue pair (R436). -/
def qpRead (x : Qp) (i : Nat) : Word :=
  match i with
  | 0 => x.state.setWidth 64
  | 1 => x.sqbase
  | 2 => x.sqlog.setWidth 64
  | 3 => x.rqbase
  | 4 => x.rqlog.setWidth 64
  | 5 => x.cqbase
  | 6 => x.cqlog.setWidth 64
  | 7 => x.dbva
  | 8 => x.dqpn.setWidth 64
  | 9 => x.diplo
  | 10 => x.diphi
  | 11 => x.dmac.setWidth 64
  | 12 => x.spsn.setWidth 64
  | 13 => x.rpsn.setWidth 64
  | 14 => x.sport.setWidth 64
  | 15 => x.retryCfg.setWidth 64
  | 16 => BitVec.ofNat 64 x.sqci
  | 17 => BitVec.ofNat 64 x.rqci
  | 18 => BitVec.ofNat 64 x.cqpi
  | 19 => x.errcode.setWidth 64
  | _ => 0

/-- A read of a register of an Ethernet port (R434); EMAC is fused until it is written. -/
def ethRead (s : State) (port i : Nat) : Word :=
  let e := s.ethPort port
  match i with
  | 0 => e.ptroot
  | 1 => (BitVec.ofBool e.linkup ++ (0 : BitVec 6) ++ e.speed : BitVec 9).setWidth 64
  | 2 => (e.mac.getD (Config.macAddress port)).setWidth 64
  | 3 => e.ipv4.setWidth 64
  | 4 => e.ipv6lo
  | 5 => e.ipv6hi
  | 6 => e.mtu.setWidth 64
  | 7 => e.mkbase
  | 8 => e.mkcount.setWidth 64
  | 9 => (BitVec.ofBool e.en).setWidth 64
  | _ => 0

/-- A read in the block of an Ethernet port. -/
def ethBlockRead (s : State) (port off : Nat) : Word :=
  if off < 0x10000 then ethRead s port (off / 8)
  else if off < 0x110000 then qpRead (s.qp port ((off - 0x10000) / 256)) ((off - 0x10000) % 256 / 8)
  else 0

/-- The register of BAR0 at an offset that is a multiple of 8. -/
def bar0Read (s : State) (off : Nat) : Word :=
  if off < 0x400 then lowRead s off
  else if off < 0xE00 then clusterRead s ((off - 0x400) / 64) ((off - 0x400) % 64)
  else if off == 0x1000 then s.regs.ataddr
  else if off == 0x1010 then (BitVec.ofBool s.regs.atdone).setWidth 64
  else if 0x1100 ≤ off && off < 0x1700 then counterRead s ((off - 0x1100) / 256) ((off - 0x1100) % 256 / 8)
  else if 0x1000000 ≤ off && off < 0x2000000 then ethBlockRead s ((off - 0x1000000) / 0x400000) (off % 0x400000)
  else 0

/-- The PC of a stopped sequencer (R140): where its handler continues. -/
def debugPcRead (k : Core) : Word :=
  if !k.stopped then 0 else if k.running.isSome then k.pc else (k.handler (debugBank k)).savedPc

/-- A breakpoint register of a plot: BPCFG and BPSTAT (R188). -/
def bpRead (b : Breakpoint) (stat : Bool) : Word :=
  if stat then b.count ++ (0 : BitVec 31) ++ BitVec.ofBool b.hit
  else b.trig ++ (0 : BitVec 24) ++ BitVec.ofBool b.kbar ++ BitVec.ofBool b.keoi ++ BitVec.ofBool b.kdata ++ (0 : BitVec 4) ++ BitVec.ofBool b.en

/-- A read in the block of a core (R433): the registers of its plot stand in the block of the lead core. While the sequencer is not stopped, no handler is
stopped in debug state, and x1 to x31 and the PC read as zero (DEDUCED, log 109). -/
def coreRead (s : State) (core off : Nat) : Word :=
  let k := s.core core
  let led := (s.plotOf core).filter fun q => q.lead == core
  if off < 0x80 then ((led.map fun q => bpRead (tget Breakpoint.init q.bps (off / 16)) (off % 16 == 8)).getD 0)
  else if off == 0x80 then BitVec.ofNat 64 (((List.range 4).map fun a => (tget 0 k.mat.vers a).toNat * 2 ^ (8 * a)).sum)
  else if off == 0x88 then (BitVec.ofBool k.stopped ++ BitVec.ofBool k.arm).setWidth 64
  else if off == 0x90 then (led.map fun q => q.ringPa).getD 0
  else if off == 0x98 then (led.map fun q => BitVec.ofNat 64 q.ringLog).getD 0
  else if 0x100 ≤ off && off < 0x200 then
    (if !k.stopped || off == 0x100 then 0 else tget 0 k.regs (physReg (debugBank k) ((off - 0x100) / 8)))
  else if off == 0x200 then debugPcRead k
  else 0

/-- A square as the debug window shows it (R305). -/
def squareWord (q : Square) : Word :=
  q.gen ++ BitVec.ofBool q.isOpen ++ (0 : BitVec 7) ++ q.nexp ++ q.arr ++ (0 : BitVec 16)

/-- The register of BAR4 at an offset that is a multiple of 8: every register reads at any time (R433). -/
def bar4Read (s : State) (off : Nat) : Word :=
  if off == 0 then (BitVec.ofBool s.regs.session).setWidth 64
  else if 0x80000 ≤ off && off < 0x80800 then squareWord (s.square ((off - 0x80000) / 8))
  else if 0x100000 ≤ off && off < 0x240000 then coreRead s ((off - 0x100000) / 0x1000) ((off - 0x100000) % 0x1000)
  else if 0x400000 ≤ off && off < 0xE00000 then leBv 64 (mread (s.core ((off - 0x400000) / 0x8000)).lmem ((off - 0x400000) % 0x8000) 8)
  else 0

/-- The bytes of a window of registers. -/
def windowBytes (read : Nat → Word) (off n : Nat) : List Byte :=
  (List.range n).map fun i => (read ((off + i) / 8 * 8)).extractLsb' (8 * ((off + i) % 8)) 8

/-- HOST_READ (R430, R431, R433): device memory through BAR2 or CXL.mem, or registers, whose values go to the host at once. -/
def execHostRead (port : Bool) (a : HostPlace) (len : Nat) (s : State) : Res :=
  .next (
    match a.window with
    | .control => if portsUp s then hostGives s port a.off (windowBytes (bar0Read s) a.off len) 0 .register else s
    | .debug => if s.powered then hostGives s port a.off (windowBytes (bar4Read s) a.off len) 0 .register else s
    | .memory | .cxl => if !hostWindow s port a len then s else hostPieces (s.count (hostPortDie port) 4 len) port .read a len [])

end Sys2Proof.Machine
end

