-- ==== Sys2Proof/Machine/Issue.lean ====
section
/-!
DEFINITION. ISSUE (R54 to R57): the stalls of the group, binding of its fields, the legality of the bound command, and its hand-over to
the executor that its class names (R60).
-/

namespace Sys2Proof.Machine

/-- ILLEGAL with the ISSUE word in TVAL (R141). -/
def illegalIssue (w : W32) (s : State) : Res := .next (preciseFault s cILLEGAL 0 (w.setWidth 64))

/-- Offer a command to its executor. What is no stream command is never legal (R62). -/
def offer (w : W32) (i : Instr) (s : State) : Res :=
  match i with
  | .talloc level ring cellm h rows rowb => Sys2Proof.Machine.execTalloc level ring cellm h rows rowb s
  | .tfree h => Sys2Proof.Machine.execTfree h s
  | .tring h fill => Sys2Proof.Machine.execTring h fill s
  | .townEngine h => Sys2Proof.Machine.execTownEngine h s
  | .townSeq h => Sys2Proof.Machine.execTownSeq h s
  | .advp h count => Sys2Proof.Machine.execAdvp h count s
  | .advc h count => Sys2Proof.Machine.execAdvc h count s
  | .twaitFill h k => Sys2Proof.Machine.execTwaitFill h k s
  | .twaitFree h k => Sys2Proof.Machine.execTwaitFree h k s
  | .tzero h => Sys2Proof.Machine.execTzero h s
  | .tstat h => Sys2Proof.Machine.execTstat h s
  | .splev p level stride count => Sys2Proof.Machine.execSplev p level stride count s
  | .spbaseTile p b0 off => Sys2Proof.Machine.execSpbaseTile p b0 off s
  | .spbaseVa p addr => Sys2Proof.Machine.execSpbaseVa p addr s
  | .spmode p mods b0 ceil => Sys2Proof.Machine.execSpmode p mods b0 ceil s
  | .spgo p bar chan n => Sys2Proof.Machine.execSpgo p bar chan n s
  | .spclose p => Sys2Proof.Machine.execSpclose p s
  | .spqryLo p => Sys2Proof.Machine.execSpqryLo p s
  | .spqryHi p => Sys2Proof.Machine.execSpqryHi p s
  | .spqrySt p bad => Sys2Proof.Machine.execSpqrySt p bad s
  | .spwid p k step => Sys2Proof.Machine.execSpwid p k step s
  | .mma acc z sb sa ty b0 b1 b2 => Sys2Proof.Machine.execMma acc z sb sa ty b0 b1 b2 s
  | .mmag acc z sb scat ty g sc b0 b1 b2 => Sys2Proof.Machine.execMmag acc z sb scat ty g sc b0 b1 b2 s
  | .mmv acc z ty b0 b1 b2 => Sys2Proof.Machine.execMmv acc z ty b0 b1 b2 s
  | .mcoop acc z ty gr gc b0 b1 b2 => Sys2Proof.Machine.execMcoop acc z ty gr gc b0 b1 b2 s
  | .aclr acc b0 => Sys2Proof.Machine.execAclr acc b0 s
  | .ard acc bar eoi clr tile b0 b1 => Sys2Proof.Machine.execArd acc bar eoi clr tile b0 b1 s
  | .awr acc b0 b1 => Sys2Proof.Machine.execAwr acc b0 b1 s
  | .ktopk si so kt b0 b1 b2 => Sys2Proof.Machine.execKtopk si so kt b0 b1 b2 s
  | .ksort si so desc kt b0 b1 b2 => Sys2Proof.Machine.execKsort si so desc kt b0 b1 b2 s
  | .khist si so acc b0 b1 b2 => Sys2Proof.Machine.execKhist si so acc b0 b1 b2 s
  | .kscan si so excl kt b0 b1 b2 => Sys2Proof.Machine.execKscan si so excl kt b0 b1 b2 s
  | .kmerge fn keepz kt b0 b1 b2 => Sys2Proof.Machine.execKmerge fn keepz kt b0 b1 b2 s
  | .kpermG b0 b1 b2 => Sys2Proof.Machine.execKpermG b0 b1 b2 s
  | .kpermS b0 b1 b2 => Sys2Proof.Machine.execKpermS b0 b1 b2 s
  | .cpy sk dk eoi adv eng sidx b0 b1 => Sys2Proof.Machine.execCpy sk dk eoi adv eng sidx b0 b1 s
  | .cpyx sk dk eoi adv eng sidx b0 b1 => Sys2Proof.Machine.execCpyx sk dk eoi adv eng sidx b0 b1 s
  | .cpyf sk fb eng sidx b0 b1 b2 => Sys2Proof.Machine.execCpyf sk fb eng sidx b0 b1 b2 s
  | .csig sk dk sys eng sidx b0 b1 b2 => Sys2Proof.Machine.execCsig sk dk sys eng sidx b0 b1 b2 s
  | .cgrp devs g p rank => Sys2Proof.Machine.execCgrp devs g p rank s
  | .cgrpFree devs g p rank => Sys2Proof.Machine.execCgrpFree devs g p rank s
  | .a2av esz g ldesc => Sys2Proof.Machine.execA2av esz g ldesc s
  | .agth esz g ldesc count => Sys2Proof.Machine.execAgth esz g ldesc count s
  | .rsct kt op g ldesc count => Sys2Proof.Machine.execRsct kt op g ldesc count s
  | .ared kt op g ldesc count => Sys2Proof.Machine.execAred kt op g ldesc count s
  | .amo ord lm dw op addr b2 => Sys2Proof.Machine.execAmo ord lm dw op addr b2 s
  | .amoc ord dw addr b2 => Sys2Proof.Machine.execAmoc ord dw addr b2 s
  | .red ord lm dw op addr b2 => Sys2Proof.Machine.execRed ord lm dw op addr b2 s
  | .redv ord op h addr b2 => Sys2Proof.Machine.execRedv ord op h addr b2 s
  | _ => illegalIssue w s

/-- The command with its bound fields (R55, R56): WIDE takes B1:B0 from one register. -/
def bindFields (k : Core) (xb0 xb1 xb2 : Reg) (e2 e1 e0 wide : Bool) (c : Cmd128) : Cmd128 :=
  let b0 := if e0 then (k.rd xb0).extractLsb' 0 32 else c.extractLsb' 0 32
  let b1 := if wide then (k.rd xb0).extractLsb' 32 32 else if e1 then (k.rd xb1).extractLsb' 0 32 else c.extractLsb' 32 32
  let b2 := if e2 then (k.rd xb2).extractLsb' 0 32 else c.extractLsb' 64 32
  c.extractLsb' 96 32 ++ b2 ++ b1 ++ b0

/-- The registers that an ISSUE names (R55, R57). -/
def issueRegs (xt xb0 xb1 xb2 : Reg) (e2 e1 e0 : Bool) : List Reg :=
  (if e0 then [xb0] else []) ++ (if e1 then [xb1] else []) ++ (if e2 then [xb2] else []) ++ [xt]

/-- ISSUE (R54 to R57): a pending register, 16 issued commands not yet complete, those in the replay queue among them, an acquire (R292)
and a FENCE in progress (R286) stall it; the bound command must be
legal; its executor then accepts it, stalls it or faults it. -/
def execIssue (xt xb0 xb1 xb2 : Reg) (e2 e1 e0 wide : Bool) (cmd : Cmd128) (s : State) : Res :=
  let w := (encodeScalar (.issue xt xb0 xb1 xb2 e2 e1 e0 wide cmd)).getD 0
  match firstPending s.me (issueRegs xt xb0 xb1 xb2 e2 e1 e0) with
  | some r => .next (stallOn s (.reg (physReg s.me.bank r.toNat)))
  | none =>
    if 16 ≤ s.me.cmds.length + s.me.replay.length + s.me.reinj.length then .next (stallOn s .slots)
    else if s.me.acq.isSome then .next (stallOn s .acquire)
    else if otherFence s.me then .next (stallOn s .fence)
    else
      let c := bindFields s.me xb0 xb1 xb2 e2 e1 e0 wide cmd
      match legalCommand c e2 e1 e0 wide with
      | .error _ => illegalIssue w s
      | .ok i => offer w i { s with cur := { s.cur with cmd := c, xt := xt.toNat, slot := 0, replay := none } }

end Sys2Proof.Machine
end

