-- ==== Sys2Proof/Machine/Dispatch.lean ====
section
/-!
DEFINITION. The one dispatch: every constructor of Instr and its meaning.
-/

namespace Sys2Proof.Machine

/-- What an instruction, command, node or event does to the machine. -/
def exec (i : Instr) (s : State) : Host.Outcome State Fault Refusal :=
  match i with
  | .add d a b => Sys2Proof.Machine.execAdd d a b s
  | .sub d a b => Sys2Proof.Machine.execSub d a b s
  | .and d a b => Sys2Proof.Machine.execAnd d a b s
  | .or d a b => Sys2Proof.Machine.execOr d a b s
  | .xor d a b => Sys2Proof.Machine.execXor d a b s
  | .sll d a b => Sys2Proof.Machine.execSll d a b s
  | .srl d a b => Sys2Proof.Machine.execSrl d a b s
  | .sra d a b => Sys2Proof.Machine.execSra d a b s
  | .slt d a b => Sys2Proof.Machine.execSlt d a b s
  | .sltu d a b => Sys2Proof.Machine.execSltu d a b s
  | .addi d a imm => Sys2Proof.Machine.execAddi d a imm s
  | .andi d a imm => Sys2Proof.Machine.execAndi d a imm s
  | .ori d a imm => Sys2Proof.Machine.execOri d a imm s
  | .xori d a imm => Sys2Proof.Machine.execXori d a imm s
  | .slli d a sh => Sys2Proof.Machine.execSlli d a sh s
  | .srli d a sh => Sys2Proof.Machine.execSrli d a sh s
  | .srai d a sh => Sys2Proof.Machine.execSrai d a sh s
  | .slti d a imm => Sys2Proof.Machine.execSlti d a imm s
  | .sltiu d a imm => Sys2Proof.Machine.execSltiu d a imm s
  | .lui d imm => Sys2Proof.Machine.execLui d imm s
  | .mul d a b => Sys2Proof.Machine.execMul d a b s
  | .mulh d a b => Sys2Proof.Machine.execMulh d a b s
  | .mulhu d a b => Sys2Proof.Machine.execMulhu d a b s
  | .div d a b => Sys2Proof.Machine.execDiv d a b s
  | .divu d a b => Sys2Proof.Machine.execDivu d a b s
  | .rem d a b => Sys2Proof.Machine.execRem d a b s
  | .remu d a b => Sys2Proof.Machine.execRemu d a b s
  | .bfx d a pos len => Sys2Proof.Machine.execBfx d a pos len s
  | .bfxs d a pos len => Sys2Proof.Machine.execBfxs d a pos len s
  | .bfi d a pos len => Sys2Proof.Machine.execBfi d a pos len s
  | .widx d k => Sys2Proof.Machine.execWidx d k s
  | .clz d a => Sys2Proof.Machine.execClz d a s
  | .ctz d a => Sys2Proof.Machine.execCtz d a s
  | .popc d a => Sys2Proof.Machine.execPopc d a s
  | .ldlD d a imm => Sys2Proof.Machine.execLdlD d a imm s
  | .ldlW d a imm => Sys2Proof.Machine.execLdlW d a imm s
  | .stlD d a imm => Sys2Proof.Machine.execStlD d a imm s
  | .stlW d a imm => Sys2Proof.Machine.execStlW d a imm s
  | .ldgD d a imm => Sys2Proof.Machine.execLdgD d a imm s
  | .ldgW d a imm => Sys2Proof.Machine.execLdgW d a imm s
  | .stgD d a imm => Sys2Proof.Machine.execStgD d a imm s
  | .stgW d a imm => Sys2Proof.Machine.execStgW d a imm s
  | .beq a b off => Sys2Proof.Machine.execBeq a b off s
  | .bne a b off => Sys2Proof.Machine.execBne a b off s
  | .blt a b off => Sys2Proof.Machine.execBlt a b off s
  | .bge a b off => Sys2Proof.Machine.execBge a b off s
  | .bltu a b off => Sys2Proof.Machine.execBltu a b off s
  | .bgeu a b off => Sys2Proof.Machine.execBgeu a b off s
  | .jal d off => Sys2Proof.Machine.execJal d off s
  | .jalr d a imm => Sys2Proof.Machine.execJalr d a imm s
  | .loop level c last => Sys2Proof.Machine.execLoop level c last s
  | .loopi level count last => Sys2Proof.Machine.execLoopi level count last s
  | .done => Sys2Proof.Machine.execDone s
  | .waith => Sys2Proof.Machine.execWaith s
  | .post a b => Sys2Proof.Machine.execPost a b s
  | .hmask a => Sys2Proof.Machine.execHmask a s
  | .hunmask a => Sys2Proof.Machine.execHunmask a s
  | .mfs d num => Sys2Proof.Machine.execMfs d num s
  | .mts a num => Sys2Proof.Machine.execMts a num s
  | .fence scope => Sys2Proof.Machine.execFence scope s
  | .barr a => Sys2Proof.Machine.execBarr a s
  | .ldgAcq d a scope => Sys2Proof.Machine.execLdgAcq d a scope s
  | .stgRel a b scope => Sys2Proof.Machine.execStgRel a b scope s
  | .locq d a => Sys2Proof.Machine.execLocq d a s
  | .phintComp => Sys2Proof.Machine.execPhintComp s
  | .phintMem => Sys2Proof.Machine.execPhintMem s
  | .phintWait => Sys2Proof.Machine.execPhintWait s
  | .decideImm bay => Sys2Proof.Machine.execDecideImm bay s
  | .decideReg a => Sys2Proof.Machine.execDecideReg a s
  | .pref a => Sys2Proof.Machine.execPref a s
  | .trap code => Sys2Proof.Machine.execTrap code s
  | .tret => Sys2Proof.Machine.execTret s
  | .ebrk => Sys2Proof.Machine.execEbrk s
  | .issue xt xb0 xb1 xb2 e2 e1 e0 wide cmd => Sys2Proof.Machine.execIssue xt xb0 xb1 xb2 e2 e1 e0 wide cmd s
  | .handlerDispatch core => Sys2Proof.Machine.execHandlerDispatch core s
  | .controlWordArrival idx => Sys2Proof.Machine.execControlWordArrival idx s
  | .commandCompletion core id => Sys2Proof.Machine.execCommandCompletion core id s
  | .ldgDataReturn acc => Sys2Proof.Machine.execLdgDataReturn acc s
  | .talloc level ring cellm h rows rowb => Sys2Proof.Machine.execTalloc level ring cellm h rows rowb s
  | .tfree h => Sys2Proof.Machine.execTfree h s
  | .tring h fill => Sys2Proof.Machine.execTring h fill s
  | .townEngine h => Sys2Proof.Machine.execTownEngine h s
  | .townSeq h => Sys2Proof.Machine.execTownSeq h s
  | .advp h count => Sys2Proof.Machine.execAdvp h count s
  | .advc h count => Sys2Proof.Machine.execAdvc h count s
  | .twaitFill h k => Sys2Proof.Machine.execTwaitFill h k s
  | .twaitFree h k => Sys2Proof.Machine.execTwaitFree h k s
  | .tzero h => Sys2Proof.Machine.execTzero h s
  | .tstat h => Sys2Proof.Machine.execTstat h s
  | .ownerFlip core h => Sys2Proof.Machine.execOwnerFlip core h s
  | .splev p level stride count => Sys2Proof.Machine.execSplev p level stride count s
  | .spbaseTile p b0 off => Sys2Proof.Machine.execSpbaseTile p b0 off s
  | .spbaseVa p addr => Sys2Proof.Machine.execSpbaseVa p addr s
  | .spmode p mods b0 ceil => Sys2Proof.Machine.execSpmode p mods b0 ceil s
  | .spgo p bar chan n => Sys2Proof.Machine.execSpgo p bar chan n s
  | .spclose p => Sys2Proof.Machine.execSpclose p s
  | .spqryLo p => Sys2Proof.Machine.execSpqryLo p s
  | .spqryHi p => Sys2Proof.Machine.execSpqryHi p s
  | .spqrySt p bad => Sys2Proof.Machine.execSpqrySt p bad s
  | .spwid p k step => Sys2Proof.Machine.execSpwid p k step s
  | .portInjectToken core p => Sys2Proof.Machine.execPortInjectToken core p s
  | .portInjectEoi core p => Sys2Proof.Machine.execPortInjectEoi core p s
  | .portStoreToken core p => Sys2Proof.Machine.execPortStoreToken core p s
  | .portInvocationStart core p => Sys2Proof.Machine.execPortInvocationStart core p s
  | .portDoneWord core p => Sys2Proof.Machine.execPortDoneWord core p s
  | .meterWindow => Sys2Proof.Machine.execMeterWindow s
  | .mma acc z sb sa ty b0 b1 b2 => Sys2Proof.Machine.execMma acc z sb sa ty b0 b1 b2 s
  | .mmag acc z sb scat ty g sc b0 b1 b2 => Sys2Proof.Machine.execMmag acc z sb scat ty g sc b0 b1 b2 s
  | .mmv acc z ty b0 b1 b2 => Sys2Proof.Machine.execMmv acc z ty b0 b1 b2 s
  | .mcoop acc z ty gr gc b0 b1 b2 => Sys2Proof.Machine.execMcoop acc z ty gr gc b0 b1 b2 s
  | .aclr acc b0 => Sys2Proof.Machine.execAclr acc b0 s
  | .ard acc bar eoi clr tile b0 b1 => Sys2Proof.Machine.execArd acc bar eoi clr tile b0 b1 s
  | .awr acc b0 b1 => Sys2Proof.Machine.execAwr acc b0 b1 s
  | .matrixStart core => Sys2Proof.Machine.execMatrixStart core s
  | .matrixWaveStep core => Sys2Proof.Machine.execMatrixWaveStep core s
  | .matrixCommit core => Sys2Proof.Machine.execMatrixCommit core s
  | .ktopk si so kt b0 b1 b2 => Sys2Proof.Machine.execKtopk si so kt b0 b1 b2 s
  | .ksort si so desc kt b0 b1 b2 => Sys2Proof.Machine.execKsort si so desc kt b0 b1 b2 s
  | .khist si so acc b0 b1 b2 => Sys2Proof.Machine.execKhist si so acc b0 b1 b2 s
  | .kscan si so excl kt b0 b1 b2 => Sys2Proof.Machine.execKscan si so excl kt b0 b1 b2 s
  | .kmerge fn keepz kt b0 b1 b2 => Sys2Proof.Machine.execKmerge fn keepz kt b0 b1 b2 s
  | .kpermG b0 b1 b2 => Sys2Proof.Machine.execKpermG b0 b1 b2 s
  | .kpermS b0 b1 b2 => Sys2Proof.Machine.execKpermS b0 b1 b2 s
  | .keyCommandComplete core => Sys2Proof.Machine.execKeyCommandComplete core s
  | .cpy sk dk eoi adv eng sidx b0 b1 => Sys2Proof.Machine.execCpy sk dk eoi adv eng sidx b0 b1 s
  | .cpyx sk dk eoi adv eng sidx b0 b1 => Sys2Proof.Machine.execCpyx sk dk eoi adv eng sidx b0 b1 s
  | .cpyf sk fb eng sidx b0 b1 b2 => Sys2Proof.Machine.execCpyf sk fb eng sidx b0 b1 b2 s
  | .csig sk dk sys eng sidx b0 b1 b2 => Sys2Proof.Machine.execCsig sk dk sys eng sidx b0 b1 b2 s
  | .copyComplete eng => Sys2Proof.Machine.execCopyComplete eng s
  | .cgrp devs g p rank => Sys2Proof.Machine.execCgrp devs g p rank s
  | .cgrpFree devs g p rank => Sys2Proof.Machine.execCgrpFree devs g p rank s
  | .a2av esz g ldesc => Sys2Proof.Machine.execA2av esz g ldesc s
  | .agth esz g ldesc count => Sys2Proof.Machine.execAgth esz g ldesc count s
  | .rsct kt op g ldesc count => Sys2Proof.Machine.execRsct kt op g ldesc count s
  | .ared kt op g ldesc count => Sys2Proof.Machine.execAred kt op g ldesc count s
  | .collectiveRendezvous g => Sys2Proof.Machine.execCollectiveRendezvous g s
  | .collectiveComplete g rank => Sys2Proof.Machine.execCollectiveComplete g rank s
  | .amo ord lm dw op addr b2 => Sys2Proof.Machine.execAmo ord lm dw op addr b2 s
  | .amoc ord dw addr b2 => Sys2Proof.Machine.execAmoc ord dw addr b2 s
  | .red ord lm dw op addr b2 => Sys2Proof.Machine.execRed ord lm dw op addr b2 s
  | .redv ord op h addr b2 => Sys2Proof.Machine.execRedv ord op h addr b2 s
  | .fadd n => Sys2Proof.Machine.execFadd n s
  | .fsub n => Sys2Proof.Machine.execFsub n s
  | .fmul n => Sys2Proof.Machine.execFmul n s
  | .ffma n => Sys2Proof.Machine.execFfma n s
  | .fmax n => Sys2Proof.Machine.execFmax n s
  | .fmin n => Sys2Proof.Machine.execFmin n s
  | .fabs n => Sys2Proof.Machine.execFabs n s
  | .fneg n => Sys2Proof.Machine.execFneg n s
  | .fcmp n => Sys2Proof.Machine.execFcmp n s
  | .frnd n => Sys2Proof.Machine.execFrnd n s
  | .fcls n => Sys2Proof.Machine.execFcls n s
  | .frcp n => Sys2Proof.Machine.execFrcp n s
  | .frsq n => Sys2Proof.Machine.execFrsq n s
  | .fexp2 n => Sys2Proof.Machine.execFexp2 n s
  | .flog2 n => Sys2Proof.Machine.execFlog2 n s
  | .iadd n => Sys2Proof.Machine.execIadd n s
  | .isub n => Sys2Proof.Machine.execIsub n s
  | .imul n => Sys2Proof.Machine.execImul n s
  | .imax n => Sys2Proof.Machine.execImax n s
  | .imin n => Sys2Proof.Machine.execImin n s
  | .icmp n => Sys2Proof.Machine.execIcmp n s
  | .iabs n => Sys2Proof.Machine.execIabs n s
  | .nodeAnd n => Sys2Proof.Machine.execNodeAnd n s
  | .nodeOr n => Sys2Proof.Machine.execNodeOr n s
  | .nodeXor n => Sys2Proof.Machine.execNodeXor n s
  | .andn n => Sys2Proof.Machine.execAndn n s
  | .shl n => Sys2Proof.Machine.execShl n s
  | .shr n => Sys2Proof.Machine.execShr n s
  | .sar n => Sys2Proof.Machine.execSar n s
  | .lshuf n => Sys2Proof.Machine.execLshuf n s
  | .lrot n => Sys2Proof.Machine.execLrot n s
  | .lbcast n => Sys2Proof.Machine.execLbcast n s
  | .lsum n => Sys2Proof.Machine.execLsum n s
  | .lmax n => Sys2Proof.Machine.execLmax n s
  | .lmin n => Sys2Proof.Machine.execLmin n s
  | .cvt n => Sys2Proof.Machine.execCvt n s
  | .pack n => Sys2Proof.Machine.execPack n s
  | .unpack n => Sys2Proof.Machine.execUnpack n s
  | .steer n => Sys2Proof.Machine.execSteer n s
  | .merge n => Sys2Proof.Machine.execMerge n s
  | .carry n => Sys2Proof.Machine.execCarry n s
  | .select n => Sys2Proof.Machine.execSelect n s
  | .gate n => Sys2Proof.Machine.execGate n s
  | .join n => Sys2Proof.Machine.execJoin n s
  | .dup n => Sys2Proof.Machine.execDup n s
  | .sink n => Sys2Proof.Machine.execSink n s
  | .const n => Sys2Proof.Machine.execConst n s
  | .count n => Sys2Proof.Machine.execCount n s
  | .maddr n => Sys2Proof.Machine.execMaddr n s
  | .mload n => Sys2Proof.Machine.execMload n s
  | .mstore n => Sys2Proof.Machine.execMstore n s
  | .matom n => Sys2Proof.Machine.execMatom n s
  | .mred n => Sys2Proof.Machine.execMred n s
  | .gload n => Sys2Proof.Machine.execGload n s
  | .gstore n => Sys2Proof.Machine.execGstore n s
  | .cmpr n => Sys2Proof.Machine.execCmpr n s
  | .csum n => Sys2Proof.Machine.execCsum n s
  | .trace n => Sys2Proof.Machine.execTrace n s
  | .barOrderingPointRelease core cell stage => Sys2Proof.Machine.execBarOrderingPointRelease core cell stage s
  | .baySwitch plot => Sys2Proof.Machine.execBaySwitch plot s
  | .launch n => Sys2Proof.Machine.execLaunch n s
  | .graphCond n => Sys2Proof.Machine.execGraphCond n s
  | .graphWhile n => Sys2Proof.Machine.execGraphWhile n s
  | .waitm n => Sys2Proof.Machine.execWaitm n s
  | .signal n => Sys2Proof.Machine.execSignal n s
  | .graphJoin n => Sys2Proof.Machine.execGraphJoin n s
  | .graphEnd n => Sys2Proof.Machine.execGraphEnd n s
  | .walkerClaim die => Sys2Proof.Machine.execWalkerClaim die s
  | .lineWatchFire idx => Sys2Proof.Machine.execLineWatchFire idx s
  | .waitmRetest idx => Sys2Proof.Machine.execWaitmRetest idx s
  | .queueAging idx => Sys2Proof.Machine.execQueueAging idx s
  | .reserveRequest plot => Sys2Proof.Machine.execReserveRequest plot s
  | .configurationLoad plot => Sys2Proof.Machine.execConfigurationLoad plot s
  | .rowDrain plot row => Sys2Proof.Machine.execRowDrain plot row s
  | .preemptRequest plot => Sys2Proof.Machine.execPreemptRequest plot s
  | .contextSave plot => Sys2Proof.Machine.execContextSave plot s
  | .contextRestore plot => Sys2Proof.Machine.execContextRestore plot s
  | .sliceExpiry plot => Sys2Proof.Machine.execSliceExpiry plot s
  | .watchdogExpiry plot => Sys2Proof.Machine.execWatchdogExpiry plot s
  | .saveTimeout plot => Sys2Proof.Machine.execSaveTimeout plot s
  | .sweepRowFree plot row => Sys2Proof.Machine.execSweepRowFree plot row s
  | .trapEntry core => Sys2Proof.Machine.execTrapEntry core s
  | .ctxcmdResume p => Sys2Proof.Machine.execCtxcmdResume p s
  | .ctxcmdDestroy p => Sys2Proof.Machine.execCtxcmdDestroy p s
  | .go => Sys2Proof.Machine.execGo s
  | .debugResume core => Sys2Proof.Machine.execDebugResume core s
  | .debugStep core => Sys2Proof.Machine.execDebugStep core s
  | .breakpointHitClear core n => Sys2Proof.Machine.execBreakpointHitClear core n s
  | .breakpointEnable core n v => Sys2Proof.Machine.execBreakpointEnable core n v s
  | .bankDeclareFailed core m bank => Sys2Proof.Machine.execBankDeclareFailed core m bank s
  | .packetDecode die idx => Sys2Proof.Machine.execPacketDecode die idx s
  | .packetDeliver die idx => Sys2Proof.Machine.execPacketDeliver die idx s
  | .err die idx => Sys2Proof.Machine.execErr die idx s
  | .ack die idx => Sys2Proof.Machine.execAck die idx s
  | .ackTimer die stream => Sys2Proof.Machine.execAckTimer die stream s
  | .nack die idx => Sys2Proof.Machine.execNack die idx s
  | .nackBackoffExpiry die stream => Sys2Proof.Machine.execNackBackoffExpiry die stream s
  | .retransmitTimeout die stream => Sys2Proof.Machine.execRetransmitTimeout die stream s
  | .linkDead link cause => Sys2Proof.Machine.execLinkDead link cause s
  | .dieRemoval die cause => Sys2Proof.Machine.execDieRemoval die cause s
  | .resyncQuiesce => Sys2Proof.Machine.execResyncQuiesce s
  | .resyncExchange => Sys2Proof.Machine.execResyncExchange s
  | .resyncClear => Sys2Proof.Machine.execResyncClear s
  | .resyncResume => Sys2Proof.Machine.execResyncResume s
  | .fenceProbeAnswer die idx => Sys2Proof.Machine.execFenceProbeAnswer die idx s
  | .invgo => Sys2Proof.Machine.execInvgo s
  | .inv die => Sys2Proof.Machine.execInv die s
  | .invack die => Sys2Proof.Machine.execInvack die s
  | .invResendTimer die => Sys2Proof.Machine.execInvResendTimer die s
  | .wbRewalk walk => Sys2Proof.Machine.execWbRewalk walk s
  | .squareArrival idx => Sys2Proof.Machine.execSquareArrival idx s
  | .barrierRelease idx => Sys2Proof.Machine.execBarrierRelease idx s
  | .barrierWithdraw idx => Sys2Proof.Machine.execBarrierWithdraw idx s
  | .barrierWithdrawAnswer idx => Sys2Proof.Machine.execBarrierWithdrawAnswer idx s
  | .hostRead port a len => Sys2Proof.Machine.execHostRead port a len s
  | .hostWrite port a data => Sys2Proof.Machine.execHostWrite port a data s
  | .hostAtomic port a op dw page second v cmp => Sys2Proof.Machine.execHostAtomic port a op dw page second v cmp s
  | .lvlreq k code => Sys2Proof.Machine.execLvlreq k code s
  | .levelRampSettle k => Sys2Proof.Machine.execLevelRampSettle k s
  | .ramptabWrite k v => Sys2Proof.Machine.execRamptabWrite k v s
  | .lock k => Sys2Proof.Machine.execLock k s
  | .slewLimiterStep k => Sys2Proof.Machine.execSlewLimiterStep k s
  | .hbeat => Sys2Proof.Machine.execHbeat s
  | .fwloss update => Sys2Proof.Machine.execFwloss update s
  | .thermalTrip k temp => Sys2Proof.Machine.execThermalTrip k temp s
  | .converterCurrentLimit k => Sys2Proof.Machine.execConverterCurrentLimit k s
  | .powerOnReset m0ok m1ok fail tabs => Sys2Proof.Machine.execPowerOnReset m0ok m1ok fail tabs s
  | .devrst fail tabs => Sys2Proof.Machine.execDevrst fail tabs s
  | .atgo => Sys2Proof.Machine.execAtgo s
  | .attestationReportDone => Sys2Proof.Machine.execAttestationReportDone s
  | .pcctlClear die => Sys2Proof.Machine.execPcctlClear die s
  | .roceSend port q => Sys2Proof.Machine.execRoceSend port q s
  | .roceWrite port q => Sys2Proof.Machine.execRoceWrite port q s
  | .roceWriteImm port q => Sys2Proof.Machine.execRoceWriteImm port q s
  | .roceRead port q => Sys2Proof.Machine.execRoceRead port q s
  | .incomingSend port q data => Sys2Proof.Machine.execIncomingSend port q data s
  | .incomingRdmaWrite port q key addr data imm => Sys2Proof.Machine.execIncomingRdmaWrite port q key addr data imm s
  | .incomingRdmaRead port q key addr len => Sys2Proof.Machine.execIncomingRdmaRead port q key addr len s
  | .roceCompletion port q status data => Sys2Proof.Machine.execRoceCompletion port q status data s
  | .sqdb port q v => Sys2Proof.Machine.execSqdb port q v s
  | .rqdb port q v => Sys2Proof.Machine.execRqdb port q v s
  | .cqdb port q v => Sys2Proof.Machine.execCqdb port q v s
  | .qpStateWrite port q v => Sys2Proof.Machine.execQpStateWrite port q v s
  | .registerWrite w off v => Sys2Proof.Machine.execRegisterWrite w off v s
  | .flitBoundary port => Sys2Proof.Machine.execFlitBoundary port s
  | .flitArrival port corrupt => Sys2Proof.Machine.execFlitArrival port corrupt s
  | .linkRetrained link => Sys2Proof.Machine.execLinkRetrained link s
  | .accessPerformed acc => Sys2Proof.Machine.execAccessPerformed acc s
  | .pageWalkComplete walk => Sys2Proof.Machine.execPageWalkComplete walk s
  | .instructionCacheFill core => Sys2Proof.Machine.execInstructionCacheFill core s
  | .copyExecutionFault eng => Sys2Proof.Machine.execCopyExecutionFault eng s
  | .keyExecutionFault core => Sys2Proof.Machine.execKeyExecutionFault core s
  | .thermalTripClear k => Sys2Proof.Machine.execThermalTripClear k s
  | .dieRejoin die => Sys2Proof.Machine.execDieRejoin die s
  | .ethernetLinkState port up => Sys2Proof.Machine.execEthernetLinkState port up s
  | .roceAckTimeout port q => Sys2Proof.Machine.execRoceAckTimeout port q s
  | .doorbellLineReread port q => Sys2Proof.Machine.execDoorbellLineReread port q s

end Sys2Proof.Machine
end

