-- ==== Sys2Proof/Machine/Sequencer.lean ====
section
/-!
DEFINITION. What one action of the machine runs: the sequencer's next instruction (R106, R111 to R114, R411, R414), a command
that its executor works on, a fabric node, a task-graph node, an event, or the passing of time.
-/

namespace Sys2Proof.Machine

/-- The words of the instruction at an address, or the address whose line is missing (R54, R106). -/
def fetchWords (k : Core) (pc : Word) : Except Word (List W32) :=
  match cachedWord k pc with
  | none => .error pc
  | some w =>
    if w.extractLsb' 26 6 == 0x3F then
      match cachedWord k (pc + 4), cachedWord k (pc + 8), cachedWord k (pc + 12), cachedWord k (pc + 16) with
      | none, _, _, _ => .error (pc + 4)
      | _, none, _, _ => .error (pc + 8)
      | _, _, none, _ => .error (pc + 12)
      | _, _, _, none => .error (pc + 16)
      | some a, some b, some c, some d => .ok [w, a, b, c, d]
    else .ok [w]

/-- Decode and run the words at the program counter: an undecodable word raises ILLEGAL with the word in TVAL (R40, R141). -/
def runWords (s : State) (ws : List W32) : Res :=
  match decode ws with
  | .error _ => .next (preciseFault s cILLEGAL 0 ((ws.headD 0).setWidth 64))
  | .ok i => exec i s

/-- The running context fetches and runs one instruction; a missing line is a yielding stall, a failed fetch a precise
fault (R106). -/
def runNext (s : State) : Res :=
  let k := s.me
  match (k.handler k.bank).stall with
  | some (.fetchFault code malformed va) =>
    .next (preciseFault (s.modMe fun k => k.modHandler k.bank fun h => { h with stall := none }) code (if malformed then 1 else 0) va)
  | _ =>
    match fetchWords k k.pc with
    | .error va => .next (stallOn s (.line va.toNat))
    | .ok ws => runWords s ws

/-- Whether the sequencers of a plot run (R203, R405, R416). -/
def seqRuns (q : Plot) : Bool := q.state == .armed || q.state == .hostwait || q.state == .saving

/-- One move of a sequencer: re-injected entries first (R414), then a held fault at the boundary (R411), then selection (R111)
or the next instruction. A stopped sequencer and one that waits for the host do not move (R140, R416). -/
def seqStep (s0 : State) (c : Nat) : Res :=
  let s := { s0 with cur := { Ctx.init with core := c } }
  let k := s.core c
  match s.plotOf c with
  | none => .next s0
  | some q =>
    if !seqRuns q || k.stopped || (k.trap.on && (!k.trap.routine || k.trap.hosted)) then .next s0
    else
      match k.reinj with
      | r :: _ =>
        if r.drop then .next (s.modCore c fun k => dropEntry { k with reinj := k.reinj.drop 1 } r)
        else match decodeCommand r.cmd with
        | .error _ => .refused .illFormed
        | .ok i => exec i { s with cur := { s.cur with cmd := r.cmd, xt := r.xt, iaddr := r.iaddr, replay := some r } }
      | [] =>
        if !k.held.isEmpty && !k.trap.on then .next (takeHeld s c)
        else
          match k.running with
          | none => exec (.handlerDispatch c) s
          | some _ => runNext s

/-- The executor of an outstanding command moves (R56). -/
def cmdStep (s : State) (core id : Nat) : Res :=
  match (s.core core).cmd id with
  | none => .next s
  | some c =>
    match decodeCommand c.cmd with
    | .error _ => .refused .illFormed
    | .ok i => exec i { s with cur := { Ctx.init with core := core, slot := id, xt := c.xt, iaddr := c.iaddr, cmd := c.cmd } }

/-- The node word that a cell holds for a stage in its current bay (R70, R205). -/
def nodeWord (s : State) (core cell stage : Nat) : Word :=
  ((tget Bay.init (s.cell core cell).bays (s.cell core cell).bay).nodes).getD stage 0

/-- A fabric node is tried: a stage without a live node does nothing (R63). -/
def nodeStep (s : State) (core cell stage : Nat) : Res :=
  let w := nodeWord s core cell stage
  if !w.getLsbD 0 then .next s
  else
    match decodeNode w with
    | .error _ => .refused .illFormed
    | .ok i => exec i { s with cur := { Ctx.init with core := core, cell := cell, stage := stage } }

/-- A walker runs the node that it has claimed (R390, R394). A record that cannot be read or has no assigned type marks the
node FAULT. -/
def graphStep (s : State) (die : Nat) (va : Word) : Res :=
  if !s.claimed.contains (die, va) then .next s
  else
    match readVa s s.regs.gptr va 64 with
    | .error e => .next (nodeFault { s with claimed := s.claimed.filter fun x => x != (die, va) } va e.1 e.2)
    | .ok bs =>
      match decodeGraph (leBv 512 bs) with
      | .error _ => .next (nodeFault { s with claimed := s.claimed.filter fun x => x != (die, va) } va cFORMAT va)
      | .ok i => exec i { s with cur := { Ctx.init with die := die, node := va } }

/-- An event is a constructor that no word stands for. -/
def isEvent (i : Instr) : Bool := (encode i).isEmpty

/-- Run one action. A port slot of a cell (stages 6 and 7) consumes a marker that stands at an engine's egress slot (R320). -/
def runAct (s : State) : Act → Res
  | .seq core => if core < Config.cores then seqStep s core else .fault .noSuchUnit
  | .cmd core id => if core < Config.cores then cmdStep s core id else .fault .noSuchUnit
  | .node core cell stage =>
    if core < Config.cores && cell < 8 && stage < 6 then nodeStep s core cell stage
    else if core < Config.cores && cell < 8 && stage < 8 then .next (slotSink s core cell (stage - 6))
    else .fault .noSuchUnit
  | .graph die va => if die < 4 then graphStep s die va else .fault .noSuchUnit
  | .ev i => if isEvent i then exec i s else .refused .illFormed
  | .tick n => .next (passTime s n)

/-- A line of the instruction cache that begins with some words (R106). -/
def lineOf (ws : List W32) : BitVec 512 := BitVec.ofNat 512 (ws.foldr (fun w n => w.toNat + 2 ^ 32 * n) 0)

/-- Core 0 holds an armed plot of one core whose handler c0 runs at 0x1000, where the cached line holds `ws` (log 14). -/
def placeWords (s : State) (ws : List W32) : State :=
  let k : Core := { Core.init with
    plot := some 1, running := some 0, last := 0, pc := 0x1000, icache := [(0x40, lineOf ws)]
    handlers := [(0, { Handler.init with valid := true, entry := 0x1000, state := .running })] }
  let q : Plot := { Plot.init with id := 1, state := .armed, codebase := 0x1000, trapoff := 0x100 }
  { s with sched := [.seq 0], nextId := max s.nextId 1, plots := q :: s.plots.filter (fun p => p.id != 1),
           cores := tset Core.init s.cores 0 k, lease := tset Lease.free s.lease 0 (.armed 1) }

end Sys2Proof.Machine
end

