-- ==== Sys2Proof/Machine/Step.lean ====
section
/-!
DEFINITION. One step of the package: the next action of the schedule, or the next move of the sequencer that moved last.
-/

namespace Sys2Proof.Machine

/-- One step. -/
def step (s : State) : Host.Outcome State Fault Refusal :=
  match s.sched with
  | [] => runAct s (.seq s.cur.core)
  | a :: r => runAct { s with sched := r } a

/-- The state in which the next step fetches and runs the instruction with these bits (log 14). -/
def State.withFetchWord (s : State) (nbits w : Nat) : State := placeWords s (cutWords (nbits / 32) w)

end Sys2Proof.Machine
end

