-- ==== Sys2Proof/Safety.lean ====
section
/-!
DEFINITION. What counts as a safe state and a safe run, and the few words in which the claims speak of a sequencer.
-/

namespace Sys2Proof.Machine

/-- The device and host memories are in canonical form. -/
def State.memOk (s : State) : Bool := Memory.wf s.mem && Memory.wf s.hostMem

/-- A step answers a next state. -/
def stepsOn (s : State) : Prop := ∃ t, step s = .next t

/-- None of the registers is pending on the acting core, so that no stall of R114 comes first. -/
def State.clear (s : State) (rs : List Reg) : Prop := ∀ r ∈ rs, s.me.isPending r = false

/-- The acting core has written `v` to `d` and completed a one-word instruction (R104, R130). -/
def State.wrote (s : State) (d : Reg) (v : Word) : State := advance s fun k => k.wr d v

/-- The acting executor works on the outstanding command `c`, which is accepted or waiting. -/
def State.works (s : State) (c : Cmd) : Prop :=
  s.cur.slot ≠ 0 ∧ s.me.cmd s.cur.slot = some c ∧ (c.phase = .accepted ∨ c.phase = .running)

/-- The tile table takes commands in the order of acceptance: no older one is still to be taken (R215). -/
def State.tileTurn (s : State) (c : Cmd) : Prop :=
  s.works c ∧ ∀ x ∈ s.me.cmds, x.id < s.cur.slot → x.cmd.extractLsb' 120 8 = 1 → x.phase ≠ .accepted

/-- The acting command completes with a status (R57). -/
abbrev State.completes (s t : State) (code : Byte) (result : W32) : State := finishCmd t s.cur.core s.cur.slot code result

/-- The acting node has tokens of one kind at the head of every input that it enables, `l` at L, and room on every target (R166, R168). -/
def State.heads (s : State) (n : NodeFields) (l : Token) (kind : BitVec 2) : Prop :=
  nodeRuns s = true ∧ n.el = true ∧ input s 0 = some l ∧ (∀ p ∈ enabled n, ∃ t, input s p = some t ∧ t.kind = kind) ∧
    roomy s n = true

/-- The registers that a scalar instruction or an ISSUE group reads or writes (R57, R114). -/
def regsOf : Instr → List Reg
  | .add d a b | .sub d a b | .and d a b | .or d a b | .xor d a b | .sll d a b | .srl d a b | .sra d a b | .slt d a b
  | .sltu d a b | .mul d a b | .mulh d a b | .mulhu d a b | .div d a b | .divu d a b | .rem d a b | .remu d a b => [d, a, b]
  | .addi d a _ | .andi d a _ | .ori d a _ | .xori d a _ | .slti d a _ | .sltiu d a _ | .ldlD d a _ | .ldlW d a _
  | .stlD d a _ | .stlW d a _ | .ldgD d a _ | .ldgW d a _ | .stgD d a _ | .stgW d a _ | .jalr d a _ | .ldgAcq d a _ => [d, a]
  | .slli d a _ | .srli d a _ | .srai d a _ => [d, a]
  | .bfx d a _ _ | .bfxs d a _ _ | .bfi d a _ _ => [d, a]
  | .clz d a | .ctz d a | .popc d a | .locq d a => [d, a]
  | .beq a b _ | .bne a b _ | .blt a b _ | .bge a b _ | .bltu a b _ | .bgeu a b _ => [a, b]
  | .post a b | .stgRel a b _ => [a, b]
  | .lui d _ | .widx d _ | .jal d _ | .mfs d _ => [d]
  | .loop _ c _ => [c]
  | .hmask a | .hunmask a | .mts a _ | .barr a | .decideReg a | .pref a => [a]
  | .issue xt xb0 xb1 xb2 e2 e1 e0 _ _ => issueRegs xt xb0 xb1 xb2 e2 e1 e0
  | _ => []

/-- The destination of an instruction that computes a register from registers and the word alone (R119 to R122, R133). -/
def computes : Instr → Option Reg
  | .add d _ _ | .sub d _ _ | .and d _ _ | .or d _ _ | .xor d _ _ | .sll d _ _ | .srl d _ _ | .sra d _ _ | .slt d _ _
  | .sltu d _ _ | .mul d _ _ | .mulh d _ _ | .mulhu d _ _ | .div d _ _ | .divu d _ _ | .rem d _ _ | .remu d _ _ => some d
  | .addi d _ _ | .andi d _ _ | .ori d _ _ | .xori d _ _ | .slti d _ _ | .sltiu d _ _ | .slli d _ _ | .srli d _ _
  | .srai d _ _ => some d
  | .bfx d _ _ _ | .bfxs d _ _ _ | .bfi d _ _ _ => some d
  | .clz d _ | .ctz d _ | .popc d _ | .lui d _ | .widx d _ | .mfs d _ => some d
  | _ => none

end Sys2Proof.Machine
end

