-- ==== Sys2Proof/Certificates/Slice0/Obligations.lean ====
section
/-!
DEFINITION. The statements for the provers: what each instruction and event does, what it leaves alone, and what every step keeps.
-/

open Sys2Proof Sys2Proof.Machine

/-- With no operand register pending, each of the twenty ALU forms answers the next state in which xd holds the result of R119 (sums
and differences modulo 2^64, shifts by the low six bits, signed and unsigned comparisons, LUI's sign-extended upper half) and the
instruction has completed; the result is stated over the integers that the registers hold. Each form encodes as the one word that the
last sentence of R119 gives, with the opcode and sub-function of R42 and R43. (R119) -/
def Obligations.AluResults : Prop :=
  (∀ (s : State) (d a b : Reg), s.clear [d, a, b] →
     exec (.add d a b) s = .next (s.wrote d (BitVec.ofNat 64 ((s.rd a).toNat + (s.rd b).toNat))) ∧
     exec (.sub d a b) s = .next (s.wrote d (BitVec.ofInt 64 ((s.rd a).toNat - (s.rd b).toNat))) ∧
     exec (.and d a b) s = .next (s.wrote d (BitVec.ofNat 64 ((s.rd a).toNat &&& (s.rd b).toNat))) ∧
     exec (.or d a b) s = .next (s.wrote d (BitVec.ofNat 64 ((s.rd a).toNat ||| (s.rd b).toNat))) ∧
     exec (.xor d a b) s = .next (s.wrote d (BitVec.ofNat 64 ((s.rd a).toNat ^^^ (s.rd b).toNat))) ∧
     exec (.sll d a b) s = .next (s.wrote d (BitVec.ofNat 64 ((s.rd a).toNat * 2 ^ ((s.rd b).toNat % 64)))) ∧
     exec (.srl d a b) s = .next (s.wrote d (BitVec.ofNat 64 ((s.rd a).toNat / 2 ^ ((s.rd b).toNat % 64)))) ∧
     exec (.sra d a b) s = .next (s.wrote d (BitVec.ofInt 64 ((s.rd a).toInt / 2 ^ ((s.rd b).toNat % 64)))) ∧
     exec (.slt d a b) s = .next (s.wrote d (if (s.rd a).toInt < (s.rd b).toInt then 1 else 0)) ∧
     exec (.sltu d a b) s = .next (s.wrote d (if (s.rd a).toNat < (s.rd b).toNat then 1 else 0))) ∧
  (∀ (s : State) (d a : Reg) (imm : BitVec 16) (sh : BitVec 6), s.clear [d, a] →
     exec (.addi d a imm) s = .next (s.wrote d (BitVec.ofInt 64 ((s.rd a).toInt + imm.toInt))) ∧
     exec (.andi d a imm) s = .next (s.wrote d (BitVec.ofNat 64 ((s.rd a).toNat &&& imm.toNat))) ∧
     exec (.ori d a imm) s = .next (s.wrote d (BitVec.ofNat 64 ((s.rd a).toNat ||| imm.toNat))) ∧
     exec (.xori d a imm) s = .next (s.wrote d (BitVec.ofNat 64 ((s.rd a).toNat ^^^ imm.toNat))) ∧
     exec (.slli d a sh) s = .next (s.wrote d (BitVec.ofNat 64 ((s.rd a).toNat * 2 ^ sh.toNat))) ∧
     exec (.srli d a sh) s = .next (s.wrote d (BitVec.ofNat 64 ((s.rd a).toNat / 2 ^ sh.toNat))) ∧
     exec (.srai d a sh) s = .next (s.wrote d (BitVec.ofInt 64 ((s.rd a).toInt / 2 ^ sh.toNat))) ∧
     exec (.slti d a imm) s = .next (s.wrote d (if (s.rd a).toInt < imm.toInt then 1 else 0)) ∧
     exec (.sltiu d a imm) s =
       .next (s.wrote d (if (s.rd a).toNat < (BitVec.ofInt 64 imm.toInt).toNat then 1 else 0)) ∧
     exec (.lui d imm) s = .next (s.wrote d (BitVec.ofInt 64 (imm.toInt * 65536)))) ∧
  (let word := fun (op : Nat) (d a : Reg) (low : Nat) => BitVec.ofNat 32 (op * 2 ^ 26 + d.toNat * 2 ^ 21 + a.toNat * 2 ^ 16 + low)
   (∀ d a b : Reg,
     encode (.add d a b) = [word 1 d a (b.toNat * 2048 + 0)] ∧
     encode (.sub d a b) = [word 1 d a (b.toNat * 2048 + 1)] ∧
     encode (.and d a b) = [word 1 d a (b.toNat * 2048 + 2)] ∧
     encode (.or d a b) = [word 1 d a (b.toNat * 2048 + 3)] ∧
     encode (.xor d a b) = [word 1 d a (b.toNat * 2048 + 4)] ∧
     encode (.sll d a b) = [word 1 d a (b.toNat * 2048 + 5)] ∧
     encode (.srl d a b) = [word 1 d a (b.toNat * 2048 + 6)] ∧
     encode (.sra d a b) = [word 1 d a (b.toNat * 2048 + 7)] ∧
     encode (.slt d a b) = [word 1 d a (b.toNat * 2048 + 8)] ∧
     encode (.sltu d a b) = [word 1 d a (b.toNat * 2048 + 9)]) ∧
   ∀ (d a : Reg) (imm : BitVec 16) (sh : BitVec 6),
     encode (.addi d a imm) = [word 2 d a imm.toNat] ∧
     encode (.andi d a imm) = [word 3 d a imm.toNat] ∧
     encode (.ori d a imm) = [word 4 d a imm.toNat] ∧
     encode (.xori d a imm) = [word 5 d a imm.toNat] ∧
     encode (.slli d a sh) = [word 6 d a sh.toNat] ∧
     encode (.srli d a sh) = [word 7 d a sh.toNat] ∧
     encode (.srai d a sh) = [word 8 d a sh.toNat] ∧
     encode (.slti d a imm) = [word 9 d a imm.toNat] ∧
     encode (.sltiu d a imm) = [word 10 d a imm.toNat] ∧
     encode (.lui d imm) = [word 11 d 0 imm.toNat])

/-- MUL, MULH, MULHU, DIV, DIVU, REM and REMU write the product half, quotient or remainder of R120 for all operands, a zero divisor
and the signed overflow included. BFX, BFXS and BFI are stated bit by bit, CLZ and CTZ by where the zeros end, POPC by a count,
and WIDX by the field of the work identifier that the plot's widths cut out. (R44, R45, R120, R121, R122) -/
def Obligations.MultiplyDivideBitFieldResults : Prop :=
  (∀ (s : State) (d a b : Reg), s.clear [d, a, b] →
     exec (.mul d a b) s = .next (s.wrote d (BitVec.ofNat 64 ((s.rd a).toNat * (s.rd b).toNat))) ∧
     exec (.mulh d a b) s = .next (s.wrote d (BitVec.ofInt 64 ((s.rd a).toInt * (s.rd b).toInt / 2 ^ 64))) ∧
     exec (.mulhu d a b) s = .next (s.wrote d (BitVec.ofNat 64 ((s.rd a).toNat * (s.rd b).toNat / 2 ^ 64))) ∧
     exec (.div d a b) s =
       .next (s.wrote d (if s.rd b = 0 then 0xFFFFFFFFFFFFFFFF else BitVec.ofInt 64 ((s.rd a).toInt.tdiv (s.rd b).toInt))) ∧
     exec (.divu d a b) s =
       .next (s.wrote d (if s.rd b = 0 then 0xFFFFFFFFFFFFFFFF else BitVec.ofNat 64 ((s.rd a).toNat / (s.rd b).toNat))) ∧
     exec (.rem d a b) s = .next (s.wrote d (BitVec.ofInt 64 ((s.rd a).toInt.tmod (s.rd b).toInt))) ∧
     exec (.remu d a b) s = .next (s.wrote d (BitVec.ofNat 64 ((s.rd a).toNat % (s.rd b).toNat)))) ∧
  (∀ (s : State) (d a : Reg) (pos len : BitVec 6) (k : BitVec 3), s.clear [d, a] → bitFieldOk pos len = true →
     (∃ v : Word, exec (.bfx d a pos len) s = .next (s.wrote d v) ∧
       ∀ i, v.getLsbD i = (decide (i ≤ len.toNat) && (s.rd a).getLsbD (pos.toNat + i))) ∧
     (∃ v : Word, exec (.bfxs d a pos len) s = .next (s.wrote d v) ∧
       ∀ i, i < 64 → v.getLsbD i = (s.rd a).getLsbD (pos.toNat + min i len.toNat)) ∧
     (∃ v : Word, exec (.bfi d a pos len) s = .next (s.wrote d v) ∧
       ∀ i, i < 64 → v.getLsbD i =
         if pos.toNat ≤ i ∧ i ≤ pos.toNat + len.toNat then (s.rd a).getLsbD (i - pos.toNat) else (s.rd d).getLsbD i) ∧
     (∃ n, n ≤ 64 ∧ exec (.clz d a) s = .next (s.wrote d (BitVec.ofNat 64 n)) ∧
       (∀ i, 64 - n ≤ i → (s.rd a).getLsbD i = false) ∧ (n < 64 → (s.rd a).getLsbD (63 - n) = true)) ∧
     (∃ n, n ≤ 64 ∧ exec (.ctz d a) s = .next (s.wrote d (BitVec.ofNat 64 n)) ∧
       (∀ i, i < n → (s.rd a).getLsbD i = false) ∧ (n < 64 → (s.rd a).getLsbD n = true)) ∧
     exec (.popc d a) s = .next (s.wrote d (BitVec.ofNat 64 ((List.range 64).countP fun i => (s.rd a).getLsbD i))) ∧
     ∀ q, s.plotOf s.cur.core = some q → (q.widths.getD k.toNat 0) ≤ 64 →
       ((q.widths.getD k.toNat 0) = 64 → (q.widths.take k.toNat).sum = 0) →
       exec (.widx d k) s = .next (s.wrote d
         (BitVec.ofNat 64 (q.wid.toNat / 2 ^ (q.widths.take k.toNat).sum % 2 ^ q.widths.getD k.toNat 0))))

/-- On a core that holds a plot, MFS of each of the nineteen special registers writes its value to xd; CLK is the pace or one tick
later (the model's reading of R14, log 6). MTS to LCn writes a value below 2^32 and raises LOOPCOUNT otherwise; MTS to LSn or LEn
writes while the level is inactive and raises LOOPREG while it is active. TRQN holds the count of the most recent trap (the
model's reading, log 33). (R50, R131, R132, R133) -/
def Obligations.SpecialRegisterMoves : Prop :=
  (∀ (s : State) (d : Reg) (q : Plot), s.clear [d] → s.plotOf s.cur.core = some q →
    let k := s.me
    let h := k.handler k.bank
    exec (.mfs d 0x000) s = .next (s.wrote d (h.l0.lc.setWidth 64)) ∧
    exec (.mfs d 0x001) s = .next (s.wrote d (h.l1.lc.setWidth 64)) ∧
    exec (.mfs d 0x002) s = .next (s.wrote d (h.l2.lc.setWidth 64)) ∧
    exec (.mfs d 0x004) s = .next (s.wrote d h.l0.ls) ∧
    exec (.mfs d 0x005) s = .next (s.wrote d h.l1.ls) ∧
    exec (.mfs d 0x006) s = .next (s.wrote d h.l2.ls) ∧
    exec (.mfs d 0x008) s = .next (s.wrote d h.l0.le) ∧
    exec (.mfs d 0x009) s = .next (s.wrote d h.l1.le) ∧
    exec (.mfs d 0x00A) s = .next (s.wrote d h.l2.le) ∧
    exec (.mfs d 0x010) s = .next (s.wrote d q.wid) ∧
    exec (.mfs d 0x011) s = .next (s.wrote d (BitVec.ofNat 64 q.p)) ∧
    exec (.mfs d 0x012) s = .next (s.wrote d (BitVec.ofNat 64
      ((16 * (s.cur.core % 80 / 8 - q.row) + (s.cur.core % 8 - q.col)) % 256))) ∧
    (∃ v, exec (.mfs d 0x013) s = .next (s.wrote d v) ∧ (v = s.pace ∨ v = s.pace + 1)) ∧
    exec (.mfs d 0x014) s = .next (s.wrote d (k.chan.setWidth 64)) ∧
    exec (.mfs d 0x015) s = .next (s.wrote d q.seed) ∧
    exec (.mfs d 0x020) s = .next (s.wrote d (k.tcause.setWidth 64)) ∧
    exec (.mfs d 0x021) s = .next (s.wrote d k.tepc) ∧
    exec (.mfs d 0x022) s = .next (s.wrote d k.tval) ∧
    exec (.mfs d 0x023) s = .next (s.wrote d (BitVec.ofNat 64 k.trqn))) ∧
  (∀ (s : State) (a : Reg) (n : Fin 3), s.clear [a] →
    let v := s.rd a
    let set := fun (f : Loop → Loop) => advance s fun k => k.modHandler k.bank fun h => h.setLevel n (f (h.level n))
    (v.toNat < 2 ^ 32 →
      exec (.mts a (BitVec.ofNat 9 n)) s = .next (set fun l => { l with lc := BitVec.ofNat 32 v.toNat })) ∧
    (2 ^ 32 ≤ v.toNat → exec (.mts a (BitVec.ofNat 9 n)) s = .next (preciseFault s cLOOPCOUNT 0 v)) ∧
    ((n : Nat) ∉ (s.me.handler s.me.bank).order →
      exec (.mts a (BitVec.ofNat 9 (4 + n))) s = .next (set fun l => { l with ls := v }) ∧
      exec (.mts a (BitVec.ofNat 9 (8 + n))) s = .next (set fun l => { l with le := v })) ∧
    ((n : Nat) ∈ (s.me.handler s.me.bank).order →
      exec (.mts a (BitVec.ofNat 9 (4 + n))) s = .next (preciseFault s cLOOPREG 0 v) ∧
      exec (.mts a (BitVec.ofNat 9 (8 + n))) s = .next (preciseFault s cLOOPREG 0 v)))

/-- At an aligned address within 32 KiB whose bytes no outstanding AMO or AMOC is to write (there each stalls, as R299 has it), LDL.D and LDL.W load the little-endian bytes (the word zero-extended),
and STL.D and STL.W leave every byte outside the stored ones as it was. A misaligned address raises ALIGN and an aligned one
beyond the end PERMISSION, precisely, with TVAL the address. A load into x0 checks the same and discards the value, since x0 takes no
write. (R123) -/
def Obligations.LocalMemoryAccess : Prop :=
  ∀ (s : State) (d a : Reg) (imm : BitVec 16), s.clear [d, a] →
    let ea := BitVec.ofInt 64 ((s.rd a).toInt + imm.toInt)
    let x := ea.toNat
    (x % 8 = 0 → x ≤ 0x7FF8 → heldLocal s.me x 8 = false →
      (∃ v : Word, exec (.ldlD d a imm) s = .next (s.wrote d v) ∧
        ∀ i < 8, v.extractLsb' (8 * i) 8 = mbyte s.me.lmem (x + i)) ∧
      ∃ m : Mem, exec (.stlD d a imm) s = .next (advance s fun k => { k with lmem := m }) ∧
        ∀ y, mbyte m y = if x ≤ y ∧ y < x + 8 then (s.rd d).extractLsb' (8 * (y - x)) 8 else mbyte s.me.lmem y) ∧
    (x % 4 = 0 → x ≤ 0x7FFC → heldLocal s.me x 4 = false →
      (∃ v : Word, exec (.ldlW d a imm) s = .next (s.wrote d v) ∧ v.toNat < 2 ^ 32 ∧
        ∀ i < 4, v.extractLsb' (8 * i) 8 = mbyte s.me.lmem (x + i)) ∧
      ∃ m : Mem, exec (.stlW d a imm) s = .next (advance s fun k => { k with lmem := m }) ∧
        ∀ y, mbyte m y = if x ≤ y ∧ y < x + 4 then (s.rd d).extractLsb' (8 * (y - x)) 8 else mbyte s.me.lmem y) ∧
    (x % 8 = 0 → x ≤ 0x7FF8 → heldLocal s.me x 8 = true → exec (.ldlD d a imm) s = .next (stallOn s (.localBytes x 8)) ∧
      exec (.stlD d a imm) s = .next (stallOn s (.localBytes x 8))) ∧
    (x % 4 = 0 → x ≤ 0x7FFC → heldLocal s.me x 4 = true → exec (.ldlW d a imm) s = .next (stallOn s (.localBytes x 4)) ∧
      exec (.stlW d a imm) s = .next (stallOn s (.localBytes x 4))) ∧
    (x % 8 ≠ 0 → exec (.ldlD d a imm) s = .next (preciseFault s cALIGN 0 ea) ∧
      exec (.stlD d a imm) s = .next (preciseFault s cALIGN 0 ea)) ∧
    (x % 4 ≠ 0 → exec (.ldlW d a imm) s = .next (preciseFault s cALIGN 0 ea) ∧
      exec (.stlW d a imm) s = .next (preciseFault s cALIGN 0 ea)) ∧
    (x % 8 = 0 → 0x7FF8 < x → exec (.ldlD d a imm) s = .next (preciseFault s cPERMISSION 0 ea) ∧
      exec (.stlD d a imm) s = .next (preciseFault s cPERMISSION 0 ea)) ∧
    (x % 4 = 0 → 0x7FFC < x → exec (.ldlW d a imm) s = .next (preciseFault s cPERMISSION 0 ea) ∧
      exec (.stlW d a imm) s = .next (preciseFault s cPERMISSION 0 ea))

/-- Each conditional branch jumps to pc + 4 x off (no end-of-body test) exactly when its comparison holds and completes otherwise. JAL
and JALR write pc + 4 to xd and jump; the target of JALR uses xa as it was before, and a target that is no multiple of 4 raises
ALIGN and changes nothing. (R38, R47, R127, R130) -/
def Obligations.BranchesAndJumps : Prop :=
  ∀ (s : State) (d a b : Reg) (off imm : BitVec 16) (far : BitVec 21),
    let target := BitVec.ofInt 64 (s.me.pc.toInt + 4 * off.toInt)
    let goto := fun (taken : Prop) [Decidable taken] => if taken then s.modMe fun k => k.jump target else advance s id
    (s.clear [a, b] →
      exec (.beq a b off) s = .next (goto (s.rd a = s.rd b)) ∧
      exec (.bne a b off) s = .next (goto (s.rd a ≠ s.rd b)) ∧
      exec (.blt a b off) s = .next (goto ((s.rd a).toInt < (s.rd b).toInt)) ∧
      exec (.bge a b off) s = .next (goto ((s.rd b).toInt ≤ (s.rd a).toInt)) ∧
      exec (.bltu a b off) s = .next (goto ((s.rd a).toNat < (s.rd b).toNat)) ∧
      exec (.bgeu a b off) s = .next (goto ((s.rd b).toNat ≤ (s.rd a).toNat))) ∧
    (s.clear [d] → exec (.jal d far) s =
      .next (s.modMe fun k => (k.wr d (k.pc + 4)).jump (BitVec.ofInt 64 (k.pc.toInt + 4 * far.toInt)))) ∧
    (s.clear [d, a] →
      let dest := BitVec.ofInt 64 ((s.rd a).toInt + imm.toInt)
      (dest.toNat % 4 = 0 → exec (.jalr d a imm) s = .next (s.modMe fun k => (k.wr d (k.pc + 4)).jump dest)) ∧
      (dest.toNat % 4 ≠ 0 → exec (.jalr d a imm) s = .next (preciseFault s cALIGN 0 dest)))

/-- A nonzero count opens the level as the most recent one with LS, LE and LC as given; a zero count skips past the last instruction,
20 bytes for an ISSUE word and 4 otherwise, without touching the level; a LOOP count of 2^32 or more raises LOOPCOUNT. The end-of-
body test leaves the state alone when no active level ends here, counts down and goes back to LS while LC is above 1, closes a
level at its last pass and then tests the level opened before it, and touches no other handler and nothing else of the core. (R48,
R128, R129, R130) -/
def Obligations.HardwareLoops : Prop :=
  (∀ (s : State) (n : Fin 3) (c : Reg) (e : BitVec 19) (count last : BitVec 12),
     let addr := fun (off : Nat) => s.me.pc + BitVec.ofNat 64 (4 * off)
     let opened := fun (lc : W32) (le : Word) => s.modMe fun k =>
       (k.modHandler k.bank fun h =>
         { h.setLevel n { lc := lc, ls := k.pc + 4, le := le } with order := (n : Nat) :: h.order.erase n }).finish (k.pc + 4)
     let past := fun (le : Word) (w : W32) =>
       s.modMe fun k => k.jump (le + if w.extractLsb' 26 6 = 0x3F then 20 else 4)
     (s.clear [c] →
       ((s.rd c).toNat < 2 ^ 32 → s.rd c ≠ 0 →
         exec (.loop (BitVec.ofNat 2 n) c e) s = .next (opened (BitVec.ofNat 32 (s.rd c).toNat) (addr e.toNat))) ∧
       (∀ w, s.rd c = 0 → cachedWord s.me (addr e.toNat) = some w →
         exec (.loop (BitVec.ofNat 2 n) c e) s = .next (past (addr e.toNat) w)) ∧
       (2 ^ 32 ≤ (s.rd c).toNat → exec (.loop (BitVec.ofNat 2 n) c e) s = .next (preciseFault s cLOOPCOUNT 0 (s.rd c)))) ∧
     (count ≠ 0 →
       exec (.loopi (BitVec.ofNat 2 n) count last) s = .next (opened (BitVec.ofNat 32 count.toNat) (addr last.toNat))) ∧
     (∀ w, cachedWord s.me (addr last.toNat) = some w →
       exec (.loopi (BitVec.ofNat 2 n) 0 last) s = .next (past (addr last.toNat) w))) ∧
  (∀ (k : Core) (npc : Word), let h := k.handler k.bank
     ((∀ n ∈ h.order, (h.level n).le ≠ k.pc) →
       (k.finish npc).pc = npc ∧ (k.finish npc).handler k.bank = h) ∧
     (∀ (pre post : List Nat) (n : Nat), h.order = pre ++ n :: post → (∀ m ∈ pre, (h.level m).le ≠ k.pc) →
       (h.level n).le = k.pc → 1 < (h.level n).lc.toNat →
       (k.finish npc).pc = (h.level n).ls ∧
         (k.finish npc).handler k.bank = h.setLevel n { h.level n with lc := (h.level n).lc - 1 }) ∧
     (∀ n : Nat, n < 3 → h.order = [n] → (h.level n).le = k.pc → (h.level n).lc.toNat ≤ 1 →
       (k.finish npc).pc = npc ∧
         (k.finish npc).handler k.bank = { h.setLevel n { h.level n with lc := 0 } with order := [] }) ∧
     (∀ n m : Nat, n < 3 → m < 3 → n ≠ m → h.order = [n, m] → (h.level n).le = k.pc → (h.level m).le = k.pc →
       (h.level n).lc.toNat ≤ 1 → 1 < (h.level m).lc.toNat →
       (k.finish npc).pc = (h.level m).ls ∧
         (k.finish npc).handler k.bank =
           { ((h.setLevel n { h.level n with lc := 0 }).setLevel m { h.level m with lc := (h.level m).lc - 1 }) with order := [m] }) ∧
     (∀ c, c ≠ k.bank → (k.finish npc).handler c = k.handler c) ∧
     k.finish npc = { k with
       pc := (k.finish npc).pc, handlers := (k.finish npc).handlers, stepping := (k.finish npc).stepping, stopped := (k.finish npc).stopped })

/-- DONE leaves no handler running, the entry IDLE, every active level closed with LC 0 and LS and LE kept. WAITH leaves the entry
WAITING, with the resume address and the loop state after the end-of-body test. Every other handler and the rest of
the core are unchanged, but for the pc of WAITH and the end of a single step. In trap mode the entry is the trap context (the model's choice, log 16). (R115, R130) -/
def Obligations.HandlerTurnEnds : Prop :=
  ∀ (s : State), let b := s.me.bank
    let h := s.me.handler b
    (∃ k : Core, exec .done s = .next (s.setCore s.cur.core k) ∧ k.running = none ∧
      (k.handler b).state = .idle ∧ (k.handler b).order = [] ∧
      (∀ n < 3, ((k.handler b).level n).ls = (h.level n).ls ∧ ((k.handler b).level n).le = (h.level n).le ∧
        ((k.handler b).level n).lc = if n ∈ h.order then 0 else (h.level n).lc) ∧
      (∀ c, c ≠ b → k.handler c = s.me.handler c) ∧
      k = { s.me with handlers := k.handlers, running := none, stepping := k.stepping, stopped := k.stopped }) ∧
    (∃ k : Core, exec .waith s = .next (s.setCore s.cur.core k) ∧ k.running = none ∧
      (k.handler b).state = .waiting ∧ (k.handler b).savedPc = (s.me.finish (s.me.pc + 4)).pc ∧
      (∀ n, (k.handler b).level n = ((s.me.finish (s.me.pc + 4)).handler b).level n) ∧
      (k.handler b).order = ((s.me.finish (s.me.pc + 4)).handler b).order ∧
      (∀ c, c ≠ b → k.handler c = s.me.handler c) ∧
      k = { s.me with handlers := k.handlers, running := none, stepping := k.stepping, stopped := k.stopped, pc := k.pc })

/-- POST to a valid entry inside the plot sends one word of kind 1 with the sender's position, stalls while that inbox is full, and
raises ILLEGAL with TVAL xa when bits 63:12 are not zero, the core lies outside the plot or in a drained row, or the entry is
invalid. HMASK sets and HUNMASK clears MASK of every channel whose bit of xa is 1; no other channel and nothing else of the core
changes, and bits 63:16 have no effect. (R109, R113, R116, R117) -/
def Obligations.PostAndMasks : Prop :=
  ∀ (s : State) (a b : Reg) (q : Plot), s.plotOf s.cur.core = some q →
    let v := s.rd a
    let row := v.toNat / 256 % 16
    let col := v.toNat / 16 % 16
    let ch := v.toNat % 16
    let dst := coreAt q.die (q.col + col) (q.row + row)
    let bad := 4096 ≤ v.toNat ∨ q.h ≤ row ∨ q.w ≤ col ∨ ((s.core dst).handler ch).valid = false ∨ row ∈ q.drained
    (s.clear [a, b] →
      (bad → exec (.post a b) s = .next (preciseFault s cILLEGAL 0 v)) ∧
      (¬bad → inboxLoad s dst ch < 4 →
        let w : CtlWord := CtlWord.mk s.cur.core dst ch (s.rd b) (BitVec.ofNat 16 (1 + 256 * (corePos s s.cur.core).toNat))
        exec (.post a b) s = .next (advance { s with flight := s.flight ++ [w] } id)) ∧
      (¬bad → 4 ≤ inboxLoad s dst ch → exec (.post a b) s = .next (stallOn s (.inbox dst ch)))) ∧
    (s.clear [a] →
      (∃ hs, exec (.hmask a) s = .next (advance s fun k => { k with handlers := hs }) ∧
        ∀ c, tget Handler.init hs c =
          if c < 16 ∧ v.getLsbD c then { s.me.handler c with mask := true } else s.me.handler c) ∧
      ∃ hs, exec (.hunmask a) s = .next (advance s fun k => { k with handlers := hs }) ∧
        ∀ c, tget Handler.init hs c =
          if c < 16 ∧ v.getLsbD c then { s.me.handler c with mask := false } else s.me.handler c)

/-- With a translation at hand and neither an acquire nor another handler's FENCE in progress, an aligned LDG puts one read of its size into the outstanding accesses, marks only xd pending and
completes; an aligned STG puts one write with the bytes of xd there. No register value, no byte of device, host or local memory
changes at the issue. A misaligned address raises ALIGN and one that is not canonical TRANSLATION, precisely. (R46, R124, R57,
R283) -/
def Obligations.DeviceLoadsAndStores : Prop :=
  (∀ (s u : State) (d a : Reg) (imm : BitVec 16) (e : TcEntry), s.clear [d, a] → s.me.acq = none → otherFence s.me = false →
    let c := s.cur.core
    let ea := BitVec.ofInt 64 ((s.rd a).toInt + imm.toInt)
    (ea.toNat % 8 = 0 → translate s c (coreRoot s c) ea false false = (.hit e, u) →
      exec (.ldgD d a imm) s = .next (issueLoad u d ea 8 false 0 e)) ∧
    (ea.toNat % 4 = 0 → translate s c (coreRoot s c) ea false false = (.hit e, u) →
      exec (.ldgW d a imm) s = .next (issueLoad u d ea 4 false 0 e)) ∧
    (ea.toNat % 8 = 0 → translate s c (coreRoot s c) ea true false = (.hit e, u) →
      exec (.stgD d a imm) s = .next (issueStore u ea 8 (u.rd d) none e)) ∧
    (ea.toNat % 4 = 0 → translate s c (coreRoot s c) ea true false = (.hit e, u) →
      exec (.stgW d a imm) s = .next (issueStore u ea 4 (u.rd d) none e)) ∧
    (ea.toNat % 8 ≠ 0 → exec (.ldgD d a imm) s = .next (preciseFault s cALIGN 0 ea) ∧
      exec (.stgD d a imm) s = .next (preciseFault s cALIGN 0 ea)) ∧
    (ea.toNat % 4 ≠ 0 → exec (.ldgW d a imm) s = .next (preciseFault s cALIGN 0 ea) ∧
      exec (.stgW d a imm) s = .next (preciseFault s cALIGN 0 ea)) ∧
    (ea.toNat % 8 = 0 → canonical ea = false → exec (.ldgD d a imm) s = .next (preciseFault s cTRANSLATION 0 ea) ∧
      exec (.stgD d a imm) s = .next (preciseFault s cTRANSLATION 0 ea))) ∧
  (∀ (s : State) (d : Reg) (ea : Word) (n : Nat) (e : TcEntry), e.homeOf s ea = dieOf s.cur.core →
    let t := issueLoad s d ea n false 0 e
    let phys := if d = 0 then 0 else physReg s.me.bank d.toNat
    (∃ x : Access, t.accs = s.accs ++ [x] ∧ x.agent = .seq s.cur.core ∧ x.kind = .read ∧ x.va = ea ∧ x.len = n ∧
      x.dest = .reg s.cur.core phys s.me.pc ∧ x.phase = .issued) ∧
    t.me.regs = s.me.regs ∧ (d ≠ 0 → tget false t.me.pend phys = true) ∧
    (∀ p, p ≠ phys → tget false t.me.pend p = tget false s.me.pend p) ∧ t.me.pc = (s.me.finish (s.me.pc + 4)).pc ∧
    t.mem = s.mem ∧ t.hostMem = s.hostMem ∧ t.me.lmem = s.me.lmem) ∧
  (∀ (s : State) (ea v : Word) (n : Nat) (e : TcEntry), e.homeOf s ea = dieOf s.cur.core →
    let t := issueStore s ea n v none e
    (∃ x : Access, t.accs = s.accs ++ [x] ∧ x.agent = .seq s.cur.core ∧ x.kind = .write ∧ x.va = ea ∧ x.len = n ∧
      x.data = natLe n v.toNat ∧ x.phase = .issued) ∧
    t.me.regs = s.me.regs ∧ t.me.pend = s.me.pend ∧ t.me.pc = (s.me.finish (s.me.pc + 4)).pc ∧
    t.mem = s.mem ∧ t.hostMem = s.hostMem ∧ t.me.lmem = s.me.lmem)

/-- LDG.ACQ and STG.REL with a translation at hand issue their access with the scope of the word; while an acquire of the core is
outstanding, or another handler's FENCE in progress, they stall. A FENCE below SYSTEM scope completes when every earlier access of the
sequencer has reached the scope and stalls before; FENCE.SYSTEM completes when, moreover, no die may hold a write of the core that is not
known to be performed, or all its probes have been answered. A FENCE that has found its scope reached completes when it is executed again.
(R51, R284, R285, R286, R292) -/
def Obligations.OrderedAccessesAndFences : Prop :=
  ∀ (s u : State) (d a b : Reg) (scope : BitVec 2) (e : TcEntry),
    let c := s.cur.core
    let ends := fun (i : Instr) => ∃ t, exec i s = .next t ∧ t.me.fence = none ∧ t.me.pc = (s.me.finish (s.me.pc + 4)).pc ∧
      t.me.regs = s.me.regs ∧ t.me.pend = s.me.pend ∧ t.me.lmem = s.me.lmem ∧ t.accs = s.accs ∧ t.mem = s.mem ∧ t.hostMem = s.hostMem
    let mark : Fence := { chan := s.me.bank, iaddr := s.me.pc, scope := scope, done := false }
    (s.clear [d, a] → s.me.acq = none → otherFence s.me = false → (s.rd a).toNat % 8 = 0 →
      translate s c (coreRoot s c) (s.rd a) false false = (.hit e, u) →
      exec (.ldgAcq d a scope) s = .next (issueLoad u d (u.rd a) 8 true scope e)) ∧
    (s.clear [a, b] → s.me.acq = none → otherFence s.me = false → (s.rd a).toNat % 8 = 0 →
      translate s c (coreRoot s c) (s.rd a) true false = (.hit e, u) →
      exec (.stgRel a b scope) s = .next (issueStore u (u.rd a) 8 (u.rd b) (some scope) e)) ∧
    (s.clear [d, a] → s.clear [a, b] → s.me.acq ≠ none →
      exec (.ldgAcq d a scope) s = .next (stallOn s .acquire) ∧ exec (.stgRel a b scope) s = .next (stallOn s .acquire)) ∧
    (s.clear [d, a] → s.clear [a, b] → s.me.acq = none → otherFence s.me = true →
      exec (.ldgAcq d a scope) s = .next (stallOn s .fence) ∧ exec (.stgRel a b scope) s = .next (stallOn s .fence) ∧
      exec (.fence scope) s = .next (stallOn s .fence)) ∧
    (scope ≠ 3 → s.me.acq = none → s.me.fence = none → seqReached s c scope = true → ends (.fence scope)) ∧
    (s.me.acq = none → s.me.fence = none → s.me.probes = [] → unknownDies s (.seq c) = [] → seqReached s c 2 = true → seqReached s c 3 = true →
      ends (.fence 3)) ∧
    (s.me.acq = none → s.me.fence = some { mark with scope := 3 } → s.me.probeFor = some 0 → s.me.probes = [] → seqReached s c 3 = true →
      ends (.fence 3)) ∧
    (s.me.acq = none → s.me.fence = some { mark with done := true } → ends (.fence scope)) ∧
    (scope ≠ 3 → s.me.acq = none → s.me.fence = none → seqReached s c scope = false →
      exec (.fence scope) s = .next (stallOn (s.modMe fun k => { k with fence := some mark }) .fence))

/-- A first BARR with reserved bits set, a number above 32 bits or a count of 0 raises ILLEGAL. Otherwise, with its earlier accesses
performed at DEVICE scope and no arrival held back in a memory path nor a withdrawal of its sequencer still to leave, it records one waiter, sends one arrival to a square of its own die and stalls. Executed again it
completes once woken, raises ILLEGAL with the operand of its arrival once refused, and stalls otherwise; the waiter is gone in the first two cases. (R305, R306,
R308) -/
def Obligations.BarrierArrival : Prop :=
  ∀ (s : State) (a : Reg), s.clear [a] →
    let c := s.cur.core
    let v := s.rd a
    let sq := v.toNat % 256
    let n := v.toNat / 65536 % 65536
    let bad := 2 ^ 32 ≤ v.toNat ∨ v.toNat / 256 % 256 ≠ 0 ∨ n = 0
    let w : Waiter := Waiter.mk v sq (dieOf c) c s.me.bank false false
    let m : BarMsg := BarMsg.mk 0 sq (dieOf c) c s.me.bank n false s.nextId
    (myWaiter s = none →
      (bad → exec (.barr a) s = .next (preciseFault s cILLEGAL 0 v)) ∧
      (¬bad → s.me.acq = none → otherFence s.me = false → seqReached s c 2 = true → (∀ x ∈ s.barMsgs, x.op ≠ 4 ∧ ¬(x.op = 2 ∧ x.n = 0 ∧ x.core = c)) →
        sq / 64 = dieOf c →
        exec (.barr a) s = .next (stallOn
          { raceRelease { s with waiters := s.waiters ++ [w] } c 2 with barMsgs := s.barMsgs ++ [m] } .square))) ∧
    (∀ x, myWaiter s = some x →
      let gone := { s with waiters := dropFirst (fun y => y == x) s.waiters }
      (x.refused = false → x.woken = true → exec (.barr a) s = .next (advance gone id)) ∧
      (x.refused = true → exec (.barr a) s = .next (preciseFault gone cILLEGAL 0 x.v)) ∧
      (x.refused = false → x.woken = false → exec (.barr a) s = .next (stallOn s .square)))

/-- Each PHINT writes its kind into the two bits of its own core in HINTS and no other bit. DECIDE, by number or register, on the lead
core with a present bay and no request outstanding records the request and the oldest invocation it binds; with one outstanding it
stalls; elsewhere, for a bay that is absent or a value above 3 it raises ILLEGAL with TVAL as the model reads R135 (log 34).
(R134, R135, R427) -/
def Obligations.HintsAndDecisions : Prop :=
  ∀ (s : State) (a : Reg) (bay : BitVec 2),
    (∀ (kind : BitVec 2) (i : Instr), (kind, i) ∈ [(0, Instr.phintComp), (1, Instr.phintMem), (2, Instr.phintWait)] →
      ∃ hs : BitVec 16,
        exec i s = .next (advance (s.modCluster (clusterOf s.cur.core) fun k => { k with hints := hs }) id) ∧
        ∀ b < 16, hs.getLsbD b = if b / 2 = inCluster s.cur.core then kind.getLsbD (b % 2)
          else (s.cluster (clusterOf s.cur.core)).hints.getLsbD b) ∧
    ∀ q, s.plotOf s.cur.core = some q →
      (q.lead = s.cur.core → q.bays.getLsbD bay.toNat = true → q.decision = none →
        exec (.decideImm bay) s =
          .next (advance (s.modPlot q.id fun p => { p with decision := some bay.toNat, bound := begunWid s q }) id)) ∧
      (q.lead = s.cur.core → q.bays.getLsbD bay.toNat = true → q.decision ≠ none →
        exec (.decideImm bay) s = .next (stallOn s .decide)) ∧
      (q.lead ≠ s.cur.core ∨ q.bays.getLsbD bay.toNat = false →
        exec (.decideImm bay) s = .next (preciseFault s cILLEGAL 0 (BitVec.ofNat 64 (0x94000100 + bay.toNat)))) ∧
      (s.clear [a] →
        (q.lead = s.cur.core → (s.rd a).toNat < 4 → q.bays.getLsbD (s.rd a).toNat = true → q.decision = none →
          exec (.decideReg a) s =
            .next (advance (s.modPlot q.id fun p => { p with decision := some (s.rd a).toNat, bound := begunWid s q }) id)) ∧
        (q.lead = s.cur.core → 4 ≤ (s.rd a).toNat → exec (.decideReg a) s = .next (preciseFault s cILLEGAL 0 (s.rd a))))

/-- PREF completes whether the page translates or faults and yields while a walk is outstanding. LOCQ on an address that does not
translate writes only the number of its die; on one that does it writes each field of R277 at its place: valid, host, placement,
page size, writable, page attribute, dies, removal, hops and channel, and 0 in the reserved bits. (R136, R277) -/
def Obligations.TranslationQueries : Prop :=
  ∀ (s u : State) (d a : Reg),
    let c := s.cur.core
    let va := s.rd a
    (s.clear [a] → ∀ e, (translate s c (coreRoot s c) va false false = (.hit e, u) →
        exec (.pref a) s = .next (advance u id)) ∧
      (∀ f, translate s c (coreRoot s c) va false false = (.fault f, u) → exec (.pref a) s = .next (advance u id)) ∧
      (∀ w, translate s c (coreRoot s c) va false false = (.wait w, u) → exec (.pref a) s = .next (stallOn u (.walk w)))) ∧
    (s.clear [d, a] →
      (∀ f, translate s c (coreRoot s c) va false false = (.fault f, u) →
        exec (.locq d a) s = .next (advance u fun k => k.wr d (BitVec.ofNat 64 (2 ^ 16 * (c / 80))))) ∧
      (∀ e, translate s c (coreRoot s c) va false false = (.hit e, u) →
        ∃ v : Word, exec (.locq d a) s = .next (advance u fun k => k.wr d v) ∧ v.getLsbD 63 = true ∧ v.getLsbD 62 = e.host ∧
          v.extractLsb' 60 2 = e.place ∧ (v.extractLsb' 58 2).toNat = e.size % 4 ∧ v.getLsbD 57 = e.wr ∧ v.getLsbD 56 = e.sa ∧
          v.extractLsb' 19 37 = 0 ∧ (v.extractLsb' 16 3).toNat = c / 80 % 8 ∧
          v.getLsbD 15 = (u.die (e.homeOf u va)).removed ∧ (v.extractLsb' 12 3).toNat = e.homeOf u va % 8 ∧
          (v.extractLsb' 10 2).toNat = hops u (dieOf c) (e.homeOf u va) % 4 ∧ v.extractLsb' 8 2 = 0 ∧
          (v.extractLsb' 0 8).toNat = if e.host then 0 else keyChannel (e.key va) % 256))

/-- Outside trap mode a precise fault enters a trap with its code, the address of the instruction as TEPC and RESUME, and TRAP enters
one after the end-of-body test. Trap entry on a plot with a trap routine writes TCAUSE, TEPC, TVAL and TRQN, starts the trap
context at CODEBASE + TRAPOFF with x31 the frame address and x30 the cause, writes the header fields of the frame, and changes no
general register of the handlers, no handler, no pending mark, no command and no byte of local memory outside the 576 of the
frame. (R137, R141, R411, R412) -/
def Obligations.TrapsAndPreciseFaults : Prop :=
  (∀ (s : State) (core : Nat) (q : Plot) (tcause : W32) (tepc tval resume : Word) (precise engine : Bool),
     s.plotOf core = some q → q.trapoff ≠ 0xFFFFFFFF → (s.core core).replay.length ≤ 16 →
     ∃ k : Core, enterTrap s core tcause tepc tval resume precise engine = s.setCore core k ∧
       k.tcause = tcause ∧ k.tepc = tepc ∧ k.tval = tval ∧ k.trqn = (s.core core).replay.length ∧
       k.trap.on = true ∧ k.running = some 16 ∧ k.pc = q.codebase + q.trapoff.setWidth 64 ∧
       (k.handler 16).order = [] ∧ k.rd 31 = BitVec.ofNat 64 q.tfaddr ∧ k.rd 30 = tcause.setWidth 64 ∧
       (∀ c, c ≠ 16 → k.handler c = (s.core core).handler c) ∧
       (∀ p, p < 24 + 8 * 16 → tget 0 k.regs p = tget 0 (s.core core).regs p) ∧
       k.pend = (s.core core).pend ∧ k.cmds = (s.core core).cmds ∧
       (let fr := mread k.lmem q.tfaddr 576
        leAt fr 0 4 = tcause.toNat ∧ leAt fr 4 1 = (s.core core).replay.length ∧ leAt fr 8 8 = tepc.toNat ∧
        leAt fr 16 8 = tval.toNat ∧ leAt fr 24 8 = resume.toNat ∧
        leAt fr 6 1 = (match (s.core core).running with | none => 0xFF | some c => c % 256) ∧
        (leAt fr 5 1 % 2 = if precise then 1 else 0)) ∧
       ∀ x, x < q.tfaddr ∨ q.tfaddr + 576 ≤ x → mbyte k.lmem x = mbyte (s.core core).lmem x) ∧
  (∀ (s : State) (code : Byte) (detail : Nat) (tval : Word) (c : BitVec 8), s.me.trap.on = false →
     preciseFault s code detail tval =
       enterTrap s s.cur.core (BitVec.ofNat 32 (code.toNat + 256 * detail)) s.me.pc tval s.me.pc true false ∧
     let k := { s.me with pc := (s.me.finish (s.me.pc + 4)).pc, handlers := (s.me.finish (s.me.pc + 4)).handlers }
     exec (.trap c) s =
       .next (enterTrap (s.setCore s.cur.core k) s.cur.core (BitVec.ofNat 32 (256 * c.toNat)) s.me.pc 0 k.pc true false))

/-- Outside trap mode TRET raises ILLEGAL, and a RESUME that is no multiple of 4 raises ALIGN. With every replay entry kept it resumes
the interrupted handler at RESUME with the replay queue re-injected and registers, local memory, commands and the other handlers
as the routine left them; with the frame marked as taken while no handler ran, none runs after it. (R138, R414) -/
def Obligations.TrapReturnResumes : Prop :=
  ∀ (s : State) (q : Plot), s.plotOf s.cur.core = some q →
    let fr := mread s.me.lmem q.tfaddr 576
    (s.me.trap.on = false → exec .tret s = .next (preciseFault s cILLEGAL 0 0xC0000100)) ∧
    (s.me.trap.on = true → leAt fr 5 1 / 2 % 2 = 0 → leAt fr 24 8 % 4 ≠ 0 →
      exec .tret s = .next (preciseFault s cALIGN 0 (BitVec.ofNat 64 (leAt fr 24 8)))) ∧
    (s.me.trap.on = true → leAt fr 5 1 / 2 % 2 = 0 → leAt fr 24 8 % 4 = 0 → leAt fr 4 1 = s.me.replay.length →
      (∀ i < s.me.replay.length, leAt fr (64 + 32 * i + 25) 1 % 2 = 0) →
      ∃ k : Core, exec .tret s = .next (s.setCore s.cur.core k) ∧
        k.trap = { TrapMode.init with resume := BitVec.ofNat 64 (leAt fr 24 8) } ∧
        k.running = some s.me.trap.chan ∧ k.pc = BitVec.ofNat 64 (leAt fr 24 8) ∧
        k.reinj = (s.me.replay.map fun r => { r with drop := false }) ∧ k.replay = [] ∧
        (∀ c, c ≠ 16 → k.handler c = s.me.handler c) ∧ k.regs = s.me.regs ∧ k.lmem = s.me.lmem ∧ k.cmds = s.me.cmds) ∧
    (s.me.trap.on = true → leAt fr 5 1 / 2 % 2 = 1 →
      ∃ k : Core, exec .tret s = .next (s.setCore s.cur.core k) ∧ k.trap.on = false ∧ k.running = none)

/-- The bound command takes each field from its register exactly as E0, E1, E2 and WIDE say. With no named register pending and fewer
than 16 outstanding commands, a legal command is handed to its own meaning and that answers a next state; an illegal one raises
ILLEGAL; with 16 issued and not complete, those of the replay queue among them, the ISSUE stalls. Acceptance appends one outstanding command with its address, channel and token
register, marks that register alone pending and moves past the five words. (R54, R55, R56, R57) -/
def Obligations.IssueAndAcceptance : Prop :=
  (∀ (s : State) (xt xb0 xb1 xb2 : Reg) (e2 e1 e0 wide : Bool) (cmd : Cmd128), issueOk xb0 xb1 xb2 e2 e1 e0 wide = true →
     let c := bindFields s.me xb0 xb1 xb2 e2 e1 e0 wide cmd
     let u := { s with cur := { s.cur with cmd := c, xt := xt.toNat, slot := 0, replay := none } }
     (c.extractLsb' 96 32 = cmd.extractLsb' 96 32 ∧
       c.extractLsb' 0 32 = (if e0 then (s.rd xb0).extractLsb' 0 32 else cmd.extractLsb' 0 32) ∧
       c.extractLsb' 32 32 = (if wide then (s.rd xb0).extractLsb' 32 32 else if e1 then (s.rd xb1).extractLsb' 0 32
         else cmd.extractLsb' 32 32) ∧
       c.extractLsb' 64 32 = (if e2 then (s.rd xb2).extractLsb' 0 32 else cmd.extractLsb' 64 32)) ∧
     (s.clear [xt, xb0, xb1, xb2] → s.me.cmds.length + s.me.replay.length + s.me.reinj.length < 16 → s.me.acq = none →
       otherFence s.me = false →
       (∀ i, legalCommand c e2 e1 e0 wide = .ok i →
         ∃ t, exec i u = .next t ∧ exec (.issue xt xb0 xb1 xb2 e2 e1 e0 wide cmd) s = .next t) ∧
       (∀ x, legalCommand c e2 e1 e0 wide = .error x →
         exec (.issue xt xb0 xb1 xb2 e2 e1 e0 wide cmd) s = .next (preciseFault s cILLEGAL 0
           ((0x3F#6 ++ xt ++ xb0 ++ xb1 ++ xb2 ++ BitVec.ofBool e2 ++ BitVec.ofBool e1 ++ BitVec.ofBool e0 ++ BitVec.ofBool wide ++ 0#2).setWidth 64)))) ∧
     (s.clear [xt, xb0, xb1, xb2] → 16 ≤ s.me.cmds.length + s.me.replay.length + s.me.reinj.length →
       exec (.issue xt xb0 xb1 xb2 e2 e1 e0 wide cmd) s = .next (stallOn s .slots))) ∧
  (∀ (s : State) (desc : List Byte) (prog : Nat), s.cur.replay = none →
     let t := accept s desc prog
     let phys := physReg s.me.bank s.cur.xt
     (∃ c : Cmd, t.me.cmds = s.me.cmds ++ [c] ∧ c.cmd = s.cur.cmd ∧ c.xt = s.cur.xt ∧ c.iaddr = s.me.pc ∧ c.chan = s.me.bank ∧
       c.phase = .accepted ∧ c.id = s.nextId + 1 ∧ c.desc = desc) ∧
     (s.cur.xt ≠ 0 → tget false t.me.pend phys = true) ∧
     (∀ p, p ≠ phys ∨ s.cur.xt = 0 → tget false t.me.pend p = tget false s.me.pend p) ∧
     t.me.pc = (s.me.finish (s.me.pc + 20)).pc ∧ t.me.regs = s.me.regs ∧ t.me.lmem = s.me.lmem ∧ t.me.tiles = s.me.tiles ∧
     t.mem = s.mem ∧ t.nextId = s.nextId + 1)

/-- A register reads what was last written to it, x0 always reads 0 and a write to it changes nothing, x1 to x23 are shared by all
handlers and x24 to x31 belong to one bank. An instruction that names a pending register answers the state in which the handler
has stalled at its address, with nothing else of the core changed, whatever the instruction and whichever handler made the
register pending. (R104, R113, R114) -/
def Obligations.RegisterFileAndPendingStalls : Prop :=
  ((∀ (k : Core) (d r : Reg) (v : Word), (k.wr d v).rd r = if r = 0 then 0 else if r = d then v else k.rd r) ∧
   (∀ (k : Core) (c : Nat) (r : Reg), r.toNat < 24 → ({ k with running := some c } : Core).rd r = k.rd r) ∧
   (∀ (k : Core) (c : Nat) (d r : Reg) (v : Word), c ≠ k.bank → 24 ≤ d.toNat →
     ({ k.wr d v with running := some c } : Core).rd r = ({ k with running := some c } : Core).rd r) ∧
   (∀ (k : Core) (v : Word), k.wr 0 v = k) ∧
   ∀ (k : Core) (d : Reg) (v : Word), k.wr d v = { k with regs := (k.wr d v).regs }) ∧
  ((∀ (i : Instr) (s : State) (r : Reg), r ∈ regsOf i → s.me.isPending r = true →
     ∃ q ∈ regsOf i, s.me.isPending q = true ∧ exec i s = .next (stallOn s (.reg (physReg s.me.bank q.toNat)))) ∧
   ∀ (s : State) (why : Stall), ∃ k : Core, stallOn s why = s.setCore s.cur.core k ∧ k.running = none ∧
     (k.handler s.me.bank) =
       { s.me.handler s.me.bank with state := .stalled, stall := some why, savedPc := s.me.pc } ∧
     (∀ c, c ≠ s.me.bank → k.handler c = s.me.handler c) ∧
     k = { s.me with handlers := k.handlers, running := none, stepping := k.stepping, stopped := k.stopped })

/-- Every ALU, multiply, bit-field, WIDX and MFS form answers a next state in which only the acting core differs; there only the
destination register (none for x0), the pc, the running handler's loop state and the debug flags of a single step may differ, and
pc and loop state are those of the end-of-body test. (R104, R119, R120, R121, R130) -/
def Obligations.ComputingInstructionFrame : Prop :=
  ∀ (i : Instr) (d : Reg) (s : State), computes i = some d → s.clear (regsOf i) →
    ∃ k : Core, exec i s = .next (s.setCore s.cur.core k) ∧
      (∀ r : Reg, r ≠ d → k.rd r = s.rd r) ∧
      (∀ p, p ≠ physReg s.me.bank d.toNat → tget 0 k.regs p = tget 0 s.me.regs p) ∧
      (d = 0 → k.regs = s.me.regs) ∧
      (∀ c, c ≠ s.me.bank → k.handler c = s.me.handler c) ∧
      k.handlers = (s.me.finish (s.me.pc + 4)).handlers ∧ k.pc = (s.me.finish (s.me.pc + 4)).pc ∧
      k = { s.me with regs := k.regs, pc := k.pc, handlers := k.handlers, stepping := k.stepping, stopped := k.stopped }

/-- For every well-formed instruction of the four encoded layers (scalar words, commands, node words, graph nodes), at every value of
every operand, decode of encode is the instruction. An event has no words. (R38, R40, R54, R59, R63, R72, R389) -/
def Obligations.DecodeEncodeRoundTrip : Prop :=
  ∀ i : Instr, wf i = true → encode i ≠ [] → decode (encode i) = .ok i

/-- The words that the spec works out by hand, of scalar instructions, ISSUE groups, commands of five classes and node words, and one
END node, decode to the instructions they stand for. A step of a running sequencer whose word decodes to no instruction raises
ILLEGAL with the word as TVAL. (R39, R40, R41, R54, R59, R63, R389) -/
def Obligations.DecodingSpecWords : Prop :=
  (decode [0x85003007] = .ok (.loopi 1 3 7) ∧ decode [0x80280004] = .ok (.loop 0 5 4) ∧
   decode [0x08A0000A] = .ok (.addi 5 0 10) ∧ decode [0x04A55000] = .ok (.add 5 5 10) ∧
   decode [0x70C80002] = .ok (.bltu 6 8 2) ∧ decode [0x781FFFD3] = .ok (.jal 0 (BitVec.ofInt 21 (-45))) ∧
   decode [0x8C000200] = .ok (.mts 0 0) ∧ decode [0x88000000] = .ok .done ∧ decode [0x90A60040] = .ok (.locq 5 6) ∧
   decode [0x94180200] = .ok (.pref 24) ∧
   decode [0xFD2A0008, 0, 0, 0, 0x0104000C] = .ok (.issue 9 10 0 0 false false true false 0x0104000C000000000000000000000000) ∧
   decode [0xFCB8000C, 0, 0, 0, 0x02010104] = .ok (.issue 5 24 0 0 false false true true 0x02010104000000000000000000000000) ∧
   decodeCommand 0x0104000C000000000000000000000003 = .ok (.advp 12 3) ∧
   decodeCommand 0x02010002000000000000000000000003 = .ok (.spbaseTile 2 3 0) ∧
   decodeCommand 0x02020002000000000000000000000110 = .ok (.spmode 2 0 0x110 0) ∧
   decodeCommand 0x02000012000000040000000000000100 = .ok (.splev 2 1 256 4) ∧
   decodeCommand 0x02030002000000000000000000000000 = .ok (.spgo 2 false 0 0) ∧
   decodeCommand 0x03004000000000000000000000000000 = .ok (.mma 1 false false false 0 0 0 0) ∧
   decodeCommand 0x04000200000000320000018000000008 = .ok (.ktopk false false 2 8 0x180 0x32) ∧
   decodeCommand 0x0503400F000000000000000000000000 = .ok (.csig 1 0 false 15 0 0 0 0) ∧
   decodeCommand 0x04040200000000060000014000000006 = .ok (.kmerge 0 false 2 6 0x140 6) ∧
   decode [0x000C3901, 0x00800018] =
     .ok (.fmul { mods := 0, tgta := 0xC, tgtb := 3, cidx := 3, el := true, er := false, ep := false, imm := true,
                  rsteoi := false, dual := false, brk := false, brkn := 0 }) ∧
   decode [0x20105B01, 0x40481000] =
     .ok (.pack { mods := 8, tgta := 0x800, tgtb := 0x804, cidx := 5, el := true, er := false, ep := true, imm := true,
                  rsteoi := false, dual := false, brk := false, brkn := 0 }) ∧
   decode [0x000C0801, 0x14020008] =
     .ok (.lsum { mods := 2, tgta := 4, tgtb := 3, cidx := 0, el := true, er := false, ep := false, imm := false,
                  rsteoi := false, dual := false, brk := false, brkn := 0 }) ∧
   decode [0x00300E81, 0x60800008] =
     .ok (.carry { mods := 0, tgta := 4, tgtb := 0xC, cidx := 0, el := true, er := true, ep := true, imm := false,
                   rsteoi := true, dual := false, brk := false, brkn := 0 }) ∧
   decode [0x000C0801, 0x61C00006] =
     .ok (.sink { mods := 0, tgta := 3, tgtb := 3, cidx := 0, el := true, er := false, ep := false, imm := false,
                  rsteoi := false, dual := false, brk := false, brkn := 0 }) ∧
   decode [0x00000407, 0, 0x40, 0, 0, 0, 0, 0, 0, 0, 0, 0, 0, 0, 0, 0] =
     .ok (.graphEnd { state := 4, succ0 := 0x40, succ1 := 0, succ2 := 0, succ3 := 0, body0 := 0, body1 := 0, body2 := 0 })) ∧
  (∀ (s : State) (w : W32) (c : Nat) (q : Plot), s.sched = [.seq c] → c < 320 → s.plotOf c = some q → q.state = .armed →
     (s.core c).stopped = false → (s.core c).trap.on = false → (s.core c).reinj = [] → (s.core c).held = [] →
     (s.core c).running ≠ none → ((s.core c).handler (s.core c).bank).stall = none →
     cachedWord (s.core c) (s.core c).pc = some w → w.extractLsb' 26 6 ≠ 0x3F →
     (∀ i, decode [w] ≠ .ok i) →
     step s = .next (preciseFault { s with sched := [], cur := { Ctx.init with core := c } } cILLEGAL 0 (w.setWidth 64)))

/-- When the schedule (the model's own, log 2) gives the turn to a core whose handler runs, and the cached words at its pc decode to
an instruction, the step is exec of that instruction on the state whose acting core is this one; an ISSUE word is decoded with its
four command words. A pc whose line is not cached yields until it is filled. (R38, R40, R54, R106, R107) -/
def Obligations.StepRunsDecodedInstruction : Prop :=
  ∀ (s : State) (w : W32) (c : Nat) (q : Plot) (i : Instr) (rest : List Act), s.sched = .seq c :: rest → c < 320 →
    s.plotOf c = some q → (q.state = .armed ∨ q.state = .hostwait ∨ q.state = .saving) →
    (s.core c).stopped = false → ((s.core c).trap.on = true → (s.core c).trap.routine = true ∧ (s.core c).trap.hosted = false) →
    (s.core c).reinj = [] → ((s.core c).held = [] ∨ (s.core c).trap.on = true) →
    (s.core c).running ≠ none → ((s.core c).handler (s.core c).bank).stall = none →
    let s1 := { s with sched := rest, cur := { Ctx.init with core := c } }
    let k := s.core c
    (cachedWord k k.pc = some w → w.extractLsb' 26 6 ≠ 0x3F → decode [w] = .ok i → step s = exec i s1) ∧
    (∀ w1 w2 w3 w4, cachedWord k k.pc = some w → w.extractLsb' 26 6 = 0x3F → cachedWord k (k.pc + 4) = some w1 →
      cachedWord k (k.pc + 8) = some w2 → cachedWord k (k.pc + 12) = some w3 → cachedWord k (k.pc + 16) = some w4 →
      decode [w, w1, w2, w3, w4] = .ok i → step s = exec i s1) ∧
    (cachedWord k k.pc = none → step s = .next (stallOn s1 (.line k.pc.toNat)))

/-- The eleven tile commands are accepted at ISSUE. When its turn comes, TALLOC makes an entry at the base that the allocation finds,
TFREE zeroes and removes it, TRING sets a ring's fill, TOWN hands a plain tile over and back, ADVP and ADVC move the ring
pointers (which stay while an accepted wait on the ring could go on), TWAIT completes once the fill or free count suffices and no wait
accepted before it could go on, TZERO zeroes the tile and TSTAT reports the entry; each completes
its command with the RESULT of R216. OWNER_FLIP passes a tile to the engines once nothing is busy in it. (R209, R211, R213, R214,
R215, R216) -/
def Obligations.TileCommands : Prop :=
  (∀ (s : State) (h : BitVec 6) (level cellm : BitVec 2) (ring : Bool) (n m : BitVec 32), s.cur.slot = 0 →
     ∀ i ∈ [Instr.talloc level ring cellm h n m, .tfree h, .tring h n, .townEngine h, .townSeq h, .advp h n, .advc h n,
         .twaitFill h n, .twaitFree h n, .tzero h, .tstat h],
       exec i s = .next (accept s [] 0)) ∧
  (∀ (s : State) (c : Cmd) (h : BitVec 6) (n : BitVec 32), s.tileTurn c →
     let k := s.cur.core
     let t := getTile s k h.toNat
     let entry := fun (level cellm : BitVec 2) (ring : Bool) (rows rowb base : Nat) => ({ Tile.init with
       valid := true, level := level, ring := ring, cellm := cellm, rows := rows, rowb := rowb, base := base } : Tile)
     (∀ (level cellm : BitVec 2) (ring : Bool) (rows rowb : BitVec 32) (b : Nat), level ≠ 3 → t.valid = false →
       (level = 2 → isLead s = true ∧
         ∀ x ∈ ((s.plotOf k).map (heldCores s)).getD [k], (tget Tile.init (s.core x).tiles h.toNat).valid = false) →
       1 ≤ rows.toNat → rows.toNat ≤ (if ring then 4096 else 65536) → rowb.toNat % 64 = 0 → 64 ≤ rowb.toNat →
       rowb.toNat ≤ 65536 →
       rows.toNat * rowb.toNat ≤ (if level = 0 then 524288 else if level = 1 then 2097152
         else 2097152 * ((s.plotOf k).map fun q => (heldCores s q).length).getD 0) →
       (let cells := stripeSet s k level cellm
        findBase s cells (tileUnits (rows.toNat * rowb.toNat) cells.length) = some b) →
       exec (.talloc level ring cellm h rows rowb) s = .next (s.completes (s.modCore k fun x =>
         { x with tiles := tset Tile.init x.tiles h.toNat (entry level cellm ring rows.toNat rowb.toNat b) }) 0 0)) ∧
     (t.valid = true → (t.level = 2 → isLead s = true) →
       (t.held = false → t.holders = 0 → t.busy = 0 →
         exec (.tfree h) s = .next (s.completes (modTile (zeroTile s k h.toNat t) k h.toNat fun _ => Tile.init) 0 0)) ∧
       (t.ring = true → n.toNat ≤ t.rows → t.busy = 0 → pointersHeld s k h.toNat = false → exec (.tring h n) s = .next (s.completes
         (modTile s k h.toNat fun x => { x with rp := 0, wp := n.toNat % x.rows, fill := n.toNat }) 0 0))) ∧
     (t.valid = true → t.ring = false →
       (t.held = false → t.owner = false → c.phase = .accepted → exec (.townEngine h) s =
         .next (modCmd (modTile s k h.toNat fun x => { x with held := true, holders := x.holders + 1 }).bump k s.cur.slot
           fun x => { x with phase := .running, prog := s.nextId + 1 })) ∧
       (t.owner = true → c.phase = .running → exec (.townEngine h) s = .next (s.completes s 0 0)) ∧
       (t.held = true → exec (.townSeq h) s = .next (s.completes
         (releaseTile (modTile s k h.toNat fun x => { x with held := false }) k h.toNat) 0 0))) ∧
     (t.valid = true → t.ring = true →
       (n.toNat ≤ t.rows - t.fill → (t.busy = 0 ∧ pointersHeld s k h.toNat = false ∨ n = 0) → exec (.advp h n) s = .next (s.completes
         (modTile s k h.toNat fun x => { x with wp := (x.wp + n.toNat) % x.rows, fill := x.fill + n.toNat }) 0
         (BitVec.ofNat 32 (t.fill + n.toNat)))) ∧
       (n.toNat ≤ t.fill → (t.busy = 0 ∧ pointersHeld s k h.toNat = false ∨ n = 0) → exec (.advc h n) s = .next (s.completes
         (modTile s k h.toNat fun x => { x with rp := (x.rp + n.toNat) % x.rows, fill := x.fill - n.toNat }) 0
         (BitVec.ofNat 32 (t.rows - t.fill + n.toNat)))) ∧
       (n.toNat ≤ t.rows → n.toNat ≤ t.fill → servedFirst s k h.toNat (waitNumber s) = false →
         exec (.twaitFill h n) s = .next (s.completes s 0 (BitVec.ofNat 32 t.fill))) ∧
       (n.toNat ≤ t.rows → n.toNat ≤ t.rows - t.fill → servedFirst s k h.toNat (waitNumber s) = false →
         exec (.twaitFree h n) s = .next (s.completes s 0 (BitVec.ofNat 32 (t.rows - t.fill))))) ∧
     (t.valid = true → t.held = false → t.owner = false → t.holders = 0 → t.busy = 0 →
       exec (.tzero h) s = .next (s.completes (zeroTile s k h.toNat t) 0 0)) ∧
     (∃ r : W32, exec (.tstat h) s = .next (s.completes s 0 r) ∧ r.getLsbD 31 = t.valid ∧ r.getLsbD 30 = t.owner ∧
       r.getLsbD 29 = t.held ∧ r.getLsbD 28 = t.ring ∧ r.extractLsb' 26 2 = t.level ∧
       (r.extractLsb' 13 13).toNat = (if t.ring then t.rows - t.fill else 0) % 8192 ∧
       (r.extractLsb' 0 13).toNat = t.fill % 8192)) ∧
  (∀ (s : State) (core : Nat) (h : BitVec 6), let t := getTile s core h.toNat
     (t.valid = true → t.ring = false → t.holders ≠ 0 → t.owner = false → t.busy = 0 →
       exec (.ownerFlip core h) s = .next (modTile s core h.toNat fun x => { x with owner := true })) ∧
     ((t.ring = true ∨ t.holders = 0 ∨ t.busy ≠ 0) → exec (.ownerFlip core h) s = .next s))

/-- On an idle port SPLEV, SPBASE, SPMODE, SPGO and SPWID write exactly their fields and complete, or complete with FORMAT and RESULT
2 when an operand is out of range; on a busy port they stall. SPQRY answers the position or the state and count. SPCLOSE of an
idle port completes at once with the position; of a running port it ends the run at once, once the stores of the ended invocations are
performed, or after the invocation in progress. A run that a close cuts short injects no BAR (log 101) and sends no DONE word (log 48): the model's
readings of R231. (R221, R223, R226, R231) -/
def Obligations.StreamCommands : Prop :=
  (∀ (s : State) (p : BitVec 3), s.cur.slot = 0 →
     let c := s.cur.core
     let t := accept s [] 0
     let set := fun (f : Port → Port) (r : W32) => (.next (finishCmd (t.modPort c p.toNat f) c (s.nextId + 1) 0 r) : Res)
     let asks := fun (r : W32) => (.next (finishCmd (t.modPort c p.toNat id) c (s.nextId + 1) 0 r) : Res)
     let wrong := (.next (finishCmd t c (s.nextId + 1) cFORMAT 2) : Res)
     let x := t.port c p.toNat
     ((s.port c p.toNat).state = .idle →
       (∀ (level : BitVec 2) (stride : Word) (count : BitVec 32),
         (-2 ^ 39 ≤ stride.toInt ∧ stride.toInt < 2 ^ 39 → exec (.splev p level stride count) s = set (fun q =>
           { q with stride := q.stride.set level.toNat stride.toInt, count := q.count.set level.toNat count.toNat }) 0) ∧
         (2 ^ 39 ≤ stride.toInt ∨ stride.toInt < -2 ^ 39 → exec (.splev p level stride count) s = wrong)) ∧
       (∀ b0 off : BitVec 32, (b0.toNat < 64 → exec (.spbaseTile p b0 off) s = set (fun q => { q with base := off ++ b0 }) 0) ∧
         (64 ≤ b0.toNat → exec (.spbaseTile p b0 off) s = wrong)) ∧
       (∀ addr, exec (.spbaseVa p addr) s = set (fun q => { q with base := addr }) 0) ∧
       (∀ (mods : BitVec 7) (b0 ceil : BitVec 32), let lanes := b0.toNat % 32
         (b0.toNat / 32 % 8 = 0 → b0.toNat < 4096 → 1 ≤ lanes → lanes ≤ 16 → (mods.extractLsb' 3 3).toNat ≤ 4 →
           (mods.getLsbD 1 = true → 4 ≤ p.toNat ∧ isBridge c = true ∧ mods.getLsbD 2 = false) →
           exec (.spmode p mods b0 ceil) s = set (fun q =>
             { q with dir := mods.getLsbD 0, va := mods.getLsbD 1, auto := mods.getLsbD 2, sheaf := mods.extractLsb' 3 3,
                      ztail := mods.getLsbD 6, lanes := lanes, chan := b0.extractLsb' 8 4, ceil := ceil }) 0) ∧
         ((b0.toNat / 32 % 8 ≠ 0 ∨ lanes = 0 ∨ 16 < lanes ∨ 4096 ≤ b0.toNat ∨ 4 < (mods.extractLsb' 3 3).toNat ∨
             (mods.getLsbD 1 = true ∧ (p.toNat < 4 ∨ isBridge c = false ∨ mods.getLsbD 2 = true))) →
           exec (.spmode p mods b0 ceil) s = wrong)) ∧
       (∀ (bar : Bool) (chan : BitVec 4) (n : BitVec 32) (q : Plot), s.plotOf c = some q →
         let avail := invLeft q x.pos x.ended
         let run := if n = 0 then avail else min n.toNat avail
         (run ≠ 0 → exec (.spgo p bar chan n) s = set (fun y =>
           { y with state := .run, left := run, bar := bar, barChan := if bar then some chan.toNat else y.barChan })
           (BitVec.ofNat 32 (min run 0xFFFFFFFF))) ∧
         (run = 0 → exec (.spgo p bar chan n) s = asks 0)) ∧
       (∀ (k : BitVec 3) (step : Word),
         (k.toNat ≤ 5 → -2 ^ 39 ≤ step.toInt → step.toInt < 2 ^ 39 →
           exec (.spwid p k step) s = set (fun q => { q with wstep := q.wstep.set k.toNat step.toInt }) 0) ∧
         (5 < k.toNat ∨ step.toInt < -2 ^ 39 ∨ 2 ^ 39 ≤ step.toInt → exec (.spwid p k step) s = wrong))) ∧
     exec (.spqryLo p) s = asks (x.pos.extractLsb' 0 32) ∧
     exec (.spqryHi p) s = asks (x.pos.extractLsb' 32 32) ∧
     (∃ r : W32, exec (.spqrySt p false) s = asks r ∧ (x.left < 2 ^ 30 → r.toNat / 4 = x.left) ∧
       r.toNat % 4 = (match x.state with | .idle => if x.ended then 3 else 0 | .run => 1 | .fault => 2)) ∧
     exec (.spqrySt p true) s = wrong ∧
     exec (.spclose p) s = .next t ∧
     ((s.port c p.toNat).state ≠ .idle → s.cur.replay = none →
       ∀ i, ((∃ level stride count, i = Instr.splev p level stride count) ∨ (∃ b0 off, i = .spbaseTile p b0 off) ∨
         (∃ a, i = .spbaseVa p a) ∨ (∃ m b e, i = .spmode p m b e) ∨ (∃ b ch n, i = .spgo p b ch n) ∨ ∃ k w, i = .spwid p k w) →
         exec i s = .next (stallOn s (.port p.toNat)))) ∧
  (∀ (s : State) (p : BitVec 3) (c : Cmd), s.works c →
     let k := s.cur.core
     let q := s.port k p.toNat
     (q.state = .idle → exec (.spclose p) s = .next (finishCmd s k c.id 0 (q.pos.extractLsb' 0 32))) ∧
     (q.state = .run → q.doneDue = false → c.phase = .accepted →
       let closes := fun (f : Port → Port) =>
         exec (.spclose p) s = .next ((modCmd s k c.id fun x => { x with phase := .running }).modPort k p.toNat f)
       (q.started = false → portSettled s k p.toNat = true →
         closes fun x => { x with left := 0, bar := false, closeRun := false, waitId := 0, state := .idle }) ∧
       (q.started = false → portSettled s k p.toNat = false →
         closes fun x => { x with left := 0, bar := false, closeRun := true, doneDue := true, waitId := 0 }) ∧
       (q.started = true →
         closes fun x => { x with left := min x.left 1, bar := x.bar && x.left ≤ 1, closeRun := x.closeRun || x.left > 1 })))

/-- A running port with work begins an invocation at index 0; an ingress port within its ceiling and with room on every arc injects
the next token, in tile mode one whose active lanes are the tile's words; at the ceiling of the present window it waits. After the last token it
injects the EOI of its work identifier (and a BAR where asked); an egress port stores each DATA token, and its EOI ends the invocation once
every store before it has been performed.
The end advances the position, keeps base, counts and strides, and the last one asks for the DONE word, which goes to the port's
channel. (R223, R224, R225, R226, R227, R229, R230) -/
def Obligations.PortsRunInvocations : Prop :=
  (∀ (s : State) (core : Nat) (p : BitVec 3) (pl : Plot) (x : Nat × Nat), s.plotOf core = some pl → pl.live = true →
     portSlot s core p.toNat = some x →
     let q := s.port core p.toNat
     let arcs := slotArcs s core x
     let a := portAddr s core q
     let n := 4 * q.width
     let now := s.pace.toNat / 1000 = s.window.toNat
     let goes := q.idx ≠ 0 ∨ mayBegin pl q.pos = true
     let stays := q.auto = true → pointersHeld s core q.handle = false
     (q.state = .run → q.started = false → q.left ≠ 0 → q.ended = false → mayBegin pl q.pos = true → q.auto = false →
       (q.dir = true → headOf s core x.1 (egressKey x) ≠ none) →
       exec (.portInvocationStart core p) s = .next (s.modPort core p.toNat fun y =>
         { y with started := true, idx := 0, waitId := 0,
                  slot := if y.dir then (getTile s core q.handle).wp else (getTile s core q.handle).rp })) ∧
     (now → q.state = .run → q.dir = false → q.started = true → goes → q.idx < q.tokens → q.window < portCeiling s core q →
       (∀ y ∈ arcs, arcFree s y = true) →
       exec (.portInjectToken core p) s =
         .next (if q.va then injectVa s core p.toNat q arcs else injectTile s core p.toNat q arcs)) ∧
     (now → q.state = .run → q.dir = false → q.started = true → goes → q.idx < q.tokens → q.window < portCeiling s core q →
       (∀ y ∈ arcs, arcFree s y = true) → q.va = false → q.sheaf = 0 →
       tileCheck (getTile s core q.handle) a.toNat n q.align false = none →
       ∀ t bs, tileRead s core q.handle a.toNat n = (t, some bs) →
       ∃ tok : Token, exec (.portInjectToken core p) s =
           .next (portInjected (emit (raceTile t (.port core p.toNat) core q.handle a.toNat n false) arcs tok) core p.toNat) ∧
         tok.kind = kDATA ∧ (∀ i < 16, tok.mask.getLsbD i = decide (i < q.width)) ∧
         tok.lanes = wordsOf q.width bs ++ List.replicate (16 - q.width) 0) ∧
     exec (.portInjectToken core p) s = exec (.portInjectToken core p) (newWindow s) ∧
     (now → q.state = .run → q.dir = false → q.started = true → q.idx < q.tokens → portCeiling s core q ≤ q.window →
       ∃ t, exec (.portInjectToken core p) s = .next t ∧ t.accs = s.accs ∧ (t.core core).cells = (s.core core).cells ∧
         (t.port core p.toNat).idx = q.idx) ∧
     (q.state = .run → q.dir = false → (∀ y ∈ arcs, arcFree s y = true) → q.barDue = false → q.started = true →
       q.tokens ≤ q.idx → goes → stays →
       let t := emit s arcs (eoiTok q.pos (pl.close q.pos))
       exec (.portInjectEoi core p) s =
         .next ((if q.auto then modTile t core q.handle fun e => advanceC e 1 else t).modPort core p.toNat fun y =>
           endInvocation pl y)) ∧
     (q.state = .run → q.dir = false → (∀ y ∈ arcs, arcFree s y = true) → q.barDue = true → q.va = false →
       exec (.portInjectEoi core p) s =
         .next ((noteBar (emit s arcs barTok) core p.toNat).modPort core p.toNat fun y => { y with barDue := false })) ∧
     (∀ t, headOf s core x.1 (egressKey x) = some t → q.eoiIn = false → q.dir = true → q.state = .run → q.started = true → t.kind = kEOI → stays →
       let u := popArc (if q.auto then modTile s core q.handle fun e => advanceP e 1 else s) core x.1 (egressKey x)
       exec (.portStoreToken core p) s = .next (if portSettled s core p.toNat
         then sinkMark (u.modPort core p.toNat fun y => endInvocation pl { y with eoiIn := false }) core x.1 (6 + x.2) kEOI
         else u.modPort core p.toNat fun y => { y with eoiIn := true })) ∧
     (q.eoiIn = true → exec (.portStoreToken core p) s = .next (if portSettled s core p.toNat
         then sinkMark (s.modPort core p.toNat fun y => endInvocation pl { y with eoiIn := false }) core x.1 (6 + x.2) kEOI else s)) ∧
     (∀ t, headOf s core x.1 (egressKey x) = some t → q.eoiIn = false → q.dir = true → q.state ≠ .fault → t.kind = kBAR → q.va = false →
       exec (.portStoreToken core p) s = .next (sinkMark (popArc s core x.1 (egressKey x)) core x.1 (6 + x.2) kBAR)) ∧
     (∀ t, headOf s core x.1 (egressKey x) = some t → q.eoiIn = false → q.dir = true → q.state = .run → q.started = true → t.kind = kDATA →
       q.idx < q.tokens →
       (q.sheaf = 0 ∨ t.mask = 0xFFFF ∧ fmtReads ((t.lane 0).toNat % 256) (sheafClass q.sheaf) = true) →
       exec (.portStoreToken core p) s =
         .next (if q.va then storeVa s core p.toNat q t x else storeTile s core p.toNat q t x)) ∧
     (q.state = .run → q.doneDue = true → q.barDue = false → (q.dir = true → portSettled s core p.toNat = true) →
       q.closeRun = false →
       exec (.portDoneWord core p) s = .next (sendWord (s.modPort core p.toNat fun y =>
         { y with state := .idle, doneDue := false, closeRun := false }) (2000000 + core) core q.chan.toNat 2 (16 + p.toNat) q.doneWid))) ∧
  (∀ (q : Plot) (x : Port), let y := endInvocation q x
     y.started = false ∧ y.left = x.left - 1 ∧ y.dir = x.dir ∧ y.base = x.base ∧ y.count = x.count ∧ y.stride = x.stride ∧
     (∀ w, q.next x.pos = some w → y.pos = w ∧ y.ended = false) ∧ (q.next x.pos = none → y.pos = x.pos ∧ y.ended = true) ∧
     (x.left ≤ 1 → y.doneDue = true ∧ y.doneWid = x.pos ∧ y.barDue = (x.bar && !x.dir)) ∧ (1 < x.left → y.doneDue = x.doneDue))

/-- For FP32 and both packed types, each of the fifteen floating-point node operators consumes its inputs and emits, on the lanes
active in every operand, the exact value rounded once (comparison bits for FCMP, class words for FCLS). NaN operands, infinities
and signed zeros give the results of the tables. (R79, R88, R144, R145, R149, R150, R151, R152, R153, R154, R155) -/
def Obligations.FloatNodeResults : Prop :=
  (∀ (s : State) (n : NodeFields) (l : Token), s.heads n l kDATA →
     let r := rOperand s n
     let p := pOperand s
     let mask := l.mask &&& (if n.er then r.mask else 0xFFFF) &&& (if n.ep then truth p else 0xFFFF)
     let gives := fun (i : Instr) (f : Fmt → Nat → Nat → Nat) =>
       exec i s = .next (fireAll s n (dataTok mask fun j => floatLane (laneType n) (fun m a b _ => f m a b) (l.lane j) (r.lane j) 0))
     let m := n.mods.toNat
     gives (.fadd n) (fun f a b => f.round ((f.value a).add (f.value b))) ∧
     gives (.fsub n) (fun f a b => f.round ((f.value a).add (f.value b).neg)) ∧
     gives (.fmul n) (fun f a b => f.round ((f.value a).mul (f.value b))) ∧
     gives (.fmax n) (fun f a b => if f.value a = .nan ∨ f.value b = .nan then f.nanCode else if f.totalLt a b then b else a) ∧
     gives (.fmin n) (fun f a b => if f.value a = .nan ∨ f.value b = .nan then f.nanCode else if f.totalLt b a then b else a) ∧
     gives (.fabs n) (fun f a _ => if f.value a = .nan then f.nanCode else a % 2 ^ (f.width - 1)) ∧
     gives (.fneg n) (fun f a _ => if f.value a = .nan then f.nanCode else
       if a < 2 ^ (f.width - 1) then a % 2 ^ (f.width - 1) + 2 ^ (f.width - 1) else a % 2 ^ (f.width - 1)) ∧
     gives (.fcmp n) (fun f a b =>
       let c := (f.value a).cmp (f.value b)
       let holds : Bool := match m % 8 with
         | 0 => c == some .eq | 1 => c != some .eq | 2 => c == some .lt | 3 => c == some .lt || c == some .eq
         | 4 => c == some .gt | 5 => c == some .gt || c == some .eq | 6 => c == none | _ => c != none
       (BitVec.ofBool holds).toNat) ∧
     gives (.frnd n) (fun f a _ => f.frnd (m % 4) a) ∧
     gives (.fcls n) (fun f a _ => f.cls a) ∧
     gives (.frcp n) (fun f a _ => f.round (f.value a).rcp) ∧
     gives (.frsq n) (fun f a _ => f.round (f.value a).rsq) ∧
     gives (.fexp2 n) (fun f a _ => f.round (f.value a).exp2) ∧
     gives (.flog2 n) (fun f a _ => f.round (f.value a).log2) ∧
     exec (.ffma n) s = .next (fireAll s n (dataTok (l.mask &&& (if n.er then r.mask else 0xFFFF) &&& p.mask) fun j =>
       floatLane (laneType n) (fun f a b c =>
         let x := (f.value a).mul (f.value b)
         f.round ((if n.mods.getLsbD 0 then x.neg else x).add (if n.mods.getLsbD 1 then (f.value c).neg else f.value c)))
         (l.lane j) (r.lane j) (p.lane j)))) ∧
  ((∀ f ∈ [fp32, fp16, bf16], ∀ x : Nat, f.value x = .nan →
     f.round (f.value x).rcp = f.nanCode ∧ f.round (f.value x).rsq = f.nanCode ∧ f.round (f.value x).exp2 = f.nanCode ∧
     f.round (f.value x).log2 = f.nanCode) ∧
   (∀ f ∈ [fp32, fp16, bf16], let zero := fun (neg : Bool) => f.value (f.sign neg 0)
     let inf := fun (neg : Bool) => f.value (f.sign neg (f.maxCode + 1))
     f.round (zero false).rcp = f.sign false (f.maxCode + 1) ∧ f.round (zero true).rcp = f.sign true (f.maxCode + 1) ∧
     f.round (inf false).rcp = f.sign false 0 ∧ f.round (inf true).rcp = f.sign true 0 ∧
     f.round (zero false).rsq = f.sign false (f.maxCode + 1) ∧ f.round (zero true).rsq = f.sign true (f.maxCode + 1) ∧
     f.round (inf false).rsq = f.sign false 0 ∧ f.round (inf true).rsq = f.nanCode ∧
     f.round (inf false).exp2 = f.sign false (f.maxCode + 1) ∧ f.round (inf true).exp2 = f.sign false 0 ∧
     f.round (zero true).log2 = f.sign true (f.maxCode + 1) ∧ f.round (inf false).log2 = f.sign false (f.maxCode + 1) ∧
     f.round (inf true).log2 = f.nanCode ∧
     f.round ((inf false).add (inf true)) = f.nanCode ∧ f.round ((zero false).mul (inf false)) = f.nanCode ∧
     f.round ((zero true).add (zero true)) = f.sign true 0 ∧ f.round ((zero true).add (zero false)) = f.sign false 0))

/-- For INT32 lanes and INT16 halves, each integer node operator emits the sum, difference, product part, extremum, comparison,
absolute value, shift or logical result of R156 and R157, saturated where its MODS ask for it; MADDR scales and adds. (R144, R156,
R157) -/
def Obligations.IntegerNodeResults : Prop :=
  ∀ (s : State) (n : NodeFields) (l : Token), s.heads n l kDATA → (laneType n = 0 ∨ laneType n = 3) →
    let r := rOperand s n
    let p := pOperand s
    let mask := l.mask &&& (if n.er then r.mask else 0xFFFF) &&& (if n.ep then truth p else 0xFFFF)
    let gives := fun (i : Instr) (f : W32 → W32 → W32) =>
      exec i s = .next (fireAll s n (dataTok mask fun j => f (l.lane j) (r.lane j)))
    let each := fun (f : (w : Nat) → BitVec w → BitVec w → BitVec w) (a b : W32) =>
      if laneType n = 0 then f 32 a b
      else f 16 (a.extractLsb' 16 16) (b.extractLsb' 16 16) ++ f 16 (a.extractLsb' 0 16) (b.extractLsb' 0 16)
    let fit := fun (w : Nat) (sat : Bool) (v : Int) =>
      if sat then BitVec.ofInt w (max (-2 ^ (w - 1)) (min (2 ^ (w - 1) - 1) v)) else BitVec.ofInt w v
    let m := n.mods.toNat
    gives (.iadd n) (each fun w a b => fit w (n.mods.getLsbD 0) (a.toInt + b.toInt)) ∧
    gives (.isub n) (each fun w a b => fit w (n.mods.getLsbD 0) (a.toInt - b.toInt)) ∧
    (m % 4 = 0 → gives (.imul n) (each fun _ a b => a * b)) ∧
    (m % 4 = 1 → gives (.imul n) (each fun w a b => fit w true (a.toInt * b.toInt))) ∧
    (m % 4 = 2 → gives (.imul n) (each fun w a b => BitVec.ofInt w (a.toInt * b.toInt / 2 ^ w))) ∧
    (m % 4 = 3 → gives (.imul n) (each fun w a b => BitVec.ofNat w (a.toNat * b.toNat / 2 ^ w))) ∧
    gives (.imax n) (each fun _ a b =>
      if n.mods.getLsbD 0 then (if a.toNat ≤ b.toNat then b else a) else (if a.toInt ≤ b.toInt then b else a)) ∧
    gives (.imin n) (each fun _ a b =>
      if n.mods.getLsbD 0 then (if a.toNat ≤ b.toNat then a else b) else (if a.toInt ≤ b.toInt then a else b)) ∧
    (m % 8 < 6 → gives (.icmp n) (each fun w a b =>
      let x : Int := if n.mods.getLsbD 3 then a.toNat else a.toInt
      let y : Int := if n.mods.getLsbD 3 then b.toNat else b.toInt
      let holds : Bool := match m % 8 with
        | 0 => x == y | 1 => x != y | 2 => x < y | 3 => x ≤ y | 4 => x > y | _ => x ≥ y
      (BitVec.ofBool holds).setWidth w)) ∧
    gives (.iabs n) (each fun w a _ => fit w (n.mods.getLsbD 0) |a.toInt|) ∧
    gives (.shl n) (each fun w a b => a <<< (b.toNat % w)) ∧
    gives (.shr n) (each fun w a b => a >>> (b.toNat % w)) ∧
    gives (.sar n) (each fun w a b => a.sshiftRight (b.toNat % w)) ∧
    gives (.nodeAnd n) (fun a b => a &&& b) ∧
    gives (.nodeOr n) (fun a b => a ||| b) ∧
    gives (.nodeXor n) (fun a b => a ^^^ b) ∧
    gives (.andn n) (fun a b => a &&& ~~~b) ∧
    gives (.maddr n) (fun a b => a * 2 ^ (m % 4) + b)

/-- LSHUF, LROT and LBCAST are stated lane by lane with their masks, inactive selections included. LSUM, LMAX and LMIN reduce the
active lanes: FP32 and the halves of the packed float types over the fixed binary tree in FP32 (a half's total beyond its format is an infinity, the
model's reading, log 114), INT32 and each INT16 half to the wrapped sum and the signed extrema. The result stands on lane 0 or on all lanes.
(R158, R159, R160, R161) -/
def Obligations.LaneNodeResults : Prop :=
  (∀ (s : State) (n : NodeFields) (l : Token), s.heads n l kDATA →
     let r := rOperand s n
     let fires := fun (i : Instr) (on : Nat → Bool) (v : Nat → W32) =>
       ∃ t : Token, exec i s = .next (fireAll s n t) ∧ t.kind = kDATA ∧
         ∀ j < 16, t.mask.getLsbD j = on j ∧ t.lane j = if on j then v j else 0
     let k := if r.mask.getLsbD 0 then (r.lane 0).toNat % 16 else 0
     let sel := fun (j : Nat) => (r.lane j).toNat % 32
     fires (.lshuf n) (fun j => r.mask.getLsbD j && (decide (16 ≤ sel j) || l.mask.getLsbD (sel j % 16)))
       (fun j => if 16 ≤ sel j then 0 else l.lane (sel j)) ∧
     fires (.lrot n) (fun j => l.mask.getLsbD ((j + k) % 16) && !(n.mods.getLsbD 0 && decide (16 ≤ j + k)))
       (fun j => l.lane ((j + k) % 16)) ∧
     fires (.lbcast n) (fun _ => l.mask.getLsbD k) (fun _ => l.lane k) ∧
     (wf (.lshuf n) = true → n.mods = 0) ∧ (wf (.lbcast n) = true → n.mods = 0) ∧ (wf (.lrot n) = true → n.mods.toNat < 2)) ∧
  (∀ (s : State) (n : NodeFields) (l : Token), s.heads n l kDATA →
     let place := fun (v : W32) => dataTok (if l.mask = 0 then 0 else if n.mods.getLsbD 1 then 0xFFFF else 1) fun _ => v
     let tree := fun (f : Nat → Nat → Nat) (ident : Nat) (get : W32 → Nat) =>
       let v := fun (j : Nat) => if l.mask.getLsbD j then get (l.lane j) else ident
       let w := fun (j : Nat) => f (f (f (v j) (v (j + 1))) (f (v (j + 2)) (v (j + 3))))
         (f (f (v (j + 4)) (v (j + 5))) (f (v (j + 6)) (v (j + 7))))
       f (w 0) (w 8)
     (laneType n = 0 → n.mods.getLsbD 3 = false →
       exec (.lsum n) s = .next (fireAll s n (place (BitVec.ofNat 32 (tree fp32.addW 0x80000000 BitVec.toNat)))) ∧
       exec (.lmax n) s = .next (fireAll s n (place (BitVec.ofNat 32 (tree fp32.maxW 0xFF800000 BitVec.toNat)))) ∧
       exec (.lmin n) s = .next (fireAll s n (place (BitVec.ofNat 32 (tree fp32.minW 0x7F800000 BitVec.toNat))))) ∧
     let ints := fun (w o : Nat) => ((List.range 16).filter fun j => l.mask.getLsbD j).map fun j => ((l.lane j).extractLsb' o w).toInt
     let wide := fun (f : Nat → List Int → Int) => place (BitVec.ofInt 32 (f 32 (ints 32 0)))
     let halves := fun (f : Nat → List Int → Int) => place (BitVec.ofInt 16 (f 16 (ints 16 16)) ++ BitVec.ofInt 16 (f 16 (ints 16 0)))
     let most := fun (w : Nat) (x : List Int) => x.foldl max (-2 ^ (w - 1))
     let least := fun (w : Nat) (x : List Int) => x.foldl min (2 ^ (w - 1) - 1)
     let total := fun (_ : Nat) (x : List Int) => x.sum
     (laneType n = 0 → n.mods.getLsbD 3 = true →
       exec (.lsum n) s = .next (fireAll s n (wide total)) ∧ exec (.lmax n) s = .next (fireAll s n (wide most)) ∧
       exec (.lmin n) s = .next (fireAll s n (wide least))) ∧
     (laneType n = 3 →
       exec (.lsum n) s = .next (fireAll s n (halves total)) ∧ exec (.lmax n) s = .next (fireAll s n (halves most)) ∧
       exec (.lmin n) s = .next (fireAll s n (halves least))) ∧
     ∀ ty ∈ [(1, bf16), (2, fp16)], (laneType n).toNat = ty.1 →
       let half := fun (f : Nat → Nat → Nat) (ident : Nat) (x : W32 → Nat) =>
         BitVec.ofNat 16 (ty.2.round (fp32.value (tree f ident fun y => fp32.round (ty.2.value (x y)))))
       exec (.lsum n) s = .next (fireAll s n (place (half fp32.addW 0x80000000 hi16 ++ half fp32.addW 0x80000000 lo16))) ∧
       exec (.lmax n) s = .next (fireAll s n (place (half fp32.maxW 0xFF800000 hi16 ++ half fp32.maxW 0xFF800000 lo16))) ∧
       exec (.lmin n) s = .next (fireAll s n (place (half fp32.minW 0x7F800000 hi16 ++ half fp32.minW 0x7F800000 lo16))))

/-- Each operator that handles markers in step, with a marker of one kind at the head of every enabled input and room on its targets,
consumes the markers and emits the one of L; SINK consumes it and counts it for the invocation. (R147, R163, R168, R179) -/
def Obligations.MarkersPassInOrder : Prop :=
  ∀ (s : State) (n : NodeFields) (l : Token) (kind : BitVec 2), (kind = kEOI ∨ kind = kBAR) → s.heads n l kind →
    (∀ i ∈ [Instr.fadd n, .fsub n, .fmul n, .ffma n, .fmax n, .fmin n, .fabs n, .fneg n, .fcmp n, .frnd n, .fcls n, .frcp n,
        .frsq n, .fexp2 n, .flog2 n, .iadd n, .isub n, .imul n, .imax n, .imin n, .icmp n, .iabs n, .nodeAnd n, .nodeOr n,
        .nodeXor n, .andn n, .shl n, .shr n, .sar n, .lshuf n, .lrot n, .lbcast n, .lsum n, .lmax n, .lmin n, .steer n,
        .select n, .gate n, .dup n, .const n, .maddr n, .mload n, .mstore n, .matom n, .mred n],
      exec i s = .next (fireAll s n l)) ∧
    exec (.sink n) s = .next (sinkMark (consume s [0]) s.cur.core s.cur.cell s.cur.stage kind)

/-- A CVT firing keeps the mask and converts each active lane as its code says (from BF16 and FP16 halves, to INT32 by round to
nearest with saturation, from INT16). PACK gathers the active lanes, closes the sheaf when its class is full and raises FORMAT
beyond it. UNPACK emits element 16 i + j on lane j of its i-th token as the element's value rounded to FP32, consuming the sheaf
with its last token. (R92, R95, R96, R97, R98, R99, R101) -/
def Obligations.ConversionNodeResults : Prop :=
  ∀ (s : State) (n : NodeFields) (l : Token), s.heads n l kDATA →
    let code := (n.mods.extractLsb' 3 3).toNat
    (∃ (out : Token) (spill : Option Token),
      exec (.cvt n) s = .next (modNode (emitAB (consume s (enabled n)) n (some out) spill) fun x => { x with idx := x.idx + 1 }) ∧
      out.kind = kDATA ∧ out.mask = l.mask ∧
      ∀ j < 16, (l.mask.getLsbD j = false → out.lane j = 0) ∧ (l.mask.getLsbD j = true →
        (code = 2 → out.lane j = BitVec.ofNat 32 (fp32.round (bf16.value (if n.mods.getLsbD 2 then hi16 (l.lane j) else lo16 (l.lane j))))) ∧
        (code = 3 → out.lane j = BitVec.ofNat 32 (fp32.round (fp16.value (if n.mods.getLsbD 2 then hi16 (l.lane j) else lo16 (l.lane j))))) ∧
        (code = 4 → n.mods.getLsbD 1 = false →
          out.lane j = BitVec.ofNat 32 (toInt 32 (-2147483648) 2147483647 0 none (fp32.value (l.lane j).toNat)).code) ∧
        (code = 7 → out.lane j = ((if n.mods.getLsbD 2 then (l.lane j).extractLsb' 16 16 else (l.lane j).extractLsb' 0 16).signExtend 32)))) ∧
    (n.er = false → n.ep = false →
      let es := (nodeSt' s).sheaf ++ ((List.range 16).filter fun i => l.mask.getLsbD i).map fun i => l.lane i
      (es.length < packClass n → exec (.pack n) s = .next (modNode (consume s [0]) fun x => { x with sheaf := es })) ∧
      (es.length = packClass n → exec (.pack n) s = .next (packClose n s es [0])) ∧
      (packClass n < es.length → exec (.pack n) s = .next (raiseNode s cFORMAT 0 0 false))) ∧
    (∀ x, n.er = true → n.ep = false → input s 1 = some x → x.kind = kDATA →
      let es := (nodeSt' s).sheaf ++ ((List.range 16).filter fun i => l.mask.getLsbD i).map fun i => l.lane i
      (es.length = packClass n → exec (.pack n) s = .next (packClose n s es [0]))) ∧
    (let k := unpackClass n
     let sh := tokBytes l.lanes
     let i := (nodeSt' s).t
     l.mask = 0xFFFF → fmtReads (sh.headD 0).toNat k = true →
     ∃ out : Token,
      exec (.unpack n) s = .next (modNode (emitAB (if k ≤ 16 * (i + 1) then consume s [0] else s) n (some out) none) fun x =>
        { x with t := if k ≤ 16 * (i + 1) then 0 else i + 1 }) ∧
      out.kind = kDATA ∧ ∀ j < 16, out.mask.getLsbD j = decide (16 * i + j < k) ∧
        (16 * i + j < k → out.lane j = BitVec.ofNat 32 (fp32.round (elemValue sh (16 * i + j)))))

/-- STEER, SELECT, GATE, JOIN, DUP, SINK and CONST with DATA at every input, MERGE with the predicate and the chosen input, and CARRY
in each of its states consume exactly the inputs named and emit exactly the tokens named; CARRY's state, value and closing level
change as R174 and R175 give. (R172, R173, R174, R175, R176, R177, R178, R179, R180) -/
def Obligations.TokenRoutingResults : Prop :=
  (∀ (s : State) (n : NodeFields) (l : Token), s.heads n l kDATA →
    let p := pOperand s
    let r := rOperand s n
    let u := consume s (enabled n)
    (n.mods.getLsbD 0 = false → isTrue p = true → exec (.steer n) s = .next (emitAB u n (some l) none)) ∧
    (n.mods.getLsbD 0 = false → isTrue p = false → exec (.steer n) s = .next (emitAB u n none (some l))) ∧
    (n.mods.getLsbD 0 = true →
      exec (.steer n) s = .next (emitAB u n (some (maskTok l (truth p))) (some (maskTok l (~~~(truth p)))))) ∧
    exec (.select n) s = .next (fireAll s n (dataTok ((l.mask &&& truth p) ||| (r.mask &&& ~~~(truth p))) fun i =>
      if (truth p).getLsbD i then l.lane i else r.lane i)) ∧
    (n.mods.getLsbD 0 = true → isTrue p = true → exec (.gate n) s = .next (fireAll s n l)) ∧
    (n.mods.getLsbD 0 = true → isTrue p = false → exec (.gate n) s = .next u) ∧
    (n.mods.getLsbD 0 = false → exec (.gate n) s = .next (fireAll s n (maskTok l (truth p)))) ∧
    exec (.join n) s = .next (emitAB (consume s (0 :: (enabled n).filter fun q => q != 0)) n (some l) (some l)) ∧
    exec (.dup n) s = .next (fireAll s n l) ∧
    exec (.sink n) s = .next (consume s [0]) ∧
    exec (.const n) s = .next (fireAll s n (dataTok (if n.mods.getLsbD 1 then l.mask else 0xFFFF) fun i =>
      poolAt s s.cur.core s.cur.cell (if n.mods.getLsbD 0 then n.cidx.toNat + i else n.cidx.toNat)))) ∧
  (∀ (s : State) (n : NodeFields) (x p : Token), nodeRuns s = true → roomy s n = true → input s 2 = some p → p.kind = kDATA →
    x.kind = kDATA → (∀ q ∈ [0, 1], ∀ t, input s q = some t → t.kind ≠ 3) →
    (isTrue p = true → input s 0 = some x → exec (.merge n) s = .next (emitAB (consume s [2, 0]) n (some x) (some x))) ∧
    (isTrue p = false → input s 1 = some x → exec (.merge n) s = .next (emitAB (consume s [2, 1]) n (some x) (some x)))) ∧
  ∀ (s : State) (n : NodeFields) (x p : Token), nodeRuns s = true → roomy s n = true →
    let st := nodeSt' s
    (st.st = .init → input s 0 = some x → x.kind = kDATA → exec (.carry n) s = .next
      (modNode (emitAB (consume s [0]) n (some (if st.keep then st.v else x)) none) fun y => { y with st := .loop, keep := false })) ∧
    (st.st = .init → input s 0 = some x → x.kind = kEOI → exec (.carry n) s = .next
      (modNode (emitAB (consume s [0]) n (some x) (some x)) fun y => { y with st := .drain, close := x.close })) ∧
    (st.st = .init → input s 0 = some x → x.kind = kBAR → exec (.carry n) s = .next
      (modNode (emitAB (consume s [0]) n (some x) (some x)) fun y => { y with st := .drainb, close := x.close })) ∧
    (st.st = .loop → input s 2 = some p → input s 1 = some x → p.kind = kDATA → x.kind = kDATA →
      (isTrue p = true → exec (.carry n) s = .next (emitAB (consume s [1, 2]) n (some x) none)) ∧
      (isTrue p = false → exec (.carry n) s = .next
        (modNode (emitAB (consume s [1, 2]) n none (some x)) fun y => { y with st := .init, v := x }))) ∧
    (st.st = .drain → input s 2 = some p → input s 1 = some x → p.kind = kEOI → x.kind = kEOI →
      exec (.carry n) s = .next (modNode (consume s [1, 2]) fun y =>
        if n.rsteoi = true ∧ (n.mods.extractLsb' 0 3).toNat ≤ y.close
        then { y with st := .init, v := Token.init, keep := false, close := 0 }
        else { y with st := .init, keep := true, close := 0 })) ∧
    (st.st = .drainb → input s 2 = some p → input s 1 = some x → p.kind = kBAR → x.kind = kBAR →
      exec (.carry n) s = .next (modNode (consume s [1, 2]) fun y => { y with st := .init, close := 0 }))

/-- COUNT emits or only counts, per token or per active lane, and adds its step; CSUM passes its token and folds its lanes into the
sum; TRACE passes its token and writes a record where the plot has a ring; CMPR passes equal tokens and raises DUALMISMATCH with
the first differing lane otherwise. (R181, R185, R186, R187) -/
def Obligations.CountersAndCheckers : Prop :=
  (∀ (s : State) (n : NodeFields) (l : Token), s.heads n l kDATA → n.er = false → n.ep = false →
    let st := nodeSt' s
    let step : W32 := if n.imm then poolAt s s.cur.core s.cur.cell n.cidx.toNat else 1
    (n.mods.getLsbD 4 = false → n.mods.getLsbD 3 = false → exec (.count n) s = .next
      (modNode (fireAll s n (dataTok 0xFFFF fun _ => st.c)) fun x => { x with c := x.c + step })) ∧
    (n.mods.getLsbD 4 = false → n.mods.getLsbD 3 = true → exec (.count n) s = .next
      (modNode (consume s [0]) fun x => { x with c := x.c + step })) ∧
    (n.mods.getLsbD 4 = true → n.mods.getLsbD 3 = false → ∃ out : Token,
      exec (.count n) s = .next (modNode (fireAll s n out) fun x =>
        { x with c := x.c + BitVec.ofNat 32 ((List.range 16).countP fun j => l.mask.getLsbD j) }) ∧
      out.mask = l.mask ∧ ∀ j < 16, l.mask.getLsbD j = true →
        out.lane j = st.c + BitVec.ofNat 32 ((List.range j).countP fun i => l.mask.getLsbD i)) ∧
    (n.tgtb.extractLsb' 0 2 = 3 → exec (.csum n) s = .next (modNode (fireAll s n l) fun x =>
      { x with s := ((List.range 16).filter fun i => l.mask.getLsbD i).foldl (fun a i => a.rotateLeft 5 + l.lane i) st.s })) ∧
    (∀ q, s.plotOf s.cur.core = some q → q.ringLog = 0 → exec (.trace n) s = .next (fireAll s n l)) ∧
    ∀ q, s.plotOf s.cur.core = some q → q.ringLog ≠ 0 →
      exec (.trace n) s = .next (fireAll (traceRecord s q l (n.mods.extractLsb' 0 4).toNat (q.bayCount + st.t)) n l)) ∧
  ∀ (s : State) (n : NodeFields) (l r : Token), nodeRuns s = true → input s 0 = some l → input s 1 = some r →
    (l = r → l.kind ≠ 3 → roomy s n = true → exec (.cmpr n) s = .next (fireAll s n l)) ∧
    (l ≠ r → exec (.cmpr n) s = .next (raiseNode s cDUALMISMATCH 0 (BitVec.ofNat 64 (firstDiff l r)) false))

/-- MLOAD, MSTORE, MATOM and MRED whose spans pass the tile's checks complete with the loaded words, the stored bytes or the reduced
words of the active lanes; a failing span raises its fault at its offset. GLOAD and GSTORE issue one access of the 64-bit base
plus the lane's offset per active lane in lane order and keep their place on the target arcs; a misaligned lane raises ALIGN. A
BAR releases the node's or port's stream once its accesses are accepted. (R217, R218, R219, R220, R293) -/
def Obligations.NodeMemoryAccess : Prop :=
  (∀ (s : State) (n : NodeFields) (l : Token), s.heads n l kDATA →
     let core := s.cur.core
     let h := nodeHandle s n
     let t := getTile s core h
     let row := n.mods.getLsbD 4
     let pairs := if row then (rOperand s n).mask else l.mask &&& (rOperand s n).mask
     let rmw := pairs &&& (if n.ep then (pOperand s).mask else 0xFFFF)
     (spanFault t (spansOf n l l.mask) false = none → ∀ u bs, readSpans s core h (spansOf n l l.mask) = (u, .ok bs) →
       ∃ out : Token, exec (.mload n) s = .next (fireAll (raceSpans u h (spansOf n l l.mask) false) n out) ∧ out.kind = kDATA ∧
         (row = false → out.mask = l.mask ∧ ∀ j < 16, l.mask.getLsbD j = true →
           out.lane j = leBv 32 (((bs.find? fun x => x.1 == j).map (·.2)).getD [])) ∧
         (row = true → ∀ b rest, bs = b :: rest → out.mask = 0xFFFF ∧ out.lanes = wordsOf 16 b.2)) ∧
     (∀ f, spanFault t (spansOf n l l.mask) false = some f →
       exec (.mload n) s = .next (raiseNode s f.1 0 (BitVec.ofNat 64 f.2) false)) ∧
     (spanFault t (spansOf n l pairs) true = none →
       (∀ v, storeLanes core h (storePieces n l (rOperand s n) pairs)
           (raceSpans s h ((wordSpans n l pairs).map fun x => (x.1, x.2, 4)) true) = .ok v →
         exec (.mstore n) s = .next (fireAll v n (ackTok n l))) ∧
       ∀ u bs, readSpans s core h (spansOf n l pairs) = (u, .ok bs) →
         exec (.mred n) s = .next (fireAll
           (rmwWords core h (n.mods.extractLsb' 0 4).toNat (rOperand u n) Token.init u (wordSpans n l (pairMask n l u))).1 n (ackTok n l))) ∧
     (spanFault t (spansOf n l rmw) true = none → ∀ u bs, readSpans s core h (spansOf n l rmw) = (u, .ok bs) →
       ∃ (v : State) (out : Token), exec (.matom n) s = .next (fireAll v n out) ∧ out.kind = kDATA ∧
         v = (rmwWords core h (n.mods.extractLsb' 0 4).toNat (rOperand u n) (pOperand u) u (wordSpans n l (rmwMask n l u))).1) ∧
     (∀ f, spanFault t (spansOf n l pairs) true = some f →
       exec (.mstore n) s = .next (raiseNode s f.1 0 (BitVec.ofNat 64 f.2) false) ∧
       exec (.mred n) s = .next (raiseNode s f.1 0 (BitVec.ofNat 64 f.2) false))) ∧
  ((∀ (s : State) (n : NodeFields) (l : Token), s.heads n l kDATA →
     let core := s.cur.core
     let agent : Agent := .node core s.cur.cell s.cur.stage
     let base := nodeBase s n
     (n.mods.getLsbD 4 = false → l.mask ≠ 0 → (∀ i < 16, l.mask.getLsbD i = true → (base + (l.lane i).signExtend 64).toNat % 4 = 0) →
       ∃ (u : State), exec (.gload n) s = .next
           ((((List.range 16).filter fun i => l.mask.getLsbD i)).foldl (fun v i =>
             issueVa v core agent .read (base + (l.lane i).signExtend 64) 4 [] false (.arc core 0 0 (s.nextId + 1) i)) u) ∧
         u = reserve (reserve (consume s.bump (enabled n)) (arcsA s n) (s.nextId + 1)
             { kind := kDATA, mask := l.mask, lanes := zeroLanes }) (arcsB s n) (s.nextId + 1)
             { kind := kDATA, mask := l.mask, lanes := zeroLanes }) ∧
     (n.mods.getLsbD 4 = true → l.mask.getLsbD 0 = true → (base + (l.lane 0).signExtend 64).toNat % 64 = 0 →
       ∃ t, exec (.gload n) s = .next t) ∧
     (n.mods.getLsbD 4 = false → (l.mask &&& (rOperand s n).mask) ≠ 0 →
       (∀ i < 16, (l.mask &&& (rOperand s n).mask).getLsbD i = true → (base + (l.lane i).signExtend 64).toNat % 4 = 0) →
       exec (.gstore n) s = .next
         (((List.range 16).filter fun i => (l.mask &&& (rOperand s n).mask).getLsbD i).foldl (fun v i =>
           issueVa v core agent .write (base + (l.lane i).signExtend 64) 4 (natLe 4 ((rOperand s n).lane i).toNat) false
             (if nullTarget n.tgta then .none else .arc core 0 0 (s.nextId + 1) i))
           (reserve (consume s.bump (enabled n)) (arcsA s n) (s.nextId + 1) (ackTok n l)))) ∧
     (∀ i < 16, n.mods.getLsbD 4 = false → l.mask.getLsbD i = true → (base + (l.lane i).signExtend 64).toNat % 4 ≠ 0 →
       (∀ j < i, l.mask.getLsbD j = true → (base + (l.lane j).signExtend 64).toNat % 4 = 0) →
       exec (.gload n) s = .next (raiseNode s cALIGN 0 (base + (l.lane i).signExtend 64) false))) ∧
   (∀ (s : State) (core cell stage : Nat) (n : NodeFields) (l : Token), stage < 6 →
     let u := { s with cur := { Ctx.init with core := core, cell := cell, stage := stage } }
     (decodeNode (wordAt s core cell stage) = .ok (.gload n) ∨ decodeNode (wordAt s core cell stage) = .ok (.gstore n)) →
     u.heads n l kBAR → streamAccepted s (.node core cell stage) = true →
     exec (.barOrderingPointRelease core cell stage) s = .next (raceRelease (fireAll u n l) core 2)) ∧
   ∀ (s : State) (core cell j : Nat) (t : Token), j < 2 →
     let u := { s with cur := { Ctx.init with core := core, cell := cell, stage := 6 + j } }
     let w := slotWord s core cell j
     w.extractLsb' 58 6 = 9 → headOf s core cell (4 * (6 + j)) = some t → t.kind = kBAR →
     (s.port core (4 + (w.extractLsb' 54 4).toNat)).eoiIn = false →
     streamAccepted s (.port core (4 + (w.extractLsb' 54 4).toNat)) = true →
     exec (.barOrderingPointRelease core cell (6 + j)) s =
       .next (raceRelease (sinkMark (popArc u core cell (4 * (6 + j))) core cell (6 + j) kBAR) core 2))

/-- Each of the seven matrix commands is enqueued when the queue has room and its checks pass, raises the fault of the failing check,
and stalls on a full queue of 8 commands, that in execution not counted (the model's reading of R315, log 51); ACLR passes them always. A granted command whose operands are ready starts; a wave step computes its
next chunk; after the last chunk the commit makes the accumulators visible, advances the version counter, releases the tiles and
completes the command with its steps. The cores of an MCOOP group start together and commit together, with the sum of their steps; a streamed operand or
result without its slot faults with FORMAT, and the rows of MMAG and the tile rows of ARD and AWR fault as they are read. (R314, R315, R316, R329, R333,
R336) -/
def Obligations.MatrixCommands : Prop :=
  (∀ (s : State) (acc : BitVec 2) (z sb sa scat gr bar eoi clr tile : Bool) (ty gc : BitVec 3) (g sc : BitVec 4)
     (b0 b1 b2 : BitVec 32), s.cur.slot = 0 →
     let c := s.cur.core
     (∀ x ∈ [(Instr.mma acc z sb sa ty b0 b1 b2, b2), (.mmag acc z sb scat ty g sc b0 b1 b2, b2), (.mmv acc z ty b0 b1 b2, b2),
         (.mcoop acc z ty gr gc b0 b1 b2, b2), (.aclr acc b0, 0), (.ard acc bar eoi clr tile b0 b1, 0), (.awr acc b0 b1, 0)],
       ∃ i, mInfo x.1 = some i ∧ i.acc = acc.toNat ∧ i.ver = b0.extractLsb' 12 8 ∧
         (let desc := if i.kind == .mmv then descriptor s (i.b.toNat % Config.localBytes) 16 else []
          (∀ t, matrixFull s c i = none → matrixCheck s c i b0 x.2 desc = .ok t →
            exec x.1 s = .next (matrixEnqueue (accept t desc 0) c (t.nextId + 1) i)) ∧
          (∀ t code d v, matrixFull s c i = none → matrixCheck s c i b0 x.2 desc = .bad t code d v →
            exec x.1 s = .next (acceptFault t code d v))) ∧
         ∀ m, matrixFull s c i = some m → exec x.1 s = .next (acceptStall s (.matrix m))) ∧
     ((s.core c).mat.queue.length < queueDepth → b0 &&& ~~~0x000FF000#32 = 0 →
       ∃ t, exec (.aclr acc b0) s = .next t ∧ t.me.cmds.length = s.me.cmds.length + 1 ∧
         t.me.mat = { s.me.mat with queue := s.me.mat.queue ++ [(c, s.nextId + 1)] })) ∧
  (∀ (s : State) (core : Nat) (c : Cmd) (i : MInfo), i.kind ≠ .mcoop →
     let mat := (s.core core).mat
     (∀ e, mat.grant = some e → e.1 = core → mCommand s e = some (c, i) → mat.run = none → mReady s core e = true →
       i.sa = false → i.sb = false → (i.kind ≠ .ard ∨ i.tile = true) → i.g = none →
       exec (.matrixStart core) s = .next (startRun (modCmd s core e.2 fun y => { y with phase := .running }) core e i
         ((List.range 64).map fun x => some (opRow i.a + x)) ((List.range 64).map some))) ∧
     (∀ r, mat.run = some r → r.core = core → mCommand s (core, r.id) = some (c, i) →
       (r.out = [] → i.sa = false → i.sb = false → r.chunk < chunks i →
         exec (.matrixWaveStep core) s = .next (waveStep s core r i)) ∧
       (r.out = [] → chunks i ≤ r.chunk → (i.kind = .mma ∨ i.kind = .mmv ∨ i.kind = .aclr) →
         exec (.matrixCommit core) s = .next (finishCmd (releaseHolds (s.modMat core fun m =>
           { m with accs := r.work, vers := tmod 0 m.vers i.acc (· + 1), run := none, grant := none }) core i.handles)
           core r.id 0 (BitVec.ofNat 32 r.steps))) ∧
       (chunks i ≤ r.chunk → r.out ≠ [] → exec (.matrixCommit core) s = .next s)) ∧
     (mat.run = none → exec (.matrixWaveStep core) s = .next s ∧ exec (.matrixCommit core) s = .next s) ∧
     (mat.grant = none → exec (.matrixStart core) s = .next s)) ∧
  (∀ (s : State) (core : Nat) (e : Nat × Nat) (c : Cmd) (i : MInfo) (group : List Nat), (s.core core).mat.grant = some e → mCommand s e = some (c, i) →
     mGroup s e.1 i = some group →
     let t := modCmd s e.1 e.2 fun y => { y with phase := .running }
     let ready := ∀ x ∈ group, (s.core x).mat.run = none ∧ (s.core x).mat.grant = some e ∧ mReady s x e = true
     let fed := (i.sa = true → findSlot t core 3 0 ≠ none) ∧ (i.sb = true → findSlot t core 4 0 ≠ none) ∧
       (i.kind = .ard → i.tile = false → findSlot t core 5 0 ≠ none)
     (i.kind ≠ .mcoop → group = [e.1]) ∧
     (¬ready → exec (.matrixStart core) s = .next s) ∧
     (ready → ¬fed → exec (.matrixStart core) s = .next (matrixFault t e.1 e.2 i cFORMAT 0 0)) ∧
     (ready → fed →
       (∀ u arows crows, runRows t e.1 i = (u, .ok (arows, crows)) →
         exec (.matrixStart core) s = .next (group.foldl (fun v x => startRun v x e i arows crows) u)) ∧
       ∀ u f, runRows t e.1 i = (u, .error f) → exec (.matrixStart core) s = .next (matrixFault u e.1 e.2 i f.1 f.2.1 f.2.2))) ∧
  ∀ (s : State) (core : Nat) (r : MRun) (c : Cmd) (i : MInfo) (group : List Nat), (s.core core).mat.run = some r → mCommand s (r.core, r.id) = some (c, i) →
     mGroup s r.core i = some group →
     let part := fun (x : Nat) (y : MRun) => (s.core x).mat.run = some y ∧ y.core = r.core ∧ y.id = r.id ∧ runDone y i = true
     ((∃ x ∈ group, ∀ y, ¬part x y) → exec (.matrixCommit core) s = .next s) ∧
     ∀ runs : List MRun, runs.length = group.length → (∀ x ∈ group.zip runs, part x.1 x.2) →
       (∀ t w, commitTile s core r i = (t, .ok w) →
         let u := (group.zip runs).foldl (fun v x => v.modMat x.1 fun m =>
           { m with accs := if x.1 = core then w else x.2.work, vers := tmod 0 m.vers i.acc (· + 1), run := none, grant := none }) t
         exec (.matrixCommit core) s = .next (finishCmd (releaseHolds u r.core i.handles) r.core r.id 0
           (BitVec.ofNat 32 (if i.kind = .ard ∧ i.tile = true then 0 else (runs.map fun y => y.steps).sum)))) ∧
       ∀ t f, commitTile s core r i = (t, .error f) → exec (.matrixCommit core) s = .next (matrixFault t r.core r.id i f.1 f.2.1 f.2.2)

/-- For the rows and columns of a chunk, element (i, j) of the working accumulator becomes its old value plus the exact chunk sum of
row i and column j rounded to FP32; every other element of every accumulator keeps its value. (R321, R322, R323, R326) -/
def Obligations.MatrixAccumulates : Prop :=
  ∀ (i : MInfo) (r : MRun) (w : Tbl W32) (rows cols : List (Nat × List Fv)), i.kind ≠ .mmv → i.acc < 4 →
    r.crows = (List.range 64).map some → (rows.map Prod.fst).Nodup → (cols.map Prod.fst).Nodup →
    (∀ x ∈ rows, x.1 < 64) → (∀ y ∈ cols, y.1 < 64) →
    (∀ x ∈ rows, ∀ y ∈ cols, let k := accKey i.acc x.1 y.1
      tget 0 (addSums i r w rows cols) k =
        BitVec.ofNat 32 (fp32.addW (tget 0 w k).toNat (fp32.round (chunkSum x.2 y.2)))) ∧
    ∀ k, (∀ x ∈ rows, ∀ y ∈ cols, k ≠ accKey i.acc x.1 y.1) → tget 0 (addSums i r w rows cols) k = tget 0 w k

/-- Each of the seven key commands is queued when the engine has room and its checks pass, raises the failing check's fault and stalls
on a full queue. The oldest one starts when its tiles are ready, writes its outputs once (one step of the model, log 35), and
completes with its result and its tiles released; an execution fault ends it instead. (R342, R344, R352, R353, R354) -/
def Obligations.KeyCommandsRun : Prop :=
  ∀ (s : State) (si so fl : Bool) (kt fn : BitVec 2) (b0 b1 b2 : BitVec 32),
    let c := s.cur.core
    (s.cur.slot = 0 →
      ∀ x ∈ [Instr.ktopk si so kt b0 b1 b2, .ksort si so fl kt b0 b1 b2, .khist si so fl b0 b1 b2, .kscan si so fl kt b0 b1 b2,
          .kmerge fn fl kt b0 b1 b2, .kpermG b0 b1 b2, .kpermS b0 b1 b2],
        ∃ i, kInfo x = some i ∧ i.n = b0 ∧ i.ldesc = b1 ∧ i.param = b2 ∧
          (let desc := descriptor s (b1.toNat % Config.localBytes) 64
           keyLoad s.me < queueDepth →
           (keyCheck s c i desc = none →
            exec x s = .next (holdAll ((accept s desc 0).modKey c fun k => { k with queue := k.queue ++ [s.nextId + 1] }) c
              (descHandles desc))) ∧
           ∀ f, keyCheck s c i desc = some f → exec x s = .next (acceptFault s f.1 0 f.2)) ∧
          (queueDepth ≤ keyLoad s.me → exec x s = .next (acceptStall s .key))) ∧
    (∀ core id rest cmd i, (s.core core).key.queue = id :: rest → kCommand s core id = some (cmd, i) →
      let k := (s.core core).key
      (s.cur.slot = id → id ≠ 0 → s.cur.core = core → i.si = false → i.so = false → k.performed = false → k.itok = [] →
        (k.started = false → keyReady s core cmd i = true →
          exec (.ksort si so fl kt b0 b1 b2) s = .next (modCmd (s.modKey core fun k =>
            { k with started := true, performed := false, itok := [], out := [], result := 0, absent := none }) core id
            fun y => { y with phase := .running })) ∧
        (∀ t first ws res, k.started = true → keyFault s core cmd i = none →
          keyEffect s core i cmd.desc = (t, .ok (first, ws, res)) →
          let o := slotRef cmd.desc i.outSlot
          let mine := if refNone o || first.isEmpty then ws else (refHandle o, refOffset o, first) :: ws
          exec (.ksort si so fl kt b0 b1 b2) s = .next ((writeOut core mine t).1.modKey core fun k =>
            { k with performed := true, result := res, out := [] }))) ∧
      (k.started = true → k.performed = true → k.out = [] →
        exec (.keyCommandComplete core) s =
          .next (finishCmd (releaseHolds (keyPop s core) core (descHandles cmd.desc)) core id 0 k.result)) ∧
      (∀ t code v, k.started = true → keyFault s core cmd i = some (t, code, v) → i.si = false → i.so = false →
        exec (.keyExecutionFault core) s =
          .next (faultCommand (releaseHolds (keyPop t core) core (descHandles cmd.desc)) core id code 0 v 0 false)) ∧
      (k.started = true → k.performed = false → exec (.keyCommandComplete core) s = .next s) ∧
      (k.started = false → exec (.keyExecutionFault core) s = .next s))

/-- The key order follows the unsigned, the signed and the FP32 order: -0 stands below +0, every number from -infinity to +infinity, and all NaNs are
equal and above. KSORT makes each segment a stable permutation in order or in reverse order;
KTOPK's token yields the k largest keys, lower numbers first on a tie; KHIST counts exactly the keys of each bucket and those
outside; KSCAN yields in each segment the sums before or up to each element, for FP32 the left fold with each addition rounded, and the last sum as
RESULT; KMERGE yields the strictly ascending union with shared indices combined. (R346, R347, R348, R349, R351) -/
def Obligations.KeyResults : Prop :=
  ((∀ a b : W32, let nan := fun (x : W32) => fp32.isNan x.toNat
     (keyOrder 0 a < keyOrder 0 b ↔ a.toNat < b.toNat) ∧ (keyOrder 1 a < keyOrder 1 b ↔ a.toInt < b.toInt) ∧
     (nan a = true → keyOrder 2 a = 0xFFFFFFFF) ∧ (nan a = false → keyOrder 2 a < 0xFFFFFFFF) ∧
     ((fp32.value a.toNat).cmp (fp32.value b.toNat) = some .lt → keyOrder 2 a < keyOrder 2 b) ∧
     (nan a = false → nan b = false → (keyOrder 2 a = keyOrder 2 b ↔ a = b)) ∧ keyOrder 2 0x80000000 < keyOrder 2 0 ∧
     (nan a = false → keyOrder 2 0xFF800000 ≤ keyOrder 2 a ∧ keyOrder 2 a ≤ keyOrder 2 0x7F800000)) ∧
   (∀ (i : KInfo) (ps : List (W32 × W32)) (n : Nat), i.fn = .sort → ps.length = i.n.toNat →
     let len := if i.param = 0 ∨ i.n.toNat < i.param.toNat then i.n.toNat else i.param.toNat
     let seg := fun (l : List (W32 × W32)) => (l.drop (n * len)).take len
     let r := sortPairs i ps
     r.length = ps.length ∧ (seg r).Perm (seg ps) ∧
     (i.flag = false → (seg r).Pairwise fun a b => keyOrder i.kt a.1 ≤ keyOrder i.kt b.1) ∧
     (i.flag = true → (seg r).Pairwise fun a b => keyOrder i.kt b.1 ≤ keyOrder i.kt a.1) ∧
     ∀ m, (seg r).filter (fun x => keyOrder i.kt x.1 == m) = (seg ps).filter (fun x => keyOrder i.kt x.1 == m)) ∧
   ∀ (kt k : Nat) (keys : List W32),
     let r := topkToken kt k keys
     r.length = min k keys.length ∧ (r.map Prod.fst).Nodup ∧ (∀ x ∈ r, keys[x.1]? = some x.2) ∧
     (r.Pairwise fun a b => keyOrder kt b.2 < keyOrder kt a.2 ∨ keyOrder kt b.2 = keyOrder kt a.2 ∧ a.1 < b.1) ∧
     ∀ n v, keys[n]? = some v → (n, v) ∉ r → ∀ x ∈ r, keyOrder kt v < keyOrder kt x.2 ∨ keyOrder kt v = keyOrder kt x.2 ∧ x.1 < n) ∧
  ((∀ (bins shift : Nat) (start keys : List W32) (b : Nat), b < bins →
     (histCounts bins shift start keys).1[b]? =
       some (start.getD b 0 + BitVec.ofNat 32 (keys.countP fun x => x.toNat / 2 ^ shift == b)) ∧
     (histCounts bins shift start keys).2 = BitVec.ofNat 32 (keys.countP fun x => Nat.ble bins (x.toNat / 2 ^ shift))) ∧
   (∀ (i : KInfo) (xs : List W32) (n : Nat), i.fn = .scan → xs.length = i.n.toNat →
     let len := if i.param = 0 ∨ i.n.toNat < i.param.toNat then i.n.toNat else i.param.toNat
     let first := n / len * len
     let add := fun (a b : W32) => if i.kt = 2 then BitVec.ofNat 32 (fp32.round ((fp32.value a.toNat).add (fp32.value b.toNat))) else a + b
     let upTo := fun (m : Nat) => ((xs.drop (first + 1)).take m).foldl add (xs.getD first 0)
     (n < xs.length → (scanAll i xs).1[n]? = some (if i.flag then (if n = first then 0 else upTo (n - first - 1)) else upTo (n - first))) ∧
     (n + 1 = xs.length → (scanAll i xs).2 = upTo (n - first)) ∧ (xs = [] → (scanAll i xs).2 = 0)) ∧
   ∀ (i : KInfo) (as bs : List (W32 × W32)), i.fn = .merge →
     (as.map Prod.fst).Pairwise (fun a b => a.ult b = true) → (bs.map Prod.fst).Pairwise (fun a b => a.ult b = true) →
     let r := mergeLists i (as.length + bs.length + 1) as bs
     (r.map Prod.fst).Pairwise (fun a b => a.ult b = true) ∧
     ∀ n v, (n, v) ∈ r ↔
       (((n, v) ∈ as ∧ n ∉ bs.map Prod.fst) ∨ ((n, v) ∈ bs ∧ n ∉ as.map Prod.fst) ∨
         ∃ x y, (n, x) ∈ as ∧ (n, y) ∈ bs ∧ v = keyCombine i.kt i.comb x y ∧ (i.flag = true ∨ keyZero i.kt v = false)))

/-- Each of the four copy commands goes to the first engine of its set with room after its checks, by an ordered packet to the engine's die, or
raises the failing check's fault, and stalls while no engine of the set has room. COPY_COMPLETE waits for every destination byte and every access, then advances the rings, releases the tiles
and completes the command, from the engine's die, with the byte count; a CPYF hands its follow-on to the matrix operator instead, waits while the
operator is full, and faults when the checks of the follow-on fail (R338). Run n of a side starts at the base plus its three strided indices and every run lies within the
side's span; ascending sides do not overlap. ENG 12 to 14 raises FORMAT with TVAL 0 whatever other field of group 2 of R371 fails (the model's reading,
log 27). (R338, R358, R359, R361, R362, R371, R373) -/
def Obligations.CopyCommandsAndNests : Prop :=
  (∀ (s : State) (sk dk sidx : BitVec 2) (eng : BitVec 4) (eoi adv fb sys : Bool) (b0 b1 b2 : BitVec 32),
     let c := s.cur.core
     (s.cur.slot = 0 →
       ∀ x ∈ [Instr.cpy sk dk eoi adv eng sidx b0 b1, .cpyx sk dk eoi adv eng sidx b0 b1, .cpyf sk fb eng sidx b0 b1 b2,
           .csig sk dk sys eng sidx b0 b1 b2],
         ∃ i, cInfo x = some i ∧ i.ldesc = b0 ∧ i.n1 = b1 ∧ i.eng = eng.toNat ∧
           (let set := engineSet (dieOf c) i.eng
            let desc := descriptor s (b0.toNat % Config.localBytes) 128
            ∀ e, set.find? (copyRoom s) = some e →
              (∀ t, copyCheck s c i desc = .ok t →
                exec x s = .next (sendCommands (modCmd (holdAll ((accept t desc (savedProgress t)).modEngine e fun g =>
                  { g with queue := g.queue ++ [(c, t.nextId + 1)] }) c ((copyHandles i desc).map (·.2))) c (t.nextId + 1) fun y =>
                    { y with home := 4 + e / 24, ctl := .held }))) ∧
              ∀ t code d v, copyCheck s c i desc = .bad t code d v → exec x s = .next (acceptFault t code d v)) ∧
           (let set := engineSet (dieOf c) i.eng
            set ≠ [] → (∀ e ∈ set, copyRoom s e = false) → exec x s = .next (acceptStall s (.copy set))) ∧
           (12 ≤ eng.toNat → eng.toNat ≠ 15 → b0.toNat % 64 = 0 → b0.toNat + 127 ≤ 0x7FFF →
             exec x s = .next (acceptFault s cFORMAT 0 0))) ∧
     ∀ (e core : Nat) (cmd : Cmd) (i : CInfo), engineRun s e = some (core, cmd, i) →
       let g := s.engine e
       let total := (i.dst cmd.desc).total
       let hs := (copyHandles i cmd.desc).map (·.2)
       (g.waited = true → total ≤ cmd.prog → accsOf s core cmd.id = [] → (g.flagged = true ∨ i.fn ≠ .csig ∧ i.eoi = false) →
         copyFault s e core cmd i = none → (∀ x ∈ ringNeeds s core i cmd.desc g.index, pointersHeld s core x.1 = false) →
         (i.fn ≠ .cpyf → exec (.copyComplete e) s = .next (completeFrom (releaseHolds (enginePop
           ((advanceRings s e core cmd i).count (4 + e / 24) 1 1) e) core hs) core cmd.id 0 (BitVec.ofNat 32 total))) ∧
         ∀ x m, i.fn = .cpyf → decodeCommand (followCmd i cmd.desc) = .ok x → mInfo x = some m →
           let fc := followCmd i cmd.desc
           let desc := if m.kind == .mmv then mread (s.core core).lmem (m.b.toNat % Config.localBytes) 16 else []
           let follows := fun (t : State) => modCmd ((enginePop t e).count (4 + e / 24) 1 1) core cmd.id fun y =>
             { y with cmd := fc, follow := true, phase := .accepted, desc := desc, prog := 0, home := dieOf core, ctl := .here }
           ((∃ w, matrixFull s core m = some w) → exec (.copyComplete e) s = .next s) ∧
           (matrixFull s core m = none →
             (∀ t, matrixCheck s core m (fc.extractLsb' 0 32) (fc.extractLsb' 64 32) desc = .ok t →
               exec (.copyComplete e) s = .next (releaseHolds (matrixEnqueue (follows t) core cmd.id m) core hs)) ∧
             ∀ t code d v, matrixCheck s core m (fc.extractLsb' 0 32) (fc.extractLsb' 64 32) desc = .bad t code d v →
               exec (.copyComplete e) s = .next (faultCommand (releaseHolds (follows t) core hs) core cmd.id code d v 0 false))) ∧
       ((g.waited = false ∨ cmd.prog < total ∨ accsOf s core cmd.id ≠ []) → exec (.copyComplete e) s = .next s) ∧
       (∀ p code d v, copyFault s e core cmd i = some (p, code, d, v) → i.sk ≠ 2 → i.dk ≠ 2 →
         exec (.copyExecutionFault e) s = .next (faultCommand (releaseHolds (enginePop (letGo s core cmd.id) e) core
           ((copyHandles i cmd.desc).map (·.2))) core cmd.id code d v p true)) ∧
       (copyFault s e core cmd i = none → exec (.copyExecutionFault e) s = .next s)) ∧
  ((∀ (d : Side) (c1 c2 c3 : Nat) (s1 s2 s3 : Int) (i1 i2 i3 x : Nat), d.cnt = [c1, c2, c3] → d.str = [s1, s2, s3] →
     i1 < c1 → i2 < c2 → i3 < c3 → x < d.run →
     let n := i1 + c1 * (i2 + c2 * i3)
     n < d.runs ∧ d.start n = d.base + i1 * s1 + i2 * s2 + i3 * s3 ∧ d.at_ (n * d.run + x) = d.start n + x ∧
     d.span.1 ≤ d.start n ∧ d.start n + d.run ≤ d.span.2) ∧
   ∀ (d : Side) (c1 c2 c3 : Nat) (s1 s2 s3 : Int), d.cnt = [c1, c2, c3] → d.str = [s1, s2, s3] → d.ascending = true →
     0 < d.run → ∀ n, n + 1 < d.runs → d.start n + d.run ≤ d.start (n + 1))

/-- CGRP and CGRP_FREE travel to the collective logic of the Market die (R60). There CGRP joins a rank, completes all members when the group is whole and
refuses a mismatch; CGRP_FREE waits for every member and then
completes for each with its own P; each completion leaves the Market die. TVAL of one from a core that is no lead core, and a second rank of one plot, are
the model's readings of R376 (log 28). A
collective is accepted after its checks and travels to its Market die; when every member's command has come there the members that do not match
complete with FORMAT and matching ones exchange the rendezvous and make their transfers; a member completes once its own transfers are performed, and a
trailing sector behind a piece that has failed is not written. Word j of a reduction is the left
fold over the members' words in rank order. (R375, R376, R377, R378, R379, R380, R382) -/
def Obligations.Collectives : Prop :=
  (∀ (s : State) (devs : Bool) (g : BitVec 6) (p rank : BitVec 32),
     let c := s.cur.core
     (s.cur.slot = 0 →
       (leadPlot s c ≠ none → 0 < p.toNat → p.toNat ≤ (if devs then 192 else 320) →
         (rank.toNat < p.toNat →
           let t := sendCommands (modCmd (accept s [] 0) c (s.nextId + 1) fun y => { y with home := marketOf c, ctl := .held })
           exec (.cgrp devs g p rank) s = .next t ∧ exec (.cgrpFree devs g p rank) s = .next t) ∧
         (p.toNat ≤ rank.toNat →
           exec (.cgrp devs g p rank) s = .next (acceptFault s cFORMAT 0 (rank.setWidth 64)) ∧
           exec (.cgrpFree devs g p rank) s = .next (acceptFault s cFORMAT 0 (rank.setWidth 64)))) ∧
       ((leadPlot s c = none ∨ p.toNat = 0 ∨ (if devs then 192 else 320) < p.toNat) →
         exec (.cgrp devs g p rank) s = .next (acceptFault s cFORMAT 0 (p.setWidth 64)) ∧
         exec (.cgrpFree devs g p rank) s = .next (acceptFault s cFORMAT 0 (p.setWidth 64)))) ∧
     ∀ (me : Cmd) (q : Plot), s.cur.slot ≠ 0 → (s.core c).cmd s.cur.slot = some me → me.phase = .accepted → leadPlot s c = some q →
       let gr := s.group g.toNat
       let mine : Member := { plot := q.id, rank := rank.toNat, core := c, pending := [me.id], freed := none }
       (atExecutor me = false → exec (.cgrp devs g p rank) s = .next s ∧ exec (.cgrpFree devs g p rank) s = .next s) ∧
       (atExecutor me = true → gr.members = [] → 2 ≤ p.toNat →
         exec (.cgrp devs g p rank) s = .next (modCmd (s.modGroup g.toNat fun _ =>
           { gr with devs := devs, p := p.toNat, members := [mine] }) c me.id fun y => { y with phase := .running })) ∧
       (atExecutor me = true → gr.members ≠ [] → (gr.devs ≠ devs ∨ gr.p ≠ p.toNat ∨ ∃ m ∈ gr.members, m.rank = rank.toNat) →
         exec (.cgrp devs g p rank) s = .next (completeFrom s c me.id cFORMAT 0)) ∧
       (atExecutor me = true → gr.members ≠ [] → gr.devs = devs → gr.p = p.toNat → (∀ m ∈ gr.members, m.rank ≠ rank.toNat) →
         gr.members.length + 1 = gr.p →
         exec (.cgrp devs g p rank) s = .next ((finishAll (modCmd (s.modGroup g.toNat fun _ =>
             { gr with devs := devs, p := p.toNat, members := gr.members ++ [mine] }) c me.id fun y => { y with phase := .running })
           (gr.members ++ [mine]) 0 p).modGroup g.toNat fun x =>
             { x with members := x.members.map fun m => { m with pending := [] } })) ∧
       (atExecutor me = true → (gr.whole = false ∨ gr.memberOf q.id = none) →
         exec (.cgrpFree devs g p rank) s = .next (completeFrom s c me.id cFORMAT 0)) ∧
       (∀ m, atExecutor me = true → gr.whole = true → gr.memberOf q.id = some m → m.freed = none →
         let ms := mapFirst (fun x => x.plot == q.id) (fun x => { x with freed := some me.id }) gr.members
         ((∀ x ∈ ms, x.freed ≠ none) →
           exec (.cgrpFree devs g p rank) s = .next { finishFreed s ms with groups := tdel s.groups g.toNat }) ∧
         ((∃ x ∈ ms, x.freed = none) →
           exec (.cgrpFree devs g p rank) s = .next (modCmd (s.modGroup g.toNat fun x => { x with members := ms }) c me.id
             fun y => { y with phase := .running })))) ∧
  ((∀ (s : State) (esz kt op : BitVec 2) (g : BitVec 6) (l n : BitVec 32), s.cur.slot = 0 →
     let c := s.cur.core
     ∀ x ∈ [Instr.a2av esz g l, .agth esz g l n, .rsct kt op g l n, .ared kt op g l n],
       ∃ i, gInfo x = some i ∧ i.g = g.toNat ∧ i.ldesc = l ∧
         (let desc := descriptor s (l.toNat % Config.localBytes) 64
          (collectiveCheck s c i desc = none → exec x s = .next (sendCommands
             ((modCmd (accept s desc 0) c (s.nextId + 1) fun y => { y with home := marketOf c, ctl := .held }).modGroup g.toNat fun gr =>
               { gr with members := mapFirst (fun m => m.core == c) (fun m => { m with pending := m.pending ++ [s.nextId + 1] }) gr.members }))) ∧
          ∀ f, collectiveCheck s c i desc = some f → exec x s = .next (acceptFault s f.1 0 f.2)) ∧
         (l.toNat % 64 ≠ 0 → exec x s = .next (acceptFault s cALIGN 0 ((l.extractLsb' 0 15).setWidth 64)))) ∧
   (∀ (s : State) (g : Nat), let gr := s.group g
     let ps := parties s gr
     (ps.length = gr.p → gr.p ≠ 0 → gr.whole = true → gr.met = false → (∀ q ∈ ps, atExecutor q.cmd = true) →
       ((∃ a ∈ ps, ∃ b ∈ ps, a.i.fn ≠ b.i.fn ∨ a.i.e ≠ b.i.e ∨ a.i.kt ≠ b.i.kt ∨ a.i.op ≠ b.i.op ∨ a.i.count ≠ b.i.count) →
         exec (.collectiveRendezvous g) s = .next (groupNext (ps.foldl (fun t q => completeFrom t q.core q.cmd.id cFORMAT 0) s) g)) ∧
       ((∀ a ∈ ps, ∀ b ∈ ps, a.i.fn = b.i.fn ∧ a.i.e = b.i.e ∧ a.i.kt = b.i.kt ∧ a.i.op = b.i.op ∧ a.i.count = b.i.count) →
         (∀ t ∈ transfers s ps, blockedDest s ps t = false) → ∀ u, meetTraffic s ps = some u →
         exec (.collectiveRendezvous g) s = .next ((transfers s ps).foldl (doTransfer ps)
           (ps.foldl (fun t q => setOutcome t q 0 0) (u.modGroup g fun x => { x with met := true, done := [] }))))) ∧
     (gr.whole = false ∨ gr.met = true ∨ ps.length < gr.p → exec (.collectiveRendezvous g) s = .next s) ∧
     ∀ (rank : Nat) (q : Party), ps.find? (fun x => x.rank == rank) = some q → gr.met = true → rank ∉ gr.done →
       let u := dropTrailing s
       (gr.done.length + 1 < gr.p →
         (partyAccs u q = [] → exec (.collectiveComplete g rank) s =
           .next ((completeFrom u q.core q.cmd.id q.cmd.code q.cmd.result).modGroup g fun x => { x with done := rank :: x.done })) ∧
         (partyAccs u q ≠ [] → (∀ a ∈ partyAccs u q, a.phase = .returned) → exec (.collectiveComplete g rank) s =
           .next ((completeFrom u q.core q.cmd.id cCAUSALGAP 0).modGroup g fun x => { x with done := rank :: x.done }))) ∧
       ((∃ a ∈ partyAccs u q, a.phase ≠ .returned) → exec (.collectiveComplete g rank) s = .next (stampReady u)) ∧
       ∀ a ∈ u.accs, a.rel = true → a.phase = .issued → a.xfer ≠ 0 → ∀ b ∈ s.accs, b.id < a.id → failedPart b a = false) ∧
   ∀ (kt op : Nat) (b : List Byte) (bs : List (List Byte)) (n j : Nat), b.length = 4 * n → (∀ x ∈ bs, x.length = 4 * n) → j < n →
     let w := fun (x : List Byte) => (wordsOf n x).getD j 0
     slice (foldBlocks kt op (b :: bs)) (4 * j) 4 = natLe 4 (bs.foldl (fun a x => keyCombine kt op a (w x)) (w b)).toNat)

/-- With a translation at hand and operands in place, each atomic command is accepted and sends its access with operation, size,
operand and ordering; a misaligned address raises ALIGN, and a REDV from an invalid tile PERMISSION. (R295, R296, R297, R298) -/
def Obligations.AtomicCommandsSent : Prop :=
  ∀ (s t : State) (ord : BitVec 2) (lm dw : Bool) (op : BitVec 4) (h : BitVec 6) (addr : Word) (b2 : BitVec 32) (e : TcEntry),
    s.cur.slot = 0 → s.me.acq = none → translate s s.cur.core (coreRoot s s.cur.core) addr true false = (.hit e, t) →
    let w := if dw then 8 else 4
    (addr.toNat % w = 0 →
      (lm = true → b2.toNat % w = 0 ∧ b2.toNat + w ≤ Config.localBytes) →
      (e.host = true → Config.cxlCache = true ∨ op = 0 ∨ op = 9) →
      exec (.amo ord lm dw op addr b2) s =
        .next (sendAtomic t (atomicAccess t .atomic e addr w op.toNat ord [] (atomicOperand t lm dw b2)))) ∧
    (addr.toNat % w = 0 → b2.toNat % w = 0 → b2.toNat + 2 * w ≤ Config.localBytes →
      exec (.amoc ord dw addr b2) s = .next (sendAtomic t (atomicAccess t .atomic e addr w 9 ord
        (mread t.me.lmem b2.toNat w) (mread t.me.lmem (b2.toNat + w) w)))) ∧
    (addr.toNat % w = 0 →
      (lm = true → b2.toNat % w = 0 ∧ b2.toNat + w ≤ Config.localBytes) →
      (e.host = true → Config.cxlCache = true ∨ op = 0) →
      exec (.red ord lm dw op addr b2) s =
        .next (sendAtomic t (atomicAccess t .reduce e addr w op.toNat ord [] (atomicOperand t lm dw b2)))) ∧
    (addr.toNat % w ≠ 0 → lm = false →
      exec (.amo ord lm dw op addr b2) s = .next (acceptFault s cALIGN 0 addr) ∧
      exec (.red ord lm dw op addr b2) s = .next (acceptFault s cALIGN 0 addr)) ∧
    (let n := (b2.extractLsb' 0 6).toNat + 1
     let o := (b2.extractLsb' 6 26).toNat * 64
     let tile := getTile s s.cur.core h.toNat
     (tile.valid = true → o + 64 * n ≤ tile.size → mayAccess tile false false o (64 * n) = true → addr.toNat % 64 = 0 →
       ∀ u es, translatePages s (pagesOf addr (64 * n)) = (u, .ok es) → (∀ x ∈ es, x.host = false) →
         ∃ v : State, exec (.redv ord op h addr b2) s = .next v ∧ v.me.cmds.length = u.me.cmds.length + 1) ∧
     (tile.valid = false → exec (.redv ord op h addr b2) s = .next (acceptFault s cPERMISSION 0 (b2.setWidth 64))))

/-- An AMO returns the low word of the old value and keeps it in local memory where asked, an AMOC keeps it and returns whether it
matched, a RED or REDV completes once every access has been performed without error; a failed access completes the command with
its code, that of a REDV once the rows before it have been performed. The ten operations on 32 and 64 bit words compute sum, FP32 sum, signed and unsigned extrema, the three bitwise results,
exchange and compare-and-exchange. (R296, R297, R299) -/
def Obligations.AtomicCommandsEnd : Prop :=
  (∀ (s : State) (ord : BitVec 2) (lm dw : Bool) (op : BitVec 4) (h : BitVec 6) (addr : Word) (b2 : BitVec 32) (a : Access),
     s.cur.slot ≠ 0 →
     let c := s.cur.core
     let t := { s with accs := s.accs.filter fun x => x.dest != .cmd c s.cur.slot }
     let kept := fun (v : List Byte) => t.modCore c fun k => { k with lmem := mwrite k.lmem b2.toNat v }
     (cmdAccs s = [a] → a.phase = .returned →
       (a.code = 0 →
         exec (.amo ord lm dw op addr b2) s =
           .next (finishCmd (if lm then kept a.value else t) c s.cur.slot 0 (leBv 32 (a.value.take 4))) ∧
         exec (.amoc ord dw addr b2) s =
           .next (finishCmd (kept a.value) c s.cur.slot 0 (if a.value = a.cmp then 1 else 0))) ∧
       (a.code ≠ 0 → exec (.amo ord lm dw op addr b2) s = .next (finishCmd t c s.cur.slot a.code 0) ∧
         exec (.amoc ord dw addr b2) s = .next (finishCmd t c s.cur.slot a.code 0))) ∧
     (∀ cmd, (s.core c).cmd s.cur.slot = some cmd → cmd.phase = .accepted → (∀ x ∈ cmdAccs s, accPerformed x = true ∧ x.code = 0) →
       exec (.red ord lm dw op addr b2) s = .next (finishCmd t c s.cur.slot cmd.code 0) ∧
       exec (.redv ord op h addr b2) s = .next (finishCmd t c s.cur.slot cmd.code 0)) ∧
     (∀ cmd pre bad post, (s.core c).cmd s.cur.slot = some cmd → cmd.phase = .accepted → cmdAccs s = pre ++ bad :: post → bad.code ≠ 0 →
       (∀ x ∈ pre, x.code = 0) →
       ((∀ x ∈ pre, accPerformed x = true) → exec (.redv ord op h addr b2) s = .next (finishCmd t c s.cur.slot bad.code 0)) ∧
       ((∃ x ∈ pre, accPerformed x = false) → exec (.redv ord op h addr b2) s = .next s))) ∧
  (∀ (w old v c : Nat), (w = 32 ∨ w = 64) → old < 2 ^ w → v < 2 ^ w →
     atomicWord 0 w none old v = (old + v) % 2 ^ w ∧
     atomicWord 1 w none old v = fp32.addW old v ∧
     signed w (atomicWord 2 w none old v) = min (signed w old) (signed w v) ∧
     signed w (atomicWord 3 w none old v) = max (signed w old) (signed w v) ∧
     atomicWord 4 w none old v = min old v ∧ atomicWord 5 w none old v = max old v ∧
     (∀ b, (atomicWord 6 w none old v).testBit b = (old.testBit b && v.testBit b) ∧
       (atomicWord 7 w none old v).testBit b = (old.testBit b || v.testBit b) ∧
       (atomicWord 8 w none old v).testBit b = (old.testBit b ^^ v.testBit b)) ∧
     atomicWord 9 w none old v = v ∧
     atomicWord 9 w (some old) old v = v ∧ (c ≠ old → atomicWord 9 w (some c) old v = old))

/-- An issued local access that the ordering rules let go and that has a slot at its bridge is performed and returns, and a remote one is stamped; any
other waits. A write that a host
port has accepted is performed when the host has completed those accepted before it. A read delivers the bytes of device memory and changes none; an atomic of 4 or 8 bytes writes the operation's word over exactly its
bytes and delivers the old ones. A walk whose reads have crossed the fabric and that ends in a translation enters it into the core's cache and wakes
what was parked. (R237, R247, R281, R282, R283, R299, R241, R243) -/
def Obligations.AccessesPerformed : Prop :=
  ∀ (s : State) (a : Access), s.accs.find? (fun x => x.id == a.id) = some a →
    (a.phase = .issued → a.rel = false ∨ a.scope ≠ 3 → mayGo s a = true →
      (a.remote = false → bridgeTurn s a = true → exec (.accessPerformed a.id) s = .next (stampReady (performAccess s a .returned))) ∧
      (a.remote = false → bridgeTurn s a = false → exec (.accessPerformed a.id) s = .next s) ∧
      (a.remote = true → exec (.accessPerformed a.id) s = .next (tryStamp s a))) ∧
    (a.phase = .accepted → s.hostPend.head? = some a.id → exec (.accessPerformed a.id) s = .next (stampReady (performNow s a .returned))) ∧
    ((a.phase = .issued ∧ (a.rel = false ∨ a.scope ≠ 3) ∧ mayGo s a = false ∨ a.phase = .accepted ∧ s.hostPend.head? ≠ some a.id ∨
        a.phase ≠ .issued ∧ a.phase ≠ .accepted) → exec (.accessPerformed a.id) s = .next s) ∧
    (a.phase = .issued → a.host = true → a.kind = .write → ∃ t, performAccess s a .returned = t ∧ t.hostMem = s.hostMem ∧
      t.hostPend = s.hostPend ++ [a.id]) ∧
    (a.host = false → (∀ x ∈ s.poisoned, x < a.addr / 32 ∨ (a.addr + a.len - 1) / 32 < x) → 0 < a.len → a.rw = false → a.ac = false →
      (∀ p, a.agent ≠ .host p) →
      (a.kind = .read → ∃ u, homeEffect s a = (u, (List.range a.len).map fun i => mbyte s.mem (a.addr + i), 0) ∧ u.mem = s.mem) ∧
      (a.kind = .atomic → a.cmp = [] → a.len = 8 ∨ a.len = 4 →
        let old := (List.range a.len).map fun i => mbyte s.mem (a.addr + i)
        ∃ u, homeEffect s a = (hbmWrite u a.addr (natLe a.len (atomicOp a.op.toNat (8 * a.len) (leNat old) (leNat a.data))), old, 0) ∧
          u.mem = s.mem)) ∧
    (∀ (w : Walk), s.walks.find? (fun x => x.id == w.id) = some w → w.fault = none → w.heldAt = none → walkServed s w = true →
      (walkTraffic s (dieOf w.core) w.root w.va = none → exec (.pageWalkComplete w.id) s = .next s) ∧
      ∀ (v u : State) (e : TcEntry), walkTraffic s (dieOf w.core) w.root w.va = some (v, false) →
      walkDie v (dieOf w.core) w.root w.va w.store w.fetch = (.ok e, u) → (w.store = true → e.wb = false) →
      exec (.pageWalkComplete w.id) s = .next (stampReady (resolveParked
        (({ u with walks := dropFirst (fun x => x.id == w.id) u.walks } : State).modCore w.core fun k => tcTouch k e) w.core)))

/-- A free core dispatches only a runnable, unmasked entry, outside a single step of a debug session one that no other exceeds in priority: it starts at ENTRY from IDLE and at
SAVEDPC otherwise, takes the oldest inbox word into x31 and x30 of its bank, clears WAKE and changes no other register. With no
entry eligible, or the core not free, nothing changes. (R111, R112) -/
def Obligations.HandlersDispatched : Prop :=
  ∀ (s : State) (core c : Nat),
    let k := s.core core
    let h := k.handler c
    (k.trap.on = false → freeToSelect s core = true → selectNext s core = some c →
      (∀ q, s.plotOf core = some q → q.image407 = []) →
      (h.state ≠ .stalled → c < 16 →
        ∃ k' : Core, exec (.handlerDispatch core) s = .next (s.setCore core k') ∧ k'.running = some c ∧ k'.last = c ∧
          k'.pc = (if h.state = .idle then h.entry else h.savedPc) ∧ (k'.handler c).state = .running ∧
          (k'.handler c).wake = false ∧ (k'.handler c).inbox = h.inbox.drop 1 ∧
          (∀ w o rest, h.inbox = (w, o) :: rest → k'.rd 31 = w ∧ k'.rd 30 = o.setWidth 64) ∧
          (h.inbox = [] → k'.rd 30 = 0 ∧ k'.rd 31 = tget 0 k.regs (physReg c 31)) ∧
          ∀ p, p ≠ physReg c 30 → p ≠ physReg c 31 → tget 0 k'.regs p = tget 0 k.regs p)) ∧
    (k.trap.on = false → freeToSelect s core = false → exec (.handlerDispatch core) s = .next s) ∧
    (k.trap.on = false → selectNext s core = none → exec (.handlerDispatch core) s = .next s) ∧
    (∀ b, selectNext s core = some b → runnable s core b = true ∧ (k.handler b).mask = false ∧
      (k.stepping = false →
        ∀ x < 16, runnable s core x = true → (k.handler x).mask = false → (k.handler x).prio.toNat ≤ (k.handler b).prio.toNat))

/-- The oldest word of its sender in flight to a channel enters the inbox when there is room (a POST has had its slot since it was sent), waits when it is
full and is dropped when the entry is invalid; one bound for a saved plot stays with the plot. A completion writes the status word to the command's token register alone, clears its mark and sets WAKE. Returned load
data writes its register, or holds a fault when it failed. A line fill whose packet crosses from a live home brings the 64 bytes of the line into the
cache, evicting only when it is full. (R57, R106, R109, R112, R116, R125) -/
def Obligations.WordsAndAnswersArrive : Prop :=
  ∀ s : State,
    (∀ (idx : Nat) (w : CtlWord), s.flight[idx]? = some w →
      (parkedAt ≤ w.core → exec (.controlWordArrival idx) s = .next s) ∧
      (w.core < parkedAt → (∀ x ∈ s.flight.take idx, ¬(wordSender x.src = wordSender w.src ∧ x.core = w.core ∧ x.chan = w.chan)) →
      let h := (s.core w.core).handler w.chan
      let t : State := { s with flight := s.flight.take idx ++ s.flight.drop (idx + 1) }
      let load := if w.src < Config.cores then h.inbox.length else inboxLoad s w.core w.chan
      (h.valid = true → load < 4 → exec (.controlWordArrival idx) s = .next (t.modCore w.core fun k =>
        k.modHandler w.chan fun y => { y with inbox := y.inbox ++ [(w.word, w.origin)] })) ∧
      (h.valid = true → 4 ≤ load → exec (.controlWordArrival idx) s = .next s) ∧
      (h.valid = false → exec (.controlWordArrival idx) s = .next t))) ∧
    (∀ (core id : Nat) (c : Cmd), (s.core core).cmd id = some c → c.phase = .complete →
      ∃ k' : Core, exec (.commandCompletion core id) s = .next (s.setCore core k') ∧
        let k := s.core core
        let phys := physReg c.chan c.xt
        let word : Word := c.result ++ (0 : Byte) ++ c.cmd.extractLsb' 112 8 ++ c.cmd.extractLsb' 120 8 ++ c.code
        (c.xt ≠ 0 → tget 0 k'.regs phys = word ∧ tget false k'.pend phys = false) ∧
        (∀ p, p ≠ phys ∨ c.xt = 0 → tget 0 k'.regs p = tget 0 k.regs p ∧ tget false k'.pend p = tget false k.pend p) ∧
        (k'.handler c.chan).wake = true ∧ k'.cmds = k.cmds.filter (fun x => x.id != id) ∧ k'.pc = k.pc ∧ k'.lmem = k.lmem) ∧
    (∀ (acc core phys : Nat) (a : Access) (ia : Word), s.accs.find? (fun x => x.id == acc) = some a → a.dest = .reg core phys ia →
      a.phase = .returned →
      ∃ t, exec (.ldgDataReturn acc) s = .next t ∧ t.accs = s.accs.filter (fun x => x.id != acc) ∧
        (a.code = 0 → phys ≠ 0 → tget 0 (t.core core).regs phys = leBv 64 a.value ∧ tget false (t.core core).pend phys = false) ∧
        (∀ p, p ≠ phys ∨ phys = 0 ∨ a.code ≠ 0 → tget 0 (t.core core).regs p = tget 0 (s.core core).regs p ∧
          tget false (t.core core).pend p = tget false (s.core core).pend p) ∧
        (a.code ≠ 0 → (t.core core).held = (s.core core).held ++ [{ code := a.code, detail := 0, tepc := ia, tval := a.va, engine := false }])) ∧
    (∀ (core c va : Nat) (e : TcEntry) (t : State), c < 17 → ((s.core core).handler c).stall = some (.line va) →
      (∀ x ∈ (s.core core).icache, x.1 ≠ va / 64) → (∀ b < c, ∀ v, ((s.core core).handler b).stall ≠ some (.line v)) →
      translate s core (coreRoot s core) (BitVec.ofNat 64 va) false true = (.hit e, t) →
      let base := BitVec.ofNat 64 va - BitVec.ofNat 64 (va % 64)
      (t.die (e.homeOf t base)).removed = false →
      (∀ u bs, crossRead t (dieOf core) (e.homeOf t base) 64 = some u → homeRead u e.host (e.key base) 64 = (bs, 0) →
        ∃ kept : List (Nat × BitVec 512), exec (.instructionCacheFill core) s =
          .next (({ u with fresh := u.fresh + 1 } : State).modCore core fun k => { k with icache := (va / 64, leBv 512 bs) :: kept }) ∧
          (∀ x ∈ kept, x ∈ (s.core core).icache) ∧
          ((s.core core).icache.length < 256 → kept = (s.core core).icache)))

/-- EBRK stops an armed sequencer after its test and has no effect otherwise; RESUME and STEP leave debug state and do nothing outside
it. Enabling a breakpoint writes its trigger and kinds and clearing removes HIT alone (a TRIG that is written while EN is 1 leaves HIT as it was, the
model's choice, log 99). A requested bay switch on a quiet plot
changes the bay of exactly the plot's cells and keeps registers, local memory, tiles and device memory. (R139, R140, R188, R189,
R190, R205, R433) -/
def Obligations.DebugBreakpointsAndBays : Prop :=
  (∀ s : State, (s.me.arm = true → exec .ebrk s = .next (s.modMe fun k => { k.finish (k.pc + 4) with stopped := true })) ∧
    (s.me.arm = false → exec .ebrk s = .next (advance s id))) ∧
  (∀ (s : State) (core : Nat),
    ((s.core core).stopped = true →
      exec (.debugResume core) s = .next (s.modCore core fun k => { k with stopped := false, stepping := false }) ∧
      exec (.debugStep core) s = .next (s.modCore core fun k => { k with stopped := false, stepping := true })) ∧
    ((s.core core).stopped = false → exec (.debugResume core) s = .next s ∧ exec (.debugStep core) s = .next s)) ∧
  (∀ (s : State) (core : Nat) (n : BitVec 3) (v : Word) (q : Plot), s.plotOf core = some q →
    let b := tget Breakpoint.init q.bps n.toNat
    exec (.breakpointEnable core n v) s = .next (s.modPlot q.id fun p => { p with bps := tmod Breakpoint.init p.bps n.toNat fun x =>
      { trig := v.extractLsb' 32 32, kbar := v.getLsbD 7, keoi := v.getLsbD 6, kdata := v.getLsbD 5, en := true,
        count := if x.en then x.count else 0, hit := x.hit || (!x.en && v.extractLsb' 32 32 == 0) } }) ∧
    exec (.breakpointHitClear core n) s = .next (s.modPlot q.id fun p =>
      { p with bps := tmod Breakpoint.init p.bps n.toNat fun x => { x with hit := false } }) ∧
    ((tget Breakpoint.init (tmod Breakpoint.init q.bps n.toNat fun x => { x with hit := false }) n.toNat) = { b with hit := false })) ∧
  ∀ (s : State) (q : Plot) (b : Nat), s.findPlot q.id = some q → q.decision = some b → q.live = true → arcsEmpty s q = true →
    stagesIdle s q = true → boundReached s q = true →
    (∀ n, (tget Breakpoint.init q.bps n).hit = false) →
    ∃ t, exec (.baySwitch q.id) s = .next t ∧ t.mem = s.mem ∧
      (∀ c, (t.core c).regs = (s.core c).regs ∧ (t.core c).lmem = (s.core c).lmem ∧ (t.core c).tiles = (s.core c).tiles) ∧
      (∀ c ∈ heldCores s q, ∀ i < 8, (t.cell c i).bay = b) ∧ (∀ c ∉ heldCores s q, ∀ i, t.cell c i = s.cell c i) ∧
      ∃ q', t.findPlot q.id = some q' ∧ q'.bay = b ∧ q'.decision = none ∧ q'.bound = none ∧ q'.wid = q.wid

/-- Each walker node type, well formed, reads or writes its words and releases the successors its rule names, WAITM waits otherwise,
WHILE resets its body while its test holds; a node that breaks the frame is marked FAULT. A walker claims the head entry only
while its node is READY; an entry ages one level per interval; GO makes the root READY; a wait is tested again at its interval or
when its line changes. (R389, R390, R391, R392, R393, R394, R400, R401) -/
def Obligations.GraphNodesAndQueue : Prop :=
  (∀ (s : State) (n : GraphFields),
     let node := s.cur.node
     let t := { s with claimed := s.claimed.filter fun x => x != (s.cur.die, node) }
     (nodeOk n = true →
       (n.body0.toNat % 8 = 0 → n.body2 = 0 → ∀ v, gread t n.body0 = .ok v →
         exec (.graphCond n) s = .next (nodeDone t node [if v &&& n.body1 ≠ 0 then n.succ0 else n.succ1, n.succ2, n.succ3])) ∧
       (n.body0.toNat % 8 = 0 → n.body2.toNat < 2 → ∀ v u, (n.body2.getLsbD 0 = true → gread t n.body0 = .ok v) →
         (n.body2.getLsbD 0 = false → v = 0) → gwrite t n.body0 (v + n.body1) = .ok u →
         exec (.signal n) s = .next (nodeDone u node [n.succ0, n.succ1, n.succ2, n.succ3]) ∧
         (n.succ0 = 0 → n.succ1 = 0 → n.succ2 = 0 → n.succ3 = 0 → ∀ x w, gread u node = .ok x → gwrite u node (withSt x stDONE) = .ok w →
           exec (.graphEnd n) s = .next { w with regs := { w.regs with gdone := w.regs.gdone + 1 } })) ∧
       (n.body0 = 0 → n.body1 = 0 → n.body2 = 0 →
         exec (.graphJoin n) s = .next (nodeDone t node [n.succ0, n.succ1, n.succ2, n.succ3])) ∧
       (n.body0.toNat % 8 = 0 → n.body2.toNat < 4 → ∀ v, gread t n.body0 = .ok v →
         let c := n.body2.toNat
         let holds := c = 0 ∧ v = n.body1 ∨ c = 1 ∧ v ≠ n.body1 ∨ c = 2 ∧ n.body1.toNat ≤ v.toNat ∨ c = 3 ∧ v ≠ 0
         (holds → c ≠ 3 → exec (.waitm n) s = .next (nodeDone t node [n.succ0, n.succ1, n.succ2, n.succ3])) ∧
         (holds → c = 3 → v.toNat % 64 = 0 →
           exec (.waitm n) s = .next (nodeDone t node [n.succ0, n.succ1, n.succ2, n.succ3, v])) ∧
         (¬holds → exec (.waitm n) s = .next { t with waits := t.waits ++
           [{ node := node, qp := none, line := freeLine t n.body0, since := s.pace, fired := false }] })) ∧
       (n.body0.toNat % 8 = 0 → 1 ≤ n.body2.toNat → n.body2.toNat ≤ 4096 → n.succ2 = 0 → n.succ3 = 0 → n.state.extractLsb' 24 16 = 1 →
         ∀ v, gread t n.body0 = .ok v →
         (v &&& n.body1 = 0 → exec (.graphWhile n) s = .next (nodeDone t node [n.succ1])) ∧
         (∀ r w u, v &&& n.body1 ≠ 0 → resetBodies t node n.succ0 n.body2.toNat = (r, true) → gread r node = .ok w →
           gwrite r node (withPending (withSt w stWAITING) 1) = .ok u →
           exec (.graphWhile n) s = .next (releaseAll u node [n.succ0]))) ∧
       (∀ r, n.state.extractLsb' 40 9 = 0 → n.body0.toNat % 64 = 0 → n.body1.toNat % 8 = 0 → n.body2.toNat < 2 →
         readVa t t.regs.gptr n.body0 128 = .ok r → recordOk r = true → recFollow r = false →
         ∀ e ∈ [(s.queue.find? fun e => e.launch && e.restored.isNone && e.node == node).getD
           { node := node, level := 0, ready := s.pace, aging := false, launch := true, restored := none, rises := 0 }],
         let ps := (recordPlots t node r e.level e.ready).map fun q => { q with aging := e.aging }
         exec (.launch n) s = .next (startLaunch s t node ps))) ∧
     (nodeOk n = false → ∀ i ∈ [Instr.graphCond n, .signal n, .graphEnd n, .graphJoin n, .waitm n, .graphWhile n],
       exec i s = .next (nodeFault t node cFORMAT node))) ∧
  (∀ s : State,
     (∀ (die : Nat) (e : QEntry) (v : Word) (t : State), die < 4 → (∀ x ∈ s.claimed, x.1 ≠ die) → nextEntry s = some e →
       gread s e.node = .ok v →
       (nodeSt v = stREADY → gwrite s e.node (withSt v stCLAIMED) = .ok t →
         let u := { t with claimed := t.claimed ++ [(die, e.node)] }
         exec (.walkerClaim die) s = .next (if e.launch then u else dequeue u fun x => x == e)) ∧
       (nodeSt v ≠ stREADY → exec (.walkerClaim die) s = .next (dequeue s fun x => x == e))) ∧
     (nextEntry s = none → ∀ die, exec (.walkerClaim die) s = .next s) ∧
     (∀ (idx : Nat) (e : QEntry), s.queue[idx]? = some e → e.aging = true →
       (∃ x ∈ s.queue.eraseIdx idx, e.level < x.level) → tickAge * (e.rises + 1) ≤ (s.pace - e.ready).toNat →
       exec (.queueAging idx) s = .next { s with queue := s.queue.set idx { e with level := e.level + 1, rises := e.rises + 1 } }) ∧
     (∀ (idx : Nat) (e : QEntry), s.queue[idx]? = some e →
       (e.aging = false ∨ (∀ x ∈ s.queue.eraseIdx idx, x.level ≤ e.level) ∨ (s.pace - e.ready).toNat < tickAge * (e.rises + 1)) →
       exec (.queueAging idx) s = .next s) ∧
     (∀ v, s.regs.groot ≠ 0 → gread s s.regs.groot = .ok v →
       (nodePending v = 0 → exec .go s = .next (startNode s s.regs.groot v) ∧
         ∀ t, makeReady s s.regs.groot v = .ok t → exec .go s = .next t) ∧
       (nodePending v ≠ 0 → exec .go s = .next s)) ∧
     (∀ (idx : Nat) (w : GWait), s.waits[idx]? = some w → w.qp = none →
       ((if w.line.isSome then 1000000 else 10000) ≤ (s.pace - w.since).toNat → exec (.waitmRetest idx) s = .next (waitAgain s w)) ∧
       ((s.pace - w.since).toNat < (if w.line.isSome then 1000000 else 10000) → exec (.waitmRetest idx) s = .next s) ∧
       (w.fired = true → exec (.lineWatchFire idx) s = .next (waitAgain s w))) ∧
     (∀ (node succ v : Word) (t : State), succ ≠ 0 → gread s succ = .ok v → nodeSt v = stWAITING → nodePending v ≠ 0 →
       gwrite s succ (withPending v (nodePending v - 1)) = .ok t →
       (nodePending v ≠ 1 → releaseAll s node [succ] = t) ∧
       (nodePending v = 1 → ∀ u, makeReady t succ (withPending v (nodePending v - 1)) = .ok u → releaseAll s node [succ] = u)) ∧
     (∀ v : Word, ∀ st : BitVec 8, ∀ p : BitVec 16, nodeSt (withSt v st) = st ∧ nodePending (withSt v st) = nodePending v ∧
       nodePending (withPending v p) = p ∧ nodeSt (withPending v p) = nodeSt v ∧ nodeInit (withPending v p) = nodeInit v))

/-- The placer's offset is free, inside its die and the first in the order die, row, column; a refused search goes on with a later free one. A
placer fetches and checks the image and asks the walker of its candidate's die, which leases every core of the rectangle while all are FREE and
refuses otherwise; a load whose image passes its checks arms all cores and a failing one ends as R195 gives. A quiet row is left, the last
one completes the plot, and a swept quiet row becomes free while other cores keep their leases and registers. That the walker of die 0 fetches the image
and asks the die of the candidate with packets is the model's choice (log 91); when a row is quiet rests on logs 61 and 62. (R194, R195, R197,
R198, R199, R201, R203, R208) -/
def Obligations.PlotsPlacedAndLoaded : Prop :=
  (∀ (s : State) (img : List Byte) (die col row : Nat),
    let free := fun (die col row : Nat) => fits (fun c => s.leaseOf c == .free) (imgW img) (imgH img) (imgMask img) die col row
    firstFit s img = some (die, col, row) →
      die < 4 ∧ row + imgH img ≤ 10 ∧ col + imgW img ≤ 8 ∧ free die col row = true ∧
      ∀ d r c, d < 4 → r + imgH img ≤ 10 → c + imgW img ≤ 8 → free d c r = true →
        die < d ∨ die = d ∧ (row < r ∨ row = r ∧ col ≤ c)) ∧
  (∀ (s : State) (img : List Byte) (d0 c0 r0 die col row : Nat), nextFit s img (d0, c0, r0) = some (die, col, row) →
    freeAt s img (die, col, row) = true ∧ (d0 < die ∨ d0 = die ∧ (r0 < row ∨ r0 = row ∧ c0 < col))) ∧
  (∀ (s : State) (q : Plot) (e : QEntry), s.findPlot q.id = some q → entryOf s q = some e → q.state = .waiting →
    (q.cand = none → isHead s e = true → (∀ x ∈ s.plots, x.node = q.node → x.state = .waiting → q.p ≤ x.p) →
      (q.img ≠ [] → exec (.reserveRequest q.id) s = .next (askOffset s q q.img (firstFit s q.img))) ∧
      (q.img = [] → ∀ t, imageTraffic s 0 q.ptroot q.image = some t →
        (∀ img, fetchImage t q.ptroot q.image (fun _ => true) = .ok img →
          exec (.reserveRequest q.id) s = .next (askOffset t q img (firstFit t img))) ∧
        (∀ f, fetchImage t q.ptroot q.image (fun _ => true) = .error f → exec (.reserveRequest q.id) s = .next (loadFailure t q f)))) ∧
    (∀ die col row u, q.cand = some (die, col, row) → served s q die = true →
      ((walkerSend s 0 die ctlReserve).bind fun t => walkerSend t die 0 ctlReserve) = some u →
      (freeAt u q.img (die, col, row) = true →
        let q1 := { withImage q q.img with die := die, col := col, row := row, state := .loading, prio := e.level, runStart := u.pace, cand := none }
        exec (.reserveRequest q.id) s = .next (settleLaunch (q1.cores.foldl (fun t c => t.setLease c (.loading q.id))
          ((u.modPlot q.id fun p => { p with cand := none }).modPlot q.id fun _ => q1)) q.node)) ∧
      (freeAt u q.img (die, col, row) = false →
        exec (.reserveRequest q.id) s = .next (askOffset u q q.img (nextFit u q.img (die, col, row))))) ∧
    (∀ die col row, q.cand = some (die, col, row) → ((walkerSend s 0 die ctlReserve).bind fun t => walkerSend t die 0 ctlReserve) = none →
      exec (.reserveRequest q.id) s = .next s) ∧
    (∀ die col row, q.cand = some (die, col, row) → served s q die = false → exec (.reserveRequest q.id) s = .next s)) ∧
  (∀ (s : State) (q : Plot), s.findPlot q.id = some q → q.state = .loading → allLoading s q = true → q.restored = false →
    (∀ s2, checkImage q.img (fun i => isBridge (q.cores.getD i 0)) = none →
      allocDecls q.img q.cores ((loadCoresOf s q).modPlot q.id fun p =>
        { p with bays := BitVec.ofNat 4 (((imgRecs q.img).1.flatMap CellRec.bays).foldl (fun m b => m ||| 2 ^ b) 0), duals := dualCells q,
                 fed := fedSlots q, wid := q.firstWid, bayStart := q.firstWid }) (declsOf q.img) = .ok s2 →
      q.closing = false →
      exec (.configurationLoad q.id) s = .next (startEvent (armPlot s2 q) q) ∧
      ∀ c ∈ q.cores, (startEvent (armPlot s2 q) q).leaseOf c = .armed q.id) ∧
    (∀ f, checkImage q.img (fun i => isBridge (q.cores.getD i 0)) = some f →
      exec (.configurationLoad q.id) s = .next (loadFailure s q f))) ∧
  (∀ (s : State) (q : Plot) (row : Nat), s.findPlot q.id = some q → row < q.h → row ∉ q.drained → plotTiles s q = false →
    (rowQuiet s q row = true →
      ((∃ r < q.h, r ≠ row ∧ r ∉ q.drained) → exec (.rowDrain q.id row) s = .next (leaveRow s q row)) ∧
      ((∀ r < q.h, r ≠ row → r ∈ q.drained) → exec (.rowDrain q.id row) s = .next (plotCompleted (leaveRow s q row) q))) ∧
    (rowQuiet s q row = false → exec (.rowDrain q.id row) s = .next s)) ∧
  ∀ (s : State) (q : Plot) (row : Nat), s.findPlot q.id = some q → row < q.h →
    let cores := ((List.range q.w).map (q.coreIn row)).filter fun c => s.leaseOf c == .sweep q.id
    cores ≠ [] → (∀ a ∈ s.accs, agentIn cores a.agent = true → a.phase = .performed ∨ a.phase = .returned) →
    ∃ t, exec (.sweepRowFree q.id row) s = .next t ∧ (∀ c ∈ cores, t.leaseOf c = .free ∧ (t.core c).plot = none) ∧
      (∀ c ∉ cores, t.leaseOf c = s.leaseOf c ∧ (t.core c).regs = (s.core c).regs)

/-- A request is sent to a victim and to no other plot, by a packet of the walker of die 0 (log 91), and reaches it later (log 63); which plots are victims
is the model's reading of R402 (log 55). It closes an armed plot that has not begun its last invocation, is discarded by one that
has, and waits while the plot traps. A quiet closing plot is saved, its image kept and every core that it holds freed; a saved context asks for an
offset, is LOADING there when the walker accepts, and is armed again with its bay and position from the plot header and, on each core, the
registers, local memory, handlers, accumulators and replay queue of the save area (the places of fields within a record are the model's, log 29). The
watchdog ends a plot after WDOG microseconds without a retirement and the save budget after 2,000,000 ticks, never before. (R402, R403, R405, R406, R407, R408,
R409, R410) -/
def Obligations.ContextsSavedAndRestored : Prop :=
  (∀ (s : State) (q : Plot), s.findPlot q.id = some q →
    (∀ u, q.saveHeld = false → q.closing = false → q.id ∈ victims s → walkerSend s 0 q.die ctlPreempt = some u →
      let asked := u.modPlot q.id fun p => { p with saveHeld := true }
      exec (.preemptRequest q.id) s = .next asked ∧
      (q.state = .armed → usedSlice s q = true → exec (.sliceExpiry q.id) s = .next asked)) ∧
    (walkerSend s 0 q.die ctlPreempt = none → (q.saveHeld = false → exec (.preemptRequest q.id) s = .next s) ∧ exec (.sliceExpiry q.id) s = .next s) ∧
    (q.id ∉ victims s → (q.saveHeld = false → exec (.preemptRequest q.id) s = .next s) ∧ exec (.sliceExpiry q.id) s = .next s) ∧
    (q.saveHeld = true → exec (.preemptRequest q.id) s = .next (requestSave s q)) ∧
    (q.closing = false → lastBegun s q = false → q.state = .armed →
      (plotTraps s q = false → requestSave s q = s.modPlot q.id fun p =>
        { p with closing := true, saveHeld := false, bound := if p.decision.isSome then p.bound else begunWid s q, budget := some s.pace }) ∧
      (plotTraps s q = true → requestSave s q = s)) ∧
    (lastBegun s q = true → requestSave s q = s.modPlot q.id fun p => { p with saveHeld := false })) ∧
  (∀ (s : State) (q : Plot) (u s3 : State), s.findPlot q.id = some q → saveReady s q = true → barrWaiters s q = [] →
    let s2 := (heldCores s q).foldl (fun t c => t.modCore c stopCore)
      ((heldCores s q).foldl (fun t c => ((t.core c).cmds).foldl (fun u x => withdraw u c x) t) s)
    let n := tileBytesOf s2 (savedTiles s2 q)
    imageHeld s2 q n = false → saveTraffic s2 q n true = some u → writeImage u q = .ok s3 →
    ∃ t p, exec (.contextSave q.id) s = .next t ∧ t.findPlot q.id = some p ∧ p.state = .saved ∧ p.closing = false ∧ p.budget = none ∧
      p.image407 = q.cores.map (fun c => (q.index c, imageCore s3 q c)) ∧
      ∀ c ∈ heldCores s q, t.leaseOf c = .free ∧ (t.core c).plot = none) ∧
  (∀ (s : State) (q : Plot) (e : QEntry), s.findPlot q.id = some q → entryOf s q = some e → q.state = .saved →
    (∀ t img, q.cand = none → isHead s e = true → imageTraffic s q.die q.ptroot q.image = some t →
      fetchImage t q.ptroot q.image (fun _ => true) = .ok img → exec (.contextRestore q.id) s = .next (askOffset t q img (firstFit t img))) ∧
    (∀ die col row u, q.cand = some (die, col, row) → served s q die = true →
      ((walkerSend s 0 die ctlReserve).bind fun t => walkerSend t die 0 ctlReserve) = some u → freeAt u q.img (die, col, row) = true →
      ∃ t p, exec (.contextRestore q.id) s = .next t ∧ t.findPlot q.id = some p ∧ p.state = .loading ∧ p.restored = true ∧ p.bay = q.bay ∧
        p.wid = q.wid ∧ p.die = die ∧ p.col = col ∧ p.row = row ∧ ∀ c ∈ p.cores, t.leaseOf c = .loading q.id)) ∧
  (∀ (s t : State) (q : Plot) (hd : List Byte) (ks : List (Nat × Core)), s.findPlot q.id = some q → q.state = .loading → q.restored = true →
    allLoading s q = true →
    saveTraffic s q ((q.image407.flatMap fun x => x.2.tiles.map fun e => if e.2.valid then e.2.size else 0)).sum false = some t →
    checkImage q.img (fun i => isBridge (q.cores.getD i 0)) = none → readVa t q.ptroot (saveBase q) 4096 = .ok hd →
    savedCores t q q.image407 = .ok ks → (∀ x ∈ ks, ∀ e ∈ x.2.tiles, e.2.valid = false) →
    ∃ u p, exec (.contextRestore q.id) s = .next u ∧ u.findPlot q.id = some p ∧ p.state = .armed ∧ p.bay = leAt hd 4 1 ∧
      p.wid = leBv 64 (slice hd 8 8) ∧ p.restored = true ∧ p.cores = q.cores ∧
      ∀ c ∈ p.cores, u.leaseOf c = .armed q.id ∧
        ∀ x, ks.find? (fun x => x.1 == p.index c) = some x → (u.core c).regs = x.2.regs ∧ (u.core c).lmem = x.2.lmem ∧
          (u.core c).handlers = x.2.handlers ∧ (u.core c).mat.accs = x.2.mat.accs ∧ (u.core c).reinj = x.2.replay) ∧
  (∀ (s : State) (q : Plot) (xs ks : List (Nat × Core)), savedCores s q xs = .ok ks → ks.length = xs.length ∧
    ∀ (n : Nat) (x y : Nat × Core), xs[n]? = some x → ks[n]? = some y → y.1 = x.1 ∧
      ∃ low high, let va := saveBase q + BitVec.ofNat 64 (4096 + 131072 * x.1)
        let bs := low ++ List.replicate 0x400 0 ++ high
        readVa s q.ptroot va 0x19400 = .ok low ∧ readVa s q.ptroot (va + 0x19800) 0x5C00 = .ok high ∧
        y.2.lmem = mwrite [] 0 (slice bs 0x10000 0x8000) ∧ (∀ r < 23, tget 0 y.2.regs (r + 1) = leBv 64 (slice bs (0x18000 + 8 * r) 8)) ∧
        (∀ c < 16, y.2.handler c = handlerFrom (slice bs (0x18400 + 256 * c) 256) ∧
          ∀ i < 8, tget 0 y.2.regs (24 + 8 * c + i) = leBv 64 (slice bs (0x18400 + 256 * c + 128 + 8 * i) 8)) ∧
        y.2.replay = replayFrom x.2.replay (slice bs 0x19800 512) (slice bs 0x1A000 2048) (slice bs 0x1EC00 2048)) ∧
  ∀ (s : State) (q : Plot), s.findPlot q.id = some q → q.live = true →
    (q.wdog ≠ 0 → q.budget = none → plotHalted s q = false → 1000 * q.wdog ≤ (s.pace - q.lastRetire).toNat - q.wdStop →
      exec (.watchdogExpiry q.id) s = .next (walkerEnd s q cWATCHDOG)) ∧
    ((q.wdog = 0 ∨ q.budget ≠ none ∨ (s.pace - q.lastRetire).toNat - q.wdStop < 1000 * q.wdog) →
      exec (.watchdogExpiry q.id) s = .next s) ∧
    (∀ b, q.budget = some b →
      (2000000 ≤ (s.pace - b).toNat → exec (.saveTimeout q.id) s = .next (walkerEnd s q cSAVETIMEOUT)) ∧
      ((s.pace - b).toNat < 2000000 → exec (.saveTimeout q.id) s = .next s)) ∧
    (q.budget = none → exec (.saveTimeout q.id) s = .next s)

/-- The oldest held fault of a running sequencer outside trap mode enters a trap at the boundary; command faults that are held with it go into the same
frame (the model's reading of R411, log 13). CTXCMD acts only on the selected
plot in HOSTWAIT: DESTROY ends it, RESUME lets the sequencer or unit that waited go on. A bank number of a cell is declared failed
and others are ignored. (R233, R235, R411, R416) -/
def Obligations.HeldFaultsAndHostCommands : Prop :=
  (∀ (s : State) (core : Nat) (q : Plot) (f : HeldFault) (rest : List HeldFault), s.plotOf core = some q → q.live = true →
    (s.core core).stopped = false → (s.core core).reinj = [] → (s.core core).trap.on = false → (s.core core).held = f :: rest →
    let left := if f.engine then rest.filter fun x => !x.engine else rest
    exec (.trapEntry core) s = .next (enterTrap (s.setCore core { s.core core with held := left }) core
      (BitVec.ofNat 32 (f.code.toNat + 256 * f.detail.toNat)) f.tepc f.tval (s.core core).pc false f.engine)) ∧
  (∀ (s : State) (core : Nat), ((s.core core).held = [] ∨ (s.core core).trap.on = true) → exec (.trapEntry core) s = .next s) ∧
  (∀ (s : State) (p : BitVec 16) (q : Plot), ctxPlot s p = some q →
    (q.node = s.regs.ctxsel ∧ q.p = p.toNat ∧ q.state = .hostwait) ∧
    exec (.ctxcmdDestroy p) s = .next (walkerEnd s q ((q.waits.head?.map HostWait.code).getD 0)) ∧
    (∀ w, q.waits = [w] → w.seq = false → s.findPlot q.id = some q →
      exec (.ctxcmdResume p) s = .next (resumePlot (s.modPlot q.id fun x => { x with state := .armed, waits := [] }) w.core)) ∧
    (∀ w, q.waits = [w] → w.seq = true → s.findPlot q.id = some q →
      exec (.ctxcmdResume p) s = .next (resumeSeq (s.modPlot q.id fun x => { x with state := .armed, waits := [] })
        { q with state := .armed, waits := [] } w.core))) ∧
  (∀ (s : State) (p : BitVec 16), ctxPlot s p = none → exec (.ctxcmdResume p) s = .next s ∧ exec (.ctxcmdDestroy p) s = .next s) ∧
  ∀ (s : State) (core : Nat) (m : BitVec 2) (bank : BitVec 5),
    (bank.toNat < 18 → exec (.bankDeclareFailed core m bank) s = .next (declareBank s core m.toNat bank.toNat true)) ∧
    (18 ≤ bank.toNat → exec (.bankDeclareFailed core m bank) s = .next s)

/-- A stream packet of the die's own generation is decoded, another is discarded. Acceptance stores its matrix and expects the next
sequence number. A decoded packet whose condition holds, and for a request whose bridge has a slot, is handed on (a probe answer or an error settles its
waiter, the numbering of TAG is the model's choice, log 88), others wait.
Delivery counts a counted packet from its source, unless that die has been removed, and raises matrix entries to those it carries, lowering none.
(R237, R253, R256, R257, R258, R259, R272, R275) -/
def Obligations.PacketsDecodedAndDelivered : Prop :=
  ∀ (s : State) (die idx : Nat),
    let d := s.die die
    (∀ p, d.arrived[idx]? = some p → streamed p.ptype = true → (s.die p.src).removed = false → d.removed = false →
      let t := s.modDie die fun x => { x with arrived := x.arrived.eraseIdx idx }
      (p.gen = d.gen → exec (.packetDecode die idx) s = .next (decodeArrived t die p)) ∧
      (p.gen ≠ d.gen → exec (.packetDecode die idx) s = .next (genDiscard t))) ∧
    (∀ (p : Packet) (m : Tbl W32) (place : Option Nat) (i : Nat), i < 36 →
      let t := acceptDecoded s die p m place
      let st := p.stream p.src
      tget 0 (t.die die).rmat (36 * st + i) = tget 0 m i ∧ tget 0 (t.die die).recvSeq st = (p.seq.toNat + 1) % 65536) ∧
    (∀ e, d.early[idx]? = some e → e.decoded = true → mayDeliver s die e.pkt = true → bridgeFree s e.pkt = true → d.removed = false →
      (∀ x ∈ d.early.take idx, x.decoded = true → mayDeliver s die x.pkt = true → bridgeFree s x.pkt = false) →
      let t := checkCount (s.modDie die fun x =>
        clockDeliver { x with early := x.early.eraseIdx idx } die (s.die e.pkt.src).removed e.pkt) die
      (e.pkt.ptype ≠ pERR → ¬(e.pkt.ptype = pCTL ∧ e.pkt.op = 0xF1) →
        exec (.packetDeliver die idx) s = .next (stampReady (handOn t die e.pkt))) ∧
      (e.pkt.ptype = pCTL → e.pkt.op = 0xF1 →
        (e.pkt.tag.toNat < 512 → exec (.fenceProbeAnswer die idx) s =
          .next (stampReady (t.modCore e.pkt.tag.toNat fun k => { k with probes := k.probes.erase e.pkt.src }))) ∧
        (512 ≤ e.pkt.tag.toNat → exec (.fenceProbeAnswer die idx) s =
          .next (stampReady (t.modEngine (e.pkt.tag.toNat - 512) fun k => { k with probes := k.probes.erase e.pkt.src })))) ∧
      (∀ a, e.pkt.ptype = pERR → t.accs.find? (fun a => a.id == e.pkt.acc && a.phase != .returned) = some a →
        exec (.err die idx) s = .next (settle t a .returned [] e.pkt.op))) ∧
    (∀ e, d.early[idx]? = some e → (e.decoded = false ∨ mayDeliver s die e.pkt = false ∨ bridgeFree s e.pkt = false) →
      exec (.packetDeliver die idx) s = .next (stampReady s) ∧ exec (.fenceProbeAnswer die idx) s = .next (stampReady s) ∧
      exec (.err die idx) s = .next s) ∧
    ∀ (x : Die) (p : Packet), (∀ y ∈ p.incs, y.1 < 6 ∧ y.2.1 < 6 ∧ y.2.2 < 2 ^ 32) → p.src < 6 → die < 6 → p.src ≠ die →
      let y := clockDeliver x die false p
      (counted p.ptype = true → tget 0 y.d p.src = tget 0 x.d p.src + 1 ∧ tget 0 y.v (6 * p.src + die) = tget 0 x.d p.src + 1) ∧
      (counted p.ptype = false → y.d = x.d) ∧ (∀ k, k ≠ p.src → tget 0 y.d k = tget 0 x.d k) ∧
      (clockDeliver x die true p).d = x.d ∧ (ordered p.ptype = false → y = x) ∧
      (ordered p.ptype = true → ∀ k j, k < 6 → j < 6 → ¬(counted p.ptype = true ∧ k = p.src ∧ j = die) →
        (tget 0 x.v (6 * k + j)).toNat ≤ (tget 0 y.v (6 * k + j)).toNat ∧ ∀ n, (k, j, n) ∈ p.incs → n ≤ (tget 0 y.v (6 * k + j)).toNat)

/-- An ACK removes exactly the packets up to its number of its stream; a NACK sets a back-off of 256 ticks that doubles to 4,096 for
the same number. The acknowledgement timer, the back-off and the retransmission timeout act only when their time has come. (R262,
R263, R264) -/
def Obligations.PacketsAcknowledged : Prop :=
  ∀ (s : State) (die st : Nat),
    let d := s.die die
    (∀ (idx : Nat) (p : Packet), d.arrived[idx]? = some p → (s.die p.src).removed = false → d.removed = false → p.gen = d.gen →
      let t := s.modDie die fun x => { x with arrived := x.arrived.eraseIdx idx }
      (p.ptype = pACK → exec (.ack die idx) s = .next (stampReady (t.modDie die fun x =>
        { x with retry := x.retry.filter fun y => !(y.stream y.dst == namedStream p && upTo y (namedSeq p)),
                 ackTime := tset 0 x.ackTime (namedStream p) s.pace.toNat }))) ∧
      (p.ptype = pNACK → ∃ wait, exec (.nack die idx) s = .next (t.modDie die fun x =>
          { x with nackWait := tset 0 x.nackWait (namedStream p) (8192 * (namedSeq p + 1) + wait),
                   nackTime := tset 0 x.nackTime (namedStream p) (s.pace.toNat + 1) }) ∧
        (let old := tget 0 d.nackWait (namedStream p)
         (old / 8192 ≠ namedSeq p + 1 → wait = 256) ∧ (old / 8192 = namedSeq p + 1 → wait = min 4096 (2 * (old % 8192)))))) ∧
    (let n := tget 0 d.lastAck st
     (n ≠ 0 → n - 1 + 200 ≤ s.pace.toNat → exec (.ackTimer die st) s = .next (sendAck s die st)) ∧
     ((n = 0 ∨ s.pace.toNat < n - 1 + 200) → exec (.ackTimer die st) s = .next s)) ∧
    (let n := tget 0 d.nackTime st
     let w := tget 0 d.nackWait st
     (n ≠ 0 → n - 1 + w % 8192 ≤ s.pace.toNat → exec (.nackBackoffExpiry die st) s = .next (resend
        (s.modDie die fun x => { x with nackTime := tset 0 x.nackTime st 0 }) die st
        fun x => x.seq.toNat == w / 8192 - 1 || !upTo x (w / 8192 - 1))) ∧
     ((n = 0 ∨ s.pace.toNat < n - 1 + w % 8192) → exec (.nackBackoffExpiry die st) s = .next s)) ∧
    ((∃ x ∈ d.retry, x.stream x.dst = st) → tget 0 d.ackTime st + 20000 ≤ s.pace.toNat →
      exec (.retransmitTimeout die st) s = .next (resend
        (s.modDie die fun x => { x with ackTime := tset 0 x.ackTime st s.pace.toNat }) die st fun _ => true)) ∧
    (((∀ x ∈ d.retry, x.stream x.dst ≠ st) ∨ s.pace.toNat < tget 0 d.ackTime st + 20000) →
      exec (.retransmitTimeout die st) s = .next s)

/-- A working port sends the acknowledgement that its link owes, then nothing while 512 flits are unacknowledged, then an open express packet, then freight
when none of the last seven slots carried any, then a new express packet, then freight. An arriving flit without error joins its slot, and the last
one gives the packet and its credits; a link-management flit acknowledges flits of the other direction; an error is replayed, and the eighth replay
that fails kills the link. Only the named link changes. That all credits of a packet return with its last flit (log 65), that a die in reset sends
nothing and takes nothing in (log 107) and which die observes a dead link (log 121) are the model's readings. (R265, R266, R267, R268, R269) -/
def Obligations.LinksCarryFlits : Prop :=
  (∀ (s : State) (port : Nat), port < 16 → (s.link port).dead = false → (s.link port).retraining = false →
    (s.die (portFrom port)).live = true →
    ∃ t, exec (.flitBoundary port) s = .next t ∧ t.link port = flitSlot (s.link port) s.pace (s.link (otherWay port)).got ∧
      t.link (otherWay port) = { s.link (otherWay port) with got := 0 } ∧ (∀ q, q ≠ port → q ≠ otherWay port → t.link q = s.link q) ∧
      t.cores = s.cores ∧ t.mem = s.mem ∧ t.accs = s.accs) ∧
  (∀ (l : LinkPort) (now : BitVec 64),
    let fp := l.openF.isSome || (pickChannel l [0, 1, 4] l.rrF).isSome
    (∀ owed, owed ≠ 0 → flitSlot l now owed = { l with wire := l.wire ++ [{ vc := 7, ack := owed, last := true, head := true, pkt := Packet.init }] }) ∧
    (512 ≤ l.sent.length → flitSlot l now 0 = emptySlot l) ∧
    (l.sent.length < 512 →
      (∀ p n, l.openX = some (p, n) → flitSlot l now 0 = sendExpress l now p n) ∧
      (∀ p n, l.openX = none → l.openF = some (p, n) → (∀ b ∈ l.hist, b = false) → flitSlot l now 0 = sendFreight l now p n) ∧
      (∀ v m p, l.openX = none → l.openF = none → (∀ b ∈ l.hist, b = false) → pickChannel l [0, 1, 4] l.rrF = some v → openPacket l v = some (m, p) →
        flitSlot l now 0 = sendFreight { m with rrF := v, openFVc := v } now p 0) ∧
      (∀ v m p, l.openX = none → (fp = false ∨ true ∈ l.hist) → pickChannel l [2, 3, 5] l.rrX = some v → openPacket l v = some (m, p) →
        flitSlot l now 0 = sendExpress { m with rrX := v, openXVc := v } now p 0) ∧
      (∀ p n, l.openX = none → pickChannel l [2, 3, 5] l.rrX = none → l.openF = some (p, n) → flitSlot l now 0 = sendFreight l now p n) ∧
      (∀ v m p, l.openX = none → pickChannel l [2, 3, 5] l.rrX = none → l.openF = none →
        pickChannel l [0, 1, 4] l.rrF = some v → openPacket l v = some (m, p) →
        flitSlot l now 0 = sendFreight { m with rrF := v, openFVc := v } now p 0))) ∧
  (∀ (s : State) (port : Nat) (f : Flit) (r : List Flit), (s.link port).wire = f :: r → (s.link port).dead = false →
    (s.link port).retraining = false → (s.die (portTo port)).live = true →
    let slot := tget [] (s.link port).reasm f.vc
    let s1 := s.modLink port fun l => { l with wire := r, replays := 0 }
    let t := s1.modLink port fun l => { l with got := l.got + 1, reasm := tset [] l.reasm f.vc (slot ++ [f]) }
    let u := t.modLink port fun l =>
      { l with reasm := tset [] l.reasm f.vc [], credits := l.credits.set f.vc (min (slotsOfVc f.vc) (l.credits.getD f.vc 0 + f.pkt.flits)) }
    ((s.link port).replays < 8 →
      exec (.flitArrival port true) s = .next (s.modLink port fun l => { l with replays := l.replays + 1 })) ∧
    (8 ≤ (s.link port).replays → exec (.flitArrival port true) s = .next (connect (killLink s (port / 2) 0 (portTo port)))) ∧
    (f.vc = 7 → exec (.flitArrival port false) s = .next (s1.modLink (otherWay port) fun x => flitsAcked x s.pace f.ack)) ∧
    (f.vc ≠ 7 → (f.head = true → slot = []) →
      (f.last = false → exec (.flitArrival port false) s = .next (connect t)) ∧
      (f.last = true → malformed f.pkt = false → exec (.flitArrival port false) s = .next (connect (packetIn u (portTo port) f.pkt))) ∧
      (f.last = true → malformed f.pkt = true → exec (.flitArrival port false) s = .next (connect (badPacket u port f.pkt))))) ∧
  (∀ (s : State) (port : Nat),
    ((s.die (portFrom port)).live = false → exec (.flitBoundary port) s = .next s) ∧
    ((s.die (portTo port)).live = false → (s.link port).dead = false → (s.link port).retraining = false → ∀ c f r, (s.link port).wire = f :: r →
      exec (.flitArrival port c) s = .next (s.modLink port fun l => { l with wire := r }))) ∧
  ∀ (s : State) (link : Nat),
    (∃ t, exec (.linkRetrained link) s = .next t ∧ (t.link (2 * link)) = { s.link (2 * link) with retraining := false } ∧
      t.link (2 * link + 1) = { s.link (2 * link + 1) with retraining := false }) ∧
    (link < 8 → (s.link (2 * link)).dead = false →
      ((s.link (2 * link)).retraining = true → exec (.linkDead link 1) s = .next (connect (killLink s link 1 (portFrom (2 * link))))) ∧
      (ackOverdue s (2 * link) = true ∨ ackOverdue s (2 * link + 1) = true → exec (.linkDead link 2) s = .next (connect (killLink s link 2
        (portFrom (if ackOverdue s (2 * link) then 2 * link else 2 * link + 1))))) ∧
      (ackOverdue s (2 * link) = false → ackOverdue s (2 * link + 1) = false → exec (.linkDead link 2) s = .next s)) ∧
    ((s.link (2 * link)).dead = true → ∀ c, exec (.linkDead link c) s = .next s)

/-- Removal of a die whose cause holds marks it, and as in reset when that is the cause; it keeps the clocks of the others, discards its packets that are not yet taken in and drops the waiting ones
that need more of its writes. The fabric controller starts a RESYNC when none is running; each die quiesces, reports once it has settled, clears its
clock state and moves to the next generation, and resumes, each on the packet of its phase; the controller goes to the next phase when every live die
has reached the one before. A removed die rejoins empty in the current generation after the next RESYNC, and not before. A RESYNC that starts whenever
none runs and its phases as packets (log 81), the form of the reports (log 116) and a die in reset (log 107) are the model's readings. (R272, R273, R274, R442) -/
def Obligations.DiesRemovedAndResynchronised : Prop :=
  ∀ s : State,
    let live := liveDies s
    let m := fabricDie s
    let clear := fun (a b : Die) => b.phase = 3 ∧ b.gen = a.gen + 1 ∧ b.v = [] ∧ b.d = [] ∧ b.lmat = [] ∧ b.rmat = [] ∧ b.sendSeq = [] ∧ b.recvSeq = [] ∧
      b.early = []
    let comes := fun (phase d i : Nat) (p : Packet) => findResync s phase = some (d, i, p) ∧ (s.die p.src).removed = false ∧ p.gen = (s.die d).gen
    (∀ (die : Nat) (cause : BitVec 2), die < 6 → (s.die die).removed = false → (cause ≠ 1 ∨ connected s die = false) →
      ∃ t, exec (.dieRemoval die cause) s = .next t ∧ (t.die die).removed = true ∧ (t.die die).live = ((s.die die).live && cause != 0) ∧ (t.die die).mayRejoin = false ∧
        ∀ d ∈ live, d ≠ die → (t.die d).d = (s.die d).d ∧ (t.die d).removed = false ∧
          (∀ p ∈ (t.die d).arrived, p.src ≠ die) ∧ (∀ p ∈ (t.die d).retry, p.dst ≠ die) ∧
          ∀ e ∈ (t.die d).early, e.decoded = true → matrixAt e.pkt die d ≤ (tget 0 (s.die d).d die).toNat) ∧
    (∀ (die : Nat) (cause : BitVec 2), (s.die die).removed = true ∨ cause = 1 ∧ connected s die = true → exec (.dieRemoval die cause) s = .next s) ∧
    (mayStart s = true → ∃ t, exec .resyncQuiesce s = .next t ∧ t.die m = { s.die m with phase := 1, phaseStart := s.pace } ∧
      ∀ d, d ≠ m → t.die d = s.die d) ∧
    (mayStart s = false → ∀ d i p, comes 1 d i p → ∃ t, exec .resyncQuiesce s = .next t ∧
      t.die d = { s.die d with arrived := (s.die d).arrived.eraseIdx i, phase := 1, phaseStart := s.pace }) ∧
    (∀ d, live.find? (fun d => settledDie s d) = some d →
      ∃ t, exec .resyncExchange s = .next t ∧ (t.die d).phase = 2 ∧ (t.die d).retry = [] ∧ (t.die d).d = (s.die d).d) ∧
    (live.find? (fun d => settledDie s d) = none →
      (live ≠ [] → allReported s = true → ∃ t, exec .resyncExchange s = .next t ∧ t.resync.cleared = [m] ∧ ∀ d, t.die d = s.die d) ∧
      (allReported s = false → ∀ d i p, comes 2 d i p → ∃ t, exec .resyncExchange s = .next t ∧ (p.src, p.data) ∈ t.resync.reports)) ∧
    ((s.die m).phase = 2 → m ∈ s.resync.cleared → ∃ t, exec .resyncClear s = .next t ∧ clear (s.die m) (t.die m)) ∧
    (((s.die m).phase ≠ 2 ∨ m ∉ s.resync.cleared) → ∀ d i p, comes 3 d i p →
      (d ≠ m → ∃ t, exec .resyncClear s = .next t ∧ clear (s.die d) (t.die d)) ∧
      (d = m → ∃ t, exec .resyncClear s = .next t ∧ p.src ∈ t.resync.cleared)) ∧
    (live ≠ [] → allCleared s = true → ∃ t, exec .resyncResume s = .next t ∧ (t.die m).phase = 0 ∧
      ∀ d < 6, (s.die d).removed = true → (t.die d).mayRejoin = true) ∧
    (allCleared s = false → ∀ d i p, comes 4 d i p → ∃ t, exec .resyncResume s = .next t ∧ (t.die d).phase = 0) ∧
    ∀ die, die < 6 → (s.die die).removed = true →
      ((∀ d ∈ live, (s.die d).phase = 0) → (s.die die).mayRejoin = true →
        ∃ t, exec (.dieRejoin die) s = .next t ∧ t.die die = { Die.init with gen := (s.die (live.headD 0)).gen }) ∧
      ((s.die die).mayRejoin = false → exec (.dieRejoin die) s = .next s)

/-- An arrival opens or joins a square, a different expected count is refused, and the last one releases every waiter and empties the
square; a withdrawal takes back an arrival or is refused; messages of a square act at a die in the order in which the square sent them. INVGO
starts one invalidation; each die takes its INV, drops the range's entries and answers once its earlier writes are accepted, and after the last
answer the held walks go on; an INV whose answer is 10 µs late is sent again. Which die sends INV (log 68), which arrival a withdrawal takes back (log 69)
and the data of its answer (log 70) are the model's readings. (R244, R276, R305, R306, R307, R308, R432) -/
def Obligations.BarriersAndInvalidations : Prop :=
  (∀ (s : State) (idx : Nat) (m : BarMsg), s.barMsgs[idx]? = some m →
     let q := s.square m.square
     let t := { s with barMsgs := s.barMsgs.eraseIdx idx }
     (m.op = 0 → squareTurn s idx m = true →
       let n := BitVec.ofNat 16 m.n
       let u := t.modSquare m.square fun x =>
         { x with isOpen := true, nexp := n, arr := x.arr + 1, cnt := tmod 0 x.cnt m.die (· + 1), who := x.who ++ [(m.die, m.core, m.chan)] }
       (q.isOpen = true → q.nexp ≠ n → exec (.squareArrival idx) s = .next (answerBar t m 2 false)) ∧
       ((q.isOpen = false ∨ q.nexp = n) → q.arr + 1 ≠ n → exec (.squareArrival idx) s = .next u) ∧
       ((q.isOpen = false ∨ q.nexp = n) → q.arr + 1 = n →
         exec (.squareArrival idx) s = .next (releaseBar u m.square (u.square m.square)))) ∧
     (m.op = 1 → dieTurn s idx m = true →
       exec (.barrierRelease idx) s = .next { t with waiters := wakeWaiters m.square m.die m.n s.waiters }) ∧
     (dieTurn s idx m = false → exec (.barrierRelease idx) s = .next s ∧ exec (.barrierWithdrawAnswer idx) s = .next s) ∧
     (m.op = 2 → m.n = 1 → squareTurn s idx m = true →
       let counted := fun (x : Nat × Nat × Nat) => x.1 = m.die ∧ x.2.1 = m.core ∧ (m.chan = 255 ∨ x.2.2 = m.chan)
       (∀ pre x post, q.isOpen = true → q.who = pre ++ x :: post → counted x → (∀ y ∈ pre, ¬counted y) →
         exec (.barrierWithdraw idx) s = .next (answerBar (t.modSquare m.square fun y =>
           { y with arr := y.arr - 1, cnt := tmod 0 y.cnt m.die (· - 1), who := pre ++ post, isOpen := y.arr != 1 }) m 0 true)) ∧
       (q.isOpen = false ∨ (∀ x ∈ q.who, ¬counted x) → exec (.barrierWithdraw idx) s = .next (answerBar t m 1 false))) ∧
     (m.op = 3 → dieTurn s idx m = true → m.chan = 255 → exec (.barrierWithdrawAnswer idx) s = .next t) ∧
     (m.op = 3 → dieTurn s idx m = true → m.chan ≠ 255 →
       let mine := fun (w : Waiter) => w.square == m.square && w.core == m.core && w.chan == m.chan
       ∃ bs, (m.ok = true → exec (.barrierWithdrawAnswer idx) s = .next { s with barMsgs := bs, waiters := dropFirst mine s.waiters }) ∧
         (m.ok = false → m.n = 2 → exec (.barrierWithdrawAnswer idx) s =
           .next { s with barMsgs := bs, waiters := mapFirst mine (fun w => { w with refused := true }) s.waiters }) ∧
         (m.ok = false → m.n ≠ 2 → exec (.barrierWithdrawAnswer idx) s = .next { s with barMsgs := bs })) ∧
     (m.op ≠ 0 → exec (.squareArrival idx) s = .next s) ∧ (m.op ≠ 1 → exec (.barrierRelease idx) s = .next s) ∧
     (m.op ≠ 2 → exec (.barrierWithdraw idx) s = .next s) ∧ (m.op ≠ 3 → exec (.barrierWithdrawAnswer idx) s = .next s)) ∧
  (∀ (s : State) (die : Nat),
     let i := s.inval
     (i.busy = false → ∃ t, exec .invgo s = .next t ∧ t.inval.busy = true ∧ t.inval.n = i.n + 1 ∧ t.inval.source = fabricDie s ∧
       t.inval.va = s.regs.invva ∧ t.inval.pages = s.regs.invpages ∧ t.inval.dropped = [] ∧ t.inval.waitFor = [] ∧
       t.inval.left = below 6 (fun d => (s.die d).live && !(s.die d).removed) ∧
       ∀ d ∈ t.inval.left, tget 0 t.inval.sentAt d = s.pace.toNat + 1) ∧
     (i.busy = true → exec .invgo s = .next s) ∧
     (∀ r : Inval, let t := dropRange s die r
       t.mem = s.mem ∧ (∀ x ∈ t.cores, dieOf x.1 = die → ∀ y ∈ x.2.tcache, ∀ e ∈ y.2, invEntry r e = false) ∧
       (r.n = i.n → die ∈ t.inval.dropped ∧ t.inval.left = i.left ∧
         ∀ a ∈ t.accs, agentDie a.agent = die → a.kind ≠ .read → a.phase ≠ .parked → accPerformed a = false →
           invPage r a = true → a.id ∈ t.inval.waitFor)) ∧
     (i.busy = true → die = i.source → die ∈ i.left → die ∉ i.dropped → exec (.inv die) s = .next (dropRange s die i)) ∧
     (∀ idx p, die ≠ i.source → (List.range 6).findSome? (fun src => arrivedIdx s die pINV src) = some idx → (s.die die).arrived[idx]? = some p →
       (s.die p.src).removed = false → (s.die die).removed = false → p.gen = (s.die die).gen →
       ∃ r : Inval, exec (.inv die) s = .next (dropRange (s.modDie die fun d => { d with arrived := d.arrived.eraseIdx idx }) die r) ∧
         r.va = leBv 64 (slice p.data 0 8) ∧ r.pages = leBv 32 (slice p.data 8 4) ∧ (p.tag = BitVec.ofNat 16 i.n → r.n = i.n)) ∧
     (∀ idx p, arrivedIdx s i.source pINVACK die = some idx → (s.die i.source).arrived[idx]? = some p →
       (s.die p.src).removed = false → (s.die i.source).removed = false → p.gen = (s.die i.source).gen →
       let t := s.modDie i.source fun d => { d with arrived := d.arrived.eraseIdx idx }
       exec (.invack die) s = .next (if p.tag = BitVec.ofNat 16 i.n then ackInv t die else t)) ∧
     (arrivedIdx s i.source pINVACK die = none →
       (i.busy = true → die ∈ i.dropped → invSettled s die = true →
         (die = i.source → exec (.invack die) s = .next (ackInv { s with inval := { i with dropped := i.dropped.erase die } } die)) ∧
         (die ≠ i.source → exec (.invack die) s = .next (sendPacket { s with inval := { i with dropped := i.dropped.erase die } } die
           { Packet.init with ptype := pINVACK, src := die, dst := i.source, gen := (s.die die).gen, tag := BitVec.ofNat 16 i.n }))) ∧
       ((die ∉ i.dropped ∨ invSettled s die = false) → exec (.invack die) s = .next s)) ∧
     (i.busy = true → die ∈ i.left →
       (i.left.erase die ≠ [] → ackInv s die = { s with inval := { i with left := i.left.erase die } }) ∧
       (i.left.erase die = [] → (ackInv s die).inval = { Inval.init with n := i.n } ∧
         ∀ w ∈ (ackInv s die).walks, w.heldAt ≠ none → invCovers i (w.va.toNat / 4096 * 4096) 4096 = false) ∧
       (die ≠ i.source → tget 0 i.sentAt die - 1 + 10000 ≤ s.pace.toNat → exec (.invResendTimer die) s = .next (sendInv s die)) ∧
       (s.pace.toNat < tget 0 i.sentAt die - 1 + 10000 → exec (.invResendTimer die) s = .next s)) ∧
     (∀ id, (∃ t, exec (.wbRewalk id) s = .next t ∧ ∀ w ∈ t.walks, w.id = id → ∀ x, w.heldAt = some x → (s.pace - x).toNat < 10000) ∧
       (s.frames = [] → exec (.wbRewalk id) s = .next { s with walks := s.walks.map fun w =>
         if w.id = id ∧ (∃ x, w.heldAt = some x ∧ 10000 ≤ (s.pace - x).toNat) then { w with heldAt := none } else w })))

/-- On a powered device a host read or write inside its window and one channel becomes one access at its key, a read as an acquire and a write as a
release (at DEVICE scope, the model's choice, log 106); out of range it does nothing. The window is BAR2 at its size, or CXL.mem. A register read hands the register's eight bytes to
the host at once, from BAR0 once a port has trained; a write-only or unnamed register reads as zero. An atomic on a page with SA is one access; another one records the old value if a
place of the port is free, and its second half writes the operation's result and answers the old value; a full tracker stalls every further one.
(R4, R303, R430, R431, R433, R440) -/
def Obligations.HostAccesses : Prop :=
  ∀ (s : State) (port : Bool) (pa : Nat),
    let place := fun (cxl : Bool) => (⟨if cxl then .cxl else .memory, pa⟩ : HostPlace)
    (∀ (n : Nat) (cxl : Bool), 0 < n → s.powered = true → pa + n ≤ Config.deviceBytes → pa / 256 = (pa + n - 1) / 256 →
      (cxl = false ∧ pa + n ≤ 2 ^ bar2Log s port ∨ cxl = true ∧ Config.cxlCache = true) →
      (∃ a t, exec (.hostRead port (place cxl) n) s = .next (issueAccess t a) ∧ a.agent = .host port ∧ a.kind = .read ∧
        a.addr = hashKey pa ∧ a.len = n ∧ a.acq = true ∧ a.cached = (cxl && Config.backInvalidate) ∧ t.mem = s.mem ∧ t.accs = s.accs ∧ t.cores = s.cores) ∧
      ∀ data : List Byte, data.length = n →
        ∃ a t, exec (.hostWrite port (place cxl) data) s = .next (issueAccess t a) ∧ a.agent = .host port ∧ a.kind = .write ∧ a.addr = hashKey pa ∧
          a.len = n ∧ a.data = data ∧ a.rel = true ∧ a.scope = 2 ∧ t.mem = s.mem ∧ t.accs = s.accs ∧ t.cores = s.cores) ∧
    (∀ (n : Nat) (cxl : Bool) (data : List Byte), data.length = n →
      (s.powered = false ∨ n = 0 ∨ Config.deviceBytes < pa + n ∨ cxl = false ∧ 2 ^ bar2Log s port < pa + n ∨ cxl = true ∧ Config.cxlCache = false) →
      exec (.hostRead port (place cxl) n) s = .next s ∧ exec (.hostWrite port (place cxl) data) s = .next s) ∧
    (∀ off, off % 8 = 0 →
      let gives := fun (v : Word) =>
        (.next { s with hostOut := s.hostOut ++ [{ port := port, addr := off, value := natLe 8 v.toNat, code := 0, kind := .register }] } : Res)
      (portsUp s = true → exec (.hostRead port ⟨.control, off⟩ 8) s = gives (bar0Read s off)) ∧
      (portsUp s = false → exec (.hostRead port ⟨.control, off⟩ 8) s = .next s) ∧
      (s.powered = true → exec (.hostRead port ⟨.debug, off⟩ 8) s = gives (bar4Read s off)) ∧
      (s.powered = false → exec (.hostRead port ⟨.debug, off⟩ 8) s = .next s)) ∧
    (bar0Read s 0 = s.regs.acthr.setWidth 64 ∧ bar0Read s 0x180 = s.regs.groot ∧ bar0Read s 0x3D0 = s.regs.bootstat.setWidth 64 ∧
      bar0Read s 0x190 = 0 ∧ bar0Read s 0x210 = 0 ∧ bar0Read s 0x3C0 = 0 ∧ bar0Read s 0x3D8 = 0 ∧
      ∀ c r, c < 320 → r < 32 → bar4Read s (0x100000 + 0x1000 * c + 0x100 + 8 * r) =
        if (s.core c).stopped = false ∨ r = 0 then 0 else tget 0 (s.core c).regs (physReg (debugBank (s.core c)) r)) ∧
    (∀ (cxl : Bool) (op : BitVec 4) (dw : Bool) (page : HostPage) (v cmp : Word),
      let n := if dw then 8 else 4
      hostWindow s port (place cxl) n = true → pa % n = 0 →
      let key := hashKey pa
      let atomic := fun (second : Bool) => exec (.hostAtomic port (place cxl) op dw page second v cmp) s
      (64 ≤ tracked s port → atomic false = .next s) ∧
      (pageSa s pa page = true → tracked s port < 64 →
        ∃ a, atomic false = .next (issueAccess s a) ∧ a.kind = .atomic ∧ a.op = op ∧ a.addr = key ∧
          a.len = n ∧ leNat a.data = v.toNat % 2 ^ (8 * n) ∧ (op.toNat < 10 → a.cmp = [])) ∧
      (pageSa s pa page = false →
        ∀ t bs, tracked s port < 64 → hostSettled s port key = true → (s.die (keyDie key)).removed = false →
          crossRead s (hostPortDie port) (keyDie key) n = some t → homeRead t false key n = (bs, 0) →
          atomic false = .next { t with splits := t.splits ++ [{ port := port, addr := key, len := n, old := leBv 64 bs }] }) ∧
      (∀ x t, s.splits.find? (fun x => x.port == port && x.addr == key && x.len == n) = some x → (s.die (keyDie key)).removed = false →
        crossWrite { s with splits := dropFirst (fun y => y == x) s.splits } (hostPortDie port) (keyDie key) n false = some t → op.toNat < 10 →
        atomic true = .next (hostGives (homeWrite t true false key
          (natLe n (atomicWord op.toNat (8 * n) none x.old.toNat (v.toNat % 2 ^ (8 * n))))) port pa (natLe n x.old.toNat) 0 .data)) ∧
      (s.splits.find? (fun x => x.port == port && x.addr == key && x.len == n) = none → atomic true = .next s))

/-- Writes at the offsets of the control space reach the register or event that the spec places there, for every cluster, port and
queue pair, once a port has trained; a misaligned offset, the debug window without a session or an unpowered device changes nothing. A debug window write
changes a stopped core only and x0 never. BAR2 is resized to a power of two (the place of that register is the model's choice, log 106). (R395, R420, R428, R430, R432, R433, R436, R440) -/
def Obligations.DeviceRegisterWrites : Prop :=
  ∀ (s : State) (v : Word),
    let w := fun (bar4 : Bool) (off : Nat) => exec (.registerWrite (if bar4 then .debug else .control) off v) s
    let regs := fun (f : DevRegs → DevRegs) => (.next { s with regs := f s.regs } : Res)
    (portsUp s = false → ∀ off, w false off = .next s) ∧
    (portsUp s = true →
      w false 0x00 = regs (fun r => { r with acthr := v.setWidth 32 }) ∧
      w false 0x180 = regs (fun r => { r with groot := v }) ∧ w false 0x188 = regs (fun r => { r with gptr := v }) ∧
      w false 0x1C8 = regs (fun r => { r with ctxsel := v }) ∧ w false 0x200 = regs (fun r => { r with invva := v }) ∧
      w false 0x208 = regs (fun r => { r with invpages := v.setWidth 32 }) ∧ w false 0x1000 = regs (fun r => { r with ataddr := v }) ∧
      (v.getLsbD 0 = true → w false 0x190 = exec .go s ∧ w false 0x210 = exec .invgo s ∧ w false 0x1008 = exec .atgo s) ∧
      w false 0x3C0 = exec .hbeat s ∧
      (∀ k, k < 40 → w false (0x400 + 64 * k + 0x08) = exec (.lvlreq k (v.setWidth 2)) s ∧
        w false (0x400 + 64 * k + 0x30) = exec (.ramptabWrite k v) s ∧
        (v.extractLsb' 16 32 = 0 → v.getLsbD 0 = true → w false (0x400 + 64 * k + 0x38) = exec (.lock k) s)) ∧
      (∀ port q, port < 4 → q < 4096 →
        w false (0x1010000 + 0x400000 * port + 256 * q) = exec (.qpStateWrite port q (v.setWidth 3)) s ∧
        w false (0x1010000 + 0x400000 * port + 256 * q + 160) = exec (.sqdb port q v) s ∧
        w false (0x1010000 + 0x400000 * port + 256 * q + 168) = exec (.rqdb port q v) s ∧
        w false (0x1010000 + 0x400000 * port + 256 * q + 176) = exec (.cqdb port q v) s)) ∧
    (∀ bar4 off, off % 8 ≠ 0 → w bar4 off = .next s) ∧
    (∀ off, s.powered = false → w true off = .next s) ∧
    (∀ f, f < 2 → s.powered = true → 30 ≤ v.toNat → v.toNat ≤ 39 →
      exec (.registerWrite .memory f v) s = regs fun r => { r with bar2 := tset 39 r.bar2 f v.toNat }) ∧
    (∀ off, exec (.registerWrite .cxl off v) s = .next s) ∧
    (∀ off, s.powered = true → s.regs.session = false → off ≠ 0 → w true off = .next s) ∧
    (s.powered = true → w true 0 = regs fun r => { r with session := v.getLsbD 0 }) ∧
    (∀ (c r : Nat), c < 320 → r < 32 → s.powered = true → s.regs.session = true →
      w true (0x100000 + 0x1000 * c + 0x100 + 8 * r) = .next (s.modCore c fun k => debugReg k r v) ∧
      ((s.core c).stopped = false → debugReg (s.core c) r v = s.core c) ∧ debugReg (s.core c) 0 v = s.core c)

/-- A level request starts a ramp, waits as the pending one while ramping, and is nothing when equal or refused; a ramp settles from
1,800 ticks on, and has settled when 2,048 have passed. RAMPTAB is written while unlocked and legal. A
trip requests LO, HBEAT ends firmware loss, loss requests MID for clusters at HI, and a slew step grants the oldest ready commands
within the table's allowance and no others. The settling event (log 10), the age of ready commands (log 24), requests of a tripped cluster (log 43) and the
level that is compared at firmware loss (log 78) are the model's readings. (R229, R421, R422, R424, R425, R427, R428) -/
def Obligations.PowerLevelsAndRamps : Prop :=
  (∀ s : State, s.pace.toNat / 1000 ≠ s.window.toNat →
    ∃ t, exec .meterWindow s = .next t ∧ t.window = BitVec.ofNat 64 (s.pace.toNat / 1000) ∧
      (∀ c p, (t.port c p) = { s.port c p with window := 0 }) ∧
      (∀ k, k < 40 → (t.cluster k).mlevel = (s.cluster k).meter ∧ (t.cluster k).ceil = (s.cluster k).ceiling) ∧
      t.mem = s.mem ∧ t.hostMem = s.hostMem) ∧
  ∀ (s : State) (k : Nat), k < 40 →
    let c := s.cluster k
    (∀ r : BitVec 2, s.regs.fwloss = false → r ≠ 3 → (c.tripped = true → r = 0) →
      (c.ramping = true → exec (.lvlreq k r) s = .next (s.modCluster k fun x => { x with pend := r, pvalid := true })) ∧
      (c.ramping = false → r = c.level → exec (.lvlreq k r) s = .next s) ∧
      (c.ramping = false → r ≠ c.level → exec (.lvlreq k r) s = .next (s.modCluster k fun x =>
        { x with ramping := true, target := r, rampStart := s.pace, meter := if r.toNat < x.level.toNat then r else x.meter }))) ∧
    (∀ r : BitVec 2, s.regs.fwloss = true ∨ r = 3 → exec (.lvlreq k r) s = .next s) ∧
    (c.ramping = true → 1800 ≤ (s.pace - c.rampStart).toNat → c.pvalid = false →
      exec (.levelRampSettle k) s = .next (s.modCluster k fun x =>
        { x with ramping := false, level := x.target, meter := if x.level.toNat < x.target.toNat then x.target else x.meter, pvalid := false })) ∧
    ((c.ramping = false ∨ (s.pace - c.rampStart).toNat < 1800) → exec (.levelRampSettle k) s = .next s) ∧
    (∀ n : Nat, c.ramping = true → c.pvalid = false → 2048 ≤ (s.pace + BitVec.ofNat 64 n - c.rampStart).toNat →
      ((passTime s n).cluster k).ramping = false ∧ ((passTime s n).cluster k).level = c.target) ∧
    (∀ v, c.lock = false → rampLegal v = true → exec (.ramptabWrite k v) s = .next (s.modCluster k fun x => { x with ramptab := v })) ∧
    (∀ v, (c.lock = true ∨ rampLegal v = false) → exec (.ramptabWrite k v) s = .next s) ∧
    exec (.lock k) s = .next (s.modCluster k fun x => { x with lock := true }) ∧
    exec (.converterCurrentLimit k) s =
      .next (s.modCluster k fun x => { x with occnt := if x.occnt = 0xFFFFFFFF then x.occnt else x.occnt + 1 }) ∧
    (c.tripped = true → exec (.thermalTripClear k) s = .next (s.modCluster k fun x => { x with tripped := false })) ∧
    (∀ temp : BitVec 16, 105 ≤ temp.toNat → temp.toNat < 125 → c.tripped = false →
      exec (.thermalTrip k temp) s = .next (logRecord (levelRequest (s.modCluster k fun x => { x with tripped := true }) k 0) 7 (k / 10) k
        (natLe 2 temp.toNat ++ [0]))) ∧
    (∀ temp : BitVec 16, temp.toNat < 105 → exec (.thermalTrip k temp) s = .next s) ∧
    exec .hbeat s = .next { s with regs := { s.regs with lastBeat := s.pace, fwloss := false } } ∧
    (∀ upd : Bool, s.regs.fwloss = false → (upd = true ∨ 10000000 ≤ (s.pace - s.regs.lastBeat).toNat) →
      ∃ t, exec (.fwloss upd) s = .next t ∧ t.regs.fwloss = true ∧
        (c.level ≠ 2 → (c.ramping = false ∨ c.target ≠ 2) → (t.cluster k).pvalid = false ∧ (t.cluster k).ramping = c.ramping) ∧
        (c.tripped = false → c.ramping = true → c.target = 2 → (t.cluster k).pvalid = true ∧ (t.cluster k).pend = 1) ∧
        (c.tripped = false → c.ramping = false → c.level = 2 → (t.cluster k).ramping = true ∧ (t.cluster k).target = 1)) ∧
    (∀ upd : Bool, (s.regs.fwloss = true ∨ upd = false ∧ (s.pace - s.regs.lastBeat).toNat < 10000000) → exec (.fwloss upd) s = .next s) ∧
    (s.pace.toNat % 4 = 0 → c.slewAt ≠ s.pace + 1 →
      let r := ((clusterCores k).filter fun x => operatorBusy s x).length
      let g := min (readyStarts s k).length (min (rampUp c.ramptab c.a) (rampEntry c.ramptab 7) - r)
      ∃ t, exec (.slewLimiterStep k) s = .next t ∧ (t.cluster k).a = r + g + (rampDown c.ramptab c.a - (r + g)) ∧
        rampDown c.ramptab c.a ≤ (t.cluster k).a ∧
        (∀ x ∈ (readyStarts s k).take g, (t.core x.1).mat.grant = some x.2) ∧
        ∀ n, n ∉ ((readyStarts s k).take g).map Prod.fst → (t.core n).mat = (s.core n).mat)

/-- Power-on reset with a working security processor leaves zeroed memory, no plot and, exactly when an image of each KIND verifies, a powered device
with the fused tables; otherwise, and without such a processor, it is unpowered with its BOOTSTAT. A slot verifies when its key block has the fused
hash, both signatures hold and VERSION is not below the rollback counter, which FLAGS bit 0 makes the boot advance. A device reset of a package on which steps 1 and 2 have run keeps memory and clears FAILOVER (that another package ignores it is the model's reading,
log 82); host memory is kept by both. STEP 6 with CODE 1 (logs 73, 79), slot 0 first and the bytes of the key block (log 8) are the model's readings. ATGO starts a report that, once done, is
written at ATADDR and changes nothing else. (R440, R441, R442, R443, R444) -/
def Obligations.ResetBootAndReports : Prop :=
  ∀ (s : State) (tabs : List Word),
    (∀ m0 m1 : Bool, (m0 = true ∨ m1 = true) →
      let d := { darkPackage s with regs := { (darkPackage s).regs with kept := s.regs.kept, secM1 := !m0 } }
      ∃ t, exec (.powerOnReset m0 m1 none tabs) s = .next t ∧ t.mem = [] ∧ t.cores = [] ∧ t.plots = [] ∧ t.pace = 0 ∧ t.hostMem = s.hostMem ∧
        t.powered = (bootImages d [1, 2, 3, 4]).2.isNone ∧
        t.regs.bootstat.toNat = (if m0 then 0 else 2 ^ 24) + (match (bootImages d [1, 2, 3, 4]).2 with | none => 0x0601 | some k => 2 ^ 16 * k + 0x0210) ∧
        (t.powered = true → ∀ k, k < 40 →
          (t.cluster k).lock = true ∧ ∀ v, tabs[k]? = some v → rampLegal v = true → (t.cluster k).ramptab = v)) ∧
    (∀ (u : State) (k i : Nat),
      (bootSlot u k = some i → imageVerifies u k (Config.flash k i) = true) ∧
      (bootSlot u k = none → imageVerifies u k (Config.flash k 0) = false ∧ imageVerifies u k (Config.flash k 1) = false) ∧
      (imageVerifies u k (Config.flash k i) = true → rollbackOf u k ≤ imageVersion (Config.flash k i) ∧
        Config.sha384 (slice (Config.flash k i) 64 1984) = Config.keyHash) ∧
      rollbackOf (bootImage u k i) k = if leAt (Config.flash k i) 6 2 % 2 = 1 then imageVersion (Config.flash k i) else rollbackOf u k) ∧
    (∃ t, exec (.powerOnReset false false none tabs) s = .next t ∧ t.powered = false ∧ t.regs.bootstat = 0x0211) ∧
    (startedUp s = true → ∃ t, exec (.devrst none tabs) s = .next t ∧ t.powered = true ∧ t.mem = s.mem ∧ t.hostMem = s.hostMem ∧ t.cores = [] ∧
      t.plots = [] ∧ t.regs.bootstat = 0x0601 ∧ fabricDie t = fabricDie s) ∧
    (startedUp s = false → ∀ f, exec (.devrst f tabs) s = .next s) ∧
    (s.regs.atdone = true → exec .atgo s = .next { s with regs := { s.regs with atdone := false } }) ∧
    (s.regs.atdone = false → exec .atgo s = .next s ∧
      ∃ t, exec .attestationReportDone s = .next t ∧ t.regs.atdone = true ∧ t.cores = s.cores ∧ t.hostMem = s.hostMem ∧
        t.mem = (writeHash s s.regs.ataddr.toNat (reportBytes s (readHash s s.regs.ataddr.toNat 32))).mem) ∧
    (s.regs.atdone = true → exec .attestationReportDone s = .next s) ∧
    (∀ die, exec (.pcctlClear die) s = .next { s with regs := { s.regs with counters := s.regs.counters.filter fun e => e.1 / 32 != die } })

/-- A state write is accepted only in the order of R436 or to RESET or ERROR; a doorbell write is a write of its line, whose index the engine takes
outside RESET; a queue pair that may send takes its next entry for its operation; an acknowledged operation leaves the queue and completes where asked,
a timed-out one is retried and then fails, and in ERROR entries complete with CAUSALGAP. A receiving queue pair consumes a receive entry for a send,
allows an RDMA access only with a key that covers it, and answers (the forms of the answers are the model's, log 105). A doorbell write in RESET or to a
line that cannot be written and the 0 bytes of an error are the model's readings of R436 and R386 (log 76), as is what RESET keeps (log 31). (R386, R387, R388, R435, R436,
R437) -/
def Obligations.QueuePairs : Prop :=
  (∀ (s : State) (port q : Nat), port < 4 → q < 4096 →
     let x := s.qp port q
     (∀ up, exec (.ethernetLinkState port up) s = .next (s.modEth port fun e => { e with linkup := up && e.speed != 0 })) ∧
     ((s.ethPort port).en = true →
       exec (.qpStateWrite port q 0) s = .next (resetQp s port q) ∧
       exec (.qpStateWrite port q 4) s = .next (s.modQp port q fun y => { y with state := 4 }) ∧
       (x.state = 0 → exec (.qpStateWrite port q 1) s = .next (s.modQp port q fun y => { y with state := 1 })) ∧
       (x.state = 1 → exec (.qpStateWrite port q 2) s = .next (watchDoorbell (s.modQp port q fun y => { y with state := 2, epsn := y.rpsn }) port q)) ∧
       (x.state = 2 → exec (.qpStateWrite port q 3) s = .next (s.modQp port q fun y => { y with state := 3, psn := y.spsn })) ∧
       (∀ v : BitVec 3, v ≠ 0 → v ≠ 4 → v.toNat ≠ x.state.toNat + 1 → exec (.qpStateWrite port q v) s = .next s)) ∧
     ((s.ethPort port).en = false → ∀ v, exec (.qpStateWrite port q v) s = .next s) ∧
     (∀ (v : Word), ∀ e ∈ [(Instr.sqdb port q v, 0, v.toNat % 65536, fun (y : Qp) => { y with sqpi := v.toNat % 65536 % 2 ^ y.sqlog.toNat }),
          (.rqdb port q v, 8, v.toNat % 65536, fun (y : Qp) => { y with rqpi := v.toNat % 65536 % 2 ^ y.rqlog.toNat }),
          (.cqdb port q v, 16, v.toNat % 2 ^ 20, fun (y : Qp) => { y with cqci := v.toNat % 2 ^ 20 % 2 ^ y.cqlog.toNat })],
       let line := engWrite s port (x.dbva + BitVec.ofNat 64 e.2.1) (natLe 8 e.2.2.1)
       (∀ u, line = .ok u → exec e.1 s = .next (if x.state = 0 then u else u.modQp port q e.2.2.2)) ∧
       (∀ c, line = .error (some c) → exec e.1 s = .next s) ∧
       (line = .error none → ∃ t, exec e.1 s = .next t ∧ (t.qp port q).stores.length = x.stores.length + 1 ∧ t.mem = s.mem)) ∧
     (x.stores ≠ [] → exec (.doorbellLineReread port q) s = .next (doorbellAgain s port q)) ∧
     (x.stores = [] →
       (2 ≤ x.state.toNat → x.watched = false → 10000 ≤ (s.pace - x.lastRead).toNat →
         exec (.doorbellLineReread port q) s = .next (readDoorbell s port q)) ∧
       ((x.watched = true ∨ x.state.toNat < 2 ∨ (s.pace - x.lastRead).toNat < 10000) → exec (.doorbellLineReread port q) s = .next s))) ∧
  (∀ (s : State) (port q : Nat), port < 4 →
     let x := s.qp port q
     (∀ (t : State) (bs : List Byte), maySend x = true → x.inflight = [] →
       engRead s port (x.sqbase + BitVec.ofNat 64 (64 * x.sqci)) 64 = .ok (t, bs) → (sendEntry bs).ok = true →
       let e := sendEntry bs
       (e.op = 3 → exec (.roceRead port q) s = .next (started t port q (sendOf s port q e []))) ∧
       ∀ u d, engRead t port e.lva e.len = .ok (u, d) → ∀ i, (e.op, i) ∈ [(0, Instr.roceSend port q), (1, .roceWrite port q), (2, .roceWriteImm port q)] →
         exec i s = .next (started (u.count (ethDie port) 7 e.len) port q (sendOf s port q e d))) ∧
     (maySend x = false → ∀ i ∈ [Instr.roceSend port q, .roceWrite port q, .roceWriteImm port q, .roceRead port q], exec i s = .next s) ∧
     (∀ (o : SendOp) (r : List SendOp), x.inflight = o :: r → x.state ≠ 4 → cqFull x = false → o.status = 0 → o.op ≠ 3 →
       let t := s.modQp port q fun y => { y with inflight := r, retries := 0, unready := 0, notReady := none, since := s.pace }
       (o.comp = true → exec (.roceCompletion port q 0 []) s = .next ((complete t port q o.idx 0 false none o.len).getD s)) ∧
       (o.comp = false → exec (.roceCompletion port q 0 []) s = .next t) ∧
       exec (.roceCompletion port q cPERMISSION []) s = .next ((complete t port q o.idx cPERMISSION false none 0).getD s)) ∧
     (∀ (o : SendOp) (r : List SendOp) (c : Byte) (data : List Byte), x.inflight = o :: r → x.state = 4 → cqFull x = false →
       exec (.roceCompletion port q c data) s =
         .next ((complete (s.modQp port q fun y => { y with inflight := r }) port q o.idx cCAUSALGAP false none 0).getD s)) ∧
     (∀ (o : SendOp) (r : List SendOp), x.inflight = o :: r → x.state = 3 → o.status = 0 →
       let failed := s.modQp port q fun y => { y with inflight := { o with status := cCAUSALGAP } :: r }
       (x.notReady = none → ackTimeout x ≤ (s.pace - x.since).toNat →
         (x.retries < (x.retryCfg.extractLsb' 8 3).toNat → exec (.roceAckTimeout port q) s =
           .next ((s.modQp port q fun _ => { x with retries := x.retries + 1, since := s.pace }).count (ethDie port) 9 1)) ∧
         ((x.retryCfg.extractLsb' 8 3).toNat ≤ x.retries → exec (.roceAckTimeout port q) s = .next failed)) ∧
       (∀ n, x.notReady = some n → n ≤ (s.pace - x.since).toNat →
         (x.unready < (x.retryCfg.extractLsb' 12 3).toNat → exec (.roceAckTimeout port q) s =
           .next ((s.modQp port q fun _ => { x with unready := x.unready + 1, notReady := none, since := s.pace }).count (ethDie port) 9 1)) ∧
         ((x.retryCfg.extractLsb' 12 3).toNat ≤ x.unready → exec (.roceAckTimeout port q) s = .next failed))) ∧
     (x.inflight = [] → exec (.roceAckTimeout port q) s = .next s) ∧
     (mayReceive s port q = true →
       (∀ lva len t u (data : List Byte), x.rqci ≠ x.rqpi → recvEntry s port x = some (t, .ok (lva, len)) → data.length ≤ len →
         engWrite t port lva data = .ok u → exec (.incomingSend port q data) s =
           .next (((consumeRecv (u.count (ethDie port) 8 data.length) port q 0 none data.length).map fun w => answer w port q .ack data.length []).getD s)) ∧
       (∀ lva len t (data : List Byte), x.rqci ≠ x.rqpi → recvEntry s port x = some (t, .ok (lva, len)) → len < data.length →
         exec (.incomingSend port q data) s =
           .next (((consumeRecv t port q cFORMAT none 0).map fun w => answer w port q .refused data.length []).getD s)) ∧
       (∀ data, x.rqci = x.rqpi → exec (.incomingSend port q data) s = .next (answer s port q .notReady data.length [])) ∧
       ∀ key t, keyRead s port key = some t →
         (∀ addr data u, keyAllows s port q key 2 addr data.length = true → engWrite t port addr data = .ok u →
           exec (.incomingRdmaWrite port q key addr data none) s = .next (answer (u.count (ethDie port) 8 data.length) port q .ack data.length [])) ∧
         (∀ addr data imm, keyAllows s port q key 2 addr data.length = false → (imm = none ∨ x.rqci ≠ x.rqpi) →
           exec (.incomingRdmaWrite port q key addr data imm) s = .next (answer t port q .accessError data.length [])) ∧
         (∀ addr len u d, keyAllows s port q key 1 addr len = true → engRead t port addr len = .ok (u, d) →
           exec (.incomingRdmaRead port q key addr len) s = .next (answer (u.count (ethDie port) 7 len) port q .readData len d)) ∧
         (∀ addr len, keyAllows s port q key 1 addr len = false →
           exec (.incomingRdmaRead port q key addr len) s = .next (answer t port q .accessError len []))) ∧
     (mayReceive s port q = false → ∀ key addr data imm len, exec (.incomingSend port q data) s = .next s ∧
       exec (.incomingRdmaWrite port q key addr data imm) s = .next s ∧ exec (.incomingRdmaRead port q key addr len) s = .next s))

/-- The memories of the reset state have their canonical form: addresses strictly rising and no entry equal to what an unlisted
address reads as (0, the model's choice, log 5). (R236, R440) -/
def Obligations.ResetMeetsInvariant : Prop := State.reset.memOk = true

/-- From every state whose memories are canonical, whatever acts (a sequencer, an executor, a node, a walker, an event from outside,
or time), a step that answers a next state leaves them canonical; equal memories are therefore equal data in every run. The
canonical form is the model's own (log 5). (R236, R281, R299) -/
def Obligations.StepKeepsMemoryCanonical : Prop :=
  ∀ s t : State, s.memOk = true → step s = .next t → t.memOk = true
end

