-- ==== Sys2Proof/Laws/Encoding.lean ====
section
/-!
SUPPORT. Fields of encoded words: what each extraction of the decoders reads from the formats of the encoder.
-/

namespace Sys2Proof

/-! ### Fields of a concatenation -/

theorem fld_app_lo {m n : Nat} (a : BitVec m) (b : BitVec n) (lo len : Nat) (h : lo + len ≤ n) :
    (a ++ b).extractLsb' lo len = b.extractLsb' lo len := by
  ext i hi
  simp only [BitVec.getElem_extractLsb', BitVec.getLsbD_append]
  simp [show lo + i < n by omega]

theorem fld_app_hi {m n : Nat} (a : BitVec m) (b : BitVec n) (lo len : Nat) (h : n ≤ lo) :
    (a ++ b).extractLsb' lo len = a.extractLsb' (lo - n) len := by
  ext i hi
  simp only [BitVec.getElem_extractLsb', BitVec.getLsbD_append]
  simp [show ¬ lo + i < n by omega, show lo + i - n = lo - n + i by omega]

theorem fld_all {n : Nat} (a : BitVec n) : a.extractLsb' 0 n = a := by simp

theorem fld_all' {n : Nat} (a : BitVec n) (lo : Nat) (h : lo = 0) : a.extractLsb' lo n = a := by subst h; simp

theorem fld_fld {w : Nat} (a : BitVec w) (lo len lo' len' : Nat) (h : lo' + len' ≤ len) :
    fld (fld a lo len) lo' len' = fld a (lo + lo') len' := by
  ext i hi
  simp only [fld, BitVec.getElem_extractLsb', BitVec.getLsbD_extractLsb']
  simp [show lo' + i < len by omega, Nat.add_assoc]

theorem bit_app_lo {m n : Nat} (a : BitVec m) (b : BitVec n) (k : Nat) (h : k < n) : (a ++ b).getLsbD k = b.getLsbD k := by
  simp [BitVec.getLsbD_append, h]

theorem bit_app_hi {m n : Nat} (a : BitVec m) (b : BitVec n) (k : Nat) (h : n ≤ k) : (a ++ b).getLsbD k = a.getLsbD (k - n) := by
  simp [BitVec.getLsbD_append, show ¬ k < n by omega]

theorem bit_ofBool (b : Bool) : (BitVec.ofBool b).getLsbD 0 = b := by cases b <;> rfl

theorem bit_ofBool' (b : Bool) (k : Nat) (h : k = 0) : (BitVec.ofBool b).getLsbD k = b := by subst h; exact bit_ofBool b

theorem ite_true_bool {α : Type} (a b : α) : (if (true : Bool) = true then a else b) = a := rfl

theorem ite_false_bool {α : Type} (a b : α) : (if (false : Bool) = true then a else b) = b := rfl

theorem fld_ofBool (b : Bool) : (BitVec.ofBool b).extractLsb' 0 1 = BitVec.ofBool b := fld_all _

theorem bit_fld {w : Nat} (a : BitVec w) (lo len k : Nat) (h : k < len) : (a.extractLsb' lo len).getLsbD k = a.getLsbD (lo + k) := by
  simp [h]

/-- A field is zero when its two parts are. -/
theorem fld_zero {w : Nat} {v : BitVec w} {lo p q : Nat} (h1 : fld v lo p = 0) (h2 : fld v (lo + p) q = 0) : fld v lo (p + q) = 0 := by
  ext i hi
  simp only [fld, BitVec.getElem_extractLsb', BitVec.ofNat_eq_ofNat, BitVec.getElem_zero]
  by_cases h : i < p
  · have := congrArg (fun x => x.getLsbD i) h1
    simpa [fld, h] using this
  · have := congrArg (fun x => x.getLsbD (i - p)) h2
    simpa [fld, show i - p < q by omega, show lo + p + (i - p) = lo + i by omega] using this

/-- Two neighbouring fields side by side. -/
theorem fld_join {w : Nat} (v : BitVec w) (lo p q : Nat) : fld v (lo + p) q ++ fld v lo p = fld v lo (q + p) := by
  ext i hi
  simp only [fld, ← BitVec.getLsbD_eq_getElem, BitVec.getLsbD_append, BitVec.getLsbD_extractLsb']
  by_cases h : i < p
  · simp [h, hi]
  · simp [h, hi, show i - p < q by omega, show lo + p + (i - p) = lo + i by omega]

/-- A form whose unused fields are zero and whose operands are in range decodes to its instruction. -/
theorem form_ok {z : Bool} {i j : Instr} (hz : z = true) (hj : j = i) (h : wf i = true) : form z j = .ok i := by
  subst hz hj; simp [form, h]

/-! ### Format A -/

set_option simprocs false in
theorem encA_op (op d a b fn) : fld (encA op d a b fn) 26 6 = op := by
  unfold encA fld; simp (disch := decide) only [fld_app_hi]; exact fld_all _
set_option simprocs false in
theorem encA_d (op d a b fn) : fld (encA op d a b fn) 21 5 = d := by
  unfold encA fld; simp (disch := decide) only [fld_app_lo, fld_app_hi]; exact fld_all _
set_option simprocs false in
theorem encA_a (op d a b fn) : fld (encA op d a b fn) 16 5 = a := by
  unfold encA fld; simp (disch := decide) only [fld_app_lo, fld_app_hi]; exact fld_all _
set_option simprocs false in
theorem encA_b (op d a b fn) : fld (encA op d a b fn) 11 5 = b := by
  unfold encA fld; simp (disch := decide) only [fld_app_lo, fld_app_hi]; exact fld_all _
theorem encA_fn (op d a b fn lo len) (h : lo + len ≤ 11) : fld (encA op d a b fn) lo len = fld fn lo len := fld_app_lo _ _ _ _ h
theorem encA_bit (op d a b fn k) (h : k < 11) : bit (encA op d a b fn) k = bit fn k := bit_app_lo _ _ _ h
theorem encA_zero (op : BitVec 6) (a : Reg) (fn) : fld (encA op 0 a 0 fn) 21 5 = 0 := encA_d ..
theorem encA_none (op : BitVec 6) (fn) : fld (encA op 0 0 0 fn) 11 15 = 0 :=
  fld_zero (p := 5) (q := 10) (encA_b ..) (fld_zero (p := 5) (q := 5) (encA_a ..) (encA_d ..))

/-! ### Formats I and F -/

set_option simprocs false in
theorem encI_op (op d a imm) : fld (encI op d a imm) 26 6 = op := by
  unfold encI fld; simp (disch := decide) only [fld_app_hi]; exact fld_all _
set_option simprocs false in
theorem encI_d (op d a imm) : fld (encI op d a imm) 21 5 = d := by
  unfold encI fld; simp (disch := decide) only [fld_app_lo, fld_app_hi]; exact fld_all _
set_option simprocs false in
theorem encI_a (op d a imm) : fld (encI op d a imm) 16 5 = a := by
  unfold encI fld; simp (disch := decide) only [fld_app_lo, fld_app_hi]; exact fld_all _
theorem encI_imm (op d a imm lo len) (h : lo + len ≤ 16) : fld (encI op d a imm) lo len = fld imm lo len := fld_app_lo _ _ _ _ h

set_option simprocs false in
theorem encF_op (d a sub pos len) : fld (encF d a sub pos len) 26 6 = 0x0D := by
  unfold encF fld; simp (disch := decide) only [fld_app_hi]; exact fld_all _
set_option simprocs false in
theorem encF_d (d a sub pos len) : fld (encF d a sub pos len) 21 5 = d := by
  unfold encF fld; simp (disch := decide) only [fld_app_lo, fld_app_hi]; exact fld_all _
set_option simprocs false in
theorem encF_a (d a sub pos len) : fld (encF d a sub pos len) 16 5 = a := by
  unfold encF fld; simp (disch := decide) only [fld_app_lo, fld_app_hi]; exact fld_all _
set_option simprocs false in
theorem encF_sub (d a sub pos len) : fld (encF d a sub pos len) 13 3 = sub := by
  unfold encF fld; simp (disch := decide) only [fld_app_lo, fld_app_hi]; exact fld_all _
set_option simprocs false in
theorem encF_pos (d a sub pos len) : fld (encF d a sub pos len) 7 6 = pos := by
  unfold encF fld; simp (disch := decide) only [fld_app_lo, fld_app_hi]; exact fld_all _
set_option simprocs false in
theorem encF_len (d a sub pos len) : fld (encF d a sub pos len) 1 6 = len := by
  unfold encF fld; simp (disch := decide) only [fld_app_lo, fld_app_hi]; exact fld_all _
theorem encF_low (d a sub pos len) : fld (encF d a sub pos len) 0 1 = 0 := fld_app_lo _ _ _ _ (by decide)
theorem encF_body (d a sub) : fld (encF d a sub 0 0) 0 13 = 0 :=
  fld_zero (p := 1) (q := 12) (encF_low ..) (fld_zero (p := 6) (q := 6) (encF_len ..) (encF_pos ..))
theorem encF_tail (d a sub) (k : BitVec 3) : fld (encF d a sub (k ++ 0#3) 0) 0 10 = 0 :=
  fld_zero (p := 1) (q := 9) (encF_low ..) (fld_zero (p := 6) (q := 3) (encF_len ..) (by
    have h := encF_pos d a sub (k ++ 0#3) 0
    have h2 : fld (fld (encF d a sub (k ++ 0#3) 0) 7 6) 0 3 = 0 := by rw [h]; exact fld_app_lo _ _ _ _ (by decide)
    rw [fld_fld _ _ _ _ _ (by decide)] at h2
    exact h2))
theorem encF_k (d a sub) (k : BitVec 3) : fld (encF d a sub (k ++ 0#3) 0) 10 3 = k := by
  have h := encF_pos d a sub (k ++ 0#3) 0
  have h2 : fld (fld (encF d a sub (k ++ 0#3) 0) 7 6) 3 3 = k := by
    rw [h]; unfold fld; rw [fld_app_hi _ _ _ _ (by decide)]; exact fld_all _
  rw [fld_fld _ _ _ _ _ (by decide)] at h2
  exact h2

/-! ### Stream commands -/

set_option simprocs false in
theorem encC_cls (cls func md arg b2 b1 b0) : fld (encC cls func md arg b2 b1 b0) 120 8 = cls := by
  unfold encC fld; simp (disch := decide) only [fld_app_hi]; exact fld_all _
set_option simprocs false in
theorem encC_func (cls func md arg b2 b1 b0) : fld (encC cls func md arg b2 b1 b0) 112 8 = func := by
  unfold encC fld; simp (disch := decide) only [fld_app_lo, fld_app_hi]; exact fld_all _
set_option simprocs false in
theorem encC_md (cls func md arg b2 b1 b0) : fld (encC cls func md arg b2 b1 b0) 104 8 = md := by
  unfold encC fld; simp (disch := decide) only [fld_app_lo, fld_app_hi]; exact fld_all _
theorem encC_arg (cls func md arg b2 b1 b0 lo len) (h : 96 ≤ lo) (h' : lo + len ≤ 104) :
    fld (encC cls func md arg b2 b1 b0) lo len = fld arg (lo - 96) len := by
  unfold encC fld
  rw [fld_app_hi _ _ _ _ (by omega), fld_app_hi _ _ _ _ (by omega), fld_app_hi _ _ _ _ (by omega), fld_app_lo _ _ _ _ (by omega)]
  congr 1
set_option simprocs false in
theorem encC_acc (cls func md arg b2 b1 b0) : fld (encC cls func md arg b2 b1 b0) 110 2 = fld md 6 2 := by
  unfold encC fld; simp (disch := decide) only [fld_app_lo, fld_app_hi]
theorem encC_bit (cls func md arg b2 b1 b0 k) (h : 96 ≤ k) (h' : k < 104) :
    bit (encC cls func md arg b2 b1 b0) k = bit arg (k - 96) := by
  unfold encC bit
  rw [bit_app_hi _ _ _ (by omega), bit_app_hi _ _ _ (by omega), bit_app_hi _ _ _ (by omega), bit_app_lo _ _ _ (by omega)]
  congr 1
set_option simprocs false in
theorem encC_b2 (cls func md arg b2 b1 b0) : fld (encC cls func md arg b2 b1 b0) 64 32 = b2 := by
  unfold encC fld; simp (disch := decide) only [fld_app_lo, fld_app_hi]; exact fld_all _
set_option simprocs false in
theorem encC_b1 (cls func md arg b2 b1 b0) : fld (encC cls func md arg b2 b1 b0) 32 32 = b1 := by
  unfold encC fld; simp (disch := decide) only [fld_app_lo, fld_app_hi]; exact fld_all _
theorem encC_b0 (cls func md arg b2 b1 b0) : fld (encC cls func md arg b2 b1 b0) 0 32 = b0 := by
  unfold encC fld; rw [fld_app_lo _ _ _ _ (by decide)]; exact fld_all _
theorem encC_z12 (cls func md arg b0) : fld (encC cls func md arg 0 0 b0) 32 64 = 0 :=
  fld_zero (p := 32) (q := 32) (encC_b1 ..) (encC_b2 ..)
theorem encC_z (cls func md arg) : fld (encC cls func md arg 0 0 0) 0 96 = 0 :=
  fld_zero (p := 32) (q := 64) (encC_b0 ..) (encC_z12 ..)

set_option simprocs false in
theorem encCW_cls (cls func md arg b2 w) : fld (encCW cls func md arg b2 w) 120 8 = cls := by
  unfold encCW fld; simp (disch := decide) only [fld_app_hi]; exact fld_all _
set_option simprocs false in
theorem encCW_func (cls func md arg b2 w) : fld (encCW cls func md arg b2 w) 112 8 = func := by
  unfold encCW fld; simp (disch := decide) only [fld_app_lo, fld_app_hi]; exact fld_all _
set_option simprocs false in
theorem encCW_md (cls func md arg b2 w) : fld (encCW cls func md arg b2 w) 104 8 = md := by
  unfold encCW fld; simp (disch := decide) only [fld_app_lo, fld_app_hi]; exact fld_all _
theorem encCW_arg (cls func md arg b2 w lo len) (h : 96 ≤ lo) (h' : lo + len ≤ 104) :
    fld (encCW cls func md arg b2 w) lo len = fld arg (lo - 96) len := by
  unfold encCW fld
  rw [fld_app_hi _ _ _ _ (by omega), fld_app_hi _ _ _ _ (by omega), fld_app_lo _ _ _ _ (by omega)]
  congr 1
set_option simprocs false in
theorem encCW_b2 (cls func md arg b2 w) : fld (encCW cls func md arg b2 w) 64 32 = b2 := by
  unfold encCW fld; simp (disch := decide) only [fld_app_lo, fld_app_hi]; exact fld_all _
theorem encCW_wide (cls func md arg b2 w) : fld (encCW cls func md arg b2 w) 0 64 = w := by
  unfold encCW fld; rw [fld_app_lo _ _ _ _ (by decide)]; exact fld_all _

/-! ### Node words and task-graph nodes -/

set_option simprocs false in
theorem encN_opc (opc n) : fld (encN opc n) 54 10 = opc := by
  unfold encN fld; simp (disch := decide) only [fld_app_hi]; exact fld_all _
theorem encN_live (opc n) : (bit (encN opc n) 0 && bit (encN opc n) 1 == false) = true := by
  unfold encN bit
  rw [bit_app_lo _ _ _ (by decide), bit_app_lo _ _ _ (by decide)]; rfl
set_option simprocs false in
theorem encN_fields (opc n) : nodeFields (encN opc n) = n := by
  unfold nodeFields encN fld bit
  simp (disch := decide) only [fld_app_lo, fld_app_hi, bit_app_lo, bit_app_hi]
  cases n
  simp only [NodeFields.mk.injEq]
  refine ⟨fld_all _, fld_all _, fld_all _, fld_all _, bit_ofBool _, bit_ofBool _, bit_ofBool _, bit_ofBool _, bit_ofBool _, bit_ofBool _,
    bit_ofBool _, fld_all _⟩

theorem encG_type (t n) : fld (encG t n) 0 8 = t := by
  unfold encG fld; rw [fld_app_lo _ _ _ _ (by decide)]; exact fld_all _
set_option simprocs false in
theorem encG_fields (t n) : graphFields (encG t n) = n := by
  unfold graphFields encG fld
  simp (disch := decide) only [fld_app_lo, fld_app_hi]
  cases n
  simp only [GraphFields.mk.injEq]
  refine ⟨fld_all _, fld_all _, fld_all _, fld_all _, fld_all _, fld_all _, fld_all _, fld_all _⟩

/-! ### Words of a group -/

theorem join2 (n : Word) : fld n 32 32 ++ fld n 0 32 = n := (fld_join n 0 32 32).trans (fld_all n)

theorem join4 (c : Cmd128) : fld c 96 32 ++ fld c 64 32 ++ fld c 32 32 ++ fld c 0 32 = c := by
  rw [show fld c 96 32 ++ fld c 64 32 = fld c 64 64 from fld_join c 64 32 32,
    show fld c 64 64 ++ fld c 32 32 = fld c 32 96 from fld_join c 32 32 64]
  exact (fld_join c 0 32 96).trans (fld_all c)

theorem join16 (g : BitVec 512) :
    fld g 480 32 ++ fld g 448 32 ++ fld g 416 32 ++ fld g 384 32 ++ fld g 352 32 ++ fld g 320 32 ++ fld g 288 32 ++ fld g 256 32 ++
      fld g 224 32 ++ fld g 192 32 ++ fld g 160 32 ++ fld g 128 32 ++ fld g 96 32 ++ fld g 64 32 ++ fld g 32 32 ++ fld g 0 32 = g := by
  rw [show fld g 480 32 ++ fld g 448 32 = fld g 448 64 from fld_join g 448 32 32,
    show fld g 448 64 ++ fld g 416 32 = fld g 416 96 from fld_join g 416 32 64,
    show fld g 416 96 ++ fld g 384 32 = fld g 384 128 from fld_join g 384 32 96,
    show fld g 384 128 ++ fld g 352 32 = fld g 352 160 from fld_join g 352 32 128,
    show fld g 352 160 ++ fld g 320 32 = fld g 320 192 from fld_join g 320 32 160,
    show fld g 320 192 ++ fld g 288 32 = fld g 288 224 from fld_join g 288 32 192,
    show fld g 288 224 ++ fld g 256 32 = fld g 256 256 from fld_join g 256 32 224,
    show fld g 256 256 ++ fld g 224 32 = fld g 224 288 from fld_join g 224 32 256,
    show fld g 224 288 ++ fld g 192 32 = fld g 192 320 from fld_join g 192 32 288,
    show fld g 192 320 ++ fld g 160 32 = fld g 160 352 from fld_join g 160 32 320,
    show fld g 160 352 ++ fld g 128 32 = fld g 128 384 from fld_join g 128 32 352,
    show fld g 128 384 ++ fld g 96 32 = fld g 96 416 from fld_join g 96 32 384,
    show fld g 96 416 ++ fld g 64 32 = fld g 64 448 from fld_join g 64 32 416,
    show fld g 64 448 ++ fld g 32 32 = fld g 32 480 from fld_join g 32 32 448]
  exact (fld_join g 0 32 480).trans (fld_all g)

theorem decode_cmd (c : Cmd128) : decode [fld c 0 32, fld c 32 32, fld c 64 32, fld c 96 32] = decodeCommand c := by
  show decodeCommand (fld c 96 32 ++ fld c 64 32 ++ fld c 32 32 ++ fld c 0 32) = decodeCommand c
  rw [join4]

theorem decode_node (n : Word) : decode [fld n 0 32, fld n 32 32] = decodeNode n := by
  show decodeNode (fld n 32 32 ++ fld n 0 32) = decodeNode n
  rw [join2]

theorem decode_graph (g : BitVec 512) :
    decode [fld g 0 32, fld g 32 32, fld g 64 32, fld g 96 32, fld g 128 32, fld g 160 32, fld g 192 32, fld g 224 32,
      fld g 256 32, fld g 288 32, fld g 320 32, fld g 352 32, fld g 384 32, fld g 416 32, fld g 448 32, fld g 480 32] = decodeGraph g := by
  show decodeGraph (fld g 480 32 ++ fld g 448 32 ++ fld g 416 32 ++ fld g 384 32 ++ fld g 352 32 ++ fld g 320 32 ++ fld g 288 32 ++ fld g 256 32 ++
      fld g 224 32 ++ fld g 192 32 ++ fld g 160 32 ++ fld g 128 32 ++ fld g 96 32 ++ fld g 64 32 ++ fld g 32 32 ++ fld g 0 32) = decodeGraph g
  rw [join16]

end Sys2Proof
end

