-- ==== Sys2Proof/Laws/Tables.lean ====
section
/-!
SUPPORT. Laws of sparse tables and byte memories: what is read after a write, and that every write keeps the canonical form.
-/

namespace Sys2Proof.Machine

/-! ### Reading -/

theorem tget_tdel_self {α : Type} (d : α) (t : Tbl α) (k : Nat) : tget d (tdel t k) k = d := by
  induction t with
  | nil => rfl
  | cons e r ih =>
    simp only [tdel]
    split
    · exact ih
    · simp [tget, *]

theorem tget_tdel_other {α : Type} (d : α) (t : Tbl α) {k j : Nat} (h : j ≠ k) : tget d (tdel t k) j = tget d t j := by
  induction t with
  | nil => rfl
  | cons e r ih =>
    simp only [tdel]
    split
    · next he => simp [tget, ih, show e.1 ≠ j by omega]
    · simp only [tget, ih]

theorem tget_tins_self {α : Type} (d : α) (t : Tbl α) (k : Nat) (v : α) (h : ∀ e ∈ t, e.1 ≠ k) : tget d (tins t k v) k = v := by
  induction t with
  | nil => simp [tins, tget]
  | cons e r ih =>
    simp only [tins]
    split
    · simp [tget]
    · simp only [tget, if_neg (h e (List.mem_cons_self ..))]
      exact ih fun x hx => h x (List.mem_cons_of_mem _ hx)

theorem tget_tins_other {α : Type} (d : α) (t : Tbl α) {k j : Nat} (v : α) (h : j ≠ k) : tget d (tins t k v) j = tget d t j := by
  induction t with
  | nil => simp [tins, tget, Ne.symm h]
  | cons e r ih =>
    simp only [tins]
    split
    · simp [tget, Ne.symm h]
    · simp only [tget, ih]

theorem tdel_key {α : Type} (t : Tbl α) (k : Nat) : ∀ e ∈ tdel t k, e.1 ≠ k := by
  induction t with
  | nil => simp [tdel]
  | cons e r ih =>
    simp only [tdel]
    split
    · exact ih
    · next he => exact fun x hx => (List.mem_cons.mp hx).elim (fun h => h ▸ he) (ih x)

/-- A read after a write to the same key gives the value written. -/
@[simp] theorem tget_tset_self {α : Type} [DecidableEq α] (d : α) (t : Tbl α) (k : Nat) (v : α) : tget d (tset d t k v) k = v := by
  unfold tset
  split
  · next h => rw [tget_tdel_self, h]
  · exact tget_tins_self d _ k v (tdel_key t k)

/-- A write leaves every other key alone. -/
theorem tget_tset_other {α : Type} [DecidableEq α] (d : α) (t : Tbl α) {k j : Nat} (v : α) (h : j ≠ k) :
    tget d (tset d t k v) j = tget d t j := by
  unfold tset
  split
  · exact tget_tdel_other d t h
  · rw [tget_tins_other d _ v h, tget_tdel_other d t h]

@[simp] theorem tget_tmod_self {α : Type} [DecidableEq α] (d : α) (t : Tbl α) (k : Nat) (f : α → α) :
    tget d (tmod d t k f) k = f (tget d t k) := tget_tset_self d t k _

theorem tget_tmod_other {α : Type} [DecidableEq α] (d : α) (t : Tbl α) {k j : Nat} (f : α → α) (h : j ≠ k) :
    tget d (tmod d t k f) j = tget d t j := tget_tset_other d t _ h

/-! ### The canonical form -/

/-- The canonical form, spelled as a pairwise order with no default entry. -/
theorem Tbl.wf_iff {α : Type} [DecidableEq α] (d : α) (t : Tbl α) :
    Tbl.wf d t = true ↔ t.Pairwise (fun a b => a.1 < b.1) ∧ ∀ e ∈ t, e.2 ≠ d := by
  induction t with
  | nil => simp [Tbl.wf]
  | cons e r ih =>
    simp only [Tbl.wf, Bool.and_eq_true, ih, List.pairwise_cons, List.forall_mem_cons, bne_iff_ne, ne_eq]
    constructor
    · rintro ⟨⟨h1, h2⟩, h3, h4⟩
      refine ⟨⟨?_, h3⟩, h1, h4⟩
      cases r with
      | nil => simp
      | cons n r' =>
        have hn : e.1 < n.1 := by simpa using h2
        intro x hx
        rcases List.mem_cons.mp hx with h | h
        · exact h ▸ hn
        · exact Nat.lt_trans hn ((List.pairwise_cons.mp h3).1 x h)
    · rintro ⟨⟨h1, h2⟩, h3, h4⟩
      refine ⟨⟨h3, ?_⟩, h2, h4⟩
      cases r with
      | nil => rfl
      | cons n r' => simpa using h1 n (List.mem_cons_self ..)

theorem tdel_sublist {α : Type} (t : Tbl α) (k : Nat) : (tdel t k).Sublist t := by
  induction t with
  | nil => exact .slnil
  | cons e r ih =>
    simp only [tdel]
    split
    · exact ih.cons _
    · exact ih.cons_cons _

theorem Tbl.wf_sublist {α : Type} [DecidableEq α] {d : α} {t u : Tbl α} (h : t.Sublist u) (hu : Tbl.wf d u = true) : Tbl.wf d t = true := by
  rw [Tbl.wf_iff] at hu ⊢
  exact ⟨hu.1.sublist h, fun e he => hu.2 e (h.subset he)⟩

theorem mem_tins {α : Type} {t : Tbl α} {k : Nat} {v : α} {e : Nat × α} (h : e ∈ tins t k v) : e = (k, v) ∨ e ∈ t := by
  induction t with
  | nil => simpa [tins] using h
  | cons x r ih =>
    simp only [tins] at h
    split at h
    · simpa using h
    · rcases List.mem_cons.mp h with h | h
      · exact .inr (by simp [h])
      · exact (ih h).imp id fun h => List.mem_cons_of_mem _ h

theorem tins_pairwise {α : Type} (t : Tbl α) (k : Nat) (v : α) (ht : t.Pairwise (fun a b => a.1 < b.1)) (hk : ∀ e ∈ t, e.1 ≠ k) :
    (tins t k v).Pairwise (fun a b => a.1 < b.1) := by
  induction t with
  | nil => simp [tins]
  | cons e r ih =>
    have hp := List.pairwise_cons.mp ht
    simp only [tins]
    split
    · next h =>
      refine List.pairwise_cons.mpr ⟨fun x hx => ?_, ht⟩
      rcases List.mem_cons.mp hx with h' | h'
      · exact h' ▸ h
      · exact Nat.lt_trans h (hp.1 x h')
    · next h =>
      refine List.pairwise_cons.mpr ⟨fun x hx => ?_, ih hp.2 fun y hy => hk y (List.mem_cons_of_mem _ hy)⟩
      rcases mem_tins hx with h' | h'
      · have := hk e (List.mem_cons_self ..)
        subst h'; simp only; omega
      · exact hp.1 x h'

/-- Writing an entry keeps the canonical form. -/
theorem Tbl.wf_tset {α : Type} [DecidableEq α] {d : α} {t : Tbl α} (k : Nat) (v : α) (h : Tbl.wf d t = true) : Tbl.wf d (tset d t k v) = true := by
  have hd := Tbl.wf_sublist (tdel_sublist t k) h
  unfold tset
  split
  · exact hd
  · next hv =>
    rw [Tbl.wf_iff] at hd ⊢
    exact ⟨tins_pairwise _ k v hd.1 (tdel_key t k), fun e he => (mem_tins he).elim (fun h => h ▸ hv) (hd.2 e)⟩

theorem Tbl.wf_tdel {α : Type} [DecidableEq α] {d : α} {t : Tbl α} (k : Nat) (h : Tbl.wf d t = true) : Tbl.wf d (tdel t k) = true :=
  Tbl.wf_sublist (tdel_sublist t k) h

theorem Tbl.wf_tmod {α : Type} [DecidableEq α] {d : α} {t : Tbl α} (k : Nat) (f : α → α) (h : Tbl.wf d t = true) :
    Tbl.wf d (tmod d t k f) = true := Tbl.wf_tset k _ h

theorem Tbl.wf_filter {α : Type} [DecidableEq α] {d : α} {t : Tbl α} (p : Nat × α → Bool) (h : Tbl.wf d t = true) :
    Tbl.wf d (t.filter p) = true := Tbl.wf_sublist List.filter_sublist h

/-- Two canonical tables that read alike at every key are the same table. -/
theorem Tbl.ext {α : Type} [DecidableEq α] {d : α} {t u : Tbl α} (ht : Tbl.wf d t = true) (hu : Tbl.wf d u = true)
    (h : ∀ k, tget d t k = tget d u k) : t = u := by
  induction t generalizing u with
  | nil =>
    cases u with
    | nil => rfl
    | cons e r =>
      have h1 := h e.1
      simp only [tget, if_true] at h1
      exact absurd h1.symm (((Tbl.wf_iff d _).mp hu).2 e (List.mem_cons_self ..))
  | cons e r ih =>
    have hte := (Tbl.wf_iff d _).mp ht
    have hpe := List.pairwise_cons.mp hte.1
    have low : ∀ {t : Tbl α} {k : Nat}, (∀ x ∈ t, k < x.1) → tget d t k = d := by
      intro t k hk
      induction t with
      | nil => rfl
      | cons x r ih =>
        have := hk x (List.mem_cons_self ..)
        simp only [tget, show x.1 ≠ k by omega, if_false]
        exact ih fun y hy => hk y (List.mem_cons_of_mem _ hy)
    cases u with
    | nil =>
      have h1 := h e.1
      simp only [tget, if_true] at h1
      exact absurd h1 (hte.2 e (List.mem_cons_self ..))
    | cons x v =>
      have hux := (Tbl.wf_iff d _).mp hu
      have hpx := List.pairwise_cons.mp hux.1
      have hk : e.1 = x.1 := by
        rcases Nat.lt_trichotomy e.1 x.1 with hl | hl | hl
        · have h1 := h e.1
          rw [show tget d (x :: v) e.1 = d from low fun y hy => (List.mem_cons.mp hy).elim (fun q => q ▸ hl) fun q => Nat.lt_trans hl (hpx.1 y q)] at h1
          simp only [tget, if_true] at h1
          exact absurd h1 (hte.2 e (List.mem_cons_self ..))
        · exact hl
        · have h1 := h x.1
          rw [show tget d (e :: r) x.1 = d from low fun y hy => (List.mem_cons.mp hy).elim (fun q => q ▸ hl) fun q => Nat.lt_trans hl (hpe.1 y q)] at h1
          simp only [tget, if_true] at h1
          exact absurd h1.symm (hux.2 x (List.mem_cons_self ..))
      have hv : e.2 = x.2 := by
        have h1 := h e.1
        simpa [tget, hk] using h1
      have hr : r = v := by
        refine ih (Tbl.wf_sublist (List.sublist_cons_self ..) ht) (Tbl.wf_sublist (List.sublist_cons_self ..) hu) fun k => ?_
        by_cases hke : k = e.1
        · subst hke
          rw [low fun y hy => hpe.1 y hy, low fun y hy => hk ▸ hpx.1 y hy]
        · have h1 := h k
          simpa [tget, Ne.symm hke, hk ▸ Ne.symm hke] using h1
      rw [hr, Prod.ext hk hv]

/-! ### Byte memories -/

@[simp] theorem mread_length (m : Mem) (a n : Nat) : (mread m a n).length = n := by
  induction n generalizing a with
  | zero => rfl
  | succ n ih => simp [mread, ih]

/-- Bytes outside the written range read as before. -/
theorem mbyte_mwrite_out (m : Mem) (a : Nat) (bs : List Byte) (x : Nat) (h : x < a ∨ a + bs.length ≤ x) :
    mbyte (mwrite m a bs) x = mbyte m x := by
  induction bs generalizing m a with
  | nil => rfl
  | cons b r ih =>
    simp only [List.length_cons] at h
    rw [mwrite, ih _ _ (by omega)]
    exact tget_tset_other _ _ _ (by omega)

/-- A byte inside the written range reads as written. -/
theorem mbyte_mwrite_in (m : Mem) (a : Nat) (bs : List Byte) (i : Nat) (h : i < bs.length) :
    mbyte (mwrite m a bs) (a + i) = bs[i] := by
  induction bs generalizing m a i with
  | nil => simp at h
  | cons b r ih =>
    rw [mwrite]
    cases i with
    | zero =>
      rw [mbyte_mwrite_out _ _ _ _ (by omega)]
      exact tget_tset_self _ _ _ _
    | succ i =>
      have := ih (tset 0 m a b) (a + 1) i (by simpa using h)
      rw [show a + 1 + i = a + (i + 1) by omega] at this
      simpa using this

/-- What was written is read back. -/
theorem mread_mwrite_self (m : Mem) (a : Nat) (bs : List Byte) : mread (mwrite m a bs) a bs.length = bs := by
  have key : ∀ (n i : Nat), i + n = bs.length → mread (mwrite m a bs) (a + i) n = bs.drop i := by
    intro n
    induction n with
    | zero => intro i h; simp [mread, List.drop_eq_nil_of_le (show bs.length ≤ i by omega)]
    | succ n ih =>
      intro i h
      rw [mread, mbyte_mwrite_in m a bs i (by omega), show a + i + 1 = a + (i + 1) by omega, ih (i + 1) (by omega)]
      exact (List.drop_eq_getElem_cons (by omega)).symm
  simpa using key bs.length 0 (by omega)

theorem mread_mwrite_out (m : Mem) (a : Nat) (bs : List Byte) (x n : Nat) (h : x + n ≤ a ∨ a + bs.length ≤ x) :
    mread (mwrite m a bs) x n = mread m x n := by
  induction n generalizing x with
  | zero => rfl
  | succ n ih =>
    simp only [mread]
    rw [mbyte_mwrite_out _ _ _ _ (by omega), ih _ (by omega)]

/-- A part of what is read is a read of that part. -/
theorem slice_mread (m : Mem) (a n i w : Nat) (h : i + w ≤ n) : slice (mread m a n) i w = mread m (a + i) w := by
  unfold slice
  induction i generalizing a n with
  | zero =>
    induction w generalizing a n with
    | zero => simp [mread]
    | succ w ih =>
      obtain ⟨n, rfl⟩ : ∃ k, n = k + 1 := ⟨n - 1, by omega⟩
      simpa [mread] using ih (a + 1) n (by omega)
  | succ i ih =>
    obtain ⟨n, rfl⟩ : ∃ k, n = k + 1 := ⟨n - 1, by omega⟩
    rw [mread, List.drop_succ_cons, ih (a + 1) n (by omega), show a + 1 + i = a + (i + 1) by omega]

/-- A number at an offset of what is read. -/
theorem leAt_mread (m : Mem) (a n i w : Nat) (h : i + w ≤ n) : leAt (mread m a n) i w = leNat (mread m (a + i) w) :=
  congrArg leNat (slice_mread m a n i w h)

/-- A byte write keeps the canonical form of a memory. -/
theorem Memory.wf_mwrite {m : Mem} (a : Nat) (bs : List Byte) (h : Memory.wf m = true) : Memory.wf (mwrite m a bs) = true := by
  induction bs generalizing m a with
  | nil => exact h
  | cons b r ih => exact ih _ (Tbl.wf_tset a b h)

/-- Zeroing keeps the canonical form of a memory. -/
theorem Memory.wf_mzero {m : Mem} (a n : Nat) (h : Memory.wf m = true) : Memory.wf (mzero m a n) = true := Tbl.wf_filter _ h

theorem Memory.wf_nil : Memory.wf [] = true := rfl

/-! ### Little-endian numbers -/

@[simp] theorem natLe_length (n v : Nat) : (natLe n v).length = n := by
  induction n generalizing v with
  | zero => rfl
  | succ n ih => simp [natLe, ih]

/-- Bytes of a number give the number back, modulo what fits. -/
theorem leNat_natLe (n v : Nat) : leNat (natLe n v) = v % 256 ^ n := by
  induction n generalizing v with
  | zero => simp [natLe, leNat, Nat.mod_one]
  | succ n ih =>
    simp only [natLe, leNat, ih, BitVec.toNat_ofNat]
    show v % 256 + 256 * (v / 256 % 256 ^ n) = v % 256 ^ (n + 1)
    rw [show 256 ^ (n + 1) = 256 * 256 ^ n by ring, Nat.mod_mul]

/-- What a chain of reads that ends well has met. -/
theorem allOk_ok {ε α β : Type} {x : Except ε α} {f : α → Except ε β} {b : β} (h : allOk x f = .ok b) : ∃ a, x = .ok a ∧ f a = .ok b := by
  cases x with
  | error e => cases h
  | ok a => exact ⟨a, rfl, h⟩

/-- Every element of a collected list is what the read of its element gave. -/
theorem collect_ok {ε α β : Type} (f : α → Except ε β) : ∀ (xs : List α) (ys : List β), collect f xs = .ok ys →
    ys.length = xs.length ∧ ∀ (n : Nat) x y, xs[n]? = some x → ys[n]? = some y → f x = .ok y := by
  intro xs
  induction xs with
  | nil => intro ys h; cases h; simp
  | cons a r ih =>
    intro ys h
    obtain ⟨b, h1, h2⟩ := allOk_ok h
    obtain ⟨bs, h3, h4⟩ := allOk_ok h2
    cases h4
    obtain ⟨hl, hi⟩ := ih _ h3
    refine ⟨by simp [hl], fun n x y hx hy => ?_⟩
    cases n with
    | succ n => exact hi n x y (by simpa using hx) (by simpa using hy)
    | zero => simp at hx hy; subst hx hy; exact h1

end Sys2Proof.Machine
end

