-- ==== Sys2Proof/Laws/State.lean ====
section
/-!
SUPPORT. What the named updates of State leave alone, one lemma per field and update, and what they write.
-/

namespace Sys2Proof.Machine

/-! ### State.setCore -/

@[simp] theorem State.setCore_sched (s : State) (c : Nat) (k : Core) : (s.setCore c k).sched = s.sched := rfl
@[simp] theorem State.setCore_cur (s : State) (c : Nat) (k : Core) : (s.setCore c k).cur = s.cur := rfl
@[simp] theorem State.setCore_fresh (s : State) (c : Nat) (k : Core) : (s.setCore c k).fresh = s.fresh := rfl
@[simp] theorem State.setCore_nextId (s : State) (c : Nat) (k : Core) : (s.setCore c k).nextId = s.nextId := rfl
@[simp] theorem State.setCore_pace (s : State) (c : Nat) (k : Core) : (s.setCore c k).pace = s.pace := rfl
@[simp] theorem State.setCore_window (s : State) (c : Nat) (k : Core) : (s.setCore c k).window = s.window := rfl
@[simp] theorem State.setCore_mem (s : State) (c : Nat) (k : Core) : (s.setCore c k).mem = s.mem := rfl
@[simp] theorem State.setCore_hostMem (s : State) (c : Nat) (k : Core) : (s.setCore c k).hostMem = s.hostMem := rfl
@[simp] theorem State.setCore_poisoned (s : State) (c : Nat) (k : Core) : (s.setCore c k).poisoned = s.poisoned := rfl
@[simp] theorem State.setCore_plots (s : State) (c : Nat) (k : Core) : (s.setCore c k).plots = s.plots := rfl
@[simp] theorem State.setCore_lease (s : State) (c : Nat) (k : Core) : (s.setCore c k).lease = s.lease := rfl
@[simp] theorem State.setCore_flight (s : State) (c : Nat) (k : Core) : (s.setCore c k).flight = s.flight := rfl
@[simp] theorem State.setCore_accs (s : State) (c : Nat) (k : Core) : (s.setCore c k).accs = s.accs := rfl
@[simp] theorem State.setCore_walks (s : State) (c : Nat) (k : Core) : (s.setCore c k).walks = s.walks := rfl
@[simp] theorem State.setCore_squares (s : State) (c : Nat) (k : Core) : (s.setCore c k).squares = s.squares := rfl
@[simp] theorem State.setCore_barMsgs (s : State) (c : Nat) (k : Core) : (s.setCore c k).barMsgs = s.barMsgs := rfl
@[simp] theorem State.setCore_waiters (s : State) (c : Nat) (k : Core) : (s.setCore c k).waiters = s.waiters := rfl
@[simp] theorem State.setCore_dies (s : State) (c : Nat) (k : Core) : (s.setCore c k).dies = s.dies := rfl
@[simp] theorem State.setCore_links (s : State) (c : Nat) (k : Core) : (s.setCore c k).links = s.links := rfl
@[simp] theorem State.setCore_hostPend (s : State) (c : Nat) (k : Core) : (s.setCore c k).hostPend = s.hostPend := rfl
@[simp] theorem State.setCore_hostLines (s : State) (c : Nat) (k : Core) : (s.setCore c k).hostLines = s.hostLines := rfl
@[simp] theorem State.setCore_frames (s : State) (c : Nat) (k : Core) : (s.setCore c k).frames = s.frames := rfl
@[simp] theorem State.setCore_resync (s : State) (c : Nat) (k : Core) : (s.setCore c k).resync = s.resync := rfl
@[simp] theorem State.setCore_engines (s : State) (c : Nat) (k : Core) : (s.setCore c k).engines = s.engines := rfl
@[simp] theorem State.setCore_groups (s : State) (c : Nat) (k : Core) : (s.setCore c k).groups = s.groups := rfl
@[simp] theorem State.setCore_queue (s : State) (c : Nat) (k : Core) : (s.setCore c k).queue = s.queue := rfl
@[simp] theorem State.setCore_overflow (s : State) (c : Nat) (k : Core) : (s.setCore c k).overflow = s.overflow := rfl
@[simp] theorem State.setCore_claimed (s : State) (c : Nat) (k : Core) : (s.setCore c k).claimed = s.claimed := rfl
@[simp] theorem State.setCore_waits (s : State) (c : Nat) (k : Core) : (s.setCore c k).waits = s.waits := rfl
@[simp] theorem State.setCore_launches (s : State) (c : Nat) (k : Core) : (s.setCore c k).launches = s.launches := rfl
@[simp] theorem State.setCore_clusters (s : State) (c : Nat) (k : Core) : (s.setCore c k).clusters = s.clusters := rfl
@[simp] theorem State.setCore_eth (s : State) (c : Nat) (k : Core) : (s.setCore c k).eth = s.eth := rfl
@[simp] theorem State.setCore_shadow (s : State) (c : Nat) (k : Core) : (s.setCore c k).shadow = s.shadow := rfl
@[simp] theorem State.setCore_watched (s : State) (c : Nat) (k : Core) : (s.setCore c k).watched = s.watched := rfl
@[simp] theorem State.setCore_acCounters (s : State) (c : Nat) (k : Core) : (s.setCore c k).acCounters = s.acCounters := rfl
@[simp] theorem State.setCore_splits (s : State) (c : Nat) (k : Core) : (s.setCore c k).splits = s.splits := rfl
@[simp] theorem State.setCore_inval (s : State) (c : Nat) (k : Core) : (s.setCore c k).inval = s.inval := rfl
@[simp] theorem State.setCore_regs (s : State) (c : Nat) (k : Core) : (s.setCore c k).regs = s.regs := rfl
@[simp] theorem State.setCore_powered (s : State) (c : Nat) (k : Core) : (s.setCore c k).powered = s.powered := rfl
@[simp] theorem State.setCore_hostOut (s : State) (c : Nat) (k : Core) : (s.setCore c k).hostOut = s.hostOut := rfl
@[simp] theorem State.setCore_armCount (s : State) (c : Nat) (k : Core) : (s.setCore c k).armCount = s.armCount := rfl
@[simp] theorem State.setCore_bridges (s : State) (c : Nat) (k : Core) : (s.setCore c k).bridges = s.bridges := rfl
@[simp] theorem State.setCore_rollback (s : State) (c : Nat) (k : Core) : (s.setCore c k).rollback = s.rollback := rfl
@[simp] theorem State.setCore_images (s : State) (c : Nat) (k : Core) : (s.setCore c k).images = s.images := rfl

/-! ### State.modCore -/

@[simp] theorem State.modCore_sched (s : State) (c : Nat) (f : Core → Core) : (s.modCore c f).sched = s.sched := rfl
@[simp] theorem State.modCore_cur (s : State) (c : Nat) (f : Core → Core) : (s.modCore c f).cur = s.cur := rfl
@[simp] theorem State.modCore_fresh (s : State) (c : Nat) (f : Core → Core) : (s.modCore c f).fresh = s.fresh := rfl
@[simp] theorem State.modCore_nextId (s : State) (c : Nat) (f : Core → Core) : (s.modCore c f).nextId = s.nextId := rfl
@[simp] theorem State.modCore_pace (s : State) (c : Nat) (f : Core → Core) : (s.modCore c f).pace = s.pace := rfl
@[simp] theorem State.modCore_window (s : State) (c : Nat) (f : Core → Core) : (s.modCore c f).window = s.window := rfl
@[simp] theorem State.modCore_mem (s : State) (c : Nat) (f : Core → Core) : (s.modCore c f).mem = s.mem := rfl
@[simp] theorem State.modCore_hostMem (s : State) (c : Nat) (f : Core → Core) : (s.modCore c f).hostMem = s.hostMem := rfl
@[simp] theorem State.modCore_poisoned (s : State) (c : Nat) (f : Core → Core) : (s.modCore c f).poisoned = s.poisoned := rfl
@[simp] theorem State.modCore_plots (s : State) (c : Nat) (f : Core → Core) : (s.modCore c f).plots = s.plots := rfl
@[simp] theorem State.modCore_lease (s : State) (c : Nat) (f : Core → Core) : (s.modCore c f).lease = s.lease := rfl
@[simp] theorem State.modCore_flight (s : State) (c : Nat) (f : Core → Core) : (s.modCore c f).flight = s.flight := rfl
@[simp] theorem State.modCore_accs (s : State) (c : Nat) (f : Core → Core) : (s.modCore c f).accs = s.accs := rfl
@[simp] theorem State.modCore_walks (s : State) (c : Nat) (f : Core → Core) : (s.modCore c f).walks = s.walks := rfl
@[simp] theorem State.modCore_squares (s : State) (c : Nat) (f : Core → Core) : (s.modCore c f).squares = s.squares := rfl
@[simp] theorem State.modCore_barMsgs (s : State) (c : Nat) (f : Core → Core) : (s.modCore c f).barMsgs = s.barMsgs := rfl
@[simp] theorem State.modCore_waiters (s : State) (c : Nat) (f : Core → Core) : (s.modCore c f).waiters = s.waiters := rfl
@[simp] theorem State.modCore_dies (s : State) (c : Nat) (f : Core → Core) : (s.modCore c f).dies = s.dies := rfl
@[simp] theorem State.modCore_links (s : State) (c : Nat) (f : Core → Core) : (s.modCore c f).links = s.links := rfl
@[simp] theorem State.modCore_hostPend (s : State) (c : Nat) (f : Core → Core) : (s.modCore c f).hostPend = s.hostPend := rfl
@[simp] theorem State.modCore_hostLines (s : State) (c : Nat) (f : Core → Core) : (s.modCore c f).hostLines = s.hostLines := rfl
@[simp] theorem State.modCore_frames (s : State) (c : Nat) (f : Core → Core) : (s.modCore c f).frames = s.frames := rfl
@[simp] theorem State.modCore_resync (s : State) (c : Nat) (f : Core → Core) : (s.modCore c f).resync = s.resync := rfl
@[simp] theorem State.modCore_engines (s : State) (c : Nat) (f : Core → Core) : (s.modCore c f).engines = s.engines := rfl
@[simp] theorem State.modCore_groups (s : State) (c : Nat) (f : Core → Core) : (s.modCore c f).groups = s.groups := rfl
@[simp] theorem State.modCore_queue (s : State) (c : Nat) (f : Core → Core) : (s.modCore c f).queue = s.queue := rfl
@[simp] theorem State.modCore_overflow (s : State) (c : Nat) (f : Core → Core) : (s.modCore c f).overflow = s.overflow := rfl
@[simp] theorem State.modCore_claimed (s : State) (c : Nat) (f : Core → Core) : (s.modCore c f).claimed = s.claimed := rfl
@[simp] theorem State.modCore_waits (s : State) (c : Nat) (f : Core → Core) : (s.modCore c f).waits = s.waits := rfl
@[simp] theorem State.modCore_launches (s : State) (c : Nat) (f : Core → Core) : (s.modCore c f).launches = s.launches := rfl
@[simp] theorem State.modCore_clusters (s : State) (c : Nat) (f : Core → Core) : (s.modCore c f).clusters = s.clusters := rfl
@[simp] theorem State.modCore_eth (s : State) (c : Nat) (f : Core → Core) : (s.modCore c f).eth = s.eth := rfl
@[simp] theorem State.modCore_shadow (s : State) (c : Nat) (f : Core → Core) : (s.modCore c f).shadow = s.shadow := rfl
@[simp] theorem State.modCore_watched (s : State) (c : Nat) (f : Core → Core) : (s.modCore c f).watched = s.watched := rfl
@[simp] theorem State.modCore_acCounters (s : State) (c : Nat) (f : Core → Core) : (s.modCore c f).acCounters = s.acCounters := rfl
@[simp] theorem State.modCore_splits (s : State) (c : Nat) (f : Core → Core) : (s.modCore c f).splits = s.splits := rfl
@[simp] theorem State.modCore_inval (s : State) (c : Nat) (f : Core → Core) : (s.modCore c f).inval = s.inval := rfl
@[simp] theorem State.modCore_regs (s : State) (c : Nat) (f : Core → Core) : (s.modCore c f).regs = s.regs := rfl
@[simp] theorem State.modCore_powered (s : State) (c : Nat) (f : Core → Core) : (s.modCore c f).powered = s.powered := rfl
@[simp] theorem State.modCore_hostOut (s : State) (c : Nat) (f : Core → Core) : (s.modCore c f).hostOut = s.hostOut := rfl
@[simp] theorem State.modCore_armCount (s : State) (c : Nat) (f : Core → Core) : (s.modCore c f).armCount = s.armCount := rfl
@[simp] theorem State.modCore_bridges (s : State) (c : Nat) (f : Core → Core) : (s.modCore c f).bridges = s.bridges := rfl
@[simp] theorem State.modCore_rollback (s : State) (c : Nat) (f : Core → Core) : (s.modCore c f).rollback = s.rollback := rfl
@[simp] theorem State.modCore_images (s : State) (c : Nat) (f : Core → Core) : (s.modCore c f).images = s.images := rfl

/-! ### State.modPort -/

@[simp] theorem State.modPort_sched (s : State) (c p : Nat) (f : Port → Port) : (s.modPort c p f).sched = s.sched := rfl
@[simp] theorem State.modPort_cur (s : State) (c p : Nat) (f : Port → Port) : (s.modPort c p f).cur = s.cur := rfl
@[simp] theorem State.modPort_fresh (s : State) (c p : Nat) (f : Port → Port) : (s.modPort c p f).fresh = s.fresh := rfl
@[simp] theorem State.modPort_nextId (s : State) (c p : Nat) (f : Port → Port) : (s.modPort c p f).nextId = s.nextId := rfl
@[simp] theorem State.modPort_pace (s : State) (c p : Nat) (f : Port → Port) : (s.modPort c p f).pace = s.pace := rfl
@[simp] theorem State.modPort_window (s : State) (c p : Nat) (f : Port → Port) : (s.modPort c p f).window = s.window := rfl
@[simp] theorem State.modPort_mem (s : State) (c p : Nat) (f : Port → Port) : (s.modPort c p f).mem = s.mem := rfl
@[simp] theorem State.modPort_hostMem (s : State) (c p : Nat) (f : Port → Port) : (s.modPort c p f).hostMem = s.hostMem := rfl
@[simp] theorem State.modPort_poisoned (s : State) (c p : Nat) (f : Port → Port) : (s.modPort c p f).poisoned = s.poisoned := rfl
@[simp] theorem State.modPort_plots (s : State) (c p : Nat) (f : Port → Port) : (s.modPort c p f).plots = s.plots := rfl
@[simp] theorem State.modPort_lease (s : State) (c p : Nat) (f : Port → Port) : (s.modPort c p f).lease = s.lease := rfl
@[simp] theorem State.modPort_flight (s : State) (c p : Nat) (f : Port → Port) : (s.modPort c p f).flight = s.flight := rfl
@[simp] theorem State.modPort_accs (s : State) (c p : Nat) (f : Port → Port) : (s.modPort c p f).accs = s.accs := rfl
@[simp] theorem State.modPort_walks (s : State) (c p : Nat) (f : Port → Port) : (s.modPort c p f).walks = s.walks := rfl
@[simp] theorem State.modPort_squares (s : State) (c p : Nat) (f : Port → Port) : (s.modPort c p f).squares = s.squares := rfl
@[simp] theorem State.modPort_barMsgs (s : State) (c p : Nat) (f : Port → Port) : (s.modPort c p f).barMsgs = s.barMsgs := rfl
@[simp] theorem State.modPort_waiters (s : State) (c p : Nat) (f : Port → Port) : (s.modPort c p f).waiters = s.waiters := rfl
@[simp] theorem State.modPort_dies (s : State) (c p : Nat) (f : Port → Port) : (s.modPort c p f).dies = s.dies := rfl
@[simp] theorem State.modPort_links (s : State) (c p : Nat) (f : Port → Port) : (s.modPort c p f).links = s.links := rfl
@[simp] theorem State.modPort_hostPend (s : State) (c p : Nat) (f : Port → Port) : (s.modPort c p f).hostPend = s.hostPend := rfl
@[simp] theorem State.modPort_hostLines (s : State) (c p : Nat) (f : Port → Port) : (s.modPort c p f).hostLines = s.hostLines := rfl
@[simp] theorem State.modPort_frames (s : State) (c p : Nat) (f : Port → Port) : (s.modPort c p f).frames = s.frames := rfl
@[simp] theorem State.modPort_resync (s : State) (c p : Nat) (f : Port → Port) : (s.modPort c p f).resync = s.resync := rfl
@[simp] theorem State.modPort_engines (s : State) (c p : Nat) (f : Port → Port) : (s.modPort c p f).engines = s.engines := rfl
@[simp] theorem State.modPort_groups (s : State) (c p : Nat) (f : Port → Port) : (s.modPort c p f).groups = s.groups := rfl
@[simp] theorem State.modPort_queue (s : State) (c p : Nat) (f : Port → Port) : (s.modPort c p f).queue = s.queue := rfl
@[simp] theorem State.modPort_overflow (s : State) (c p : Nat) (f : Port → Port) : (s.modPort c p f).overflow = s.overflow := rfl
@[simp] theorem State.modPort_claimed (s : State) (c p : Nat) (f : Port → Port) : (s.modPort c p f).claimed = s.claimed := rfl
@[simp] theorem State.modPort_waits (s : State) (c p : Nat) (f : Port → Port) : (s.modPort c p f).waits = s.waits := rfl
@[simp] theorem State.modPort_launches (s : State) (c p : Nat) (f : Port → Port) : (s.modPort c p f).launches = s.launches := rfl
@[simp] theorem State.modPort_clusters (s : State) (c p : Nat) (f : Port → Port) : (s.modPort c p f).clusters = s.clusters := rfl
@[simp] theorem State.modPort_eth (s : State) (c p : Nat) (f : Port → Port) : (s.modPort c p f).eth = s.eth := rfl
@[simp] theorem State.modPort_shadow (s : State) (c p : Nat) (f : Port → Port) : (s.modPort c p f).shadow = s.shadow := rfl
@[simp] theorem State.modPort_watched (s : State) (c p : Nat) (f : Port → Port) : (s.modPort c p f).watched = s.watched := rfl
@[simp] theorem State.modPort_acCounters (s : State) (c p : Nat) (f : Port → Port) : (s.modPort c p f).acCounters = s.acCounters := rfl
@[simp] theorem State.modPort_splits (s : State) (c p : Nat) (f : Port → Port) : (s.modPort c p f).splits = s.splits := rfl
@[simp] theorem State.modPort_inval (s : State) (c p : Nat) (f : Port → Port) : (s.modPort c p f).inval = s.inval := rfl
@[simp] theorem State.modPort_regs (s : State) (c p : Nat) (f : Port → Port) : (s.modPort c p f).regs = s.regs := rfl
@[simp] theorem State.modPort_powered (s : State) (c p : Nat) (f : Port → Port) : (s.modPort c p f).powered = s.powered := rfl
@[simp] theorem State.modPort_hostOut (s : State) (c p : Nat) (f : Port → Port) : (s.modPort c p f).hostOut = s.hostOut := rfl
@[simp] theorem State.modPort_armCount (s : State) (c p : Nat) (f : Port → Port) : (s.modPort c p f).armCount = s.armCount := rfl
@[simp] theorem State.modPort_bridges (s : State) (c p : Nat) (f : Port → Port) : (s.modPort c p f).bridges = s.bridges := rfl
@[simp] theorem State.modPort_rollback (s : State) (c p : Nat) (f : Port → Port) : (s.modPort c p f).rollback = s.rollback := rfl
@[simp] theorem State.modPort_images (s : State) (c p : Nat) (f : Port → Port) : (s.modPort c p f).images = s.images := rfl

/-! ### State.modCell -/

@[simp] theorem State.modCell_sched (s : State) (c i : Nat) (f : Cell → Cell) : (s.modCell c i f).sched = s.sched := rfl
@[simp] theorem State.modCell_cur (s : State) (c i : Nat) (f : Cell → Cell) : (s.modCell c i f).cur = s.cur := rfl
@[simp] theorem State.modCell_fresh (s : State) (c i : Nat) (f : Cell → Cell) : (s.modCell c i f).fresh = s.fresh := rfl
@[simp] theorem State.modCell_nextId (s : State) (c i : Nat) (f : Cell → Cell) : (s.modCell c i f).nextId = s.nextId := rfl
@[simp] theorem State.modCell_pace (s : State) (c i : Nat) (f : Cell → Cell) : (s.modCell c i f).pace = s.pace := rfl
@[simp] theorem State.modCell_window (s : State) (c i : Nat) (f : Cell → Cell) : (s.modCell c i f).window = s.window := rfl
@[simp] theorem State.modCell_mem (s : State) (c i : Nat) (f : Cell → Cell) : (s.modCell c i f).mem = s.mem := rfl
@[simp] theorem State.modCell_hostMem (s : State) (c i : Nat) (f : Cell → Cell) : (s.modCell c i f).hostMem = s.hostMem := rfl
@[simp] theorem State.modCell_poisoned (s : State) (c i : Nat) (f : Cell → Cell) : (s.modCell c i f).poisoned = s.poisoned := rfl
@[simp] theorem State.modCell_plots (s : State) (c i : Nat) (f : Cell → Cell) : (s.modCell c i f).plots = s.plots := rfl
@[simp] theorem State.modCell_lease (s : State) (c i : Nat) (f : Cell → Cell) : (s.modCell c i f).lease = s.lease := rfl
@[simp] theorem State.modCell_flight (s : State) (c i : Nat) (f : Cell → Cell) : (s.modCell c i f).flight = s.flight := rfl
@[simp] theorem State.modCell_accs (s : State) (c i : Nat) (f : Cell → Cell) : (s.modCell c i f).accs = s.accs := rfl
@[simp] theorem State.modCell_walks (s : State) (c i : Nat) (f : Cell → Cell) : (s.modCell c i f).walks = s.walks := rfl
@[simp] theorem State.modCell_squares (s : State) (c i : Nat) (f : Cell → Cell) : (s.modCell c i f).squares = s.squares := rfl
@[simp] theorem State.modCell_barMsgs (s : State) (c i : Nat) (f : Cell → Cell) : (s.modCell c i f).barMsgs = s.barMsgs := rfl
@[simp] theorem State.modCell_waiters (s : State) (c i : Nat) (f : Cell → Cell) : (s.modCell c i f).waiters = s.waiters := rfl
@[simp] theorem State.modCell_dies (s : State) (c i : Nat) (f : Cell → Cell) : (s.modCell c i f).dies = s.dies := rfl
@[simp] theorem State.modCell_links (s : State) (c i : Nat) (f : Cell → Cell) : (s.modCell c i f).links = s.links := rfl
@[simp] theorem State.modCell_hostPend (s : State) (c i : Nat) (f : Cell → Cell) : (s.modCell c i f).hostPend = s.hostPend := rfl
@[simp] theorem State.modCell_hostLines (s : State) (c i : Nat) (f : Cell → Cell) : (s.modCell c i f).hostLines = s.hostLines := rfl
@[simp] theorem State.modCell_frames (s : State) (c i : Nat) (f : Cell → Cell) : (s.modCell c i f).frames = s.frames := rfl
@[simp] theorem State.modCell_resync (s : State) (c i : Nat) (f : Cell → Cell) : (s.modCell c i f).resync = s.resync := rfl
@[simp] theorem State.modCell_engines (s : State) (c i : Nat) (f : Cell → Cell) : (s.modCell c i f).engines = s.engines := rfl
@[simp] theorem State.modCell_groups (s : State) (c i : Nat) (f : Cell → Cell) : (s.modCell c i f).groups = s.groups := rfl
@[simp] theorem State.modCell_queue (s : State) (c i : Nat) (f : Cell → Cell) : (s.modCell c i f).queue = s.queue := rfl
@[simp] theorem State.modCell_overflow (s : State) (c i : Nat) (f : Cell → Cell) : (s.modCell c i f).overflow = s.overflow := rfl
@[simp] theorem State.modCell_claimed (s : State) (c i : Nat) (f : Cell → Cell) : (s.modCell c i f).claimed = s.claimed := rfl
@[simp] theorem State.modCell_waits (s : State) (c i : Nat) (f : Cell → Cell) : (s.modCell c i f).waits = s.waits := rfl
@[simp] theorem State.modCell_launches (s : State) (c i : Nat) (f : Cell → Cell) : (s.modCell c i f).launches = s.launches := rfl
@[simp] theorem State.modCell_clusters (s : State) (c i : Nat) (f : Cell → Cell) : (s.modCell c i f).clusters = s.clusters := rfl
@[simp] theorem State.modCell_eth (s : State) (c i : Nat) (f : Cell → Cell) : (s.modCell c i f).eth = s.eth := rfl
@[simp] theorem State.modCell_shadow (s : State) (c i : Nat) (f : Cell → Cell) : (s.modCell c i f).shadow = s.shadow := rfl
@[simp] theorem State.modCell_watched (s : State) (c i : Nat) (f : Cell → Cell) : (s.modCell c i f).watched = s.watched := rfl
@[simp] theorem State.modCell_acCounters (s : State) (c i : Nat) (f : Cell → Cell) : (s.modCell c i f).acCounters = s.acCounters := rfl
@[simp] theorem State.modCell_splits (s : State) (c i : Nat) (f : Cell → Cell) : (s.modCell c i f).splits = s.splits := rfl
@[simp] theorem State.modCell_inval (s : State) (c i : Nat) (f : Cell → Cell) : (s.modCell c i f).inval = s.inval := rfl
@[simp] theorem State.modCell_regs (s : State) (c i : Nat) (f : Cell → Cell) : (s.modCell c i f).regs = s.regs := rfl
@[simp] theorem State.modCell_powered (s : State) (c i : Nat) (f : Cell → Cell) : (s.modCell c i f).powered = s.powered := rfl
@[simp] theorem State.modCell_hostOut (s : State) (c i : Nat) (f : Cell → Cell) : (s.modCell c i f).hostOut = s.hostOut := rfl
@[simp] theorem State.modCell_armCount (s : State) (c i : Nat) (f : Cell → Cell) : (s.modCell c i f).armCount = s.armCount := rfl
@[simp] theorem State.modCell_bridges (s : State) (c i : Nat) (f : Cell → Cell) : (s.modCell c i f).bridges = s.bridges := rfl
@[simp] theorem State.modCell_rollback (s : State) (c i : Nat) (f : Cell → Cell) : (s.modCell c i f).rollback = s.rollback := rfl
@[simp] theorem State.modCell_images (s : State) (c i : Nat) (f : Cell → Cell) : (s.modCell c i f).images = s.images := rfl

/-! ### State.modMat -/

@[simp] theorem State.modMat_sched (s : State) (c : Nat) (f : Matrix → Matrix) : (s.modMat c f).sched = s.sched := rfl
@[simp] theorem State.modMat_cur (s : State) (c : Nat) (f : Matrix → Matrix) : (s.modMat c f).cur = s.cur := rfl
@[simp] theorem State.modMat_fresh (s : State) (c : Nat) (f : Matrix → Matrix) : (s.modMat c f).fresh = s.fresh := rfl
@[simp] theorem State.modMat_nextId (s : State) (c : Nat) (f : Matrix → Matrix) : (s.modMat c f).nextId = s.nextId := rfl
@[simp] theorem State.modMat_pace (s : State) (c : Nat) (f : Matrix → Matrix) : (s.modMat c f).pace = s.pace := rfl
@[simp] theorem State.modMat_window (s : State) (c : Nat) (f : Matrix → Matrix) : (s.modMat c f).window = s.window := rfl
@[simp] theorem State.modMat_mem (s : State) (c : Nat) (f : Matrix → Matrix) : (s.modMat c f).mem = s.mem := rfl
@[simp] theorem State.modMat_hostMem (s : State) (c : Nat) (f : Matrix → Matrix) : (s.modMat c f).hostMem = s.hostMem := rfl
@[simp] theorem State.modMat_poisoned (s : State) (c : Nat) (f : Matrix → Matrix) : (s.modMat c f).poisoned = s.poisoned := rfl
@[simp] theorem State.modMat_plots (s : State) (c : Nat) (f : Matrix → Matrix) : (s.modMat c f).plots = s.plots := rfl
@[simp] theorem State.modMat_lease (s : State) (c : Nat) (f : Matrix → Matrix) : (s.modMat c f).lease = s.lease := rfl
@[simp] theorem State.modMat_flight (s : State) (c : Nat) (f : Matrix → Matrix) : (s.modMat c f).flight = s.flight := rfl
@[simp] theorem State.modMat_accs (s : State) (c : Nat) (f : Matrix → Matrix) : (s.modMat c f).accs = s.accs := rfl
@[simp] theorem State.modMat_walks (s : State) (c : Nat) (f : Matrix → Matrix) : (s.modMat c f).walks = s.walks := rfl
@[simp] theorem State.modMat_squares (s : State) (c : Nat) (f : Matrix → Matrix) : (s.modMat c f).squares = s.squares := rfl
@[simp] theorem State.modMat_barMsgs (s : State) (c : Nat) (f : Matrix → Matrix) : (s.modMat c f).barMsgs = s.barMsgs := rfl
@[simp] theorem State.modMat_waiters (s : State) (c : Nat) (f : Matrix → Matrix) : (s.modMat c f).waiters = s.waiters := rfl
@[simp] theorem State.modMat_dies (s : State) (c : Nat) (f : Matrix → Matrix) : (s.modMat c f).dies = s.dies := rfl
@[simp] theorem State.modMat_links (s : State) (c : Nat) (f : Matrix → Matrix) : (s.modMat c f).links = s.links := rfl
@[simp] theorem State.modMat_hostPend (s : State) (c : Nat) (f : Matrix → Matrix) : (s.modMat c f).hostPend = s.hostPend := rfl
@[simp] theorem State.modMat_hostLines (s : State) (c : Nat) (f : Matrix → Matrix) : (s.modMat c f).hostLines = s.hostLines := rfl
@[simp] theorem State.modMat_frames (s : State) (c : Nat) (f : Matrix → Matrix) : (s.modMat c f).frames = s.frames := rfl
@[simp] theorem State.modMat_resync (s : State) (c : Nat) (f : Matrix → Matrix) : (s.modMat c f).resync = s.resync := rfl
@[simp] theorem State.modMat_engines (s : State) (c : Nat) (f : Matrix → Matrix) : (s.modMat c f).engines = s.engines := rfl
@[simp] theorem State.modMat_groups (s : State) (c : Nat) (f : Matrix → Matrix) : (s.modMat c f).groups = s.groups := rfl
@[simp] theorem State.modMat_queue (s : State) (c : Nat) (f : Matrix → Matrix) : (s.modMat c f).queue = s.queue := rfl
@[simp] theorem State.modMat_overflow (s : State) (c : Nat) (f : Matrix → Matrix) : (s.modMat c f).overflow = s.overflow := rfl
@[simp] theorem State.modMat_claimed (s : State) (c : Nat) (f : Matrix → Matrix) : (s.modMat c f).claimed = s.claimed := rfl
@[simp] theorem State.modMat_waits (s : State) (c : Nat) (f : Matrix → Matrix) : (s.modMat c f).waits = s.waits := rfl
@[simp] theorem State.modMat_launches (s : State) (c : Nat) (f : Matrix → Matrix) : (s.modMat c f).launches = s.launches := rfl
@[simp] theorem State.modMat_clusters (s : State) (c : Nat) (f : Matrix → Matrix) : (s.modMat c f).clusters = s.clusters := rfl
@[simp] theorem State.modMat_eth (s : State) (c : Nat) (f : Matrix → Matrix) : (s.modMat c f).eth = s.eth := rfl
@[simp] theorem State.modMat_shadow (s : State) (c : Nat) (f : Matrix → Matrix) : (s.modMat c f).shadow = s.shadow := rfl
@[simp] theorem State.modMat_watched (s : State) (c : Nat) (f : Matrix → Matrix) : (s.modMat c f).watched = s.watched := rfl
@[simp] theorem State.modMat_acCounters (s : State) (c : Nat) (f : Matrix → Matrix) : (s.modMat c f).acCounters = s.acCounters := rfl
@[simp] theorem State.modMat_splits (s : State) (c : Nat) (f : Matrix → Matrix) : (s.modMat c f).splits = s.splits := rfl
@[simp] theorem State.modMat_inval (s : State) (c : Nat) (f : Matrix → Matrix) : (s.modMat c f).inval = s.inval := rfl
@[simp] theorem State.modMat_regs (s : State) (c : Nat) (f : Matrix → Matrix) : (s.modMat c f).regs = s.regs := rfl
@[simp] theorem State.modMat_powered (s : State) (c : Nat) (f : Matrix → Matrix) : (s.modMat c f).powered = s.powered := rfl
@[simp] theorem State.modMat_hostOut (s : State) (c : Nat) (f : Matrix → Matrix) : (s.modMat c f).hostOut = s.hostOut := rfl
@[simp] theorem State.modMat_armCount (s : State) (c : Nat) (f : Matrix → Matrix) : (s.modMat c f).armCount = s.armCount := rfl
@[simp] theorem State.modMat_bridges (s : State) (c : Nat) (f : Matrix → Matrix) : (s.modMat c f).bridges = s.bridges := rfl
@[simp] theorem State.modMat_rollback (s : State) (c : Nat) (f : Matrix → Matrix) : (s.modMat c f).rollback = s.rollback := rfl
@[simp] theorem State.modMat_images (s : State) (c : Nat) (f : Matrix → Matrix) : (s.modMat c f).images = s.images := rfl

/-! ### State.modKey -/

@[simp] theorem State.modKey_sched (s : State) (c : Nat) (f : KeyEng → KeyEng) : (s.modKey c f).sched = s.sched := rfl
@[simp] theorem State.modKey_cur (s : State) (c : Nat) (f : KeyEng → KeyEng) : (s.modKey c f).cur = s.cur := rfl
@[simp] theorem State.modKey_fresh (s : State) (c : Nat) (f : KeyEng → KeyEng) : (s.modKey c f).fresh = s.fresh := rfl
@[simp] theorem State.modKey_nextId (s : State) (c : Nat) (f : KeyEng → KeyEng) : (s.modKey c f).nextId = s.nextId := rfl
@[simp] theorem State.modKey_pace (s : State) (c : Nat) (f : KeyEng → KeyEng) : (s.modKey c f).pace = s.pace := rfl
@[simp] theorem State.modKey_window (s : State) (c : Nat) (f : KeyEng → KeyEng) : (s.modKey c f).window = s.window := rfl
@[simp] theorem State.modKey_mem (s : State) (c : Nat) (f : KeyEng → KeyEng) : (s.modKey c f).mem = s.mem := rfl
@[simp] theorem State.modKey_hostMem (s : State) (c : Nat) (f : KeyEng → KeyEng) : (s.modKey c f).hostMem = s.hostMem := rfl
@[simp] theorem State.modKey_poisoned (s : State) (c : Nat) (f : KeyEng → KeyEng) : (s.modKey c f).poisoned = s.poisoned := rfl
@[simp] theorem State.modKey_plots (s : State) (c : Nat) (f : KeyEng → KeyEng) : (s.modKey c f).plots = s.plots := rfl
@[simp] theorem State.modKey_lease (s : State) (c : Nat) (f : KeyEng → KeyEng) : (s.modKey c f).lease = s.lease := rfl
@[simp] theorem State.modKey_flight (s : State) (c : Nat) (f : KeyEng → KeyEng) : (s.modKey c f).flight = s.flight := rfl
@[simp] theorem State.modKey_accs (s : State) (c : Nat) (f : KeyEng → KeyEng) : (s.modKey c f).accs = s.accs := rfl
@[simp] theorem State.modKey_walks (s : State) (c : Nat) (f : KeyEng → KeyEng) : (s.modKey c f).walks = s.walks := rfl
@[simp] theorem State.modKey_squares (s : State) (c : Nat) (f : KeyEng → KeyEng) : (s.modKey c f).squares = s.squares := rfl
@[simp] theorem State.modKey_barMsgs (s : State) (c : Nat) (f : KeyEng → KeyEng) : (s.modKey c f).barMsgs = s.barMsgs := rfl
@[simp] theorem State.modKey_waiters (s : State) (c : Nat) (f : KeyEng → KeyEng) : (s.modKey c f).waiters = s.waiters := rfl
@[simp] theorem State.modKey_dies (s : State) (c : Nat) (f : KeyEng → KeyEng) : (s.modKey c f).dies = s.dies := rfl
@[simp] theorem State.modKey_links (s : State) (c : Nat) (f : KeyEng → KeyEng) : (s.modKey c f).links = s.links := rfl
@[simp] theorem State.modKey_hostPend (s : State) (c : Nat) (f : KeyEng → KeyEng) : (s.modKey c f).hostPend = s.hostPend := rfl
@[simp] theorem State.modKey_hostLines (s : State) (c : Nat) (f : KeyEng → KeyEng) : (s.modKey c f).hostLines = s.hostLines := rfl
@[simp] theorem State.modKey_frames (s : State) (c : Nat) (f : KeyEng → KeyEng) : (s.modKey c f).frames = s.frames := rfl
@[simp] theorem State.modKey_resync (s : State) (c : Nat) (f : KeyEng → KeyEng) : (s.modKey c f).resync = s.resync := rfl
@[simp] theorem State.modKey_engines (s : State) (c : Nat) (f : KeyEng → KeyEng) : (s.modKey c f).engines = s.engines := rfl
@[simp] theorem State.modKey_groups (s : State) (c : Nat) (f : KeyEng → KeyEng) : (s.modKey c f).groups = s.groups := rfl
@[simp] theorem State.modKey_queue (s : State) (c : Nat) (f : KeyEng → KeyEng) : (s.modKey c f).queue = s.queue := rfl
@[simp] theorem State.modKey_overflow (s : State) (c : Nat) (f : KeyEng → KeyEng) : (s.modKey c f).overflow = s.overflow := rfl
@[simp] theorem State.modKey_claimed (s : State) (c : Nat) (f : KeyEng → KeyEng) : (s.modKey c f).claimed = s.claimed := rfl
@[simp] theorem State.modKey_waits (s : State) (c : Nat) (f : KeyEng → KeyEng) : (s.modKey c f).waits = s.waits := rfl
@[simp] theorem State.modKey_launches (s : State) (c : Nat) (f : KeyEng → KeyEng) : (s.modKey c f).launches = s.launches := rfl
@[simp] theorem State.modKey_clusters (s : State) (c : Nat) (f : KeyEng → KeyEng) : (s.modKey c f).clusters = s.clusters := rfl
@[simp] theorem State.modKey_eth (s : State) (c : Nat) (f : KeyEng → KeyEng) : (s.modKey c f).eth = s.eth := rfl
@[simp] theorem State.modKey_shadow (s : State) (c : Nat) (f : KeyEng → KeyEng) : (s.modKey c f).shadow = s.shadow := rfl
@[simp] theorem State.modKey_watched (s : State) (c : Nat) (f : KeyEng → KeyEng) : (s.modKey c f).watched = s.watched := rfl
@[simp] theorem State.modKey_acCounters (s : State) (c : Nat) (f : KeyEng → KeyEng) : (s.modKey c f).acCounters = s.acCounters := rfl
@[simp] theorem State.modKey_splits (s : State) (c : Nat) (f : KeyEng → KeyEng) : (s.modKey c f).splits = s.splits := rfl
@[simp] theorem State.modKey_inval (s : State) (c : Nat) (f : KeyEng → KeyEng) : (s.modKey c f).inval = s.inval := rfl
@[simp] theorem State.modKey_regs (s : State) (c : Nat) (f : KeyEng → KeyEng) : (s.modKey c f).regs = s.regs := rfl
@[simp] theorem State.modKey_powered (s : State) (c : Nat) (f : KeyEng → KeyEng) : (s.modKey c f).powered = s.powered := rfl
@[simp] theorem State.modKey_hostOut (s : State) (c : Nat) (f : KeyEng → KeyEng) : (s.modKey c f).hostOut = s.hostOut := rfl
@[simp] theorem State.modKey_armCount (s : State) (c : Nat) (f : KeyEng → KeyEng) : (s.modKey c f).armCount = s.armCount := rfl
@[simp] theorem State.modKey_bridges (s : State) (c : Nat) (f : KeyEng → KeyEng) : (s.modKey c f).bridges = s.bridges := rfl
@[simp] theorem State.modKey_rollback (s : State) (c : Nat) (f : KeyEng → KeyEng) : (s.modKey c f).rollback = s.rollback := rfl
@[simp] theorem State.modKey_images (s : State) (c : Nat) (f : KeyEng → KeyEng) : (s.modKey c f).images = s.images := rfl

/-! ### State.modDie -/

@[simp] theorem State.modDie_sched (s : State) (d : Nat) (f : Die → Die) : (s.modDie d f).sched = s.sched := rfl
@[simp] theorem State.modDie_cur (s : State) (d : Nat) (f : Die → Die) : (s.modDie d f).cur = s.cur := rfl
@[simp] theorem State.modDie_fresh (s : State) (d : Nat) (f : Die → Die) : (s.modDie d f).fresh = s.fresh := rfl
@[simp] theorem State.modDie_nextId (s : State) (d : Nat) (f : Die → Die) : (s.modDie d f).nextId = s.nextId := rfl
@[simp] theorem State.modDie_pace (s : State) (d : Nat) (f : Die → Die) : (s.modDie d f).pace = s.pace := rfl
@[simp] theorem State.modDie_window (s : State) (d : Nat) (f : Die → Die) : (s.modDie d f).window = s.window := rfl
@[simp] theorem State.modDie_mem (s : State) (d : Nat) (f : Die → Die) : (s.modDie d f).mem = s.mem := rfl
@[simp] theorem State.modDie_hostMem (s : State) (d : Nat) (f : Die → Die) : (s.modDie d f).hostMem = s.hostMem := rfl
@[simp] theorem State.modDie_poisoned (s : State) (d : Nat) (f : Die → Die) : (s.modDie d f).poisoned = s.poisoned := rfl
@[simp] theorem State.modDie_cores (s : State) (d : Nat) (f : Die → Die) : (s.modDie d f).cores = s.cores := rfl
@[simp] theorem State.modDie_plots (s : State) (d : Nat) (f : Die → Die) : (s.modDie d f).plots = s.plots := rfl
@[simp] theorem State.modDie_lease (s : State) (d : Nat) (f : Die → Die) : (s.modDie d f).lease = s.lease := rfl
@[simp] theorem State.modDie_flight (s : State) (d : Nat) (f : Die → Die) : (s.modDie d f).flight = s.flight := rfl
@[simp] theorem State.modDie_accs (s : State) (d : Nat) (f : Die → Die) : (s.modDie d f).accs = s.accs := rfl
@[simp] theorem State.modDie_walks (s : State) (d : Nat) (f : Die → Die) : (s.modDie d f).walks = s.walks := rfl
@[simp] theorem State.modDie_squares (s : State) (d : Nat) (f : Die → Die) : (s.modDie d f).squares = s.squares := rfl
@[simp] theorem State.modDie_barMsgs (s : State) (d : Nat) (f : Die → Die) : (s.modDie d f).barMsgs = s.barMsgs := rfl
@[simp] theorem State.modDie_waiters (s : State) (d : Nat) (f : Die → Die) : (s.modDie d f).waiters = s.waiters := rfl
@[simp] theorem State.modDie_links (s : State) (d : Nat) (f : Die → Die) : (s.modDie d f).links = s.links := rfl
@[simp] theorem State.modDie_hostPend (s : State) (d : Nat) (f : Die → Die) : (s.modDie d f).hostPend = s.hostPend := rfl
@[simp] theorem State.modDie_hostLines (s : State) (d : Nat) (f : Die → Die) : (s.modDie d f).hostLines = s.hostLines := rfl
@[simp] theorem State.modDie_frames (s : State) (d : Nat) (f : Die → Die) : (s.modDie d f).frames = s.frames := rfl
@[simp] theorem State.modDie_resync (s : State) (d : Nat) (f : Die → Die) : (s.modDie d f).resync = s.resync := rfl
@[simp] theorem State.modDie_engines (s : State) (d : Nat) (f : Die → Die) : (s.modDie d f).engines = s.engines := rfl
@[simp] theorem State.modDie_groups (s : State) (d : Nat) (f : Die → Die) : (s.modDie d f).groups = s.groups := rfl
@[simp] theorem State.modDie_queue (s : State) (d : Nat) (f : Die → Die) : (s.modDie d f).queue = s.queue := rfl
@[simp] theorem State.modDie_overflow (s : State) (d : Nat) (f : Die → Die) : (s.modDie d f).overflow = s.overflow := rfl
@[simp] theorem State.modDie_claimed (s : State) (d : Nat) (f : Die → Die) : (s.modDie d f).claimed = s.claimed := rfl
@[simp] theorem State.modDie_waits (s : State) (d : Nat) (f : Die → Die) : (s.modDie d f).waits = s.waits := rfl
@[simp] theorem State.modDie_launches (s : State) (d : Nat) (f : Die → Die) : (s.modDie d f).launches = s.launches := rfl
@[simp] theorem State.modDie_clusters (s : State) (d : Nat) (f : Die → Die) : (s.modDie d f).clusters = s.clusters := rfl
@[simp] theorem State.modDie_eth (s : State) (d : Nat) (f : Die → Die) : (s.modDie d f).eth = s.eth := rfl
@[simp] theorem State.modDie_shadow (s : State) (d : Nat) (f : Die → Die) : (s.modDie d f).shadow = s.shadow := rfl
@[simp] theorem State.modDie_watched (s : State) (d : Nat) (f : Die → Die) : (s.modDie d f).watched = s.watched := rfl
@[simp] theorem State.modDie_acCounters (s : State) (d : Nat) (f : Die → Die) : (s.modDie d f).acCounters = s.acCounters := rfl
@[simp] theorem State.modDie_splits (s : State) (d : Nat) (f : Die → Die) : (s.modDie d f).splits = s.splits := rfl
@[simp] theorem State.modDie_inval (s : State) (d : Nat) (f : Die → Die) : (s.modDie d f).inval = s.inval := rfl
@[simp] theorem State.modDie_regs (s : State) (d : Nat) (f : Die → Die) : (s.modDie d f).regs = s.regs := rfl
@[simp] theorem State.modDie_powered (s : State) (d : Nat) (f : Die → Die) : (s.modDie d f).powered = s.powered := rfl
@[simp] theorem State.modDie_hostOut (s : State) (d : Nat) (f : Die → Die) : (s.modDie d f).hostOut = s.hostOut := rfl
@[simp] theorem State.modDie_armCount (s : State) (d : Nat) (f : Die → Die) : (s.modDie d f).armCount = s.armCount := rfl
@[simp] theorem State.modDie_bridges (s : State) (d : Nat) (f : Die → Die) : (s.modDie d f).bridges = s.bridges := rfl
@[simp] theorem State.modDie_rollback (s : State) (d : Nat) (f : Die → Die) : (s.modDie d f).rollback = s.rollback := rfl
@[simp] theorem State.modDie_images (s : State) (d : Nat) (f : Die → Die) : (s.modDie d f).images = s.images := rfl

/-! ### State.modCluster -/

@[simp] theorem State.modCluster_sched (s : State) (k : Nat) (f : Cluster → Cluster) : (s.modCluster k f).sched = s.sched := rfl
@[simp] theorem State.modCluster_cur (s : State) (k : Nat) (f : Cluster → Cluster) : (s.modCluster k f).cur = s.cur := rfl
@[simp] theorem State.modCluster_fresh (s : State) (k : Nat) (f : Cluster → Cluster) : (s.modCluster k f).fresh = s.fresh := rfl
@[simp] theorem State.modCluster_nextId (s : State) (k : Nat) (f : Cluster → Cluster) : (s.modCluster k f).nextId = s.nextId := rfl
@[simp] theorem State.modCluster_pace (s : State) (k : Nat) (f : Cluster → Cluster) : (s.modCluster k f).pace = s.pace := rfl
@[simp] theorem State.modCluster_window (s : State) (k : Nat) (f : Cluster → Cluster) : (s.modCluster k f).window = s.window := rfl
@[simp] theorem State.modCluster_mem (s : State) (k : Nat) (f : Cluster → Cluster) : (s.modCluster k f).mem = s.mem := rfl
@[simp] theorem State.modCluster_hostMem (s : State) (k : Nat) (f : Cluster → Cluster) : (s.modCluster k f).hostMem = s.hostMem := rfl
@[simp] theorem State.modCluster_poisoned (s : State) (k : Nat) (f : Cluster → Cluster) : (s.modCluster k f).poisoned = s.poisoned := rfl
@[simp] theorem State.modCluster_cores (s : State) (k : Nat) (f : Cluster → Cluster) : (s.modCluster k f).cores = s.cores := rfl
@[simp] theorem State.modCluster_plots (s : State) (k : Nat) (f : Cluster → Cluster) : (s.modCluster k f).plots = s.plots := rfl
@[simp] theorem State.modCluster_lease (s : State) (k : Nat) (f : Cluster → Cluster) : (s.modCluster k f).lease = s.lease := rfl
@[simp] theorem State.modCluster_flight (s : State) (k : Nat) (f : Cluster → Cluster) : (s.modCluster k f).flight = s.flight := rfl
@[simp] theorem State.modCluster_accs (s : State) (k : Nat) (f : Cluster → Cluster) : (s.modCluster k f).accs = s.accs := rfl
@[simp] theorem State.modCluster_walks (s : State) (k : Nat) (f : Cluster → Cluster) : (s.modCluster k f).walks = s.walks := rfl
@[simp] theorem State.modCluster_squares (s : State) (k : Nat) (f : Cluster → Cluster) : (s.modCluster k f).squares = s.squares := rfl
@[simp] theorem State.modCluster_barMsgs (s : State) (k : Nat) (f : Cluster → Cluster) : (s.modCluster k f).barMsgs = s.barMsgs := rfl
@[simp] theorem State.modCluster_waiters (s : State) (k : Nat) (f : Cluster → Cluster) : (s.modCluster k f).waiters = s.waiters := rfl
@[simp] theorem State.modCluster_dies (s : State) (k : Nat) (f : Cluster → Cluster) : (s.modCluster k f).dies = s.dies := rfl
@[simp] theorem State.modCluster_links (s : State) (k : Nat) (f : Cluster → Cluster) : (s.modCluster k f).links = s.links := rfl
@[simp] theorem State.modCluster_hostPend (s : State) (k : Nat) (f : Cluster → Cluster) : (s.modCluster k f).hostPend = s.hostPend := rfl
@[simp] theorem State.modCluster_hostLines (s : State) (k : Nat) (f : Cluster → Cluster) : (s.modCluster k f).hostLines = s.hostLines := rfl
@[simp] theorem State.modCluster_frames (s : State) (k : Nat) (f : Cluster → Cluster) : (s.modCluster k f).frames = s.frames := rfl
@[simp] theorem State.modCluster_resync (s : State) (k : Nat) (f : Cluster → Cluster) : (s.modCluster k f).resync = s.resync := rfl
@[simp] theorem State.modCluster_engines (s : State) (k : Nat) (f : Cluster → Cluster) : (s.modCluster k f).engines = s.engines := rfl
@[simp] theorem State.modCluster_groups (s : State) (k : Nat) (f : Cluster → Cluster) : (s.modCluster k f).groups = s.groups := rfl
@[simp] theorem State.modCluster_queue (s : State) (k : Nat) (f : Cluster → Cluster) : (s.modCluster k f).queue = s.queue := rfl
@[simp] theorem State.modCluster_overflow (s : State) (k : Nat) (f : Cluster → Cluster) : (s.modCluster k f).overflow = s.overflow := rfl
@[simp] theorem State.modCluster_claimed (s : State) (k : Nat) (f : Cluster → Cluster) : (s.modCluster k f).claimed = s.claimed := rfl
@[simp] theorem State.modCluster_waits (s : State) (k : Nat) (f : Cluster → Cluster) : (s.modCluster k f).waits = s.waits := rfl
@[simp] theorem State.modCluster_launches (s : State) (k : Nat) (f : Cluster → Cluster) : (s.modCluster k f).launches = s.launches := rfl
@[simp] theorem State.modCluster_eth (s : State) (k : Nat) (f : Cluster → Cluster) : (s.modCluster k f).eth = s.eth := rfl
@[simp] theorem State.modCluster_shadow (s : State) (k : Nat) (f : Cluster → Cluster) : (s.modCluster k f).shadow = s.shadow := rfl
@[simp] theorem State.modCluster_watched (s : State) (k : Nat) (f : Cluster → Cluster) : (s.modCluster k f).watched = s.watched := rfl
@[simp] theorem State.modCluster_acCounters (s : State) (k : Nat) (f : Cluster → Cluster) : (s.modCluster k f).acCounters = s.acCounters := rfl
@[simp] theorem State.modCluster_splits (s : State) (k : Nat) (f : Cluster → Cluster) : (s.modCluster k f).splits = s.splits := rfl
@[simp] theorem State.modCluster_inval (s : State) (k : Nat) (f : Cluster → Cluster) : (s.modCluster k f).inval = s.inval := rfl
@[simp] theorem State.modCluster_regs (s : State) (k : Nat) (f : Cluster → Cluster) : (s.modCluster k f).regs = s.regs := rfl
@[simp] theorem State.modCluster_powered (s : State) (k : Nat) (f : Cluster → Cluster) : (s.modCluster k f).powered = s.powered := rfl
@[simp] theorem State.modCluster_hostOut (s : State) (k : Nat) (f : Cluster → Cluster) : (s.modCluster k f).hostOut = s.hostOut := rfl
@[simp] theorem State.modCluster_armCount (s : State) (k : Nat) (f : Cluster → Cluster) : (s.modCluster k f).armCount = s.armCount := rfl
@[simp] theorem State.modCluster_bridges (s : State) (k : Nat) (f : Cluster → Cluster) : (s.modCluster k f).bridges = s.bridges := rfl
@[simp] theorem State.modCluster_rollback (s : State) (k : Nat) (f : Cluster → Cluster) : (s.modCluster k f).rollback = s.rollback := rfl
@[simp] theorem State.modCluster_images (s : State) (k : Nat) (f : Cluster → Cluster) : (s.modCluster k f).images = s.images := rfl

/-! ### State.modLink -/

@[simp] theorem State.modLink_sched (s : State) (l : Nat) (f : LinkPort → LinkPort) : (s.modLink l f).sched = s.sched := rfl
@[simp] theorem State.modLink_cur (s : State) (l : Nat) (f : LinkPort → LinkPort) : (s.modLink l f).cur = s.cur := rfl
@[simp] theorem State.modLink_fresh (s : State) (l : Nat) (f : LinkPort → LinkPort) : (s.modLink l f).fresh = s.fresh := rfl
@[simp] theorem State.modLink_nextId (s : State) (l : Nat) (f : LinkPort → LinkPort) : (s.modLink l f).nextId = s.nextId := rfl
@[simp] theorem State.modLink_pace (s : State) (l : Nat) (f : LinkPort → LinkPort) : (s.modLink l f).pace = s.pace := rfl
@[simp] theorem State.modLink_window (s : State) (l : Nat) (f : LinkPort → LinkPort) : (s.modLink l f).window = s.window := rfl
@[simp] theorem State.modLink_mem (s : State) (l : Nat) (f : LinkPort → LinkPort) : (s.modLink l f).mem = s.mem := rfl
@[simp] theorem State.modLink_hostMem (s : State) (l : Nat) (f : LinkPort → LinkPort) : (s.modLink l f).hostMem = s.hostMem := rfl
@[simp] theorem State.modLink_poisoned (s : State) (l : Nat) (f : LinkPort → LinkPort) : (s.modLink l f).poisoned = s.poisoned := rfl
@[simp] theorem State.modLink_cores (s : State) (l : Nat) (f : LinkPort → LinkPort) : (s.modLink l f).cores = s.cores := rfl
@[simp] theorem State.modLink_plots (s : State) (l : Nat) (f : LinkPort → LinkPort) : (s.modLink l f).plots = s.plots := rfl
@[simp] theorem State.modLink_lease (s : State) (l : Nat) (f : LinkPort → LinkPort) : (s.modLink l f).lease = s.lease := rfl
@[simp] theorem State.modLink_flight (s : State) (l : Nat) (f : LinkPort → LinkPort) : (s.modLink l f).flight = s.flight := rfl
@[simp] theorem State.modLink_accs (s : State) (l : Nat) (f : LinkPort → LinkPort) : (s.modLink l f).accs = s.accs := rfl
@[simp] theorem State.modLink_walks (s : State) (l : Nat) (f : LinkPort → LinkPort) : (s.modLink l f).walks = s.walks := rfl
@[simp] theorem State.modLink_squares (s : State) (l : Nat) (f : LinkPort → LinkPort) : (s.modLink l f).squares = s.squares := rfl
@[simp] theorem State.modLink_barMsgs (s : State) (l : Nat) (f : LinkPort → LinkPort) : (s.modLink l f).barMsgs = s.barMsgs := rfl
@[simp] theorem State.modLink_waiters (s : State) (l : Nat) (f : LinkPort → LinkPort) : (s.modLink l f).waiters = s.waiters := rfl
@[simp] theorem State.modLink_dies (s : State) (l : Nat) (f : LinkPort → LinkPort) : (s.modLink l f).dies = s.dies := rfl
@[simp] theorem State.modLink_hostPend (s : State) (l : Nat) (f : LinkPort → LinkPort) : (s.modLink l f).hostPend = s.hostPend := rfl
@[simp] theorem State.modLink_hostLines (s : State) (l : Nat) (f : LinkPort → LinkPort) : (s.modLink l f).hostLines = s.hostLines := rfl
@[simp] theorem State.modLink_frames (s : State) (l : Nat) (f : LinkPort → LinkPort) : (s.modLink l f).frames = s.frames := rfl
@[simp] theorem State.modLink_resync (s : State) (l : Nat) (f : LinkPort → LinkPort) : (s.modLink l f).resync = s.resync := rfl
@[simp] theorem State.modLink_engines (s : State) (l : Nat) (f : LinkPort → LinkPort) : (s.modLink l f).engines = s.engines := rfl
@[simp] theorem State.modLink_groups (s : State) (l : Nat) (f : LinkPort → LinkPort) : (s.modLink l f).groups = s.groups := rfl
@[simp] theorem State.modLink_queue (s : State) (l : Nat) (f : LinkPort → LinkPort) : (s.modLink l f).queue = s.queue := rfl
@[simp] theorem State.modLink_overflow (s : State) (l : Nat) (f : LinkPort → LinkPort) : (s.modLink l f).overflow = s.overflow := rfl
@[simp] theorem State.modLink_claimed (s : State) (l : Nat) (f : LinkPort → LinkPort) : (s.modLink l f).claimed = s.claimed := rfl
@[simp] theorem State.modLink_waits (s : State) (l : Nat) (f : LinkPort → LinkPort) : (s.modLink l f).waits = s.waits := rfl
@[simp] theorem State.modLink_launches (s : State) (l : Nat) (f : LinkPort → LinkPort) : (s.modLink l f).launches = s.launches := rfl
@[simp] theorem State.modLink_clusters (s : State) (l : Nat) (f : LinkPort → LinkPort) : (s.modLink l f).clusters = s.clusters := rfl
@[simp] theorem State.modLink_eth (s : State) (l : Nat) (f : LinkPort → LinkPort) : (s.modLink l f).eth = s.eth := rfl
@[simp] theorem State.modLink_shadow (s : State) (l : Nat) (f : LinkPort → LinkPort) : (s.modLink l f).shadow = s.shadow := rfl
@[simp] theorem State.modLink_watched (s : State) (l : Nat) (f : LinkPort → LinkPort) : (s.modLink l f).watched = s.watched := rfl
@[simp] theorem State.modLink_acCounters (s : State) (l : Nat) (f : LinkPort → LinkPort) : (s.modLink l f).acCounters = s.acCounters := rfl
@[simp] theorem State.modLink_splits (s : State) (l : Nat) (f : LinkPort → LinkPort) : (s.modLink l f).splits = s.splits := rfl
@[simp] theorem State.modLink_inval (s : State) (l : Nat) (f : LinkPort → LinkPort) : (s.modLink l f).inval = s.inval := rfl
@[simp] theorem State.modLink_regs (s : State) (l : Nat) (f : LinkPort → LinkPort) : (s.modLink l f).regs = s.regs := rfl
@[simp] theorem State.modLink_powered (s : State) (l : Nat) (f : LinkPort → LinkPort) : (s.modLink l f).powered = s.powered := rfl
@[simp] theorem State.modLink_hostOut (s : State) (l : Nat) (f : LinkPort → LinkPort) : (s.modLink l f).hostOut = s.hostOut := rfl
@[simp] theorem State.modLink_armCount (s : State) (l : Nat) (f : LinkPort → LinkPort) : (s.modLink l f).armCount = s.armCount := rfl
@[simp] theorem State.modLink_bridges (s : State) (l : Nat) (f : LinkPort → LinkPort) : (s.modLink l f).bridges = s.bridges := rfl
@[simp] theorem State.modLink_rollback (s : State) (l : Nat) (f : LinkPort → LinkPort) : (s.modLink l f).rollback = s.rollback := rfl
@[simp] theorem State.modLink_images (s : State) (l : Nat) (f : LinkPort → LinkPort) : (s.modLink l f).images = s.images := rfl

/-! ### State.modEngine -/

@[simp] theorem State.modEngine_sched (s : State) (e : Nat) (f : CopyEng → CopyEng) : (s.modEngine e f).sched = s.sched := rfl
@[simp] theorem State.modEngine_cur (s : State) (e : Nat) (f : CopyEng → CopyEng) : (s.modEngine e f).cur = s.cur := rfl
@[simp] theorem State.modEngine_fresh (s : State) (e : Nat) (f : CopyEng → CopyEng) : (s.modEngine e f).fresh = s.fresh := rfl
@[simp] theorem State.modEngine_nextId (s : State) (e : Nat) (f : CopyEng → CopyEng) : (s.modEngine e f).nextId = s.nextId := rfl
@[simp] theorem State.modEngine_pace (s : State) (e : Nat) (f : CopyEng → CopyEng) : (s.modEngine e f).pace = s.pace := rfl
@[simp] theorem State.modEngine_window (s : State) (e : Nat) (f : CopyEng → CopyEng) : (s.modEngine e f).window = s.window := rfl
@[simp] theorem State.modEngine_mem (s : State) (e : Nat) (f : CopyEng → CopyEng) : (s.modEngine e f).mem = s.mem := rfl
@[simp] theorem State.modEngine_hostMem (s : State) (e : Nat) (f : CopyEng → CopyEng) : (s.modEngine e f).hostMem = s.hostMem := rfl
@[simp] theorem State.modEngine_poisoned (s : State) (e : Nat) (f : CopyEng → CopyEng) : (s.modEngine e f).poisoned = s.poisoned := rfl
@[simp] theorem State.modEngine_cores (s : State) (e : Nat) (f : CopyEng → CopyEng) : (s.modEngine e f).cores = s.cores := rfl
@[simp] theorem State.modEngine_plots (s : State) (e : Nat) (f : CopyEng → CopyEng) : (s.modEngine e f).plots = s.plots := rfl
@[simp] theorem State.modEngine_lease (s : State) (e : Nat) (f : CopyEng → CopyEng) : (s.modEngine e f).lease = s.lease := rfl
@[simp] theorem State.modEngine_flight (s : State) (e : Nat) (f : CopyEng → CopyEng) : (s.modEngine e f).flight = s.flight := rfl
@[simp] theorem State.modEngine_accs (s : State) (e : Nat) (f : CopyEng → CopyEng) : (s.modEngine e f).accs = s.accs := rfl
@[simp] theorem State.modEngine_walks (s : State) (e : Nat) (f : CopyEng → CopyEng) : (s.modEngine e f).walks = s.walks := rfl
@[simp] theorem State.modEngine_squares (s : State) (e : Nat) (f : CopyEng → CopyEng) : (s.modEngine e f).squares = s.squares := rfl
@[simp] theorem State.modEngine_barMsgs (s : State) (e : Nat) (f : CopyEng → CopyEng) : (s.modEngine e f).barMsgs = s.barMsgs := rfl
@[simp] theorem State.modEngine_waiters (s : State) (e : Nat) (f : CopyEng → CopyEng) : (s.modEngine e f).waiters = s.waiters := rfl
@[simp] theorem State.modEngine_dies (s : State) (e : Nat) (f : CopyEng → CopyEng) : (s.modEngine e f).dies = s.dies := rfl
@[simp] theorem State.modEngine_links (s : State) (e : Nat) (f : CopyEng → CopyEng) : (s.modEngine e f).links = s.links := rfl
@[simp] theorem State.modEngine_hostPend (s : State) (e : Nat) (f : CopyEng → CopyEng) : (s.modEngine e f).hostPend = s.hostPend := rfl
@[simp] theorem State.modEngine_hostLines (s : State) (e : Nat) (f : CopyEng → CopyEng) : (s.modEngine e f).hostLines = s.hostLines := rfl
@[simp] theorem State.modEngine_frames (s : State) (e : Nat) (f : CopyEng → CopyEng) : (s.modEngine e f).frames = s.frames := rfl
@[simp] theorem State.modEngine_resync (s : State) (e : Nat) (f : CopyEng → CopyEng) : (s.modEngine e f).resync = s.resync := rfl
@[simp] theorem State.modEngine_groups (s : State) (e : Nat) (f : CopyEng → CopyEng) : (s.modEngine e f).groups = s.groups := rfl
@[simp] theorem State.modEngine_queue (s : State) (e : Nat) (f : CopyEng → CopyEng) : (s.modEngine e f).queue = s.queue := rfl
@[simp] theorem State.modEngine_overflow (s : State) (e : Nat) (f : CopyEng → CopyEng) : (s.modEngine e f).overflow = s.overflow := rfl
@[simp] theorem State.modEngine_claimed (s : State) (e : Nat) (f : CopyEng → CopyEng) : (s.modEngine e f).claimed = s.claimed := rfl
@[simp] theorem State.modEngine_waits (s : State) (e : Nat) (f : CopyEng → CopyEng) : (s.modEngine e f).waits = s.waits := rfl
@[simp] theorem State.modEngine_launches (s : State) (e : Nat) (f : CopyEng → CopyEng) : (s.modEngine e f).launches = s.launches := rfl
@[simp] theorem State.modEngine_clusters (s : State) (e : Nat) (f : CopyEng → CopyEng) : (s.modEngine e f).clusters = s.clusters := rfl
@[simp] theorem State.modEngine_eth (s : State) (e : Nat) (f : CopyEng → CopyEng) : (s.modEngine e f).eth = s.eth := rfl
@[simp] theorem State.modEngine_shadow (s : State) (e : Nat) (f : CopyEng → CopyEng) : (s.modEngine e f).shadow = s.shadow := rfl
@[simp] theorem State.modEngine_watched (s : State) (e : Nat) (f : CopyEng → CopyEng) : (s.modEngine e f).watched = s.watched := rfl
@[simp] theorem State.modEngine_acCounters (s : State) (e : Nat) (f : CopyEng → CopyEng) : (s.modEngine e f).acCounters = s.acCounters := rfl
@[simp] theorem State.modEngine_splits (s : State) (e : Nat) (f : CopyEng → CopyEng) : (s.modEngine e f).splits = s.splits := rfl
@[simp] theorem State.modEngine_inval (s : State) (e : Nat) (f : CopyEng → CopyEng) : (s.modEngine e f).inval = s.inval := rfl
@[simp] theorem State.modEngine_regs (s : State) (e : Nat) (f : CopyEng → CopyEng) : (s.modEngine e f).regs = s.regs := rfl
@[simp] theorem State.modEngine_powered (s : State) (e : Nat) (f : CopyEng → CopyEng) : (s.modEngine e f).powered = s.powered := rfl
@[simp] theorem State.modEngine_hostOut (s : State) (e : Nat) (f : CopyEng → CopyEng) : (s.modEngine e f).hostOut = s.hostOut := rfl
@[simp] theorem State.modEngine_armCount (s : State) (e : Nat) (f : CopyEng → CopyEng) : (s.modEngine e f).armCount = s.armCount := rfl
@[simp] theorem State.modEngine_bridges (s : State) (e : Nat) (f : CopyEng → CopyEng) : (s.modEngine e f).bridges = s.bridges := rfl
@[simp] theorem State.modEngine_rollback (s : State) (e : Nat) (f : CopyEng → CopyEng) : (s.modEngine e f).rollback = s.rollback := rfl
@[simp] theorem State.modEngine_images (s : State) (e : Nat) (f : CopyEng → CopyEng) : (s.modEngine e f).images = s.images := rfl

/-! ### State.modBridge -/

@[simp] theorem State.modBridge_sched (s : State) (ch : Nat) (f : Bridge → Bridge) : (s.modBridge ch f).sched = s.sched := rfl
@[simp] theorem State.modBridge_cur (s : State) (ch : Nat) (f : Bridge → Bridge) : (s.modBridge ch f).cur = s.cur := rfl
@[simp] theorem State.modBridge_fresh (s : State) (ch : Nat) (f : Bridge → Bridge) : (s.modBridge ch f).fresh = s.fresh := rfl
@[simp] theorem State.modBridge_nextId (s : State) (ch : Nat) (f : Bridge → Bridge) : (s.modBridge ch f).nextId = s.nextId := rfl
@[simp] theorem State.modBridge_pace (s : State) (ch : Nat) (f : Bridge → Bridge) : (s.modBridge ch f).pace = s.pace := rfl
@[simp] theorem State.modBridge_window (s : State) (ch : Nat) (f : Bridge → Bridge) : (s.modBridge ch f).window = s.window := rfl
@[simp] theorem State.modBridge_mem (s : State) (ch : Nat) (f : Bridge → Bridge) : (s.modBridge ch f).mem = s.mem := rfl
@[simp] theorem State.modBridge_hostMem (s : State) (ch : Nat) (f : Bridge → Bridge) : (s.modBridge ch f).hostMem = s.hostMem := rfl
@[simp] theorem State.modBridge_poisoned (s : State) (ch : Nat) (f : Bridge → Bridge) : (s.modBridge ch f).poisoned = s.poisoned := rfl
@[simp] theorem State.modBridge_cores (s : State) (ch : Nat) (f : Bridge → Bridge) : (s.modBridge ch f).cores = s.cores := rfl
@[simp] theorem State.modBridge_plots (s : State) (ch : Nat) (f : Bridge → Bridge) : (s.modBridge ch f).plots = s.plots := rfl
@[simp] theorem State.modBridge_lease (s : State) (ch : Nat) (f : Bridge → Bridge) : (s.modBridge ch f).lease = s.lease := rfl
@[simp] theorem State.modBridge_flight (s : State) (ch : Nat) (f : Bridge → Bridge) : (s.modBridge ch f).flight = s.flight := rfl
@[simp] theorem State.modBridge_accs (s : State) (ch : Nat) (f : Bridge → Bridge) : (s.modBridge ch f).accs = s.accs := rfl
@[simp] theorem State.modBridge_walks (s : State) (ch : Nat) (f : Bridge → Bridge) : (s.modBridge ch f).walks = s.walks := rfl
@[simp] theorem State.modBridge_squares (s : State) (ch : Nat) (f : Bridge → Bridge) : (s.modBridge ch f).squares = s.squares := rfl
@[simp] theorem State.modBridge_barMsgs (s : State) (ch : Nat) (f : Bridge → Bridge) : (s.modBridge ch f).barMsgs = s.barMsgs := rfl
@[simp] theorem State.modBridge_waiters (s : State) (ch : Nat) (f : Bridge → Bridge) : (s.modBridge ch f).waiters = s.waiters := rfl
@[simp] theorem State.modBridge_dies (s : State) (ch : Nat) (f : Bridge → Bridge) : (s.modBridge ch f).dies = s.dies := rfl
@[simp] theorem State.modBridge_links (s : State) (ch : Nat) (f : Bridge → Bridge) : (s.modBridge ch f).links = s.links := rfl
@[simp] theorem State.modBridge_hostPend (s : State) (ch : Nat) (f : Bridge → Bridge) : (s.modBridge ch f).hostPend = s.hostPend := rfl
@[simp] theorem State.modBridge_hostLines (s : State) (ch : Nat) (f : Bridge → Bridge) : (s.modBridge ch f).hostLines = s.hostLines := rfl
@[simp] theorem State.modBridge_frames (s : State) (ch : Nat) (f : Bridge → Bridge) : (s.modBridge ch f).frames = s.frames := rfl
@[simp] theorem State.modBridge_resync (s : State) (ch : Nat) (f : Bridge → Bridge) : (s.modBridge ch f).resync = s.resync := rfl
@[simp] theorem State.modBridge_engines (s : State) (ch : Nat) (f : Bridge → Bridge) : (s.modBridge ch f).engines = s.engines := rfl
@[simp] theorem State.modBridge_groups (s : State) (ch : Nat) (f : Bridge → Bridge) : (s.modBridge ch f).groups = s.groups := rfl
@[simp] theorem State.modBridge_queue (s : State) (ch : Nat) (f : Bridge → Bridge) : (s.modBridge ch f).queue = s.queue := rfl
@[simp] theorem State.modBridge_overflow (s : State) (ch : Nat) (f : Bridge → Bridge) : (s.modBridge ch f).overflow = s.overflow := rfl
@[simp] theorem State.modBridge_claimed (s : State) (ch : Nat) (f : Bridge → Bridge) : (s.modBridge ch f).claimed = s.claimed := rfl
@[simp] theorem State.modBridge_waits (s : State) (ch : Nat) (f : Bridge → Bridge) : (s.modBridge ch f).waits = s.waits := rfl
@[simp] theorem State.modBridge_launches (s : State) (ch : Nat) (f : Bridge → Bridge) : (s.modBridge ch f).launches = s.launches := rfl
@[simp] theorem State.modBridge_clusters (s : State) (ch : Nat) (f : Bridge → Bridge) : (s.modBridge ch f).clusters = s.clusters := rfl
@[simp] theorem State.modBridge_eth (s : State) (ch : Nat) (f : Bridge → Bridge) : (s.modBridge ch f).eth = s.eth := rfl
@[simp] theorem State.modBridge_shadow (s : State) (ch : Nat) (f : Bridge → Bridge) : (s.modBridge ch f).shadow = s.shadow := rfl
@[simp] theorem State.modBridge_watched (s : State) (ch : Nat) (f : Bridge → Bridge) : (s.modBridge ch f).watched = s.watched := rfl
@[simp] theorem State.modBridge_acCounters (s : State) (ch : Nat) (f : Bridge → Bridge) : (s.modBridge ch f).acCounters = s.acCounters := rfl
@[simp] theorem State.modBridge_splits (s : State) (ch : Nat) (f : Bridge → Bridge) : (s.modBridge ch f).splits = s.splits := rfl
@[simp] theorem State.modBridge_inval (s : State) (ch : Nat) (f : Bridge → Bridge) : (s.modBridge ch f).inval = s.inval := rfl
@[simp] theorem State.modBridge_regs (s : State) (ch : Nat) (f : Bridge → Bridge) : (s.modBridge ch f).regs = s.regs := rfl
@[simp] theorem State.modBridge_powered (s : State) (ch : Nat) (f : Bridge → Bridge) : (s.modBridge ch f).powered = s.powered := rfl
@[simp] theorem State.modBridge_hostOut (s : State) (ch : Nat) (f : Bridge → Bridge) : (s.modBridge ch f).hostOut = s.hostOut := rfl
@[simp] theorem State.modBridge_armCount (s : State) (ch : Nat) (f : Bridge → Bridge) : (s.modBridge ch f).armCount = s.armCount := rfl
@[simp] theorem State.modBridge_rollback (s : State) (ch : Nat) (f : Bridge → Bridge) : (s.modBridge ch f).rollback = s.rollback := rfl
@[simp] theorem State.modBridge_images (s : State) (ch : Nat) (f : Bridge → Bridge) : (s.modBridge ch f).images = s.images := rfl

/-! ### State.modEth -/

@[simp] theorem State.modEth_sched (s : State) (p : Nat) (f : EthPort → EthPort) : (s.modEth p f).sched = s.sched := rfl
@[simp] theorem State.modEth_cur (s : State) (p : Nat) (f : EthPort → EthPort) : (s.modEth p f).cur = s.cur := rfl
@[simp] theorem State.modEth_fresh (s : State) (p : Nat) (f : EthPort → EthPort) : (s.modEth p f).fresh = s.fresh := rfl
@[simp] theorem State.modEth_nextId (s : State) (p : Nat) (f : EthPort → EthPort) : (s.modEth p f).nextId = s.nextId := rfl
@[simp] theorem State.modEth_pace (s : State) (p : Nat) (f : EthPort → EthPort) : (s.modEth p f).pace = s.pace := rfl
@[simp] theorem State.modEth_window (s : State) (p : Nat) (f : EthPort → EthPort) : (s.modEth p f).window = s.window := rfl
@[simp] theorem State.modEth_mem (s : State) (p : Nat) (f : EthPort → EthPort) : (s.modEth p f).mem = s.mem := rfl
@[simp] theorem State.modEth_hostMem (s : State) (p : Nat) (f : EthPort → EthPort) : (s.modEth p f).hostMem = s.hostMem := rfl
@[simp] theorem State.modEth_poisoned (s : State) (p : Nat) (f : EthPort → EthPort) : (s.modEth p f).poisoned = s.poisoned := rfl
@[simp] theorem State.modEth_cores (s : State) (p : Nat) (f : EthPort → EthPort) : (s.modEth p f).cores = s.cores := rfl
@[simp] theorem State.modEth_plots (s : State) (p : Nat) (f : EthPort → EthPort) : (s.modEth p f).plots = s.plots := rfl
@[simp] theorem State.modEth_lease (s : State) (p : Nat) (f : EthPort → EthPort) : (s.modEth p f).lease = s.lease := rfl
@[simp] theorem State.modEth_flight (s : State) (p : Nat) (f : EthPort → EthPort) : (s.modEth p f).flight = s.flight := rfl
@[simp] theorem State.modEth_accs (s : State) (p : Nat) (f : EthPort → EthPort) : (s.modEth p f).accs = s.accs := rfl
@[simp] theorem State.modEth_walks (s : State) (p : Nat) (f : EthPort → EthPort) : (s.modEth p f).walks = s.walks := rfl
@[simp] theorem State.modEth_squares (s : State) (p : Nat) (f : EthPort → EthPort) : (s.modEth p f).squares = s.squares := rfl
@[simp] theorem State.modEth_barMsgs (s : State) (p : Nat) (f : EthPort → EthPort) : (s.modEth p f).barMsgs = s.barMsgs := rfl
@[simp] theorem State.modEth_waiters (s : State) (p : Nat) (f : EthPort → EthPort) : (s.modEth p f).waiters = s.waiters := rfl
@[simp] theorem State.modEth_dies (s : State) (p : Nat) (f : EthPort → EthPort) : (s.modEth p f).dies = s.dies := rfl
@[simp] theorem State.modEth_links (s : State) (p : Nat) (f : EthPort → EthPort) : (s.modEth p f).links = s.links := rfl
@[simp] theorem State.modEth_hostPend (s : State) (p : Nat) (f : EthPort → EthPort) : (s.modEth p f).hostPend = s.hostPend := rfl
@[simp] theorem State.modEth_hostLines (s : State) (p : Nat) (f : EthPort → EthPort) : (s.modEth p f).hostLines = s.hostLines := rfl
@[simp] theorem State.modEth_frames (s : State) (p : Nat) (f : EthPort → EthPort) : (s.modEth p f).frames = s.frames := rfl
@[simp] theorem State.modEth_resync (s : State) (p : Nat) (f : EthPort → EthPort) : (s.modEth p f).resync = s.resync := rfl
@[simp] theorem State.modEth_engines (s : State) (p : Nat) (f : EthPort → EthPort) : (s.modEth p f).engines = s.engines := rfl
@[simp] theorem State.modEth_groups (s : State) (p : Nat) (f : EthPort → EthPort) : (s.modEth p f).groups = s.groups := rfl
@[simp] theorem State.modEth_queue (s : State) (p : Nat) (f : EthPort → EthPort) : (s.modEth p f).queue = s.queue := rfl
@[simp] theorem State.modEth_overflow (s : State) (p : Nat) (f : EthPort → EthPort) : (s.modEth p f).overflow = s.overflow := rfl
@[simp] theorem State.modEth_claimed (s : State) (p : Nat) (f : EthPort → EthPort) : (s.modEth p f).claimed = s.claimed := rfl
@[simp] theorem State.modEth_waits (s : State) (p : Nat) (f : EthPort → EthPort) : (s.modEth p f).waits = s.waits := rfl
@[simp] theorem State.modEth_launches (s : State) (p : Nat) (f : EthPort → EthPort) : (s.modEth p f).launches = s.launches := rfl
@[simp] theorem State.modEth_clusters (s : State) (p : Nat) (f : EthPort → EthPort) : (s.modEth p f).clusters = s.clusters := rfl
@[simp] theorem State.modEth_shadow (s : State) (p : Nat) (f : EthPort → EthPort) : (s.modEth p f).shadow = s.shadow := rfl
@[simp] theorem State.modEth_watched (s : State) (p : Nat) (f : EthPort → EthPort) : (s.modEth p f).watched = s.watched := rfl
@[simp] theorem State.modEth_acCounters (s : State) (p : Nat) (f : EthPort → EthPort) : (s.modEth p f).acCounters = s.acCounters := rfl
@[simp] theorem State.modEth_splits (s : State) (p : Nat) (f : EthPort → EthPort) : (s.modEth p f).splits = s.splits := rfl
@[simp] theorem State.modEth_inval (s : State) (p : Nat) (f : EthPort → EthPort) : (s.modEth p f).inval = s.inval := rfl
@[simp] theorem State.modEth_regs (s : State) (p : Nat) (f : EthPort → EthPort) : (s.modEth p f).regs = s.regs := rfl
@[simp] theorem State.modEth_powered (s : State) (p : Nat) (f : EthPort → EthPort) : (s.modEth p f).powered = s.powered := rfl
@[simp] theorem State.modEth_hostOut (s : State) (p : Nat) (f : EthPort → EthPort) : (s.modEth p f).hostOut = s.hostOut := rfl
@[simp] theorem State.modEth_armCount (s : State) (p : Nat) (f : EthPort → EthPort) : (s.modEth p f).armCount = s.armCount := rfl
@[simp] theorem State.modEth_bridges (s : State) (p : Nat) (f : EthPort → EthPort) : (s.modEth p f).bridges = s.bridges := rfl
@[simp] theorem State.modEth_rollback (s : State) (p : Nat) (f : EthPort → EthPort) : (s.modEth p f).rollback = s.rollback := rfl
@[simp] theorem State.modEth_images (s : State) (p : Nat) (f : EthPort → EthPort) : (s.modEth p f).images = s.images := rfl

/-! ### State.modQp -/

@[simp] theorem State.modQp_sched (s : State) (p q : Nat) (f : Qp → Qp) : (s.modQp p q f).sched = s.sched := rfl
@[simp] theorem State.modQp_cur (s : State) (p q : Nat) (f : Qp → Qp) : (s.modQp p q f).cur = s.cur := rfl
@[simp] theorem State.modQp_fresh (s : State) (p q : Nat) (f : Qp → Qp) : (s.modQp p q f).fresh = s.fresh := rfl
@[simp] theorem State.modQp_nextId (s : State) (p q : Nat) (f : Qp → Qp) : (s.modQp p q f).nextId = s.nextId := rfl
@[simp] theorem State.modQp_pace (s : State) (p q : Nat) (f : Qp → Qp) : (s.modQp p q f).pace = s.pace := rfl
@[simp] theorem State.modQp_window (s : State) (p q : Nat) (f : Qp → Qp) : (s.modQp p q f).window = s.window := rfl
@[simp] theorem State.modQp_mem (s : State) (p q : Nat) (f : Qp → Qp) : (s.modQp p q f).mem = s.mem := rfl
@[simp] theorem State.modQp_hostMem (s : State) (p q : Nat) (f : Qp → Qp) : (s.modQp p q f).hostMem = s.hostMem := rfl
@[simp] theorem State.modQp_poisoned (s : State) (p q : Nat) (f : Qp → Qp) : (s.modQp p q f).poisoned = s.poisoned := rfl
@[simp] theorem State.modQp_cores (s : State) (p q : Nat) (f : Qp → Qp) : (s.modQp p q f).cores = s.cores := rfl
@[simp] theorem State.modQp_plots (s : State) (p q : Nat) (f : Qp → Qp) : (s.modQp p q f).plots = s.plots := rfl
@[simp] theorem State.modQp_lease (s : State) (p q : Nat) (f : Qp → Qp) : (s.modQp p q f).lease = s.lease := rfl
@[simp] theorem State.modQp_flight (s : State) (p q : Nat) (f : Qp → Qp) : (s.modQp p q f).flight = s.flight := rfl
@[simp] theorem State.modQp_accs (s : State) (p q : Nat) (f : Qp → Qp) : (s.modQp p q f).accs = s.accs := rfl
@[simp] theorem State.modQp_walks (s : State) (p q : Nat) (f : Qp → Qp) : (s.modQp p q f).walks = s.walks := rfl
@[simp] theorem State.modQp_squares (s : State) (p q : Nat) (f : Qp → Qp) : (s.modQp p q f).squares = s.squares := rfl
@[simp] theorem State.modQp_barMsgs (s : State) (p q : Nat) (f : Qp → Qp) : (s.modQp p q f).barMsgs = s.barMsgs := rfl
@[simp] theorem State.modQp_waiters (s : State) (p q : Nat) (f : Qp → Qp) : (s.modQp p q f).waiters = s.waiters := rfl
@[simp] theorem State.modQp_dies (s : State) (p q : Nat) (f : Qp → Qp) : (s.modQp p q f).dies = s.dies := rfl
@[simp] theorem State.modQp_links (s : State) (p q : Nat) (f : Qp → Qp) : (s.modQp p q f).links = s.links := rfl
@[simp] theorem State.modQp_hostPend (s : State) (p q : Nat) (f : Qp → Qp) : (s.modQp p q f).hostPend = s.hostPend := rfl
@[simp] theorem State.modQp_hostLines (s : State) (p q : Nat) (f : Qp → Qp) : (s.modQp p q f).hostLines = s.hostLines := rfl
@[simp] theorem State.modQp_frames (s : State) (p q : Nat) (f : Qp → Qp) : (s.modQp p q f).frames = s.frames := rfl
@[simp] theorem State.modQp_resync (s : State) (p q : Nat) (f : Qp → Qp) : (s.modQp p q f).resync = s.resync := rfl
@[simp] theorem State.modQp_engines (s : State) (p q : Nat) (f : Qp → Qp) : (s.modQp p q f).engines = s.engines := rfl
@[simp] theorem State.modQp_groups (s : State) (p q : Nat) (f : Qp → Qp) : (s.modQp p q f).groups = s.groups := rfl
@[simp] theorem State.modQp_queue (s : State) (p q : Nat) (f : Qp → Qp) : (s.modQp p q f).queue = s.queue := rfl
@[simp] theorem State.modQp_overflow (s : State) (p q : Nat) (f : Qp → Qp) : (s.modQp p q f).overflow = s.overflow := rfl
@[simp] theorem State.modQp_claimed (s : State) (p q : Nat) (f : Qp → Qp) : (s.modQp p q f).claimed = s.claimed := rfl
@[simp] theorem State.modQp_waits (s : State) (p q : Nat) (f : Qp → Qp) : (s.modQp p q f).waits = s.waits := rfl
@[simp] theorem State.modQp_launches (s : State) (p q : Nat) (f : Qp → Qp) : (s.modQp p q f).launches = s.launches := rfl
@[simp] theorem State.modQp_clusters (s : State) (p q : Nat) (f : Qp → Qp) : (s.modQp p q f).clusters = s.clusters := rfl
@[simp] theorem State.modQp_shadow (s : State) (p q : Nat) (f : Qp → Qp) : (s.modQp p q f).shadow = s.shadow := rfl
@[simp] theorem State.modQp_watched (s : State) (p q : Nat) (f : Qp → Qp) : (s.modQp p q f).watched = s.watched := rfl
@[simp] theorem State.modQp_acCounters (s : State) (p q : Nat) (f : Qp → Qp) : (s.modQp p q f).acCounters = s.acCounters := rfl
@[simp] theorem State.modQp_splits (s : State) (p q : Nat) (f : Qp → Qp) : (s.modQp p q f).splits = s.splits := rfl
@[simp] theorem State.modQp_inval (s : State) (p q : Nat) (f : Qp → Qp) : (s.modQp p q f).inval = s.inval := rfl
@[simp] theorem State.modQp_regs (s : State) (p q : Nat) (f : Qp → Qp) : (s.modQp p q f).regs = s.regs := rfl
@[simp] theorem State.modQp_powered (s : State) (p q : Nat) (f : Qp → Qp) : (s.modQp p q f).powered = s.powered := rfl
@[simp] theorem State.modQp_hostOut (s : State) (p q : Nat) (f : Qp → Qp) : (s.modQp p q f).hostOut = s.hostOut := rfl
@[simp] theorem State.modQp_armCount (s : State) (p q : Nat) (f : Qp → Qp) : (s.modQp p q f).armCount = s.armCount := rfl
@[simp] theorem State.modQp_bridges (s : State) (p q : Nat) (f : Qp → Qp) : (s.modQp p q f).bridges = s.bridges := rfl
@[simp] theorem State.modQp_rollback (s : State) (p q : Nat) (f : Qp → Qp) : (s.modQp p q f).rollback = s.rollback := rfl
@[simp] theorem State.modQp_images (s : State) (p q : Nat) (f : Qp → Qp) : (s.modQp p q f).images = s.images := rfl

/-! ### State.modSquare -/

@[simp] theorem State.modSquare_sched (s : State) (n : Nat) (f : Square → Square) : (s.modSquare n f).sched = s.sched := rfl
@[simp] theorem State.modSquare_cur (s : State) (n : Nat) (f : Square → Square) : (s.modSquare n f).cur = s.cur := rfl
@[simp] theorem State.modSquare_fresh (s : State) (n : Nat) (f : Square → Square) : (s.modSquare n f).fresh = s.fresh := rfl
@[simp] theorem State.modSquare_nextId (s : State) (n : Nat) (f : Square → Square) : (s.modSquare n f).nextId = s.nextId := rfl
@[simp] theorem State.modSquare_pace (s : State) (n : Nat) (f : Square → Square) : (s.modSquare n f).pace = s.pace := rfl
@[simp] theorem State.modSquare_window (s : State) (n : Nat) (f : Square → Square) : (s.modSquare n f).window = s.window := rfl
@[simp] theorem State.modSquare_mem (s : State) (n : Nat) (f : Square → Square) : (s.modSquare n f).mem = s.mem := rfl
@[simp] theorem State.modSquare_hostMem (s : State) (n : Nat) (f : Square → Square) : (s.modSquare n f).hostMem = s.hostMem := rfl
@[simp] theorem State.modSquare_poisoned (s : State) (n : Nat) (f : Square → Square) : (s.modSquare n f).poisoned = s.poisoned := rfl
@[simp] theorem State.modSquare_cores (s : State) (n : Nat) (f : Square → Square) : (s.modSquare n f).cores = s.cores := rfl
@[simp] theorem State.modSquare_plots (s : State) (n : Nat) (f : Square → Square) : (s.modSquare n f).plots = s.plots := rfl
@[simp] theorem State.modSquare_lease (s : State) (n : Nat) (f : Square → Square) : (s.modSquare n f).lease = s.lease := rfl
@[simp] theorem State.modSquare_flight (s : State) (n : Nat) (f : Square → Square) : (s.modSquare n f).flight = s.flight := rfl
@[simp] theorem State.modSquare_accs (s : State) (n : Nat) (f : Square → Square) : (s.modSquare n f).accs = s.accs := rfl
@[simp] theorem State.modSquare_walks (s : State) (n : Nat) (f : Square → Square) : (s.modSquare n f).walks = s.walks := rfl
@[simp] theorem State.modSquare_barMsgs (s : State) (n : Nat) (f : Square → Square) : (s.modSquare n f).barMsgs = s.barMsgs := rfl
@[simp] theorem State.modSquare_waiters (s : State) (n : Nat) (f : Square → Square) : (s.modSquare n f).waiters = s.waiters := rfl
@[simp] theorem State.modSquare_dies (s : State) (n : Nat) (f : Square → Square) : (s.modSquare n f).dies = s.dies := rfl
@[simp] theorem State.modSquare_links (s : State) (n : Nat) (f : Square → Square) : (s.modSquare n f).links = s.links := rfl
@[simp] theorem State.modSquare_hostPend (s : State) (n : Nat) (f : Square → Square) : (s.modSquare n f).hostPend = s.hostPend := rfl
@[simp] theorem State.modSquare_hostLines (s : State) (n : Nat) (f : Square → Square) : (s.modSquare n f).hostLines = s.hostLines := rfl
@[simp] theorem State.modSquare_frames (s : State) (n : Nat) (f : Square → Square) : (s.modSquare n f).frames = s.frames := rfl
@[simp] theorem State.modSquare_resync (s : State) (n : Nat) (f : Square → Square) : (s.modSquare n f).resync = s.resync := rfl
@[simp] theorem State.modSquare_engines (s : State) (n : Nat) (f : Square → Square) : (s.modSquare n f).engines = s.engines := rfl
@[simp] theorem State.modSquare_groups (s : State) (n : Nat) (f : Square → Square) : (s.modSquare n f).groups = s.groups := rfl
@[simp] theorem State.modSquare_queue (s : State) (n : Nat) (f : Square → Square) : (s.modSquare n f).queue = s.queue := rfl
@[simp] theorem State.modSquare_overflow (s : State) (n : Nat) (f : Square → Square) : (s.modSquare n f).overflow = s.overflow := rfl
@[simp] theorem State.modSquare_claimed (s : State) (n : Nat) (f : Square → Square) : (s.modSquare n f).claimed = s.claimed := rfl
@[simp] theorem State.modSquare_waits (s : State) (n : Nat) (f : Square → Square) : (s.modSquare n f).waits = s.waits := rfl
@[simp] theorem State.modSquare_launches (s : State) (n : Nat) (f : Square → Square) : (s.modSquare n f).launches = s.launches := rfl
@[simp] theorem State.modSquare_clusters (s : State) (n : Nat) (f : Square → Square) : (s.modSquare n f).clusters = s.clusters := rfl
@[simp] theorem State.modSquare_eth (s : State) (n : Nat) (f : Square → Square) : (s.modSquare n f).eth = s.eth := rfl
@[simp] theorem State.modSquare_shadow (s : State) (n : Nat) (f : Square → Square) : (s.modSquare n f).shadow = s.shadow := rfl
@[simp] theorem State.modSquare_watched (s : State) (n : Nat) (f : Square → Square) : (s.modSquare n f).watched = s.watched := rfl
@[simp] theorem State.modSquare_acCounters (s : State) (n : Nat) (f : Square → Square) : (s.modSquare n f).acCounters = s.acCounters := rfl
@[simp] theorem State.modSquare_splits (s : State) (n : Nat) (f : Square → Square) : (s.modSquare n f).splits = s.splits := rfl
@[simp] theorem State.modSquare_inval (s : State) (n : Nat) (f : Square → Square) : (s.modSquare n f).inval = s.inval := rfl
@[simp] theorem State.modSquare_regs (s : State) (n : Nat) (f : Square → Square) : (s.modSquare n f).regs = s.regs := rfl
@[simp] theorem State.modSquare_powered (s : State) (n : Nat) (f : Square → Square) : (s.modSquare n f).powered = s.powered := rfl
@[simp] theorem State.modSquare_hostOut (s : State) (n : Nat) (f : Square → Square) : (s.modSquare n f).hostOut = s.hostOut := rfl
@[simp] theorem State.modSquare_armCount (s : State) (n : Nat) (f : Square → Square) : (s.modSquare n f).armCount = s.armCount := rfl
@[simp] theorem State.modSquare_bridges (s : State) (n : Nat) (f : Square → Square) : (s.modSquare n f).bridges = s.bridges := rfl
@[simp] theorem State.modSquare_rollback (s : State) (n : Nat) (f : Square → Square) : (s.modSquare n f).rollback = s.rollback := rfl
@[simp] theorem State.modSquare_images (s : State) (n : Nat) (f : Square → Square) : (s.modSquare n f).images = s.images := rfl

/-! ### State.setLease -/

@[simp] theorem State.setLease_sched (s : State) (c : Nat) (l : Lease) : (s.setLease c l).sched = s.sched := rfl
@[simp] theorem State.setLease_cur (s : State) (c : Nat) (l : Lease) : (s.setLease c l).cur = s.cur := rfl
@[simp] theorem State.setLease_fresh (s : State) (c : Nat) (l : Lease) : (s.setLease c l).fresh = s.fresh := rfl
@[simp] theorem State.setLease_nextId (s : State) (c : Nat) (l : Lease) : (s.setLease c l).nextId = s.nextId := rfl
@[simp] theorem State.setLease_pace (s : State) (c : Nat) (l : Lease) : (s.setLease c l).pace = s.pace := rfl
@[simp] theorem State.setLease_window (s : State) (c : Nat) (l : Lease) : (s.setLease c l).window = s.window := rfl
@[simp] theorem State.setLease_mem (s : State) (c : Nat) (l : Lease) : (s.setLease c l).mem = s.mem := rfl
@[simp] theorem State.setLease_hostMem (s : State) (c : Nat) (l : Lease) : (s.setLease c l).hostMem = s.hostMem := rfl
@[simp] theorem State.setLease_poisoned (s : State) (c : Nat) (l : Lease) : (s.setLease c l).poisoned = s.poisoned := rfl
@[simp] theorem State.setLease_cores (s : State) (c : Nat) (l : Lease) : (s.setLease c l).cores = s.cores := rfl
@[simp] theorem State.setLease_plots (s : State) (c : Nat) (l : Lease) : (s.setLease c l).plots = s.plots := rfl
@[simp] theorem State.setLease_flight (s : State) (c : Nat) (l : Lease) : (s.setLease c l).flight = s.flight := rfl
@[simp] theorem State.setLease_accs (s : State) (c : Nat) (l : Lease) : (s.setLease c l).accs = s.accs := rfl
@[simp] theorem State.setLease_walks (s : State) (c : Nat) (l : Lease) : (s.setLease c l).walks = s.walks := rfl
@[simp] theorem State.setLease_squares (s : State) (c : Nat) (l : Lease) : (s.setLease c l).squares = s.squares := rfl
@[simp] theorem State.setLease_barMsgs (s : State) (c : Nat) (l : Lease) : (s.setLease c l).barMsgs = s.barMsgs := rfl
@[simp] theorem State.setLease_waiters (s : State) (c : Nat) (l : Lease) : (s.setLease c l).waiters = s.waiters := rfl
@[simp] theorem State.setLease_dies (s : State) (c : Nat) (l : Lease) : (s.setLease c l).dies = s.dies := rfl
@[simp] theorem State.setLease_links (s : State) (c : Nat) (l : Lease) : (s.setLease c l).links = s.links := rfl
@[simp] theorem State.setLease_hostPend (s : State) (c : Nat) (l : Lease) : (s.setLease c l).hostPend = s.hostPend := rfl
@[simp] theorem State.setLease_hostLines (s : State) (c : Nat) (l : Lease) : (s.setLease c l).hostLines = s.hostLines := rfl
@[simp] theorem State.setLease_frames (s : State) (c : Nat) (l : Lease) : (s.setLease c l).frames = s.frames := rfl
@[simp] theorem State.setLease_resync (s : State) (c : Nat) (l : Lease) : (s.setLease c l).resync = s.resync := rfl
@[simp] theorem State.setLease_engines (s : State) (c : Nat) (l : Lease) : (s.setLease c l).engines = s.engines := rfl
@[simp] theorem State.setLease_groups (s : State) (c : Nat) (l : Lease) : (s.setLease c l).groups = s.groups := rfl
@[simp] theorem State.setLease_queue (s : State) (c : Nat) (l : Lease) : (s.setLease c l).queue = s.queue := rfl
@[simp] theorem State.setLease_overflow (s : State) (c : Nat) (l : Lease) : (s.setLease c l).overflow = s.overflow := rfl
@[simp] theorem State.setLease_claimed (s : State) (c : Nat) (l : Lease) : (s.setLease c l).claimed = s.claimed := rfl
@[simp] theorem State.setLease_waits (s : State) (c : Nat) (l : Lease) : (s.setLease c l).waits = s.waits := rfl
@[simp] theorem State.setLease_launches (s : State) (c : Nat) (l : Lease) : (s.setLease c l).launches = s.launches := rfl
@[simp] theorem State.setLease_clusters (s : State) (c : Nat) (l : Lease) : (s.setLease c l).clusters = s.clusters := rfl
@[simp] theorem State.setLease_eth (s : State) (c : Nat) (l : Lease) : (s.setLease c l).eth = s.eth := rfl
@[simp] theorem State.setLease_shadow (s : State) (c : Nat) (l : Lease) : (s.setLease c l).shadow = s.shadow := rfl
@[simp] theorem State.setLease_watched (s : State) (c : Nat) (l : Lease) : (s.setLease c l).watched = s.watched := rfl
@[simp] theorem State.setLease_acCounters (s : State) (c : Nat) (l : Lease) : (s.setLease c l).acCounters = s.acCounters := rfl
@[simp] theorem State.setLease_splits (s : State) (c : Nat) (l : Lease) : (s.setLease c l).splits = s.splits := rfl
@[simp] theorem State.setLease_inval (s : State) (c : Nat) (l : Lease) : (s.setLease c l).inval = s.inval := rfl
@[simp] theorem State.setLease_regs (s : State) (c : Nat) (l : Lease) : (s.setLease c l).regs = s.regs := rfl
@[simp] theorem State.setLease_powered (s : State) (c : Nat) (l : Lease) : (s.setLease c l).powered = s.powered := rfl
@[simp] theorem State.setLease_hostOut (s : State) (c : Nat) (l : Lease) : (s.setLease c l).hostOut = s.hostOut := rfl
@[simp] theorem State.setLease_armCount (s : State) (c : Nat) (l : Lease) : (s.setLease c l).armCount = s.armCount := rfl
@[simp] theorem State.setLease_bridges (s : State) (c : Nat) (l : Lease) : (s.setLease c l).bridges = s.bridges := rfl
@[simp] theorem State.setLease_rollback (s : State) (c : Nat) (l : Lease) : (s.setLease c l).rollback = s.rollback := rfl
@[simp] theorem State.setLease_images (s : State) (c : Nat) (l : Lease) : (s.setLease c l).images = s.images := rfl

/-! ### State.modPlot -/

@[simp] theorem State.modPlot_sched (s : State) (id : Nat) (f : Plot → Plot) : (s.modPlot id f).sched = s.sched := rfl
@[simp] theorem State.modPlot_cur (s : State) (id : Nat) (f : Plot → Plot) : (s.modPlot id f).cur = s.cur := rfl
@[simp] theorem State.modPlot_fresh (s : State) (id : Nat) (f : Plot → Plot) : (s.modPlot id f).fresh = s.fresh := rfl
@[simp] theorem State.modPlot_nextId (s : State) (id : Nat) (f : Plot → Plot) : (s.modPlot id f).nextId = s.nextId := rfl
@[simp] theorem State.modPlot_pace (s : State) (id : Nat) (f : Plot → Plot) : (s.modPlot id f).pace = s.pace := rfl
@[simp] theorem State.modPlot_window (s : State) (id : Nat) (f : Plot → Plot) : (s.modPlot id f).window = s.window := rfl
@[simp] theorem State.modPlot_mem (s : State) (id : Nat) (f : Plot → Plot) : (s.modPlot id f).mem = s.mem := rfl
@[simp] theorem State.modPlot_hostMem (s : State) (id : Nat) (f : Plot → Plot) : (s.modPlot id f).hostMem = s.hostMem := rfl
@[simp] theorem State.modPlot_poisoned (s : State) (id : Nat) (f : Plot → Plot) : (s.modPlot id f).poisoned = s.poisoned := rfl
@[simp] theorem State.modPlot_cores (s : State) (id : Nat) (f : Plot → Plot) : (s.modPlot id f).cores = s.cores := rfl
@[simp] theorem State.modPlot_lease (s : State) (id : Nat) (f : Plot → Plot) : (s.modPlot id f).lease = s.lease := rfl
@[simp] theorem State.modPlot_flight (s : State) (id : Nat) (f : Plot → Plot) : (s.modPlot id f).flight = s.flight := rfl
@[simp] theorem State.modPlot_accs (s : State) (id : Nat) (f : Plot → Plot) : (s.modPlot id f).accs = s.accs := rfl
@[simp] theorem State.modPlot_walks (s : State) (id : Nat) (f : Plot → Plot) : (s.modPlot id f).walks = s.walks := rfl
@[simp] theorem State.modPlot_squares (s : State) (id : Nat) (f : Plot → Plot) : (s.modPlot id f).squares = s.squares := rfl
@[simp] theorem State.modPlot_barMsgs (s : State) (id : Nat) (f : Plot → Plot) : (s.modPlot id f).barMsgs = s.barMsgs := rfl
@[simp] theorem State.modPlot_waiters (s : State) (id : Nat) (f : Plot → Plot) : (s.modPlot id f).waiters = s.waiters := rfl
@[simp] theorem State.modPlot_dies (s : State) (id : Nat) (f : Plot → Plot) : (s.modPlot id f).dies = s.dies := rfl
@[simp] theorem State.modPlot_links (s : State) (id : Nat) (f : Plot → Plot) : (s.modPlot id f).links = s.links := rfl
@[simp] theorem State.modPlot_hostPend (s : State) (id : Nat) (f : Plot → Plot) : (s.modPlot id f).hostPend = s.hostPend := rfl
@[simp] theorem State.modPlot_hostLines (s : State) (id : Nat) (f : Plot → Plot) : (s.modPlot id f).hostLines = s.hostLines := rfl
@[simp] theorem State.modPlot_frames (s : State) (id : Nat) (f : Plot → Plot) : (s.modPlot id f).frames = s.frames := rfl
@[simp] theorem State.modPlot_resync (s : State) (id : Nat) (f : Plot → Plot) : (s.modPlot id f).resync = s.resync := rfl
@[simp] theorem State.modPlot_engines (s : State) (id : Nat) (f : Plot → Plot) : (s.modPlot id f).engines = s.engines := rfl
@[simp] theorem State.modPlot_groups (s : State) (id : Nat) (f : Plot → Plot) : (s.modPlot id f).groups = s.groups := rfl
@[simp] theorem State.modPlot_queue (s : State) (id : Nat) (f : Plot → Plot) : (s.modPlot id f).queue = s.queue := rfl
@[simp] theorem State.modPlot_overflow (s : State) (id : Nat) (f : Plot → Plot) : (s.modPlot id f).overflow = s.overflow := rfl
@[simp] theorem State.modPlot_claimed (s : State) (id : Nat) (f : Plot → Plot) : (s.modPlot id f).claimed = s.claimed := rfl
@[simp] theorem State.modPlot_waits (s : State) (id : Nat) (f : Plot → Plot) : (s.modPlot id f).waits = s.waits := rfl
@[simp] theorem State.modPlot_launches (s : State) (id : Nat) (f : Plot → Plot) : (s.modPlot id f).launches = s.launches := rfl
@[simp] theorem State.modPlot_clusters (s : State) (id : Nat) (f : Plot → Plot) : (s.modPlot id f).clusters = s.clusters := rfl
@[simp] theorem State.modPlot_eth (s : State) (id : Nat) (f : Plot → Plot) : (s.modPlot id f).eth = s.eth := rfl
@[simp] theorem State.modPlot_shadow (s : State) (id : Nat) (f : Plot → Plot) : (s.modPlot id f).shadow = s.shadow := rfl
@[simp] theorem State.modPlot_watched (s : State) (id : Nat) (f : Plot → Plot) : (s.modPlot id f).watched = s.watched := rfl
@[simp] theorem State.modPlot_acCounters (s : State) (id : Nat) (f : Plot → Plot) : (s.modPlot id f).acCounters = s.acCounters := rfl
@[simp] theorem State.modPlot_splits (s : State) (id : Nat) (f : Plot → Plot) : (s.modPlot id f).splits = s.splits := rfl
@[simp] theorem State.modPlot_inval (s : State) (id : Nat) (f : Plot → Plot) : (s.modPlot id f).inval = s.inval := rfl
@[simp] theorem State.modPlot_regs (s : State) (id : Nat) (f : Plot → Plot) : (s.modPlot id f).regs = s.regs := rfl
@[simp] theorem State.modPlot_powered (s : State) (id : Nat) (f : Plot → Plot) : (s.modPlot id f).powered = s.powered := rfl
@[simp] theorem State.modPlot_hostOut (s : State) (id : Nat) (f : Plot → Plot) : (s.modPlot id f).hostOut = s.hostOut := rfl
@[simp] theorem State.modPlot_armCount (s : State) (id : Nat) (f : Plot → Plot) : (s.modPlot id f).armCount = s.armCount := rfl
@[simp] theorem State.modPlot_bridges (s : State) (id : Nat) (f : Plot → Plot) : (s.modPlot id f).bridges = s.bridges := rfl
@[simp] theorem State.modPlot_rollback (s : State) (id : Nat) (f : Plot → Plot) : (s.modPlot id f).rollback = s.rollback := rfl
@[simp] theorem State.modPlot_images (s : State) (id : Nat) (f : Plot → Plot) : (s.modPlot id f).images = s.images := rfl

/-! ### State.bump -/

@[simp] theorem State.bump_sched (s : State) : (s.bump).sched = s.sched := rfl
@[simp] theorem State.bump_cur (s : State) : (s.bump).cur = s.cur := rfl
@[simp] theorem State.bump_fresh (s : State) : (s.bump).fresh = s.fresh := rfl
@[simp] theorem State.bump_pace (s : State) : (s.bump).pace = s.pace := rfl
@[simp] theorem State.bump_window (s : State) : (s.bump).window = s.window := rfl
@[simp] theorem State.bump_mem (s : State) : (s.bump).mem = s.mem := rfl
@[simp] theorem State.bump_hostMem (s : State) : (s.bump).hostMem = s.hostMem := rfl
@[simp] theorem State.bump_poisoned (s : State) : (s.bump).poisoned = s.poisoned := rfl
@[simp] theorem State.bump_cores (s : State) : (s.bump).cores = s.cores := rfl
@[simp] theorem State.bump_plots (s : State) : (s.bump).plots = s.plots := rfl
@[simp] theorem State.bump_lease (s : State) : (s.bump).lease = s.lease := rfl
@[simp] theorem State.bump_flight (s : State) : (s.bump).flight = s.flight := rfl
@[simp] theorem State.bump_accs (s : State) : (s.bump).accs = s.accs := rfl
@[simp] theorem State.bump_walks (s : State) : (s.bump).walks = s.walks := rfl
@[simp] theorem State.bump_squares (s : State) : (s.bump).squares = s.squares := rfl
@[simp] theorem State.bump_barMsgs (s : State) : (s.bump).barMsgs = s.barMsgs := rfl
@[simp] theorem State.bump_waiters (s : State) : (s.bump).waiters = s.waiters := rfl
@[simp] theorem State.bump_dies (s : State) : (s.bump).dies = s.dies := rfl
@[simp] theorem State.bump_links (s : State) : (s.bump).links = s.links := rfl
@[simp] theorem State.bump_hostPend (s : State) : (s.bump).hostPend = s.hostPend := rfl
@[simp] theorem State.bump_hostLines (s : State) : (s.bump).hostLines = s.hostLines := rfl
@[simp] theorem State.bump_frames (s : State) : (s.bump).frames = s.frames := rfl
@[simp] theorem State.bump_resync (s : State) : (s.bump).resync = s.resync := rfl
@[simp] theorem State.bump_engines (s : State) : (s.bump).engines = s.engines := rfl
@[simp] theorem State.bump_groups (s : State) : (s.bump).groups = s.groups := rfl
@[simp] theorem State.bump_queue (s : State) : (s.bump).queue = s.queue := rfl
@[simp] theorem State.bump_overflow (s : State) : (s.bump).overflow = s.overflow := rfl
@[simp] theorem State.bump_claimed (s : State) : (s.bump).claimed = s.claimed := rfl
@[simp] theorem State.bump_waits (s : State) : (s.bump).waits = s.waits := rfl
@[simp] theorem State.bump_launches (s : State) : (s.bump).launches = s.launches := rfl
@[simp] theorem State.bump_clusters (s : State) : (s.bump).clusters = s.clusters := rfl
@[simp] theorem State.bump_eth (s : State) : (s.bump).eth = s.eth := rfl
@[simp] theorem State.bump_shadow (s : State) : (s.bump).shadow = s.shadow := rfl
@[simp] theorem State.bump_watched (s : State) : (s.bump).watched = s.watched := rfl
@[simp] theorem State.bump_acCounters (s : State) : (s.bump).acCounters = s.acCounters := rfl
@[simp] theorem State.bump_splits (s : State) : (s.bump).splits = s.splits := rfl
@[simp] theorem State.bump_inval (s : State) : (s.bump).inval = s.inval := rfl
@[simp] theorem State.bump_regs (s : State) : (s.bump).regs = s.regs := rfl
@[simp] theorem State.bump_powered (s : State) : (s.bump).powered = s.powered := rfl
@[simp] theorem State.bump_hostOut (s : State) : (s.bump).hostOut = s.hostOut := rfl
@[simp] theorem State.bump_armCount (s : State) : (s.bump).armCount = s.armCount := rfl
@[simp] theorem State.bump_bridges (s : State) : (s.bump).bridges = s.bridges := rfl
@[simp] theorem State.bump_rollback (s : State) : (s.bump).rollback = s.rollback := rfl
@[simp] theorem State.bump_images (s : State) : (s.bump).images = s.images := rfl

/-! ### State.count writes only the performance counters -/

@[simp] theorem State.count_sched (s : State) (d i n : Nat) : (s.count d i n).sched = s.sched := by
  unfold State.count; split <;> rfl
@[simp] theorem State.count_cur (s : State) (d i n : Nat) : (s.count d i n).cur = s.cur := by
  unfold State.count; split <;> rfl
@[simp] theorem State.count_fresh (s : State) (d i n : Nat) : (s.count d i n).fresh = s.fresh := by
  unfold State.count; split <;> rfl
@[simp] theorem State.count_nextId (s : State) (d i n : Nat) : (s.count d i n).nextId = s.nextId := by
  unfold State.count; split <;> rfl
@[simp] theorem State.count_pace (s : State) (d i n : Nat) : (s.count d i n).pace = s.pace := by
  unfold State.count; split <;> rfl
@[simp] theorem State.count_window (s : State) (d i n : Nat) : (s.count d i n).window = s.window := by
  unfold State.count; split <;> rfl
@[simp] theorem State.count_mem (s : State) (d i n : Nat) : (s.count d i n).mem = s.mem := by
  unfold State.count; split <;> rfl
@[simp] theorem State.count_hostMem (s : State) (d i n : Nat) : (s.count d i n).hostMem = s.hostMem := by
  unfold State.count; split <;> rfl
@[simp] theorem State.count_poisoned (s : State) (d i n : Nat) : (s.count d i n).poisoned = s.poisoned := by
  unfold State.count; split <;> rfl
@[simp] theorem State.count_cores (s : State) (d i n : Nat) : (s.count d i n).cores = s.cores := by
  unfold State.count; split <;> rfl
@[simp] theorem State.count_plots (s : State) (d i n : Nat) : (s.count d i n).plots = s.plots := by
  unfold State.count; split <;> rfl
@[simp] theorem State.count_lease (s : State) (d i n : Nat) : (s.count d i n).lease = s.lease := by
  unfold State.count; split <;> rfl
@[simp] theorem State.count_flight (s : State) (d i n : Nat) : (s.count d i n).flight = s.flight := by
  unfold State.count; split <;> rfl
@[simp] theorem State.count_accs (s : State) (d i n : Nat) : (s.count d i n).accs = s.accs := by
  unfold State.count; split <;> rfl
@[simp] theorem State.count_walks (s : State) (d i n : Nat) : (s.count d i n).walks = s.walks := by
  unfold State.count; split <;> rfl
@[simp] theorem State.count_squares (s : State) (d i n : Nat) : (s.count d i n).squares = s.squares := by
  unfold State.count; split <;> rfl
@[simp] theorem State.count_barMsgs (s : State) (d i n : Nat) : (s.count d i n).barMsgs = s.barMsgs := by
  unfold State.count; split <;> rfl
@[simp] theorem State.count_waiters (s : State) (d i n : Nat) : (s.count d i n).waiters = s.waiters := by
  unfold State.count; split <;> rfl
@[simp] theorem State.count_dies (s : State) (d i n : Nat) : (s.count d i n).dies = s.dies := by
  unfold State.count; split <;> rfl
@[simp] theorem State.count_links (s : State) (d i n : Nat) : (s.count d i n).links = s.links := by
  unfold State.count; split <;> rfl
@[simp] theorem State.count_hostPend (s : State) (d i n : Nat) : (s.count d i n).hostPend = s.hostPend := by
  unfold State.count; split <;> rfl
@[simp] theorem State.count_hostLines (s : State) (d i n : Nat) : (s.count d i n).hostLines = s.hostLines := by
  unfold State.count; split <;> rfl
@[simp] theorem State.count_frames (s : State) (d i n : Nat) : (s.count d i n).frames = s.frames := by
  unfold State.count; split <;> rfl
@[simp] theorem State.count_resync (s : State) (d i n : Nat) : (s.count d i n).resync = s.resync := by
  unfold State.count; split <;> rfl
@[simp] theorem State.count_engines (s : State) (d i n : Nat) : (s.count d i n).engines = s.engines := by
  unfold State.count; split <;> rfl
@[simp] theorem State.count_groups (s : State) (d i n : Nat) : (s.count d i n).groups = s.groups := by
  unfold State.count; split <;> rfl
@[simp] theorem State.count_queue (s : State) (d i n : Nat) : (s.count d i n).queue = s.queue := by
  unfold State.count; split <;> rfl
@[simp] theorem State.count_overflow (s : State) (d i n : Nat) : (s.count d i n).overflow = s.overflow := by
  unfold State.count; split <;> rfl
@[simp] theorem State.count_claimed (s : State) (d i n : Nat) : (s.count d i n).claimed = s.claimed := by
  unfold State.count; split <;> rfl
@[simp] theorem State.count_waits (s : State) (d i n : Nat) : (s.count d i n).waits = s.waits := by
  unfold State.count; split <;> rfl
@[simp] theorem State.count_launches (s : State) (d i n : Nat) : (s.count d i n).launches = s.launches := by
  unfold State.count; split <;> rfl
@[simp] theorem State.count_clusters (s : State) (d i n : Nat) : (s.count d i n).clusters = s.clusters := by
  unfold State.count; split <;> rfl
@[simp] theorem State.count_eth (s : State) (d i n : Nat) : (s.count d i n).eth = s.eth := by
  unfold State.count; split <;> rfl
@[simp] theorem State.count_shadow (s : State) (d i n : Nat) : (s.count d i n).shadow = s.shadow := by
  unfold State.count; split <;> rfl
@[simp] theorem State.count_watched (s : State) (d i n : Nat) : (s.count d i n).watched = s.watched := by
  unfold State.count; split <;> rfl
@[simp] theorem State.count_acCounters (s : State) (d i n : Nat) : (s.count d i n).acCounters = s.acCounters := by
  unfold State.count; split <;> rfl
@[simp] theorem State.count_splits (s : State) (d i n : Nat) : (s.count d i n).splits = s.splits := by
  unfold State.count; split <;> rfl
@[simp] theorem State.count_inval (s : State) (d i n : Nat) : (s.count d i n).inval = s.inval := by
  unfold State.count; split <;> rfl
@[simp] theorem State.count_powered (s : State) (d i n : Nat) : (s.count d i n).powered = s.powered := by
  unfold State.count; split <;> rfl
@[simp] theorem State.count_hostOut (s : State) (d i n : Nat) : (s.count d i n).hostOut = s.hostOut := by
  unfold State.count; split <;> rfl
@[simp] theorem State.count_armCount (s : State) (d i n : Nat) : (s.count d i n).armCount = s.armCount := by
  unfold State.count; split <;> rfl
@[simp] theorem State.count_bridges (s : State) (d i n : Nat) : (s.count d i n).bridges = s.bridges := by
  unfold State.count; split <;> rfl
@[simp] theorem State.count_rollback (s : State) (d i n : Nat) : (s.count d i n).rollback = s.rollback := by
  unfold State.count; split <;> rfl
@[simp] theorem State.count_images (s : State) (d i n : Nat) : (s.count d i n).images = s.images := by
  unfold State.count; split <;> rfl

/-! ### What is read back -/

@[simp] theorem State.core_setCore_self (s : State) (c : Nat) (k : Core) : (s.setCore c k).core c = k := tget_tset_self _ _ _ _

theorem State.core_setCore_other (s : State) {c d : Nat} (k : Core) (h : d ≠ c) : (s.setCore c k).core d = s.core d :=
  tget_tset_other _ _ _ h

@[simp] theorem State.core_modCore_self (s : State) (c : Nat) (f : Core → Core) : (s.modCore c f).core c = f (s.core c) :=
  tget_tset_self _ _ _ _

theorem State.core_modCore_other (s : State) {c d : Nat} (f : Core → Core) (h : d ≠ c) : (s.modCore c f).core d = s.core d :=
  tget_tset_other _ _ _ h

@[simp] theorem State.leaseOf_setLease_self (s : State) (c : Nat) (l : Lease) : (s.setLease c l).leaseOf c = l :=
  tget_tset_self _ _ _ _

@[simp] theorem State.cluster_modCluster_self (s : State) (k : Nat) (f : Cluster → Cluster) :
    (s.modCluster k f).cluster k = f (s.cluster k) := tget_tset_self _ _ _ _

@[simp] theorem State.die_modDie_self (s : State) (d : Nat) (f : Die → Die) : (s.modDie d f).die d = f (s.die d) :=
  tget_tset_self _ _ _ _

@[simp] theorem State.link_modLink_self (s : State) (l : Nat) (f : LinkPort → LinkPort) : (s.modLink l f).link l = f (s.link l) :=
  tget_tset_self _ _ _ _

@[simp] theorem State.engine_modEngine_self (s : State) (e : Nat) (f : CopyEng → CopyEng) :
    (s.modEngine e f).engine e = f (s.engine e) := tget_tset_self _ _ _ _

@[simp] theorem State.ethPort_modEth_self (s : State) (p : Nat) (f : EthPort → EthPort) :
    (s.modEth p f).ethPort p = f (s.ethPort p) := tget_tset_self _ _ _ _

@[simp] theorem State.square_modSquare_self (s : State) (n : Nat) (f : Square → Square) :
    (s.modSquare n f).square n = f (s.square n) := tget_tset_self _ _ _ _

@[simp] theorem Core.handler_modHandler_self (k : Core) (c : Nat) (f : Handler → Handler) :
    (k.modHandler c f).handler c = f (k.handler c) := tget_tset_self _ _ _ _

theorem Core.handler_modHandler_other (k : Core) {c d : Nat} (f : Handler → Handler) (h : d ≠ c) :
    (k.modHandler c f).handler d = k.handler d := tget_tset_other _ _ _ h

@[simp] theorem Core.modHandler_plot (k : Core) (c : Nat) (f : Handler → Handler) : (k.modHandler c f).plot = k.plot := rfl
@[simp] theorem Core.modHandler_regs (k : Core) (c : Nat) (f : Handler → Handler) : (k.modHandler c f).regs = k.regs := rfl
@[simp] theorem Core.modHandler_pend (k : Core) (c : Nat) (f : Handler → Handler) : (k.modHandler c f).pend = k.pend := rfl
@[simp] theorem Core.modHandler_pc (k : Core) (c : Nat) (f : Handler → Handler) : (k.modHandler c f).pc = k.pc := rfl
@[simp] theorem Core.modHandler_running (k : Core) (c : Nat) (f : Handler → Handler) : (k.modHandler c f).running = k.running := rfl
@[simp] theorem Core.modHandler_last (k : Core) (c : Nat) (f : Handler → Handler) : (k.modHandler c f).last = k.last := rfl
@[simp] theorem Core.modHandler_chan (k : Core) (c : Nat) (f : Handler → Handler) : (k.modHandler c f).chan = k.chan := rfl
@[simp] theorem Core.modHandler_tcause (k : Core) (c : Nat) (f : Handler → Handler) : (k.modHandler c f).tcause = k.tcause := rfl
@[simp] theorem Core.modHandler_tepc (k : Core) (c : Nat) (f : Handler → Handler) : (k.modHandler c f).tepc = k.tepc := rfl
@[simp] theorem Core.modHandler_tval (k : Core) (c : Nat) (f : Handler → Handler) : (k.modHandler c f).tval = k.tval := rfl
@[simp] theorem Core.modHandler_trqn (k : Core) (c : Nat) (f : Handler → Handler) : (k.modHandler c f).trqn = k.trqn := rfl
@[simp] theorem Core.modHandler_trap (k : Core) (c : Nat) (f : Handler → Handler) : (k.modHandler c f).trap = k.trap := rfl
@[simp] theorem Core.modHandler_held (k : Core) (c : Nat) (f : Handler → Handler) : (k.modHandler c f).held = k.held := rfl
@[simp] theorem Core.modHandler_replay (k : Core) (c : Nat) (f : Handler → Handler) : (k.modHandler c f).replay = k.replay := rfl
@[simp] theorem Core.modHandler_reinj (k : Core) (c : Nat) (f : Handler → Handler) : (k.modHandler c f).reinj = k.reinj := rfl
@[simp] theorem Core.modHandler_lmem (k : Core) (c : Nat) (f : Handler → Handler) : (k.modHandler c f).lmem = k.lmem := rfl
@[simp] theorem Core.modHandler_icache (k : Core) (c : Nat) (f : Handler → Handler) : (k.modHandler c f).icache = k.icache := rfl
@[simp] theorem Core.modHandler_cmds (k : Core) (c : Nat) (f : Handler → Handler) : (k.modHandler c f).cmds = k.cmds := rfl
@[simp] theorem Core.modHandler_arm (k : Core) (c : Nat) (f : Handler → Handler) : (k.modHandler c f).arm = k.arm := rfl
@[simp] theorem Core.modHandler_stopped (k : Core) (c : Nat) (f : Handler → Handler) : (k.modHandler c f).stopped = k.stopped := rfl
@[simp] theorem Core.modHandler_stepping (k : Core) (c : Nat) (f : Handler → Handler) : (k.modHandler c f).stepping = k.stepping := rfl
@[simp] theorem Core.modHandler_acq (k : Core) (c : Nat) (f : Handler → Handler) : (k.modHandler c f).acq = k.acq := rfl
@[simp] theorem Core.modHandler_fence (k : Core) (c : Nat) (f : Handler → Handler) : (k.modHandler c f).fence = k.fence := rfl
@[simp] theorem Core.modHandler_dirty (k : Core) (c : Nat) (f : Handler → Handler) : (k.modHandler c f).dirty = k.dirty := rfl
@[simp] theorem Core.modHandler_probes (k : Core) (c : Nat) (f : Handler → Handler) : (k.modHandler c f).probes = k.probes := rfl
@[simp] theorem Core.modHandler_probeFor (k : Core) (c : Nat) (f : Handler → Handler) : (k.modHandler c f).probeFor = k.probeFor := rfl
@[simp] theorem Core.modHandler_race (k : Core) (c : Nat) (f : Handler → Handler) : (k.modHandler c f).race = k.race := rfl
@[simp] theorem Core.modHandler_tiles (k : Core) (c : Nat) (f : Handler → Handler) : (k.modHandler c f).tiles = k.tiles := rfl
@[simp] theorem Core.modHandler_scratch (k : Core) (c : Nat) (f : Handler → Handler) : (k.modHandler c f).scratch = k.scratch := rfl
@[simp] theorem Core.modHandler_ports (k : Core) (c : Nat) (f : Handler → Handler) : (k.modHandler c f).ports = k.ports := rfl
@[simp] theorem Core.modHandler_cells (k : Core) (c : Nat) (f : Handler → Handler) : (k.modHandler c f).cells = k.cells := rfl
@[simp] theorem Core.modHandler_mat (k : Core) (c : Nat) (f : Handler → Handler) : (k.modHandler c f).mat = k.mat := rfl
@[simp] theorem Core.modHandler_key (k : Core) (c : Nat) (f : Handler → Handler) : (k.modHandler c f).key = k.key := rfl
@[simp] theorem Core.modHandler_slotPos (k : Core) (c : Nat) (f : Handler → Handler) : (k.modHandler c f).slotPos = k.slotPos := rfl
@[simp] theorem Core.modHandler_tcache (k : Core) (c : Nat) (f : Handler → Handler) : (k.modHandler c f).tcache = k.tcache := rfl

end Sys2Proof.Machine
end

