-- ==== Sys2Proof/Laws/Memory.lean ====
section
/-!
SUPPORT. Every operation that writes device or host memory keeps the canonical form, and those that only keep books, or cross the fabric, leave both memories
as they are.
-/

namespace Sys2Proof.Machine

theorem State.memOk_iff (s : State) : s.memOk = true ↔ Memory.wf s.mem = true ∧ Memory.wf s.hostMem = true := by
  simp [State.memOk]

/-- States with the same memories are alike in their form. -/
theorem State.memOk_congr {s t : State} (hm : t.mem = s.mem) (hh : t.hostMem = s.hostMem) (h : s.memOk = true) : t.memOk = true := by
  rw [State.memOk_iff] at *; rw [hm, hh]; exact h

@[simp] theorem fireWatches_mem (s : State) (a n : Nat) : (fireWatches s a n).mem = s.mem := by unfold fireWatches; split <;> rfl
@[simp] theorem fireWatches_hostMem (s : State) (a n : Nat) : (fireWatches s a n).hostMem = s.hostMem := by unfold fireWatches; split <;> rfl

/-- A fold whose every step keeps the form keeps it. -/
theorem memOk_foldl {α : Type} (f : State → α → State) (hf : ∀ s a, s.memOk = true → (f s a).memOk = true) (l : List α) (s : State)
    (h : s.memOk = true) : (l.foldl f s).memOk = true := by
  induction l generalizing s with
  | nil => exact h
  | cons a r ih => exact ih _ (hf s a h)

theorem hbmStore_memOk {s : State} (a : Nat) (bs : List Byte) (h : s.memOk = true) : (hbmStore s a bs).memOk = true := by
  unfold hbmStore
  rw [State.memOk_iff] at *
  simpa using ⟨Memory.wf_mwrite _ _ h.1, h.2⟩

@[simp] theorem backInvalidate_memOk (s : State) (a n : Nat) : (backInvalidate s a n).memOk = s.memOk := rfl

theorem hashStore_memOk {s : State} (pa : Nat) (bs : List Byte) (h : s.memOk = true) : (hashStore s pa bs).memOk = true :=
  memOk_foldl _ (fun _ _ ht => hbmStore_memOk _ _ (by simpa using ht)) _ _ h

/-- A ring keeps the form when its writer does. -/
theorem ringPut_memOk {write : State → Nat → List Byte → State} (hw : ∀ (s : State) pa bs, s.memOk = true → (write s pa bs).memOk = true)
    {s : State} (r : Ring) (bs : List Byte) (h : s.memOk = true) : (ringPut write s r bs).1.memOk = true := by
  unfold ringPut; split
  · exact h
  · exact hw _ _ _ h

theorem logRecord_memOk {s : State} (kind die unit : Nat) (detail : List Byte) (h : s.memOk = true) :
    (logRecord s kind die unit detail).memOk = true :=
  State.memOk_congr rfl rfl (ringPut_memOk (fun _ pa bs => hashStore_memOk pa bs) s.regs.lg _ h)

theorem logParts_memOk {s : State} (xs : List Nat) (h : s.memOk = true) : (logParts s xs).memOk = true :=
  memOk_foldl _ (fun _ _ ht => logRecord_memOk _ _ _ _ ht) _ _ h

theorem hbmWriteBy_memOk {s : State} (byHost : Bool) (a : Nat) (bs : List Byte) (h : s.memOk = true) :
    (hbmWriteBy byHost s a bs).memOk = true :=
  logParts_memOk _ (hbmStore_memOk _ _ (by split <;> simpa using h))

theorem writeHash_memOk {s : State} (pa : Nat) (bs : List Byte) (h : s.memOk = true) : (writeHash s pa bs).memOk = true :=
  memOk_foldl _ (fun _ _ ht => hbmWriteBy_memOk _ _ _ ht) _ _ h

theorem ringAppend_memOk {s : State} (r : Ring) (bs : List Byte) (h : s.memOk = true) : (ringAppend s r bs).1.memOk = true :=
  ringPut_memOk (fun _ pa bs => writeHash_memOk pa bs) r bs h

theorem faultRecord_memOk {s : State} (bs : List Byte) (h : s.memOk = true) : (faultRecord s bs).memOk = true :=
  State.memOk_congr rfl rfl (ringAppend_memOk s.regs.fq bs h)

theorem homeWrite_memOk {s : State} (byHost host : Bool) (addr : Nat) (bs : List Byte) (h : s.memOk = true) :
    (homeWrite s byHost host addr bs).memOk = true := by
  unfold homeWrite; split
  · rw [State.memOk_iff] at *; simpa using ⟨h.1, Memory.wf_mwrite _ _ h.2⟩
  · exact hbmWriteBy_memOk _ _ _ h

theorem storeAt_memOk {s : State} (e : TcEntry) (va : Word) (bs : List Byte) (h : s.memOk = true) : (storeAt s e va bs).memOk = true := by
  unfold storeAt; split
  · rw [State.memOk_iff] at *; simpa using ⟨h.1, Memory.wf_mwrite _ _ h.2⟩
  · exact hbmWriteBy_memOk _ _ _ h

theorem writeVa_memOk {s t : State} {root va : Word} {bs : List Byte} (hw : writeVa s root va bs = .ok t) (h : s.memOk = true) :
    t.memOk = true := by
  unfold writeVa at hw
  split at hw
  · cases hw
  · cases hw
    refine memOk_foldl _ (fun u p hu => ?_) _ _ h
    split
    · exact hu
    · exact storeAt_memOk _ _ _ hu

theorem nodeFault_memOk {s : State} (node : Word) (code : Byte) (tval : Word) (h : s.memOk = true) : (nodeFault s node code tval).memOk = true := by
  unfold nodeFault setSt allOk; split
  · split at * <;> first | exact faultRecord_memOk _ (writeVa_memOk (by assumption) h) | contradiction
  · exact faultRecord_memOk _ h

/-! ### Packets that cross in one step (log 91) -/

@[simp] theorem queueAccess_mem (s : State) (a : Access) : (queueAccess s a).mem = s.mem := rfl
@[simp] theorem queueAccess_hostMem (s : State) (a : Access) : (queueAccess s a).hostMem = s.hostMem := rfl
@[simp] theorem setProbes_mem (s : State) (a : Agent) (v : ProbeView) : (setProbes s a v).mem = s.mem := by unfold setProbes; split <;> rfl
@[simp] theorem setProbes_hostMem (s : State) (a : Agent) (v : ProbeView) : (setProbes s a v).hostMem = s.hostMem := by unfold setProbes; split <;> rfl
@[simp] theorem walkerSend_self (s : State) (a : Nat) (op : Byte) : walkerSend s a a op = some s := by simp [walkerSend]
@[simp] theorem crossRead_self (s : State) (a n : Nat) : crossRead s a a n = some s := by simp [crossRead]
@[simp] theorem crossWrite_self (s : State) (a n : Nat) (trail : Bool) : crossWrite s a a n trail = some s := by simp [crossWrite]
@[simp] theorem checkCount_mem (s : State) (d : Nat) : (checkCount s d).mem = s.mem := by unfold checkCount; split <;> rfl
@[simp] theorem checkCount_hostMem (s : State) (d : Nat) : (checkCount s d).hostMem = s.hostMem := by unfold checkCount; split <;> rfl

theorem countHops_memories (n b fuel a : Nat) (s : State) :
    (countHops n b fuel a s).mem = s.mem ∧ (countHops n b fuel a s).hostMem = s.hostMem := by
  induction fuel generalizing a s with
  | zero => exact ⟨rfl, rfl⟩
  | succ k ih =>
    unfold countHops; split
    · exact ⟨rfl, rfl⟩
    · split
      · exact ⟨rfl, rfl⟩
      · exact ⟨(ih _ _).1.trans (by simp), (ih _ _).2.trans (by simp)⟩

/-- A packet that crosses leaves both memories as they are. -/
theorem cross_memories {s t : State} {a b : Nat} {p : Packet} (h : cross s a b p = some t) : t.mem = s.mem ∧ t.hostMem = s.hostMem := by
  unfold cross at h
  dsimp only at h
  split at h
  · cases h
  · cases h; exact ⟨(countHops_memories ..).1.trans (by simp), (countHops_memories ..).2.trans (by simp)⟩

theorem walkerSend_memories {s t : State} {a b : Nat} {op : Byte} (h : walkerSend s a b op = some t) : t.mem = s.mem ∧ t.hostMem = s.hostMem := by
  unfold walkerSend at h
  split at h
  · cases h; exact ⟨rfl, rfl⟩
  · exact cross_memories h

end Sys2Proof.Machine
end

