-- ==== Sys2Proof/Laws/Ops.lean ====
section
/-!
SUPPORT. What the shared operations of a sequencer do, said once: registers (R104), the stall of R114, the forms of one word, the
frame of `advance` and of the end-of-body test (R130), traps (R411), acceptance of commands (R56).
-/

namespace Sys2Proof.Machine

/-! ### Registers (R104) -/

@[simp] theorem Core.rd_zero (k : Core) : k.rd 0#5 = 0 := rfl
@[simp] theorem Core.wr_zero (k : Core) (v : Word) : k.wr 0#5 v = k := rfl
@[simp] theorem Core.isPending_zero (k : Core) : k.isPending 0#5 = false := rfl

theorem Core.wr_of_ne (k : Core) {r : Reg} (h : r ≠ 0) (v : Word) :
    k.wr r v = { k with regs := tset 0 k.regs (physReg k.bank r.toNat) v } := by
  unfold Core.wr
  rw [if_neg h]

/-- A write changes the register file only. -/
theorem Core.wr_frame (k : Core) (r : Reg) (v : Word) : k.wr r v = { k with regs := (k.wr r v).regs } := by
  unfold Core.wr; split <;> rfl

@[simp] theorem Core.wr_pc (k : Core) (r : Reg) (v : Word) : (k.wr r v).pc = k.pc := by unfold Core.wr; split <;> rfl
@[simp] theorem Core.wr_running (k : Core) (r : Reg) (v : Word) : (k.wr r v).running = k.running := by unfold Core.wr; split <;> rfl
@[simp] theorem Core.wr_handlers (k : Core) (r : Reg) (v : Word) : (k.wr r v).handlers = k.handlers := by unfold Core.wr; split <;> rfl
@[simp] theorem Core.wr_stepping (k : Core) (r : Reg) (v : Word) : (k.wr r v).stepping = k.stepping := by unfold Core.wr; split <;> rfl

/-- Two register numbers of one bank name one physical register only when they are equal. -/
theorem physReg_inj {b : Nat} {r q : Reg} (h : physReg b r.toNat = physReg b q.toNat) : r = q := by
  unfold physReg at h
  apply BitVec.eq_of_toNat_eq
  split at h <;> split at h <;> omega

/-- Read after write (R104). -/
theorem Core.rd_wr (k : Core) (d r : Reg) (v : Word) : (k.wr d v).rd r = if r = 0 then 0 else if r = d then v else k.rd r := by
  by_cases hr : r = 0
  · subst hr; rfl
  rw [if_neg hr]
  by_cases hd : d = 0
  · subst hd
    rw [if_neg hr]
    rfl
  rw [Core.wr_of_ne k hd]
  unfold Core.rd
  rw [if_neg hr, if_neg hr]
  show tget 0 (tset 0 k.regs (physReg k.bank d.toNat) v) (physReg k.bank r.toNat) = _
  by_cases e : r = d
  · subst e; rw [tget_tset_self, if_pos rfl]
  · rw [if_neg e, tget_tset_other]
    exact fun h => e (physReg_inj h)

/-! ### The stall of R114 -/

theorem firstPending_clear {s : State} {rs : List Reg} (h : s.clear rs) : firstPending s.me rs = none := by
  unfold firstPending
  rw [List.find?_eq_none]
  intro r hr
  simp [h r hr]

theorem withRegs_clear {s : State} {rs : List Reg} (h : s.clear rs) (f : State → State) : withRegs s rs f = f s := by
  unfold withRegs
  rw [firstPending_clear h]

theorem State.clear_left {s : State} {d a : Reg} (h : s.clear [d, a]) : s.clear [d] := fun r hr => h r (by simp at hr; simp [hr])

theorem State.clear_zero {s : State} {d : Reg} (h : s.clear [d]) : s.clear [d, 0] := by
  intro r hr
  rcases List.mem_cons.mp hr with rfl | hr
  · exact h _ (by simp)
  · simp at hr; subst hr; rfl

theorem alu2_clear {s : State} {d a b : Reg} (h : s.clear [d, a, b]) (f : Word → Word → Word) :
    alu2 s d a b f = .next (s.wrote d (f (s.rd a) (s.rd b))) := by
  unfold alu2 State.wrote
  rw [withRegs_clear h]
  rfl

theorem alu1_clear {s : State} {d a : Reg} (h : s.clear [d, a]) (f : Word → Word) :
    alu1 s d a f = .next (s.wrote d (f (s.rd a))) := by
  unfold alu1 State.wrote
  rw [withRegs_clear h]
  rfl

theorem alu0_clear {s : State} {d : Reg} (h : s.clear [d]) (v : Word) : alu1 s d 0 (fun _ => v) = .next (s.wrote d v) :=
  alu1_clear (State.clear_zero h) fun _ => v

theorem execMfs_clear {s : State} {d : Reg} (h : s.clear [d]) (n : BitVec 9) :
    execMfs d n s = .next (s.wrote d (special s n.toNat)) := alu0_clear h _

theorem execWidx_clear {s : State} {d : Reg} (h : s.clear [d]) (k : BitVec 3) :
    execWidx d k s =
      .next (s.wrote d (widField (((s.plotOf s.cur.core).map (·.widths)).getD []) k.toNat (coreWid s s.cur.core))) := alu0_clear h _

end Sys2Proof.Machine
end

