-- ==== Sys2Proof/Laws/PerInstr.lean ====
section
/-!
SUPPORT. Statements about every instruction as syntax, one lemma per constructor. RoundTrip: the words of a well-formed instruction
decode to it; an event has no words.
-/

set_option linter.unusedSimpArgs false
set_option linter.unreachableTactic false
set_option linter.unusedTactic false
set_option linter.unnecessarySeqFocus false

namespace Sys2Proof.Laws.RoundTrip

/-- The words of a well-formed instruction decode to that instruction. -/
def Statement (i : Instr) : Prop := wf i = true → encode i ≠ [] → decode (encode i) = .ok i

set_option simprocs false in
theorem add (d a b : Reg) : Statement (.add d a b) := by
  intro hwf _
  show decodeScalar (encA 1 d a b 0) = _
  unfold decodeScalar
  rw [encA_op]
  show decodeAlu _ = _
  unfold decodeAlu
  rw [encA_fn _ _ _ _ _ 0 11 (by decide)]
  exact form_ok (by first | rfl | (simp (disch := decide) only [encA_op, encA_d, encA_a, encA_b, encA_fn, encA_bit, encA_none, encI_op, encI_d, encI_a, encI_imm, encF_op, encF_d, encF_a, encF_sub, encF_pos, encF_len, encF_low, encF_body, encF_tail, encF_k, fld_fld, fld_app_lo, fld_app_hi, fld_all, fld_all', bit_app_lo, bit_app_hi, bit_ofBool, bit_ofBool', ite_true_bool, ite_false_bool]; rfl)) (by simp (disch := decide) only [encA_op, encA_d, encA_a, encA_b, encA_fn, encA_bit, encA_none, encI_op, encI_d, encI_a, encI_imm, encF_op, encF_d, encF_a, encF_sub, encF_pos, encF_len, encF_low, encF_body, encF_tail, encF_k, fld_fld, fld_app_lo, fld_app_hi, fld_all, fld_all', bit_app_lo, bit_app_hi, bit_ofBool, bit_ofBool', ite_true_bool, ite_false_bool]) hwf

set_option simprocs false in
theorem sub (d a b : Reg) : Statement (.sub d a b) := by
  intro hwf _
  show decodeScalar (encA 1 d a b 1) = _
  unfold decodeScalar
  rw [encA_op]
  show decodeAlu _ = _
  unfold decodeAlu
  rw [encA_fn _ _ _ _ _ 0 11 (by decide)]
  exact form_ok (by first | rfl | (simp (disch := decide) only [encA_op, encA_d, encA_a, encA_b, encA_fn, encA_bit, encA_none, encI_op, encI_d, encI_a, encI_imm, encF_op, encF_d, encF_a, encF_sub, encF_pos, encF_len, encF_low, encF_body, encF_tail, encF_k, fld_fld, fld_app_lo, fld_app_hi, fld_all, fld_all', bit_app_lo, bit_app_hi, bit_ofBool, bit_ofBool', ite_true_bool, ite_false_bool]; rfl)) (by simp (disch := decide) only [encA_op, encA_d, encA_a, encA_b, encA_fn, encA_bit, encA_none, encI_op, encI_d, encI_a, encI_imm, encF_op, encF_d, encF_a, encF_sub, encF_pos, encF_len, encF_low, encF_body, encF_tail, encF_k, fld_fld, fld_app_lo, fld_app_hi, fld_all, fld_all', bit_app_lo, bit_app_hi, bit_ofBool, bit_ofBool', ite_true_bool, ite_false_bool]) hwf

set_option simprocs false in
theorem and (d a b : Reg) : Statement (.and d a b) := by
  intro hwf _
  show decodeScalar (encA 1 d a b 2) = _
  unfold decodeScalar
  rw [encA_op]
  show decodeAlu _ = _
  unfold decodeAlu
  rw [encA_fn _ _ _ _ _ 0 11 (by decide)]
  exact form_ok (by first | rfl | (simp (disch := decide) only [encA_op, encA_d, encA_a, encA_b, encA_fn, encA_bit, encA_none, encI_op, encI_d, encI_a, encI_imm, encF_op, encF_d, encF_a, encF_sub, encF_pos, encF_len, encF_low, encF_body, encF_tail, encF_k, fld_fld, fld_app_lo, fld_app_hi, fld_all, fld_all', bit_app_lo, bit_app_hi, bit_ofBool, bit_ofBool', ite_true_bool, ite_false_bool]; rfl)) (by simp (disch := decide) only [encA_op, encA_d, encA_a, encA_b, encA_fn, encA_bit, encA_none, encI_op, encI_d, encI_a, encI_imm, encF_op, encF_d, encF_a, encF_sub, encF_pos, encF_len, encF_low, encF_body, encF_tail, encF_k, fld_fld, fld_app_lo, fld_app_hi, fld_all, fld_all', bit_app_lo, bit_app_hi, bit_ofBool, bit_ofBool', ite_true_bool, ite_false_bool]) hwf

set_option simprocs false in
theorem or (d a b : Reg) : Statement (.or d a b) := by
  intro hwf _
  show decodeScalar (encA 1 d a b 3) = _
  unfold decodeScalar
  rw [encA_op]
  show decodeAlu _ = _
  unfold decodeAlu
  rw [encA_fn _ _ _ _ _ 0 11 (by decide)]
  exact form_ok (by first | rfl | (simp (disch := decide) only [encA_op, encA_d, encA_a, encA_b, encA_fn, encA_bit, encA_none, encI_op, encI_d, encI_a, encI_imm, encF_op, encF_d, encF_a, encF_sub, encF_pos, encF_len, encF_low, encF_body, encF_tail, encF_k, fld_fld, fld_app_lo, fld_app_hi, fld_all, fld_all', bit_app_lo, bit_app_hi, bit_ofBool, bit_ofBool', ite_true_bool, ite_false_bool]; rfl)) (by simp (disch := decide) only [encA_op, encA_d, encA_a, encA_b, encA_fn, encA_bit, encA_none, encI_op, encI_d, encI_a, encI_imm, encF_op, encF_d, encF_a, encF_sub, encF_pos, encF_len, encF_low, encF_body, encF_tail, encF_k, fld_fld, fld_app_lo, fld_app_hi, fld_all, fld_all', bit_app_lo, bit_app_hi, bit_ofBool, bit_ofBool', ite_true_bool, ite_false_bool]) hwf

set_option simprocs false in
theorem xor (d a b : Reg) : Statement (.xor d a b) := by
  intro hwf _
  show decodeScalar (encA 1 d a b 4) = _
  unfold decodeScalar
  rw [encA_op]
  show decodeAlu _ = _
  unfold decodeAlu
  rw [encA_fn _ _ _ _ _ 0 11 (by decide)]
  exact form_ok (by first | rfl | (simp (disch := decide) only [encA_op, encA_d, encA_a, encA_b, encA_fn, encA_bit, encA_none, encI_op, encI_d, encI_a, encI_imm, encF_op, encF_d, encF_a, encF_sub, encF_pos, encF_len, encF_low, encF_body, encF_tail, encF_k, fld_fld, fld_app_lo, fld_app_hi, fld_all, fld_all', bit_app_lo, bit_app_hi, bit_ofBool, bit_ofBool', ite_true_bool, ite_false_bool]; rfl)) (by simp (disch := decide) only [encA_op, encA_d, encA_a, encA_b, encA_fn, encA_bit, encA_none, encI_op, encI_d, encI_a, encI_imm, encF_op, encF_d, encF_a, encF_sub, encF_pos, encF_len, encF_low, encF_body, encF_tail, encF_k, fld_fld, fld_app_lo, fld_app_hi, fld_all, fld_all', bit_app_lo, bit_app_hi, bit_ofBool, bit_ofBool', ite_true_bool, ite_false_bool]) hwf

set_option simprocs false in
theorem sll (d a b : Reg) : Statement (.sll d a b) := by
  intro hwf _
  show decodeScalar (encA 1 d a b 5) = _
  unfold decodeScalar
  rw [encA_op]
  show decodeAlu _ = _
  unfold decodeAlu
  rw [encA_fn _ _ _ _ _ 0 11 (by decide)]
  exact form_ok (by first | rfl | (simp (disch := decide) only [encA_op, encA_d, encA_a, encA_b, encA_fn, encA_bit, encA_none, encI_op, encI_d, encI_a, encI_imm, encF_op, encF_d, encF_a, encF_sub, encF_pos, encF_len, encF_low, encF_body, encF_tail, encF_k, fld_fld, fld_app_lo, fld_app_hi, fld_all, fld_all', bit_app_lo, bit_app_hi, bit_ofBool, bit_ofBool', ite_true_bool, ite_false_bool]; rfl)) (by simp (disch := decide) only [encA_op, encA_d, encA_a, encA_b, encA_fn, encA_bit, encA_none, encI_op, encI_d, encI_a, encI_imm, encF_op, encF_d, encF_a, encF_sub, encF_pos, encF_len, encF_low, encF_body, encF_tail, encF_k, fld_fld, fld_app_lo, fld_app_hi, fld_all, fld_all', bit_app_lo, bit_app_hi, bit_ofBool, bit_ofBool', ite_true_bool, ite_false_bool]) hwf

set_option simprocs false in
theorem srl (d a b : Reg) : Statement (.srl d a b) := by
  intro hwf _
  show decodeScalar (encA 1 d a b 6) = _
  unfold decodeScalar
  rw [encA_op]
  show decodeAlu _ = _
  unfold decodeAlu
  rw [encA_fn _ _ _ _ _ 0 11 (by decide)]
  exact form_ok (by first | rfl | (simp (disch := decide) only [encA_op, encA_d, encA_a, encA_b, encA_fn, encA_bit, encA_none, encI_op, encI_d, encI_a, encI_imm, encF_op, encF_d, encF_a, encF_sub, encF_pos, encF_len, encF_low, encF_body, encF_tail, encF_k, fld_fld, fld_app_lo, fld_app_hi, fld_all, fld_all', bit_app_lo, bit_app_hi, bit_ofBool, bit_ofBool', ite_true_bool, ite_false_bool]; rfl)) (by simp (disch := decide) only [encA_op, encA_d, encA_a, encA_b, encA_fn, encA_bit, encA_none, encI_op, encI_d, encI_a, encI_imm, encF_op, encF_d, encF_a, encF_sub, encF_pos, encF_len, encF_low, encF_body, encF_tail, encF_k, fld_fld, fld_app_lo, fld_app_hi, fld_all, fld_all', bit_app_lo, bit_app_hi, bit_ofBool, bit_ofBool', ite_true_bool, ite_false_bool]) hwf

set_option simprocs false in
theorem sra (d a b : Reg) : Statement (.sra d a b) := by
  intro hwf _
  show decodeScalar (encA 1 d a b 7) = _
  unfold decodeScalar
  rw [encA_op]
  show decodeAlu _ = _
  unfold decodeAlu
  rw [encA_fn _ _ _ _ _ 0 11 (by decide)]
  exact form_ok (by first | rfl | (simp (disch := decide) only [encA_op, encA_d, encA_a, encA_b, encA_fn, encA_bit, encA_none, encI_op, encI_d, encI_a, encI_imm, encF_op, encF_d, encF_a, encF_sub, encF_pos, encF_len, encF_low, encF_body, encF_tail, encF_k, fld_fld, fld_app_lo, fld_app_hi, fld_all, fld_all', bit_app_lo, bit_app_hi, bit_ofBool, bit_ofBool', ite_true_bool, ite_false_bool]; rfl)) (by simp (disch := decide) only [encA_op, encA_d, encA_a, encA_b, encA_fn, encA_bit, encA_none, encI_op, encI_d, encI_a, encI_imm, encF_op, encF_d, encF_a, encF_sub, encF_pos, encF_len, encF_low, encF_body, encF_tail, encF_k, fld_fld, fld_app_lo, fld_app_hi, fld_all, fld_all', bit_app_lo, bit_app_hi, bit_ofBool, bit_ofBool', ite_true_bool, ite_false_bool]) hwf

set_option simprocs false in
theorem slt (d a b : Reg) : Statement (.slt d a b) := by
  intro hwf _
  show decodeScalar (encA 1 d a b 8) = _
  unfold decodeScalar
  rw [encA_op]
  show decodeAlu _ = _
  unfold decodeAlu
  rw [encA_fn _ _ _ _ _ 0 11 (by decide)]
  exact form_ok (by first | rfl | (simp (disch := decide) only [encA_op, encA_d, encA_a, encA_b, encA_fn, encA_bit, encA_none, encI_op, encI_d, encI_a, encI_imm, encF_op, encF_d, encF_a, encF_sub, encF_pos, encF_len, encF_low, encF_body, encF_tail, encF_k, fld_fld, fld_app_lo, fld_app_hi, fld_all, fld_all', bit_app_lo, bit_app_hi, bit_ofBool, bit_ofBool', ite_true_bool, ite_false_bool]; rfl)) (by simp (disch := decide) only [encA_op, encA_d, encA_a, encA_b, encA_fn, encA_bit, encA_none, encI_op, encI_d, encI_a, encI_imm, encF_op, encF_d, encF_a, encF_sub, encF_pos, encF_len, encF_low, encF_body, encF_tail, encF_k, fld_fld, fld_app_lo, fld_app_hi, fld_all, fld_all', bit_app_lo, bit_app_hi, bit_ofBool, bit_ofBool', ite_true_bool, ite_false_bool]) hwf

set_option simprocs false in
theorem sltu (d a b : Reg) : Statement (.sltu d a b) := by
  intro hwf _
  show decodeScalar (encA 1 d a b 9) = _
  unfold decodeScalar
  rw [encA_op]
  show decodeAlu _ = _
  unfold decodeAlu
  rw [encA_fn _ _ _ _ _ 0 11 (by decide)]
  exact form_ok (by first | rfl | (simp (disch := decide) only [encA_op, encA_d, encA_a, encA_b, encA_fn, encA_bit, encA_none, encI_op, encI_d, encI_a, encI_imm, encF_op, encF_d, encF_a, encF_sub, encF_pos, encF_len, encF_low, encF_body, encF_tail, encF_k, fld_fld, fld_app_lo, fld_app_hi, fld_all, fld_all', bit_app_lo, bit_app_hi, bit_ofBool, bit_ofBool', ite_true_bool, ite_false_bool]; rfl)) (by simp (disch := decide) only [encA_op, encA_d, encA_a, encA_b, encA_fn, encA_bit, encA_none, encI_op, encI_d, encI_a, encI_imm, encF_op, encF_d, encF_a, encF_sub, encF_pos, encF_len, encF_low, encF_body, encF_tail, encF_k, fld_fld, fld_app_lo, fld_app_hi, fld_all, fld_all', bit_app_lo, bit_app_hi, bit_ofBool, bit_ofBool', ite_true_bool, ite_false_bool]) hwf

set_option simprocs false in
theorem addi (d a : Reg) (imm : BitVec 16) : Statement (.addi d a imm) := by
  intro hwf _
  show decodeScalar (encI 0x02 d a imm) = _
  unfold decodeScalar
  rw [encI_op]
  exact form_ok (by first | rfl | (simp (disch := decide) only [encA_op, encA_d, encA_a, encA_b, encA_fn, encA_bit, encA_none, encI_op, encI_d, encI_a, encI_imm, encF_op, encF_d, encF_a, encF_sub, encF_pos, encF_len, encF_low, encF_body, encF_tail, encF_k, fld_fld, fld_app_lo, fld_app_hi, fld_all, fld_all', bit_app_lo, bit_app_hi, bit_ofBool, bit_ofBool', ite_true_bool, ite_false_bool]; rfl)) (by simp (disch := decide) only [encA_op, encA_d, encA_a, encA_b, encA_fn, encA_bit, encA_none, encI_op, encI_d, encI_a, encI_imm, encF_op, encF_d, encF_a, encF_sub, encF_pos, encF_len, encF_low, encF_body, encF_tail, encF_k, fld_fld, fld_app_lo, fld_app_hi, fld_all, fld_all', bit_app_lo, bit_app_hi, bit_ofBool, bit_ofBool', ite_true_bool, ite_false_bool]) hwf

set_option simprocs false in
theorem andi (d a : Reg) (imm : BitVec 16) : Statement (.andi d a imm) := by
  intro hwf _
  show decodeScalar (encI 0x03 d a imm) = _
  unfold decodeScalar
  rw [encI_op]
  exact form_ok (by first | rfl | (simp (disch := decide) only [encA_op, encA_d, encA_a, encA_b, encA_fn, encA_bit, encA_none, encI_op, encI_d, encI_a, encI_imm, encF_op, encF_d, encF_a, encF_sub, encF_pos, encF_len, encF_low, encF_body, encF_tail, encF_k, fld_fld, fld_app_lo, fld_app_hi, fld_all, fld_all', bit_app_lo, bit_app_hi, bit_ofBool, bit_ofBool', ite_true_bool, ite_false_bool]; rfl)) (by simp (disch := decide) only [encA_op, encA_d, encA_a, encA_b, encA_fn, encA_bit, encA_none, encI_op, encI_d, encI_a, encI_imm, encF_op, encF_d, encF_a, encF_sub, encF_pos, encF_len, encF_low, encF_body, encF_tail, encF_k, fld_fld, fld_app_lo, fld_app_hi, fld_all, fld_all', bit_app_lo, bit_app_hi, bit_ofBool, bit_ofBool', ite_true_bool, ite_false_bool]) hwf

set_option simprocs false in
theorem ori (d a : Reg) (imm : BitVec 16) : Statement (.ori d a imm) := by
  intro hwf _
  show decodeScalar (encI 0x04 d a imm) = _
  unfold decodeScalar
  rw [encI_op]
  exact form_ok (by first | rfl | (simp (disch := decide) only [encA_op, encA_d, encA_a, encA_b, encA_fn, encA_bit, encA_none, encI_op, encI_d, encI_a, encI_imm, encF_op, encF_d, encF_a, encF_sub, encF_pos, encF_len, encF_low, encF_body, encF_tail, encF_k, fld_fld, fld_app_lo, fld_app_hi, fld_all, fld_all', bit_app_lo, bit_app_hi, bit_ofBool, bit_ofBool', ite_true_bool, ite_false_bool]; rfl)) (by simp (disch := decide) only [encA_op, encA_d, encA_a, encA_b, encA_fn, encA_bit, encA_none, encI_op, encI_d, encI_a, encI_imm, encF_op, encF_d, encF_a, encF_sub, encF_pos, encF_len, encF_low, encF_body, encF_tail, encF_k, fld_fld, fld_app_lo, fld_app_hi, fld_all, fld_all', bit_app_lo, bit_app_hi, bit_ofBool, bit_ofBool', ite_true_bool, ite_false_bool]) hwf

set_option simprocs false in
theorem xori (d a : Reg) (imm : BitVec 16) : Statement (.xori d a imm) := by
  intro hwf _
  show decodeScalar (encI 0x05 d a imm) = _
  unfold decodeScalar
  rw [encI_op]
  exact form_ok (by first | rfl | (simp (disch := decide) only [encA_op, encA_d, encA_a, encA_b, encA_fn, encA_bit, encA_none, encI_op, encI_d, encI_a, encI_imm, encF_op, encF_d, encF_a, encF_sub, encF_pos, encF_len, encF_low, encF_body, encF_tail, encF_k, fld_fld, fld_app_lo, fld_app_hi, fld_all, fld_all', bit_app_lo, bit_app_hi, bit_ofBool, bit_ofBool', ite_true_bool, ite_false_bool]; rfl)) (by simp (disch := decide) only [encA_op, encA_d, encA_a, encA_b, encA_fn, encA_bit, encA_none, encI_op, encI_d, encI_a, encI_imm, encF_op, encF_d, encF_a, encF_sub, encF_pos, encF_len, encF_low, encF_body, encF_tail, encF_k, fld_fld, fld_app_lo, fld_app_hi, fld_all, fld_all', bit_app_lo, bit_app_hi, bit_ofBool, bit_ofBool', ite_true_bool, ite_false_bool]) hwf

set_option simprocs false in
theorem slli (d a : Reg) (sh : BitVec 6) : Statement (.slli d a sh) := by
  intro hwf _
  show decodeScalar (encI 0x06 d a (0#10 ++ sh)) = _
  unfold decodeScalar
  rw [encI_op]
  exact form_ok (by first | rfl | (simp (disch := decide) only [encA_op, encA_d, encA_a, encA_b, encA_fn, encA_bit, encA_none, encI_op, encI_d, encI_a, encI_imm, encF_op, encF_d, encF_a, encF_sub, encF_pos, encF_len, encF_low, encF_body, encF_tail, encF_k, fld_fld, fld_app_lo, fld_app_hi, fld_all, fld_all', bit_app_lo, bit_app_hi, bit_ofBool, bit_ofBool', ite_true_bool, ite_false_bool]; rfl)) (by simp (disch := decide) only [encA_op, encA_d, encA_a, encA_b, encA_fn, encA_bit, encA_none, encI_op, encI_d, encI_a, encI_imm, encF_op, encF_d, encF_a, encF_sub, encF_pos, encF_len, encF_low, encF_body, encF_tail, encF_k, fld_fld, fld_app_lo, fld_app_hi, fld_all, fld_all', bit_app_lo, bit_app_hi, bit_ofBool, bit_ofBool', ite_true_bool, ite_false_bool]) hwf

set_option simprocs false in
theorem srli (d a : Reg) (sh : BitVec 6) : Statement (.srli d a sh) := by
  intro hwf _
  show decodeScalar (encI 0x07 d a (0#10 ++ sh)) = _
  unfold decodeScalar
  rw [encI_op]
  exact form_ok (by first | rfl | (simp (disch := decide) only [encA_op, encA_d, encA_a, encA_b, encA_fn, encA_bit, encA_none, encI_op, encI_d, encI_a, encI_imm, encF_op, encF_d, encF_a, encF_sub, encF_pos, encF_len, encF_low, encF_body, encF_tail, encF_k, fld_fld, fld_app_lo, fld_app_hi, fld_all, fld_all', bit_app_lo, bit_app_hi, bit_ofBool, bit_ofBool', ite_true_bool, ite_false_bool]; rfl)) (by simp (disch := decide) only [encA_op, encA_d, encA_a, encA_b, encA_fn, encA_bit, encA_none, encI_op, encI_d, encI_a, encI_imm, encF_op, encF_d, encF_a, encF_sub, encF_pos, encF_len, encF_low, encF_body, encF_tail, encF_k, fld_fld, fld_app_lo, fld_app_hi, fld_all, fld_all', bit_app_lo, bit_app_hi, bit_ofBool, bit_ofBool', ite_true_bool, ite_false_bool]) hwf

set_option simprocs false in
theorem srai (d a : Reg) (sh : BitVec 6) : Statement (.srai d a sh) := by
  intro hwf _
  show decodeScalar (encI 0x08 d a (0#10 ++ sh)) = _
  unfold decodeScalar
  rw [encI_op]
  exact form_ok (by first | rfl | (simp (disch := decide) only [encA_op, encA_d, encA_a, encA_b, encA_fn, encA_bit, encA_none, encI_op, encI_d, encI_a, encI_imm, encF_op, encF_d, encF_a, encF_sub, encF_pos, encF_len, encF_low, encF_body, encF_tail, encF_k, fld_fld, fld_app_lo, fld_app_hi, fld_all, fld_all', bit_app_lo, bit_app_hi, bit_ofBool, bit_ofBool', ite_true_bool, ite_false_bool]; rfl)) (by simp (disch := decide) only [encA_op, encA_d, encA_a, encA_b, encA_fn, encA_bit, encA_none, encI_op, encI_d, encI_a, encI_imm, encF_op, encF_d, encF_a, encF_sub, encF_pos, encF_len, encF_low, encF_body, encF_tail, encF_k, fld_fld, fld_app_lo, fld_app_hi, fld_all, fld_all', bit_app_lo, bit_app_hi, bit_ofBool, bit_ofBool', ite_true_bool, ite_false_bool]) hwf

set_option simprocs false in
theorem slti (d a : Reg) (imm : BitVec 16) : Statement (.slti d a imm) := by
  intro hwf _
  show decodeScalar (encI 0x09 d a imm) = _
  unfold decodeScalar
  rw [encI_op]
  exact form_ok (by first | rfl | (simp (disch := decide) only [encA_op, encA_d, encA_a, encA_b, encA_fn, encA_bit, encA_none, encI_op, encI_d, encI_a, encI_imm, encF_op, encF_d, encF_a, encF_sub, encF_pos, encF_len, encF_low, encF_body, encF_tail, encF_k, fld_fld, fld_app_lo, fld_app_hi, fld_all, fld_all', bit_app_lo, bit_app_hi, bit_ofBool, bit_ofBool', ite_true_bool, ite_false_bool]; rfl)) (by simp (disch := decide) only [encA_op, encA_d, encA_a, encA_b, encA_fn, encA_bit, encA_none, encI_op, encI_d, encI_a, encI_imm, encF_op, encF_d, encF_a, encF_sub, encF_pos, encF_len, encF_low, encF_body, encF_tail, encF_k, fld_fld, fld_app_lo, fld_app_hi, fld_all, fld_all', bit_app_lo, bit_app_hi, bit_ofBool, bit_ofBool', ite_true_bool, ite_false_bool]) hwf

set_option simprocs false in
theorem sltiu (d a : Reg) (imm : BitVec 16) : Statement (.sltiu d a imm) := by
  intro hwf _
  show decodeScalar (encI 0x0A d a imm) = _
  unfold decodeScalar
  rw [encI_op]
  exact form_ok (by first | rfl | (simp (disch := decide) only [encA_op, encA_d, encA_a, encA_b, encA_fn, encA_bit, encA_none, encI_op, encI_d, encI_a, encI_imm, encF_op, encF_d, encF_a, encF_sub, encF_pos, encF_len, encF_low, encF_body, encF_tail, encF_k, fld_fld, fld_app_lo, fld_app_hi, fld_all, fld_all', bit_app_lo, bit_app_hi, bit_ofBool, bit_ofBool', ite_true_bool, ite_false_bool]; rfl)) (by simp (disch := decide) only [encA_op, encA_d, encA_a, encA_b, encA_fn, encA_bit, encA_none, encI_op, encI_d, encI_a, encI_imm, encF_op, encF_d, encF_a, encF_sub, encF_pos, encF_len, encF_low, encF_body, encF_tail, encF_k, fld_fld, fld_app_lo, fld_app_hi, fld_all, fld_all', bit_app_lo, bit_app_hi, bit_ofBool, bit_ofBool', ite_true_bool, ite_false_bool]) hwf

set_option simprocs false in
theorem lui (d : Reg) (imm : BitVec 16) : Statement (.lui d imm) := by
  intro hwf _
  show decodeScalar (encI 0x0B d 0 imm) = _
  unfold decodeScalar
  rw [encI_op]
  exact form_ok (by first | rfl | (simp (disch := decide) only [encA_op, encA_d, encA_a, encA_b, encA_fn, encA_bit, encA_none, encI_op, encI_d, encI_a, encI_imm, encF_op, encF_d, encF_a, encF_sub, encF_pos, encF_len, encF_low, encF_body, encF_tail, encF_k, fld_fld, fld_app_lo, fld_app_hi, fld_all, fld_all', bit_app_lo, bit_app_hi, bit_ofBool, bit_ofBool', ite_true_bool, ite_false_bool]; rfl)) (by simp (disch := decide) only [encA_op, encA_d, encA_a, encA_b, encA_fn, encA_bit, encA_none, encI_op, encI_d, encI_a, encI_imm, encF_op, encF_d, encF_a, encF_sub, encF_pos, encF_len, encF_low, encF_body, encF_tail, encF_k, fld_fld, fld_app_lo, fld_app_hi, fld_all, fld_all', bit_app_lo, bit_app_hi, bit_ofBool, bit_ofBool', ite_true_bool, ite_false_bool]) hwf

set_option simprocs false in
theorem mul (d a b : Reg) : Statement (.mul d a b) := by
  intro hwf _
  show decodeScalar (encA 0x0C d a b 0) = _
  unfold decodeScalar
  rw [encA_op]
  show decodeMul _ = _
  unfold decodeMul
  rw [encA_fn _ _ _ _ _ 0 11 (by decide)]
  exact form_ok (by first | rfl | (simp (disch := decide) only [encA_op, encA_d, encA_a, encA_b, encA_fn, encA_bit, encA_none, encI_op, encI_d, encI_a, encI_imm, encF_op, encF_d, encF_a, encF_sub, encF_pos, encF_len, encF_low, encF_body, encF_tail, encF_k, fld_fld, fld_app_lo, fld_app_hi, fld_all, fld_all', bit_app_lo, bit_app_hi, bit_ofBool, bit_ofBool', ite_true_bool, ite_false_bool]; rfl)) (by simp (disch := decide) only [encA_op, encA_d, encA_a, encA_b, encA_fn, encA_bit, encA_none, encI_op, encI_d, encI_a, encI_imm, encF_op, encF_d, encF_a, encF_sub, encF_pos, encF_len, encF_low, encF_body, encF_tail, encF_k, fld_fld, fld_app_lo, fld_app_hi, fld_all, fld_all', bit_app_lo, bit_app_hi, bit_ofBool, bit_ofBool', ite_true_bool, ite_false_bool]) hwf

set_option simprocs false in
theorem mulh (d a b : Reg) : Statement (.mulh d a b) := by
  intro hwf _
  show decodeScalar (encA 0x0C d a b 1) = _
  unfold decodeScalar
  rw [encA_op]
  show decodeMul _ = _
  unfold decodeMul
  rw [encA_fn _ _ _ _ _ 0 11 (by decide)]
  exact form_ok (by first | rfl | (simp (disch := decide) only [encA_op, encA_d, encA_a, encA_b, encA_fn, encA_bit, encA_none, encI_op, encI_d, encI_a, encI_imm, encF_op, encF_d, encF_a, encF_sub, encF_pos, encF_len, encF_low, encF_body, encF_tail, encF_k, fld_fld, fld_app_lo, fld_app_hi, fld_all, fld_all', bit_app_lo, bit_app_hi, bit_ofBool, bit_ofBool', ite_true_bool, ite_false_bool]; rfl)) (by simp (disch := decide) only [encA_op, encA_d, encA_a, encA_b, encA_fn, encA_bit, encA_none, encI_op, encI_d, encI_a, encI_imm, encF_op, encF_d, encF_a, encF_sub, encF_pos, encF_len, encF_low, encF_body, encF_tail, encF_k, fld_fld, fld_app_lo, fld_app_hi, fld_all, fld_all', bit_app_lo, bit_app_hi, bit_ofBool, bit_ofBool', ite_true_bool, ite_false_bool]) hwf

set_option simprocs false in
theorem mulhu (d a b : Reg) : Statement (.mulhu d a b) := by
  intro hwf _
  show decodeScalar (encA 0x0C d a b 2) = _
  unfold decodeScalar
  rw [encA_op]
  show decodeMul _ = _
  unfold decodeMul
  rw [encA_fn _ _ _ _ _ 0 11 (by decide)]
  exact form_ok (by first | rfl | (simp (disch := decide) only [encA_op, encA_d, encA_a, encA_b, encA_fn, encA_bit, encA_none, encI_op, encI_d, encI_a, encI_imm, encF_op, encF_d, encF_a, encF_sub, encF_pos, encF_len, encF_low, encF_body, encF_tail, encF_k, fld_fld, fld_app_lo, fld_app_hi, fld_all, fld_all', bit_app_lo, bit_app_hi, bit_ofBool, bit_ofBool', ite_true_bool, ite_false_bool]; rfl)) (by simp (disch := decide) only [encA_op, encA_d, encA_a, encA_b, encA_fn, encA_bit, encA_none, encI_op, encI_d, encI_a, encI_imm, encF_op, encF_d, encF_a, encF_sub, encF_pos, encF_len, encF_low, encF_body, encF_tail, encF_k, fld_fld, fld_app_lo, fld_app_hi, fld_all, fld_all', bit_app_lo, bit_app_hi, bit_ofBool, bit_ofBool', ite_true_bool, ite_false_bool]) hwf

set_option simprocs false in
theorem div (d a b : Reg) : Statement (.div d a b) := by
  intro hwf _
  show decodeScalar (encA 0x0C d a b 3) = _
  unfold decodeScalar
  rw [encA_op]
  show decodeMul _ = _
  unfold decodeMul
  rw [encA_fn _ _ _ _ _ 0 11 (by decide)]
  exact form_ok (by first | rfl | (simp (disch := decide) only [encA_op, encA_d, encA_a, encA_b, encA_fn, encA_bit, encA_none, encI_op, encI_d, encI_a, encI_imm, encF_op, encF_d, encF_a, encF_sub, encF_pos, encF_len, encF_low, encF_body, encF_tail, encF_k, fld_fld, fld_app_lo, fld_app_hi, fld_all, fld_all', bit_app_lo, bit_app_hi, bit_ofBool, bit_ofBool', ite_true_bool, ite_false_bool]; rfl)) (by simp (disch := decide) only [encA_op, encA_d, encA_a, encA_b, encA_fn, encA_bit, encA_none, encI_op, encI_d, encI_a, encI_imm, encF_op, encF_d, encF_a, encF_sub, encF_pos, encF_len, encF_low, encF_body, encF_tail, encF_k, fld_fld, fld_app_lo, fld_app_hi, fld_all, fld_all', bit_app_lo, bit_app_hi, bit_ofBool, bit_ofBool', ite_true_bool, ite_false_bool]) hwf

set_option simprocs false in
theorem divu (d a b : Reg) : Statement (.divu d a b) := by
  intro hwf _
  show decodeScalar (encA 0x0C d a b 4) = _
  unfold decodeScalar
  rw [encA_op]
  show decodeMul _ = _
  unfold decodeMul
  rw [encA_fn _ _ _ _ _ 0 11 (by decide)]
  exact form_ok (by first | rfl | (simp (disch := decide) only [encA_op, encA_d, encA_a, encA_b, encA_fn, encA_bit, encA_none, encI_op, encI_d, encI_a, encI_imm, encF_op, encF_d, encF_a, encF_sub, encF_pos, encF_len, encF_low, encF_body, encF_tail, encF_k, fld_fld, fld_app_lo, fld_app_hi, fld_all, fld_all', bit_app_lo, bit_app_hi, bit_ofBool, bit_ofBool', ite_true_bool, ite_false_bool]; rfl)) (by simp (disch := decide) only [encA_op, encA_d, encA_a, encA_b, encA_fn, encA_bit, encA_none, encI_op, encI_d, encI_a, encI_imm, encF_op, encF_d, encF_a, encF_sub, encF_pos, encF_len, encF_low, encF_body, encF_tail, encF_k, fld_fld, fld_app_lo, fld_app_hi, fld_all, fld_all', bit_app_lo, bit_app_hi, bit_ofBool, bit_ofBool', ite_true_bool, ite_false_bool]) hwf

set_option simprocs false in
theorem rem (d a b : Reg) : Statement (.rem d a b) := by
  intro hwf _
  show decodeScalar (encA 0x0C d a b 5) = _
  unfold decodeScalar
  rw [encA_op]
  show decodeMul _ = _
  unfold decodeMul
  rw [encA_fn _ _ _ _ _ 0 11 (by decide)]
  exact form_ok (by first | rfl | (simp (disch := decide) only [encA_op, encA_d, encA_a, encA_b, encA_fn, encA_bit, encA_none, encI_op, encI_d, encI_a, encI_imm, encF_op, encF_d, encF_a, encF_sub, encF_pos, encF_len, encF_low, encF_body, encF_tail, encF_k, fld_fld, fld_app_lo, fld_app_hi, fld_all, fld_all', bit_app_lo, bit_app_hi, bit_ofBool, bit_ofBool', ite_true_bool, ite_false_bool]; rfl)) (by simp (disch := decide) only [encA_op, encA_d, encA_a, encA_b, encA_fn, encA_bit, encA_none, encI_op, encI_d, encI_a, encI_imm, encF_op, encF_d, encF_a, encF_sub, encF_pos, encF_len, encF_low, encF_body, encF_tail, encF_k, fld_fld, fld_app_lo, fld_app_hi, fld_all, fld_all', bit_app_lo, bit_app_hi, bit_ofBool, bit_ofBool', ite_true_bool, ite_false_bool]) hwf

set_option simprocs false in
theorem remu (d a b : Reg) : Statement (.remu d a b) := by
  intro hwf _
  show decodeScalar (encA 0x0C d a b 6) = _
  unfold decodeScalar
  rw [encA_op]
  show decodeMul _ = _
  unfold decodeMul
  rw [encA_fn _ _ _ _ _ 0 11 (by decide)]
  exact form_ok (by first | rfl | (simp (disch := decide) only [encA_op, encA_d, encA_a, encA_b, encA_fn, encA_bit, encA_none, encI_op, encI_d, encI_a, encI_imm, encF_op, encF_d, encF_a, encF_sub, encF_pos, encF_len, encF_low, encF_body, encF_tail, encF_k, fld_fld, fld_app_lo, fld_app_hi, fld_all, fld_all', bit_app_lo, bit_app_hi, bit_ofBool, bit_ofBool', ite_true_bool, ite_false_bool]; rfl)) (by simp (disch := decide) only [encA_op, encA_d, encA_a, encA_b, encA_fn, encA_bit, encA_none, encI_op, encI_d, encI_a, encI_imm, encF_op, encF_d, encF_a, encF_sub, encF_pos, encF_len, encF_low, encF_body, encF_tail, encF_k, fld_fld, fld_app_lo, fld_app_hi, fld_all, fld_all', bit_app_lo, bit_app_hi, bit_ofBool, bit_ofBool', ite_true_bool, ite_false_bool]) hwf

set_option simprocs false in
theorem bfx (d a : Reg) (pos len : BitVec 6) : Statement (.bfx d a pos len) := by
  intro hwf _
  show decodeScalar (encF d a 0 pos len) = _
  unfold decodeScalar
  rw [encF_op]
  show decodeField _ = _
  unfold decodeField
  rw [encF_sub]
  exact form_ok (by first | rfl | (simp (disch := decide) only [encA_op, encA_d, encA_a, encA_b, encA_fn, encA_bit, encA_none, encI_op, encI_d, encI_a, encI_imm, encF_op, encF_d, encF_a, encF_sub, encF_pos, encF_len, encF_low, encF_body, encF_tail, encF_k, fld_fld, fld_app_lo, fld_app_hi, fld_all, fld_all', bit_app_lo, bit_app_hi, bit_ofBool, bit_ofBool', ite_true_bool, ite_false_bool]; rfl)) (by simp (disch := decide) only [encA_op, encA_d, encA_a, encA_b, encA_fn, encA_bit, encA_none, encI_op, encI_d, encI_a, encI_imm, encF_op, encF_d, encF_a, encF_sub, encF_pos, encF_len, encF_low, encF_body, encF_tail, encF_k, fld_fld, fld_app_lo, fld_app_hi, fld_all, fld_all', bit_app_lo, bit_app_hi, bit_ofBool, bit_ofBool', ite_true_bool, ite_false_bool]) hwf

set_option simprocs false in
theorem bfxs (d a : Reg) (pos len : BitVec 6) : Statement (.bfxs d a pos len) := by
  intro hwf _
  show decodeScalar (encF d a 1 pos len) = _
  unfold decodeScalar
  rw [encF_op]
  show decodeField _ = _
  unfold decodeField
  rw [encF_sub]
  exact form_ok (by first | rfl | (simp (disch := decide) only [encA_op, encA_d, encA_a, encA_b, encA_fn, encA_bit, encA_none, encI_op, encI_d, encI_a, encI_imm, encF_op, encF_d, encF_a, encF_sub, encF_pos, encF_len, encF_low, encF_body, encF_tail, encF_k, fld_fld, fld_app_lo, fld_app_hi, fld_all, fld_all', bit_app_lo, bit_app_hi, bit_ofBool, bit_ofBool', ite_true_bool, ite_false_bool]; rfl)) (by simp (disch := decide) only [encA_op, encA_d, encA_a, encA_b, encA_fn, encA_bit, encA_none, encI_op, encI_d, encI_a, encI_imm, encF_op, encF_d, encF_a, encF_sub, encF_pos, encF_len, encF_low, encF_body, encF_tail, encF_k, fld_fld, fld_app_lo, fld_app_hi, fld_all, fld_all', bit_app_lo, bit_app_hi, bit_ofBool, bit_ofBool', ite_true_bool, ite_false_bool]) hwf

set_option simprocs false in
theorem bfi (d a : Reg) (pos len : BitVec 6) : Statement (.bfi d a pos len) := by
  intro hwf _
  show decodeScalar (encF d a 2 pos len) = _
  unfold decodeScalar
  rw [encF_op]
  show decodeField _ = _
  unfold decodeField
  rw [encF_sub]
  exact form_ok (by first | rfl | (simp (disch := decide) only [encA_op, encA_d, encA_a, encA_b, encA_fn, encA_bit, encA_none, encI_op, encI_d, encI_a, encI_imm, encF_op, encF_d, encF_a, encF_sub, encF_pos, encF_len, encF_low, encF_body, encF_tail, encF_k, fld_fld, fld_app_lo, fld_app_hi, fld_all, fld_all', bit_app_lo, bit_app_hi, bit_ofBool, bit_ofBool', ite_true_bool, ite_false_bool]; rfl)) (by simp (disch := decide) only [encA_op, encA_d, encA_a, encA_b, encA_fn, encA_bit, encA_none, encI_op, encI_d, encI_a, encI_imm, encF_op, encF_d, encF_a, encF_sub, encF_pos, encF_len, encF_low, encF_body, encF_tail, encF_k, fld_fld, fld_app_lo, fld_app_hi, fld_all, fld_all', bit_app_lo, bit_app_hi, bit_ofBool, bit_ofBool', ite_true_bool, ite_false_bool]) hwf

set_option simprocs false in
theorem widx (d : Reg) (k : BitVec 3) : Statement (.widx d k) := by
  intro hwf _
  show decodeScalar (encF d 0 3 (k ++ 0#3) 0) = _
  unfold decodeScalar
  rw [encF_op]
  show decodeField _ = _
  unfold decodeField
  rw [encF_sub]
  exact form_ok (by first | rfl | (simp (disch := decide) only [encA_op, encA_d, encA_a, encA_b, encA_fn, encA_bit, encA_none, encI_op, encI_d, encI_a, encI_imm, encF_op, encF_d, encF_a, encF_sub, encF_pos, encF_len, encF_low, encF_body, encF_tail, encF_k, fld_fld, fld_app_lo, fld_app_hi, fld_all, fld_all', bit_app_lo, bit_app_hi, bit_ofBool, bit_ofBool', ite_true_bool, ite_false_bool]; rfl)) (by simp (disch := decide) only [encA_op, encA_d, encA_a, encA_b, encA_fn, encA_bit, encA_none, encI_op, encI_d, encI_a, encI_imm, encF_op, encF_d, encF_a, encF_sub, encF_pos, encF_len, encF_low, encF_body, encF_tail, encF_k, fld_fld, fld_app_lo, fld_app_hi, fld_all, fld_all', bit_app_lo, bit_app_hi, bit_ofBool, bit_ofBool', ite_true_bool, ite_false_bool]) hwf

set_option simprocs false in
theorem clz (d a : Reg) : Statement (.clz d a) := by
  intro hwf _
  show decodeScalar (encF d a 4 0 0) = _
  unfold decodeScalar
  rw [encF_op]
  show decodeField _ = _
  unfold decodeField
  rw [encF_sub]
  exact form_ok (by first | rfl | (simp (disch := decide) only [encA_op, encA_d, encA_a, encA_b, encA_fn, encA_bit, encA_none, encI_op, encI_d, encI_a, encI_imm, encF_op, encF_d, encF_a, encF_sub, encF_pos, encF_len, encF_low, encF_body, encF_tail, encF_k, fld_fld, fld_app_lo, fld_app_hi, fld_all, fld_all', bit_app_lo, bit_app_hi, bit_ofBool, bit_ofBool', ite_true_bool, ite_false_bool]; rfl)) (by simp (disch := decide) only [encA_op, encA_d, encA_a, encA_b, encA_fn, encA_bit, encA_none, encI_op, encI_d, encI_a, encI_imm, encF_op, encF_d, encF_a, encF_sub, encF_pos, encF_len, encF_low, encF_body, encF_tail, encF_k, fld_fld, fld_app_lo, fld_app_hi, fld_all, fld_all', bit_app_lo, bit_app_hi, bit_ofBool, bit_ofBool', ite_true_bool, ite_false_bool]) hwf

set_option simprocs false in
theorem ctz (d a : Reg) : Statement (.ctz d a) := by
  intro hwf _
  show decodeScalar (encF d a 5 0 0) = _
  unfold decodeScalar
  rw [encF_op]
  show decodeField _ = _
  unfold decodeField
  rw [encF_sub]
  exact form_ok (by first | rfl | (simp (disch := decide) only [encA_op, encA_d, encA_a, encA_b, encA_fn, encA_bit, encA_none, encI_op, encI_d, encI_a, encI_imm, encF_op, encF_d, encF_a, encF_sub, encF_pos, encF_len, encF_low, encF_body, encF_tail, encF_k, fld_fld, fld_app_lo, fld_app_hi, fld_all, fld_all', bit_app_lo, bit_app_hi, bit_ofBool, bit_ofBool', ite_true_bool, ite_false_bool]; rfl)) (by simp (disch := decide) only [encA_op, encA_d, encA_a, encA_b, encA_fn, encA_bit, encA_none, encI_op, encI_d, encI_a, encI_imm, encF_op, encF_d, encF_a, encF_sub, encF_pos, encF_len, encF_low, encF_body, encF_tail, encF_k, fld_fld, fld_app_lo, fld_app_hi, fld_all, fld_all', bit_app_lo, bit_app_hi, bit_ofBool, bit_ofBool', ite_true_bool, ite_false_bool]) hwf

set_option simprocs false in
theorem popc (d a : Reg) : Statement (.popc d a) := by
  intro hwf _
  show decodeScalar (encF d a 6 0 0) = _
  unfold decodeScalar
  rw [encF_op]
  show decodeField _ = _
  unfold decodeField
  rw [encF_sub]
  exact form_ok (by first | rfl | (simp (disch := decide) only [encA_op, encA_d, encA_a, encA_b, encA_fn, encA_bit, encA_none, encI_op, encI_d, encI_a, encI_imm, encF_op, encF_d, encF_a, encF_sub, encF_pos, encF_len, encF_low, encF_body, encF_tail, encF_k, fld_fld, fld_app_lo, fld_app_hi, fld_all, fld_all', bit_app_lo, bit_app_hi, bit_ofBool, bit_ofBool', ite_true_bool, ite_false_bool]; rfl)) (by simp (disch := decide) only [encA_op, encA_d, encA_a, encA_b, encA_fn, encA_bit, encA_none, encI_op, encI_d, encI_a, encI_imm, encF_op, encF_d, encF_a, encF_sub, encF_pos, encF_len, encF_low, encF_body, encF_tail, encF_k, fld_fld, fld_app_lo, fld_app_hi, fld_all, fld_all', bit_app_lo, bit_app_hi, bit_ofBool, bit_ofBool', ite_true_bool, ite_false_bool]) hwf

set_option simprocs false in
theorem ldlD (d a : Reg) (imm : BitVec 16) : Statement (.ldlD d a imm) := by
  intro hwf _
  show decodeScalar (encI 0x10 d a imm) = _
  unfold decodeScalar
  rw [encI_op]
  exact form_ok (by first | rfl | (simp (disch := decide) only [encA_op, encA_d, encA_a, encA_b, encA_fn, encA_bit, encA_none, encI_op, encI_d, encI_a, encI_imm, encF_op, encF_d, encF_a, encF_sub, encF_pos, encF_len, encF_low, encF_body, encF_tail, encF_k, fld_fld, fld_app_lo, fld_app_hi, fld_all, fld_all', bit_app_lo, bit_app_hi, bit_ofBool, bit_ofBool', ite_true_bool, ite_false_bool]; rfl)) (by simp (disch := decide) only [encA_op, encA_d, encA_a, encA_b, encA_fn, encA_bit, encA_none, encI_op, encI_d, encI_a, encI_imm, encF_op, encF_d, encF_a, encF_sub, encF_pos, encF_len, encF_low, encF_body, encF_tail, encF_k, fld_fld, fld_app_lo, fld_app_hi, fld_all, fld_all', bit_app_lo, bit_app_hi, bit_ofBool, bit_ofBool', ite_true_bool, ite_false_bool]) hwf

set_option simprocs false in
theorem ldlW (d a : Reg) (imm : BitVec 16) : Statement (.ldlW d a imm) := by
  intro hwf _
  show decodeScalar (encI 0x11 d a imm) = _
  unfold decodeScalar
  rw [encI_op]
  exact form_ok (by first | rfl | (simp (disch := decide) only [encA_op, encA_d, encA_a, encA_b, encA_fn, encA_bit, encA_none, encI_op, encI_d, encI_a, encI_imm, encF_op, encF_d, encF_a, encF_sub, encF_pos, encF_len, encF_low, encF_body, encF_tail, encF_k, fld_fld, fld_app_lo, fld_app_hi, fld_all, fld_all', bit_app_lo, bit_app_hi, bit_ofBool, bit_ofBool', ite_true_bool, ite_false_bool]; rfl)) (by simp (disch := decide) only [encA_op, encA_d, encA_a, encA_b, encA_fn, encA_bit, encA_none, encI_op, encI_d, encI_a, encI_imm, encF_op, encF_d, encF_a, encF_sub, encF_pos, encF_len, encF_low, encF_body, encF_tail, encF_k, fld_fld, fld_app_lo, fld_app_hi, fld_all, fld_all', bit_app_lo, bit_app_hi, bit_ofBool, bit_ofBool', ite_true_bool, ite_false_bool]) hwf

set_option simprocs false in
theorem stlD (d a : Reg) (imm : BitVec 16) : Statement (.stlD d a imm) := by
  intro hwf _
  show decodeScalar (encI 0x12 d a imm) = _
  unfold decodeScalar
  rw [encI_op]
  exact form_ok (by first | rfl | (simp (disch := decide) only [encA_op, encA_d, encA_a, encA_b, encA_fn, encA_bit, encA_none, encI_op, encI_d, encI_a, encI_imm, encF_op, encF_d, encF_a, encF_sub, encF_pos, encF_len, encF_low, encF_body, encF_tail, encF_k, fld_fld, fld_app_lo, fld_app_hi, fld_all, fld_all', bit_app_lo, bit_app_hi, bit_ofBool, bit_ofBool', ite_true_bool, ite_false_bool]; rfl)) (by simp (disch := decide) only [encA_op, encA_d, encA_a, encA_b, encA_fn, encA_bit, encA_none, encI_op, encI_d, encI_a, encI_imm, encF_op, encF_d, encF_a, encF_sub, encF_pos, encF_len, encF_low, encF_body, encF_tail, encF_k, fld_fld, fld_app_lo, fld_app_hi, fld_all, fld_all', bit_app_lo, bit_app_hi, bit_ofBool, bit_ofBool', ite_true_bool, ite_false_bool]) hwf

set_option simprocs false in
theorem stlW (d a : Reg) (imm : BitVec 16) : Statement (.stlW d a imm) := by
  intro hwf _
  show decodeScalar (encI 0x13 d a imm) = _
  unfold decodeScalar
  rw [encI_op]
  exact form_ok (by first | rfl | (simp (disch := decide) only [encA_op, encA_d, encA_a, encA_b, encA_fn, encA_bit, encA_none, encI_op, encI_d, encI_a, encI_imm, encF_op, encF_d, encF_a, encF_sub, encF_pos, encF_len, encF_low, encF_body, encF_tail, encF_k, fld_fld, fld_app_lo, fld_app_hi, fld_all, fld_all', bit_app_lo, bit_app_hi, bit_ofBool, bit_ofBool', ite_true_bool, ite_false_bool]; rfl)) (by simp (disch := decide) only [encA_op, encA_d, encA_a, encA_b, encA_fn, encA_bit, encA_none, encI_op, encI_d, encI_a, encI_imm, encF_op, encF_d, encF_a, encF_sub, encF_pos, encF_len, encF_low, encF_body, encF_tail, encF_k, fld_fld, fld_app_lo, fld_app_hi, fld_all, fld_all', bit_app_lo, bit_app_hi, bit_ofBool, bit_ofBool', ite_true_bool, ite_false_bool]) hwf

set_option simprocs false in
theorem ldgD (d a : Reg) (imm : BitVec 16) : Statement (.ldgD d a imm) := by
  intro hwf _
  show decodeScalar (encI 0x14 d a imm) = _
  unfold decodeScalar
  rw [encI_op]
  exact form_ok (by first | rfl | (simp (disch := decide) only [encA_op, encA_d, encA_a, encA_b, encA_fn, encA_bit, encA_none, encI_op, encI_d, encI_a, encI_imm, encF_op, encF_d, encF_a, encF_sub, encF_pos, encF_len, encF_low, encF_body, encF_tail, encF_k, fld_fld, fld_app_lo, fld_app_hi, fld_all, fld_all', bit_app_lo, bit_app_hi, bit_ofBool, bit_ofBool', ite_true_bool, ite_false_bool]; rfl)) (by simp (disch := decide) only [encA_op, encA_d, encA_a, encA_b, encA_fn, encA_bit, encA_none, encI_op, encI_d, encI_a, encI_imm, encF_op, encF_d, encF_a, encF_sub, encF_pos, encF_len, encF_low, encF_body, encF_tail, encF_k, fld_fld, fld_app_lo, fld_app_hi, fld_all, fld_all', bit_app_lo, bit_app_hi, bit_ofBool, bit_ofBool', ite_true_bool, ite_false_bool]) hwf

set_option simprocs false in
theorem ldgW (d a : Reg) (imm : BitVec 16) : Statement (.ldgW d a imm) := by
  intro hwf _
  show decodeScalar (encI 0x15 d a imm) = _
  unfold decodeScalar
  rw [encI_op]
  exact form_ok (by first | rfl | (simp (disch := decide) only [encA_op, encA_d, encA_a, encA_b, encA_fn, encA_bit, encA_none, encI_op, encI_d, encI_a, encI_imm, encF_op, encF_d, encF_a, encF_sub, encF_pos, encF_len, encF_low, encF_body, encF_tail, encF_k, fld_fld, fld_app_lo, fld_app_hi, fld_all, fld_all', bit_app_lo, bit_app_hi, bit_ofBool, bit_ofBool', ite_true_bool, ite_false_bool]; rfl)) (by simp (disch := decide) only [encA_op, encA_d, encA_a, encA_b, encA_fn, encA_bit, encA_none, encI_op, encI_d, encI_a, encI_imm, encF_op, encF_d, encF_a, encF_sub, encF_pos, encF_len, encF_low, encF_body, encF_tail, encF_k, fld_fld, fld_app_lo, fld_app_hi, fld_all, fld_all', bit_app_lo, bit_app_hi, bit_ofBool, bit_ofBool', ite_true_bool, ite_false_bool]) hwf

set_option simprocs false in
theorem stgD (d a : Reg) (imm : BitVec 16) : Statement (.stgD d a imm) := by
  intro hwf _
  show decodeScalar (encI 0x16 d a imm) = _
  unfold decodeScalar
  rw [encI_op]
  exact form_ok (by first | rfl | (simp (disch := decide) only [encA_op, encA_d, encA_a, encA_b, encA_fn, encA_bit, encA_none, encI_op, encI_d, encI_a, encI_imm, encF_op, encF_d, encF_a, encF_sub, encF_pos, encF_len, encF_low, encF_body, encF_tail, encF_k, fld_fld, fld_app_lo, fld_app_hi, fld_all, fld_all', bit_app_lo, bit_app_hi, bit_ofBool, bit_ofBool', ite_true_bool, ite_false_bool]; rfl)) (by simp (disch := decide) only [encA_op, encA_d, encA_a, encA_b, encA_fn, encA_bit, encA_none, encI_op, encI_d, encI_a, encI_imm, encF_op, encF_d, encF_a, encF_sub, encF_pos, encF_len, encF_low, encF_body, encF_tail, encF_k, fld_fld, fld_app_lo, fld_app_hi, fld_all, fld_all', bit_app_lo, bit_app_hi, bit_ofBool, bit_ofBool', ite_true_bool, ite_false_bool]) hwf

set_option simprocs false in
theorem stgW (d a : Reg) (imm : BitVec 16) : Statement (.stgW d a imm) := by
  intro hwf _
  show decodeScalar (encI 0x17 d a imm) = _
  unfold decodeScalar
  rw [encI_op]
  exact form_ok (by first | rfl | (simp (disch := decide) only [encA_op, encA_d, encA_a, encA_b, encA_fn, encA_bit, encA_none, encI_op, encI_d, encI_a, encI_imm, encF_op, encF_d, encF_a, encF_sub, encF_pos, encF_len, encF_low, encF_body, encF_tail, encF_k, fld_fld, fld_app_lo, fld_app_hi, fld_all, fld_all', bit_app_lo, bit_app_hi, bit_ofBool, bit_ofBool', ite_true_bool, ite_false_bool]; rfl)) (by simp (disch := decide) only [encA_op, encA_d, encA_a, encA_b, encA_fn, encA_bit, encA_none, encI_op, encI_d, encI_a, encI_imm, encF_op, encF_d, encF_a, encF_sub, encF_pos, encF_len, encF_low, encF_body, encF_tail, encF_k, fld_fld, fld_app_lo, fld_app_hi, fld_all, fld_all', bit_app_lo, bit_app_hi, bit_ofBool, bit_ofBool', ite_true_bool, ite_false_bool]) hwf

set_option simprocs false in
theorem beq (a b : Reg) (off : BitVec 16) : Statement (.beq a b off) := by
  intro hwf _
  show decodeScalar (encI 0x18 a b off) = _
  unfold decodeScalar
  rw [encI_op]
  exact form_ok (by first | rfl | (simp (disch := decide) only [encA_op, encA_d, encA_a, encA_b, encA_fn, encA_bit, encA_none, encI_op, encI_d, encI_a, encI_imm, encF_op, encF_d, encF_a, encF_sub, encF_pos, encF_len, encF_low, encF_body, encF_tail, encF_k, fld_fld, fld_app_lo, fld_app_hi, fld_all, fld_all', bit_app_lo, bit_app_hi, bit_ofBool, bit_ofBool', ite_true_bool, ite_false_bool]; rfl)) (by simp (disch := decide) only [encA_op, encA_d, encA_a, encA_b, encA_fn, encA_bit, encA_none, encI_op, encI_d, encI_a, encI_imm, encF_op, encF_d, encF_a, encF_sub, encF_pos, encF_len, encF_low, encF_body, encF_tail, encF_k, fld_fld, fld_app_lo, fld_app_hi, fld_all, fld_all', bit_app_lo, bit_app_hi, bit_ofBool, bit_ofBool', ite_true_bool, ite_false_bool]) hwf

set_option simprocs false in
theorem bne (a b : Reg) (off : BitVec 16) : Statement (.bne a b off) := by
  intro hwf _
  show decodeScalar (encI 0x19 a b off) = _
  unfold decodeScalar
  rw [encI_op]
  exact form_ok (by first | rfl | (simp (disch := decide) only [encA_op, encA_d, encA_a, encA_b, encA_fn, encA_bit, encA_none, encI_op, encI_d, encI_a, encI_imm, encF_op, encF_d, encF_a, encF_sub, encF_pos, encF_len, encF_low, encF_body, encF_tail, encF_k, fld_fld, fld_app_lo, fld_app_hi, fld_all, fld_all', bit_app_lo, bit_app_hi, bit_ofBool, bit_ofBool', ite_true_bool, ite_false_bool]; rfl)) (by simp (disch := decide) only [encA_op, encA_d, encA_a, encA_b, encA_fn, encA_bit, encA_none, encI_op, encI_d, encI_a, encI_imm, encF_op, encF_d, encF_a, encF_sub, encF_pos, encF_len, encF_low, encF_body, encF_tail, encF_k, fld_fld, fld_app_lo, fld_app_hi, fld_all, fld_all', bit_app_lo, bit_app_hi, bit_ofBool, bit_ofBool', ite_true_bool, ite_false_bool]) hwf

set_option simprocs false in
theorem blt (a b : Reg) (off : BitVec 16) : Statement (.blt a b off) := by
  intro hwf _
  show decodeScalar (encI 0x1A a b off) = _
  unfold decodeScalar
  rw [encI_op]
  exact form_ok (by first | rfl | (simp (disch := decide) only [encA_op, encA_d, encA_a, encA_b, encA_fn, encA_bit, encA_none, encI_op, encI_d, encI_a, encI_imm, encF_op, encF_d, encF_a, encF_sub, encF_pos, encF_len, encF_low, encF_body, encF_tail, encF_k, fld_fld, fld_app_lo, fld_app_hi, fld_all, fld_all', bit_app_lo, bit_app_hi, bit_ofBool, bit_ofBool', ite_true_bool, ite_false_bool]; rfl)) (by simp (disch := decide) only [encA_op, encA_d, encA_a, encA_b, encA_fn, encA_bit, encA_none, encI_op, encI_d, encI_a, encI_imm, encF_op, encF_d, encF_a, encF_sub, encF_pos, encF_len, encF_low, encF_body, encF_tail, encF_k, fld_fld, fld_app_lo, fld_app_hi, fld_all, fld_all', bit_app_lo, bit_app_hi, bit_ofBool, bit_ofBool', ite_true_bool, ite_false_bool]) hwf

set_option simprocs false in
theorem bge (a b : Reg) (off : BitVec 16) : Statement (.bge a b off) := by
  intro hwf _
  show decodeScalar (encI 0x1B a b off) = _
  unfold decodeScalar
  rw [encI_op]
  exact form_ok (by first | rfl | (simp (disch := decide) only [encA_op, encA_d, encA_a, encA_b, encA_fn, encA_bit, encA_none, encI_op, encI_d, encI_a, encI_imm, encF_op, encF_d, encF_a, encF_sub, encF_pos, encF_len, encF_low, encF_body, encF_tail, encF_k, fld_fld, fld_app_lo, fld_app_hi, fld_all, fld_all', bit_app_lo, bit_app_hi, bit_ofBool, bit_ofBool', ite_true_bool, ite_false_bool]; rfl)) (by simp (disch := decide) only [encA_op, encA_d, encA_a, encA_b, encA_fn, encA_bit, encA_none, encI_op, encI_d, encI_a, encI_imm, encF_op, encF_d, encF_a, encF_sub, encF_pos, encF_len, encF_low, encF_body, encF_tail, encF_k, fld_fld, fld_app_lo, fld_app_hi, fld_all, fld_all', bit_app_lo, bit_app_hi, bit_ofBool, bit_ofBool', ite_true_bool, ite_false_bool]) hwf

set_option simprocs false in
theorem bltu (a b : Reg) (off : BitVec 16) : Statement (.bltu a b off) := by
  intro hwf _
  show decodeScalar (encI 0x1C a b off) = _
  unfold decodeScalar
  rw [encI_op]
  exact form_ok (by first | rfl | (simp (disch := decide) only [encA_op, encA_d, encA_a, encA_b, encA_fn, encA_bit, encA_none, encI_op, encI_d, encI_a, encI_imm, encF_op, encF_d, encF_a, encF_sub, encF_pos, encF_len, encF_low, encF_body, encF_tail, encF_k, fld_fld, fld_app_lo, fld_app_hi, fld_all, fld_all', bit_app_lo, bit_app_hi, bit_ofBool, bit_ofBool', ite_true_bool, ite_false_bool]; rfl)) (by simp (disch := decide) only [encA_op, encA_d, encA_a, encA_b, encA_fn, encA_bit, encA_none, encI_op, encI_d, encI_a, encI_imm, encF_op, encF_d, encF_a, encF_sub, encF_pos, encF_len, encF_low, encF_body, encF_tail, encF_k, fld_fld, fld_app_lo, fld_app_hi, fld_all, fld_all', bit_app_lo, bit_app_hi, bit_ofBool, bit_ofBool', ite_true_bool, ite_false_bool]) hwf

set_option simprocs false in
theorem bgeu (a b : Reg) (off : BitVec 16) : Statement (.bgeu a b off) := by
  intro hwf _
  show decodeScalar (encI 0x1D a b off) = _
  unfold decodeScalar
  rw [encI_op]
  exact form_ok (by first | rfl | (simp (disch := decide) only [encA_op, encA_d, encA_a, encA_b, encA_fn, encA_bit, encA_none, encI_op, encI_d, encI_a, encI_imm, encF_op, encF_d, encF_a, encF_sub, encF_pos, encF_len, encF_low, encF_body, encF_tail, encF_k, fld_fld, fld_app_lo, fld_app_hi, fld_all, fld_all', bit_app_lo, bit_app_hi, bit_ofBool, bit_ofBool', ite_true_bool, ite_false_bool]; rfl)) (by simp (disch := decide) only [encA_op, encA_d, encA_a, encA_b, encA_fn, encA_bit, encA_none, encI_op, encI_d, encI_a, encI_imm, encF_op, encF_d, encF_a, encF_sub, encF_pos, encF_len, encF_low, encF_body, encF_tail, encF_k, fld_fld, fld_app_lo, fld_app_hi, fld_all, fld_all', bit_app_lo, bit_app_hi, bit_ofBool, bit_ofBool', ite_true_bool, ite_false_bool]) hwf

set_option simprocs false in
theorem jal (d : Reg) (off : BitVec 21) : Statement (.jal d off) := by
  intro hwf _
  show decodeScalar (0x1E#6 ++ d ++ off) = _
  unfold decodeScalar
  rw [show fld (w := 32) (0x1E#6 ++ d ++ off) 26 6 = 0x1E#6 from (by simp (disch := decide) only [fld_fld, fld_app_lo, fld_app_hi, fld_all, fld_all', bit_app_lo, bit_app_hi, bit_ofBool, bit_ofBool', ite_true_bool, ite_false_bool])]
  exact form_ok (by first | rfl | (simp (disch := decide) only [encA_op, encA_d, encA_a, encA_b, encA_fn, encA_bit, encA_none, encI_op, encI_d, encI_a, encI_imm, encF_op, encF_d, encF_a, encF_sub, encF_pos, encF_len, encF_low, encF_body, encF_tail, encF_k, fld_fld, fld_app_lo, fld_app_hi, fld_all, fld_all', bit_app_lo, bit_app_hi, bit_ofBool, bit_ofBool', ite_true_bool, ite_false_bool]; rfl)) (by simp (disch := decide) only [encA_op, encA_d, encA_a, encA_b, encA_fn, encA_bit, encA_none, encI_op, encI_d, encI_a, encI_imm, encF_op, encF_d, encF_a, encF_sub, encF_pos, encF_len, encF_low, encF_body, encF_tail, encF_k, fld_fld, fld_app_lo, fld_app_hi, fld_all, fld_all', bit_app_lo, bit_app_hi, bit_ofBool, bit_ofBool', ite_true_bool, ite_false_bool]) hwf

set_option simprocs false in
theorem jalr (d a : Reg) (imm : BitVec 16) : Statement (.jalr d a imm) := by
  intro hwf _
  show decodeScalar (encI 0x1F d a imm) = _
  unfold decodeScalar
  rw [encI_op]
  exact form_ok (by first | rfl | (simp (disch := decide) only [encA_op, encA_d, encA_a, encA_b, encA_fn, encA_bit, encA_none, encI_op, encI_d, encI_a, encI_imm, encF_op, encF_d, encF_a, encF_sub, encF_pos, encF_len, encF_low, encF_body, encF_tail, encF_k, fld_fld, fld_app_lo, fld_app_hi, fld_all, fld_all', bit_app_lo, bit_app_hi, bit_ofBool, bit_ofBool', ite_true_bool, ite_false_bool]; rfl)) (by simp (disch := decide) only [encA_op, encA_d, encA_a, encA_b, encA_fn, encA_bit, encA_none, encI_op, encI_d, encI_a, encI_imm, encF_op, encF_d, encF_a, encF_sub, encF_pos, encF_len, encF_low, encF_body, encF_tail, encF_k, fld_fld, fld_app_lo, fld_app_hi, fld_all, fld_all', bit_app_lo, bit_app_hi, bit_ofBool, bit_ofBool', ite_true_bool, ite_false_bool]) hwf

set_option simprocs false in
theorem loop (level : BitVec 2) (c : Reg) (last : BitVec 19) : Statement (.loop level c last) := by
  intro hwf _
  show decodeScalar (0x20#6 ++ level ++ c ++ last) = _
  unfold decodeScalar
  rw [show fld (w := 32) (0x20#6 ++ level ++ c ++ last) 26 6 = 0x20#6 from (by simp (disch := decide) only [fld_fld, fld_app_lo, fld_app_hi, fld_all, fld_all', bit_app_lo, bit_app_hi, bit_ofBool, bit_ofBool', ite_true_bool, ite_false_bool])]
  exact form_ok (by first | rfl | (simp (disch := decide) only [encA_op, encA_d, encA_a, encA_b, encA_fn, encA_bit, encA_none, encI_op, encI_d, encI_a, encI_imm, encF_op, encF_d, encF_a, encF_sub, encF_pos, encF_len, encF_low, encF_body, encF_tail, encF_k, fld_fld, fld_app_lo, fld_app_hi, fld_all, fld_all', bit_app_lo, bit_app_hi, bit_ofBool, bit_ofBool', ite_true_bool, ite_false_bool]; rfl)) (by simp (disch := decide) only [encA_op, encA_d, encA_a, encA_b, encA_fn, encA_bit, encA_none, encI_op, encI_d, encI_a, encI_imm, encF_op, encF_d, encF_a, encF_sub, encF_pos, encF_len, encF_low, encF_body, encF_tail, encF_k, fld_fld, fld_app_lo, fld_app_hi, fld_all, fld_all', bit_app_lo, bit_app_hi, bit_ofBool, bit_ofBool', ite_true_bool, ite_false_bool]) hwf

set_option simprocs false in
theorem loopi (level : BitVec 2) (count : BitVec 12) (last : BitVec 12) : Statement (.loopi level count last) := by
  intro hwf _
  show decodeScalar (0x21#6 ++ level ++ count ++ last) = _
  unfold decodeScalar
  rw [show fld (w := 32) (0x21#6 ++ level ++ count ++ last) 26 6 = 0x21#6 from (by simp (disch := decide) only [fld_fld, fld_app_lo, fld_app_hi, fld_all, fld_all', bit_app_lo, bit_app_hi, bit_ofBool, bit_ofBool', ite_true_bool, ite_false_bool])]
  exact form_ok (by first | rfl | (simp (disch := decide) only [encA_op, encA_d, encA_a, encA_b, encA_fn, encA_bit, encA_none, encI_op, encI_d, encI_a, encI_imm, encF_op, encF_d, encF_a, encF_sub, encF_pos, encF_len, encF_low, encF_body, encF_tail, encF_k, fld_fld, fld_app_lo, fld_app_hi, fld_all, fld_all', bit_app_lo, bit_app_hi, bit_ofBool, bit_ofBool', ite_true_bool, ite_false_bool]; rfl)) (by simp (disch := decide) only [encA_op, encA_d, encA_a, encA_b, encA_fn, encA_bit, encA_none, encI_op, encI_d, encI_a, encI_imm, encF_op, encF_d, encF_a, encF_sub, encF_pos, encF_len, encF_low, encF_body, encF_tail, encF_k, fld_fld, fld_app_lo, fld_app_hi, fld_all, fld_all', bit_app_lo, bit_app_hi, bit_ofBool, bit_ofBool', ite_true_bool, ite_false_bool]) hwf

theorem done : Statement (.done) := by
  intro _ _; rfl

theorem waith : Statement (.waith) := by
  intro _ _; rfl

set_option simprocs false in
theorem post (a b : Reg) : Statement (.post a b) := by
  intro hwf _
  show decodeScalar (encA 0x22 0 a b 2) = _
  unfold decodeScalar
  rw [encA_op]
  show decodeHandler _ = _
  unfold decodeHandler
  rw [encA_fn _ _ _ _ _ 0 11 (by decide)]
  exact form_ok (by first | rfl | (simp (disch := decide) only [encA_op, encA_d, encA_a, encA_b, encA_fn, encA_bit, encA_none, encI_op, encI_d, encI_a, encI_imm, encF_op, encF_d, encF_a, encF_sub, encF_pos, encF_len, encF_low, encF_body, encF_tail, encF_k, fld_fld, fld_app_lo, fld_app_hi, fld_all, fld_all', bit_app_lo, bit_app_hi, bit_ofBool, bit_ofBool', ite_true_bool, ite_false_bool]; rfl)) (by simp (disch := decide) only [encA_op, encA_d, encA_a, encA_b, encA_fn, encA_bit, encA_none, encI_op, encI_d, encI_a, encI_imm, encF_op, encF_d, encF_a, encF_sub, encF_pos, encF_len, encF_low, encF_body, encF_tail, encF_k, fld_fld, fld_app_lo, fld_app_hi, fld_all, fld_all', bit_app_lo, bit_app_hi, bit_ofBool, bit_ofBool', ite_true_bool, ite_false_bool]) hwf

set_option simprocs false in
theorem hmask (a : Reg) : Statement (.hmask a) := by
  intro hwf _
  show decodeScalar (encA 0x22 0 a 0 3) = _
  unfold decodeScalar
  rw [encA_op]
  show decodeHandler _ = _
  unfold decodeHandler
  rw [encA_fn _ _ _ _ _ 0 11 (by decide)]
  exact form_ok (by first | rfl | (simp (disch := decide) only [encA_op, encA_d, encA_a, encA_b, encA_fn, encA_bit, encA_none, encI_op, encI_d, encI_a, encI_imm, encF_op, encF_d, encF_a, encF_sub, encF_pos, encF_len, encF_low, encF_body, encF_tail, encF_k, fld_fld, fld_app_lo, fld_app_hi, fld_all, fld_all', bit_app_lo, bit_app_hi, bit_ofBool, bit_ofBool', ite_true_bool, ite_false_bool]; rfl)) (by simp (disch := decide) only [encA_op, encA_d, encA_a, encA_b, encA_fn, encA_bit, encA_none, encI_op, encI_d, encI_a, encI_imm, encF_op, encF_d, encF_a, encF_sub, encF_pos, encF_len, encF_low, encF_body, encF_tail, encF_k, fld_fld, fld_app_lo, fld_app_hi, fld_all, fld_all', bit_app_lo, bit_app_hi, bit_ofBool, bit_ofBool', ite_true_bool, ite_false_bool]) hwf

set_option simprocs false in
theorem hunmask (a : Reg) : Statement (.hunmask a) := by
  intro hwf _
  show decodeScalar (encA 0x22 0 a 0 4) = _
  unfold decodeScalar
  rw [encA_op]
  show decodeHandler _ = _
  unfold decodeHandler
  rw [encA_fn _ _ _ _ _ 0 11 (by decide)]
  exact form_ok (by first | rfl | (simp (disch := decide) only [encA_op, encA_d, encA_a, encA_b, encA_fn, encA_bit, encA_none, encI_op, encI_d, encI_a, encI_imm, encF_op, encF_d, encF_a, encF_sub, encF_pos, encF_len, encF_low, encF_body, encF_tail, encF_k, fld_fld, fld_app_lo, fld_app_hi, fld_all, fld_all', bit_app_lo, bit_app_hi, bit_ofBool, bit_ofBool', ite_true_bool, ite_false_bool]; rfl)) (by simp (disch := decide) only [encA_op, encA_d, encA_a, encA_b, encA_fn, encA_bit, encA_none, encI_op, encI_d, encI_a, encI_imm, encF_op, encF_d, encF_a, encF_sub, encF_pos, encF_len, encF_low, encF_body, encF_tail, encF_k, fld_fld, fld_app_lo, fld_app_hi, fld_all, fld_all', bit_app_lo, bit_app_hi, bit_ofBool, bit_ofBool', ite_true_bool, ite_false_bool]) hwf

set_option simprocs false in
theorem mfs (d : Reg) (num : BitVec 9) : Statement (.mfs d num) := by
  intro hwf _
  show decodeScalar (encA 0x23 d 0 0 (0#2 ++ num)) = _
  unfold decodeScalar
  rw [encA_op]
  show decodeMove _ = _
  unfold decodeMove
  rw [encA_fn _ _ _ _ _ 9 2 (by decide)]
  rw [show fld (w := 11) (0#2 ++ num) 9 2 = 0#2 from (by simp (disch := decide) only [fld_fld, fld_app_lo, fld_app_hi, fld_all, fld_all', bit_app_lo, bit_app_hi, bit_ofBool, bit_ofBool', ite_true_bool, ite_false_bool])]
  exact form_ok (by first | rfl | (simp (disch := decide) only [encA_op, encA_d, encA_a, encA_b, encA_fn, encA_bit, encA_none, encI_op, encI_d, encI_a, encI_imm, encF_op, encF_d, encF_a, encF_sub, encF_pos, encF_len, encF_low, encF_body, encF_tail, encF_k, fld_fld, fld_app_lo, fld_app_hi, fld_all, fld_all', bit_app_lo, bit_app_hi, bit_ofBool, bit_ofBool', ite_true_bool, ite_false_bool]; rfl)) (by simp (disch := decide) only [encA_op, encA_d, encA_a, encA_b, encA_fn, encA_bit, encA_none, encI_op, encI_d, encI_a, encI_imm, encF_op, encF_d, encF_a, encF_sub, encF_pos, encF_len, encF_low, encF_body, encF_tail, encF_k, fld_fld, fld_app_lo, fld_app_hi, fld_all, fld_all', bit_app_lo, bit_app_hi, bit_ofBool, bit_ofBool', ite_true_bool, ite_false_bool]) hwf

set_option simprocs false in
theorem mts (a : Reg) (num : BitVec 9) : Statement (.mts a num) := by
  intro hwf _
  show decodeScalar (encA 0x23 0 a 0 (1#2 ++ num)) = _
  unfold decodeScalar
  rw [encA_op]
  show decodeMove _ = _
  unfold decodeMove
  rw [encA_fn _ _ _ _ _ 9 2 (by decide)]
  rw [show fld (w := 11) (1#2 ++ num) 9 2 = 1#2 from (by simp (disch := decide) only [fld_fld, fld_app_lo, fld_app_hi, fld_all, fld_all', bit_app_lo, bit_app_hi, bit_ofBool, bit_ofBool', ite_true_bool, ite_false_bool])]
  exact form_ok (by first | rfl | (simp (disch := decide) only [encA_op, encA_d, encA_a, encA_b, encA_fn, encA_bit, encA_none, encI_op, encI_d, encI_a, encI_imm, encF_op, encF_d, encF_a, encF_sub, encF_pos, encF_len, encF_low, encF_body, encF_tail, encF_k, fld_fld, fld_app_lo, fld_app_hi, fld_all, fld_all', bit_app_lo, bit_app_hi, bit_ofBool, bit_ofBool', ite_true_bool, ite_false_bool]; rfl)) (by simp (disch := decide) only [encA_op, encA_d, encA_a, encA_b, encA_fn, encA_bit, encA_none, encI_op, encI_d, encI_a, encI_imm, encF_op, encF_d, encF_a, encF_sub, encF_pos, encF_len, encF_low, encF_body, encF_tail, encF_k, fld_fld, fld_app_lo, fld_app_hi, fld_all, fld_all', bit_app_lo, bit_app_hi, bit_ofBool, bit_ofBool', ite_true_bool, ite_false_bool]) hwf

set_option simprocs false in
theorem fence (scope : BitVec 2) : Statement (.fence scope) := by
  intro hwf _
  show decodeScalar (encA 0x24 0 0 0 (0#7 ++ scope ++ 0#2)) = _
  unfold decodeScalar
  rw [encA_op]
  show decodeSync _ = _
  unfold decodeSync
  rw [encA_fn _ _ _ _ _ 4 7 (by decide)]
  rw [show fld (w := 11) (0#7 ++ scope ++ 0#2) 4 7 = 0#7 from (by simp (disch := decide) only [fld_fld, fld_app_lo, fld_app_hi, fld_all, fld_all', bit_app_lo, bit_app_hi, bit_ofBool, bit_ofBool', ite_true_bool, ite_false_bool])]
  exact form_ok (by first | rfl | (simp (disch := decide) only [encA_op, encA_d, encA_a, encA_b, encA_fn, encA_bit, encA_none, encI_op, encI_d, encI_a, encI_imm, encF_op, encF_d, encF_a, encF_sub, encF_pos, encF_len, encF_low, encF_body, encF_tail, encF_k, fld_fld, fld_app_lo, fld_app_hi, fld_all, fld_all', bit_app_lo, bit_app_hi, bit_ofBool, bit_ofBool', ite_true_bool, ite_false_bool]; rfl)) (by simp (disch := decide) only [encA_op, encA_d, encA_a, encA_b, encA_fn, encA_bit, encA_none, encI_op, encI_d, encI_a, encI_imm, encF_op, encF_d, encF_a, encF_sub, encF_pos, encF_len, encF_low, encF_body, encF_tail, encF_k, fld_fld, fld_app_lo, fld_app_hi, fld_all, fld_all', bit_app_lo, bit_app_hi, bit_ofBool, bit_ofBool', ite_true_bool, ite_false_bool]) hwf

set_option simprocs false in
theorem barr (a : Reg) : Statement (.barr a) := by
  intro hwf _
  show decodeScalar (encA 0x24 0 a 0 (1#7 ++ 0#4)) = _
  unfold decodeScalar
  rw [encA_op]
  show decodeSync _ = _
  unfold decodeSync
  rw [encA_fn _ _ _ _ _ 4 7 (by decide)]
  rw [show fld (w := 11) (1#7 ++ 0#4) 4 7 = 1#7 from (by simp (disch := decide) only [fld_fld, fld_app_lo, fld_app_hi, fld_all, fld_all', bit_app_lo, bit_app_hi, bit_ofBool, bit_ofBool', ite_true_bool, ite_false_bool])]
  exact form_ok (by first | rfl | (simp (disch := decide) only [encA_op, encA_d, encA_a, encA_b, encA_fn, encA_bit, encA_none, encI_op, encI_d, encI_a, encI_imm, encF_op, encF_d, encF_a, encF_sub, encF_pos, encF_len, encF_low, encF_body, encF_tail, encF_k, fld_fld, fld_app_lo, fld_app_hi, fld_all, fld_all', bit_app_lo, bit_app_hi, bit_ofBool, bit_ofBool', ite_true_bool, ite_false_bool]; rfl)) (by simp (disch := decide) only [encA_op, encA_d, encA_a, encA_b, encA_fn, encA_bit, encA_none, encI_op, encI_d, encI_a, encI_imm, encF_op, encF_d, encF_a, encF_sub, encF_pos, encF_len, encF_low, encF_body, encF_tail, encF_k, fld_fld, fld_app_lo, fld_app_hi, fld_all, fld_all', bit_app_lo, bit_app_hi, bit_ofBool, bit_ofBool', ite_true_bool, ite_false_bool]) hwf

set_option simprocs false in
theorem ldgAcq (d a : Reg) (scope : BitVec 2) : Statement (.ldgAcq d a scope) := by
  intro hwf _
  show decodeScalar (encA 0x24 d a 0 (2#7 ++ scope ++ 0#2)) = _
  unfold decodeScalar
  rw [encA_op]
  show decodeSync _ = _
  unfold decodeSync
  rw [encA_fn _ _ _ _ _ 4 7 (by decide)]
  rw [show fld (w := 11) (2#7 ++ scope ++ 0#2) 4 7 = 2#7 from (by simp (disch := decide) only [fld_fld, fld_app_lo, fld_app_hi, fld_all, fld_all', bit_app_lo, bit_app_hi, bit_ofBool, bit_ofBool', ite_true_bool, ite_false_bool])]
  exact form_ok (by first | rfl | (simp (disch := decide) only [encA_op, encA_d, encA_a, encA_b, encA_fn, encA_bit, encA_none, encI_op, encI_d, encI_a, encI_imm, encF_op, encF_d, encF_a, encF_sub, encF_pos, encF_len, encF_low, encF_body, encF_tail, encF_k, fld_fld, fld_app_lo, fld_app_hi, fld_all, fld_all', bit_app_lo, bit_app_hi, bit_ofBool, bit_ofBool', ite_true_bool, ite_false_bool]; rfl)) (by simp (disch := decide) only [encA_op, encA_d, encA_a, encA_b, encA_fn, encA_bit, encA_none, encI_op, encI_d, encI_a, encI_imm, encF_op, encF_d, encF_a, encF_sub, encF_pos, encF_len, encF_low, encF_body, encF_tail, encF_k, fld_fld, fld_app_lo, fld_app_hi, fld_all, fld_all', bit_app_lo, bit_app_hi, bit_ofBool, bit_ofBool', ite_true_bool, ite_false_bool]) hwf

set_option simprocs false in
theorem stgRel (a b : Reg) (scope : BitVec 2) : Statement (.stgRel a b scope) := by
  intro hwf _
  show decodeScalar (encA 0x24 0 a b (3#7 ++ scope ++ 0#2)) = _
  unfold decodeScalar
  rw [encA_op]
  show decodeSync _ = _
  unfold decodeSync
  rw [encA_fn _ _ _ _ _ 4 7 (by decide)]
  rw [show fld (w := 11) (3#7 ++ scope ++ 0#2) 4 7 = 3#7 from (by simp (disch := decide) only [fld_fld, fld_app_lo, fld_app_hi, fld_all, fld_all', bit_app_lo, bit_app_hi, bit_ofBool, bit_ofBool', ite_true_bool, ite_false_bool])]
  exact form_ok (by first | rfl | (simp (disch := decide) only [encA_op, encA_d, encA_a, encA_b, encA_fn, encA_bit, encA_none, encI_op, encI_d, encI_a, encI_imm, encF_op, encF_d, encF_a, encF_sub, encF_pos, encF_len, encF_low, encF_body, encF_tail, encF_k, fld_fld, fld_app_lo, fld_app_hi, fld_all, fld_all', bit_app_lo, bit_app_hi, bit_ofBool, bit_ofBool', ite_true_bool, ite_false_bool]; rfl)) (by simp (disch := decide) only [encA_op, encA_d, encA_a, encA_b, encA_fn, encA_bit, encA_none, encI_op, encI_d, encI_a, encI_imm, encF_op, encF_d, encF_a, encF_sub, encF_pos, encF_len, encF_low, encF_body, encF_tail, encF_k, fld_fld, fld_app_lo, fld_app_hi, fld_all, fld_all', bit_app_lo, bit_app_hi, bit_ofBool, bit_ofBool', ite_true_bool, ite_false_bool]) hwf

set_option simprocs false in
theorem locq (d a : Reg) : Statement (.locq d a) := by
  intro hwf _
  show decodeScalar (encA 0x24 d a 0 (4#7 ++ 0#4)) = _
  unfold decodeScalar
  rw [encA_op]
  show decodeSync _ = _
  unfold decodeSync
  rw [encA_fn _ _ _ _ _ 4 7 (by decide)]
  rw [show fld (w := 11) (4#7 ++ 0#4) 4 7 = 4#7 from (by simp (disch := decide) only [fld_fld, fld_app_lo, fld_app_hi, fld_all, fld_all', bit_app_lo, bit_app_hi, bit_ofBool, bit_ofBool', ite_true_bool, ite_false_bool])]
  exact form_ok (by first | rfl | (simp (disch := decide) only [encA_op, encA_d, encA_a, encA_b, encA_fn, encA_bit, encA_none, encI_op, encI_d, encI_a, encI_imm, encF_op, encF_d, encF_a, encF_sub, encF_pos, encF_len, encF_low, encF_body, encF_tail, encF_k, fld_fld, fld_app_lo, fld_app_hi, fld_all, fld_all', bit_app_lo, bit_app_hi, bit_ofBool, bit_ofBool', ite_true_bool, ite_false_bool]; rfl)) (by simp (disch := decide) only [encA_op, encA_d, encA_a, encA_b, encA_fn, encA_bit, encA_none, encI_op, encI_d, encI_a, encI_imm, encF_op, encF_d, encF_a, encF_sub, encF_pos, encF_len, encF_low, encF_body, encF_tail, encF_k, fld_fld, fld_app_lo, fld_app_hi, fld_all, fld_all', bit_app_lo, bit_app_hi, bit_ofBool, bit_ofBool', ite_true_bool, ite_false_bool]) hwf

theorem phintComp : Statement (.phintComp) := by
  intro _ _; rfl

theorem phintMem : Statement (.phintMem) := by
  intro _ _; rfl

theorem phintWait : Statement (.phintWait) := by
  intro _ _; rfl

set_option simprocs false in
theorem decideImm (bay : BitVec 2) : Statement (.decideImm bay) := by
  intro hwf _
  show decodeScalar (encA 0x25 0 0 0 (0x40#9 ++ bay)) = _
  unfold decodeScalar
  rw [encA_op]
  show decodeHint _ = _
  unfold decodeHint
  rw [encA_fn _ _ _ _ _ 8 3 (by decide)]
  rw [show fld (w := 11) (0x40#9 ++ bay) 8 3 = 1#3 from (by simp (disch := decide) only [fld_fld, fld_app_lo, fld_app_hi, fld_all, fld_all', bit_app_lo, bit_app_hi, bit_ofBool, bit_ofBool', ite_true_bool, ite_false_bool] <;> rfl)]
  show (if bit (encA 0x25 0 0 0 (0x40#9 ++ bay)) 2 then _ else _) = _
  rw [encA_bit _ _ _ _ _ 2 (by decide), show bit (w := 11) (0x40#9 ++ bay) 2 = false from (by simp (disch := decide) only [fld_fld, fld_app_lo, fld_app_hi, fld_all, fld_all', bit_app_lo, bit_app_hi, bit_ofBool, bit_ofBool', ite_true_bool, ite_false_bool] <;> rfl)]
  exact form_ok (by first | rfl | (simp (disch := decide) only [encA_op, encA_d, encA_a, encA_b, encA_fn, encA_bit, encA_none, encI_op, encI_d, encI_a, encI_imm, encF_op, encF_d, encF_a, encF_sub, encF_pos, encF_len, encF_low, encF_body, encF_tail, encF_k, fld_fld, fld_app_lo, fld_app_hi, fld_all, fld_all', bit_app_lo, bit_app_hi, bit_ofBool, bit_ofBool', ite_true_bool, ite_false_bool]; rfl)) (by simp (disch := decide) only [encA_op, encA_d, encA_a, encA_b, encA_fn, encA_bit, encA_none, encI_op, encI_d, encI_a, encI_imm, encF_op, encF_d, encF_a, encF_sub, encF_pos, encF_len, encF_low, encF_body, encF_tail, encF_k, fld_fld, fld_app_lo, fld_app_hi, fld_all, fld_all', bit_app_lo, bit_app_hi, bit_ofBool, bit_ofBool', ite_true_bool, ite_false_bool]) hwf

set_option simprocs false in
theorem decideReg (a : Reg) : Statement (.decideReg a) := by
  intro hwf _
  show decodeScalar (encA 0x25 0 a 0 0x104) = _
  unfold decodeScalar
  rw [encA_op]
  show decodeHint _ = _
  unfold decodeHint
  rw [encA_fn _ _ _ _ _ 8 3 (by decide)]
  show (if bit (encA 0x25 0 a 0 0x104) 2 then _ else _) = _
  rw [encA_bit _ _ _ _ _ 2 (by decide)]
  exact form_ok (by first | rfl | (simp (disch := decide) only [encA_op, encA_d, encA_a, encA_b, encA_fn, encA_bit, encA_none, encI_op, encI_d, encI_a, encI_imm, encF_op, encF_d, encF_a, encF_sub, encF_pos, encF_len, encF_low, encF_body, encF_tail, encF_k, fld_fld, fld_app_lo, fld_app_hi, fld_all, fld_all', bit_app_lo, bit_app_hi, bit_ofBool, bit_ofBool', ite_true_bool, ite_false_bool]; rfl)) (by simp (disch := decide) only [encA_op, encA_d, encA_a, encA_b, encA_fn, encA_bit, encA_none, encI_op, encI_d, encI_a, encI_imm, encF_op, encF_d, encF_a, encF_sub, encF_pos, encF_len, encF_low, encF_body, encF_tail, encF_k, fld_fld, fld_app_lo, fld_app_hi, fld_all, fld_all', bit_app_lo, bit_app_hi, bit_ofBool, bit_ofBool', ite_true_bool, ite_false_bool]) hwf

set_option simprocs false in
theorem pref (a : Reg) : Statement (.pref a) := by
  intro hwf _
  show decodeScalar (encA 0x25 0 a 0 0x200) = _
  unfold decodeScalar
  rw [encA_op]
  show decodeHint _ = _
  unfold decodeHint
  rw [encA_fn _ _ _ _ _ 8 3 (by decide)]
  exact form_ok (by first | rfl | (simp (disch := decide) only [encA_op, encA_d, encA_a, encA_b, encA_fn, encA_bit, encA_none, encI_op, encI_d, encI_a, encI_imm, encF_op, encF_d, encF_a, encF_sub, encF_pos, encF_len, encF_low, encF_body, encF_tail, encF_k, fld_fld, fld_app_lo, fld_app_hi, fld_all, fld_all', bit_app_lo, bit_app_hi, bit_ofBool, bit_ofBool', ite_true_bool, ite_false_bool]; rfl)) (by simp (disch := decide) only [encA_op, encA_d, encA_a, encA_b, encA_fn, encA_bit, encA_none, encI_op, encI_d, encI_a, encI_imm, encF_op, encF_d, encF_a, encF_sub, encF_pos, encF_len, encF_low, encF_body, encF_tail, encF_k, fld_fld, fld_app_lo, fld_app_hi, fld_all, fld_all', bit_app_lo, bit_app_hi, bit_ofBool, bit_ofBool', ite_true_bool, ite_false_bool]) hwf

set_option simprocs false in
theorem trap (code : BitVec 8) : Statement (.trap code) := by
  intro hwf _
  show decodeScalar (encA 0x30 0 0 0 (0#3 ++ code)) = _
  unfold decodeScalar
  rw [encA_op]
  show decodeSystem _ = _
  unfold decodeSystem
  rw [encA_fn _ _ _ _ _ 8 3 (by decide)]
  rw [show fld (w := 11) (0#3 ++ code) 8 3 = 0#3 from (by simp (disch := decide) only [fld_fld, fld_app_lo, fld_app_hi, fld_all, fld_all', bit_app_lo, bit_app_hi, bit_ofBool, bit_ofBool', ite_true_bool, ite_false_bool])]
  exact form_ok (by first | rfl | (simp (disch := decide) only [encA_op, encA_d, encA_a, encA_b, encA_fn, encA_bit, encA_none, encI_op, encI_d, encI_a, encI_imm, encF_op, encF_d, encF_a, encF_sub, encF_pos, encF_len, encF_low, encF_body, encF_tail, encF_k, fld_fld, fld_app_lo, fld_app_hi, fld_all, fld_all', bit_app_lo, bit_app_hi, bit_ofBool, bit_ofBool', ite_true_bool, ite_false_bool]; rfl)) (by simp (disch := decide) only [encA_op, encA_d, encA_a, encA_b, encA_fn, encA_bit, encA_none, encI_op, encI_d, encI_a, encI_imm, encF_op, encF_d, encF_a, encF_sub, encF_pos, encF_len, encF_low, encF_body, encF_tail, encF_k, fld_fld, fld_app_lo, fld_app_hi, fld_all, fld_all', bit_app_lo, bit_app_hi, bit_ofBool, bit_ofBool', ite_true_bool, ite_false_bool]) hwf

theorem tret : Statement (.tret) := by
  intro _ _; rfl

theorem ebrk : Statement (.ebrk) := by
  intro _ _; rfl

set_option simprocs false in
theorem issue (xt xb0 xb1 xb2 : Reg) (e2 e1 e0 wide : Bool) (cmd : Cmd128) : Statement (.issue xt xb0 xb1 xb2 e2 e1 e0 wide cmd) := by
  intro hwf _
  show decodeIssue (0x3F#6 ++ xt ++ xb0 ++ xb1 ++ xb2 ++ BitVec.ofBool e2 ++ BitVec.ofBool e1 ++ BitVec.ofBool e0 ++ BitVec.ofBool wide ++ 0#2)
    (fld cmd 96 32 ++ fld cmd 64 32 ++ fld cmd 32 32 ++ fld cmd 0 32) = _
  rw [join4]
  unfold decodeIssue
  rw [show fld (w := 32) (0x3F#6 ++ xt ++ xb0 ++ xb1 ++ xb2 ++ BitVec.ofBool e2 ++ BitVec.ofBool e1 ++ BitVec.ofBool e0 ++ BitVec.ofBool wide ++ 0#2) 26 6 = 0x3F#6 from by
    simp (disch := decide) only [fld, fld_app_hi, fld_all']]
  exact form_ok (by simp (disch := decide) only [fld_app_lo]; rfl)
    (by simp (disch := decide) only [fld_app_lo, fld_app_hi, fld_all', bit_app_lo, bit_app_hi, bit_ofBool']) hwf

theorem handlerDispatch (core : Nat) : Statement (.handlerDispatch core) := by
  intro _ h; exact absurd rfl h

theorem controlWordArrival (idx : Nat) : Statement (.controlWordArrival idx) := by
  intro _ h; exact absurd rfl h

theorem commandCompletion (core id : Nat) : Statement (.commandCompletion core id) := by
  intro _ h; exact absurd rfl h

theorem ldgDataReturn (acc : Nat) : Statement (.ldgDataReturn acc) := by
  intro _ h; exact absurd rfl h

set_option simprocs false in
theorem talloc (level : BitVec 2) (ring : Bool) (cellm : BitVec 2) (h : BitVec 6) (rows rowb : BitVec 32) : Statement (.talloc level ring cellm h rows rowb) := by
  intro hwf _
  refine (decode_cmd (encC 1 0 (0#3 ++ cellm ++ BitVec.ofBool ring ++ level) (0#2 ++ h) 0 rowb rows)).trans ?_
  unfold decodeCommand
  rw [encC_cls]
  show decodeTileCmd _ = _
  unfold decodeTileCmd
  rw [encC_func]
  exact form_ok (by first | rfl | (simp (disch := decide) only [encC_md, encC_arg, encC_acc, encC_bit, encC_b2, encC_b1, encC_b0, encC_z12, encC_z, encCW_md, encCW_arg, encCW_b2, encCW_wide, fld_fld, fld_app_lo, fld_app_hi, fld_all, fld_all', bit_app_lo, bit_app_hi, bit_ofBool, bit_ofBool', ite_true_bool, ite_false_bool]; rfl)) (by simp (disch := decide) only [encC_md, encC_arg, encC_acc, encC_bit, encC_b2, encC_b1, encC_b0, encC_z12, encC_z, encCW_md, encCW_arg, encCW_b2, encCW_wide, fld_fld, fld_app_lo, fld_app_hi, fld_all, fld_all', bit_app_lo, bit_app_hi, bit_ofBool, bit_ofBool', ite_true_bool, ite_false_bool]) hwf

set_option simprocs false in
theorem tfree (h : BitVec 6) : Statement (.tfree h) := by
  intro hwf _
  refine (decode_cmd (encC 1 1 0 (0#2 ++ h) 0 0 0)).trans ?_
  unfold decodeCommand
  rw [encC_cls]
  show decodeTileCmd _ = _
  unfold decodeTileCmd
  rw [encC_func]
  exact form_ok (by first | rfl | (simp (disch := decide) only [encC_md, encC_arg, encC_acc, encC_bit, encC_b2, encC_b1, encC_b0, encC_z12, encC_z, encCW_md, encCW_arg, encCW_b2, encCW_wide, fld_fld, fld_app_lo, fld_app_hi, fld_all, fld_all', bit_app_lo, bit_app_hi, bit_ofBool, bit_ofBool', ite_true_bool, ite_false_bool]; rfl)) (by simp (disch := decide) only [encC_md, encC_arg, encC_acc, encC_bit, encC_b2, encC_b1, encC_b0, encC_z12, encC_z, encCW_md, encCW_arg, encCW_b2, encCW_wide, fld_fld, fld_app_lo, fld_app_hi, fld_all, fld_all', bit_app_lo, bit_app_hi, bit_ofBool, bit_ofBool', ite_true_bool, ite_false_bool]) hwf

set_option simprocs false in
theorem tring (h : BitVec 6) (fill : BitVec 32) : Statement (.tring h fill) := by
  intro hwf _
  refine (decode_cmd (encC 1 2 0 (0#2 ++ h) 0 0 fill)).trans ?_
  unfold decodeCommand
  rw [encC_cls]
  show decodeTileCmd _ = _
  unfold decodeTileCmd
  rw [encC_func]
  exact form_ok (by first | rfl | (simp (disch := decide) only [encC_md, encC_arg, encC_acc, encC_bit, encC_b2, encC_b1, encC_b0, encC_z12, encC_z, encCW_md, encCW_arg, encCW_b2, encCW_wide, fld_fld, fld_app_lo, fld_app_hi, fld_all, fld_all', bit_app_lo, bit_app_hi, bit_ofBool, bit_ofBool', ite_true_bool, ite_false_bool]; rfl)) (by simp (disch := decide) only [encC_md, encC_arg, encC_acc, encC_bit, encC_b2, encC_b1, encC_b0, encC_z12, encC_z, encCW_md, encCW_arg, encCW_b2, encCW_wide, fld_fld, fld_app_lo, fld_app_hi, fld_all, fld_all', bit_app_lo, bit_app_hi, bit_ofBool, bit_ofBool', ite_true_bool, ite_false_bool]) hwf

set_option simprocs false in
theorem townEngine (h : BitVec 6) : Statement (.townEngine h) := by
  intro hwf _
  refine (decode_cmd (encC 1 3 1 (0#2 ++ h) 0 0 0)).trans ?_
  unfold decodeCommand
  rw [encC_cls]
  show decodeTileCmd _ = _
  unfold decodeTileCmd
  rw [encC_func]
  show (if bit (fld (encC 1 3 1 (0#2 ++ h) 0 0 0) 104 8) 0 then _ else _) = _
  rw [encC_md]
  exact form_ok (by first | rfl | (simp (disch := decide) only [encC_md, encC_arg, encC_acc, encC_bit, encC_b2, encC_b1, encC_b0, encC_z12, encC_z, encCW_md, encCW_arg, encCW_b2, encCW_wide, fld_fld, fld_app_lo, fld_app_hi, fld_all, fld_all', bit_app_lo, bit_app_hi, bit_ofBool, bit_ofBool', ite_true_bool, ite_false_bool]; rfl)) (by simp (disch := decide) only [encC_md, encC_arg, encC_acc, encC_bit, encC_b2, encC_b1, encC_b0, encC_z12, encC_z, encCW_md, encCW_arg, encCW_b2, encCW_wide, fld_fld, fld_app_lo, fld_app_hi, fld_all, fld_all', bit_app_lo, bit_app_hi, bit_ofBool, bit_ofBool', ite_true_bool, ite_false_bool]) hwf

set_option simprocs false in
theorem townSeq (h : BitVec 6) : Statement (.townSeq h) := by
  intro hwf _
  refine (decode_cmd (encC 1 3 0 (0#2 ++ h) 0 0 0)).trans ?_
  unfold decodeCommand
  rw [encC_cls]
  show decodeTileCmd _ = _
  unfold decodeTileCmd
  rw [encC_func]
  show (if bit (fld (encC 1 3 0 (0#2 ++ h) 0 0 0) 104 8) 0 then _ else _) = _
  rw [encC_md]
  exact form_ok (by first | rfl | (simp (disch := decide) only [encC_md, encC_arg, encC_acc, encC_bit, encC_b2, encC_b1, encC_b0, encC_z12, encC_z, encCW_md, encCW_arg, encCW_b2, encCW_wide, fld_fld, fld_app_lo, fld_app_hi, fld_all, fld_all', bit_app_lo, bit_app_hi, bit_ofBool, bit_ofBool', ite_true_bool, ite_false_bool]; rfl)) (by simp (disch := decide) only [encC_md, encC_arg, encC_acc, encC_bit, encC_b2, encC_b1, encC_b0, encC_z12, encC_z, encCW_md, encCW_arg, encCW_b2, encCW_wide, fld_fld, fld_app_lo, fld_app_hi, fld_all, fld_all', bit_app_lo, bit_app_hi, bit_ofBool, bit_ofBool', ite_true_bool, ite_false_bool]) hwf

set_option simprocs false in
theorem advp (h : BitVec 6) (count : BitVec 32) : Statement (.advp h count) := by
  intro hwf _
  refine (decode_cmd (encC 1 4 0 (0#2 ++ h) 0 0 count)).trans ?_
  unfold decodeCommand
  rw [encC_cls]
  show decodeTileCmd _ = _
  unfold decodeTileCmd
  rw [encC_func]
  exact form_ok (by first | rfl | (simp (disch := decide) only [encC_md, encC_arg, encC_acc, encC_bit, encC_b2, encC_b1, encC_b0, encC_z12, encC_z, encCW_md, encCW_arg, encCW_b2, encCW_wide, fld_fld, fld_app_lo, fld_app_hi, fld_all, fld_all', bit_app_lo, bit_app_hi, bit_ofBool, bit_ofBool', ite_true_bool, ite_false_bool]; rfl)) (by simp (disch := decide) only [encC_md, encC_arg, encC_acc, encC_bit, encC_b2, encC_b1, encC_b0, encC_z12, encC_z, encCW_md, encCW_arg, encCW_b2, encCW_wide, fld_fld, fld_app_lo, fld_app_hi, fld_all, fld_all', bit_app_lo, bit_app_hi, bit_ofBool, bit_ofBool', ite_true_bool, ite_false_bool]) hwf

set_option simprocs false in
theorem advc (h : BitVec 6) (count : BitVec 32) : Statement (.advc h count) := by
  intro hwf _
  refine (decode_cmd (encC 1 5 0 (0#2 ++ h) 0 0 count)).trans ?_
  unfold decodeCommand
  rw [encC_cls]
  show decodeTileCmd _ = _
  unfold decodeTileCmd
  rw [encC_func]
  exact form_ok (by first | rfl | (simp (disch := decide) only [encC_md, encC_arg, encC_acc, encC_bit, encC_b2, encC_b1, encC_b0, encC_z12, encC_z, encCW_md, encCW_arg, encCW_b2, encCW_wide, fld_fld, fld_app_lo, fld_app_hi, fld_all, fld_all', bit_app_lo, bit_app_hi, bit_ofBool, bit_ofBool', ite_true_bool, ite_false_bool]; rfl)) (by simp (disch := decide) only [encC_md, encC_arg, encC_acc, encC_bit, encC_b2, encC_b1, encC_b0, encC_z12, encC_z, encCW_md, encCW_arg, encCW_b2, encCW_wide, fld_fld, fld_app_lo, fld_app_hi, fld_all, fld_all', bit_app_lo, bit_app_hi, bit_ofBool, bit_ofBool', ite_true_bool, ite_false_bool]) hwf

set_option simprocs false in
theorem twaitFill (h : BitVec 6) (k : BitVec 32) : Statement (.twaitFill h k) := by
  intro hwf _
  refine (decode_cmd (encC 1 6 0 (0#2 ++ h) 0 0 k)).trans ?_
  unfold decodeCommand
  rw [encC_cls]
  show decodeTileCmd _ = _
  unfold decodeTileCmd
  rw [encC_func]
  show (if bit (fld (encC 1 6 0 (0#2 ++ h) 0 0 k) 104 8) 0 then _ else _) = _
  rw [encC_md]
  exact form_ok (by first | rfl | (simp (disch := decide) only [encC_md, encC_arg, encC_acc, encC_bit, encC_b2, encC_b1, encC_b0, encC_z12, encC_z, encCW_md, encCW_arg, encCW_b2, encCW_wide, fld_fld, fld_app_lo, fld_app_hi, fld_all, fld_all', bit_app_lo, bit_app_hi, bit_ofBool, bit_ofBool', ite_true_bool, ite_false_bool]; rfl)) (by simp (disch := decide) only [encC_md, encC_arg, encC_acc, encC_bit, encC_b2, encC_b1, encC_b0, encC_z12, encC_z, encCW_md, encCW_arg, encCW_b2, encCW_wide, fld_fld, fld_app_lo, fld_app_hi, fld_all, fld_all', bit_app_lo, bit_app_hi, bit_ofBool, bit_ofBool', ite_true_bool, ite_false_bool]) hwf

set_option simprocs false in
theorem twaitFree (h : BitVec 6) (k : BitVec 32) : Statement (.twaitFree h k) := by
  intro hwf _
  refine (decode_cmd (encC 1 6 1 (0#2 ++ h) 0 0 k)).trans ?_
  unfold decodeCommand
  rw [encC_cls]
  show decodeTileCmd _ = _
  unfold decodeTileCmd
  rw [encC_func]
  show (if bit (fld (encC 1 6 1 (0#2 ++ h) 0 0 k) 104 8) 0 then _ else _) = _
  rw [encC_md]
  exact form_ok (by first | rfl | (simp (disch := decide) only [encC_md, encC_arg, encC_acc, encC_bit, encC_b2, encC_b1, encC_b0, encC_z12, encC_z, encCW_md, encCW_arg, encCW_b2, encCW_wide, fld_fld, fld_app_lo, fld_app_hi, fld_all, fld_all', bit_app_lo, bit_app_hi, bit_ofBool, bit_ofBool', ite_true_bool, ite_false_bool]; rfl)) (by simp (disch := decide) only [encC_md, encC_arg, encC_acc, encC_bit, encC_b2, encC_b1, encC_b0, encC_z12, encC_z, encCW_md, encCW_arg, encCW_b2, encCW_wide, fld_fld, fld_app_lo, fld_app_hi, fld_all, fld_all', bit_app_lo, bit_app_hi, bit_ofBool, bit_ofBool', ite_true_bool, ite_false_bool]) hwf

set_option simprocs false in
theorem tzero (h : BitVec 6) : Statement (.tzero h) := by
  intro hwf _
  refine (decode_cmd (encC 1 7 0 (0#2 ++ h) 0 0 0)).trans ?_
  unfold decodeCommand
  rw [encC_cls]
  show decodeTileCmd _ = _
  unfold decodeTileCmd
  rw [encC_func]
  exact form_ok (by first | rfl | (simp (disch := decide) only [encC_md, encC_arg, encC_acc, encC_bit, encC_b2, encC_b1, encC_b0, encC_z12, encC_z, encCW_md, encCW_arg, encCW_b2, encCW_wide, fld_fld, fld_app_lo, fld_app_hi, fld_all, fld_all', bit_app_lo, bit_app_hi, bit_ofBool, bit_ofBool', ite_true_bool, ite_false_bool]; rfl)) (by simp (disch := decide) only [encC_md, encC_arg, encC_acc, encC_bit, encC_b2, encC_b1, encC_b0, encC_z12, encC_z, encCW_md, encCW_arg, encCW_b2, encCW_wide, fld_fld, fld_app_lo, fld_app_hi, fld_all, fld_all', bit_app_lo, bit_app_hi, bit_ofBool, bit_ofBool', ite_true_bool, ite_false_bool]) hwf

set_option simprocs false in
theorem tstat (h : BitVec 6) : Statement (.tstat h) := by
  intro hwf _
  refine (decode_cmd (encC 1 8 0 (0#2 ++ h) 0 0 0)).trans ?_
  unfold decodeCommand
  rw [encC_cls]
  show decodeTileCmd _ = _
  unfold decodeTileCmd
  rw [encC_func]
  exact form_ok (by first | rfl | (simp (disch := decide) only [encC_md, encC_arg, encC_acc, encC_bit, encC_b2, encC_b1, encC_b0, encC_z12, encC_z, encCW_md, encCW_arg, encCW_b2, encCW_wide, fld_fld, fld_app_lo, fld_app_hi, fld_all, fld_all', bit_app_lo, bit_app_hi, bit_ofBool, bit_ofBool', ite_true_bool, ite_false_bool]; rfl)) (by simp (disch := decide) only [encC_md, encC_arg, encC_acc, encC_bit, encC_b2, encC_b1, encC_b0, encC_z12, encC_z, encCW_md, encCW_arg, encCW_b2, encCW_wide, fld_fld, fld_app_lo, fld_app_hi, fld_all, fld_all', bit_app_lo, bit_app_hi, bit_ofBool, bit_ofBool', ite_true_bool, ite_false_bool]) hwf

theorem ownerFlip (core : Nat) (h : BitVec 6) : Statement (.ownerFlip core h) := by
  intro _ h; exact absurd rfl h

set_option simprocs false in
theorem splev (p : BitVec 3) (level : BitVec 2) (stride : Word) (count : BitVec 32) : Statement (.splev p level stride count) := by
  intro hwf _
  refine (decode_cmd (encCW 2 0 0 (0#2 ++ level ++ 0#1 ++ p) count stride)).trans ?_
  unfold decodeCommand
  rw [encCW_cls]
  show decodeStreamCmd _ = _
  unfold decodeStreamCmd
  rw [encCW_func]
  exact form_ok (by first | rfl | (simp (disch := decide) only [encC_md, encC_arg, encC_acc, encC_bit, encC_b2, encC_b1, encC_b0, encC_z12, encC_z, encCW_md, encCW_arg, encCW_b2, encCW_wide, fld_fld, fld_app_lo, fld_app_hi, fld_all, fld_all', bit_app_lo, bit_app_hi, bit_ofBool, bit_ofBool', ite_true_bool, ite_false_bool]; rfl)) (by simp (disch := decide) only [encC_md, encC_arg, encC_acc, encC_bit, encC_b2, encC_b1, encC_b0, encC_z12, encC_z, encCW_md, encCW_arg, encCW_b2, encCW_wide, fld_fld, fld_app_lo, fld_app_hi, fld_all, fld_all', bit_app_lo, bit_app_hi, bit_ofBool, bit_ofBool', ite_true_bool, ite_false_bool]) hwf

set_option simprocs false in
theorem spbaseTile (p : BitVec 3) (b0 off : BitVec 32) : Statement (.spbaseTile p b0 off) := by
  intro hwf _
  refine (decode_cmd (encC 2 1 0 (0#5 ++ p) 0 off b0)).trans ?_
  unfold decodeCommand
  rw [encC_cls]
  show decodeStreamCmd _ = _
  unfold decodeStreamCmd
  rw [encC_func]
  show (if bit (fld (encC 2 1 0 (0#5 ++ p) 0 off b0) 104 8) 0 then _ else _) = _
  rw [encC_md]
  exact form_ok (by first | rfl | (simp (disch := decide) only [encC_md, encC_arg, encC_acc, encC_bit, encC_b2, encC_b1, encC_b0, encC_z12, encC_z, encCW_md, encCW_arg, encCW_b2, encCW_wide, fld_fld, fld_app_lo, fld_app_hi, fld_all, fld_all', bit_app_lo, bit_app_hi, bit_ofBool, bit_ofBool', ite_true_bool, ite_false_bool]; rfl)) (by simp (disch := decide) only [encC_md, encC_arg, encC_acc, encC_bit, encC_b2, encC_b1, encC_b0, encC_z12, encC_z, encCW_md, encCW_arg, encCW_b2, encCW_wide, fld_fld, fld_app_lo, fld_app_hi, fld_all, fld_all', bit_app_lo, bit_app_hi, bit_ofBool, bit_ofBool', ite_true_bool, ite_false_bool]) hwf

set_option simprocs false in
theorem spbaseVa (p : BitVec 3) (addr : Word) : Statement (.spbaseVa p addr) := by
  intro hwf _
  refine (decode_cmd (encCW 2 1 1 (0#5 ++ p) 0 addr)).trans ?_
  unfold decodeCommand
  rw [encCW_cls]
  show decodeStreamCmd _ = _
  unfold decodeStreamCmd
  rw [encCW_func]
  show (if bit (fld (encCW 2 1 1 (0#5 ++ p) 0 addr) 104 8) 0 then _ else _) = _
  rw [encCW_md]
  exact form_ok (by first | rfl | (simp (disch := decide) only [encC_md, encC_arg, encC_acc, encC_bit, encC_b2, encC_b1, encC_b0, encC_z12, encC_z, encCW_md, encCW_arg, encCW_b2, encCW_wide, fld_fld, fld_app_lo, fld_app_hi, fld_all, fld_all', bit_app_lo, bit_app_hi, bit_ofBool, bit_ofBool', ite_true_bool, ite_false_bool]; rfl)) (by simp (disch := decide) only [encC_md, encC_arg, encC_acc, encC_bit, encC_b2, encC_b1, encC_b0, encC_z12, encC_z, encCW_md, encCW_arg, encCW_b2, encCW_wide, fld_fld, fld_app_lo, fld_app_hi, fld_all, fld_all', bit_app_lo, bit_app_hi, bit_ofBool, bit_ofBool', ite_true_bool, ite_false_bool]) hwf

set_option simprocs false in
theorem spmode (p : BitVec 3) (mods : BitVec 7) (b0 ceil : BitVec 32) : Statement (.spmode p mods b0 ceil) := by
  intro hwf _
  refine (decode_cmd (encC 2 2 (0#1 ++ mods) (0#5 ++ p) 0 ceil b0)).trans ?_
  unfold decodeCommand
  rw [encC_cls]
  show decodeStreamCmd _ = _
  unfold decodeStreamCmd
  rw [encC_func]
  exact form_ok (by first | rfl | (simp (disch := decide) only [encC_md, encC_arg, encC_acc, encC_bit, encC_b2, encC_b1, encC_b0, encC_z12, encC_z, encCW_md, encCW_arg, encCW_b2, encCW_wide, fld_fld, fld_app_lo, fld_app_hi, fld_all, fld_all', bit_app_lo, bit_app_hi, bit_ofBool, bit_ofBool', ite_true_bool, ite_false_bool]; rfl)) (by simp (disch := decide) only [encC_md, encC_arg, encC_acc, encC_bit, encC_b2, encC_b1, encC_b0, encC_z12, encC_z, encCW_md, encCW_arg, encCW_b2, encCW_wide, fld_fld, fld_app_lo, fld_app_hi, fld_all, fld_all', bit_app_lo, bit_app_hi, bit_ofBool, bit_ofBool', ite_true_bool, ite_false_bool]) hwf

set_option simprocs false in
theorem spgo (p : BitVec 3) (bar : Bool) (chan : BitVec 4) (n : BitVec 32) : Statement (.spgo p bar chan n) := by
  intro hwf _
  refine (decode_cmd (encC 2 3 (0#7 ++ BitVec.ofBool bar) (chan ++ 0#1 ++ p) 0 0 n)).trans ?_
  unfold decodeCommand
  rw [encC_cls]
  show decodeStreamCmd _ = _
  unfold decodeStreamCmd
  rw [encC_func]
  exact form_ok (by first | rfl | (simp (disch := decide) only [encC_md, encC_arg, encC_acc, encC_bit, encC_b2, encC_b1, encC_b0, encC_z12, encC_z, encCW_md, encCW_arg, encCW_b2, encCW_wide, fld_fld, fld_app_lo, fld_app_hi, fld_all, fld_all', bit_app_lo, bit_app_hi, bit_ofBool, bit_ofBool', ite_true_bool, ite_false_bool]; rfl)) (by simp (disch := decide) only [encC_md, encC_arg, encC_acc, encC_bit, encC_b2, encC_b1, encC_b0, encC_z12, encC_z, encCW_md, encCW_arg, encCW_b2, encCW_wide, fld_fld, fld_app_lo, fld_app_hi, fld_all, fld_all', bit_app_lo, bit_app_hi, bit_ofBool, bit_ofBool', ite_true_bool, ite_false_bool]) hwf

set_option simprocs false in
theorem spclose (p : BitVec 3) : Statement (.spclose p) := by
  intro hwf _
  refine (decode_cmd (encC 2 4 0 (0#5 ++ p) 0 0 0)).trans ?_
  unfold decodeCommand
  rw [encC_cls]
  show decodeStreamCmd _ = _
  unfold decodeStreamCmd
  rw [encC_func]
  exact form_ok (by first | rfl | (simp (disch := decide) only [encC_md, encC_arg, encC_acc, encC_bit, encC_b2, encC_b1, encC_b0, encC_z12, encC_z, encCW_md, encCW_arg, encCW_b2, encCW_wide, fld_fld, fld_app_lo, fld_app_hi, fld_all, fld_all', bit_app_lo, bit_app_hi, bit_ofBool, bit_ofBool', ite_true_bool, ite_false_bool]; rfl)) (by simp (disch := decide) only [encC_md, encC_arg, encC_acc, encC_bit, encC_b2, encC_b1, encC_b0, encC_z12, encC_z, encCW_md, encCW_arg, encCW_b2, encCW_wide, fld_fld, fld_app_lo, fld_app_hi, fld_all, fld_all', bit_app_lo, bit_app_hi, bit_ofBool, bit_ofBool', ite_true_bool, ite_false_bool]) hwf

set_option simprocs false in
theorem spqryLo (p : BitVec 3) : Statement (.spqryLo p) := by
  intro hwf _
  refine (decode_cmd (encC 2 5 0 (0#5 ++ p) 0 0 0)).trans ?_
  unfold decodeCommand
  rw [encC_cls]
  show decodeStreamCmd _ = _
  unfold decodeStreamCmd
  rw [encC_func]
  show (match (fld (fld (encC 2 5 0 (0#5 ++ p) 0 0 0) 104 8) 0 2).toNat with | 0 => _ | 1 => _ | 2 => _ | _ => _) = _
  rw [encC_md]
  exact form_ok (by first | rfl | (simp (disch := decide) only [encC_md, encC_arg, encC_acc, encC_bit, encC_b2, encC_b1, encC_b0, encC_z12, encC_z, encCW_md, encCW_arg, encCW_b2, encCW_wide, fld_fld, fld_app_lo, fld_app_hi, fld_all, fld_all', bit_app_lo, bit_app_hi, bit_ofBool, bit_ofBool', ite_true_bool, ite_false_bool]; rfl)) (by simp (disch := decide) only [encC_md, encC_arg, encC_acc, encC_bit, encC_b2, encC_b1, encC_b0, encC_z12, encC_z, encCW_md, encCW_arg, encCW_b2, encCW_wide, fld_fld, fld_app_lo, fld_app_hi, fld_all, fld_all', bit_app_lo, bit_app_hi, bit_ofBool, bit_ofBool', ite_true_bool, ite_false_bool]) hwf

set_option simprocs false in
theorem spqryHi (p : BitVec 3) : Statement (.spqryHi p) := by
  intro hwf _
  refine (decode_cmd (encC 2 5 1 (0#5 ++ p) 0 0 0)).trans ?_
  unfold decodeCommand
  rw [encC_cls]
  show decodeStreamCmd _ = _
  unfold decodeStreamCmd
  rw [encC_func]
  show (match (fld (fld (encC 2 5 1 (0#5 ++ p) 0 0 0) 104 8) 0 2).toNat with | 0 => _ | 1 => _ | 2 => _ | _ => _) = _
  rw [encC_md]
  exact form_ok (by first | rfl | (simp (disch := decide) only [encC_md, encC_arg, encC_acc, encC_bit, encC_b2, encC_b1, encC_b0, encC_z12, encC_z, encCW_md, encCW_arg, encCW_b2, encCW_wide, fld_fld, fld_app_lo, fld_app_hi, fld_all, fld_all', bit_app_lo, bit_app_hi, bit_ofBool, bit_ofBool', ite_true_bool, ite_false_bool]; rfl)) (by simp (disch := decide) only [encC_md, encC_arg, encC_acc, encC_bit, encC_b2, encC_b1, encC_b0, encC_z12, encC_z, encCW_md, encCW_arg, encCW_b2, encCW_wide, fld_fld, fld_app_lo, fld_app_hi, fld_all, fld_all', bit_app_lo, bit_app_hi, bit_ofBool, bit_ofBool', ite_true_bool, ite_false_bool]) hwf

set_option simprocs false in
theorem spqrySt (p : BitVec 3) (bad : Bool) : Statement (.spqrySt p bad) := by
  intro hwf _
  refine (decode_cmd (encC 2 5 (if bad then 3 else 2) (0#5 ++ p) 0 0 0)).trans ?_
  unfold decodeCommand
  rw [encC_cls]
  show decodeStreamCmd _ = _
  unfold decodeStreamCmd
  rw [encC_func]
  cases bad
  all_goals
    show (match (fld (fld (encC _ _ _ _ _ _ _) 104 8) 0 2).toNat with | 0 => _ | 1 => _ | 2 => _ | _ => _) = _
    rw [encC_md]
    exact form_ok (by first | rfl | (simp (disch := decide) only [encC_md, encC_arg, encC_acc, encC_bit, encC_b2, encC_b1, encC_b0, encC_z12, encC_z, encCW_md, encCW_arg, encCW_b2, encCW_wide, fld_fld, fld_app_lo, fld_app_hi, fld_all, fld_all', bit_app_lo, bit_app_hi, bit_ofBool, bit_ofBool', ite_true_bool, ite_false_bool]; rfl)) (by simp (disch := decide) only [encC_md, encC_arg, encC_acc, encC_bit, encC_b2, encC_b1, encC_b0, encC_z12, encC_z, encCW_md, encCW_arg, encCW_b2, encCW_wide, fld_fld, fld_app_lo, fld_app_hi, fld_all, fld_all', bit_app_lo, bit_app_hi, bit_ofBool, bit_ofBool', ite_true_bool, ite_false_bool]) hwf

set_option simprocs false in
theorem spwid (p : BitVec 3) (k : BitVec 3) (step : Word) : Statement (.spwid p k step) := by
  intro hwf _
  refine (decode_cmd (encCW 2 6 0 (0#1 ++ k ++ 0#1 ++ p) 0 step)).trans ?_
  unfold decodeCommand
  rw [encCW_cls]
  show decodeStreamCmd _ = _
  unfold decodeStreamCmd
  rw [encCW_func]
  exact form_ok (by first | rfl | (simp (disch := decide) only [encC_md, encC_arg, encC_acc, encC_bit, encC_b2, encC_b1, encC_b0, encC_z12, encC_z, encCW_md, encCW_arg, encCW_b2, encCW_wide, fld_fld, fld_app_lo, fld_app_hi, fld_all, fld_all', bit_app_lo, bit_app_hi, bit_ofBool, bit_ofBool', ite_true_bool, ite_false_bool]; rfl)) (by simp (disch := decide) only [encC_md, encC_arg, encC_acc, encC_bit, encC_b2, encC_b1, encC_b0, encC_z12, encC_z, encCW_md, encCW_arg, encCW_b2, encCW_wide, fld_fld, fld_app_lo, fld_app_hi, fld_all, fld_all', bit_app_lo, bit_app_hi, bit_ofBool, bit_ofBool', ite_true_bool, ite_false_bool]) hwf

theorem portInjectToken (core : Nat) (p : BitVec 3) : Statement (.portInjectToken core p) := by
  intro _ h; exact absurd rfl h

theorem portInjectEoi (core : Nat) (p : BitVec 3) : Statement (.portInjectEoi core p) := by
  intro _ h; exact absurd rfl h

theorem portStoreToken (core : Nat) (p : BitVec 3) : Statement (.portStoreToken core p) := by
  intro _ h; exact absurd rfl h

theorem portInvocationStart (core : Nat) (p : BitVec 3) : Statement (.portInvocationStart core p) := by
  intro _ h; exact absurd rfl h

theorem portDoneWord (core : Nat) (p : BitVec 3) : Statement (.portDoneWord core p) := by
  intro _ h; exact absurd rfl h

theorem meterWindow : Statement (.meterWindow) := by
  intro _ h; exact absurd rfl h

set_option simprocs false in
theorem mma (acc : BitVec 2) (z sb sa : Bool) (ty : BitVec 3) (b0 b1 b2 : BitVec 32) : Statement (.mma acc z sb sa ty b0 b1 b2) := by
  intro hwf _
  refine (decode_cmd (encC 3 0 (acc ++ BitVec.ofBool z ++ BitVec.ofBool sb ++ BitVec.ofBool sa ++ ty) 0 b2 b1 b0)).trans ?_
  unfold decodeCommand
  rw [encC_cls]
  show decodeMatrixCmd _ = _
  unfold decodeMatrixCmd
  rw [encC_func]
  exact form_ok (by first | rfl | (simp (disch := decide) only [encC_md, encC_arg, encC_acc, encC_bit, encC_b2, encC_b1, encC_b0, encC_z12, encC_z, encCW_md, encCW_arg, encCW_b2, encCW_wide, fld_fld, fld_app_lo, fld_app_hi, fld_all, fld_all', bit_app_lo, bit_app_hi, bit_ofBool, bit_ofBool', ite_true_bool, ite_false_bool]; rfl)) (by simp (disch := decide) only [encC_md, encC_arg, encC_acc, encC_bit, encC_b2, encC_b1, encC_b0, encC_z12, encC_z, encCW_md, encCW_arg, encCW_b2, encCW_wide, fld_fld, fld_app_lo, fld_app_hi, fld_all, fld_all', bit_app_lo, bit_app_hi, bit_ofBool, bit_ofBool', ite_true_bool, ite_false_bool]) hwf

set_option simprocs false in
theorem mmag (acc : BitVec 2) (z sb scat : Bool) (ty : BitVec 3) (g sc : BitVec 4) (b0 b1 b2 : BitVec 32) : Statement (.mmag acc z sb scat ty g sc b0 b1 b2) := by
  intro hwf _
  refine (decode_cmd (encC 3 1 (acc ++ BitVec.ofBool z ++ BitVec.ofBool sb ++ BitVec.ofBool scat ++ ty) (sc ++ g) b2 b1 b0)).trans ?_
  unfold decodeCommand
  rw [encC_cls]
  show decodeMatrixCmd _ = _
  unfold decodeMatrixCmd
  rw [encC_func]
  exact form_ok (by first | rfl | (simp (disch := decide) only [encC_md, encC_arg, encC_acc, encC_bit, encC_b2, encC_b1, encC_b0, encC_z12, encC_z, encCW_md, encCW_arg, encCW_b2, encCW_wide, fld_fld, fld_app_lo, fld_app_hi, fld_all, fld_all', bit_app_lo, bit_app_hi, bit_ofBool, bit_ofBool', ite_true_bool, ite_false_bool]; rfl)) (by simp (disch := decide) only [encC_md, encC_arg, encC_acc, encC_bit, encC_b2, encC_b1, encC_b0, encC_z12, encC_z, encCW_md, encCW_arg, encCW_b2, encCW_wide, fld_fld, fld_app_lo, fld_app_hi, fld_all, fld_all', bit_app_lo, bit_app_hi, bit_ofBool, bit_ofBool', ite_true_bool, ite_false_bool]) hwf

set_option simprocs false in
theorem mmv (acc : BitVec 2) (z : Bool) (ty : BitVec 3) (b0 b1 b2 : BitVec 32) : Statement (.mmv acc z ty b0 b1 b2) := by
  intro hwf _
  refine (decode_cmd (encC 3 2 (acc ++ BitVec.ofBool z ++ 0#2 ++ ty) 0 b2 b1 b0)).trans ?_
  unfold decodeCommand
  rw [encC_cls]
  show decodeMatrixCmd _ = _
  unfold decodeMatrixCmd
  rw [encC_func]
  exact form_ok (by first | rfl | (simp (disch := decide) only [encC_md, encC_arg, encC_acc, encC_bit, encC_b2, encC_b1, encC_b0, encC_z12, encC_z, encCW_md, encCW_arg, encCW_b2, encCW_wide, fld_fld, fld_app_lo, fld_app_hi, fld_all, fld_all', bit_app_lo, bit_app_hi, bit_ofBool, bit_ofBool', ite_true_bool, ite_false_bool]; rfl)) (by simp (disch := decide) only [encC_md, encC_arg, encC_acc, encC_bit, encC_b2, encC_b1, encC_b0, encC_z12, encC_z, encCW_md, encCW_arg, encCW_b2, encCW_wide, fld_fld, fld_app_lo, fld_app_hi, fld_all, fld_all', bit_app_lo, bit_app_hi, bit_ofBool, bit_ofBool', ite_true_bool, ite_false_bool]) hwf

set_option simprocs false in
theorem mcoop (acc : BitVec 2) (z : Bool) (ty : BitVec 3) (gr : Bool) (gc : BitVec 3) (b0 b1 b2 : BitVec 32) : Statement (.mcoop acc z ty gr gc b0 b1 b2) := by
  intro hwf _
  refine (decode_cmd (encC 3 3 (acc ++ BitVec.ofBool z ++ 0#2 ++ ty) (0#4 ++ gc ++ BitVec.ofBool gr) b2 b1 b0)).trans ?_
  unfold decodeCommand
  rw [encC_cls]
  show decodeMatrixCmd _ = _
  unfold decodeMatrixCmd
  rw [encC_func]
  exact form_ok (by first | rfl | (simp (disch := decide) only [encC_md, encC_arg, encC_acc, encC_bit, encC_b2, encC_b1, encC_b0, encC_z12, encC_z, encCW_md, encCW_arg, encCW_b2, encCW_wide, fld_fld, fld_app_lo, fld_app_hi, fld_all, fld_all', bit_app_lo, bit_app_hi, bit_ofBool, bit_ofBool', ite_true_bool, ite_false_bool]; rfl)) (by simp (disch := decide) only [encC_md, encC_arg, encC_acc, encC_bit, encC_b2, encC_b1, encC_b0, encC_z12, encC_z, encCW_md, encCW_arg, encCW_b2, encCW_wide, fld_fld, fld_app_lo, fld_app_hi, fld_all, fld_all', bit_app_lo, bit_app_hi, bit_ofBool, bit_ofBool', ite_true_bool, ite_false_bool]) hwf

set_option simprocs false in
theorem aclr (acc : BitVec 2) (b0 : BitVec 32) : Statement (.aclr acc b0) := by
  intro hwf _
  refine (decode_cmd (encC 3 4 (acc ++ 0#6) 0 0 0 b0)).trans ?_
  unfold decodeCommand
  rw [encC_cls]
  show decodeMatrixCmd _ = _
  unfold decodeMatrixCmd
  rw [encC_func]
  exact form_ok (by first | rfl | (simp (disch := decide) only [encC_md, encC_arg, encC_acc, encC_bit, encC_b2, encC_b1, encC_b0, encC_z12, encC_z, encCW_md, encCW_arg, encCW_b2, encCW_wide, fld_fld, fld_app_lo, fld_app_hi, fld_all, fld_all', bit_app_lo, bit_app_hi, bit_ofBool, bit_ofBool', ite_true_bool, ite_false_bool]; rfl)) (by simp (disch := decide) only [encC_md, encC_arg, encC_acc, encC_bit, encC_b2, encC_b1, encC_b0, encC_z12, encC_z, encCW_md, encCW_arg, encCW_b2, encCW_wide, fld_fld, fld_app_lo, fld_app_hi, fld_all, fld_all', bit_app_lo, bit_app_hi, bit_ofBool, bit_ofBool', ite_true_bool, ite_false_bool]) hwf

set_option simprocs false in
theorem ard (acc : BitVec 2) (bar eoi clr tile : Bool) (b0 b1 : BitVec 32) : Statement (.ard acc bar eoi clr tile b0 b1) := by
  intro hwf _
  refine (decode_cmd (encC 3 5 (acc ++ 0#1 ++ BitVec.ofBool bar ++ BitVec.ofBool eoi ++ 0#1 ++ BitVec.ofBool clr ++ BitVec.ofBool tile) 0 0 b1 b0)).trans ?_
  unfold decodeCommand
  rw [encC_cls]
  show decodeMatrixCmd _ = _
  unfold decodeMatrixCmd
  rw [encC_func]
  exact form_ok (by first | rfl | (simp (disch := decide) only [encC_md, encC_arg, encC_acc, encC_bit, encC_b2, encC_b1, encC_b0, encC_z12, encC_z, encCW_md, encCW_arg, encCW_b2, encCW_wide, fld_fld, fld_app_lo, fld_app_hi, fld_all, fld_all', bit_app_lo, bit_app_hi, bit_ofBool, bit_ofBool', ite_true_bool, ite_false_bool]; rfl)) (by simp (disch := decide) only [encC_md, encC_arg, encC_acc, encC_bit, encC_b2, encC_b1, encC_b0, encC_z12, encC_z, encCW_md, encCW_arg, encCW_b2, encCW_wide, fld_fld, fld_app_lo, fld_app_hi, fld_all, fld_all', bit_app_lo, bit_app_hi, bit_ofBool, bit_ofBool', ite_true_bool, ite_false_bool]) hwf

set_option simprocs false in
theorem awr (acc : BitVec 2) (b0 b1 : BitVec 32) : Statement (.awr acc b0 b1) := by
  intro hwf _
  refine (decode_cmd (encC 3 6 (acc ++ 0#6) 0 0 b1 b0)).trans ?_
  unfold decodeCommand
  rw [encC_cls]
  show decodeMatrixCmd _ = _
  unfold decodeMatrixCmd
  rw [encC_func]
  exact form_ok (by first | rfl | (simp (disch := decide) only [encC_md, encC_arg, encC_acc, encC_bit, encC_b2, encC_b1, encC_b0, encC_z12, encC_z, encCW_md, encCW_arg, encCW_b2, encCW_wide, fld_fld, fld_app_lo, fld_app_hi, fld_all, fld_all', bit_app_lo, bit_app_hi, bit_ofBool, bit_ofBool', ite_true_bool, ite_false_bool]; rfl)) (by simp (disch := decide) only [encC_md, encC_arg, encC_acc, encC_bit, encC_b2, encC_b1, encC_b0, encC_z12, encC_z, encCW_md, encCW_arg, encCW_b2, encCW_wide, fld_fld, fld_app_lo, fld_app_hi, fld_all, fld_all', bit_app_lo, bit_app_hi, bit_ofBool, bit_ofBool', ite_true_bool, ite_false_bool]) hwf

theorem matrixStart (core : Nat) : Statement (.matrixStart core) := by
  intro _ h; exact absurd rfl h

theorem matrixWaveStep (core : Nat) : Statement (.matrixWaveStep core) := by
  intro _ h; exact absurd rfl h

theorem matrixCommit (core : Nat) : Statement (.matrixCommit core) := by
  intro _ h; exact absurd rfl h

set_option simprocs false in
theorem ktopk (si so : Bool) (kt : BitVec 2) (b0 b1 b2 : BitVec 32) : Statement (.ktopk si so kt b0 b1 b2) := by
  intro hwf _
  refine (decode_cmd (encC 4 0 (BitVec.ofBool si ++ BitVec.ofBool so ++ 0#4 ++ kt) 0 b2 b1 b0)).trans ?_
  unfold decodeCommand
  rw [encC_cls]
  show decodeKeyCmd _ = _
  unfold decodeKeyCmd
  rw [encC_func]
  exact form_ok (by first | rfl | (simp (disch := decide) only [encC_md, encC_arg, encC_acc, encC_bit, encC_b2, encC_b1, encC_b0, encC_z12, encC_z, encCW_md, encCW_arg, encCW_b2, encCW_wide, fld_fld, fld_app_lo, fld_app_hi, fld_all, fld_all', bit_app_lo, bit_app_hi, bit_ofBool, bit_ofBool', ite_true_bool, ite_false_bool]; rfl)) (by simp (disch := decide) only [encC_md, encC_arg, encC_acc, encC_bit, encC_b2, encC_b1, encC_b0, encC_z12, encC_z, encCW_md, encCW_arg, encCW_b2, encCW_wide, fld_fld, fld_app_lo, fld_app_hi, fld_all, fld_all', bit_app_lo, bit_app_hi, bit_ofBool, bit_ofBool', ite_true_bool, ite_false_bool]) hwf

set_option simprocs false in
theorem ksort (si so desc : Bool) (kt : BitVec 2) (b0 b1 b2 : BitVec 32) : Statement (.ksort si so desc kt b0 b1 b2) := by
  intro hwf _
  refine (decode_cmd (encC 4 1 (BitVec.ofBool si ++ BitVec.ofBool so ++ 0#3 ++ BitVec.ofBool desc ++ kt) 0 b2 b1 b0)).trans ?_
  unfold decodeCommand
  rw [encC_cls]
  show decodeKeyCmd _ = _
  unfold decodeKeyCmd
  rw [encC_func]
  exact form_ok (by first | rfl | (simp (disch := decide) only [encC_md, encC_arg, encC_acc, encC_bit, encC_b2, encC_b1, encC_b0, encC_z12, encC_z, encCW_md, encCW_arg, encCW_b2, encCW_wide, fld_fld, fld_app_lo, fld_app_hi, fld_all, fld_all', bit_app_lo, bit_app_hi, bit_ofBool, bit_ofBool', ite_true_bool, ite_false_bool]; rfl)) (by simp (disch := decide) only [encC_md, encC_arg, encC_acc, encC_bit, encC_b2, encC_b1, encC_b0, encC_z12, encC_z, encCW_md, encCW_arg, encCW_b2, encCW_wide, fld_fld, fld_app_lo, fld_app_hi, fld_all, fld_all', bit_app_lo, bit_app_hi, bit_ofBool, bit_ofBool', ite_true_bool, ite_false_bool]) hwf

set_option simprocs false in
theorem khist (si so acc : Bool) (b0 b1 b2 : BitVec 32) : Statement (.khist si so acc b0 b1 b2) := by
  intro hwf _
  refine (decode_cmd (encC 4 2 (BitVec.ofBool si ++ BitVec.ofBool so ++ 0#3 ++ BitVec.ofBool acc ++ 0#2) 0 b2 b1 b0)).trans ?_
  unfold decodeCommand
  rw [encC_cls]
  show decodeKeyCmd _ = _
  unfold decodeKeyCmd
  rw [encC_func]
  exact form_ok (by first | rfl | (simp (disch := decide) only [encC_md, encC_arg, encC_acc, encC_bit, encC_b2, encC_b1, encC_b0, encC_z12, encC_z, encCW_md, encCW_arg, encCW_b2, encCW_wide, fld_fld, fld_app_lo, fld_app_hi, fld_all, fld_all', bit_app_lo, bit_app_hi, bit_ofBool, bit_ofBool', ite_true_bool, ite_false_bool]; rfl)) (by simp (disch := decide) only [encC_md, encC_arg, encC_acc, encC_bit, encC_b2, encC_b1, encC_b0, encC_z12, encC_z, encCW_md, encCW_arg, encCW_b2, encCW_wide, fld_fld, fld_app_lo, fld_app_hi, fld_all, fld_all', bit_app_lo, bit_app_hi, bit_ofBool, bit_ofBool', ite_true_bool, ite_false_bool]) hwf

set_option simprocs false in
theorem kscan (si so excl : Bool) (kt : BitVec 2) (b0 b1 b2 : BitVec 32) : Statement (.kscan si so excl kt b0 b1 b2) := by
  intro hwf _
  refine (decode_cmd (encC 4 3 (BitVec.ofBool si ++ BitVec.ofBool so ++ 0#3 ++ BitVec.ofBool excl ++ kt) 0 b2 b1 b0)).trans ?_
  unfold decodeCommand
  rw [encC_cls]
  show decodeKeyCmd _ = _
  unfold decodeKeyCmd
  rw [encC_func]
  exact form_ok (by first | rfl | (simp (disch := decide) only [encC_md, encC_arg, encC_acc, encC_bit, encC_b2, encC_b1, encC_b0, encC_z12, encC_z, encCW_md, encCW_arg, encCW_b2, encCW_wide, fld_fld, fld_app_lo, fld_app_hi, fld_all, fld_all', bit_app_lo, bit_app_hi, bit_ofBool, bit_ofBool', ite_true_bool, ite_false_bool]; rfl)) (by simp (disch := decide) only [encC_md, encC_arg, encC_acc, encC_bit, encC_b2, encC_b1, encC_b0, encC_z12, encC_z, encCW_md, encCW_arg, encCW_b2, encCW_wide, fld_fld, fld_app_lo, fld_app_hi, fld_all, fld_all', bit_app_lo, bit_app_hi, bit_ofBool, bit_ofBool', ite_true_bool, ite_false_bool]) hwf

set_option simprocs false in
theorem kmerge (fn : BitVec 2) (keepz : Bool) (kt : BitVec 2) (b0 b1 b2 : BitVec 32) : Statement (.kmerge fn keepz kt b0 b1 b2) := by
  intro hwf _
  refine (decode_cmd (encC 4 4 (0#2 ++ fn ++ BitVec.ofBool keepz ++ 0#1 ++ kt) 0 b2 b1 b0)).trans ?_
  unfold decodeCommand
  rw [encC_cls]
  show decodeKeyCmd _ = _
  unfold decodeKeyCmd
  rw [encC_func]
  exact form_ok (by first | rfl | (simp (disch := decide) only [encC_md, encC_arg, encC_acc, encC_bit, encC_b2, encC_b1, encC_b0, encC_z12, encC_z, encCW_md, encCW_arg, encCW_b2, encCW_wide, fld_fld, fld_app_lo, fld_app_hi, fld_all, fld_all', bit_app_lo, bit_app_hi, bit_ofBool, bit_ofBool', ite_true_bool, ite_false_bool]; rfl)) (by simp (disch := decide) only [encC_md, encC_arg, encC_acc, encC_bit, encC_b2, encC_b1, encC_b0, encC_z12, encC_z, encCW_md, encCW_arg, encCW_b2, encCW_wide, fld_fld, fld_app_lo, fld_app_hi, fld_all, fld_all', bit_app_lo, bit_app_hi, bit_ofBool, bit_ofBool', ite_true_bool, ite_false_bool]) hwf

set_option simprocs false in
theorem kpermG (b0 b1 b2 : BitVec 32) : Statement (.kpermG b0 b1 b2) := by
  intro hwf _
  refine (decode_cmd (encC 4 5 0 0 b2 b1 b0)).trans ?_
  unfold decodeCommand
  rw [encC_cls]
  show decodeKeyCmd _ = _
  unfold decodeKeyCmd
  rw [encC_func]
  show (if bit (fld (encC 4 5 0 0 b2 b1 b0) 104 8) 2 then _ else _) = _
  rw [encC_md]
  exact form_ok (by first | rfl | (simp (disch := decide) only [encC_md, encC_arg, encC_acc, encC_bit, encC_b2, encC_b1, encC_b0, encC_z12, encC_z, encCW_md, encCW_arg, encCW_b2, encCW_wide, fld_fld, fld_app_lo, fld_app_hi, fld_all, fld_all', bit_app_lo, bit_app_hi, bit_ofBool, bit_ofBool', ite_true_bool, ite_false_bool]; rfl)) (by simp (disch := decide) only [encC_md, encC_arg, encC_acc, encC_bit, encC_b2, encC_b1, encC_b0, encC_z12, encC_z, encCW_md, encCW_arg, encCW_b2, encCW_wide, fld_fld, fld_app_lo, fld_app_hi, fld_all, fld_all', bit_app_lo, bit_app_hi, bit_ofBool, bit_ofBool', ite_true_bool, ite_false_bool]) hwf

set_option simprocs false in
theorem kpermS (b0 b1 b2 : BitVec 32) : Statement (.kpermS b0 b1 b2) := by
  intro hwf _
  refine (decode_cmd (encC 4 5 4 0 b2 b1 b0)).trans ?_
  unfold decodeCommand
  rw [encC_cls]
  show decodeKeyCmd _ = _
  unfold decodeKeyCmd
  rw [encC_func]
  show (if bit (fld (encC 4 5 4 0 b2 b1 b0) 104 8) 2 then _ else _) = _
  rw [encC_md]
  exact form_ok (by first | rfl | (simp (disch := decide) only [encC_md, encC_arg, encC_acc, encC_bit, encC_b2, encC_b1, encC_b0, encC_z12, encC_z, encCW_md, encCW_arg, encCW_b2, encCW_wide, fld_fld, fld_app_lo, fld_app_hi, fld_all, fld_all', bit_app_lo, bit_app_hi, bit_ofBool, bit_ofBool', ite_true_bool, ite_false_bool]; rfl)) (by simp (disch := decide) only [encC_md, encC_arg, encC_acc, encC_bit, encC_b2, encC_b1, encC_b0, encC_z12, encC_z, encCW_md, encCW_arg, encCW_b2, encCW_wide, fld_fld, fld_app_lo, fld_app_hi, fld_all, fld_all', bit_app_lo, bit_app_hi, bit_ofBool, bit_ofBool', ite_true_bool, ite_false_bool]) hwf

theorem keyCommandComplete (core : Nat) : Statement (.keyCommandComplete core) := by
  intro _ h; exact absurd rfl h

set_option simprocs false in
theorem cpy (sk dk : BitVec 2) (eoi adv : Bool) (eng : BitVec 4) (sidx : BitVec 2) (b0 b1 : BitVec 32) : Statement (.cpy sk dk eoi adv eng sidx b0 b1) := by
  intro hwf _
  refine (decode_cmd (encC 5 0 (sk ++ dk ++ 0#2 ++ BitVec.ofBool adv ++ BitVec.ofBool eoi) (0#2 ++ sidx ++ eng) 0 b1 b0)).trans ?_
  unfold decodeCommand
  rw [encC_cls]
  show decodeCopyCmd _ = _
  unfold decodeCopyCmd
  rw [encC_func]
  exact form_ok (by first | rfl | (simp (disch := decide) only [encC_md, encC_arg, encC_acc, encC_bit, encC_b2, encC_b1, encC_b0, encC_z12, encC_z, encCW_md, encCW_arg, encCW_b2, encCW_wide, fld_fld, fld_app_lo, fld_app_hi, fld_all, fld_all', bit_app_lo, bit_app_hi, bit_ofBool, bit_ofBool', ite_true_bool, ite_false_bool]; rfl)) (by simp (disch := decide) only [encC_md, encC_arg, encC_acc, encC_bit, encC_b2, encC_b1, encC_b0, encC_z12, encC_z, encCW_md, encCW_arg, encCW_b2, encCW_wide, fld_fld, fld_app_lo, fld_app_hi, fld_all, fld_all', bit_app_lo, bit_app_hi, bit_ofBool, bit_ofBool', ite_true_bool, ite_false_bool]) hwf

set_option simprocs false in
theorem cpyx (sk dk : BitVec 2) (eoi adv : Bool) (eng : BitVec 4) (sidx : BitVec 2) (b0 b1 : BitVec 32) : Statement (.cpyx sk dk eoi adv eng sidx b0 b1) := by
  intro hwf _
  refine (decode_cmd (encC 5 1 (sk ++ dk ++ 0#2 ++ BitVec.ofBool adv ++ BitVec.ofBool eoi) (0#2 ++ sidx ++ eng) 0 b1 b0)).trans ?_
  unfold decodeCommand
  rw [encC_cls]
  show decodeCopyCmd _ = _
  unfold decodeCopyCmd
  rw [encC_func]
  exact form_ok (by first | rfl | (simp (disch := decide) only [encC_md, encC_arg, encC_acc, encC_bit, encC_b2, encC_b1, encC_b0, encC_z12, encC_z, encCW_md, encCW_arg, encCW_b2, encCW_wide, fld_fld, fld_app_lo, fld_app_hi, fld_all, fld_all', bit_app_lo, bit_app_hi, bit_ofBool, bit_ofBool', ite_true_bool, ite_false_bool]; rfl)) (by simp (disch := decide) only [encC_md, encC_arg, encC_acc, encC_bit, encC_b2, encC_b1, encC_b0, encC_z12, encC_z, encCW_md, encCW_arg, encCW_b2, encCW_wide, fld_fld, fld_app_lo, fld_app_hi, fld_all, fld_all', bit_app_lo, bit_app_hi, bit_ofBool, bit_ofBool', ite_true_bool, ite_false_bool]) hwf

set_option simprocs false in
theorem cpyf (sk : BitVec 2) (fb : Bool) (eng : BitVec 4) (sidx : BitVec 2) (b0 b1 b2 : BitVec 32) : Statement (.cpyf sk fb eng sidx b0 b1 b2) := by
  intro hwf _
  refine (decode_cmd (encC 5 2 (sk ++ 1#2 ++ 0#3 ++ BitVec.ofBool fb) (0#2 ++ sidx ++ eng) b2 b1 b0)).trans ?_
  unfold decodeCommand
  rw [encC_cls]
  show decodeCopyCmd _ = _
  unfold decodeCopyCmd
  rw [encC_func]
  exact form_ok (by first | rfl | (simp (disch := decide) only [encC_md, encC_arg, encC_acc, encC_bit, encC_b2, encC_b1, encC_b0, encC_z12, encC_z, encCW_md, encCW_arg, encCW_b2, encCW_wide, fld_fld, fld_app_lo, fld_app_hi, fld_all, fld_all', bit_app_lo, bit_app_hi, bit_ofBool, bit_ofBool', ite_true_bool, ite_false_bool]; rfl)) (by simp (disch := decide) only [encC_md, encC_arg, encC_acc, encC_bit, encC_b2, encC_b1, encC_b0, encC_z12, encC_z, encCW_md, encCW_arg, encCW_b2, encCW_wide, fld_fld, fld_app_lo, fld_app_hi, fld_all, fld_all', bit_app_lo, bit_app_hi, bit_ofBool, bit_ofBool', ite_true_bool, ite_false_bool]) hwf

set_option simprocs false in
theorem csig (sk dk : BitVec 2) (sys : Bool) (eng : BitVec 4) (sidx : BitVec 2) (b0 b1 b2 : BitVec 32) : Statement (.csig sk dk sys eng sidx b0 b1 b2) := by
  intro hwf _
  refine (decode_cmd (encC 5 3 (sk ++ dk ++ 0#3 ++ BitVec.ofBool sys) (0#2 ++ sidx ++ eng) b2 b1 b0)).trans ?_
  unfold decodeCommand
  rw [encC_cls]
  show decodeCopyCmd _ = _
  unfold decodeCopyCmd
  rw [encC_func]
  exact form_ok (by first | rfl | (simp (disch := decide) only [encC_md, encC_arg, encC_acc, encC_bit, encC_b2, encC_b1, encC_b0, encC_z12, encC_z, encCW_md, encCW_arg, encCW_b2, encCW_wide, fld_fld, fld_app_lo, fld_app_hi, fld_all, fld_all', bit_app_lo, bit_app_hi, bit_ofBool, bit_ofBool', ite_true_bool, ite_false_bool]; rfl)) (by simp (disch := decide) only [encC_md, encC_arg, encC_acc, encC_bit, encC_b2, encC_b1, encC_b0, encC_z12, encC_z, encCW_md, encCW_arg, encCW_b2, encCW_wide, fld_fld, fld_app_lo, fld_app_hi, fld_all, fld_all', bit_app_lo, bit_app_hi, bit_ofBool, bit_ofBool', ite_true_bool, ite_false_bool]) hwf

theorem copyComplete (eng : Nat) : Statement (.copyComplete eng) := by
  intro _ h; exact absurd rfl h

set_option simprocs false in
theorem cgrp (devs : Bool) (g : BitVec 6) (p rank : BitVec 32) : Statement (.cgrp devs g p rank) := by
  intro hwf _
  refine (decode_cmd (encC 6 0 (0#7 ++ BitVec.ofBool devs) (0#2 ++ g) 0 rank p)).trans ?_
  unfold decodeCommand
  rw [encC_cls]
  show decodeCollectiveCmd _ = _
  unfold decodeCollectiveCmd
  rw [encC_func]
  show (if bit (fld (encC 6 0 (0#7 ++ BitVec.ofBool devs) (0#2 ++ g) 0 rank p) 104 8) 1 then _ else _) = _
  rw [encC_md]
  rw [show bit (w := 8) (0#7 ++ b1 devs) 1 = false from (by simp (disch := decide) only [fld_fld, fld_app_lo, fld_app_hi, fld_all, fld_all', bit_app_lo, bit_app_hi, bit_ofBool, bit_ofBool', ite_true_bool, ite_false_bool] <;> rfl)]
  exact form_ok (by first | rfl | (simp (disch := decide) only [encC_md, encC_arg, encC_acc, encC_bit, encC_b2, encC_b1, encC_b0, encC_z12, encC_z, encCW_md, encCW_arg, encCW_b2, encCW_wide, fld_fld, fld_app_lo, fld_app_hi, fld_all, fld_all', bit_app_lo, bit_app_hi, bit_ofBool, bit_ofBool', ite_true_bool, ite_false_bool]; rfl)) (by simp (disch := decide) only [encC_md, encC_arg, encC_acc, encC_bit, encC_b2, encC_b1, encC_b0, encC_z12, encC_z, encCW_md, encCW_arg, encCW_b2, encCW_wide, fld_fld, fld_app_lo, fld_app_hi, fld_all, fld_all', bit_app_lo, bit_app_hi, bit_ofBool, bit_ofBool', ite_true_bool, ite_false_bool]) hwf

set_option simprocs false in
theorem cgrpFree (devs : Bool) (g : BitVec 6) (p rank : BitVec 32) : Statement (.cgrpFree devs g p rank) := by
  intro hwf _
  refine (decode_cmd (encC 6 0 (0#6 ++ 1#1 ++ BitVec.ofBool devs) (0#2 ++ g) 0 rank p)).trans ?_
  unfold decodeCommand
  rw [encC_cls]
  show decodeCollectiveCmd _ = _
  unfold decodeCollectiveCmd
  rw [encC_func]
  show (if bit (fld (encC 6 0 (0#6 ++ 1#1 ++ BitVec.ofBool devs) (0#2 ++ g) 0 rank p) 104 8) 1 then _ else _) = _
  rw [encC_md]
  rw [show bit (w := 8) (0#6 ++ 1#1 ++ b1 devs) 1 = true from (by simp (disch := decide) only [fld_fld, fld_app_lo, fld_app_hi, fld_all, fld_all', bit_app_lo, bit_app_hi, bit_ofBool, bit_ofBool', ite_true_bool, ite_false_bool] <;> rfl)]
  exact form_ok (by first | rfl | (simp (disch := decide) only [encC_md, encC_arg, encC_acc, encC_bit, encC_b2, encC_b1, encC_b0, encC_z12, encC_z, encCW_md, encCW_arg, encCW_b2, encCW_wide, fld_fld, fld_app_lo, fld_app_hi, fld_all, fld_all', bit_app_lo, bit_app_hi, bit_ofBool, bit_ofBool', ite_true_bool, ite_false_bool]; rfl)) (by simp (disch := decide) only [encC_md, encC_arg, encC_acc, encC_bit, encC_b2, encC_b1, encC_b0, encC_z12, encC_z, encCW_md, encCW_arg, encCW_b2, encCW_wide, fld_fld, fld_app_lo, fld_app_hi, fld_all, fld_all', bit_app_lo, bit_app_hi, bit_ofBool, bit_ofBool', ite_true_bool, ite_false_bool]) hwf

set_option simprocs false in
theorem a2av (esz : BitVec 2) (g : BitVec 6) (ldesc : BitVec 32) : Statement (.a2av esz g ldesc) := by
  intro hwf _
  refine (decode_cmd (encC 6 1 (0#6 ++ esz) (0#2 ++ g) 0 0 ldesc)).trans ?_
  unfold decodeCommand
  rw [encC_cls]
  show decodeCollectiveCmd _ = _
  unfold decodeCollectiveCmd
  rw [encC_func]
  exact form_ok (by first | rfl | (simp (disch := decide) only [encC_md, encC_arg, encC_acc, encC_bit, encC_b2, encC_b1, encC_b0, encC_z12, encC_z, encCW_md, encCW_arg, encCW_b2, encCW_wide, fld_fld, fld_app_lo, fld_app_hi, fld_all, fld_all', bit_app_lo, bit_app_hi, bit_ofBool, bit_ofBool', ite_true_bool, ite_false_bool]; rfl)) (by simp (disch := decide) only [encC_md, encC_arg, encC_acc, encC_bit, encC_b2, encC_b1, encC_b0, encC_z12, encC_z, encCW_md, encCW_arg, encCW_b2, encCW_wide, fld_fld, fld_app_lo, fld_app_hi, fld_all, fld_all', bit_app_lo, bit_app_hi, bit_ofBool, bit_ofBool', ite_true_bool, ite_false_bool]) hwf

set_option simprocs false in
theorem agth (esz : BitVec 2) (g : BitVec 6) (ldesc count : BitVec 32) : Statement (.agth esz g ldesc count) := by
  intro hwf _
  refine (decode_cmd (encC 6 2 (0#6 ++ esz) (0#2 ++ g) 0 count ldesc)).trans ?_
  unfold decodeCommand
  rw [encC_cls]
  show decodeCollectiveCmd _ = _
  unfold decodeCollectiveCmd
  rw [encC_func]
  exact form_ok (by first | rfl | (simp (disch := decide) only [encC_md, encC_arg, encC_acc, encC_bit, encC_b2, encC_b1, encC_b0, encC_z12, encC_z, encCW_md, encCW_arg, encCW_b2, encCW_wide, fld_fld, fld_app_lo, fld_app_hi, fld_all, fld_all', bit_app_lo, bit_app_hi, bit_ofBool, bit_ofBool', ite_true_bool, ite_false_bool]; rfl)) (by simp (disch := decide) only [encC_md, encC_arg, encC_acc, encC_bit, encC_b2, encC_b1, encC_b0, encC_z12, encC_z, encCW_md, encCW_arg, encCW_b2, encCW_wide, fld_fld, fld_app_lo, fld_app_hi, fld_all, fld_all', bit_app_lo, bit_app_hi, bit_ofBool, bit_ofBool', ite_true_bool, ite_false_bool]) hwf

set_option simprocs false in
theorem rsct (kt op : BitVec 2) (g : BitVec 6) (ldesc count : BitVec 32) : Statement (.rsct kt op g ldesc count) := by
  intro hwf _
  refine (decode_cmd (encC 6 3 (0#4 ++ op ++ kt) (0#2 ++ g) 0 count ldesc)).trans ?_
  unfold decodeCommand
  rw [encC_cls]
  show decodeCollectiveCmd _ = _
  unfold decodeCollectiveCmd
  rw [encC_func]
  exact form_ok (by first | rfl | (simp (disch := decide) only [encC_md, encC_arg, encC_acc, encC_bit, encC_b2, encC_b1, encC_b0, encC_z12, encC_z, encCW_md, encCW_arg, encCW_b2, encCW_wide, fld_fld, fld_app_lo, fld_app_hi, fld_all, fld_all', bit_app_lo, bit_app_hi, bit_ofBool, bit_ofBool', ite_true_bool, ite_false_bool]; rfl)) (by simp (disch := decide) only [encC_md, encC_arg, encC_acc, encC_bit, encC_b2, encC_b1, encC_b0, encC_z12, encC_z, encCW_md, encCW_arg, encCW_b2, encCW_wide, fld_fld, fld_app_lo, fld_app_hi, fld_all, fld_all', bit_app_lo, bit_app_hi, bit_ofBool, bit_ofBool', ite_true_bool, ite_false_bool]) hwf

set_option simprocs false in
theorem ared (kt op : BitVec 2) (g : BitVec 6) (ldesc count : BitVec 32) : Statement (.ared kt op g ldesc count) := by
  intro hwf _
  refine (decode_cmd (encC 6 4 (0#4 ++ op ++ kt) (0#2 ++ g) 0 count ldesc)).trans ?_
  unfold decodeCommand
  rw [encC_cls]
  show decodeCollectiveCmd _ = _
  unfold decodeCollectiveCmd
  rw [encC_func]
  exact form_ok (by first | rfl | (simp (disch := decide) only [encC_md, encC_arg, encC_acc, encC_bit, encC_b2, encC_b1, encC_b0, encC_z12, encC_z, encCW_md, encCW_arg, encCW_b2, encCW_wide, fld_fld, fld_app_lo, fld_app_hi, fld_all, fld_all', bit_app_lo, bit_app_hi, bit_ofBool, bit_ofBool', ite_true_bool, ite_false_bool]; rfl)) (by simp (disch := decide) only [encC_md, encC_arg, encC_acc, encC_bit, encC_b2, encC_b1, encC_b0, encC_z12, encC_z, encCW_md, encCW_arg, encCW_b2, encCW_wide, fld_fld, fld_app_lo, fld_app_hi, fld_all, fld_all', bit_app_lo, bit_app_hi, bit_ofBool, bit_ofBool', ite_true_bool, ite_false_bool]) hwf

theorem collectiveRendezvous (g : Nat) : Statement (.collectiveRendezvous g) := by
  intro _ h; exact absurd rfl h

theorem collectiveComplete (g rank : Nat) : Statement (.collectiveComplete g rank) := by
  intro _ h; exact absurd rfl h

set_option simprocs false in
theorem amo (ord : BitVec 2) (lm dw : Bool) (op : BitVec 4) (addr : Word) (b2 : BitVec 32) : Statement (.amo ord lm dw op addr b2) := by
  intro hwf _
  refine (decode_cmd (encCW 7 0 (ord ++ BitVec.ofBool lm ++ BitVec.ofBool dw ++ op) 0 b2 addr)).trans ?_
  unfold decodeCommand
  rw [encCW_cls]
  show decodeAtomicCmd _ = _
  unfold decodeAtomicCmd
  rw [encCW_func]
  exact form_ok (by first | rfl | (simp (disch := decide) only [encC_md, encC_arg, encC_acc, encC_bit, encC_b2, encC_b1, encC_b0, encC_z12, encC_z, encCW_md, encCW_arg, encCW_b2, encCW_wide, fld_fld, fld_app_lo, fld_app_hi, fld_all, fld_all', bit_app_lo, bit_app_hi, bit_ofBool, bit_ofBool', ite_true_bool, ite_false_bool]; rfl)) (by simp (disch := decide) only [encC_md, encC_arg, encC_acc, encC_bit, encC_b2, encC_b1, encC_b0, encC_z12, encC_z, encCW_md, encCW_arg, encCW_b2, encCW_wide, fld_fld, fld_app_lo, fld_app_hi, fld_all, fld_all', bit_app_lo, bit_app_hi, bit_ofBool, bit_ofBool', ite_true_bool, ite_false_bool]) hwf

set_option simprocs false in
theorem amoc (ord : BitVec 2) (dw : Bool) (addr : Word) (b2 : BitVec 32) : Statement (.amoc ord dw addr b2) := by
  intro hwf _
  refine (decode_cmd (encCW 7 1 (ord ++ 0#1 ++ BitVec.ofBool dw ++ 0#4) 0 b2 addr)).trans ?_
  unfold decodeCommand
  rw [encCW_cls]
  show decodeAtomicCmd _ = _
  unfold decodeAtomicCmd
  rw [encCW_func]
  exact form_ok (by first | rfl | (simp (disch := decide) only [encC_md, encC_arg, encC_acc, encC_bit, encC_b2, encC_b1, encC_b0, encC_z12, encC_z, encCW_md, encCW_arg, encCW_b2, encCW_wide, fld_fld, fld_app_lo, fld_app_hi, fld_all, fld_all', bit_app_lo, bit_app_hi, bit_ofBool, bit_ofBool', ite_true_bool, ite_false_bool]; rfl)) (by simp (disch := decide) only [encC_md, encC_arg, encC_acc, encC_bit, encC_b2, encC_b1, encC_b0, encC_z12, encC_z, encCW_md, encCW_arg, encCW_b2, encCW_wide, fld_fld, fld_app_lo, fld_app_hi, fld_all, fld_all', bit_app_lo, bit_app_hi, bit_ofBool, bit_ofBool', ite_true_bool, ite_false_bool]) hwf

set_option simprocs false in
theorem red (ord : BitVec 2) (lm dw : Bool) (op : BitVec 4) (addr : Word) (b2 : BitVec 32) : Statement (.red ord lm dw op addr b2) := by
  intro hwf _
  refine (decode_cmd (encCW 7 2 (ord ++ BitVec.ofBool lm ++ BitVec.ofBool dw ++ op) 0 b2 addr)).trans ?_
  unfold decodeCommand
  rw [encCW_cls]
  show decodeAtomicCmd _ = _
  unfold decodeAtomicCmd
  rw [encCW_func]
  exact form_ok (by first | rfl | (simp (disch := decide) only [encC_md, encC_arg, encC_acc, encC_bit, encC_b2, encC_b1, encC_b0, encC_z12, encC_z, encCW_md, encCW_arg, encCW_b2, encCW_wide, fld_fld, fld_app_lo, fld_app_hi, fld_all, fld_all', bit_app_lo, bit_app_hi, bit_ofBool, bit_ofBool', ite_true_bool, ite_false_bool]; rfl)) (by simp (disch := decide) only [encC_md, encC_arg, encC_acc, encC_bit, encC_b2, encC_b1, encC_b0, encC_z12, encC_z, encCW_md, encCW_arg, encCW_b2, encCW_wide, fld_fld, fld_app_lo, fld_app_hi, fld_all, fld_all', bit_app_lo, bit_app_hi, bit_ofBool, bit_ofBool', ite_true_bool, ite_false_bool]) hwf

set_option simprocs false in
theorem redv (ord : BitVec 2) (op : BitVec 4) (h : BitVec 6) (addr : Word) (b2 : BitVec 32) : Statement (.redv ord op h addr b2) := by
  intro hwf _
  refine (decode_cmd (encCW 7 3 (ord ++ 0#2 ++ op) (0#2 ++ h) b2 addr)).trans ?_
  unfold decodeCommand
  rw [encCW_cls]
  show decodeAtomicCmd _ = _
  unfold decodeAtomicCmd
  rw [encCW_func]
  exact form_ok (by first | rfl | (simp (disch := decide) only [encC_md, encC_arg, encC_acc, encC_bit, encC_b2, encC_b1, encC_b0, encC_z12, encC_z, encCW_md, encCW_arg, encCW_b2, encCW_wide, fld_fld, fld_app_lo, fld_app_hi, fld_all, fld_all', bit_app_lo, bit_app_hi, bit_ofBool, bit_ofBool', ite_true_bool, ite_false_bool]; rfl)) (by simp (disch := decide) only [encC_md, encC_arg, encC_acc, encC_bit, encC_b2, encC_b1, encC_b0, encC_z12, encC_z, encCW_md, encCW_arg, encCW_b2, encCW_wide, fld_fld, fld_app_lo, fld_app_hi, fld_all, fld_all', bit_app_lo, bit_app_hi, bit_ofBool, bit_ofBool', ite_true_bool, ite_false_bool]) hwf

theorem fadd (n : NodeFields) : Statement (.fadd n) := by
  intro hwf _
  refine (decode_node (encN 0x000 n)).trans ?_
  unfold decodeNode
  rw [encN_opc]
  exact form_ok (encN_live ..) (by rw [encN_fields]) hwf

theorem fsub (n : NodeFields) : Statement (.fsub n) := by
  intro hwf _
  refine (decode_node (encN 0x001 n)).trans ?_
  unfold decodeNode
  rw [encN_opc]
  exact form_ok (encN_live ..) (by rw [encN_fields]) hwf

theorem fmul (n : NodeFields) : Statement (.fmul n) := by
  intro hwf _
  refine (decode_node (encN 0x002 n)).trans ?_
  unfold decodeNode
  rw [encN_opc]
  exact form_ok (encN_live ..) (by rw [encN_fields]) hwf

theorem ffma (n : NodeFields) : Statement (.ffma n) := by
  intro hwf _
  refine (decode_node (encN 0x003 n)).trans ?_
  unfold decodeNode
  rw [encN_opc]
  exact form_ok (encN_live ..) (by rw [encN_fields]) hwf

theorem fmax (n : NodeFields) : Statement (.fmax n) := by
  intro hwf _
  refine (decode_node (encN 0x004 n)).trans ?_
  unfold decodeNode
  rw [encN_opc]
  exact form_ok (encN_live ..) (by rw [encN_fields]) hwf

theorem fmin (n : NodeFields) : Statement (.fmin n) := by
  intro hwf _
  refine (decode_node (encN 0x005 n)).trans ?_
  unfold decodeNode
  rw [encN_opc]
  exact form_ok (encN_live ..) (by rw [encN_fields]) hwf

theorem fabs (n : NodeFields) : Statement (.fabs n) := by
  intro hwf _
  refine (decode_node (encN 0x006 n)).trans ?_
  unfold decodeNode
  rw [encN_opc]
  exact form_ok (encN_live ..) (by rw [encN_fields]) hwf

theorem fneg (n : NodeFields) : Statement (.fneg n) := by
  intro hwf _
  refine (decode_node (encN 0x007 n)).trans ?_
  unfold decodeNode
  rw [encN_opc]
  exact form_ok (encN_live ..) (by rw [encN_fields]) hwf

theorem fcmp (n : NodeFields) : Statement (.fcmp n) := by
  intro hwf _
  refine (decode_node (encN 0x008 n)).trans ?_
  unfold decodeNode
  rw [encN_opc]
  exact form_ok (encN_live ..) (by rw [encN_fields]) hwf

theorem frnd (n : NodeFields) : Statement (.frnd n) := by
  intro hwf _
  refine (decode_node (encN 0x009 n)).trans ?_
  unfold decodeNode
  rw [encN_opc]
  exact form_ok (encN_live ..) (by rw [encN_fields]) hwf

theorem fcls (n : NodeFields) : Statement (.fcls n) := by
  intro hwf _
  refine (decode_node (encN 0x00A n)).trans ?_
  unfold decodeNode
  rw [encN_opc]
  exact form_ok (encN_live ..) (by rw [encN_fields]) hwf

theorem frcp (n : NodeFields) : Statement (.frcp n) := by
  intro hwf _
  refine (decode_node (encN 0x010 n)).trans ?_
  unfold decodeNode
  rw [encN_opc]
  exact form_ok (encN_live ..) (by rw [encN_fields]) hwf

theorem frsq (n : NodeFields) : Statement (.frsq n) := by
  intro hwf _
  refine (decode_node (encN 0x011 n)).trans ?_
  unfold decodeNode
  rw [encN_opc]
  exact form_ok (encN_live ..) (by rw [encN_fields]) hwf

theorem fexp2 (n : NodeFields) : Statement (.fexp2 n) := by
  intro hwf _
  refine (decode_node (encN 0x012 n)).trans ?_
  unfold decodeNode
  rw [encN_opc]
  exact form_ok (encN_live ..) (by rw [encN_fields]) hwf

theorem flog2 (n : NodeFields) : Statement (.flog2 n) := by
  intro hwf _
  refine (decode_node (encN 0x013 n)).trans ?_
  unfold decodeNode
  rw [encN_opc]
  exact form_ok (encN_live ..) (by rw [encN_fields]) hwf

theorem iadd (n : NodeFields) : Statement (.iadd n) := by
  intro hwf _
  refine (decode_node (encN 0x020 n)).trans ?_
  unfold decodeNode
  rw [encN_opc]
  exact form_ok (encN_live ..) (by rw [encN_fields]) hwf

theorem isub (n : NodeFields) : Statement (.isub n) := by
  intro hwf _
  refine (decode_node (encN 0x021 n)).trans ?_
  unfold decodeNode
  rw [encN_opc]
  exact form_ok (encN_live ..) (by rw [encN_fields]) hwf

theorem imul (n : NodeFields) : Statement (.imul n) := by
  intro hwf _
  refine (decode_node (encN 0x022 n)).trans ?_
  unfold decodeNode
  rw [encN_opc]
  exact form_ok (encN_live ..) (by rw [encN_fields]) hwf

theorem imax (n : NodeFields) : Statement (.imax n) := by
  intro hwf _
  refine (decode_node (encN 0x023 n)).trans ?_
  unfold decodeNode
  rw [encN_opc]
  exact form_ok (encN_live ..) (by rw [encN_fields]) hwf

theorem imin (n : NodeFields) : Statement (.imin n) := by
  intro hwf _
  refine (decode_node (encN 0x024 n)).trans ?_
  unfold decodeNode
  rw [encN_opc]
  exact form_ok (encN_live ..) (by rw [encN_fields]) hwf

theorem icmp (n : NodeFields) : Statement (.icmp n) := by
  intro hwf _
  refine (decode_node (encN 0x025 n)).trans ?_
  unfold decodeNode
  rw [encN_opc]
  exact form_ok (encN_live ..) (by rw [encN_fields]) hwf

theorem iabs (n : NodeFields) : Statement (.iabs n) := by
  intro hwf _
  refine (decode_node (encN 0x026 n)).trans ?_
  unfold decodeNode
  rw [encN_opc]
  exact form_ok (encN_live ..) (by rw [encN_fields]) hwf

theorem nodeAnd (n : NodeFields) : Statement (.nodeAnd n) := by
  intro hwf _
  refine (decode_node (encN 0x030 n)).trans ?_
  unfold decodeNode
  rw [encN_opc]
  exact form_ok (encN_live ..) (by rw [encN_fields]) hwf

theorem nodeOr (n : NodeFields) : Statement (.nodeOr n) := by
  intro hwf _
  refine (decode_node (encN 0x031 n)).trans ?_
  unfold decodeNode
  rw [encN_opc]
  exact form_ok (encN_live ..) (by rw [encN_fields]) hwf

theorem nodeXor (n : NodeFields) : Statement (.nodeXor n) := by
  intro hwf _
  refine (decode_node (encN 0x032 n)).trans ?_
  unfold decodeNode
  rw [encN_opc]
  exact form_ok (encN_live ..) (by rw [encN_fields]) hwf

theorem andn (n : NodeFields) : Statement (.andn n) := by
  intro hwf _
  refine (decode_node (encN 0x033 n)).trans ?_
  unfold decodeNode
  rw [encN_opc]
  exact form_ok (encN_live ..) (by rw [encN_fields]) hwf

theorem shl (n : NodeFields) : Statement (.shl n) := by
  intro hwf _
  refine (decode_node (encN 0x038 n)).trans ?_
  unfold decodeNode
  rw [encN_opc]
  exact form_ok (encN_live ..) (by rw [encN_fields]) hwf

theorem shr (n : NodeFields) : Statement (.shr n) := by
  intro hwf _
  refine (decode_node (encN 0x039 n)).trans ?_
  unfold decodeNode
  rw [encN_opc]
  exact form_ok (encN_live ..) (by rw [encN_fields]) hwf

theorem sar (n : NodeFields) : Statement (.sar n) := by
  intro hwf _
  refine (decode_node (encN 0x03A n)).trans ?_
  unfold decodeNode
  rw [encN_opc]
  exact form_ok (encN_live ..) (by rw [encN_fields]) hwf

theorem lshuf (n : NodeFields) : Statement (.lshuf n) := by
  intro hwf _
  refine (decode_node (encN 0x040 n)).trans ?_
  unfold decodeNode
  rw [encN_opc]
  exact form_ok (encN_live ..) (by rw [encN_fields]) hwf

theorem lrot (n : NodeFields) : Statement (.lrot n) := by
  intro hwf _
  refine (decode_node (encN 0x041 n)).trans ?_
  unfold decodeNode
  rw [encN_opc]
  exact form_ok (encN_live ..) (by rw [encN_fields]) hwf

theorem lbcast (n : NodeFields) : Statement (.lbcast n) := by
  intro hwf _
  refine (decode_node (encN 0x042 n)).trans ?_
  unfold decodeNode
  rw [encN_opc]
  exact form_ok (encN_live ..) (by rw [encN_fields]) hwf

theorem lsum (n : NodeFields) : Statement (.lsum n) := by
  intro hwf _
  refine (decode_node (encN 0x050 n)).trans ?_
  unfold decodeNode
  rw [encN_opc]
  exact form_ok (encN_live ..) (by rw [encN_fields]) hwf

theorem lmax (n : NodeFields) : Statement (.lmax n) := by
  intro hwf _
  refine (decode_node (encN 0x051 n)).trans ?_
  unfold decodeNode
  rw [encN_opc]
  exact form_ok (encN_live ..) (by rw [encN_fields]) hwf

theorem lmin (n : NodeFields) : Statement (.lmin n) := by
  intro hwf _
  refine (decode_node (encN 0x052 n)).trans ?_
  unfold decodeNode
  rw [encN_opc]
  exact form_ok (encN_live ..) (by rw [encN_fields]) hwf

theorem cvt (n : NodeFields) : Statement (.cvt n) := by
  intro hwf _
  refine (decode_node (encN 0x100 n)).trans ?_
  unfold decodeNode
  rw [encN_opc]
  exact form_ok (encN_live ..) (by rw [encN_fields]) hwf

theorem pack (n : NodeFields) : Statement (.pack n) := by
  intro hwf _
  refine (decode_node (encN 0x101 n)).trans ?_
  unfold decodeNode
  rw [encN_opc]
  exact form_ok (encN_live ..) (by rw [encN_fields]) hwf

theorem unpack (n : NodeFields) : Statement (.unpack n) := by
  intro hwf _
  refine (decode_node (encN 0x102 n)).trans ?_
  unfold decodeNode
  rw [encN_opc]
  exact form_ok (encN_live ..) (by rw [encN_fields]) hwf

theorem steer (n : NodeFields) : Statement (.steer n) := by
  intro hwf _
  refine (decode_node (encN 0x180 n)).trans ?_
  unfold decodeNode
  rw [encN_opc]
  exact form_ok (encN_live ..) (by rw [encN_fields]) hwf

theorem merge (n : NodeFields) : Statement (.merge n) := by
  intro hwf _
  refine (decode_node (encN 0x181 n)).trans ?_
  unfold decodeNode
  rw [encN_opc]
  exact form_ok (encN_live ..) (by rw [encN_fields]) hwf

theorem carry (n : NodeFields) : Statement (.carry n) := by
  intro hwf _
  refine (decode_node (encN 0x182 n)).trans ?_
  unfold decodeNode
  rw [encN_opc]
  exact form_ok (encN_live ..) (by rw [encN_fields]) hwf

theorem select (n : NodeFields) : Statement (.select n) := by
  intro hwf _
  refine (decode_node (encN 0x183 n)).trans ?_
  unfold decodeNode
  rw [encN_opc]
  exact form_ok (encN_live ..) (by rw [encN_fields]) hwf

theorem gate (n : NodeFields) : Statement (.gate n) := by
  intro hwf _
  refine (decode_node (encN 0x184 n)).trans ?_
  unfold decodeNode
  rw [encN_opc]
  exact form_ok (encN_live ..) (by rw [encN_fields]) hwf

theorem join (n : NodeFields) : Statement (.join n) := by
  intro hwf _
  refine (decode_node (encN 0x185 n)).trans ?_
  unfold decodeNode
  rw [encN_opc]
  exact form_ok (encN_live ..) (by rw [encN_fields]) hwf

theorem dup (n : NodeFields) : Statement (.dup n) := by
  intro hwf _
  refine (decode_node (encN 0x186 n)).trans ?_
  unfold decodeNode
  rw [encN_opc]
  exact form_ok (encN_live ..) (by rw [encN_fields]) hwf

theorem sink (n : NodeFields) : Statement (.sink n) := by
  intro hwf _
  refine (decode_node (encN 0x187 n)).trans ?_
  unfold decodeNode
  rw [encN_opc]
  exact form_ok (encN_live ..) (by rw [encN_fields]) hwf

theorem const (n : NodeFields) : Statement (.const n) := by
  intro hwf _
  refine (decode_node (encN 0x188 n)).trans ?_
  unfold decodeNode
  rw [encN_opc]
  exact form_ok (encN_live ..) (by rw [encN_fields]) hwf

theorem count (n : NodeFields) : Statement (.count n) := by
  intro hwf _
  refine (decode_node (encN 0x189 n)).trans ?_
  unfold decodeNode
  rw [encN_opc]
  exact form_ok (encN_live ..) (by rw [encN_fields]) hwf

theorem maddr (n : NodeFields) : Statement (.maddr n) := by
  intro hwf _
  refine (decode_node (encN 0x1C0 n)).trans ?_
  unfold decodeNode
  rw [encN_opc]
  exact form_ok (encN_live ..) (by rw [encN_fields]) hwf

theorem mload (n : NodeFields) : Statement (.mload n) := by
  intro hwf _
  refine (decode_node (encN 0x1C1 n)).trans ?_
  unfold decodeNode
  rw [encN_opc]
  exact form_ok (encN_live ..) (by rw [encN_fields]) hwf

theorem mstore (n : NodeFields) : Statement (.mstore n) := by
  intro hwf _
  refine (decode_node (encN 0x1C2 n)).trans ?_
  unfold decodeNode
  rw [encN_opc]
  exact form_ok (encN_live ..) (by rw [encN_fields]) hwf

theorem matom (n : NodeFields) : Statement (.matom n) := by
  intro hwf _
  refine (decode_node (encN 0x1C3 n)).trans ?_
  unfold decodeNode
  rw [encN_opc]
  exact form_ok (encN_live ..) (by rw [encN_fields]) hwf

theorem mred (n : NodeFields) : Statement (.mred n) := by
  intro hwf _
  refine (decode_node (encN 0x1C4 n)).trans ?_
  unfold decodeNode
  rw [encN_opc]
  exact form_ok (encN_live ..) (by rw [encN_fields]) hwf

theorem gload (n : NodeFields) : Statement (.gload n) := by
  intro hwf _
  refine (decode_node (encN 0x1C5 n)).trans ?_
  unfold decodeNode
  rw [encN_opc]
  exact form_ok (encN_live ..) (by rw [encN_fields]) hwf

theorem gstore (n : NodeFields) : Statement (.gstore n) := by
  intro hwf _
  refine (decode_node (encN 0x1C6 n)).trans ?_
  unfold decodeNode
  rw [encN_opc]
  exact form_ok (encN_live ..) (by rw [encN_fields]) hwf

theorem cmpr (n : NodeFields) : Statement (.cmpr n) := by
  intro hwf _
  refine (decode_node (encN 0x200 n)).trans ?_
  unfold decodeNode
  rw [encN_opc]
  exact form_ok (encN_live ..) (by rw [encN_fields]) hwf

theorem csum (n : NodeFields) : Statement (.csum n) := by
  intro hwf _
  refine (decode_node (encN 0x201 n)).trans ?_
  unfold decodeNode
  rw [encN_opc]
  exact form_ok (encN_live ..) (by rw [encN_fields]) hwf

theorem trace (n : NodeFields) : Statement (.trace n) := by
  intro hwf _
  refine (decode_node (encN 0x202 n)).trans ?_
  unfold decodeNode
  rw [encN_opc]
  exact form_ok (encN_live ..) (by rw [encN_fields]) hwf

theorem barOrderingPointRelease (core cell stage : Nat) : Statement (.barOrderingPointRelease core cell stage) := by
  intro _ h; exact absurd rfl h

theorem baySwitch (plot : Nat) : Statement (.baySwitch plot) := by
  intro _ h; exact absurd rfl h

theorem launch (n : GraphFields) : Statement (.launch n) := by
  intro hwf _
  refine (decode_graph (encG 1 n)).trans ?_
  unfold decodeGraph
  rw [encG_type, encG_fields]
  rfl

theorem graphCond (n : GraphFields) : Statement (.graphCond n) := by
  intro hwf _
  refine (decode_graph (encG 2 n)).trans ?_
  unfold decodeGraph
  rw [encG_type, encG_fields]
  rfl

theorem graphWhile (n : GraphFields) : Statement (.graphWhile n) := by
  intro hwf _
  refine (decode_graph (encG 3 n)).trans ?_
  unfold decodeGraph
  rw [encG_type, encG_fields]
  rfl

theorem waitm (n : GraphFields) : Statement (.waitm n) := by
  intro hwf _
  refine (decode_graph (encG 4 n)).trans ?_
  unfold decodeGraph
  rw [encG_type, encG_fields]
  rfl

theorem signal (n : GraphFields) : Statement (.signal n) := by
  intro hwf _
  refine (decode_graph (encG 5 n)).trans ?_
  unfold decodeGraph
  rw [encG_type, encG_fields]
  rfl

theorem graphJoin (n : GraphFields) : Statement (.graphJoin n) := by
  intro hwf _
  refine (decode_graph (encG 6 n)).trans ?_
  unfold decodeGraph
  rw [encG_type, encG_fields]
  rfl

theorem graphEnd (n : GraphFields) : Statement (.graphEnd n) := by
  intro hwf _
  refine (decode_graph (encG 7 n)).trans ?_
  unfold decodeGraph
  rw [encG_type, encG_fields]
  rfl

theorem walkerClaim (die : Nat) : Statement (.walkerClaim die) := by
  intro _ h; exact absurd rfl h

theorem lineWatchFire (idx : Nat) : Statement (.lineWatchFire idx) := by
  intro _ h; exact absurd rfl h

theorem waitmRetest (idx : Nat) : Statement (.waitmRetest idx) := by
  intro _ h; exact absurd rfl h

theorem queueAging (idx : Nat) : Statement (.queueAging idx) := by
  intro _ h; exact absurd rfl h

theorem reserveRequest (plot : Nat) : Statement (.reserveRequest plot) := by
  intro _ h; exact absurd rfl h

theorem configurationLoad (plot : Nat) : Statement (.configurationLoad plot) := by
  intro _ h; exact absurd rfl h

theorem rowDrain (plot row : Nat) : Statement (.rowDrain plot row) := by
  intro _ h; exact absurd rfl h

theorem preemptRequest (plot : Nat) : Statement (.preemptRequest plot) := by
  intro _ h; exact absurd rfl h

theorem contextSave (plot : Nat) : Statement (.contextSave plot) := by
  intro _ h; exact absurd rfl h

theorem contextRestore (plot : Nat) : Statement (.contextRestore plot) := by
  intro _ h; exact absurd rfl h

theorem sliceExpiry (plot : Nat) : Statement (.sliceExpiry plot) := by
  intro _ h; exact absurd rfl h

theorem watchdogExpiry (plot : Nat) : Statement (.watchdogExpiry plot) := by
  intro _ h; exact absurd rfl h

theorem saveTimeout (plot : Nat) : Statement (.saveTimeout plot) := by
  intro _ h; exact absurd rfl h

theorem sweepRowFree (plot row : Nat) : Statement (.sweepRowFree plot row) := by
  intro _ h; exact absurd rfl h

theorem trapEntry (core : Nat) : Statement (.trapEntry core) := by
  intro _ h; exact absurd rfl h

theorem ctxcmdResume (p : BitVec 16) : Statement (.ctxcmdResume p) := by
  intro _ h; exact absurd rfl h

theorem ctxcmdDestroy (p : BitVec 16) : Statement (.ctxcmdDestroy p) := by
  intro _ h; exact absurd rfl h

theorem go : Statement (.go) := by
  intro _ h; exact absurd rfl h

theorem debugResume (core : Nat) : Statement (.debugResume core) := by
  intro _ h; exact absurd rfl h

theorem debugStep (core : Nat) : Statement (.debugStep core) := by
  intro _ h; exact absurd rfl h

theorem breakpointHitClear (core : Nat) (n : BitVec 3) : Statement (.breakpointHitClear core n) := by
  intro _ h; exact absurd rfl h

theorem breakpointEnable (core : Nat) (n : BitVec 3) (v : Word) : Statement (.breakpointEnable core n v) := by
  intro _ h; exact absurd rfl h

theorem bankDeclareFailed (core : Nat) (m : BitVec 2) (bank : BitVec 5) : Statement (.bankDeclareFailed core m bank) := by
  intro _ h; exact absurd rfl h

theorem packetDecode (die idx : Nat) : Statement (.packetDecode die idx) := by
  intro _ h; exact absurd rfl h

theorem packetDeliver (die idx : Nat) : Statement (.packetDeliver die idx) := by
  intro _ h; exact absurd rfl h

theorem err (die idx : Nat) : Statement (.err die idx) := by
  intro _ h; exact absurd rfl h

theorem ack (die idx : Nat) : Statement (.ack die idx) := by
  intro _ h; exact absurd rfl h

theorem ackTimer (die stream : Nat) : Statement (.ackTimer die stream) := by
  intro _ h; exact absurd rfl h

theorem nack (die idx : Nat) : Statement (.nack die idx) := by
  intro _ h; exact absurd rfl h

theorem nackBackoffExpiry (die stream : Nat) : Statement (.nackBackoffExpiry die stream) := by
  intro _ h; exact absurd rfl h

theorem retransmitTimeout (die stream : Nat) : Statement (.retransmitTimeout die stream) := by
  intro _ h; exact absurd rfl h

theorem linkDead (link : Nat) (cause : BitVec 2) : Statement (.linkDead link cause) := by
  intro _ h; exact absurd rfl h

theorem dieRemoval (die : Nat) (cause : BitVec 2) : Statement (.dieRemoval die cause) := by
  intro _ h; exact absurd rfl h

theorem resyncQuiesce : Statement (.resyncQuiesce) := by
  intro _ h; exact absurd rfl h

theorem resyncExchange : Statement (.resyncExchange) := by
  intro _ h; exact absurd rfl h

theorem resyncClear : Statement (.resyncClear) := by
  intro _ h; exact absurd rfl h

theorem resyncResume : Statement (.resyncResume) := by
  intro _ h; exact absurd rfl h

theorem fenceProbeAnswer (die idx : Nat) : Statement (.fenceProbeAnswer die idx) := by
  intro _ h; exact absurd rfl h

theorem invgo : Statement (.invgo) := by
  intro _ h; exact absurd rfl h

theorem inv (die : Nat) : Statement (.inv die) := by
  intro _ h; exact absurd rfl h

theorem invack (die : Nat) : Statement (.invack die) := by
  intro _ h; exact absurd rfl h

theorem invResendTimer (die : Nat) : Statement (.invResendTimer die) := by
  intro _ h; exact absurd rfl h

theorem wbRewalk (walk : Nat) : Statement (.wbRewalk walk) := by
  intro _ h; exact absurd rfl h

theorem squareArrival (idx : Nat) : Statement (.squareArrival idx) := by
  intro _ h; exact absurd rfl h

theorem barrierRelease (idx : Nat) : Statement (.barrierRelease idx) := by
  intro _ h; exact absurd rfl h

theorem barrierWithdraw (idx : Nat) : Statement (.barrierWithdraw idx) := by
  intro _ h; exact absurd rfl h

theorem barrierWithdrawAnswer (idx : Nat) : Statement (.barrierWithdrawAnswer idx) := by
  intro _ h; exact absurd rfl h

theorem hostRead (port : Bool) (a : HostPlace) (len : Nat) : Statement (.hostRead port a len) := by
  intro _ h; exact absurd rfl h

theorem hostWrite (port : Bool) (a : HostPlace) (data : List Byte) : Statement (.hostWrite port a data) := by
  intro _ h; exact absurd rfl h

theorem hostAtomic (port : Bool) (a : HostPlace) (op : BitVec 4) (dw : Bool) (page : HostPage) (second : Bool) (v cmp : Word) :
    Statement (.hostAtomic port a op dw page second v cmp) := by
  intro _ h; exact absurd rfl h

theorem lvlreq (k : Nat) (code : BitVec 2) : Statement (.lvlreq k code) := by
  intro _ h; exact absurd rfl h

theorem levelRampSettle (k : Nat) : Statement (.levelRampSettle k) := by
  intro _ h; exact absurd rfl h

theorem ramptabWrite (k : Nat) (v : Word) : Statement (.ramptabWrite k v) := by
  intro _ h; exact absurd rfl h

theorem lock (k : Nat) : Statement (.lock k) := by
  intro _ h; exact absurd rfl h

theorem slewLimiterStep (k : Nat) : Statement (.slewLimiterStep k) := by
  intro _ h; exact absurd rfl h

theorem hbeat : Statement (.hbeat) := by
  intro _ h; exact absurd rfl h

theorem fwloss (update : Bool) : Statement (.fwloss update) := by
  intro _ h; exact absurd rfl h

theorem thermalTrip (k : Nat) (temp : BitVec 16) : Statement (.thermalTrip k temp) := by
  intro _ h; exact absurd rfl h

theorem converterCurrentLimit (k : Nat) : Statement (.converterCurrentLimit k) := by
  intro _ h; exact absurd rfl h

theorem powerOnReset (m0ok m1ok : Bool) (fail : Option (BitVec 3 × BitVec 8 × BitVec 8)) (tabs : List Word) : Statement (.powerOnReset m0ok m1ok fail tabs) := by
  intro _ h; exact absurd rfl h

theorem devrst (fail : Option (BitVec 3 × BitVec 8 × BitVec 8)) (tabs : List Word) : Statement (.devrst fail tabs) := by
  intro _ h; exact absurd rfl h

theorem atgo : Statement (.atgo) := by
  intro _ h; exact absurd rfl h

theorem attestationReportDone : Statement (.attestationReportDone) := by
  intro _ h; exact absurd rfl h

theorem pcctlClear (die : Nat) : Statement (.pcctlClear die) := by
  intro _ h; exact absurd rfl h

theorem roceSend (port q : Nat) : Statement (.roceSend port q) := by
  intro _ h; exact absurd rfl h

theorem roceWrite (port q : Nat) : Statement (.roceWrite port q) := by
  intro _ h; exact absurd rfl h

theorem roceWriteImm (port q : Nat) : Statement (.roceWriteImm port q) := by
  intro _ h; exact absurd rfl h

theorem roceRead (port q : Nat) : Statement (.roceRead port q) := by
  intro _ h; exact absurd rfl h

theorem incomingSend (port q : Nat) (data : List Byte) : Statement (.incomingSend port q data) := by
  intro _ h; exact absurd rfl h

theorem incomingRdmaWrite (port q : Nat) (key : BitVec 32) (addr : Word) (data : List Byte) (imm : Option (BitVec 32)) : Statement (.incomingRdmaWrite port q key addr data imm) := by
  intro _ h; exact absurd rfl h

theorem incomingRdmaRead (port q : Nat) (key : BitVec 32) (addr : Word) (len : Nat) : Statement (.incomingRdmaRead port q key addr len) := by
  intro _ h; exact absurd rfl h

theorem roceCompletion (port q : Nat) (status : BitVec 8) (data : List Byte) : Statement (.roceCompletion port q status data) := by
  intro _ h; exact absurd rfl h

theorem sqdb (port q : Nat) (v : Word) : Statement (.sqdb port q v) := by
  intro _ h; exact absurd rfl h

theorem rqdb (port q : Nat) (v : Word) : Statement (.rqdb port q v) := by
  intro _ h; exact absurd rfl h

theorem cqdb (port q : Nat) (v : Word) : Statement (.cqdb port q v) := by
  intro _ h; exact absurd rfl h

theorem qpStateWrite (port q : Nat) (v : BitVec 3) : Statement (.qpStateWrite port q v) := by
  intro _ h; exact absurd rfl h

theorem registerWrite (w : Window) (off : Nat) (v : Word) : Statement (.registerWrite w off v) := by
  intro _ h; exact absurd rfl h

theorem flitBoundary (port : Nat) : Statement (.flitBoundary port) := by
  intro _ h; exact absurd rfl h

theorem flitArrival (port : Nat) (corrupt : Bool) : Statement (.flitArrival port corrupt) := by
  intro _ h; exact absurd rfl h

theorem linkRetrained (link : Nat) : Statement (.linkRetrained link) := by
  intro _ h; exact absurd rfl h

theorem accessPerformed (acc : Nat) : Statement (.accessPerformed acc) := by
  intro _ h; exact absurd rfl h

theorem pageWalkComplete (walk : Nat) : Statement (.pageWalkComplete walk) := by
  intro _ h; exact absurd rfl h

theorem instructionCacheFill (core : Nat) : Statement (.instructionCacheFill core) := by
  intro _ h; exact absurd rfl h

theorem copyExecutionFault (eng : Nat) : Statement (.copyExecutionFault eng) := by
  intro _ h; exact absurd rfl h

theorem keyExecutionFault (core : Nat) : Statement (.keyExecutionFault core) := by
  intro _ h; exact absurd rfl h

theorem thermalTripClear (k : Nat) : Statement (.thermalTripClear k) := by
  intro _ h; exact absurd rfl h

theorem dieRejoin (die : Nat) : Statement (.dieRejoin die) := by
  intro _ h; exact absurd rfl h

theorem ethernetLinkState (port : Nat) (up : Bool) : Statement (.ethernetLinkState port up) := by
  intro _ h; exact absurd rfl h

theorem roceAckTimeout (port q : Nat) : Statement (.roceAckTimeout port q) := by
  intro _ h; exact absurd rfl h

theorem doorbellLineReread (port q : Nat) : Statement (.doorbellLineReread port q) := by
  intro _ h; exact absurd rfl h

end Sys2Proof.Laws.RoundTrip
end

