-- ==== Sys2Proof/Tests/Slice0.lean ====
section
/-!
SUPPORT. Tests. For every statement of Certificates/Slice0/Obligations.lean that has hypotheses, a witness: concrete states and operands that
meet them, clause by clause. Then decoding, with words written out from the tables of the spec; the well-formedness checks; and single
steps against results that the spec works out or that follow by hand from its rules.
-/

namespace Sys2Proof.Tests

set_option Elab.async false

open Sys2Proof.Machine

/-- Core 0 holds an armed plot of one core and its handler c0 runs at 0x1000. -/
def bare : State := State.reset.withFetchWord 32 0x88000000

/-- That plot. -/
def plot1 : Plot := { Plot.init with id := 1, state := .armed, codebase := 0x1000, trapoff := 0x100 }

/-- `bare` with its core changed. -/
abbrev onCore (f : Core → Core) : State := bare.modCore 0 f

/-- `bare` with its plot changed. -/
abbrev onPlot (f : Plot → Plot) : State := bare.modPlot 1 f

/-- `bare` with values in shared registers, by number. -/
abbrev withVals (rs : List (Nat × Word)) : State := onCore fun k => { k with regs := rs }

/-- A readable and writable 2 MiB HASH page at address 0. -/
def page0 : TcEntry :=
  { root := 0, page := 0, size := 2, pa := 0x200000, host := false, place := 2, homedie := 0, sa := false, wb := false, ac := false,
    rw := false, wr := true, nf := false }

/-- The core's translation cache holds that page. -/
abbrev mapped (k : Core) : Core := { k with tcache := [(0, [page0])] }

theorem pair_of {α β : Type} {x : α × β} {a : α} (h : x.1 = a) : ∃ b, x = (a, b) := ⟨x.2, by rw [← h]⟩

theorem snd_of {α β : Type} {x : α × β} {b : β} (h : x.2 = b) : ∃ a, x = (a, b) := ⟨x.1, by rw [← h]⟩

theorem ok_of {ε α : Type} {x : Except ε α} (h : x.toBool = true) : ∃ a, x = .ok a := by
  cases x with
  | error e => cases h
  | ok a => exact ⟨a, rfl⟩

/-! ### Witnesses: sequencer -/

theorem witness_clear : bare.clear [1, 2, 3] ∧ bare.clear [0, 31] := by unfold State.clear; decide +kernel

theorem witness_plot : bare.plotOf bare.cur.core = some plot1 := by decide +kernel

theorem witness_AluResults : bare.clear [1, 2, 3] ∧ bare.clear [1, 2] := by unfold State.clear; decide +kernel

theorem witness_MultiplyDivideBitFieldResults :
    bare.clear [1, 2, 3] ∧ bitFieldOk 60 3 = true ∧ bitFieldOk 0 63 = true ∧
      (∃ q, (onPlot fun q => { q with widths := [7, 5, 8, 0, 0, 0] }).plotOf 0 = some q ∧ q.widths.getD 2 0 = 8) ∧
      ∃ q, (onPlot fun q => { q with widths := [64, 0, 0, 0, 0, 0] }).plotOf 0 = some q ∧ q.widths.getD 0 0 = 64 ∧
        (q.widths.take 0).sum = 0 := by
  refine ⟨by unfold State.clear; decide +kernel, by decide +kernel, by decide +kernel, ⟨_, rfl, by decide +kernel⟩, ⟨_, rfl, by decide +kernel, by decide +kernel⟩⟩

theorem witness_SpecialRegisterMoves :
    bare.clear [4] ∧ bare.plotOf bare.cur.core = some plot1 ∧ (withVals [(1, 0xFFFFFFFF)]).clear [1] ∧
      ((withVals [(1, 0xFFFFFFFF)]).rd 1).toNat < 2 ^ 32 ∧ 2 ^ 32 ≤ ((withVals [(1, 0x100000000)]).rd 1).toNat ∧
      1 ∉ (bare.me.handler bare.me.bank).order ∧
      let s := onCore fun k => k.modHandler 0 fun h => { h with order := [1] }
      1 ∈ (s.me.handler s.me.bank).order := by
  unfold State.clear; decide +kernel

theorem witness_LocalMemoryAccess :
    bare.clear [1, 2] ∧ heldLocal bare.me 0x7FF8 8 = false ∧ heldLocal bare.me 0x7FFC 4 = false ∧
      ∀ x ∈ [(0x7FF8, 0x7FF8), (0x7FFC, 0x7FFC), (0x7FFA, 0x7FFA), (0x8000, 0x8000)],
        (BitVec.ofInt 64 (((withVals [(1, BitVec.ofNat 64 x.1)]).rd 1).toInt + (0 : BitVec 16).toInt)).toNat = x.2 := by
  unfold State.clear; decide +kernel

theorem witness_BranchesAndJumps :
    bare.clear [1, 2] ∧ bare.clear [1] ∧
      (BitVec.ofInt 64 ((bare.rd 2).toInt + (4 : BitVec 16).toInt)).toNat % 4 = 0 ∧
      (BitVec.ofInt 64 ((bare.rd 2).toInt + (2 : BitVec 16).toInt)).toNat % 4 ≠ 0 := by
  unfold State.clear; decide +kernel

/-- A core at 0x1000 with one active level that ends there at its `n`-th last pass. -/
def looping (n : W32) (order : List Nat) : Core :=
  bare.me.modHandler 0 fun h =>
    { h with l0 := { lc := n, ls := 0x900, le := 0x1000 }, l1 := { lc := 2, ls := 0x800, le := 0x1000 }, order := order }

theorem witness_HardwareLoops :
    (withVals [(1, 0xFFFFFFFF)]).clear [1] ∧ ((withVals [(1, 0xFFFFFFFF)]).rd 1).toNat < 2 ^ 32 ∧
      2 ^ 32 ≤ ((withVals [(1, 0x100000000)]).rd 1).toNat ∧
      (cachedWord bare.me (bare.me.pc + BitVec.ofNat 64 (4 * 1)) = some 0) ∧
      (∀ n ∈ (bare.me.handler bare.me.bank).order, ((bare.me.handler bare.me.bank).level n).le ≠ bare.me.pc) ∧
      (let h := (looping 2 [0]).handler 0
       h.order = [] ++ 0 :: [] ∧ (h.level 0).le = (looping 2 [0]).pc ∧ 1 < (h.level 0).lc.toNat) ∧
      (let h := (looping 1 [0]).handler 0
       h.order = [0] ∧ (h.level 0).le = (looping 1 [0]).pc ∧ (h.level 0).lc.toNat ≤ 1) ∧
      let h := (looping 1 [0, 1]).handler 0
      h.order = [0, 1] ∧ (h.level 0).le = (looping 1 [0, 1]).pc ∧ (h.level 1).le = (looping 1 [0, 1]).pc ∧
        (h.level 0).lc.toNat ≤ 1 ∧ 1 < (h.level 1).lc.toNat := by
  unfold State.clear; decide +kernel

theorem witness_PostAndMasks :
    bare.clear [1, 2] ∧ bare.plotOf bare.cur.core = some plot1 ∧ inboxLoad bare 0 0 < 4 ∧
      ((bare.core 0).handler 0).valid = true ∧ ((bare.core 0).handler 1).valid = false ∧
      4 ≤ inboxLoad (onCore fun k => k.modHandler 0 fun h => { h with inbox := List.replicate 4 (0, 0) }) 0 0 := by
  unfold State.clear; decide +kernel

theorem witness_DeviceLoadsAndStores :
    (onCore mapped).clear [1, 2] ∧ (onCore mapped).me.acq = none ∧ otherFence (onCore mapped).me = false ∧
      (∃ u, translate (onCore mapped) 0 (coreRoot (onCore mapped) 0) 0x1FFFF8 false false = (.hit page0, u)) ∧
      (∃ u, translate (onCore mapped) 0 (coreRoot (onCore mapped) 0) 0x1FFFFC true false = (.hit page0, u)) ∧
      canonical (0x0080000000000000 : Word) = false ∧ page0.homeOf (onCore mapped) 0 = dieOf (onCore mapped).cur.core := by
  unfold State.clear
  refine ⟨?_, ?_, ?_, pair_of ?_, pair_of ?_, ?_⟩ <;> decide +kernel

/-- `bare` with a FENCE of handler `chan` in progress; `d` says whether its scope has been found reached. -/
abbrev fencing (chan : Nat) (scope : BitVec 2) (d : Bool) : State :=
  onCore fun k => { k with fence := some { chan := chan, iaddr := k.pc, scope := scope, done := d }, probeFor := if d then none else some 0 }

/-- A store of the core that has not been performed. -/
def pendingStore : Access :=
  { mkAccess (onCore mapped) (.seq 0) .write page0 0 8 (natLe 8 1) .none with id := 5 }

theorem witness_OrderedAccessesAndFences :
    (onCore mapped).clear [1, 2] ∧ (onCore mapped).me.acq = none ∧ otherFence (onCore mapped).me = false ∧
      ((onCore mapped).rd 1).toNat % 8 = 0 ∧
      (∃ u, translate (onCore mapped) 0 (coreRoot (onCore mapped) 0) ((onCore mapped).rd 1) false false = (.hit page0, u)) ∧
      (∃ u, translate (onCore mapped) 0 (coreRoot (onCore mapped) 0) ((onCore mapped).rd 1) true false = (.hit page0, u)) ∧
      (onCore fun k => { k with acq := some 7 }).me.acq ≠ none ∧ otherFence (fencing 5 2 false).me = true ∧
      (bare.me.acq = none ∧ bare.me.fence = none ∧ bare.me.probes = [] ∧ unknownDies bare (.seq 0) = [] ∧ seqReached bare 0 2 = true ∧
        seqReached bare 0 3 = true) ∧
      ((fencing 0 3 false).me.fence = some { chan := 0, iaddr := 0x1000, scope := 3, done := false } ∧ (fencing 0 3 false).me.probeFor = some 0 ∧
        (fencing 0 3 false).me.probes = [] ∧ seqReached (fencing 0 3 false) 0 3 = true) ∧
      (fencing 0 1 true).me.fence = some { chan := 0, iaddr := 0x1000, scope := 1, done := true } ∧
      bare.me.bank = 0 ∧ bare.me.pc = 0x1000 ∧ seqReached { bare with accs := [pendingStore] } 0 2 = false := by
  unfold State.clear
  refine ⟨?_, ?_, ?_, ?_, pair_of ?_, pair_of ?_, ?_⟩ <;> decide +kernel

theorem witness_BarrierArrival :
    (withVals [(1, 0x10000)]).clear [1] ∧ myWaiter (withVals [(1, 0x10000)]) = none ∧
      (withVals [(1, 0x10000)]).me.acq = none ∧ otherFence (withVals [(1, 0x10000)]).me = false ∧
      seqReached (withVals [(1, 0x10000)]) 0 2 = true ∧ (withVals [(1, 0x10000)]).barMsgs = [] ∧
      ((withVals [(1, 0x10000)]).rd 1).toNat % 256 / 64 = dieOf 0 ∧ ((withVals [(1, 0x10000)]).rd 1).toNat / 65536 % 65536 ≠ 0 ∧
      (∀ w ∈ [Waiter.mk 0 0 0 0 0 true false, Waiter.mk 0 0 0 0 0 false true, Waiter.mk 0 0 0 0 0 false false],
        myWaiter { bare with waiters := [w] } = some w) := by
  unfold State.clear; decide +kernel

theorem witness_HintsAndDecisions :
    (∃ q, (onPlot fun q => { q with bays := 0x8 }).plotOf 0 = some q ∧ q.lead = 0 ∧ q.bays.getLsbD 3 = true ∧ q.bays.getLsbD 2 = false ∧
      q.decision = none) ∧
    (∃ q, (onPlot fun q => { q with bays := 1, decision := some 0 }).plotOf 0 = some q ∧ q.decision ≠ none) ∧
    ((withVals [(1, 3)]).rd 1).toNat < 4 ∧ 4 ≤ ((withVals [(1, 4)]).rd 1).toNat := by
  refine ⟨⟨_, rfl, ?_⟩, ⟨_, rfl, ?_⟩, ?_⟩ <;> decide +kernel

theorem witness_TranslationQueries :
    (onCore mapped).clear [1, 2] ∧
      (∃ u, translate (onCore mapped) 0 (coreRoot (onCore mapped) 0) 0 false false = (.hit page0, u)) ∧
      (∃ u, translate bare 0 (coreRoot bare 0) 0x0080000000000000 false false = (.fault (cTRANSLATION, false), u)) ∧
      ∃ u, translate bare 0 (coreRoot bare 0) 0 false false = (.wait 2, u) := by
  refine ⟨by unfold State.clear; decide +kernel, pair_of (by decide +kernel), pair_of (by decide +kernel), pair_of (by decide +kernel)⟩

/-- The core is in trap mode, in its trap routine, with a frame whose RESUME is `r` and whose flags are `f`. -/
def trapped (f r : Byte) : State :=
  onCore fun k => { k with
    running := some 16, trap := { TrapMode.init with on := true, routine := true }
    lmem := mwrite (mwrite k.lmem 5 [f]) 24 [r] }

theorem witness_TrapsAndPreciseFaults :
    bare.plotOf 0 = some plot1 ∧ plot1.trapoff ≠ 0xFFFFFFFF ∧ (bare.core 0).replay.length ≤ 16 ∧ bare.me.trap.on = false := by
  decide +kernel

theorem witness_TrapReturnResumes :
    bare.me.trap.on = false ∧
      (trapped 0 8).plotOf 0 = some plot1 ∧ (trapped 0 8).me.trap.on = true ∧
      (trapped 0 6).plotOf 0 = some plot1 ∧ (trapped 0 6).me.trap.on = true ∧
      (trapped 2 0).plotOf 0 = some plot1 ∧ (trapped 2 0).me.trap.on = true ∧
      (let fr := mread (trapped 0 8).me.lmem plot1.tfaddr 576
       leAt fr 5 1 / 2 % 2 = 0 ∧ leAt fr 24 8 % 4 = 0 ∧ leAt fr 4 1 = 0 ∧ (trapped 0 8).me.replay.length = 0) ∧
      (let fr := mread (trapped 0 6).me.lmem plot1.tfaddr 576
       leAt fr 5 1 / 2 % 2 = 0 ∧ leAt fr 24 8 % 4 ≠ 0) ∧
      leAt (mread (trapped 2 0).me.lmem plot1.tfaddr 576) 5 1 / 2 % 2 = 1 := by
  simp only [leAt_mread _ _ 576 5 1 (by decide), leAt_mread _ _ 576 24 8 (by decide), leAt_mread _ _ 576 4 1 (by decide)]
  decide +kernel

theorem witness_IssueAndAcceptance :
    issueOk 0 0 0 false false false false = true ∧ issueOk 24 0 0 false false true true = true ∧ bare.clear [9, 0, 0, 0] ∧
      bare.me.cmds.length + bare.me.replay.length + bare.me.reinj.length < 16 ∧ bare.me.acq = none ∧ otherFence bare.me = false ∧
      bare.cur.replay = none ∧
      legalCommand 0x0104000C000000000000000000000003 false false true false = .ok (.advp 12 3) ∧
      legalCommand 0x00000000000000000000000000000000 false false false false = .error .unassignedOpcode ∧
      16 ≤ (onCore fun k => { k with cmds := List.replicate 16 ⟨1, 0, 0, 0, 0, false, .accepted, 0, 0, [], 0, 0, 0, .here⟩ }).me.cmds.length := by
  unfold State.clear; decide +kernel

theorem witness_RegisterFileAndPendingStalls :
    (3 : Reg) ∈ regsOf (.add 1 2 3) ∧ (onCore fun k => { k with pend := [(3, true)] }).me.isPending 3 = true ∧
      2 ≠ bare.me.bank ∧ 24 ≤ (24 : Reg).toNat ∧ (23 : Reg).toNat < 24 := by decide +kernel

theorem witness_ComputingInstructionFrame :
    computes (.add 0 2 3) = some 0 ∧ bare.clear (regsOf (.add 0 2 3)) ∧ computes (.mfs 31 0) = some 31 ∧ bare.clear (regsOf (.mfs 31 0)) := by
  unfold State.clear; decide +kernel

theorem witness_DecodeEncodeRoundTrip : wf (.addi 31 1 0xFFFF) = true ∧ encode (.addi 31 1 0xFFFF) ≠ [] := by decide +kernel

theorem witness_DecodingSpecWords :
    let s := State.reset.withFetchWord 32 0x00000000
    s.sched = [.seq 0] ∧ s.plotOf 0 = some plot1 ∧ plot1.state = .armed ∧ (s.core 0).stopped = false ∧ (s.core 0).trap.on = false ∧
      (s.core 0).reinj = [] ∧ (s.core 0).held = [] ∧ (s.core 0).running ≠ none ∧
      ((s.core 0).handler (s.core 0).bank).stall = none ∧ cachedWord (s.core 0) (s.core 0).pc = some 0 ∧
      decode [0] = .error .unassignedOpcode := by decide +kernel

theorem witness_StepRunsDecodedInstruction :
    (let s := State.reset.withFetchWord 32 0x08A0000A
     s.sched = .seq 0 :: [] ∧ s.plotOf 0 = some plot1 ∧ (s.core 0).running ≠ none ∧
       ((s.core 0).handler (s.core 0).bank).stall = none ∧ cachedWord (s.core 0) (s.core 0).pc = some 0x08A0000A ∧
       decode [0x08A0000A] = .ok (.addi 5 0 10)) ∧
    (let s := State.reset.withFetchWord 160 0x0104000C000000000000000000000000FD2A0008
     cachedWord (s.core 0) (s.core 0).pc = some 0xFD2A0008 ∧ cachedWord (s.core 0) ((s.core 0).pc + 16) = some 0x0104000C) ∧
    let s := bare.modCore 0 fun k => { k with pc := 0x2000 }
    cachedWord (s.core 0) (s.core 0).pc = none := by decide +kernel

/-! ### Witnesses: tiles, ports -/

/-- An outstanding command of core 0. -/
def outCmd (id : Nat) (phase : Phase) (w : Cmd128) : Cmd :=
  { id := id, cmd := w, xt := 5, iaddr := 0x1000, chan := 0, follow := false, phase := phase, code := 0, result := 0, desc := [],
    prog := 0, acc := 0, home := 0, ctl := .here }

/-- The executor of core 0 works on command 7, and the core is changed. -/
abbrev working (phase : Phase) (w : Cmd128) (f : Core → Core) : State :=
  { (onCore fun k => f { k with cmds := [outCmd 7 phase w] }) with cur := { Ctx.init with slot := 7 } }

theorem turn_of {s : State} {c : Cmd}
    (h : (s.cur.slot ≠ 0 ∧ s.me.cmd s.cur.slot = some c ∧ (c.phase = .accepted ∨ c.phase = .running)) ∧
      (s.me.cmds.all fun x => !(decide (x.id < s.cur.slot) && x.cmd.extractLsb' 120 8 == 1 && x.phase == .accepted)) = true) :
    s.tileTurn c := by
  refine ⟨h.1, fun x hx a b p => ?_⟩
  have := List.all_eq_true.mp h.2 x hx
  simp [a, b, p] at this

/-- A plain tile of one row of 64 bytes, and a ring of four such rows that holds `n`. -/
def plain : Tile := { Tile.init with valid := true, rows := 1, rowb := 64 }
def ringOf (n : Nat) : Tile := { Tile.init with valid := true, ring := true, rows := 4, rowb := 64, wp := n % 4, fill := n }

theorem witness_TileCommands :
    bare.cur.slot = 0 ∧ (working .accepted 0 id).tileTurn (outCmd 7 .accepted 0) ∧
      (working .running 0 id).tileTurn (outCmd 7 .running 0) ∧
      (getTile (working .accepted 0 id) 0 3).valid = false ∧
      findBase (working .accepted 0 id) (stripeSet (working .accepted 0 id) 0 0 0) (tileUnits (8192 * 64) 1) = some 0 ∧
      findBase (working .accepted 0 id) (stripeSet (working .accepted 0 id) 0 2 0) (tileUnits (64 * 64) 4) = some 0 ∧
      isLead (working .accepted 0 id) = true ∧
      (∀ x ∈ (((working .accepted 0 id).plotOf 0).map (heldCores (working .accepted 0 id))).getD [0],
        (tget Tile.init ((working .accepted 0 id).core x).tiles 3).valid = false) ∧
      (let t := getTile (onCore fun k => { k with tiles := [(3, plain)] }) 0 3
       t.valid = true ∧ t.level ≠ 2 ∧ t.ring = false ∧ t.held = false ∧ t.owner = false ∧ t.holders = 0 ∧ t.busy = 0) ∧
      (let t := getTile (onCore fun k => { k with tiles := [(3, { plain with owner := true, held := true, holders := 1 })] }) 0 3
       t.valid = true ∧ t.ring = false ∧ t.owner = true ∧ t.held = true ∧ t.holders ≠ 0) ∧
      (let t := getTile (onCore fun k => { k with tiles := [(3, ringOf 4)] }) 0 3
       t.valid = true ∧ t.ring = true ∧ t.rows - t.fill = 0 ∧ t.fill = 4 ∧ t.busy = 0) ∧
      (let s := onCore fun k => { k with tiles := [(3, ringOf 4)] }
       servedFirst s 0 3 (waitNumber s) = false ∧ pointersHeld s 0 3 = false) := by
  refine ⟨?_, turn_of ?_, turn_of ?_, ?_⟩ <;> decide +kernel

/-- Core 0 with port 0 changed. -/
abbrev withPort (f : Port → Port) : State := bare.modPort 0 0 f

theorem witness_StreamCommands :
    bare.cur.slot = 0 ∧ (bare.port 0 0).state = .idle ∧ (bare.port 0 7).state = .idle ∧
      (-2 ^ 39 ≤ (0xFFFFFF8000000000 : Word).toInt ∧ (0x7FFFFFFFFF : Word).toInt < 2 ^ 39) ∧ (2 ^ 39 ≤ (0x8000000000 : Word).toInt) ∧
      ((0xF10 : BitVec 32).toNat / 32 % 8 = 0 ∧ (0xF10 : BitVec 32).toNat < 4096 ∧ (0xF10 : BitVec 32).toNat % 32 = 16) ∧
      (0x0 : BitVec 32).toNat % 32 = 0 ∧ bare.plotOf 0 = some plot1 ∧ isBridge 0 = true ∧
      invLeft plot1 0 false ≠ 0 ∧ min 1 (invLeft plot1 0 false) ≠ 0 ∧
      ((withPort fun q => { q with state := .run }).port 0 0).state ≠ .idle ∧
      ((working .accepted 0 id).works (outCmd 7 .accepted 0)) ∧
      (let s := (working .accepted 0 id).modPort 0 0 fun q => { q with state := .run, started := true }
       (s.port 0 0).state = .run ∧ (s.port 0 0).doneDue = false ∧ (s.port 0 0).started = true) ∧
      (let s := (working .accepted 0 id).modPort 0 0 fun q => { q with state := .run, va := true, dir := true }
       (s.port 0 0).started = false ∧ portSettled s 0 0 = true ∧
         portSettled { s with accs := [{ pendingStore with agent := .port 0 0 }] } 0 0 = false) := by
  unfold State.works; decide +kernel

/-- A token with the numbers 0 to 15. -/
def tok0 : Token := dataTok 0xFFFF fun i => BitVec.ofNat 32 i

/-- Core 0 with port 0 changed, the two port slot words of cell 0, a tile h0, and arcs. -/
abbrev fabric (f : Port → Port) (slots : List Word) (arcs : Tbl (List Slot)) : State :=
  onCore fun k => { k with
    ports := [(0, f Port.init)], tiles := [(0, plain)]
    cells := [(0, { Cell.init with bays := [(0, { nodes := [0, 0, 0, 0, 0, 0], ports := slots })], arcs := arcs })] }

/-- An ingress slot of port 0 that feeds stage 0, and an egress slot of port 0. -/
def inSlot : Word := 0x0400000000000000
def outSlot : Word := 0x0800000000000000

theorem witness_PortsRunInvocations :
    plot1.live = true ∧
    (let s := fabric (fun q => { q with state := .run, left := 1 }) [inSlot, 0] []
     portSlot s 0 0 = some (0, 0) ∧ (s.port 0 0).state = .run ∧ (s.port 0 0).started = false ∧ (s.port 0 0).left ≠ 0 ∧
       (s.port 0 0).ended = false ∧ mayBegin plot1 (s.port 0 0).pos = true ∧ (s.port 0 0).auto = false ∧ (s.port 0 0).dir = false) ∧
    (let s := fabric (fun q => { q with state := .run, started := true, left := 1 }) [inSlot, 0] []
     slotArcs s 0 (0, 0) = [(0, 0, 0)] ∧ arcFree s (0, 0, 0) = true ∧ (s.port 0 0).idx < (s.port 0 0).tokens ∧
       (s.port 0 0).window < portCeiling s 0 (s.port 0 0) ∧ (s.port 0 0).va = false ∧ (s.port 0 0).sheaf = 0 ∧
       s.pace.toNat / 1000 = s.window.toNat ∧ mayBegin plot1 (s.port 0 0).pos = true ∧
       tileCheck (getTile s 0 (s.port 0 0).handle) (portAddr s 0 (s.port 0 0)).toNat (4 * (s.port 0 0).width) (s.port 0 0).align false = none ∧
       ∃ t, tileRead s 0 (s.port 0 0).handle (portAddr s 0 (s.port 0 0)).toNat (4 * (s.port 0 0).width) = (t, some (List.replicate 64 0))) ∧
    (let s := fabric (fun q => { q with state := .run, started := true, left := 1, idx := 1 }) [inSlot, 0] []
     (s.port 0 0).tokens ≤ (s.port 0 0).idx ∧ (s.port 0 0).barDue = false ∧ (s.port 0 0).idx ≠ 0 ∧ (s.port 0 0).auto = false) ∧
    (let s := fabric (fun q => { q with state := .run, barDue := true }) [inSlot, 0] []
     (s.port 0 0).barDue = true ∧ ∀ y ∈ slotArcs s 0 (0, 0), arcFree s y = true) ∧
    (let s := fabric (fun q => { q with state := .run, started := true, window := 100000, left := 1 }) [inSlot, 0] []
     portCeiling s 0 (s.port 0 0) ≤ (s.port 0 0).window) ∧
    (∀ t ∈ [tok0, eoiTok 0 0, barTok],
      let s := fabric (fun q => { q with dir := true, state := .run, started := true, left := 1 }) [0, outSlot] [(28, [⟨0, true, t⟩])]
      portSlot s 0 0 = some (0, 1) ∧ headOf s 0 0 (egressKey (0, 1)) = some t ∧ (s.port 0 0).dir = true ∧ (s.port 0 0).idx < (s.port 0 0).tokens ∧
        (s.port 0 0).eoiIn = false ∧ (s.port 0 0).va = false ∧ (s.port 0 0).sheaf = 0 ∧ pointersHeld s 0 (s.port 0 0).handle = false) ∧
    (let s := fabric (fun q => { q with dir := true, state := .run, started := true, left := 1, eoiIn := true }) [0, outSlot] []
     portSlot s 0 0 = some (0, 1) ∧ (s.port 0 0).eoiIn = true) ∧
    (let s := fabric (fun q => { q with dir := true, state := .run, doneDue := true }) [0, outSlot] []
     (s.port 0 0).doneDue = true ∧ (s.port 0 0).barDue = false ∧ portSettled s 0 0 = true ∧ (s.port 0 0).closeRun = false) ∧
    plot1.next 0 = none ∧ ({ plot1 with widths := [1, 0, 0, 0, 0, 0], hi := 2 } : Plot).next 0 = some 1 := by
  refine ⟨?_, ?_, ⟨?_, ?_, ?_, ?_, ?_, ?_, ?_, ?_, ?_, snd_of ?_⟩, ?_⟩ <;> decide +kernel

/-! ### Witnesses: fabric nodes -/

/-- A node word with EL and the null targets. -/
def nf : NodeFields :=
  { mods := 0, tgta := 3, tgtb := 3, cidx := 0, el := true, er := false, ep := false, imm := false, rsteoi := false, dual := false,
    brk := false, brkn := 0 }

/-- Core 0 with tokens at L, R and P of stage 0 of cell 0, a tile h0, and a node state. -/
abbrev node (l r p : Option Token) (st : NodeState) : State :=
  onCore fun k => { k with
    tiles := [(0, { plain with rows := 2 })]
    cells := [(0, { Cell.init with
      bays := [(0, { nodes := [0, 0, 0, 0, 0, 0], ports := [0, 0] })]
      arcs := [(0, l), (1, r), (2, p)].filterMap fun x => x.2.map fun t => (x.1, [⟨0, true, t⟩])
      nstate := tset NodeState.init [] 0 st })] }

theorem heads_of {s : State} {n : NodeFields} {l : Token} {kind : BitVec 2}
    (h : nodeRuns s = true ∧ n.el = true ∧ input s 0 = some l ∧ ((enabled n).all fun p => (input s p).any fun t => t.kind == kind) = true ∧
      roomy s n = true) : s.heads n l kind := by
  refine ⟨h.1, h.2.1, h.2.2.1, fun p hp => ?_, h.2.2.2.2⟩
  have := List.all_eq_true.mp h.2.2.2.1 p hp
  cases hi : input s p with
  | none => rw [hi] at this; cases this
  | some t => rw [hi] at this; exact ⟨t, rfl, by simpa using this⟩

/-- A predicate token whose truth is `b`. -/
def pred (b : Bool) : Token := dataTok 0xFFFF fun _ => if b then 1 else 0

theorem witness_FloatNodeResults :
    (node (some tok0) (some tok0) (some tok0) NodeState.init).heads { nf with er := true, ep := true } tok0 kDATA ∧
      fp32.value 0x7FC00000 = .nan ∧ fp16.value 0x7E00 = .nan ∧ bf16.value 0x7FC0 = .nan := by
  refine ⟨heads_of ?_, ?_⟩ <;> decide +kernel

theorem witness_IntegerNodeResults :
    (node (some tok0) (some tok0) none NodeState.init).heads { nf with er := true, mods := 5 } tok0 kDATA ∧
      (laneType { nf with er := true, mods := 5 } = 0 ∧ (5 : BitVec 6).toNat % 8 < 6) ∧
      (node (some tok0) (some tok0) none NodeState.init).heads { nf with er := true, mods := 0x33 } tok0 kDATA ∧
      laneType { nf with er := true, mods := 0x33 } = 3 ∧ (0x33 : BitVec 6).toNat % 4 = 3 := by
  refine ⟨heads_of ?_, ?_, heads_of ?_, ?_⟩ <;> decide +kernel

theorem witness_LaneNodeResults :
    (node (some tok0) (some tok0) none NodeState.init).heads { nf with er := true } tok0 kDATA ∧
      (node (some tok0) none none NodeState.init).heads { nf with mods := 8 } tok0 kDATA ∧
      (laneType { nf with mods := 8 } = 0 ∧ ({ nf with mods := 8 } : NodeFields).mods.getLsbD 3 = true) ∧
      (laneType { nf with mods := 0x10 }).toNat = 1 ∧ (laneType { nf with mods := 0x20 }).toNat = 2 ∧ laneType { nf with mods := 0x30 } = 3 ∧
      wf (.lshuf { nf with er := true, tgta := 0 }) = true ∧ wf (.lrot { nf with er := true, tgta := 0, mods := 1 }) = true := by
  refine ⟨heads_of ?_, heads_of ?_, ?_⟩ <;> decide +kernel

theorem witness_MarkersPassInOrder :
    (node (some (eoiTok 0 0)) (some (eoiTok 0 0)) none NodeState.init).heads { nf with er := true } (eoiTok 0 0) kEOI ∧
      (node (some barTok) none none NodeState.init).heads nf barTok kBAR :=
  ⟨heads_of (by decide +kernel), heads_of (by decide +kernel)⟩

/-- A node that has gathered `k` elements. -/
def gathered (k : Nat) : NodeState := { NodeState.init with sheaf := List.replicate k 0 }

theorem witness_ConversionNodeResults :
    (node (some tok0) none none NodeState.init).heads nf tok0 kDATA ∧ tok0.mask.getLsbD 15 = true ∧
      (dataTok 0x7FFF fun _ => 0).mask.getLsbD 15 = false ∧
      (node (some tok0) none none (gathered 45)).heads { nf with mods := 8, imm := true } tok0 kDATA ∧
      (let n : NodeFields := { nf with mods := 8, imm := true }
       packClass n = 62 ∧
       ∀ x ∈ [(45, 61), (46, 62), (47, 63)],
         ((nodeSt' (node (some tok0) none none (gathered x.1))).sheaf ++
           ((List.range 16).filter fun i => tok0.mask.getLsbD i).map fun i => tok0.lane i).length = x.2) ∧
      (node (some tok0) (some tok0) none (gathered 46)).heads { nf with mods := 8, er := true } tok0 kDATA ∧
      input (node (some tok0) (some tok0) none (gathered 46)) 1 = some tok0 ∧
      (let l : Token := { tok0 with lanes := [1] ++ List.replicate 15 0 }
       l.mask = 0xFFFF ∧ fmtReads ((tokBytes l.lanes).headD 0).toNat (unpackClass nf) = true ∧
         (node (some l) none none { NodeState.init with t := 3 }).heads nf l kDATA ∧ unpackClass nf ≤ 16 * (3 + 1)) := by
  refine ⟨heads_of ?_, ?_, ?_, heads_of ?_, ?_, heads_of ?_, ?_, ?_, ?_, heads_of ?_, ?_⟩ <;> decide +kernel

theorem witness_TokenRoutingResults :
    (∀ b : Bool, isTrue (pOperand (node (some tok0) (some tok0) (some (pred b)) NodeState.init)) = b) ∧
      (node (some tok0) (some tok0) (some (pred true)) NodeState.init).heads { nf with ep := true } tok0 kDATA ∧
      (node (some tok0) (some tok0) (some (pred true)) NodeState.init).heads { nf with er := true, ep := true, mods := 1 } tok0 kDATA ∧
      (let s := node (some tok0) (some (eoiTok 0 0)) (some (pred true)) NodeState.init
       nodeRuns s = true ∧ roomy s nf = true ∧ input s 2 = some (pred true) ∧ input s 0 = some tok0 ∧ (nodeSt' s).st = .init) ∧
      (let s := node none (some tok0) (some (pred false)) { NodeState.init with st := .loop }
       input s 2 = some (pred false) ∧ input s 1 = some tok0 ∧ (nodeSt' s).st = .loop) ∧
      (let s := node none (some (eoiTok 0 0)) (some (eoiTok 0 0)) { NodeState.init with st := .drain, close := 2 }
       input s 2 = some (eoiTok 0 0) ∧ input s 1 = some (eoiTok 0 0) ∧ (nodeSt' s).st = .drain ∧
         (({ nf with mods := 2 } : NodeFields).mods.extractLsb' 0 3).toNat ≤ (nodeSt' s).close) ∧
      (let s := node none (some barTok) (some barTok) { NodeState.init with st := .drainb }
       input s 2 = some barTok ∧ input s 1 = some barTok ∧ (nodeSt' s).st = .drainb) := by
  refine ⟨?_, heads_of ?_, heads_of ?_, ?_⟩ <;> decide +kernel

theorem witness_CountersAndCheckers :
    (node (some tok0) none none NodeState.init).heads nf tok0 kDATA ∧ nf.er = false ∧ nf.ep = false ∧ nf.tgtb.extractLsb' 0 2 = 3 ∧
      (node (some tok0) none none NodeState.init).plotOf 0 = some plot1 ∧ plot1.ringLog = 0 ∧
      (∃ q, ((node (some tok0) none none NodeState.init).modPlot 1 fun q => { q with ringLog := 6 }).plotOf 0 = some q ∧ q.ringLog ≠ 0) ∧
      (let s := node (some tok0) (some tok0) none NodeState.init
       nodeRuns s = true ∧ input s 0 = some tok0 ∧ input s 1 = some tok0 ∧ roomy s nf = true) ∧
      pred true ≠ tok0 := by
  refine ⟨heads_of ?_, ?_, ?_, ?_, ?_, ?_, ⟨_, rfl, ?_⟩, ?_⟩ <;> decide +kernel

/-- The offsets 0, 4, …, 60; a bad and a misaligned one. -/
def offs : Token := dataTok 0xFFFF fun i => BitVec.ofNat 32 (4 * i)
def farOff : Token := dataTok 1 fun _ => 0x80
def oddOff : Token := dataTok 3 fun i => if i = 0 then 0 else 2

/-- Cell 0 with one node word at stage 0, one port slot word, and arcs. -/
abbrev barred (w slot : Word) (arcs : Tbl (List Slot)) : State :=
  onCore fun k => { k with
    cells := [(0, { Cell.init with bays := [(0, { nodes := [w, 0, 0, 0, 0, 0], ports := [slot, 0] })], arcs := arcs })] }

theorem witness_NodeMemoryAccess :
    (let s := node (some offs) (some tok0) none NodeState.init
     s.heads { nf with er := true } offs kDATA ∧ spanFault (getTile s 0 0) (spansOf nf offs offs.mask) false = none ∧
       spanFault (getTile s 0 0) (spansOf nf offs 0xFFFF) true = none ∧
       (∃ u, readSpans s 0 0 (spansOf nf offs offs.mask) = (u, .ok ((List.range 16).map fun i => (i, List.replicate 4 0)))) ∧
       ∃ v, storeLanes 0 0 (storePieces nf offs tok0 0xFFFF) (raceSpans s 0 ((wordSpans nf offs 0xFFFF).map fun x => (x.1, x.2, 4)) true) =
         .ok v) ∧
    (let s := node (some farOff) (some tok0) none NodeState.init
     s.heads { nf with er := true } farOff kDATA ∧ spanFault (getTile s 0 0) (spansOf nf farOff farOff.mask) true = some (cPERMISSION, 0x80)) ∧
    (let s := node (some offs) (some tok0) none NodeState.init
     (∀ i < 16, offs.mask.getLsbD i = true → (nodeBase s nf + (offs.lane i).signExtend 64).toNat % 4 = 0) ∧
       (nodeBase s nf + (offs.lane 0).signExtend 64).toNat % 64 = 0 ∧ offs.mask &&& (rOperand s nf).mask ≠ 0) ∧
    (let s := barred 0x7140000000000801 0 [(0, [⟨0, true, barTok⟩])]
     decodeNode (wordAt s 0 0 0) = .ok (.gload { nf with tgta := 0, tgtb := 0 }) ∧ s.heads { nf with tgta := 0, tgtb := 0 } barTok kBAR ∧
       streamAccepted s (.node 0 0 0) = true) ∧
    (let s := barred 0 0x2400000000000000 [(24, [⟨0, true, barTok⟩])]
     (slotWord s 0 0 0).extractLsb' 58 6 = 9 ∧ headOf s 0 0 (4 * (6 + 0)) = some barTok ∧
       streamAccepted s (.port 0 (4 + ((slotWord s 0 0 0).extractLsb' 54 4).toNat)) = true) ∧
    (let s := node (some oddOff) none none NodeState.init
     s.heads nf oddOff kDATA ∧ (nodeBase s nf + (oddOff.lane 1).signExtend 64).toNat % 4 ≠ 0 ∧
       (nodeBase s nf + (oddOff.lane 0).signExtend 64).toNat % 4 = 0) := by
  refine ⟨⟨heads_of ?_, ?_, ?_, snd_of ?_, ok_of ?_⟩, ⟨heads_of ?_, ?_⟩, ?_, ⟨?_, heads_of ?_, ?_⟩, ?_, ⟨heads_of ?_, ?_⟩⟩ <;>
    decide +kernel

/-! ### Witnesses: matrix operator, key engine, copies, collectives, atomics -/

/-- Whether a check passes. -/
def passes : MCheck → Bool
  | .ok _ => true
  | _ => false

theorem passes_of {x : MCheck} (h : passes x = true) : ∃ t, x = .ok t := by
  cases x with
  | ok t => exact ⟨t, rfl⟩
  | bad => cases h
  | wait => cases h

/-- Whether a check fails. -/
def fails : MCheck → Bool
  | .bad _ _ _ _ => true
  | _ => false

theorem fails_of {x : MCheck} (h : fails x = true) : ∃ t c d v, x = .bad t c d v := by
  cases x with
  | ok t => cases h
  | bad t c d v => exact ⟨t, c, d, v, rfl⟩
  | wait => cases h

/-- The command words of an instruction. -/
def wordOf (i : Instr) : Cmd128 := (encodeCommand i).getD 0

/-- ACLR of accumulator 1, and its fields. -/
def aclrInfo : MInfo := { MInfo.init with kind := .aclr, acc := 1 }

/-- The matrix operator of core 0 holds command 7. -/
abbrev matrixAt (w : Cmd128) (f : Matrix → Matrix) : State :=
  (working .accepted w id).modMat 0 fun _ => f { Matrix.init with queue := [(0, 7)] }

/-- A run of command 7. -/
def run7 : MRun :=
  { core := 0, id := 7, work := [], arows := [], crows := [], chunk := 0, began := false, todo := [], steps := 0, atok := [], btok := [], out := [] }

/-- An MMA of one chunk, and its fields. -/
def mmaInfo : MInfo := ({ MInfo.init with kind := .mma } : MInfo).shape 0x00100000

theorem witness_MatrixCommands :
    bare.cur.slot = 0 ∧ mInfo (.aclr 1 0) = some aclrInfo ∧ matrixFull bare 0 aclrInfo = none ∧
      (∃ t, matrixCheck bare 0 aclrInfo 0 0 [] = .ok t) ∧ (∃ t c d v, matrixCheck bare 0 aclrInfo 1 0 [] = .bad t c d v) ∧
      (∃ m, matrixFull (bare.modMat 0 fun m => { m with queue := List.replicate 8 (0, 7) }) 0 aclrInfo = some m) ∧
      (bare.core 0).mat.queue.length < queueDepth ∧ (0x000FF000 : BitVec 32) &&& ~~~0x000FF000#32 = 0 ∧
      (let s := matrixAt (wordOf (.aclr 1 0)) fun m => { m with grant := some (0, 7) }
       (s.core 0).mat.grant = some (0, 7) ∧ (∃ c, mCommand s (0, 7) = some (c, aclrInfo)) ∧ (s.core 0).mat.run = none ∧ mReady s 0 (0, 7) = true) ∧
      (let s := matrixAt (wordOf (.mma 0 false false false 0 0x00100000 0 0)) fun m => { m with run := some run7 }
       (∃ c, mCommand s (0, 7) = some (c, mmaInfo)) ∧ run7.chunk < chunks mmaInfo ∧ mmaInfo.sa = false ∧ mmaInfo.sb = false) ∧
      (let s := matrixAt (wordOf (.aclr 1 0)) fun m => { m with run := some run7 }
       (∃ c, mCommand s (0, 7) = some (c, aclrInfo)) ∧ chunks aclrInfo ≤ run7.chunk ∧ run7.out = []) ∧
      (let s := (matrixAt (wordOf (.mma 0 false false true 0 0x00100000 0 0)) fun m => { m with grant := some (0, 7) }).modCore 0 fun k =>
         { k with tiles := [(0, { plain with owner := true })] }
       mGroup s 0 aclrInfo = some [0] ∧ (mCommand s (0, 7)).map (fun x => x.2.sa) = some true ∧ mReady s 0 (0, 7) = true ∧ findSlot s 0 3 0 = none) ∧
      (let i := { mmaInfo with kind := .mcoop, gr := 1, gc := 1 }
       let s := (matrixAt (wordOf (.mcoop 0 false 0 0 0 0x00100000 0 0)) fun m => { m with grant := some (0, 7) }).modCore 0 fun k =>
         { k with tiles := [(0, { plain with owner := true })] }
       mGroup s 0 i = some [0] ∧ (s.core 0).mat.run = none ∧ mReady s 0 (0, 7) = true ∧ (mCommand s (0, 7)).map (fun x => x.2.kind) = some .mcoop ∧ (runRows s 0 i).2.toBool = true ∧
         mGroup { s with plots := [{ plot1 with w := 2 }] } 0 { i with gc := 2 } = some [0, 1] ∧ (s.core 1).mat.grant = none) ∧
      (let s := matrixAt (wordOf (.aclr 1 0)) fun m => { m with run := some run7 }
       mGroup s 0 aclrInfo = some [0] ∧ runDone run7 aclrInfo = true ∧ (commitTile s 0 run7 aclrInfo).2.toBool = true ∧
         runDone { run7 with chunk := 0 } mmaInfo = false) := by
  refine ⟨?_, ?_, ?_, passes_of ?_, fails_of ?_, ⟨0, ?_⟩, ?_, ?_, ⟨?_, ⟨_, by rfl⟩, ?_⟩, ⟨⟨_, by rfl⟩, ?_⟩, ⟨⟨_, by rfl⟩, ?_⟩, ?_, ?_, ?_⟩ <;>
    decide +kernel

theorem witness_MatrixAccumulates :
    aclrInfo.kind ≠ .mmv ∧ aclrInfo.acc < 4 ∧
      ({ run7 with crows := (List.range 64).map some } : MRun).crows = (List.range 64).map some ∧
      (([(63, [])] : List (Nat × List Fv)).map Prod.fst).Nodup ∧ ∀ x ∈ ([(63, [])] : List (Nat × List Fv)), x.1 < 64 := by
  refine ⟨by decide, by decide, rfl, by decide, by simp⟩

/-- A key descriptor: slots 0 and 2 name tile h0, offset 0; the rest name none. -/
def keyDesc : List Byte := (List.range 8).flatMap fun j => natLe 8 (if j = 0 ∨ j = 2 then 0 else 64)

/-- KSORT of no pairs, and its fields. -/
def sortInfo : KInfo := { fn := .sort, si := false, so := false, kt := 0, flag := false, comb := 0, n := 0, ldesc := 0, param := 0 }

/-- The key engine of core 0 holds command 7. -/
abbrev keyAt (w : Cmd128) (desc : List Byte) (f : KeyEng → KeyEng) (bytes : Mem) : State :=
  { (onCore fun k => { k with
      cmds := [{ outCmd 7 .running w with desc := desc }], tiles := [(0, { plain with owner := true })]
      scratch := { Scratch.init with bytes := bytes }, key := f { KeyEng.init with queue := [7] } }) with
    cur := { Ctx.init with slot := 7 } }

/-- KPERM.G of one word whose index is out of range. -/
def permDesc : List Byte := (List.range 8).flatMap fun j => natLe 8 (if j < 3 then j * 2 ^ 34 else 64)
def permInfo : KInfo := { fn := .perm, si := false, so := false, kt := 0, flag := false, comb := 0, n := 1, ldesc := 0, param := 0 }

theorem witness_KeyCommandsRun :
    bare.cur.slot = 0 ∧ kInfo (.ksort false false false 0 0 0 0) = some sortInfo ∧ keyLoad bare.me < queueDepth ∧
      keyCheck (onCore fun k => { k with tiles := [(0, plain)] }) 0 sortInfo keyDesc = none ∧
      keyCheck bare 0 sortInfo (List.replicate 64 0) = some (cFORMAT, 4) ∧
      queueDepth ≤ keyLoad (onCore fun k => { k with key := { KeyEng.init with queue := List.replicate 8 7 } }).me ∧
      (let s := keyAt (wordOf (.ksort false false false 0 0 0 0)) keyDesc id []
       ((s.core 0).key.queue = [7] ∧ s.cur.slot = 7 ∧ (s.core 0).key.started = false ∧ (s.core 0).key.performed = false ∧
         (s.core 0).key.itok = []) ∧
       (kCommand s 0 7).map (·.2) = some sortInfo ∧ keyReady s 0 { outCmd 7 .running 0 with desc := keyDesc } sortInfo = true) ∧
      (let s := keyAt (wordOf (.ksort false false false 0 0 0 0)) keyDesc (fun k => { k with started := true }) []
       (keyFault s 0 { outCmd 7 .running 0 with desc := keyDesc } sortInfo).isNone = true ∧
         (keyEffect s 0 sortInfo keyDesc).2 = .ok ([], [], 0)) ∧
      (let s := keyAt (wordOf (.ksort false false false 0 0 0 0)) keyDesc (fun k => { k with started := true, performed := true }) []
       (s.core 0).key.started = true ∧ (s.core 0).key.performed = true ∧ (s.core 0).key.out = []) ∧
      (let s := keyAt (wordOf (.kpermG 1 0 0)) permDesc (fun k => { k with started := true }) [(7, 16)]
       (kCommand s 0 7).map (·.2) = some permInfo ∧
         (keyFault s 0 { outCmd 7 .running 0 with desc := permDesc } permInfo).map (fun x => x.2.1) = some cFORMAT) := by
  refine ⟨?_, ?_, ?_, ?_, ?w1, ?_, ?_, ?_, ?_, ?_⟩ <;> decide +kernel

theorem witness_KeyResults :
    (sortInfo.fn = .sort ∧ sortInfo.param = 0 ∧ ([] : List (W32 × W32)).length = sortInfo.n.toNat) ∧
      (let i : KInfo := { sortInfo with n := 3, param := 2, flag := false }
       i.param ≠ 0 ∧ ¬i.n.toNat < i.param.toNat ∧ ([(3, 0), (1, 1), (2, 2)] : List (W32 × W32)).length = i.n.toNat ∧ i.flag = false ∧
         ({ i with flag := true } : KInfo).flag = true) ∧
      (∀ kt : BitVec 2, let i : KInfo := { sortInfo with fn := .scan, kt := kt.toNat, n := 2, param := 1 }
       i.fn = .scan ∧ i.param ≠ 0 ∧ ([7, 8] : List W32).length = i.n.toNat ∧ 0 < ([7, 8] : List W32).length ∧ 1 + 1 = ([7, 8] : List W32).length) ∧
      (3 : Nat) < 4 ∧ fp32.isNan 0x7FC00000 = true ∧ fp32.isNan 0x7F800000 = false ∧ fp32.isNan 0xFF800000 = false ∧
      (fp32.value 0x7F7FFFFF).cmp (fp32.value 0x7F800000) = some .lt ∧ (fp32.value 0xFF800000).cmp (fp32.value 0x80000001) = some .lt ∧
      (([(1, 5), (2, 6)] : List (W32 × W32)).map Prod.fst).Pairwise (fun a b => a.ult b = true) := by
  decide +kernel

/-- A CPY from memory to memory, and its fields. -/
def cpyInfo : CInfo :=
  { fn := .cpy, sk := 0, dk := 0, eoi := false, adv := false, flag := false, eng := 15, sidx := 0, ldesc := 0, n1 := 0, b2 := 0 }

/-- Copy engine `e` runs command 7 of core 0. -/
abbrev copying (e : Nat) (f : CopyEng → CopyEng) (accs : List Access) : State :=
  { (working .running (wordOf (.cpy 0 0 false false 15 0 0 0)) id) with
    engines := [(e, f { CopyEng.init with queue := [(0, 7)], running := true, waited := true })], accs := accs }

/-- A write of command 7 that has failed. -/
def failedWrite : Access := { mkAccess (onCore mapped) (.engine 0) .write page0 0 8 (natLe 8 1) (.cmd 0 7) with id := 9, code := cMEMUNCORR }

theorem witness_CopyCommandsAndNests :
    bare.cur.slot = 0 ∧ cInfo (.cpy 0 0 false false 15 0 0 0) = some cpyInfo ∧
      (∃ e, (engineSet (dieOf 0) 15).find? (copyRoom bare) = some e) ∧
      (∃ t, copyCheck bare 0 cpyInfo (List.replicate 128 0) = .ok t) ∧
      (∃ t c d v, copyCheck bare 0 { cpyInfo with ldesc := 1 } (List.replicate 128 0) = .bad t c d v) ∧
      (12 ≤ (12 : BitVec 4).toNat ∧ (0x7F80 : BitVec 32).toNat + 127 ≤ 0x7FFF) ∧
      (let s := copying 0 id []
       (engineRun s 0).map (fun x => (x.1, x.2.1.id, x.2.2)) = some (0, 7, cpyInfo) ∧ (s.engine 0).waited = true ∧
         (cpyInfo.dst []).total ≤ 0 ∧ accsOf s 0 7 = [] ∧ copyFault s 0 0 (outCmd 7 .running 0) cpyInfo = none ∧
         (cpyInfo.fn ≠ .cpyf ∧ cpyInfo.fn ≠ .csig ∧ cpyInfo.eoi = false) ∧ ringNeeds s 0 cpyInfo [] (s.engine 0).index = []) ∧
      (engineSet (dieOf 0) 3 ≠ [] ∧ ∀ e ∈ engineSet (dieOf 0) 3, copyRoom { bare with engines := [(e, { CopyEng.init with queue := List.replicate 16 (0, 7) })] } e = false) ∧
      (let i := { cpyInfo with fn := .cpyf }
       let s := copying 0 id []
       let desc := List.replicate 112 0 ++ natLe 16 (wordOf (.mma 0 false false false 0 0x00100000 0 0)).toNat
       decodeCommand (followCmd i desc) = .ok (.mma 0 false false false 0 0x00100000 0 0) ∧ followOk i desc = true ∧ matrixFull s 0 aclrInfo = none ∧
         (matrixFull (s.modMat 0 fun m => { m with queue := List.replicate 8 (0, 7) }) 0 aclrInfo).isSome = true) ∧
      (let i : CInfo := { cpyInfo with fn := .cpyx, sk := 1, adv := true }
       let s := onCore fun k => { k with tiles := [(0, ringOf 4)] }
       (ringNeeds s 0 i (List.replicate 128 0) []).map (·.1) = [0] ∧ pointersHeld s 0 0 = false) ∧
      ((copying 0 (fun g => { g with waited := false }) []).engine 0).waited = false ∧
      (copyFault (copying 0 id [failedWrite]) 0 0 (outCmd 7 .running 0) cpyInfo).map (fun x => x.2.1) = some cMEMUNCORR ∧
      (let d : Side := { kind := 0, h := 0, base := 8, run := 4, cnt := [2, 2, 1], str := [4, 8, 0] }
       d.ascending = true ∧ 0 < d.run ∧ 2 + 1 < d.runs) := by
  refine ⟨?_, ?_, ⟨_, by rfl⟩, passes_of ?_, fails_of ?_, ?_, ?_, ?_, ?_, ?_⟩ <;> decide +kernel

/-- A member of a group on core `c` whose command 7 is pending. -/
def member (c : Nat) : Member := { plot := c + 1, rank := c, core := c, pending := [7], freed := none }

/-- Cores 0 and 1 are members of group 0 and have issued the command words `a` and `b`. -/
abbrev grouped (a b : Cmd128) (f : Group → Group) : State :=
  { (working .accepted a id).modCore 1 (fun k => { k with cmds := [outCmd 7 .accepted b] }) with
    groups := [(0, f { Group.init with p := 2, members := [member 0, member 1] })] }

/-- An AGTH of no elements, and its fields. -/
def agthInfo : GInfo := { fn := .agth, e := 4, kt := 0, op := 0, g := 0, ldesc := 0, count := 0 }

theorem witness_Collectives :
    bare.cur.slot = 0 ∧ leadPlot bare 0 ≠ none ∧ leadPlot State.reset 0 = none ∧
      (320 : BitVec 32).toNat ≤ 320 ∧ (319 : BitVec 32).toNat < 320 ∧ 320 ≤ (320 : BitVec 32).toNat ∧ 192 < (193 : BitVec 32).toNat ∧
      atExecutor (outCmd 7 .accepted 0) = true ∧ atExecutor { outCmd 7 .accepted 0 with ctl := .held } = false ∧
      (let s := working .accepted 0 id
       s.cur.slot ≠ 0 ∧ (s.core 0).cmd 7 = some (outCmd 7 .accepted 0) ∧ leadPlot s 0 = some plot1 ∧ (s.group 0).members = []) ∧
      (let s := { working .accepted 0 id with groups := [(0, { Group.init with p := 2, members := [member 1] })] }
       (s.group 0).members ≠ [] ∧ (∀ m ∈ (s.group 0).members, m.rank ≠ 0) ∧ (s.group 0).members.length + 1 = (s.group 0).p ∧
         (s.group 0).whole = false ∧ 2 ≤ (2 : BitVec 32).toNat) ∧
      (let s := grouped 0 0 id
       (s.group 0).whole = true ∧ (s.group 0).memberOf 1 = some (member 0) ∧ (member 0).freed = none) ∧
      gInfo (.agth 0 0 0 0) = some agthInfo ∧
      collectiveCheck { bare with groups := [(0, { Group.init with p := 1, members := [member 0] })] } 0 agthInfo (List.replicate 64 0) = none ∧
      collectiveCheck bare 0 agthInfo (List.replicate 64 0) = some (cFORMAT, 0) ∧ (1 : BitVec 32).toNat % 64 ≠ 0 ∧
      (let s := grouped (wordOf (.agth 0 0 0 0)) (wordOf (.agth 0 0 0 0)) id
       (parties s (s.group 0)).length = (s.group 0).p ∧ (s.group 0).met = false ∧
         (s.group 0).p ≠ 0 ∧ (s.group 0).whole = true ∧ (∀ q ∈ parties s (s.group 0), atExecutor q.cmd = true ∧ q.i = agthInfo) ∧
         (meetTraffic s (parties s (s.group 0))).isSome = true ∧
         ∀ t ∈ transfers s (parties s (s.group 0)), blockedDest s (parties s (s.group 0)) t = false) ∧
      (let s := grouped (wordOf (.agth 0 0 0 0)) (wordOf (.agth 1 0 0 0)) id
       (parties s (s.group 0)).length = (s.group 0).p ∧ (parties s (s.group 0)).map (fun q => q.i.e) = [4, 8]) ∧
      (let s := grouped (wordOf (.agth 0 0 0 0)) (wordOf (.agth 0 0 0 0)) fun g => { g with met := true }
       (s.group 0).met = true ∧ (s.group 0).done.length + 1 < (s.group 0).p ∧
         (∀ q ∈ parties s (s.group 0), partyAccs s q = []) ∧
         ∀ x ∈ [AccPhase.returned, .issued],
           let a : Access := { mkAccess (onCore mapped) (.engine 0) .write page0 0 8 (natLe 8 1) (.cmd 0 7) with id := 9, phase := x }
           let u := { s with accs := [a] }
           (parties u (u.group 0)).map (partyAccs (dropTrailing u)) = [[a], []]) ∧
      (let a : Access := { mkAccess (onCore mapped) (.engine 0) .write page0 0 8 (natLe 8 1) (.cmd 0 7) with id := 9, phase := .issued, rel := true, xfer := 3 }
       let lost : Access := { a with id := 8, rel := false, phase := .returned, code := cCAUSALGAP }
       (dropTrailing { bare with accs := [a] }).accs = [a] ∧ (dropTrailing { bare with accs := [lost, a] }).accs = [lost] ∧ lost.id < a.id ∧
         failedPart lost a = true) ∧
      ([1, 2, 3, 4] : List Byte).length = 4 * 1 := by
  decide +kernel

/-- The access of command 7, returned with a code. -/
def answered (kind : AccKind) (code : Byte) : Access :=
  { mkAccess (onCore mapped) (.seq 0) kind page0 0 8 (natLe 8 1) (.cmd 0 7) with id := 9, phase := .returned, code := code, value := natLe 8 5 }

theorem witness_AtomicCommandsSent :
    (onCore mapped).cur.slot = 0 ∧ (onCore mapped).me.acq = none ∧
      (∃ t, translate (onCore mapped) 0 (coreRoot (onCore mapped) 0) 0x1FFFF8 true false = (.hit page0, t)) ∧
      (0x1FFFF8 : Word).toNat % 8 = 0 ∧ ((32760 : BitVec 32).toNat % 8 = 0 ∧ (32760 : BitVec 32).toNat + 8 ≤ Config.localBytes) ∧
      ((32752 : BitVec 32).toNat + 16 ≤ Config.localBytes) ∧ page0.host = false ∧ (0x1FFFFA : Word).toNat % 4 ≠ 0 ∧
      (let s := onCore fun k => { mapped k with tiles := [(3, plain)] }
       (getTile s 0 3).valid = true ∧ 0 + 64 * 1 ≤ (getTile s 0 3).size ∧ mayAccess (getTile s 0 3) false false 0 64 = true ∧
         (translatePages s (pagesOf 0 64)).2.toBool = true ∧
         (match (translatePages s (pagesOf 0 64)).2 with | .ok es => es.all fun e => !e.host | .error _ => false) = true) ∧
      (getTile bare 0 3).valid = false := by
  refine ⟨?_, ?_, pair_of ?_, ?_⟩ <;> decide +kernel

theorem witness_AtomicCommandsEnd :
    (let s := { working .accepted 0 id with accs := [answered .atomic 0] }
     s.cur.slot ≠ 0 ∧ cmdAccs s = [answered .atomic 0] ∧ (answered .atomic 0).phase = .returned ∧ (answered .atomic 0).code = 0) ∧
    (let s := { working .accepted 0 id with accs := [answered .atomic cMEMUNCORR] }
     cmdAccs s = [answered .atomic cMEMUNCORR] ∧ (answered .atomic cMEMUNCORR).code ≠ 0) ∧
    (let s := { working .accepted 0 id with accs := [answered .reduce 0] }
     (s.core 0).cmd 7 = some (outCmd 7 .accepted 0) ∧ ∀ x ∈ cmdAccs s, accPerformed x = true ∧ x.code = 0) ∧
    (∀ p ∈ [AccPhase.returned, .issued],
      let row := { answered .reduce 0 with phase := p }
      let s := { working .accepted 0 id with accs := [row, answered .reduce cMEMUNCORR, answered .reduce 0] }
      cmdAccs s = [row] ++ answered .reduce cMEMUNCORR :: [answered .reduce 0] ∧ row.code = 0 ∧ (accPerformed row = true ↔ p = .returned)) ∧
    (0x80000000 : Nat) < 2 ^ 32 ∧ (2 ^ 63 : Nat) < 2 ^ 64 := by decide +kernel

theorem witness_LocalMemoryAccess_held :
    let k : Core := { bare.me with cmds := [outCmd 7 .accepted (wordOf (.amoc 0 true 0 0x7FF8))] }
    heldLocal k 0x7FF8 8 = true ∧ heldLocal k 0x7FFC 4 = true ∧ heldLocal k 0x7FF0 8 = false := by decide +kernel

/-! ### Witnesses: memory path, handlers, graph, plots -/

/-- Page tables at 0 to 0x2FFF that map the first GiB of virtual addresses to the device bytes of the same number, and a word. -/
def tables (va : Nat) (v : Word) : Mem :=
  mwrite (mwrite (mwrite (mwrite [] (hashKey 0) (natLe 8 0x0010000000001001)) (hashKey 0x1000) (natLe 8 0x0010000000002001))
    (hashKey 0x2000) (natLe 8 0x0010000000000023)) (hashKey va) (natLe 8 v.toNat)

/-- `bare` with those tables and the word `v` at `va`. -/
abbrev paged (va : Nat) (v : Word) : State := { bare with mem := tables va v }

/-- A read by the sequencer of core 0, issued; the same of core 80's home die. -/
def readAcc (addr : Nat) (remote : Bool) : Access :=
  { mkAccess (onCore mapped) (.seq 0) .read page0 0 8 [] (.reg 0 5 0x1000) with id := 9, addr := addr, phase := .issued, remote := remote }

/-- A walk of core 0. -/
def walk8 (store : Bool) : Walk :=
  { id := 8, core := 0, root := 0, va := 0x10000, store := store, fetch := false, fault := none, heldAt := none }

theorem witness_AccessesPerformed :
    (let s := { bare with accs := [readAcc 0 false] }
     s.accs.find? (fun x => x.id == (readAcc 0 false).id) = some (readAcc 0 false) ∧ (readAcc 0 false).phase = .issued ∧
       mayGo s (readAcc 0 false) = true ∧ bridgeTurn s (readAcc 0 false) = true) ∧
    (let s := { bare with accs := List.replicate 32 { readAcc 0 false with id := 3, agent := .engine 0 } ++ [readAcc 0 false] }
     s.accs.find? (fun x => x.id == 9) = some (readAcc 0 false) ∧ mayGo s (readAcc 0 false) = true ∧ bridgeTurn s (readAcc 0 false) = false) ∧
    (let s := { bare with accs := [{ readAcc 0 false with id := 3, acq := true }, readAcc 0 true] }
     mayGo s (readAcc 0 true) = false) ∧
    (let a := readAcc 0 true
     mayGo { bare with accs := [a] } a = true ∧ a.remote = true ∧ a.host = false ∧ 0 < a.len ∧ a.rw = false ∧ a.ac = false ∧ a.cmp = [] ∧ a.len = 8 ∧
       ({ a with kind := .atomic } : Access).kind = .atomic) ∧
    (let s := { paged 0x10000 0 with walks := [walk8 true] }
     s.walks.find? (fun x => x.id == 8) = some (walk8 true) ∧ walkServed s (walk8 true) = true ∧
       (match walkTraffic s 0 0 0x10000 with | some (_, b) => !b | none => false) = true ∧
       (match (walkDie s 0 0 0x10000 true false).1 with | .ok e => !e.wb | .error _ => false) = true) ∧
    (let a : Access := { readAcc 0 false with host := true, kind := .write, phase := .accepted }
     let s := { bare with accs := [a], hostPend := [9] }
     s.accs.find? (fun x => x.id == a.id) = some a ∧ a.phase = .accepted ∧ s.hostPend.head? = some a.id ∧ bare.hostPend.head? ≠ some a.id) ∧
    (let w := { walk8 true with core := 80 }
     let s := { (paged 0x10000 0).modDie 1 (fun d => { d with phase := 1 }) with walks := [w] }
     dieOf w.core = 1 ∧ walkServed s w = true ∧ (walkTraffic s 1 0 0x10000).isSome = false) := by
  decide +kernel

/-- Core 0 without a running handler, the entry of c0 changed. -/
abbrev waitingCore (f : Handler → Handler) : State :=
  onCore fun k => { k with running := none, handlers := [(0, f { Handler.init with valid := true, entry := 0x1000, prio := 255 })] }

theorem witness_HandlersDispatched :
    (let s := waitingCore fun h => { h with inbox := [(1, 3)] }
     (s.core 0).trap.on = false ∧ freeToSelect s 0 = true ∧ selectNext s 0 = some 0 ∧ plot1.image407 = [] ∧
       s.plotOf 0 = some plot1 ∧ ((s.core 0).handler 0).state = .idle) ∧
    (let s := waitingCore fun h => { h with state := .waiting, wake := true }
     selectNext s 0 = some 0 ∧ ((s.core 0).handler 0).state = .waiting ∧ ((s.core 0).handler 0).inbox = []) ∧
    freeToSelect bare 0 = false ∧ selectNext (waitingCore fun h => { h with inbox := [(1, 3)], mask := true }) 0 = none := by
  decide +kernel

/-- A control word from core 0 to its channel 0. -/
def word0 : CtlWord := { src := 0, core := 0, chan := 0, word := 7, origin := 1 }

theorem witness_WordsAndAnswersArrive :
    (let s := { bare with flight := [word0] }
     s.flight[0]? = some word0 ∧ word0.core < parkedAt ∧ word0.src < Config.cores ∧
       (∀ x ∈ s.flight.take 0, wordSender x.src ≠ wordSender word0.src) ∧ ((s.core 0).handler 0).valid = true ∧ ((s.core 0).handler 0).inbox.length < 4) ∧
    (let s := { bare with flight := [{ word0 with core := parkedAt }] }
     s.flight[0]? = some { word0 with core := parkedAt } ∧ parkedAt ≤ ({ word0 with core := parkedAt } : CtlWord).core) ∧
    (let w := { word0 with src := Config.cores }
     let s := { bare with flight := [w, word0, word0, word0, word0] }
     Config.cores ≤ w.src ∧ 4 ≤ inboxLoad s 0 0 ∧ inboxLoad { bare with flight := [w] } 0 0 < 4) ∧
    (let s := { (onCore fun k => k.modHandler 0 fun h => { h with inbox := List.replicate 4 (0, 0) }) with flight := [word0] }
     4 ≤ ((s.core 0).handler 0).inbox.length) ∧
    ((bare.core 0).handler 1).valid = false ∧
    (let s := working .complete 0 id
     (s.core 0).cmd 7 = some (outCmd 7 .complete 0) ∧ (outCmd 7 .complete 0).phase = .complete ∧ (outCmd 7 .complete 0).xt ≠ 0) ∧
    (let a := { readAcc 0 false with phase := .returned }
     { bare with accs := [a] }.accs.find? (fun x => x.id == 9) = some a ∧ a.dest = .reg 0 5 0x1000 ∧ a.code = 0) ∧
    (let s := { (onCore fun k => { mapped k with handlers := [(0, { Handler.init with valid := true, stall := some (.line 0x10004) })] }) with
       mem := tables 0x10000 7 }
     ((s.core 0).handler 0).stall = some (.line 0x10004) ∧ (∀ x ∈ (s.core 0).icache, x.1 ≠ 0x10004 / 64) ∧ (s.core 0).icache.length < 256 ∧
       (translate s 0 (coreRoot s 0) 0x10004 false true).1 = .hit page0 ∧
       (s.die (page0.homeOf s (0x10004 - 4))).removed = false ∧ (crossRead s (dieOf 0) (page0.homeOf s (0x10004 - 4)) 64).isSome = true ∧
       (homeRead s page0.host (page0.key (0x10004 - 4)) 64).2 = 0) := by
  decide +kernel

theorem witness_DebugBreakpointsAndBays :
    (onCore fun k => { k with arm := true }).me.arm = true ∧ bare.me.arm = false ∧
      ((onCore fun k => { k with stopped := true }).core 0).stopped = true ∧ (bare.core 0).stopped = false ∧ bare.plotOf 0 = some plot1 ∧
      (let s := onPlot fun q => { q with decision := some 3, bays := 8 }
       let q := { plot1 with decision := some 3, bays := 8 }
       s.findPlot 1 = some q ∧ q.live = true ∧ arcsEmpty s q = true ∧ stagesIdle s q = true ∧ boundReached s q = true) := by
  decide +kernel

/-- A graph node with the given state bits and body, its node at 0x20000. -/
def gf (state : BitVec 56) (b0 b1 b2 : Word) : GraphFields :=
  { state := state, succ0 := 0, succ1 := 0, succ2 := 0, succ3 := 0, body0 := b0, body1 := b1, body2 := b2 }

theorem witness_GraphNodesAndQueue :
    nodeOk (gf 0 0 0 0) = true ∧ nodeOk { gf 0 0 0 0 with succ0 := 1 } = false ∧
      gread (paged 0x10000 5) 0x10000 = .ok 5 ∧ (gwrite (paged 0x10000 5) 0x10000 6).toBool = true ∧
      (0x10000 : Word).toNat % 8 = 0 ∧ ((5 : Word) &&& 4 ≠ 0 ∧ (5 : Word) &&& 2 = 0) ∧
      ((gf 0x0000010000 0x10000 1 1).state.extractLsb' 24 16 ≠ 1 ∧ (gf 0x1000000 0x10000 1 1).state.extractLsb' 24 16 = 1) ∧
      (resetBodies (paged 0x10000 5) 0x20000 0 0).2 = true ∧
      (let e : QEntry := { node := 0x10000, level := 3, ready := 0, aging := true, launch := false, restored := none, rises := 0 }
       let s := { paged 0x10000 (withSt 0 stREADY) with queue := [e] }
       nextEntry s = some e ∧ (∀ x ∈ s.claimed, x.1 ≠ 0) ∧ gread s e.node = .ok (withSt 0 stREADY) ∧ nodeSt (withSt 0 stREADY) = stREADY ∧
         (gwrite s e.node (withSt (withSt 0 stREADY) stCLAIMED)).toBool = true) ∧
      nextEntry bare = none ∧
      (let e : QEntry := { node := 0x10000, level := 3, ready := 0, aging := true, launch := false, restored := none, rises := 0 }
       let s := { bare with queue := [e, { e with level := 4 }], pace := BitVec.ofNat 64 tickAge }
       s.queue[0]? = some e ∧ (∃ x ∈ s.queue.eraseIdx 0, e.level < x.level) ∧ tickAge * (e.rises + 1) ≤ (s.pace - e.ready).toNat) ∧
      (let s := { paged 0x10000 0 with regs := { DevRegs.init with groot := 0x10000 } }
       s.regs.groot ≠ 0 ∧ gread s s.regs.groot = .ok 0 ∧ nodePending 0 = 0) ∧
      (let w : GWait := { node := 0x10000, qp := none, line := none, since := 0, fired := true }
       let s := { bare with waits := [w], pace := 10000 }
       s.waits[0]? = some w ∧ (if w.line.isSome then 1000000 else 10000) ≤ (s.pace - w.since).toNat) ∧
      (let v := withPending 0 1
       gread (paged 0x10000 v) 0x10000 = .ok v ∧ nodeSt v = stWAITING ∧ nodePending v = 1 ∧
         (gwrite (paged 0x10000 v) 0x10000 (withPending v 0)).toBool = true) := by
  decide +kernel

/-! ### Witnesses: placement, contexts -/

/-- A plan image of one core (R191, R192) with the record of the example of R70: FMUL in stage 2 and SINK in stage 3 of cell (0, 0), bay 0,
and a pool. Its header, a core table entry without handlers, tiles or ports, and the record of 328 bytes. -/
def img1 : List Byte :=
  natLe 4 1 ++ [1, 1, 0, 0] ++ List.replicate 24 (0 : Byte) ++ natLe 4 96 ++ natLe 4 1 ++ natLe 4 64 ++ natLe 4 0 ++ natLe 8 0x1000 ++ natLe 8 424 ++
    List.replicate 32 (0 : Byte) ++ natLe 8 0x1800 ++ List.replicate 16 (0 : Byte) ++ natLe 8 0x00800018000C3901 ++ natLe 8 0x61C00006000C0801 ++
    List.replicate 32 (0 : Byte) ++ List.replicate 256 (0 : Byte)

/-- The plot as it waits, and its LAUNCH in the queue set; every other core leased to plot 9. -/
def waiting1 : Plot := { plot1 with state := .waiting, img := img1 }
def entry1 : QEntry := { node := 0, level := 3, ready := 0, aging := true, launch := true, restored := none, rises := 0 }
def queued : State := { bare with plots := [waiting1], queue := [entry1], lease := [] }
def fullLease : Tbl Lease := (List.range 320).map fun c => (c, .armed 9)

theorem test_image_length : img1.length = 424 := by decide +kernel
theorem test_image_ok : checkImage img1 (fun _ => true) = none := by decide +kernel
theorem test_image_fits : firstFit queued img1 = some (0, 0, 0) := by decide +kernel
theorem test_image_waits : firstFit { queued with lease := fullLease } img1 = none := by decide +kernel

/-- The plot before its image has been fetched, with the image at 0x10000 in mapped memory; the plot with a request under way. -/
def fetching1 : Plot := { waiting1 with img := [], image := 0x10000 }
def fetching : State := { writeHash { queued with mem := tables 0x20000 0 } 0x10000 img1 with plots := [fetching1] }
def asking1 : Plot := { waiting1 with cand := some (0, 0, 0) }
def asking : State := { queued with plots := [asking1] }

/-- Whether the image of a plot is fetched by the walker of a die, or its packets wait. -/
def fetched (s : State) (die : Nat) (q : Plot) : Option Bool :=
  (imageTraffic s die q.ptroot q.image).map fun t => (fetchImage t q.ptroot q.image fun _ => true).toBool

/-- The plot while it is loaded, and quiet after its only invocation. -/
def loading1 : State := ({ bare with plots := [{ waiting1 with state := .loading }] } : State).setLease 0 (.loading 1)
def drained1 : State := onPlot fun q => { q with retired := 1 }

theorem witness_PlotsPlacedAndLoaded :
    firstFit queued img1 = some (0, 0, 0) ∧ firstFit { queued with lease := fullLease } img1 = none ∧
      (queued.findPlot 1 = some waiting1 ∧ entryOf queued waiting1 = some entry1 ∧ waiting1.state = .waiting ∧ isHead queued entry1 = true ∧
        (∀ x ∈ queued.plots, x.node = waiting1.node → x.state = .waiting → waiting1.p ≤ x.p) ∧ waiting1.img ≠ [] ∧ waiting1.cand = none) ∧
      fetched fetching 0 fetching1 = some true ∧ fetched { fetching with mem := [] } 0 fetching1 = some false ∧
      (asking1.cand = some (0, 0, 0) ∧ served asking asking1 0 = true ∧ freeAt asking asking1.img (0, 0, 0) = true ∧
        freeAt { asking with lease := fullLease } asking1.img (0, 0, 0) = false ∧ nextFit asking asking1.img (0, 0, 0) = some (0, 1, 0) ∧
        ((walkerSend asking 0 0 ctlReserve).bind fun t => walkerSend t 0 0 ctlReserve) = some asking ∧
        ((walkerSend bare 0 1 ctlReserve).bind fun t => walkerSend t 1 0 ctlReserve).isSome = true ∧
        ((walkerSend (bare.modDie 0 fun d => { d with phase := 1 }) 0 1 ctlReserve).bind fun t => walkerSend t 1 0 ctlReserve).isNone = true) ∧
      (let x := { asking1 with id := 2, candAt := 1 }
       served { asking with plots := [x, { asking1 with candAt := 2 }] } { asking1 with candAt := 2 } 0 = false) ∧
      (let q := { waiting1 with state := .loading }
       loading1.findPlot 1 = some q ∧ q.state = .loading ∧ allLoading loading1 q = true ∧ q.restored = false ∧ q.closing = false ∧
         checkImage q.img (fun i => isBridge (q.cores.getD i 0)) = none ∧
         (allocDecls q.img q.cores ((loadCoresOf loading1 q).modPlot q.id fun p =>
           { p with bays := BitVec.ofNat 4 (((imgRecs q.img).1.flatMap CellRec.bays).foldl (fun m b => m ||| 2 ^ b) 0), duals := dualCells q,
                    fed := fedSlots q, wid := q.firstWid, bayStart := q.firstWid }) (declsOf q.img)).toBool = true) ∧
      checkImage (patch img1 4 [9]) (fun _ => true) = some (cCFGBAD, 4) ∧
      (let q := { plot1 with retired := 1 }
       drained1.findPlot 1 = some q ∧ 0 < q.h ∧ 0 ∉ q.drained ∧ plotTiles drained1 q = false ∧ rowQuiet drained1 q 0 = false ∧
         let s := drained1.modCore 0 fun k => { k with running := none, handlers := [(0, { Handler.init with valid := true })] }
         rowQuiet s q 0 = true ∧ (∀ r < q.h, r ≠ 0 → r ∈ q.drained) ∧
           (let q2 := { q with h := 2 }
            rowQuiet { s with plots := [q2] } q2 0 = true ∧ ∃ r < q2.h, r ≠ 0 ∧ r ∉ q2.drained)) ∧
      (let s := bare.setLease 0 (.sweep 1)
       s.findPlot 1 = some plot1 ∧ ((List.range plot1.w).map (plot1.coreIn 0)).filter (fun c => s.leaseOf c == .sweep plot1.id) ≠ [] ∧
         s.accs = []) := by
  refine ⟨?_, ?_, ?_, ?_, ?w1, ?_, ?_, ?_, ?_, ⟨?_, ?_, ?_, ?w2, ?_, ?_, ?_, ?_, ⟨1, ?_⟩⟩, ?_⟩ <;> decide +kernel

/-- A plot of no cores as it closes, at rest: its save image is the header alone. -/
def closing1 : Plot := { plot1 with w := 0, closing := true, saveva := 0x100000 }
def closable : State := { paged 0x20000 0 with plots := [closing1] }

/-- The plot on the only core that the head of the queue set could take, in state `st`. -/
def victim1 (st : PlotState) : State :=
  { bare with plots := [{ plot1 with state := st }, { waiting1 with id := 2 }], queue := [entry1], lease := tset .free fullLease 0 (.armed 1) }

/-- The saved plot with its image at 0x10000 in mapped memory. -/
def saved1 : Plot := { plot1 with state := .saved, image := 0x10000, image407 := [(0, { Core.init with regs := [(5, 7)] })] }
def saved : State :=
  { writeHash { State.reset with mem := tables 0x20000 0 } 0x10000 img1 with
    plots := [saved1], queue := [{ entry1 with launch := false, restored := some 1 }] }

/-- The plot header and the blocks of a save image are read, without valid tiles. -/
def reads (s : State) (q : Plot) : Bool :=
  (readVa s q.ptroot (saveBase q) 4096).toBool &&
    match savedCores s q q.image407 with
    | .ok ks => ks.all fun x => x.2.tiles.all fun e => !e.2.valid
    | .error _ => false

/-- The saved plot, of no cores, as it is loaded again. -/
def restoring1 : Plot := { saved1 with w := 0, image407 := [], state := .loading, restored := true, img := img1, saveva := 0x100000 }
def restoring : State := ({ saved with plots := [restoring1] } : State).setLease 0 (.loading 1)

/-- The page of the first GiB. -/
def page1 : TcEntry := { page0 with size := 3, pa := 0 }

theorem walkIndex_low {l a : Nat} (hl : 2 ≤ l) (h : a < 2 ^ 30) : walkIndex l a = 0 := by
  have : a < 2 ^ (12 + 9 * l) := lt_of_lt_of_le h (Nat.pow_le_pow_right (by norm_num) (by omega))
  simp [walkIndex, Nat.div_eq_of_lt this]

theorem canonical_low {a : Nat} (h : a < 2 ^ 30) : canonical (BitVec.ofNat 64 a) = true := by
  have : (BitVec.ofNat 64 a).extractLsb' 55 9 = 0 := by
    apply BitVec.eq_of_toNat_eq
    rw [BitVec.extractLsb'_toNat, BitVec.toNat_ofNat, Nat.shiftRight_eq_div_pow, Nat.div_eq_of_lt (by omega)]; rfl
  simp [canonical, this]

/-- The entries of the three tables. -/
def tableEntry (l t : Nat) (e : Word) : Bool :=
  !pteBad (paged 0x20000 0) l t 0 && readPte (paged 0x20000 0) t 0 == e && !pteMalformed (paged 0x20000 0) l t 0 e

theorem walk_low {a : Nat} (h : a < 2 ^ 30) : walkPage (paged 0x20000 0) 0 (BitVec.ofNat 64 a) false false = .ok page1 := by
  have ha : (BitVec.ofNat 64 a).toNat = a := by rw [BitVec.toNat_ofNat]; omega
  have f4 : tableEntry 4 0 0x0010000000001001#64 = true := by decide +kernel
  have f3 : tableEntry 3 0x1000 0x0010000000002001#64 = true := by decide +kernel
  have f2 : tableEntry 2 0x2000 0x0010000000000023#64 = true := by decide +kernel
  simp only [tableEntry, Bool.and_eq_true, Bool.not_eq_true', beq_iff_eq] at f4 f3 f2
  generalize paged 0x20000 0 = s at *
  simp only [walkPage, canonical_low h, ha]
  have p4 : ptePa 0x0010000000001001#64 = 0x1000 := by decide
  have p3 : ptePa 0x0010000000002001#64 = 0x2000 := by decide
  rw [walkFrom, walkIndex_low (by decide) h, show (0 : Word).toNat = 0 from rfl]
  simp [f4, p4, pteLeaf, Config.deviceBytes]
  rw [walkFrom, walkIndex_low (by decide) h]
  simp [f3, p3, pteLeaf, Config.deviceBytes]
  rw [walkFrom, walkIndex_low (by decide) h]
  simp [f2, pteLeaf, ptePa, Config.deviceBytes, page1, page0]
  omega

/-- A read whose pieces all lie on one sound page of the device is done. -/
theorem readVa_ok {s : State} {root va : Word} {n : Nat} {e : TcEntry} (hh : e.host = false) (hb : s.poisoned = [])
    (hd : ∀ d, (s.die d).removed = false)
    (hw : ∀ p ∈ pieces va n, walkPage s root (BitVec.ofNat 64 p.1) false false = .ok e) : ∃ bs, readVa s root va n = .ok bs := by
  unfold readVa
  generalize hx : (Except.ok [] : Except (Byte × Word) (List Byte)) = x
  replace hx : ∃ bs, x = .ok bs := ⟨[], hx.symm⟩
  generalize pieces va n = l at hw
  induction l generalizing x with
  | nil => exact hx
  | cons p r ih =>
    obtain ⟨bs, rfl⟩ := hx
    refine ih _ ?_ fun q hq => hw q (.tail _ hq)
    simp [hw p (.head _), hd, hh, hbmBad, hb]

theorem saved_cores : ∃ ks, savedCores (paged 0x20000 0) restoring1 [(0, Core.init)] = .ok ks := by
  have hp : (paged 0x20000 0).poisoned = [] := by decide +kernel
  have hd : (paged 0x20000 0).dies = [] := by decide +kernel
  have rd : ∀ va n, (pieces va n).all (fun p => decide (p.1 < 2 ^ 30)) = true → ∃ bs, readVa (paged 0x20000 0) 0 va n = .ok bs := fun va n h =>
    readVa_ok (e := page1) rfl hp (fun d => by rw [State.die, hd]; rfl) fun p m => walk_low (of_decide_eq_true (List.all_eq_true.mp h p m))
  obtain ⟨low, hl⟩ := rd (saveBase restoring1 + BitVec.ofNat 64 (4096 + 131072 * 0)) 0x19400 (by decide +kernel)
  obtain ⟨high, hh⟩ := rd (saveBase restoring1 + BitVec.ofNat 64 (4096 + 131072 * 0) + 0x19800) 0x5C00 (by decide +kernel)
  refine ⟨[(0, coreFrom Core.init (low ++ List.replicate 0x400 0 ++ high))], ?_⟩
  have hr : restoring1.ptroot = 0 := rfl
  simp only [savedCores, collect, readBlock, hr, hl, hh, allOk]

theorem witness_ContextsSavedAndRestored :
    (let s := victim1 .armed
     s.findPlot 1 = some plot1 ∧ 1 ∈ victims s ∧ plot1.closing = false ∧ plot1.saveHeld = false ∧ lastBegun s plot1 = false ∧
       walkerSend s 0 plot1.die ctlPreempt = some s ∧ (walkerSend (s.modDie 0 fun d => { d with phase := 1 }) 0 1 ctlPreempt).isNone = true ∧
       plot1.state = .armed ∧ plotTraps s plot1 = false ∧ plotTraps (s.modCore 0 fun k => { k with trap := { k.trap with on := true } }) plot1 = true) ∧
    (let q := { plot1 with lo := 0, hi := 1, runStart := 0, slice := 5 }
     usedSlice { bare with pace := 5000 } q = true) ∧
    1 ∉ victims bare ∧ lastBegun (onPlot fun q => { q with begun := some 0 }) { plot1 with begun := some 0 } = true ∧
    (closable.findPlot 1 = some closing1 ∧ saveReady closable closing1 = true ∧ barrWaiters closable closing1 = [] ∧
      imageHeld closable closing1 (tileBytesOf closable (savedTiles closable closing1)) = false ∧
      ((saveTraffic closable closing1 (tileBytesOf closable (savedTiles closable closing1)) true).map fun u => (writeImage u closing1).toBool) = some true) ∧
    (saved.findPlot 1 = some saved1 ∧ entryOf saved saved1 = some { entry1 with launch := false, restored := some 1 } ∧
      isHead saved { entry1 with launch := false, restored := some 1 } = true ∧
      fetched saved 0 saved1 = some true ∧ served asking { asking1 with state := .saved } 0 = true) ∧
    (restoring.findPlot 1 = some restoring1 ∧ allLoading restoring restoring1 = true ∧
      checkImage restoring1.img (fun i => isBridge (restoring1.cores.getD i 0)) = none ∧
      ((saveTraffic restoring restoring1 0 false).map fun t => reads t restoring1) = some true ∧
      ∃ ks, savedCores (paged 0x20000 0) restoring1 [(0, Core.init)] = .ok ks) ∧
    (let q := { plot1 with wdog := 5, budget := none }
     q.live = true ∧ plotHalted { bare with plots := [q], pace := 5000 } q = false ∧
       1000 * q.wdog ≤ (({ bare with pace := 5000 } : State).pace - q.lastRetire).toNat - q.wdStop) ∧
    2000000 ≤ ((2000000 : BitVec 64) - 0).toNat := by
  refine ⟨?_, ?_, ?_, ?_, ⟨?_, ?_, ?_, ?_, ?_⟩, ⟨?_, ?_, ?_, ?_⟩, ⟨?_, ?_, ?_, ?_, saved_cores⟩, ?_⟩ <;> decide +kernel

/-! ### Witnesses: traps, packets, links -/

theorem witness_HeldFaultsAndHostCommands :
    (let f : HeldFault := { code := 0x0D, detail := 0, tepc := 0x1000, tval := 0, engine := true }
     let s := onCore fun k => { k with held := [f] }
     s.plotOf 0 = some plot1 ∧ plot1.live = true ∧ (s.core 0).stopped = false ∧ (s.core 0).reinj = [] ∧ (s.core 0).trap.on = false ∧
       (s.core 0).held = f :: []) ∧
    (bare.core 0).held = [] ∧
    (let w : HostWait := { code := 5, core := 0, seq := false, escalated := false }
     let q := { plot1 with state := .hostwait, waits := [w] }
     let s := { bare with plots := [q] }
     ctxPlot s 0 = some q ∧ q.waits = [w] ∧ w.seq = false ∧ s.findPlot q.id = some q ∧
       (let w2 := { w with seq := true }
        let q2 := { q with waits := [w2] }
        ctxPlot { bare with plots := [q2] } 0 = some q2 ∧ q2.waits = [w2] ∧ w2.seq = true ∧ ({ bare with plots := [q2] } : State).findPlot q2.id = some q2)) ∧
    ctxPlot bare 0 = none := by decide +kernel

/-- A read request of die 1 to die 0 with sequence number 5, and a die with one packet arrived or decoded. -/
def pkt1 : Packet := { Packet.init with ptype := pRD, src := 1, dst := 0, seq := 5, acc := 9 }
abbrev onDie (f : Die → Die) : State := bare.modDie 0 f
def got (p : Packet) : State := onDie fun d => { d with arrived := [p] }
def held (p : Packet) (dec : Bool) : State := onDie fun d => { d with early := [{ pkt := p, place := 0, decoded := dec }] }

theorem witness_PacketsDecodedAndDelivered :
    (((got pkt1).die 0).arrived[0]? = some pkt1 ∧ streamed pkt1.ptype = true ∧ ((got pkt1).die pkt1.src).removed = false ∧ ((got pkt1).die 0).removed = false ∧
      pkt1.gen = ((got pkt1).die 0).gen ∧ ({ pkt1 with gen := 3 } : Packet).gen ≠ ((got pkt1).die 0).gen) ∧
    (let s := held pkt1 true
     (s.die 0).early[0]? = some { pkt := pkt1, place := 0, decoded := true } ∧ mayDeliver s 0 pkt1 = true ∧
       bridgeFree s pkt1 = true ∧
       bridgeFree { s with accs := List.replicate 32 { readAcc 0 false with id := 3 } } { pkt1 with addr := 0 } = false ∧
       (∀ x ∈ (s.die 0).early.take 0, x.decoded = true → mayDeliver s 0 x.pkt = true → bridgeFree s x.pkt = false) ∧ (s.die pkt1.src).removed = false ∧ pkt1.ptype ≠ pERR ∧ pkt1.ptype ≠ pCTL) ∧
    (let p := { pkt1 with ptype := pCTL, op := 0xF1 }
     mayDeliver (held p true) 0 p = true ∧ bridgeFree (held p true) p = true ∧ (511 : BitVec 16).toNat < 512 ∧ 512 ≤ (512 : BitVec 16).toNat) ∧
    (let p := { pkt1 with ptype := pERR }
     let s := { held p true with accs := [readAcc 0 true] }
     mayDeliver s 0 p = true ∧ s.accs.find? (fun a => a.id == p.acc && a.phase != .returned) = some (readAcc 0 true)) ∧
    ((held pkt1 false).die 0).early[0]? = some { pkt := pkt1, place := 0, decoded := false } ∧
    (let p := { pkt1 with incs := [(2, 3, 4)] }
     (∀ y ∈ p.incs, y.1 < 6 ∧ y.2.1 < 6 ∧ y.2.2 < 2 ^ 32) ∧ p.src < 6 ∧ p.src ≠ 0 ∧ counted p.ptype = false ∧ counted pWR = true) := by
  decide +kernel

theorem witness_PacketsAcknowledged :
    (let p := { pkt1 with ptype := pACK }
     ((got p).die 0).arrived[0]? = some p ∧ ((got p).die p.src).removed = false ∧ p.gen = ((got p).die 0).gen) ∧
    (let p := { pkt1 with ptype := pNACK }
     ((got p).die 0).arrived[0]? = some p ∧ ((got p).die p.src).removed = false ∧ p.gen = ((got p).die 0).gen) ∧
    (let s := { (onDie fun d => { d with lastAck := [(4, 1)], nackTime := [(4, 1)], nackWait := [(4, 256)], retry := [{ pkt1 with dst := 1, express := false }] }) with
       pace := 20000 }
     let d := s.die 0
     (tget 0 d.lastAck 4 ≠ 0 ∧ tget 0 d.lastAck 4 - 1 + 200 ≤ s.pace.toNat) ∧
       (tget 0 d.nackTime 4 ≠ 0 ∧ tget 0 d.nackTime 4 - 1 + tget 0 d.nackWait 4 % 8192 ≤ s.pace.toNat) ∧
       (∃ x ∈ d.retry, x.stream x.dst = 4) ∧ tget 0 d.ackTime 4 + 20000 ≤ s.pace.toNat) ∧
    (tget 0 (bare.die 0).lastAck 4 = 0 ∧ tget 0 (bare.die 0).nackTime 4 = 0 ∧ ∀ x ∈ (bare.die 0).retry, x.stream x.dst ≠ 4) := by
  decide +kernel

/-- A link port with one express or freight packet queued or open. -/
def queuedAt (vc : Nat) : LinkPort := { LinkPort.init with queues := [(vc, [{ pkt1 with express := 2 ≤ vc }])] }
def flit1 (head last : Bool) (p : Packet) : Flit := { pkt := p, vc := 2, ack := 0, head := head, last := last }
abbrev onLink (f : LinkPort → LinkPort) : State := bare.modLink 0 f

def without1 : State := bare.modDie 1 fun d => { d with live := false, removed := true }

theorem witness_LinksCarryFlits :
    ((bare.link 0).dead = false ∧ (bare.link 0).retraining = false ∧ (bare.die (portFrom 0)).live = true ∧ (bare.die (portTo 0)).live = true) ∧
    (let s := without1.modLink 0 fun l => { l with wire := [flit1 true true pkt1] }
     (s.die (portTo 0)).live = false ∧ (s.die (portFrom 1)).live = false ∧ (s.link 0).wire = flit1 true true pkt1 :: [] ∧ (s.link 0).dead = false ∧
       (s.link 0).retraining = false) ∧
    (512 ≤ ({ LinkPort.init with sent := List.replicate 512 (flit1 true true pkt1) } : LinkPort).sent.length ∧ LinkPort.init.sent.length < 512) ∧
    (let l := { LinkPort.init with openX := some (pkt1, 0) }
     l.sent.length < 512 ∧ l.openX = some (pkt1, 0)) ∧
    (let l := { LinkPort.init with openF := some (pkt1, 0), hist := List.replicate 7 false }
     l.openX = none ∧ l.openF = some (pkt1, 0) ∧ (∀ b ∈ l.hist, b = false) ∧
       pickChannel l [2, 3, 5] l.rrX = none) ∧
    (let l := queuedAt 2
     l.openX = none ∧ l.openF = none ∧ pickChannel l [0, 1, 4] l.rrF = none ∧ pickChannel l [2, 3, 5] l.rrX = some 2 ∧ (openPacket l 2).isSome = true) ∧
    (let l := queuedAt 0
     l.openX = none ∧ pickChannel l [2, 3, 5] l.rrX = none ∧ l.openF = none ∧ pickChannel l [0, 1, 4] l.rrF = some 0 ∧
       (openPacket l 0).isSome = true) ∧
    (let s := onLink fun l => { l with wire := [flit1 true true pkt1] }
     (s.link 0).wire = flit1 true true pkt1 :: [] ∧ (s.link 0).dead = false ∧ (s.link 0).retraining = false ∧ (s.link 0).replays < 8 ∧ (flit1 true true pkt1).vc ≠ 7 ∧
       tget [] (s.link 0).reasm 2 = [] ∧ malformed pkt1 = false ∧ malformed { pkt1 with malformed := true } = true) ∧
    (let s := onLink fun l => { l with wire := [flit1 true false pkt1], replays := 8 }
     8 ≤ (s.link 0).replays ∧ (flit1 true false pkt1).last = false) ∧
    (let s := onLink fun l => { l with wire := [{ flit1 true true pkt1 with vc := 7, ack := 3 }] }
     (s.link 0).wire = [{ flit1 true true pkt1 with vc := 7, ack := 3 }] ∧ (s.link 0).dead = false) ∧
    (let s := { onLink fun l => { l with sent := [flit1 true true pkt1] } with pace := 10000 }
     ackOverdue s 0 = true ∧ ackOverdue s 1 = false ∧ ackOverdue bare 0 = false) ∧
    ((onLink fun l => { l with retraining := true }).link 0).retraining = true ∧ ((onLink fun l => { l with dead := true }).link 0).dead = true := by
  decide +kernel

/-! ### Witnesses: dies, barriers, host, power, queue pairs -/

/-- Every die in phase `n` of a RESYNC that began at pace 0, die `m` in phase `k`; a RESYNC packet of the controller that has reached die 0; a die with
all its links dead; die 1 removed. -/
def phased (n m k : Nat) : State :=
  ({ bare with dies := (List.range 6).map fun d => (d, { Die.init with phase := n }) } : State).modDie m fun d => { d with phase := k }
def resync4 (phase : Nat) : Packet := { Packet.init with ptype := pRESYNC, op := BitVec.ofNat 8 phase, src := 4, dst := 0 }
def announced (phase : Nat) (s : State) : State := s.modDie 0 fun d => { d with arrived := [resync4 phase] }
def cutOff : State := (List.range 16).foldl (fun s p => if s.link p = LinkPort.init then s.modLink p fun l => { l with dead := true } else s) bare

theorem witness_DiesRemovedAndResynchronised :
    ((bare.die 1).removed = false ∧ (without1.die 1).removed = true ∧ connected bare 1 = true ∧ connected cutOff 1 = false) ∧
      mayStart bare = true ∧
      (let s := announced 1 (phased 0 4 1)
       mayStart s = false ∧ findResync s 1 = some (0, 0, resync4 1) ∧ (s.die 4).removed = false ∧ (resync4 1).gen = (s.die 0).gen) ∧
      (liveDies (phased 1 4 1)).find? (fun d => settledDie (phased 1 4 1) d) = some 0 ∧
      (let s := { phased 2 4 2 with resync := { Resync.init with reports := (List.range 6).map fun d => (d, []) } }
       (liveDies s).find? (fun d => settledDie s d) = none ∧ liveDies s ≠ [] ∧ allReported s = true) ∧
      (let s := announced 2 (phased 2 4 2)
       allReported s = false ∧ findResync s 2 = some (0, 0, resync4 2)) ∧
      (let s := { phased 2 4 2 with resync := { Resync.init with cleared := [4] } }
       (s.die (fabricDie s)).phase = 2 ∧ fabricDie s ∈ s.resync.cleared) ∧
      (let s := announced 3 (phased 2 4 3)
       (s.die (fabricDie s)).phase ≠ 2 ∧ findResync s 3 = some (0, 0, resync4 3) ∧ 0 ≠ fabricDie s) ∧
      (let s := (phased 3 4 3).modDie 4 fun d => { d with arrived := [{ resync4 3 with src := 0, dst := 4 }] }
       findResync s 3 = some (4, 0, { resync4 3 with src := 0, dst := 4 }) ∧ fabricDie s = 4 ∧ (s.die 0).removed = false) ∧
      (let s := { phased 3 4 3 with resync := { Resync.init with cleared := List.range 6 } }
       liveDies s ≠ [] ∧ allCleared s = true) ∧
      (let s := announced 4 (phased 3 4 0)
       allCleared s = false ∧ findResync s 4 = some (0, 0, resync4 4)) ∧
      (∀ d ∈ liveDies without1, (without1.die d).phase = 0) ∧ (without1.die 1).mayRejoin = false ∧
        ((without1.modDie 1 fun d => { d with mayRejoin := true }).die 1).mayRejoin = true := by decide +kernel

/-- A barrier message to square 0 of die 0, alone, and the square open for two with one arrival of die 0. -/
def bar1 (op n : Nat) : BarMsg := { op := op, square := 0, die := 0, core := 0, chan := 0, n := n, ok := false, after := 0 }
def atBar (m : BarMsg) (q : Square) : State := { bare with barMsgs := [m], squares := [(0, q)] }
def opened : Square := { Square.init with isOpen := true, nexp := 2, arr := 1, cnt := [(0, 1)], who := [(0, 0, 0)] }
/-- An invalidation of one page of address 0 in progress, die 0 having dropped its entries. -/
def inv1 : Inval := { Inval.init with source := 0, busy := true, pages := 1, left := [0], dropped := [0], sentAt := [(0, 1)] }
/-- Die 1 with an INV packet of die 0, die 0 with the INVACK of die 1. -/
def invPkt (t : Byte) (src dst : Nat) : Packet := { Packet.init with ptype := t, src := src, dst := dst, data := List.replicate 12 0 }
def inving : State :=
  (({ bare with inval := { inv1 with left := [0, 1], sentAt := [(0, 1), (1, 1)] } } : State).modDie 1 fun d => { d with arrived := [invPkt pINV 0 1] }).modDie 0
    fun d => { d with arrived := [invPkt pINVACK 1 0] }

theorem witness_BarriersAndInvalidations :
    (let s := atBar (bar1 0 2) Square.init
     s.barMsgs[0]? = some (bar1 0 2) ∧ squareTurn s 0 (bar1 0 2) = true ∧ (s.square 0).isOpen = false ∧ (s.square 0).arr + 1 ≠ 2) ∧
    (let s := atBar (bar1 0 3) opened
     squareTurn s 0 (bar1 0 3) = true ∧ (s.square 0).isOpen = true ∧ (s.square 0).nexp ≠ BitVec.ofNat 16 3) ∧
    (let s := atBar (bar1 0 2) opened
     squareTurn s 0 (bar1 0 2) = true ∧ (s.square 0).nexp = 2 ∧ (s.square 0).arr + 1 = 2) ∧
    (let s := atBar (bar1 2 1) opened
     squareTurn s 0 (bar1 2 1) = true ∧ (s.square 0).isOpen = true ∧ (s.square 0).who = [] ++ ((0, 0, 0) : Nat × Nat × Nat) :: []) ∧
    (let s := atBar { bar1 2 1 with chan := 3 } opened
     squareTurn s 0 { bar1 2 1 with chan := 3 } = true ∧ (s.square 0).who.all (fun x => !(x.1 == 0 && x.2.1 == 0 && x.2.2 == 3)) = true) ∧
    squareTurn (atBar (bar1 2 1) Square.init) 0 (bar1 2 1) = true ∧
    (dieTurn (atBar (bar1 1 1) opened) 0 (bar1 1 1) = true ∧ dieTurn (atBar (bar1 3 1) opened) 0 (bar1 3 1) = true ∧
      dieTurn { bare with barMsgs := [bar1 3 2, bar1 1 1] } 1 (bar1 1 1) = false ∧ (bar1 3 1).chan ≠ 255 ∧ ({ bar1 3 1 with chan := 255 } : BarMsg).chan = 255) ∧
    (let s := { bare with inval := inv1, pace := 10000 }
     bare.inval.busy = false ∧ s.inval.busy = true ∧ 0 ∈ s.inval.left ∧ 0 ∈ s.inval.dropped ∧ invSettled s 0 = true ∧ s.inval.left.erase 0 = [] ∧
       s.inval.source = 0 ∧ arrivedIdx s 0 pINVACK 0 = none ∧ s.frames = []) ∧
    (let s := inving
     1 ≠ s.inval.source ∧ (List.range 6).findSome? (fun src => arrivedIdx s 1 pINV src) = some 0 ∧ (s.die 1).arrived[0]? = some (invPkt pINV 0 1) ∧
       (s.die 0).removed = false ∧ (s.die 1).removed = false ∧ (invPkt pINV 0 1).gen = (s.die 1).gen ∧
       arrivedIdx s 0 pINVACK 1 = some 0 ∧ (s.die 0).arrived[0]? = some (invPkt pINVACK 1 0) ∧ (invPkt pINVACK 1 0).gen = (s.die 0).gen ∧
       (invPkt pINVACK 1 0).tag = BitVec.ofNat 16 s.inval.n ∧ tget 0 s.inval.sentAt 1 - 1 + 10000 ≤ ({ s with pace := 10000 } : State).pace.toNat ∧
       s.pace.toNat < tget 0 s.inval.sentAt 1 - 1 + 10000) ∧
    (let s := { bare with inval := { inv1 with left := [0, 1] } }
     s.inval.left.erase 0 ≠ [] ∧ 1 ∈ s.inval.left ∧ 1 ∉ s.inval.dropped ∧ 1 ≠ s.inval.source) ∧
    (let s := { bare with inval := { inv1 with dropped := [] } }
     s.inval.source = 0 ∧ 0 ∈ s.inval.left ∧ 0 ∉ s.inval.dropped) := by
  refine ⟨?_, ?_, ?_, ?_, ?_, ?_, ?_, ?_⟩ <;> decide +kernel

/-- `bare` with power. -/
def powered : State := { bare with powered := true }
/-- `bare` once a host port has trained, and once steps 1 and 2 of the boot have run. -/
def trained : State := { bare with regs := { bare.regs with bootstat := 0x0201 } }
def started : State := { bare with regs := { bare.regs with bootstat := 0x0301 } }

/-- Device memory that maps the first GiB by a page with SA = 1, or with WB = 1. -/
abbrev leafed (s : State) (leaf : Nat) : State := { s with mem := mwrite s.mem (hashKey 0x2000) (natLe 8 leaf) }

/-- The read of a split atomic on the word at 0x2000 ends without an error. -/
def splits (s : State) : Bool :=
  match crossRead s (hostPortDie false) (keyDie (hashKey 0x2000)) 8 with
  | some t => (homeRead t false (hashKey 0x2000) 8).2 == 0
  | none => false

theorem witness_HostAccesses :
    (powered.powered = true ∧ 0x1000 + 8 ≤ Config.deviceBytes ∧ 0x1000 / 256 = (0x1000 + 8 - 1) / 256 ∧ 0x1000 + 8 ≤ 2 ^ bar2Log powered false ∧
      (List.replicate 8 (0 : Byte)).length = 8) ∧
    bare.powered = false ∧ (portsUp bare = false ∧ portsUp trained = true) ∧ 2 ^ bar2Log powered false < 2 ^ 39 + 8 ∧ 0x180 % 8 = 0 ∧
      (hostWindow powered false ⟨.memory, 0x2000⟩ 8 = true ∧ 0x2000 % 8 = 0) ∧
      pageSa (leafed { paged 0x20000 0 with powered := true } 0x0010000000000123) 0x20000 ⟨0, 0x20000⟩ = true ∧
      (pageSa powered 0x2000 ⟨0, 0⟩ = false ∧ tracked powered false < 64 ∧ hostSettled powered false (hashKey 0x2000) = true ∧
        (powered.die (keyDie (hashKey 0x2000))).removed = false ∧ splits powered = true) ∧
      (let x : SplitAtomic := { port := false, addr := hashKey 0x2000, len := 8, old := 5 }
       let s := { powered with splits := [x] }
       s.splits.find? (fun x => x.port == false && x.addr == hashKey 0x2000 && x.len == 8) = some x ∧
         (crossWrite powered (hostPortDie false) (keyDie (hashKey 0x2000)) 8 false).isSome = true ∧ (9 : BitVec 4).toNat < 10) ∧
      64 ≤ tracked { powered with splits := List.replicate 64 { port := false, addr := 0, len := 8, old := 0 } } false ∧
      powered.splits.find? (fun x => x.port == false && x.addr == hashKey 0x2000 && x.len == 8) = none := by
  decide +kernel

theorem witness_DeviceRegisterWrites :
    (portsUp bare = false ∧ portsUp trained = true) ∧ (1 : Word).getLsbD 0 = true ∧ (30 ≤ (39 : Word).toNat ∧ (39 : Word).toNat ≤ 39) ∧ ((0x10001 : Word).extractLsb' 16 32 = 1 ∧ (1 : Word).extractLsb' 16 32 = 0) ∧ bare.powered = false ∧
      powered.powered = true ∧ powered.regs.session = false ∧
      ({ powered with regs := { powered.regs with session := true } } : State).regs.session = true ∧
      ((onCore fun k => { k with stopped := true }).core 0).stopped = true ∧ (bare.core 0).stopped = false := by decide +kernel

/-- Cluster 0 changed, at pace `n`. -/
abbrev atCluster (n : Nat) (f : Cluster → Cluster) : State := { bare.modCluster 0 f with pace := BitVec.ofNat 64 n }

theorem witness_PowerLevelsAndRamps :
    ({ bare with pace := 1000 } : State).pace.toNat / 1000 ≠ ({ bare with pace := 1000 } : State).window.toNat ∧
    (bare.regs.fwloss = false ∧ (bare.cluster 0).tripped = false ∧ (bare.cluster 0).ramping = false ∧ (bare.cluster 0).level = 0) ∧
    (let s := atCluster 1800 fun c => { c with ramping := true, target := 1 }
     (s.cluster 0).ramping = true ∧ 1800 ≤ (s.pace - (s.cluster 0).rampStart).toNat ∧ (s.cluster 0).pvalid = false ∧
       2048 ≤ (s.pace + BitVec.ofNat 64 248 - (s.cluster 0).rampStart).toNat) ∧
    (bare.cluster 0).lock = false ∧ rampLegal 0x0123456787654321 = true ∧ rampLegal 0 = true ∧ rampLegal 0x8 = false ∧
    ((atCluster 0 fun c => { c with tripped := true }).cluster 0).tripped = true ∧ (105 ≤ (105 : BitVec 16).toNat ∧ (105 : BitVec 16).toNat < 125) ∧
    (let s := { bare with pace := 10000000 }
     s.regs.fwloss = false ∧ 10000000 ≤ (s.pace - s.regs.lastBeat).toNat) ∧
    (let c := (atCluster 0 fun c => { c with level := 2 }).cluster 0
     c.tripped = false ∧ c.ramping = false ∧ c.level = 2) ∧
    (let c := (atCluster 0 fun c => { c with ramping := true, target := 2 }).cluster 0
     c.tripped = false ∧ c.ramping = true ∧ c.target = 2) ∧
    (bare.pace.toNat % 4 = 0 ∧ (bare.cluster 0).slewAt ≠ bare.pace + 1) := by decide +kernel

theorem witness_ResetBootAndReports :
    (startedUp trained = false ∧ startedUp started = true) ∧ ([0x0123456787654321] : List Word)[0]? = some 0x0123456787654321 ∧ rampLegal 0x0123456787654321 = true ∧ State.reset.regs.atdone = true ∧
      ({ bare with regs := { bare.regs with atdone := false } } : State).regs.atdone = false := by decide +kernel

/-- Port 0 with its engine enabled and linked, a key table at 0x30000 and queue pair 0 changed, over memory that maps the first GiB. -/
def onQp (f : Qp → Qp) (words : List (Nat × Word)) : State :=
  let m := words.foldl (fun m e => mwrite m (hashKey e.1) (natLe 8 e.2.toNat)) (tables 0x20000 0)
  ({ State.reset with mem := m }).modEth 0 fun e => { e with en := true, linkup := true, mkbase := 0x30000, mkcount := 1, qps := [(0, f Qp.init)] }

/-- Its send queue at 0x40000, receive queue at 0x41000, completions at 0x42000, doorbell line at 0x43000; one entry of each posted, the
receive entry of 64 bytes at 0x50000. -/
def rts (x : Qp) : Qp :=
  { x with state := 3, sqbase := 0x40000, rqbase := 0x41000, cqbase := 0x42000, dbva := 0x43000, sqpi := 1, rqpi := 1, watched := true }
def recv64 : List (Nat × Word) := [(0x41000, 0x50000), (0x41008, 64)]
/-- The key table entry: base 0, length 1 GiB, all accesses, key byte 0, every queue pair. -/
def keyAll : List (Nat × Word) := [(0x30000, 0), (0x30008, 0x40000000), (0x30010, 0xFFFFFFFF00000007)]
/-- A send entry of an opcode: 8 bytes at 0x50000, with completion. -/
def send8 (op : Word) : List (Nat × Word) := [(0x40000, 0x800000100 + op), (0x40008, 0x50000)]
def op8 (op : Nat) (comp : Bool) (status : Byte) : SendOp :=
  { idx := 0, op := op, comp := comp, len := 8, lva := 0x50000, raddr := 0, rkey := 0, imm := 0, psn := 0, packets := 1,
    head := { srcMac := 0, dstMac := 0, srcIp := 0, dstIp := 0, sport := 0, hops := 0, tclass := 0, dqpn := 0 }, data := [], status := status }

/-- The entry of an opcode may be sent, and its data read. -/
def sendable (op : Nat) : Bool :=
  let s := onQp rts (send8 (BitVec.ofNat 64 op))
  maySend (s.qp 0 0) && (s.qp 0 0).inflight.isEmpty &&
    match engRead s 0 0x40000 64 with
    | .ok r => sendEntry r.2 == { op := op, flags := 1, len := 8, lva := 0x50000, raddr := 0, rkey := 0, imm := 0, ok := true } && (engRead r.1 0 0x50000 8).toBool
    | .error _ => false

/-- The receive entry is 64 bytes at 0x50000, and after it has been read eight may be written there. -/
def receives (s : State) : Bool :=
  match recvEntry s 0 (s.qp 0 0) with
  | some (t, .ok e) => e == (0x50000, 64) && (engWrite t 0 0x50000 (List.replicate 8 1)).toBool
  | _ => false

/-- The entry of key 0 may be read, and then eight bytes at 0x50000 read and written. -/
def keyed (s : State) : Bool :=
  match keyRead s 0 0 with
  | some t => (engRead t 0 0x50000 8).toBool && (engWrite s 0 0x50000 (List.replicate 8 1)).toBool
  | none => false

/-- How an engine's write of a doorbell ends: done, refused, or waiting. -/
def lineEnds (s : State) : Option Bool :=
  match engWrite s 0 (s.qp 0 0).dbva (natLe 8 1) with
  | .ok _ => some true
  | .error (some _) => some false
  | .error none => none

theorem witness_QueuePairs :
    (let s := onQp id []
     (s.ethPort 0).en = true ∧ (s.qp 0 0).state = 0 ∧ ((State.reset.ethPort 0).en = false)) ∧
    ((onQp (fun x => { x with state := 1 }) []).qp 0 0).state = 1 ∧ ((onQp (fun x => { x with state := 2 }) []).qp 0 0).state = 2 ∧
    (let s := onQp rts []
     let x := s.qp 0 0
     x.state ≠ 0 ∧ (engWrite s 0 x.dbva (natLe 8 1)).toBool = true ∧ (engWrite s 0 (x.dbva + 8) (natLe 8 1)).toBool = true ∧
       (engWrite s 0 (x.dbva + 16) (natLe 8 1)).toBool = true ∧ x.watched = true ∧ x.stores = []) ∧
    (lineEnds (onQp rts []) = some true ∧ lineEnds (onQp (fun x => { rts x with dbva := 0x80000000 }) []) = some false ∧
      lineEnds (leafed (onQp rts []) 0x0010000000000223) = none ∧ ((onQp (fun x => { rts x with stores := [(0, 1)] }) []).qp 0 0).stores ≠ []) ∧
    (let s := { onQp (fun x => { rts x with watched := false }) [] with pace := 10000 }
     2 ≤ (s.qp 0 0).state.toNat ∧ (s.qp 0 0).watched = false ∧ 10000 ≤ (s.pace - (s.qp 0 0).lastRead).toNat) ∧
    (sendable 0 = true ∧ sendable 1 = true ∧ sendable 2 = true ∧ sendable 3 = true) ∧
    maySend Qp.init = false ∧
    (let x := (onQp (fun x => { rts x with inflight := [op8 0 true 0] }) []).qp 0 0
     x.inflight = op8 0 true 0 :: [] ∧ x.state ≠ 4 ∧ cqFull x = false ∧ (op8 0 true 0).status = 0 ∧ (op8 0 true 0).op ≠ 3 ∧ (op8 0 false 0).comp = false) ∧
    (let s := { onQp (fun x => { rts x with inflight := [op8 0 true 0] }) [] with pace := 4096 }
     let x := s.qp 0 0
     x.state = 3 ∧ x.notReady = none ∧ ackTimeout x ≤ (s.pace - x.since).toNat ∧ (x.retryCfg.extractLsb' 8 3).toNat ≤ x.retries) ∧
    (let s := { onQp (fun x => { rts x with inflight := [op8 0 true 0], notReady := some 10000, retryCfg := 0x1000 }) [] with pace := 10000 }
     let x := s.qp 0 0
     x.notReady = some 10000 ∧ 10000 ≤ (s.pace - x.since).toNat ∧ x.unready < (x.retryCfg.extractLsb' 12 3).toNat ∧
       (Qp.init.retryCfg.extractLsb' 12 3).toNat ≤ Qp.init.unready) ∧
    (let x := (onQp (fun x => { rts x with state := 4, inflight := [op8 0 true 0] }) []).qp 0 0
     x.state = 4 ∧ cqFull x = false) ∧
    (let x := (onQp (fun x => { rts x with retryCfg := 0x100 }) []).qp 0 0
     x.retries < (x.retryCfg.extractLsb' 8 3).toNat) ∧
    (let s := onQp rts recv64
     let x := s.qp 0 0
     mayReceive s 0 0 = true ∧ x.rqci ≠ x.rqpi ∧ receives s = true ∧ (List.replicate 65 (1 : Byte)).length = 65 ∧ mayReceive State.reset 0 0 = false ∧
       ((onQp (fun x => { rts x with rqpi := 0 }) []).qp 0 0).rqci = ((onQp (fun x => { rts x with rqpi := 0 }) []).qp 0 0).rqpi) ∧
    (let s := onQp rts keyAll
     keyAllows s 0 0 0 2 0x50000 8 = true ∧ keyAllows s 0 0 0 1 0x50000 8 = true ∧ keyAllows s 0 0 1 2 0x50000 8 = false ∧
       keyAllows s 0 0 1 1 0x50000 8 = false ∧ keyed s = true) := by
  decide +kernel

/-! ### Witnesses: a LAUNCH record, a step that keeps memory canonical -/

/-- A LAUNCH record with QMAX 1 and zeros (R396). -/
def record1 : List Byte := List.replicate 22 0 ++ [1, 0] ++ List.replicate 104 0

theorem witness_launch_of_GraphNodesAndQueue :
    (let s := paged 0x10010 0x0001000000000000
     readVa s s.regs.gptr 0x10000 128 = .ok record1) ∧ recordOk record1 = true ∧ recFollow record1 = false ∧ nodeOk (gf 0 0x10000 0 0) = true ∧
      (gf 0 0x10000 0 0).state.extractLsb' 40 9 = 0 := by
  decide +kernel

/-- A step of core 0 at its first instruction keeps both memories canonical. -/
theorem witness_StepKeepsMemoryCanonical :
    bare.memOk = true ∧ (match step { bare with sched := [.seq 0] } with | .next t => t.memOk | _ => false) = true := by decide +kernel

/-! ### Decoding: words written out from the tables of the spec -/

/-- The scalar words (R43 to R53): match bits and field places of the opcode table, written out with distinct fields. -/
theorem test_decode_scalar_a : ([
    (0x04A63800, .add 5 6 7), (0x04A63801, .sub 5 6 7), (0x04A63802, .and 5 6 7),
    (0x04A63803, .or 5 6 7), (0x04A63804, .xor 5 6 7), (0x04A63805, .sll 5 6 7),
    (0x04A63806, .srl 5 6 7), (0x04A63807, .sra 5 6 7), (0x04A63808, .slt 5 6 7),
    (0x04A63809, .sltu 5 6 7), (0x08A68004, .addi 5 6 0x8004), (0x0CA68004, .andi 5 6 0x8004),
    (0x10A68004, .ori 5 6 0x8004), (0x14A68004, .xori 5 6 0x8004), (0x18A60009, .slli 5 6 9),
    (0x1CA60009, .srli 5 6 9), (0x20A60009, .srai 5 6 9), (0x24A68004, .slti 5 6 0x8004),
    (0x28A68004, .sltiu 5 6 0x8004), (0x2CA08004, .lui 5 0x8004), (0x30A63800, .mul 5 6 7),
    (0x30A63801, .mulh 5 6 7), (0x30A63802, .mulhu 5 6 7), (0x30A63803, .div 5 6 7),
    (0x30A63804, .divu 5 6 7), (0x30A63805, .rem 5 6 7), (0x30A63806, .remu 5 6 7),
    (0x34A60628, .bfx 5 6 12 20), (0x34A62628, .bfxs 5 6 12 20), (0x34A64628, .bfi 5 6 12 20)] : List (W32 × Instr)).all (fun e => decide (decode [e.1] = .ok e.2)) = true := by decide +kernel

/-- The scalar words (R43 to R53): match bits and field places of the opcode table, written out with distinct fields. -/
theorem test_decode_scalar_b : ([
    (0x34A07000, .widx 5 4), (0x34A68000, .clz 5 6), (0x34A6A000, .ctz 5 6),
    (0x34A6C000, .popc 5 6), (0x40A68004, .ldlD 5 6 0x8004), (0x44A68004, .ldlW 5 6 0x8004),
    (0x48A68004, .stlD 5 6 0x8004), (0x4CA68004, .stlW 5 6 0x8004), (0x50A68004, .ldgD 5 6 0x8004),
    (0x54A68004, .ldgW 5 6 0x8004), (0x58A68004, .stgD 5 6 0x8004), (0x5CA68004, .stgW 5 6 0x8004),
    (0x60C77FF0, .beq 6 7 0x7ff0), (0x64C77FF0, .bne 6 7 0x7ff0), (0x68C77FF0, .blt 6 7 0x7ff0),
    (0x6CC77FF0, .bge 6 7 0x7ff0), (0x70C77FF0, .bltu 6 7 0x7ff0), (0x74C77FF0, .bgeu 6 7 0x7ff0),
    (0x783FFFD3, .jal 1 0x1fffd3), (0x7CA68004, .jalr 5 6 0x8004), (0x8230000B, .loop 2 6 11),
    (0x8606400B, .loopi 2 0x64 11), (0x88000000, .done), (0x88000001, .waith),
    (0x88063802, .post 6 7), (0x88060003, .hmask 6), (0x88060004, .hunmask 6),
    (0x8CA00023, .mfs 5 35), (0x8C060209, .mts 6 9), (0x90000008, .fence 2)] : List (W32 × Instr)).all (fun e => decide (decode [e.1] = .ok e.2)) = true := by decide +kernel

/-- The scalar words (R43 to R53): match bits and field places of the opcode table, written out with distinct fields. -/
theorem test_decode_scalar_c : ([
    (0x90060010, .barr 6), (0x90A60028, .ldgAcq 5 6 2), (0x90063838, .stgRel 6 7 2),
    (0x90A60040, .locq 5 6), (0x94000000, .phintComp), (0x94000001, .phintMem),
    (0x94000002, .phintWait), (0x94000103, .decideImm 3), (0x94060104, .decideReg 6),
    (0x94060200, .pref 6), (0xC000002A, .trap 42), (0xC0000100, .tret),
    (0xC0000200, .ebrk)] : List (W32 × Instr)).all (fun e => decide (decode [e.1] = .ok e.2)) = true := by decide +kernel

/-- The layer-2 commands: CLASS and FUNC of R61, MOD and ARG of R216, R231, R316, R342, R343, R359, R360, R376 and R295. -/
theorem test_decode_command_a : ([
    (0x01001609000000005566778811223344, .talloc 2 true 2 9 0x11223344 0x55667788), (0x01010009000000000000000000000000, .tfree 9), (0x01020009000000000000000011223344, .tring 9 0x11223344),
    (0x01030109000000000000000000000000, .townEngine 9), (0x01030009000000000000000000000000, .townSeq 9), (0x01040009000000000000000011223344, .advp 9 0x11223344),
    (0x01050009000000000000000011223344, .advc 9 0x11223344), (0x01060009000000000000000011223344, .twaitFill 9 0x11223344), (0x01060109000000000000000011223344, .twaitFree 9 0x11223344),
    (0x01070009000000000000000000000000, .tzero 9), (0x01080009000000000000000000000000, .tstat 9), (0x02000035000012345566778811223344, .splev 5 3 0x5566778811223344 0x1234),
    (0x02010005000000005566778811223344, .spbaseTile 5 0x11223344 0x55667788), (0x02010105000000005566778811223344, .spbaseVa 5 0x5566778811223344), (0x02025B05000000005566778811223344, .spmode 5 0x5B 0x11223344 0x55667788),
    (0x020301A5000000000000000011223344, .spgo 5 true 10 0x11223344), (0x02040005000000000000000000000000, .spclose 5), (0x02050005000000000000000000000000, .spqryLo 5),
    (0x02050105000000000000000000000000, .spqryHi 5), (0x02050205000000000000000000000000, .spqrySt 5 false), (0x02060045000000005566778811223344, .spwid 5 4 0x5566778811223344),
    (0x0300A500000012345566778811223344, .mma 2 true false false 5 0x11223344 0x55667788 0x1234), (0x03016BC5000012345566778811223344, .mmag 1 true false true 3 5 12 0x11223344 0x55667788 0x1234), (0x0302E200000012345566778811223344, .mmv 3 true 2 0x11223344 0x55667788 0x1234),
    (0x0303410D000012345566778811223344, .mcoop 1 false 1 true 6 0x11223344 0x55667788 0x1234), (0x0304C000000000000000000011223344, .aclr 3 0x11223344)] : List (Cmd128 × Instr)).all (fun e => decide (decodeCommand e.1 = .ok e.2)) = true := by decide +kernel

/-- The layer-2 commands: CLASS and FUNC of R61, MOD and ARG of R216, R231, R316, R342, R343, R359, R360, R376 and R295. -/
theorem test_decode_command_b : ([
    (0x03059A00000000000000000011223344, .ard 2 true true true false 0x11223344 0), (0x03058100000000005566778811223344, .ard 2 false false false true 0x11223344 0x55667788), (0x03064000000000005566778811223344, .awr 1 0x11223344 0x55667788),
    (0x04008200000012345566778811223344, .ktopk true false 2 0x11223344 0x55667788 0x1234), (0x04014500000012345566778811223344, .ksort false true true 1 0x11223344 0x55667788 0x1234), (0x04028400000012345566778811223344, .khist true false true 0x11223344 0x55667788 0x1234),
    (0x04034600000012345566778811223344, .kscan false true true 2 0x11223344 0x55667788 0x1234), (0x04042900000012345566778811223344, .kmerge 2 true 1 0x11223344 0x55667788 0x1234), (0x04050000000012345566778811223344, .kpermG 0x11223344 0x55667788 0x1234),
    (0x04050400000012345566778811223344, .kpermS 0x11223344 0x55667788 0x1234), (0x0500632A000000005566778811223344, .cpy 1 2 true true 10 2 0x11223344 0x55667788), (0x0501120A000000005566778811223344, .cpyx 0 1 false true 10 0 0x11223344 0x55667788),
    (0x0502911A000012345566778811223344, .cpyf 2 true 10 1 0x11223344 0x55667788 0x1234), (0x0503410A000012345566778811223344, .csig 1 0 true 10 0 0x11223344 0x55667788 0x1234), (0x06000109000000005566778811223344, .cgrp true 9 0x11223344 0x55667788),
    (0x06000209000000005566778811223344, .cgrpFree false 9 0x11223344 0x55667788), (0x06010209000000000000000011223344, .a2av 2 9 0x11223344), (0x06020309000000005566778811223344, .agth 3 9 0x11223344 0x55667788),
    (0x06030609000000005566778811223344, .rsct 2 1 9 0x11223344 0x55667788), (0x06040909000000005566778811223344, .ared 1 2 9 0x11223344 0x55667788), (0x0700B800000012345566778811223344, .amo 2 true true 8 0x5566778811223344 0x1234),
    (0x07015000000012345566778811223344, .amoc 1 true 0x5566778811223344 0x1234), (0x07028100000012345566778811223344, .red 2 false false 1 0x5566778811223344 0x1234), (0x0703852A000012345566778811223344, .redv 2 5 0x2A 0x5566778811223344 0x1234)] : List (Cmd128 × Instr)).all (fun e => decide (decodeCommand e.1 = .ok e.2)) = true := by decide +kernel

/-- A node's fields: MODS, targets, CIDX, ER, EP, IMM; EL is 1, the rest 0 (R63). -/
abbrev nd (mods : BitVec 6) (a b : BitVec 15) (c : BitVec 6) (er ep imm : Bool) : NodeFields :=
  { mods := mods, tgta := a, tgtb := b, cidx := c, el := true, er := er, ep := ep, imm := imm, rsteoi := false, dual := false, brk := false,
    brkn := 0 }

/-- The node words: opcodes of R67, fields of R63, inputs and targets that the rule tables of R146, R171 and R217 ask for. -/
theorem test_decode_node_a : ([
    (0x00001848000C0E01, .fadd (nd 0 0xc24 0x3 0 true true false)), (0x00401849F0149901, .fsub (nd 0 0xc24 0x7c05 9 false false true)), (0x00801848000C0E01, .fmul (nd 0 0xc24 0x3 0 true true false)),
    (0x00C01848000C9B01, .ffma (nd 0 0xc24 0x3 9 false true true)), (0x01001848000C0E01, .fmax (nd 0 0xc24 0x3 0 true true false)), (0x01401849F0149901, .fmin (nd 0 0xc24 0x7c05 9 false false true)),
    (0x01801848000C0A01, .fabs (nd 0 0xc24 0x3 0 false true false)), (0x01C01848000C0A01, .fneg (nd 0 0xc24 0x3 0 false true false)), (0x02001848000C0E01, .fcmp (nd 0 0xc24 0x3 0 true true false)),
    (0x02401848000C0A01, .frnd (nd 0 0xc24 0x3 0 false true false)), (0x02801848000C0A01, .fcls (nd 0 0xc24 0x3 0 false true false)), (0x04001848000C0A01, .frcp (nd 0 0xc24 0x3 0 false true false)),
    (0x04401848000C0A01, .frsq (nd 0 0xc24 0x3 0 false true false)), (0x04801848000C0A01, .fexp2 (nd 0 0xc24 0x3 0 false true false)), (0x04C01848000C0A01, .flog2 (nd 0 0xc24 0x3 0 false true false)),
    (0x08001848000C0E01, .iadd (nd 0 0xc24 0x3 0 true true false)), (0x08401849F0149901, .isub (nd 0 0xc24 0x7c05 9 false false true)), (0x08801849F0149901, .imul (nd 0 0xc24 0x7c05 9 false false true)),
    (0x08C01848000C0E01, .imax (nd 0 0xc24 0x3 0 true true false)), (0x09001849F0149901, .imin (nd 0 0xc24 0x7c05 9 false false true))] : List (Word × Instr)).all (fun e => decide (decodeNode e.1 = .ok e.2)) = true := by decide +kernel

/-- The node words: opcodes of R67, fields of R63, inputs and targets that the rule tables of R146, R171 and R217 ask for. -/
theorem test_decode_node_b : ([
    (0x09401848000C0E01, .icmp (nd 0 0xc24 0x3 0 true true false)), (0x09801848000C0A01, .iabs (nd 0 0xc24 0x3 0 false true false)), (0x0C001849F0149901, .nodeAnd (nd 0 0xc24 0x7c05 9 false false true)),
    (0x0C401848000C0E01, .nodeOr (nd 0 0xc24 0x3 0 true true false)), (0x0C801849F0149901, .nodeXor (nd 0 0xc24 0x7c05 9 false false true)), (0x0CC01848000C0E01, .andn (nd 0 0xc24 0x3 0 true true false)),
    (0x0E001849F0149901, .shl (nd 0 0xc24 0x7c05 9 false false true)), (0x0E401848000C0E01, .shr (nd 0 0xc24 0x3 0 true true false)), (0x0E801849F0149901, .sar (nd 0 0xc24 0x7c05 9 false false true)),
    (0x10001848000C0C01, .lshuf (nd 0 0xc24 0x3 0 true false false)), (0x10401849F0149901, .lrot (nd 0 0xc24 0x7c05 9 false false true)), (0x10801849F0149901, .lbcast (nd 0 0xc24 0x7c05 9 false false true)),
    (0x14001849F0140801, .lsum (nd 0 0xc24 0x7c05 0 false false false)), (0x14401849F0140801, .lmax (nd 0 0xc24 0x7c05 0 false false false)), (0x14801849F0140801, .lmin (nd 0 0xc24 0x7c05 0 false false false)),
    (0x40201848000C0801, .cvt (nd 32 0xc24 0x3 0 false false false)), (0x40481848000C0C01, .pack (nd 8 0xc24 0x3 0 true false false)), (0x40901848000C0801, .unpack (nd 16 0xc24 0x3 0 false false false)),
    (0x60000007F0140A01, .steer (nd 0 0x3 0x7c05 0 false true false)), (0x60401848000C0E01, .merge (nd 0 0xc24 0x3 0 true true false))] : List (Word × Instr)).all (fun e => decide (decodeNode e.1 = .ok e.2)) = true := by decide +kernel

/-- The node words: opcodes of R67, fields of R63, inputs and targets that the rule tables of R146, R171 and R217 ask for. -/
theorem test_decode_node_c : ([
    (0x60801848000C0E01, .carry (nd 0 0xc24 0x3 0 true true false)), (0x60C01848000C9B01, .select (nd 0 0xc24 0x3 9 false true true)), (0x61001848000C0A01, .gate (nd 0 0xc24 0x3 0 false true false)),
    (0x61401848000C0E01, .join (nd 0 0xc24 0x3 0 true true false)), (0x61801849F0140801, .dup (nd 0 0xc24 0x7c05 0 false false false)), (0x61C00006000C0801, .sink (nd 0 0x3 0x3 0 false false false)),
    (0x62011848000F0801, .const (nd 1 0xc24 0x3 48 false false false)), (0x62401848000C9901, .count (nd 0 0xc24 0x3 9 false false true)), (0x70031848000C0C01, .maddr (nd 3 0xc24 0x3 0 true false false)),
    (0x70501848000C4801, .mload (nd 16 0xc24 0x3 4 false false false)), (0x70800006000C4C01, .mstore (nd 0 0x3 0x3 4 true false false)), (0x70CA1848000C4E01, .matom (nd 10 0xc24 0x3 4 true true false)),
    (0x71080006000C4C01, .mred (nd 8 0x3 0x3 4 true false false)), (0x71401848000FE801, .gload (nd 0 0xc24 0x3 62 false false false)), (0x71901848000C4C01, .gstore (nd 16 0xc24 0x3 4 true false false)),
    (0x80001848000C0C01, .cmpr (nd 0 0xc24 0x3 0 true false false)), (0x80401848000C0801, .csum (nd 0 0xc24 0x3 0 false false false)), (0x80851848000C0801, .trace (nd 5 0xc24 0x3 0 false false false))] : List (Word × Instr)).all (fun e => decide (decodeNode e.1 = .ok e.2)) = true := by decide +kernel

/-- The task-graph nodes: TYPE in the lowest byte, four successors, the body (R389). -/
theorem test_decode_graph : ([
    (0x1c000000000000001800000000000000140000000000000010000000000000000c00000000000000080000000000000004000aabbcc00000701, .launch { state := 0x00AABBCC000007, succ0 := 0x40, succ1 := 0x80, succ2 := 0xC0, succ3 := 0x100, body0 := 0x140, body1 := 0x180, body2 := 0x1C0 }), (0x1c000000000000001800000000000000140000000000000010000000000000000c00000000000000080000000000000004000aabbcc00000702, .graphCond { state := 0x00AABBCC000007, succ0 := 0x40, succ1 := 0x80, succ2 := 0xC0, succ3 := 0x100, body0 := 0x140, body1 := 0x180, body2 := 0x1C0 }), (0x1c000000000000001800000000000000140000000000000010000000000000000c00000000000000080000000000000004000aabbcc00000703, .graphWhile { state := 0x00AABBCC000007, succ0 := 0x40, succ1 := 0x80, succ2 := 0xC0, succ3 := 0x100, body0 := 0x140, body1 := 0x180, body2 := 0x1C0 }),
    (0x1c000000000000001800000000000000140000000000000010000000000000000c00000000000000080000000000000004000aabbcc00000704, .waitm { state := 0x00AABBCC000007, succ0 := 0x40, succ1 := 0x80, succ2 := 0xC0, succ3 := 0x100, body0 := 0x140, body1 := 0x180, body2 := 0x1C0 }), (0x1c000000000000001800000000000000140000000000000010000000000000000c00000000000000080000000000000004000aabbcc00000705, .signal { state := 0x00AABBCC000007, succ0 := 0x40, succ1 := 0x80, succ2 := 0xC0, succ3 := 0x100, body0 := 0x140, body1 := 0x180, body2 := 0x1C0 }), (0x1c000000000000001800000000000000140000000000000010000000000000000c00000000000000080000000000000004000aabbcc00000706, .graphJoin { state := 0x00AABBCC000007, succ0 := 0x40, succ1 := 0x80, succ2 := 0xC0, succ3 := 0x100, body0 := 0x140, body1 := 0x180, body2 := 0x1C0 }),
    (0x1c000000000000001800000000000000140000000000000010000000000000000c00000000000000080000000000000004000aabbcc00000707, .graphEnd { state := 0x00AABBCC000007, succ0 := 0x40, succ1 := 0x80, succ2 := 0xC0, succ3 := 0x100, body0 := 0x140, body1 := 0x180, body2 := 0x1C0 })] : List (BitVec 512 × Instr)).all (fun e => decide (decodeGraph e.1 = .ok e.2)) = true := by decide +kernel

/-! ### Well-formedness: one ill-formed term for each check, and its well-formed neighbour -/

theorem test_wf_scalar :
    wf (.bfx 1 2 44 20) = false ∧ wf (.bfxs 1 2 63 1) = false ∧ wf (.bfi 1 2 60 4) = false ∧ wf (.bfi 1 2 60 3) = true ∧
      wf (.widx 1 6) = false ∧ wf (.widx 1 5) = true ∧ wf (.loop 3 1 4) = false ∧ wf (.loop 0 1 0) = false ∧ wf (.loop 2 1 1) = true ∧
      wf (.loopi 3 1 4) = false ∧ wf (.loopi 0 1 0) = false ∧ wf (.mfs 1 3) = false ∧ wf (.mfs 1 32) = true ∧ wf (.mts 1 16) = false ∧
      wf (.mts 1 10) = true ∧ wf (.issue 5 1 0 0 false false false false 0) = false ∧ wf (.issue 5 0 1 0 false false true false 0) = false ∧
      wf (.issue 5 0 0 1 false false true false 0) = false ∧ wf (.issue 5 1 0 0 false false false true 0) = false ∧
      wf (.issue 5 1 0 0 false true true true 0) = false ∧ wf (.issue 5 1 0 0 false false true true 0) = true := by decide +kernel

theorem test_wf_command :
    wf (.mma 0 false false false 6 0 0 0) = false ∧ wf (.mma 0 false false true 0 0 1 0) = false ∧ wf (.mma 0 false true false 0 0 0 1) = false ∧
      wf (.mmag 0 false false false 0 0 1 0 0 0) = false ∧ wf (.mmag 0 false false true 0 0 1 0 0 0) = true ∧ wf (.mmag 0 false true true 0 0 1 0 0 1) = false ∧
      wf (.mmv 0 false 7 0 0 0) = false ∧ wf (.mcoop 0 false 6 false 0 0 0 0) = false ∧ wf (.ard 0 true false false true 0 0) = false ∧
      wf (.ard 0 false false false false 0 1) = false ∧ wf (.ktopk false false 3 0 0 0) = false ∧ wf (.ksort false false false 3 0 0 0) = false ∧
      wf (.kscan false false false 3 0 0 0) = false ∧ wf (.kmerge 0 false 3 0 0 0) = false ∧ wf (.cpy 3 0 false false 0 0 0 0) = false ∧
      wf (.cpy 0 3 false false 0 0 0 0) = false ∧ wf (.cpy 2 2 false false 0 0 0 0) = false ∧ wf (.cpy 0 0 false false 0 1 0 0) = false ∧
      wf (.cpy 0 1 true false 0 0 0 0) = false ∧ wf (.cpy 0 2 true false 0 1 0 0) = true ∧ wf (.cpyx 2 0 false false 0 0 0 0) = false ∧
      wf (.cpyf 0 false 0 0 0 0 1) = false ∧ wf (.csig 0 2 false 0 0 0 0 0) = false ∧ wf (.rsct 0 0 0 0 0) = false ∧ wf (.rsct 1 3 0 0 0) = false ∧
      wf (.ared 3 0 0 0 0) = false ∧ wf (.amo 0 false false 10 0 0) = false ∧ wf (.amo 0 true true 1 0 0) = false ∧ wf (.amo 0 false true 0 0 0) = false ∧
      wf (.amo 0 true false 0 0 0x8000) = false ∧ wf (.amo 3 false false 9 0 0) = true ∧ wf (.amoc 0 false 0 0x8000) = false ∧
      wf (.red 1 false false 0 0 0) = false ∧ wf (.red 0 false false 9 0 0) = false ∧ wf (.redv 3 0 0 0 0) = false ∧ wf (.redv 0 9 0 0 0) = false := by
  decide +kernel

theorem test_wf_node :
    let on := fun (f : NodeFields → NodeFields) => f (nd 0 0x0C24 3 0 true false false)
    wf (.fadd (on id)) = true ∧ wf (.fadd (on fun n => { n with brkn := 1 })) = false ∧ wf (.fadd (on fun n => { n with tgtb := 7 })) = false ∧
      wf (.fadd (on fun n => { n with imm := true })) = false ∧ wf (.fadd (on fun n => { n with cidx := 1 })) = false ∧
      wf (.fadd (on fun n => { n with el := false })) = false ∧ wf (.fadd (on fun n => { n with tgta := 3 })) = false ∧
      wf (.fadd (on fun n => { n with mods := 0x30 })) = false ∧ wf (.fadd (on fun n => { n with er := false })) = false ∧
      wf (.ffma (on id)) = false ∧ wf (.fabs (on id)) = false ∧ wf (.icmp (on fun n => { n with mods := 6 })) = false ∧
      wf (.lshuf (on fun n => { n with ep := true })) = false ∧ wf (.lsum (nd 0x18 0x0C24 3 0 false false false)) = false ∧
      wf (.cvt (nd 0x10 0x0C24 3 0 true false false)) = false ∧ wf (.pack (on id)) = false ∧ wf (.steer (nd 0 3 3 0 false true false)) = false ∧
      wf (.carry (nd 1 0x0C24 3 0 true true false)) = false ∧ wf (.join (nd 0 0x0C24 3 0 false false false)) = false ∧
      wf (.dup (nd 0 0x0C24 3 0 false false false)) = false ∧ wf (.sink (on id)) = false ∧ wf (.const (nd 1 0x0C24 3 49 false false false)) = false ∧
      wf (.count (nd 7 0x0C24 3 0 false false false)) = false ∧ wf (.maddr (on fun n => { n with mods := 4 })) = false ∧
      wf (.mstore (on fun n => { n with tgtb := 0x0C24 })) = false ∧ wf (.matom (on fun n => { n with mods := 10 })) = false ∧
      wf (.matom (on fun n => { n with mods := 11 })) = false ∧ wf (.mred (on fun n => { n with mods := 9 })) = false ∧
      wf (.gload (nd 0 0x0C24 3 63 false false false)) = false ∧ wf (.gstore (nd 0 0x0C24 3 63 true false false)) = false ∧
      wf (.cmpr (on fun n => { n with dual := true })) = false ∧ wf (.trace (nd 16 0x0C24 3 0 false false false)) = false := by decide +kernel

/-- Words that no instruction has: an unassigned OP, a set bit in a field that must be zero, an illegal field, a dead node, a reserved bit (R41,
R42, R45, R62, R63, R389). -/
theorem test_decode_rejects :
    (decode [0x00000000]).toBool = false ∧ (decode [0x04A6380A]).toBool = false ∧ (decode [0x18A60240]).toBool = false ∧
      (decode [0x34A61629]).toBool = false ∧ (decode [0x8CA00003]).toBool = false ∧ (decode [0x83000001]).toBool = false ∧
      (decodeCommand 0x01010009000000000000000000000001).toBool = false ∧ (decodeCommand 0x01090000000000000000000000000000).toBool = false ∧
      (decodeCommand 0x08000000000000000000000000000000).toBool = false ∧ (decodeNode 0).toBool = false ∧ (decodeNode 0x0080001800001803).toBool = false ∧
      (decodeNode 0x88000006000C0801).toBool = false ∧ (decodeGraph 0).toBool = false ∧ (decodeGraph 8).toBool = false := by decide +kernel

/-! ### Single steps against results worked out from the spec -/

/-- What a step gives, or `none` on a stop. -/
def after {α : Type} (i : Instr) (s : State) (f : State → α) : Option α :=
  match exec i s with
  | .next t => some (f t)
  | _ => none

/-- Register `d` after an instruction on given register values. -/
def reg (d : Nat) (i : Instr) (rs : List (Nat × Word)) : Option Word := after i (withVals rs) fun t => t.rd d

/-- R119: sums wrap, SLT is signed, SLTU not, shifts take six bits, LUI sign-extends; x0 stays zero (R105). -/
theorem test_alu :
    reg 5 (.add 5 1 2) [(1, 0xFFFFFFFFFFFFFFFF), (2, 2)] = some 1 ∧ reg 5 (.sub 5 1 2) [(1, 0), (2, 1)] = some 0xFFFFFFFFFFFFFFFF ∧
      reg 5 (.slt 5 1 2) [(1, 0x8000000000000000), (2, 1)] = some 1 ∧ reg 5 (.sltu 5 1 2) [(1, 0x8000000000000000), (2, 1)] = some 0 ∧
      reg 5 (.sra 5 1 2) [(1, 0x8000000000000000), (2, 67)] = some 0xF000000000000000 ∧
      reg 5 (.addi 5 1 0xFFFF) [(1, 0)] = some 0xFFFFFFFFFFFFFFFF ∧ reg 5 (.andi 5 1 0xFFFF) [(1, 0xFFFFFFFFFFFFFFFF)] = some 0xFFFF ∧
      reg 5 (.lui 5 0x8000) [(1, 0)] = some 0xFFFFFFFF80000000 ∧ reg 0 (.addi 0 1 5) [(1, 0)] = some 0 := by decide +kernel

/-- R120: the high product, division by zero and the one overflow; R121: bit fields and counts. -/
theorem test_mul_field :
    reg 5 (.mulh 5 1 2) [(1, 0xFFFFFFFFFFFFFFFF), (2, 2)] = some 0xFFFFFFFFFFFFFFFF ∧
      reg 5 (.mulhu 5 1 2) [(1, 0xFFFFFFFFFFFFFFFF), (2, 2)] = some 1 ∧
      reg 5 (.div 5 1 2) [(1, 0xFFFFFFFFFFFFFFF9), (2, 2)] = some 0xFFFFFFFFFFFFFFFD ∧
      reg 5 (.rem 5 1 2) [(1, 0xFFFFFFFFFFFFFFF9), (2, 2)] = some 0xFFFFFFFFFFFFFFFF ∧
      reg 5 (.bfx 5 1 8 7) [(1, 0x1234)] = some 0x12 ∧ reg 5 (.bfxs 5 1 4 3) [(1, 0x80)] = some 0xFFFFFFFFFFFFFFF8 ∧
      reg 5 (.bfi 5 1 8 7) [(1, 0xAB), (5, 0xFFFFFFFF)] = some 0xFFFFABFF ∧ reg 5 (.clz 5 1) [(1, 1)] = some 63 ∧
      reg 5 (.ctz 5 1) [(1, 8)] = some 3 ∧ reg 5 (.popc 5 1) [(1, 0xFF00FF)] = some 16 := by decide +kernel

/-- R127: a taken branch adds 4 times its offset to its own address, JAL links pc + 4, JALR drops nothing of an aligned target. -/
theorem test_branches :
    after (.beq 1 2 0xFFFE) bare (fun t => (t.core 0).pc) = some 0xFF8 ∧ after (.bne 1 2 4) bare (fun t => (t.core 0).pc) = some 0x1004 ∧
      after (.bltu 1 2 2) (withVals [(2, 1)]) (fun t => (t.core 0).pc) = some 0x1008 ∧
      after (.jal 5 (BitVec.ofInt 21 (-45))) bare (fun t => ((t.core 0).pc, t.rd 5)) = some (0xF4C, 0x1004) ∧
      after (.jalr 5 1 8) (withVals [(1, 0x2000)]) (fun t => ((t.core 0).pc, t.rd 5)) = some (0x2008, 0x1004) := by decide +kernel

/-- R123: local words are little-endian and LDL.W extends with zeros. -/
theorem test_local :
    after (.stlD 2 1 8) (withVals [(1, 0x10), (2, 0x8899AABBCCDDEEFF)]) (fun t => mread (t.core 0).lmem 0x18 3) = some [0xFF, 0xEE, 0xDD] ∧
      after (.ldlW 5 1 4) (onCore fun k => { k with lmem := [(7, 0x80)] }) (fun t => t.rd 5) = some 0x80000000 := by decide +kernel

/-- R114: DONE ends the turn; R140: an armed EBRK enters debug state; R134: a hint only goes on. -/
theorem test_turn_and_trap :
    after .done bare (fun t => ((t.core 0).running, ((t.core 0).handler 0).state)) = some (none, .idle) ∧
      after .ebrk (onCore fun k => { k with arm := true }) (fun t => (t.core 0).stopped) = some true ∧
      after .phintMem bare (fun t => (t.core 0).pc) = some 0x1004 := by decide +kernel

/-- The tokens of one firing at cell 0, stage 1, input L (target A 0x0004), as mask and lanes. -/
def fired (i : Instr) (s : State) : Option (BitVec 16 × List W32) :=
  (after i s fun t => (tget [] (t.cell 0 0).arcs 4).head?.map fun x => (x.tok.mask, x.tok.lanes)).join

/-- A node to that target. -/
abbrev toA (mods : BitVec 6) : NodeFields := { nf with mods := mods, tgta := 0x0004 }

/-- A DATA token with the given active lanes first. -/
def lanes (vs : List W32) : Token := dataTok (BitVec.ofNat 16 (2 ^ vs.length - 1)) fun i => vs.getD i 0

/-- A binary node on two single lanes, the value of lane 0. -/
def lane0 (i : NodeFields → Instr) (mods : BitVec 6) (a b : W32) : Option W32 :=
  ((fired (i { toA mods with er := true }) (node (some (lanes [a])) (some (lanes [b])) none NodeState.init)).map fun x => x.2.headD 0)

/-- FP32: 1 + 1 = 2, 3 * 0.5 = 1.5, the canonical NaN of +Inf - Inf, MAX above -0, 1 < 2 (R88, R149, R150, R152). -/
theorem test_float_nodes :
    lane0 .fadd 0 0x3F800000 0x3F800000 = some 0x40000000 ∧ lane0 .fmul 0 0x40400000 0x3F000000 = some 0x3FC00000 ∧
      lane0 .fadd 0 0x7F800000 0xFF800000 = some 0x7FC00000 ∧ lane0 .fmax 0 0x80000000 0x00000000 = some 0 ∧
      lane0 .fcmp 2 0x3F800000 0x40000000 = some 1 ∧ lane0 .fadd 0x20 0x3C007BFF 0x3C007BFF = some 0x40007C00 := by decide +kernel

/-- Integers: wrap and saturation at 32 bits, halves of 16, signed comparison, arithmetic shift (R156, R157). -/
theorem test_integer_nodes :
    lane0 .iadd 0 0x7FFFFFFF 1 = some 0x80000000 ∧ lane0 .iadd 1 0x7FFFFFFF 1 = some 0x7FFFFFFF ∧
      lane0 .iadd 0x30 0x0001FFFF 0x00010001 = some 0x00020000 ∧ lane0 .icmp 2 0xFFFFFFFF 0 = some 1 ∧ lane0 .icmp 10 0xFFFFFFFF 0 = some 0 ∧
      lane0 .sar 0 0x80000000 33 = some 0xC0000000 ∧ lane0 .andn 0 0xFF 0x0F = some 0xF0 := by decide +kernel

/-- The worked example of R161: 2^24 and fifteen ones under LSUM.F32.BC give 16,777,230.0 (0x4B800007) on every lane. -/
theorem test_lsum :
    (fired (.lsum (toA 2)) (node (some (lanes (0x4B800000 :: List.replicate 15 0x3F800000))) none none NodeState.init)).map (fun x => (x.1, x.2.getD 0 0, x.2.getD 15 0)) =
      some (0xFFFF, 0x4B800007, 0x4B800007) := by decide +kernel

/-- The worked example of CVT: pi and 70,000.0 to FP16 give 0x4248 and 0x7BFF in the low halves. -/
theorem test_cvt :
    (fired (.cvt (toA 8)) (node (some (lanes [0x40490FDB, 0x4788B800])) none none NodeState.init)).map (fun x => (x.1, (x.2.getD 0 0).setWidth 16, (x.2.getD 1 0).setWidth 16)) =
      some (3, (0x4248 : BitVec 16), (0x7BFF : BitVec 16)) := by decide +kernel

/-- The worked example of R98 and R99: four elements with a row mark under scale 0x80 give codes 0x3C, 0xAA, 0x7E and 0x00. -/
theorem test_pack :
    (let s := node (some (lanes [0x40480000, 0xBF200000, 0x447A0000, 0])) none (some (pred true)) NodeState.init
     (fired (.pack { toA 8 with imm := true, ep := true, cidx := 5 }) (s.modCell 0 0 fun c => { c with pool := [(5, 0x80)] })).map
       fun x => (x.1, x.2.getD 0 0, x.2.getD 1 0)) = some (0xFFFF, 0xAA3C8001, 0x7E) := by decide +kernel

/-- The worked example of R323: 1 + 7 * 2^-24 rounds once to 0x3F800004, and with -1 it gives 0x35000000. -/
theorem test_chunk :
    let v := fun (x : Nat) => bf16.value x
    let r := fp32.round (chunkSum (v 0x3F80 :: List.replicate 7 (v 0x3380)) (List.replicate 8 (v 0x3F80)))
    r = 0x3F800004 ∧ fp32.addW 0xBF800000 r = 0x35000000 := by decide +kernel

/-- The worked example of KTOPK: a tie goes to the lower number, and +0 stands above -0. -/
theorem test_topk :
    (topkToken 2 2 [0x3F000000, 0x40000000, 0x40000000, 0xBF800000]).map Prod.fst = [1, 2] ∧
      (topkToken 2 2 [0x80000000, 0x00000000, 0x3FC00000, 0xC0400000]).map Prod.fst = [2, 1] := by decide +kernel

/-- The worked example of LOCQ: a writable 2 MiB HASH page on channel 8, asked for by core 240 of C3. -/
theorem test_locq :
    locqWord bare 240 { page0 with pa := 0x1234400000 } 0x167880 = 0xAA00000000030808 := by decide +kernel

/-- The worked example of R242: one physical address in two views, channel * 2^39 apart. -/
theorem test_views :
    keyChannel (hashKey 0x1234567880) = 8 ∧ hashKey 0x1234567880 % Config.channelBytes = 0x12345680 ∧
      keyChannel (placeKey 1 0 0x1234567880) = 216 ∧ placeKey 1 0 0x1234567880 % Config.channelBytes = 0x12345680 := by decide +kernel

/-- The ramp-down example of R425 under the default table: with A = 8 and nothing ready, A falls to 7; with A = 5, one ready and none running,
it is granted and A becomes 4. -/
theorem test_ramp_table :
    rampDown 0x0123456787654321 8 = 7 ∧ rampDown 0x0123456787654321 5 = 4 ∧ rampUp 0x0123456787654321 5 = 6 ∧ rampUp 0x0123456787654321 8 = 8 := by
  decide +kernel

/-- R421: MID to HI, then a request that waits; at 1,800 ticks the level is HI and the pending MID starts the next ramp. -/
theorem test_ramp_settle :
    after (.levelRampSettle 0) (atCluster 2000 fun c => { c with level := 1, ramping := true, target := 2, meter := 1, pvalid := true, pend := 1 })
      (fun t => let c := t.cluster 0; (c.level, c.meter, c.ramping, c.target, c.pvalid)) = some (2, 1, true, 1, false) := by decide +kernel

end Sys2Proof.Tests
end

section
/-!
PROOFS. What the host ports do (R303, R430, R433): the HASH view as a translation, a request inside one channel as one access, the
bytes of a register, the two halves of a host atomic; then O54.
-/

namespace Sys2Proof.Machine

/-! ### The access of a host port -/

theorem hashEntry_addr (pa : Nat) (h : pa < 2 ^ 64) : (hashEntry pa).addr (BitVec.ofNat 64 pa) = pa := by
  have hshift : (hashEntry pa).shift = 30 := rfl
  have hbase : (hashEntry pa).pa = pa / 2 ^ 30 * 2 ^ 30 := rfl
  rw [TcEntry.addr, hshift, hbase, BitVec.toNat_ofNat, Nat.mod_eq_of_lt h]
  omega

/-- The key of a host access is the HASH view of its address (R242, R430). -/
theorem hashEntry_key (pa : Nat) (h : pa < 2 ^ 64) : (hashEntry pa).key (BitVec.ofNat 64 pa) = hashKey pa := by
  show hashKey ((hashEntry pa).addr (BitVec.ofNat 64 pa)) = hashKey pa
  rw [hashEntry_addr pa h]

theorem hostAccess_addr (s : State) (port : Bool) (kind : AccKind) {pa : Nat} (n : Nat) (data : List Byte) (h : pa < 2 ^ 64) :
    (hostAccess s port kind pa n data).addr = hashKey pa := hashEntry_key pa h

/-- Bytes that stand in one block of 256 are one piece. -/
theorem cut256_one_block {pa n : Nat} (hn : 0 < n) (hb : pa / 256 = (pa + n - 1) / 256) (fuel : Nat) :
    cut256 pa n (fuel + 2) = [(pa, n)] := by
  have hmin : min n (256 - pa % 256) = n := by omega
  have hne : (n == 0) = false := by simp; omega
  simp [cut256, hne, hmin]

/-- The access that a host request of one block becomes; a host with back-invalidate caches what it reads through CXL.mem (R431). -/
def blockAccess (s : State) (port : Bool) (kind : AccKind) (a : HostPlace) (n : Nat) (data : List Byte) : Access :=
  { hostAccess s port kind a.off n (if kind == .write then slice data 0 n else []) with
    cached := a.window == .cxl && kind == .read && Config.backInvalidate }

theorem blockAccess_addr (s : State) (port : Bool) (kind : AccKind) {a : HostPlace} (n : Nat) (data : List Byte) (h : a.off < 2 ^ 64) :
    (blockAccess s port kind a n data).addr = hashKey a.off :=
  hashEntry_key a.off h

theorem blockAccess_write_data (s : State) (port : Bool) (a : HostPlace) (data : List Byte) :
    (blockAccess s port .write a data.length data).data = data := List.take_length

/-- A host request inside one block, and so inside one channel, is one access. -/
theorem hostPieces_one_block (s : State) (port : Bool) (kind : AccKind) {a : HostPlace} {n : Nat} (data : List Byte) (hn : 0 < n)
    (hb : a.off / 256 = (a.off + n - 1) / 256) :
    hostPieces s port kind a n data = issueAccess s (blockAccess s port kind a n data) := by
  unfold hostPieces blockAccess
  rw [cut256_one_block hn hb, List.foldl_cons, List.foldl_nil, Nat.sub_self]

/-! ### The windows of device memory (R430, R431) -/

/-- A place of BAR2 or of CXL.mem. -/
abbrev memoryPlace (cxl : Bool) (pa : Nat) : HostPlace := ⟨if cxl then .cxl else .memory, pa⟩

theorem memoryPlace_cxl (cxl : Bool) (pa : Nat) : ((memoryPlace cxl pa).window == .cxl) = cxl := by cases cxl <;> rfl

theorem hostWindow_iff (s : State) (port cxl : Bool) (pa n : Nat) :
    hostWindow s port (memoryPlace cxl pa) n = true ↔ s.powered = true ∧ n ≠ 0 ∧ pa + n ≤ Config.deviceBytes ∧
      (cxl = false ∧ pa + n ≤ 2 ^ bar2Log s port ∨ cxl = true ∧ Config.cxlCache = true) := by
  cases cxl <;> simp [hostWindow, and_assoc]

theorem lt_of_hostWindow {s : State} {port : Bool} {a : HostPlace} {n : Nat} (h : hostWindow s port a n = true) : a.off < 2 ^ 64 := by
  simp only [hostWindow, Bool.and_eq_true, decide_eq_true_eq] at h
  obtain ⟨⟨⟨-, -⟩, hoff⟩, -⟩ := h
  simp only [Config.deviceBytes] at hoff
  omega

theorem hostRead_memory (s : State) (port cxl : Bool) (pa n : Nat) :
    exec (.hostRead port (memoryPlace cxl pa) n) s =
      .next (if !hostWindow s port (memoryPlace cxl pa) n then s
        else hostPieces (s.count (hostPortDie port) 4 n) port .read (memoryPlace cxl pa) n []) := by
  cases cxl <;> rfl

theorem hostWrite_eq (s : State) (port : Bool) (a : HostPlace) (data : List Byte) :
    exec (.hostWrite port a data) s =
      .next (if !hostWindow s port a data.length then s
        else hostPieces (s.count (hostPortDie port) 5 data.length) port .write a data.length data) := rfl

/-- A read inside its window and one channel is one access, an acquire (R285, R430). -/
theorem hostRead_inside {s : State} {port cxl : Bool} {pa n : Nat} (hw : hostWindow s port (memoryPlace cxl pa) n = true) (hn : 0 < n)
    (hb : pa / 256 = (pa + n - 1) / 256) :
    ∃ a t, exec (.hostRead port (memoryPlace cxl pa) n) s = .next (issueAccess t a) ∧ a.agent = .host port ∧ a.kind = .read ∧
      a.addr = hashKey pa ∧ a.len = n ∧ a.acq = true ∧ a.cached = (cxl && Config.backInvalidate) ∧ t.mem = s.mem ∧ t.accs = s.accs ∧
      t.cores = s.cores := by
  have hcached : ((memoryPlace cxl pa).window == .cxl && true && Config.backInvalidate) = (cxl && Config.backInvalidate) := by
    rw [memoryPlace_cxl, Bool.and_true]
  refine ⟨blockAccess (s.count (hostPortDie port) 4 n) port .read (memoryPlace cxl pa) n [], s.count (hostPortDie port) 4 n, ?_, rfl, rfl,
    blockAccess_addr _ _ _ _ _ (lt_of_hostWindow hw), rfl, rfl, hcached, State.count_mem .., State.count_accs .., State.count_cores ..⟩
  rw [hostRead_memory, hw, hostPieces_one_block _ _ _ _ hn hb, Bool.not_true, if_neg Bool.false_ne_true]

/-- A write inside its window and one channel is one access, a release at DEVICE scope (R284, R430, log 106). -/
theorem hostWrite_inside {s : State} {port cxl : Bool} {pa : Nat} {data : List Byte}
    (hw : hostWindow s port (memoryPlace cxl pa) data.length = true) (hn : 0 < data.length)
    (hb : pa / 256 = (pa + data.length - 1) / 256) :
    ∃ a t, exec (.hostWrite port (memoryPlace cxl pa) data) s = .next (issueAccess t a) ∧ a.agent = .host port ∧ a.kind = .write ∧
      a.addr = hashKey pa ∧ a.len = data.length ∧ a.data = data ∧ a.rel = true ∧ a.scope = 2 ∧ t.mem = s.mem ∧ t.accs = s.accs ∧
      t.cores = s.cores := by
  refine ⟨blockAccess (s.count (hostPortDie port) 5 data.length) port .write (memoryPlace cxl pa) data.length data,
    s.count (hostPortDie port) 5 data.length, ?_, rfl, rfl, blockAccess_addr _ _ _ _ _ (lt_of_hostWindow hw), rfl, blockAccess_write_data ..,
    rfl, rfl, State.count_mem .., State.count_accs .., State.count_cores ..⟩
  rw [hostWrite_eq, hw, hostPieces_one_block _ _ _ _ hn hb, Bool.not_true, if_neg Bool.false_ne_true]

/-- Outside its window a request of the host does nothing. -/
theorem hostRead_hostWrite_outside {s : State} {port cxl : Bool} {pa : Nat} {data : List Byte}
    (hw : hostWindow s port (memoryPlace cxl pa) data.length = false) :
    exec (.hostRead port (memoryPlace cxl pa) data.length) s = .next s ∧ exec (.hostWrite port (memoryPlace cxl pa) data) s = .next s := by
  rw [hostRead_memory, hostWrite_eq, hw]
  exact ⟨rfl, rfl⟩

/-! ### Reads of registers (R430, R433) -/

/-- Byte `i` of a little-endian number. -/
theorem natLe_eq_map (n v : Nat) : natLe n v = (List.range n).map fun i => BitVec.ofNat 8 (v / 256 ^ i) := by
  induction n generalizing v with
  | zero => rfl
  | succ n ih => simp [natLe, ih, List.range_succ_eq_map, Function.comp_def, Nat.div_div_eq_div_mul, Nat.pow_succ']

/-- Eight bytes at a multiple of 8 are one register. -/
theorem windowBytes_word (read : Nat → Word) {off : Nat} (h : off % 8 = 0) : windowBytes read off 8 = natLe 8 (read off).toNat := by
  rw [natLe_eq_map]
  refine List.map_congr_left fun i hi => ?_
  have hi8 : i < 8 := List.mem_range.mp hi
  have hreg : (off + i) / 8 * 8 = off := by omega
  have hbyte : (off + i) % 8 = i := by omega
  have hpow : 2 ^ (8 * i) = 256 ^ i := Nat.pow_mul 2 8 i
  apply BitVec.eq_of_toNat_eq
  rw [hreg, hbyte, BitVec.extractLsb'_toNat, BitVec.toNat_ofNat, Nat.shiftRight_eq_div_pow, hpow]

theorem hostRead_control (s : State) (port : Bool) (off n : Nat) :
    exec (.hostRead port ⟨.control, off⟩ n) s =
      .next (if portsUp s then hostGives s port off (windowBytes (bar0Read s) off n) 0 .register else s) := rfl

theorem hostRead_debug (s : State) (port : Bool) (off n : Nat) :
    exec (.hostRead port ⟨.debug, off⟩ n) s =
      .next (if s.powered then hostGives s port off (windowBytes (bar4Read s) off n) 0 .register else s) := rfl

/-- Below 0x400 BAR0 holds the registers that stand alone. -/
theorem bar0Read_low (s : State) {off : Nat} (h : off < 0x400) : bar0Read s off = lowRead s off := if_pos h

/-- The block of a core in BAR4 (R433). -/
theorem bar4Read_core (s : State) {c off : Nat} (hc : c < 320) (hoff : off < 0x1000) :
    bar4Read s (0x100000 + 0x1000 * c + off) = coreRead s c off := by
  have hblock : (0x100000 + 0x1000 * c + off - 0x100000) / 0x1000 = c := by omega
  have hrest : (0x100000 + 0x1000 * c + off - 0x100000) % 0x1000 = off := by omega
  unfold bar4Read
  rw [if_neg (by simp), if_neg (by simp; omega), if_pos (by simp; omega), hblock, hrest]

/-- x0 and the registers of a core that is not stopped read as zero (R433, log 109). -/
theorem coreRead_reg (s : State) (c : Nat) {r : Nat} (hr : r < 32) :
    coreRead s c (0x100 + 8 * r) =
      if (s.core c).stopped = false ∨ r = 0 then 0 else tget 0 (s.core c).regs (physReg (debugBank (s.core c)) r) := by
  have hreg : (0x100 + 8 * r - 0x100) / 8 = r := by omega
  have hzero : (!(s.core c).stopped || 0x100 + 8 * r == 0x100) = true ↔ (s.core c).stopped = false ∨ r = 0 := by simp
  unfold coreRead
  simp only
  rw [if_neg (by omega), if_neg (by simp; omega), if_neg (by simp; omega), if_neg (by simp; omega), if_neg (by simp; omega),
    if_pos (by simp; omega), hreg]
  simp only [hzero]

/-! ### Host atomics (R303) -/

/-- The bytes of a host atomic. -/
abbrev atomicBytes (dw : Bool) : Nat := if dw then 8 else 4

/-- The low `n` bytes of an operand. -/
abbrev lowWord (n : Nat) (v : Word) : Word := BitVec.ofNat 64 (v.toNat % 2 ^ (8 * n))

theorem lowWord_toNat (dw : Bool) (v : Word) : (lowWord (atomicBytes dw) v).toNat = v.toNat % 2 ^ (8 * atomicBytes dw) := by
  rw [BitVec.toNat_ofNat]
  exact Nat.mod_eq_of_lt (lt_of_le_of_lt (Nat.mod_le _ _) v.isLt)

theorem leNat_natLe_lowWord (dw : Bool) (v : Word) :
    leNat (natLe (atomicBytes dw) (lowWord (atomicBytes dw) v).toNat) = v.toNat % 2 ^ (8 * atomicBytes dw) := by
  have hpow : 256 ^ atomicBytes dw = 2 ^ (8 * atomicBytes dw) := (Nat.pow_mul 2 8 _).symm
  rw [leNat_natLe, lowWord_toNat, hpow, Nat.mod_mod]

section
variable {s : State} {port : Bool} {a : HostPlace} {op : BitVec 4} {dw : Bool} {page : HostPage} {v cmp : Word}
  (hw : hostWindow s port a (atomicBytes dw) = true) (ha : a.off % atomicBytes dw = 0)
include hw ha

/-- The first half, or the whole, of an atomic at an aligned place of its window. -/
theorem hostAtomic_first :
    exec (.hostAtomic port a op dw page false v cmp) s = .next (
      if 64 ≤ tracked s port then s
      else if pageSa s a.off page then
        issueAccess s { hostAccess s port .atomic a.off (atomicBytes dw) (natLe (atomicBytes dw) (lowWord (atomicBytes dw) v).toNat) with
                        op := op, cmp := if op.toNat < 10 then [] else natLe (atomicBytes dw) (lowWord (atomicBytes dw) cmp).toNat }
      else splitRead s port a.off (atomicBytes dw)) := by
  show execHostAtomic port a op dw page false v cmp s = _
  simp only [execHostAtomic, hw, ha]
  rfl

/-- The second half of an atomic at an aligned place of its window. -/
theorem hostAtomic_second :
    exec (.hostAtomic port a op dw page true v cmp) s =
      .next (splitWrite s port a.off (atomicBytes dw) op (lowWord (atomicBytes dw) v) (lowWord (atomicBytes dw) cmp)) := by
  show execHostAtomic port a op dw page true v cmp s = _
  simp only [execHostAtomic, hw, ha]
  rfl

theorem hostAtomic_tracker_full (hfull : 64 ≤ tracked s port) : exec (.hostAtomic port a op dw page false v cmp) s = .next s := by
  rw [hostAtomic_first hw ha, if_pos hfull]

/-- On a page with SA = 1 a host atomic is one AT. -/
theorem hostAtomic_sa (hsa : pageSa s a.off page = true) (hroom : tracked s port < 64) :
    ∃ x, exec (.hostAtomic port a op dw page false v cmp) s = .next (issueAccess s x) ∧ x.kind = .atomic ∧ x.op = op ∧
      x.addr = hashKey a.off ∧ x.len = atomicBytes dw ∧ leNat x.data = v.toNat % 2 ^ (8 * atomicBytes dw) ∧ (op.toNat < 10 → x.cmp = []) := by
  have hexec := hostAtomic_first (op := op) (page := page) (v := v) (cmp := cmp) hw ha
  rw [if_neg (by omega), if_pos hsa] at hexec
  exact ⟨_, hexec, rfl, rfl, hostAccess_addr _ _ _ _ _ (lt_of_hostWindow hw), rfl, leNat_natLe_lowWord dw v, fun h => if_pos h⟩

end

/-- The first half of a split atomic records the old value of its word. -/
theorem splitRead_records {s t : State} {port : Bool} {pa n : Nat} {bs : List Byte} (hset : hostSettled s port (hashKey pa) = true)
    (hlive : (s.die (keyDie (hashKey pa))).removed = false) (hcross : crossRead s (hostPortDie port) (keyDie (hashKey pa)) n = some t)
    (hread : homeRead t false (hashKey pa) n = (bs, 0)) :
    splitRead s port pa n = { t with splits := t.splits ++ [{ port := port, addr := hashKey pa, len := n, old := leBv 64 bs }] } := by
  simp only [splitRead, hset, hlive, hcross, hread]
  rfl

/-- For an operation of R296 the second half writes its result over the recorded value and answers that value. -/
theorem splitWrite_writes {s t : State} {port : Bool} {pa n : Nat} {op : BitVec 4} {v cmp : Word} {x : SplitAtomic}
    (hx : s.splits.find? (fun x => x.port == port && x.addr == hashKey pa && x.len == n) = some x)
    (hlive : (s.die (keyDie (hashKey pa))).removed = false)
    (hcross : crossWrite { s with splits := dropFirst (fun y => y == x) s.splits } (hostPortDie port) (keyDie (hashKey pa)) n false = some t)
    (hop : op.toNat < 10) :
    splitWrite s port pa n op v cmp =
      hostGives (homeWrite t true false (hashKey pa) (natLe n (atomicWord op.toNat (8 * n) none x.old.toNat v.toNat))) port pa
        (natLe n x.old.toNat) 0 .data := by
  simp only [splitWrite, hx, hlive, hcross, hostNew, if_pos hop]
  rfl

theorem splitWrite_no_split {s : State} {port : Bool} {pa n : Nat} (op : BitVec 4) (v cmp : Word)
    (hx : s.splits.find? (fun x => x.port == port && x.addr == hashKey pa && x.len == n) = none) :
    splitWrite s port pa n op v cmp = s := by
  simp only [splitWrite, hx]

/-! ### O54 -/

/-- Settles O54, a clause at a time: requests inside and outside the window, registers, and both halves of an atomic. -/
theorem hostAccesses : Obligations.HostAccesses := by
  intro s port pa
  refine ⟨?inside, ?outside, ?registers, ?offsets, ?atomics⟩
  case inside =>
    intro n cxl hn hp hd hb hin
    have hw := (hostWindow_iff s port cxl pa n).mpr ⟨hp, hn.ne', hd, hin⟩
    refine ⟨hostRead_inside hw hn hb, ?_⟩
    rintro data rfl
    exact hostWrite_inside hw hn hb
  case outside =>
    rintro n cxl data rfl hout
    refine hostRead_hostWrite_outside (Bool.eq_false_iff.mpr fun hw => ?_)
    obtain ⟨hp, hn, hd, hin⟩ := (hostWindow_iff s port cxl pa _).mp hw
    rcases hout with h | h | h | ⟨h, hsize⟩ | ⟨h, hlink⟩
    · simp [hp] at h
    · exact hn h
    · omega
    · simp only [h, true_and, Bool.false_eq_true, false_and, or_false] at hin
      omega
    · simp [h, hlink] at hin
  case registers =>
    intro off h8
    rw [hostRead_control, hostRead_debug, windowBytes_word _ h8, windowBytes_word _ h8]
    exact ⟨fun h => by rw [if_pos h]; rfl, fun h => by rw [h]; rfl, fun h => by rw [if_pos h]; rfl, fun h => by rw [h]; rfl⟩
  case offsets =>
    refine ⟨?_, ?_, ?_, ?_, ?_, ?_, ?_, ?coreRegs⟩
    case coreRegs =>
      intro c r hc hr
      rw [Nat.add_assoc _ 0x100, bar4Read_core s hc (by omega), coreRead_reg s c hr]
    all_goals
      rw [bar0Read_low _ (by decide)]
      simp [lowRead]
  case atomics =>
    intro cxl op dw page v cmp n hw ha
    refine ⟨hostAtomic_tracker_full hw ha, fun hsa hroom => hostAtomic_sa (a := memoryPlace cxl pa) hw ha hsa hroom, ?_, ?_, ?_⟩
    · intro hsa t bs hroom hset hlive hcross hread
      refine (hostAtomic_first hw ha).trans ?_
      rw [if_neg (by omega), if_neg (by simp [hsa]), splitRead_records hset hlive hcross hread]
    · intro x t hx hlive hcross hop
      refine (hostAtomic_second hw ha).trans ?_
      rw [splitWrite_writes hx hlive hcross hop, lowWord_toNat]
    · intro hx
      refine (hostAtomic_second hw ha).trans ?_
      rw [splitWrite_no_split _ _ _ hx]

end Sys2Proof.Machine
end

section
/-!
PROOFS. Encoding (R38 to R72, R389): every well-formed instruction comes back from its words, the words that the spec prints; then
how a sequencer fetches, decodes and runs (R40, R54, R106): O19, O20, O21.
-/

namespace Sys2Proof.Laws.RoundTrip
/-- Every instruction, by its constructor (in the order of `Instr`). -/
theorem decode_encode (i : Instr) : Statement i :=
  Instr.casesOn i
    add sub and or xor sll srl sra slt sltu addi andi ori xori slli srli srai slti sltiu lui mul mulh mulhu div divu rem remu
    bfx bfxs bfi widx clz ctz popc ldlD ldlW stlD stlW ldgD ldgW stgD stgW beq bne blt bge bltu bgeu jal jalr loop loopi done
    waith post hmask hunmask mfs mts fence barr ldgAcq stgRel locq phintComp phintMem phintWait decideImm decideReg pref trap
    tret ebrk issue handlerDispatch controlWordArrival commandCompletion ldgDataReturn talloc tfree tring townEngine townSeq
    advp advc twaitFill twaitFree tzero tstat ownerFlip splev spbaseTile spbaseVa spmode spgo spclose spqryLo spqryHi spqrySt
    spwid portInjectToken portInjectEoi portStoreToken portInvocationStart portDoneWord meterWindow mma mmag mmv mcoop aclr ard
    awr matrixStart matrixWaveStep matrixCommit ktopk ksort khist kscan kmerge kpermG kpermS keyCommandComplete cpy cpyx cpyf
    csig copyComplete cgrp cgrpFree a2av agth rsct ared collectiveRendezvous collectiveComplete amo amoc red redv fadd fsub
    fmul ffma fmax fmin fabs fneg fcmp frnd fcls frcp frsq fexp2 flog2 iadd isub imul imax imin icmp iabs nodeAnd nodeOr
    nodeXor andn shl shr sar lshuf lrot lbcast lsum lmax lmin cvt pack unpack steer merge carry select gate join dup sink const
    count maddr mload mstore matom mred gload gstore cmpr csum trace barOrderingPointRelease baySwitch launch graphCond
    graphWhile waitm signal graphJoin graphEnd walkerClaim lineWatchFire waitmRetest queueAging reserveRequest
    configurationLoad rowDrain preemptRequest contextSave contextRestore sliceExpiry watchdogExpiry saveTimeout sweepRowFree
    trapEntry ctxcmdResume ctxcmdDestroy go debugResume debugStep breakpointHitClear breakpointEnable bankDeclareFailed
    packetDecode packetDeliver err ack ackTimer nack nackBackoffExpiry retransmitTimeout linkDead dieRemoval resyncQuiesce
    resyncExchange resyncClear resyncResume fenceProbeAnswer invgo inv invack invResendTimer wbRewalk squareArrival
    barrierRelease barrierWithdraw barrierWithdrawAnswer hostRead hostWrite hostAtomic lvlreq levelRampSettle ramptabWrite lock
    slewLimiterStep hbeat fwloss thermalTrip converterCurrentLimit powerOnReset devrst atgo attestationReportDone pcctlClear
    roceSend roceWrite roceWriteImm roceRead incomingSend incomingRdmaWrite incomingRdmaRead roceCompletion sqdb rqdb cqdb
    qpStateWrite registerWrite flitBoundary flitArrival linkRetrained accessPerformed pageWalkComplete instructionCacheFill
    copyExecutionFault keyExecutionFault thermalTripClear dieRejoin ethernetLinkState roceAckTimeout doorbellLineReread

end Sys2Proof.Laws.RoundTrip

namespace Sys2Proof.Machine

/-- Settles O19, by the constructor of the instruction. -/
theorem decodeEncodeRoundTrip : Obligations.DecodeEncodeRoundTrip := Laws.RoundTrip.decode_encode

/-! ### One step of a sequencer whose handler runs -/

theorem step_seq {s : State} {c : Nat} {rest : List Act} (hs : s.sched = .seq c :: rest) (hc : c < 320) :
    step s = seqStep { s with sched := rest } c := by
  unfold step
  rw [hs]
  exact if_pos hc

theorem seqRuns_iff (q : Plot) : seqRuns q = true ↔ q.state = .armed ∨ q.state = .hostwait ∨ q.state = .saving := by
  simp [seqRuns, or_assoc]

/-- A sequencer with nothing to re-inject and no fault to take runs the instruction at its pc (R111, R411, R414). -/
theorem seqStep_running {s : State} {c : Nat} {q : Plot} (hq : s.plotOf c = some q) (hruns : seqRuns q = true)
    (hstop : (s.core c).stopped = false)
    (htrap : (s.core c).trap.on = true → (s.core c).trap.routine = true ∧ (s.core c).trap.hosted = false)
    (hre : (s.core c).reinj = []) (hheld : (s.core c).held = [] ∨ (s.core c).trap.on = true) (hrun : (s.core c).running ≠ none) :
    seqStep s c = runNext { s with cur := { Ctx.init with core := c } } := by
  obtain ⟨b, hb⟩ := Option.ne_none_iff_exists'.mp hrun
  have hgo : (!seqRuns q || (s.core c).stopped || ((s.core c).trap.on && (!(s.core c).trap.routine || (s.core c).trap.hosted))) = false := by
    cases hon : (s.core c).trap.on
    · simp [hruns, hstop]
    · simp [hruns, hstop, htrap hon]
  have hnone : (!(s.core c).held.isEmpty && !(s.core c).trap.on) = false := by
    rcases hheld with h | h <;> simp [h]
  have hplot : State.plotOf { s with cur := { Ctx.init with core := c } } c = some q := hq
  simp only [seqStep, hplot, hgo, hre, hnone, hb, Bool.false_eq_true, if_false]

/-! ### Fetch (R54, R106) -/

theorem fetchWords_uncached {k : Core} {pc : Word} (h : cachedWord k pc = none) : fetchWords k pc = .error pc := by
  simp [fetchWords, h]

theorem fetchWords_one {k : Core} {pc : Word} {w : W32} (h : cachedWord k pc = some w) (hop : w.extractLsb' 26 6 ≠ 0x3F) :
    fetchWords k pc = .ok [w] := by
  simp only [fetchWords, h, beq_iff_eq, if_neg hop]

theorem fetchWords_group {k : Core} {pc : Word} {w w1 w2 w3 w4 : W32} (h : cachedWord k pc = some w) (hop : w.extractLsb' 26 6 = 0x3F)
    (h1 : cachedWord k (pc + 4) = some w1) (h2 : cachedWord k (pc + 8) = some w2) (h3 : cachedWord k (pc + 12) = some w3)
    (h4 : cachedWord k (pc + 16) = some w4) : fetchWords k pc = .ok [w, w1, w2, w3, w4] := by
  simp only [fetchWords, h, h1, h2, h3, h4, beq_iff_eq, if_pos hop]

theorem runNext_fetched {s : State} {k : Core} {ws : List W32} (hk : s.me = k) (hstall : (k.handler k.bank).stall = none)
    (h : fetchWords k k.pc = .ok ws) : runNext s = runWords s ws := by
  subst hk
  simp only [runNext, hstall, h]

theorem runNext_missing {s : State} {k : Core} {va : Word} (hk : s.me = k) (hstall : (k.handler k.bank).stall = none)
    (h : fetchWords k k.pc = .error va) : runNext s = .next (stallOn s (.line va.toNat)) := by
  subst hk
  simp only [runNext, hstall, h]

theorem runWords_ok {s : State} {ws : List W32} {i : Instr} (h : decode ws = .ok i) : runWords s ws = exec i s := by
  simp only [runWords, h]

theorem runWords_illegal {s : State} {w : W32} (h : ∀ i, decode [w] ≠ .ok i) :
    runWords s [w] = .next (preciseFault s cILLEGAL 0 (w.setWidth 64)) := by
  unfold runWords
  split
  · rfl
  · next i hi => exact absurd hi (h i)

/-! ### O20 and O21 -/

section
variable {s : State} {c : Nat} {q : Plot} {rest : List Act} (hs : s.sched = .seq c :: rest) (hc : c < 320) (hq : s.plotOf c = some q)
  (hruns : seqRuns q = true) (hstop : (s.core c).stopped = false)
  (htrap : (s.core c).trap.on = true → (s.core c).trap.routine = true ∧ (s.core c).trap.hosted = false)
  (hre : (s.core c).reinj = []) (hheld : (s.core c).held = [] ∨ (s.core c).trap.on = true) (hrun : (s.core c).running ≠ none)
  (hstall : ((s.core c).handler (s.core c).bank).stall = none)
include hs hc hq hruns hstop htrap hre hheld hrun hstall

/-- A step of a running sequencer decodes and runs the words that it fetches. -/
theorem step_fetched {ws : List W32} (h : fetchWords (s.core c) (s.core c).pc = .ok ws) :
    step s = runWords { s with sched := rest, cur := { Ctx.init with core := c } } ws :=
  (step_seq hs hc).trans ((seqStep_running (s := { s with sched := rest }) hq hruns hstop htrap hre hheld hrun).trans
    (runNext_fetched rfl hstall h))

/-- A step of a running sequencer whose line is missing yields until it is filled. -/
theorem step_missing {va : Word} (h : fetchWords (s.core c) (s.core c).pc = .error va) :
    step s = .next (stallOn { s with sched := rest, cur := { Ctx.init with core := c } } (.line va.toNat)) :=
  (step_seq hs hc).trans ((seqStep_running (s := { s with sched := rest }) hq hruns hstop htrap hre hheld hrun).trans
    (runNext_missing rfl hstall h))

end

/-- Settles O21: the words at the pc are found, one or five of them, or their line is missing. -/
theorem stepRunsDecodedInstruction : Obligations.StepRunsDecodedInstruction := by
  intro s w c q i rest hs hc hq hstate hstop htrap hre hheld hrun hstall
  have hruns := (seqRuns_iff q).mpr hstate
  refine ⟨?one, ?group, ?missing⟩
  case one =>
    intro hw hop hdec
    exact (step_fetched hs hc hq hruns hstop htrap hre hheld hrun hstall (fetchWords_one hw hop)).trans (runWords_ok hdec)
  case group =>
    intro w1 w2 w3 w4 hw hop h1 h2 h3 h4 hdec
    have hfetch := fetchWords_group hw hop h1 h2 h3 h4
    exact (step_fetched hs hc hq hruns hstop htrap hre hheld hrun hstall hfetch).trans (runWords_ok hdec)
  case missing =>
    intro hw
    exact step_missing hs hc hq hruns hstop htrap hre hheld hrun hstall (fetchWords_uncached hw)

/-- Settles O20: the printed words by evaluating the decoder, the undecodable word by the step that fetches it (R40, R141). -/
theorem decodingSpecWords : Obligations.DecodingSpecWords := by
  refine ⟨?words, ?undecodable⟩
  case words => and_intros <;> rfl
  case undecodable =>
    intro s w c q hs hc hq hstate hstop htrap hre hheld hrun hstall hw hop hdec
    have hruns := (seqRuns_iff q).mpr (.inl hstate)
    exact (step_fetched hs hc hq hruns hstop (by simp [htrap]) hre (.inl hheld) hrun hstall (fetchWords_one hw hop)).trans
      (runWords_illegal hdec)

end Sys2Proof.Machine
end

section
/-!
PROOFS. The values of multiply, divide, bit-field and count forms (R120, R121) and of fields of a work identifier (R122): O2.
-/

namespace Sys2Proof.Machine

/-! ### Products, quotients and remainders (R120) -/

theorem ofNat_toNat_mul (a b : Word) : BitVec.ofNat 64 (a.toNat * b.toNat) = a * b := by
  simp [BitVec.ofNat_mul]

/-- Bits 127:64 of a 128-bit product. -/
theorem high_ofInt (p : Int) : ((BitVec.ofInt 128 p) >>> 64).setWidth 64 = BitVec.ofInt 64 (p / 2 ^ 64) := by
  apply BitVec.eq_of_toNat_eq
  simp only [BitVec.toNat_setWidth, BitVec.toNat_ushiftRight, BitVec.toNat_ofInt, Nat.shiftRight_eq_div_pow]
  omega

theorem mulHigh_eq (a b : Word) : mulHigh a b = BitVec.ofInt 64 (a.toInt * b.toInt / 2 ^ 64) := by
  have hsext (x : Word) : x.signExtend 128 = BitVec.ofInt 128 x.toInt := rfl
  rw [mulHigh, hsext, hsext, ← BitVec.ofInt_mul, high_ofInt]

theorem mulHighU_eq (a b : Word) : mulHighU a b = BitVec.ofNat 64 (a.toNat * b.toNat / 2 ^ 64) := by
  have hzext (x : Word) : x.setWidth 128 = BitVec.ofInt 128 x.toNat := by rw [BitVec.ofInt_natCast, BitVec.ofNat_toNat]
  rw [mulHighU, hzext, hzext, ← BitVec.ofInt_mul, high_ofInt, ← BitVec.ofInt_natCast]
  rfl

theorem sdiv_eq_ofInt (a b : Word) : a.sdiv b = BitVec.ofInt 64 (a.toInt.tdiv b.toInt) := by
  apply BitVec.eq_of_toInt_eq
  rw [BitVec.toInt_sdiv, BitVec.toInt_ofInt]

/-- The signed overflow of R120 is what the quotient modulo 2^64 gives. -/
theorem divS_of_ne {a b : Word} (hb : b ≠ 0) : divS a b = a.sdiv b := by
  unfold divS
  rw [if_neg hb]
  split
  · next h => rw [h.1, h.2]; rfl
  · rfl

theorem divS_eq (a b : Word) : divS a b = if b = 0 then 0xFFFFFFFFFFFFFFFF else BitVec.ofInt 64 (a.toInt.tdiv b.toInt) := by
  split
  · next hb => exact if_pos hb
  · next hb => rw [divS_of_ne hb, sdiv_eq_ofInt]

theorem divU_eq (a b : Word) : divU a b = if b = 0 then 0xFFFFFFFFFFFFFFFF else BitVec.ofNat 64 (a.toNat / b.toNat) := by
  rw [← BitVec.udiv_def]
  rfl

theorem ofInt_tmod (a b : Word) : BitVec.ofInt 64 (a.toInt.tmod b.toInt) = a - b * a.sdiv b := by
  rw [Int.tmod_def, sub_eq_add_neg, BitVec.ofInt_add, BitVec.ofInt_neg, BitVec.ofInt_mul, ← sdiv_eq_ofInt, BitVec.ofInt_toInt,
    BitVec.ofInt_toInt, sub_eq_add_neg]

theorem remS_eq (a b : Word) : remS a b = BitVec.ofInt 64 (a.toInt.tmod b.toInt) := by
  rw [ofInt_tmod]
  unfold remS
  split
  · next hb => subst hb; simp
  · next hb =>
    rw [divS_of_ne hb]
    split
    · next h => rw [h.1, h.2]; rfl
    · rfl

theorem remU_eq (a b : Word) : remU a b = BitVec.ofNat 64 (a.toNat % b.toNat) := by
  rw [← BitVec.umod_def]
  unfold remU divU
  split
  · next hb => subst hb; simp
  · have hsum : b * (a / b) + a % b = a := by
      simpa [BitVec.umod_def, BitVec.udiv_def, BitVec.ofNat_add, BitVec.ofNat_mul] using
        congrArg (BitVec.ofNat 64) (Nat.div_add_mod a.toNat b.toNat)
    rw [sub_eq_iff_eq_add', hsum]

/-! ### Bit fields (R121) -/

theorem fieldMask_eq (len : BitVec 6) : fieldMask len = BitVec.ofNat 64 (2 ^ (len.toNat + 1) - 1) := by
  revert len
  decide

theorem fieldMask_bit (len : BitVec 6) (i : Nat) : (fieldMask len).getLsbD i = decide (i ≤ len.toNat) := by
  have hlen := len.isLt
  rw [fieldMask_eq, BitVec.getLsbD_ofNat, Nat.testBit_two_pow_sub_one, ← Bool.decide_and, decide_eq_decide]
  omega

theorem bitsOf_bit (a : Word) (pos len : BitVec 6) (i : Nat) :
    (bitsOf a pos len).getLsbD i = (decide (i ≤ len.toNat) && a.getLsbD (pos.toNat + i)) := by
  rw [bitsOf, BitVec.getLsbD_and, BitVec.getLsbD_ushiftRight, fieldMask_bit, Bool.and_comm]

theorem bitsSigned_bit (a : Word) (pos len : BitVec 6) {i : Nat} (hi : i < 64) :
    (bitsSigned a pos len).getLsbD i = a.getLsbD (pos.toNat + min i len.toNat) := by
  have hsign : (bitsOf a pos len).getLsbD len.toNat = a.getLsbD (pos.toNat + len.toNat) := by simp [bitsOf_bit]
  unfold bitsSigned
  rcases Nat.lt_or_ge len.toNat i with hlt | hle
  · have hne : len ≠ 63 := by rintro rfl; simp at hlt; omega
    have hout : decide (i ≤ len.toNat) = false := decide_eq_false (by omega)
    simp only [hsign, hne, ne_eq, not_false_eq_true, true_and, Nat.min_eq_right hlt.le]
    split <;> simp_all only [bitsOf_bit, fieldMask_bit, BitVec.getLsbD_or, BitVec.getLsbD_not] <;> simp
  · have hin : decide (i ≤ len.toNat) = true := decide_eq_true hle
    rw [Nat.min_eq_left hle]
    simp only []
    split <;> simp only [bitsOf_bit, fieldMask_bit, BitVec.getLsbD_or, BitVec.getLsbD_not, hin] <;> simp

theorem bitsInsert_bit (x a : Word) (pos len : BitVec 6) {i : Nat} (hi : i < 64) :
    (bitsInsert x a pos len).getLsbD i =
      if pos.toNat ≤ i ∧ i ≤ pos.toNat + len.toNat then a.getLsbD (i - pos.toNat) else x.getLsbD i := by
  have hmask : (fieldMask len <<< pos.toNat).getLsbD i = decide (pos.toNat ≤ i ∧ i ≤ pos.toNat + len.toNat) := by
    rw [BitVec.getLsbD_shiftLeft, fieldMask_bit, Bool.eq_iff_iff]
    simp [hi]
    omega
  have hi' : decide (i < 64) = true := decide_eq_true hi
  simp only [bitsInsert, BitVec.getLsbD_or, BitVec.getLsbD_and, BitVec.getLsbD_not, BitVec.getLsbD_shiftLeft a, hmask, hi']
  split
  · next hin => simp [hin]
  · next hout => simp [hout]

/-! ### Counts (R121) -/

theorem leadingZeros_spec (a : Word) : ∃ n, n ≤ 64 ∧ leadingZeros a = BitVec.ofNat 64 n ∧
    (∀ i, 64 - n ≤ i → a.getLsbD i = false) ∧ (n < 64 → a.getLsbD (63 - n) = true) := by
  unfold leadingZeros
  split
  · next ha => exact ⟨64, le_rfl, rfl, by simp [ha], by simp⟩
  · next ha =>
    have hne : a.toNat ≠ 0 := fun h => ha (BitVec.eq_of_toNat_eq h)
    have hlog : a.toNat.log2 < 64 := (Nat.log2_lt hne).mpr a.isLt
    refine ⟨63 - a.toNat.log2, by omega, rfl, fun i hi => ?_, fun _ => ?_⟩
    · rw [← BitVec.testBit_toNat]
      exact Nat.testBit_lt_two_pow (lt_of_lt_of_le Nat.lt_log2_self (Nat.pow_le_pow_right two_pos (by omega)))
    · rw [← BitVec.testBit_toNat, show 63 - (63 - a.toNat.log2) = a.toNat.log2 by omega]
      exact Nat.testBit_log2 hne

theorem trailingZeros_spec (a : Word) : ∃ n, n ≤ 64 ∧ trailingZeros a = BitVec.ofNat 64 n ∧
    (∀ i, i < n → a.getLsbD i = false) ∧ (n < 64 → a.getLsbD n = true) := by
  unfold trailingZeros
  cases hf : (List.range 64).find? fun i => a.getLsbD i with
  | none =>
    have hzero := List.find?_range_eq_none.mp hf
    exact ⟨64, le_rfl, rfl, fun i hi => by simpa using hzero i hi, by simp⟩
  | some n =>
    obtain ⟨hset, hmem, hzero⟩ := List.find?_range_eq_some.mp hf
    exact ⟨n, (List.mem_range.mp hmem).le, rfl, fun i hi => by simpa using hzero i hi, fun _ => hset⟩

theorem popCount_eq (a : Word) : popCount a = BitVec.ofNat 64 ((List.range 64).countP fun i => a.getLsbD i) := by
  rw [popCount, List.countP_eq_length_filter]

/-! ### Fields of a work identifier (R27, R122) -/

theorem widField_eq (widths : List Nat) (k : Nat) (wid : Word) (hw : widths.getD k 0 ≤ 64)
    (h64 : widths.getD k 0 = 64 → (widths.take k).sum = 0) :
    widField widths k wid = BitVec.ofNat 64 (wid.toNat / 2 ^ (widths.take k).sum % 2 ^ widths.getD k 0) := by
  unfold widField
  simp only [beq_iff_eq]
  split
  · next h => rw [h64 h, h, Nat.pow_zero, Nat.div_one, Nat.mod_eq_of_lt wid.isLt]; simp
  · next h =>
    have hlt : 2 ^ widths.getD k 0 - 1 < 2 ^ 64 :=
      lt_of_lt_of_le (Nat.sub_lt (Nat.two_pow_pos _) one_pos) (Nat.pow_le_pow_right two_pos hw)
    rw [← Nat.and_two_pow_sub_one_eq_mod, BitVec.ofNat_and, ← Nat.shiftRight_eq_div_pow, ← BitVec.toNat_ushiftRight]
    rw [BitVec.ofNat_toNat, BitVec.setWidth_eq]
    rfl

/-! ### O2 -/

/-- Settles O2: each form writes the value that the lemmas above give. -/
theorem multiplyDivideBitFieldResults : Obligations.MultiplyDivideBitFieldResults := by
  refine ⟨?divide, ?fields⟩
  case divide =>
    intro s d a b h
    have hform (f : Word → Word → Word) {v : Word} (hv : f (s.rd a) (s.rd b) = v) : alu2 s d a b f = .next (s.wrote d v) :=
      hv ▸ alu2_clear h f
    exact ⟨hform _ (ofNat_toNat_mul ..).symm, hform _ (mulHigh_eq ..), hform _ (mulHighU_eq ..), hform _ (divS_eq ..), hform _ (divU_eq ..),
      hform _ (remS_eq ..), hform _ (remU_eq ..)⟩
  case fields =>
    intro s d a pos len k h hok
    have hform (f : Word → Word) : alu1 s d a f = .next (s.wrote d (f (s.rd a))) := alu1_clear h f
    have hbfi : s.clear [d, d, a] := fun r hr => h r (by simpa using hr)
    obtain ⟨lz, hlz, hclz, hlow, htop⟩ := leadingZeros_spec (s.rd a)
    obtain ⟨tz, htz, hctz, hzero, hset⟩ := trailingZeros_spec (s.rd a)
    refine ⟨⟨_, hform fun x => bitsOf x pos len, bitsOf_bit _ pos len⟩, ⟨_, hform fun x => bitsSigned x pos len, fun i => bitsSigned_bit _ pos len⟩,
      ⟨_, alu2_clear hbfi fun x y => bitsInsert x y pos len, fun i => bitsInsert_bit _ _ pos len⟩, ⟨lz, hlz, hclz ▸ hform leadingZeros, hlow, htop⟩,
      ⟨tz, htz, hctz ▸ hform trailingZeros, hzero, hset⟩, popCount_eq (s.rd a) ▸ hform popCount, fun q hq hw h64 => ?_⟩
    have hwidx := execWidx_clear (State.clear_left h) k
    simp only [coreWid, hq, Option.map_some, Option.getD_some] at hwidx
    exact hwidx.trans (by rw [widField_eq _ _ _ hw h64])

end Sys2Proof.Machine
end

section
/-!
PROOFS. Moves of special registers (R50, R131 to R133): O3; branches and jumps (R127): O5.
-/

namespace Sys2Proof.Machine

/-- A value is below 2^32 when its upper half is zero. -/
theorem high_eq_zero_iff (v : Word) : v.extractLsb' 32 32 = 0 ↔ v.toNat < 2 ^ 32 := by
  have hv := v.isLt
  rw [← BitVec.toNat_inj, BitVec.extractLsb'_toNat, Nat.shiftRight_eq_div_pow]
  show v.toNat / 2 ^ 32 % 2 ^ 32 = 0 ↔ _
  omega

/-! ### MFS -/

theorem corePos_of_plot {s : State} {core : Nat} {q : Plot} (hq : s.plotOf core = some q) :
    (corePos s core).setWidth 64 = BitVec.ofNat 64 ((16 * (core % 80 / 8 - q.row) + (core % 8 - q.col)) % 256) := by
  unfold corePos
  rw [hq]
  apply BitVec.eq_of_toNat_eq
  simp only [BitVec.toNat_setWidth, BitVec.toNat_ofNat]

theorem clusterPace_eq (s : State) (core : Nat) : clusterPace s core = s.pace ∨ clusterPace s core = s.pace + 1 := by
  unfold clusterPace
  split
  · exact .inr rfl
  · exact .inl rfl

/-! ### MTS -/

section
variable {s : State} {a : Reg} {num : BitVec 9} {n : Nat} (h : s.clear [a]) (hn : n < 4)
include h hn

/-- MTS of a loop counter (R131). -/
theorem execMts_lc (hnum : num.toNat = n) :
    execMts a num s = .next (if (s.rd a).toNat < 2 ^ 32 then
        advance s fun k => k.modHandler k.bank fun y => y.setLevel n { y.level n with lc := BitVec.ofNat 32 (s.rd a).toNat }
      else preciseFault s cLOOPCOUNT 0 (s.rd a)) := by
  unfold execMts
  rw [withRegs_clear h]
  simp only [hnum, hn, Nat.mod_eq_of_lt, if_true, ne_eq, high_eq_zero_iff, ite_not, BitVec.ofNat_toNat]

/-- MTS of a loop bound (R132): the first address of a level. -/
theorem execMts_ls (hnum : num.toNat = 4 + n) :
    execMts a num s = .next (if n ∈ (s.me.handler s.me.bank).order then preciseFault s cLOOPREG 0 (s.rd a)
      else advance s fun k => k.modHandler k.bank fun y => y.setLevel n { y.level n with ls := s.rd a }) := by
  have hlevel : (4 + n) % 4 = n := by omega
  have hlc : ¬ 4 + n < 4 := by omega
  have hls : 4 + n < 8 := by omega
  unfold execMts
  rw [withRegs_clear h]
  simp only [hnum, hlevel, hlc, hls, if_false, if_true, List.contains_iff_mem]

/-- MTS of a loop bound (R132): the last address of a level. -/
theorem execMts_le (hnum : num.toNat = 8 + n) :
    execMts a num s = .next (if n ∈ (s.me.handler s.me.bank).order then preciseFault s cLOOPREG 0 (s.rd a)
      else advance s fun k => k.modHandler k.bank fun y => y.setLevel n { y.level n with le := s.rd a }) := by
  have hlevel : (8 + n) % 4 = n := by omega
  have hlc : ¬ 8 + n < 4 := by omega
  have hls : ¬ 8 + n < 8 := by omega
  unfold execMts
  rw [withRegs_clear h]
  simp only [hnum, hlevel, hlc, hls, if_false, List.contains_iff_mem]

end

/-! ### O3 -/

/-- Settles O3: a read for each of the nineteen registers, and the three kinds of MTS. -/
theorem specialRegisterMoves : Obligations.SpecialRegisterMoves := by
  refine ⟨?mfs, ?mts⟩
  case mfs =>
    intro s d q h hq
    have hread (num : BitVec 9) {v : Word} (hv : special s num.toNat = v) : exec (.mfs d num) s = .next (s.wrote d v) :=
      hv ▸ execMfs_clear h num
    have hwid : special s 16 = q.wid := by simp [special, coreWid, hq]
    have hp : special s 17 = BitVec.ofNat 64 q.p := by simp [special, hq]
    have hseed : special s 21 = q.seed := by simp [special, hq]
    exact ⟨hread _ rfl, hread _ rfl, hread _ rfl, hread _ rfl, hread _ rfl, hread _ rfl, hread _ rfl, hread _ rfl, hread _ rfl,
      hread _ hwid, hread _ hp, hread _ (corePos_of_plot hq), ⟨_, hread _ rfl, clusterPace_eq s s.cur.core⟩, hread _ rfl,
      hread _ hseed, hread _ rfl, hread _ rfl, hread _ rfl, hread _ rfl⟩
  case mts =>
    intro s a n h
    have hn : (n : Nat) < 4 := by omega
    have hnum {m : Nat} (hm : m < 512) : (BitVec.ofNat 9 m).toNat = m := Nat.mod_eq_of_lt hm
    have hlc := execMts_lc (num := BitVec.ofNat 9 n) h hn (hnum (by omega))
    have hls := execMts_ls (num := BitVec.ofNat 9 (4 + n)) h hn (hnum (by omega))
    have hle := execMts_le (num := BitVec.ofNat 9 (8 + n)) h hn (hnum (by omega))
    refine ⟨fun hv => ?_, fun hv => ?_, fun hout => ⟨?_, ?_⟩, fun hin => ⟨?_, ?_⟩⟩
    · exact hlc.trans (by rw [if_pos hv])
    · exact hlc.trans (by rw [if_neg (by omega)])
    · exact hls.trans (by rw [if_neg hout])
    · exact hle.trans (by rw [if_neg hout])
    · exact hls.trans (by rw [if_pos hin])
    · exact hle.trans (by rw [if_pos hin])

/-! ### Branches and jumps (R127) -/

theorem add_sext16 (x : Word) (imm : BitVec 16) : x + sext16 imm = BitVec.ofInt 64 (x.toInt + imm.toInt) := by
  rw [BitVec.ofInt_add, BitVec.ofInt_toInt]
  rfl

theorem add_mul_signExtend (pc : Word) {w : Nat} (off : BitVec w) :
    pc + 4 * off.signExtend 64 = BitVec.ofInt 64 (pc.toInt + 4 * off.toInt) := by
  rw [BitVec.ofInt_add, BitVec.ofInt_mul, BitVec.ofInt_toInt]
  rfl

theorem low_eq_zero_iff (v : Word) : v.extractLsb' 0 2 = 0 ↔ v.toNat % 4 = 0 := by
  rw [← BitVec.toNat_inj, BitVec.extractLsb'_toNat]
  rfl

/-- A conditional branch jumps when its comparison holds and completes otherwise (R127, R130). -/
theorem branch_clear {s : State} {a b : Reg} (h : s.clear [a, b]) (off : BitVec 16) {c : Word → Word → Bool} {p : Prop} [Decidable p]
    (hp : c (s.rd a) (s.rd b) = true ↔ p) :
    branch s a b off c = .next (if p then s.modMe fun k => k.jump (BitVec.ofInt 64 (s.me.pc.toInt + 4 * off.toInt)) else advance s id) := by
  have hme : (s.modMe fun k => if c (k.rd a) (k.rd b) then k.jump (k.pc + 4 * sext16 off) else k.finish (k.pc + 4)) =
      s.setCore s.cur.core (if c (s.rd a) (s.rd b) then s.me.jump (s.me.pc + 4 * sext16 off) else s.me.finish (s.me.pc + 4)) := rfl
  unfold branch
  rw [withRegs_clear h, hme, add_mul_signExtend]
  simp only [hp]
  split <;> rfl

/-- JALR jumps to a word address and raises ALIGN at any other (R38, R47). -/
theorem execJalr_clear {s : State} {d a : Reg} (h : s.clear [d, a]) (imm : BitVec 16) :
    execJalr d a imm s = .next (if (BitVec.ofInt 64 ((s.rd a).toInt + imm.toInt)).toNat % 4 = 0 then
        s.modMe fun k => (k.wr d (k.pc + 4)).jump (BitVec.ofInt 64 ((s.rd a).toInt + imm.toInt))
      else preciseFault s cALIGN 0 (BitVec.ofInt 64 ((s.rd a).toInt + imm.toInt))) := by
  unfold execJalr
  rw [withRegs_clear h]
  simp only [add_sext16, ne_eq, low_eq_zero_iff, ite_not]

/-- Settles O5: the six comparisons of `branch_clear`, then the two jumps. -/
theorem branchesAndJumps : Obligations.BranchesAndJumps := by
  intro s d a b off imm far
  refine ⟨fun h => ⟨?_, ?_, ?_, ?_, ?_, ?_⟩, fun h => ?jal, fun h => ?jalr⟩
  · exact branch_clear h off beq_iff_eq
  · exact branch_clear h off bne_iff_ne
  · exact branch_clear h off BitVec.slt_iff_toInt_lt
  · exact branch_clear (c := fun x y => !x.slt y) h off (by simp [BitVec.slt])
  · exact branch_clear h off BitVec.ult_iff_toNat_lt
  · exact branch_clear (c := fun x y => !x.ult y) h off (by simp [BitVec.ult])
  case jal =>
    show execJal d far s = _
    unfold execJal
    rw [withRegs_clear h]
    simp only [add_mul_signExtend]
  case jalr =>
    exact ⟨fun hal => (execJalr_clear h imm).trans (by rw [if_pos hal]), fun hmis => (execJalr_clear h imm).trans (by rw [if_neg hmis])⟩

end Sys2Proof.Machine
end

section
/-!
PROOFS. Hardware loops (R128 to R130): opening a level, and the end-of-body test: O6.
-/

namespace Sys2Proof.Machine

/-! ### LOOP and LOOPI (R129) -/

theorem openLoop_skip {s : State} {last : Word} {w : W32} (n : Nat) (hw : cachedWord s.me last = some w) :
    openLoop s n 0 last = s.modMe fun k => k.jump (last + if w.extractLsb' 26 6 = 0x3F then 20 else 4) := by
  unfold openLoop
  rw [if_pos rfl, hw]

theorem openLoop_open {s : State} {n : Nat} {c : W32} {last : Word} (hc : c ≠ 0) :
    openLoop s n c last = s.modMe fun k =>
      (k.modHandler k.bank fun h =>
        { h.setLevel n { lc := c, ls := k.pc + 4, le := last } with order := n :: h.order.erase n }).finish (k.pc + 4) :=
  if_neg hc

theorem four_mul_setWidth {w : Nat} (e : BitVec w) : 4 * e.setWidth 64 = BitVec.ofNat 64 (4 * e.toNat) := by
  rw [BitVec.ofNat_mul, BitVec.ofNat_toNat]
  rfl

theorem execLoop_clear {s : State} {c : Reg} (h : s.clear [c]) (level : BitVec 2) (e : BitVec 19) :
    execLoop level c e s = .next (if (s.rd c).toNat < 2 ^ 32 then
        openLoop s level.toNat (BitVec.ofNat 32 (s.rd c).toNat) (s.me.pc + BitVec.ofNat 64 (4 * e.toNat))
      else preciseFault s cLOOPCOUNT 0 (s.rd c)) := by
  unfold execLoop
  rw [withRegs_clear h]
  simp only [ne_eq, high_eq_zero_iff, ite_not, four_mul_setWidth, BitVec.ofNat_toNat]

theorem execLoopi_eq (s : State) (level : BitVec 2) (count last : BitVec 12) :
    execLoopi level count last s =
      .next (openLoop s level.toNat (BitVec.ofNat 32 count.toNat) (s.me.pc + BitVec.ofNat 64 (4 * last.toNat))) := by
  unfold execLoopi
  rw [four_mul_setWidth, BitVec.ofNat_toNat]

/-- A nonzero count that fits is not lost when it is cut to 32 bits. -/
theorem ofNat32_ne_zero {x : Nat} (hx : x < 2 ^ 32) (h0 : x ≠ 0) : BitVec.ofNat 32 x ≠ 0 := by
  intro h
  have := congrArg BitVec.toNat h
  rw [BitVec.toNat_ofNat, Nat.mod_eq_of_lt hx] at this
  exact h0 this

/-! ### The levels of a handler (R128) -/

theorem Handler.setLevel_with_order (h : Handler) (o : List Nat) (n : Nat) (l : Loop) :
    ({ h with order := o } : Handler).setLevel n l = { h.setLevel n l with order := o } := by
  unfold Handler.setLevel
  split
  · rfl
  · split <;> rfl

theorem Handler.level_with_order (h : Handler) (o : List Nat) (n : Nat) : ({ h with order := o } : Handler).level n = h.level n := rfl

theorem Handler.level_setLevel_other {h : Handler} {n m : Nat} (l : Loop) (hn : n < 3) (hm : m < 3) (hne : n ≠ m) :
    (h.setLevel n l).level m = h.level m := by
  unfold Handler.setLevel Handler.level
  split_ifs <;> grind

/-! ### The end-of-body test (R130) -/

/-- Levels that end elsewhere are passed over. -/
theorem bodyTest_append {h : Handler} {ia : Word} (npc : Word) {pre : List Nat} (post : List Nat) (hpre : ∀ m ∈ pre, (h.level m).le ≠ ia) :
    bodyTest h ia npc (pre ++ post) = bodyTest h ia npc post := by
  induction pre with
  | nil => rfl
  | cons m r ih =>
    rw [List.cons_append, bodyTest, if_neg (hpre m List.mem_cons_self), ih fun x hx => hpre x (List.mem_cons_of_mem m hx)]

theorem bodyTest_none {h : Handler} {ia : Word} (npc : Word) {l : List Nat} (hl : ∀ m ∈ l, (h.level m).le ≠ ia) :
    bodyTest h ia npc l = (h, npc) := by
  have h := bodyTest_append npc [] hl
  rwa [List.append_nil] at h

theorem bodyTest_repeat {h : Handler} {ia : Word} (npc : Word) {n : Nat} (post : List Nat) (hle : (h.level n).le = ia)
    (hlc : 1 < (h.level n).lc.toNat) :
    bodyTest h ia npc (n :: post) = (h.setLevel n { h.level n with lc := (h.level n).lc - 1 }, (h.level n).ls) := by
  rw [bodyTest, if_pos hle, if_pos hlc]

theorem bodyTest_close {h : Handler} {ia : Word} (npc : Word) {n : Nat} (post : List Nat) (hle : (h.level n).le = ia)
    (hlc : (h.level n).lc.toNat ≤ 1) :
    bodyTest h ia npc (n :: post) =
      bodyTest { h.setLevel n { h.level n with lc := 0 } with order := h.order.erase n } ia npc post := by
  rw [bodyTest, if_pos hle, if_neg (Nat.not_lt.mpr hlc)]

/-! ### Completing an instruction -/

/-- The instruction boundary changes the debug flags only (R140). -/
theorem boundary_frame (k : Core) : boundary k = { k with stepping := (boundary k).stepping, stopped := (boundary k).stopped } := by
  unfold boundary
  split <;> rfl

@[simp] theorem boundary_pc (k : Core) : (boundary k).pc = k.pc := by rw [boundary_frame]
@[simp] theorem boundary_handlers (k : Core) : (boundary k).handlers = k.handlers := by rw [boundary_frame]

theorem Core.finish_pc (k : Core) (npc : Word) :
    (k.finish npc).pc = (bodyTest (k.handler k.bank) k.pc npc (k.handler k.bank).order).2 := boundary_pc _

theorem Core.finish_handlers (k : Core) (npc : Word) :
    (k.finish npc).handlers =
      (k.modHandler k.bank fun _ => (bodyTest (k.handler k.bank) k.pc npc (k.handler k.bank).order).1).handlers := boundary_handlers _

theorem Core.finish_handler (k : Core) (npc : Word) :
    (k.finish npc).handler k.bank = (bodyTest (k.handler k.bank) k.pc npc (k.handler k.bank).order).1 := by
  rw [Core.handler, Core.finish_handlers]
  exact Core.handler_modHandler_self ..

theorem Core.finish_handler_other (k : Core) (npc : Word) {c : Nat} (hc : c ≠ k.bank) : (k.finish npc).handler c = k.handler c := by
  rw [Core.handler, Core.finish_handlers]
  exact Core.handler_modHandler_other _ _ hc

theorem Core.finish_frame (k : Core) (npc : Word) :
    k.finish npc = { k with
      pc := (k.finish npc).pc, handlers := (k.finish npc).handlers, stepping := (k.finish npc).stepping, stopped := (k.finish npc).stopped } := by
  rw [Core.finish_pc, Core.finish_handlers]
  exact boundary_frame _

/-- The handler and pc after an instruction that does not transfer control are those of the end-of-body test. -/
theorem Core.finish_of_bodyTest {k : Core} {npc next : Word} {h : Handler}
    (ht : bodyTest (k.handler k.bank) k.pc npc (k.handler k.bank).order = (h, next)) :
    (k.finish npc).pc = next ∧ (k.finish npc).handler k.bank = h := by
  rw [Core.finish_pc, Core.finish_handler, ht]
  exact ⟨rfl, rfl⟩

/-! ### O6 -/

/-- Settles O6: what LOOP and LOOPI do by the count, then each outcome of the end-of-body test. -/
theorem hardwareLoops : Obligations.HardwareLoops := by
  refine ⟨?opening, ?test⟩
  case opening =>
    intro s n c e count last
    have hn : (BitVec.ofNat 2 (n : Nat)).toNat = n := Nat.mod_eq_of_lt (by omega)
    refine ⟨fun h => ?loop, fun hcount => ?_, fun w hw => ?_⟩
    case loop =>
      have hloop := execLoop_clear h (BitVec.ofNat 2 n) e
      rw [hn] at hloop
      refine ⟨fun hv h0 => ?_, fun w h0 hw => ?_, fun hv => hloop.trans (by rw [if_neg (by omega)])⟩
      · have hne : (s.rd c).toNat ≠ 0 := fun hz => h0 (BitVec.eq_of_toNat_eq hz)
        exact hloop.trans (by rw [if_pos hv, openLoop_open (ofNat32_ne_zero hv hne)])
      · have hzero : (s.rd c).toNat = 0 := congrArg BitVec.toNat h0
        rw [hzero, if_pos (by decide)] at hloop
        exact hloop.trans (congrArg _ (openLoop_skip n hw))
    · have hlt := count.isLt
      have hne : count.toNat ≠ 0 := fun hz => hcount (BitVec.eq_of_toNat_eq hz)
      refine (execLoopi_eq ..).trans ?_
      rw [hn, openLoop_open (ofNat32_ne_zero (by omega) hne)]
    · refine (execLoopi_eq ..).trans ?_
      rw [hn]
      exact congrArg _ (openLoop_skip n hw)
  case test =>
    intro k npc
    refine ⟨fun hno => ?_, fun pre post n ho hpre hle hlc => ?_, fun n _ ho hle hlc => ?_, fun n m hn hm hne ho hle hle' hlc hlc' => ?_,
      fun c hc => Core.finish_handler_other k npc hc, Core.finish_frame k npc⟩
    · exact Core.finish_of_bodyTest (bodyTest_none npc hno)
    · exact Core.finish_of_bodyTest (by rw [ho, bodyTest_append npc _ hpre, bodyTest_repeat npc post hle hlc])
    · exact Core.finish_of_bodyTest (by rw [ho, bodyTest_close npc [] hle hlc, ho, List.erase_cons_head]; rfl)
    · have hlevel : (({ (k.handler k.bank).setLevel n { (k.handler k.bank).level n with lc := 0 } with order := [m] } : Handler)).level m =
          (k.handler k.bank).level m :=
        (Handler.level_with_order ..).trans (Handler.level_setLevel_other _ hn hm hne)
      refine Core.finish_of_bodyTest ?_
      rw [ho, bodyTest_close npc [m] hle hlc, ho, List.erase_cons_head, bodyTest_repeat npc [] (hlevel ▸ hle') (hlevel ▸ hlc'), hlevel,
        Handler.setLevel_with_order]

end Sys2Proof.Machine
end

section
/-!
PROOFS. Loads and stores of device memory (R124, R283, R292) and the FENCE (R284, R286): O9, O10.
-/

namespace Sys2Proof.Machine

/-! ### A table entry written under a condition -/

theorem tget_ite_tset_self {α : Type} [DecidableEq α] (d : α) (t : Tbl α) (k : Nat) (v : α) {z : Prop} [Decidable z] (hz : ¬z) :
    tget d (if z then t else tset d t k v) k = v := by
  rw [if_neg hz, tget_tset_self]

theorem tget_ite_tset_other {α : Type} [DecidableEq α] (d : α) (t : Tbl α) {k p : Nat} (v : α) {z : Prop} [Decidable z] (h : p ≠ k ∨ z) :
    tget d (if z then t else tset d t k v) p = tget d t p := by
  split
  · rfl
  · next hz => exact tget_tset_other _ _ _ (h.resolve_right hz)

/-! ### What completing an instruction leaves -/

section
variable (k : Core) (npc : Word)
@[simp] theorem Core.finish_regs : (k.finish npc).regs = k.regs := by rw [Core.finish_frame]
@[simp] theorem Core.finish_pend : (k.finish npc).pend = k.pend := by rw [Core.finish_frame]
@[simp] theorem Core.finish_lmem : (k.finish npc).lmem = k.lmem := by rw [Core.finish_frame]
@[simp] theorem Core.finish_fence : (k.finish npc).fence = k.fence := by rw [Core.finish_frame]
end

theorem Core.finish_pc_congr {k j : Core} (npc : Word) (hpc : j.pc = k.pc) (hh : j.handlers = k.handlers) (hr : j.running = k.running) :
    (j.finish npc).pc = (k.finish npc).pc := by
  rw [Core.finish_pc, Core.finish_pc]
  simp only [Core.handler, Core.bank, hpc, hh, hr]

theorem me_modMe (s : State) (f : Core → Core) : (s.modMe f).me = f s.me := State.core_modCore_self ..

theorem me_advance (s : State) (f : Core → Core) : (advance s f).me = (f s.me).finish (s.me.pc + 4) :=
  me_modMe s fun k => (f k).finish (k.pc + 4)

/-! ### The checks of R124 -/

theorem deviceAccess_acquire {s : State} (ea : Word) (n : Nat) (store : Bool) (f : State → TcEntry → State) (hacq : s.me.acq ≠ none) :
    deviceAccess s ea n store f = stallOn s .acquire := by
  unfold deviceAccess
  rw [if_pos (Option.isSome_iff_ne_none.mpr hacq)]

section
variable {s : State} {ea : Word} {n : Nat} {store : Bool} {f : State → TcEntry → State} (hacq : s.me.acq = none)
include hacq

theorem deviceAccess_fence (hf : otherFence s.me = true) : deviceAccess s ea n store f = stallOn s .fence := by
  unfold deviceAccess
  rw [if_neg (by simp [hacq]), if_pos hf]

variable (hf : otherFence s.me = false)
include hf

theorem deviceAccess_misaligned (hal : ea.toNat % n ≠ 0) : deviceAccess s ea n store f = preciseFault s cALIGN 0 ea := by
  unfold deviceAccess
  rw [if_neg (by simp [hacq]), if_neg (by simp [hf]), if_pos hal]

variable (hal : ea.toNat % n = 0)
include hal

theorem deviceAccess_hit {e : TcEntry} {u : State} (ht : translate s s.cur.core (coreRoot s s.cur.core) ea store false = (.hit e, u)) :
    deviceAccess s ea n store f = f u e := by
  unfold deviceAccess
  rw [if_neg (by simp [hacq]), if_neg (by simp [hf]), if_neg (not_not.mpr hal), ht]

theorem deviceAccess_noncanonical (hc : canonical ea = false) : deviceAccess s ea n store f = preciseFault s cTRANSLATION 0 ea := by
  have ht : translate s s.cur.core (coreRoot s s.cur.core) ea store false = (.fault (cTRANSLATION, false), s) := by
    unfold translate
    rw [if_pos (by simp [hc])]
  unfold deviceAccess
  rw [if_neg (by simp [hacq]), if_neg (by simp [hf]), if_neg (not_not.mpr hal), ht]
  rfl

end

theorem loadDevice_clear {s : State} {d a : Reg} (h : s.clear [d, a]) (imm : BitVec 16) (n : Nat) :
    loadDevice s d a imm n = .next (deviceAccess s (BitVec.ofInt 64 ((s.rd a).toInt + imm.toInt)) n false fun u e =>
      issueLoad u d (BitVec.ofInt 64 ((s.rd a).toInt + imm.toInt)) n false 0 e) := by
  unfold loadDevice
  rw [withRegs_clear h, add_sext16]

theorem storeDevice_clear {s : State} {d a : Reg} (h : s.clear [d, a]) (imm : BitVec 16) (n : Nat) :
    storeDevice s d a imm n = .next (deviceAccess s (BitVec.ofInt 64 ((s.rd a).toInt + imm.toInt)) n true fun u e =>
      issueStore u (BitVec.ofInt 64 ((s.rd a).toInt + imm.toInt)) n (u.rd d) none e) := by
  unfold storeDevice
  rw [withRegs_clear h, add_sext16]

/-! ### The issue of an access -/

/-- An access whose home is its own die joins the outstanding accesses and nothing else changes but the number given. -/
theorem issueAccess_local {s : State} {a : Access} (h : a.remote = false) : issueAccess s a = queueAccess s a := by
  unfold issueAccess
  simp only [h, Bool.false_eq_true, if_false]

/-- The access that a load issues. -/
def loadOf (s : State) (d : Reg) (ea : Word) (n : Nat) (acq : Bool) (scope : BitVec 2) (e : TcEntry) : Access :=
  { mkAccess s (.seq s.cur.core) .read e ea n [] (.reg s.cur.core (if d = 0 then 0 else physReg s.me.bank d.toNat) s.me.pc) with
    acq := acq, scope := scope, iaddr := s.me.pc }

theorem issueLoad_local {s : State} {ea : Word} {e : TcEntry} (d : Reg) (n : Nat) (acq : Bool) (scope : BitVec 2)
    (hhome : e.homeOf s ea = dieOf s.cur.core) :
    issueLoad s d ea n acq scope e = advance (queueAccess s (loadOf s d ea n acq scope e)) fun k =>
      { k with pend := if d = 0 then k.pend else tset false k.pend (if d = 0 then 0 else physReg s.me.bank d.toNat) true
               acq := if acq then some (loadOf s d ea n acq scope e).id else k.acq } := by
  have hlocal : (loadOf s d ea n acq scope e).remote = false := bne_eq_false_iff_eq.mpr hhome
  rw [← issueAccess_local hlocal]
  rfl

/-- The access that a plain store issues. -/
def storeOf (s : State) (ea : Word) (n : Nat) (v : Word) (e : TcEntry) : Access :=
  { mkAccess s (.seq s.cur.core) .write e ea n (natLe n v.toNat) .none with iaddr := s.me.pc }

theorem issueStore_local {s : State} {ea : Word} {e : TcEntry} (n : Nat) (v : Word) (hhome : e.homeOf s ea = dieOf s.cur.core) :
    issueStore s ea n v none e = advance (queueAccess s (storeOf s ea n v e)) id := by
  have hlocal : (storeOf s ea n v e).remote = false := bne_eq_false_iff_eq.mpr hhome
  rw [← issueAccess_local hlocal]
  rfl

/-! ### O9 -/

/-- Settles O9: the checks of R124, then what the issue of a load and of a store leaves. -/
theorem deviceLoadsAndStores : Obligations.DeviceLoadsAndStores := by
  refine ⟨?checks, ?load, ?store⟩
  case checks =>
    intro s u d a imm e h hacq hf
    have hl := loadDevice_clear h imm
    have hs := storeDevice_clear h imm
    refine ⟨fun hal ht => ?_, fun hal ht => ?_, fun hal ht => ?_, fun hal ht => ?_, fun hal => ⟨?_, ?_⟩, fun hal => ⟨?_, ?_⟩,
      fun hal hc => ⟨?_, ?_⟩⟩
    · exact (hl 8).trans (congrArg _ (deviceAccess_hit hacq hf hal ht))
    · exact (hl 4).trans (congrArg _ (deviceAccess_hit hacq hf hal ht))
    · exact (hs 8).trans (congrArg _ (deviceAccess_hit hacq hf hal ht))
    · exact (hs 4).trans (congrArg _ (deviceAccess_hit hacq hf hal ht))
    · exact (hl 8).trans (congrArg _ (deviceAccess_misaligned hacq hf hal))
    · exact (hs 8).trans (congrArg _ (deviceAccess_misaligned hacq hf hal))
    · exact (hl 4).trans (congrArg _ (deviceAccess_misaligned hacq hf hal))
    · exact (hs 4).trans (congrArg _ (deviceAccess_misaligned hacq hf hal))
    · exact (hl 8).trans (congrArg _ (deviceAccess_noncanonical hacq hf hal hc))
    · exact (hs 8).trans (congrArg _ (deviceAccess_noncanonical hacq hf hal hc))
  case load =>
    intro s d ea n e hhome
    simp only [issueLoad_local d n false 0 hhome]
    refine ⟨⟨loadOf s d ea n false 0 e, rfl, rfl, rfl, rfl, rfl, rfl, rfl⟩, ?_⟩
    simp only [me_advance, Core.finish_regs, Core.finish_pend, Core.finish_lmem]
    exact ⟨rfl, fun hd => tget_ite_tset_self _ _ _ _ hd, fun p hp => tget_ite_tset_other _ _ _ (.inl hp),
      Core.finish_pc_congr _ rfl rfl rfl, rfl, rfl, rfl⟩
  case store =>
    intro s ea v n e hhome
    simp only [issueStore_local n v hhome]
    refine ⟨⟨storeOf s ea n v e, rfl, rfl, rfl, rfl, rfl, rfl, rfl⟩, ?_⟩
    simp only [me_advance, Core.finish_regs, Core.finish_pend, Core.finish_lmem]
    exact ⟨rfl, rfl, rfl, rfl, rfl, rfl⟩

end Sys2Proof.Machine
end

section
/-!
PROOFS. Acquires, releases and the FENCE (R284 to R286, R292): O10.
-/

namespace Sys2Proof.Machine

/-! ### What a FENCE leaves alone -/

/-- Two states of a core that differ in its fence, its fence probes and its race detector at most, as far as an instruction can tell. -/
structure Core.SameWork (k j : Core) : Prop where
  regs : j.regs = k.regs
  pend : j.pend = k.pend
  lmem : j.lmem = k.lmem
  pc : j.pc = k.pc
  handlers : j.handlers = k.handlers
  running : j.running = k.running

/-- The same for the machine: the acting core, the memories and the outstanding accesses. -/
structure State.SameWork (s t : State) : Prop where
  cur : t.cur = s.cur
  accs : t.accs = s.accs
  mem : t.mem = s.mem
  hostMem : t.hostMem = s.hostMem
  me : s.me.SameWork t.me

theorem Core.SameWork.rfl {k : Core} : k.SameWork k := ⟨.refl _, .refl _, .refl _, .refl _, .refl _, .refl _⟩

theorem State.SameWork.rfl {s : State} : s.SameWork s := ⟨.refl _, .refl _, .refl _, .refl _, Core.SameWork.rfl⟩

theorem Core.SameWork.trans {k j i : Core} (h : k.SameWork j) (h' : j.SameWork i) : k.SameWork i :=
  ⟨h'.regs.trans h.regs, h'.pend.trans h.pend, h'.lmem.trans h.lmem, h'.pc.trans h.pc, h'.handlers.trans h.handlers,
    h'.running.trans h.running⟩

theorem State.SameWork.trans {s t u : State} (h : s.SameWork t) (h' : t.SameWork u) : s.SameWork u :=
  ⟨h'.cur.trans h.cur, h'.accs.trans h.accs, h'.mem.trans h.mem, h'.hostMem.trans h.hostMem, h.me.trans h'.me⟩

theorem State.SameWork.modMe {s : State} {f : Core → Core} (h : s.me.SameWork (f s.me)) : s.SameWork (s.modMe f) :=
  ⟨.refl _, .refl _, .refl _, .refl _, by rwa [me_modMe]⟩

/-- What a FENCE that ends answers: the instruction completes, no fence is left, and nothing else that an instruction can tell has
changed (R286). -/
theorem State.SameWork.fence_ends {s u : State} (h : s.SameWork u) (scope : BitVec 2) :
    let t := advance (raceRelease (u.modMe fun k => { k with fence := none }) s.cur.core scope) id
    t.me.fence = none ∧ t.me.pc = (s.me.finish (s.me.pc + 4)).pc ∧ t.me.regs = s.me.regs ∧ t.me.pend = s.me.pend ∧
      t.me.lmem = s.me.lmem ∧ t.accs = s.accs ∧ t.mem = s.mem ∧ t.hostMem = s.hostMem := by
  have hgone : s.SameWork (u.modMe fun k => { k with fence := none }) :=
    h.trans (State.SameWork.modMe ⟨.refl _, .refl _, .refl _, .refl _, .refl _, .refl _⟩)
  have hnone : (u.modMe fun k => { k with fence := none }).me.fence = none := by rw [me_modMe]
  generalize (u.modMe fun k => { k with fence := none }) = v at hgone hnone
  have hrel : raceRelease v s.cur.core scope = raceRelease v v.cur.core scope := by rw [hgone.cur]
  have hwork : v.me.SameWork (raceRelease v v.cur.core scope).me := by
    unfold raceRelease
    exact (State.SameWork.modMe (s := v) ⟨.refl _, .refl _, .refl _, .refl _, .refl _, .refl _⟩).me
  have hfence : (raceRelease v v.cur.core scope).me.fence = none := by
    unfold raceRelease
    exact (congrArg Core.fence (me_modMe v _)).trans hnone
  have hall := hgone.me.trans hwork
  intro t
  have hme : t.me = (raceRelease v v.cur.core scope).me.finish ((raceRelease v v.cur.core scope).me.pc + 4) := by
    show (advance (raceRelease v s.cur.core scope) id).me = _
    rw [hrel, me_advance]
    rfl
  rw [hme]
  simp only [Core.finish_fence, Core.finish_regs, Core.finish_pend, Core.finish_lmem]
  refine ⟨hfence, ?_, hall.regs, hall.pend, hall.lmem, hgone.accs, hgone.mem, hgone.hostMem⟩
  rw [hall.pc]
  exact Core.finish_pc_congr _ hall.pc hall.handlers hall.running

/-! ### One move of a FENCE (R286) -/

/-- A FENCE that has found its scope reached does nothing more. -/
theorem fenceStep_done {s : State} {c : Nat} {f : Fence} (hf : (s.core c).fence = some f) (hd : f.done = true) : fenceStep s c = s := by
  simp [fenceStep, hf, hd]

/-- A FENCE below SYSTEM scope whose scope is not reached waits. -/
theorem fenceStep_waits {s : State} {c : Nat} {f : Fence} (hf : (s.core c).fence = some f) (hsc : f.scope ≠ 3#2)
    (hr : seqReached s c f.scope = false) : fenceStep s c = s := by
  simp [fenceStep, hf, hsc, hr]

/-- The mark that a FENCE leaves when its scope is reached. -/
def fenceReached (s : State) (c : Nat) (f : Fence) : State :=
  s.modCore c fun k => { k with fence := some { f with done := true }, probeFor := if k.probeFor == some 0 then none else k.probeFor }

/-- A FENCE below SYSTEM scope whose scope is reached is done. -/
theorem fenceStep_reached {s : State} {c : Nat} {f : Fence} (hf : (s.core c).fence = some f) (hd : f.done = false) (hsc : f.scope ≠ 3#2)
    (hr : seqReached s c f.scope = true) : fenceStep s c = fenceReached s c f := by
  simp [fenceStep, hf, hd, hsc, hr, fenceReached]

/-- A FENCE.SYSTEM whose probes are all answered is done when its scope is reached. -/
theorem fenceStep_answered {s : State} {c : Nat} {f : Fence} (hf : (s.core c).fence = some f) (hd : f.done = false) (hsc : f.scope = 3#2)
    (hpr : (s.core c).probes = []) (hfor : (s.core c).probeFor = some 0) (hr : seqReached s c 3#2 = true) :
    fenceStep s c = fenceReached s c f := by
  simp [fenceStep, hf, hd, hsc, hr, hpr, hfor, fenceReached]

/-- With no die to ask, sending the probes only notes that they serve the FENCE. -/
theorem sendProbes_none {s : State} {ag : Agent} (for_ : Nat) (h : unknownDies s ag = []) :
    sendProbes s ag for_ = setProbes s ag { dirty := [], probes := [], probeFor := some for_ } := by
  simp [sendProbes, h]

/-- A FENCE.SYSTEM with no die to ask is done when its scope is reached. -/
theorem fenceStep_no_probes {s : State} {c : Nat} {f : Fence} (hf : (s.core c).fence = some f) (hd : f.done = false) (hsc : f.scope = 3#2)
    (hpr : (s.core c).probes = []) (hfor : (s.core c).probeFor ≠ some 0) (hun : unknownDies s (.seq c) = [])
    (hr2 : seqReached s c 2#2 = true) (hr : seqReached s c 3#2 = true) :
    fenceStep s c = fenceReached (setProbes s (.seq c) { dirty := [], probes := [], probeFor := some 0 }) c f := by
  have hr' : seqReached (setProbes s (.seq c) { dirty := [], probes := [], probeFor := some 0 }) c 3#2 = true := hr
  have hcore : (setProbes s (.seq c) { dirty := [], probes := [], probeFor := some 0 }).core c =
      { s.core c with dirty := [], probes := [], probeFor := some 0 } := State.core_modCore_self ..
  simp [fenceStep, hf, hd, hsc, hpr, hfor, hr2, sendProbes_none 0 hun, hr', hcore, fenceReached]

/-! ### FENCE -/

/-- The mark of a FENCE that the running handler begins. -/
def fenceMark (k : Core) (scope : BitVec 2) : Fence := { chan := k.bank, iaddr := k.pc, scope := scope, done := false }

/-- The state in which the FENCE of the running handler is in progress. -/
def fenceBegun (s : State) (scope : BitVec 2) : State := s.modMe fun k => { k with fence := some (fenceMark k scope) }

theorem fenceBegun_core (s : State) (scope : BitVec 2) :
    (fenceBegun s scope).core s.cur.core = { s.me with fence := some (fenceMark s.me scope) } := by
  unfold fenceBegun
  exact State.core_modCore_self ..

theorem fenceBegun_fence (s : State) (scope : BitVec 2) : ((fenceBegun s scope).core s.cur.core).fence = some (fenceMark s.me scope) := by
  rw [fenceBegun_core]

theorem fenceBegun_probes (s : State) (scope : BitVec 2) : ((fenceBegun s scope).core s.cur.core).probes = s.me.probes := by
  rw [fenceBegun_core]

theorem fenceBegun_probeFor (s : State) (scope : BitVec 2) : ((fenceBegun s scope).core s.cur.core).probeFor = s.me.probeFor := by
  rw [fenceBegun_core]

theorem unknownDies_fenceBegun (s : State) (scope : BitVec 2) :
    unknownDies (fenceBegun s scope) (.seq s.cur.core) = unknownDies s (.seq s.cur.core) := by
  have hview : probeView (fenceBegun s scope) (.seq s.cur.core) = probeView s (.seq s.cur.core) := by
    simp only [probeView, fenceBegun_core]
  unfold unknownDies
  rw [hview]
  rfl

theorem fenceBegun_sameWork (s : State) (scope : BitVec 2) : s.SameWork (fenceBegun s scope) := by
  unfold fenceBegun
  exact State.SameWork.modMe ⟨.refl _, .refl _, .refl _, .refl _, .refl _, .refl _⟩

/-- The end of a FENCE, or its stall, by the mark that its move has left. -/
def fenceOutcome (s u : State) (scope : BitVec 2) : State :=
  if (u.me.fence.map (·.done)).getD false then
    advance (raceRelease (u.modMe fun k => { k with fence := none }) s.cur.core scope) id
  else stallOn u .fence

theorem execFence_begin {s : State} (scope : BitVec 2) (hacq : s.me.acq = none) (hf : s.me.fence = none) :
    execFence scope s = .next (fenceOutcome s (fenceStep (fenceBegun s scope) s.cur.core) scope) := by
  have hgo : (s.me.acq.isSome || otherFence s.me) = false := by simp [otherFence, hacq, hf]
  have hmine : (s.me.fence.map fun f => f.chan == s.me.bank).getD false = false := by simp [hf]
  simp only [execFence, hgo, hmine]
  rfl

theorem execFence_again {s : State} {f : Fence} (scope : BitVec 2) (hacq : s.me.acq = none) (hf : s.me.fence = some f)
    (hchan : f.chan = s.me.bank) : execFence scope s = .next (fenceOutcome s (fenceStep s s.cur.core) scope) := by
  have hgo : (s.me.acq.isSome || otherFence s.me) = false := by simp [otherFence, hacq, hf, hchan]
  have hmine : (s.me.fence.map fun f => f.chan == s.me.bank).getD false = true := by simp [hf, hchan]
  simp only [execFence, hgo, hmine]
  rfl

theorem execFence_stalls {s : State} (scope : BitVec 2) (hf : otherFence s.me = true) : execFence scope s = .next (stallOn s .fence) := by
  simp [execFence, hf]

/-- A FENCE whose move has left the mark of a reached scope ends. -/
theorem fenceOutcome_reached {s u : State} {f : Fence} (scope : BitVec 2) (hf : u.me.fence = some f) (hd : f.done = true) :
    fenceOutcome s u scope = advance (raceRelease (u.modMe fun k => { k with fence := none }) s.cur.core scope) id := by
  simp [fenceOutcome, hf, hd]

/-- A FENCE whose mark says that its scope is not reached stalls. -/
theorem fenceOutcome_waiting (s : State) {u : State} {f : Fence} (scope : BitVec 2) (hf : u.me.fence = some f) (hd : f.done = false) :
    fenceOutcome s u scope = stallOn u .fence := by
  simp [fenceOutcome, hf, hd]

theorem setProbes_sameWork (s : State) (v : ProbeView) : s.SameWork (setProbes s (.seq s.cur.core) v) := by
  unfold setProbes
  exact State.SameWork.modMe ⟨.refl _, .refl _, .refl _, .refl _, .refl _, .refl _⟩

theorem fenceReached_sameWork (s : State) (f : Fence) : s.SameWork (fenceReached s s.cur.core f) :=
  State.SameWork.modMe ⟨.refl _, .refl _, .refl _, .refl _, .refl _, .refl _⟩

theorem fenceReached_fence (s : State) (c : Nat) (f : Fence) :
    ((fenceReached s c f).core c).fence = some { f with done := true } := by
  rw [fenceReached, State.core_modCore_self]

/-- A FENCE ends when its move, from a state that an instruction cannot tell from this one, marks its scope reached. -/
theorem fence_ends {s v w : State} {f : Fence} {scope : BitVec 2} {r : Res}
    (hr : r = .next (fenceOutcome s (fenceStep w s.cur.core) scope)) (hstep : fenceStep w s.cur.core = fenceReached v s.cur.core f)
    (hv : s.SameWork v) :
    ∃ t, r = .next t ∧ t.me.fence = none ∧ t.me.pc = (s.me.finish (s.me.pc + 4)).pc ∧ t.me.regs = s.me.regs ∧ t.me.pend = s.me.pend ∧
      t.me.lmem = s.me.lmem ∧ t.accs = s.accs ∧ t.mem = s.mem ∧ t.hostMem = s.hostMem := by
  have hu : s.SameWork (fenceReached v s.cur.core f) := hv.cur ▸ hv.trans (fenceReached_sameWork v f)
  have hf : (fenceReached v s.cur.core f).me.fence = some { f with done := true } := by
    rw [State.me, hu.cur]
    exact fenceReached_fence ..
  rw [hstep, fenceOutcome_reached scope hf rfl] at hr
  exact ⟨_, hr, hu.fence_ends scope⟩

/-! ### O10 -/

theorem execLdgAcq_clear {s : State} {d a : Reg} (h : s.clear [d, a]) (scope : BitVec 2) :
    execLdgAcq d a scope s =
      .next (deviceAccess s (s.rd a) 8 false fun u e => issueLoad u d (u.rd a) 8 true scope e) := by
  unfold execLdgAcq
  rw [withRegs_clear h]

theorem execStgRel_clear {s : State} {a b : Reg} (h : s.clear [a, b]) (scope : BitVec 2) :
    execStgRel a b scope s =
      .next (deviceAccess s (s.rd a) 8 true fun u e => issueStore u (u.rd a) 8 (u.rd b) (some scope) e) := by
  unfold execStgRel
  rw [withRegs_clear h]

/-- Settles O10: the accesses by the checks of R124, the FENCE by what its one move finds. -/
theorem orderedAccessesAndFences : Obligations.OrderedAccessesAndFences := by
  intro s u d a b scope e
  refine ⟨fun h hacq hf hal ht => ?_, fun h hacq hf hal ht => ?_, fun hl hs hacq => ⟨?_, ?_⟩, fun hl hs hacq hf => ⟨?_, ?_, ?_⟩,
    fun hsc hacq hf hr => ?below, fun hacq hf hpr hun hr2 hr3 => ?unknown, fun hacq hf hfor hpr hr => ?answered, fun hacq hf => ?done,
    fun hsc hacq hf hr => ?waits⟩
  · exact (execLdgAcq_clear h scope).trans (congrArg _ (deviceAccess_hit hacq hf hal ht))
  · exact (execStgRel_clear h scope).trans (congrArg _ (deviceAccess_hit hacq hf hal ht))
  · exact (execLdgAcq_clear hl scope).trans (congrArg _ (deviceAccess_acquire _ _ _ _ hacq))
  · exact (execStgRel_clear hs scope).trans (congrArg _ (deviceAccess_acquire _ _ _ _ hacq))
  · exact (execLdgAcq_clear hl scope).trans (congrArg _ (deviceAccess_fence hacq hf))
  · exact (execStgRel_clear hs scope).trans (congrArg _ (deviceAccess_fence hacq hf))
  · exact execFence_stalls scope hf
  case below =>
    exact fence_ends (execFence_begin scope hacq hf) (fenceStep_reached (fenceBegun_fence s scope) rfl hsc hr) (fenceBegun_sameWork s scope)
  case unknown =>
    have hmark := fenceBegun_fence s 3
    have hpr' := (fenceBegun_probes s 3).trans hpr
    have hun' := (unknownDies_fenceBegun s 3).trans hun
    by_cases hfor : s.me.probeFor = some 0
    · have hstep := fenceStep_answered hmark rfl rfl hpr' ((fenceBegun_probeFor s 3).trans hfor) hr3
      exact fence_ends (execFence_begin 3 hacq hf) hstep (fenceBegun_sameWork s 3)
    · have hstep := fenceStep_no_probes hmark rfl rfl hpr' (fun h => hfor ((fenceBegun_probeFor s 3).symm.trans h)) hun' hr2 hr3
      exact fence_ends (execFence_begin 3 hacq hf) hstep ((fenceBegun_sameWork s 3).trans (setProbes_sameWork (fenceBegun s 3) _))
  case answered =>
    exact fence_ends (execFence_again 3 hacq hf rfl) (fenceStep_answered hf rfl rfl hpr hfor hr) State.SameWork.rfl
  case done =>
    refine ⟨_, (execFence_again scope hacq hf rfl).trans ?_, State.SameWork.rfl.fence_ends scope⟩
    rw [fenceStep_done hf rfl, fenceOutcome_reached scope hf rfl]
  case waits =>
    have hmark := fenceBegun_fence s scope
    refine (execFence_begin scope hacq hf).trans ?_
    rw [fenceStep_waits hmark hsc hr]
    exact congrArg _ (fenceOutcome_waiting s scope hmark rfl)

end Sys2Proof.Machine
end

section
/-!
PROOFS. ISSUE and the acceptance of a command (R54 to R57): O16.
-/

namespace Sys2Proof.Machine

/-! ### Every command that the decoder gives has an executor -/

/-- ISSUE hands the instruction to its own meaning, which answers a next state. -/
def Offered (i : Instr) : Prop := ∀ (w : W32) (s : State), ∃ t, exec i s = .next t ∧ offer w i s = .next t

/-- A decoder that gives nothing but offered commands. -/
def GivesOffered (r : Decoded) : Prop := ∀ i, r = .ok i → Offered i

theorem GivesOffered.error (e : DecodeError) : GivesOffered (.error e) := fun _ h => by cases h

theorem GivesOffered.ite (p : Prop) [Decidable p] {x y : Decoded} (hx : GivesOffered x) (hy : GivesOffered y) :
    GivesOffered (if p then x else y) := by
  split
  · exact hx
  · exact hy

theorem GivesOffered.form {i : Instr} (h : Offered i) (z : Bool) : GivesOffered (form z i) := by
  intro j hj
  unfold Sys2Proof.form at hj
  split at hj
  · split at hj
    · cases hj; exact h
    · cases hj
  · cases hj

theorem decodeTileCmd_offered (c : Cmd128) : GivesOffered (decodeTileCmd c) := by
  unfold decodeTileCmd
  dsimp only
  split
  case h_10 => exact .error _
  all_goals (repeat' split) <;> exact .form (fun _ _ => ⟨_, rfl, rfl⟩) _

theorem decodeStreamCmd_offered (c : Cmd128) : GivesOffered (decodeStreamCmd c) := by
  unfold decodeStreamCmd
  dsimp only
  split
  case h_8 => exact .error _
  all_goals (repeat' split) <;> exact .form (fun _ _ => ⟨_, rfl, rfl⟩) _

theorem decodeMatrixCmd_offered (c : Cmd128) : GivesOffered (decodeMatrixCmd c) := by
  unfold decodeMatrixCmd
  dsimp only
  split
  case h_8 => exact .error _
  all_goals exact .form (fun _ _ => ⟨_, rfl, rfl⟩) _

theorem decodeKeyCmd_offered (c : Cmd128) : GivesOffered (decodeKeyCmd c) := by
  unfold decodeKeyCmd
  dsimp only
  split
  case h_7 => exact .error _
  all_goals (repeat' split) <;> exact .form (fun _ _ => ⟨_, rfl, rfl⟩) _

theorem decodeCopyCmd_offered (c : Cmd128) : GivesOffered (decodeCopyCmd c) := by
  unfold decodeCopyCmd
  dsimp only
  split
  case h_5 => exact .error _
  all_goals exact .form (fun _ _ => ⟨_, rfl, rfl⟩) _

theorem decodeCollectiveCmd_offered (c : Cmd128) : GivesOffered (decodeCollectiveCmd c) := by
  unfold decodeCollectiveCmd
  dsimp only
  split
  case h_6 => exact .error _
  all_goals (repeat' split) <;> exact .form (fun _ _ => ⟨_, rfl, rfl⟩) _

theorem decodeAtomicCmd_offered (c : Cmd128) : GivesOffered (decodeAtomicCmd c) := by
  unfold decodeAtomicCmd
  dsimp only
  split
  case h_5 => exact .error _
  all_goals exact .form (fun _ _ => ⟨_, rfl, rfl⟩) _

/-- By the class of the command (R60). -/
theorem decodeCommand_offered (c : Cmd128) : GivesOffered (decodeCommand c) := by
  unfold decodeCommand
  split
  · exact decodeTileCmd_offered c
  · exact decodeStreamCmd_offered c
  · exact decodeMatrixCmd_offered c
  · exact decodeKeyCmd_offered c
  · exact decodeCopyCmd_offered c
  · exact decodeCollectiveCmd_offered c
  · exact decodeAtomicCmd_offered c
  · exact .error _

theorem legalCommand_offered (c : Cmd128) (e2 e1 e0 wide : Bool) : GivesOffered (legalCommand c e2 e1 e0 wide) := by
  unfold legalCommand
  split
  · exact .error _
  · next i hi =>
    refine .ite _ (fun j hj => ?_) (.error _)
    cases hj
    exact decodeCommand_offered c i hi

/-! ### The bound command (R55) -/

/-- The four fields of a concatenation of four words. -/
theorem fields_append4 (b3 b2 b1 b0 : W32) :
    (b3 ++ b2 ++ b1 ++ b0).extractLsb' 96 32 = b3 ∧ (b3 ++ b2 ++ b1 ++ b0).extractLsb' 0 32 = b0 ∧
      (b3 ++ b2 ++ b1 ++ b0).extractLsb' 32 32 = b1 ∧ (b3 ++ b2 ++ b1 ++ b0).extractLsb' 64 32 = b2 := by
  refine ⟨?_, ?_, ?_, ?_⟩
  · rw [fld_app_hi _ _ _ _ (by decide), fld_app_hi _ _ _ _ (by decide), fld_app_hi _ _ _ _ (by decide)]
    exact fld_all _
  · rw [fld_app_lo _ _ _ _ (by decide)]
    exact fld_all _
  · rw [fld_app_hi _ _ _ _ (by decide), fld_app_lo _ _ _ _ (by decide)]
    exact fld_all _
  · rw [fld_app_hi _ _ _ _ (by decide), fld_app_hi _ _ _ _ (by decide), fld_app_lo _ _ _ _ (by decide)]
    exact fld_all _

/-! ### ISSUE -/

section
variable {s : State} {xt xb0 xb1 xb2 : Reg} {e2 e1 e0 wide : Bool} {cmd : Cmd128} (h : s.clear [xt, xb0, xb1, xb2])
include h

theorem firstPending_issueRegs : firstPending s.me (issueRegs xt xb0 xb1 xb2 e2 e1 e0) = none := by
  refine firstPending_clear fun r hr => h r ?_
  simp only [issueRegs, List.mem_append, List.mem_ite_nil_right, List.mem_singleton] at hr
  simp only [List.mem_cons, List.not_mem_nil]
  tauto

/-- The limit of 16 outstanding commands (R56). -/
theorem execIssue_full (hfull : 16 ≤ s.me.cmds.length + s.me.replay.length + s.me.reinj.length) :
    execIssue xt xb0 xb1 xb2 e2 e1 e0 wide cmd s = .next (stallOn s .slots) := by
  unfold execIssue
  rw [firstPending_issueRegs h]
  exact if_pos hfull

variable (hroom : s.me.cmds.length + s.me.replay.length + s.me.reinj.length < 16) (hacq : s.me.acq = none) (hf : otherFence s.me = false)
include hroom hacq hf

theorem execIssue_legal {i : Instr} (hl : legalCommand (bindFields s.me xb0 xb1 xb2 e2 e1 e0 wide cmd) e2 e1 e0 wide = .ok i) :
    execIssue xt xb0 xb1 xb2 e2 e1 e0 wide cmd s = offer ((encodeScalar (.issue xt xb0 xb1 xb2 e2 e1 e0 wide cmd)).getD 0) i
      { s with cur := { s.cur with cmd := bindFields s.me xb0 xb1 xb2 e2 e1 e0 wide cmd, xt := xt.toNat, slot := 0, replay := none } } := by
  unfold execIssue
  simp only [firstPending_issueRegs h, Nat.not_le.mpr hroom, hacq, hf, hl, Option.isSome_none, Bool.false_eq_true, if_false]

theorem execIssue_illegal {x : DecodeError} (hl : legalCommand (bindFields s.me xb0 xb1 xb2 e2 e1 e0 wide cmd) e2 e1 e0 wide = .error x) :
    execIssue xt xb0 xb1 xb2 e2 e1 e0 wide cmd s = illegalIssue ((encodeScalar (.issue xt xb0 xb1 xb2 e2 e1 e0 wide cmd)).getD 0) s := by
  unfold execIssue
  simp only [firstPending_issueRegs h, Nat.not_le.mpr hroom, hacq, hf, hl, Option.isSome_none, Bool.false_eq_true, if_false]

end

/-! ### Acceptance (R56) -/

@[simp] theorem Core.finish_cmds (k : Core) (npc : Word) : (k.finish npc).cmds = k.cmds := by rw [Core.finish_frame]
@[simp] theorem Core.finish_tiles (k : Core) (npc : Word) : (k.finish npc).tiles = k.tiles := by rw [Core.finish_frame]

/-- The command that acceptance makes outstanding. -/
def acceptedCmd (s : State) (desc : List Byte) (prog : Nat) : Cmd :=
  { id := newId s, cmd := s.cur.cmd, xt := s.cur.xt, iaddr := s.me.pc, chan := s.me.bank, follow := false, phase := .accepted, code := 0,
    result := 0, desc := desc, prog := prog, acc := 0, home := dieOf s.cur.core, ctl := .here }

/-- The acting core once its command has been accepted, before it moves on. -/
def acceptedCore (s : State) (desc : List Byte) (prog : Nat) : Core :=
  { s.me with
    cmds := s.me.cmds ++ [acceptedCmd s desc prog]
    pend := if s.cur.xt = 0 then s.me.pend else tset false s.me.pend (physReg s.me.bank s.cur.xt) true }

theorem accept_me {s : State} (desc : List Byte) (prog : Nat) (hr : s.cur.replay = none) :
    (accept s desc prog).me = (acceptedCore s desc prog).finish (s.me.pc + 20) := by
  simp only [accept, hr]
  exact me_modMe s.bump _

/-- Settles O16: the fields of the bound command, the outcomes of ISSUE, and what acceptance changes. -/
theorem issueAndAcceptance : Obligations.IssueAndAcceptance := by
  refine ⟨?issue, ?accept⟩
  case issue =>
    intro s xt xb0 xb1 xb2 e2 e1 e0 wide cmd _
    refine ⟨fields_append4 .., fun h hroom hacq hf => ⟨fun i hl => ?_, fun x hl => ?_⟩, fun h hfull => execIssue_full h hfull⟩
    · obtain ⟨t, hexec, hoffer⟩ := legalCommand_offered _ e2 e1 e0 wide i hl ((encodeScalar (.issue xt xb0 xb1 xb2 e2 e1 e0 wide cmd)).getD 0)
        { s with cur := { s.cur with cmd := bindFields s.me xb0 xb1 xb2 e2 e1 e0 wide cmd, xt := xt.toNat, slot := 0, replay := none } }
      exact ⟨t, hexec, (execIssue_legal h hroom hacq hf hl).trans hoffer⟩
    · exact execIssue_illegal h hroom hacq hf hl
  case accept =>
    intro s desc prog hr
    have hme := accept_me desc prog hr
    have hglobal : (accept s desc prog).mem = s.mem ∧ (accept s desc prog).nextId = s.nextId + 1 := by
      simp only [accept, hr]
      exact ⟨rfl, rfl⟩
    simp only [hme, Core.finish_cmds, Core.finish_pend, Core.finish_regs, Core.finish_lmem, Core.finish_tiles]
    exact ⟨⟨_, rfl, rfl, rfl, rfl, rfl, rfl, rfl, rfl⟩, fun hxt => tget_ite_tset_self _ _ _ _ hxt,
      fun p hp => tget_ite_tset_other _ _ _ hp, Core.finish_pc_congr _ rfl rfl rfl, rfl, rfl, rfl, hglobal⟩

end Sys2Proof.Machine
end

section
/-!
PROOFS. What arrives at a core: control words (R109), completions (R57), load data (R124, R125) and instruction lines (R106): O43.
-/

namespace Sys2Proof.Machine

/-! ### Control words (R109) -/

theorem controlWord_parked {s : State} {idx : Nat} {w : CtlWord} (hw : s.flight[idx]? = some w) (hpark : parkedAt ≤ w.core) :
    execControlWordArrival idx s = .next s := by
  simp only [execControlWordArrival, hw, hpark, decide_true, Bool.true_or, if_true]

theorem inboxRoom_iff {s : State} {w : CtlWord} : inboxRoom s w = true ↔
    (if w.src < Config.cores then ((s.core w.core).handler w.chan).inbox.length else inboxLoad s w.core w.chan) < 4 := by
  unfold inboxRoom
  rw [Nat.blt_eq]

section
variable {s : State} {idx : Nat} {w : CtlWord} (hw : s.flight[idx]? = some w) (hpark : w.core < parkedAt)
  (hfirst : ∀ x ∈ s.flight.take idx, ¬(wordSender x.src = wordSender w.src ∧ x.core = w.core ∧ x.chan = w.chan))
include hw hpark hfirst

/-- The oldest word of its sender to a channel is delivered, dropped or held (R109). -/
theorem controlWord_oldest :
    execControlWordArrival idx s = .next (
      if ((s.core w.core).handler w.chan).valid = true then
        if inboxRoom s w = true then
          ({ s with flight := s.flight.take idx ++ s.flight.drop (idx + 1) } : State).modCore w.core fun k =>
            k.modHandler w.chan fun h => { h with inbox := h.inbox ++ [(w.word, w.origin)] }
        else s
      else { s with flight := s.flight.take idx ++ s.flight.drop (idx + 1) }) := by
  have hno : ((s.flight.take idx).any fun x => wordSender x.src == wordSender w.src && x.core == w.core && x.chan == w.chan) = false := by
    rw [List.any_eq_false]
    intro x hx
    simpa [and_assoc] using hfirst x hx
  simp only [execControlWordArrival, hw, hno, Nat.not_le.mpr hpark, decide_false, Bool.or_false, Bool.false_eq_true, if_false]
  cases ((s.core w.core).handler w.chan).valid <;> cases inboxRoom s w <;> rfl

end

/-! ### Completions (R57) -/

section
variable (k : Core) (chan xt : Nat) (v : Word)

theorem writeStatus_wake : ((writeStatus k chan xt v).handler chan).wake = true := by
  unfold writeStatus
  rw [Core.handler_modHandler_self]

theorem writeStatus_pc : (writeStatus k chan xt v).pc = k.pc := by unfold writeStatus; split <;> rfl
theorem writeStatus_lmem : (writeStatus k chan xt v).lmem = k.lmem := by unfold writeStatus; split <;> rfl

theorem writeStatus_regs : (writeStatus k chan xt v).regs = if xt = 0 then k.regs else tset 0 k.regs (physReg chan xt) v := by
  unfold writeStatus; split <;> rfl

theorem writeStatus_pend : (writeStatus k chan xt v).pend = if xt = 0 then k.pend else tset false k.pend (physReg chan xt) false := by
  unfold writeStatus; split <;> rfl

end

theorem commandCompletion_complete {s : State} {core id : Nat} {c : Cmd} (hc : (s.core core).cmd id = some c) (hph : c.phase = .complete) :
    execCommandCompletion core id s = .next (s.setCore core
      { writeStatus (s.core core) c.chan c.xt (statusWord c.cmd c.code c.result) with
        cmds := (s.core core).cmds.filter fun x => x.id != id
        acq := if c.acc ≠ 0 ∧ (s.core core).acq = some c.acc then none else (s.core core).acq }) := by
  simp only [execCommandCompletion, hc, hph, ne_eq, not_true_eq_false, if_false]
  rfl

/-! ### Load answers (R124, R125) -/

section
variable {s : State} {acc core phys : Nat} {a : Access} {ia : Word} (ha : s.accs.find? (fun x => x.id == acc) = some a)
  (hd : a.dest = .reg core phys ia) (hph : a.phase = .returned)
include ha hd hph

/-- Data without an error is written to its register, whose mark clears. -/
theorem ldgDataReturn_data (hcode : a.code = 0) :
    ∃ t, execLdgDataReturn acc s = .next t ∧ t.accs = s.accs.filter (fun x => x.id != acc) ∧
      (t.core core).regs = (if phys = 0 then (s.core core).regs else tset 0 (s.core core).regs phys (leBv 64 a.value)) ∧
      (t.core core).pend = if phys = 0 then (s.core core).pend else tset false (s.core core).pend phys false := by
  simp only [execLdgDataReturn, ha, hd, hph, hcode, ne_eq, not_true_eq_false, if_false]
  refine ⟨_, rfl, rfl, ?_⟩
  rw [State.core_modCore_self, State.core_modCore_self]
  split <;> exact ⟨rfl, rfl⟩

/-- A failed access holds its fault, and its register stays pending (R125). -/
theorem ldgDataReturn_fault (hcode : a.code ≠ 0) :
    ∃ t, execLdgDataReturn acc s = .next t ∧ t.accs = s.accs.filter (fun x => x.id != acc) ∧
      (t.core core).regs = (s.core core).regs ∧ (t.core core).pend = (s.core core).pend ∧
      (t.core core).held = (s.core core).held ++ [{ code := a.code, detail := 0, tepc := ia, tval := a.va, engine := false }] := by
  simp only [execLdgDataReturn, ha, hd, hph, hcode, ne_eq, not_true_eq_false, if_false, not_false_eq_true, if_true]
  refine ⟨_, rfl, rfl, ?_⟩
  rw [holdFault, State.core_modCore_self, State.core_modCore_self]
  exact ⟨rfl, rfl, rfl⟩

end

/-! ### Instruction lines (R106) -/

/-- A search in rising order finds the first place that has something. -/
theorem findSome_range {α : Type} {f : Nat → Option α} {n c : Nat} {x : α} (hc : c < n) (hx : f c = some x) (hb : ∀ b < c, f b = none) :
    (List.range n).findSome? f = some x := by
  obtain ⟨m, rfl⟩ := Nat.exists_eq_add_of_le (Nat.succ_le_of_lt hc)
  have hnone : (List.range c).findSome? f = none := List.findSome?_eq_none_iff.mpr fun b hb' => hb b (List.mem_range.mp hb')
  rw [List.range_add, List.findSome?_append, List.range_succ, List.findSome?_append, hnone, List.findSome?_cons, hx]
  rfl

/-- The lines that stay when another one enters the cache: one leaves when it is full (log 7). -/
def keptLines (lines : List (Nat × BitVec 512)) (fresh : Nat) : List (Nat × BitVec 512) :=
  if lines.length < 256 then lines else lines.eraseIdx (Config.icacheVictim fresh % 256)

theorem keptLines_subset (lines : List (Nat × BitVec 512)) (fresh : Nat) : ∀ x ∈ keptLines lines fresh, x ∈ lines := by
  intro x hx
  unfold keptLines at hx
  split at hx
  · exact hx
  · exact List.mem_of_mem_eraseIdx hx

/-- The line that the first stalled context waits for crosses from its home and enters the cache. -/
theorem instructionCacheFill_enters {s t u : State} {core c va : Nat} {e : TcEntry} {bs : List Byte} (hc : c < 17)
    (hstall : ((s.core core).handler c).stall = some (.line va)) (hmiss : ∀ x ∈ (s.core core).icache, x.1 ≠ va / 64)
    (hfirst : ∀ b < c, ∀ v, ((s.core core).handler b).stall ≠ some (.line v))
    (ht : translate s core (coreRoot s core) (BitVec.ofNat 64 va) false true = (.hit e, t))
    (hlive : (t.die (e.homeOf t (BitVec.ofNat 64 va - BitVec.ofNat 64 (va % 64)))).removed = false)
    (hcross : crossRead t (dieOf core) (e.homeOf t (BitVec.ofNat 64 va - BitVec.ofNat 64 (va % 64))) 64 = some u)
    (hread : homeRead u e.host (e.key (BitVec.ofNat 64 va - BitVec.ofNat 64 (va % 64))) 64 = (bs, 0)) :
    execInstructionCacheFill core s = .next (({ u with fresh := u.fresh + 1 } : State).modCore core fun k =>
      { k with icache := (va / 64, leBv 512 bs) :: keptLines (s.core core).icache u.fresh }) := by
  have hany : ((s.core core).icache.any fun x => x.1 == va / 64) = false := by
    rw [List.any_eq_false]
    intro x hx
    simpa using hmiss x hx
  simp only [execInstructionCacheFill]
  rw [findSome_range (x := (c, va)) hc ?wanted ?earlier]
  case wanted => simp only [hstall, hany, Bool.false_eq_true, if_false]
  case earlier =>
    intro b hb
    split
    · next v hv => exact absurd hv (hfirst b hb v)
    · rfl
  simp only [ht, hlive, hcross, hread, ne_eq, not_true_eq_false, if_false, Bool.false_eq_true]
  rfl

/-! ### O43 -/

/-- Settles O43: a word, a completion, the answer of a load, a line. -/
theorem wordsAndAnswersArrive : Obligations.WordsAndAnswersArrive := by
  intro s
  refine ⟨?word, ?completion, ?answer, ?line⟩
  case word =>
    intro idx w hw
    refine ⟨controlWord_parked hw, fun hpark hfirst => ?_⟩
    have hold := controlWord_oldest hw hpark hfirst
    refine ⟨fun hv hroom => ?_, fun hv hfull => ?_, fun hv => ?_⟩
    · exact hold.trans (by rw [if_pos hv, if_pos (inboxRoom_iff.mpr hroom)])
    · exact hold.trans (by rw [if_pos hv, if_neg fun h => absurd (inboxRoom_iff.mp h) (Nat.not_lt.mpr hfull)])
    · exact hold.trans (by rw [if_neg (by simp [hv])])
  case completion =>
    intro core id c hc hph
    refine ⟨_, commandCompletion_complete hc hph, ?_⟩
    simp only [writeStatus_regs, writeStatus_pend, writeStatus_pc, writeStatus_lmem]
    exact ⟨fun hxt => ⟨tget_ite_tset_self _ _ _ _ hxt, tget_ite_tset_self _ _ _ _ hxt⟩,
      fun p hp => ⟨tget_ite_tset_other _ _ _ hp, tget_ite_tset_other _ _ _ hp⟩, writeStatus_wake .., trivial, trivial, trivial⟩
  case answer =>
    intro acc core phys a ia ha hd hph
    by_cases hcode : a.code = 0
    · obtain ⟨t, hexec, haccs, hregs, hpend⟩ := ldgDataReturn_data ha hd hph hcode
      refine ⟨t, hexec, haccs, ?_⟩
      rw [hregs, hpend]
      refine ⟨fun _ hphys => ⟨tget_ite_tset_self _ _ _ _ hphys, tget_ite_tset_self _ _ _ _ hphys⟩, fun p hp => ?_, fun h => absurd hcode h⟩
      have hother : p ≠ phys ∨ phys = 0 := hp.imp_right fun h => h.resolve_right (not_not.mpr hcode)
      exact ⟨tget_ite_tset_other _ _ _ hother, tget_ite_tset_other _ _ _ hother⟩
    · obtain ⟨t, hexec, haccs, hregs, hpend, hheld⟩ := ldgDataReturn_fault ha hd hph hcode
      refine ⟨t, hexec, haccs, fun h => absurd h hcode, fun p _ => ?_, fun _ => hheld⟩
      rw [hregs, hpend]
      exact ⟨rfl, rfl⟩
  case line =>
    intro core c va e t hc hstall hmiss hfirst ht
    exact fun hlive u bs hcross hread => ⟨keptLines (s.core core).icache u.fresh,
      instructionCacheFill_enters hc hstall hmiss hfirst ht hlive hcross hread, keptLines_subset _ _, fun hlen => if_pos hlen⟩

end Sys2Proof.Machine
end

section
/-!
PROOFS. The DATA firing of an in-step node (R144, R166, R168), the special values of the IEEE formats (R78, R88, R149 to R155), and
the floating-point operators of a compute cell: O25.
-/

namespace Sys2Proof.Machine

/-! ### The DATA firing (R166, R168) -/

@[simp] theorem dataTok_kind (mask : BitVec 16) (lane : Nat → W32) : (dataTok mask lane).kind = kDATA := rfl
@[simp] theorem dataTok_mask (mask : BitVec 16) (lane : Nat → W32) : (dataTok mask lane).mask = mask := rfl

/-- Element `j` of a list that is made lane by lane. -/
theorem getD_map_range16 {α : Type} (g : Nat → α) (d : α) {j : Nat} (hj : j < 16) : ((List.range 16).map g).getD j d = g j := by
  simp [List.getD_eq_getElem?_getD, hj]

theorem dataTok_lane (mask : BitVec 16) (lane : Nat → W32) {j : Nat} (hj : j < 16) :
    (dataTok mask lane).lane j = if mask.getLsbD j then lane j else 0 :=
  getD_map_range16 (fun i => if mask.getLsbD i then lane i else 0) 0 hj

/-- L is the first of the enabled inputs (R63). -/
theorem enabled_left {n : NodeFields} (hel : n.el = true) :
    enabled n = 0 :: ((if n.er then [1] else []) ++ (if n.ep then [2] else [])) := by
  rw [enabled, if_pos hel]
  rfl

/-- A test of heads that no DATA token meets fails on inputs whose heads are DATA. -/
theorem any_input_data {s : State} {ps : List Nat} (hps : ∀ p ∈ ps, ∃ t, input s p = some t ∧ t.kind = kDATA)
    {test : Option Token → Bool} (htest : ∀ t : Token, t.kind = kDATA → test (some t) = false) :
    (ps.map fun p => input s p).any test = false := by
  rw [List.any_map, List.any_eq_false]
  intro p hp
  obtain ⟨t, ht, hk⟩ := hps p hp
  simp [ht, htest t hk]

theorem heads_left_kind {s : State} {n : NodeFields} {l : Token} {kind : BitVec 2} (h : s.heads n l kind) : l.kind = kind := by
  obtain ⟨-, hel, hl, hheads, -⟩ := h
  obtain ⟨t, ht, hk⟩ := hheads 0 (by simp [enabled_left hel])
  rwa [Option.some.inj (hl.symm.trans ht)]

theorem heads_left {s : State} {n : NodeFields} {l : Token} {kind : BitVec 2} (h : s.heads n l kind) : input s 0 = some l := by
  obtain ⟨-, -, hl, -⟩ := h
  exact hl

section
variable {s : State} {n : NodeFields} {l : Token} (h : s.heads n l kDATA)
include h

/-- With DATA at every enabled input and room on every target, an in-step operator does its DATA firing. -/
theorem inStep_data (onMark : Token → State → State) (data : State → State) : inStep s n onMark data = .next (data s) := by
  have hk := heads_left_kind h
  obtain ⟨hruns, hel, hl, hheads, hroom⟩ := h
  have hnot3 := any_input_data hheads (test := fun x => x.any fun t => t.kind == 3) fun t ht => by simp [ht]
  rw [enabled_left hel] at hheads
  have hrest := fun p hp => hheads p (List.mem_cons_of_mem 0 hp)
  have hpresent := any_input_data hrest (test := Option.isNone) fun t _ => rfl
  have hsame := any_input_data hrest (test := fun x => x.any fun t => t.kind != l.kind) fun t ht => by simp [ht, hk]
  dsimp only [inStep]
  rw [hnot3, enabled_left hel, List.map_cons, hl, hruns, hroom]
  dsimp only
  rw [hpresent, hsame, hk]
  rfl

/-- A stateless operator emits the token it makes of L. -/
theorem pureNode_data (f : State → Token → Token) : pureNode s n f = .next (fireAll s n (f s l)) := by
  rw [pureNode, inStep_data h, heads_left h]

/-- A vector operator emits its result on the lanes active in every operand (R144). -/
theorem vecNode_data (addend : Bool) (op : W32 → W32 → W32 → W32) :
    vecNode s n addend op = .next (fireAll s n (dataTok (laneMask n l (rOperand s n) (pOperand s) addend) fun j =>
      op (l.lane j) ((rOperand s n).lane j) ((pOperand s).lane j))) := pureNode_data h _

/-- A float operator of L and R, stated with any function `g` that computes the same words (R145, R149). -/
theorem floatNode_data {f g : Fmt → Nat → Nat → Nat} (hfg : ∀ m a b, f m a b = g m a b) :
    floatNode s n (fun m a b _ => f m a b) = .next (fireAll s n (dataTok (laneMask n l (rOperand s n) (pOperand s) false) fun j =>
      floatLane (laneType n) (fun m a b _ => g m a b) (l.lane j) ((rOperand s n).lane j) 0)) := by
  obtain rfl : f = g := funext fun m => funext fun a => funext fun b => hfg m a b
  exact vecNode_data h false _

end

/-! ### The operators as values (R151, R152) -/

theorem maxW_eq (f : Fmt) (a b : Nat) :
    f.maxW a b = if f.value a = .nan ∨ f.value b = .nan then f.nanCode else if f.totalLt a b then b else a := by
  simp [Fmt.maxW]

theorem minW_eq (f : Fmt) (a b : Nat) :
    f.minW a b = if f.value a = .nan ∨ f.value b = .nan then f.nanCode else if f.totalLt b a then b else a := by
  simp [Fmt.minW]

theorem signW_keep (f : Fmt) (a : Nat) : signW f false a = if f.value a = .nan then f.nanCode else a % 2 ^ (f.width - 1) := by
  simp [signW]

theorem signW_flip (f : Fmt) (a : Nat) :
    signW f true a = if f.value a = .nan then f.nanCode else
      if a < 2 ^ (f.width - 1) then a % 2 ^ (f.width - 1) + 2 ^ (f.width - 1) else a % 2 ^ (f.width - 1) := by
  simp [signW]

/-- The low bits of MODS as a number. -/
theorem mods_low (n : NodeFields) (w : Nat) : (n.mods.extractLsb' 0 w).toNat = n.mods.toNat % 2 ^ w := by
  rw [BitVec.extractLsb'_toNat, Nat.shiftRight_zero]

theorem toNat_ofBool_eq_ite (b : Bool) : (BitVec.ofBool b).toNat = if b then 1 else 0 := by cases b <;> rfl

/-! ### Zeros, infinities and NaN (R78, R88) -/

section
variable {f : Fmt} (hf : f ∈ [fp32, fp16, bf16])
include hf

theorem value_zero (neg : Bool) : f.value (f.sign neg 0) = .num neg 0 f.low := by
  revert f neg; decide

theorem value_inf (neg : Bool) : f.value (f.sign neg (f.maxCode + 1)) = .inf neg := by
  revert f neg; decide

end

/-- An exact zero rounds to the zero of its sign. -/
theorem round_zero (f : Fmt) (neg : Bool) (e : Int) : f.round (.num neg 0 e) = f.sign neg 0 := by
  simp [Fmt.round, Fmt.rnCode, Fmt.place, rneShift]

theorem round_inf (f : Fmt) (neg : Bool) : f.round (.inf neg) = f.sign neg (f.maxCode + 1) := rfl

theorem round_nan (f : Fmt) : f.round .nan = f.nanCode := rfl

/-- The sum of two zeros is negative only when both are (R149). -/
theorem add_zeros (a b : Bool) (e g : Int) : (Fv.num a 0 e).add (.num b 0 g) = .num (a && b) 0 (min e g) := by
  simp [Fv.add, scaleInt]

/-- Settles O25: the firings by `floatNode_data`, operator by operator; the special values by what the formats' zeros and infinities
stand for. -/
theorem floatNodeResults : Obligations.FloatNodeResults := by
  refine ⟨fun s n l h => ?_, fun f _ x hx => ?_, fun f hf => ?_⟩
  · refine ⟨floatNode_data h fun _ _ _ => rfl, floatNode_data h fun _ _ _ => rfl, floatNode_data h fun _ _ _ => rfl,
      floatNode_data h maxW_eq, floatNode_data h minW_eq, floatNode_data h fun m a _ => signW_keep m a,
      floatNode_data h fun m a _ => signW_flip m a, floatNode_data h fun m a b => ?_,
      floatNode_data h fun m a _ => congrArg (m.frnd · a) (mods_low n 2),
      floatNode_data h fun _ _ _ => rfl, floatNode_data h fun _ _ _ => rfl, floatNode_data h fun _ _ _ => rfl,
      floatNode_data h fun _ _ _ => rfl, floatNode_data h fun _ _ _ => rfl, vecNode_data h true _⟩
    rw [mods_low, toNat_ofBool_eq_ite]
    rfl
  · rw [hx]
    exact ⟨rfl, rfl, rfl, rfl⟩
  · simp only [value_zero hf, value_inf hf]
    exact ⟨round_inf f _, round_inf f _, round_zero f _ _, round_zero f _ _, round_inf f _, round_inf f _, round_zero f _ _,
      round_nan f, round_inf f _, round_zero f _ _, round_inf f _, round_inf f _, round_nan f, round_nan f, round_nan f,
      (congrArg f.round (add_zeros true true f.low f.low)).trans (round_zero f _ _),
      (congrArg f.round (add_zeros true false f.low f.low)).trans (round_zero f _ _)⟩

end Sys2Proof.Machine
end

section
/-!
PROOFS. The conversion nodes (R95 to R101): what CVT puts on a lane, the masks of the first lanes, PACK's firings, then O29.
-/

namespace Sys2Proof.Machine

/-! ### CVT (R95, R96) -/

/-- Halfword sign extension (R96, code 7). -/
theorem ofInt_signed16 (v : BitVec 16) : BitVec.ofInt 32 (signed 16 v.toNat) = v.signExtend 32 := by
  have hv : signed 16 v.toNat = v.toInt := by
    rw [signed, BitVec.toInt_eq_toNat_cond, Nat.mod_eq_of_lt v.isLt]
    split <;> split <;> omega
  rw [hv]
  rfl

theorem half_toNat (hi : Bool) (x : W32) :
    (if hi then hi16 x else lo16 x) = (if hi then x.extractLsb' 16 16 else x.extractLsb' 0 16).toNat := by
  cases hi
  · simp
  · have hx : hi16 x < 2 ^ 16 := Nat.div_lt_of_lt_mul x.isLt
    simpa [Nat.shiftRight_eq_div_pow] using (Nat.mod_eq_of_lt hx).symm

section
variable (hi : Bool) (rs : Nat → Option Nat) (j : Nat) (x : W32) (r : Option W32)

theorem cvtLane_bf16 : (cvtLane 2 hi rs j x r).1 = BitVec.ofNat 32 (fp32.round (bf16.value (if hi then hi16 x else lo16 x))) := rfl

theorem cvtLane_fp16 : (cvtLane 3 hi rs j x r).1 = BitVec.ofNat 32 (fp32.round (fp16.value (if hi then hi16 x else lo16 x))) := rfl

theorem cvtLane_int32 (hrs : rs j = none) :
    (cvtLane 4 hi rs j x r).1 = BitVec.ofNat 32 (toInt 32 (-2147483648) 2147483647 0 none (fp32.value x.toNat)).code := by
  rw [← hrs]
  rfl

theorem cvtLane_int16 :
    (cvtLane 7 hi rs j x r).1 = (if hi then x.extractLsb' 16 16 else x.extractLsb' 0 16).signExtend 32 := by
  show BitVec.ofInt 32 (signed 16 (if hi then hi16 x else lo16 x)) = _
  rw [half_toNat, ofInt_signed16]

end

/-- What a CVT firing makes of lane `j`: its result and what goes to the overflow target, both empty on an inactive lane (R95). -/
def cvtLaneAt (s : State) (n : NodeFields) (l : Token) (j : Nat) : W32 × Option W32 :=
  if l.mask.getLsbD j then
    cvtLane (n.mods.extractLsb' 3 3).toNat (n.mods.getLsbD 2) (fun sub => if n.mods.getLsbD 1 then some (nodeRand s sub) else none) j (l.lane j)
      (if (n.er || n.imm) && (rOperand s n).mask.getLsbD j then some ((rOperand s n).lane j) else none)
  else (0, none)

/-- The result token of a CVT firing. -/
def cvtOut (s : State) (n : NodeFields) (l : Token) : Token :=
  { kind := kDATA, mask := l.mask, lanes := ((List.range 16).map (cvtLaneAt s n l)).map (·.1) }

theorem cvtOut_lane (s : State) (n : NodeFields) (l : Token) {j : Nat} (hj : j < 16) :
    (cvtOut s n l).lane j = (cvtLaneAt s n l j).1 := by
  rw [cvtOut, List.map_map]
  exact getD_map_range16 _ 0 hj

theorem execCvt_data {s : State} {n : NodeFields} {l : Token} (h : s.heads n l kDATA) : ∃ spill : Option Token,
    execCvt n s = .next (modNode (emitAB (consume s (enabled n)) n (some (cvtOut s n l)) spill) fun x => { x with idx := x.idx + 1 }) := by
  rw [execCvt, inStep_data h, heads_left h]
  exact ⟨_, rfl⟩

/-! ### PACK (R98) -/

/-- The elements that PACK holds once it takes the active lanes of L. -/
def packGathered (s : State) (l : Token) : List W32 :=
  (nodeSt' s).sheaf ++ ((List.range 16).filter fun i => l.mask.getLsbD i).map fun i => l.lane i

section
variable {s : State} {n : NodeFields} {l : Token} (h : s.heads n l kDATA) (hep : n.ep = false)
  (hr : n.er = true → ∃ x, input s 1 = some x ∧ x.kind = kDATA)
include h hep hr

/-- A DATA firing of PACK without P: beyond its class a fault, at the class a closing firing, below it only gathering. -/
theorem execPack_data : execPack n s = .next (
    if packClass n < (packGathered s l).length then raiseNode s cFORMAT 0 0 false
    else if (packGathered s l).length = packClass n then packClose n s (packGathered s l) [0]
    else modNode (consume s [0]) fun x => { x with sheaf := packGathered s l }) := by
  have hk := heads_left_kind h
  obtain ⟨hruns, -, hl, -, hroom⟩ := h
  cases her : n.er with
  | false => simp [execPack, hep, her, hl, hruns, hroom, hk, packGathered]
  | true =>
    obtain ⟨x, hx, hxk⟩ := hr her
    simp [execPack, hep, her, hl, hx, hxk, hruns, hroom, hk, packGathered]

theorem execPack_gathers (hlt : (packGathered s l).length < packClass n) :
    execPack n s = .next (modNode (consume s [0]) fun x => { x with sheaf := packGathered s l }) := by
  rw [execPack_data h hep hr, if_neg hlt.not_gt, if_neg hlt.ne]

theorem execPack_closes (heq : (packGathered s l).length = packClass n) :
    execPack n s = .next (packClose n s (packGathered s l) [0]) := by
  rw [execPack_data h hep hr, if_neg heq.not_gt, if_pos heq]

theorem execPack_overflows (hgt : packClass n < (packGathered s l).length) : execPack n s = .next (raiseNode s cFORMAT 0 0 false) := by
  rw [execPack_data h hep hr, if_pos hgt]

end

/-! ### UNPACK (R101) -/

/-- The mask of the first lanes. -/
theorem getLsbD_firstLanes {c j : Nat} (hj : j < 16) : (BitVec.ofNat 16 (2 ^ c - 1)).getLsbD j = decide (j < c) := by
  rw [BitVec.getLsbD_ofNat, Nat.testBit_two_pow_sub_one, decide_eq_true hj, Bool.true_and]

/-- The token of an UNPACK firing: the elements of its sixteen that the class has. -/
def unpackOut (s : State) (n : NodeFields) (l : Token) : Token :=
  dataTok (BitVec.ofNat 16 (2 ^ min 16 (unpackClass n - 16 * (nodeSt' s).t) - 1)) fun j =>
    BitVec.ofNat 32 (fp32.round (elemValue (tokBytes l.lanes) (16 * (nodeSt' s).t + j)))

theorem unpackOut_mask (s : State) (n : NodeFields) (l : Token) {j : Nat} (hj : j < 16) :
    (unpackOut s n l).mask.getLsbD j = decide (16 * (nodeSt' s).t + j < unpackClass n) := by
  rw [unpackOut, dataTok_mask, getLsbD_firstLanes hj, decide_eq_decide]
  omega

theorem unpackOut_lane (s : State) (n : NodeFields) (l : Token) {j : Nat} (hj : j < 16) (hk : 16 * (nodeSt' s).t + j < unpackClass n) :
    (unpackOut s n l).lane j = BitVec.ofNat 32 (fp32.round (elemValue (tokBytes l.lanes) (16 * (nodeSt' s).t + j))) := by
  have hm := unpackOut_mask s n l hj
  rw [unpackOut, dataTok_mask] at hm
  rw [unpackOut, dataTok_lane _ _ hj, hm, decide_eq_true hk, if_pos rfl]

/-- A DATA firing of UNPACK on a sheaf that it reads. -/
theorem execUnpack_data {s : State} {n : NodeFields} {l : Token} (h : s.heads n l kDATA) (hmask : l.mask = 0xFFFF)
    (hreads : fmtReads ((tokBytes l.lanes).headD 0).toNat (unpackClass n) = true) :
    let last := unpackClass n ≤ 16 * ((nodeSt' s).t + 1)
    execUnpack n s = .next (modNode (emitAB (if last then consume s [0] else s) n (some (unpackOut s n l)) none) fun x =>
      { x with t := if last then 0 else (nodeSt' s).t + 1 }) := by
  rw [execUnpack, inStep_data h, heads_left h]
  simp only [hmask, hreads]
  rfl

/-- Settles O29: each node's DATA firing is computed once, then read lane by lane. -/
theorem conversionNodeResults : Obligations.ConversionNodeResults := by
  intro s n l h
  refine ⟨?_, fun her hep => ?_, fun x her hep hx hxk => ?_, fun hmask hreads => ?_⟩
  · obtain ⟨spill, hexec⟩ := execCvt_data h
    refine ⟨cvtOut s n l, spill, hexec, rfl, rfl, fun j hj => ?_⟩
    rw [cvtOut_lane s n l hj, cvtLaneAt]
    refine ⟨fun hoff => by rw [if_neg (by simp [hoff])], fun hon => ?_⟩
    rw [if_pos hon]
    refine ⟨fun hc => ?_, fun hc => ?_, fun hc hrs => ?_, fun hc => ?_⟩ <;> rw [hc]
    · exact cvtLane_bf16 ..
    · exact cvtLane_fp16 ..
    · exact cvtLane_int32 _ _ _ _ _ (if_neg (by rw [hrs]; exact Bool.false_ne_true))
    · exact cvtLane_int16 ..
  · have hr : n.er = true → ∃ x, input s 1 = some x ∧ x.kind = kDATA := fun hr => absurd (her.symm.trans hr) Bool.false_ne_true
    exact ⟨execPack_gathers h hep hr, execPack_closes h hep hr, execPack_overflows h hep hr⟩
  · exact execPack_closes h hep fun _ => ⟨x, hx, hxk⟩
  · exact ⟨unpackOut s n l, execUnpack_data h hmask hreads, rfl, fun j hj =>
      ⟨unpackOut_mask s n l hj, unpackOut_lane s n l hj⟩⟩

end Sys2Proof.Machine
end

section
/-!
PROOFS. The values and the words of the ALU forms (R42, R43, R119): O1.
-/

namespace Sys2Proof.Machine

/-! ### Values (R119) -/

theorem add_eq_ofNat (x y : Word) : x + y = BitVec.ofNat 64 (x.toNat + y.toNat) := by
  rw [BitVec.ofNat_add, BitVec.ofNat_toNat, BitVec.ofNat_toNat, BitVec.setWidth_eq, BitVec.setWidth_eq]

theorem sub_eq_ofInt (x y : Word) : x - y = BitVec.ofInt 64 (x.toNat - y.toNat) := by
  rw [sub_eq_add_neg (x.toNat : Int), BitVec.ofInt_add, BitVec.ofInt_neg, BitVec.ofInt_natCast, BitVec.ofInt_natCast, BitVec.ofNat_toNat,
    BitVec.ofNat_toNat, BitVec.setWidth_eq, BitVec.setWidth_eq, ← sub_eq_add_neg]

theorem and_eq_ofNat (x y : Word) : x &&& y = BitVec.ofNat 64 (x.toNat &&& y.toNat) := by
  rw [← BitVec.toNat_and, BitVec.ofNat_toNat, BitVec.setWidth_eq]

theorem or_eq_ofNat (x y : Word) : x ||| y = BitVec.ofNat 64 (x.toNat ||| y.toNat) := by
  rw [← BitVec.toNat_or, BitVec.ofNat_toNat, BitVec.setWidth_eq]

theorem xor_eq_ofNat (x y : Word) : x ^^^ y = BitVec.ofNat 64 (x.toNat ^^^ y.toNat) := by
  rw [← BitVec.toNat_xor, BitVec.ofNat_toNat, BitVec.setWidth_eq]

theorem shiftLeft_eq_ofNat (x : Word) (n : Nat) : x <<< n = BitVec.ofNat 64 (x.toNat * 2 ^ n) :=
  BitVec.eq_of_toNat_eq (by rw [BitVec.toNat_shiftLeft, Nat.shiftLeft_eq, BitVec.toNat_ofNat])

theorem ushiftRight_eq_ofNat (x : Word) (n : Nat) : x >>> n = BitVec.ofNat 64 (x.toNat / 2 ^ n) := by
  rw [← Nat.shiftRight_eq_div_pow, ← BitVec.toNat_ushiftRight, BitVec.ofNat_toNat, BitVec.setWidth_eq]

theorem sshiftRight_eq_ofInt (x : Word) (n : Nat) : x.sshiftRight n = BitVec.ofInt 64 (x.toInt / 2 ^ n) := by
  rw [← BitVec.ofInt_toInt (x := x.sshiftRight n), BitVec.toInt_sshiftRight, Int.shiftRight_eq_div_pow]
  norm_cast

theorem slt_eq (x y : Word) : (if x.slt y then 1 else 0 : Word) = if x.toInt < y.toInt then 1 else 0 := by
  simp only [BitVec.slt_iff_toInt_lt]

theorem ult_eq (x y : Word) : (if x.ult y then 1 else 0 : Word) = if x.toNat < y.toNat then 1 else 0 := by
  simp only [BitVec.ult_iff_toNat_lt]

/-- A zero-extended immediate holds the number of its field (R43). -/
theorem toNat_zext (imm : BitVec 16) : (imm.setWidth 64).toNat = imm.toNat := by
  rw [BitVec.toNat_setWidth, Nat.mod_eq_of_lt (lt_trans imm.isLt (by decide))]

/-- A sign-extended immediate holds the integer of its field (R39). -/
theorem toInt_sext16 (imm : BitVec 16) : (sext16 imm).toInt = imm.toInt := BitVec.toInt_signExtend_of_le (by decide)

/-- The value of LUI: the immediate over sixteen zero bits, sign-extended. -/
theorem lui_eq (imm : BitVec 16) : (imm ++ (0 : BitVec 16)).signExtend 64 = BitVec.ofInt 64 (imm.toInt * 65536) := by
  have hupper : (imm ++ (0 : BitVec 16)).toInt = imm.toInt * 65536 := by
    have hlt := imm.isLt
    rw [BitVec.toInt_eq_toNat_cond, BitVec.toInt_eq_toNat_cond, BitVec.toNat_append, ← Nat.shiftLeft_add_eq_or_of_lt (by decide),
      Nat.shiftLeft_eq, show (0 : BitVec 16).toNat = 0 from rfl]
    split <;> split <;> omega
  rw [← hupper]
  rfl

/-! ### Words (R39, R42, R43) -/

theorem toNat_append_eq {m n : Nat} (a : BitVec m) (b : BitVec n) : (a ++ b).toNat = a.toNat * 2 ^ n + b.toNat := by
  rw [BitVec.toNat_append, ← Nat.shiftLeft_add_eq_or_of_lt b.isLt, Nat.shiftLeft_eq]

theorem eq_ofNat_of_toNat {w n : Nat} {v : BitVec w} (h : v.toNat = n) : v = BitVec.ofNat w n := by
  rw [← h, BitVec.ofNat_toNat, BitVec.setWidth_eq]

theorem encA_eq (op : BitVec 6) (d a b : Reg) (fn : BitVec 11) :
    encA op d a b fn = BitVec.ofNat 32 (op.toNat * 2 ^ 26 + d.toNat * 2 ^ 21 + a.toNat * 2 ^ 16 + (b.toNat * 2048 + fn.toNat)) := by
  apply eq_ofNat_of_toNat
  unfold encA
  simp only [toNat_append_eq]
  ring

theorem encI_eq (op : BitVec 6) (d a : Reg) (imm : BitVec 16) :
    encI op d a imm = BitVec.ofNat 32 (op.toNat * 2 ^ 26 + d.toNat * 2 ^ 21 + a.toNat * 2 ^ 16 + imm.toNat) := by
  apply eq_ofNat_of_toNat
  unfold encI
  simp only [toNat_append_eq]
  ring

/-- A shift amount in the immediate field: the bits above it are zero (R43). -/
theorem encI_shift_eq (op : BitVec 6) (d a : Reg) (sh : BitVec 6) :
    encI op d a (0#10 ++ sh) = BitVec.ofNat 32 (op.toNat * 2 ^ 26 + d.toNat * 2 ^ 21 + a.toNat * 2 ^ 16 + sh.toNat) := by
  rw [encI_eq, toNat_append_eq, show (0#10).toNat = 0 from rfl, Nat.zero_mul, Nat.zero_add]

/-! ### O1 -/

/-- Settles O1: the values of the forms with two registers, of those with an immediate, then the words. -/
theorem aluResults : Obligations.AluResults := by
  refine ⟨?registers, ?immediates, ?words⟩
  case registers =>
    intro s d a b h
    have hform (f : Word → Word → Word) {v : Word} (hv : f (s.rd a) (s.rd b) = v) : alu2 s d a b f = .next (s.wrote d v) :=
      hv ▸ alu2_clear h f
    exact ⟨hform _ (add_eq_ofNat ..), hform _ (sub_eq_ofInt ..), hform _ (and_eq_ofNat ..), hform _ (or_eq_ofNat ..),
      hform _ (xor_eq_ofNat ..), hform (fun x y => x <<< (y.toNat % 64)) (shiftLeft_eq_ofNat ..),
      hform (fun x y => x >>> (y.toNat % 64)) (ushiftRight_eq_ofNat ..),
      hform (fun x y => x.sshiftRight (y.toNat % 64)) (sshiftRight_eq_ofInt ..), hform (fun x y => if x.slt y then 1 else 0) (slt_eq ..),
      hform (fun x y => if x.ult y then 1 else 0) (ult_eq ..)⟩
  case immediates =>
    intro s d a imm sh h
    have hform (f : Word → Word) {v : Word} (hv : f (s.rd a) = v) : alu1 s d a f = .next (s.wrote d v) := hv ▸ alu1_clear h f
    exact ⟨hform (fun x => x + sext16 imm) (add_sext16 ..), hform (fun x => x &&& imm.setWidth 64) (by rw [and_eq_ofNat, toNat_zext]),
      hform (fun x => x ||| imm.setWidth 64) (by rw [or_eq_ofNat, toNat_zext]),
      hform (fun x => x ^^^ imm.setWidth 64) (by rw [xor_eq_ofNat, toNat_zext]), hform (fun x => x <<< sh.toNat) (shiftLeft_eq_ofNat ..),
      hform (fun x => x >>> sh.toNat) (ushiftRight_eq_ofNat ..), hform (fun x => x.sshiftRight sh.toNat) (sshiftRight_eq_ofInt ..),
      hform (fun x => if x.slt (sext16 imm) then 1 else 0) (by rw [slt_eq, toInt_sext16]),
      hform (fun x => if x.ult (sext16 imm) then 1 else 0) (ult_eq ..),
      lui_eq imm ▸ alu0_clear (State.clear_left h) ((imm ++ (0 : BitVec 16)).signExtend 64)⟩
  case words =>
    refine ⟨fun d a b => ?_, fun d a imm sh => ?_⟩
    · have hword (fn : BitVec 11) := congrArg (fun w => [w]) (encA_eq 1 d a b fn)
      exact ⟨hword 0, hword 1, hword 2, hword 3, hword 4, hword 5, hword 6, hword 7, hword 8, hword 9⟩
    · have hword (op : BitVec 6) (x : Reg) := congrArg (fun w => [w]) (encI_eq op d x imm)
      have hshift (op : BitVec 6) := congrArg (fun w => [w]) (encI_shift_eq op d a sh)
      exact ⟨hword 2 a, hword 3 a, hword 4 a, hword 5 a, hshift 6, hshift 7, hshift 8, hword 9 a, hword 10 a, hword 11 0⟩

end Sys2Proof.Machine
end

section
/-!
PROOFS. Loads and stores of local data memory (R123, R299): O4.
-/

namespace Sys2Proof.Machine

/-! ### The checks of a local access -/

/-- The address of a local access (R39, R123). -/
abbrev localAddr (s : State) (a : Reg) (imm : BitVec 16) : Word := BitVec.ofInt 64 ((s.rd a).toInt + imm.toInt)

theorem localAccess_eq (s : State) (a : Reg) (imm : BitVec 16) (n : Nat) (f : Nat → Core → Core) :
    localAccess s a imm n f =
      if (localAddr s a imm).toNat % n ≠ 0 then preciseFault s cALIGN 0 (localAddr s a imm)
      else if (localAddr s a imm).toNat > 0x7FFF - n + 1 then preciseFault s cPERMISSION 0 (localAddr s a imm)
      else if heldLocal s.me (localAddr s a imm).toNat n then stallOn s (.localBytes (localAddr s a imm).toNat n)
      else advance s (f (localAddr s a imm).toNat) := by
  unfold localAccess
  rw [add_sext16]

theorem localAccess_misaligned {s : State} {a : Reg} {imm : BitVec 16} {n : Nat} (f : Nat → Core → Core)
    (hal : (localAddr s a imm).toNat % n ≠ 0) : localAccess s a imm n f = preciseFault s cALIGN 0 (localAddr s a imm) := by
  rw [localAccess_eq, if_pos hal]

section
variable {s : State} {a : Reg} {imm : BitVec 16} {n : Nat} (f : Nat → Core → Core) (hal : (localAddr s a imm).toNat % n = 0)
include hal

theorem localAccess_beyond (hin : 0x7FFF - n + 1 < (localAddr s a imm).toNat) :
    localAccess s a imm n f = preciseFault s cPERMISSION 0 (localAddr s a imm) := by
  rw [localAccess_eq, if_neg (not_not.mpr hal), if_pos hin]

variable (hin : (localAddr s a imm).toNat ≤ 0x7FFF - n + 1)
include hin

theorem localAccess_held (hh : heldLocal s.me (localAddr s a imm).toNat n = true) :
    localAccess s a imm n f = stallOn s (.localBytes (localAddr s a imm).toNat n) := by
  rw [localAccess_eq, if_neg (not_not.mpr hal), if_neg (Nat.not_lt.mpr hin), if_pos hh]

theorem localAccess_done (hh : heldLocal s.me (localAddr s a imm).toNat n = false) :
    localAccess s a imm n f = advance s (f (localAddr s a imm).toNat) := by
  rw [localAccess_eq, if_neg (not_not.mpr hal), if_neg (Nat.not_lt.mpr hin), if_neg (by rw [hh]; decide)]

end

theorem loadLocal_clear {s : State} {d a : Reg} (h : s.clear [d, a]) (imm : BitVec 16) (n : Nat) :
    loadLocal s d a imm n = .next (localAccess s a imm n fun ea k => k.wr d (leBv 64 (mread k.lmem ea n))) := by
  unfold loadLocal
  rw [withRegs_clear h]

theorem storeLocal_clear {s : State} {d a : Reg} (h : s.clear [d, a]) (imm : BitVec 16) (n : Nat) :
    storeLocal s d a imm n =
      .next (localAccess s a imm n fun ea k => { k with lmem := mwrite k.lmem ea (natLe n (k.rd d).toNat) }) := by
  unfold storeLocal
  rw [withRegs_clear h]

/-! ### The bytes of a word (R3) -/

theorem leNat_mread_lt (m : Mem) (x n : Nat) : leNat (mread m x n) < 256 ^ n := by
  induction n generalizing x with
  | zero => exact one_pos
  | succ n ih =>
    have hb := (mbyte m x).isLt
    have hr := ih (x + 1)
    rw [mread, leNat, Nat.pow_succ]
    omega

theorem leNat_mread_byte (m : Mem) (x : Nat) {n i : Nat} (hi : i < n) :
    leNat (mread m x n) / 256 ^ i % 256 = (mbyte m (x + i)).toNat := by
  induction n generalizing x i with
  | zero => omega
  | succ n ih =>
    have hb := (mbyte m x).isLt
    rw [mread, leNat]
    cases i with
    | zero => rw [Nat.pow_zero, Nat.div_one, Nat.add_mul_mod_self_left, Nat.mod_eq_of_lt hb, Nat.add_zero]
    | succ i =>
      rw [Nat.pow_succ', ← Nat.div_div_eq_div_mul, Nat.add_mul_div_left _ _ (by decide), Nat.div_eq_of_lt hb, Nat.zero_add,
        ih (x + 1) (by omega), Nat.add_right_comm, Nat.add_assoc]

theorem byte_toNat (v : Word) (i : Nat) : (v.extractLsb' (8 * i) 8).toNat = v.toNat / 256 ^ i % 256 := by
  rw [BitVec.extractLsb'_toNat, Nat.shiftRight_eq_div_pow, Nat.pow_mul]

/-- What a load of up to eight bytes holds: no more than those bytes. -/
theorem toNat_leBv_mread (m : Mem) (x : Nat) {n : Nat} (hn : n ≤ 8) : (leBv 64 (mread m x n)).toNat = leNat (mread m x n) :=
  Nat.mod_eq_of_lt (lt_of_lt_of_le (leNat_mread_lt ..) (Nat.pow_le_pow_right (by decide : 0 < 256) hn))

theorem leBv_mread_byte (m : Mem) (x : Nat) {n i : Nat} (hn : n ≤ 8) (hi : i < n) :
    (leBv 64 (mread m x n)).extractLsb' (8 * i) 8 = mbyte m (x + i) := by
  apply BitVec.eq_of_toNat_eq
  rw [byte_toNat, toNat_leBv_mread m x hn, leNat_mread_byte m x hi]

/-- What a store leaves at each address: its bytes inside the range that it writes, the old one outside. -/
theorem mbyte_mwrite_natLe (m : Mem) (x n : Nat) (v : Word) (y : Nat) :
    mbyte (mwrite m x (natLe n v.toNat)) y = if x ≤ y ∧ y < x + n then v.extractLsb' (8 * (y - x)) 8 else mbyte m y := by
  split
  · next h =>
    have hi : y - x < (natLe n v.toNat).length := by rw [natLe_length]; omega
    have hw := mbyte_mwrite_in m x (natLe n v.toNat) (y - x) hi
    rw [Nat.add_sub_cancel' h.1] at hw
    rw [hw]
    apply BitVec.eq_of_toNat_eq
    simp only [natLe_eq_map, List.getElem_map, List.getElem_range, BitVec.toNat_ofNat, byte_toNat]
  · next h => exact mbyte_mwrite_out _ _ _ _ (by rw [natLe_length]; omega)

/-! ### O4 -/

section
variable {s : State} {d a : Reg} (h : s.clear [d, a]) {imm : BitVec 16} {n : Nat}
include h

/-- A check that ends an access ends the load and the store alike. -/
theorem local_checked {t : State} (hchk : ∀ f, localAccess s a imm n f = t) :
    loadLocal s d a imm n = .next t ∧ storeLocal s d a imm n = .next t :=
  ⟨(loadLocal_clear h imm n).trans (congrArg _ (hchk _)), (storeLocal_clear h imm n).trans (congrArg _ (hchk _))⟩

variable (hal : (localAddr s a imm).toNat % n = 0) (hin : (localAddr s a imm).toNat ≤ 0x7FFF - n + 1)
  (hh : heldLocal s.me (localAddr s a imm).toNat n = false)
include hal hin hh

theorem loadLocal_done : loadLocal s d a imm n = .next (s.wrote d (leBv 64 (mread s.me.lmem (localAddr s a imm).toNat n))) :=
  (loadLocal_clear h imm n).trans (congrArg _ (localAccess_done _ hal hin hh))

theorem storeLocal_done : storeLocal s d a imm n =
    .next (advance s fun k => { k with lmem := mwrite s.me.lmem (localAddr s a imm).toNat (natLe n (s.rd d).toNat) }) :=
  (storeLocal_clear h imm n).trans (congrArg _ (localAccess_done _ hal hin hh))

end

/-- Settles O4: what a load reads and a store writes, then the checks that end both. -/
theorem localMemoryAccess : Obligations.LocalMemoryAccess := by
  intro s d a imm h
  refine ⟨fun hal hin hh => ?double, fun hal hin hh => ?word, fun hal hin hh => ?_, fun hal hin hh => ?_, fun hal => ?_, fun hal => ?_,
    fun hal hout => ?_, fun hal hout => ?_⟩
  case double =>
    exact ⟨⟨_, loadLocal_done h hal hin hh, fun i hi => leBv_mread_byte _ _ (by decide) hi⟩,
      _, storeLocal_done h hal hin hh, fun y => mbyte_mwrite_natLe ..⟩
  case word =>
    have hlow := toNat_leBv_mread s.me.lmem (localAddr s a imm).toNat (n := 4) (by decide) ▸ leNat_mread_lt ..
    exact ⟨⟨_, loadLocal_done h hal hin hh, hlow, fun i hi => leBv_mread_byte _ _ (by decide) hi⟩,
      _, storeLocal_done h hal hin hh, fun y => mbyte_mwrite_natLe ..⟩
  · exact local_checked h fun f => localAccess_held f hal hin hh
  · exact local_checked h fun f => localAccess_held f hal hin hh
  · exact local_checked h fun f => localAccess_misaligned f hal
  · exact local_checked h fun f => localAccess_misaligned f hal
  · exact local_checked h fun f => localAccess_beyond f hal hout
  · exact local_checked h fun f => localAccess_beyond f hal hout

end Sys2Proof.Machine
end

section
/-!
PROOFS. The end of a handler's turn (R115, R130): O7; the frame of computing instructions (R104, R119 to R121): O18; the register file and
the stall on a pending register (R104, R113, R114): O17.
-/

namespace Sys2Proof.Machine

/-! ### DONE and WAITH (R115) -/

/-- A level that DONE or a last pass closes keeps LS and LE. -/
def Loop.closed (l : Loop) : Loop := { l with lc := 0 }

theorem boundary_running (k : Core) : (boundary k).running = k.running := by rw [boundary_frame]

/-- The entry that DONE leaves. -/
def Handler.done (h : Handler) : Handler :=
  { h with
    state := .idle, order := []
    l0 := if h.order.contains 0 then h.l0.closed else h.l0
    l1 := if h.order.contains 1 then h.l1.closed else h.l1
    l2 := if h.order.contains 2 then h.l2.closed else h.l2 }

theorem Handler.level_done (h : Handler) {n : Nat} (hn : n < 3) :
    h.done.level n = if n ∈ h.order then (h.level n).closed else h.level n := by
  simp only [← List.contains_iff_mem]
  match n, hn with
  | 0, _ => rfl
  | 1, _ => rfl
  | 2, _ => rfl

/-- The acting core after a DONE. -/
def Core.afterDone (k : Core) : Core := boundary { k.modHandler k.bank Handler.done with running := none }

theorem execDone_eq (s : State) : execDone s = .next (s.setCore s.cur.core s.me.afterDone) := rfl

/-- The entry that WAITH leaves: the end-of-body test, then WAITING at the address that it selects. -/
def Core.waithHandler (k : Core) : Handler :=
  { (k.finish (k.pc + 4)).handler k.bank with state := .waiting, savedPc := (k.finish (k.pc + 4)).pc }

/-- The acting core after a WAITH. -/
def Core.afterWaith (k : Core) : Core :=
  boundary { k.modHandler k.bank (fun _ => k.waithHandler) with running := none, pc := (k.finish (k.pc + 4)).pc }

theorem execWaith_eq (s : State) : execWaith s = .next (s.setCore s.cur.core s.me.afterWaith) := by
  unfold Core.afterWaith Core.waithHandler
  rw [Core.finish_handler, Core.finish_pc]
  rfl

theorem Core.afterDone_frame (k : Core) : k.afterDone = { k with
    handlers := k.afterDone.handlers, running := none, stepping := k.afterDone.stepping, stopped := k.afterDone.stopped } := by
  unfold Core.afterDone
  rw [boundary_handlers]
  exact boundary_frame _

theorem Core.afterWaith_frame (k : Core) : k.afterWaith = { k with
    handlers := k.afterWaith.handlers, running := none, stepping := k.afterWaith.stepping, stopped := k.afterWaith.stopped
    pc := k.afterWaith.pc } := by
  unfold Core.afterWaith
  rw [boundary_handlers, boundary_pc]
  exact boundary_frame _

/-- A boundary after a change of one handler entry leaves that entry changed and every other one as it was. -/
theorem handler_boundary {k j : Core} {b : Nat} {f : Handler → Handler} (hj : j.handlers = (k.modHandler b f).handlers) :
    (boundary j).handler b = f (k.handler b) ∧ ∀ c, c ≠ b → (boundary j).handler c = k.handler c := by
  simp only [Core.handler, boundary_handlers, hj]
  exact ⟨Core.handler_modHandler_self .., fun c hc => Core.handler_modHandler_other _ _ hc⟩

/-- Settles O7: the entry that DONE leaves, the one that WAITH leaves, and the frame of both. -/
theorem handlerTurnEnds : Obligations.HandlerTurnEnds := by
  intro s
  refine ⟨⟨s.me.afterDone, execDone_eq s, boundary_running _, ?done⟩, s.me.afterWaith, execWaith_eq s, boundary_running _, ?waith⟩
  case done =>
    obtain ⟨hself, hother⟩ : s.me.afterDone.handler s.me.bank = (s.me.handler s.me.bank).done ∧
      ∀ c, c ≠ s.me.bank → s.me.afterDone.handler c = s.me.handler c := handler_boundary (f := Handler.done) rfl
    rw [hself]
    refine ⟨rfl, rfl, fun n hn => ?_, hother, Core.afterDone_frame _⟩
    rw [Handler.level_done _ hn]
    split <;> exact ⟨rfl, rfl, rfl⟩
  case waith =>
    obtain ⟨hself, hother⟩ : s.me.afterWaith.handler s.me.bank = s.me.waithHandler ∧
      ∀ c, c ≠ s.me.bank → s.me.afterWaith.handler c = s.me.handler c := handler_boundary (f := fun _ => s.me.waithHandler) rfl
    rw [hself]
    exact ⟨rfl, rfl, fun n => rfl, rfl, hother, Core.afterWaith_frame _⟩

/-! ### The register file (R104) -/

/-- Registers of another bank are no registers of this one. -/
theorem physReg_ne_of_banked {b c : Nat} {d r : Reg} (hb : c ≠ b) (hd : 24 ≤ d.toNat) : physReg c r.toNat ≠ physReg b d.toNat := by
  have hdlt := d.isLt
  have hrlt := r.isLt
  unfold physReg
  split <;> split <;> omega

theorem Core.rd_running_shared (k : Core) (c : Nat) {r : Reg} (hr : r.toNat < 24) : ({ k with running := some c } : Core).rd r = k.rd r := by
  simp only [Core.rd, physReg, hr, if_true]

theorem Core.rd_wr_otherBank (k : Core) {c : Nat} {d : Reg} (r : Reg) (v : Word) (hc : c ≠ k.bank) (hd : 24 ≤ d.toNat) :
    ({ k.wr d v with running := some c } : Core).rd r = ({ k with running := some c } : Core).rd r := by
  have hne : d ≠ 0 := by rintro rfl; simp at hd
  rw [Core.wr_of_ne k hne]
  unfold Core.rd
  split
  · rfl
  · exact tget_tset_other _ _ _ (physReg_ne_of_banked hc hd)

/-! ### The stall on a pending register (R113, R114) -/

section
variable {s : State} {rs : List Reg} {r : Reg} (hr : r ∈ rs) (hp : s.me.isPending r = true)
include hr hp

theorem firstPending_some : ∃ q ∈ rs, s.me.isPending q = true ∧ firstPending s.me rs = some q := by
  obtain ⟨q, hq⟩ := Option.isSome_iff_exists.mp (List.find?_isSome.mpr ⟨r, hr, hp⟩)
  exact ⟨q, List.mem_of_find?_eq_some hq, List.find?_some hq, hq⟩

theorem withRegs_pending (f : State → State) :
    ∃ q ∈ rs, s.me.isPending q = true ∧ withRegs s rs f = stallOn s (.reg (physReg s.me.bank q.toNat)) := by
  obtain ⟨q, hq, hqp, hfirst⟩ := firstPending_some hr hp
  exact ⟨q, hq, hqp, by simp only [withRegs, hfirst]⟩

end

/-- The instruction stalls at its address on one of the registers `rs`, which is pending. -/
def StallsOn (s : State) (rs : List Reg) (x : Res) : Prop :=
  ∃ q ∈ rs, s.me.isPending q = true ∧ x = .next (stallOn s (.reg (physReg s.me.bank q.toNat)))

theorem stallsOn_withRegs {s : State} {rs : List Reg} {r : Reg} (hr : r ∈ rs) (hp : s.me.isPending r = true) (f : State → State) :
    StallsOn s rs (.next (withRegs s rs f)) := by
  obtain ⟨q, hq, hqp, hstall⟩ := withRegs_pending hr hp f
  exact ⟨q, hq, hqp, congrArg _ hstall⟩

/-- Only the set of the registers counts, and x0 is never pending. -/
theorem StallsOn.mono {s : State} {rs rs' : List Reg} {x : Res} (hsub : ∀ q ∈ rs, q ≠ 0 → q ∈ rs') (h : StallsOn s rs x) :
    StallsOn s rs' x := by
  obtain ⟨q, hq, hqp, hstall⟩ := h
  have hne : q ≠ 0 := by rintro rfl; simp at hqp
  exact ⟨q, hsub q hq hne, hqp, hstall⟩

theorem stallsOn_issue {s : State} {xt xb0 xb1 xb2 : Reg} {e2 e1 e0 : Bool} {r : Reg} (hr : r ∈ issueRegs xt xb0 xb1 xb2 e2 e1 e0)
    (hp : s.me.isPending r = true) (wide : Bool) (cmd : Cmd128) :
    StallsOn s (issueRegs xt xb0 xb1 xb2 e2 e1 e0) (execIssue xt xb0 xb1 xb2 e2 e1 e0 wide cmd s) := by
  obtain ⟨q, hq, hqp, hfirst⟩ := firstPending_some hr hp
  exact ⟨q, hq, hqp, by simp only [execIssue, hfirst]⟩

/-- BFI reads its destination, which its register list names twice. -/
theorem mem_of_mem_repeated {d a q : Reg} (h : q ∈ [d, d, a]) : q ∈ [d, a] := by simpa using h

theorem exec_stallsOn {i : Instr} {s : State} {r : Reg} (hr : r ∈ regsOf i) (hp : s.me.isPending r = true) :
    StallsOn s (regsOf i) (exec i s) := by
  cases i with
  | lui | widx | mfs => 
    exact (stallsOn_withRegs (List.mem_append_left [0] hr) hp _).mono fun q hq hne =>
      (List.mem_append.mp hq).resolve_right (by simpa using hne)
  | bfi d a => exact (stallsOn_withRegs (List.mem_cons_of_mem d hr) hp _).mono fun q hq _ => mem_of_mem_repeated hq
  | issue xt xb0 xb1 xb2 e2 e1 e0 wide cmd => exact stallsOn_issue hr hp wide cmd
  | add | sub | and | or | xor | sll | srl | sra | slt | sltu | mul | mulh | mulhu | div | divu | rem | remu | addi | andi | ori | xori
  | slti | sltiu | slli | srli | srai | bfx | bfxs | clz | ctz | popc | ldlD | ldlW | stlD | stlW | ldgD | ldgW | stgD | stgW | beq | bne
  | blt | bge | bltu | bgeu | jal | jalr | loop | post | hmask | hunmask | mts | barr | ldgAcq | stgRel | locq | decideReg | pref =>
    exact stallsOn_withRegs hr hp _
  | _ => exact absurd hr List.not_mem_nil

/-- The acting core after a stall. -/
def Core.afterStall (k : Core) (why : Stall) : Core :=
  boundary { k.modHandler k.bank (fun h => { h with state := .stalled, stall := some why, savedPc := k.pc }) with running := none }

theorem stallOn_eq (s : State) (why : Stall) : stallOn s why = s.setCore s.cur.core (s.me.afterStall why) := rfl

theorem Core.afterStall_frame (k : Core) (why : Stall) : k.afterStall why = { k with
    handlers := (k.afterStall why).handlers, running := none, stepping := (k.afterStall why).stepping
    stopped := (k.afterStall why).stopped } := by
  unfold Core.afterStall
  rw [boundary_handlers]
  exact boundary_frame _

/-- Settles O17: reads after writes and after a change of bank, then the stall. -/
theorem registerFileAndPendingStalls : Obligations.RegisterFileAndPendingStalls := by
  refine ⟨⟨Core.rd_wr, fun k c r hr => Core.rd_running_shared k c hr, fun k c d r v hc hd => Core.rd_wr_otherBank k r v hc hd,
    Core.wr_zero, Core.wr_frame⟩, fun i s r hr hp => exec_stallsOn hr hp, fun s why => ?stall⟩
  case stall =>
    obtain ⟨hself, hother⟩ : (s.me.afterStall why).handler s.me.bank =
        { s.me.handler s.me.bank with state := .stalled, stall := some why, savedPc := s.me.pc } ∧
      ∀ c, c ≠ s.me.bank → (s.me.afterStall why).handler c = s.me.handler c :=
      handler_boundary (f := fun h => { h with state := .stalled, stall := some why, savedPc := s.me.pc }) rfl
    exact ⟨_, stallOn_eq s why, boundary_running _, hself, hother, Core.afterStall_frame ..⟩

/-! ### The frame of computing instructions (R104, R130) -/

/-- With no operand pending, a form that writes what it computes of the acting core writes that value and completes. -/
theorem withRegs_wrote {s : State} {rs : List Reg} (h : s.clear rs) (d : Reg) (g : Core → Word) :
    (.next (withRegs s rs fun t => advance t fun k => k.wr d (g k)) : Res) = .next (s.wrote d (g s.me)) := by
  rw [withRegs_clear h]
  rfl

/-- A form that computes a register writes some value to it and completes. -/
theorem exec_computes {i : Instr} {d : Reg} {s : State} (hd : computes i = some d) (h : s.clear (regsOf i)) :
    ∃ v, exec i s = .next (s.wrote d v) := by
  cases i with
  | lui | widx | mfs => cases hd; exact ⟨_, withRegs_wrote (State.clear_zero h) d _⟩
  | bfi d' a => cases hd; exact ⟨_, withRegs_wrote (rs := [d, d, a]) (fun r hr => h r (mem_of_mem_repeated hr)) d _⟩
  | add | sub | and | or | xor | sll | srl | sra | slt | sltu | mul | mulh | mulhu | div | divu | rem | remu | addi | andi | ori | xori
  | slti | sltiu | slli | srli | srai | bfx | bfxs | clz | ctz | popc => cases hd; exact ⟨_, withRegs_wrote h d _⟩
  | _ => cases hd

theorem Core.finish_handlers_congr {k j : Core} (npc : Word) (hpc : j.pc = k.pc) (hh : j.handlers = k.handlers)
    (hr : j.running = k.running) : (j.finish npc).handlers = (k.finish npc).handlers := by
  rw [Core.finish_handlers, Core.finish_handlers]
  simp only [Core.modHandler, Core.handler, Core.bank, hpc, hh, hr]

/-- The acting core after a form that writes `v` to `d` and completes. -/
def Core.wrote (k : Core) (d : Reg) (v : Word) : Core := (k.wr d v).finish (k.pc + 4)

theorem State.wrote_eq (s : State) (d : Reg) (v : Word) : s.wrote d v = s.setCore s.cur.core (s.me.wrote d v) := rfl

section
variable (k : Core) (d : Reg) (v : Word)

theorem Core.wrote_regs : (k.wrote d v).regs = (k.wr d v).regs := Core.finish_regs ..

theorem Core.wrote_handlers : (k.wrote d v).handlers = (k.finish (k.pc + 4)).handlers :=
  Core.finish_handlers_congr _ (Core.wr_pc ..) (Core.wr_handlers ..) (Core.wr_running ..)

theorem Core.wrote_pc : (k.wrote d v).pc = (k.finish (k.pc + 4)).pc :=
  Core.finish_pc_congr _ (Core.wr_pc ..) (Core.wr_handlers ..) (Core.wr_running ..)

theorem Core.wrote_running : (k.wrote d v).running = k.running := by
  unfold Core.wrote
  rw [Core.finish_frame]
  exact Core.wr_running ..

theorem Core.wrote_rd_other {r : Reg} (hr : r ≠ d) : (k.wrote d v).rd r = k.rd r := by
  have h : (k.wr d v).rd r = k.rd r := by
    rw [Core.rd_wr, if_neg hr]
    split
    · next h0 => subst h0; rfl
    · rfl
  rw [← h]
  simp only [Core.rd, Core.bank, Core.wrote_regs, Core.wrote_running, Core.wr_running]

theorem Core.wrote_frame : k.wrote d v = { k with
    regs := (k.wrote d v).regs, pc := (k.wrote d v).pc, handlers := (k.wrote d v).handlers, stepping := (k.wrote d v).stepping
    stopped := (k.wrote d v).stopped } := by
  unfold Core.wrote
  rw [Core.finish_regs]
  unfold Core.wr
  split <;> exact Core.finish_frame ..

end

/-- Settles O18: the one write of each form, and what a write and a completion leave alone. -/
theorem computingInstructionFrame : Obligations.ComputingInstructionFrame := by
  intro i d s hd h
  obtain ⟨v, hv⟩ := exec_computes hd h
  refine ⟨s.me.wrote d v, hv, fun r hr => Core.wrote_rd_other _ _ _ hr, fun p hp => ?_, fun h0 => ?_, fun c hc => ?_,
    Core.wrote_handlers .., Core.wrote_pc .., Core.wrote_frame ..⟩
  · rw [Core.wrote_regs]
    unfold Core.wr
    split
    · rfl
    · exact tget_tset_other _ _ _ hp
  · rw [Core.wrote_regs, h0]
    rfl
  · rw [Core.handler, Core.wrote_handlers]
    exact Core.finish_handler_other _ _ hc

end Sys2Proof.Machine
end

section
/-!
PROOFS. Hints and decisions (R134, R135, R427): O12; queries of translations (R136, R277): O13.
-/

namespace Sys2Proof.Machine

/-! ### PHINT (R427) -/

/-- The two bits at place `n` of a shifted two-bit number, zeros elsewhere. -/
theorem shifted_bit (kind : BitVec 2) (n : Nat) {b : Nat} (hb : b < 16) :
    (kind.setWidth 16 <<< (2 * n)).getLsbD b = if b / 2 = n then kind.getLsbD (b % 2) else false := by
  rw [BitVec.getLsbD_shiftLeft, BitVec.getLsbD_setWidth]
  split
  · next h =>
    rw [show b - 2 * n = b % 2 by omega, decide_eq_true hb, decide_eq_false (by omega : ¬b < 2 * n), decide_eq_true (by omega : b % 2 < 16)]
    rfl
  · next h =>
    rcases Nat.lt_or_ge b (2 * n) with hlt | hge
    · simp [hlt]
    · rw [BitVec.getLsbD_of_ge kind _ (by omega), Bool.and_false, Bool.and_false]

/-- Two bits of HINTS written, the others kept. -/
theorem hints_bit (hs : BitVec 16) (kind : BitVec 2) (n : Nat) {b : Nat} (hb : b < 16) :
    ((hs &&& ~~~(3#16 <<< (2 * n))) ||| (kind.setWidth 16 <<< (2 * n))).getLsbD b =
      if b / 2 = n then kind.getLsbD (b % 2) else hs.getLsbD b := by
  have hmask : (3#16 <<< (2 * n)).getLsbD b = if b / 2 = n then true else false := by
    rw [← show (3#2).setWidth 16 = 3#16 from rfl, shifted_bit 3#2 n hb]
    have hones : ∀ i < 2, (3#2).getLsbD i = true := by decide
    rw [hones _ (Nat.mod_lt _ two_pos)]
  rw [BitVec.getLsbD_or, BitVec.getLsbD_and, BitVec.getLsbD_not, hmask, shifted_bit kind n hb, decide_eq_true hb]
  split <;> simp

theorem phint_eq (s : State) (kind : BitVec 2) : ∃ hs : BitVec 16,
    phint s kind = .next (advance (s.modCluster (clusterOf s.cur.core) fun k => { k with hints := hs }) id) ∧
      ∀ b < 16, hs.getLsbD b = if b / 2 = inCluster s.cur.core then kind.getLsbD (b % 2)
        else (s.cluster (clusterOf s.cur.core)).hints.getLsbD b :=
  ⟨_, rfl, fun _ hb => hints_bit _ kind _ hb⟩

/-! ### DECIDE (R135) -/

section
variable {s : State} {q : Plot} (hq : s.plotOf s.cur.core = some q) (bay word : Word)
include hq

theorem chooseBay_eq : chooseBay s bay word =
    if q.lead ≠ s.cur.core then preciseFault s cILLEGAL 0 word
    else if 4 ≤ bay.toNat then preciseFault s cILLEGAL 0 bay
    else if q.bays.getLsbD bay.toNat = false then preciseFault s cILLEGAL 0 word
    else if q.decision ≠ none then stallOn s .decide
    else advance (s.modPlot q.id fun p => { p with decision := some bay.toNat, bound := begunWid s q }) id := by
  have hhigh : bay.extractLsb' 2 62 ≠ 0 ↔ 4 ≤ bay.toNat := by
    have hv := bay.isLt
    rw [ne_eq, ← BitVec.toNat_inj, BitVec.extractLsb'_toNat, Nat.shiftRight_eq_div_pow]
    show ¬ bay.toNat / 2 ^ 2 % 2 ^ 62 = 0 ↔ _
    omega
  unfold chooseBay
  simp only [hq, hhigh, Bool.not_eq_true', Option.isSome_iff_ne_none]

/-- Off the lead core (R135, log 34). -/
theorem chooseBay_elsewhere (hl : q.lead ≠ s.cur.core) : chooseBay s bay word = preciseFault s cILLEGAL 0 word := by
  rw [chooseBay_eq hq, if_pos hl]

theorem chooseBay_wide (hl : q.lead = s.cur.core) (hv : 4 ≤ bay.toNat) : chooseBay s bay word = preciseFault s cILLEGAL 0 bay := by
  rw [chooseBay_eq hq, if_neg (not_not.mpr hl), if_pos hv]

variable (hv : bay.toNat < 4)
include hv

theorem chooseBay_absent (hb : q.bays.getLsbD bay.toNat = false) : chooseBay s bay word = preciseFault s cILLEGAL 0 word := by
  rw [chooseBay_eq hq, if_neg (Nat.not_le.mpr hv), if_pos hb, ite_self]

variable (hl : q.lead = s.cur.core) (hb : q.bays.getLsbD bay.toNat = true)
include hl hb

theorem chooseBay_busy (hd : q.decision ≠ none) : chooseBay s bay word = stallOn s .decide := by
  rw [chooseBay_eq hq, if_neg (not_not.mpr hl), if_neg (Nat.not_le.mpr hv), if_neg (by simp [hb]), if_pos hd]

theorem chooseBay_requests (hd : q.decision = none) :
    chooseBay s bay word = advance (s.modPlot q.id fun p => { p with decision := some bay.toNat, bound := begunWid s q }) id := by
  rw [chooseBay_eq hq, if_neg (not_not.mpr hl), if_neg (Nat.not_le.mpr hv), if_neg (by simp [hb]), if_neg (not_not.mpr hd)]

end

/-- A bay number in a register word. -/
theorem toNat_bay (bay : BitVec 2) : (bay.setWidth 64).toNat = bay.toNat := by
  rw [BitVec.toNat_setWidth, Nat.mod_eq_of_lt (lt_trans bay.isLt (by decide))]

/-- The word of DECIDE with a bay number (R52). -/
theorem decideWord (bay : BitVec 2) : (0x94000100 ||| bay.setWidth 64 : Word) = BitVec.ofNat 64 (0x94000100 + bay.toNat) := by
  revert bay
  decide

/-- Settles O12: the three kinds of PHINT, then the outcomes of DECIDE with a number and with a register. -/
theorem hintsAndDecisions : Obligations.HintsAndDecisions := by
  intro s a bay
  refine ⟨fun kind i hi => ?hints, fun q hq => ?decisions⟩
  case hints =>
    simp only [List.mem_cons, Prod.mk.injEq, List.not_mem_nil, or_false] at hi
    rcases hi with ⟨rfl, rfl⟩ | ⟨rfl, rfl⟩ | ⟨rfl, rfl⟩
    · exact phint_eq s 0
    · exact phint_eq s 1
    · exact phint_eq s 2
  case decisions =>
    have hv : (bay.setWidth 64 : Word).toNat < 4 := (toNat_bay bay).symm ▸ bay.isLt
    have himm : exec (.decideImm bay) s = .next (chooseBay s (bay.setWidth 64) (BitVec.ofNat 64 (0x94000100 + bay.toNat))) :=
      decideWord bay ▸ rfl
    rw [himm, ← toNat_bay bay]
    refine ⟨fun hl hb hd => ?_, fun hl hb hd => ?_, fun hbad => ?_, fun h => ?register⟩
    · rw [chooseBay_requests hq _ _ hv hl hb hd]
    · rw [chooseBay_busy hq _ _ hv hl hb hd]
    · rcases hbad with hl | hb
      · rw [chooseBay_elsewhere hq _ _ hl]
      · rw [chooseBay_absent hq _ _ hv hb]
    case register =>
      rw [show exec (.decideReg a) s = execDecideReg a s from rfl, execDecideReg, withRegs_clear h]
      refine ⟨fun hl hv hb hd => ?_, fun hl hv => ?_⟩
      · rw [chooseBay_requests hq _ _ hv hl hb hd]
      · rw [chooseBay_wide hq _ _ hl hv]

/-! ### PREF and LOCQ (R136, R277) -/

section
variable {s u : State} {d a : Reg} {e : TcEntry} {f : Byte × Bool} {w : Nat}

section
variable (h : s.clear [a])
include h

theorem execPref_hit (ht : translate s s.cur.core (coreRoot s s.cur.core) (s.rd a) false false = (.hit e, u)) :
    execPref a s = .next (advance u id) := by
  rw [execPref, withRegs_clear h, ht]

theorem execPref_fault (ht : translate s s.cur.core (coreRoot s s.cur.core) (s.rd a) false false = (.fault f, u)) :
    execPref a s = .next (advance u id) := by
  rw [execPref, withRegs_clear h, ht]

theorem execPref_wait (ht : translate s s.cur.core (coreRoot s s.cur.core) (s.rd a) false false = (.wait w, u)) :
    execPref a s = .next (stallOn u (.walk w)) := by
  rw [execPref, withRegs_clear h, ht]

end

section
variable (h : s.clear [d, a])
include h

theorem execLocq_fault (ht : translate s s.cur.core (coreRoot s s.cur.core) (s.rd a) false false = (.fault f, u)) :
    execLocq d a s = .next (advance u fun k => k.wr d (BitVec.ofNat 64 (65536 * dieOf s.cur.core))) := by
  simp only [execLocq, withRegs_clear h, ht]

theorem execLocq_hit (ht : translate s s.cur.core (coreRoot s s.cur.core) (s.rd a) false false = (.hit e, u)) :
    execLocq d a s = .next (advance u fun k => k.wr d (locqWord u s.cur.core e (s.rd a))) := by
  simp only [execLocq, withRegs_clear h, ht]

end
end

/-- The fields of a location word at their places (R277). -/
theorem locqWord_fields (s : State) (core : Nat) (e : TcEntry) (va : Word) :
    let v := locqWord s core e va
    v.getLsbD 63 = true ∧ v.getLsbD 62 = e.host ∧ v.extractLsb' 60 2 = e.place ∧ v.extractLsb' 58 2 = BitVec.ofNat 2 e.size ∧
      v.getLsbD 57 = e.wr ∧ v.getLsbD 56 = e.sa ∧ v.extractLsb' 19 37 = 0 ∧ v.extractLsb' 16 3 = BitVec.ofNat 3 (dieOf core) ∧
      v.getLsbD 15 = (s.die (e.homeOf s va)).removed ∧ v.extractLsb' 12 3 = BitVec.ofNat 3 (e.homeOf s va) ∧
      v.extractLsb' 10 2 = BitVec.ofNat 2 (hops s (dieOf core) (e.homeOf s va)) ∧ v.extractLsb' 8 2 = 0 ∧
      v.extractLsb' 0 8 = if e.host then 0 else BitVec.ofNat 8 (keyChannel (e.key va)) := by
  dsimp only [locqWord]
  refine ⟨?valid, ?fields⟩
  case valid =>
    simp (disch := decide) only [bit_app_hi]
    rfl
  case fields =>
    and_intros <;> simp (disch := decide) only [fld_app_lo, fld_app_hi, bit_app_lo, bit_app_hi, bit_ofBool', fld_all']

/-- Settles O13: the outcomes of a translation at PREF and at LOCQ, with the fields of the word that LOCQ writes. -/
theorem translationQueries : Obligations.TranslationQueries := by
  intro s u d a
  refine ⟨fun h e => ⟨execPref_hit h, fun f => execPref_fault h, fun w => execPref_wait h⟩, fun h => ⟨fun f => execLocq_fault h, fun e ht => ?hit⟩⟩
  case hit =>
    obtain ⟨hvalid, hhost, hplace, hsize, hwr, hsa, hres, hdie, hremoved, hhome, hhops, hres', hchan⟩ :=
      locqWord_fields u s.cur.core e (s.rd a)
    refine ⟨_, execLocq_hit h ht, hvalid, hhost, hplace, hsize ▸ BitVec.toNat_ofNat .., hwr, hsa, hres, hdie ▸ BitVec.toNat_ofNat ..,
      hremoved, hhome ▸ BitVec.toNat_ofNat .., hhops ▸ BitVec.toNat_ofNat .., hres', ?_⟩
    rw [hchan]
    split
    · rfl
    · exact BitVec.toNat_ofNat ..

end Sys2Proof.Machine
end

section
/-!
PROOFS. Words between handlers and the masks of handlers (R109, R113, R116, R117): O8.
-/

namespace Sys2Proof.Machine

/-! ### POST (R116) -/

/-- A field of four bits of a register word. -/
theorem toNat_nibble (v : Word) (i : Nat) : (v.extractLsb' (4 * i) 4).toNat = v.toNat / 16 ^ i % 16 := by
  rw [BitVec.extractLsb'_toNat, Nat.shiftRight_eq_div_pow, Nat.pow_mul]

theorem postHigh_iff (v : Word) : v.extractLsb' 12 52 ≠ 0 ↔ 4096 ≤ v.toNat := by
  have hv := v.isLt
  rw [ne_eq, ← BitVec.toNat_inj, BitVec.extractLsb'_toNat, Nat.shiftRight_eq_div_pow]
  show ¬ v.toNat / 2 ^ 12 % 2 ^ 52 = 0 ↔ _
  omega

/-- The core that a POST operand names in a plot (R116). -/
abbrev postCore (q : Plot) (v : Word) : Nat := coreAt q.die (q.col + v.toNat / 16 % 16) (q.row + v.toNat / 256 % 16)

/-- What makes a POST operand illegal (R116). -/
abbrev PostBad (s : State) (q : Plot) (v : Word) : Prop :=
  4096 ≤ v.toNat ∨ q.h ≤ v.toNat / 256 % 16 ∨ q.w ≤ v.toNat / 16 % 16 ∨
    ((s.core (postCore q v)).handler (v.toNat % 16)).valid = false ∨ v.toNat / 256 % 16 ∈ q.drained

theorem execPost_clear {s : State} {a b : Reg} {q : Plot} (hq : s.plotOf s.cur.core = some q) (h : s.clear [a, b]) :
    execPost a b s = .next (
      if PostBad s q (s.rd a) then preciseFault s cILLEGAL 0 (s.rd a)
      else if 4 ≤ inboxLoad s (postCore q (s.rd a)) ((s.rd a).toNat % 16) then
        stallOn s (.inbox (postCore q (s.rd a)) ((s.rd a).toNat % 16))
      else advance (sendWord s s.cur.core (postCore q (s.rd a)) ((s.rd a).toNat % 16) 1 (corePos s s.cur.core).toNat (s.rd b)) id) := by
  have hch : ((s.rd a).extractLsb' 0 4).toNat = (s.rd a).toNat % 16 := by rw [← Nat.div_one (s.rd a).toNat]; exact toNat_nibble _ 0
  have hcol : ((s.rd a).extractLsb' 4 4).toNat = (s.rd a).toNat / 16 % 16 := toNat_nibble _ 1
  have hrow : ((s.rd a).extractLsb' 8 4).toNat = (s.rd a).toNat / 256 % 16 := toNat_nibble _ 2
  unfold execPost
  rw [withRegs_clear h]
  simp only [hq, hch, hcol, hrow, postHigh_iff, ge_iff_le, Bool.not_eq_true', List.contains_iff_mem]

/-! ### HMASK and HUNMASK (R117) -/

theorem tget_tmod {α : Type} [DecidableEq α] (d : α) (t : Tbl α) (i c : Nat) (f : α → α) :
    tget d (tmod d t i f) c = if c = i then f (tget d t c) else tget d t c := by
  split
  · next h => subst h; exact tget_tmod_self ..
  · next h => exact tget_tmod_other _ _ _ h

/-- The entries of a list of distinct keys changed where `p` holds. -/
theorem tget_foldl_tmod {α : Type} [DecidableEq α] (d : α) (f : α → α) (p : Nat → Bool) {l : List Nat} (hl : l.Nodup) (t : Tbl α) (c : Nat) :
    tget d (l.foldl (fun t i => if p i then tmod d t i f else t) t) c = if c ∈ l ∧ p c = true then f (tget d t c) else tget d t c := by
  induction l generalizing t with
  | nil => simp
  | cons i l ih =>
    obtain ⟨hi, hl⟩ := List.nodup_cons.mp hl
    have hstep : tget d (if p i then tmod d t i f else t) c = if c = i ∧ p i = true then f (tget d t c) else tget d t c := by
      split
      · next hp => simp [tget_tmod, hp]
      · next hp => simp [hp]
    rw [List.foldl_cons, ih hl, hstep]
    by_cases hc : c = i
    · subst hc
      simp [hi]
    · simp [hc]

/-- The handler entries with MASK written for the channels whose bit is 1. -/
def maskWritten (v : Word) (m : Bool) (hs : Tbl Handler) : Tbl Handler :=
  (List.range 16).foldl (fun hs c => if v.getLsbD c then tmod Handler.init hs c fun h => { h with mask := m } else hs) hs

theorem tget_maskWritten (v : Word) (m : Bool) (hs : Tbl Handler) (c : Nat) :
    tget Handler.init (maskWritten v m hs) c =
      if c < 16 ∧ v.getLsbD c then { tget Handler.init hs c with mask := m } else tget Handler.init hs c := by
  simp only [← List.mem_range (m := c) (n := 16)]
  exact tget_foldl_tmod Handler.init (fun h => { h with mask := m }) v.getLsbD List.nodup_range hs c

/-- A change of handler entries one after the other is one change of the table. -/
theorem foldl_modHandler (v : Word) (m : Bool) (l : List Nat) (k : Core) :
    l.foldl (fun k c => if v.getLsbD c then k.modHandler c fun h => { h with mask := m } else k) k =
      { k with handlers := l.foldl (fun hs c => if v.getLsbD c then tmod Handler.init hs c fun h => { h with mask := m } else hs) k.handlers } := by
  induction l generalizing k with
  | nil => rfl
  | cons c l ih =>
    rw [List.foldl_cons, List.foldl_cons, ih]
    split <;> rfl

theorem setMasks_clear {s : State} {a : Reg} (h : s.clear [a]) (m : Bool) :
    setMasks s a m = .next (advance s fun k => { k with handlers := maskWritten (s.rd a) m s.me.handlers }) := by
  unfold setMasks
  rw [withRegs_clear h]
  simp only [foldl_modHandler]
  rfl

/-- Settles O8: the outcomes of POST, then the masks that HMASK and HUNMASK write. -/
theorem postAndMasks : Obligations.PostAndMasks := by
  intro s a b q hq
  refine ⟨fun h => ?post, fun h => ⟨⟨_, setMasks_clear h true, tget_maskWritten _ _ _⟩, _, setMasks_clear h false, tget_maskWritten _ _ _⟩⟩
  case post =>
    have hpost : exec (.post a b) s = _ := execPost_clear hq h
    refine ⟨fun hbad => hpost.trans (by rw [if_pos hbad]), fun hok hroom => hpost.trans ?_, fun hok hfull => hpost.trans ?_⟩
    · rw [if_neg hok, if_neg (Nat.not_le.mpr hroom)]
      rfl
    · rw [if_neg hok, if_pos hfull]

end Sys2Proof.Machine
end

section
/-!
PROOFS. The return from a trap (R138, R414): O15.
-/

namespace Sys2Proof.Machine

/-! ### A core written twice -/

theorem tdel_of_absent {α : Type} {t : Tbl α} {k : Nat} (h : ∀ e ∈ t, e.1 ≠ k) : tdel t k = t := by
  induction t with
  | nil => rfl
  | cons e r ih => rw [tdel, if_neg (h e List.mem_cons_self), ih fun x hx => h x (List.mem_cons_of_mem e hx)]

theorem tdel_tins {α : Type} {t : Tbl α} {k : Nat} (v : α) (h : ∀ e ∈ t, e.1 ≠ k) : tdel (tins t k v) k = t := by
  induction t with
  | nil => exact if_pos rfl
  | cons e r ih =>
    have hr := ih fun x hx => h x (List.mem_cons_of_mem e hx)
    unfold tins
    split
    · rw [tdel, if_pos rfl, tdel_of_absent h]
    · rw [tdel, if_neg (h e List.mem_cons_self), hr]

theorem tdel_tset {α : Type} [DecidableEq α] (d : α) (t : Tbl α) (k : Nat) (v : α) : tdel (tset d t k v) k = tdel t k := by
  unfold tset
  split
  · exact tdel_of_absent (tdel_key t k)
  · exact tdel_tins v (tdel_key t k)

/-- The later of two writes of an entry stands. -/
theorem tset_tset {α : Type} [DecidableEq α] (d : α) (t : Tbl α) (k : Nat) (v w : α) : tset d (tset d t k v) k w = tset d t k w := by
  rw [tset, tdel_tset]
  rfl

theorem State.setCore_setCore (s : State) (c : Nat) (k j : Core) : (s.setCore c k).setCore c j = s.setCore c j := by
  simp only [State.setCore, tset_tset]

theorem State.modCore_setCore (s : State) (c : Nat) (k : Core) (f : Core → Core) : (s.setCore c k).modCore c f = s.setCore c (f k) := by
  rw [State.modCore, State.core_setCore_self, State.setCore_setCore]

/-! ### TRET (R138, R414) -/

theorem execTret_outside {s : State} (hon : s.me.trap.on = false) : execTret s = .next (preciseFault s cILLEGAL 0 0xC0000100) := by
  unfold execTret
  simp only [hon, Bool.not_false, if_true]

/-- Marks that nothing owes a value to are cleared; nothing else changes. -/
theorem clearOrphans_setCore (s : State) (c : Nat) (k : Core) :
    ∃ p, clearOrphans (s.setCore c k) c = s.setCore c { k with pend := p } :=
  ⟨_, State.modCore_setCore ..⟩

section
variable {s : State} {q : Plot} (hq : s.plotOf s.cur.core = some q) (hon : s.me.trap.on = true)
include hq hon

theorem execTret_misaligned (hidle : leAt (mread s.me.lmem q.tfaddr 576) 5 1 / 2 % 2 = 0)
    (hal : leAt (mread s.me.lmem q.tfaddr 576) 24 8 % 4 ≠ 0) :
    execTret s = .next (preciseFault s cALIGN 0 (BitVec.ofNat 64 (leAt (mread s.me.lmem q.tfaddr 576) 24 8))) := by
  unfold execTret
  simp only [hq, hon, Option.map_some, Option.getD_some, Bool.not_true, Bool.false_eq_true, if_false]
  rw [if_pos ⟨hidle, hal⟩]

theorem execTret_leaves (hok : ¬(leAt (mread s.me.lmem q.tfaddr 576) 5 1 / 2 % 2 = 0 ∧ leAt (mread s.me.lmem q.tfaddr 576) 24 8 % 4 ≠ 0)) :
    ∃ p, execTret s = .next (s.setCore s.cur.core { boundary (leaveTrap s.me q.tfaddr) with pend := p }) := by
  obtain ⟨p, hp⟩ := clearOrphans_setCore s s.cur.core (boundary (leaveTrap s.me q.tfaddr))
  refine ⟨p, ?_⟩
  unfold execTret
  simp only [hq, hon, Option.map_some, Option.getD_some, Bool.not_true, Bool.false_eq_true, if_false]
  rw [if_neg hok, ← hp]
  rfl

end

/-- Entries that the routine kept are re-injected with DROP clear. -/
theorem zipIdx_map_kept {f : Nat → Bool} {rs : List Replay} (h : ∀ i < rs.length, f i = false) :
    (rs.zipIdx.map fun e => { e.1 with drop := f e.2 }) = rs.map fun r => { r with drop := false } := by
  refine List.ext_getElem (by simp) fun i h1 h2 => ?_
  have hi : i < rs.length := by simpa using h2
  simp [h i hi]

section
variable (k : Core) (tf : Nat)

theorem leaveTrap_handler {c : Nat} (hc : c ≠ 16) : (leaveTrap k tf).handler c = k.handler c :=
  Core.handler_modHandler_other k (fun _ => Handler.init) hc

theorem leaveTrap_running : (leaveTrap k tf).running = if leAt (mread k.lmem tf 576) 5 1 / 2 % 2 = 1 then none else some k.trap.chan := by
  simp only [leaveTrap, beq_iff_eq]

theorem leaveTrap_pc : (leaveTrap k tf).pc =
    if leAt (mread k.lmem tf 576) 5 1 / 2 % 2 = 1 then k.pc else BitVec.ofNat 64 (leAt (mread k.lmem tf 576) 24 8) := by
  simp only [leaveTrap, beq_iff_eq]

variable {k tf} (hn : leAt (mread k.lmem tf 576) 4 1 = k.replay.length)
include hn

theorem leaveTrap_replay : (leaveTrap k tf).replay = [] := by
  simp only [leaveTrap, hn, Nat.min_self, List.drop_length]

theorem leaveTrap_reinj (hkept : ∀ i < k.replay.length, leAt (mread k.lmem tf 576) (64 + 32 * i + 25) 1 % 2 = 0) :
    (leaveTrap k tf).reinj = k.replay.map fun r => { r with drop := false } := by
  simp only [leaveTrap, hn, Nat.min_self, List.take_length]
  exact zipIdx_map_kept (f := fun i => leAt (mread k.lmem tf 576) (64 + 32 * i + 25) 1 % 2 == 1) fun i hi => by rw [hkept i hi]; rfl

end

/-- Settles O15: TRET outside trap mode, with a RESUME that is no word address, and as it leaves the trap context. -/
theorem trapReturnResumes : Obligations.TrapReturnResumes := by
  intro s q hq
  refine ⟨execTret_outside, fun hon hidle hal => execTret_misaligned hq hon hidle hal, fun hon hidle hal hn hkept => ?resumes,
    fun hon hidle => ?idle⟩
  case resumes =>
    obtain ⟨p, hp⟩ := execTret_leaves hq hon fun h => h.2 hal
    refine ⟨_, hp, ?_⟩
    rw [boundary_frame]
    refine ⟨rfl, ?_, ?_, leaveTrap_reinj hn hkept, leaveTrap_replay hn, fun c hc => leaveTrap_handler s.me q.tfaddr hc, rfl, rfl, rfl⟩
    · exact (leaveTrap_running ..).trans (if_neg (by rw [hidle]; decide))
    · exact (leaveTrap_pc ..).trans (if_neg (by rw [hidle]; decide))
  case idle =>
    obtain ⟨p, hp⟩ := execTret_leaves hq hon fun h => absurd (hidle.symm.trans h.1) (by decide)
    refine ⟨_, hp, ?_⟩
    rw [boundary_frame]
    exact ⟨rfl, (leaveTrap_running ..).trans (if_pos hidle)⟩

end Sys2Proof.Machine
end

section
/-!
PROOFS. The entry of a trap (R137, R141, R411, R412): O14.
-/

namespace Sys2Proof.Machine

/-! ### Parts of a list of bytes -/

theorem slice_append_left {α : Type} {l : List α} (r : List α) {o n : Nat} (h : o + n ≤ l.length) : slice (l ++ r) o n = slice l o n := by
  unfold slice
  rw [List.drop_append_of_le_length (by omega), List.take_append_of_le_length (by rw [List.length_drop]; omega)]

theorem slice_append_right {α : Type} {l : List α} (r : List α) {o n : Nat} (h : l.length ≤ o) :
    slice (l ++ r) o n = slice r (o - l.length) n := by
  unfold slice
  rw [List.drop_append, List.drop_eq_nil_of_le h, List.nil_append]

theorem leNat_slice_natLe {n o : Nat} (v : Nat) (h : o = 0) : leNat (slice (natLe n v) o n) = v % 256 ^ n := by
  subst h
  rw [slice, List.drop_zero, List.take_of_length_le (natLe_length n v).le, leNat_natLe]

/-! ### The frame (R412) -/

theorem frameBytes_length (k : Core) : (frameBytes k).length = 576 := by
  simp [frameBytes]

/-- The fields of the header of a frame. -/
theorem frameBytes_header (k : Core) :
    let fr := frameBytes k
    leAt fr 0 4 = k.tcause.toNat ∧ leAt fr 4 1 = k.trqn % 256 ∧ leAt fr 5 1 = frameFlags k.trap % 256 ∧
      leAt fr 6 1 = (if k.trap.idle then 0xFF else k.trap.chan) % 256 ∧ leAt fr 8 8 = k.tepc.toNat ∧ leAt fr 16 8 = k.tval.toNat ∧
      leAt fr 24 8 = k.trap.resume.toNat := by
  have h32 (v : W32) : v.toNat % 256 ^ 4 = v.toNat := Nat.mod_eq_of_lt v.isLt
  have h64 (v : Word) : v.toNat % 256 ^ 8 = v.toNat := Nat.mod_eq_of_lt v.isLt
  dsimp only [frameBytes]
  and_intros <;> simp (disch := simp) only [leAt, slice_append_left, slice_append_right, leNat_slice_natLe, h32, h64, Nat.pow_one, -Nat.reducePow]

/-- Bit 0 of FLAGS says whether the trap is precise. -/
theorem frameFlags_precise (t : TrapMode) : frameFlags t % 256 % 2 = if t.precise then 1 else 0 := by
  unfold frameFlags
  split_ifs <;> rfl

/-! ### Taking a trap (R411) -/

theorem insReplay_length (r : Replay) (rs : List Replay) : (insReplay r rs).length = rs.length + 1 := by
  induction rs with
  | nil => rfl
  | cons x xs ih =>
    unfold insReplay
    split
    · rfl
    · rw [List.length_cons, ih, List.length_cons]

theorem sortReplay_length (rs : List Replay) : (sortReplay rs).length = rs.length := by
  induction rs with
  | nil => rfl
  | cons r rs ih => rw [sortReplay, insReplay_length, ih, List.length_cons]

/-- A core that has entered trap mode on a plot with a trap routine, before its frame is written (R411 steps 1 and 2). -/
def Core.trapped (k : Core) (tcause : W32) (tepc tval resume : Word) (precise engine : Bool) : Core :=
  { k with
    tcause := tcause, tepc := tepc, tval := tval, trqn := (sortReplay k.replay).length, replay := sortReplay k.replay
    trap := { on := true, idle := k.running.isNone, precise := precise, chan := k.running.getD 0, resume := resume,
              hosted := false, routine := true, engine := engine } }

/-- A trapped core with its frame in local memory. -/
def Core.framed (k : Core) (tf : Nat) : Core := boundary { k with lmem := mwrite k.lmem tf (frameBytes k) }

theorem enterTrap_routine {s : State} {core : Nat} {q : Plot} (hq : s.plotOf core = some q) (hr : q.trapoff ≠ 0xFFFFFFFF) (tcause : W32)
    (tepc tval resume : Word) (precise engine : Bool) :
    enterTrap s core tcause tepc tval resume precise engine =
      s.setCore core (startRoutine q (((s.core core).trapped tcause tepc tval resume precise engine).framed q.tfaddr)) := by
  have hroutine : (q.trapoff != 0xFFFFFFFF) = true := bne_iff_ne.mpr hr
  simp only [enterTrap, hq, hroutine, if_true]
  rfl

section
variable (q : Plot) (k : Core)

/-- What the start of the trap routine changes. -/
theorem startRoutine_frame : startRoutine q k = { k with
    running := some 16, pc := q.codebase + q.trapoff.setWidth 64
    handlers := (k.modHandler 16 fun _ => { Handler.init with state := .running }).handlers
    regs := tset 0 (tset 0 k.regs (physReg 16 31) (BitVec.ofNat 64 q.tfaddr)) (physReg 16 30) (k.tcause.setWidth 64) } := rfl

theorem startRoutine_lmem : (startRoutine q k).lmem = k.lmem := rfl

theorem startRoutine_rd31 : (startRoutine q k).rd 31 = BitVec.ofNat 64 q.tfaddr := by
  simp [startRoutine, Core.rd_wr]

theorem startRoutine_rd30 : (startRoutine q k).rd 30 = k.tcause.setWidth 64 := by
  simp [startRoutine, Core.rd_wr]

theorem startRoutine_handler16 : (startRoutine q k).handler 16 = { Handler.init with state := .running } :=
  Core.handler_modHandler_self k 16 fun _ => { Handler.init with state := .running }

theorem startRoutine_handler_other {c : Nat} (hc : c ≠ 16) : (startRoutine q k).handler c = k.handler c :=
  Core.handler_modHandler_other k (fun _ => { Handler.init with state := .running }) hc

/-- The routine starts with the registers of the handlers as they were. -/
theorem startRoutine_regs {p : Nat} (hp : p < 24 + 8 * 16) : tget 0 (startRoutine q k).regs p = tget 0 k.regs p := by
  have h30 : physReg 16 30 = 158 := rfl
  have h31 : physReg 16 31 = 159 := rfl
  rw [startRoutine_frame]
  dsimp only
  rw [tget_tset_other _ _ _ (by omega), tget_tset_other _ _ _ (by omega)]

end

section
variable (k : Core) (tf : Nat)

theorem Core.framed_frame : k.framed tf = { k with
    lmem := mwrite k.lmem tf (frameBytes k), stepping := (k.framed tf).stepping, stopped := (k.framed tf).stopped } := by
  unfold Core.framed
  generalize mwrite k.lmem tf (frameBytes k) = m
  exact boundary_frame _

theorem Core.framed_read : mread (mwrite k.lmem tf (frameBytes k)) tf 576 = frameBytes k := by
  have h := mread_mwrite_self k.lmem tf (frameBytes k)
  rwa [frameBytes_length] at h

theorem Core.framed_outside {x : Nat} (hx : x < tf ∨ tf + 576 ≤ x) :
    mbyte (mwrite k.lmem tf (frameBytes k)) x = mbyte k.lmem x := by
  rw [← frameBytes_length k] at hx
  exact mbyte_mwrite_out _ _ _ _ hx

end

/-! ### The causes of a trap (R137, R141) -/

theorem preciseFault_outside {s : State} (hoff : s.me.trap.on = false) (code : Byte) (detail : Nat) (tval : Word) :
    preciseFault s code detail tval = enterTrap s s.cur.core (causeOf code detail) s.me.pc tval s.me.pc true false := by
  unfold preciseFault
  simp only [hoff, Bool.false_eq_true, if_false]

/-- TRAP is taken after the end-of-body test (R137). -/
theorem execTrap_outside {s : State} (hoff : s.me.trap.on = false) (c : BitVec 8) :
    execTrap c s = .next (enterTrap
      (s.setCore s.cur.core { s.me with pc := (s.me.finish (s.me.pc + 4)).pc, handlers := (s.me.finish (s.me.pc + 4)).handlers })
      s.cur.core (causeOf 0 c.toNat) s.me.pc 0 (s.me.finish (s.me.pc + 4)).pc true false) := by
  rw [Core.finish_pc, Core.finish_handlers]
  simp only [execTrap, hoff, Bool.false_eq_true, if_false]
  rfl

/-- Settles O14: the core that a trap leaves, field by field, and what enters one. -/
theorem trapsAndPreciseFaults : Obligations.TrapsAndPreciseFaults := by
  refine ⟨?entry, fun s code detail tval c hoff => ⟨preciseFault_outside hoff code detail tval, ?trap⟩⟩
  case entry =>
    intro s core q tcause tepc tval resume precise engine hq hr hlen
    have hrep : (sortReplay (s.core core).replay).length = (s.core core).replay.length := sortReplay_length _
    refine ⟨_, enterTrap_routine hq hr .., ?_⟩
    rw [Core.framed_frame]
    generalize hm : mwrite _ q.tfaddr _ = m
    refine ⟨rfl, rfl, rfl, hrep, rfl, rfl, rfl, ?_, startRoutine_rd31 .., startRoutine_rd30 .., fun c hc => startRoutine_handler_other _ _ hc,
      fun p hp => startRoutine_regs _ _ hp, rfl, rfl, ?frame, ?outside⟩
    · rw [startRoutine_handler16]
      rfl
    case frame =>
      have hread : mread m q.tfaddr 576 = _ := hm ▸ Core.framed_read _ q.tfaddr
      obtain ⟨hcause, hn, hflags, hchan, hepc, hval, hres⟩ := frameBytes_header ((s.core core).trapped tcause tepc tval resume precise engine)
      simp only [startRoutine_lmem, hread]
      refine ⟨hcause, ?_, hepc, hval, hres, ?_, ?_⟩
      · exact hn.trans ((Nat.mod_eq_of_lt (lt_of_le_of_lt (hrep.trans_le hlen) (by decide))).trans hrep)
      · rw [hchan, Core.trapped]
        cases (s.core core).running <;> rfl
      · rw [hflags]
        exact frameFlags_precise _
    case outside =>
      intro x hx
      have hout : mbyte m x = _ := hm ▸ Core.framed_outside _ q.tfaddr hx
      rw [startRoutine_lmem, hout]
      rfl
  case trap =>
    rw [show (256 * c.toNat) = (0 : Byte).toNat + 256 * c.toNat from (Nat.zero_add _).symm]
    exact execTrap_outside hoff c

end Sys2Proof.Machine
end

section
/-!
PROOFS. The dispatch of handlers (R111, R112): O42.
-/

namespace Sys2Proof.Machine

/-! ### Selection (R111) -/

theorem mem_eligible {s : State} {core c : Nat} :
    c ∈ eligible s core ↔ c < 16 ∧ runnable s core c = true ∧ ((s.core core).handler c).mask = false ∧ stepKeeps (s.core core) c = false := by
  simp [eligible, and_assoc]

theorem le_foldl_max (f : Nat → Nat) (l : List Nat) (m : Nat) :
    m ≤ l.foldl (fun m c => max m (f c)) m ∧ ∀ c ∈ l, f c ≤ l.foldl (fun m c => max m (f c)) m := by
  induction l generalizing m with
  | nil => simp
  | cons a l ih =>
    obtain ⟨hm, hl⟩ := ih (max m (f a))
    rw [List.foldl_cons]
    refine ⟨(le_max_left ..).trans hm, fun c hc => ?_⟩
    rcases List.mem_cons.mp hc with rfl | hc
    · exact (le_max_right ..).trans hm
    · exact hl c hc

/-- The selected entry is eligible, and no eligible one exceeds it in priority. -/
theorem selectNext_some {s : State} {core b : Nat} (h : selectNext s core = some b) :
    b ∈ eligible s core ∧ ∀ x ∈ eligible s core, ((s.core core).handler x).prio.toNat ≤ ((s.core core).handler b).prio.toNat := by
  have hb := List.find?_some h
  simp only [Bool.and_eq_true, List.contains_iff_mem, beq_iff_eq] at hb
  obtain ⟨hmem, htop⟩ := hb
  exact ⟨hmem, fun x hx => htop ▸ (le_foldl_max (fun c => ((s.core core).handler c).prio.toNat) _ 0).2 x hx⟩

/-! ### Dispatch (R112) -/

theorem restoreOver_plain {s : State} {core : Nat} (h : ∀ q, s.plotOf core = some q → q.image407 = []) : restoreOver s core = s := by
  unfold restoreOver
  split
  · next q hq => rw [h q hq]; rfl
  · rfl

section
variable {s : State} {core : Nat} (hoff : (s.core core).trap.on = false)
include hoff

theorem execHandlerDispatch_busy (hfree : freeToSelect s core = false) : execHandlerDispatch core s = .next s := by
  simp only [execHandlerDispatch, hoff, hfree, Bool.false_eq_true, Bool.not_false, if_false, if_true]

theorem execHandlerDispatch_none (hsel : selectNext s core = none) : execHandlerDispatch core s = .next s := by
  cases hfree : freeToSelect s core
  · exact execHandlerDispatch_busy hoff hfree
  · simp only [execHandlerDispatch, hoff, hfree, hsel, Bool.false_eq_true, Bool.not_true, if_false]

theorem execHandlerDispatch_entry {c : Nat} (hfree : freeToSelect s core = true) (hsel : selectNext s core = some c)
    (himg : ∀ q, s.plotOf core = some q → q.image407 = []) (hst : ((s.core core).handler c).state ≠ .stalled) :
    execHandlerDispatch core s = .next (s.setCore core (dispatchEntry (s.core core) c)) := by
  simp only [execHandlerDispatch, hoff, hfree, hsel, restoreOver_plain himg, hst, Bool.false_eq_true, Bool.not_true, if_false, false_and,
    and_false]
  rfl

end

/-- The registers with which an entry that has not stalled starts: the oldest word of its inbox in x31 and x30 of its bank (R112). -/
def Core.handedRegs (k : Core) (c : Nat) : Tbl Word :=
  match (k.handler c).inbox with
  | [] => tset 0 k.regs (physReg c 30) 0
  | w :: _ => tset 0 (tset 0 k.regs (physReg c 31) w.1) (physReg c 30) (w.2.setWidth 64)

/-- The entry that starts: its oldest word taken and WAKE clear. -/
def Handler.started (h : Handler) : Handler := { h with inbox := h.inbox.drop 1, wake := false, state := .running }

theorem dispatchEntry_eq {k : Core} {c : Nat} (hst : (k.handler c).state ≠ .stalled) : dispatchEntry k c = { k with
    regs := k.handedRegs c, running := some c, last := c, chan := BitVec.ofNat 4 c
    handlers := (k.modHandler c Handler.started).handlers
    pc := if (k.handler c).state = .idle then (k.handler c).entry else (k.handler c).savedPc } := by
  cases hin : (k.handler c).inbox <;> simp only [dispatchEntry, Core.handedRegs, hst, hin, if_false] <;> rfl

section
variable (k : Core) (c : Nat)

theorem physReg_30_ne_31 : physReg c 30 ≠ physReg c 31 := by
  show 24 + 8 * c + 6 ≠ 24 + 8 * c + 7
  omega

theorem handedRegs_word {w : Word} {o : BitVec 16} {rest : List (Word × BitVec 16)} (hin : (k.handler c).inbox = (w, o) :: rest) :
    tget 0 (k.handedRegs c) (physReg c 31) = w ∧ tget 0 (k.handedRegs c) (physReg c 30) = o.setWidth 64 := by
  simp only [Core.handedRegs, hin]
  exact ⟨by rw [tget_tset_other _ _ _ (physReg_30_ne_31 c).symm, tget_tset_self], tget_tset_self ..⟩

theorem handedRegs_empty (hin : (k.handler c).inbox = []) :
    tget 0 (k.handedRegs c) (physReg c 30) = 0 ∧ tget 0 (k.handedRegs c) (physReg c 31) = tget 0 k.regs (physReg c 31) := by
  simp only [Core.handedRegs, hin]
  exact ⟨tget_tset_self .., tget_tset_other _ _ _ (physReg_30_ne_31 c).symm⟩

theorem handedRegs_other {p : Nat} (h30 : p ≠ physReg c 30) (h31 : p ≠ physReg c 31) : tget 0 (k.handedRegs c) p = tget 0 k.regs p := by
  unfold Core.handedRegs
  split
  · exact tget_tset_other _ _ _ h30
  · rw [tget_tset_other _ _ _ h30, tget_tset_other _ _ _ h31]

end

/-- Settles O42: the entry that starts, what keeps a core from dispatching, and the entry that is selected. -/
theorem handlersDispatched : Obligations.HandlersDispatched := by
  intro s core c
  refine ⟨fun hoff hfree hsel himg hst _ => ?starts, execHandlerDispatch_busy, execHandlerDispatch_none, fun b hsel => ?selected⟩
  case starts =>
    have hself : ((s.core core).modHandler c Handler.started).handler c = ((s.core core).handler c).started :=
      Core.handler_modHandler_self ..
    refine ⟨_, (execHandlerDispatch_entry hoff hfree hsel himg hst).trans (by rw [dispatchEntry_eq hst]), rfl, rfl, rfl, ?_⟩
    refine ⟨congrArg Handler.state hself, congrArg Handler.wake hself, congrArg Handler.inbox hself,
      fun w o rest hin => handedRegs_word _ c hin, fun hin => handedRegs_empty _ c hin, fun p h30 h31 => handedRegs_other _ c h30 h31⟩
  case selected =>
    obtain ⟨hmem, hmax⟩ := selectNext_some hsel
    obtain ⟨_, hrun, hmask, _⟩ := mem_eligible.mp hmem
    refine ⟨hrun, hmask, fun hstep x hx hxrun hxmask => hmax x (mem_eligible.mpr ⟨hx, hxrun, hxmask, ?_⟩)⟩
    simp only [stepKeeps, hstep, Bool.false_and]

end Sys2Proof.Machine
end

section
/-!
PROOFS. Debug state (R139, R140), breakpoints (R188, R189) and bay switches (R205): O44.
-/

namespace Sys2Proof.Machine

/-! ### Debug state (R139, R140) -/

theorem Core.finish_arm (k : Core) (npc : Word) : (k.finish npc).arm = k.arm := by rw [Core.finish_frame]

/-- An armed core stops in debug state. -/
def Core.stopIfArmed (k : Core) : Core := if k.arm then { k with stopped := true } else k

theorem execEbrk_eq (s : State) : execEbrk s = .next (s.setCore s.cur.core (s.me.finish (s.me.pc + 4)).stopIfArmed) :=
  congrArg _ (State.modCore_setCore s s.cur.core (s.me.finish (s.me.pc + 4)) Core.stopIfArmed)

theorem execEbrk_armed {s : State} (h : s.me.arm = true) :
    execEbrk s = .next (s.modMe fun k => { k.finish (k.pc + 4) with stopped := true }) := by
  rw [execEbrk_eq, Core.stopIfArmed, if_pos (by rw [Core.finish_arm, h])]
  rfl

theorem execEbrk_unarmed {s : State} (h : s.me.arm = false) : execEbrk s = .next (advance s id) := by
  rw [execEbrk_eq, Core.stopIfArmed, if_neg (by rw [Core.finish_arm, h]; decide)]
  rfl

section
variable {s : State} {core : Nat}

theorem debug_stopped (h : (s.core core).stopped = true) :
    execDebugResume core s = .next (s.modCore core fun k => { k with stopped := false, stepping := false }) ∧
      execDebugStep core s = .next (s.modCore core fun k => { k with stopped := false, stepping := true }) :=
  ⟨congrArg _ (if_pos h), congrArg _ (if_pos h)⟩

theorem debug_running (h : (s.core core).stopped = false) : execDebugResume core s = .next s ∧ execDebugStep core s = .next s :=
  ⟨congrArg _ (if_neg (by simp [h])), congrArg _ (if_neg (by simp [h]))⟩

end

/-! ### Folds of changes -/

/-- What one element establishes and every later one keeps holds at the end. -/
theorem foldl_establishes {σ ι : Type} {step : σ → ι → σ} {P : σ → Prop} (hkeep : ∀ t i, P t → P (step t i)) {i : ι}
    (hset : ∀ t, P (step t i)) {l : List ι} (hi : i ∈ l) (t : σ) : P (l.foldl step t) := by
  obtain ⟨pre, post, rfl⟩ := List.append_of_mem hi
  rw [List.foldl_append, List.foldl_cons]
  exact List.foldlRecOn post step (hset _) fun u hu j _ => hkeep u j hu

section
variable {α β : Type} [DecidableEq α] (d : α) {f : α → α} (g : α → β) (l : List Nat) (t : Tbl α) (i : Nat)

/-- A part of the entries that a change keeps. -/
theorem foldl_tmod_keeps (hf : ∀ x, g (f x) = g x) : g (tget d (l.foldl (fun t i => tmod d t i f) t) i) = g (tget d t i) := by
  refine List.foldlRecOn l _ (motive := fun u => g (tget d u i) = g (tget d t i)) rfl fun u hu j _ => ?_
  rw [tget_tmod]
  split
  · exact (hf _).trans hu
  · exact hu

/-- A part of the entries that a change sets. -/
theorem foldl_tmod_sets {v : β} (hf : ∀ x, g (f x) = v) {l : List Nat} {i : Nat} (hi : i ∈ l) :
    g (tget d (l.foldl (fun t i => tmod d t i f) t) i) = v := by
  refine foldl_establishes (P := fun u => g (tget d u i) = v) (fun u j hu => ?_) (fun u => ?_) hi t
  · rw [tget_tmod]
    split
    · exact hf _
    · exact hu
  · rw [tget_tmod_self, hf]

end

/-! ### Steps that change the slots and cells of one core -/

/-- From `t` to `u` only core `c` changes, and neither its registers nor its local memory nor its tiles. -/
structure TouchesCore (t u : State) (c : Nat) : Prop where
  mem : u.mem = t.mem
  plots : u.plots = t.plots
  other : ∀ d, d ≠ c → u.core d = t.core d
  regs : (u.core c).regs = (t.core c).regs
  lmem : (u.core c).lmem = (t.core c).lmem
  tiles : (u.core c).tiles = (t.core c).tiles

theorem TouchesCore.refl (t : State) (c : Nat) : TouchesCore t t c := ⟨rfl, rfl, fun _ _ => rfl, rfl, rfl, rfl⟩

theorem TouchesCore.modCore (t : State) (c : Nat) {f : Core → Core} (hregs : (f (t.core c)).regs = (t.core c).regs)
    (hlmem : (f (t.core c)).lmem = (t.core c).lmem) (htiles : (f (t.core c)).tiles = (t.core c).tiles) : TouchesCore t (t.modCore c f) c where
  mem := rfl
  plots := rfl
  other _ hd := State.core_modCore_other _ _ hd
  regs := by rw [State.core_modCore_self, hregs]
  lmem := by rw [State.core_modCore_self, hlmem]
  tiles := by rw [State.core_modCore_self, htiles]

/-- What a series of such steps over the cores `l` leaves alone. -/
structure TouchesCores (s u : State) (l : List Nat) : Prop where
  mem : u.mem = s.mem
  plots : u.plots = s.plots
  other : ∀ c, c ∉ l → u.core c = s.core c
  data : ∀ c, (u.core c).regs = (s.core c).regs ∧ (u.core c).lmem = (s.core c).lmem ∧ (u.core c).tiles = (s.core c).tiles

theorem TouchesCores.refl (s : State) (l : List Nat) : TouchesCores s s l := ⟨rfl, rfl, fun _ _ => rfl, fun _ => ⟨rfl, rfl, rfl⟩⟩

theorem TouchesCores.step {s t u : State} {l : List Nat} {c : Nat} (hst : TouchesCores s t l) (htu : TouchesCore t u c) (hc : c ∈ l) :
    TouchesCores s u l where
  mem := htu.mem.trans hst.mem
  plots := htu.plots.trans hst.plots
  other d hd := (htu.other d fun h => hd (h ▸ hc)).trans (hst.other d hd)
  data d := by
    obtain ⟨hregs, hlmem, htiles⟩ := hst.data d
    by_cases hd : d = c
    · subst hd
      exact ⟨htu.regs.trans hregs, htu.lmem.trans hlmem, htu.tiles.trans htiles⟩
    · rw [htu.other d hd]
      exact ⟨hregs, hlmem, htiles⟩

theorem TouchesCores.foldl {s t : State} {l : List Nat} {step : State → Nat → State} (hstep : ∀ t c, TouchesCore t (step t c) c)
    (hst : TouchesCores s t l) : TouchesCores s (l.foldl step t) l :=
  List.foldlRecOn l step (motive := fun u => TouchesCores s u l) hst fun u hu c hc => TouchesCores.step hu (hstep u c) hc

/-! ### The bay of a cell (R205) -/

/-- All cells of a core are in bay `b`. -/
def Core.inBay (b : Nat) (k : Core) : Prop := ∀ i < 8, (tget Cell.init k.cells i).bay = b

/-- A step that leaves the bays of its core alone. -/
theorem TouchesCore.inBay {t u : State} {c : Nat} (h : TouchesCore t u c)
    (hbay : ∀ i, (tget Cell.init (u.core c).cells i).bay = (tget Cell.init (t.core c).cells i).bay) {b d : Nat}
    (hd : (t.core d).inBay b) : (u.core d).inBay b := by
  by_cases he : d = c
  · subst he
    exact fun i hi => (hbay i).trans (hd i hi)
  · rwa [h.other d he]

/-- A cell as a bay switch leaves it. -/
def Cell.switched (b : Nat) (x : Cell) : Cell :=
  { x with bay := b, nstate := x.nstate.map fun e => (e.1, { e.2 with last := none, t := 0 }) }

/-- A core whose cells have changed bay. -/
def Core.switched (b : Nat) (k : Core) : Core :=
  { k with cells := (List.range 8).foldl (fun cs i => tmod Cell.init cs i (Cell.switched b)) k.cells }

theorem Core.switched_inBay (b : Nat) (k : Core) : (k.switched b).inBay b := by
  intro i hi
  have hmem := List.mem_range.mpr hi
  unfold Core.switched
  generalize List.range 8 = l at hmem ⊢
  exact foldl_tmod_sets Cell.init (f := Cell.switched b) Cell.bay k.cells (fun _ => rfl) hmem

theorem slotsFrom_touches (t : State) (c : Nat) (pos : Word) : TouchesCore t (slotsFrom t c pos) c := by
  unfold slotsFrom
  exact TouchesCore.modCore t c rfl rfl rfl

theorem slotsFrom_bay (t : State) (c : Nat) (pos : Word) (i : Nat) :
    (tget Cell.init ((slotsFrom t c pos).core c).cells i).bay = (tget Cell.init (t.core c).cells i).bay := by
  rw [slotsFrom, State.core_modCore_self]

theorem slotsOver_touches (t : State) (c : Nat) (pos : Word) : TouchesCore t (slotsOver t c pos) c := by
  unfold slotsOver
  exact TouchesCore.modCore t c rfl rfl rfl

theorem slotsOver_bay (t : State) (c : Nat) (pos : Word) (i : Nat) :
    (tget Cell.init ((slotsOver t c pos).core c).cells i).bay = (tget Cell.init (t.core c).cells i).bay := by
  rw [slotsOver, State.core_modCore_self]
  generalize List.range 8 = l
  exact foldl_tmod_keeps Cell.init Cell.bay l _ i fun _ => rfl

/-- Where the slots of a core go on after the invocation `w` that a decision bound (R205 step 4). -/
def boundStep (q : Plot) (b : Nat) (w : Word) (t : State) (c : Nat) : State :=
  if !q.isLast w then slotsFrom t c q.wid else if b == q.bay then t else slotsOver t c w

theorem boundStep_touches (q : Plot) (b : Nat) (w : Word) (t : State) (c : Nat) : TouchesCore t (boundStep q b w t c) c := by
  unfold boundStep
  split
  · exact slotsFrom_touches ..
  · split
    · exact TouchesCore.refl ..
    · exact slotsOver_touches ..

theorem boundStep_bay (q : Plot) (b : Nat) (w : Word) (t : State) (c i : Nat) :
    (tget Cell.init ((boundStep q b w t c).core c).cells i).bay = (tget Cell.init (t.core c).cells i).bay := by
  unfold boundStep
  split
  · exact slotsFrom_bay ..
  · split
    · rfl
    · exact slotsOver_bay ..

/-- All cells of the cores `l` change bay in one step. -/
def switchCores (s : State) (b : Nat) (l : List Nat) : State := l.foldl (fun t c => t.modCore c (Core.switched b)) s

theorem switchCores_touches (s : State) (b : Nat) (l : List Nat) : TouchesCores s (switchCores s b l) l := by
  have hstep (t : State) (c : Nat) : TouchesCore t (t.modCore c (Core.switched b)) c := by
    apply TouchesCore.modCore <;> rw [Core.switched]
  exact TouchesCores.foldl hstep (TouchesCores.refl s l)

theorem switchCores_inBay (s : State) (b : Nat) {l : List Nat} {c : Nat} (hc : c ∈ l) : ((switchCores s b l).core c).inBay b := by
  refine foldl_establishes (P := fun t => (t.core c).inBay b) (fun t d ht => ?_) (fun t => ?_) hc s
  · by_cases hd : c = d
    · subst hd
      rw [State.core_modCore_self]
      exact Core.switched_inBay b _
    · rwa [State.core_modCore_other _ _ hd]
  · rw [State.core_modCore_self]
    exact Core.switched_inBay b _

/-- The plot after a bay switch. -/
def Plot.switched (q : Plot) (b : Nat) : Plot :=
  { q with bay := b, decision := none, bound := none, bayStart := q.wid, bayCount := q.retired }

theorem find_mapFirst {α : Type} {p : α → Bool} {f : α → α} (hp : ∀ x, p x = true → p (f x) = true) (l : List α) :
    (mapFirst p f l).find? p = (l.find? p).map f := by
  induction l with
  | nil => rfl
  | cons a r ih =>
    unfold mapFirst
    cases ha : p a
    · simp [ha, ih]
    · simp [ha, hp a ha]

theorem findPlot_modPlot {s : State} {id : Nat} {q : Plot} {f : Plot → Plot} (hf : ∀ p, (f p).id = p.id) (hq : s.findPlot id = some q) :
    (s.modPlot id f).findPlot id = some (f q) := by
  have h := find_mapFirst (p := fun p : Plot => p.id == id) (f := f) (fun p hp => by rw [hf]; exact hp) s.plots
  exact h.trans (congrArg (Option.map f) hq)

section
variable {s : State} {q : Plot} {b : Nat} (hq : s.findPlot q.id = some q) (hd : q.decision = some b) (hlive : q.live = true)
  (harcs : arcsEmpty s q = true) (hidle : stagesIdle s q = true) (hreach : boundReached s q = true)
  (hhit : ∀ n, (tget Breakpoint.init q.bps n).hit = false)
include hq hd hlive harcs hidle hreach hhit

/-- A requested switch on a quiet plot: the cells of its cores, then its slots, then the plot itself. -/
theorem execBaySwitch_quiet : ∃ t, execBaySwitch q.id s = .next (t.modPlot q.id fun p => p.switched b) ∧
    TouchesCores s t (heldCores s q) ∧ ∀ c ∈ heldCores s q, (t.core c).inBay b := by
  have hnone : ((List.range 8).any fun n => (tget Breakpoint.init q.bps n).hit) = false := by simp [hhit]
  have hcells := switchCores_touches s b (heldCores s q)
  cases hb : q.bound with
  | none =>
    refine ⟨switchCores s b (heldCores s q), ?_, hcells, fun c hc => switchCores_inBay s b hc⟩
    simp only [execBaySwitch, hq, hd, hlive, harcs, hidle, hreach, hnone, hb, Bool.not_true, Bool.or_false, Bool.false_eq_true, if_false]
    rfl
  | some w =>
    refine ⟨(heldCores s q).foldl (boundStep q b w) (switchCores s b (heldCores s q)), ?_,
      hcells.foldl (boundStep_touches q b w), fun c hc => ?_⟩
    · simp only [execBaySwitch, hq, hd, hlive, harcs, hidle, hreach, hnone, hb, Bool.not_true, Bool.or_false, Bool.false_eq_true, if_false]
      rfl
    · exact List.foldlRecOn (heldCores s q) (boundStep q b w) (motive := fun t => (t.core c).inBay b) (switchCores_inBay s b hc)
        fun t ht d _ => (boundStep_touches q b w t d).inBay (boundStep_bay q b w t d) ht

end

/-- Settles O44: debug state, breakpoints, and what a bay switch changes. -/
theorem debugBreakpointsAndBays : Obligations.DebugBreakpointsAndBays := by
  refine ⟨fun s => ⟨execEbrk_armed, execEbrk_unarmed⟩, fun s core => ⟨debug_stopped, debug_running⟩, fun s core n v q hq => ?breakpoints,
    fun s q b hq hd hlive harcs hidle hreach hhit => ?bays⟩
  case breakpoints =>
    refine ⟨?_, ?_, tget_tmod_self ..⟩
    · show execBreakpointEnable core n v s = _
      simp only [execBreakpointEnable, hq]
    · show execBreakpointHitClear core n s = _
      simp only [execBreakpointHitClear, hq]
  case bays =>
    obtain ⟨t, ht, htouch, hbay⟩ := execBaySwitch_quiet hq hd hlive harcs hidle hreach hhit
    have hplot : t.findPlot q.id = some q := by rw [State.findPlot, htouch.plots]; exact hq
    exact ⟨_, ht, htouch.mem, htouch.data, hbay, fun c hc i => congrArg (fun k : Core => tget Cell.init k.cells i) (htouch.other c hc),
      q.switched b, findPlot_modPlot (fun _ => rfl) hplot, rfl, rfl, rfl, rfl⟩

end Sys2Proof.Machine
end

section
/-!
PROOFS. Markers at the operators that follow the in-step rule (R147, R163, R168, R179): O28.
-/

namespace Sys2Proof.Machine

/-! ### The marker firing (R168) -/

/-- A test of heads that no token of one kind meets fails on inputs whose heads are of that kind. -/
theorem any_input_kind {s : State} {ps : List Nat} {kind : BitVec 2} (hps : ∀ p ∈ ps, ∃ t, input s p = some t ∧ t.kind = kind)
    {test : Option Token → Bool} (htest : ∀ t : Token, t.kind = kind → test (some t) = false) :
    (ps.map fun p => input s p).any test = false := by
  rw [List.any_map, List.any_eq_false]
  intro p hp
  obtain ⟨t, ht, hk⟩ := hps p hp
  simp [ht, htest t hk]

section
variable {s : State} {n : NodeFields} {l : Token} {kind : BitVec 2} (hkind : kind = kEOI ∨ kind = kBAR) (h : s.heads n l kind)
include hkind h

/-- With a marker of one kind at every enabled input and room on every target, an in-step operator does what it does with a marker. -/
theorem inStep_mark (onMark : Token → State → State) (data : State → State) : inStep s n onMark data = .next (onMark l s) := by
  have hk := heads_left_kind h
  have hne3 : kind ≠ 3 := by rcases hkind with rfl | rfl <;> decide
  have hnedata : (kind == kDATA) = false := by rcases hkind with rfl | rfl <;> rfl
  obtain ⟨hruns, hel, hl, hheads, hroom⟩ := h
  have hnot3 := any_input_kind hheads (test := fun x => x.any fun t => t.kind == 3) fun t ht => by
    rw [Option.any_some, ht]
    exact beq_eq_false_iff_ne.mpr hne3
  rw [enabled_left hel] at hheads
  have hrest := fun p hp => hheads p (List.mem_cons_of_mem 0 hp)
  have hpresent := any_input_kind hrest (test := Option.isNone) fun t _ => rfl
  have hsame := any_input_kind hrest (test := fun x => x.any fun t => t.kind != l.kind) fun t ht => by simp [ht, hk]
  dsimp only [inStep]
  rw [hnot3, enabled_left hel, List.map_cons, hl, hruns, hroom]
  dsimp only
  rw [hpresent, hsame, hk, hnedata]
  rfl

/-! ### The shapes of the operators -/

theorem inStep_forward (data : State → State) : inStep s n (forward n) data = .next (fireAll s n l) := inStep_mark hkind h _ _

theorem pureNode_mark (f : State → Token → Token) : pureNode s n f = .next (fireAll s n l) := inStep_forward hkind h _

theorem vecNode_mark (addend : Bool) (op : W32 → W32 → W32 → W32) : vecNode s n addend op = .next (fireAll s n l) :=
  pureNode_mark hkind h _

theorem floatNode_mark (f : Fmt → Nat → Nat → Nat → Nat) : floatNode s n f = .next (fireAll s n l) := vecNode_mark hkind h false _

theorem intNode_mark (f : Nat → Nat → Nat → Nat) : intNode s n f = .next (fireAll s n l) := vecNode_mark hkind h false _

theorem reduceNode_mark (fop : Nat → Nat → Nat) (fid : Nat) (iop : Nat → Nat → Nat → Nat) (iid : Nat → Nat) :
    reduceNode s n fop fid iop iid = .next (fireAll s n l) := pureNode_mark hkind h _

theorem tileFiring_mark (m : Token → State → BitVec 16) (reads produce : Bool)
    (go : State → Token → Nat → List (Nat × List Byte) → State) : tileFiring s n m reads produce go = .next (fireAll s n l) :=
  inStep_forward hkind h _

/-! ### Operators of their own shape -/

theorem execLshuf_mark : execLshuf n s = .next (fireAll s n l) := by rw [execLshuf, pureNode_mark hkind h]

theorem execLrot_mark : execLrot n s = .next (fireAll s n l) := by rw [execLrot, pureNode_mark hkind h]

theorem execLbcast_mark : execLbcast n s = .next (fireAll s n l) := by rw [execLbcast, pureNode_mark hkind h]

theorem execSteer_mark : execSteer n s = .next (fireAll s n l) := by rw [execSteer, inStep_forward hkind h]

theorem execSelect_mark : execSelect n s = .next (fireAll s n l) := by rw [execSelect, pureNode_mark hkind h]

theorem execGate_mark : execGate n s = .next (fireAll s n l) := by rw [execGate, inStep_forward hkind h]

theorem execConst_mark : execConst n s = .next (fireAll s n l) := by rw [execConst, pureNode_mark hkind h]

theorem execMload_mark : execMload n s = .next (fireAll s n l) := by rw [execMload, tileFiring_mark hkind h]

theorem execMstore_mark : execMstore n s = .next (fireAll s n l) := by rw [execMstore, tileFiring_mark hkind h]

theorem execMatom_mark : execMatom n s = .next (fireAll s n l) := by rw [execMatom, tileFiring_mark hkind h]

theorem execMred_mark : execMred n s = .next (fireAll s n l) := by rw [execMred, tileFiring_mark hkind h]

theorem execSink_mark : execSink n s = .next (sinkMark (consume s [0]) s.cur.core s.cur.cell s.cur.stage kind) := by
  rw [execSink, inStep_mark hkind h, heads_left_kind h]

end

/-- Settles O28: the operators in the order of the list, each by the shape that it is made of, then SINK. -/
theorem markersPassInOrder : Obligations.MarkersPassInOrder := by
  intro s n l kind hkind h
  refine ⟨?_, execSink_mark hkind h⟩
  simp only [List.forall_mem_cons]
  exact ⟨floatNode_mark hkind h _, floatNode_mark hkind h _, floatNode_mark hkind h _, vecNode_mark hkind h true _,
    floatNode_mark hkind h _, floatNode_mark hkind h _, floatNode_mark hkind h _, floatNode_mark hkind h _,
    floatNode_mark hkind h _, floatNode_mark hkind h _, floatNode_mark hkind h _, floatNode_mark hkind h _,
    floatNode_mark hkind h _, floatNode_mark hkind h _, floatNode_mark hkind h _,
    intNode_mark hkind h _, intNode_mark hkind h _, intNode_mark hkind h _, intNode_mark hkind h _, intNode_mark hkind h _,
    intNode_mark hkind h _, intNode_mark hkind h _,
    show execNodeAnd n s = _ from vecNode_mark hkind h false _, show execNodeOr n s = _ from vecNode_mark hkind h false _,
    show execNodeXor n s = _ from vecNode_mark hkind h false _, show execAndn n s = _ from vecNode_mark hkind h false _,
    intNode_mark hkind h _, intNode_mark hkind h _, intNode_mark hkind h _,
    execLshuf_mark hkind h, execLrot_mark hkind h, execLbcast_mark hkind h,
    show execLsum n s = _ from reduceNode_mark hkind h .., show execLmax n s = _ from reduceNode_mark hkind h ..,
    show execLmin n s = _ from reduceNode_mark hkind h ..,
    execSteer_mark hkind h, execSelect_mark hkind h, execGate_mark hkind h, show execDup n s = _ from pureNode_mark hkind h _,
    execConst_mark hkind h, show execMaddr n s = _ from vecNode_mark hkind h false _,
    execMload_mark hkind h, execMstore_mark hkind h, execMatom_mark hkind h, execMred_mark hkind h, List.forall_mem_nil _⟩

end Sys2Proof.Machine
end

section
/-!
PROOFS. The integer, logic and shift operators of a compute cell (R144, R156, R157) and MADDR (R217): O26.
-/

namespace Sys2Proof.Machine

/-! ### Two's complement (R156) -/

theorem signed_toNat {w : Nat} (v : BitVec w) : signed w v.toNat = v.toInt := by
  rw [signed, BitVec.toInt_eq_toNat_cond, Nat.mod_eq_of_lt v.isLt]
  cases w with
  | zero => simp [BitVec.of_length_zero]
  | succ k =>
    simp only [Nat.add_sub_cancel]
    split <;> split <;> push_cast <;> omega

theorem narrow_wrap {w : Nat} (v : Int) : narrow w false v = (BitVec.ofInt w v).toNat := rfl

theorem clampInt_eq {lo hi : Int} (h : lo ≤ hi) (v : Int) : clampInt lo hi v = max lo (min hi v) := by
  rw [clampInt]
  split
  · omega
  · split <;> omega

theorem narrow_saturated {w : Nat} (v : Int) :
    narrow w true v = (BitVec.ofInt w (max (-2 ^ (w - 1)) (min (2 ^ (w - 1) - 1) v))).toNat := by
  have hpos : (0 : Int) < 2 ^ (w - 1) := by positivity
  have hclamp : clampInt (-(2 ^ (w - 1) : Nat)) ((2 ^ (w - 1) : Nat) - 1) v = max (-2 ^ (w - 1)) (min (2 ^ (w - 1) - 1) v) := by
    push_cast
    exact clampInt_eq (by omega) v
  rw [narrow, if_pos rfl, hclamp]

/-! ### The operators as values (R156, R157) -/

section
variable {w : Nat} (a b : BitVec w)

theorem imulW_low : imulW 0 w a.toNat b.toNat = (a * b).toNat := by
  show narrow w false (signed w a.toNat * signed w b.toNat) = _
  rw [narrow_wrap, signed_toNat, signed_toNat, BitVec.ofInt_mul, BitVec.ofInt_toInt, BitVec.ofInt_toInt]

theorem imulW_saturated : imulW 1 w a.toNat b.toNat = narrow w true (a.toInt * b.toInt) := by
  show narrow w true (signed w a.toNat * signed w b.toNat) = _
  rw [signed_toNat, signed_toNat]

/-- The upper digit of the lowest two digits in base `m`. -/
theorem ediv_emod_self {m : Int} (hm : 0 < m) (p : Int) : p / m % m = p % (m * m) / m := by
  have hlt : p % (m * m) < m * m := Int.emod_lt_of_pos p (mul_pos hm hm)
  have hnonneg : 0 ≤ p % (m * m) := Int.emod_nonneg p (mul_pos hm hm).ne'
  conv_lhs => rw [← Int.emod_add_mul_ediv p (m * m), mul_assoc, Int.add_mul_ediv_left _ _ hm.ne', Int.add_mul_emod_self_left]
  exact Int.emod_eq_of_lt (Int.ediv_nonneg hnonneg hm.le) (Int.ediv_lt_of_lt_mul hm hlt)

theorem imulW_high : imulW 2 w a.toNat b.toNat = (BitVec.ofInt w (a.toInt * b.toInt / 2 ^ w)).toNat := by
  show (BitVec.ofInt (2 * w) (signed w a.toNat * signed w b.toNat)).toNat / 2 ^ w = _
  rw [signed_toNat, signed_toNat, BitVec.toNat_ofInt, BitVec.toNat_ofInt, two_mul, pow_add]
  have hnonneg : 0 ≤ a.toInt * b.toInt % (2 ^ w * 2 ^ w) := Int.emod_nonneg _ (by positivity)
  push_cast
  rw [ediv_emod_self (by positivity)]
  zify
  rw [Int.toNat_of_nonneg hnonneg, Int.toNat_of_nonneg (Int.ediv_nonneg hnonneg (by positivity))]

theorem imulW_highUnsigned : imulW 3 w a.toNat b.toNat = (BitVec.ofNat w (a.toNat * b.toNat / 2 ^ w)).toNat := by
  show a.toNat * b.toNat / 2 ^ w = _
  rw [BitVec.toNat_ofNat, Nat.mod_eq_of_lt (Nat.div_lt_of_lt_mul (Nat.mul_lt_mul'' a.isLt b.isLt))]

theorem ileW_eq (u : Bool) : ileW u w a.toNat b.toNat = if u then decide (a.toNat ≤ b.toNat) else decide (a.toInt ≤ b.toInt) := by
  rw [ileW, signed_toNat, signed_toNat]

theorem shlW_eq : a.toNat * 2 ^ (b.toNat % w) % 2 ^ w = (a <<< (b.toNat % w)).toNat := by
  rw [BitVec.toNat_shiftLeft, Nat.shiftLeft_eq]

theorem shrW_eq : a.toNat / 2 ^ (b.toNat % w) = (a >>> (b.toNat % w)).toNat := by
  rw [BitVec.toNat_ushiftRight, Nat.shiftRight_eq_div_pow]

theorem sarW_eq : narrow w false (signed w a.toNat / (2 ^ (b.toNat % w) : Nat)) = (a.sshiftRight (b.toNat % w)).toNat := by
  rw [narrow_wrap, signed_toNat, ← Int.shiftRight_eq_div_pow, ← BitVec.toInt_sshiftRight, BitVec.ofInt_toInt]

end

theorem shiftLeft_eq_mul_pow (a : W32) (k : Nat) : a <<< k = a * 2 ^ k := by
  apply BitVec.eq_of_toNat_eq
  simp [BitVec.toNat_pow, Nat.shiftLeft_eq]

/-- The condition of ICMP on two numbers (R156). -/
def icmpHolds (cond : Nat) (x y : Int) : Bool :=
  match cond with
  | 0 => x == y
  | 1 => x != y
  | 2 => x < y
  | 3 => x ≤ y
  | 4 => x > y
  | _ => x ≥ y

theorem icmpW_eq (cond : Nat) (u : Bool) (w a b : Nat) :
    icmpW cond u w a b = if icmpHolds cond (if u then a else signed w a) (if u then b else signed w b) then 1 else 0 := by
  match cond with
  | 0 | 2 | 3 | 4 | _ + 5 => rfl
  | 1 => simp [icmpW, icmpHolds]

theorem toNat_setWidth_ofBool {w : Nat} (hw : 0 < w) (c : Bool) : ((BitVec.ofBool c).setWidth w).toNat = if c then 1 else 0 := by
  rw [BitVec.toNat_setWidth, toNat_ofBool_eq_ite, Nat.mod_eq_of_lt]
  have := Nat.one_lt_two_pow hw.ne'
  split <;> omega

/-! ### The lane types (R144, R145, R156) -/

theorem lo16_eq (x : W32) : lo16 x = (x.extractLsb' 0 16).toNat := half_toNat false x

theorem hi16_eq (x : W32) : hi16 x = (x.extractLsb' 16 16).toNat := half_toNat true x

theorem pack16_eq (lo hi : Nat) : pack16 lo hi = BitVec.ofNat 16 hi ++ BitVec.ofNat 16 lo := by
  apply BitVec.eq_of_toNat_eq
  rw [BitVec.toNat_append, ← Nat.shiftLeft_add_eq_or_of_lt (BitVec.isLt _), Nat.shiftLeft_eq]
  simp only [pack16, BitVec.toNat_ofNat]
  omega

/-- An operation at each width, on an INT32 lane or on both halves of an INT16×2 lane. -/
def eachInt (ty : BitVec 2) (g : (w : Nat) → BitVec w → BitVec w → BitVec w) (a b : W32) : W32 :=
  if ty = 0 then g 32 a b
  else g 16 (a.extractLsb' 16 16) (b.extractLsb' 16 16) ++ g 16 (a.extractLsb' 0 16) (b.extractLsb' 0 16)

section
variable {f : Nat → Nat → Nat → Nat} {g : (w : Nat) → BitVec w → BitVec w → BitVec w}
  (hfg : ∀ w, 0 < w → ∀ a b : BitVec w, f w a.toNat b.toNat = (g w a b).toNat)
include hfg

theorem intLane_eq (ty : BitVec 2) (a b : W32) : intLane ty f a b = eachInt ty g a b := by
  rw [intLane, eachInt]
  by_cases hty : ty = 0
  · rw [if_pos (beq_iff_eq.mpr hty), if_pos hty, hfg 32 (by decide), BitVec.ofNat_toNat, BitVec.setWidth_eq]
  · rw [if_neg (mt beq_iff_eq.mp hty), if_neg hty]
    simp only [lo16_eq, hi16_eq, hfg 16 (by decide), pack16_eq, BitVec.ofNat_toNat, BitVec.setWidth_eq]

/-- The DATA firing of an integer operator, stated with the function `g` on words that `f` computes on their codes. -/
theorem intNode_data {s : State} {n : NodeFields} {l : Token} (h : s.heads n l kDATA) :
    intNode s n f = .next (fireAll s n (dataTok (laneMask n l (rOperand s n) (pOperand s) false) fun j =>
      eachInt (laneType n) g (l.lane j) ((rOperand s n).lane j))) := by
  rw [intNode, vecNode_data h]
  simp only [intLane_eq hfg]

end

/-- Settles O26: an integer operator by the word that it gives at each width, a logic operator and MADDR by the whole lane. The names
of the statement are kept opaque once `ints`, `words` and `hfit` say what they stand for. -/
theorem integerNodeResults : Obligations.IntegerNodeResults := by
  intro s n l h _ r p mask gives each fit m
  have ints {i : Instr} {f : Nat → Nat → Nat → Nat} {g : (w : Nat) → BitVec w → BitVec w → BitVec w} (hi : exec i s = intNode s n f)
      (hfg : ∀ w, 0 < w → ∀ a b : BitVec w, f w a.toNat b.toNat = (g w a b).toNat) : gives i (each g) := hi.trans (intNode_data hfg h)
  have words {i : Instr} {op : W32 → W32 → W32} (hi : exec i s = vecNode s n false fun a b _ => op a b) : gives i op :=
    hi.trans (vecNode_data h false _)
  have hfit (w : Nat) (sat : Bool) (v : Int) : narrow w sat v = (fit w sat v).toNat := by
    cases sat
    · exact narrow_wrap v
    · exact narrow_saturated v
  clear_value gives each fit
  refine ⟨ints rfl fun w _ a b => ?iadd, ints rfl fun w _ a b => ?isub, fun hm => ints rfl fun w _ a b => ?low,
    fun hm => ints rfl fun w _ a b => ?saturated, fun hm => ints rfl fun w _ a b => ?high, fun hm => ints rfl fun w _ a b => ?highUnsigned,
    ints rfl fun w _ a b => ?imax, ints rfl fun w _ a b => ?imin, fun _ => ints rfl fun w hw a b => ?icmp, ints rfl fun w _ a _ => ?iabs,
    ints rfl fun w _ a b => shlW_eq a b, ints rfl fun w _ a b => shrW_eq a b, ints rfl fun w _ a b => sarW_eq a b,
    words rfl, words rfl, words rfl, words rfl, words ?maddr⟩
  case iadd => rw [signed_toNat, signed_toNat, hfit]
  case isub => rw [signed_toNat, signed_toNat, hfit]
  case low => rw [mods_low, show n.mods.toNat % 2 ^ 2 = 0 from hm, imulW_low]
  case saturated => rw [mods_low, show n.mods.toNat % 2 ^ 2 = 1 from hm, imulW_saturated, hfit]
  case high => rw [mods_low, show n.mods.toNat % 2 ^ 2 = 2 from hm, imulW_high]
  case highUnsigned => rw [mods_low, show n.mods.toNat % 2 ^ 2 = 3 from hm, imulW_highUnsigned]
  case imax =>
    rw [ileW_eq]
    cases n.mods.getLsbD 0 <;> simp [apply_ite BitVec.toNat]
  case imin =>
    rw [ileW_eq]
    cases n.mods.getLsbD 0 <;> simp [apply_ite BitVec.toNat]
  case icmp =>
    rw [icmpW_eq, mods_low, signed_toNat, signed_toNat]
    exact (toNat_setWidth_ofBool hw _).symm
  case iabs => rw [signed_toNat, ← Int.abs_eq_natAbs, hfit]
  case maddr =>
    show execMaddr n s = _
    simp only [execMaddr, mods_low, shiftLeft_eq_mul_pow]
    rfl

end Sys2Proof.Machine
end

section
/-!
PROOFS. Lane movement (R158 to R160) and the lane reductions (R161): masks made bit by bit, the pairwise tree as a fold over the active
lanes, then O27.
-/

namespace Sys2Proof.Machine

/-! ### Masks made lane by lane -/

/-- A sum of powers of two over the lowest bits, split at bit 0. -/
theorem sum_pow_succ (on : Nat → Bool) (k : Nat) : ((List.range (k + 1)).map fun i => if on i then 2 ^ i else 0).sum =
    Nat.bit (on 0) ((List.range k).map fun i => if on (i + 1) then 2 ^ i else 0).sum := by
  rw [Nat.bit_val, List.range_succ_eq_map, List.map_cons, List.sum_cons, List.map_map, ← List.sum_map_mul_left, Nat.add_comm]
  congr 1
  · refine congrArg List.sum (List.map_congr_left fun i _ => ?_)
    simp [pow_succ, mul_comm]
  · cases on 0 <;> rfl

theorem testBit_sum_pow (on : Nat → Bool) (k j : Nat) :
    ((List.range k).map fun i => if on i then 2 ^ i else 0).sum.testBit j = (decide (j < k) && on j) := by
  induction k generalizing on j with
  | zero => simp
  | succ k ih =>
    rw [sum_pow_succ]
    cases j with
    | zero => simp
    | succ j => rw [Nat.testBit_bit_succ, ih fun i => on (i + 1)]; simp

theorem getLsbD_laneBits (on : Nat → Bool) {j : Nat} (hj : j < 16) :
    (BitVec.ofNat 16 ((List.range 16).map fun i => if on i then 2 ^ i else 0).sum).getLsbD j = on j := by
  rw [BitVec.getLsbD_ofNat, testBit_sum_pow, decide_eq_true hj, Bool.true_and, Bool.true_and]

/-! ### Lane movement (R158 to R160) -/

/-- Lane `j` of a token, from the mask bit and the value that the rule gives for it. -/
theorem dataTok_movedLane {mask : BitVec 16} {lane : Nat → W32} {j : Nat} {on : Bool} {v : W32} (hj : j < 16)
    (hon : mask.getLsbD j = on) (hv : on = true → lane j = v) :
    (dataTok mask lane).mask.getLsbD j = on ∧ (dataTok mask lane).lane j = if on then v else 0 := by
  rw [dataTok_mask, dataTok_lane _ _ hj, hon]
  exact ⟨rfl, if_ctx_congr Iff.rfl hv fun _ => rfl⟩

section
variable {s : State} {n : NodeFields} {l : Token} (h : s.heads n l kDATA)
include h

theorem execLshuf_data : ∃ t : Token, execLshuf n s = .next (fireAll s n t) ∧ t.kind = kDATA ∧ ∀ j < 16,
    let r := rOperand s n
    let sel := (r.lane j).toNat % 32
    let on := r.mask.getLsbD j && (decide (16 ≤ sel) || l.mask.getLsbD (sel % 16))
    t.mask.getLsbD j = on ∧ t.lane j = if on then (if 16 ≤ sel then 0 else l.lane sel) else 0 := by
  rw [execLshuf, pureNode_data h]
  refine ⟨_, rfl, rfl, fun j hj => dataTok_movedLane hj (getLsbD_laneBits _ hj) fun _ => ?_⟩
  split
  · rfl
  · next hsel => rw [Nat.mod_eq_of_lt (Nat.lt_of_not_le hsel)]

theorem execLrot_data : ∃ t : Token, execLrot n s = .next (fireAll s n t) ∧ t.kind = kDATA ∧ ∀ j < 16,
    let k := laneCount s n
    let on := l.mask.getLsbD ((j + k) % 16) && !(n.mods.getLsbD 0 && decide (16 ≤ j + k))
    t.mask.getLsbD j = on ∧ t.lane j = if on then l.lane ((j + k) % 16) else 0 := by
  rw [execLrot, pureNode_data h]
  exact ⟨_, rfl, rfl, fun j hj => dataTok_movedLane hj (getLsbD_laneBits _ hj) fun _ => rfl⟩

theorem execLbcast_data : ∃ t : Token, execLbcast n s = .next (fireAll s n t) ∧ t.kind = kDATA ∧ ∀ j < 16,
    let k := laneCount s n
    t.mask.getLsbD j = l.mask.getLsbD k ∧ t.lane j = if l.mask.getLsbD k then l.lane k else 0 := by
  rw [execLbcast, pureNode_data h]
  refine ⟨_, rfl, ?_⟩
  dsimp only
  cases hk : l.mask.getLsbD (laneCount s n) with
  | true => exact ⟨rfl, fun j hj => dataTok_movedLane hj (BitVec.getLsbD_allOnes.trans (decide_eq_true hj)) fun _ => rfl⟩
  | false => exact ⟨rfl, fun j hj => dataTok_movedLane hj BitVec.getLsbD_zero (Bool.noConfusion ·)⟩

end

/-- The modifier rule of an opcode holds of every well-formed node (R65, R146). -/
theorem nodeRow_mods {mods usesPool : Bool} {er imm ep a b : Need} {n : NodeFields}
    (h : nodeRow mods er imm ep a b usesPool n = true) : mods = true := by
  cases mods with
  | true => rfl
  | false => simp [nodeRow] at h

theorem mods_of_modsIn_zero {n : NodeFields} (h : modsIn 0 n = true) : n.mods = 0 := by
  have hall : ∀ m : BitVec 6, (m &&& ~~~0) = 0 → m = 0 := by decide
  exact hall n.mods (beq_iff_eq.mp h)

theorem mods_of_modsIn_one {n : NodeFields} (h : modsIn 1 n = true) : n.mods.toNat < 2 := by
  have hall : ∀ m : BitVec 6, (m &&& ~~~1) = 0 → m.toNat < 2 := by decide
  exact hall n.mods (beq_iff_eq.mp h)

theorem wf_lshuf_mods {n : NodeFields} (h : wf (.lshuf n) = true) : n.mods = 0 :=
  mods_of_modsIn_zero (nodeRow_mods (show nodeRow (modsIn 0 n) .req .no .no .req .opt false n = true from h))

theorem wf_lbcast_mods {n : NodeFields} (h : wf (.lbcast n) = true) : n.mods = 0 := by
  have hrow := nodeRow_mods (show nodeRow (modsIn 0 n && (n.er || n.imm)) .opt .opt .no .req .opt false n = true from h)
  exact mods_of_modsIn_zero (Bool.and_elim_left hrow)

theorem wf_lrot_mods {n : NodeFields} (h : wf (.lrot n) = true) : n.mods.toNat < 2 := by
  have hrow := nodeRow_mods (show nodeRow (modsIn 1 n && (n.er || n.imm)) .opt .opt .no .req .opt false n = true from h)
  exact mods_of_modsIn_one (Bool.and_elim_left hrow)

/-! ### The tree (R161) -/

section
variable {α M : Type} {f : α → α → α} {φ : α → M} {op : M → M → M} [Std.Associative op] (hφ : ∀ a b, φ (f a b) = op (φ a) (φ b))
include hφ

/-- A level of the tree keeps the fold of an associative operation that `f` carries out. -/
theorem foldl_treeLevel (acc : M) (x : List α) :
    (treeLevel f x).foldl (fun m a => op m (φ a)) acc = x.foldl (fun m a => op m (φ a)) acc := by
  induction x using treeLevel.induct generalizing acc with
  | case1 a b r ih => rw [treeLevel, List.foldl_cons, ih, hφ, List.foldl_cons, List.foldl_cons, Std.Associative.assoc (op := op)]
  | case2 x hx => rw [treeLevel.eq_2 f x hx]

/-- The sixteen values of the tree, folded from the left. -/
theorem op_tree16 (acc : M) (d : α) (v : Nat → α) :
    op acc (φ (tree16 f d ((List.range 16).map v))) = ((List.range 16).map v).foldl (fun m a => op m (φ a)) acc := by
  rw [← foldl_treeLevel hφ, ← foldl_treeLevel hφ, ← foldl_treeLevel hφ, ← foldl_treeLevel hφ]
  rfl

end

section
variable {M : Type} {f : Nat → Nat → Nat} {φ : Nat → M} {op : M → M → M} [Std.Commutative op] {ident : Nat}
  (hφ : ∀ a b, φ (f a b) = op (φ a) (φ b)) (hident : ∀ a, op (φ ident) (φ a) = φ a)
include hφ hident

/-- Inactive lanes, which hold the identity, drop out of the fold. -/
theorem foldl_active (on : Nat → Bool) (v : Nat → Nat) (x : List Nat) (a : Nat) :
    (x.map fun j => if on j then v j else ident).foldl (fun m y => op m (φ y)) (φ a) =
      ((x.filter on).map v).foldl (fun m y => op m (φ y)) (φ a) := by
  induction x generalizing a with
  | nil => rfl
  | cons j x ih =>
    rw [List.map_cons, List.foldl_cons]
    cases hj : on j with
    | true => rw [if_pos rfl, ← hφ, ih, List.filter_cons_of_pos hj, List.map_cons, List.foldl_cons, hφ]
    | false =>
      rw [if_neg Bool.false_ne_true, Std.Commutative.comm (op := op), hident, ih, List.filter_cons_of_neg (by simp [hj])]

variable [Std.Associative op]

/-- A reduction whose operation is associative and commutative does not depend on the tree: it is the fold of the active lanes. -/
theorem reduceLanes_fold (l : Token) (get : W32 → Nat) : φ (reduceLanes l ident f get) =
    (((List.range 16).filter fun j => l.mask.getLsbD j).map fun j => get (l.lane j)).foldl (fun m y => op m (φ y)) (φ ident) := by
  rw [← hident (reduceLanes l ident f get), reduceLanes, op_tree16 hφ]
  exact foldl_active hφ hident (fun j => l.mask.getLsbD j) (fun j => get (l.lane j)) _ _

end

/-! ### Integer reductions (R161) -/

theorem signed_eq_toInt (w v : Nat) : signed w v = (BitVec.ofNat w v).toInt := by
  rw [← signed_toNat, BitVec.toNat_ofNat, signed, signed, Nat.mod_mod]

theorem ofNat_eq_ofInt_signed (w v : Nat) : BitVec.ofNat w v = BitVec.ofInt w (signed w v) := by
  rw [signed_eq_toInt, BitVec.ofInt_toInt]

theorem signed_least {w : Nat} (hw : 0 < w) : signed w (2 ^ (w - 1)) = -2 ^ (w - 1) := by
  obtain ⟨k, rfl⟩ := Nat.exists_eq_succ_of_ne_zero hw.ne'
  have hlt : 2 ^ k < 2 ^ (k + 1) := Nat.pow_lt_pow_succ Nat.one_lt_two
  rw [signed, Nat.succ_eq_add_one, Nat.add_sub_cancel, Nat.mod_eq_of_lt hlt, if_neg (lt_irrefl _)]
  push_cast
  ring

theorem signed_greatest (w : Nat) : signed w (2 ^ (w - 1) - 1) = 2 ^ (w - 1) - 1 := by
  have hpos : 0 < 2 ^ (w - 1) := Nat.two_pow_pos _
  have hle : 2 ^ (w - 1) ≤ 2 ^ w := Nat.pow_le_pow_right Nat.two_pos (Nat.sub_le w 1)
  rw [signed, Nat.mod_eq_of_lt (by omega), if_pos (by omega)]
  push_cast [Nat.cast_sub hpos]
  ring

theorem le_signed (w v : Nat) : -2 ^ (w - 1) ≤ signed w v := by
  rw [signed_eq_toInt]
  exact BitVec.le_toInt _

theorem signed_le (w v : Nat) : signed w v ≤ 2 ^ (w - 1) - 1 := by
  rw [signed_eq_toInt]
  exact Int.le_sub_one_of_lt BitVec.toInt_lt

/-- The integers in the active lanes of a token: `w` bits from bit `o` up. -/
def laneInts (l : Token) (w o : Nat) : List Int :=
  ((List.range 16).filter fun j => l.mask.getLsbD j).map fun j => ((l.lane j).extractLsb' o w).toInt

/-- The integer tree with operation `iop` and identity `iid` computes `g` of the active integers, at every width. -/
def reducesInts (l : Token) (iop : Nat → Nat → Nat → Nat) (iid : Nat → Nat) (g : Nat → List Int → Int) : Prop :=
  ∀ (w o : Nat) (get : W32 → Nat), 0 < w → (∀ x, get x = (x.extractLsb' o w).toNat) →
    BitVec.ofNat w (reduceLanes l (iid w) (iop w) get) = BitVec.ofInt w (g w (laneInts l w o))

/-- An operation on codes that carries out `op` on the integers they stand for reduces to the fold of `op`. -/
theorem reducesInts_of_signed {iop : Nat → Nat → Nat → Nat} {iid : Nat → Nat} {op : Int → Int → Int} [Std.Associative op]
    [Std.Commutative op] {e : Nat → Int} (hop : ∀ w a b, signed w (iop w a b) = op (signed w a) (signed w b))
    (he : ∀ w, 0 < w → signed w (iid w) = e w) (hident : ∀ w a, op (e w) (signed w a) = signed w a) (l : Token) :
    reducesInts l iop iid fun w x => x.foldl op (e w) := by
  intro w o get hw hget
  rw [ofNat_eq_ofInt_signed, reduceLanes_fold (hop w) (by rw [he w hw]; exact hident w), he w hw]
  simp only [laneInts, List.foldl_map, hget, signed_toNat]

theorem lmax_reducesInts (l : Token) : reducesInts l (fun w a b => if signed w a < signed w b then b else a) (fun w => 2 ^ (w - 1))
    fun w x => x.foldl max (-2 ^ (w - 1)) :=
  reducesInts_of_signed (fun w a b => by split <;> omega) (fun _ hw => signed_least hw) (fun w a => max_eq_right (le_signed w a)) l

theorem lmin_reducesInts (l : Token) : reducesInts l (fun w a b => if signed w b < signed w a then b else a) (fun w => 2 ^ (w - 1) - 1)
    fun w x => x.foldl min (2 ^ (w - 1) - 1) :=
  reducesInts_of_signed (fun w a b => by split <;> omega) (fun _ _ => signed_greatest _) (fun w a => min_eq_right (signed_le w a)) l

theorem lsum_reducesInts (l : Token) : reducesInts l (fun w a b => (a + b) % 2 ^ w) (fun _ => 0) fun _ x => x.sum := by
  intro w o get _ hget
  have hadd (a b : Nat) : BitVec.ofNat w ((a + b) % 2 ^ w) = BitVec.ofNat w a + BitVec.ofNat w b := by
    apply BitVec.eq_of_toNat_eq
    simp
  show _ = BitVec.ofInt w (laneInts l w o).sum
  rw [reduceLanes_fold hadd fun a => BitVec.zero_add _, List.sum_eq_foldl, laneInts,
    ← List.foldl_hom (BitVec.ofInt w) (g₂ := fun m (i : Int) => m + BitVec.ofInt w i) fun x y => (BitVec.ofInt_add x y).symm]
  simp only [List.foldl_map, hget, BitVec.ofNat_toNat, BitVec.setWidth_eq, BitVec.ofInt_toInt]
  rfl

/-! ### The lane types of a reduction (R161) -/

/-- The token of a reduction: the result on lane 0 or on all lanes, on none when no lane of L is active. -/
def reducedTok (n : NodeFields) (l : Token) (v : W32) : Token :=
  dataTok (if l.mask = 0 then 0 else if n.mods.getLsbD 1 then 0xFFFF else 1) fun _ => v

section
variable {s : State} {n : NodeFields} {l : Token} (h : s.heads n l kDATA) {fop : Nat → Nat → Nat} {fid : Nat}
  {iop : Nat → Nat → Nat → Nat} {iid : Nat → Nat}
include h

theorem reduceNode_fp32 (hty : laneType n = 0) (hi : n.mods.getLsbD 3 = false) :
    reduceNode s n fop fid iop iid = .next (fireAll s n (reducedTok n l (BitVec.ofNat 32 (reduceLanes l fid fop BitVec.toNat)))) := by
  rw [reduceNode, pureNode_data h]
  simp only [hty, hi]
  simp [reducedTok]

theorem reduceNode_packed {ty : Nat × Fmt} (hmem : ty ∈ [(1, bf16), (2, fp16)]) (hty : (laneType n).toNat = ty.1) :
    let half := fun (get : W32 → Nat) =>
      BitVec.ofNat 16 (ty.2.round (fp32.value (reduceLanes l fid fop fun x => fp32.round (ty.2.value (get x)))))
    reduceNode s n fop fid iop iid = .next (fireAll s n (reducedTok n l (half hi16 ++ half lo16))) := by
  rw [reduceNode, pureNode_data h]
  simp only [List.mem_cons, List.not_mem_nil, or_false] at hmem
  have hcode : laneType n = BitVec.ofNat 2 ty.1 := by rw [← hty, BitVec.ofNat_toNat, BitVec.setWidth_eq]
  rcases hmem with rfl | rfl <;> simp [reducedTok, hcode, pack16_eq]

variable {g : Nat → List Int → Int} (hints : reducesInts l iop iid g)
include hints

theorem reduceNode_int32 (hty : laneType n = 0) (hi : n.mods.getLsbD 3 = true) :
    reduceNode s n fop fid iop iid = .next (fireAll s n (reducedTok n l (BitVec.ofInt 32 (g 32 (laneInts l 32 0))))) := by
  rw [reduceNode, pureNode_data h, ← hints 32 0 BitVec.toNat (by decide) fun x => by simp]
  simp [reducedTok, hty, hi]

theorem reduceNode_int16 (hty : laneType n = 3) : reduceNode s n fop fid iop iid = .next (fireAll s n (reducedTok n l
    (BitVec.ofInt 16 (g 16 (laneInts l 16 16)) ++ BitVec.ofInt 16 (g 16 (laneInts l 16 0))))) := by
  rw [reduceNode, pureNode_data h, ← hints 16 16 hi16 (by decide) hi16_eq, ← hints 16 0 lo16 (by decide) lo16_eq, ← pack16_eq]
  simp [reducedTok, hty]

end

/-- Settles O27: the moved lanes and the words that the loader accepts, then the reductions by lane type. The names `wide` and `halves` of
the statement are kept opaque once `int32` and `int16` say what they stand for. -/
theorem laneNodeResults : Obligations.LaneNodeResults := by
  refine ⟨fun s n l h => ⟨execLshuf_data h, execLrot_data h, execLbcast_data h, wf_lshuf_mods, wf_lbcast_mods, wf_lrot_mods⟩, ?_⟩
  intro s n l h place tree
  have hsum : exec (.lsum n) s = execLsum n s := rfl
  have hmax : exec (.lmax n) s = execLmax n s := rfl
  have hmin : exec (.lmin n) s = execLmin n s := rfl
  refine ⟨fun hty hfloat => ⟨hsum.trans (reduceNode_fp32 h hty hfloat), hmax.trans (reduceNode_fp32 h hty hfloat),
    hmin.trans (reduceNode_fp32 h hty hfloat)⟩, ?_⟩
  intro ints wide halves most least total
  have int32 {i : Instr} {fop : Nat → Nat → Nat} {fid : Nat} {iop : Nat → Nat → Nat → Nat} {iid : Nat → Nat} {g : Nat → List Int → Int}
      (hi : exec i s = reduceNode s n fop fid iop iid) (hg : reducesInts l iop iid g) (hty : laneType n = 0)
      (hint : n.mods.getLsbD 3 = true) : exec i s = .next (fireAll s n (wide g)) := hi.trans (reduceNode_int32 h hg hty hint)
  have int16 {i : Instr} {fop : Nat → Nat → Nat} {fid : Nat} {iop : Nat → Nat → Nat → Nat} {iid : Nat → Nat} {g : Nat → List Int → Int}
      (hi : exec i s = reduceNode s n fop fid iop iid) (hg : reducesInts l iop iid g) (hty : laneType n = 3) :
      exec i s = .next (fireAll s n (halves g)) := hi.trans (reduceNode_int16 h hg hty)
  clear_value wide halves
  exact ⟨fun hty hint => ⟨int32 hsum (lsum_reducesInts l) hty hint, int32 hmax (lmax_reducesInts l) hty hint,
      int32 hmin (lmin_reducesInts l) hty hint⟩,
    fun hty => ⟨int16 hsum (lsum_reducesInts l) hty, int16 hmax (lmax_reducesInts l) hty, int16 hmin (lmin_reducesInts l) hty⟩,
    fun ty hmem hty => ⟨hsum.trans (reduceNode_packed h hmem hty), hmax.trans (reduceNode_packed h hmem hty),
      hmin.trans (reduceNode_packed h hmem hty)⟩⟩

end Sys2Proof.Machine
end

section
/-!
PROOFS. The nodes that route tokens (R172 to R180): their DATA firings, MERGE by its predicate and CARRY state by state, then O30.
-/

namespace Sys2Proof.Machine

/-! ### Routing in step (R172, R176, R177, R179, R180) -/

section
variable {s : State} {n : NodeFields} {l : Token} (h : s.heads n l kDATA)
include h

theorem execSteer_data : execSteer n s = .next (
    let u := consume s (enabled n)
    if n.mods.getLsbD 0 then emitAB u n (some (maskTok l (truth (pOperand s)))) (some (maskTok l (~~~(truth (pOperand s)))))
    else if isTrue (pOperand s) then emitAB u n (some l) none else emitAB u n none (some l)) := by
  rw [execSteer, inStep_data h, heads_left h]

theorem execSelect_data : execSelect n s = .next (
    let r := rOperand s n
    let m := truth (pOperand s)
    fireAll s n (dataTok ((l.mask &&& m) ||| (r.mask &&& ~~~m)) fun i => if m.getLsbD i then l.lane i else r.lane i)) := by
  rw [execSelect, pureNode_data h]

theorem execGate_data : execGate n s = .next (
    if n.mods.getLsbD 0 then (if isTrue (pOperand s) then fireAll s n l else consume s (enabled n))
    else fireAll s n (maskTok l (truth (pOperand s)))) := by
  rw [execGate, inStep_data h, heads_left h]

theorem execDup_data : execDup n s = .next (fireAll s n l) := by rw [execDup, pureNode_data h]

theorem execSink_data : execSink n s = .next (consume s [0]) := by rw [execSink, inStep_data h]

theorem execConst_data : execConst n s = .next (fireAll s n (dataTok (if n.mods.getLsbD 1 then l.mask else 0xFFFF) fun i =>
    poolAt s s.cur.core s.cur.cell (if n.mods.getLsbD 0 then n.cidx.toNat + i else n.cidx.toNat))) := by
  rw [execConst, pureNode_data h]

/-- JOIN is no in-step operator: with DATA on every stream it passes L and discards the token of each side stream (R178). -/
theorem execJoin_data :
    execJoin n s = .next (emitAB (consume s (0 :: (enabled n).filter fun q => q != 0)) n (some l) (some l)) := by
  have hk := heads_left_kind h
  obtain ⟨hruns, hel, hl, hheads, hroom⟩ := h
  have hnot3 := any_input_data hheads (test := fun x => x.any fun t => t.kind == 3) fun t ht => by simp [ht]
  have hmark : ((enabled n).map fun p => input s p).all (fun x => x.any fun t => t.kind != kDATA) = false := by
    rw [enabled_left hel, List.map_cons, hl, List.all_cons]
    simp [hk]
  have hside : ((enabled n).filter fun p => p != 0 && (input s p).any fun t => t.kind == kDATA) =
      (enabled n).filter fun q => q != 0 := by
    refine List.filter_congr fun p hp => ?_
    obtain ⟨t, ht, htk⟩ := hheads p hp
    simp [ht, htk]
  simp only [execJoin]
  rw [hruns, hnot3, hmark, hroom, hside, hl]
  simp [hk]

end

/-! ### MERGE (R173) -/

/-- A DATA predicate takes the DATA token of the stream that it names, and leaves the other stream alone. -/
theorem execMerge_data {s : State} {n : NodeFields} {x p : Token} (hruns : nodeRuns s = true) (hroom : roomy s n = true)
    (hp : input s 2 = some p) (hpk : p.kind = kDATA) (hk : x.kind = kDATA)
    (hnot3 : ∀ q ∈ [0, 1], ∀ t, input s q = some t → t.kind ≠ 3) (hx : input s (if isTrue p then 0 else 1) = some x) :
    execMerge n s = .next (emitAB (consume s [2, if isTrue p then 0 else 1]) n (some x) (some x)) := by
  have hside (q : Nat) (hq : q ∈ [0, 1]) : ((input s q).any fun t => t.kind == 3) = false := by
    rw [Option.any_eq_false]
    exact fun t ht => beq_eq_false_iff_ne.mpr (hnot3 q hq t ht)
  have hany : ([input s 0, input s 1, input s 2].any fun y => y.any fun t => t.kind == 3) = false := by
    simp only [List.any_cons, List.any_nil, hside 0 (by simp), hside 1 (by simp), hp, Option.any_some, hpk]
    rfl
  simp only [execMerge]
  rw [hany, hruns, hroom, hp]
  dsimp only
  rw [hpk, hx]
  simp [hk]

/-! ### CARRY (R174, R175) -/

section
variable {s : State} {n : NodeFields} {x p : Token} (hruns : nodeRuns s = true) (hroom : roomy s n = true)
include hruns hroom

section
variable (hst : (nodeSt' s).st = .init) (hx : input s 0 = some x)
include hst hx

theorem execCarry_init_data (hk : x.kind = kDATA) : execCarry n s = .next
    (modNode (emitAB (consume s [0]) n (some (if (nodeSt' s).keep then (nodeSt' s).v else x)) none) fun y =>
      { y with st := .loop, keep := false }) := by
  simp [execCarry, hruns, hroom, hst, hx, hk]

/-- A marker passes to both targets, and CARRY drains the loop of markers of its kind. -/
theorem execCarry_init_mark (hk : x.kind = kEOI ∨ x.kind = kBAR) : execCarry n s = .next
    (modNode (emitAB (consume s [0]) n (some x) (some x)) fun y =>
      { y with st := if x.kind == kEOI then .drain else .drainb, close := x.close }) := by
  rcases hk with hk | hk <;> simp [execCarry, hruns, hroom, hst, hx, hk]

end

section
variable (hp : input s 2 = some p) (hx : input s 1 = some x)
include hp hx

theorem execCarry_loop (hst : (nodeSt' s).st = .loop) (hpk : p.kind = kDATA) (hk : x.kind = kDATA) : execCarry n s = .next (
    if isTrue p then emitAB (consume s [1, 2]) n (some x) none
    else modNode (emitAB (consume s [1, 2]) n none (some x)) fun y => { y with st := .init, v := x }) := by
  simp [execCarry, hruns, hroom, hst, hp, hx, hpk, hk]

/-- The loop's own EOI closes the value that CARRY keeps where the level of the EOI on L reaches the node's. -/
theorem execCarry_drain (hst : (nodeSt' s).st = .drain) (hpk : p.kind = kEOI) (hk : x.kind = kEOI) : execCarry n s = .next
    (modNode (consume s [1, 2]) fun y =>
      if n.rsteoi = true ∧ (n.mods.extractLsb' 0 3).toNat ≤ y.close
      then { y with st := .init, v := Token.init, keep := false, close := 0 }
      else { y with st := .init, keep := true, close := 0 }) := by
  simp [execCarry, hruns, hroom, hst, hp, hx, hpk, hk]

theorem execCarry_drainb (hst : (nodeSt' s).st = .drainb) (hpk : p.kind = kBAR) (hk : x.kind = kBAR) : execCarry n s = .next
    (modNode (consume s [1, 2]) fun y => { y with st := .init, close := 0 }) := by
  simp [execCarry, hruns, hroom, hst, hp, hx, hpk, hk]

end
end

/-- Settles O30: each node's firing in closed form, read at the predicate or the state that the clause names. -/
theorem tokenRoutingResults : Obligations.TokenRoutingResults := by
  refine ⟨fun s n l h => ?_, fun s n x p hruns hroom hp hpk hk hnot3 => ?_, fun s n x p hruns hroom => ?_⟩
  · exact ⟨fun hm hp => (execSteer_data h).trans (by rw [hm, hp]; rfl), fun hm hp => (execSteer_data h).trans (by rw [hm, hp]; rfl),
      fun hm => (execSteer_data h).trans (by rw [hm]; rfl), execSelect_data h,
      fun hm hp => (execGate_data h).trans (by rw [hm, hp]; rfl), fun hm hp => (execGate_data h).trans (by rw [hm, hp]; rfl),
      fun hm => (execGate_data h).trans (by rw [hm]; rfl), execJoin_data h, execDup_data h, execSink_data h, execConst_data h⟩
  · have merges := execMerge_data hruns hroom hp hpk hk hnot3
    refine ⟨fun ht hx => ?_, fun ht hx => ?_⟩ <;> rw [ht] at merges
    · exact merges hx
    · exact merges hx
  · refine ⟨execCarry_init_data hruns hroom, fun hst hx hk => ?_, fun hst hx hk => ?_, fun hst hp hx hpk hk => ?_,
      fun hst hp hx hpk hk => execCarry_drain hruns hroom hp hx hst hpk hk,
      fun hst hp hx hpk hk => execCarry_drainb hruns hroom hp hx hst hpk hk⟩
    · refine (execCarry_init_mark hruns hroom hst hx (.inl hk)).trans ?_
      rw [hk]
      rfl
    · refine (execCarry_init_mark hruns hroom hst hx (.inr hk)).trans ?_
      rw [hk]
      rfl
    · have hloop := execCarry_loop hruns hroom hp hx hst hpk hk
      exact ⟨fun ht => hloop.trans (by rw [ht]; rfl), fun ht => hloop.trans (by rw [ht]; rfl)⟩

end Sys2Proof.Machine
end

section
/-!
PROOFS. The nodes that count, sum, record and compare tokens (R181, R185, R186, R187): O31.
-/

namespace Sys2Proof.Machine

/-- Nothing is emitted on a null target. -/
theorem emitAB_nullB {n : NodeFields} (hnull : n.tgtb.extractLsb' 0 2 = 3) (s : State) (a b : Option Token) :
    emitAB s n a b = emitAB s n a none := by
  cases b with
  | none => rfl
  | some t => simp [emitAB, emit, targetArcs, hnull]

/-- The token of a COUNT of active lanes: on each the count with the active lanes below it. -/
def rankTok (s : State) (l : Token) : Token :=
  dataTok l.mask fun i => (nodeSt' s).c + BitVec.ofNat 32 ((List.range i).countP fun j => l.mask.getLsbD j)

theorem rankTok_lane (s : State) {l : Token} {j : Nat} (hj : j < 16) (hon : l.mask.getLsbD j = true) :
    (rankTok s l).lane j = (nodeSt' s).c + BitVec.ofNat 32 ((List.range j).countP fun i => l.mask.getLsbD i) := by
  rw [rankTok, dataTok_lane _ _ hj, if_pos hon]

section
variable {s : State} {n : NodeFields} {l : Token} (h : s.heads n l kDATA)
include h

/-- Where L alone is enabled, a firing consumes L alone. -/
theorem fireAll_leftOnly (her : n.er = false) (hep : n.ep = false) (t : Token) :
    fireAll s n t = emitAB (consume s [0]) n (some t) (some t) := by
  obtain ⟨-, hel, -⟩ := h
  rw [fireAll, enabled_left hel, her, hep]
  rfl

/-! ### TRACE (R187) -/

theorem execTrace_data {q : Plot} (hq : s.plotOf s.cur.core = some q) : execTrace n s = .next (fireAll
    (if q.ringLog == 0 then s else traceRecord s q l (n.mods.extractLsb' 0 4).toNat (q.bayCount + (nodeSt' s).t)) n l) := by
  simp only [execTrace]
  rw [inStep_data h, heads_left h, hq]

theorem execTrace_noRing {q : Plot} (hq : s.plotOf s.cur.core = some q) (hring : q.ringLog = 0) :
    execTrace n s = .next (fireAll s n l) := by
  rw [execTrace_data h hq, if_pos (beq_iff_eq.mpr hring)]

theorem execTrace_ring {q : Plot} (hq : s.plotOf s.cur.core = some q) (hring : q.ringLog ≠ 0) : execTrace n s = .next
    (fireAll (traceRecord s q l (n.mods.extractLsb' 0 4).toNat (q.bayCount + (nodeSt' s).t)) n l) := by
  rw [execTrace_data h hq, if_neg (mt beq_iff_eq.mp hring)]

variable (her : n.er = false) (hep : n.ep = false)
include her hep

/-! ### COUNT (R181) -/

/-- COUNT of tokens adds its step and, without .LAST, emits the count before it on every lane. -/
theorem execCount_tokens (hact : n.mods.getLsbD 4 = false) : execCount n s = .next (
    modNode (if n.mods.getLsbD 3 then consume s [0] else fireAll s n (dataTok 0xFFFF fun _ => (nodeSt' s).c))
      fun x => { x with c := x.c + if n.imm then poolAt s s.cur.core s.cur.cell n.cidx.toNat else 1 }) := by
  rw [execCount, inStep_data h, heads_left h, fireAll_leftOnly h her hep]
  simp only [hact]
  rfl

/-- COUNT of active lanes emits their ranks and adds how many they are. -/
theorem execCount_lanes (hact : n.mods.getLsbD 4 = true) (hlast : n.mods.getLsbD 3 = false) : execCount n s = .next (
    modNode (fireAll s n (rankTok s l))
      fun x => { x with c := x.c + BitVec.ofNat 32 ((List.range 16).countP fun j => l.mask.getLsbD j) }) := by
  rw [execCount, inStep_data h, heads_left h, fireAll_leftOnly h her hep]
  simp only [hact, hlast, rankTok, List.countP_eq_length_filter]
  rfl

/-! ### CSUM (R186) -/

/-- With no target B, CSUM is an ordinary firing that folds the active lanes of L into the sum. -/
theorem execCsum_data (hnull : n.tgtb.extractLsb' 0 2 = 3) : execCsum n s = .next (modNode (fireAll s n l) fun x =>
    { x with s := ((List.range 16).filter fun i => l.mask.getLsbD i).foldl (fun a i => a.rotateLeft 5 + l.lane i) (nodeSt' s).s }) := by
  rw [execCsum, inStep_data h, heads_left h, fireAll_leftOnly h her hep, emitAB_nullB hnull]

end

/-! ### CMPR (R185) -/

section
variable {s : State} {n : NodeFields} {l r : Token} (hruns : nodeRuns s = true) (hl : input s 0 = some l) (hr : input s 1 = some r)
include hruns hl hr

theorem execCmpr_equal (heq : l = r) (hk : l.kind ≠ 3) (hroom : roomy s n = true) : execCmpr n s = .next (fireAll s n l) := by
  subst heq
  rw [execCmpr, hruns, hl, hr]
  dsimp only
  rw [bne_self_eq_false, beq_eq_false_iff_ne.mpr hk, hroom]
  rfl

theorem execCmpr_differ (hne : l ≠ r) :
    execCmpr n s = .next (raiseNode s cDUALMISMATCH 0 (BitVec.ofNat 64 (firstDiff l r)) false) := by
  simp [execCmpr, hruns, hl, hr, hne]

end

/-- Settles O31: the firings of COUNT, CSUM and TRACE on DATA, and CMPR on equal and on different heads. -/
theorem countersAndCheckers : Obligations.CountersAndCheckers := by
  refine ⟨fun s n l h her hep => ?_, fun s n l r hruns hl hr =>
    ⟨execCmpr_equal hruns hl hr, execCmpr_differ hruns hl hr⟩⟩
  have htokens := execCount_tokens h her hep
  exact ⟨fun hact hlast => (htokens hact).trans (by rw [hlast]; rfl), fun hact hlast => (htokens hact).trans (by rw [hlast]; rfl),
    fun hact hlast => ⟨rankTok s l, execCount_lanes h her hep hact hlast, rfl, fun j => rankTok_lane s⟩,
    execCsum_data h her hep, fun q => execTrace_noRing h, fun q => execTrace_ring h⟩

end Sys2Proof.Machine
end

section
/-!
PROOFS. The placer (R194, R198, R199), the configuration load (R194, R195), and the rows that a plot leaves or a sweep frees (R201, R203,
R208): O46.
-/

namespace Sys2Proof.Machine

/-! ### Offsets in the placer's order (R198) -/

/-- The order of offsets (die, column, row): by die, then by row, then by column. -/
def offsetBefore (a b : Nat × Nat × Nat) : Prop := a.1 < b.1 ∨ a.1 = b.1 ∧ (a.2.2 < b.2.2 ∨ a.2.2 = b.2.2 ∧ a.2.1 < b.2.1)

theorem mem_offsets {w h die col row : Nat} : (die, col, row) ∈ offsets w h ↔ die < 4 ∧ row + h ≤ 10 ∧ col + w ≤ 8 := by
  simp only [offsets, List.mem_flatMap, List.mem_map, List.mem_range, Prod.mk.injEq]
  constructor
  · rintro ⟨d, hd, r, hr, c, hc, rfl, rfl, rfl⟩
    omega
  · rintro ⟨hd, hr, hc⟩
    exact ⟨die, hd, row, by omega, col, by omega, rfl, rfl, rfl⟩

theorem offsets_ordered (w h : Nat) : (offsets w h).Pairwise offsetBefore := by
  refine List.pairwise_flatMap.mpr ⟨fun die _ => List.pairwise_flatMap.mpr ⟨fun row _ => ?cols, ?rows⟩, ?dies⟩
  case cols => exact List.pairwise_map.mpr (List.pairwise_lt_range.imp fun hc => .inr ⟨rfl, .inr ⟨rfl, hc⟩⟩)
  case rows =>
    refine List.pairwise_lt_range.imp fun hr x hx y hy => ?_
    obtain ⟨c, -, rfl⟩ := List.mem_map.mp hx
    obtain ⟨c', -, rfl⟩ := List.mem_map.mp hy
    exact .inr ⟨rfl, .inl hr⟩
  case dies =>
    refine List.pairwise_lt_range.imp fun hd x hx y hy => .inl ?_
    simp only [List.mem_flatMap, List.mem_map] at hx hy
    obtain ⟨r, -, c, -, rfl⟩ := hx
    obtain ⟨r', -, c', -, rfl⟩ := hy
    exact hd

/-- In an ordered list the element found stands before every other that passes the test. -/
theorem find_first {α : Type} {R : α → α → Prop} {p : α → Bool} {l : List α} (hl : l.Pairwise R) {a b : α} (ha : l.find? p = some a)
    (hb : b ∈ l) (hpb : p b = true) : a = b ∨ R a b := by
  obtain ⟨-, pre, post, rfl, hpre⟩ := List.find?_eq_some_iff_append.mp ha
  rcases List.mem_append.mp hb with h | h
  · exact absurd hpb (by simpa using hpre b h)
  · obtain ⟨-, hpost, -⟩ := List.pairwise_append.mp hl
    rcases List.mem_cons.mp h with h | h
    · exact .inl h.symm
    · exact .inr (List.rel_of_pairwise_cons hpost h)

/-- What follows an element in an ordered list comes after it. -/
theorem before_of_mem_drop {α : Type} [BEq α] [LawfulBEq α] {R : α → α → Prop} {l : List α} (hl : l.Pairwise R) {a b : α}
    (hb : b ∈ (l.dropWhile fun x => x != a).drop 1) : R a b := by
  induction l with
  | nil => simp at hb
  | cons x xs ih =>
    by_cases hx : x = a
    · subst hx
      exact List.rel_of_pairwise_cons hl (by simpa using hb)
    · exact ih hl.of_cons (by simpa [hx] using hb)

theorem firstFit_eq_some {s : State} {img : List Byte} {die col row : Nat} (h : firstFit s img = some (die, col, row)) :
    (die < 4 ∧ row + imgH img ≤ 10 ∧ col + imgW img ≤ 8) ∧ freeAt s img (die, col, row) = true ∧
      ∀ o ∈ offsets (imgW img) (imgH img), freeAt s img o = true → (die, col, row) = o ∨ offsetBefore (die, col, row) o :=
  ⟨mem_offsets.mp (List.mem_of_find?_eq_some h), List.find?_some h, fun _ ho hfree => find_first (offsets_ordered ..) h ho hfree⟩

theorem nextFit_eq_some {s : State} {img : List Byte} {o o' : Nat × Nat × Nat} (h : nextFit s img o = some o') :
    freeAt s img o' = true ∧ offsetBefore o o' :=
  ⟨List.find?_some h, before_of_mem_drop (offsets_ordered ..) (List.mem_of_find?_eq_some h)⟩

/-! ### The search and the walker's answer (R194 steps 1 to 3, R199) -/

section
variable {s : State} {q : Plot} {e : QEntry} (hhead : isHead s e = true)
  (hfirst : ∀ x ∈ s.plots, x.node = q.node → x.state = .waiting → q.p ≤ x.p)
include hhead hfirst

/-- Neither an entry before its own nor a plot before it in its LAUNCH holds the search back (R400). -/
theorem searchPlot_admitted : (!isHead s e || s.plots.any fun x => x.node == q.node && x.state == .waiting && x.p < q.p) = false := by
  simpa [hhead] using hfirst

theorem searchPlot_known (himg : q.img ≠ []) : searchPlot s q e = askOffset s q q.img (firstFit s q.img) := by
  rw [searchPlot, searchPlot_admitted hhead hfirst]
  simp [himg]

variable {t : State} (himg : q.img = []) (ht : imageTraffic s 0 q.ptroot q.image = some t)
include himg ht

theorem searchPlot_fetched {img : List Byte} (hf : fetchImage t q.ptroot q.image (fun _ => true) = .ok img) :
    searchPlot s q e = askOffset t q img (firstFit t img) := by
  rw [searchPlot, searchPlot_admitted hhead hfirst]
  simp [himg, ht, hf]

theorem searchPlot_fails {f : LoadFault} (hf : fetchImage t q.ptroot q.image (fun _ => true) = .error f) :
    searchPlot s q e = loadFailure t q f := by
  rw [searchPlot, searchPlot_admitted hhead hfirst]
  simp [himg, ht, hf]

end

section
variable {s : State} {q : Plot} {o : Nat × Nat × Nat} {accept : State → State}

theorem reserveAt_unserved (h : served s q o.1 = false) : reserveAt s q o accept = s := by
  rw [reserveAt, h]
  rfl

/-- While a packet of the request or of its answer has to wait, nothing changes. -/
theorem reserveAt_waits (h : ((walkerSend s 0 o.1 ctlReserve).bind fun t => walkerSend t o.1 0 ctlReserve) = none) :
    reserveAt s q o accept = s := by
  rw [reserveAt, h]
  split <;> rfl

theorem reserveAt_served {u : State} (h : served s q o.1 = true)
    (hu : ((walkerSend s 0 o.1 ctlReserve).bind fun t => walkerSend t o.1 0 ctlReserve) = some u) : reserveAt s q o accept =
      if freeAt u q.img o then accept (u.modPlot q.id fun p => { p with cand := none }) else askOffset u q q.img (nextFit u q.img o) := by
  rw [reserveAt, h, hu]
  rfl

end

section
variable {s : State} {q : Plot} {e : QEntry} (hq : s.findPlot q.id = some q) (he : entryOf s q = some e) (hw : q.state = .waiting)
include hq he hw

theorem execReserveRequest_search (hc : q.cand = none) : execReserveRequest q.id s = .next (searchPlot s q e) := by
  simp only [execReserveRequest, hq, he, hw, hc]
  rfl

theorem execReserveRequest_serve {o : Nat × Nat × Nat} (hc : q.cand = some o) :
    execReserveRequest q.id s = .next (reserveAt s q o fun t => takeOffset t q e o) := by
  simp only [execReserveRequest, hq, he, hw, hc]
  rfl

end

/-! ### Leases (R197) -/

theorem State.leaseOf_setLease_other (s : State) {c d : Nat} (l : Lease) (h : d ≠ c) : (s.setLease c l).leaseOf d = s.leaseOf d :=
  tget_tset_other _ _ _ h

theorem leaseOf_foldl_setLease (s : State) (l : Lease) {cores : List Nat} {c : Nat} (hc : c ∈ cores) :
    (cores.foldl (fun t c => t.setLease c l) s).leaseOf c = l := by
  refine foldl_establishes (step := fun t c => t.setLease c l) (P := fun t => t.leaseOf c = l) (fun t d ht => ?_)
    (fun t => t.leaseOf_setLease_self c l) hc s
  by_cases hd : c = d
  · rw [hd, State.leaseOf_setLease_self]
  · rwa [State.leaseOf_setLease_other _ _ hd]

theorem leaseOf_armPlot (s : State) {q : Plot} {c : Nat} (hc : c ∈ q.cores) : (armPlot s q).leaseOf c = .armed q.id :=
  leaseOf_foldl_setLease _ _ hc

theorem startEvent_lease (s : State) (q : Plot) : (startEvent s q).lease = s.lease := by
  unfold startEvent
  refine List.foldlRecOn q.cores _ (motive := fun t : State => t.lease = s.lease) rfl fun t ht c _ => ?_
  split
  · exact ht
  · exact ht

/-! ### The configuration load (R194 steps 4 to 7, R195) -/

/-- The plot with its cells, sequencers and ports written, before its declarations are performed. -/
def loadedPlot (s : State) (q : Plot) : State :=
  (loadCoresOf s q).modPlot q.id fun p =>
    { p with bays := BitVec.ofNat 4 (((imgRecs q.img).1.flatMap CellRec.bays).foldl (fun m b => m ||| 2 ^ b) 0), duals := dualCells q,
             fed := fedSlots q, wid := q.firstWid, bayStart := q.firstWid }

section
variable {s : State} {q : Plot} (hq : s.findPlot q.id = some q) (hst : q.state = .loading) (hall : allLoading s q = true)
  (hres : q.restored = false)
include hq hst hall hres

theorem execConfigurationLoad_arms {s2 : State} (hok : checkImage q.img (fun i => isBridge (q.cores.getD i 0)) = none)
    (hdecl : allocDecls q.img q.cores (loadedPlot s q) (declsOf q.img) = .ok s2) (hcl : q.closing = false) :
    execConfigurationLoad q.id s = .next (startEvent (armPlot s2 q) q) := by
  unfold loadedPlot at hdecl
  simp only [execConfigurationLoad, hq, hst, hall, hres, hok, hdecl, hcl]
  rfl

theorem execConfigurationLoad_fails {f : LoadFault} (hbad : checkImage q.img (fun i => isBridge (q.cores.getD i 0)) = some f) :
    execConfigurationLoad q.id s = .next (loadFailure s q f) := by
  simp only [execConfigurationLoad, hq, hst, hall, hres, hbad]
  rfl

end

/-! ### Rows that drain (R201) -/

section
variable {s : State} {q : Plot} {row : Nat} (hq : s.findPlot q.id = some q)
include hq

theorem execRowDrain_busy (hbusy : rowQuiet s q row = false) : execRowDrain q.id row s = .next s := by
  simp [execRowDrain, hq, hbusy]

variable (hrow : row < q.h) (hheld : row ∉ q.drained) (htiles : plotTiles s q = false)
include hrow hheld htiles

theorem execRowDrain_quiet (hquiet : rowQuiet s q row = true) : execRowDrain q.id row s = .next (
    if (List.range q.h).all fun r => r == row || q.drained.contains r then plotCompleted (leaveRow s q row) q else leaveRow s q row) := by
  simp [execRowDrain, hq, htiles, hquiet, hheld, Nat.not_le.mpr hrow]

theorem execRowDrain_leaves (hquiet : rowQuiet s q row = true) (hmore : ∃ r < q.h, r ≠ row ∧ r ∉ q.drained) :
    execRowDrain q.id row s = .next (leaveRow s q row) := by
  rw [execRowDrain_quiet hq hrow hheld htiles hquiet, if_neg]
  simpa using hmore

theorem execRowDrain_completes (hquiet : rowQuiet s q row = true) (hlast : ∀ r < q.h, r ≠ row → r ∈ q.drained) :
    execRowDrain q.id row s = .next (plotCompleted (leaveRow s q row) q) := by
  rw [execRowDrain_quiet hq hrow hheld htiles hquiet, if_pos]
  simpa [or_iff_not_imp_left] using hlast

end

/-! ### Cores that become free (R208) -/

/-- A core becomes FREE and empty. -/
def freeCore (s : State) (c : Nat) : State := (clearShadows (s.setLease c .free) c).modCore c fun k => { emptyCore k with plot := none }

theorem freeCores_eq (s : State) (cores : List Nat) : freeCores s cores = cores.foldl freeCore s := rfl

theorem freeCore_self (s : State) (c : Nat) : (freeCore s c).leaseOf c = .free ∧ ((freeCore s c).core c).plot = none := by
  refine ⟨s.leaseOf_setLease_self c .free, ?_⟩
  rw [freeCore, State.core_modCore_self]

theorem freeCore_other (s : State) {c d : Nat} (h : d ≠ c) : (freeCore s c).leaseOf d = s.leaseOf d ∧ (freeCore s c).core d = s.core d :=
  ⟨s.leaseOf_setLease_other .free h, State.core_modCore_other _ _ h⟩

theorem freeCores_mem (s : State) {cores : List Nat} {c : Nat} (hc : c ∈ cores) :
    (freeCores s cores).leaseOf c = .free ∧ ((freeCores s cores).core c).plot = none := by
  rw [freeCores_eq]
  refine foldl_establishes (P := fun t => t.leaseOf c = .free ∧ (t.core c).plot = none) (fun t d ht => ?_) (fun t => freeCore_self t c) hc s
  by_cases hd : c = d
  · exact hd ▸ freeCore_self t d
  · obtain ⟨hlease, hcore⟩ := freeCore_other t hd
    rwa [hlease, hcore]

theorem freeCores_not_mem (s : State) {cores : List Nat} {c : Nat} (hc : c ∉ cores) :
    (freeCores s cores).leaseOf c = s.leaseOf c ∧ (freeCores s cores).core c = s.core c := by
  rw [freeCores_eq]
  refine List.foldlRecOn cores freeCore (motive := fun t => t.leaseOf c = s.leaseOf c ∧ t.core c = s.core c) ⟨rfl, rfl⟩
    fun t ht d hd => ?_
  obtain ⟨hlease, hcore⟩ := freeCore_other t (ne_of_mem_of_not_mem hd hc).symm
  exact ⟨hlease.trans ht.1, hcore.trans ht.2⟩

/-- The cores of a row that a sweep still holds. -/
def sweptRow (s : State) (q : Plot) (row : Nat) : List Nat :=
  ((List.range q.w).map (q.coreIn row)).filter fun c => s.leaseOf c == .sweep q.id

/-- A swept row with nothing in flight becomes free, and beyond its cores only the plot may change. -/
theorem execSweepRowFree_quiet {s : State} {q : Plot} {row : Nat} (hq : s.findPlot q.id = some q) (hrow : row < q.h)
    (hne : sweptRow s q row ≠ [])
    (hacc : ∀ a ∈ s.accs, agentIn (sweptRow s q row) a.agent = true → a.phase = .performed ∨ a.phase = .returned) :
    ∃ t, execSweepRowFree q.id row s = .next t ∧ t.lease = (freeCores s (sweptRow s q row)).lease ∧
      t.cores = (freeCores s (sweptRow s q row)).cores := by
  have hbusy : (q.h ≤ row || (sweptRow s q row).isEmpty ||
      s.accs.any fun a => agentIn (sweptRow s q row) a.agent && !(a.phase == .performed || a.phase == .returned)) = false := by
    simpa [hrow, hne, or_iff_not_imp_left] using hacc
  unfold sweptRow at hbusy ⊢
  simp only [execSweepRowFree, hq]
  refine ⟨_, rfl, ?_⟩
  rw [if_neg (by simp only [hbusy]; decide)]
  split <;> exact ⟨rfl, rfl⟩

/-! ### O46 -/

/-- Settles O46: the placer's order, the request and its answer, the load, the drain and the sweep, each by its own lemma. -/
theorem plotsPlacedAndLoaded : Obligations.PlotsPlacedAndLoaded := by
  refine ⟨fun s img die col row => ?first, fun s img d0 c0 r0 die col row => nextFit_eq_some, fun s q e hq he hw => ?reserve,
    fun s q hq hst hall hres => ?load, fun s q row hq hrow hheld htiles => ?drain, fun s q row hq hrow => ?sweep⟩
  case first =>
    intro free h
    obtain ⟨⟨hdie, hrow, hcol⟩, hfree, hmin⟩ := firstFit_eq_some h
    refine ⟨hdie, hrow, hcol, hfree, fun d r c hd hr hc hdcr => ?_⟩
    rcases hmin (d, c, r) (mem_offsets.mpr ⟨hd, hr, hc⟩) hdcr with heq | hbefore
    · obtain ⟨rfl, rfl, rfl⟩ := heq
      omega
    · simp only [offsetBefore] at hbefore
      omega
  case reserve =>
    have hserve {o : Nat × Nat × Nat} (hc : q.cand = some o) := execReserveRequest_serve hq he hw hc
    refine ⟨fun hc hhead hfirst => ?_, fun die col row u hc hserved hu => ?_, fun die col row hc hwait => ?_, fun die col row hc hserved => ?_⟩
    · have hsearch := execReserveRequest_search hq he hw hc
      exact ⟨fun himg => hsearch.trans (congrArg _ (searchPlot_known hhead hfirst himg)), fun himg t ht =>
        ⟨fun img hf => hsearch.trans (congrArg _ (searchPlot_fetched hhead hfirst himg ht hf)),
          fun f hf => hsearch.trans (congrArg _ (searchPlot_fails hhead hfirst himg ht hf))⟩⟩
    · have hanswer := (hserve hc).trans (congrArg _ (reserveAt_served hserved hu))
      exact ⟨fun hfree => hanswer.trans (congrArg _ (if_pos hfree)),
        fun htaken => hanswer.trans (congrArg _ (if_neg (Bool.eq_false_iff.mp htaken)))⟩
    · exact (hserve hc).trans (congrArg _ (reserveAt_waits hwait))
    · exact (hserve hc).trans (congrArg _ (reserveAt_unserved hserved))
  case load =>
    refine ⟨fun s2 hok hdecl hcl => ⟨execConfigurationLoad_arms hq hst hall hres hok hdecl hcl, fun c hc => ?_⟩,
      fun f => execConfigurationLoad_fails hq hst hall hres⟩
    rw [State.leaseOf, startEvent_lease]
    exact leaseOf_armPlot s2 hc
  case drain =>
    exact ⟨fun hquiet => ⟨execRowDrain_leaves hq hrow hheld htiles hquiet, execRowDrain_completes hq hrow hheld htiles hquiet⟩,
      execRowDrain_busy hq⟩
  case sweep =>
    intro cores hne hacc
    obtain ⟨t, ht, hlease, hcores⟩ := execSweepRowFree_quiet hq hrow hne hacc
    have hl (c : Nat) : t.leaseOf c = (freeCores s cores).leaseOf c := by rw [State.leaseOf, hlease]; rfl
    have hk (c : Nat) : t.core c = (freeCores s cores).core c := by rw [State.core, hcores]; rfl
    refine ⟨t, ht, fun c hc => ?_, fun c hc => ?_⟩ <;> rw [hl, hk]
    · exact freeCores_mem s hc
    · obtain ⟨hfree, hcore⟩ := freeCores_not_mem s hc
      exact ⟨hfree, congrArg Core.regs hcore⟩

end Sys2Proof.Machine
end

section
/-! ## Every step keeps the memories canonical (O59, O60)

One lemma for each function of the model that makes a state: from canonical memories it makes canonical memories. They stand in the
model's order, so that each follows from those of the functions it calls; a function that leaves both memories alone needs none, since its
state's memories are the old ones by definition. The last one is about `step`. -/
namespace Sys2Proof.Machine

/-- The memories of the next state, if there is one, are canonical. -/
def Res.memOk : Res → Bool
  | .next t => t.memOk
  | _ => true

/-- What an answer that may be a fault carries satisfies `p`. -/
def okAll {ε α : Type} (p : α → Bool) : Except ε α → Bool
  | .ok a => p a
  | .error _ => true

/-- The memories of the state that a tile command answers with are canonical. -/
def TileAns.memOk : TileAns → Bool
  | .wait t => t.memOk
  | .done t _ => t.memOk
  | .bad _ => true

/-- The memories of the state that a check answers with are canonical. -/
def MCheck.memOk : MCheck → Bool
  | .ok t => t.memOk
  | .bad t _ _ _ => t.memOk
  | .wait t _ => t.memOk

theorem memOk_of_check {x y : MCheck} (e : x = y) (h : x.memOk = true) : y.memOk = true := e ▸ h

/-- A fold whose every step keeps a property keeps it. -/
theorem foldl_holds {α β : Type} (p : β → Bool) {f : β → α → β} (hf : ∀ b a, p b = true → p (f b a) = true) (l : List α) {b : β}
    (h : p b = true) : p (l.foldl f b) = true := by
  induction l generalizing b with
  | nil => exact h
  | cons a r ih => exact ih (hf b a h)

theorem all_map {o : Option State} {f : State → State} (ho : o.all State.memOk = true) (hf : ∀ t, t.memOk = true → (f t).memOk = true) :
    (o.map f).all State.memOk = true := by
  cases o with
  | none => rfl
  | some t => exact hf t ho

theorem memOk_of_some {o : Option State} {t : State} (e : o = some t) (h : o.all State.memOk = true) : t.memOk = true := by
  subst e; exact h

theorem memOk_of_ok {ε : Type} {o : Except ε State} {t : State} (e : o = .ok t) (h : okAll State.memOk o = true) : t.memOk = true := by
  subst e; exact h

theorem memOk_of_fst {α : Type} {p : State × α} {t : State} {a : α} (e : p = (t, a)) (h : p.1.memOk = true) : t.memOk = true := by
  subst e; exact h

theorem memOk_of_snd {α : Type} {p : α × State} {t : State} {a : α} (e : p = (a, t)) (h : p.2.memOk = true) : t.memOk = true := by
  subst e; exact h

theorem memOk_of_some_fst {α : Type} {o : Option (State × α)} {t : State} {a : α} (e : o = some (t, a))
    (h : o.all (fun p => p.1.memOk) = true) : t.memOk = true := by
  subst e; exact h

theorem memOk_of_ok_fst {ε α : Type} {o : Except ε (State × α)} {t : State} {a : α} (e : o = .ok (t, a))
    (h : okAll (fun p => p.1.memOk) o = true) : t.memOk = true := by
  subst e; exact h

theorem memOk_ite {c : Prop} [Decidable c] {a b : State} (ha : a.memOk = true) (hb : b.memOk = true) :
    (if c then a else b).memOk = true := by
  split
  · exact ha
  · exact hb

theorem memOk_getD {o : Option State} {d : State} (ho : o.all State.memOk = true) (hd : d.memOk = true) : (o.getD d).memOk = true := by
  cases o with
  | none => exact hd
  | some t => exact ho

theorem all_bind_fst {α β : Type} {o : Option (State × α)} {p : β → Bool} {f : State × α → Option β} (ho : o.all (fun x => x.1.memOk) = true)
    (hf : ∀ x, x.1.memOk = true → (f x).all p = true) : (o.bind f).all p = true := by
  cases o with
  | none => rfl
  | some x => exact hf x ho

theorem all_bind {α : Type} {o : Option State} {p : α → Bool} {f : State → Option α} (ho : o.all State.memOk = true)
    (hf : ∀ t, t.memOk = true → (f t).all p = true) : (o.bind f).all p = true := by
  cases o with
  | none => rfl
  | some t => exact hf t ho

theorem okAll_allOk {ε α β : Type} {p : β → Bool} {x : Except ε α} {f : α → Except ε β}
    (hf : ∀ a, x = .ok a → okAll p (f a) = true) : okAll p (allOk x f) = true := by
  cases x with
  | error e => rfl
  | ok a => exact hf a rfl

theorem writeVa_okAll {s : State} {root va : Word} {bs : List Byte} (hm : s.memOk = true) : okAll State.memOk (writeVa s root va bs) = true := by
  cases e : writeVa s root va bs with
  | error f => rfl
  | ok t => exact writeVa_memOk e hm

theorem hbmWrite_memOk {s : State} {a : Nat} {bs : List Byte} (hm : s.memOk = true) : (hbmWrite s a bs).memOk = true :=
  hbmWriteBy_memOk _ _ _ hm
/-- What holds of both branches holds of the choice. -/
theorem holds_ite {α : Type} (p : α → Bool) {c : Prop} [Decidable c] {a b : α} (ha : p a = true) (hb : p b = true) :
    p (if c then a else b) = true := by
  split
  · exact ha
  · exact hb

theorem regs_memOk {s : State} {r : DevRegs} (h : s.memOk = true) : State.memOk { s with regs := r } = true := h

theorem pace_memOk {s : State} {n : BitVec 64} (h : s.memOk = true) : State.memOk { s with pace := n } = true := h

theorem modPlot_memOk {s : State} {p : Nat} {f : Plot → Plot} (h : s.memOk = true) : (s.modPlot p f).memOk = true := h

theorem modCore_memOk {s : State} {c : Nat} {f : Core → Core} (h : s.memOk = true) : (s.modCore c f).memOk = true := h

theorem modCmd_memOk {s : State} {c id : Nat} {f : Cmd → Cmd} (h : s.memOk = true) : (modCmd s c id f).memOk = true := h

theorem modNode_memOk {s : State} {f : NodeState → NodeState} (h : s.memOk = true) : (modNode s f).memOk = true := h

/-! ### Machine, Units -/

theorem State.count_memOk {s : State} {die i n : Nat} (hm : s.memOk = true) : (State.count s die i n).memOk = true := memOk_ite hm hm

/-! ### Machine, Memory -/

theorem countWalk_memOk {s : State} {va n table : Nat} (hm : s.memOk = true) : (countWalk s va n table).memOk = true := by
  induction n generalizing s table with
  | zero => exact State.count_memOk hm
  | succ n ih => exact memOk_ite (State.count_memOk hm) (ih (State.count_memOk hm))

theorem walkDie_memOk {s0 : State} {die : Nat} {root va : Word} {store fetch : Bool} (hm : s0.memOk = true) :
    (walkDie s0 die root va store fetch).2.memOk = true := by
  unfold walkDie
  extract_lets s
  have hs : s.memOk = true := by
    unfold s
    split
    · exact memOk_ite hm (countWalk_memOk hm)
    · exact memOk_ite hm (countWalk_memOk hm)
  split
  · exact memOk_ite hs hs
  · exact hs

theorem translate_memOk {s : State} {core : Nat} {root va : Word} {store fetch : Bool} (hm : s.memOk = true) :
    (translate s core root va store fetch).2.memOk = true := by
  unfold translate
  split
  · exact hm
  · split
    · split <;> exact hm
    · split
      · exact hm
      · exact State.count_memOk (State.count_memOk hm)

theorem countAccess_memOk {s : State} {agent : Nat} {host : Bool} {pa : Nat} {write : Bool} (hm : s.memOk = true) :
    (countAccess s agent host pa write).memOk = true :=
  memOk_ite hm (memOk_ite (ringAppend_memOk _ _ hm) hm)

theorem countLines_memOk {s : State} {host : Bool} {addr pa n : Nat} {write : Bool} (hm : s.memOk = true) :
    (countLines s host addr pa n write).memOk = true :=
  memOk_foldl _ (fun _ _ hu => countAccess_memOk hu) _ _ hm

theorem raceLog_memOk {s : State} {where_ : Word} {core : Nat} {write : Bool} {c : Conflict} (hm : s.memOk = true) :
    (raceLog s where_ core write c).memOk = true :=
  ringAppend_memOk _ _ hm

theorem raceWatch_memOk {s : State} {die frame : Nat} (hm : s.memOk = true) : (raceWatch s die frame).2.memOk = true := by
  unfold raceWatch
  dsimp only
  split
  · exact hm
  · split <;> exact hm

theorem countVa_memOk {s : State} {root va : Word} {n : Nat} {write : Bool} (hm : s.memOk = true) : (countVa s root va n write).memOk = true := by
  unfold countVa
  refine memOk_foldl _ (fun t p ht => ?_) _ _ hm
  extract_lets a
  split
  · extract_lets t1 u
    have ht1 : t1.memOk = true := memOk_ite (raceWatch_memOk ht) ht
    have hu : u.memOk = true := memOk_ite (countLines_memOk ht1) ht1
    exact memOk_ite hu (memOk_ite (State.count_memOk hu) (State.count_memOk hu))
  · exact ht

/-! ### Machine, GraphOps -/

theorem gwrite_memOk {s : State} {va v : Word} (hm : s.memOk = true) : okAll State.memOk (gwrite s va v) = true := writeVa_okAll hm

theorem walkerRecord_memOk {s : State} {node : Word} {code : Byte} {tval : Word} (hm : s.memOk = true) :
    (walkerRecord s node code tval).memOk = true :=
  faultRecord_memOk _ hm

theorem setSt_memOk {s : State} {node : Word} {st : BitVec 8} (hm : s.memOk = true) : okAll State.memOk (setSt s node st) = true :=
  okAll_allOk fun _ _ => gwrite_memOk hm

theorem enqueue_memOk {s : State} {e : QEntry} (hm : s.memOk = true) : (enqueue s e).memOk = true := memOk_ite hm hm

theorem dequeue_memOk {s : State} {p : QEntry → Bool} (hm : s.memOk = true) : (dequeue s p).memOk = true := by
  unfold dequeue
  refine memOk_ite hm ?_
  split <;> exact hm

theorem makeReady_memOk {s : State} {node v : Word} (hm : s.memOk = true) : okAll State.memOk (makeReady s node v) = true :=
  okAll_allOk fun _ ht => enqueue_memOk (memOk_of_ok ht (gwrite_memOk hm))

theorem startNode_memOk {s : State} {node v : Word} (hm : s.memOk = true) : (startNode s node v).memOk = true := by
  unfold startNode
  split
  · exact (memOk_of_ok ‹_› (makeReady_memOk hm))
  · exact nodeFault_memOk _ _ _ hm

theorem releaseOne_memOk {s : State} {succ : Word} (hm : s.memOk = true) : okAll State.memOk (releaseOne s succ) = true := by
  unfold releaseOne
  dsimp only
  split
  · exact rfl
  · refine holds_ite (okAll State.memOk) (nodeFault_memOk _ _ _ hm) ?_
    split
    · exact rfl
    · exact holds_ite (okAll State.memOk) (makeReady_memOk (memOk_of_ok ‹_› (gwrite_memOk hm))) (memOk_of_ok ‹_› (gwrite_memOk hm))

theorem releaseAll_memOk {s : State} {node : Word} {succs : List Word} (hm : s.memOk = true) : (releaseAll s node succs).memOk = true := by
  induction succs generalizing s with
  | nil => exact hm
  | cons a r ih =>
    unfold releaseAll
    refine memOk_ite (ih hm) ?_
    split
    · exact nodeFault_memOk _ _ _ hm
    · exact ih (memOk_of_ok ‹_› (releaseOne_memOk hm))

theorem nodeDone_memOk {s : State} {node : Word} {succ : List Word} (hm : s.memOk = true) : (nodeDone s node succ).memOk = true := by
  unfold nodeDone
  split
  · exact walkerRecord_memOk hm
  · split
    · exact nodeFault_memOk _ _ _ hm
    · exact releaseAll_memOk (memOk_of_ok ‹_› (gwrite_memOk hm))

theorem launchFault_memOk {s : State} {node : Word} {relf : Bool} (hm : s.memOk = true) : (launchFault s node relf).memOk = true := by
  unfold launchFault
  split
  · exact walkerRecord_memOk hm
  · exact memOk_ite (releaseAll_memOk (memOk_of_ok ‹_› (setSt_memOk hm))) (memOk_of_ok ‹_› (setSt_memOk hm))

theorem launchEnd_memOk {s : State} {r : LaunchRun} {ok : Bool} (hm : s.memOk = true) : (launchEnd s r ok).memOk = true := by
  unfold launchEnd
  extract_lets word s1 done
  have h1 : s1.memOk = true := hm
  have hdone : okAll (fun p => p.1.memOk) done = true :=
    okAll_allOk fun _ _ => okAll_allOk fun _ _ => okAll_allOk fun _ ht =>
      memOk_of_ok ht (holds_ite (okAll State.memOk) h1 (gwrite_memOk h1))
  clear_value done
  split
  · exact nodeFault_memOk _ _ _ h1
  · exact memOk_ite (nodeDone_memOk hdone) (launchFault_memOk hdone)

theorem plotEnded_memOk {s : State} {node : Word} {fatal : Option Byte} (hm : s.memOk = true) : (plotEnded s node fatal).memOk = true := by
  unfold plotEnded
  split
  · exact hm
  · exact memOk_ite (launchEnd_memOk hm) hm

/-! ### Machine, Ops -/

theorem withRegs_memOk {s : State} {rs : List Reg} {f : State → State} (hm : s.memOk = true) (hf : ∀ a0, a0.memOk = true → (f a0).memOk = true) :
    (withRegs s rs f).memOk = true := by
  unfold withRegs
  split
  · exact hm
  · exact hf _ hm

theorem requeue_memOk {s : State} {f : Plot} (hm : s.memOk = true) : (requeue s f).memOk = true := memOk_ite hm (enqueue_memOk hm)

theorem dropFollow_memOk {s : State} {q : Plot} (hm : s.memOk = true) : (dropFollow s q).memOk = true := by
  unfold dropFollow
  dsimp only
  split
  · exact hm
  · split
    · exact requeue_memOk (memOk_foldl _ (fun _ _ hu => by exact hu) _ _ hm)
    · exact memOk_foldl _ (fun _ _ hu => by exact hu) _ _ hm

theorem dissolveGroups_memOk {s : State} {plot : Nat} (hm : s.memOk = true) : (dissolveGroups s plot).memOk = true := by
  refine memOk_foldl _ (fun t g hu => ?_) _ _ hm
  exact memOk_foldl (fun u (x : Nat × Nat) => finishCmd u x.1 x.2 cCAUSALGAP 0) (fun _ _ hv => modCore_memOk hv) _ _ (by exact hu)

theorem sweepPlot_memOk {s : State} {q : Plot} {code : Byte} (hm : s.memOk = true) : (sweepPlot s q code).memOk = true :=
  memOk_foldl _ (fun _ _ hu => by exact hu) _ _ (dropFollow_memOk (dissolveGroups_memOk hm))

theorem fatalEnd_memOk {s : State} {q : Plot} {code : Byte} {rec : List Byte} (hm : s.memOk = true) : (fatalEnd s q code rec).memOk = true :=
  plotEnded_memOk (faultRecord_memOk _ (sweepPlot_memOk hm))

theorem plotFault_memOk {s : State} {core : Nat} {code : Byte} {detail : Nat} {origin : Byte} {where_ tval : Word} {recoverable : Bool}
    (hm : s.memOk = true) :
    (plotFault s core code detail origin where_ tval recoverable).memOk = true := by
  unfold plotFault
  split
  · exact hm
  · exact memOk_ite hm (memOk_ite (faultRecord_memOk _ hm) (fatalEnd_memOk hm))

theorem hostwaitNow_memOk {s : State} {q : Plot} {core : Nat} {esc : Option Byte} {origin : Byte} (hm : s.memOk = true) :
    (hostwaitNow s q core esc origin).memOk = true := by
  unfold hostwaitNow
  extract_lets
  split
  · exact fatalEnd_memOk hm
  · exact modPlot_memOk (faultRecord_memOk _ (countVa_memOk (memOk_of_ok ‹_› (writeVa_okAll hm))))

theorem hostwaitSeq_memOk {s : State} {q : Plot} {core : Nat} {esc : Option Byte} {origin : Byte} (hm : s.memOk = true) :
    (hostwaitSeq s q core esc origin).memOk = true :=
  memOk_ite hm (hostwaitNow_memOk hm)

theorem enterTrap_memOk {s : State} {core : Nat} {tcause : W32} {tepc tval resume : Word} {precise engine : Bool} (hm : s.memOk = true) :
    (enterTrap s core tcause tepc tval resume precise engine).memOk = true := by
  unfold enterTrap
  split
  · exact hm
  · exact memOk_ite hm (hostwaitSeq_memOk hm)

theorem preciseFault_memOk {s : State} {code : Byte} {detail : Nat} {tval : Word} (hm : s.memOk = true) :
    (preciseFault s code detail tval).memOk = true := by
  unfold preciseFault
  refine memOk_ite ?_ (enterTrap_memOk hm)
  split
  · exact hm
  · exact fatalEnd_memOk hm

theorem faultCommand_memOk {s : State} {core id : Nat} {code : Byte} {detail : Nat} {tval : Word} {prog : Nat} {started : Bool}
    (hm : s.memOk = true) :
    (faultCommand s core id code detail tval prog started).memOk = true := by
  unfold faultCommand
  split <;> exact hm

theorem takeHeld_memOk {s : State} {core : Nat} (hm : s.memOk = true) : (takeHeld s core).memOk = true := by
  unfold takeHeld
  dsimp only
  split
  · exact hm
  · exact memOk_ite hm (enterTrap_memOk hm)

theorem accept_memOk {s : State} {desc : List Byte} {prog : Nat} (hm : s.memOk = true) : (accept s desc prog).memOk = true := by
  unfold accept
  split <;> exact hm

theorem acceptStall_memOk {s : State} {why : Stall} (hm : s.memOk = true) : (acceptStall s why).memOk = true := by
  unfold acceptStall
  split <;> exact hm

theorem acceptFault_memOk {s : State} {code : Byte} {detail : Nat} {tval : Word} (hm : s.memOk = true) :
    (acceptFault s code detail tval).memOk = true := by
  unfold acceptFault
  split
  · exact preciseFault_memOk hm
  · exact enterTrap_memOk hm

/-! ### Machine, Settle -/

theorem modSlots_memOk {s : State} {core id : Nat} {f : Slot → Slot} (hm : s.memOk = true) : (modSlots s core id f).memOk = true :=
  memOk_foldl _ (fun _ _ hu => by exact hu) _ _ hm

theorem portFault_memOk {s : State} {core p : Nat} {code : Byte} {detail : Nat} {tval : Word} {recoverable : Bool} (hm : s.memOk = true) :
    (portFault s core p code detail tval recoverable).memOk = true :=
  plotFault_memOk hm

theorem sheafFault_memOk {s : State} {a : Access} (hm : s.memOk = true) : (sheafFault s a).memOk = true := by
  unfold sheafFault
  split
  · exact portFault_memOk hm
  · exact hm

theorem tokenArrived_memOk {s : State} {a : Access} {core id n tail : Nat} (hm : s.memOk = true) :
    (tokenArrived s a core id n tail).memOk = true := by
  unfold tokenArrived
  refine memOk_ite (modSlots_memOk hm) ?_
  split
  · exact hm
  · split
    · exact modSlots_memOk hm
    · exact sheafFault_memOk hm

theorem arriveAtArc_memOk {s : State} {a : Access} {core n tail id lane : Nat} {v : List Byte} {code : Byte} (hm : s.memOk = true) :
    (arriveAtArc s a core n tail id lane v code).memOk = true := by
  unfold arriveAtArc
  refine memOk_ite ?_ (memOk_ite (sheafFault_memOk (memOk_ite hm (modSlots_memOk hm))) (memOk_ite (memOk_ite hm (modSlots_memOk hm))
      (tokenArrived_memOk (memOk_ite hm (modSlots_memOk hm)))))
  split
  · exact plotFault_memOk hm
  · exact portFault_memOk hm
  · exact hm

theorem hostCaches_memOk {s : State} {a : Access} (hm : s.memOk = true) : (hostCaches s a).memOk = true := by
  unfold hostCaches
  split
  · exact memOk_ite hm hm
  · exact hm

theorem settle_memOk {s : State} {a : Access} {phase : AccPhase} {v : List Byte} {code : Byte} (hm : s.memOk = true) :
    (settle s a phase v code).memOk = true := by
  unfold settle
  split
  · exact memOk_ite (arriveAtArc_memOk hm) hm
  · exact memOk_ite (hostCaches_memOk hm) hm

/-! ### Machine, Links -/

theorem logDrop_memOk {s : State} {die : Nat} {p : Packet} (hm : s.memOk = true) : (logDrop s die p).memOk = true := logRecord_memOk _ _ _ _ hm

theorem failAccess_memOk {s : State} {id : Nat} (hm : s.memOk = true) : (failAccess s id).memOk = true := by
  unfold failAccess
  split
  · exact hm
  · exact memOk_ite (settle_memOk hm) hm

theorem failProbe_memOk {s : State} {tag : Nat} (hm : s.memOk = true) : (failProbe s tag).memOk = true := by
  unfold failProbe
  dsimp only
  refine memOk_ite ?_ hm
  split <;> exact hm

theorem dropPacket_memOk {s : State} {die : Nat} {p : Packet} (hm : s.memOk = true) : (dropPacket s die p).memOk = true := by
  unfold dropPacket
  extract_lets s1 engine s2 s3 s4
  have h1 : s1.memOk = true := logDrop_memOk hm
  have h2 : s2.memOk = true := memOk_ite h1 h1
  have h3 : s3.memOk = true := memOk_ite (failAccess_memOk h2) h2
  refine memOk_ite (failAccess_memOk h1) (memOk_ite ?_ (memOk_ite ?_ (memOk_ite (memOk_ite (memOk_ite (failProbe_memOk h1) h1) ?_) h1)))
  · split
    · exact h3
    · exact plotFault_memOk h3
  · exact memOk_foldl _ (fun _ _ hu => by exact hu) _ _ h1
  · split <;> exact h1

theorem sendPacket_memOk {s : State} {die : Nat} {p : Packet} (hm : s.memOk = true) : (sendPacket s die p).memOk = true := by
  unfold sendPacket
  split
  · exact dropPacket_memOk hm
  · exact hm

theorem emitPacket_memOk {s : State} {die : Nat} {p : Packet} (hm : s.memOk = true) : (emitPacket s die p).memOk = true := sendPacket_memOk hm

theorem stampPacket_memOk {s : State} {die : Nat} {p0 : Packet} (hm : s.memOk = true) : (stampPacket s die p0).memOk = true :=
  memOk_ite (dropPacket_memOk hm) (memOk_ite hm (emitPacket_memOk (memOk_foldl _ (fun _ _ hu => emitPacket_memOk hu) _ _ hm)))

theorem stampUnsent_memOk {s : State} (hm : s.memOk = true) : (stampUnsent s).memOk = true := by
  refine memOk_foldl _ (fun _ _ hu => ?_) _ _ hm
  split
  · exact hu
  · exact memOk_foldl _ (fun _ _ hv => stampPacket_memOk hv) _ _ hu

theorem checkCount_memOk {s : State} {die : Nat} (hm : s.memOk = true) : (checkCount s die).memOk = true := memOk_ite hm hm

theorem countHops_memOk {n b fuel a : Nat} {s : State} (hm : s.memOk = true) : (countHops n b fuel a s).memOk = true :=
  State.memOk_congr (countHops_memories n b fuel a s).1 (countHops_memories n b fuel a s).2 hm

theorem cross_memOk {s : State} {a b : Nat} {p0 : Packet} (hm : s.memOk = true) : (cross s a b p0).all State.memOk = true :=
  holds_ite (Option.all State.memOk) rfl (countHops_memOk (checkCount_memOk hm))

theorem walkerSend_memOk {s : State} {a b : Nat} {op : Byte} (hm : s.memOk = true) : (walkerSend s a b op).all State.memOk = true :=
  holds_ite (Option.all State.memOk) hm (cross_memOk hm)

theorem crossRead_memOk {s : State} {a b n : Nat} (hm : s.memOk = true) : (crossRead s a b n).all State.memOk = true :=
  holds_ite (Option.all State.memOk) hm (all_bind (cross_memOk hm) fun _ ht => cross_memOk ht)

theorem crossWrite_memOk {s : State} {a b n : Nat} {trail : Bool} (hm : s.memOk = true) : (crossWrite s a b n trail).all State.memOk = true :=
  holds_ite (Option.all State.memOk) hm (cross_memOk hm)

theorem crossVa_memOk {s : State} {die : Nat} {root va : Word} {n : Nat} {write : Bool} (hm : s.memOk = true) :
    (crossVa s die root va n write).all State.memOk = true := by
  refine foldl_holds (Option.all State.memOk) (fun acc p hacc => all_bind hacc fun t ht => ?_) _ hm
  split
  · exact ht
  · exact holds_ite (Option.all State.memOk) ht (holds_ite (Option.all State.memOk) (crossWrite_memOk ht) (crossRead_memOk ht))

theorem crossWalk_memOk {die va n table : Nat} {s : State} (hm : s.memOk = true) : (crossWalk die va n table s).all (fun p => p.1.memOk) = true := by
  induction n generalizing s table with
  | zero =>
    unfold crossWalk
    refine holds_ite (Option.all fun p : State × _ => p.1.memOk) hm ?_
    split
    · rfl
    · exact memOk_of_some ‹_› (crossRead_memOk hm)
  | succ n ih =>
    unfold crossWalk
    refine holds_ite (Option.all fun p : State × _ => p.1.memOk) hm ?_
    split
    · rfl
    · have ht := memOk_of_some ‹_› (crossRead_memOk hm)
      exact holds_ite (Option.all fun p : State × _ => p.1.memOk) ht (ih ht)

theorem walkTraffic_memOk {s : State} {die : Nat} {root va : Word} (hm : s.memOk = true) :
    (walkTraffic s die root va).all (fun p => p.1.memOk) = true := by
  unfold walkTraffic
  split
  · exact hm
  · split
    · split
      · exact hm
      · exact crossWalk_memOk hm
    · exact crossWalk_memOk hm

/-! ### Machine, Access -/

theorem collide_memOk {s : State} {key n w : Nat} (hm : s.memOk = true) : (collide s key n w).memOk = true := memOk_ite hm hm

theorem countHome_memOk {s : State} {a : Access} (hm : s.memOk = true) : (countHome s a).memOk = true :=
  memOk_ite (State.count_memOk hm) (memOk_ite hm (State.count_memOk hm))

theorem raceReport_memOk {s : State} {agent : Agent} {iaddr va where_ : Word} {write : Bool} {c : Conflict} (hm : s.memOk = true) :
    (raceReport s agent iaddr va where_ write c).memOk = true := by
  unfold raceReport
  split
  · exact raceLog_memOk hm
  · refine memOk_ite (raceLog_memOk hm) ?_
    split
    · exact plotFault_memOk hm
    · exact plotFault_memOk hm
    · exact hm

theorem raceSector_memOk {s : State} {a : Access} {k : Nat} (hm : s.memOk = true) : (raceSector s a k).memOk = true := by
  unfold raceSector
  refine memOk_ite hm ?_
  refine memOk_ite ?_ ?_
  · split
    · exact hm
    · exact raceReport_memOk hm
  · split
    · exact hm
    · exact raceReport_memOk hm

theorem raceAccess_memOk {s : State} {a : Access} (hm : s.memOk = true) : (raceAccess s a).memOk = true :=
  memOk_ite hm (memOk_ite (memOk_foldl _ (fun _ _ hu => raceSector_memOk hu) _ _ (holds_ite (fun p : _ × State => p.2.memOk) hm (raceWatch_memOk
      hm))) (holds_ite (fun p : _ × State => p.2.memOk) hm (raceWatch_memOk hm)))

theorem homeEffect_memOk {s : State} {a : Access} (hm : s.memOk = true) : (homeEffect s a).1.memOk = true := by
  unfold homeEffect
  dsimp only
  split
  · exact countHome_memOk (memOk_ite (countLines_memOk (raceAccess_memOk hm)) (raceAccess_memOk hm))
  · exact memOk_foldl _ (fun _ _ hu => homeWrite_memOk _ _ _ _ hu) _ _ (countHome_memOk (memOk_ite (countLines_memOk (raceAccess_memOk hm))
      (raceAccess_memOk hm)))
  · exact holds_ite (fun p : State × _ => p.1.memOk) (countHome_memOk (memOk_ite (countLines_memOk (raceAccess_memOk hm)) (raceAccess_memOk hm)))
      (homeWrite_memOk _ _ _ _ (memOk_ite (countHome_memOk (memOk_ite (countLines_memOk (raceAccess_memOk hm)) (raceAccess_memOk hm))) (collide_memOk
      (countHome_memOk (memOk_ite (countLines_memOk (raceAccess_memOk hm)) (raceAccess_memOk hm))))))
  · exact holds_ite (fun p : State × _ => p.1.memOk) (countHome_memOk (memOk_ite (countLines_memOk (raceAccess_memOk hm)) (raceAccess_memOk hm)))
      (homeWrite_memOk _ _ _ _ (memOk_ite (countHome_memOk (memOk_ite (countLines_memOk (raceAccess_memOk hm)) (raceAccess_memOk hm))) (collide_memOk
      (countHome_memOk (memOk_ite (countLines_memOk (raceAccess_memOk hm)) (raceAccess_memOk hm))))))

theorem performNow_memOk {s : State} {a : Access} {phase : AccPhase} (hm : s.memOk = true) : (performNow s a phase).memOk = true := by
  unfold performNow
  split <;> exact settle_memOk (memOk_of_fst ‹_› (homeEffect_memOk hm) :)

theorem bridgeLeft_memOk {s : State} {a : Access} (hm : s.memOk = true) : (bridgeLeft s a).memOk = true := by
  unfold bridgeLeft
  split
  · exact memOk_ite hm hm
  · exact hm

theorem flushHost_memOk {s : State} (hm : s.memOk = true) : (flushHost s).memOk = true := by
  refine memOk_foldl _ (fun _ _ hu => ?_) _ _ hm
  split
  · exact hu
  · exact performNow_memOk hu

theorem touchVa_memOk {s : State} {root va : Word} {n : Nat} {write : Bool} (hm : s.memOk = true) : (touchVa s root va n write).memOk = true :=
  countVa_memOk (memOk_ite (flushHost_memOk hm) hm)

theorem performAccess_memOk {s : State} {a : Access} {phase : AccPhase} (hm : s.memOk = true) : (performAccess s a phase).memOk = true :=
  memOk_ite (bridgeLeft_memOk hm) (performNow_memOk (memOk_ite (flushHost_memOk (bridgeLeft_memOk hm)) (bridgeLeft_memOk hm)))

theorem setProbes_memOk {s : State} {a : Agent} {v : ProbeView} (hm : s.memOk = true) : (setProbes s a v).memOk = true := by
  unfold setProbes
  split <;> exact hm

theorem sendProbes_memOk {s : State} {ag : Agent} {for_ : Nat} (hm : s.memOk = true) : (sendProbes s ag for_).memOk = true :=
  memOk_foldl _ (fun _ _ hu => stampPacket_memOk hu) _ _ (setProbes_memOk hm)

theorem probeRelease_memOk {s : State} {b : Access} (hm : s.memOk = true) : (probeRelease s b).memOk = true := by
  unfold probeRelease
  split
  · exact memOk_ite (sendProbes_memOk hm) hm
  · exact hm

theorem noteDirty_memOk {s : State} {a : Access} {home : Nat} (hm : s.memOk = true) : (noteDirty s a home).memOk = true := by
  unfold noteDirty
  split
  · exact memOk_ite (setProbes_memOk hm) hm
  · exact hm

theorem tryStamp_memOk {s0 : State} {a : Access} (hms0 : s0.memOk = true) : (tryStamp s0 a).memOk = true :=
  memOk_ite (noteDirty_memOk (stampPacket_memOk (bridgeLeft_memOk (memOk_ite (probeRelease_memOk hms0) hms0)))) (memOk_ite (probeRelease_memOk hms0)
      hms0)

theorem fenceStep_memOk {s : State} {core : Nat} (hm : s.memOk = true) : (fenceStep s core).memOk = true := by
  unfold fenceStep
  split
  · exact hm
  · exact memOk_ite (memOk_ite (sendProbes_memOk hm) hm) (memOk_ite (sendProbes_memOk hm) hm)

theorem sendBar_memOk {s : State} {src dst : Nat} {m : BarMsg} (hm : s.memOk = true) : (sendBar s src dst m).memOk = true :=
  memOk_ite hm (stampPacket_memOk hm)

theorem sendArrivals_memOk {s : State} (hm : s.memOk = true) : (sendArrivals s).memOk = true := by
  refine memOk_foldl _ (fun _ _ hu => ?_) _ _ hm
  split
  · exact sendBar_memOk hu
  · exact hu

theorem sendCommands_memOk {s : State} (hm : s.memOk = true) : (sendCommands s).memOk = true := by
  refine memOk_foldl _ (fun _ _ hu => ?_) _ _ hm
  split
  · exact stampPacket_memOk hu
  · exact hu

theorem completeFrom_memOk {s : State} {core id : Nat} {code : Byte} {result : W32} (hm : s.memOk = true) :
    (completeFrom s core id code result).memOk = true := by
  unfold completeFrom
  split
  · exact hm
  · exact memOk_ite hm (stampPacket_memOk hm)

theorem sendFences_memOk {s : State} (hm : s.memOk = true) : (sendFences s).memOk = true := memOk_foldl _ (fun _ _ hu => fenceStep_memOk hu) _ _ hm

theorem stampReady_memOk {s : State} (hm : s.memOk = true) : (stampReady s).memOk = true := by
  refine sendFences_memOk (sendCommands_memOk (sendArrivals_memOk (memOk_foldl _ (fun u id hu => ?_) _ _ (stampUnsent_memOk hm))))
  split
  · exact hu
  · exact tryStamp_memOk hu

theorem issueAccess_memOk {s : State} {a : Access} (hm : s.memOk = true) : (issueAccess s a).memOk = true := memOk_ite (tryStamp_memOk hm) hm

theorem parkFault_memOk {s : State} {a : Access} {f : WalkFault} (hm : s.memOk = true) : (parkFault s a f).memOk = true := by
  unfold parkFault
  dsimp only
  split
  · exact plotFault_memOk hm
  · exact portFault_memOk hm
  · exact hm

theorem resolveOne_memOk {s : State} {core id : Nat} (hm : s.memOk = true) : (resolveOne s core id).memOk = true := by
  unfold resolveOne
  split
  · exact hm
  · refine memOk_ite hm ?_
    split
    · exact (memOk_of_snd ‹_› (translate_memOk hm) :)
    · exact parkFault_memOk (memOk_of_snd ‹_› (translate_memOk hm) :)
    · exact memOk_ite (tryStamp_memOk (memOk_of_snd ‹_› (translate_memOk hm) :)) (memOk_of_snd ‹_› (translate_memOk hm) :)

theorem resolveParked_memOk {s : State} {core : Nat} (hm : s.memOk = true) : (resolveParked s core).memOk = true :=
  memOk_foldl _ (fun _ _ hu => resolveOne_memOk hu) _ _ hm

theorem issueVa_memOk {s : State} {core : Nat} {agent : Agent} {kind : AccKind} {va : Word} {len : Nat} {data : List Byte} {rel : Bool} {dest : Dest}
    {xfer : optParam Nat 0} {parts : optParam (List (Nat × Nat)) []} {sub : optParam Bool false} (hm : s.memOk = true) :
    (issueVa s core agent kind va len data rel dest xfer parts sub).memOk = true :=
  resolveOne_memOk hm

/-! ### Machine, Alu -/

theorem alu2_memOk {s : State} {d a b : Reg} {f : Word → Word → Word} (hm : s.memOk = true) : Res.memOk (alu2 s d a b f) = true :=
  withRegs_memOk hm (fun _ hu => hu)

theorem alu1_memOk {s : State} {d a : Reg} {f : Word → Word} (hm : s.memOk = true) : Res.memOk (alu1 s d a f) = true :=
  withRegs_memOk hm (fun _ hu => hu)

theorem execWidx_memOk {d : Reg} {k : BitVec 3} {s : State} (hm : s.memOk = true) : Res.memOk (execWidx d k s) = true := by
  unfold execWidx
  exact alu1_memOk hm

theorem execMfs_memOk {d : Reg} {num : BitVec 9} {s : State} (hm : s.memOk = true) : Res.memOk (execMfs d num s) = true := by
  unfold execMfs
  exact alu1_memOk hm

theorem execMts_memOk {a : Reg} {num : BitVec 9} {s : State} (hm : s.memOk = true) : Res.memOk (execMts a num s) = true :=
  withRegs_memOk hm (fun _ hu => memOk_ite (memOk_ite (preciseFault_memOk hu) hu) (memOk_ite (preciseFault_memOk hu) (memOk_ite hu hu)))

/-! ### Machine, Control -/

theorem localAccess_memOk {s : State} {a : Reg} {imm : BitVec 16} {n : Nat} {f : Nat → Core → Core} (hm : s.memOk = true) :
    (localAccess s a imm n f).memOk = true :=
  memOk_ite (preciseFault_memOk hm) (memOk_ite (preciseFault_memOk hm) (memOk_ite hm hm))

theorem loadLocal_memOk {s : State} {d a : Reg} {imm : BitVec 16} {n : Nat} (hm : s.memOk = true) : Res.memOk (loadLocal s d a imm n) = true :=
  withRegs_memOk hm (fun _ hu => localAccess_memOk hu)

theorem storeLocal_memOk {s : State} {d a : Reg} {imm : BitVec 16} {n : Nat} (hm : s.memOk = true) : Res.memOk (storeLocal s d a imm n) = true :=
  withRegs_memOk hm (fun _ hu => localAccess_memOk hu)

theorem deviceAccess_memOk {s : State} {ea : Word} {n : Nat} {store : Bool} {f : State → TcEntry → State} (hm : s.memOk = true)
    (hf : ∀ a0 a1, a0.memOk = true → (f a0 a1).memOk = true) :
    (deviceAccess s ea n store f).memOk = true := by
  unfold deviceAccess
  refine memOk_ite hm ?_
  refine memOk_ite hm ?_
  refine memOk_ite (preciseFault_memOk hm) ?_
  split
  · exact preciseFault_memOk (memOk_of_snd ‹_› (translate_memOk hm) :)
  · exact (memOk_of_snd ‹_› (translate_memOk hm) :)
  · exact hf _ _ (memOk_of_snd ‹_› (translate_memOk hm) :)

theorem issueLoad_memOk {s : State} {d : Reg} {ea : Word} {n : Nat} {acq : Bool} {scope : BitVec 2} {e : TcEntry} (hm : s.memOk = true) :
    (issueLoad s d ea n acq scope e).memOk = true :=
  issueAccess_memOk hm

theorem issueStore_memOk {s : State} {ea : Word} {n : Nat} {v : Word} {rel : Option (BitVec 2)} {e : TcEntry} (hm : s.memOk = true) :
    (issueStore s ea n v rel e).memOk = true := by
  unfold issueStore
  split <;> exact issueAccess_memOk hm

theorem loadDevice_memOk {s : State} {d a : Reg} {imm : BitVec 16} {n : Nat} (hm : s.memOk = true) : Res.memOk (loadDevice s d a imm n) = true :=
  withRegs_memOk hm (fun _ hu => deviceAccess_memOk hu (fun _ _ hv => issueLoad_memOk hv))

theorem storeDevice_memOk {s : State} {d a : Reg} {imm : BitVec 16} {n : Nat} (hm : s.memOk = true) : Res.memOk (storeDevice s d a imm n) = true :=
  withRegs_memOk hm (fun _ hu => deviceAccess_memOk hu (fun _ _ hv => issueStore_memOk hv))

theorem execLdgAcq_memOk {d a : Reg} {scope : BitVec 2} {s : State} (hm : s.memOk = true) : Res.memOk (execLdgAcq d a scope s) = true :=
  withRegs_memOk hm (fun _ hu => deviceAccess_memOk hu (fun _ _ hv => issueLoad_memOk hv))

theorem execStgRel_memOk {a b : Reg} {scope : BitVec 2} {s : State} (hm : s.memOk = true) : Res.memOk (execStgRel a b scope s) = true :=
  withRegs_memOk hm (fun _ hu => deviceAccess_memOk hu (fun _ _ hv => issueStore_memOk hv))

theorem execPref_memOk {a : Reg} {s : State} (hm : s.memOk = true) : Res.memOk (execPref a s) = true := by
  refine withRegs_memOk hm (fun _ hu => ?_)
  split <;> exact (memOk_of_snd ‹_› (translate_memOk hu) :)

theorem execLocq_memOk {d a : Reg} {s : State} (hm : s.memOk = true) : Res.memOk (execLocq d a s) = true := by
  unfold execLocq
  dsimp only
  refine withRegs_memOk hm (fun _ hu => ?_)
  split <;> exact (memOk_of_snd ‹_› (translate_memOk hu) :)

theorem execFence_memOk {scope : BitVec 2} {s : State} (hm : s.memOk = true) : Res.memOk (execFence scope s) = true := by
  refine memOk_ite hm ?_
  extract_lets mine t u
  have hu : u.memOk = true := fenceStep_memOk (memOk_ite hm hm)
  clear_value u
  exact memOk_ite hu hu

theorem execBarr_memOk {a : Reg} {s : State} (hm : s.memOk = true) : Res.memOk (execBarr a s) = true := by
  refine withRegs_memOk hm (fun u hu => ?_)
  split
  · exact memOk_ite (preciseFault_memOk hu) (memOk_ite hu hu)
  · exact memOk_ite (preciseFault_memOk hu) (memOk_ite hu (memOk_ite hu (sendArrivals_memOk hu)))

theorem branch_memOk {s : State} {a b : Reg} {off : BitVec 16} {c : Word → Word → Bool} (hm : s.memOk = true) :
    Res.memOk (branch s a b off c) = true :=
  withRegs_memOk hm (fun _ hu => hu)

theorem openLoop_memOk {s : State} {n : Nat} {c : W32} {last : Word} (hm : s.memOk = true) : (openLoop s n c last).memOk = true := by
  unfold openLoop
  refine memOk_ite ?_ hm
  split <;> exact hm

theorem execLoop_memOk {level : BitVec 2} {c : Reg} {last : BitVec 19} {s : State} (hm : s.memOk = true) :
    Res.memOk (execLoop level c last s) = true :=
  withRegs_memOk hm (fun _ hu => memOk_ite (preciseFault_memOk hu) (openLoop_memOk hu))

theorem execPost_memOk {a b : Reg} {s : State} (hm : s.memOk = true) : Res.memOk (execPost a b s) = true := by
  unfold execPost
  dsimp only
  refine withRegs_memOk hm (fun _ hu => ?_)
  split
  · exact hu
  · exact memOk_ite (preciseFault_memOk hu) (memOk_ite hu hu)

theorem setMasks_memOk {s : State} {a : Reg} {m : Bool} (hm : s.memOk = true) : Res.memOk (setMasks s a m) = true :=
  withRegs_memOk hm (fun _ hu => hu)

theorem chooseBay_memOk {s : State} {bay word : Word} (hm : s.memOk = true) : (chooseBay s bay word).memOk = true := by
  unfold chooseBay
  split
  · exact hm
  · exact memOk_ite (preciseFault_memOk hm) (memOk_ite (preciseFault_memOk hm) (memOk_ite (preciseFault_memOk hm) (memOk_ite hm hm)))

theorem execTrap_memOk {code : BitVec 8} {s : State} (hm : s.memOk = true) : Res.memOk (execTrap code s) = true := by
  unfold execTrap
  dsimp only
  refine memOk_ite ?_ (enterTrap_memOk hm)
  split
  · exact hm
  · exact hostwaitSeq_memOk hm

theorem execTret_memOk {s : State} (hm : s.memOk = true) : Res.memOk (execTret s) = true :=
  memOk_ite (preciseFault_memOk hm) (memOk_ite (preciseFault_memOk hm) hm)

/-! ### Machine, Handlers -/

theorem restoreOver_memOk {s : State} {core : Nat} (hm : s.memOk = true) : (restoreOver s core).memOk = true := by
  unfold restoreOver
  split
  · exact memOk_ite hm hm
  · exact hm

theorem execHandlerDispatch_memOk {core : Nat} {s : State} (hm : s.memOk = true) : Res.memOk (execHandlerDispatch core s) = true := by
  unfold execHandlerDispatch
  refine memOk_ite (memOk_ite hm hm) ?_
  refine memOk_ite hm ?_
  split
  · exact hm
  · exact memOk_ite (restoreOver_memOk hm) (restoreOver_memOk hm)

theorem execControlWordArrival_memOk {idx : Nat} {s : State} (hm : s.memOk = true) : Res.memOk (execControlWordArrival idx s) = true := by
  unfold execControlWordArrival
  split
  · exact hm
  · exact memOk_ite hm (memOk_ite hm (memOk_ite hm hm))

theorem execCommandCompletion_memOk {core id : Nat} {s : State} (hm : s.memOk = true) : Res.memOk (execCommandCompletion core id s) = true := by
  unfold execCommandCompletion
  split
  · exact hm
  · exact memOk_ite hm hm

theorem execLdgDataReturn_memOk {acc : Nat} {s : State} (hm : s.memOk = true) : Res.memOk (execLdgDataReturn acc s) = true := by
  unfold execLdgDataReturn
  split
  · exact hm
  · split
    · exact memOk_ite hm (memOk_ite hm hm)
    · exact hm

theorem execInstructionCacheFill_memOk {core : Nat} {s : State} (hm : s.memOk = true) : Res.memOk (execInstructionCacheFill core s) = true := by
  unfold execInstructionCacheFill
  dsimp only
  split
  · exact hm
  · split
    · exact (memOk_of_snd ‹_› (translate_memOk hm) :)
    · exact (memOk_of_snd ‹_› (translate_memOk hm) :)
    · refine memOk_ite (memOk_of_snd ‹_› (translate_memOk hm) :) ?_
      split
      · exact (memOk_of_snd ‹_› (translate_memOk hm) :)
      · exact memOk_ite (memOk_of_some ‹_› (crossRead_memOk (memOk_of_snd ‹_› (translate_memOk hm) :)) :) (memOk_of_some ‹_› (crossRead_memOk
          (memOk_of_snd ‹_› (translate_memOk hm) :)) :)

/-! ### Machine, Scratch -/

theorem declareBank_memOk {s : State} {core m bank : Nat} {byFirmware : Bool} (hm : s.memOk = true) :
    (declareBank s core m bank byFirmware).memOk = true :=
  memOk_ite hm (logRecord_memOk _ _ _ _ hm)

theorem countError_memOk {s : State} {core m bank : Nat} (hm : s.memOk = true) : (countError s core m bank).memOk = true :=
  memOk_ite (declareBank_memOk (State.count_memOk hm)) (State.count_memOk hm)

theorem readRow_memOk {s : State} {core m row : Nat} (hm : s.memOk = true) : (readRow s core m row).1.memOk = true := by
  unfold readRow
  dsimp only
  split
  · exact hm
  · split
    · exact hm
    · exact countError_memOk hm

theorem readRows_memOk {s : State} {core m : Nat} {rows : List Nat} (hm : s.memOk = true) : (readRows s core m rows).1.memOk = true := by
  induction rows generalizing s with
  | nil => exact hm
  | cons r rs ih =>
    unfold readRows
    split
    · exact memOk_of_fst ‹_› (readRow_memOk hm)
    · have ht := memOk_of_fst ‹_› (readRow_memOk hm)
      split <;> exact memOk_of_fst ‹_› (ih ht)

theorem cellRead_memOk {s : State} {core m a n : Nat} (hm : s.memOk = true) : (cellRead s core m a n).1.memOk = true := by
  unfold cellRead
  split
  · exact hm
  · split
    · exact hm
    · split <;> exact (memOk_of_fst ‹_› (readRows_memOk hm))

theorem cellWrite_memOk {s : State} {core m a : Nat} {bs : List Byte} (hm : s.memOk = true) : (cellWrite s core m a bs).1.memOk = true := by
  unfold cellWrite
  dsimp only
  refine holds_ite (fun p : State × _ => p.1.memOk) hm ?_
  refine holds_ite (fun p : State × _ => p.1.memOk) hm ?_
  split
  · exact (memOk_of_fst ‹_› (readRows_memOk hm) :)
  · exact memOk_foldl _ (fun _ _ hu => by exact hu) _ _ (memOk_foldl _ (fun _ _ hu => by exact hu) _ _ (memOk_of_fst ‹_› (readRows_memOk hm) :))

theorem zeroTile_memOk {s : State} {core h : Nat} {t : Tile} (hm : s.memOk = true) : (zeroTile s core h t).memOk = true :=
  memOk_foldl _ (fun _ _ hu => by exact hu) _ _ hm

theorem tileReadFrom_memOk {s : State} {core h : Nat} {t : Tile} {ps : List (Nat × Nat)} (hm : s.memOk = true) :
    (tileReadFrom s core h t ps).1.memOk = true := by
  induction ps generalizing s with
  | nil => exact hm
  | cons p ps ih =>
    unfold tileReadFrom
    split
    split
    · exact memOk_of_fst ‹_› (cellRead_memOk hm)
    · have hu := memOk_of_fst ‹_› (cellRead_memOk hm)
      split <;> exact memOk_of_fst ‹_› (ih hu)

theorem tileRead_memOk {s : State} {core h o n : Nat} (hm : s.memOk = true) : (tileRead s core h o n).1.memOk = true := tileReadFrom_memOk hm

theorem tileWrite_memOk {s : State} {core h o : Nat} {bs : List Byte} (hm : s.memOk = true) : (tileWrite s core h o bs).1.memOk = true := by
  refine foldl_holds (fun r : State × Bool => r.1.memOk) (fun r p hr => ?_) _ (by exact hm)
  exact cellWrite_memOk hr

theorem raceTile_memOk {s : State} {agent : Agent} {core h o len : Nat} {write : Bool} (hm : s.memOk = true) :
    (raceTile s agent core h o len write).memOk = true := by
  refine memOk_foldl _ (fun u p hu => ?_) _ _ hm
  split
  extract_lets key u1
  have hu1 : u1.memOk = true := by
    unfold u1
    split
    · exact hu
    · exact raceReport_memOk hu
  exact memOk_ite hu1 hu1

theorem unmarkTile_memOk {s : State} {core h o len : Nat} (hm : s.memOk = true) : (unmarkTile s core h o len).memOk = true := by
  refine memOk_foldl _ (fun _ _ hu => ?_) _ _ hm
  split <;> exact hu

theorem releaseTile_memOk {s : State} {core h : Nat} (hm : s.memOk = true) : (releaseTile s core h).memOk = true := memOk_ite hm (memOk_ite hm hm)

/-! ### Machine, Operands -/

theorem pushArc_memOk {s : State} {x : Nat × Nat × Nat} {sl : Slot} (hm : s.memOk = true) : (pushArc s x sl).memOk = true := by
  unfold pushArc
  split <;> exact hm

theorem emit_memOk {s : State} {arcs : List (Nat × Nat × Nat)} {t : Token} (hm : s.memOk = true) : (emit s arcs t).memOk = true :=
  memOk_foldl _ (fun _ _ hu => pushArc_memOk hu) _ _ hm

theorem reserve_memOk {s : State} {arcs : List (Nat × Nat × Nat)} {id : Nat} {t : Token} (hm : s.memOk = true) : (reserve s arcs id t).memOk = true :=
  memOk_foldl _ (fun _ _ hu => pushArc_memOk hu) _ _ hm

theorem noteEnd_memOk {s : State} {p : Nat} (hm : s.memOk = true) : (noteEnd s p).memOk = true := by
  unfold noteEnd
  split
  · exact memOk_ite hm hm
  · exact hm

theorem consume_memOk {s : State} {ps : List Nat} (hm : s.memOk = true) : (consume s ps).memOk = true :=
  memOk_foldl _ (fun u p hu => by exact noteEnd_memOk (p := p) hu) _ _ hm

theorem emitAB_memOk {s : State} {n : NodeFields} {a b : Option Token} (hm : s.memOk = true) : (emitAB s n a b).memOk = true := by
  unfold emitAB
  dsimp only
  split
  · refine emit_memOk ?_
    split
    · exact emit_memOk hm
    · exact hm
  · split
    · exact emit_memOk hm
    · exact hm

theorem fireAll_memOk {s : State} {n : NodeFields} {t : Token} (hm : s.memOk = true) : (fireAll s n t).memOk = true := emitAB_memOk (consume_memOk hm)

theorem raiseNode_memOk {s : State} {code : Byte} {detail : Nat} {tval : Word} {recoverable : Bool} (hm : s.memOk = true) :
    (raiseNode s code detail tval recoverable).memOk = true :=
  plotFault_memOk hm

theorem formatFault_memOk {s : State} {n : NodeFields} (hm : s.memOk = true) : (formatFault s n).memOk = true := raiseNode_memOk hm

theorem inStep_memOk {s : State} {n : NodeFields} {onMark : Token → State → State} {data : State → State} (hm : s.memOk = true)
    (honMark : ∀ a0 a1, a1.memOk = true → (onMark a0 a1).memOk = true) (hdata : ∀ a0, a0.memOk = true → (data a0).memOk = true) :
    Res.memOk (inStep s n onMark data) = true := by
  unfold inStep
  refine memOk_ite hm ?_
  refine memOk_ite (formatFault_memOk hm) ?_
  split
  · exact memOk_ite hm (memOk_ite (formatFault_memOk hm) (memOk_ite hm (memOk_ite (hdata _ hm) (honMark _ _ hm))))
  · exact hm

theorem forward_memOk {n : NodeFields} {l : Token} {s : State} (hm : s.memOk = true) : (forward n l s).memOk = true := fireAll_memOk hm

theorem pureNode_memOk {s : State} {n : NodeFields} {f : State → Token → Token} (hm : s.memOk = true) : Res.memOk (pureNode s n f) = true := by
  refine inStep_memOk hm (fun _ _ hu => forward_memOk hu) (fun _ hu => ?_)
  split
  · exact hu
  · exact fireAll_memOk hu

theorem noteBar_memOk {s : State} {core p : Nat} (hm : s.memOk = true) : (noteBar s core p).memOk = true := by
  unfold noteBar
  split
  · exact hm
  · exact memOk_ite hm hm

theorem retireOne_memOk {s : State} {q : Plot} (hm : s.memOk = true) : (retireOne s q).memOk = true := State.count_memOk hm

theorem sinkMark_memOk {s : State} {core cell stage : Nat} {kind : BitVec 2} (hm : s.memOk = true) :
    (sinkMark s core cell stage kind).memOk = true := by
  unfold sinkMark
  split
  · exact hm
  · exact memOk_ite (memOk_ite (retireOne_memOk hm) hm) (memOk_ite (memOk_ite hm hm) hm)

/-! ### Machine, Vector -/

theorem vecNode_memOk {s : State} {n : NodeFields} {addend : Bool} {op : W32 → W32 → W32 → W32} (hm : s.memOk = true) :
    Res.memOk (vecNode s n addend op) = true :=
  pureNode_memOk hm

theorem floatNode_memOk {s : State} {n : NodeFields} {f : Fmt → Nat → Nat → Nat → Nat} (hm : s.memOk = true) : Res.memOk (floatNode s n f) = true :=
  vecNode_memOk hm

theorem intNode_memOk {s : State} {n : NodeFields} {f : Nat → Nat → Nat → Nat} (hm : s.memOk = true) : Res.memOk (intNode s n f) = true :=
  vecNode_memOk hm

theorem reduceNode_memOk {s : State} {n : NodeFields} {fop : Nat → Nat → Nat} {fid : Nat} {iop : Nat → Nat → Nat → Nat} {iid : Nat → Nat}
    (hm : s.memOk = true) :
    Res.memOk (reduceNode s n fop fid iop iid) = true :=
  pureNode_memOk hm

/-! ### Machine, MemNodes -/

theorem readSpans_memOk {s : State} {core h : Nat} {xs : List (Nat × Nat × Nat)} (hm : s.memOk = true) : (readSpans s core h xs).1.memOk = true := by
  induction xs generalizing s with
  | nil => exact hm
  | cons x xs ih =>
    unfold readSpans
    split
    · exact memOk_of_fst ‹_› (tileRead_memOk hm)
    · have ht := memOk_of_fst ‹_› (tileRead_memOk hm)
      split <;> exact memOk_of_fst ‹_› (ih ht)

theorem tileFiring_memOk {s : State} {n : NodeFields} {m : Token → State → BitVec 16} {reads produce : Bool}
    {go : State → Token → Nat → List (Nat × List Byte) → State} (hm : s.memOk = true)
    (hgo : ∀ a0 a1 a2 a3, a0.memOk = true → (go a0 a1 a2 a3).memOk = true) :
    Res.memOk (tileFiring s n m reads produce go) = true := by
  unfold tileFiring
  dsimp only
  refine inStep_memOk hm (fun _ _ hu => forward_memOk hu) (fun u hu => ?_)
  split
  · exact hu
  · split
    · exact raiseNode_memOk hu
    · split
      · exact raiseNode_memOk (memOk_of_fst ‹_› (readSpans_memOk hu))
      · exact hgo _ _ _ _ (memOk_of_fst ‹_› (readSpans_memOk hu))

theorem raceSpans_memOk {s : State} {h : Nat} {spans : List (Nat × Nat × Nat)} {write : Bool} (hm : s.memOk = true) :
    (raceSpans s h spans write).memOk = true :=
  memOk_foldl _ (fun _ _ hu => raceTile_memOk hu) _ _ hm

theorem execMload_memOk {n : NodeFields} {s : State} (hm : s.memOk = true) : Res.memOk (execMload n s) = true :=
  tileFiring_memOk hm (fun _ _ _ _ hu => fireAll_memOk (raceSpans_memOk hu))

theorem storeLanes_memOk {core h : Nat} {xs : List (Nat × List Byte)} {s : State} (hm : s.memOk = true) :
    okAll State.memOk (storeLanes core h xs s) = true := by
  induction xs generalizing s with
  | nil => exact hm
  | cons x xs ih =>
    unfold storeLanes
    split
    · rfl
    · exact ih (memOk_of_fst ‹_› (tileWrite_memOk hm))

theorem execMstore_memOk {n : NodeFields} {s : State} (hm : s.memOk = true) : Res.memOk (execMstore n s) = true := by
  unfold execMstore
  dsimp only
  refine tileFiring_memOk hm (fun u _ _ _ hu => ?_)
  split
  · exact fireAll_memOk (memOk_of_ok ‹_› (storeLanes_memOk (raceSpans_memOk hu)))
  · exact raiseNode_memOk (raceSpans_memOk hu)

theorem rmwWords_memOk {core h op : Nat} {r p : Token} {s : State} {xs : List (Nat × Nat)} (hm : s.memOk = true) :
    (rmwWords core h op r p s xs).1.memOk = true := by
  induction xs generalizing s with
  | nil => exact hm
  | cons x xs ih =>
    unfold rmwWords
    split
    · exact memOk_of_fst ‹_› (tileRead_memOk hm)
    · exact ih (tileWrite_memOk (memOk_of_fst ‹_› (tileRead_memOk hm)))

theorem execMatom_memOk {n : NodeFields} {s : State} (hm : s.memOk = true) : Res.memOk (execMatom n s) = true :=
  tileFiring_memOk hm (fun _ _ _ _ hu => fireAll_memOk (rmwWords_memOk hu))

theorem execMred_memOk {n : NodeFields} {s : State} (hm : s.memOk = true) : Res.memOk (execMred n s) = true :=
  tileFiring_memOk hm (fun _ _ _ _ hu => fireAll_memOk (rmwWords_memOk hu))

theorem deviceFiring_memOk {s : State} {n : NodeFields} {m : Token → State → BitVec 16} {go : State → Token → List (Nat × Word × Nat) → State}
    (hm : s.memOk = true) (hgo : ∀ a0 a1 a2, a0.memOk = true → (go a0 a1 a2).memOk = true) :
    Res.memOk (deviceFiring s n m go) = true := by
  unfold deviceFiring
  dsimp only
  refine inStep_memOk hm (fun _ _ hu => memOk_ite hu (forward_memOk hu)) (fun u hu => ?_)
  split
  · exact hu
  · split
    · exact raiseNode_memOk hu
    · exact hgo _ _ _ hu

theorem execGload_memOk {n : NodeFields} {s : State} (hm : s.memOk = true) : Res.memOk (execGload n s) = true :=
  deviceFiring_memOk hm (fun _ _ _ hu => memOk_ite (fireAll_memOk hu) (memOk_foldl _ (fun _ _ hv => issueVa_memOk hv) _ _ (reserve_memOk
      (reserve_memOk (consume_memOk hu)))))

theorem execGstore_memOk {n : NodeFields} {s : State} (hm : s.memOk = true) : Res.memOk (execGstore n s) = true :=
  deviceFiring_memOk hm (fun _ _ _ hu => memOk_ite (fireAll_memOk hu) (memOk_foldl _ (fun _ _ hv => issueVa_memOk hv) _ _ (reserve_memOk
      (consume_memOk hu))))

theorem execBarOrderingPointRelease_memOk {core cell stage : Nat} {s0 : State} (hm : s0.memOk = true) :
    Res.memOk (execBarOrderingPointRelease core cell stage s0) = true := by
  unfold execBarOrderingPointRelease
  extract_lets src s w p
  have hs : s.memOk = true := hm
  have hpop : (sinkMark (popArc s core cell (4 * stage)) core cell stage kBAR).memOk = true := sinkMark_memOk hs
  refine memOk_ite ?_ (memOk_ite hpop (memOk_ite (noteBar_memOk (emit_memOk hs)) hm))
  split
  · refine memOk_ite ?_ hm
    split
    · exact forward_memOk hs
    · exact hm
  · refine memOk_ite ?_ hm
    split
    · exact forward_memOk hs
    · exact hm
  · exact hm

/-! ### Machine, Tiles -/

theorem tileCmd_memOk {s : State} {act : State → TileAns} (hm : s.memOk = true) (hact : ∀ u, u.memOk = true → TileAns.memOk (act u) = true) :
    Res.memOk (tileCmd s act) = true := by
  have ha := hact s hm
  refine memOk_ite (accept_memOk hm) ?_
  split
  · exact hm
  · refine memOk_ite hm (memOk_ite hm ?_)
    split
    · next e => rw [e] at ha; exact memOk_ite ha ha
    · next e => rw [e] at ha; exact ha
    · exact hm

theorem allocTile_memOk {s : State} {core : Nat} {level : BitVec 2} {ring : Bool} {cellm : BitVec 2} {h rows rowb : Nat} (hm : s.memOk = true) :
    okAll State.memOk (allocTile s core level ring cellm h rows rowb) = true := by
  unfold allocTile
  dsimp only
  refine holds_ite (okAll State.memOk) rfl ?_
  refine holds_ite (okAll State.memOk) rfl ?_
  refine holds_ite (okAll State.memOk) rfl ?_
  split
  · exact rfl
  · exact hm

theorem execTalloc_memOk {level : BitVec 2} {ring : Bool} {cellm : BitVec 2} {h : BitVec 6} {rows rowb : BitVec 32} {s : State}
    (hm : s.memOk = true) :
    Res.memOk (execTalloc level ring cellm h rows rowb s) = true := by
  refine tileCmd_memOk hm (fun _ hu => ?_)
  split
  · exact rfl
  · exact (memOk_of_ok ‹_› (allocTile_memOk hu) :)

theorem execTfree_memOk {h : BitVec 6} {s : State} (hm : s.memOk = true) : Res.memOk (execTfree h s) = true :=
  tileCmd_memOk hm (fun _ hu => holds_ite TileAns.memOk rfl (holds_ite TileAns.memOk rfl (holds_ite TileAns.memOk rfl (holds_ite TileAns.memOk hu
      (zeroTile_memOk hu)))))

theorem execTring_memOk {h : BitVec 6} {fill : BitVec 32} {s : State} (hm : s.memOk = true) : Res.memOk (execTring h fill s) = true :=
  tileCmd_memOk hm (fun _ hu => holds_ite TileAns.memOk rfl (holds_ite TileAns.memOk rfl (holds_ite TileAns.memOk rfl (holds_ite TileAns.memOk rfl
      (holds_ite TileAns.memOk hu hu)))))

theorem execTownEngine_memOk {h : BitVec 6} {s : State} (hm : s.memOk = true) : Res.memOk (execTownEngine h s) = true :=
  tileCmd_memOk hm (fun _ hu => holds_ite TileAns.memOk (holds_ite TileAns.memOk hu hu) (holds_ite TileAns.memOk rfl (holds_ite TileAns.memOk rfl
      (holds_ite TileAns.memOk hu hu))))

theorem execTownSeq_memOk {h : BitVec 6} {s : State} (hm : s.memOk = true) : Res.memOk (execTownSeq h s) = true :=
  tileCmd_memOk hm (fun _ hu => holds_ite TileAns.memOk rfl (holds_ite TileAns.memOk rfl (releaseTile_memOk hu)))

theorem execAdvp_memOk {h : BitVec 6} {count : BitVec 32} {s : State} (hm : s.memOk = true) : Res.memOk (execAdvp h count s) = true :=
  tileCmd_memOk hm (fun _ hu => holds_ite TileAns.memOk rfl (holds_ite TileAns.memOk rfl (holds_ite TileAns.memOk rfl (holds_ite TileAns.memOk hu
      hu))))

theorem execAdvc_memOk {h : BitVec 6} {count : BitVec 32} {s : State} (hm : s.memOk = true) : Res.memOk (execAdvc h count s) = true :=
  tileCmd_memOk hm (fun _ hu => holds_ite TileAns.memOk rfl (holds_ite TileAns.memOk rfl (holds_ite TileAns.memOk rfl (holds_ite TileAns.memOk hu
      hu))))

theorem execTwaitFill_memOk {h : BitVec 6} {k : BitVec 32} {s : State} (hm : s.memOk = true) : Res.memOk (execTwaitFill h k s) = true :=
  tileCmd_memOk hm (fun _ hu => holds_ite TileAns.memOk rfl (holds_ite TileAns.memOk rfl (holds_ite TileAns.memOk rfl (holds_ite TileAns.memOk hu
      hu))))

theorem execTwaitFree_memOk {h : BitVec 6} {k : BitVec 32} {s : State} (hm : s.memOk = true) : Res.memOk (execTwaitFree h k s) = true :=
  tileCmd_memOk hm (fun _ hu => holds_ite TileAns.memOk rfl (holds_ite TileAns.memOk rfl (holds_ite TileAns.memOk rfl (holds_ite TileAns.memOk hu
      hu))))

theorem execTzero_memOk {h : BitVec 6} {s : State} (hm : s.memOk = true) : Res.memOk (execTzero h s) = true :=
  tileCmd_memOk hm (fun _ hu => holds_ite TileAns.memOk rfl (holds_ite TileAns.memOk rfl (holds_ite TileAns.memOk hu (zeroTile_memOk hu))))

theorem execTstat_memOk {h : BitVec 6} {s : State} (hm : s.memOk = true) : Res.memOk (execTstat h s) = true := tileCmd_memOk hm (fun _ hu => hu)

/-! ### Machine, Ports -/

theorem streamCmd_memOk {s : State} {p : BitVec 3} {idleOnly : Bool} {f : Port → Option (Port × W32)} (hm : s.memOk = true) :
    Res.memOk (streamCmd s p idleOnly f) = true := by
  unfold streamCmd
  dsimp only
  refine memOk_ite hm ?_
  refine memOk_ite (acceptStall_memOk hm) ?_
  split <;> exact accept_memOk hm

theorem execSplev_memOk {p : BitVec 3} {level : BitVec 2} {stride : Word} {count : BitVec 32} {s : State} (hm : s.memOk = true) :
    Res.memOk (execSplev p level stride count s) = true :=
  streamCmd_memOk hm

theorem execSpbaseTile_memOk {p : BitVec 3} {b0 off : BitVec 32} {s : State} (hm : s.memOk = true) : Res.memOk (execSpbaseTile p b0 off s) = true :=
  streamCmd_memOk hm

theorem execSpbaseVa_memOk {p : BitVec 3} {addr : Word} {s : State} (hm : s.memOk = true) : Res.memOk (execSpbaseVa p addr s) = true :=
  streamCmd_memOk hm

theorem execSpmode_memOk {p : BitVec 3} {mods : BitVec 7} {b0 ceil : BitVec 32} {s : State} (hm : s.memOk = true) :
    Res.memOk (execSpmode p mods b0 ceil s) = true := by
  unfold execSpmode
  exact streamCmd_memOk hm

theorem execSpgo_memOk {p : BitVec 3} {bar : Bool} {chan : BitVec 4} {n : BitVec 32} {s : State} (hm : s.memOk = true) :
    Res.memOk (execSpgo p bar chan n s) = true := by
  unfold execSpgo
  exact streamCmd_memOk hm

theorem execSpclose_memOk {p : BitVec 3} {s : State} (hm : s.memOk = true) : Res.memOk (execSpclose p s) = true := by
  unfold execSpclose
  refine memOk_ite (accept_memOk hm) ?_
  split
  · exact hm
  · exact memOk_ite hm (memOk_ite hm (memOk_ite hm hm))

theorem execSpqryLo_memOk {p : BitVec 3} {s : State} (hm : s.memOk = true) : Res.memOk (execSpqryLo p s) = true := streamCmd_memOk hm

theorem execSpqryHi_memOk {p : BitVec 3} {s : State} (hm : s.memOk = true) : Res.memOk (execSpqryHi p s) = true := streamCmd_memOk hm

theorem execSpqrySt_memOk {p : BitVec 3} {bad : Bool} {s : State} (hm : s.memOk = true) : Res.memOk (execSpqrySt p bad s) = true := streamCmd_memOk hm

theorem execSpwid_memOk {p k : BitVec 3} {step : Word} {s : State} (hm : s.memOk = true) : Res.memOk (execSpwid p k step s) = true :=
  streamCmd_memOk hm

theorem newWindow_memOk {s : State} (hm : s.memOk = true) : (newWindow s).memOk = true :=
  memOk_ite hm (memOk_foldl _ (fun _ _ hu => by exact hu) _ _ hm)

theorem execPortInvocationStart_memOk {core : Nat} {p : BitVec 3} {s : State} (hm : s.memOk = true) :
    Res.memOk (execPortInvocationStart core p s) = true := by
  unfold execPortInvocationStart
  split
  · exact hm
  · refine memOk_ite hm ?_
    split
    · exact portFault_memOk hm
    · exact memOk_ite hm (memOk_ite (portFault_memOk hm) (memOk_ite (portFault_memOk hm) (memOk_ite (memOk_ite hm hm) hm)))

theorem portInjected_memOk {s : State} {core p : Nat} (hm : s.memOk = true) : (portInjected s core p).memOk = true := State.count_memOk hm

theorem injectTile_memOk {s : State} {core p : Nat} {q : Port} {arcs : List (Nat × Nat × Nat)} (hm : s.memOk = true) :
    (injectTile s core p q arcs).memOk = true := by
  unfold injectTile
  dsimp only
  split
  · exact portFault_memOk hm
  · split
    · exact portFault_memOk (memOk_of_fst ‹_› (tileRead_memOk hm))
    · split
      · exact portFault_memOk (raceTile_memOk (memOk_of_fst ‹_› (tileRead_memOk hm)))
      · exact portInjected_memOk (emit_memOk (raceTile_memOk (memOk_of_fst ‹_› (tileRead_memOk hm))))

theorem injectVa_memOk {s : State} {core p : Nat} {q : Port} {arcs : List (Nat × Nat × Nat)} (hm : s.memOk = true) :
    (injectVa s core p q arcs).memOk = true :=
  memOk_ite (portFault_memOk hm) (memOk_ite hm (portInjected_memOk (memOk_foldl _ (fun _ _ hu => issueVa_memOk hu) _ _ (reserve_memOk hm))))

theorem execPortInjectToken_memOk {core : Nat} {p : BitVec 3} {s0 : State} (hms0 : s0.memOk = true) :
    Res.memOk (execPortInjectToken core p s0) = true := by
  unfold execPortInjectToken
  refine memOk_ite (newWindow_memOk hms0) ?_
  split
  · exact newWindow_memOk hms0
  · exact memOk_ite (memOk_ite (newWindow_memOk hms0) (State.count_memOk (newWindow_memOk hms0))) (memOk_ite (newWindow_memOk hms0) (memOk_ite
      (injectVa_memOk (newWindow_memOk hms0)) (injectTile_memOk (newWindow_memOk hms0))))

theorem execPortInjectEoi_memOk {core : Nat} {p : BitVec 3} {s : State} (hm : s.memOk = true) : Res.memOk (execPortInjectEoi core p s) = true := by
  unfold execPortInjectEoi
  split
  · exact memOk_ite hm (memOk_ite (memOk_ite hm (noteBar_memOk (emit_memOk hm))) (memOk_ite hm (memOk_ite (emit_memOk hm) (emit_memOk hm))))
  · exact hm

theorem storeTile_memOk {s : State} {core p : Nat} {q : Port} {t : Token} {x : Nat × Nat} (hm : s.memOk = true) :
    (storeTile s core p q t x).memOk = true := by
  unfold storeTile
  extract_lets a
  split
  · exact portFault_memOk hm
  · split
    next u ok e =>
    have hu : u.memOk = true := by
      refine memOk_of_fst e (foldl_holds (fun r : State × Bool => r.1.memOk) (fun r y hr => ?_) _ (by exact hm))
      exact tileWrite_memOk (raceTile_memOk hr)
    exact memOk_ite hu (portFault_memOk hu)

theorem spanMapped_memOk {s : State} {core : Nat} {runs : List (Nat × List Byte)} {a : Word} {n : Nat} (hm : s.memOk = true) :
    (spanMapped s core runs a n).all (fun x => x.2.1.memOk) = true := by
  cases e : spanMapped s core runs a n with
  | none => rfl
  | some y =>
    obtain ⟨i, _, hi⟩ := List.exists_of_findSome?_eq_some e
    have hx := translate_memOk (core := core) (root := coreRoot s core) (store := false) (fetch := false)
      (va := if i = 0 then a else BitVec.ofNat 64 ((a.toNat / 4096 + i) * 4096)) hm
    dsimp only at hi
    generalize translate s core (coreRoot s core) (if i = 0 then a else BitVec.ofNat 64 ((a.toNat / 4096 + i) * 4096)) false false = x at hi hx
    obtain ⟨_ | _ | _, t⟩ := x <;> cases hi <;> exact hx

theorem storeVa_memOk {s : State} {core p : Nat} {q : Port} {t : Token} {x : Nat × Nat} (hm : s.memOk = true) :
    (storeVa s core p q t x).memOk = true := by
  unfold storeVa
  extract_lets a parts id v u
  have hv : v.memOk = true := memOk_foldl _ (fun _ _ hw => issueVa_memOk hw) _ _ hm
  have hu : u.memOk = true := memOk_ite hv hv
  refine memOk_ite (portFault_memOk hm) (memOk_ite hm ?_)
  have hspan := spanMapped_memOk (core := core) (runs := laneRuns a t q.width) (a := a) (n := 4 * q.width) hm
  split
  · next e => rw [e] at hspan; exact portFault_memOk hspan
  · next e => rw [e] at hspan; exact hspan
  · exact hu

theorem storedEoi_memOk {s : State} {pl : Plot} {core p : Nat} {x : Nat × Nat} (hm : s.memOk = true) : (storedEoi s pl core p x).memOk = true :=
  sinkMark_memOk hm

theorem execPortStoreToken_memOk {core : Nat} {p : BitVec 3} {s : State} (hm : s.memOk = true) : Res.memOk (execPortStoreToken core p s) = true := by
  unfold execPortStoreToken
  split
  · refine memOk_ite (memOk_ite (storedEoi_memOk hm) hm) ?_
    split
    · exact hm
    · exact memOk_ite hm (memOk_ite (memOk_ite hm (sinkMark_memOk hm)) (memOk_ite hm (memOk_ite (memOk_ite hm (memOk_ite (storedEoi_memOk (memOk_ite
        hm hm)) (memOk_ite hm hm))) (memOk_ite (portFault_memOk hm) (memOk_ite (portFault_memOk hm) (memOk_ite (storeVa_memOk hm) (storeTile_memOk
        hm)))))))
  · exact hm

/-! ### Machine, Matrix -/

theorem matrixCheck_memOk {s : State} {core : Nat} {i : MInfo} {b0 b2 : W32} {desc : List Byte} (hm : s.memOk = true) :
    MCheck.memOk (matrixCheck s core i b0 b2 desc) = true := by
  unfold matrixCheck
  split
  · exact hm
  · refine holds_ite MCheck.memOk hm ?_
    split
    · exact hm
    · split
      · exact hm
      · split
        · exact hm
        · refine holds_ite MCheck.memOk hm ?_
          refine holds_ite MCheck.memOk hm ?_
          refine holds_ite MCheck.memOk hm ?_
          refine holds_ite MCheck.memOk hm ?_
          split <;> exact (memOk_of_snd ‹_› (translate_memOk hm) :)

theorem holdAll_memOk {s : State} {core : Nat} {hs : List Nat} (hm : s.memOk = true) : (holdAll s core hs).memOk = true :=
  memOk_foldl _ (fun _ _ hu => by exact hu) _ _ hm

theorem releaseHolds_memOk {s : State} {core : Nat} {hs : List Nat} (hm : s.memOk = true) : (releaseHolds s core hs).memOk = true :=
  memOk_foldl _ (fun _ _ hu => releaseTile_memOk hu) _ _ hm

theorem matrixEnqueue_memOk {s : State} {core id : Nat} {i : MInfo} (hm : s.memOk = true) : (matrixEnqueue s core id i).memOk = true :=
  holdAll_memOk (memOk_foldl _ (fun _ _ hu => by exact hu) _ _ hm)

theorem matrixCmd_memOk {s : State} {x : Instr} {b0 b2 : W32} (hm : s.memOk = true) : Res.memOk (matrixCmd s x b0 b2) = true := by
  unfold matrixCmd
  dsimp only
  refine memOk_ite hm ?_
  split
  · exact hm
  · split
    · exact acceptStall_memOk hm
    · split
      · exact acceptFault_memOk (memOk_of_check ‹_› (matrixCheck_memOk hm) :)
      · exact acceptStall_memOk (memOk_of_check ‹_› (matrixCheck_memOk hm) :)
      · exact matrixEnqueue_memOk (accept_memOk (memOk_of_check ‹_› (matrixCheck_memOk hm) :))

theorem execMma_memOk {acc : BitVec 2} {z sb sa : Bool} {ty : BitVec 3} {b0 b1 b2 : BitVec 32} {s : State} (hm : s.memOk = true) :
    Res.memOk (execMma acc z sb sa ty b0 b1 b2 s) = true :=
  matrixCmd_memOk hm

theorem execMmag_memOk {acc : BitVec 2} {z sb scat : Bool} {ty : BitVec 3} {g sc : BitVec 4} {b0 b1 b2 : BitVec 32} {s : State}
    (hm : s.memOk = true) :
    Res.memOk (execMmag acc z sb scat ty g sc b0 b1 b2 s) = true :=
  matrixCmd_memOk hm

theorem execMmv_memOk {acc : BitVec 2} {z : Bool} {ty : BitVec 3} {b0 b1 b2 : BitVec 32} {s : State} (hm : s.memOk = true) :
    Res.memOk (execMmv acc z ty b0 b1 b2 s) = true :=
  matrixCmd_memOk hm

theorem execMcoop_memOk {acc : BitVec 2} {z : Bool} {ty : BitVec 3} {gr : Bool} {gc : BitVec 3} {b0 b1 b2 : BitVec 32} {s : State}
    (hm : s.memOk = true) :
    Res.memOk (execMcoop acc z ty gr gc b0 b1 b2 s) = true :=
  matrixCmd_memOk hm

theorem execAclr_memOk {acc : BitVec 2} {b0 : BitVec 32} {s : State} (hm : s.memOk = true) : Res.memOk (execAclr acc b0 s) = true :=
  matrixCmd_memOk hm

theorem execArd_memOk {acc : BitVec 2} {bar eoi clr tile : Bool} {b0 b1 : BitVec 32} {s : State} (hm : s.memOk = true) :
    Res.memOk (execArd acc bar eoi clr tile b0 b1 s) = true :=
  matrixCmd_memOk hm

theorem execAwr_memOk {acc : BitVec 2} {b0 b1 : BitVec 32} {s : State} (hm : s.memOk = true) : Res.memOk (execAwr acc b0 b1 s) = true :=
  matrixCmd_memOk hm

theorem slotInjected_memOk {s : State} {core key : Nat} {kind : BitVec 2} (hm : s.memOk = true) : (slotInjected s core key kind).memOk = true := by
  unfold slotInjected
  refine memOk_ite (State.count_memOk hm) ?_
  refine memOk_ite ?_ hm
  split <;> exact hm

theorem injectSlot_memOk {s : State} {core kind idx : Nat} {t : Token} (hm : s.memOk = true) :
    (injectSlot s core kind idx t).all State.memOk = true := by
  unfold injectSlot
  split
  · exact rfl
  · exact holds_ite (Option.all State.memOk) (slotInjected_memOk (emit_memOk hm)) rfl

theorem slotSink_memOk {s : State} {core cell j : Nat} (hm : s.memOk = true) : (slotSink s core cell j).memOk = true := by
  unfold slotSink
  refine memOk_ite ?_ hm
  split
  · exact memOk_ite (sinkMark_memOk hm) hm
  · exact hm

theorem matrixFault_memOk {s : State} {core id : Nat} {i : MInfo} {code : Byte} {detail : Nat} {tval : Word} (hm : s.memOk = true) :
    (matrixFault s core id i code detail tval).memOk = true :=
  memOk_ite (plotFault_memOk (releaseHolds_memOk hm)) (faultCommand_memOk (releaseHolds_memOk hm))

theorem readPieces_memOk {core : Nat} {ps : List (Nat × Nat)} {s : State} (hm : s.memOk = true) : (readPieces core ps s).1.memOk = true := by
  induction ps generalizing s with
  | nil => exact hm
  | cons p ps ih =>
    unfold readPieces
    extract_lets va
    split
    · exact memOk_of_snd ‹_› (translate_memOk hm)
    · exact memOk_of_snd ‹_› (translate_memOk hm)
    · have ht := memOk_of_snd ‹_› (translate_memOk hm)
      extract_lets a
      refine holds_ite (fun p : State × _ => p.1.memOk) ht ?_
      split
      · exact ht
      · have h1 := memOk_of_some ‹_› (crossRead_memOk ht)
        split
        have hu := memOk_of_fst ‹_› (homeEffect_memOk (memOk_ite (flushHost_memOk h1) h1))
        refine holds_ite (fun p : State × _ => p.1.memOk) hu ?_
        split <;> exact memOk_of_fst ‹_› (ih hu)

theorem sheafValues_memOk {rd : RowRead} {n k0 k1 : Nat} {tval : Nat → Word} {is : List Nat} {s : State}
    (hrd : ∀ u o n, u.memOk = true → (rd u o n).1.memOk = true) (hm : s.memOk = true) :
    (sheafValues rd n k0 k1 tval is s).1.memOk = true := by
  induction is generalizing s with
  | nil => exact hm
  | cons i is ih =>
    unfold sheafValues
    split
    · exact memOk_of_fst ‹_› (hrd _ _ _ hm)
    · have ht := memOk_of_fst ‹_› (hrd _ _ _ hm)
      refine holds_ite (fun p : State × _ => p.1.memOk) ht ?_
      extract_lets mine
      split <;> exact memOk_of_fst ‹_› (ih ht)

theorem rowOfTile_memOk {core h base o n : Nat} {s : State} (hm : s.memOk = true) : (rowOfTile core h base s o n).1.memOk = true := by
  unfold rowOfTile
  split <;> exact memOk_of_fst ‹_› (tileRead_memOk hm)

theorem chunkValues_memOk {ty k0 k1 : Nat} {rd : RowRead} {tval : Nat → Word} {s : State} (hrd : ∀ u o n, u.memOk = true → (rd u o n).1.memOk = true)
    (hm : s.memOk = true) :
    (chunkValues ty k0 k1 rd tval s).1.memOk = true := by
  unfold chunkValues
  refine holds_ite (fun p : State × _ => p.1.memOk) hm ?_
  refine holds_ite (fun p : State × _ => p.1.memOk) ?_ (sheafValues_memOk hrd hm)
  split <;> exact (memOk_of_fst ‹_› (hrd _ _ _ hm) :)

theorem manyRows_memOk {f : Nat → State → State × Except (Option OpFault) (List Fv)} {rows : List Nat} {s : State}
    (hf : ∀ r u, u.memOk = true → (f r u).1.memOk = true) (hm : s.memOk = true) :
    (manyRows f rows s).1.memOk = true := by
  induction rows generalizing s with
  | nil => exact hm
  | cons r rs ih =>
    unfold manyRows
    split
    · exact memOk_of_fst ‹_› (hf _ _ hm)
    · have ht := memOk_of_fst ‹_› (hf _ _ hm)
      split <;> exact memOk_of_fst ‹_› (ih ht)

theorem aValues_memOk {r : MRun} {i : MInfo} {off k0 k1 x : Nat} {s : State} (hm : s.memOk = true) : (aValues r i off k0 k1 x s).1.memOk = true := by
  refine holds_ite (fun p : State × _ => p.1.memOk) (chunkValues_memOk (fun _ _ _ hu => hu) hm) ?_
  split
  · exact hm
  · exact chunkValues_memOk (fun _ _ _ hu => rowOfTile_memOk hu) hm

theorem bValues_memOk {core : Nat} {r : MRun} {i : MInfo} {off k0 k1 y : Nat} {s : State} (hm : s.memOk = true) :
    (bValues core r i off k0 k1 y s).1.memOk = true :=
  holds_ite (fun p : State × _ => p.1.memOk) (chunkValues_memOk (fun _ _ _ hu => readPieces_memOk hu) hm)
    (holds_ite (fun p : State × _ => p.1.memOk) (chunkValues_memOk (fun _ _ _ hu => hu) hm)
      (chunkValues_memOk (fun _ _ _ hu => rowOfTile_memOk hu) hm))

theorem waveStep_memOk {s : State} {core : Nat} {r : MRun} {i : MInfo} (hm : s.memOk = true) : (waveStep s core r i).memOk = true := by
  unfold waveStep
  extract_lets d mmv k0 k1 fail
  split
  split
  · exact memOk_of_fst ‹_› (manyRows_memOk (fun _ _ hu => aValues_memOk hu) hm)
  · exact matrixFault_memOk (memOk_of_fst ‹_› (manyRows_memOk (fun _ _ hu => aValues_memOk hu) hm))
  · have ht := memOk_of_fst ‹_› (manyRows_memOk (fun _ _ hu => aValues_memOk hu) hm)
    extract_lets active todo cols
    split
    · exact memOk_of_fst ‹_› (manyRows_memOk (fun _ _ hu => bValues_memOk hu) ht)
    · exact matrixFault_memOk (memOk_of_fst ‹_› (manyRows_memOk (fun _ _ hu => bValues_memOk hu) ht))
    · have hu := memOk_of_fst ‹_› (manyRows_memOk (fun _ _ hu => bValues_memOk hu) ht)
      exact memOk_ite (matrixFault_memOk hu) (memOk_ite (State.count_memOk (modCore_memOk hu)) (State.count_memOk (State.count_memOk (modCore_memOk
          hu))))

theorem indexEntries_memOk {s : State} {core h e n : Nat} (hm : s.memOk = true) : (indexEntries s core h e n).1.memOk = true := by
  unfold indexEntries
  split <;> exact (memOk_of_fst ‹_› (tileRead_memOk hm) :)

theorem runRows_memOk {s : State} {core : Nat} {i : MInfo} (hm : s.memOk = true) : (runRows s core i).1.memOk = true := by
  unfold runRows
  dsimp only
  split
  · exact hm
  · split
    · exact (memOk_of_fst ‹_› (indexEntries_memOk hm))
    · split
      · exact (memOk_of_fst ‹_› (indexEntries_memOk hm))
      · split
        · exact (memOk_of_fst ‹_› (indexEntries_memOk hm))
        · split
          · exact (memOk_of_fst ‹_› (indexEntries_memOk (memOk_of_fst ‹_› (indexEntries_memOk hm))))
          · split <;> exact (memOk_of_fst ‹_› (indexEntries_memOk (memOk_of_fst ‹_› (indexEntries_memOk hm))))

theorem execMatrixStart_memOk {core : Nat} {s : State} (hm : s.memOk = true) : Res.memOk (execMatrixStart core s) = true := by
  unfold execMatrixStart
  split
  · exact hm
  · split
    · exact hm
    · extract_lets group t
      have ht : t.memOk = true := hm
      refine memOk_ite hm (memOk_ite (matrixFault_memOk ht) ?_)
      split
      · exact matrixFault_memOk (memOk_of_fst ‹_› (runRows_memOk ht))
      · exact memOk_foldl _ (fun _ _ hu => by exact hu) _ _ (memOk_of_fst ‹_› (runRows_memOk ht))

theorem takeToken_memOk {s : State} {core : Nat} {r : MRun} {i : MInfo} {kind : Nat} (hm : s.memOk = true) :
    (takeToken s core r i kind).memOk = true := by
  unfold takeToken
  split
  · exact hm
  · split
    · exact hm
    · exact memOk_ite (matrixFault_memOk hm) (memOk_ite hm hm)

theorem execMatrixWaveStep_memOk {core : Nat} {s : State} (hm : s.memOk = true) : Res.memOk (execMatrixWaveStep core s) = true := by
  unfold execMatrixWaveStep
  split
  · exact hm
  · split
    · exact hm
    · split
      · split
        · exact (memOk_of_some ‹_› (injectSlot_memOk hm) :)
        · exact hm
      · exact memOk_ite (takeToken_memOk hm) (memOk_ite (takeToken_memOk hm) (memOk_ite (waveStep_memOk hm) hm))

theorem awrRows_memOk {core : Nat} {r : MRun} {i : MInfo} {rows : List Nat} {a : State × Except OpFault (Tbl W32)} (ha : a.1.memOk = true) :
    (awrRows core r i rows a).1.memOk = true := by
  induction rows generalizing a with
  | nil => exact ha
  | cons x xs ih =>
    obtain ⟨s, w | w⟩ := a
    · exact ha
    · refine ih ?_
      split
      · exact memOk_of_fst ‹_› (tileRead_memOk ha)
      · exact memOk_of_fst ‹_› (tileRead_memOk ha)

theorem ardRows_memOk {core : Nat} {r : MRun} {i : MInfo} {rows : List Nat} {a : State × Option OpFault} (ha : a.1.memOk = true) :
    (ardRows core r i rows a).1.memOk = true := by
  induction rows generalizing a with
  | nil => exact ha
  | cons x xs ih =>
    obtain ⟨s, _ | f⟩ := a
    · refine ih ?_
      split
      · exact unmarkTile_memOk (memOk_of_fst ‹_› (tileWrite_memOk ha))
      · exact memOk_of_fst ‹_› (tileWrite_memOk ha)
    · exact ha

theorem commitTile_memOk {s : State} {core : Nat} {r : MRun} {i : MInfo} (hm : s.memOk = true) : (commitTile s core r i).1.memOk = true := by
  unfold commitTile
  split
  · exact awrRows_memOk (by exact hm)
  · refine holds_ite (fun p : State × _ => p.1.memOk) ?_ hm
    split
    · exact memOk_of_fst ‹_› (ardRows_memOk (by exact hm))
    · exact memOk_of_fst ‹_› (ardRows_memOk (by exact hm))
  · exact hm

theorem execMatrixCommit_memOk {core : Nat} {s : State} (hm : s.memOk = true) : Res.memOk (execMatrixCommit core s) = true := by
  unfold execMatrixCommit
  split
  · exact hm
  · split
    · exact hm
    · refine memOk_ite hm ?_
      split
      · exact matrixFault_memOk (memOk_of_fst ‹_› (commitTile_memOk hm) :)
      · exact releaseHolds_memOk (memOk_foldl _ (fun _ _ hu => by exact hu) _ _ (memOk_of_fst ‹_› (commitTile_memOk hm) :))

/-! ### Machine, Copy -/

theorem checkVas_memOk {core : Nat} {xs : List (Word × Bool)} {s : State} (hm : s.memOk = true) : MCheck.memOk (checkVas core xs s) = true := by
  induction xs generalizing s with
  | nil => exact hm
  | cons x xs ih =>
    unfold checkVas
    split
    · exact memOk_of_snd ‹_› (translate_memOk hm)
    · exact memOk_of_snd ‹_› (translate_memOk hm)
    · exact ih (memOk_of_snd ‹_› (translate_memOk hm))

theorem copyCheck_memOk {s : State} {core : Nat} {i : CInfo} {desc : List Byte} (hm : s.memOk = true) :
    MCheck.memOk (copyCheck s core i desc) = true := by
  refine holds_ite MCheck.memOk hm (holds_ite MCheck.memOk hm ?_)
  split
  · exact hm
  · split
    · exact hm
    · split
      · exact hm
      · refine holds_ite MCheck.memOk ?_ (checkVas_memOk hm)
        have hvas := checkVas_memOk (core := core) (xs := (copyVas i desc).dropLast) hm
        split
        · next t e => exact (memOk_of_check e hvas : (MCheck.ok t).memOk = true)
        · exact hvas

theorem readIndex_memOk {s : State} {core : Nat} {i : CInfo} {desc : List Byte} (hm : s.memOk = true) : (readIndex s core i desc).1.memOk = true := by
  unfold readIndex
  dsimp only
  refine holds_ite (fun p : State × _ => p.1.memOk) hm ?_
  refine holds_ite (fun p : State × _ => p.1.memOk) hm ?_
  split
  · exact (memOk_of_fst ‹_› (tileRead_memOk hm) :)
  · split <;> exact (memOk_of_fst ‹_› (tileRead_memOk hm) :)

theorem issueReads_memOk {s : State} {e core id : Nat} {rs : List (Word × Nat)} (hm : s.memOk = true) : (issueReads s e core id rs).memOk = true := by
  refine memOk_foldl _ (fun _ _ hu => ?_) _ _ hm
  split
  · exact hu
  · exact issueAccess_memOk hu

theorem gatherWord_memOk {core : Nat} {g : CopyEng} {i : CInfo} {desc : List Byte} {p q : Nat} {got : List Byte} {s : State} (hm : s.memOk = true) :
    (gatherWord core g i desc p q got s).1.memOk = true := by
  unfold gatherWord
  split
  · exact hm
  · exact hm
  · exact tileRead_memOk hm
  · exact hm

theorem gather_memOk {core : Nat} {g : CopyEng} {i : CInfo} {desc : List Byte} {p n q : Nat} {got : List Byte} {s : State} (hm : s.memOk = true) :
    (gather core g i desc p n q got s).1.memOk = true := by
  induction n generalizing q got s with
  | zero => exact hm
  | succ n ih =>
    have ht := gatherWord_memOk (core := core) (g := g) (i := i) (desc := desc) (p := p) (q := q) (got := got) hm
    exact holds_ite (fun p : State × _ => p.1.memOk) ht (ih ht)

theorem crossTile_memOk {s : State} {e core n : Nat} {write trail : Bool} (hm : s.memOk = true) :
    (crossTile s e core n write trail).all State.memOk = true :=
  foldl_holds (Option.all State.memOk) (fun _ _ hacc => all_bind hacc fun _ ht =>
    holds_ite (Option.all State.memOk) (crossWrite_memOk ht) (crossRead_memOk ht)) _ hm

theorem putTile_memOk {s : State} {core : Nat} {g : CopyEng} {i : CInfo} {desc : List Byte} {p : Nat} {bs : List Byte} {fs : List (Nat × Nat)}
    (hm : s.memOk = true) :
    (putTile s core g i desc p bs fs).1.memOk = true := by
  refine foldl_holds (fun r : State × Bool => r.1.memOk) (fun r _ hr => ?_) _ hm
  split
  · exact unmarkTile_memOk (tileWrite_memOk hr)
  · exact hr

theorem putBytes_memOk {s : State} {e core : Nat} {c : Cmd} {i : CInfo} {n : Nat} (hm : s.memOk = true) : (putBytes s e core c i n).memOk = true := by
  unfold putBytes
  dsimp only
  split
  · split
    · exact hm
    · exact State.count_memOk (issueAccess_memOk hm)
  · split
    · exact hm
    · exact memOk_ite (State.count_memOk (putTile_memOk (memOk_of_some ‹_› (crossTile_memOk hm) :))) hm
  · split
    · exact (memOk_of_some ‹_› (injectSlot_memOk hm) :)
    · exact hm
  · exact hm

theorem writePiece_memOk {s : State} {e core : Nat} {c : Cmd} {i : CInfo} {n : Nat} (hm : s.memOk = true) :
    (writePiece s e core c i n).memOk = true :=
  memOk_ite (putBytes_memOk hm) hm

theorem takeStream_memOk {s : State} {e core : Nat} {c : Cmd} {i : CInfo} (hm : s.memOk = true) : (takeStream s e core c i).memOk = true := by
  unfold takeStream
  split
  · exact hm
  · split
    · exact memOk_ite hm hm
    · exact hm

theorem handBytes_memOk {s : State} {e core : Nat} {c : Cmd} {i : CInfo} {bs : List Byte} (hm : s.memOk = true) :
    (handBytes s e core c i bs).memOk = true :=
  memOk_ite hm (memOk_ite (writePiece_memOk hm) hm)

theorem takePiece_memOk {s : State} {e core : Nat} {c : Cmd} {i : CInfo} (hm : s.memOk = true) : (takePiece s e core c i).memOk = true := by
  unfold takePiece
  extract_lets g q rest k
  refine memOk_ite hm (memOk_ite (issueReads_memOk hm) ?_)
  split
  · exact hm
  · have ht := memOk_of_some ‹_› (holds_ite (Option.all State.memOk) (crossTile_memOk hm) (by exact hm))
    exact handBytes_memOk (gather_memOk ht)

theorem takeReads_memOk {s : State} {e core : Nat} {c : Cmd} {i : CInfo} (hm : s.memOk = true) : (takeReads s e core c i).memOk = true := by
  unfold takeReads
  refine memOk_ite hm ?_
  split
  · exact gather_memOk hm
  · exact handBytes_memOk (gather_memOk hm)

theorem movePiece_memOk {s : State} {e core : Nat} {c : Cmd} {i : CInfo} (hm : s.memOk = true) : (movePiece s e core c i).memOk = true :=
  memOk_ite (writePiece_memOk hm) (memOk_ite (writePiece_memOk hm) (memOk_ite (takeReads_memOk hm) (memOk_ite (takeStream_memOk hm) (takePiece_memOk
      hm))))

theorem afterBytes_memOk {s : State} {e core : Nat} {c : Cmd} {i : CInfo} (hm : s.memOk = true) : (afterBytes s e core c i).memOk = true := by
  unfold afterBytes
  refine memOk_ite hm ?_
  refine memOk_ite ?_ ?_
  · split
    · exact hm
    · exact memOk_ite hm (issueAccess_memOk hm)
  · refine memOk_ite ?_ hm
    split
    · exact (memOk_of_some ‹_› (injectSlot_memOk hm) :)
    · exact hm

theorem copyWork_memOk {s : State} (hm : s.memOk = true) : (copyWork s).memOk = true := by
  unfold copyWork
  extract_lets core
  split
  · extract_lets g
    refine memOk_ite (memOk_ite hm hm) (memOk_ite hm (memOk_ite ?_ (memOk_ite (movePiece_memOk hm) (afterBytes_memOk hm))))
    split
    · have ht := memOk_of_fst ‹_› (readIndex_memOk hm)
      extract_lets needs
      refine memOk_ite ?_ (memOk_ite hm hm)
      split
      · exact hm
      · have hu := memOk_of_some ‹_› (holds_ite (Option.all State.memOk) (crossTile_memOk ht) (by exact ht))
        exact hu
    · exact hm
  · exact hm

theorem copyCmd_memOk {s : State} {x : Instr} (hm : s.memOk = true) : Res.memOk (copyCmd s x) = true := by
  unfold copyCmd
  dsimp only
  refine memOk_ite (copyWork_memOk hm) ?_
  split
  · exact hm
  · split
    · refine memOk_ite ?_ (acceptStall_memOk hm)
      split
      · exact acceptFault_memOk (memOk_of_check ‹_› (copyCheck_memOk hm) :)
      · exact acceptFault_memOk hm
    · split
      · exact acceptFault_memOk (memOk_of_check ‹_› (copyCheck_memOk hm) :)
      · exact acceptStall_memOk (memOk_of_check ‹_› (copyCheck_memOk hm) :)
      · exact sendCommands_memOk (holdAll_memOk (accept_memOk (memOk_of_check ‹_› (copyCheck_memOk hm) :)))

theorem execCpy_memOk {sk dk : BitVec 2} {eoi adv : Bool} {eng : BitVec 4} {sidx : BitVec 2} {b0 b1 : BitVec 32} {s : State} (hm : s.memOk = true) :
    Res.memOk (execCpy sk dk eoi adv eng sidx b0 b1 s) = true :=
  copyCmd_memOk hm

theorem execCpyx_memOk {sk dk : BitVec 2} {eoi adv : Bool} {eng : BitVec 4} {sidx : BitVec 2} {b0 b1 : BitVec 32} {s : State} (hm : s.memOk = true) :
    Res.memOk (execCpyx sk dk eoi adv eng sidx b0 b1 s) = true :=
  copyCmd_memOk hm

theorem execCpyf_memOk {sk : BitVec 2} {fb : Bool} {eng : BitVec 4} {sidx : BitVec 2} {b0 b1 b2 : BitVec 32} {s : State} (hm : s.memOk = true) :
    Res.memOk (execCpyf sk fb eng sidx b0 b1 b2 s) = true :=
  copyCmd_memOk hm

theorem execCsig_memOk {sk dk : BitVec 2} {sys : Bool} {eng : BitVec 4} {sidx : BitVec 2} {b0 b1 b2 : BitVec 32} {s : State} (hm : s.memOk = true) :
    Res.memOk (execCsig sk dk sys eng sidx b0 b1 b2 s) = true :=
  copyCmd_memOk hm

theorem advanceRings_memOk {s : State} {e core : Nat} {c : Cmd} {i : CInfo} (hm : s.memOk = true) : (advanceRings s e core c i).memOk = true :=
  memOk_ite (memOk_ite hm hm) (memOk_ite hm hm)

theorem handOver_memOk {s : State} {e core : Nat} {c : Cmd} {i : CInfo} (hm : s.memOk = true) : (handOver s e core c i).memOk = true := by
  unfold handOver
  dsimp only
  split
  · exact hm
  · split
    · exact hm
    · refine memOk_ite hm ?_
      split
      · exact (memOk_of_check ‹_› (matrixCheck_memOk hm) :)
      · exact faultCommand_memOk (releaseHolds_memOk (State.count_memOk (memOk_of_check ‹_› (matrixCheck_memOk hm) :)))
      · exact releaseHolds_memOk (matrixEnqueue_memOk (State.count_memOk (memOk_of_check ‹_› (matrixCheck_memOk hm) :)))

theorem execCopyComplete_memOk {eng : Nat} {s : State} (hm : s.memOk = true) : Res.memOk (execCopyComplete eng s) = true := by
  unfold execCopyComplete
  split
  · exact hm
  · exact memOk_ite hm (memOk_ite (handOver_memOk hm) (completeFrom_memOk (releaseHolds_memOk (State.count_memOk (advanceRings_memOk hm)))))

theorem execCopyExecutionFault_memOk {eng : Nat} {s : State} (hm : s.memOk = true) : Res.memOk (execCopyExecutionFault eng s) = true := by
  unfold execCopyExecutionFault
  split
  · exact hm
  · split
    · exact hm
    · exact memOk_ite (plotFault_memOk (releaseHolds_memOk hm)) (faultCommand_memOk (releaseHolds_memOk hm))

/-! ### Machine, Key -/

theorem readWords_memOk {s : State} {core h o n : Nat} (hm : s.memOk = true) : (readWords s core h o n).1.memOk = true := by
  unfold readWords
  split <;> exact (memOk_of_fst ‹_› (tileRead_memOk hm))

theorem slotWords_memOk {s : State} {core : Nat} {i : KInfo} {desc : List Byte} {j : Nat} (hm : s.memOk = true) :
    (slotWords s core i desc j).1.memOk = true := by
  unfold slotWords
  split
  · exact hm
  · split
    · exact hm
    · exact readWords_memOk hm

theorem manySlots_memOk {core : Nat} {i : KInfo} {desc : List Byte} {js : List Nat} {s : State} (hm : s.memOk = true) :
    (manySlots core i desc js s).1.memOk = true := by
  induction js generalizing s with
  | nil => exact hm
  | cons j js ih =>
    unfold manySlots
    split
    · exact memOk_of_fst ‹_› (slotWords_memOk hm)
    · have ht := memOk_of_fst ‹_› (slotWords_memOk hm)
      split <;> exact memOk_of_fst ‹_› (ih ht)

theorem writeOut_memOk {core : Nat} {ws : List KWrite} {s : State} (hm : s.memOk = true) : (writeOut core ws s).1.memOk = true := by
  induction ws generalizing s with
  | nil => exact hm
  | cons w ws ih =>
    unfold writeOut
    extract_lets bs
    split
    · exact memOk_of_fst ‹_› (tileWrite_memOk hm)
    · exact ih (unmarkTile_memOk (memOk_of_fst ‹_› (tileWrite_memOk hm)))

theorem keyEffect_memOk {s : State} {core : Nat} {i : KInfo} {desc : List Byte} (hm : s.memOk = true) : (keyEffect s core i desc).1.memOk = true := by
  unfold keyEffect
  extract_lets ref at_ lift
  have hlift (js : List Nat) (f : List (List W32) → Except (Byte × Word) (List W32 × List KWrite × W32)) :
      (lift (manySlots core i desc js s) f).1.memOk = true := by
    unfold lift
    split <;> exact memOk_of_fst ‹_› (manySlots_memOk hm)
  split
  · exact hlift _ _
  · exact hlift _ _
  · exact hlift _ _
  · exact hlift _ _
  · exact hlift _ _
  · split
    · exact memOk_of_fst ‹_› (manySlots_memOk hm)
    · have ht := memOk_of_fst ‹_› (manySlots_memOk hm)
      extract_lets idx w room
      split
      · exact ht
      · split
        next u ws e =>
        have hu : u.memOk = true := by
          refine memOk_of_fst e (foldl_holds (fun r : State × Except (Byte × Word) (List KWrite) => r.1.memOk) (fun r x hr => ?_) _ (by exact ht))
          split
          · exact hr
          · split
            · exact hr
            · split <;> exact memOk_of_fst ‹_› (readWords_memOk hr)
        split <;> exact hu

theorem keyFault_memOk {s : State} {core : Nat} {c : Cmd} {i : KInfo} (hm : s.memOk = true) :
    (keyFault s core c i).all (fun p => p.1.memOk) = true := by
  unfold keyFault
  dsimp only
  split
  · exact hm
  · split
    · exact rfl
    · split
      · split
        · exact rfl
        · split
          · exact hm
          · exact rfl
      · split
        · exact (memOk_of_fst ‹_› (keyEffect_memOk hm))
        · split
          · exact (memOk_of_fst ‹_› (writeOut_memOk (memOk_of_fst ‹_› (keyEffect_memOk hm))))
          · exact rfl

theorem keyWork_memOk {s : State} (hm : s.memOk = true) : (keyWork s).memOk = true := by
  unfold keyWork
  dsimp only
  split
  · refine memOk_ite hm ?_
    refine memOk_ite (memOk_ite hm hm) ?_
    refine memOk_ite hm ?_
    refine memOk_ite ?_ ?_
    · split
      · exact hm
      · split
        · exact (memOk_of_some ‹_› (injectSlot_memOk hm) :)
        · exact hm
    · refine memOk_ite ?_ ?_
      · split
        · exact hm
        · split
          · exact memOk_ite hm hm
          · exact hm
      · split
        · exact hm
        · exact writeOut_memOk (memOk_of_fst ‹_› (keyEffect_memOk hm) :)
  · exact hm

theorem keyCmd_memOk {s : State} {x : Instr} (hm : s.memOk = true) : Res.memOk (keyCmd s x) = true := by
  unfold keyCmd
  dsimp only
  refine memOk_ite (keyWork_memOk hm) ?_
  split
  · exact hm
  · refine memOk_ite (acceptStall_memOk hm) ?_
    split
    · exact acceptFault_memOk hm
    · exact holdAll_memOk (accept_memOk hm)

theorem execKtopk_memOk {si so : Bool} {kt : BitVec 2} {b0 b1 b2 : BitVec 32} {s : State} (hm : s.memOk = true) :
    Res.memOk (execKtopk si so kt b0 b1 b2 s) = true :=
  keyCmd_memOk hm

theorem execKsort_memOk {si so desc : Bool} {kt : BitVec 2} {b0 b1 b2 : BitVec 32} {s : State} (hm : s.memOk = true) :
    Res.memOk (execKsort si so desc kt b0 b1 b2 s) = true :=
  keyCmd_memOk hm

theorem execKhist_memOk {si so acc : Bool} {b0 b1 b2 : BitVec 32} {s : State} (hm : s.memOk = true) :
    Res.memOk (execKhist si so acc b0 b1 b2 s) = true :=
  keyCmd_memOk hm

theorem execKscan_memOk {si so excl : Bool} {kt : BitVec 2} {b0 b1 b2 : BitVec 32} {s : State} (hm : s.memOk = true) :
    Res.memOk (execKscan si so excl kt b0 b1 b2 s) = true :=
  keyCmd_memOk hm

theorem execKmerge_memOk {fn : BitVec 2} {keepz : Bool} {kt : BitVec 2} {b0 b1 b2 : BitVec 32} {s : State} (hm : s.memOk = true) :
    Res.memOk (execKmerge fn keepz kt b0 b1 b2 s) = true :=
  keyCmd_memOk hm

theorem execKpermG_memOk {b0 b1 b2 : BitVec 32} {s : State} (hm : s.memOk = true) : Res.memOk (execKpermG b0 b1 b2 s) = true := keyCmd_memOk hm

theorem execKpermS_memOk {b0 b1 b2 : BitVec 32} {s : State} (hm : s.memOk = true) : Res.memOk (execKpermS b0 b1 b2 s) = true := keyCmd_memOk hm

theorem execKeyCommandComplete_memOk {core : Nat} {s : State} (hm : s.memOk = true) : Res.memOk (execKeyCommandComplete core s) = true := by
  unfold execKeyCommandComplete
  dsimp only
  split
  · exact hm
  · split
    · exact hm
    · exact memOk_ite (releaseHolds_memOk hm) hm

theorem execKeyExecutionFault_memOk {core : Nat} {s : State} (hm : s.memOk = true) : Res.memOk (execKeyExecutionFault core s) = true := by
  unfold execKeyExecutionFault
  dsimp only
  split
  · exact hm
  · split
    · exact hm
    · refine memOk_ite hm ?_
      split
      · exact hm
      · exact memOk_ite (plotFault_memOk (releaseHolds_memOk (memOk_of_some_fst ‹_› (keyFault_memOk hm) :))) (faultCommand_memOk (releaseHolds_memOk
          (memOk_of_some_fst ‹_› (keyFault_memOk hm) :)))

/-! ### Machine, Collective -/

theorem finishAll_memOk {s : State} {ms : List Member} {code : Byte} {result : W32} (hm : s.memOk = true) :
    (finishAll s ms code result).memOk = true :=
  memOk_foldl _ (fun _ _ hu => memOk_foldl _ (fun _ _ hv => completeFrom_memOk hv) _ _ hu) _ _ hm

theorem register_memOk {s : State} {core id plot : Nat} {devs : Bool} {g p rank : Nat} (hm : s.memOk = true) :
    (register s core id plot devs g p rank).memOk = true :=
  memOk_ite (completeFrom_memOk hm) (memOk_ite (finishAll_memOk hm) hm)

theorem finishFreed_memOk {s : State} {ms : List Member} (hm : s.memOk = true) : (finishFreed s ms).memOk = true := by
  refine memOk_foldl _ (fun u m hu => ?_) _ _ hm
  have hfold := memOk_foldl (fun u id => completeFrom u m.core id cCAUSALGAP 0) (fun _ _ hv => completeFrom_memOk hv) m.pending u hu
  split
  · exact hfold
  · exact completeFrom_memOk hfold

theorem freeGroup_memOk {s : State} {core id plot g : Nat} (hm : s.memOk = true) : (freeGroup s core id plot g).memOk = true := by
  unfold freeGroup
  dsimp only
  split
  · exact completeFrom_memOk hm
  · exact memOk_ite hm (memOk_ite (finishFreed_memOk hm) hm)

theorem cgrpCmd_memOk {s : State} {devs free : Bool} {g : BitVec 6} {p rank : W32} (hm : s.memOk = true) :
    Res.memOk (cgrpCmd s devs free g p rank) = true := by
  unfold cgrpCmd
  refine memOk_ite (memOk_ite (acceptFault_memOk hm) (memOk_ite (acceptFault_memOk hm) (memOk_ite (acceptFault_memOk hm) (sendCommands_memOk
      (accept_memOk hm))))) ?_
  split
  · exact memOk_ite hm (memOk_ite (freeGroup_memOk hm) (register_memOk hm))
  · exact hm

theorem execCgrp_memOk {devs : Bool} {g : BitVec 6} {p rank : BitVec 32} {s : State} (hm : s.memOk = true) :
    Res.memOk (execCgrp devs g p rank s) = true :=
  cgrpCmd_memOk hm

theorem execCgrpFree_memOk {devs : Bool} {g : BitVec 6} {p rank : BitVec 32} {s : State} (hm : s.memOk = true) :
    Res.memOk (execCgrpFree devs g p rank s) = true :=
  cgrpCmd_memOk hm

theorem collectiveCmd_memOk {s : State} {x : Instr} (hm : s.memOk = true) : Res.memOk (collectiveCmd s x) = true := by
  unfold collectiveCmd
  dsimp only
  refine memOk_ite hm ?_
  split
  · exact hm
  · split
    · exact acceptFault_memOk hm
    · exact sendCommands_memOk (accept_memOk hm)

theorem execA2av_memOk {esz : BitVec 2} {g : BitVec 6} {ldesc : BitVec 32} {s : State} (hm : s.memOk = true) :
    Res.memOk (execA2av esz g ldesc s) = true :=
  collectiveCmd_memOk hm

theorem execAgth_memOk {esz : BitVec 2} {g : BitVec 6} {ldesc count : BitVec 32} {s : State} (hm : s.memOk = true) :
    Res.memOk (execAgth esz g ldesc count s) = true :=
  collectiveCmd_memOk hm

theorem execRsct_memOk {kt op : BitVec 2} {g : BitVec 6} {ldesc count : BitVec 32} {s : State} (hm : s.memOk = true) :
    Res.memOk (execRsct kt op g ldesc count s) = true :=
  collectiveCmd_memOk hm

theorem execAred_memOk {kt op : BitVec 2} {g : BitVec 6} {ldesc count : BitVec 32} {s : State} (hm : s.memOk = true) :
    Res.memOk (execAred kt op g ldesc count s) = true :=
  collectiveCmd_memOk hm

theorem sendTransfer_memOk {s : State} {eng : Nat} {rcv : Party} {snd : Nat} {va : Word} {bs : List Byte} (hm : s.memOk = true) :
    (sendTransfer s eng rcv snd va bs).1.memOk = true := by
  refine foldl_holds (fun r : State × Byte => r.1.memOk) (fun r x hr => ?_) _ (by exact hm)
  refine holds_ite (fun r : State × Byte => r.1.memOk) hr ?_
  dsimp only
  split
  · exact hr
  · split
    · exact hr
    · exact issueAccess_memOk hr

theorem doTransfer_memOk {ps : List Party} {s : State} {t : Transfer} (hm : s.memOk = true) : (doTransfer ps s t).memOk = true := by
  unfold doTransfer
  split
  · extract_lets eng
    split
    · exact hm
    · split
      have hu := memOk_of_fst ‹_› (sendTransfer_memOk hm)
      exact memOk_ite hu (State.count_memOk (State.count_memOk hu))
  · exact hm

theorem meetTraffic_memOk {s : State} {ps : List Party} (hm : s.memOk = true) : (meetTraffic s ps).all State.memOk = true := by
  refine foldl_holds (Option.all State.memOk) (fun _ _ hacc => all_bind hacc fun _ ht => all_map (crossVa_memOk ht) fun _ hu => touchVa_memOk hu) _ ?_
  exact holds_ite (Option.all State.memOk) hm (all_bind (cross_memOk hm) fun _ ht => cross_memOk ht)

theorem execCollectiveRendezvous_memOk {g : Nat} {s : State} (hm : s.memOk = true) : Res.memOk (execCollectiveRendezvous g s) = true := by
  unfold execCollectiveRendezvous
  dsimp only [Res.memOk]
  split
  · exact hm
  · have hdone := memOk_foldl (fun t (q : Party) => completeFrom t q.core q.cmd.id cFORMAT 0) (fun _ _ hu => completeFrom_memOk hu)
      (parties s (s.group g)) _ hm
    refine memOk_ite hm (memOk_ite hdone (memOk_ite hm ?_))
    split
    · exact hm
    · have hu := memOk_of_some ‹_› (meetTraffic_memOk hm)
      exact memOk_foldl _ (fun _ _ hv => doTransfer_memOk hv) _ _ (memOk_foldl _ (fun _ _ hv => by exact hv) _ _ (by exact hu))

theorem execCollectiveComplete_memOk {g rank : Nat} {s0 : State} (hms0 : s0.memOk = true) : Res.memOk (execCollectiveComplete g rank s0) = true := by
  unfold execCollectiveComplete
  dsimp only
  split
  · exact hms0
  · exact memOk_ite hms0 (memOk_ite (stampReady_memOk hms0) (memOk_ite (memOk_ite (completeFrom_memOk hms0) (completeFrom_memOk hms0)) (memOk_ite
      (completeFrom_memOk hms0) (completeFrom_memOk hms0))))

/-! ### Machine, Routing -/

theorem execSteer_memOk {n : NodeFields} {s : State} (hm : s.memOk = true) : Res.memOk (execSteer n s) = true := by
  refine inStep_memOk hm (fun _ _ hu => forward_memOk hu) (fun u hu => ?_)
  have htake (ps : List Nat) : (consume u ps).memOk = true := consume_memOk hu
  split
  · exact hu
  · exact memOk_ite (emitAB_memOk (htake _)) (memOk_ite (emitAB_memOk (htake _)) (emitAB_memOk (htake _)))

theorem execMerge_memOk {n : NodeFields} {s : State} (hm : s.memOk = true) : Res.memOk (execMerge n s) = true := by
  unfold execMerge
  dsimp only
  refine memOk_ite hm ?_
  refine memOk_ite (formatFault_memOk hm) ?_
  split
  · exact hm
  · refine memOk_ite ?_ ?_
    · split
      · exact hm
      · exact memOk_ite (formatFault_memOk hm) (memOk_ite hm (emitAB_memOk (consume_memOk hm)))
    · split
      · exact memOk_ite (formatFault_memOk hm) (memOk_ite hm (fireAll_memOk hm))
      · exact hm

theorem execCarry_memOk {n : NodeFields} {s : State} (hm : s.memOk = true) : Res.memOk (execCarry n s) = true := by
  have hbad : (formatFault s n).memOk = true := formatFault_memOk hm
  have htake (ps : List Nat) (f : NodeState → NodeState) : (modNode (consume s ps) f).memOk = true := modNode_memOk (consume_memOk hm)
  have hsend (ps : List Nat) (a b : Option Token) : (emitAB (consume s ps) n a b).memOk = true := emitAB_memOk (consume_memOk hm)
  have hnode (ps : List Nat) (a b : Option Token) (f : NodeState → NodeState) : (modNode (emitAB (consume s ps) n a b) f).memOk = true :=
    modNode_memOk (hsend ps a b)
  unfold execCarry
  refine memOk_ite hm ?_
  split
  · split
    · exact hm
    · exact memOk_ite hbad (memOk_ite (memOk_ite (hnode _ _ _ _) hm) (memOk_ite (hnode _ _ _ _) hm))
  · split
    · exact memOk_ite hbad hm
    · refine memOk_ite hbad ?_
      split
      · exact hm
      · exact memOk_ite hbad (memOk_ite (memOk_ite (hsend _ _ _) hm) (memOk_ite (hnode _ _ _ _) hm))
  · exact memOk_ite hbad (memOk_ite hm (memOk_ite (htake _ _) hm))
  · exact memOk_ite hbad (memOk_ite hm (memOk_ite (htake _ _) hm))

theorem execGate_memOk {n : NodeFields} {s : State} (hm : s.memOk = true) : Res.memOk (execGate n s) = true := by
  refine inStep_memOk hm (fun _ _ hu => forward_memOk hu) (fun u hu => ?_)
  split
  · exact hu
  · exact memOk_ite (memOk_ite (fireAll_memOk hu) (consume_memOk hu)) (fireAll_memOk hu)

theorem execJoin_memOk {n : NodeFields} {s : State} (hm : s.memOk = true) : Res.memOk (execJoin n s) = true := by
  unfold execJoin
  refine memOk_ite hm ?_
  refine memOk_ite (formatFault_memOk hm) ?_
  refine memOk_ite ?_ ?_
  · split
    · exact memOk_ite (formatFault_memOk hm) (memOk_ite (forward_memOk hm) hm)
    · exact hm
  · refine memOk_ite hm ?_
    split
    · exact memOk_ite (emitAB_memOk (consume_memOk hm)) (consume_memOk hm)
    · exact consume_memOk hm

theorem execSink_memOk {n : NodeFields} {s : State} (hm : s.memOk = true) : Res.memOk (execSink n s) = true :=
  inStep_memOk hm (fun _ _ hu => sinkMark_memOk (consume_memOk hu)) (fun _ hu => consume_memOk hu)

theorem execCount_memOk {n : NodeFields} {s : State} (hm : s.memOk = true) : Res.memOk (execCount n s) = true := by
  unfold execCount
  refine inStep_memOk hm (fun _ _ hu => memOk_ite (memOk_ite (emitAB_memOk hu) (forward_memOk hu)) (forward_memOk hu)) (fun u hu => ?_)
  split
  · exact hu
  · exact memOk_ite (consume_memOk hu) (emitAB_memOk (consume_memOk hu))

theorem execCmpr_memOk {n : NodeFields} {s : State} (hm : s.memOk = true) : Res.memOk (execCmpr n s) = true := by
  unfold execCmpr
  refine memOk_ite hm ?_
  split
  · exact memOk_ite (raiseNode_memOk hm) (memOk_ite (fireAll_memOk hm) hm)
  · exact memOk_ite (raiseNode_memOk hm) hm
  · exact memOk_ite (raiseNode_memOk hm) hm
  · exact hm

theorem execCsum_memOk {n : NodeFields} {s : State} (hm : s.memOk = true) : Res.memOk (execCsum n s) = true := by
  unfold execCsum
  refine inStep_memOk hm (fun _ _ hu => memOk_ite (memOk_ite (emitAB_memOk hu) (forward_memOk hu)) (forward_memOk hu)) (fun u hu => ?_)
  split
  · exact hu
  · exact emitAB_memOk (consume_memOk hu)

theorem traceRecord_memOk {s : State} {q : Plot} {t : Token} {tag num : Nat} (hm : s.memOk = true) : (traceRecord s q t tag num).memOk = true :=
  modPlot_memOk (writeHash_memOk _ _ hm)

theorem execTrace_memOk {n : NodeFields} {s : State} (hm : s.memOk = true) : Res.memOk (execTrace n s) = true := by
  unfold execTrace
  extract_lets tag rec
  have hrec (l : Token) (u : State) (hu : u.memOk = true) : (rec l u).memOk = true := by
    unfold rec
    split
    · exact hu
    · exact memOk_ite hu (traceRecord_memOk hu)
  refine inStep_memOk hm (fun _ _ hu => memOk_ite (forward_memOk (hrec _ _ hu)) (forward_memOk (hrec _ _ hu))) (fun u hu => ?_)
  split
  · exact hu
  · exact fireAll_memOk (hrec _ _ hu)

theorem execBaySwitch_memOk {plot : Nat} {s : State} (hm : s.memOk = true) : Res.memOk (execBaySwitch plot s) = true := by
  unfold execBaySwitch
  split
  · exact hm
  · split
    · exact hm
    · extract_lets s1 s2
      have h1 : s1.memOk = true := memOk_foldl _ (fun _ _ hu => by exact hu) _ _ hm
      have h2 : s2.memOk = true := by
        unfold s2
        split
        · exact h1
        · exact memOk_foldl _ (fun _ _ hu => memOk_ite (by exact hu) (memOk_ite hu (by exact hu))) _ _ h1
      exact memOk_ite hm h2

theorem execBreakpointEnable_memOk {core : Nat} {n : BitVec 3} {v : Word} {s : State} (hm : s.memOk = true) :
    Res.memOk (execBreakpointEnable core n v s) = true := by
  unfold execBreakpointEnable
  split <;> exact hm

theorem execBreakpointHitClear_memOk {core : Nat} {n : BitVec 3} {s : State} (hm : s.memOk = true) :
    Res.memOk (execBreakpointHitClear core n s) = true := by
  unfold execBreakpointHitClear
  split <;> exact hm

/-! ### Machine, Plans -/

theorem allocDecl_memOk {img : List Byte} {cores : List Nat} {s : State} {d : Nat × Nat} (hm : s.memOk = true) :
    okAll State.memOk (allocDecl img cores s d) = true :=
  allocTile_memOk hm

theorem allocDecls_memOk {img : List Byte} {cores : List Nat} {s : State} {ds : List (Nat × Nat)} (hm : s.memOk = true) :
    okAll State.memOk (allocDecls img cores s ds) = true := by
  induction ds generalizing s with
  | nil => exact hm
  | cons d r ih =>
    unfold allocDecls
    split
    · rfl
    · exact ih (memOk_of_ok ‹_› (allocDecl_memOk hm))

theorem imageTraffic_memOk {s : State} {die : Nat} {root image : Word} (hm : s.memOk = true) :
    (imageTraffic s die root image).all State.memOk = true :=
  all_map (crossVa_memOk hm) fun _ ht => touchVa_memOk ht

theorem reserveAt_memOk {s : State} {q : Plot} {o : Nat × Nat × Nat} {accept : State → State} (hm : s.memOk = true)
    (haccept : ∀ a0, a0.memOk = true → (accept a0).memOk = true) :
    (reserveAt s q o accept).memOk = true := by
  unfold reserveAt
  refine memOk_ite hm ?_
  split
  · exact hm
  · exact memOk_ite (haccept _ (memOk_of_some ‹_› (all_bind (walkerSend_memOk hm) fun _ ht => walkerSend_memOk ht) :)) (memOk_of_some ‹_› (all_bind
      (walkerSend_memOk hm) fun _ ht => walkerSend_memOk ht) :)

theorem settleLaunch_memOk {s : State} {node : Word} (hm : s.memOk = true) : (settleLaunch s node).memOk = true := memOk_ite hm (dequeue_memOk hm)

theorem freeCores_memOk {s : State} {cores : List Nat} (hm : s.memOk = true) : (freeCores s cores).memOk = true :=
  memOk_foldl _ (fun _ _ hu => by exact hu) _ _ hm

theorem loadFailure_memOk {s : State} {q : Plot} {f : LoadFault} (hm : s.memOk = true) : (loadFailure s q f).memOk = true :=
  settleLaunch_memOk (plotEnded_memOk (faultRecord_memOk _ (freeCores_memOk hm)))

theorem searchPlot_memOk {s : State} {q : Plot} {e : QEntry} (hm : s.memOk = true) : (searchPlot s q e).memOk = true := by
  unfold searchPlot
  refine memOk_ite hm ?_
  refine memOk_ite hm ?_
  split
  · exact hm
  · split
    · exact loadFailure_memOk (memOk_of_some ‹_› (imageTraffic_memOk hm) :)
    · exact (memOk_of_some ‹_› (imageTraffic_memOk hm) :)

theorem takeOffset_memOk {s : State} {q : Plot} {e : QEntry} {o : Nat × Nat × Nat} (hm : s.memOk = true) : (takeOffset s q e o).memOk = true :=
  settleLaunch_memOk (memOk_foldl _ (fun _ _ hu => by exact hu) _ _ hm)

theorem execReserveRequest_memOk {plot : Nat} {s : State} (hm : s.memOk = true) : Res.memOk (execReserveRequest plot s) = true := by
  unfold execReserveRequest
  split
  · exact hm
  · split
    · exact hm
    · refine memOk_ite hm ?_
      split
      · exact searchPlot_memOk hm
      · exact reserveAt_memOk hm (fun _ hu => takeOffset_memOk hu)

theorem writeCells_memOk {s : State} {q : Plot} {cores : List Nat} (hm : s.memOk = true) : (writeCells s q cores).memOk = true :=
  memOk_foldl _ (fun _ _ hu => by exact hu) _ _ (memOk_foldl _ (fun _ _ hu => by exact hu) _ _ hm)

theorem loadCoresOf_memOk {s : State} {q : Plot} (hm : s.memOk = true) : (loadCoresOf s q).memOk = true :=
  writeCells_memOk (memOk_foldl _ (fun _ _ hu => by exact hu) _ _ hm)

theorem startEvent_memOk {s : State} {q : Plot} (hm : s.memOk = true) : (startEvent s q).memOk = true := by
  refine memOk_foldl _ (fun _ _ hu => ?_) _ _ hm
  split <;> exact hu

theorem armPlot_memOk {s : State} {q : Plot} (hm : s.memOk = true) : (armPlot s q).memOk = true := memOk_foldl _ (fun _ _ hu => by exact hu) _ _ hm

theorem execConfigurationLoad_memOk {plot : Nat} {s : State} (hm : s.memOk = true) : Res.memOk (execConfigurationLoad plot s) = true := by
  unfold execConfigurationLoad
  split
  · exact hm
  · refine memOk_ite hm ?_
    split
    · exact loadFailure_memOk hm
    · extract_lets s1
      have h1 : s1.memOk = true := loadCoresOf_memOk hm
      split
      · exact loadFailure_memOk hm
      · have h3 := armPlot_memOk (q := ‹Plot›) (memOk_of_ok ‹_› (allocDecls_memOk h1))
        exact memOk_ite h3 (startEvent_memOk h3)

theorem leaveRow_memOk {s : State} {q : Plot} {row : Nat} (hm : s.memOk = true) : (leaveRow s q row).memOk = true := by
  unfold leaveRow
  dsimp only
  split
  · split
    · exact freeCores_memOk hm
    · exact memOk_foldl _ (fun _ _ hu => by exact hu) _ _ (writeCells_memOk (freeCores_memOk hm))
  · refine memOk_ite ?_ ?_
    · split
      · exact freeCores_memOk hm
      · exact memOk_foldl _ (fun _ _ hu => by exact hu) _ _ (writeCells_memOk (freeCores_memOk hm))
    · split
      · exact freeCores_memOk hm
      · exact memOk_foldl _ (fun _ _ hu => by exact hu) _ _ (writeCells_memOk (freeCores_memOk hm))

theorem plotCompleted_memOk {s : State} {q : Plot} (hm : s.memOk = true) : (plotCompleted s q).memOk = true :=
  plotEnded_memOk (dissolveGroups_memOk hm)

theorem execRowDrain_memOk {plot row : Nat} {s : State} (hm : s.memOk = true) : Res.memOk (execRowDrain plot row s) = true := by
  unfold execRowDrain
  dsimp only [Res.memOk]
  split
  · exact hm
  · refine memOk_ite hm (memOk_ite hm ?_)
    refine holds_ite State.memOk (plotCompleted_memOk (leaveRow_memOk (memOk_ite ?_ hm))) (leaveRow_memOk (memOk_ite ?_ hm)) <;>
    · refine memOk_foldl _ (fun u e hu => ?_) _ _ hm
      exact memOk_ite (modCore_memOk (zeroTile_memOk hu)) hu

theorem execSweepRowFree_memOk {plot row : Nat} {s : State} (hm : s.memOk = true) : Res.memOk (execSweepRowFree plot row s) = true := by
  unfold execSweepRowFree
  split
  · exact hm
  · exact memOk_ite hm (memOk_ite (freeCores_memOk hm) (freeCores_memOk hm))

/-! ### Machine, Graph -/

theorem graphNode_memOk {s : State} {n : GraphFields} {ok : Bool} {f : State → State} (hm : s.memOk = true)
    (hf : ∀ a0, a0.memOk = true → (f a0).memOk = true) :
    Res.memOk (graphNode s n ok f) = true :=
  memOk_ite (hf _ hm) (nodeFault_memOk _ _ _ hm)

theorem nodeRead_memOk {s : State} {node va : Word} {f : Word → State} (hm : s.memOk = true) (hf : ∀ a0, (f a0).memOk = true) :
    (nodeRead s node va f).memOk = true := by
  unfold nodeRead
  split
  · exact nodeFault_memOk _ _ _ hm
  · exact hf _

theorem execGraphCond_memOk {n : GraphFields} {s : State} (hm : s.memOk = true) : Res.memOk (execGraphCond n s) = true :=
  graphNode_memOk hm (fun _ hu => nodeRead_memOk hu (fun _ => nodeDone_memOk hu))

theorem resetBody_memOk {s : State} {node : Word} (hm : s.memOk = true) : okAll (Option.all State.memOk) (resetBody s node) = true := by
  unfold resetBody
  split
  · rfl
  · refine holds_ite (okAll (Option.all State.memOk)) rfl ?_
    split
    · rfl
    · exact memOk_of_ok ‹_› (gwrite_memOk hm)

theorem resetBodies_memOk {s : State} {loop node : Word} {n : Nat} (hm : s.memOk = true) : (resetBodies s loop node n).1.memOk = true := by
  induction n generalizing s node with
  | zero => exact hm
  | succ n ih =>
    have hbody := resetBody_memOk (node := node) hm
    unfold resetBodies
    split
    · exact nodeFault_memOk _ _ _ hm
    · exact nodeFault_memOk _ _ _ hm
    · next e => rw [e] at hbody; exact ih hbody

theorem execGraphWhile_memOk {n : GraphFields} {s : State} (hm : s.memOk = true) : Res.memOk (execGraphWhile n s) = true := by
  unfold execGraphWhile
  refine graphNode_memOk hm (fun u hu => nodeRead_memOk hu (fun _ => memOk_ite (nodeDone_memOk hu) (memOk_ite (resetBodies_memOk hu)
    (nodeRead_memOk (resetBodies_memOk hu) (fun _ => ?_)))))
  split
  · exact nodeFault_memOk _ _ _ (resetBodies_memOk hu)
  · exact releaseAll_memOk (memOk_of_ok ‹_› (gwrite_memOk (resetBodies_memOk hu)))

theorem waitTest_memOk {s : State} {node : Word} {n : GraphFields} (hm : s.memOk = true) : (waitTest s node n).memOk = true :=
  nodeRead_memOk hm (fun _ => memOk_ite hm (memOk_ite (nodeFault_memOk _ _ _ hm) (nodeDone_memOk hm)))

theorem waitAgain_memOk {s : State} {w : GWait} (hm : s.memOk = true) : (waitAgain s w).memOk = true := by
  unfold waitAgain
  dsimp only
  split
  · exact nodeFault_memOk _ _ _ hm
  · split
    · exact memOk_ite (waitTest_memOk hm) (nodeFault_memOk _ _ _ hm)
    · exact nodeFault_memOk _ _ _ hm

theorem execWaitmRetest_memOk {idx : Nat} {s : State} (hm : s.memOk = true) : Res.memOk (execWaitmRetest idx s) = true := by
  unfold execWaitmRetest
  split
  · exact hm
  · exact memOk_ite hm (waitAgain_memOk hm)

theorem signalWord_memOk {s : State} {node : Word} {n : GraphFields} {f : State → State} (hm : s.memOk = true)
    (hf : ∀ a0, a0.memOk = true → (f a0).memOk = true) :
    (signalWord s node n f).memOk = true := by
  unfold signalWord
  split
  · exact nodeFault_memOk _ _ _ hm
  · split
    · exact nodeFault_memOk _ _ _ hm
    · exact hf _ (memOk_of_ok ‹_› (gwrite_memOk hm))

theorem execSignal_memOk {n : GraphFields} {s : State} (hm : s.memOk = true) : Res.memOk (execSignal n s) = true :=
  graphNode_memOk hm (fun _ hu => signalWord_memOk hu (fun _ hv => nodeDone_memOk hv))

theorem execGraphEnd_memOk {n : GraphFields} {s : State} (hm : s.memOk = true) : Res.memOk (execGraphEnd n s) = true := by
  refine graphNode_memOk hm (fun _ hu => signalWord_memOk hu (fun v hv => ?_))
  split
  · exact walkerRecord_memOk hv
  · split
    · exact nodeFault_memOk _ _ _ hv
    · have hw := memOk_of_ok ‹_› (gwrite_memOk hv)
      exact hw

theorem bindFollow_memOk {s0 : State} {q : Plot} (hm : s0.memOk = true) : (bindFollow s0 q).all State.memOk = true := by
  unfold bindFollow
  split
  · exact hm
  · refine all_map (imageTraffic_memOk hm) fun s hs => ?_
    split
    · exact hs
    · exact memOk_foldl _ (fun _ _ hu => by exact hu) _ _ (by exact hs)

theorem rejectLaunch_memOk {s : State} {node : Word} {code : Byte} {tval : Word} (hm : s.memOk = true) :
    (rejectLaunch s node code tval).memOk = true :=
  launchEnd_memOk (walkerRecord_memOk (dequeue_memOk hm))

theorem startLaunch_memOk {old s : State} {node : Word} {ps : List Plot} (hold : old.memOk = true) (hm : s.memOk = true) :
    (startLaunch old s node ps).memOk = true := by
  unfold startLaunch
  split
  · exact nodeFault_memOk _ _ _ hm
  · split
    · exact nodeFault_memOk _ _ _ hm
    · have ht := memOk_of_ok ‹_› (gwrite_memOk hm)
      extract_lets t1
      have hall := foldl_holds (Option.all State.memOk) (f := fun acc q => acc.bind fun u => bindFollow u q)
        (fun _ _ hacc => all_bind hacc fun _ hu => bindFollow_memOk hu) ps (b := some t1) ht
      split
      · exact hold
      · exact settleLaunch_memOk (memOk_of_some ‹_› hall)

theorem execLaunch_memOk {n : GraphFields} {s : State} (hm : s.memOk = true) : Res.memOk (execLaunch n s) = true := by
  refine holds_ite Res.memOk (graphNode_memOk (dequeue_memOk hm) (fun _ hu => hu)) (graphNode_memOk hm (fun u hu => ?_))
  split
  · exact rejectLaunch_memOk hu
  · refine memOk_ite (rejectLaunch_memOk hu) ?_
    split
    · exact rejectLaunch_memOk hu
    · exact rejectLaunch_memOk hu
    · exact memOk_ite (rejectLaunch_memOk hu) (startLaunch_memOk hm hu)

theorem execWalkerClaim_memOk {die : Nat} {s : State} (hm : s.memOk = true) : Res.memOk (execWalkerClaim die s) = true := by
  unfold execWalkerClaim
  refine memOk_ite hm ?_
  split
  · exact hm
  · split
    · exact nodeFault_memOk _ _ _ (dequeue_memOk hm)
    · refine memOk_ite (dequeue_memOk hm) ?_
      split
      · exact nodeFault_memOk _ _ _ (dequeue_memOk hm)
      · exact memOk_ite (memOk_of_ok ‹_› (gwrite_memOk hm) :) (dequeue_memOk (memOk_of_ok ‹_› (gwrite_memOk hm) :))

theorem execQueueAging_memOk {idx : Nat} {s : State} (hm : s.memOk = true) : Res.memOk (execQueueAging idx s) = true := by
  unfold execQueueAging
  split
  · exact hm
  · exact memOk_ite hm hm

theorem execGo_memOk {s : State} (hm : s.memOk = true) : Res.memOk (execGo s) = true := by
  unfold execGo
  refine memOk_ite hm ?_
  split
  · exact walkerRecord_memOk hm
  · exact memOk_ite (startNode_memOk hm) hm

/-! ### Machine, Power -/

theorem levelRequest_memOk {s : State} {k : Nat} {r : BitVec 2} (hm : s.memOk = true) : (levelRequest s k r).memOk = true :=
  memOk_ite hm (memOk_ite hm (memOk_ite hm hm))

theorem execLvlreq_memOk {k : Nat} {code : BitVec 2} {s : State} (hm : s.memOk = true) : Res.memOk (execLvlreq k code s) = true :=
  memOk_ite hm (levelRequest_memOk hm)

theorem settleRamp_memOk {s : State} {k : Nat} (hm : s.memOk = true) : (settleRamp s k).memOk = true := memOk_ite (levelRequest_memOk hm) hm

theorem rampDue_memOk {s : State} {k : Nat} {now : BitVec 64} {fuel : Nat} (hm : s.memOk = true) : (rampDue s k now fuel).memOk = true := by
  induction fuel generalizing s with
  | zero => exact hm
  | succ n ih => exact memOk_ite (ih (pace_memOk (settleRamp_memOk (pace_memOk hm)))) hm

theorem execRamptabWrite_memOk {k : Nat} {v : Word} {s : State} (hm : s.memOk = true) : Res.memOk (execRamptabWrite k v s) = true := memOk_ite hm hm

theorem execSlewLimiterStep_memOk {k : Nat} {s : State} (hm : s.memOk = true) : Res.memOk (execSlewLimiterStep k s) = true :=
  memOk_ite hm (State.count_memOk (memOk_foldl _ (fun _ _ hu => by exact hu) _ _ hm))

theorem darkPackage_memOk {s : State} (hm : s.memOk = true) : (darkPackage s).memOk = true :=
  (State.memOk_iff _).mpr ⟨rfl, ((State.memOk_iff s).mp hm).2⟩

theorem execThermalTrip_memOk {k : Nat} {temp : BitVec 16} {s : State} (hm : s.memOk = true) : Res.memOk (execThermalTrip k temp s) = true := by
  unfold execThermalTrip
  extract_lets d
  have hd : d.memOk = true := darkPackage_memOk hm
  exact memOk_ite hm (memOk_ite hd (memOk_ite hm (logRecord_memOk _ _ _ _ (levelRequest_memOk hm))))

theorem execFwloss_memOk {update : Bool} {s : State} (hm : s.memOk = true) : Res.memOk (execFwloss update s) = true := by
  unfold execFwloss
  dsimp only
  split
  · exact hm
  · refine memOk_foldl _ (fun _ _ hu => ?_) _ _ hm
    split
    · exact levelRequest_memOk hu
    · exact hu

theorem loadRamps_memOk {s : State} {tabs : List Word} (hm : s.memOk = true) : (loadRamps s tabs).memOk = true :=
  memOk_foldl _ (fun _ _ hu => by exact hu) _ _ hm

theorem bootFrom3_memOk {s : State} {failover : Bool} {fail : Option BootFail} {tabs : List Word} (hm : s.memOk = true) :
    (bootFrom3 s failover fail tabs).memOk = true := by
  have hl : (loadRamps s tabs).memOk = true := loadRamps_memOk hm
  unfold bootFrom3
  generalize loadRamps s tabs = t at hl ⊢
  split
  · exact memOk_ite hm hl
  · exact hl

theorem bootImages_memOk {s : State} {ks : List Nat} (hm : s.memOk = true) : (bootImages s ks).1.memOk = true := by
  induction ks generalizing s with
  | nil => exact hm
  | cons k ks ih =>
    unfold bootImages
    split
    · exact hm
    · exact ih hm

theorem bootFrom2_memOk {s : State} {failover : Bool} {fail : Option BootFail} {tabs : List Word} (hm : s.memOk = true) :
    (bootFrom2 s failover fail tabs).memOk = true := by
  unfold bootFrom2
  split
  · exact hm
  · split
    · exact (memOk_of_fst ‹_› (bootImages_memOk hm) :)
    · exact bootFrom3_memOk (memOk_of_fst ‹_› (bootImages_memOk hm) :)

theorem execPowerOnReset_memOk {m0ok m1ok : Bool} {fail : Option BootFail} {tabs : List Word} {s : State} (hm : s.memOk = true) :
    Res.memOk (execPowerOnReset m0ok m1ok fail tabs s) = true := by
  have hd : (darkPackage s).memOk = true := darkPackage_memOk hm
  unfold execPowerOnReset
  generalize darkPackage s = d at hd ⊢
  exact memOk_ite hm (memOk_ite hd (bootFrom2_memOk hd))

theorem execDevrst_memOk {fail : Option BootFail} {tabs : List Word} {s : State} (hm : s.memOk = true) : Res.memOk (execDevrst fail tabs s) = true :=
  memOk_ite hm (bootFrom3_memOk (by exact hm))

theorem execAtgo_memOk {s : State} (hm : s.memOk = true) : Res.memOk (execAtgo s) = true := memOk_ite hm hm

/-! ### Machine, Context -/

theorem passTime_memOk {s : State} {n : Nat} (hm : s.memOk = true) : (passTime s n).memOk = true :=
  memOk_foldl _ (fun _ _ hu => rampDue_memOk hu) _ _ hm

theorem sendRequest_memOk {s : State} {q : Plot} (hm : s.memOk = true) : (sendRequest s q).memOk = true := by
  unfold sendRequest
  refine memOk_ite hm ?_
  split
  · exact hm
  · exact (memOk_of_some ‹_› (walkerSend_memOk hm) :)

theorem requestSave_memOk {s : State} {q : Plot} (hm : s.memOk = true) : (requestSave s q).memOk = true :=
  memOk_ite hm (memOk_ite hm (memOk_ite hm hm))

theorem execPreemptRequest_memOk {plot : Nat} {s : State} (hm : s.memOk = true) : Res.memOk (execPreemptRequest plot s) = true := by
  unfold execPreemptRequest
  split
  · exact hm
  · exact memOk_ite (requestSave_memOk hm) (sendRequest_memOk hm)

theorem execSliceExpiry_memOk {plot : Nat} {s : State} (hm : s.memOk = true) : Res.memOk (execSliceExpiry plot s) = true := by
  unfold execSliceExpiry
  split
  · exact hm
  · exact memOk_ite (sendRequest_memOk hm) hm

theorem withdraw_memOk {s : State} {core : Nat} {c : Cmd} (hm : s.memOk = true) : (withdraw s core c).memOk = true := by
  unfold withdraw
  split
  · exact hm
  · split
    · exact releaseHolds_memOk hm
    · exact releaseHolds_memOk hm
    · split
      · exact hm
      · exact memOk_ite (releaseHolds_memOk hm) (releaseHolds_memOk hm)
    · exact hm

theorem saveTraffic_memOk {s : State} {q : Plot} {n : Nat} {write : Bool} (hm : s.memOk = true) : (saveTraffic s q n write).all State.memOk = true :=
  foldl_holds (Option.all State.memOk) (fun _ _ hacc => all_bind hacc fun _ ht => all_map (crossVa_memOk ht) fun _ hu => touchVa_memOk hu) _ hm

theorem writeImage_memOk {s : State} {q : Plot} (hm : s.memOk = true) : okAll State.memOk (writeImage s q) = true := by
  unfold writeImage
  split
  · rfl
  · have hput {t u : State} {va : Word} {bs : List Byte} (e : writeVa t q.ptroot va bs = .ok u) (ht : t.memOk = true) : u.memOk = true :=
      writeVa_memOk e ht
    refine okAll_allOk fun t0 h0 => okAll_allOk fun t1 h1 => writeVa_okAll (memOk_of_ok h1 ?_)
    exact foldl_holds (okAll State.memOk) (fun _ _ hacc => okAll_allOk fun _ ht => okAll_allOk fun _ hu =>
      writeVa_okAll (hput hu (memOk_of_ok ht hacc))) _ (hput h0 hm)

theorem execContextSave_memOk {plot : Nat} {s : State} (hm : s.memOk = true) : Res.memOk (execContextSave plot s) = true := by
  unfold execContextSave
  split
  · exact hm
  · next q _ =>
    refine memOk_ite hm (memOk_ite (memOk_ite hm hm) ?_)
    extract_lets held s1 s2 n
    have h1 : s1.memOk = true := memOk_foldl _ (fun _ _ hu => memOk_foldl _ (fun _ _ hv => withdraw_memOk hv) _ _ hu) _ _ hm
    have h2 : s2.memOk = true := memOk_foldl _ (fun _ _ hu => modCore_memOk hu) _ _ h1
    split
    · exact hm
    · have h3 := memOk_of_some ‹_› (holds_ite (Option.all State.memOk) rfl (saveTraffic_memOk h2))
      split
      · exact fatalEnd_memOk h3
      · have h4 := dropFollow_memOk (q := q) (memOk_of_ok ‹_› (writeImage_memOk h3))
        exact enqueue_memOk (modPlot_memOk (freeCores_memOk (by exact h4)))

theorem restoreTiles_memOk {old s : State} {data : List Byte} {xs : List (Nat × Nat)} (hm : s.memOk = true) :
    (restoreTiles old s data xs).all State.memOk = true := by
  induction xs generalizing s data with
  | nil => exact hm
  | cons x r ih =>
    unfold restoreTiles
    extract_lets t
    split
    · rfl
    · have hu := memOk_of_ok ‹_› (allocTile_memOk hm)
      exact ih (tileWrite_memOk (by exact hu))

theorem searchSaved_memOk {s : State} {q : Plot} {e : QEntry} (hm : s.memOk = true) : (searchSaved s q e).memOk = true := by
  unfold searchSaved
  refine memOk_ite hm ?_
  split
  · exact hm
  · split
    · exact loadFailure_memOk (dequeue_memOk (memOk_of_some ‹_› (imageTraffic_memOk hm) :))
    · exact (memOk_of_some ‹_› (imageTraffic_memOk hm) :)

theorem placeSaved_memOk {s : State} {q : Plot} {e : QEntry} {o : Nat × Nat × Nat} (hm : s.memOk = true) : (placeSaved s q e o).memOk = true :=
  memOk_foldl _ (fun _ _ hu => by exact hu) _ _ (dequeue_memOk hm)

/-- What a read's bytes are used for holds when it does for every bytes. -/
theorem all_bind_toOption {ε α : Type} {x : Except ε α} {f : α → Option State} (hf : ∀ a, (f a).all State.memOk = true) :
    (x.toOption.bind f).all State.memOk = true := by
  cases x with
  | error e => rfl
  | ok a => exact hf a

theorem finishRestore_memOk {s : State} {q : Plot} {ks : List (Nat × Core)} (hm : s.memOk = true) : (finishRestore s q ks).memOk = true := by
  unfold finishRestore
  extract_lets s1 old s2 tiles
  have h1 : s1.memOk = true := loadCoresOf_memOk (by exact hm)
  have h2 : s2.memOk = true := memOk_foldl _ (fun _ _ hu => by exact hu) _ _ h1
  split
  · exact loadFailure_memOk hm
  · have h3 := memOk_of_some ‹_› (all_bind_toOption fun data => restoreTiles_memOk h2)
    have h5 := armPlot_memOk (q := q) h3
    exact memOk_ite h5 (memOk_ite (startEvent_memOk h5) h5)

theorem restorePlot_memOk {s : State} {q : Plot} (hm : s.memOk = true) : (restorePlot s q).memOk = true := by
  unfold restorePlot
  extract_lets size
  split
  · exact hm
  · have ht := memOk_of_some ‹_› (saveTraffic_memOk hm)
    split
    · exact loadFailure_memOk ht
    · exact loadFailure_memOk ht
    · exact loadFailure_memOk ht
    · exact finishRestore_memOk ht

theorem execContextRestore_memOk {plot : Nat} {s : State} (hm : s.memOk = true) : Res.memOk (execContextRestore plot s) = true := by
  unfold execContextRestore
  split
  · exact hm
  · refine memOk_ite (restorePlot_memOk hm) ?_
    refine memOk_ite hm ?_
    split
    · exact hm
    · split
      · exact searchSaved_memOk hm
      · exact reserveAt_memOk hm (fun _ hu => placeSaved_memOk hu)

theorem walkerEnd_memOk {s : State} {q : Plot} {code : Byte} (hm : s.memOk = true) : (walkerEnd s q code).memOk = true := fatalEnd_memOk hm

theorem execWatchdogExpiry_memOk {plot : Nat} {s : State} (hm : s.memOk = true) : Res.memOk (execWatchdogExpiry plot s) = true := by
  unfold execWatchdogExpiry
  split
  · exact hm
  · exact memOk_ite hm (walkerEnd_memOk hm)

theorem execSaveTimeout_memOk {plot : Nat} {s : State} (hm : s.memOk = true) : Res.memOk (execSaveTimeout plot s) = true := by
  unfold execSaveTimeout
  split
  · exact hm
  · split
    · exact hm
    · exact memOk_ite (walkerEnd_memOk hm) hm

theorem execTrapEntry_memOk {core : Nat} {s : State} (hm : s.memOk = true) : Res.memOk (execTrapEntry core s) = true := by
  unfold execTrapEntry
  split
  · exact hm
  · exact memOk_ite (takeHeld_memOk hm) hm

/-- A function of a state, a plot and a core keeps the memories canonical. -/
def KeepsMemOk (f : State → Plot → Nat → State) : Prop := ∀ s q core, s.memOk = true → (f s q core).memOk = true

/-- The kernel must not compare `resumeSeq` with its body applied (it would evaluate the read of the frame): the body is put in its place
as a function. -/
theorem resumeSeq_memOk {s : State} {q : Plot} {core : Nat} (hm : s.memOk = true) : (resumeSeq s q core).memOk = true := by
  obtain ⟨f, e, h⟩ : ∃ f, resumeSeq = f ∧ KeepsMemOk f := by
    refine ⟨?_, ?_, ?_⟩
    rotate_left
    · delta resumeSeq; exact rfl
    · intro s q core hm
      beta_reduce
      generalize readVa s q.ptroot (saveBlock q core + 0x19400) 576 = r
      cases r with
      | error e => exact fatalEnd_memOk hm
      | ok bs =>
        exact memOk_ite (modCore_memOk hm) (memOk_ite (fatalEnd_memOk (modCore_memOk hm)) (modCore_memOk (modCore_memOk (modCore_memOk hm))))
  exact e ▸ h s q core hm

theorem resumePlot_memOk {s : State} {core : Nat} (hm : s.memOk = true) : (resumePlot s core).memOk = true := resolveParked_memOk hm

theorem execCtxcmdResume_memOk {p : BitVec 16} {s : State} (hm : s.memOk = true) : Res.memOk (execCtxcmdResume p s) = true := by
  unfold execCtxcmdResume
  split
  · exact hm
  · refine memOk_foldl _ (fun _ _ hu => ?_) _ _ hm
    split
    · exact memOk_ite hu (memOk_ite (resumeSeq_memOk hu) (resumePlot_memOk hu))
    · exact hu

theorem execCtxcmdDestroy_memOk {p : BitVec 16} {s : State} (hm : s.memOk = true) : Res.memOk (execCtxcmdDestroy p s) = true := by
  unfold execCtxcmdDestroy
  split
  · exact hm
  · exact walkerEnd_memOk hm

theorem execDebugResume_memOk {core : Nat} {s : State} (hm : s.memOk = true) : Res.memOk (execDebugResume core s) = true := memOk_ite hm hm

theorem execDebugStep_memOk {core : Nat} {s : State} (hm : s.memOk = true) : Res.memOk (execDebugStep core s) = true := memOk_ite hm hm

theorem execBankDeclareFailed_memOk {core : Nat} {m : BitVec 2} {bank : BitVec 5} {s : State} (hm : s.memOk = true) :
    Res.memOk (execBankDeclareFailed core m bank s) = true :=
  memOk_ite (declareBank_memOk hm) hm

/-! ### Machine, Atomics -/

theorem sendAtomic_memOk {s : State} {a : Access} (hm : s.memOk = true) : (sendAtomic s a).memOk = true :=
  memOk_ite (memOk_ite (issueAccess_memOk (accept_memOk hm)) (issueAccess_memOk (accept_memOk hm))) (memOk_ite (issueAccess_memOk (accept_memOk hm))
      (issueAccess_memOk (accept_memOk hm)))

theorem withTarget_memOk {s : State} {va : Word} {align : Nat} {hostOk : Bool} {f : State → TcEntry → State} (hm : s.memOk = true)
    (hf : ∀ a0 a1, a0.memOk = true → (f a0 a1).memOk = true) :
    (withTarget s va align hostOk f).memOk = true := by
  unfold withTarget
  refine memOk_ite (acceptFault_memOk hm) ?_
  split
  · exact acceptFault_memOk (memOk_of_snd ‹_› (translate_memOk hm))
  · exact acceptStall_memOk (memOk_of_snd ‹_› (translate_memOk hm))
  · exact memOk_ite (acceptFault_memOk (memOk_of_snd ‹_› (translate_memOk hm))) (hf _ _ (memOk_of_snd ‹_› (translate_memOk hm)))

theorem withLocal_memOk {s : State} {lm : Bool} {addr w n : Nat} {f : State → State} (hm : s.memOk = true)
    (hf : ∀ a0, a0.memOk = true → (f a0).memOk = true) :
    (withLocal s lm addr w n f).memOk = true :=
  memOk_ite (acceptFault_memOk hm) (memOk_ite (acceptFault_memOk hm) (hf _ hm))

theorem afterAcquire_memOk {s : State} {f : State → State} (hm : s.memOk = true) (hf : ∀ a0, a0.memOk = true → (f a0).memOk = true) :
    (afterAcquire s f).memOk = true :=
  memOk_ite (acceptStall_memOk hm) (hf _ hm)

theorem atomicDone_memOk {s : State} {back : Option Nat} {result : List Byte → Access → W32} (hm : s.memOk = true) :
    (atomicDone s back result).memOk = true := by
  unfold atomicDone
  split
  · exact hm
  · refine memOk_ite hm ?_
    refine memOk_ite hm ?_
    split <;> exact hm

theorem execAmo_memOk {ord : BitVec 2} {lm dw : Bool} {op : BitVec 4} {addr : Word} {b2 : BitVec 32} {s : State} (hm : s.memOk = true) :
    Res.memOk (execAmo ord lm dw op addr b2 s) = true :=
  memOk_ite (afterAcquire_memOk hm (fun _ hu => withLocal_memOk hu (fun _ hv => withTarget_memOk hv (fun _ _ hw => sendAtomic_memOk hw))))
      (atomicDone_memOk hm)

theorem execAmoc_memOk {ord : BitVec 2} {dw : Bool} {addr : Word} {b2 : BitVec 32} {s : State} (hm : s.memOk = true) :
    Res.memOk (execAmoc ord dw addr b2 s) = true :=
  memOk_ite (afterAcquire_memOk hm (fun _ hu => withLocal_memOk hu (fun _ hv => withTarget_memOk hv (fun _ _ hw => sendAtomic_memOk hw))))
      (atomicDone_memOk hm)

theorem reduceDone_memOk {s : State} (hm : s.memOk = true) : (reduceDone s).memOk = true := by
  unfold reduceDone
  dsimp only
  split
  · exact hm
  · refine memOk_ite hm ?_
    split <;> exact memOk_ite hm hm

theorem execRed_memOk {ord : BitVec 2} {lm dw : Bool} {op : BitVec 4} {addr : Word} {b2 : BitVec 32} {s : State} (hm : s.memOk = true) :
    Res.memOk (execRed ord lm dw op addr b2 s) = true :=
  memOk_ite (afterAcquire_memOk hm (fun _ hu => withLocal_memOk hu (fun _ hv => withTarget_memOk hv (fun _ _ hw => sendAtomic_memOk hw))))
      (reduceDone_memOk hm)

theorem translatePages_memOk {s : State} {vas : List Word} (hm : s.memOk = true) : (translatePages s vas).1.memOk = true := by
  induction vas generalizing s with
  | nil => exact hm
  | cons va r ih =>
    unfold translatePages
    split
    · exact memOk_of_snd ‹_› (translate_memOk hm)
    · exact memOk_of_snd ‹_› (translate_memOk hm)
    · have ht := memOk_of_snd ‹_› (translate_memOk hm)
      split <;> exact memOk_of_fst ‹_› (ih ht)

theorem translatePages_fault_memOk {s t u : State} {vas : List Word} {f : State → State} (e : translatePages s vas = (t, .error f))
    (hu : u.memOk = true) :
    (f u).memOk = true := by
  induction vas generalizing s with
  | nil => cases e
  | cons va r ih =>
    unfold translatePages at e
    split at e
    · cases e; exact acceptFault_memOk hu
    · cases e; exact acceptStall_memOk hu
    · split at e
      · next e' => cases e; exact ih e'
      · cases e

theorem tileRows_memOk {s : State} {core h o n : Nat} (hm : s.memOk = true) : (tileRows s core h o n).1.memOk = true := by
  induction n generalizing s o with
  | zero => exact hm
  | succ n ih =>
    unfold tileRows
    split
    · exact memOk_of_fst ‹_› (tileRead_memOk hm)
    · exact ih (memOk_of_fst ‹_› (tileRead_memOk hm))

set_option maxRecDepth 1000 in
theorem execRedv_memOk {ord : BitVec 2} {op : BitVec 4} {h : BitVec 6} {addr : Word} {b2 : BitVec 32} {s : State} (hm : s.memOk = true) :
    Res.memOk (execRedv ord op h addr b2 s) = true := by
  unfold execRedv
  refine memOk_ite (reduceDone_memOk hm) (afterAcquire_memOk hm fun u hu => ?_)
  refine memOk_ite (acceptFault_memOk hu) (memOk_ite (acceptFault_memOk hu) (memOk_ite (acceptFault_memOk hu) ?_))
  generalize pagesOf addr (64 * ((b2.extractLsb' 0 6).toNat + 1)) = vas
  generalize (b2.extractLsb' 0 6).toNat + 1 = n
  split
  · exact translatePages_fault_memOk ‹_› (memOk_of_fst ‹_› (translatePages_memOk hu))
  · have ht := memOk_of_fst ‹_› (translatePages_memOk hu)
    split
    · exact acceptFault_memOk ht
    · refine holds_ite State.memOk (modCore_memOk ?_) ?_ <;>
        exact memOk_foldl _ (fun _ _ hx => issueAccess_memOk hx) _ _ (modCmd_memOk (accept_memOk (tileRows_memOk ht)))

/-! ### Machine, Convert -/

theorem cvtMark_memOk {n : NodeFields} {l : Token} {s : State} (hm : s.memOk = true) : (cvtMark n l s).memOk = true :=
  memOk_ite (fireAll_memOk hm) (fireAll_memOk hm)

theorem execCvt_memOk {n : NodeFields} {s : State} (hm : s.memOk = true) : Res.memOk (execCvt n s) = true := by
  refine inStep_memOk hm (fun _ _ hu => cvtMark_memOk hu) fun t ht => ?_
  split
  · exact ht
  · exact modNode_memOk (emitAB_memOk (consume_memOk ht))

theorem packClose_memOk {n : NodeFields} {s : State} {es : List W32} {ins : List Nat} (hm : s.memOk = true) : (packClose n s es ins).memOk = true :=
  emitAB_memOk (consume_memOk hm)

theorem execPack_memOk {n : NodeFields} {s : State} (hm : s.memOk = true) : Res.memOk (execPack n s) = true := by
  unfold execPack
  refine memOk_ite hm ?_
  refine memOk_ite (formatFault_memOk hm) ?_
  split
  · refine memOk_ite ?_ ?_
    · refine memOk_ite ?_ hm
      refine memOk_ite ?_ (packClose_memOk hm)
      split
      · exact hm
      · exact memOk_ite (packClose_memOk hm) (formatFault_memOk hm)
    · refine memOk_ite hm ?_
      refine memOk_ite (formatFault_memOk hm) ?_
      refine memOk_ite hm ?_
      refine memOk_ite ?_ ?_
      · refine memOk_ite (raiseNode_memOk hm) ?_
        refine memOk_ite ?_ (consume_memOk hm)
        refine memOk_ite ?_ (packClose_memOk hm)
        split
        · exact hm
        · exact memOk_ite (packClose_memOk hm) (formatFault_memOk hm)
      · refine memOk_ite ?_ (cvtMark_memOk hm)
        split
        · exact hm
        · exact memOk_ite (cvtMark_memOk hm) (formatFault_memOk hm)
  · exact hm

theorem execUnpack_memOk {n : NodeFields} {s : State} (hm : s.memOk = true) : Res.memOk (execUnpack n s) = true := by
  refine inStep_memOk hm (fun _ _ hu => cvtMark_memOk hu) (fun u hu => ?_)
  split
  · exact hu
  · exact memOk_ite (raiseNode_memOk hu) (emitAB_memOk (memOk_ite (consume_memOk hu) hu))

/-! ### Machine, Roce -/

theorem engCross_memOk {s : State} {port : Nat} {va : Word} {n : Nat} {write : Bool} (hm : s.memOk = true) :
    (engCross s port va n write).all State.memOk = true :=
  all_map (crossVa_memOk hm) fun _ ht => touchVa_memOk ht

theorem engRead_memOk {s : State} {port : Nat} {va : Word} {n : Nat} (hm : s.memOk = true) :
    okAll (fun p => p.1.memOk) (engRead s port va n) = true := by
  unfold engRead
  split
  · exact rfl
  · exact rfl
  · exact (memOk_of_some ‹_› (engCross_memOk hm))

theorem engWrite_memOk {s : State} {port : Nat} {va : Word} {bs : List Byte} (hm : s.memOk = true) :
    okAll State.memOk (engWrite s port va bs) = true := by
  unfold engWrite
  split
  · exact rfl
  · exact rfl
  · refine holds_ite (okAll State.memOk) rfl ?_
    split
    · exact rfl
    · exact (memOk_of_ok ‹_› (writeVa_okAll (memOk_of_some ‹_› (engCross_memOk hm))))

theorem readDoorbell_memOk {s : State} {port q : Nat} (hm : s.memOk = true) : (readDoorbell s port q).memOk = true := by
  unfold readDoorbell
  extract_lets x t
  have ht : t.memOk = true := hm
  split
  · exact ht
  · exact hm
  · have hu := memOk_of_ok_fst ‹_› (engRead_memOk ht)
    exact hu

theorem watchDoorbell_memOk {s : State} {port q : Nat} (hm : s.memOk = true) : (watchDoorbell s port q).memOk = true := by
  refine readDoorbell_memOk ?_
  split <;> exact hm

theorem doorbellWrite_memOk {s : State} {port q off : Nat} {v : Word} {set : Qp → Qp} (hm : s.memOk = true) :
    (doorbellWrite s port q off v set).memOk = true := by
  unfold doorbellWrite
  refine memOk_ite hm ?_
  split
  · exact memOk_ite (memOk_of_ok ‹_› (engWrite_memOk hm) :) (memOk_of_ok ‹_› (engWrite_memOk hm) :)
  · exact hm
  · exact hm

theorem doorbellAgain_memOk {s : State} {port q : Nat} (hm : s.memOk = true) : (doorbellAgain s port q).memOk = true := by
  unfold doorbellAgain
  split
  · exact hm
  · extract_lets t
    have ht : t.memOk = true := hm
    split
    · have hu := memOk_of_ok ‹_› (engWrite_memOk ht)
      exact memOk_ite hu (readDoorbell_memOk hu)
    · exact ht
    · exact hm

theorem execSqdb_memOk {port q : Nat} {v : Word} {s : State} (hm : s.memOk = true) : Res.memOk (execSqdb port q v s) = true := doorbellWrite_memOk hm

theorem execRqdb_memOk {port q : Nat} {v : Word} {s : State} (hm : s.memOk = true) : Res.memOk (execRqdb port q v s) = true := doorbellWrite_memOk hm

theorem execCqdb_memOk {port q : Nat} {v : Word} {s : State} (hm : s.memOk = true) : Res.memOk (execCqdb port q v s) = true := doorbellWrite_memOk hm

theorem execDoorbellLineReread_memOk {port q : Nat} {s : State} (hm : s.memOk = true) : Res.memOk (execDoorbellLineReread port q s) = true :=
  memOk_ite (doorbellAgain_memOk hm) (memOk_ite hm (readDoorbell_memOk hm))

theorem execLineWatchFire_memOk {idx : Nat} {s : State} (hm : s.memOk = true) : Res.memOk (execLineWatchFire idx s) = true := by
  unfold execLineWatchFire
  split
  · exact hm
  · refine memOk_ite hm ?_
    split
    · exact waitAgain_memOk hm
    · exact readDoorbell_memOk hm

theorem execQpStateWrite_memOk {port q : Nat} {v : BitVec 3} {s : State} (hm : s.memOk = true) : Res.memOk (execQpStateWrite port q v s) = true :=
  memOk_ite hm (memOk_ite hm (memOk_ite hm (memOk_ite (memOk_ite (watchDoorbell_memOk hm) hm) hm)))

theorem complete_memOk {s : State} {port q idx : Nat} {status : Byte} {recv : Bool} {imm : Option (BitVec 32)} {moved : Nat} (hm : s.memOk = true) :
    (complete s port q idx status recv imm moved).all State.memOk = true := by
  unfold complete
  extract_lets x wrote
  refine all_map ?_ fun t ht => memOk_ite ht ht
  unfold wrote
  split
  · rfl
  · exact hm
  · have hu := memOk_of_ok ‹_› (engWrite_memOk hm)
    exact hu

theorem sendOp_memOk {s : State} {port q want : Nat} (hm : s.memOk = true) : (sendOp s port q want).memOk = true := by
  unfold sendOp
  refine memOk_ite hm ?_
  split
  · exact hm
  · exact hm
  · refine memOk_ite hm ?_
    refine memOk_ite (memOk_of_ok_fst ‹_› (engRead_memOk hm) :) ?_
    refine memOk_ite hm ?_
    refine memOk_ite (memOk_of_ok_fst ‹_› (engRead_memOk hm) :) ?_
    split
    · exact hm
    · exact (memOk_of_ok_fst ‹_› (engRead_memOk hm) :)
    · exact State.count_memOk (memOk_of_ok_fst ‹_› (engRead_memOk (memOk_of_ok_fst ‹_› (engRead_memOk hm) :)) :)

theorem flushOne_memOk {s : State} {port q : Nat} (hm : s.memOk = true) : (flushOne s port q).all State.memOk = true := by
  unfold flushOne
  dsimp only
  split
  · exact complete_memOk hm
  · exact holds_ite (Option.all State.memOk) (complete_memOk hm) (holds_ite (Option.all State.memOk) (complete_memOk hm) hm)

theorem completeOldest_memOk {s : State} {port q : Nat} {o : SendOp} {r : List SendOp} {c : Byte} {data : List Byte} (hm : s.memOk = true) :
    (completeOldest s port q o r c data).all State.memOk = true := by
  unfold completeOldest
  extract_lets t last
  have ht : t.memOk = true := hm
  have hlast (u : State) (c : Byte) (hu : u.memOk = true) : (last u c).all State.memOk = true :=
    holds_ite (Option.all State.memOk) hu (complete_memOk hu)
  refine holds_ite (Option.all State.memOk) (holds_ite (Option.all State.memOk) rfl ?_) (hlast t c ht)
  split
  · rfl
  · exact hlast _ _ ht
  · exact hlast _ _ (State.count_memOk (memOk_of_ok ‹_› (engWrite_memOk ht)))

theorem execRoceCompletion_memOk {port q : Nat} {status : Byte} {data : List Byte} {s : State} (hm : s.memOk = true) :
    Res.memOk (execRoceCompletion port q status data s) = true := by
  unfold execRoceCompletion
  refine memOk_ite hm ?_
  refine memOk_ite (memOk_getD (flushOne_memOk hm) hm) ?_
  split
  · exact hm
  · exact memOk_ite (memOk_getD (completeOldest_memOk hm) hm) (memOk_ite (memOk_ite hm hm) (memOk_ite (memOk_getD (completeOldest_memOk hm) hm) hm))

theorem execRoceAckTimeout_memOk {port q : Nat} {s : State} (hm : s.memOk = true) : Res.memOk (execRoceAckTimeout port q s) = true := by
  unfold execRoceAckTimeout
  dsimp only
  split
  · exact hm
  · exact memOk_ite hm (memOk_ite (State.count_memOk hm) hm)

theorem keyRead_memOk {s : State} {port : Nat} {key : BitVec 32} (hm : s.memOk = true) : (keyRead s port key).all State.memOk = true :=
  holds_ite (Option.all State.memOk) (engCross_memOk hm) hm

theorem recvEntry_memOk {s : State} {port : Nat} {x : Qp} (hm : s.memOk = true) : (recvEntry s port x).all (fun p => p.1.memOk) = true := by
  unfold recvEntry
  split
  · exact rfl
  · exact hm
  · exact (memOk_of_ok_fst ‹_› (engRead_memOk hm))

theorem consumeRecv_memOk {s : State} {port q : Nat} {status : Byte} {imm : Option (BitVec 32)} {moved : Nat} (hm : s.memOk = true) :
    (consumeRecv s port q status imm moved).all State.memOk = true :=
  complete_memOk hm

theorem landSend_memOk {s : State} {port q : Nat} {e : Except Byte (Word × Nat)} {data : List Byte} (hm : s.memOk = true) :
    (landSend s port q e data).all State.memOk = true := by
  unfold landSend
  extract_lets refuse
  have hrefuse (c : Byte) : (refuse c).all State.memOk = true := all_map (consumeRecv_memOk hm) fun _ ht => ht
  split
  · exact hrefuse _
  · refine holds_ite (Option.all State.memOk) (hrefuse _) ?_
    split
    · rfl
    · exact hrefuse _
    · exact all_map (consumeRecv_memOk (State.count_memOk (memOk_of_ok ‹_› (engWrite_memOk hm)))) fun _ ht => ht

theorem execIncomingSend_memOk {port q : Nat} {data : List Byte} {s : State} (hm : s.memOk = true) :
    Res.memOk (execIncomingSend port q data s) = true :=
  memOk_ite hm (memOk_ite hm (memOk_getD (all_bind_fst (recvEntry_memOk hm) fun _ hx => landSend_memOk hx) hm))

theorem landImmediate_memOk {s : State} {port q : Nat} {v : BitVec 32} {n : Nat} (hm : s.memOk = true) :
    (landImmediate s port q v n).all State.memOk = true := by
  refine all_bind_fst (recvEntry_memOk hm) fun _ hx => ?_
  split <;> exact consumeRecv_memOk hx

theorem landWrite_memOk {s : State} {port q : Nat} {addr : Word} {data : List Byte} {imm : Option (BitVec 32)} (hm : s.memOk = true) :
    (landWrite s port q addr data imm).all State.memOk = true := by
  unfold landWrite
  split
  · rfl
  · exact hm
  · extract_lets u
    have hu : u.memOk = true := State.count_memOk (memOk_of_ok ‹_› (engWrite_memOk hm))
    refine all_map ?_ fun _ ht => ht
    split
    · exact hu
    · exact landImmediate_memOk hu

theorem execIncomingRdmaWrite_memOk {port q : Nat} {key : BitVec 32} {addr : Word} {data : List Byte} {imm : Option (BitVec 32)} {s : State}
    (hm : s.memOk = true) :
    Res.memOk (execIncomingRdmaWrite port q key addr data imm s) = true :=
  memOk_ite hm (memOk_ite hm (memOk_getD (all_bind (keyRead_memOk hm) fun _ ht => holds_ite (Option.all State.memOk) (landWrite_memOk ht) ht) hm))

theorem execIncomingRdmaRead_memOk {port q : Nat} {key : BitVec 32} {addr : Word} {len : Nat} {s : State} (hm : s.memOk = true) :
    Res.memOk (execIncomingRdmaRead port q key addr len s) = true := by
  refine memOk_ite hm (memOk_getD (all_bind (keyRead_memOk hm) fun _ ht => holds_ite (Option.all State.memOk) ht ?_) hm)
  split
  · rfl
  · exact ht
  · exact State.count_memOk (memOk_of_ok_fst ‹_› (engRead_memOk ht))

/-! ### Machine, Lanot -/

theorem sideSend_memOk {s : State} {die dst : Nat} {t : Byte} {addr : Nat} (hm : s.memOk = true) : (sideSend s die dst t addr).memOk = true :=
  sendPacket_memOk hm

theorem sendAck_memOk {s : State} {die st : Nat} (hm : s.memOk = true) : (sendAck s die st).memOk = true := sideSend_memOk hm

theorem noteAck_memOk {s : State} {die st : Nat} (hm : s.memOk = true) : (noteAck s die st).memOk = true := memOk_ite (sendAck_memOk hm) hm

theorem putEarly_memOk {s : State} {die : Nat} {p : Packet} {place : Nat} {decoded : Bool} (hm : s.memOk = true) :
    (putEarly s die p place decoded).memOk = true :=
  memOk_ite hm (State.count_memOk hm)

theorem refusePacket_memOk {s : State} {die : Nat} {p : Packet} (hm : s.memOk = true) : (refusePacket s die p).memOk = true :=
  State.count_memOk (sideSend_memOk hm)

theorem acceptDecoded_memOk {s : State} {die : Nat} {p : Packet} {m : Tbl W32} {place : Option Nat} (hm : s.memOk = true) :
    (acceptDecoded s die p m place).memOk = true := by
  refine noteAck_memOk ?_
  split
  · exact hm
  · exact putEarly_memOk hm

theorem decodeNext_memOk {s : State} {die : Nat} {p : Packet} (hm : s.memOk = true) : (decodeNext s die p).memOk = true := by
  unfold decodeNext
  refine memOk_ite (acceptDecoded_memOk hm) ?_
  refine memOk_ite (dropPacket_memOk (acceptDecoded_memOk hm)) ?_
  refine memOk_ite (acceptDecoded_memOk hm) ?_
  split
  · exact acceptDecoded_memOk hm
  · exact refusePacket_memOk hm

theorem respond_memOk {s : State} {die : Nat} {t : Byte} {a dst : Nat} {tag origin : BitVec 16} {op : Byte} {v : List Byte} (hm : s.memOk = true) :
    (respond s die t a dst tag origin op v).memOk = true :=
  stampPacket_memOk hm

theorem duplicate_memOk {s : State} {die : Nat} {p : Packet} (hm : s.memOk = true) : (duplicate s die p).memOk = true := by
  unfold duplicate
  refine memOk_ite ?_ ?_
  · refine memOk_ite (noteAck_memOk hm) ?_
    split
    · exact noteAck_memOk hm
    · split <;> exact respond_memOk (memOk_of_fst ‹_› (homeEffect_memOk (memOk_ite (flushHost_memOk (noteAck_memOk hm)) (noteAck_memOk hm))))
  · refine memOk_ite ?_ (noteAck_memOk hm)
    split
    · exact noteAck_memOk hm
    · exact respond_memOk (noteAck_memOk hm)

theorem decodeArrived_memOk {s : State} {die : Nat} {p : Packet} (hm : s.memOk = true) : (decodeArrived s die p).memOk = true := by
  unfold decodeArrived
  refine memOk_ite (decodeNext_memOk hm) ?_
  refine memOk_ite (duplicate_memOk hm) ?_
  refine memOk_ite hm ?_
  split
  · exact noteAck_memOk (putEarly_memOk hm)
  · exact refusePacket_memOk hm

theorem takeArrived_memOk {s : State} {die idx : Nat} {p : Packet} {f : State → State} (hm : s.memOk = true)
    (hf : ∀ a0, a0.memOk = true → (f a0).memOk = true) :
    (takeArrived s die idx p f).memOk = true :=
  memOk_ite hm (memOk_ite hm (hf _ hm))

theorem execPacketDecode_memOk {die idx : Nat} {s : State} (hm : s.memOk = true) : Res.memOk (execPacketDecode die idx s) = true := by
  unfold execPacketDecode
  dsimp only
  split
  · exact memOk_ite (takeArrived_memOk hm (fun _ hu => decodeArrived_memOk hu)) hm
  · split
    · exact hm
    · exact memOk_ite hm (memOk_ite (dropPacket_memOk hm) hm)

theorem deliverRequest_memOk {s : State} {die : Nat} {p : Packet} (hm : s.memOk = true) : (deliverRequest s die p).memOk = true := by
  unfold deliverRequest
  split
  · exact hm
  · refine memOk_ite (performAccess_memOk hm) ?_
    split <;> exact memOk_ite (respond_memOk (settle_memOk (memOk_of_fst ‹_› (homeEffect_memOk (memOk_ite (flushHost_memOk hm) hm))))) (memOk_ite
        (respond_memOk (settle_memOk (memOk_of_fst ‹_› (homeEffect_memOk (memOk_ite (flushHost_memOk hm) hm))))) (respond_memOk (settle_memOk
        (memOk_of_fst ‹_› (homeEffect_memOk (memOk_ite (flushHost_memOk hm) hm))))))

theorem deliverResponse_memOk {s : State} {p : Packet} (hm : s.memOk = true) : (deliverResponse s p).memOk = true := by
  unfold deliverResponse
  split
  · exact hm
  · exact settle_memOk hm

theorem deliverCtl_memOk {s : State} {die : Nat} {p : Packet} (hm : s.memOk = true) : (deliverCtl s die p).memOk = true := by
  unfold deliverCtl
  refine memOk_ite (stampPacket_memOk hm) ?_
  refine memOk_ite ?_ ?_
  · split
    · exact hm
    · exact memOk_ite hm hm
  · refine memOk_ite ?_ hm
    split <;> exact hm

theorem handOn_memOk {s : State} {die : Nat} {p : Packet} (hm : s.memOk = true) : (handOn s die p).memOk = true :=
  memOk_ite (deliverResponse_memOk hm) (memOk_ite hm (memOk_ite (deliverCtl_memOk hm) (deliverRequest_memOk hm)))

theorem deliverAt_memOk {s : State} {die idx : Nat} {sel : Packet → Bool} {f : State → Packet → State} (hm : s.memOk = true)
    (hf : ∀ a0 a1, a0.memOk = true → (f a0 a1).memOk = true) :
    (deliverAt s die idx sel f).memOk = true := by
  unfold deliverAt
  dsimp only
  split
  · exact hm
  · exact memOk_ite hm (hf _ _ (checkCount_memOk hm))

theorem execErr_memOk {die idx : Nat} {s : State} (hm : s.memOk = true) : Res.memOk (execErr die idx s) = true := by
  refine deliverAt_memOk hm (fun _ _ hu => ?_)
  split
  · exact hu
  · exact settle_memOk hu

theorem execAck_memOk {die idx : Nat} {s : State} (hm : s.memOk = true) : Res.memOk (execAck die idx s) = true := by
  unfold execAck
  split
  · exact hm
  · exact memOk_ite hm (takeArrived_memOk hm (fun _ hu => stampReady_memOk hu))

theorem execNack_memOk {die idx : Nat} {s : State} (hm : s.memOk = true) : Res.memOk (execNack die idx s) = true := by
  unfold execNack
  split
  · exact hm
  · exact memOk_ite hm (takeArrived_memOk hm (fun _ hu => hu))

theorem resend_memOk {s : State} {die st : Nat} {p : Packet → Bool} (hm : s.memOk = true) : (resend s die st p).memOk = true :=
  memOk_foldl _ (fun _ _ hu => State.count_memOk (sendPacket_memOk hu)) _ _ hm

theorem execFlitBoundary_memOk {port : Nat} {s : State} (hm : s.memOk = true) : Res.memOk (execFlitBoundary port s) = true :=
  memOk_ite hm (memOk_ite (State.count_memOk (memOk_ite (State.count_memOk hm) hm)) (memOk_ite (State.count_memOk hm) hm))

theorem killLink_memOk {s : State} {link cause die : Nat} (hm : s.memOk = true) : (killLink s link cause die).memOk = true := by
  unfold killLink
  extract_lets ports src s1 s2
  have h1 : s1.memOk = true := memOk_foldl _ (fun _ _ hu => by exact hu) _ _ hm
  have h2 : s2.memOk = true := logRecord_memOk _ _ _ _ h1
  exact memOk_foldl _ (fun _ _ hu => memOk_foldl _ (fun _ _ hv => memOk_ite (dropPacket_memOk (by exact hv)) (sendPacket_memOk hv)) _ _ hu) _ _ h2

theorem packetIn_memOk {s : State} {die : Nat} {p : Packet} (hm : s.memOk = true) : (packetIn s die p).memOk = true := by
  unfold packetIn
  refine memOk_ite hm ?_
  split
  · exact dropPacket_memOk hm
  · exact sendPacket_memOk hm

theorem badPacket_memOk {s : State} {port : Nat} {p : Packet} (hm : s.memOk = true) : (badPacket s port p).memOk = true := by
  refine holds_ite State.memOk (killLink_memOk ?_) ?_ <;>
    exact memOk_foldl _ (fun _ _ hu => by exact hu) _ _ (logRecord_memOk _ _ _ _ hm)

theorem flitIn_memOk {s : State} {port : Nat} {f : Flit} (hm : s.memOk = true) : (flitIn s port f).memOk = true :=
  memOk_ite (badPacket_memOk hm) (memOk_ite hm (memOk_ite (badPacket_memOk hm) (packetIn_memOk hm)))

theorem dropAll_memOk {s : State} {die : Nat} {ps : List Packet} (hm : s.memOk = true) : (dropAll s die ps).memOk = true :=
  memOk_foldl _ (fun _ _ hu => dropPacket_memOk hu) _ _ hm

theorem sealFor_memOk {s : State} {die d : Nat} (hm : s.memOk = true) : (sealFor s die d).memOk = true := dropAll_memOk hm

theorem leaveInv_memOk {s : State} {die : Nat} (hm : s.memOk = true) : (leaveInv s die).memOk = true := memOk_ite hm (memOk_ite hm hm)

theorem loseInside_memOk {s : State} {die : Nat} (hm : s.memOk = true) : (loseInside s die).memOk = true :=
  memOk_foldl _ (fun _ _ hu => (by split; exacts [hu, (by split <;> exact hu)])) _ _ hm

theorem removeDie_memOk {s : State} {die cause : Nat} (hm : s.memOk = true) : (removeDie s die cause).memOk = true := by
  unfold removeDie
  extract_lets s1 s2 s3 owed src s4 s5
  have h1 : s1.memOk = true := logRecord_memOk _ _ _ _ hm
  have h2 : s2.memOk = true := leaveInv_memOk (memOk_ite (loseInside_memOk h1) h1)
  have h3 : s3.memOk = true := memOk_foldl _ (fun _ _ hu => sealFor_memOk hu) _ _ h2
  have howed : src.memOk = true := memOk_foldl _ (fun _ _ hu => failAccess_memOk hu) _ _ h3
  have h4 : s4.memOk = true := memOk_foldl _ (fun _ _ hu => by exact hu) _ _ (by exact howed)
  have h5 : s5.memOk = true := memOk_foldl _ (fun _ _ hu => fatalEnd_memOk hu) _ _ h4
  exact memOk_ite h5 h5

theorem connect_memOk {s : State} (hm : s.memOk = true) : (connect s).memOk = true :=
  memOk_ite hm (memOk_foldl _ (fun _ _ hu => memOk_ite hu (removeDie_memOk hu)) _ _ hm)

theorem execFlitArrival_memOk {port : Nat} {corrupt : Bool} {s : State} (hm : s.memOk = true) :
    Res.memOk (execFlitArrival port corrupt s) = true := by
  unfold execFlitArrival
  dsimp only
  split
  · exact hm
  · exact memOk_ite hm (memOk_ite hm (memOk_ite (memOk_ite (connect_memOk (killLink_memOk hm)) hm) (memOk_ite hm (connect_memOk (flitIn_memOk hm)))))

theorem announce_memOk {s : State} {phase : Nat} (hm : s.memOk = true) : (announce s phase).memOk = true :=
  memOk_foldl _ (fun _ _ hu => sendPacket_memOk hu) _ _ hm

theorem withResync_memOk {s : State} {phase : Nat} {f : State → Nat → Packet → State} (hm : s.memOk = true)
    (hf : ∀ a0 a1 a2, a0.memOk = true → (f a0 a1 a2).memOk = true) :
    (withResync s phase f).memOk = true := by
  unfold withResync
  split
  · exact hm
  · exact takeArrived_memOk hm (fun _ hu => hf _ _ _ hu)

theorem execResyncQuiesce_memOk {s : State} (hm : s.memOk = true) : Res.memOk (execResyncQuiesce s) = true :=
  memOk_ite (announce_memOk hm) (withResync_memOk hm (fun _ _ _ hu => hu))

theorem reportDie_memOk {s : State} {d : Nat} (hm : s.memOk = true) : (reportDie s d).memOk = true :=
  memOk_ite (dropAll_memOk hm) (sendPacket_memOk (dropAll_memOk hm))

theorem logGaps_memOk {s : State} (hm : s.memOk = true) : (logGaps s).memOk = true :=
  memOk_foldl _ (fun _ _ hu => memOk_ite (logRecord_memOk _ _ _ _ hu) hu) _ _ hm

theorem execResyncExchange_memOk {s : State} (hm : s.memOk = true) : Res.memOk (execResyncExchange s) = true := by
  unfold execResyncExchange
  split
  · exact reportDie_memOk hm
  · exact memOk_ite (announce_memOk (logGaps_memOk hm)) (withResync_memOk hm (fun _ _ _ hu => hu))

theorem clearDie_memOk {s : State} {d : Nat} (hm : s.memOk = true) : (clearDie s d).memOk = true := dropAll_memOk hm

theorem execResyncClear_memOk {s : State} (hm : s.memOk = true) : Res.memOk (execResyncClear s) = true := by
  unfold execResyncClear
  refine memOk_ite (clearDie_memOk hm) ?_
  split
  · exact hm
  · exact memOk_ite (takeArrived_memOk hm (fun _ hu => hu)) (takeArrived_memOk hm (fun _ hu => sendPacket_memOk (clearDie_memOk hu)))

theorem execResyncResume_memOk {s : State} (hm : s.memOk = true) : Res.memOk (execResyncResume s) = true := by
  refine memOk_ite (stampReady_memOk (logRecord_memOk _ _ _ _ ?_)) (stampReady_memOk (withResync_memOk hm (fun _ _ _ hu => hu)))
  exact memOk_foldl _ (fun _ _ hu => by exact hu) _ _ (announce_memOk hm)

theorem trainLinks_memOk {s : State} {die : Nat} (hm : s.memOk = true) : (trainLinks s die).memOk = true :=
  memOk_foldl _ (fun _ _ hu => (by split; exacts [hu, (by split <;> exact hu)])) _ _ hm

/-! ### Machine, Sync -/

theorem answerBar_memOk {s : State} {m : BarMsg} {n : Nat} {ok : Bool} (hm : s.memOk = true) : (answerBar s m n ok).memOk = true := sendBar_memOk hm

theorem releaseBar_memOk {s : State} {sq : Nat} {q : Square} (hm : s.memOk = true) : (releaseBar s sq q).memOk = true :=
  memOk_foldl _ (fun _ _ hu => sendBar_memOk hu) _ _ hm

theorem execSquareArrival_memOk {idx : Nat} {s : State} (hm : s.memOk = true) : Res.memOk (execSquareArrival idx s) = true := by
  unfold execSquareArrival
  split
  · exact hm
  · exact memOk_ite hm (memOk_ite (answerBar_memOk hm) (memOk_ite (releaseBar_memOk hm) hm))

theorem execBarrierRelease_memOk {idx : Nat} {s : State} (hm : s.memOk = true) : Res.memOk (execBarrierRelease idx s) = true := by
  unfold execBarrierRelease
  split
  · exact hm
  · exact memOk_ite hm hm

theorem execBarrierWithdraw_memOk {idx : Nat} {s : State} (hm : s.memOk = true) : Res.memOk (execBarrierWithdraw idx s) = true := by
  unfold execBarrierWithdraw
  split
  · exact hm
  · refine memOk_ite hm ?_
    refine memOk_ite (sendBar_memOk (memOk_ite hm hm)) ?_
    refine memOk_ite hm ?_
    split <;> exact answerBar_memOk hm

theorem execBarrierWithdrawAnswer_memOk {idx : Nat} {s : State} (hm : s.memOk = true) : Res.memOk (execBarrierWithdrawAnswer idx s) = true := by
  unfold execBarrierWithdrawAnswer
  split
  · exact hm
  · exact memOk_ite hm (memOk_ite hm (memOk_ite hm (memOk_ite hm hm)))

theorem sendInv_memOk {s : State} {die : Nat} (hm : s.memOk = true) : (sendInv s die).memOk = true := memOk_ite hm (sendPacket_memOk hm)

theorem execInvgo_memOk {s : State} (hm : s.memOk = true) : Res.memOk (execInvgo s) = true :=
  memOk_ite hm (memOk_foldl _ (fun _ _ hu => sendInv_memOk hu) _ _ (by exact hm))

theorem dropRange_memOk {s0 : State} {die : Nat} {r : Inval} (hms0 : s0.memOk = true) : (dropRange s0 die r).memOk = true := hms0

theorem execInv_memOk {die : Nat} {s : State} (hm : s.memOk = true) : Res.memOk (execInv die s) = true := by
  unfold execInv
  refine memOk_ite (memOk_ite (dropRange_memOk hm) hm) ?_
  split
  · exact hm
  · split
    · exact hm
    · exact takeArrived_memOk hm (fun _ hu => dropRange_memOk hu)

theorem rewalkFrames_memOk {s : State} {p : HeldFrame → Bool} (hm : s.memOk = true) : (rewalkFrames s p).memOk = true := by
  unfold rewalkFrames
  dsimp only
  refine memOk_foldl _ (fun _ _ hu => ?_) _ _ hm
  split
  · exact hu
  · exact hostwaitSeq_memOk hu

theorem ackInv_memOk {s : State} {die : Nat} (hm : s.memOk = true) : (ackInv s die).memOk = true :=
  memOk_ite hm (memOk_ite (rewalkFrames_memOk hm) hm)

theorem execInvack_memOk {die : Nat} {s : State} (hm : s.memOk = true) : Res.memOk (execInvack die s) = true := by
  unfold execInvack
  dsimp only
  split
  · split
    · exact hm
    · exact takeArrived_memOk hm (fun _ hu => memOk_ite (ackInv_memOk hu) hu)
  · exact memOk_ite hm (memOk_ite (ackInv_memOk hm) (sendPacket_memOk hm))

theorem execPageWalkComplete_memOk {walk : Nat} {s : State} (hm : s.memOk = true) : Res.memOk (execPageWalkComplete walk s) = true := by
  unfold execPageWalkComplete
  dsimp only
  split
  · exact hm
  · refine memOk_ite hm ?_
    split
    · exact hm
    · split
      · exact stampReady_memOk (resolveParked_memOk (holds_ite (fun p : _ × State => p.2.memOk) (memOk_of_some_fst ‹_› (walkTraffic_memOk hm) :)
          (walkDie_memOk (memOk_of_some_fst ‹_› (walkTraffic_memOk hm) :))))
      · exact memOk_ite (holds_ite (fun p : _ × State => p.2.memOk) (memOk_of_some_fst ‹_› (walkTraffic_memOk hm) :) (walkDie_memOk
          (memOk_of_some_fst ‹_› (walkTraffic_memOk hm) :))) (stampReady_memOk (resolveParked_memOk (holds_ite (fun p : _ × State => p.2.memOk)
          (memOk_of_some_fst ‹_› (walkTraffic_memOk hm) :) (walkDie_memOk (memOk_of_some_fst ‹_› (walkTraffic_memOk hm) :)))))

theorem execAccessPerformed_memOk {acc : Nat} {s : State} (hm : s.memOk = true) : Res.memOk (execAccessPerformed acc s) = true := by
  unfold execAccessPerformed
  split
  · exact hm
  · exact memOk_ite (memOk_ite (stampReady_memOk (performNow_memOk hm)) hm) (memOk_ite hm (memOk_ite (probeRelease_memOk hm) (memOk_ite
      (tryStamp_memOk (probeRelease_memOk hm)) (stampReady_memOk (performAccess_memOk (probeRelease_memOk hm))))))

/-! ### Machine, Host -/

theorem hostPieces_memOk {s : State} {port : Bool} {kind : AccKind} {a : HostPlace} {n : Nat} {data : List Byte} (hm : s.memOk = true) :
    (hostPieces s port kind a n data).memOk = true :=
  memOk_foldl _ (fun _ _ hu => issueAccess_memOk hu) _ _ hm

theorem splitRead_memOk {s : State} {port : Bool} {pa n : Nat} (hm : s.memOk = true) : (splitRead s port pa n).memOk = true := by
  unfold splitRead
  refine memOk_ite hm ?_
  refine memOk_ite hm ?_
  split
  · exact hm
  · split <;> exact (memOk_of_some ‹_› (crossRead_memOk hm) :)

theorem splitWrite_memOk {s : State} {port : Bool} {pa n : Nat} {op : BitVec 4} {v cmp : Word} (hm : s.memOk = true) :
    (splitWrite s port pa n op v cmp).memOk = true := by
  unfold splitWrite
  extract_lets key
  split
  · exact hm
  · extract_lets u
    have hu : u.memOk = true := hm
    refine memOk_ite hu ?_
    split
    · exact hm
    · exact homeWrite_memOk true false _ _ (memOk_of_some ‹_› (crossWrite_memOk hu))

theorem execHostAtomic_memOk {port : Bool} {a : HostPlace} {op : BitVec 4} {dw : Bool} {page : HostPage} {second : Bool} {v cmp : Word} {s : State}
    (hm : s.memOk = true) :
    Res.memOk (execHostAtomic port a op dw page second v cmp s) = true :=
  memOk_ite hm (memOk_ite (splitWrite_memOk hm) (memOk_ite hm (memOk_ite (issueAccess_memOk hm) (splitRead_memOk hm))))

theorem writeKept_memOk {s : State} (hm : s.memOk = true) : (writeKept s).memOk = true := by
  unfold writeKept
  split
  · exact hm
  · exact memOk_ite hm (ringAppend_memOk _ _ hm)

theorem outcomeState_memOk {s : State} {r : Res} (hm : s.memOk = true) (hr : Res.memOk r = true) : (outcomeState s r).memOk = true := by
  cases r with
  | next t => exact hr
  | fault e => exact hm
  | refused e => exact hm

theorem lowWrite_memOk {s : State} {off : Nat} {v : Word} (hm : s.memOk = true) : (lowWrite s off v).memOk = true :=
  memOk_ite hm (memOk_ite hm (memOk_ite hm (memOk_ite hm (memOk_ite hm (memOk_ite hm (memOk_ite hm (memOk_ite hm (memOk_ite (memOk_ite
      (outcomeState_memOk hm (execGo_memOk hm)) hm) (memOk_ite hm (memOk_ite hm (memOk_ite hm (memOk_ite (memOk_ite (outcomeState_memOk hm
      (execCtxcmdResume_memOk hm)) (memOk_ite (outcomeState_memOk hm (execCtxcmdDestroy_memOk hm)) hm)) (memOk_ite hm (memOk_ite hm (memOk_ite
      (memOk_ite (outcomeState_memOk hm (execInvgo_memOk hm)) hm) (memOk_ite (writeKept_memOk hm) (memOk_ite hm (memOk_ite (outcomeState_memOk hm hm)
      (memOk_ite (memOk_ite (outcomeState_memOk hm (execDevrst_memOk hm)) hm) hm)))))))))))))))))))

theorem clusterWrite_memOk {s : State} {k off : Nat} {v : Word} (hm : s.memOk = true) : (clusterWrite s k off v).memOk = true :=
  memOk_ite (outcomeState_memOk hm (execLvlreq_memOk hm)) (memOk_ite hm (memOk_ite hm (memOk_ite (outcomeState_memOk hm (execRamptabWrite_memOk hm))
    (memOk_ite (memOk_ite (memOk_ite hm hm) (memOk_ite hm hm)) hm))))

theorem pcctlWrite_memOk {s : State} {die : Nat} {v : Word} (hm : s.memOk = true) : (pcctlWrite s die v).memOk = true :=
  memOk_ite (outcomeState_memOk hm hm) hm

theorem qpWrite_memOk {s : State} {port q i : Nat} {v : Word} (hm : s.memOk = true) : (qpWrite s port q i v).memOk = true :=
  memOk_ite (outcomeState_memOk hm (execQpStateWrite_memOk hm)) (memOk_ite (outcomeState_memOk hm (execSqdb_memOk hm))
    (memOk_ite (outcomeState_memOk hm (execRqdb_memOk hm)) (memOk_ite (outcomeState_memOk hm (execCqdb_memOk hm)) (memOk_ite hm hm))))

theorem ethWrite_memOk {s : State} {port i : Nat} {v : Word} (hm : s.memOk = true) : (ethWrite s port i v).memOk = true := by
  unfold ethWrite
  split
  · exact hm
  · exact hm
  · exact hm
  · exact hm
  · exact hm
  · exact hm
  · exact hm
  · exact hm
  · exact hm
  · exact memOk_ite hm (memOk_foldl _ (fun _ _ hu => by exact hu) _ _ hm)
  · exact hm

theorem ethBlockWrite_memOk {s : State} {port off : Nat} {v : Word} (hm : s.memOk = true) : (ethBlockWrite s port off v).memOk = true :=
  memOk_ite (ethWrite_memOk hm) (memOk_ite (qpWrite_memOk hm) hm)

theorem bar0Write_memOk {s : State} {off : Nat} {v : Word} (hm : s.memOk = true) : (bar0Write s off v).memOk = true :=
  memOk_ite (lowWrite_memOk hm) (memOk_ite (clusterWrite_memOk hm) (memOk_ite hm (memOk_ite (memOk_ite (outcomeState_memOk hm (execAtgo_memOk hm)) hm)
    (memOk_ite (pcctlWrite_memOk hm) (memOk_ite (ethBlockWrite_memOk hm) hm)))))

theorem bpDisable_memOk {s : State} {core n : Nat} {v : Word} (hm : s.memOk = true) : (bpDisable s core n v).memOk = true := by
  unfold bpDisable
  split <;> exact hm

theorem modLed_memOk {s : State} {core : Nat} {f : Plot → Plot} (hm : s.memOk = true) : (modLed s core f).memOk = true := by
  unfold modLed
  split
  · exact memOk_ite hm hm
  · exact hm

theorem coreWrite_memOk {s : State} {core off : Nat} {v : Word} (hm : s.memOk = true) : (coreWrite s core off v).memOk = true := by
  unfold coreWrite
  refine memOk_ite (memOk_ite hm (memOk_ite (memOk_ite ?_ (bpDisable_memOk hm)) (memOk_ite ?_ hm)))
    (memOk_ite (memOk_ite ?_ (memOk_ite ?_ hm)) (memOk_ite (modLed_memOk hm) (memOk_ite (modLed_memOk hm) (memOk_ite (memOk_ite ?_ hm)
      (memOk_ite hm (memOk_ite hm hm))))))
  · exact outcomeState_memOk hm (execBreakpointEnable_memOk hm)
  · exact outcomeState_memOk hm (execBreakpointHitClear_memOk hm)
  · exact outcomeState_memOk hm (execDebugResume_memOk hm)
  · exact outcomeState_memOk hm (execDebugStep_memOk hm)
  · exact outcomeState_memOk hm (execBankDeclareFailed_memOk hm)

theorem bar4Write_memOk {s : State} {off : Nat} {v : Word} (hm : s.memOk = true) : (bar4Write s off v).memOk = true :=
  memOk_ite hm (memOk_ite hm (memOk_ite (coreWrite_memOk hm) (memOk_ite hm hm)))

theorem bar2Write_memOk {s : State} {function : Nat} {v : Word} (hm : s.memOk = true) : (bar2Write s function v).memOk = true := memOk_ite hm hm

theorem execRegisterWrite_memOk {w : Window} {off : Nat} {v : Word} {s : State} (hm : s.memOk = true) :
    Res.memOk (execRegisterWrite w off v s) = true := by
  unfold execRegisterWrite
  split
  · exact memOk_ite hm (bar0Write_memOk hm)
  · exact memOk_ite hm (bar4Write_memOk hm)
  · exact memOk_ite (bar2Write_memOk hm) hm
  · exact hm

theorem execHostRead_memOk {port : Bool} {a : HostPlace} {len : Nat} {s : State} (hm : s.memOk = true) :
    Res.memOk (execHostRead port a len s) = true := by
  unfold execHostRead
  split
  · exact memOk_ite hm hm
  · exact memOk_ite hm hm
  · exact memOk_ite hm (hostPieces_memOk (State.count_memOk hm))
  · exact memOk_ite hm (hostPieces_memOk (State.count_memOk hm))

/-! ### Machine, Issue -/

theorem illegalIssue_memOk {w : W32} {s : State} (hm : s.memOk = true) : Res.memOk (illegalIssue w s) = true := preciseFault_memOk hm

theorem offer_memOk {w : W32} {i : Instr} {s : State} (hm : s.memOk = true) : Res.memOk (offer w i s) = true := by
  unfold offer
  split
  · exact execTalloc_memOk hm
  · exact execTfree_memOk hm
  · exact execTring_memOk hm
  · exact execTownEngine_memOk hm
  · exact execTownSeq_memOk hm
  · exact execAdvp_memOk hm
  · exact execAdvc_memOk hm
  · exact execTwaitFill_memOk hm
  · exact execTwaitFree_memOk hm
  · exact execTzero_memOk hm
  · exact execTstat_memOk hm
  · exact execSplev_memOk hm
  · exact execSpbaseTile_memOk hm
  · exact execSpbaseVa_memOk hm
  · exact execSpmode_memOk hm
  · exact execSpgo_memOk hm
  · exact execSpclose_memOk hm
  · exact execSpqryLo_memOk hm
  · exact execSpqryHi_memOk hm
  · exact execSpqrySt_memOk hm
  · exact execSpwid_memOk hm
  · exact execMma_memOk hm
  · exact execMmag_memOk hm
  · exact execMmv_memOk hm
  · exact execMcoop_memOk hm
  · exact execAclr_memOk hm
  · exact execArd_memOk hm
  · exact execAwr_memOk hm
  · exact execKtopk_memOk hm
  · exact execKsort_memOk hm
  · exact execKhist_memOk hm
  · exact execKscan_memOk hm
  · exact execKmerge_memOk hm
  · exact execKpermG_memOk hm
  · exact execKpermS_memOk hm
  · exact execCpy_memOk hm
  · exact execCpyx_memOk hm
  · exact execCpyf_memOk hm
  · exact execCsig_memOk hm
  · exact execCgrp_memOk hm
  · exact execCgrpFree_memOk hm
  · exact execA2av_memOk hm
  · exact execAgth_memOk hm
  · exact execRsct_memOk hm
  · exact execAred_memOk hm
  · exact execAmo_memOk hm
  · exact execAmoc_memOk hm
  · exact execRed_memOk hm
  · exact execRedv_memOk hm
  · exact illegalIssue_memOk hm

theorem execIssue_memOk {xt xb0 xb1 xb2 : Reg} {e2 e1 e0 wide : Bool} {cmd : Cmd128} {s : State} (hm : s.memOk = true) :
    Res.memOk (execIssue xt xb0 xb1 xb2 e2 e1 e0 wide cmd s) = true := by
  unfold execIssue
  dsimp only
  split
  · exact hm
  · refine holds_ite Res.memOk hm ?_
    refine holds_ite Res.memOk hm ?_
    refine holds_ite Res.memOk hm ?_
    split
    · exact illegalIssue_memOk hm
    · exact offer_memOk hm

/-! ### Machine, Dispatch -/

theorem exec_memOk {i : Instr} {s : State} (hm : s.memOk = true) : Res.memOk (exec i s) = true := by
  unfold exec
  split
  · exact alu2_memOk hm
  · exact alu2_memOk hm
  · exact alu2_memOk hm
  · exact alu2_memOk hm
  · exact alu2_memOk hm
  · exact alu2_memOk hm
  · exact alu2_memOk hm
  · exact alu2_memOk hm
  · exact alu2_memOk hm
  · exact alu2_memOk hm
  · exact alu1_memOk hm
  · exact alu1_memOk hm
  · exact alu1_memOk hm
  · exact alu1_memOk hm
  · exact alu1_memOk hm
  · exact alu1_memOk hm
  · exact alu1_memOk hm
  · exact alu1_memOk hm
  · exact alu1_memOk hm
  · exact alu1_memOk hm
  · exact alu2_memOk hm
  · exact alu2_memOk hm
  · exact alu2_memOk hm
  · exact alu2_memOk hm
  · exact alu2_memOk hm
  · exact alu2_memOk hm
  · exact alu2_memOk hm
  · exact alu1_memOk hm
  · exact alu1_memOk hm
  · exact alu2_memOk hm
  · exact execWidx_memOk hm
  · exact alu1_memOk hm
  · exact alu1_memOk hm
  · exact alu1_memOk hm
  · exact loadLocal_memOk hm
  · exact loadLocal_memOk hm
  · exact storeLocal_memOk hm
  · exact storeLocal_memOk hm
  · exact loadDevice_memOk hm
  · exact loadDevice_memOk hm
  · exact storeDevice_memOk hm
  · exact storeDevice_memOk hm
  · exact branch_memOk hm
  · exact branch_memOk hm
  · exact branch_memOk hm
  · exact branch_memOk hm
  · exact branch_memOk hm
  · exact branch_memOk hm
  · exact withRegs_memOk hm (fun _ hu => hu)
  · exact withRegs_memOk hm (fun _ hu => memOk_ite (preciseFault_memOk hu) hu)
  · exact execLoop_memOk hm
  · exact openLoop_memOk hm
  · exact hm
  · exact hm
  · exact execPost_memOk hm
  · exact setMasks_memOk hm
  · exact setMasks_memOk hm
  · exact execMfs_memOk hm
  · exact execMts_memOk hm
  · exact execFence_memOk hm
  · exact execBarr_memOk hm
  · exact execLdgAcq_memOk hm
  · exact execStgRel_memOk hm
  · exact execLocq_memOk hm
  · exact hm
  · exact hm
  · exact hm
  · exact chooseBay_memOk hm
  · exact withRegs_memOk hm (fun _ hu => chooseBay_memOk hu)
  · exact execPref_memOk hm
  · exact execTrap_memOk hm
  · exact execTret_memOk hm
  · exact hm
  · exact execIssue_memOk hm
  · exact execHandlerDispatch_memOk hm
  · exact execControlWordArrival_memOk hm
  · exact execCommandCompletion_memOk hm
  · exact execLdgDataReturn_memOk hm
  · exact execTalloc_memOk hm
  · exact execTfree_memOk hm
  · exact execTring_memOk hm
  · exact execTownEngine_memOk hm
  · exact execTownSeq_memOk hm
  · exact execAdvp_memOk hm
  · exact execAdvc_memOk hm
  · exact execTwaitFill_memOk hm
  · exact execTwaitFree_memOk hm
  · exact execTzero_memOk hm
  · exact execTstat_memOk hm
  · exact memOk_ite hm hm
  · exact execSplev_memOk hm
  · exact execSpbaseTile_memOk hm
  · exact execSpbaseVa_memOk hm
  · exact execSpmode_memOk hm
  · exact execSpgo_memOk hm
  · exact execSpclose_memOk hm
  · exact execSpqryLo_memOk hm
  · exact execSpqryHi_memOk hm
  · exact execSpqrySt_memOk hm
  · exact execSpwid_memOk hm
  · exact execPortInjectToken_memOk hm
  · exact execPortInjectEoi_memOk hm
  · exact execPortStoreToken_memOk hm
  · exact execPortInvocationStart_memOk hm
  · exact memOk_ite hm (memOk_ite hm hm)
  · exact newWindow_memOk hm
  · exact execMma_memOk hm
  · exact execMmag_memOk hm
  · exact execMmv_memOk hm
  · exact execMcoop_memOk hm
  · exact execAclr_memOk hm
  · exact execArd_memOk hm
  · exact execAwr_memOk hm
  · exact execMatrixStart_memOk hm
  · exact execMatrixWaveStep_memOk hm
  · exact execMatrixCommit_memOk hm
  · exact execKtopk_memOk hm
  · exact execKsort_memOk hm
  · exact execKhist_memOk hm
  · exact execKscan_memOk hm
  · exact execKmerge_memOk hm
  · exact execKpermG_memOk hm
  · exact execKpermS_memOk hm
  · exact execKeyCommandComplete_memOk hm
  · exact execCpy_memOk hm
  · exact execCpyx_memOk hm
  · exact execCpyf_memOk hm
  · exact execCsig_memOk hm
  · exact execCopyComplete_memOk hm
  · exact execCgrp_memOk hm
  · exact execCgrpFree_memOk hm
  · exact execA2av_memOk hm
  · exact execAgth_memOk hm
  · exact execRsct_memOk hm
  · exact execAred_memOk hm
  · exact execCollectiveRendezvous_memOk hm
  · exact execCollectiveComplete_memOk hm
  · exact execAmo_memOk hm
  · exact execAmoc_memOk hm
  · exact execRed_memOk hm
  · exact execRedv_memOk hm
  · exact floatNode_memOk hm
  · exact floatNode_memOk hm
  · exact floatNode_memOk hm
  · exact vecNode_memOk hm
  · exact floatNode_memOk hm
  · exact floatNode_memOk hm
  · exact floatNode_memOk hm
  · exact floatNode_memOk hm
  · exact floatNode_memOk hm
  · exact floatNode_memOk hm
  · exact floatNode_memOk hm
  · exact floatNode_memOk hm
  · exact floatNode_memOk hm
  · exact floatNode_memOk hm
  · exact floatNode_memOk hm
  · exact intNode_memOk hm
  · exact intNode_memOk hm
  · exact intNode_memOk hm
  · exact intNode_memOk hm
  · exact intNode_memOk hm
  · exact intNode_memOk hm
  · exact intNode_memOk hm
  · exact vecNode_memOk hm
  · exact vecNode_memOk hm
  · exact vecNode_memOk hm
  · exact vecNode_memOk hm
  · exact intNode_memOk hm
  · exact intNode_memOk hm
  · exact intNode_memOk hm
  · exact pureNode_memOk hm
  · exact pureNode_memOk hm
  · exact pureNode_memOk hm
  · exact reduceNode_memOk hm
  · exact reduceNode_memOk hm
  · exact reduceNode_memOk hm
  · exact execCvt_memOk hm
  · exact execPack_memOk hm
  · exact execUnpack_memOk hm
  · exact execSteer_memOk hm
  · exact execMerge_memOk hm
  · exact execCarry_memOk hm
  · exact pureNode_memOk hm
  · exact execGate_memOk hm
  · exact execJoin_memOk hm
  · exact pureNode_memOk hm
  · exact execSink_memOk hm
  · exact pureNode_memOk hm
  · exact execCount_memOk hm
  · exact vecNode_memOk hm
  · exact execMload_memOk hm
  · exact execMstore_memOk hm
  · exact execMatom_memOk hm
  · exact execMred_memOk hm
  · exact execGload_memOk hm
  · exact execGstore_memOk hm
  · exact execCmpr_memOk hm
  · exact execCsum_memOk hm
  · exact execTrace_memOk hm
  · exact execBarOrderingPointRelease_memOk hm
  · exact execBaySwitch_memOk hm
  · exact execLaunch_memOk hm
  · exact execGraphCond_memOk hm
  · exact execGraphWhile_memOk hm
  · exact graphNode_memOk hm (fun _ hu => waitTest_memOk hu)
  · exact execSignal_memOk hm
  · exact graphNode_memOk hm (fun _ hu => nodeDone_memOk hu)
  · exact execGraphEnd_memOk hm
  · exact execWalkerClaim_memOk hm
  · exact execLineWatchFire_memOk hm
  · exact execWaitmRetest_memOk hm
  · exact execQueueAging_memOk hm
  · exact execReserveRequest_memOk hm
  · exact execConfigurationLoad_memOk hm
  · exact execRowDrain_memOk hm
  · exact execPreemptRequest_memOk hm
  · exact execContextSave_memOk hm
  · exact execContextRestore_memOk hm
  · exact execSliceExpiry_memOk hm
  · exact execWatchdogExpiry_memOk hm
  · exact execSaveTimeout_memOk hm
  · exact execSweepRowFree_memOk hm
  · exact execTrapEntry_memOk hm
  · exact execCtxcmdResume_memOk hm
  · exact execCtxcmdDestroy_memOk hm
  · exact execGo_memOk hm
  · exact execDebugResume_memOk hm
  · exact execDebugStep_memOk hm
  · exact execBreakpointHitClear_memOk hm
  · exact execBreakpointEnable_memOk hm
  · exact execBankDeclareFailed_memOk hm
  · exact execPacketDecode_memOk hm
  · exact stampReady_memOk (deliverAt_memOk hm (fun _ _ hu => handOn_memOk hu))
  · exact execErr_memOk hm
  · exact execAck_memOk hm
  · exact memOk_ite hm (sendAck_memOk hm)
  · exact execNack_memOk hm
  · exact memOk_ite hm (resend_memOk hm)
  · exact memOk_ite hm (resend_memOk hm)
  · exact memOk_ite hm (memOk_ite (connect_memOk (killLink_memOk hm)) hm)
  · exact memOk_ite hm (removeDie_memOk hm)
  · exact execResyncQuiesce_memOk hm
  · exact execResyncExchange_memOk hm
  · exact execResyncClear_memOk hm
  · exact execResyncResume_memOk hm
  · exact stampReady_memOk (deliverAt_memOk hm (fun _ _ hu => memOk_ite hu hu))
  · exact execInvgo_memOk hm
  · exact execInv_memOk hm
  · exact execInvack_memOk hm
  · exact memOk_ite hm (sendInv_memOk hm)
  · exact rewalkFrames_memOk hm
  · exact execSquareArrival_memOk hm
  · exact execBarrierRelease_memOk hm
  · exact execBarrierWithdraw_memOk hm
  · exact execBarrierWithdrawAnswer_memOk hm
  · exact execHostRead_memOk hm
  · exact memOk_ite hm (hostPieces_memOk (State.count_memOk hm))
  · exact execHostAtomic_memOk hm
  · exact execLvlreq_memOk hm
  · exact memOk_ite hm (settleRamp_memOk hm)
  · exact execRamptabWrite_memOk hm
  · exact memOk_ite hm hm
  · exact execSlewLimiterStep_memOk hm
  · exact hm
  · exact execFwloss_memOk hm
  · exact execThermalTrip_memOk hm
  · exact memOk_ite hm hm
  · exact execPowerOnReset_memOk hm
  · exact execDevrst_memOk hm
  · exact execAtgo_memOk hm
  · exact memOk_ite hm (regs_memOk (writeHash_memOk _ _ hm))
  · exact hm
  · exact sendOp_memOk hm
  · exact sendOp_memOk hm
  · exact sendOp_memOk hm
  · exact sendOp_memOk hm
  · exact execIncomingSend_memOk hm
  · exact execIncomingRdmaWrite_memOk hm
  · exact execIncomingRdmaRead_memOk hm
  · exact execRoceCompletion_memOk hm
  · exact execSqdb_memOk hm
  · exact execRqdb_memOk hm
  · exact execCqdb_memOk hm
  · exact execQpStateWrite_memOk hm
  · exact execRegisterWrite_memOk hm
  · exact execFlitBoundary_memOk hm
  · exact execFlitArrival_memOk hm
  · exact hm
  · exact execAccessPerformed_memOk hm
  · exact execPageWalkComplete_memOk hm
  · exact execInstructionCacheFill_memOk hm
  · exact execCopyExecutionFault_memOk hm
  · exact execKeyExecutionFault_memOk hm
  · exact memOk_ite hm hm
  · exact memOk_ite hm (memOk_ite hm (trainLinks_memOk hm))
  · exact memOk_ite hm hm
  · exact execRoceAckTimeout_memOk hm
  · exact execDoorbellLineReread_memOk hm

/-! ### Machine, Sequencer -/

theorem runWords_memOk {s : State} {ws : List W32} (hm : s.memOk = true) : Res.memOk (runWords s ws) = true := by
  unfold runWords
  split
  · exact preciseFault_memOk hm
  · exact exec_memOk hm

theorem runNext_memOk {s : State} (hm : s.memOk = true) : Res.memOk (runNext s) = true := by
  unfold runNext
  dsimp only
  split
  · exact preciseFault_memOk hm
  · split
    · exact hm
    · exact runWords_memOk hm

theorem seqStep_memOk {s0 : State} {c : Nat} (hms0 : s0.memOk = true) : Res.memOk (seqStep s0 c) = true := by
  unfold seqStep
  dsimp only
  split
  · exact hms0
  · refine holds_ite Res.memOk hms0 ?_
    split
    · refine holds_ite Res.memOk hms0 ?_
      split
      · exact rfl
      · exact exec_memOk hms0
    · refine holds_ite Res.memOk (takeHeld_memOk hms0) ?_
      split
      · exact exec_memOk hms0
      · exact runNext_memOk hms0

theorem cmdStep_memOk {s : State} {core id : Nat} (hm : s.memOk = true) : Res.memOk (cmdStep s core id) = true := by
  unfold cmdStep
  split
  · exact hm
  · split
    · exact rfl
    · exact exec_memOk hm

theorem nodeStep_memOk {s : State} {core cell stage : Nat} (hm : s.memOk = true) : Res.memOk (nodeStep s core cell stage) = true := by
  unfold nodeStep
  refine holds_ite Res.memOk hm ?_
  split
  · exact rfl
  · exact exec_memOk hm

theorem graphStep_memOk {s : State} {die : Nat} {va : Word} (hm : s.memOk = true) : Res.memOk (graphStep s die va) = true := by
  unfold graphStep
  refine holds_ite Res.memOk hm ?_
  split
  · exact nodeFault_memOk _ _ _ hm
  · split
    · exact nodeFault_memOk _ _ _ hm
    · exact exec_memOk hm

theorem runAct_memOk {s : State} {y0 : Act} (hm : s.memOk = true) : Res.memOk (runAct s y0) = true := by
  unfold runAct
  split
  · exact holds_ite Res.memOk (seqStep_memOk hm) rfl
  · exact holds_ite Res.memOk (cmdStep_memOk hm) rfl
  · exact holds_ite Res.memOk (nodeStep_memOk hm) (holds_ite Res.memOk (slotSink_memOk hm) rfl)
  · exact holds_ite Res.memOk (graphStep_memOk hm) rfl
  · exact holds_ite Res.memOk (exec_memOk hm) rfl
  · exact passTime_memOk hm

/-! ### Machine, Step -/

theorem step_memOk {s : State} (hm : s.memOk = true) : Res.memOk (step s) = true := by
  unfold step
  split <;> exact runAct_memOk hm

/-- Settles O59: both memories of the reset state are empty. -/
theorem resetMeetsInvariant : Obligations.ResetMeetsInvariant := by
  unfold Obligations.ResetMeetsInvariant
  rfl

/-- Settles O60: by the lemma about `step`, which goes through every function a step can run. -/
theorem stepKeepsMemoryCanonical : Obligations.StepKeepsMemoryCanonical := by
  unfold Obligations.StepKeepsMemoryCanonical
  intro s t hm hstep
  have h := step_memOk hm
  rw [hstep] at h
  exact h

end Sys2Proof.Machine
end

section
/-!
PROOFS. The tile commands (R215, R216), waits and pointers of rings (R214), and the flip of the owner bit (R213): O22.
-/

namespace Sys2Proof.Machine

/-! ### The order of the tile table (R215) -/

theorem tileCmd_accepts {s : State} {act : State → TileAns} (h : s.cur.slot = 0) : tileCmd s act = .next (accept s [] 0) := by
  simp [tileCmd, h]

/-- What the answer of the tile table does to a command whose turn it is; a wait that it takes now is numbered. -/
def tileAnswered (s : State) (c : Cmd) : TileAns → State
  | .wait t => if c.phase == .running then t else modCmd t.bump s.cur.core s.cur.slot fun x => { x with phase := .running, prog := newId t }
  | .done t r => s.completes t 0 r
  | .bad r => s.completes s cFORMAT r

section
variable {s : State} {c : Cmd} {act : State → TileAns} (hturn : s.tileTurn c)
include hturn

/-- A command whose turn it is gets the answer of the tile table. -/
theorem tileCmd_answers : tileCmd s act = .next (tileAnswered s c (act s)) := by
  obtain ⟨⟨hslot, hcmd, hphase⟩, hfirst⟩ := hturn
  have hopen : (c.phase == .accepted || c.phase == .running) = true := by rcases hphase with h | h <;> rw [h] <;> rfl
  have hnone : ((s.core s.cur.core).cmds.any fun x => x.id < s.cur.slot && x.cmd.extractLsb' 120 8 == 1 && x.phase == .accepted) = false := by
    rw [List.any_eq_false]
    intro x hx
    simpa using hfirst x hx
  have hissue : issuing s = false := by simpa using hslot
  simp only [tileCmd, hissue, hcmd, hopen, hnone, Bool.false_eq_true, if_false, Bool.not_true]
  cases act s <;> rfl

theorem tileCmd_done {t : State} {r : W32} (hact : act s = .done t r) : tileCmd s act = .next (s.completes t 0 r) := by
  rw [tileCmd_answers hturn, hact, tileAnswered]

theorem tileCmd_wait {t : State} (hnew : c.phase = .accepted) (hact : act s = .wait t) :
    tileCmd s act = .next (modCmd t.bump s.cur.core s.cur.slot fun x => { x with phase := .running, prog := newId t }) := by
  rw [tileCmd_answers hturn, hact, tileAnswered, hnew]
  rfl

/-- Whether the acting command is taken is its phase. -/
theorem taken_eq : taken s = (c.phase == .running) := by
  obtain ⟨⟨-, hcmd, -⟩, -⟩ := hturn
  exact congrArg (fun x : Option Cmd => (x.map fun y => y.phase == .running).getD false) hcmd

end

/-! ### Allocation (R211) -/

/-- The limits of R209 and R210 on a tile that is within them. -/
theorem tileLimits_of {s : State} {level : BitVec 2} {ring : Bool} {rows rowb : Nat} (hlevel : level ≠ 3) (hrow1 : 1 ≤ rows)
    (hrows : rows ≤ if ring then 4096 else 65536) (halign : rowb % 64 = 0) (hmin : 64 ≤ rowb) (hmax : rowb ≤ 65536)
    (hsize : rows * rowb ≤ if level = 0 then 524288 else if level = 1 then 2097152
      else 2097152 * ((s.plotOf s.cur.core).map fun q => (heldCores s q).length).getD 0) : tileLimits s level ring rows rowb = true := by
  have hcap : rows * rowb ≤ if level == 0 then 524288 else if level == 1 then 2097152
      else 2097152 * ((s.plotOf s.cur.core).map fun q => (heldCores s q).length).getD 0 := by simpa only [beq_iff_eq] using hsize
  simp only [tileLimits, Bool.and_eq_true, bne_iff_ne, ne_eq, decide_eq_true_eq, beq_iff_eq] at hcap ⊢
  exact ⟨⟨⟨⟨⟨⟨hlevel, hrow1⟩, hrows⟩, halign⟩, hmin⟩, hmax⟩, hcap⟩

/-- An allocation that meets every condition makes the entry at the base that it finds. -/
theorem allocTile_ok {s : State} {level cellm : BitVec 2} {ring : Bool} {h rows rowb b : Nat} (hfree : (getTile s s.cur.core h).valid = false)
    (hplot : level = 2 → isLead s = true ∧
      ∀ x ∈ ((s.plotOf s.cur.core).map (heldCores s)).getD [s.cur.core], (tget Tile.init (s.core x).tiles h).valid = false)
    (hlimits : tileLimits s level ring rows rowb = true)
    (hbase : findBase s (stripeSet s s.cur.core level cellm) (tileUnits (rows * rowb) (stripeSet s s.cur.core level cellm).length) = some b) :
    allocTile s s.cur.core level ring cellm h rows rowb = .ok (s.modCore s.cur.core fun k =>
      { k with tiles := tset Tile.init k.tiles h (newTile level ring cellm rows rowb b) }) := by
  have hlead : (level == 2 && !isLead s) = false := by
    by_cases h2 : level = 2
    · simp [(hplot h2).1]
    · rw [beq_false_of_ne h2, Bool.false_and]
  have hclear : (level == 2 && (((s.plotOf s.cur.core).map (heldCores s)).getD [s.cur.core]).any fun c =>
      (tget Tile.init (s.core c).tiles h).valid) = false := by
    by_cases h2 : level = 2
    · rw [Bool.and_eq_false_iff, List.any_eq_false]
      exact .inr fun x hx => by simp [(hplot h2).2 x hx]
    · rw [beq_false_of_ne h2, Bool.false_and]
  simp only [allocTile, hlead, hfree, hclear, hlimits, hbase, Bool.or_false, Bool.false_eq_true, if_false, Bool.not_true]

/-! ### The status word of TSTAT (R216) -/

theorem tileStatus_fields (v o h r : Bool) (l : BitVec 2) (x y : BitVec 13) :
    let w := BitVec.ofBool v ++ BitVec.ofBool o ++ BitVec.ofBool h ++ BitVec.ofBool r ++ l ++ x ++ y
    w.getLsbD 31 = v ∧ w.getLsbD 30 = o ∧ w.getLsbD 29 = h ∧ w.getLsbD 28 = r ∧ w.extractLsb' 26 2 = l ∧ w.extractLsb' 13 13 = x ∧
      w.extractLsb' 0 13 = y := by
  intro w
  refine ⟨?_, ?_, ?_, ?_, ?_, ?_, (fld_app_lo _ _ _ _ (by decide)).trans (fld_all _)⟩
  · iterate 6 rw [bit_app_hi _ _ _ (by decide)]
    exact bit_ofBool' _ _ rfl
  · iterate 5 rw [bit_app_hi _ _ _ (by decide)]
    rw [bit_app_lo _ _ _ (by decide)]
    exact bit_ofBool' _ _ rfl
  · iterate 4 rw [bit_app_hi _ _ _ (by decide)]
    rw [bit_app_lo _ _ _ (by decide)]
    exact bit_ofBool' _ _ rfl
  · iterate 3 rw [bit_app_hi _ _ _ (by decide)]
    rw [bit_app_lo _ _ _ (by decide)]
    exact bit_ofBool' _ _ rfl
  · iterate 2 rw [fld_app_hi _ _ _ _ (by decide)]
    rw [fld_app_lo _ _ _ _ (by decide)]
    exact fld_all _
  · rw [fld_app_hi _ _ _ _ (by decide), fld_app_lo _ _ _ _ (by decide)]
    exact fld_all _

/-! ### O22 -/

/-- Settles O22: the answer of the tile table to each command when its turn comes. -/
theorem tileCommands : Obligations.TileCommands := by
  refine ⟨?accept, ?answer, ?flip⟩
  case accept =>
    intro s h level cellm ring n m hslot i hi
    simp only [List.mem_cons, List.not_mem_nil, or_false] at hi
    rcases hi with rfl | rfl | rfl | rfl | rfl | rfl | rfl | rfl | rfl | rfl | rfl
    · exact (tileCmd_accepts hslot : execTalloc level ring cellm h n m s = _)
    · exact (tileCmd_accepts hslot : execTfree h s = _)
    · exact (tileCmd_accepts hslot : execTring h n s = _)
    · exact (tileCmd_accepts hslot : execTownEngine h s = _)
    · exact (tileCmd_accepts hslot : execTownSeq h s = _)
    · exact (tileCmd_accepts hslot : execAdvp h n s = _)
    · exact (tileCmd_accepts hslot : execAdvc h n s = _)
    · exact (tileCmd_accepts hslot : execTwaitFill h n s = _)
    · exact (tileCmd_accepts hslot : execTwaitFree h n s = _)
    · exact (tileCmd_accepts hslot : execTzero h s = _)
    · exact (tileCmd_accepts hslot : execTstat h s = _)
  case answer =>
    intro s c h n hturn k t entry
    refine ⟨?alloc, ?freeRing, ?own, ?ring, ?zero, ?stat⟩
    case alloc =>
      intro level cellm ring rows rowb b hlevel hfree hplot hrow1 hrows halign hmin hmax hsize hbase
      refine (tileCmd_done hturn ?_ : execTalloc level ring cellm h rows rowb s = _)
      rw [show allocTile s s.cur.core level ring cellm h.toNat rows.toNat rowb.toNat = _ from
        allocTile_ok hfree hplot (tileLimits_of hlevel hrow1 hrows halign hmin hmax hsize) hbase]
      rfl
    case freeRing =>
      intro hvalid hlead
      refine ⟨fun hheld hholders hbusy => (tileCmd_done hturn ?_ : execTfree h s = _),
        fun hring hfill hbusy hptr => (tileCmd_done hturn ?_ : execTring h n s = _)⟩
      · simpa [t, k, hvalid, hheld, hholders, hbusy] using hlead
      · simpa [t, k, hvalid, hring, hbusy, hptr, Nat.not_lt.mpr hfill] using hlead
    case own =>
      intro hvalid hring
      refine ⟨fun hheld howner hphase => (tileCmd_wait hturn hphase ?_ : execTownEngine h s = _),
        fun howner hphase => (tileCmd_done hturn ?_ : execTownEngine h s = _), fun hheld => (tileCmd_done hturn ?_ : execTownSeq h s = _)⟩
      · simp [t, k, taken_eq hturn, hphase, hvalid, hring, hheld, howner]
      · simp [t, k, taken_eq hturn, hphase, howner]
      · simp [t, k, hvalid, hring, hheld]
    case ring =>
      intro hvalid hring
      have hstays (hstay : t.busy = 0 ∧ pointersHeld s k h.toNat = false ∨ n = 0) :
          ¬t.busy = 0 ∨ pointersHeld s k h.toNat = true → n = 0 := by
        rcases hstay with ⟨hbusy, hptr⟩ | hn
        · simp [hbusy, hptr]
        · exact fun _ => hn
      refine ⟨fun hroom hstay => (tileCmd_done hturn ?_ : execAdvp h n s = _), fun hroom hstay => (tileCmd_done hturn ?_ : execAdvc h n s = _),
        fun hrows hthere hserved => (tileCmd_done hturn ?_ : execTwaitFill h n s = _),
        fun hrows hthere hserved => (tileCmd_done hturn ?_ : execTwaitFree h n s = _)⟩
      · simpa [t, k, hvalid, hring, Nat.not_lt.mpr hroom, advanceP] using hstays hstay
      · simpa [t, k, hvalid, hring, Nat.not_lt.mpr hroom, advanceC] using hstays hstay
      · simp [t, k, hvalid, hring, hserved, Nat.not_lt.mpr hrows, Nat.not_lt.mpr hthere]
      · simp [t, k, hvalid, hring, hserved, Nat.not_lt.mpr hrows, Nat.not_lt.mpr hthere]
    case zero =>
      intro hvalid hheld howner hholders hbusy
      refine (tileCmd_done hturn ?_ : execTzero h s = _)
      simp [t, k, hvalid, hheld, howner, hholders, hbusy]
    case stat =>
      obtain ⟨h31, h30, h29, h28, hlevel, hfree, hfill⟩ := tileStatus_fields t.valid t.owner t.held t.ring t.level
        (BitVec.ofNat 13 (if t.ring then t.free else 0)) (BitVec.ofNat 13 t.fill)
      refine ⟨_, (tileCmd_done hturn rfl : execTstat h s = _), h31, h30, h29, h28, hlevel, ?_, ?_⟩
      · exact (congrArg BitVec.toNat hfree).trans (BitVec.toNat_ofNat ..)
      · exact (congrArg BitVec.toNat hfill).trans (BitVec.toNat_ofNat ..)
  case flip =>
    intro s core h t
    refine ⟨fun hvalid hring hholders howner hbusy => ?_, fun hstay => ?_⟩
    · show execOwnerFlip core h s = _
      simp [execOwnerFlip, t, hvalid, hring, hholders, howner, hbusy]
    · show execOwnerFlip core h s = _
      rw [execOwnerFlip, if_neg]
      rcases hstay with hs | hs | hs <;> simp [t, hs]

end Sys2Proof.Machine
end

section
/-!
PROOFS. The stream commands of a port (R221, R231): O23.
-/

namespace Sys2Proof.Machine

/-! ### Issue of a stream command -/

/-- Setting a port to a function of its registers is changing it by that function. -/
theorem State.modPort_const (s : State) (c p : Nat) (f : Port → Port) : (s.modPort c p fun _ => f (s.port c p)) = s.modPort c p f := rfl

/-- What a change of a port does depends on its present registers only. -/
theorem State.modPort_congr {s : State} {c p : Nat} {f g : Port → Port} (h : f (s.port c p) = g (s.port c p)) : s.modPort c p f = s.modPort c p g := by
  rw [← State.modPort_const s c p f, h]
  rfl

section
variable {s : State} {p : BitVec 3} {idleOnly : Bool} {f : Port → Option (Port × W32)} (hslot : s.cur.slot = 0)
  (hidle : idleOnly = true → (s.port s.cur.core p.toNat).state = .idle)
include hslot hidle

/-- An issued stream command that does not stall is accepted and completes at once. -/
theorem streamCmd_completes : streamCmd s p idleOnly f = .next (
    (f ((accept s [] 0).port s.cur.core p.toNat)).elim (finishCmd (accept s [] 0) s.cur.core (s.nextId + 1) cFORMAT 2) fun x =>
      finishCmd ((accept s [] 0).modPort s.cur.core p.toNat fun _ => x.1) s.cur.core (s.nextId + 1) 0 x.2) := by
  have hfree : (idleOnly && (s.port s.cur.core p.toNat).state != .idle) = false := by
    cases idleOnly
    · rfl
    · rw [hidle rfl]; rfl
  have hissue : issuing s = true := by simpa using hslot
  simp only [streamCmd, hissue, hfree, Bool.not_true, Bool.false_eq_true, if_false]
  cases f ((accept s [] 0).port s.cur.core p.toNat) <;> rfl

theorem streamCmd_sets {g : Port → Port} {r : W32}
    (hf : f ((accept s [] 0).port s.cur.core p.toNat) = some (g ((accept s [] 0).port s.cur.core p.toNat), r)) :
    streamCmd s p idleOnly f = .next (finishCmd ((accept s [] 0).modPort s.cur.core p.toNat g) s.cur.core (s.nextId + 1) 0 r) := by
  rw [streamCmd_completes hslot hidle, hf]
  rfl

theorem streamCmd_wrong (hf : f ((accept s [] 0).port s.cur.core p.toNat) = none) :
    streamCmd s p idleOnly f = .next (finishCmd (accept s [] 0) s.cur.core (s.nextId + 1) cFORMAT 2) := by
  rw [streamCmd_completes hslot hidle, hf, Option.elim_none]

end

/-- A command for an idle port stalls on a busy one. -/
theorem streamCmd_stalls {s : State} {p : BitVec 3} {f : Port → Option (Port × W32)} (hslot : s.cur.slot = 0)
    (hbusy : (s.port s.cur.core p.toNat).state ≠ .idle) (hnew : s.cur.replay = none) :
    streamCmd s p true f = .next (stallOn s (.port p.toNat)) := by
  have hissue : issuing s = true := by simpa using hslot
  have hstate : ((s.port s.cur.core p.toNat).state != .idle) = true := by simpa using hbusy
  simp only [streamCmd, hissue, hstate, Bool.not_true, Bool.false_eq_true, if_false, Bool.true_and, if_true, acceptStall, hnew]

/-! ### Operands -/

/-- A 40-bit operand is one whose signed value 40 bits hold. -/
theorem fits40_iff (v : Word) : fits40 v = true ↔ -2 ^ 39 ≤ v.toInt ∧ v.toInt < 2 ^ 39 := by
  have hfield : ((v.extractLsb' 0 40).signExtend 64).toInt = v.toInt.bmod (2 ^ 40) := by
    rw [BitVec.toInt_signExtend_of_le (by decide), BitVec.toInt_extractLsb', BitVec.toInt_eq_toNat_bmod v,
      Int.bmod_bmod_of_dvd (pow_dvd_pow 2 (by decide)), Nat.shiftRight_zero]
  rw [fits40, beq_iff_eq, ← BitVec.toInt_inj, hfield]
  refine ⟨fun h => ?_, fun ⟨hlo, hhi⟩ => Int.bmod_eq_of_le (by simpa using hlo) (by simpa using hhi)⟩
  have hlo : -(((2 ^ 40 : Nat) : Int) / 2) ≤ v.toInt.bmod (2 ^ 40) := Int.le_bmod (by decide)
  have hhi : v.toInt.bmod (2 ^ 40) < (((2 ^ 40 : Nat) : Int) + 1) / 2 := Int.bmod_lt (by decide)
  rw [h] at hlo hhi
  exact ⟨by simpa using hlo, by simpa using hhi⟩

theorem fits40_eq_false {v : Word} (h : 2 ^ 39 ≤ v.toInt ∨ v.toInt < -2 ^ 39) : fits40 v = false := by
  rw [Bool.eq_false_iff, ne_eq, fits40_iff]
  omega

/-- A field of a word, as a number. -/
theorem field_ne_zero {w : Nat} (b : BitVec w) (lo len : Nat) : b.extractLsb' lo len ≠ 0 ↔ b.toNat / 2 ^ lo % 2 ^ len ≠ 0 := by
  rw [ne_eq, ← BitVec.toNat_inj, BitVec.extractLsb'_toNat, Nat.shiftRight_eq_div_pow]
  rfl

/-- A base operand with bits above its handle is 64 or more. -/
theorem base_high_iff (b : BitVec 32) : b.extractLsb' 6 26 ≠ 0 ↔ 64 ≤ b.toNat := by
  rw [field_ne_zero]
  omega

/-- The word of SPQRY.ST: its count above its state code. -/
theorem status_word (n : BitVec 30) (c : BitVec 2) : (n ++ c).toNat / 4 = n.toNat ∧ (n ++ c).toNat % 4 = c.toNat := by
  have h : (n ++ c).toNat = n.toNat * 4 + c.toNat := by
    rw [BitVec.toNat_append, ← Nat.shiftLeft_add_eq_or_of_lt c.isLt, Nat.shiftLeft_eq]
  rw [h]
  omega

/-- What SPMODE refuses (R221, R226, R227). -/
theorem spmode_refused_iff {b0 : BitVec 32} {mods : BitVec 7} {p : BitVec 3} {bridge : Bool} :
    (b0.extractLsb' 5 3 ≠ 0 ∨ b0.extractLsb' 12 20 ≠ 0 ∨ (b0.extractLsb' 0 5).toNat = 0 ∨ (b0.extractLsb' 0 5).toNat > 16 ∨
      (mods.extractLsb' 3 3).toNat > 4 ∨ (mods.getLsbD 1 ∧ (p.toNat < 4 ∨ !bridge)) ∨ (mods.getLsbD 1 ∧ mods.getLsbD 2)) ↔
    b0.toNat / 32 % 8 ≠ 0 ∨ b0.toNat % 32 = 0 ∨ 16 < b0.toNat % 32 ∨ 4096 ≤ b0.toNat ∨ 4 < (mods.extractLsb' 3 3).toNat ∨
      (mods.getLsbD 1 = true ∧ (p.toNat < 4 ∨ bridge = false ∨ mods.getLsbD 2 = true)) := by
  have hlanes : (b0.extractLsb' 0 5).toNat = b0.toNat % 32 := by rw [BitVec.extractLsb'_toNat]; rfl
  have hhigh : b0.toNat / 2 ^ 12 % 2 ^ 20 ≠ 0 ↔ 4096 ≤ b0.toNat := by omega
  rw [field_ne_zero, field_ne_zero, hhigh, hlanes]
  simp only [Bool.not_eq_true', gt_iff_lt]
  constructor
  · rintro (h | h | h | h | h | ⟨hva, h⟩ | ⟨hva, h⟩)
    · exact .inl h
    · exact .inr (.inr (.inr (.inl h)))
    · exact .inr (.inl h)
    · exact .inr (.inr (.inl h))
    · exact .inr (.inr (.inr (.inr (.inl h))))
    · exact .inr (.inr (.inr (.inr (.inr ⟨hva, h.imp_right .inl⟩))))
    · exact .inr (.inr (.inr (.inr (.inr ⟨hva, .inr (.inr h)⟩))))
  · rintro (h | h | h | h | h | ⟨hva, h | h | h⟩)
    · exact .inl h
    · exact .inr (.inr (.inl h))
    · exact .inr (.inr (.inr (.inl h)))
    · exact .inr (.inl h)
    · exact .inr (.inr (.inr (.inr (.inl h))))
    · exact .inr (.inr (.inr (.inr (.inr (.inl ⟨hva, .inl h⟩)))))
    · exact .inr (.inr (.inr (.inr (.inr (.inl ⟨hva, .inr h⟩)))))
    · exact .inr (.inr (.inr (.inr (.inr (.inr ⟨hva, h⟩)))))

/-! ### SPCLOSE (R231) -/

/-- What SPCLOSE makes of the registers of a running port. -/
def closedRun (s : State) (core p : Nat) (x : Port) : Port :=
  if x.started then { x with left := min x.left 1, bar := x.bar && x.left ≤ 1, closeRun := x.closeRun || x.left > 1 }
  else if portSettled s core p then { x with left := 0, bar := false, closeRun := false, waitId := 0, state := .idle }
  else { x with left := 0, bar := false, closeRun := true, doneDue := true, waitId := 0 }

section
variable {s : State} {p : BitVec 3} {c : Cmd} (hworks : s.works c)
include hworks

theorem spclose_idle (hidle : (s.port s.cur.core p.toNat).state = .idle) :
    execSpclose p s = .next (finishCmd s s.cur.core c.id 0 ((s.port s.cur.core p.toNat).pos.extractLsb' 0 32)) := by
  obtain ⟨hslot, hcmd, hphase⟩ := hworks
  have hissue : issuing s = false := by simpa using hslot
  have hopen : (c.phase == .accepted || c.phase == .running) = true := by rcases hphase with h | h <;> rw [h] <;> rfl
  simp only [execSpclose, hissue, hcmd, hopen, hidle, beq_self_eq_true, Bool.not_true, Bool.false_eq_true, if_false, if_true,
    ← BitVec.setWidth_eq_extractLsb' (show 32 ≤ 64 by decide)]

theorem spclose_running (hrun : (s.port s.cur.core p.toNat).state = .run) (hdue : (s.port s.cur.core p.toNat).doneDue = false)
    (hnew : c.phase = .accepted) : execSpclose p s = .next ((modCmd s s.cur.core c.id fun x => { x with phase := .running }).modPort s.cur.core
      p.toNat (closedRun s s.cur.core p.toNat)) := by
  obtain ⟨hslot, hcmd, -⟩ := hworks
  have hissue : issuing s = false := by simpa using hslot
  simp only [execSpclose, hissue, hcmd, hnew, hrun, hdue, Bool.false_eq_true, if_false, Bool.not_true, Bool.true_or, Bool.not_false,
    beq_self_eq_true, Bool.and_true, if_true, show (PortState.run == PortState.idle) = false from rfl]
  rfl

end

/-! ### O23 -/

/-- Settles O23: the effect of each stream command on an idle and on a busy port. -/
theorem streamCommands : Obligations.StreamCommands := by
  refine ⟨?issued, ?closing⟩
  case issued =>
    intro s p hslot c t set asks wrong x
    have hask : false = true → (s.port s.cur.core p.toNat).state = .idle := nofun
    refine ⟨?idle, ?lo, ?hi, ?st, ?bad, ?close, ?busy⟩
    case idle =>
      intro hidle
      have hgo : true = true → (s.port s.cur.core p.toNat).state = .idle := fun _ => hidle
      refine ⟨?splev, ?tile, ?va, ?mode, ?go, ?wid⟩
      case splev =>
        intro level stride count
        refine ⟨fun h => (streamCmd_sets hslot hgo ?_ : execSplev p level stride count s = _),
          fun h => (streamCmd_wrong hslot hgo ?_ : execSplev p level stride count s = _)⟩
        · rw [if_pos ((fits40_iff stride).mpr h)]
        · rw [if_neg (by rw [fits40_eq_false h]; decide)]
      case tile =>
        intro b0 off
        refine ⟨fun h => (streamCmd_sets hslot hgo ?_ : execSpbaseTile p b0 off s = _),
          fun h => (streamCmd_wrong hslot hgo ?_ : execSpbaseTile p b0 off s = _)⟩
        · rw [if_neg (by rw [base_high_iff]; omega)]
        · rw [if_pos ((base_high_iff b0).mpr h)]
      case va => exact fun addr => (streamCmd_sets hslot hgo rfl : execSpbaseVa p addr s = _)
      case mode =>
        intro mods b0 ceil lanes
        have hlanes : (b0.extractLsb' 0 5).toNat = lanes := by rw [BitVec.extractLsb'_toNat]; rfl
        refine ⟨fun hzero hsmall hlane1 hlane16 hsheaf hva => ?_, fun h => ?_⟩ <;> show execSpmode p mods b0 ceil s = _ <;> unfold execSpmode
        · refine streamCmd_sets hslot hgo ?_
          dsimp only
          rw [if_neg, hlanes]
          rw [spmode_refused_iff]
          rintro (h | h | h | h | h | ⟨hbit, h⟩)
          · exact h hzero
          · omega
          · omega
          · omega
          · omega
          · obtain ⟨hp, hbridge, hauto⟩ := hva hbit
            rcases h with h | h | h
            · omega
            · rw [hbridge] at h; cases h
            · rw [hauto] at h; cases h
        · exact streamCmd_wrong hslot hgo (if_pos (spmode_refused_iff.mpr h))
      case go =>
        intro bar chan n q hplot avail run
        have hq : ((s.plotOf s.cur.core).map fun y => invLeft y x.pos x.ended).getD 0 = avail := by rw [hplot]; rfl
        refine ⟨fun h => ?_, fun h => ?_⟩ <;> show execSpgo p bar chan n s = _ <;> unfold execSpgo <;> refine streamCmd_sets hslot hgo ?_ <;>
          dsimp only
        · rw [hq, if_neg h]
        · rw [hq, if_pos h]; rfl
      case wid =>
        intro k step
        refine ⟨fun hk hlo hhi => (streamCmd_sets hslot hgo ?_ : execSpwid p k step s = _),
          fun h => (streamCmd_wrong hslot hgo ?_ : execSpwid p k step s = _)⟩
        · rw [if_neg (by rw [(fits40_iff step).mpr ⟨hlo, hhi⟩]; simpa using hk)]
        · rw [if_pos]
          rcases h with h | h
          · simp [h]
          · rw [fits40_eq_false h.symm]; simp
    case lo =>
      refine (streamCmd_sets hslot hask ?_ : execSpqryLo p s = _)
      rw [BitVec.setWidth_eq_extractLsb' (by decide)]
      rfl
    case hi => exact (streamCmd_sets (g := id) hslot hask rfl : execSpqryHi p s = _)
    case st =>
      refine ⟨_, (streamCmd_sets (g := id) hslot hask rfl : execSpqrySt p false s = _), fun hleft => ?_, ?_⟩
      · rw [(status_word _ _).1, if_pos hleft, BitVec.toNat_ofNat, Nat.mod_eq_of_lt hleft]
      · rw [(status_word _ _).2, portCode]
        cases x.state with
        | idle => cases x.ended <;> rfl
        | run => rfl
        | fault => rfl
    case bad => exact (streamCmd_wrong hslot hask rfl : execSpqrySt p true s = _)
    case close =>
      show execSpclose p s = _
      rw [execSpclose, if_pos (by simpa using hslot)]
    case busy =>
      rintro hbusy hnew i (⟨level, stride, count, rfl⟩ | ⟨b0, off, rfl⟩ | ⟨a, rfl⟩ | ⟨m, b, e, rfl⟩ | ⟨b, ch, n, rfl⟩ | ⟨k, w, rfl⟩)
      · exact (streamCmd_stalls hslot hbusy hnew : execSplev p level stride count s = _)
      · exact (streamCmd_stalls hslot hbusy hnew : execSpbaseTile p b0 off s = _)
      · exact (streamCmd_stalls hslot hbusy hnew : execSpbaseVa p a s = _)
      · exact (by unfold execSpmode; exact streamCmd_stalls hslot hbusy hnew : execSpmode p m b e s = _)
      · exact (by unfold execSpgo; exact streamCmd_stalls hslot hbusy hnew : execSpgo p b ch n s = _)
      · exact (streamCmd_stalls hslot hbusy hnew : execSpwid p k w s = _)
  case closing =>
    intro s p c hworks k q
    refine ⟨fun hidle => spclose_idle hworks hidle, ?_⟩
    intro hrun hdue hnew closes
    have hport : (modCmd s k c.id fun x => { x with phase := .running }).port k p.toNat = q := by
      rw [State.port, modCmd, State.core_modCore_self]
    have hclose (f : Port → Port) (hf : closedRun s k p.toNat q = f q) : closes f := by
      rw [← hport] at hf
      exact (spclose_running hworks hrun hdue hnew).trans (congrArg _ (State.modPort_congr hf))
    refine ⟨fun hstarted hsettled => hclose _ ?_, fun hstarted hsettled => hclose _ ?_, fun hstarted => hclose _ ?_⟩
    · rw [closedRun, if_neg (by simp [hstarted]), if_pos hsettled]
    · rw [closedRun, if_neg (by simp [hstarted]), if_neg (by simp [hsettled])]
    · rw [closedRun, if_pos hstarted]

end Sys2Proof.Machine
end

section
/-!
PROOFS. The invocations of stream ports (R223 to R230): O24.
-/

namespace Sys2Proof.Machine

/-! ### Windows of the meters -/

/-- In the present window the counts stay. -/
theorem newWindow_eq_self {s : State} (h : s.pace.toNat / 1000 = s.window.toNat) : newWindow s = s := if_pos h

/-- Changes of clusters leave the cadence and the window. -/
theorem foldl_modCluster_pace_window (f : Cluster → Cluster) (l : List Nat) (s : State) :
    (l.foldl (fun t k => t.modCluster k f) s).pace = s.pace ∧ (l.foldl (fun t k => t.modCluster k f) s).window = s.window := by
  induction l generalizing s with
  | nil => exact ⟨rfl, rfl⟩
  | cons k l ih => exact ih (s.modCluster k f)

/-- A window that has begun is the present one. -/
theorem newWindow_present (s : State) : (newWindow s).pace.toNat / 1000 = (newWindow s).window.toNat := by
  by_cases h : s.pace.toNat / 1000 = s.window.toNat
  · rw [newWindow_eq_self h, h]
  · rw [newWindow, if_neg h]
    rw [(foldl_modCluster_pace_window _ _ _).1, (foldl_modCluster_pace_window _ _ _).2, BitVec.toNat_ofNat,
      Nat.mod_eq_of_lt (Nat.lt_of_le_of_lt (Nat.div_le_self _ _) s.pace.isLt)]

/-- An injection begins the present window first, so beginning it beforehand changes nothing. -/
theorem portInjectToken_newWindow (s : State) (core : Nat) (p : BitVec 3) :
    exec (.portInjectToken core p) s = exec (.portInjectToken core p) (newWindow s) := by
  show execPortInjectToken core p s = execPortInjectToken core p (newWindow s)
  rw [execPortInjectToken, execPortInjectToken, newWindow_eq_self (newWindow_present s)]

/-! ### A port that runs -/

section
variable {s : State} {core : Nat} {p : BitVec 3} {pl : Plot} {x : Nat × Nat}

/-- A port of a live plot in RUN is able to move. -/
theorem portRuns_of_live (hplot : s.plotOf core = some pl) (hlive : pl.live = true) {q : Port} (hrun : q.state = .run) :
    portRuns s core q = true := by
  rw [portRuns, hplot, hrun]
  exact hlive

/-- An invocation goes on once it has injected a token, and begins where its plot lets it. -/
theorem mayInject_of_plot (hplot : s.plotOf core = some pl) {q : Port} (h : q.idx ≠ 0 ∨ mayBegin pl q.pos = true) :
    mayInject s core q = true := by
  rw [mayInject, hplot]
  simpa using h

/-- A pointer that AUTO would move and no wait holds lets the invocation end. -/
theorem auto_pointersHeld_eq_false {q : Port} (h : q.auto = true → pointersHeld s core q.handle = false) :
    (q.auto && pointersHeld s core q.handle) = false := by
  cases hauto : q.auto with
  | false => rfl
  | true => exact h hauto

/-- Without AUTO an invocation of a port with work begins at index 0 as soon as its plot lets it, an egress port's once its arc holds a token. -/
theorem portInvocationStart_begins (hplot : s.plotOf core = some pl) (hlive : pl.live = true) (hslot : portSlot s core p.toNat = some x)
    (hrun : (s.port core p.toNat).state = .run) (hstarted : (s.port core p.toNat).started = false) (hleft : (s.port core p.toNat).left ≠ 0)
    (hended : (s.port core p.toNat).ended = false) (hbegin : mayBegin pl (s.port core p.toNat).pos = true)
    (hauto : (s.port core p.toNat).auto = false)
    (hhead : (s.port core p.toNat).dir = true → headOf s core x.1 (egressKey x) ≠ none) :
    exec (.portInvocationStart core p) s = .next (s.modPort core p.toNat fun y =>
      { y with started := true, idx := 0, waitId := 0,
               slot := if y.dir then (getTile s core (s.port core p.toNat).handle).wp else (getTile s core (s.port core p.toNat).handle).rp }) := by
  have harc : ((s.port core p.toNat).dir && (headOf s core x.1 (egressKey x)).isNone) = false := by
    cases hdir : (s.port core p.toNat).dir with
    | false => rfl
    | true => exact Option.isNone_eq_false_iff.mpr (Option.isSome_iff_ne_none.mpr (hhead hdir))
  show execPortInvocationStart core p s = _
  simp only [execPortInvocationStart, hplot, hslot, portRuns_of_live hplot hlive hrun, hstarted, hleft, hended, hbegin, hauto, harc,
    Bool.not_true, Bool.or_false, Bool.false_and, Bool.false_eq_true, decide_false, if_false]

/-! ### Injection -/

section
variable (hplot : s.plotOf core = some pl) (hlive : pl.live = true) (hslot : portSlot s core p.toNat = some x)
  (hrun : (s.port core p.toNat).state = .run) (hdir : (s.port core p.toNat).dir = false)
include hplot hlive hslot hrun hdir

/-- An ingress port within its ceiling and with room on every arc injects. -/
theorem portInjectToken_injects (hnow : s.pace.toNat / 1000 = s.window.toNat) (hstarted : (s.port core p.toNat).started = true)
    (hgoes : (s.port core p.toNat).idx ≠ 0 ∨ mayBegin pl (s.port core p.toNat).pos = true)
    (hidx : (s.port core p.toNat).idx < (s.port core p.toNat).tokens)
    (hceil : (s.port core p.toNat).window < portCeiling s core (s.port core p.toNat))
    (hfree : ∀ y ∈ slotArcs s core x, arcFree s y = true) :
    exec (.portInjectToken core p) s = .next (if (s.port core p.toNat).va
      then injectVa s core p.toNat (s.port core p.toNat) (slotArcs s core x)
      else injectTile s core p.toNat (s.port core p.toNat) (slotArcs s core x)) := by
  show execPortInjectToken core p s = _
  simp only [execPortInjectToken, newWindow_eq_self hnow, hslot, portRuns_of_live hplot hlive hrun, hdir, hstarted,
    mayInject_of_plot hplot hgoes, Nat.not_le.mpr hidx, Nat.not_le.mpr hceil, List.all_eq_true.mpr hfree,
    Bool.not_true, Bool.or_false, Bool.false_eq_true, decide_false, if_false]

/-- At the ceiling of the present window a port waits: at most its note of being held back, and the count of it, change. -/
theorem portInjectToken_waits (hnow : s.pace.toNat / 1000 = s.window.toNat) (hstarted : (s.port core p.toNat).started = true)
    (hidx : (s.port core p.toNat).idx < (s.port core p.toNat).tokens)
    (hceil : portCeiling s core (s.port core p.toNat) ≤ (s.port core p.toNat).window) :
    exec (.portInjectToken core p) s = .next (if mayInject s core (s.port core p.toNat) && !(s.port core p.toNat).heldBack
      then (s.count (dieOf core) 5 1).modPort core p.toNat fun y => { y with heldBack := true } else s) := by
  show execPortInjectToken core p s = _
  simp only [execPortInjectToken, newWindow_eq_self hnow, hslot, portRuns_of_live hplot hlive hrun, hdir, hstarted, hceil,
    Nat.not_le.mpr hidx, Bool.not_true, Bool.false_or, Bool.or_false, decide_false, if_true]
  cases mayInject s core (s.port core p.toNat) <;> cases (s.port core p.toNat).heldBack <;> rfl

/-- After the last token the EOI leaves and the invocation ends. -/
theorem portInjectEoi_ends (hfree : ∀ y ∈ slotArcs s core x, arcFree s y = true) (hbar : (s.port core p.toNat).barDue = false)
    (hstarted : (s.port core p.toNat).started = true) (hidx : (s.port core p.toNat).tokens ≤ (s.port core p.toNat).idx)
    (hgoes : (s.port core p.toNat).idx ≠ 0 ∨ mayBegin pl (s.port core p.toNat).pos = true)
    (hstays : (s.port core p.toNat).auto = true → pointersHeld s core (s.port core p.toNat).handle = false) :
    exec (.portInjectEoi core p) s = .next ((if (s.port core p.toNat).auto
      then modTile (emit s (slotArcs s core x) (eoiTok (s.port core p.toNat).pos (pl.close (s.port core p.toNat).pos))) core
        (s.port core p.toNat).handle fun e => advanceC e 1
      else emit s (slotArcs s core x) (eoiTok (s.port core p.toNat).pos (pl.close (s.port core p.toNat).pos))).modPort core p.toNat
        fun y => endInvocation pl y) := by
  show execPortInjectEoi core p s = _
  simp only [execPortInjectEoi, hplot, hslot, portRuns_of_live hplot hlive hrun, hdir, hbar, hstarted, mayInject_of_plot hplot hgoes,
    Nat.not_lt.mpr hidx, auto_pointersHeld_eq_false hstays, List.all_eq_true.mpr hfree, Bool.not_true, Bool.or_false, Bool.false_eq_true,
    decide_false, if_false]

/-- A BAR that ends a run of a tile-mode port leaves by itself. -/
theorem portInjectEoi_bar (hfree : ∀ y ∈ slotArcs s core x, arcFree s y = true) (hbar : (s.port core p.toNat).barDue = true)
    (hva : (s.port core p.toNat).va = false) :
    exec (.portInjectEoi core p) s =
      .next ((noteBar (emit s (slotArcs s core x) barTok) core p.toNat).modPort core p.toNat fun y => { y with barDue := false }) := by
  show execPortInjectEoi core p s = _
  simp only [execPortInjectEoi, hplot, hslot, portRuns_of_live hplot hlive hrun, hdir, hbar, hva, List.all_eq_true.mpr hfree, Bool.not_true,
    Bool.or_false, Bool.false_eq_true, if_false, if_true]

end

/-- The token that a tile-mode injection carries: a row of active lanes, each a word of the tile. -/
def rowTok (width : Nat) (bs : List Byte) : Token :=
  { kind := kDATA, mask := BitVec.ofNat 16 (2 ^ width - 1), lanes := wordsOf width bs ++ List.replicate (16 - width) 0 }

/-- The first lanes of a row are active and no others. -/
theorem rowTok_mask (width : Nat) (bs : List Byte) {i : Nat} (hi : i < 16) : (rowTok width bs).mask.getLsbD i = decide (i < width) := by
  rw [rowTok, BitVec.getLsbD_ofNat, Nat.testBit_two_pow_sub_one, decide_eq_true hi, Bool.true_and]

/-- A plain row that the tile's checks pass is injected as it stands. -/
theorem injectTile_plain {q : Port} {n : Nat} {arcs : List (Nat × Nat × Nat)} (hsheaf : q.sheaf = 0)
    (hcheck : tileCheck (getTile s core q.handle) (portAddr s core q).toNat (4 * q.width) q.align false = none) {t : State} {bs : List Byte}
    (hread : tileRead s core q.handle (portAddr s core q).toNat (4 * q.width) = (t, some bs)) :
    injectTile s core n q arcs =
      portInjected (emit (raceTile t (.port core n) core q.handle (portAddr s core q).toNat (4 * q.width) false) arcs (rowTok q.width bs)) core n := by
  have hclass : sheafClass q.sheaf = 0 := by rw [hsheaf]; rfl
  simp only [injectTile, hcheck, hread, hclass, if_true]
  rfl

/-! ### Storing -/

section
variable (hplot : s.plotOf core = some pl) (hslot : portSlot s core p.toNat = some x)
include hplot hslot

/-- The EOI that a port has consumed ends the invocation once every store before it has been performed. -/
theorem portStoreToken_awaits (heoi : (s.port core p.toNat).eoiIn = true) :
    exec (.portStoreToken core p) s = .next (if portSettled s core p.toNat then storedEoi s pl core p.toNat x else s) := by
  show execPortStoreToken core p s = _
  simp only [execPortStoreToken, hplot, hslot, heoi, if_true]

section
variable {t : Token} (hlive : pl.live = true) (hhead : headOf s core x.1 (egressKey x) = some t) (heoi : (s.port core p.toNat).eoiIn = false)
  (hdir : (s.port core p.toNat).dir = true)
include hlive hhead heoi hdir

/-- A BAR passes a tile-mode port. -/
theorem portStoreToken_bar (hstate : (s.port core p.toNat).state ≠ .fault) (hkind : t.kind = kBAR) (hva : (s.port core p.toNat).va = false) :
    exec (.portStoreToken core p) s = .next (sinkMark (popArc s core x.1 (egressKey x)) core x.1 (6 + x.2) kBAR) := by
  have hfault : ((s.port core p.toNat).state == .fault) = false := beq_false_of_ne hstate
  show execPortStoreToken core p s = _
  simp only [execPortStoreToken, hplot, hslot, heoi, hhead, hlive, hdir, hfault, hkind, hva, beq_self_eq_true, Bool.not_true, Bool.or_false,
    Bool.false_eq_true, if_false, if_true]

variable (hrun : (s.port core p.toNat).state = .run) (hstarted : (s.port core p.toNat).started = true)
include hrun hstarted

/-- An EOI ends the invocation, or is held until the stores before it have been performed. -/
theorem portStoreToken_eoi (hkind : t.kind = kEOI)
    (hstays : (s.port core p.toNat).auto = true → pointersHeld s core (s.port core p.toNat).handle = false) :
    exec (.portStoreToken core p) s = .next (if portSettled s core p.toNat
      then storedEoi (popArc (if (s.port core p.toNat).auto then modTile s core (s.port core p.toNat).handle fun e => advanceP e 1 else s)
        core x.1 (egressKey x)) pl core p.toNat x
      else (popArc (if (s.port core p.toNat).auto then modTile s core (s.port core p.toNat).handle fun e => advanceP e 1 else s)
        core x.1 (egressKey x)).modPort core p.toNat fun y => { y with eoiIn := true }) := by
  have hfault : (PortState.run == PortState.fault) = false := rfl
  have hgo : (PortState.run != PortState.run) = false := rfl
  have hbar : (kEOI == kBAR) = false := rfl
  show execPortStoreToken core p s = _
  simp only [execPortStoreToken, hplot, hslot, heoi, hhead, hlive, hdir, hrun, hfault, hgo, hbar, hkind, hstarted,
    auto_pointersHeld_eq_false hstays, beq_self_eq_true, Bool.not_true, Bool.or_false, Bool.false_eq_true, if_false, if_true]

/-- A DATA token within the count, and for a blocked-sheaf port a sheaf of its class, is stored. -/
theorem portStoreToken_data (hkind : t.kind = kDATA) (hidx : (s.port core p.toNat).idx < (s.port core p.toNat).tokens)
    (hsheaf : (s.port core p.toNat).sheaf = 0 ∨
      t.mask = 0xFFFF ∧ fmtReads ((t.lane 0).toNat % 256) (sheafClass (s.port core p.toNat).sheaf) = true) :
    exec (.portStoreToken core p) s = .next (if (s.port core p.toNat).va
      then storeVa s core p.toNat (s.port core p.toNat) t x else storeTile s core p.toNat (s.port core p.toNat) t x) := by
  have hfault : (PortState.run == PortState.fault) = false := rfl
  have hgo : (PortState.run != PortState.run) = false := rfl
  have hbar : (kDATA == kBAR) = false := rfl
  have hend : (kDATA == kEOI) = false := rfl
  have hother : (kDATA == 3) = false := rfl
  have hreads : (decide (sheafClass (s.port core p.toNat).sheaf ≠ 0) &&
      !(t.mask == 0xFFFF && fmtReads ((t.lane 0).toNat % 256) (sheafClass (s.port core p.toNat).sheaf))) = false := by
    rcases hsheaf with hsheaf | ⟨hmask, hfmt⟩
    · rw [hsheaf]; rfl
    · rw [hmask, hfmt]; simp
  show execPortStoreToken core p s = _
  simp only [execPortStoreToken, hplot, hslot, heoi, hhead, hlive, hdir, hrun, hfault, hgo, hbar, hend, hother, hkind, hstarted, hreads,
    Nat.not_le.mpr hidx, Bool.not_true, Bool.or_false, Bool.false_eq_true, decide_false, if_false]

end
end

/-! ### The end of a run -/

/-- A run that has ended sends its DONE word, an egress port's once its stores have been performed. -/
theorem portDoneWord_sends (hrun : (s.port core p.toNat).state = .run) (hdue : (s.port core p.toNat).doneDue = true)
    (hbar : (s.port core p.toNat).barDue = false) (hsettled : (s.port core p.toNat).dir = true → portSettled s core p.toNat = true)
    (hclose : (s.port core p.toNat).closeRun = false) :
    exec (.portDoneWord core p) s = .next (sendWord (s.modPort core p.toNat fun y =>
      { y with state := .idle, doneDue := false, closeRun := false }) (2000000 + core) core (s.port core p.toNat).chan.toNat 2 (16 + p.toNat)
      (s.port core p.toNat).doneWid) := by
  have hgo : (PortState.run != PortState.run) = false := rfl
  have hwrites : ((s.port core p.toNat).dir && !portSettled s core p.toNat) = false := by
    cases hdir : (s.port core p.toNat).dir with
    | false => rfl
    | true => rw [hsettled hdir]; rfl
  show execPortDoneWord core p s = _
  simp only [execPortDoneWord, hrun, hgo, hdue, hbar, hwrites, hclose, Bool.not_true, Bool.or_false, Bool.false_eq_true, if_false]

end

/-- Only the last invocation that was asked for makes the DONE word and the BAR due. -/
theorem endInvocation_due (pl : Plot) (x : Port) :
    (x.left ≤ 1 → (endInvocation pl x).doneDue = true ∧ (endInvocation pl x).doneWid = x.pos ∧ (endInvocation pl x).barDue = (x.bar && !x.dir)) ∧
    (1 < x.left → (endInvocation pl x).doneDue = x.doneDue) := by
  refine ⟨fun h => ?_, fun h => ?_⟩
  · simp only [endInvocation, if_pos (show x.left - 1 = 0 by omega), and_self]
  · simp only [endInvocation, if_neg (show ¬ x.left - 1 = 0 by omega)]

/-- The end of an invocation moves the position, and leaves the direction, the base, the counts and the strides. -/
theorem endInvocation_fields (pl : Plot) (x : Port) :
    (endInvocation pl x).started = false ∧ (endInvocation pl x).left = x.left - 1 ∧ (endInvocation pl x).dir = x.dir ∧
    (endInvocation pl x).base = x.base ∧ (endInvocation pl x).count = x.count ∧ (endInvocation pl x).stride = x.stride ∧
    (endInvocation pl x).pos = (pl.next x.pos).getD x.pos ∧ (endInvocation pl x).ended = (pl.next x.pos).isNone := by
  by_cases h : x.left - 1 = 0
  · simp only [endInvocation, if_pos h, and_self]
  · simp only [endInvocation, if_neg h, and_self]

/-- Settles O24: each event of a port takes the one branch that the clause's hypotheses leave open; a second beginning of a window changes nothing. -/
theorem portsRunInvocations : Obligations.PortsRunInvocations := by
  unfold Obligations.PortsRunInvocations
  refine ⟨?runs, ?ends⟩
  case runs =>
    intro s core p pl x hplot hlive hslot q arcs a n now goes stays
    refine ⟨fun hrun hstarted hleft hended hbegin hauto hhead =>
        portInvocationStart_begins hplot hlive hslot hrun hstarted hleft hended hbegin hauto hhead,
      fun hnow hrun hdir hstarted hgoes hidx hceil hfree =>
        portInjectToken_injects hplot hlive hslot hrun hdir hnow hstarted hgoes hidx hceil hfree, ?plain,
      portInjectToken_newWindow s core p, ?wait,
      fun hrun hdir hfree hbar hstarted hidx hgoes hstays =>
        portInjectEoi_ends hplot hlive hslot hrun hdir hfree hbar hstarted hidx hgoes hstays,
      fun hrun hdir hfree hbar hva => portInjectEoi_bar hplot hlive hslot hrun hdir hfree hbar hva,
      fun t hhead heoi hdir hrun hstarted hkind hstays =>
        portStoreToken_eoi hplot hslot hlive hhead heoi hdir hrun hstarted hkind hstays,
      fun heoi => portStoreToken_awaits hplot hslot heoi,
      fun t hhead heoi hdir hstate hkind hva => portStoreToken_bar hplot hslot hlive hhead heoi hdir hstate hkind hva,
      fun t hhead heoi hdir hrun hstarted hkind hidx hsheaf =>
        portStoreToken_data hplot hslot hlive hhead heoi hdir hrun hstarted hkind hidx hsheaf,
      fun hrun hdue hbar hsettled hclose => portDoneWord_sends hrun hdue hbar hsettled hclose⟩
    case plain =>
      intro hnow hrun hdir hstarted hgoes hidx hceil hfree hva hsheaf hcheck t bs hread
      refine ⟨rowTok q.width bs, ?_, rfl, fun i hi => rowTok_mask q.width bs hi, rfl⟩
      rw [portInjectToken_injects hplot hlive hslot hrun hdir hnow hstarted hgoes hidx hceil hfree, if_neg (by rw [hva]; decide),
        injectTile_plain hsheaf hcheck hread]
    case wait =>
      intro hnow hrun hdir hstarted hidx hceil
      refine ⟨_, portInjectToken_waits hplot hlive hslot hrun hdir hnow hstarted hidx hceil, ?_⟩
      by_cases h : (mayInject s core (s.port core p.toNat) && !(s.port core p.toNat).heldBack) = true
      · rw [if_pos h]
        have hcore : (s.count (dieOf core) 5 1).core core = s.core core := by rw [State.core, State.count_cores]
        refine ⟨by simp, ?_, ?_⟩
        · rw [State.modPort, State.core_modCore_self, hcore]
        · rw [State.port, State.modPort, State.core_modCore_self, tget_tmod_self, hcore]
      · rw [if_neg h]
        exact ⟨rfl, rfl, rfl⟩
  case ends =>
    intro pl x y
    obtain ⟨hstarted, hleft, hdir, hbase, hcount, hstride, hpos, hended⟩ := endInvocation_fields pl x
    obtain ⟨hlast, hmore⟩ := endInvocation_due pl x
    refine ⟨hstarted, hleft, hdir, hbase, hcount, hstride, fun w hw => ?_, fun hw => ?_, hlast, hmore⟩
    · exact ⟨by rw [hpos, hw]; rfl, by rw [hended, hw]; rfl⟩
    · exact ⟨by rw [hpos, hw]; rfl, by rw [hended, hw]; rfl⟩

end Sys2Proof.Machine
end

section
/-!
PROOFS. The operators of memory cells on tiles and device memory (R217 to R220), and the ordering point of a BAR (R293): O32.
-/

namespace Sys2Proof.Machine

/-! ### Reading a tile does not change who acts -/

/-- A fold whose steps keep a part of the state keeps it. -/
theorem foldl_keeps {α β : Type} {f : State → α → State} (part : State → β) (hf : ∀ s x, part (f s x) = part s) (l : List α) (s : State) :
    part (l.foldl f s) = part s := by
  induction l generalizing s with
  | nil => rfl
  | cons x l ih => exact (ih _).trans (hf s x)

/-- What a write to memory leaves alone, as far as it is spoken of: who acts, the dies, the time, and the translations in progress. -/
def besideMemory (s : State) : Ctx × Tbl Die × BitVec 64 × Inval × List Walk := (s.cur, s.dies, s.pace, s.inval, s.walks)

theorem fireWatches_besideMemory (s : State) (a n : Nat) : besideMemory (fireWatches s a n) = besideMemory s := by
  unfold fireWatches
  split <;> rfl

theorem count_besideMemory (s : State) (die i n : Nat) : besideMemory (s.count die i n) = besideMemory s := by
  unfold State.count
  split <;> rfl

theorem hbmStore_besideMemory (s : State) (a : Nat) (bs : List Byte) : besideMemory (hbmStore s a bs) = besideMemory s := by
  unfold hbmStore
  dsimp only
  rw [fireWatches_besideMemory, count_besideMemory]
  rfl

theorem hashStore_besideMemory (s : State) (pa : Nat) (bs : List Byte) : besideMemory (hashStore s pa bs) = besideMemory s := by
  unfold hashStore
  exact foldl_keeps besideMemory (fun t p => by rw [hbmStore_besideMemory]; rfl) _ s

/-- A ring keeps what its writer keeps. -/
theorem ringPut_keeps {β : Type} (part : State → β) {write : State → Nat → List Byte → State} (hw : ∀ s pa bs, part (write s pa bs) = part s)
    (s : State) (r : Ring) (bs : List Byte) : part (ringPut write s r bs).1 = part s := by
  unfold ringPut
  split
  · rfl
  · exact hw ..

theorem logRecord_besideMemory (s : State) (kind die unit : Nat) (detail : List Byte) :
    besideMemory (logRecord s kind die unit detail) = besideMemory s :=
  ringPut_keeps besideMemory hashStore_besideMemory s s.regs.lg _

@[simp] theorem logRecord_cur (s : State) (kind die unit : Nat) (detail : List Byte) : (logRecord s kind die unit detail).cur = s.cur :=
  congrArg (fun x => x.1) (logRecord_besideMemory s kind die unit detail)

@[simp] theorem logRecord_dies (s : State) (kind die unit : Nat) (detail : List Byte) : (logRecord s kind die unit detail).dies = s.dies :=
  congrArg (fun x => x.2.1) (logRecord_besideMemory s kind die unit detail)

@[simp] theorem logRecord_pace (s : State) (kind die unit : Nat) (detail : List Byte) : (logRecord s kind die unit detail).pace = s.pace :=
  congrArg (fun x => x.2.2.1) (logRecord_besideMemory s kind die unit detail)

@[simp] theorem logRecord_inval (s : State) (kind die unit : Nat) (detail : List Byte) : (logRecord s kind die unit detail).inval = s.inval :=
  congrArg (fun x => x.2.2.2.1) (logRecord_besideMemory s kind die unit detail)

@[simp] theorem declareBank_cur (s : State) (core m bank : Nat) (byFirmware : Bool) : (declareBank s core m bank byFirmware).cur = s.cur := by
  unfold declareBank
  split
  · rfl
  · exact logRecord_cur _ _ _ _ _

@[simp] theorem countError_cur (s : State) (core m bank : Nat) : (countError s core m bank).cur = s.cur := by
  have hcount (f : Core → Core) : ((s.count (dieOf core) 15 1).modCore core f).cur = s.cur := State.count_cur ..
  unfold countError
  dsimp only
  split
  · rw [declareBank_cur, hcount]
  · exact hcount _

theorem readRow_cur (s : State) (core m row : Nat) : (readRow s core m row).1.cur = s.cur := by
  unfold readRow
  dsimp only
  split
  · rfl
  · split
    · rfl
    · exact countError_cur _ _ _ _

theorem readRows_cur (s : State) (core m : Nat) (rows : List Nat) : (readRows s core m rows).1.cur = s.cur := by
  induction rows generalizing s with
  | nil => rfl
  | cons r rs ih =>
    have hrow := readRow_cur s core m r
    unfold readRows
    split
    next e => rwa [e] at hrow
    next t b e =>
      rw [e] at hrow
      have hrest := ih t
      split <;> next e => rw [e] at hrest; exact hrest.trans hrow

theorem cellRead_cur (s : State) (core m a n : Nat) : (cellRead s core m a n).1.cur = s.cur := by
  have hrows := readRows_cur s core m ((List.range ((a + n - 1) / 16 + 1 - a / 16)).map fun i => a / 16 + i)
  unfold cellRead
  split
  · rfl
  · split
    · rfl
    · split <;> next e => rwa [e] at hrows

theorem tileReadFrom_cur (s : State) (core h : Nat) (t : Tile) (ps : List (Nat × Nat)) : (tileReadFrom s core h t ps).1.cur = s.cur := by
  induction ps generalizing s with
  | nil => rfl
  | cons p ps ih =>
    unfold tileReadFrom
    split
    next c m a _ =>
    have hcell := cellRead_cur s c m a p.2
    split
    next e => rwa [e] at hcell
    next u b e =>
      rw [e] at hcell
      have hrest := ih u
      split <;> next e => rw [e] at hrest; exact hrest.trans hcell

/-- The reads of a firing leave the acting node in place. -/
theorem readSpans_cur (s : State) (core h : Nat) (xs : List (Nat × Nat × Nat)) : (readSpans s core h xs).1.cur = s.cur := by
  induction xs generalizing s with
  | nil => rfl
  | cons x xs ih =>
    have htile : (tileRead s core h x.2.1 x.2.2).1.cur = s.cur := tileReadFrom_cur ..
    unfold readSpans
    split
    next e => rwa [e] at htile
    next t b e =>
      rw [e] at htile
      have hrest := ih t
      split <;> next e => rw [e] at hrest; exact hrest.trans htile

/-! ### Tile operators (R218, R219) -/

section
variable {s : State} {n : NodeFields} {l : Token} (h : s.heads n l kDATA)
include h

/-- A tile operator whose spans pass the checks and whose reads succeed does its firing. -/
theorem tileFiring_fires {m : Token → State → BitVec 16} {reads produce : Bool} {go : State → Token → Nat → List (Nat × List Byte) → State}
    (hcheck : spanFault (getTile s s.cur.core (nodeHandle s n)) (spansOf n l (m l s)) produce = none) {u : State} {bs : List (Nat × List Byte)}
    (hread : readSpans s s.cur.core (nodeHandle s n) (if reads then spansOf n l (m l s) else []) = (u, .ok bs)) :
    tileFiring s n m reads produce go = .next (go u l (nodeHandle s n) bs) := by
  rw [tileFiring, inStep_data h, heads_left h]
  simp only [hcheck, hread]

/-- A tile operator one of whose spans fails a check raises the fault with the offset of that span. -/
theorem tileFiring_faults {m : Token → State → BitVec 16} {reads produce : Bool} {go : State → Token → Nat → List (Nat × List Byte) → State}
    {f : Byte × Nat} (hcheck : spanFault (getTile s s.cur.core (nodeHandle s n)) (spansOf n l (m l s)) produce = some f) :
    tileFiring s n m reads produce go = .next (raiseNode s f.1 0 (BitVec.ofNat 64 f.2) false) := by
  rw [tileFiring, inStep_data h, heads_left h]
  simp only [hcheck]

/-- The token of an MLOAD: the one row that was read, or the words of the lanes. -/
def loadedTok (n : NodeFields) (l : Token) (bs : List (Nat × List Byte)) : Token :=
  if n.mods.getLsbD 4 then
    match bs with
    | [] => dataTok 0 fun _ => 0
    | b :: _ => { kind := kDATA, mask := 0xFFFF, lanes := wordsOf 16 b.2 }
  else dataTok l.mask fun i => leBv 32 (((bs.find? fun x => x.1 == i).map (·.2)).getD [])

omit h in
theorem loadedTok_kind (bs : List (Nat × List Byte)) : (loadedTok n l bs).kind = kDATA := by
  unfold loadedTok
  split
  · split <;> rfl
  · rfl

theorem mload_loads (hcheck : spanFault (getTile s s.cur.core (nodeHandle s n)) (spansOf n l l.mask) false = none) {u : State}
    {bs : List (Nat × List Byte)} (hread : readSpans s s.cur.core (nodeHandle s n) (spansOf n l l.mask) = (u, .ok bs)) :
    exec (.mload n) s = .next (fireAll (raceSpans u (nodeHandle s n) (spansOf n l l.mask) false) n (loadedTok n l bs)) := by
  show execMload n s = _
  rw [execMload, tileFiring_fires (m := fun l _ => l.mask) (reads := true) h hcheck (by rw [if_pos rfl]; exact hread)]
  rfl

theorem mstore_stores (hcheck : spanFault (getTile s s.cur.core (nodeHandle s n)) (spansOf n l (pairMask n l s)) true = none) {v : State}
    (hstore : storeLanes s.cur.core (nodeHandle s n) (storePieces n l (rOperand s n) (pairMask n l s))
      (raceSpans s (nodeHandle s n) ((wordSpans n l (pairMask n l s)).map fun x => (x.1, x.2, 4)) true) = .ok v) :
    exec (.mstore n) s = .next (fireAll v n (ackTok n l)) := by
  show execMstore n s = _
  rw [execMstore, tileFiring_fires (reads := false) h hcheck (by rw [if_neg Bool.false_ne_true]; rfl)]
  simp only [hstore]

theorem mred_reduces (hcheck : spanFault (getTile s s.cur.core (nodeHandle s n)) (spansOf n l (pairMask n l s)) true = none) {u : State}
    {bs : List (Nat × List Byte)} (hread : readSpans s s.cur.core (nodeHandle s n) (spansOf n l (pairMask n l s)) = (u, .ok bs)) :
    exec (.mred n) s = .next (fireAll (rmwWords s.cur.core (nodeHandle s n) (n.mods.extractLsb' 0 4).toNat (rOperand u n) Token.init u
      (wordSpans n l (pairMask n l u))).1 n (ackTok n l)) := by
  have hcur : u.cur = s.cur := by rw [← readSpans_cur s s.cur.core (nodeHandle s n) (spansOf n l (pairMask n l s)), hread]
  show execMred n s = _
  rw [execMred, tileFiring_fires (reads := true) h hcheck (by rw [if_pos rfl]; exact hread), hcur]

/-- The token of an MATOM: the old values on the lanes that it accesses. -/
def oldsTok (words : List (Nat × Nat)) (olds : List (Nat × W32)) : Token :=
  dataTok (BitVec.ofNat 16 ((words.map fun x => 2 ^ x.1).sum)) fun i => ((olds.find? fun x => x.1 == i).map (·.2)).getD 0

theorem matom_updates (hcheck : spanFault (getTile s s.cur.core (nodeHandle s n)) (spansOf n l (rmwMask n l s)) true = none) {u : State}
    {bs : List (Nat × List Byte)} (hread : readSpans s s.cur.core (nodeHandle s n) (spansOf n l (rmwMask n l s)) = (u, .ok bs)) :
    exec (.matom n) s = .next (fireAll (rmwWords s.cur.core (nodeHandle s n) (n.mods.extractLsb' 0 4).toNat (rOperand u n) (pOperand u) u
      (wordSpans n l (rmwMask n l u))).1 n (oldsTok (wordSpans n l (rmwMask n l u)) (rmwWords s.cur.core (nodeHandle s n)
        (n.mods.extractLsb' 0 4).toNat (rOperand u n) (pOperand u) u (wordSpans n l (rmwMask n l u))).2)) := by
  have hcur : u.cur = s.cur := by rw [← readSpans_cur s s.cur.core (nodeHandle s n) (spansOf n l (rmwMask n l s)), hread]
  show execMatom n s = _
  rw [execMatom, tileFiring_fires (reads := true) h hcheck (by rw [if_pos rfl]; exact hread), hcur]
  rfl

/-! ### Device memory operators (R220) -/

/-- A device operator all of whose spans are aligned does its firing. -/
theorem deviceFiring_fires {m : Token → State → BitVec 16} {go : State → Token → List (Nat × Word × Nat) → State}
    (halign : ∀ x ∈ deviceSpans s n l (m l s), x.2.1.toNat % x.2.2 = 0) :
    deviceFiring s n m go = .next (go s l (deviceSpans s n l (m l s))) := by
  have hnone : (deviceSpans s n l (m l s)).find? (fun x => x.2.1.toNat % x.2.2 != 0) = none :=
    List.find?_eq_none.mpr fun x hx => by simp [halign x hx]
  rw [deviceFiring, inStep_data h, heads_left h]
  simp only [hnone]

/-- The first span that is not aligned raises ALIGN. -/
theorem deviceFiring_faults {m : Token → State → BitVec 16} {go : State → Token → List (Nat × Word × Nat) → State} {x : Nat × Word × Nat}
    (hfirst : (deviceSpans s n l (m l s)).find? (fun x => x.2.1.toNat % x.2.2 != 0) = some x) :
    deviceFiring s n m go = .next (raiseNode s cALIGN 0 x.2.1 false) := by
  rw [deviceFiring, inStep_data h, heads_left h]
  simp only [hfirst]

end

/-- The active lanes of a mask in lane order. -/
def activeLanes (m : BitVec 16) : List Nat := (List.range 16).filter fun i => m.getLsbD i

theorem mem_activeLanes {m : BitVec 16} {i : Nat} : i ∈ activeLanes m ↔ i < 16 ∧ m.getLsbD i = true := by simp [activeLanes]

theorem activeLanes_ne_nil {m : BitVec 16} (h : m ≠ 0) : activeLanes m ≠ [] := by
  intro hnil
  refine h (BitVec.eq_of_getLsbD_eq fun i hi => ?_)
  refine Eq.trans (Bool.eq_false_iff.mpr fun hbit => ?_) BitVec.getLsbD_zero.symm
  exact List.not_mem_nil (hnil ▸ mem_activeLanes.mpr ⟨hi, hbit⟩)

/-- The device address of a lane: the 64-bit base plus the lane's signed offset. -/
abbrev laneAddr (s : State) (n : NodeFields) (l : Token) (i : Nat) : Word := nodeBase s n + (l.lane i).signExtend 64

section
variable {s : State} {n : NodeFields} {l : Token} (hlane : n.mods.getLsbD 4 = false)
include hlane

/-- In lane form a firing makes one access of four bytes for each active lane. -/
theorem deviceSpans_lanes (m : BitVec 16) : deviceSpans s n l m = (activeLanes m).map fun i => (i, laneAddr s n l i, 4) := by
  rw [deviceSpans, hlane]
  rfl

theorem deviceSpans_lanes_aligned {m : BitVec 16} (halign : ∀ i < 16, m.getLsbD i = true → (laneAddr s n l i).toNat % 4 = 0) :
    ∀ x ∈ deviceSpans s n l m, x.2.1.toNat % x.2.2 = 0 := by
  rw [deviceSpans_lanes hlane]
  intro x hx
  obtain ⟨i, hi, rfl⟩ := List.mem_map.mp hx
  obtain ⟨hi16, hbit⟩ := mem_activeLanes.mp hi
  exact halign i hi16 hbit

theorem deviceSpans_lanes_isEmpty {m : BitVec 16} (hm : m ≠ 0) : (deviceSpans s n l m).isEmpty = false := by
  rw [deviceSpans_lanes hlane, List.isEmpty_eq_false_iff]
  exact fun hnil => activeLanes_ne_nil hm (List.map_eq_nil_iff.mp hnil)

/-- The first lane that is not aligned is the first span that is not. -/
theorem deviceSpans_lanes_first {m : BitVec 16} {i : Nat} (hi : i < 16) (hbit : m.getLsbD i = true) (hbad : (laneAddr s n l i).toNat % 4 ≠ 0)
    (hbefore : ∀ j < i, m.getLsbD j = true → (laneAddr s n l j).toNat % 4 = 0) :
    (deviceSpans s n l m).find? (fun x => x.2.1.toNat % x.2.2 != 0) = some (i, laneAddr s n l i, 4) := by
  have hfirst : (List.range 16).find? (fun j => decide (m.getLsbD j = true ∧ ((laneAddr s n l j).toNat % 4 != 0) = true)) = some i := by
    refine List.find?_range_eq_some.mpr ⟨decide_eq_true ⟨hbit, bne_iff_ne.mpr hbad⟩, List.mem_range.mpr hi, fun j hj => ?_⟩
    rw [Bool.not_eq_true', decide_eq_false_iff_not]
    exact fun ⟨hb, hne⟩ => bne_iff_ne.mp hne (hbefore j hj hb)
  rw [deviceSpans_lanes hlane, List.find?_map, activeLanes, List.find?_filter]
  exact congrArg _ hfirst

variable (h : s.heads n l kDATA)
include h

/-- GLOAD reserves its places on the target arcs and issues one read per active lane. -/
theorem gload_issues (hmask : l.mask ≠ 0) (halign : ∀ i < 16, l.mask.getLsbD i = true → (laneAddr s n l i).toNat % 4 = 0) :
    exec (.gload n) s = .next ((activeLanes l.mask).foldl (fun v i =>
        issueVa v s.cur.core (nodeAgent s) .read (laneAddr s n l i) 4 [] false (.arc s.cur.core 0 0 (s.nextId + 1) i))
      (reserve (reserve (consume s.bump (enabled n)) (arcsA s n) (s.nextId + 1) { kind := kDATA, mask := l.mask, lanes := zeroLanes }) (arcsB s n)
        (s.nextId + 1) { kind := kDATA, mask := l.mask, lanes := zeroLanes })) := by
  show execGload n s = _
  rw [execGload, deviceFiring_fires h (deviceSpans_lanes_aligned hlane halign),
    if_neg (by rw [deviceSpans_lanes_isEmpty hlane hmask]; decide), deviceSpans_lanes hlane]
  simp only [hlane, Bool.false_eq_true, if_false, Bool.false_and, List.flatMap_singleton', List.foldl_map]

/-- GSTORE reserves its place for the acknowledgement and issues one write per lane that L and R both supply. -/
theorem gstore_issues (hmask : l.mask &&& (rOperand s n).mask ≠ 0)
    (halign : ∀ i < 16, (l.mask &&& (rOperand s n).mask).getLsbD i = true → (laneAddr s n l i).toNat % 4 = 0) :
    exec (.gstore n) s = .next ((activeLanes (l.mask &&& (rOperand s n).mask)).foldl (fun v i =>
        issueVa v s.cur.core (nodeAgent s) .write (laneAddr s n l i) 4 (natLe 4 ((rOperand s n).lane i).toNat) false
          (if nullTarget n.tgta then .none else .arc s.cur.core 0 0 (s.nextId + 1) i))
      (reserve (consume s.bump (enabled n)) (arcsA s n) (s.nextId + 1) (ackTok n l))) := by
  have hfold (f : State → Nat × Word → State) (u : State) (xs : List (Nat × Word)) :
      xs.zipIdx.foldl (fun v y => f v y.1) u = xs.foldl f u := by
    rw [← List.foldl_map, List.zipIdx_map_fst]
  have hsome : (activeLanes (l.mask &&& (rOperand s n).mask)).isEmpty = false := List.isEmpty_eq_false_iff.mpr (activeLanes_ne_nil hmask)
  show execGstore n s = _
  rw [execGstore, deviceFiring_fires h (deviceSpans_lanes_aligned hlane halign), deviceSpans_lanes hlane]
  simp only [hlane, Bool.false_eq_true, if_false, Bool.false_and, List.map_map, List.isEmpty_map, hsome]
  refine congrArg Host.Outcome.next ((hfold (fun v y => issueVa v s.cur.core (nodeAgent s) .write y.2 4 (natLe 4 ((rOperand s n).lane y.1).toNat) false
    (if !nullTarget n.tgta then .arc s.cur.core 0 0 (newId s) y.1 else .none)) _ _).trans ?_)
  rw [List.foldl_map]
  cases nullTarget n.tgta <;> rfl

/-- The first active lane of a GLOAD that is not aligned raises ALIGN with its address. -/
theorem gload_faults {i : Nat} (hi : i < 16) (hbit : l.mask.getLsbD i = true) (hbad : (laneAddr s n l i).toNat % 4 ≠ 0)
    (hbefore : ∀ j < i, l.mask.getLsbD j = true → (laneAddr s n l j).toNat % 4 = 0) :
    exec (.gload n) s = .next (raiseNode s cALIGN 0 (laneAddr s n l i) false) := by
  show execGload n s = _
  rw [execGload, deviceFiring_faults h (deviceSpans_lanes_first hlane hi hbit hbad hbefore)]

end

/-! ### The ordering point (R293) -/

/-- A GLOAD or GSTORE forwards a BAR once its stream's accesses have been accepted. -/
theorem barOrderingPointRelease_node {s : State} {core cell stage : Nat} {n : NodeFields} {l : Token} (hstage : stage < 6)
    (hword : decodeNode (wordAt s core cell stage) = .ok (.gload n) ∨ decodeNode (wordAt s core cell stage) = .ok (.gstore n))
    (h : { s with cur := { Ctx.init with core := core, cell := cell, stage := stage } }.heads n l kBAR)
    (haccepted : streamAccepted s (.node core cell stage) = true) :
    exec (.barOrderingPointRelease core cell stage) s =
      .next (raceRelease (fireAll { s with cur := { Ctx.init with core := core, cell := cell, stage := stage } } n l) core 2) := by
  obtain ⟨hruns, -, hl, hheads, hroom⟩ := h
  have hbars : ((enabled n).all fun p =>
      (input { s with cur := { Ctx.init with core := core, cell := cell, stage := stage } } p).any fun t => t.kind == kBAR) = true := by
    rw [List.all_eq_true]
    intro p hp
    obtain ⟨t, ht, hk⟩ := hheads p hp
    simp [ht, hk]
  have hcond : (nodeRuns { s with cur := { Ctx.init with core := core, cell := cell, stage := stage } } && ((enabled n).all fun p =>
      (input { s with cur := { Ctx.init with core := core, cell := cell, stage := stage } } p).any fun t => t.kind == kBAR) &&
      roomy { s with cur := { Ctx.init with core := core, cell := cell, stage := stage } } n && streamAccepted s (.node core cell stage)) = true := by
    rw [hruns, hbars, hroom, haccepted]
    rfl
  show execBarOrderingPointRelease core cell stage s = _
  unfold execBarOrderingPointRelease
  dsimp only
  rw [if_pos hstage, show decodeNode (wordAt { s with cur := { Ctx.init with core := core, cell := cell, stage := stage } } core cell stage) =
    decodeNode (wordAt s core cell stage) from rfl]
  rcases hword with hword | hword <;> rw [hword] <;> dsimp only <;> rw [hl] <;> exact congrArg Host.Outcome.next (if_pos hcond)

/-- A VA write port counts a BAR at its sink once its stream's accesses have been accepted. -/
theorem barOrderingPointRelease_port {s : State} {core cell j : Nat} {t : Token}
    (hkind : (slotWord s core cell j).extractLsb' 58 6 = 9) (hhead : headOf s core cell (4 * (6 + j)) = some t) (hbar : t.kind = kBAR)
    (heoi : (s.port core (4 + ((slotWord s core cell j).extractLsb' 54 4).toNat)).eoiIn = false)
    (haccepted : streamAccepted s (.port core (4 + ((slotWord s core cell j).extractLsb' 54 4).toNat)) = true) :
    exec (.barOrderingPointRelease core cell (6 + j)) s = .next (raceRelease (sinkMark
      (popArc { s with cur := { Ctx.init with core := core, cell := cell, stage := 6 + j } } core cell (4 * (6 + j))) core cell (6 + j) kBAR) core 2) := by
  have hcond : ((slotWord s core cell j).extractLsb' 58 6 == 9 && !(s.port core (4 + ((slotWord s core cell j).extractLsb' 54 4).toNat)).eoiIn &&
      ((headOf s core cell (4 * (6 + j))).any fun t => t.kind == kBAR) &&
      streamAccepted s (.port core (4 + ((slotWord s core cell j).extractLsb' 54 4).toNat))) = true := by
    rw [hkind, heoi, hhead, haccepted]
    simp [hbar]
  show execBarOrderingPointRelease core cell (6 + j) s = _
  unfold execBarOrderingPointRelease
  dsimp only
  rw [if_neg (by omega), Nat.add_sub_cancel_left]
  exact congrArg Host.Outcome.next (if_pos hcond)

/-- Settles O32: each operator by its firing's frame, the spans of a lane-form device access being its active lanes. -/
theorem nodeMemoryAccess : Obligations.NodeMemoryAccess := by
  unfold Obligations.NodeMemoryAccess
  refine ⟨?tile, ?device, ?node, ?port⟩
  case tile =>
    intro s n l h core hd t row pairs rmw
    refine ⟨fun hcheck u bs hread => ?load, fun f hf => (tileFiring_faults h hf : execMload n s = _),
      fun hcheck => ⟨fun v hstore => ?store, fun u bs hread => ?red⟩,
      fun hcheck u bs hread => ?atom, fun f hf => ⟨(tileFiring_faults h hf : execMstore n s = _), (tileFiring_faults h hf : execMred n s = _)⟩⟩
    case load =>
      refine ⟨loadedTok n l bs, mload_loads h hcheck hread, loadedTok_kind bs, fun hrow => ?_, fun hrow b rest hbs => ?_⟩
      · have hrow : n.mods.getLsbD 4 = false := hrow
        rw [loadedTok.eq_def, hrow]
        exact ⟨rfl, fun j hj hbit => (dataTok_lane _ _ hj).trans (if_pos hbit)⟩
      · have hrow : n.mods.getLsbD 4 = true := hrow
        rw [loadedTok.eq_def, hrow, hbs]
        exact ⟨rfl, rfl⟩
    case store => exact mstore_stores h hcheck hstore
    case red => exact mred_reduces h hcheck hread
    case atom => exact ⟨_, _, matom_updates h hcheck hread, dataTok_kind _ _, rfl⟩
  case device =>
    intro s n l h core agent base
    refine ⟨fun hlane hmask halign => ⟨_, gload_issues hlane h hmask halign, rfl⟩, fun _ _ _ => ⟨_, rfl⟩,
      fun hlane hmask halign => gstore_issues hlane h hmask halign,
      fun i hi hlane hbit hbad hbefore => gload_faults hlane h hi hbit hbad hbefore⟩
  case node =>
    intro s core cell stage n l hstage u hword h haccepted
    exact barOrderingPointRelease_node hstage hword h haccepted
  case port =>
    intro s core cell j t _ u w hkind hhead hbar heoi haccepted
    exact barOrderingPointRelease_port hkind hhead hbar heoi haccepted

end Sys2Proof.Machine
end

section
/-!
PROOFS. The performance of accesses at their homes and the end of a page walk (R237, R241, R243, R281 to R283, R299): O41.
-/

namespace Sys2Proof.Machine

/-! ### When an access goes on (R281, R283, R284) -/

section
variable {s : State} {a : Access} (hfind : s.accs.find? (fun x => x.id == a.id) = some a)

/-- Only a SYSTEM release waits for probes. -/
theorem needsProbes_eq_false (hrel : a.rel = false ∨ a.scope ≠ 3) : needsProbes s a = false := by
  have hsystem : (a.rel && a.scope == 3) = false := by
    rcases hrel with hrel | hscope
    · rw [hrel]; rfl
    · rw [beq_false_of_ne hscope, Bool.and_false]
  unfold needsProbes
  split
  · rw [hsystem]; rfl
  · rfl

theorem probeRelease_eq_self (hrel : a.rel = false ∨ a.scope ≠ 3) : probeRelease s a = s := by
  unfold probeRelease
  split
  · rw [needsProbes_eq_false hrel]
    rfl
  · rfl

include hfind

/-- An issued access that waits for no probe goes on when its order allows and, at its own die, its bridge has a slot. -/
theorem accessPerformed_issued (hphase : a.phase = .issued) (hrel : a.rel = false ∨ a.scope ≠ 3) :
    exec (.accessPerformed a.id) s = .next (if !mayGo s a || !(a.remote || bridgeTurn s a) then s
      else if a.remote then tryStamp s a else stampReady (performAccess s a .returned)) := by
  have haccepted : (AccPhase.issued == AccPhase.accepted) = false := rfl
  have hissued : (AccPhase.issued != AccPhase.issued) = false := rfl
  show execAccessPerformed a.id s = _
  simp only [execAccessPerformed, hfind, hphase, haccepted, hissued, probeRelease_eq_self hrel, needsProbes_eq_false hrel, Bool.false_or,
    Bool.false_eq_true, if_false]

/-- A write that a host port has accepted is completed in its turn. -/
theorem accessPerformed_accepted (hphase : a.phase = .accepted) :
    exec (.accessPerformed a.id) s = .next (if s.hostPend.head? == some a.id then stampReady (performNow s a .returned) else s) := by
  have haccepted : (AccPhase.accepted == AccPhase.accepted) = true := rfl
  show execAccessPerformed a.id s = _
  simp only [execAccessPerformed, hfind, hphase, haccepted, if_true]

/-- An access in another phase is left as it is. -/
theorem accessPerformed_other (hissued : a.phase ≠ .issued) (haccepted : a.phase ≠ .accepted) : exec (.accessPerformed a.id) s = .next s := by
  have hnot : (a.phase == .accepted) = false := beq_false_of_ne haccepted
  have hother : (a.phase != .issued) = true := bne_iff_ne.mpr hissued
  show execAccessPerformed a.id s = _
  simp only [execAccessPerformed, hfind, hnot, hother, Bool.false_eq_true, if_false, if_true]

end

/-- An access that leaves its bridge changes no host memory and no write that a host port holds. -/
theorem bridgeLeft_host (s : State) (a : Access) : (bridgeLeft s a).hostMem = s.hostMem ∧ (bridgeLeft s a).hostPend = s.hostPend := by
  unfold bridgeLeft
  split
  · split <;> exact ⟨rfl, rfl⟩
  · exact ⟨rfl, rfl⟩

/-- A write to the host is accepted by its port and changes no host memory yet. -/
theorem performAccess_accepts {s : State} {a : Access} (hhost : a.host = true) (hkind : a.kind = .write) (phase : AccPhase) :
    (performAccess s a phase).hostMem = s.hostMem ∧ (performAccess s a phase).hostPend = s.hostPend ++ [a.id] := by
  have hwrite : (a.host && a.kind == .write) = true := by rw [hhost, hkind]; rfl
  obtain ⟨hmem, hpend⟩ := bridgeLeft_host s a
  unfold performAccess
  dsimp only
  rw [if_pos hwrite]
  exact ⟨hmem, by rw [hpend]⟩

/-! ### What an access does at device memory (R299) -/

/-- Bytes none of whose sectors is uncorrectable are delivered as stored. -/
theorem homeRead_device {s : State} {addr n : Nat} (hclean : ∀ x ∈ s.poisoned, x < addr / 32 ∨ (addr + n - 1) / 32 < x) (hn : 0 < n) :
    homeRead s false addr n = ((List.range n).map fun i => mbyte s.mem (addr + i), 0) := by
  have hgood : hbmBad s addr n = false := by
    have hany : (s.poisoned.any fun x => addr / 32 ≤ x && x ≤ (addr + n - 1) / 32) = false := by
      rw [List.any_eq_false]
      intro x hx
      have := hclean x hx
      simp only [Bool.and_eq_true, decide_eq_true_eq]
      omega
    rw [hbmBad, hany, Bool.and_false]
  have hbytes : hbmBytes s addr n = (List.range n).map fun i => mbyte s.mem (addr + i) := by
    refine List.map_congr_left fun i hi => if_neg fun hbad => ?_
    have hlt := List.mem_range.mp hi
    have hsector := hclean _ (List.contains_iff_mem.mp hbad)
    omega
  rw [homeRead, if_neg Bool.false_ne_true, hbytes, hgood, if_neg Bool.false_ne_true]

section
variable {s : State} {a : Access} (hhost : a.host = false) (hclean : ∀ x ∈ s.poisoned, x < a.addr / 32 ∨ (a.addr + a.len - 1) / 32 < x)
  (hlen : 0 < a.len) (hrw : a.rw = false) (hac : a.ac = false) (hagent : a.agent.isHost = false)
include hrw hagent

/-- The detector looks at accesses through RW pages and at those of the host only (R309, R311). -/
theorem raceAccess_eq_self : raceAccess s a = s := if_pos (by rw [hrw, hagent]; rfl)

include hhost hac hclean hlen

/-- A read delivers the stored bytes and changes no memory. -/
theorem homeEffect_read (hkind : a.kind = .read) :
    homeEffect s a = (s.count (keyDie a.addr) 6 a.len, (List.range a.len).map fun i => mbyte s.mem (a.addr + i), 0) := by
  have hcount : countHome s a = s.count (keyDie a.addr) 6 a.len := by
    rw [countHome, hhost, hkind]; rfl
  have hread : homeRead (s.count (keyDie a.addr) 6 a.len) false a.addr a.len = ((List.range a.len).map fun i => mbyte s.mem (a.addr + i), 0) := by
    rw [homeRead_device (by rw [State.count_poisoned]; exact hclean) hlen, State.count_mem]
  simp only [homeEffect, raceAccess_eq_self hrw hagent, hac, hhost, hkind, hcount, hread, Bool.false_and, Bool.false_eq_true, if_false]

/-- An atomic writes the operation's word over its bytes and delivers the old ones. -/
theorem homeEffect_atomic (hkind : a.kind = .atomic) (hcmp : a.cmp = []) :
    homeEffect s a = (hbmWrite (collide (s.count (keyDie a.addr) 6 a.len) a.addr a.len a.len) a.addr (natLe a.len (atomicOp a.op.toNat (8 * a.len)
      (leNat ((List.range a.len).map fun i => mbyte s.mem (a.addr + i))) (leNat a.data))), (List.range a.len).map fun i => mbyte s.mem (a.addr + i), 0) := by
  have hcount : countHome s a = s.count (keyDie a.addr) 6 a.len := by
    rw [countHome, hhost, hkind]; rfl
  have hread : homeRead (s.count (keyDie a.addr) 6 a.len) false a.addr a.len = ((List.range a.len).map fun i => mbyte s.mem (a.addr + i), 0) := by
    rw [homeRead_device (by rw [State.count_poisoned]; exact hclean) hlen, State.count_mem]
  have hreduce : (AccKind.atomic == AccKind.reduce) = false := rfl
  have hgood : ((0 : Byte) != 0) = false := rfl
  simp only [homeEffect, homeWrite, raceAccess_eq_self hrw hagent, hac, hhost, hagent, hkind, hcount, hread, hcmp, hreduce, hgood,
    List.isEmpty_nil, Bool.false_and, Bool.or_false, Bool.false_eq_true, if_false, if_true]
  rfl

end

/-- Collisions are counted beside the memory. -/
theorem collide_mem (s : State) (key n w : Nat) : (collide s key n w).mem = s.mem := by
  unfold collide
  dsimp only
  split <;> rfl

/-! ### The end of a page walk (R241, R243) -/

section
variable {s : State} {w : Walk} (hfind : s.walks.find? (fun x => x.id == w.id) = some w) (hfault : w.fault = none) (hheld : w.heldAt = none)
  (hserved : walkServed s w = true)
include hfind hfault hheld hserved

/-- A walk whose reads have not crossed the fabric goes on later. -/
theorem pageWalkComplete_waits (htraffic : walkTraffic s (dieOf w.core) w.root w.va = none) : exec (.pageWalkComplete w.id) s = .next s := by
  show execPageWalkComplete w.id s = _
  simp only [execPageWalkComplete, hfind, hfault, hheld, hserved, htraffic, Option.isSome_none, Bool.or_false, Bool.not_true,
    Bool.false_eq_true, if_false]

/-- A walk that ends in a translation enters it and translates what was parked. -/
theorem pageWalkComplete_enters {v u : State} {e : TcEntry} (htraffic : walkTraffic s (dieOf w.core) w.root w.va = some (v, false))
    (hwalk : walkDie v (dieOf w.core) w.root w.va w.store w.fetch = (.ok e, u)) (hwb : w.store = true → e.wb = false) :
    exec (.pageWalkComplete w.id) s = .next (stampReady (resolveParked
      (({ u with walks := dropFirst (fun x => x.id == w.id) u.walks } : State).modCore w.core fun k => tcTouch k e) w.core)) := by
  have hfree : (w.store && e.wb) = false := by
    cases hstore : w.store with
    | false => rfl
    | true => exact hwb hstore
  show execPageWalkComplete w.id s = _
  simp only [execPageWalkComplete, hfind, hfault, hheld, hserved, htraffic, hwalk, hfree, Option.isSome_none, Bool.or_false, Bool.not_true,
    Bool.false_eq_true, if_false]

end

/-- Settles O41: an access by its phase, its effect by its kind at device memory, a walk by its traffic. -/
theorem accessesPerformed : Obligations.AccessesPerformed := by
  intro s a hfind
  refine ⟨?issued, ?accepted, ?stays, ?host, ?device, ?walk⟩
  case issued =>
    intro hphase hrel hgo
    have hexec := accessPerformed_issued hfind hphase hrel
    rw [hgo] at hexec
    refine ⟨fun hremote hturn => ?_, fun hremote hturn => ?_, fun hremote => ?_⟩ <;> rw [hexec, hremote]
    · rw [hturn]; rfl
    · rw [hturn]; rfl
    · rfl
  case accepted =>
    intro hphase hhead
    rw [accessPerformed_accepted hfind hphase, if_pos (beq_iff_eq.mpr hhead)]
  case stays =>
    rintro (⟨hphase, hrel, hgo⟩ | ⟨hphase, hhead⟩ | ⟨hissued, haccepted⟩)
    · rw [accessPerformed_issued hfind hphase hrel, hgo]
      rfl
    · rw [accessPerformed_accepted hfind hphase, if_neg fun h => hhead (beq_iff_eq.mp h)]
    · exact accessPerformed_other hfind hissued haccepted
  case host =>
    intro _ hhost hkind
    exact ⟨_, rfl, performAccess_accepts hhost hkind .returned⟩
  case device =>
    intro hhost hclean hlen hrw hac hagent
    have hdevice : a.agent.isHost = false := by
      cases h : a.agent with
      | host p => exact absurd h (hagent p)
      | _ => rfl
    exact ⟨fun hkind => ⟨_, homeEffect_read hhost hclean hlen hrw hac hdevice hkind, State.count_mem ..⟩,
      fun hkind hcmp _ => ⟨_, homeEffect_atomic hhost hclean hlen hrw hac hdevice hkind hcmp, (collide_mem ..).trans (State.count_mem ..)⟩⟩
  case walk =>
    intro w hfind hfault hheld hserved
    exact ⟨pageWalkComplete_waits hfind hfault hheld hserved,
      fun v u e htraffic hwalk hwb => pageWalkComplete_enters hfind hfault hheld hserved htraffic hwalk hwb⟩

end Sys2Proof.Machine
end

section
/-!
PROOFS. Packets at their destination: decoding in stream order, delivery under the causal clock (R253, R256 to R259, R272, R275): O49.
-/

namespace Sys2Proof.Machine

/-! ### Decoding (R257, R263, R275) -/

/-- A stream packet from a die in use is decoded under its own generation and discarded under another. -/
theorem packetDecode_arrived {s : State} {die idx : Nat} {p : Packet} (harrived : (s.die die).arrived[idx]? = some p)
    (hstream : streamed p.ptype = true) (hsrc : (s.die p.src).removed = false) (hdie : (s.die die).removed = false) :
    exec (.packetDecode die idx) s = .next (if p.gen != (s.die die).gen
      then genDiscard (s.modDie die fun x => { x with arrived := x.arrived.eraseIdx idx })
      else decodeArrived (s.modDie die fun x => { x with arrived := x.arrived.eraseIdx idx }) die p) := by
  show execPacketDecode die idx s = _
  simp only [execPacketDecode, harrived, hstream, takeArrived, hsrc, hdie, Bool.or_false, Bool.false_eq_true, if_false, if_true]

/-- A dropped ACK leaves only its record. -/
theorem dropPacket_ack_dies {s : State} {die : Nat} {p : Packet} (hp : p.ptype = pACK) : (dropPacket s die p).dies = s.dies := by
  unfold dropPacket
  rw [hp]
  exact logRecord_dies ..

/-- An ACK on its way changes no die. -/
theorem sideSend_ack_dies (s : State) (die dst addr : Nat) : (sideSend s die dst pACK addr).dies = s.dies := by
  unfold sideSend sendPacket
  split
  · exact dropPacket_ack_dies rfl
  · rfl

/-- The part of a die that the decoding of its streams has reached: the matrices and the next sequence numbers. -/
def decodedPart (d : Die) : Tbl W32 × Tbl Nat := (d.rmat, d.recvSeq)

theorem sendAck_decodedPart (s : State) (die st : Nat) : decodedPart ((sendAck s die st).die die) = decodedPart (s.die die) := by
  unfold sendAck
  dsimp only
  rw [State.die, sideSend_ack_dies]
  exact (congrArg decodedPart (State.die_modDie_self ..)).trans rfl

theorem noteAck_decodedPart (s : State) (die st : Nat) : decodedPart ((noteAck s die st).die die) = decodedPart (s.die die) := by
  unfold noteAck
  dsimp only
  split
  · rw [sendAck_decodedPart, State.die_modDie_self]
    rfl
  · rw [State.die_modDie_self]
    rfl

theorem putEarly_decodedPart (s : State) (die : Nat) (p : Packet) (place : Nat) (decoded : Bool) :
    decodedPart ((putEarly s die p place decoded).die die) = decodedPart (s.die die) := by
  have hcount (t : State) : (t.count die 12 1).die die = t.die die := by rw [State.die, State.count_dies]
  unfold putEarly
  dsimp only
  split
  · rw [State.die_modDie_self]
    rfl
  · rw [hcount, State.die_modDie_self]
    rfl

/-- An accepted packet leaves its matrix at its stream and the number after its own. -/
theorem acceptDecoded_decodedPart (s : State) (die : Nat) (p : Packet) (m : Tbl W32) (place : Option Nat) :
    decodedPart ((acceptDecoded s die p m place).die die) = (setStreamMatrix (s.die die).rmat (p.stream p.src) m,
      tset 0 (s.die die).recvSeq (p.stream p.src) ((p.seq.toNat + 1) % 65536)) := by
  unfold acceptDecoded
  dsimp only
  rw [noteAck_decodedPart]
  cases place with
  | none => rw [State.die_modDie_self]; rfl
  | some n => rw [putEarly_decodedPart, State.die_modDie_self]; rfl

/-- An entry of a matrix that has been set for a stream. -/
theorem tget_setStreamMatrix (t : Tbl W32) (st : Nat) (m : Tbl W32) {i : Nat} (hi : i < 36) :
    tget 0 (setStreamMatrix t st m) (36 * st + i) = tget 0 m i := by
  refine foldl_establishes (i := i) (step := fun t i => tset 0 t (36 * st + i) (tget 0 m i))
    (P := fun u => tget 0 u (36 * st + i) = tget 0 m i) (fun u j hu => ?_) (fun u => tget_tset_self ..) (List.mem_range.mpr hi) t
  by_cases hj : i = j
  · rw [hj, tget_tset_self]
  · rw [tget_tset_other _ _ _ (by omega), hu]

/-! ### Delivery (R237, R258, R259) -/

section
variable {s : State} {die idx : Nat} {e : Early} (hearly : (s.die die).early[idx]? = some e)
include hearly

/-- An entry that is not decoded, whose condition does not hold or whose bridge is full is not delivered. -/
theorem deliverAt_waits {sel : Packet → Bool} {f : State → Packet → State}
    (hwait : e.decoded = false ∨ mayDeliver s die e.pkt = false ∨ bridgeFree s e.pkt = false) : deliverAt s die idx sel f = s := by
  have hready : (e.decoded && mayDeliver s die e.pkt && bridgeFree s e.pkt) = false := by
    rcases hwait with h | h | h <;> rw [h]
    · rfl
    · rw [Bool.and_false, Bool.false_and]
    · rw [Bool.and_false]
  simp only [deliverAt, hearly, hready, Bool.not_false, Bool.or_true, Bool.true_or, if_true]

variable (hdecoded : e.decoded = true) (hmay : mayDeliver s die e.pkt = true) (hfree : bridgeFree s e.pkt = true)
  (hdie : (s.die die).removed = false)
  (hfirst : ∀ x ∈ (s.die die).early.take idx, x.decoded = true → mayDeliver s die x.pkt = true → bridgeFree s x.pkt = false)
include hdecoded hmay hfree hdie hfirst

/-- The oldest entry that may be delivered leaves the early buffer, moves the clock, and goes to its executor. -/
theorem deliverAt_delivers {sel : Packet → Bool} (hsel : sel e.pkt = true) (f : State → Packet → State) :
    deliverAt s die idx sel f = f (checkCount (s.modDie die fun x =>
      clockDeliver { x with early := x.early.eraseIdx idx } die (s.die e.pkt.src).removed e.pkt) die) e.pkt := by
  have hnone : (((s.die die).early.take idx).any fun x => x.decoded && mayDeliver s die x.pkt && bridgeFree s x.pkt) = false := by
    rw [List.any_eq_false]
    intro x hx hready
    simp only [Bool.and_eq_true] at hready
    obtain ⟨⟨hxd, hxm⟩, hxf⟩ := hready
    rw [hfirst x hx hxd hxm] at hxf
    cases hxf
  simp only [deliverAt, hearly, hdecoded, hmay, hfree, hdie, hsel, hnone, Bool.and_self, Bool.not_true, Bool.or_self, Bool.false_eq_true,
    if_false]

end

/-! ### The causal clock (R258, R272) -/

/-- An entry of the clock after a packet that carries `n` for it. -/
def raisedTo (n : Nat) (o : W32) : W32 := if o.toNat < n then BitVec.ofNat 32 n else o

theorem le_raisedTo {n : Nat} (hn : n < 2 ^ 32) (o : W32) : o.toNat ≤ (raisedTo n o).toNat ∧ n ≤ (raisedTo n o).toNat := by
  unfold raisedTo
  split
  · rw [BitVec.toNat_ofNat, Nat.mod_eq_of_lt hn]
    omega
  · omega

/-- Raise the entry that an increment of a decoded packet names. -/
def raiseEntry (t : Tbl W32) (x : Nat × Nat × Nat) : Tbl W32 := tmod 0 t (6 * x.1 + x.2.1) (raisedTo x.2.2)

theorem le_raiseEntry {x : Nat × Nat × Nat} (hx : x.2.2 < 2 ^ 32) (t : Tbl W32) (i : Nat) : (tget 0 t i).toNat ≤ (tget 0 (raiseEntry t x) i).toNat := by
  unfold raiseEntry
  by_cases hi : i = 6 * x.1 + x.2.1
  · rw [hi, tget_tmod_self]
    exact (le_raisedTo hx _).1
  · rw [tget_tmod_other _ _ _ hi]

/-- The entries that a packet carries lower none of the clock. -/
theorem le_foldl_raiseEntry {l : List (Nat × Nat × Nat)} (hl : ∀ x ∈ l, x.2.2 < 2 ^ 32) (t : Tbl W32) (i : Nat) :
    (tget 0 t i).toNat ≤ (tget 0 (l.foldl raiseEntry t) i).toNat := by
  induction l generalizing t with
  | nil => exact Nat.le_refl _
  | cons x l ih =>
    exact Nat.le_trans (le_raiseEntry (hl x List.mem_cons_self) t i) (ih (fun y hy => hl y (List.mem_cons_of_mem x hy)) _)

/-- The clock ends no lower than the entries that a packet carries. -/
theorem carried_le_foldl_raiseEntry {l : List (Nat × Nat × Nat)} (hl : ∀ x ∈ l, x.2.2 < 2 ^ 32) (t : Tbl W32) {k j n : Nat}
    (hx : (k, j, n) ∈ l) : n ≤ (tget 0 (l.foldl raiseEntry t) (6 * k + j)).toNat := by
  induction l generalizing t with
  | nil => cases hx
  | cons x l ih =>
    have htail := fun y hy => hl y (List.mem_cons_of_mem x hy)
    rcases List.mem_cons.mp hx with rfl | hx
    · refine Nat.le_trans ?_ (le_foldl_raiseEntry htail _ _)
      rw [raiseEntry, tget_tmod_self]
      exact (le_raisedTo (hl _ List.mem_cons_self) _).2
    · exact ih htail _ hx

section
variable {x : Die} {die : Nat} {p : Packet}

theorem clockDeliver_unordered {sealed : Bool} (h : ordered p.ptype = false) : clockDeliver x die sealed p = x := by
  rw [clockDeliver, h]
  rfl

theorem ordered_of_counted (h : counted p.ptype = true) : ordered p.ptype = true := by
  rw [ordered, h]
  rfl

/-- A packet that counts adds one to the count of its source. -/
theorem clockDeliver_counted (h : counted p.ptype = true) : clockDeliver x die false p =
    { x with v := tset 0 (p.incs.foldl raiseEntry x.v) (6 * p.src + die) (tget 0 x.d p.src + 1), d := tset 0 x.d p.src (tget 0 x.d p.src + 1) } := by
  rw [clockDeliver, ordered_of_counted h, h]
  rfl

/-- An ordered packet that does not count, or comes from a removed die, raises the matrix alone. -/
theorem clockDeliver_raises {sealed : Bool} (hordered : ordered p.ptype = true) (hcount : (counted p.ptype && !sealed) = false) :
    clockDeliver x die sealed p = { x with v := p.incs.foldl raiseEntry x.v } := by
  rw [clockDeliver, hordered]
  dsimp only
  rw [hcount]
  rfl

/-- What does not count leaves the counts. -/
theorem clockDeliver_counts_stay {sealed : Bool} (hcount : (counted p.ptype && !sealed) = false) : (clockDeliver x die sealed p).d = x.d := by
  cases hordered : ordered p.ptype with
  | false => rw [clockDeliver_unordered hordered]
  | true => rw [clockDeliver_raises hordered hcount]

theorem clockDeliver_other_count {k : Nat} (hk : k ≠ p.src) : tget 0 (clockDeliver x die false p).d k = tget 0 x.d k := by
  cases hcount : counted p.ptype with
  | false => rw [clockDeliver_counts_stay (by rw [hcount]; rfl)]
  | true => rw [clockDeliver_counted hcount, tget_tset_other _ _ _ hk]

/-- Beside the entry that counts the packet, the matrix holds what the entries that it carries have raised. -/
theorem clockDeliver_entry (hordered : ordered p.ptype = true) {k j : Nat} (hdie : die < 6) (hj : j < 6)
    (hother : ¬(counted p.ptype = true ∧ k = p.src ∧ j = die)) :
    tget 0 (clockDeliver x die false p).v (6 * k + j) = tget 0 (p.incs.foldl raiseEntry x.v) (6 * k + j) := by
  cases hcount : counted p.ptype with
  | false => rw [clockDeliver_raises hordered (by rw [hcount]; rfl)]
  | true =>
    rw [clockDeliver_counted hcount, tget_tset_other]
    intro hkey
    exact hother ⟨hcount, by omega, by omega⟩

end

/-- Settles O49: decoding by the packet's generation, delivery by the early buffer's order, the clock by the kind of packet. -/
theorem packetsDecodedAndDelivered : Obligations.PacketsDecodedAndDelivered := by
  intro s die idx d
  refine ⟨?decode, ?accept, ?deliver, ?wait, ?clock⟩
  case decode =>
    intro p harrived hstream hsrc hdie t
    have hexec := packetDecode_arrived harrived hstream hsrc hdie
    refine ⟨fun hgen => ?_, fun hgen => ?_⟩ <;> rw [hexec]
    · rw [if_neg fun h => bne_iff_ne.mp h hgen]
    · rw [if_pos (bne_iff_ne.mpr hgen)]
  case accept =>
    intro p m place i hi t st
    have hpart := acceptDecoded_decodedPart s die p m place
    refine ⟨?_, ?_⟩
    · have hmat : (t.die die).rmat = _ := congrArg Prod.fst hpart
      rw [hmat, tget_setStreamMatrix _ _ _ hi]
    · have hseq : (t.die die).recvSeq = _ := congrArg Prod.snd hpart
      rw [hseq, tget_tset_self]
  case deliver =>
    intro e hearly hdecoded hmay hfree hdie hfirst t
    have hto {sel : Packet → Bool} (hsel : sel e.pkt = true) (f : State → Packet → State) : deliverAt s die idx sel f = f t e.pkt :=
      deliverAt_delivers hearly hdecoded hmay hfree hdie hfirst hsel f
    refine ⟨fun herr hprobe => ?_, fun htype hop => ?_, fun a herr ha => ?_⟩
    · have hsel : (e.pkt.ptype != pERR && !(e.pkt.ptype == pCTL && e.pkt.op == 0xF1)) = true := by
        rw [bne_iff_ne.mpr herr, Bool.true_and, Bool.not_eq_true']
        exact Bool.eq_false_iff.mpr fun h => hprobe (by simpa using h)
      show execPacketDeliver die idx s = _
      rw [execPacketDeliver, hto hsel]
    · have hexec : exec (.fenceProbeAnswer die idx) s = _ := congrArg (fun u => Host.Outcome.next (stampReady u)) (hto (by rw [htype, hop]; rfl) _)
      refine ⟨fun hcore => ?_, fun hengine => ?_⟩ <;> rw [hexec]
      · rw [if_neg (by omega)]
      · rw [if_pos hengine]
    · show execErr die idx s = _
      rw [execErr, hto (by rw [herr]; rfl)]
      simp only [ha]
  case wait =>
    intro e hearly hwait
    have hstay {sel : Packet → Bool} {f : State → Packet → State} : deliverAt s die idx sel f = s := deliverAt_waits hearly hwait
    refine ⟨?_, ?_, ?_⟩
    · show execPacketDeliver die idx s = _
      rw [execPacketDeliver, hstay]
    · show execFenceProbeAnswer die idx s = _
      rw [execFenceProbeAnswer, hstay]
    · show execErr die idx s = _
      rw [execErr, hstay]
  case clock =>
    intro x p hincs _ hdie _ y
    refine ⟨fun hcount => ?_, fun hcount => clockDeliver_counts_stay (by rw [hcount]; rfl), fun k hk => clockDeliver_other_count hk,
      clockDeliver_counts_stay (Bool.and_false _), clockDeliver_unordered, fun hordered k j _ hj hother => ?_⟩
    · rw [show y = _ from clockDeliver_counted hcount]
      exact ⟨tget_tset_self .., tget_tset_self ..⟩
    · have hbound : ∀ z ∈ p.incs, z.2.2 < 2 ^ 32 := fun z hz => (hincs z hz).2.2
      rw [show tget 0 y.v (6 * k + j) = _ from clockDeliver_entry hordered hdie hj hother]
      exact ⟨le_foldl_raiseEntry hbound _ _, fun n hn => carried_le_foldl_raiseEntry hbound _ hn⟩

end Sys2Proof.Machine
end

section
/-!
PROOFS. Barrier squares (R305 to R308) and translation invalidations (R244, R276, R432): O53.
-/

namespace Sys2Proof.Machine

/-- What a change of a square does depends on the square alone. -/
theorem State.modSquare_congr {s : State} {n : Nat} {f g : Square → Square} (h : f (s.square n) = g (s.square n)) :
    s.modSquare n f = s.modSquare n g :=
  congrArg (fun x => { s with squares := tset Square.init s.squares n x }) h

/-! ### Messages of a square (R305, R306, R308) -/

section
variable {s : State} {idx : Nat} {m : BarMsg} (hmsg : s.barMsgs[idx]? = some m)
include hmsg

/-- An arrival whose turn it is: a different expected count is refused, another is counted, and the last one releases. -/
theorem squareArrival_arrives (hop : m.op = 0) (hturn : squareTurn s idx m = true) :
    exec (.squareArrival idx) s = .next (
      let t := (dropMsg s idx).modSquare m.square fun q => { q with isOpen := true, nexp := BitVec.ofNat 16 m.n, arr := q.arr + 1,
                                                                     cnt := tmod 0 q.cnt m.die (· + 1), who := q.who ++ [(m.die, m.core, m.chan)] }
      if (s.square m.square).isOpen && BitVec.ofNat 16 m.n != (s.square m.square).nexp then answerBar (dropMsg s idx) m 2 false
      else if (s.square m.square).arr + 1 == BitVec.ofNat 16 m.n then releaseBar t m.square (t.square m.square) else t) := by
  have hzero : (m.op != 0) = false := by rw [hop]; rfl
  show execSquareArrival idx s = _
  simp only [execSquareArrival, hmsg, hzero, hturn, Bool.not_true, Bool.or_false, Bool.false_eq_true, if_false, State.square_modSquare_self]

/-- A release whose turn it is wakes the waiters of its die. -/
theorem barrierRelease_wakes (hop : m.op = 1) (hturn : dieTurn s idx m = true) :
    exec (.barrierRelease idx) s = .next { dropMsg s idx with waiters := wakeWaiters m.square m.die m.n s.waiters } := by
  have hone : (m.op != 1) = false := by rw [hop]; rfl
  show execBarrierRelease idx s = _
  simp only [execBarrierRelease, hmsg, hone, hturn, Bool.not_true, Bool.or_false, Bool.false_eq_true, if_false]

theorem barrierRelease_stays (h : m.op ≠ 1 ∨ dieTurn s idx m = false) : exec (.barrierRelease idx) s = .next s := by
  have hstay : (m.op != 1 || !dieTurn s idx m) = true := by
    rcases h with h | h
    · rw [bne_iff_ne.mpr h, Bool.true_or]
    · rw [h, Bool.not_false, Bool.or_true]
  show execBarrierRelease idx s = _
  simp only [execBarrierRelease, hmsg, hstay, if_true]

theorem squareArrival_stays (h : m.op ≠ 0) : exec (.squareArrival idx) s = .next s := by
  show execSquareArrival idx s = _
  simp only [execSquareArrival, hmsg, bne_iff_ne.mpr h, Bool.true_or, if_true]

theorem barrierWithdraw_stays (h : m.op ≠ 2) : exec (.barrierWithdraw idx) s = .next s := by
  show execBarrierWithdraw idx s = _
  simp only [execBarrierWithdraw, hmsg, bne_iff_ne.mpr h, Bool.true_or, if_true]

theorem barrierWithdrawAnswer_stays (h : m.op ≠ 3 ∨ dieTurn s idx m = false) : exec (.barrierWithdrawAnswer idx) s = .next s := by
  have hstay : (m.op != 3 || !dieTurn s idx m) = true := by
    rcases h with h | h
    · rw [bne_iff_ne.mpr h, Bool.true_or]
    · rw [h, Bool.not_false, Bool.or_true]
  show execBarrierWithdrawAnswer idx s = _
  simp only [execBarrierWithdrawAnswer, hmsg, hstay, if_true]

section
variable (hop : m.op = 2) (hn : m.n = 1) (hturn : squareTurn s idx m = true)
include hop hn hturn

/-- A withdrawal at its square takes back an arrival of the open phase. -/
theorem barrierWithdraw_takes {x : Nat × Nat × Nat} (hfound : arrivalOf (s.square m.square) m = some x) :
    exec (.barrierWithdraw idx) s = .next (answerBar ((dropMsg s idx).modSquare m.square fun q =>
      { q with arr := q.arr - 1, cnt := tmod 0 q.cnt m.die (· - 1), who := q.who.erase x, isOpen := q.arr != 1 }) m 0 true) := by
  have hkind : (m.op != 2 || m.n == 2) = false := by rw [hop, hn]; rfl
  have hat : atSquare m = true := by rw [atSquare, hop, hn]; rfl
  show execBarrierWithdraw idx s = _
  simp only [execBarrierWithdraw, hmsg, hkind, hat, hturn, hfound, Bool.not_true, Bool.false_eq_true, if_false]

/-- A withdrawal that finds no arrival of its waiter is refused. -/
theorem barrierWithdraw_refused (hfound : arrivalOf (s.square m.square) m = none) :
    exec (.barrierWithdraw idx) s = .next (answerBar (dropMsg s idx) m 1 false) := by
  have hkind : (m.op != 2 || m.n == 2) = false := by rw [hop, hn]; rfl
  have hat : atSquare m = true := by rw [atSquare, hop, hn]; rfl
  show execBarrierWithdraw idx s = _
  simp only [execBarrierWithdraw, hmsg, hkind, hat, hturn, hfound, Bool.not_true, Bool.false_eq_true, if_false]

end

section
variable (hop : m.op = 3) (hturn : dieTurn s idx m = true)
include hop hturn

/-- A sweep ignores the answer. -/
theorem barrierWithdrawAnswer_sweep (hchan : m.chan = 255) : exec (.barrierWithdrawAnswer idx) s = .next (dropMsg s idx) := by
  have hthree : (m.op != 3) = false := by rw [hop]; rfl
  have hsweep : (m.chan == 255) = true := beq_iff_eq.mpr hchan
  show execBarrierWithdrawAnswer idx s = _
  simp only [execBarrierWithdrawAnswer, hmsg, hthree, hturn, hsweep, Bool.not_true, Bool.or_false, Bool.false_eq_true, if_false, if_true]

/-- The waiter of an answer. -/
def answeredWaiter (m : BarMsg) (w : Waiter) : Bool := w.square == m.square && w.core == m.core && w.chan == m.chan

/-- The messages that an answer leaves: the withdrawal that waited for it is gone too. -/
def answeredMsgs (s : State) (idx : Nat) (m : BarMsg) : List BarMsg :=
  (dropMsg s idx).barMsgs.filter fun x => !(x.op == 2 && x.n == 2 && x.square == m.square && x.core == m.core && x.chan == m.chan)

/-- A withdrawn waiter is gone, one whose arrival was refused is marked, one that had been released waits for its release. -/
theorem barrierWithdrawAnswer_answers (hchan : m.chan ≠ 255) : exec (.barrierWithdrawAnswer idx) s = .next (
    if m.ok then { s with barMsgs := answeredMsgs s idx m, waiters := dropFirst (answeredWaiter m) s.waiters }
    else if m.n == 2 then
      { s with barMsgs := answeredMsgs s idx m, waiters := mapFirst (answeredWaiter m) (fun w => { w with refused := true }) s.waiters }
    else { s with barMsgs := answeredMsgs s idx m }) := by
  have hthree : (m.op != 3) = false := by rw [hop]; rfl
  have hwaiter : (m.chan == 255) = false := beq_false_of_ne hchan
  show execBarrierWithdrawAnswer idx s = _
  simp only [execBarrierWithdrawAnswer, hmsg, hthree, hturn, hwaiter, Bool.not_true, Bool.or_false, Bool.false_eq_true, if_false]
  rfl

end
end

/-- The arrival that a withdrawal takes back, as log 69 has it. -/
def Counted (m : BarMsg) (x : Nat × Nat × Nat) : Prop := x.1 = m.die ∧ x.2.1 = m.core ∧ (m.chan = 255 ∨ x.2.2 = m.chan)

theorem counted_iff {m : BarMsg} {x : Nat × Nat × Nat} :
    (x.1 == m.die && x.2.1 == m.core && (m.chan == 255 || x.2.2 == m.chan)) = true ↔ Counted m x := by
  simp [Counted, and_assoc]

/-- The first counted arrival of an open phase is the one that is taken back. -/
theorem arrivalOf_first {q : Square} {m : BarMsg} {pre post : List (Nat × Nat × Nat)} {x : Nat × Nat × Nat} (hopen : q.isOpen = true)
    (hwho : q.who = pre ++ x :: post) (hx : Counted m x) (hpre : ∀ y ∈ pre, ¬Counted m y) :
    arrivalOf q m = some x ∧ q.who.erase x = pre ++ post := by
  constructor
  · rw [arrivalOf, if_pos hopen, List.find?_eq_some_iff_append]
    exact ⟨counted_iff.mpr hx, pre, post, hwho, fun y hy => by rw [Bool.not_eq_true', ← Bool.not_eq_true, counted_iff]; exact hpre y hy⟩
  · have hout : x ∉ pre := fun hmem => hpre x hmem hx
    rw [hwho, List.erase_append_right _ hout, List.erase_cons_head]

theorem arrivalOf_none {q : Square} {m : BarMsg} (h : q.isOpen = false ∨ ∀ x ∈ q.who, ¬Counted m x) : arrivalOf q m = none := by
  unfold arrivalOf
  rcases h with h | h
  · rw [h]; rfl
  · split
    · exact List.find?_eq_none.mpr fun x hx => by rw [counted_iff]; exact h x hx
    · rfl

/-! ### The start of an invalidation (R276, R432) -/

/-- A dropped INV leaves only its record. -/
theorem dropPacket_inv {s : State} {die : Nat} {p : Packet} (hp : p.ptype = pINV) : dropPacket s die p = logDrop s die p := by
  unfold dropPacket
  rw [hp]
  rfl

/-- Sending an INV notes its time and changes nothing else of the invalidation. -/
theorem sendInv_inval (s : State) (die : Nat) : (sendInv s die).pace = s.pace ∧
    (sendInv s die).inval = { s.inval with sentAt := tset 0 s.inval.sentAt die (s.pace.toNat + 1) } := by
  unfold sendInv sendPacket
  dsimp only
  split
  · exact ⟨rfl, rfl⟩
  · split
    · rw [dropPacket_inv rfl, logDrop, logRecord_pace, logRecord_inval]
      exact ⟨rfl, rfl⟩
    · exact ⟨rfl, rfl⟩

/-- Sending the INVs of several dies notes the time of each. -/
theorem foldl_sendInv_inval (l : List Nat) (s : State) : (l.foldl sendInv s).inval =
    { s.inval with sentAt := l.foldl (fun t d => tset 0 t d (s.pace.toNat + 1)) s.inval.sentAt } := by
  induction l generalizing s with
  | nil => rfl
  | cons d l ih =>
    obtain ⟨hpace, hinval⟩ := sendInv_inval s d
    rw [List.foldl_cons, ih, hpace, hinval]
    rfl

/-- The dies that take part in an invalidation. -/
def invDies (s : State) : List Nat := below 6 fun d => (s.die d).live && !(s.die d).removed

/-- An invalidation of which no INV has been sent. -/
def invBegun (s : State) : State :=
  { s with inval := { n := s.inval.n + 1, source := fabricDie s, busy := true, va := s.regs.invva, pages := s.regs.invpages, dropped := [],
                      waitFor := [], sentAt := [], left := invDies s } }

/-- INVGO starts an invalidation and sends its INVs. -/
theorem invgo_starts {s : State} (hidle : s.inval.busy = false) : exec .invgo s = .next ((invDies s).foldl sendInv (invBegun s)) := by
  show execInvgo s = _
  rw [execInvgo, hidle, if_neg Bool.false_ne_true]
  rfl

/-- Setting entries of a table to one value sets each of them. -/
theorem tget_foldl_tset {d v : Nat} {l : List Nat} (hd : d ∈ l) (t : Tbl Nat) : tget 0 (l.foldl (fun t i => tset 0 t i v) t) d = v := by
  refine foldl_establishes (i := d) (step := fun t i => tset 0 t i v) (P := fun u => tget 0 u d = v) (fun u j hu => ?_)
    (fun u => tget_tset_self ..) hd t
  by_cases hj : d = j
  · rw [hj, tget_tset_self]
  · rw [tget_tset_other _ _ _ hj, hu]

/-! ### What a die drops (R244) -/

theorem dropRange_mem (s : State) (die : Nat) (r : Inval) : (dropRange s die r).mem = s.mem := rfl

/-- A core of the die keeps no translation of the range. -/
theorem dropRange_tcache {s : State} {die : Nat} {r : Inval} {x : Nat × Core} (hx : x ∈ (dropRange s die r).cores) (hdie : dieOf x.1 = die)
    {y : Nat × List TcEntry} (hy : y ∈ x.2.tcache) {e : TcEntry} (he : e ∈ y.2) : invEntry r e = false := by
  obtain ⟨k, -, rfl⟩ := List.mem_map.mp hx
  rw [show (dieOf k.1 == die) = true from beq_iff_eq.mpr hdie] at hy
  obtain ⟨hy, -⟩ := List.mem_filter.mp hy
  obtain ⟨z, -, rfl⟩ := List.mem_map.mp hy
  obtain ⟨-, hkeep⟩ := List.mem_filter.mp he
  exact (Bool.not_eq_true' _).mp hkeep

/-- The writes of a die through the range that have not been performed. -/
def openWrite (die : Nat) (r : Inval) (a : Access) : Bool :=
  agentDie a.agent == die && a.kind != .read && a.phase != .parked && !accPerformed a && invPage r a

/-- The present invalidation notes the die, and the writes of the range that it must wait for. -/
theorem dropRange_inval {s : State} {die : Nat} {r : Inval} (hn : r.n = s.inval.n) : (dropRange s die r).inval =
    { s.inval with dropped := die :: s.inval.dropped.erase die, waitFor := s.inval.waitFor ++
        (((dropRange s die r).accs.filter (openWrite die r)).map fun a => a.id).filter fun x => !s.inval.waitFor.contains x } :=
  if_pos (beq_iff_eq.mpr hn)

theorem dropRange_waits {s : State} {die : Nat} {r : Inval} (hn : r.n = s.inval.n) {a : Access} (ha : a ∈ (dropRange s die r).accs)
    (hopen : openWrite die r a = true) : a.id ∈ (dropRange s die r).inval.waitFor := by
  rw [dropRange_inval hn]
  by_cases hold : a.id ∈ s.inval.waitFor
  · exact List.mem_append_left _ hold
  · refine List.mem_append_right _ (List.mem_filter.mpr ⟨List.mem_map.mpr ⟨a, List.mem_filter.mpr ⟨ha, hopen⟩, rfl⟩, ?_⟩)
    simpa using hold

/-! ### Packets of an invalidation (R276) -/

/-- A packet of the present generation between dies in use is taken in. -/
theorem takeArrived_takes {s : State} {die idx : Nat} {p : Packet} (hsrc : (s.die p.src).removed = false) (hdie : (s.die die).removed = false)
    (hgen : p.gen = (s.die die).gen) (f : State → State) :
    takeArrived s die idx p f = f (s.modDie die fun d => { d with arrived := d.arrived.eraseIdx idx }) := by
  have hsame : (p.gen != (s.die die).gen) = false := by rw [hgen]; exact bne_self_eq_false' _
  simp only [takeArrived, hsrc, hdie, hsame, Bool.or_self, Bool.false_eq_true, if_false]

/-- The range that an INV packet names, under the present number or another. -/
def invOfPacket (s : State) (p : Packet) : Inval :=
  { Inval.init with n := if p.tag == BitVec.ofNat 16 s.inval.n then s.inval.n else s.inval.n + 1, source := p.src,
                    va := leBv 64 (slice p.data 0 8), pages := leBv 32 (slice p.data 8 4) }

section
variable {s : State} {die : Nat}

theorem inv_source (hbusy : s.inval.busy = true) (hsource : die = s.inval.source) (hleft : die ∈ s.inval.left) (hdrop : die ∉ s.inval.dropped) :
    exec (.inv die) s = .next (dropRange s die s.inval) := by
  have hgo : (s.inval.busy && s.inval.left.contains die && !s.inval.dropped.contains die) = true := by
    simp [hbusy, hleft, hdrop]
  have hself : (die == s.inval.source) = true := beq_iff_eq.mpr hsource
  show execInv die s = _
  unfold execInv
  dsimp only
  rw [if_pos hself, if_pos hgo]

theorem inv_packet {idx : Nat} {p : Packet} (hsource : die ≠ s.inval.source)
    (hidx : (List.range 6).findSome? (fun src => arrivedIdx s die pINV src) = some idx) (harrived : (s.die die).arrived[idx]? = some p)
    (hsrc : (s.die p.src).removed = false) (hdie : (s.die die).removed = false) (hgen : p.gen = (s.die die).gen) :
    exec (.inv die) s = .next (dropRange (s.modDie die fun d => { d with arrived := d.arrived.eraseIdx idx }) die (invOfPacket s p)) := by
  have hother : (die == s.inval.source) = false := beq_false_of_ne hsource
  show execInv die s = _
  simp only [execInv, hother, hidx, harrived, takeArrived_takes hsrc hdie hgen, Bool.false_eq_true, if_false]
  rfl

theorem invack_packet {idx : Nat} {p : Packet} (hidx : arrivedIdx s s.inval.source pINVACK die = some idx)
    (harrived : (s.die s.inval.source).arrived[idx]? = some p) (hsrc : (s.die p.src).removed = false)
    (hdie : (s.die s.inval.source).removed = false) (hgen : p.gen = (s.die s.inval.source).gen) :
    exec (.invack die) s = .next (if p.tag == BitVec.ofNat 16 s.inval.n
      then ackInv (s.modDie s.inval.source fun d => { d with arrived := d.arrived.eraseIdx idx }) die
      else s.modDie s.inval.source fun d => { d with arrived := d.arrived.eraseIdx idx }) := by
  show execInvack die s = _
  simp only [execInvack, hidx, harrived, takeArrived_takes hsrc hdie hgen]

section
variable (hnone : arrivedIdx s s.inval.source pINVACK die = none)
include hnone

theorem invack_answers (hbusy : s.inval.busy = true) (hdrop : die ∈ s.inval.dropped) (hsettled : invSettled s die = true) :
    exec (.invack die) s = .next (if die == s.inval.source
      then ackInv { s with inval := { s.inval with dropped := s.inval.dropped.erase die } } die
      else sendPacket { s with inval := { s.inval with dropped := s.inval.dropped.erase die } } die
        { Packet.init with ptype := pINVACK, src := die, dst := s.inval.source, gen := (s.die die).gen, tag := BitVec.ofNat 16 s.inval.n }) := by
  have hgo : (!s.inval.busy || !s.inval.dropped.contains die || !invSettled s die) = false := by
    simp [hbusy, hdrop, hsettled]
  show execInvack die s = _
  simp only [execInvack, hnone, hgo, Bool.false_eq_true, if_false]

theorem invack_waits (h : die ∉ s.inval.dropped ∨ invSettled s die = false) : exec (.invack die) s = .next s := by
  have hstay : (!s.inval.busy || !s.inval.dropped.contains die || !invSettled s die) = true := by
    rcases h with h | h
    · simp [h]
    · simp [h]
  show execInvack die s = _
  simp only [execInvack, hnone, hstay, if_true]

end

/-- The timer of a die whose answer is due sends its INV again, and otherwise does nothing. -/
theorem invResendTimer_due (hbusy : s.inval.busy = true) (hleft : die ∈ s.inval.left) (hsource : die ≠ s.inval.source)
    (hdue : tget 0 s.inval.sentAt die - 1 + 10000 ≤ s.pace.toNat) : exec (.invResendTimer die) s = .next (sendInv s die) := by
  have hother : (die == s.inval.source) = false := beq_false_of_ne hsource
  have hcontains : s.inval.left.contains die = true := List.contains_iff_mem.mpr hleft
  show execInvResendTimer die s = _
  simp only [execInvResendTimer, hbusy, hcontains, hother, Nat.not_lt.mpr hdue, Bool.not_true, Bool.or_self, Bool.false_eq_true,
    decide_false, if_false]

theorem invResendTimer_early (hearly : s.pace.toNat < tget 0 s.inval.sentAt die - 1 + 10000) : exec (.invResendTimer die) s = .next s := by
  show execInvResendTimer die s = _
  simp only [execInvResendTimer, hearly, decide_true, Bool.or_true, if_true]

end

/-! ### Walks in progress when frames are tried again (R244, R416)

A frame that is tried again enters HOSTWAIT or ends its plot. Both write records, and the end of a plot abandons walks of its cores; none begins or holds
a walk, and the invalidation is not touched. -/

/-- The invalidation is `i`, and every walk is one of `l`. -/
def walksFrom (i : Inval) (l : List Walk) (s : State) : Bool := decide (s.inval = i ∧ ∀ w ∈ s.walks, w ∈ l)

theorem walksFrom_self (s : State) : walksFrom s.inval s.walks s = true := decide_eq_true ⟨rfl, fun _ h => h⟩

theorem walksFrom_congr {i : Inval} {l : List Walk} {s t : State} (h : besideMemory t = besideMemory s) (hs : walksFrom i l s = true) :
    walksFrom i l t = true := by
  have hinval : t.inval = s.inval := congrArg (fun x => x.2.2.2.1) h
  have hwalks : t.walks = s.walks := congrArg (fun x => x.2.2.2.2) h
  rw [walksFrom, hinval, hwalks]
  exact hs

theorem logParts_besideMemory (s : State) (xs : List Nat) : besideMemory (logParts s xs) = besideMemory s :=
  foldl_keeps besideMemory (fun t _ => logRecord_besideMemory t _ _ _ _) xs s

theorem hbmWriteBy_besideMemory (byHost : Bool) (s : State) (a : Nat) (bs : List Byte) : besideMemory (hbmWriteBy byHost s a bs) = besideMemory s := by
  unfold hbmWriteBy
  rw [logParts_besideMemory, hbmStore_besideMemory]
  split <;> rfl

theorem writeHash_besideMemory (s : State) (pa : Nat) (bs : List Byte) : besideMemory (writeHash s pa bs) = besideMemory s := by
  unfold writeHash
  exact foldl_keeps besideMemory (fun t p => hbmWriteBy_besideMemory false t _ _) _ s

theorem ringAppend_besideMemory (s : State) (r : Ring) (bs : List Byte) : besideMemory (ringAppend s r bs).1 = besideMemory s :=
  ringPut_keeps besideMemory writeHash_besideMemory s r bs

theorem faultRecord_besideMemory (s : State) (bs : List Byte) : besideMemory (faultRecord s bs) = besideMemory s :=
  ringAppend_besideMemory s s.regs.fq bs

theorem storeAt_besideMemory (s : State) (e : TcEntry) (va : Word) (bs : List Byte) : besideMemory (storeAt s e va bs) = besideMemory s := by
  unfold storeAt
  split
  · rw [count_besideMemory]
    rfl
  · exact hbmWriteBy_besideMemory false s _ _

/-- What holds of every answer holds of the one that comes. -/
theorem holds_of_ok {ε α : Type} {p : α → Bool} {x : Except ε α} {a : α} (e : x = .ok a) (hx : okAll p x = true) : p a = true := by
  subst e
  exact hx

section
variable {i : Inval} {l : List Walk} {s : State} (h : walksFrom i l s = true)
include h

theorem faultRecord_walksFrom (bs : List Byte) : walksFrom i l (faultRecord s bs) = true := walksFrom_congr (faultRecord_besideMemory s bs) h

theorem count_walksFrom (die k n : Nat) : walksFrom i l (s.count die k n) = true := walksFrom_congr (count_besideMemory s die k n) h

theorem writeVa_walksFrom (root va : Word) (bs : List Byte) : okAll (walksFrom i l) (writeVa s root va bs) = true := by
  unfold writeVa
  split
  · rfl
  · refine foldl_holds (walksFrom i l) (fun t p ht => ?_) _ h
    split
    · exact ht
    · exact walksFrom_congr (storeAt_besideMemory ..) ht

theorem countAccess_walksFrom (agent : Nat) (host : Bool) (pa : Nat) (write : Bool) : walksFrom i l (countAccess s agent host pa write) = true :=
  holds_ite (walksFrom i l) h (holds_ite (walksFrom i l) (walksFrom_congr (ringAppend_besideMemory ..) h) h)

omit h in
theorem countLines_walksFrom {t : State} (ht : walksFrom i l t = true) (host : Bool) (addr pa n : Nat) (write : Bool) :
    walksFrom i l (countLines t host addr pa n write) = true :=
  foldl_holds (walksFrom i l) (fun _ _ hu => countAccess_walksFrom hu _ _ _ _) _ ht

omit h in
theorem raceWatch_walksFrom {t : State} (ht : walksFrom i l t = true) (die frame : Nat) : walksFrom i l (raceWatch t die frame).2 = true := by
  unfold raceWatch
  dsimp only
  split
  · exact ht
  · split <;> exact ht

theorem countVa_walksFrom (root va : Word) (n : Nat) (write : Bool) : walksFrom i l (countVa s root va n write) = true := by
  unfold countVa
  refine foldl_holds (walksFrom i l) (fun t p ht => ?_) _ h
  extract_lets a
  split
  · extract_lets t1 u
    have ht1 : walksFrom i l t1 = true := holds_ite (walksFrom i l) (raceWatch_walksFrom ht _ _) ht
    have hu : walksFrom i l u = true := holds_ite (walksFrom i l) (countLines_walksFrom ht1 _ _ _ _ _) ht1
    exact holds_ite (walksFrom i l) hu (holds_ite (walksFrom i l) (count_walksFrom hu _ _ _) (count_walksFrom hu _ _ _))
  · exact ht

/-! The end of a plot (R390, R394, R398) -/

theorem walkerRecord_walksFrom (node : Word) (code : Byte) (tval : Word) : walksFrom i l (walkerRecord s node code tval) = true :=
  faultRecord_walksFrom h _

theorem setSt_walksFrom (node : Word) (st : BitVec 8) : okAll (walksFrom i l) (setSt s node st) = true :=
  okAll_allOk fun _ _ => writeVa_walksFrom h _ _ _

theorem nodeFault_walksFrom (node : Word) (code : Byte) (tval : Word) : walksFrom i l (nodeFault s node code tval) = true := by
  unfold nodeFault
  split
  next e => exact walkerRecord_walksFrom (holds_of_ok e (setSt_walksFrom h _ _)) _ _ _
  next => exact walkerRecord_walksFrom h _ _ _

theorem enqueue_walksFrom (e : QEntry) : walksFrom i l (enqueue s e) = true := holds_ite (walksFrom i l) h h

theorem makeReady_walksFrom (node v : Word) : okAll (walksFrom i l) (makeReady s node v) = true :=
  okAll_allOk fun _ ht => enqueue_walksFrom (holds_of_ok ht (writeVa_walksFrom h _ _ _)) _

theorem releaseOne_walksFrom (succ : Word) : okAll (walksFrom i l) (releaseOne s succ) = true := by
  unfold releaseOne
  dsimp only
  split
  · rfl
  · refine holds_ite (okAll (walksFrom i l)) (nodeFault_walksFrom h _ _ _) ?_
    split
    · rfl
    next e =>
      have ht := holds_of_ok e (writeVa_walksFrom h _ _ _)
      exact holds_ite (okAll (walksFrom i l)) (makeReady_walksFrom ht _ _) ht

omit h in
theorem releaseAll_walksFrom {t : State} (ht : walksFrom i l t = true) (node : Word) (succs : List Word) :
    walksFrom i l (releaseAll t node succs) = true := by
  induction succs generalizing t with
  | nil => exact ht
  | cons a r ih =>
    unfold releaseAll
    refine holds_ite (walksFrom i l) (ih ht) ?_
    split
    · exact nodeFault_walksFrom ht _ _ _
    next e => exact ih (holds_of_ok e (releaseOne_walksFrom ht _))

theorem nodeDone_walksFrom (node : Word) (succ : List Word) : walksFrom i l (nodeDone s node succ) = true := by
  unfold nodeDone
  split
  · exact walkerRecord_walksFrom h _ _ _
  · split
    · exact nodeFault_walksFrom h _ _ _
    next e => exact releaseAll_walksFrom (holds_of_ok e (writeVa_walksFrom h _ _ _)) _ _

theorem launchFault_walksFrom (node : Word) (relf : Bool) : walksFrom i l (launchFault s node relf) = true := by
  unfold launchFault
  split
  · exact walkerRecord_walksFrom h _ _ _
  next e =>
    have hset := holds_of_ok e (setSt_walksFrom h _ _)
    exact holds_ite (walksFrom i l) (releaseAll_walksFrom hset _ _) hset

theorem launchEnd_walksFrom (r : LaunchRun) (ok : Bool) : walksFrom i l (launchEnd s r ok) = true := by
  unfold launchEnd
  extract_lets word s1 done
  have h1 : walksFrom i l s1 = true := h
  have hdone : okAll (fun p => walksFrom i l p.1) done = true :=
    okAll_allOk fun donew _ => okAll_allOk fun _ _ => okAll_allOk fun t ht => by
      have hwrite : okAll (walksFrom i l) (if donew == 0 then .ok s1 else gwrite s1 donew word) = true :=
        holds_ite (okAll (walksFrom i l)) h1 (writeVa_walksFrom h1 _ _ _)
      exact holds_of_ok (p := walksFrom i l) ht hwrite
  clear_value done
  split
  · exact nodeFault_walksFrom h1 _ _ _
  next => exact holds_ite (walksFrom i l) (nodeDone_walksFrom hdone _ _) (launchFault_walksFrom hdone _ _)

theorem plotEnded_walksFrom (node : Word) (fatal : Option Byte) : walksFrom i l (plotEnded s node fatal) = true := by
  unfold plotEnded
  split
  · exact h
  · exact holds_ite (walksFrom i l) (launchEnd_walksFrom h _ _) h

theorem dissolveGroups_walksFrom (plot : Nat) : walksFrom i l (dissolveGroups s plot) = true := by
  unfold dissolveGroups
  refine foldl_holds (walksFrom i l) (fun t g ht => ?_) _ h
  exact foldl_holds (walksFrom i l) (fun _ _ hu => by exact hu) _ (by exact ht)

theorem requeue_walksFrom (f : Plot) : walksFrom i l (requeue s f) = true := holds_ite (walksFrom i l) h (enqueue_walksFrom h _)

theorem dropFollow_walksFrom (q : Plot) : walksFrom i l (dropFollow s q) = true := by
  unfold dropFollow
  dsimp only
  split
  · exact h
  · split
    · exact requeue_walksFrom (by exact foldl_holds (walksFrom i l) (fun _ _ hu => by exact hu) _ h) _
    · exact foldl_holds (walksFrom i l) (fun _ _ hu => by exact hu) _ h

theorem abandon_walksFrom (cores : List Nat) : walksFrom i l (abandon s cores) = true := by
  obtain ⟨hinval, hwalks⟩ := of_decide_eq_true h
  exact decide_eq_true ⟨hinval, fun w hw => hwalks w (List.mem_filter.mp hw).1⟩

theorem sweepPlot_walksFrom (q : Plot) (code : Byte) : walksFrom i l (sweepPlot s q code) = true :=
  foldl_holds (walksFrom i l) (fun _ _ hu => by exact hu) _ (abandon_walksFrom (dropFollow_walksFrom (dissolveGroups_walksFrom h _) _) _)

theorem fatalEnd_walksFrom (q : Plot) (code : Byte) (rec : List Byte) : walksFrom i l (fatalEnd s q code rec) = true :=
  plotEnded_walksFrom (faultRecord_walksFrom (sweepPlot_walksFrom h _ _) _) _ _

theorem modPlot_walksFrom (p : Nat) (f : Plot → Plot) : walksFrom i l (s.modPlot p f) = true := h

theorem hostwaitSeq_walksFrom (q : Plot) (core : Nat) (esc : Option Byte) (origin : Byte) : walksFrom i l (hostwaitSeq s q core esc origin) = true := by
  refine holds_ite (walksFrom i l) h ?_
  unfold hostwaitNow
  extract_lets
  split
  · exact fatalEnd_walksFrom h _ _ _
  next e => exact modPlot_walksFrom (faultRecord_walksFrom (countVa_walksFrom (holds_of_ok e (writeVa_walksFrom h _ _ _)) _ _ _ _) _) _ _

/-- Trying frames again begins and holds no walk, and leaves the invalidation. -/
theorem rewalkFrames_walksFrom (p : HeldFrame → Bool) : walksFrom i l (rewalkFrames s p) = true := by
  unfold rewalkFrames
  refine foldl_holds (walksFrom i l) (fun t f ht => ?_) _ h
  dsimp only
  split
  · exact ht
  · exact hostwaitSeq_walksFrom (by exact ht) _ _ _ _

end

/-! ### The end of an invalidation and held walks (R244) -/

/-- A walk that is still held was held before, and is not one of those that are walked again. -/
theorem rewalk_held {s : State} {p : Walk → Bool} {w : Walk} (hw : w ∈ (rewalk s p).walks) (hheld : w.heldAt ≠ none) : p w = false := by
  obtain ⟨v, -, rfl⟩ := List.mem_map.mp hw
  by_cases h : (v.heldAt.isSome && p v) = true
  · rw [if_pos h] at hheld
    exact absurd rfl hheld
  · rw [if_neg h] at hheld ⊢
    rw [Option.isSome_iff_ne_none.mpr hheld, Bool.true_and] at h
    exact Bool.eq_false_iff.mpr h

section
variable {s : State} {die : Nat} (hbusy : s.inval.busy = true) (hleft : die ∈ s.inval.left)
include hbusy hleft

/-- An answer that others follow takes its die out of the set. -/
theorem ackInv_more (hmore : s.inval.left.erase die ≠ []) : ackInv s die = { s with inval := { s.inval with left := s.inval.left.erase die } } := by
  have hgo : (!s.inval.busy || !s.inval.left.contains die) = false := by simp [hbusy, hleft]
  have hopen : (s.inval.left.erase die).isEmpty = false := List.isEmpty_eq_false_iff.mpr hmore
  simp only [ackInv, hgo, hopen, Bool.false_eq_true, if_false]

/-- With the last answer the invalidation is over, and the held walks of its range go on. -/
theorem ackInv_last (hlast : s.inval.left.erase die = []) : (ackInv s die).inval = { Inval.init with n := s.inval.n } ∧
    ∀ w ∈ (ackInv s die).walks, w.heldAt ≠ none → invCovers s.inval (w.va.toNat / 4096 * 4096) 4096 = false := by
  have hgo : (!s.inval.busy || !s.inval.left.contains die) = false := by simp [hbusy, hleft]
  have hover : ackInv s die = rewalkFrames (rewalk { s with inval := { Inval.init with n := s.inval.n } } fun w =>
      invCovers s.inval (w.va.toNat / 4096 * 4096) 4096) fun _ => true := by
    simp only [ackInv, hgo, hlast, List.isEmpty_nil, Bool.false_eq_true, if_false, if_true]
  obtain ⟨hinval, hwalks⟩ := of_decide_eq_true (rewalkFrames_walksFrom (walksFrom_self (rewalk { s with inval := { Inval.init with n := s.inval.n } }
    fun w => invCovers s.inval (w.va.toNat / 4096 * 4096) 4096)) fun _ => true)
  rw [hover]
  exact ⟨hinval, fun w hw hheld => rewalk_held (hwalks w hw) hheld⟩

end

/-- A held walk of a number that has waited 10 µs (R244). -/
def dueWalk (s : State) (id : Nat) (w : Walk) : Bool :=
  w.id == id && match w.heldAt with | some t => Nat.ble 10000 (s.pace - t).toNat | none => false

theorem dueWalk_iff {s : State} {id : Nat} {w : Walk} : dueWalk s id w = true ↔ w.id = id ∧ ∃ x, w.heldAt = some x ∧ 10000 ≤ (s.pace - x).toNat := by
  unfold dueWalk
  cases w.heldAt <;> simp

theorem wbRewalk_eq (id : Nat) (s : State) : exec (.wbRewalk id) s =
    .next (rewalkFrames (rewalk s (dueWalk s id)) fun f => f.id == id && Nat.ble 10000 (s.pace - f.since).toNat) := rfl

/-- After a rewalk no walk of that number has been held for 10 µs. -/
theorem wbRewalk_held {id : Nat} {s : State} {w : Walk}
    (hw : w ∈ (rewalkFrames (rewalk s (dueWalk s id)) fun f => f.id == id && Nat.ble 10000 (s.pace - f.since).toNat).walks) (hid : w.id = id)
    {x : BitVec 64} (hx : w.heldAt = some x) : (s.pace - x).toNat < 10000 := by
  obtain ⟨-, hwalks⟩ := of_decide_eq_true (rewalkFrames_walksFrom (walksFrom_self (rewalk s (dueWalk s id)))
    fun f => f.id == id && Nat.ble 10000 (s.pace - f.since).toNat)
  have hnot := rewalk_held (hwalks w hw) (by rw [hx]; exact Option.some_ne_none x)
  refine Nat.lt_of_not_le fun hlate => ?_
  rw [dueWalk_iff.mpr ⟨hid, x, hx, hlate⟩] at hnot
  cases hnot

/-- Without held frames a rewalk changes the walks of its number alone. -/
theorem wbRewalk_walks {id : Nat} {s : State} (hframes : s.frames = []) : exec (.wbRewalk id) s =
    .next { s with walks := s.walks.map fun w =>
      if w.id = id ∧ (∃ x, w.heldAt = some x ∧ 10000 ≤ (s.pace - x).toNat) then { w with heldAt := none } else w } := by
  have hnone : (rewalk s (dueWalk s id)).frames = [] := hframes
  rw [wbRewalk_eq, rewalkFrames, hnone, List.filter_nil, List.foldl_nil, rewalk]
  refine congrArg (fun l => Host.Outcome.next { s with walks := l }) (List.map_congr_left fun w _ => ?_)
  have hdue : (w.heldAt.isSome && dueWalk s id w) = true ↔ w.id = id ∧ ∃ x, w.heldAt = some x ∧ 10000 ≤ (s.pace - x).toNat := by
    rw [Bool.and_eq_true, dueWalk_iff]
    exact ⟨And.right, fun h => ⟨by obtain ⟨-, x, hx, -⟩ := h; rw [hx]; rfl, h⟩⟩
  by_cases h : (w.heldAt.isSome && dueWalk s id w) = true
  · rw [if_pos h, if_pos (hdue.mp h)]
  · rw [if_neg h, if_neg (fun h' => h (hdue.mpr h'))]

/-- Settles O53: each event of a square or an invalidation takes the branch that the clause's hypotheses leave open; trying frames again adds no held
walk, so that none of the range is held after the last answer. -/
theorem barriersAndInvalidations : Obligations.BarriersAndInvalidations := by
  unfold Obligations.BarriersAndInvalidations
  refine ⟨?squares, ?invalidation⟩
  case squares =>
    intro s idx m hmsg q t
    refine ⟨?arrival, fun hop hturn => barrierRelease_wakes hmsg hop hturn,
      fun hturn => ⟨barrierRelease_stays hmsg (Or.inr hturn), barrierWithdrawAnswer_stays hmsg (Or.inr hturn)⟩, ?withdraw,
      fun hop hturn hchan => barrierWithdrawAnswer_sweep hmsg hop hturn hchan, ?answer, squareArrival_stays hmsg,
      fun hop => barrierRelease_stays hmsg (Or.inl hop), barrierWithdraw_stays hmsg, fun hop => barrierWithdrawAnswer_stays hmsg (Or.inl hop)⟩
    case arrival =>
      intro hop hturn n u
      have hexec := squareArrival_arrives hmsg hop hturn
      have hjoins (h : q.isOpen = false ∨ q.nexp = n) : (q.isOpen && n != q.nexp) = false := by
        rcases h with h | h
        · rw [h]; rfl
        · rw [h, bne_self_eq_false', Bool.and_false]
      refine ⟨fun hopen hother => ?_, fun hjoin hmore => ?_, fun hjoin hlast => ?_⟩ <;> rw [hexec] <;> dsimp only
      · rw [if_pos (by rw [hopen, Bool.true_and]; exact bne_iff_ne.mpr (Ne.symm hother))]
      · rw [if_neg (by rw [hjoins hjoin]; exact Bool.false_ne_true), if_neg fun h => hmore (beq_iff_eq.mp h)]
      · rw [if_neg (by rw [hjoins hjoin]; exact Bool.false_ne_true), if_pos (beq_iff_eq.mpr hlast)]
    case withdraw =>
      intro hop hn hturn counted
      refine ⟨fun pre x post hopen hwho hx hpre => ?_, fun h => barrierWithdraw_refused hmsg hop hn hturn (arrivalOf_none h)⟩
      obtain ⟨hfound, herase⟩ := arrivalOf_first (m := m) hopen hwho hx hpre
      rw [barrierWithdraw_takes hmsg hop hn hturn hfound]
      refine congrArg (fun u => Host.Outcome.next (answerBar u m 0 true)) (State.modSquare_congr ?_)
      exact congrArg (fun who => { q with arr := q.arr - 1, cnt := tmod 0 q.cnt m.die (· - 1), who := who, isOpen := q.arr != 1 }) herase
    case answer =>
      intro hop hturn hchan mine
      have hexec := barrierWithdrawAnswer_answers hmsg hop hturn hchan
      refine ⟨answeredMsgs s idx m, fun hok => ?_, fun hok hn => ?_, fun hok hn => ?_⟩ <;> rw [hexec, hok]
      · rfl
      · rw [hn]; rfl
      · rw [if_neg Bool.false_ne_true, if_neg fun h => hn (beq_iff_eq.mp h)]
  case invalidation =>
    intro s die i
    refine ⟨?start, ?busy, ?drop, fun hbusy hsource hleft hdrop => inv_source hbusy hsource hleft hdrop, ?packet, ?answered, ?answers, ?left, ?rewalk⟩
    case start =>
      intro hidle
      refine ⟨_, invgo_starts hidle, ?_⟩
      rw [foldl_sendInv_inval]
      exact ⟨rfl, rfl, rfl, rfl, rfl, rfl, rfl, rfl, fun d hd => tget_foldl_tset hd _⟩
    case busy =>
      intro hbusy
      show execInvgo s = _
      rw [execInvgo, if_pos hbusy]
    case drop =>
      intro r t
      refine ⟨rfl, fun x hx hdie y hy e he => dropRange_tcache hx hdie hy he, fun hn => ⟨?_, ?_, fun a ha hdie hread hparked hopen hpage => ?_⟩⟩
      · rw [show t.inval = _ from dropRange_inval hn]
        exact List.mem_cons_self
      · rw [show t.inval = _ from dropRange_inval hn]
      · refine dropRange_waits hn ha ?_
        simp [openWrite, hdie, hread, hparked, hopen, hpage]
    case packet =>
      intro idx p hsource hidx harrived hsrc hdie hgen
      exact ⟨invOfPacket s p, inv_packet hsource hidx harrived hsrc hdie hgen, rfl, rfl, fun htag => if_pos (beq_iff_eq.mpr htag)⟩
    case answered =>
      intro idx p hidx harrived hsrc hdie hgen t
      rw [invack_packet hidx harrived hsrc hdie hgen]
      exact congrArg _ (if_congr beq_iff_eq rfl rfl)
    case answers =>
      intro hnone
      refine ⟨fun hbusy hdrop hsettled => ?_, fun h => invack_waits hnone h⟩
      have hexec := invack_answers hnone hbusy hdrop hsettled
      refine ⟨fun hsource => ?_, fun hsource => ?_⟩ <;> rw [hexec]
      · rw [if_pos (beq_iff_eq.mpr hsource)]
      · rw [if_neg fun h => hsource (beq_iff_eq.mp h)]
    case left =>
      intro hbusy hleft
      exact ⟨ackInv_more hbusy hleft, ackInv_last hbusy hleft, fun hsource hdue => invResendTimer_due hbusy hleft hsource hdue, invResendTimer_early⟩
    case rewalk =>
      intro id
      exact ⟨⟨_, wbRewalk_eq id s, fun w hw hid x hx => wbRewalk_held hw hid hx⟩, wbRewalk_walks⟩

end Sys2Proof.Machine
end

section
/-!
PROOFS. Levels and ramps, meters, the slew limiter, trips and the loss of firmware (R229, R421 to R428): O56.
-/

namespace Sys2Proof.Machine

/-! ### Changes of clusters -/

theorem State.cluster_modCluster_other (s : State) {k j : Nat} (f : Cluster → Cluster) (h : j ≠ k) : (s.modCluster k f).cluster j = s.cluster j :=
  tget_tmod_other _ _ _ h

/-- What a change of a cluster does depends on the cluster alone. -/
theorem State.modCluster_congr {s : State} {k : Nat} {f g : Cluster → Cluster} (h : f (s.cluster k) = g (s.cluster k)) :
    s.modCluster k f = s.modCluster k g :=
  congrArg (fun x => { s with clusters := tset Cluster.init s.clusters k x }) h

/-- Where each cluster has its step, a cluster ends as its own step leaves it. -/
theorem foldl_cluster {f : State → Nat → State} {k : Nat} (hother : ∀ t j, j ≠ k → (f t j).cluster k = t.cluster k) {l : List Nat} (hk : k ∈ l)
    (hl : l.Nodup) (s : State) : ∃ u, u.cluster k = s.cluster k ∧ (l.foldl f s).cluster k = (f u k).cluster k := by
  have hkeep (l : List Nat) (hl : k ∉ l) (s : State) : (l.foldl f s).cluster k = s.cluster k := by
    induction l generalizing s with
    | nil => rfl
    | cons j l ih => exact (ih (List.not_mem_of_not_mem_cons hl) _).trans (hother s j (List.ne_of_not_mem_cons hl).symm)
  obtain ⟨pre, post, rfl⟩ := List.append_of_mem hk
  obtain ⟨-, hpost, hdisjoint⟩ := List.nodup_append.mp hl
  have hpre : k ∉ pre := fun h => hdisjoint k h k List.mem_cons_self rfl
  refine ⟨pre.foldl f s, hkeep pre hpre s, ?_⟩
  rw [List.foldl_append, List.foldl_cons, hkeep post (List.nodup_cons.mp hpost).1]

/-! ### Windows of the meters (R229, R423) -/

/-- A change of every entry of a table that keeps the default is a change of what is read. -/
theorem tget_map {α : Type} (d : α) {f : α → α} (hd : f d = d) (t : Tbl α) (k : Nat) : tget d (t.map fun e => (e.1, f e.2)) k = f (tget d t k) := by
  induction t with
  | nil => exact hd.symm
  | cons e t ih =>
    simp only [List.map_cons, tget]
    split
    · rfl
    · exact ih

/-- A cluster takes its level and its ceiling for the window. -/
def windowCluster (c : Cluster) : Cluster := { c with mlevel := c.meter, ceil := c.ceiling }

/-- The counts of a port begin again. -/
def windowPort (x : Port) : Port := { x with window := 0 }

/-- The counts of every port of a core begin again. -/
def windowCore (x : Core) : Core := { x with ports := x.ports.map fun e => (e.1, windowPort e.2) }

/-- A new window before its clusters take their ceilings. -/
def windowBegun (s : State) : State :=
  { s with window := BitVec.ofNat 64 (s.pace.toNat / 1000), cores := s.cores.map fun e => (e.1, windowCore e.2) }

theorem newWindow_begins {s : State} (h : s.pace.toNat / 1000 ≠ s.window.toNat) :
    newWindow s = (List.range 40).foldl (fun t k => t.modCluster k windowCluster) (windowBegun s) := if_neg h

theorem foldl_modCluster_keeps {β : Type} (part : State → β) (hpart : ∀ s k f, part (State.modCluster s k f) = part s) (f : Cluster → Cluster)
    (l : List Nat) (s : State) : part (l.foldl (fun t k => t.modCluster k f) s) = part s :=
  foldl_keeps part (fun t k => hpart t k f) l s

theorem windowBegun_port (s : State) (c p : Nat) : (windowBegun s).port c p = windowPort (s.port c p) := by
  have hcore : (windowBegun s).core c = windowCore (s.core c) := tget_map Core.init rfl s.cores c
  rw [State.port, hcore, windowCore]
  exact tget_map Port.init rfl _ p

/-! ### Levels (R421, R422) -/

section
variable {s : State} {k : Nat}

theorem clusters_le_eq_false (hk : k < 40) : decide (Config.clusters ≤ k) = false := decide_eq_false (Nat.not_le.mpr hk)

/-- A request that is not refused is pending while the cluster ramps, nothing at its own level, and otherwise starts a ramp. -/
theorem levelRequest_accepted {r : BitVec 2} (hr : r ≠ 3) (htrip : (s.cluster k).tripped = true → r = 0) :
    levelRequest s k r = if (s.cluster k).ramping then s.modCluster k fun x => { x with pend := r, pvalid := true }
      else if r == (s.cluster k).level then s else startRamp s k r := by
  have hgo : (r == 3 || ((s.cluster k).tripped && r != 0)) = false := by
    rw [beq_false_of_ne hr, Bool.false_or]
    cases h : (s.cluster k).tripped with
    | false => rfl
    | true => rw [htrip h]; rfl
  simp only [levelRequest, hgo, Bool.false_eq_true, if_false]

/-- A request concerns its own cluster alone. -/
theorem levelRequest_other {j : Nat} (hj : j ≠ k) (r : BitVec 2) : (levelRequest s j r).cluster k = s.cluster k := by
  unfold levelRequest
  dsimp only
  split
  · rfl
  · split
    · exact State.cluster_modCluster_other s _ hj.symm
    · split
      · rfl
      · exact State.cluster_modCluster_other s _ hj.symm

theorem levelRequest_regs (r : BitVec 2) : (levelRequest s k r).regs = s.regs := by
  unfold levelRequest
  dsimp only
  split
  · rfl
  · split
    · rfl
    · split <;> rfl

theorem lvlreq_accepted (hk : k < 40) (hfw : s.regs.fwloss = false) (r : BitVec 2) : exec (.lvlreq k r) s = .next (levelRequest s k r) := by
  show execLvlreq k r s = _
  simp only [execLvlreq, clusters_le_eq_false hk, hfw, Bool.or_self, Bool.false_eq_true, if_false]

theorem lvlreq_refused {r : BitVec 2} (h : s.regs.fwloss = true ∨ r = 3) : exec (.lvlreq k r) s = .next s := by
  have hthree : levelRequest s k 3 = s := by rw [levelRequest, if_pos (by rfl)]
  show execLvlreq k r s = _
  rcases h with h | rfl
  · simp only [execLvlreq, h, Bool.or_true, if_true]
  · simp only [execLvlreq, hthree, ite_self]

/-- A ramp has come to its end. -/
def settledCluster (c : Cluster) : Cluster :=
  { c with ramping := false, level := c.target, meter := if c.level.toNat < c.target.toNat then c.target else c.meter, pvalid := false }

/-- A ramp without a pending request settles at its target. -/
theorem settleRamp_idle (hpend : (s.cluster k).pvalid = false) : settleRamp s k = s.modCluster k settledCluster := by
  rw [settleRamp, hpend]
  rfl

theorem levelRampSettle_settles (hramp : (s.cluster k).ramping = true) (hdue : 1800 ≤ (s.pace - (s.cluster k).rampStart).toNat) :
    exec (.levelRampSettle k) s = .next (settleRamp s k) := by
  show execLevelRampSettle k s = _
  simp only [execLevelRampSettle, hramp, Nat.not_lt.mpr hdue, Bool.not_true, Bool.false_or, decide_false, Bool.false_eq_true, if_false]

theorem levelRampSettle_stays (h : (s.cluster k).ramping = false ∨ (s.pace - (s.cluster k).rampStart).toNat < 1800) :
    exec (.levelRampSettle k) s = .next s := by
  have hstay : (!(s.cluster k).ramping || decide ((s.pace - (s.cluster k).rampStart).toNat < 1800)) = true := by
    rcases h with h | h
    · rw [h]; rfl
    · rw [decide_eq_true h, Bool.or_true]
  show execLevelRampSettle k s = _
  simp only [execLevelRampSettle, hstay, if_true]

/-! ### The passing of time (R422) -/

theorem settleRamp_other {j : Nat} (hj : j ≠ k) : (settleRamp s j).cluster k = s.cluster k := by
  have hother := State.cluster_modCluster_other s settledCluster hj.symm
  unfold settleRamp
  dsimp only
  split
  · exact (levelRequest_other hj _).trans hother
  · exact hother

theorem rampDue_other {j : Nat} (hj : j ≠ k) (now : BitVec 64) (fuel : Nat) : (rampDue s j now fuel).cluster k = s.cluster k := by
  induction fuel generalizing s with
  | zero => rfl
  | succ fuel ih =>
    unfold rampDue
    dsimp only
    split
    · exact ih.trans (settleRamp_other (s := { s with pace := (s.cluster j).rampStart + 2048 }) hj)
    · rfl

/-- A cluster at rest stays as it is. -/
theorem rampDue_rest (hrest : (s.cluster k).ramping = false) (now : BitVec 64) (fuel : Nat) : rampDue s k now fuel = s := by
  cases fuel with
  | zero => rfl
  | succ fuel =>
    have hnot : ((s.cluster k).ramping && Nat.ble 2048 (now - (s.cluster k).rampStart).toNat) = false := by rw [hrest]; rfl
    simp only [rampDue, hnot, Bool.false_eq_true, if_false]

/-- The time at which a ramp without a pending request settles is no part of the cluster that it leaves. -/
theorem settleRamp_paced (hpend : (s.cluster k).pvalid = false) (at_ now : BitVec 64) :
    ({ settleRamp { s with pace := at_ } k with pace := now } : State).cluster k = settledCluster (s.cluster k) := by
  rw [settleRamp_idle (s := { s with pace := at_ }) hpend]
  exact State.cluster_modCluster_self _ _ _

/-- A ramp that began 2,048 ticks ago has settled at its target. -/
theorem rampDue_settles {now : BitVec 64} (hramp : (s.cluster k).ramping = true) (hpend : (s.cluster k).pvalid = false)
    (hdue : 2048 ≤ (now - (s.cluster k).rampStart).toNat) (fuel : Nat) : (rampDue s k now (fuel + 1)).cluster k = settledCluster (s.cluster k) := by
  have hgo : ((s.cluster k).ramping && Nat.ble 2048 (now - (s.cluster k).rampStart).toNat) = true := by
    rw [hramp, Bool.true_and]
    exact Nat.ble_eq.mpr hdue
  rw [rampDue, if_pos hgo, rampDue_rest (by rw [settleRamp_paced hpend]; rfl), settleRamp_paced hpend]

/-- Over a list of clusters that names it, a cluster whose ramp is due settles once. -/
theorem foldl_rampDue {now : BitVec 64} {c : Cluster} (hramp : c.ramping = true) (hpend : c.pvalid = false) (hdue : 2048 ≤ (now - c.rampStart).toNat)
    (l : List Nat) (s : State) (h : (k ∈ l ∧ s.cluster k = c) ∨ s.cluster k = settledCluster c) :
    (l.foldl (fun t j => rampDue t j now 2) s).cluster k = settledCluster c := by
  induction l generalizing s with
  | nil => exact h.resolve_left fun ⟨hk, _⟩ => List.not_mem_nil hk
  | cons j l ih =>
    refine ih _ ?_
    show (k ∈ l ∧ (rampDue s j now 2).cluster k = c) ∨ (rampDue s j now 2).cluster k = settledCluster c
    by_cases hj : j = k
    · subst hj
      refine Or.inr ?_
      rcases h with ⟨-, hc⟩ | hc
      · rw [rampDue_settles (by rw [hc]; exact hramp) (by rw [hc]; exact hpend) (by rw [hc]; exact hdue), hc]
      · rw [rampDue_rest (by rw [hc]; rfl), hc]
    · rw [rampDue_other hj]
      exact h.imp (fun ⟨hk, hc⟩ => ⟨(List.mem_cons.mp hk).resolve_left (Ne.symm hj), hc⟩) id

/-- A key that reads otherwise than the default is listed. -/
theorem mem_keys_of_tget_ne {α : Type} {d : α} {t : Tbl α} {k : Nat} (h : tget d t k ≠ d) : k ∈ t.map (·.1) := by
  induction t with
  | nil => exact absurd rfl h
  | cons e t ih =>
    by_cases he : e.1 = k
    · exact List.mem_cons.mpr (Or.inl he.symm)
    · exact List.mem_cons_of_mem _ (ih (by rwa [tget, if_neg he] at h))

theorem passTime_settles {n : Nat} (hramp : (s.cluster k).ramping = true) (hpend : (s.cluster k).pvalid = false)
    (hdue : 2048 ≤ (s.pace + BitVec.ofNat 64 n - (s.cluster k).rampStart).toNat) : (passTime s n).cluster k = settledCluster (s.cluster k) := by
  have hlisted : k ∈ s.clusters.map (·.1) := mem_keys_of_tget_ne fun h => by
    rw [State.cluster, h] at hramp
    cases hramp
  exact foldl_rampDue hramp hpend hdue _ s (Or.inl ⟨hlisted, rfl⟩)

/-! ### The ramp table, converters and sensors (R424, R427) -/

theorem ramptabWrite_writes (hk : k < 40) {v : Word} (hlock : (s.cluster k).lock = false) (hlegal : rampLegal v = true) :
    exec (.ramptabWrite k v) s = .next (s.modCluster k fun x => { x with ramptab := v }) := by
  show execRamptabWrite k v s = _
  simp only [execRamptabWrite, clusters_le_eq_false hk, hlock, hlegal, Bool.not_true, Bool.or_self, Bool.false_eq_true, if_false]

theorem ramptabWrite_refused {v : Word} (h : (s.cluster k).lock = true ∨ rampLegal v = false) : exec (.ramptabWrite k v) s = .next s := by
  have hstay : (decide (Config.clusters ≤ k) || (s.cluster k).lock || !rampLegal v) = true := by
    rcases h with h | h
    · rw [h, Bool.or_true, Bool.true_or]
    · rw [h, Bool.not_false, Bool.or_true]
  show execRamptabWrite k v s = _
  simp only [execRamptabWrite, hstay, if_true]

theorem lock_locks (hk : k < 40) : exec (.lock k) s = .next (s.modCluster k fun x => { x with lock := true }) := by
  show execLock k s = _
  rw [execLock, if_neg (Nat.not_le.mpr hk)]

theorem converterCurrentLimit_counts (hk : k < 40) : exec (.converterCurrentLimit k) s =
    .next (s.modCluster k fun x => { x with occnt := if x.occnt = 0xFFFFFFFF then x.occnt else x.occnt + 1 }) := by
  show execConverterCurrentLimit k s = _
  rw [execConverterCurrentLimit, if_neg (Nat.not_le.mpr hk)]
  simp only [beq_iff_eq]

theorem thermalTrip_trips (hk : k < 40) {temp : BitVec 16} (hlo : 105 ≤ temp.toNat) (hhi : temp.toNat < 125) (htrip : (s.cluster k).tripped = false) :
    exec (.thermalTrip k temp) s = .next (logRecord (levelRequest (s.modCluster k fun x => { x with tripped := true }) k 0) 7 (k / 10) k
      (natLe 2 temp.toNat ++ [0])) := by
  show execThermalTrip k temp s = _
  simp only [execThermalTrip, clusters_le_eq_false hk, Nat.not_lt.mpr hlo, Nat.not_le.mpr hhi, htrip, decide_false, Bool.or_self, Bool.false_eq_true,
    if_false]
  rfl

theorem thermalTrip_cool {temp : BitVec 16} (h : temp.toNat < 105) : exec (.thermalTrip k temp) s = .next s := by
  show execThermalTrip k temp s = _
  simp only [execThermalTrip, h, decide_true, Bool.or_true, if_true]

/-! ### The loss of firmware (R428) -/

/-- What the loss of firmware does to a cluster: one at HI, or on its way there, requests MID; another drops its pending request. -/
def lossStep (t : State) (k : Nat) : State :=
  if (t.cluster k).level == 2 || ((t.cluster k).ramping && (t.cluster k).target == 2) then levelRequest t k 1
  else t.modCluster k fun c => { c with pvalid := false, pend := 0 }

theorem lossStep_other (t : State) (j : Nat) (hj : j ≠ k) : (lossStep t j).cluster k = t.cluster k := by
  unfold lossStep
  split
  · exact levelRequest_other hj 1
  · exact State.cluster_modCluster_other t _ hj.symm

theorem lossStep_regs (t : State) (j : Nat) : (lossStep t j).regs = t.regs := by
  unfold lossStep
  split
  · exact levelRequest_regs 1
  · rfl

/-- The package once the firmware is lost. -/
def lossState (s : State) : State := (List.range 40).foldl lossStep { s with regs := { s.regs with fwloss := true } }

theorem fwloss_begins {update : Bool} (hfw : s.regs.fwloss = false) (hlost : update = true ∨ 10000000 ≤ (s.pace - s.regs.lastBeat).toNat) :
    exec (.fwloss update) s = .next (lossState s) := by
  have hgo : (s.regs.fwloss || !(update || decide (10000000 ≤ (s.pace - s.regs.lastBeat).toNat))) = false := by
    rw [hfw, Bool.false_or, Bool.not_eq_false']
    exact hlost.elim (fun h => by rw [h]; rfl) fun h => by rw [decide_eq_true h, Bool.or_true]
  show execFwloss update s = _
  simp only [execFwloss, hgo, Bool.false_eq_true, if_false]
  rfl

theorem fwloss_stays {update : Bool} (h : s.regs.fwloss = true ∨ update = false ∧ (s.pace - s.regs.lastBeat).toNat < 10000000) :
    exec (.fwloss update) s = .next s := by
  have hstay : (s.regs.fwloss || !(update || decide (10000000 ≤ (s.pace - s.regs.lastBeat).toNat))) = true := by
    rcases h with h | ⟨hupdate, hbeat⟩
    · rw [h, Bool.true_or]
    · rw [hupdate, decide_eq_false (Nat.not_le.mpr hbeat)]
      exact Bool.or_true _
  show execFwloss update s = _
  simp only [execFwloss, hstay, if_true]

/-- A cluster goes through its own step of the loss. -/
theorem lossState_cluster (hk : k < 40) : ∃ u : State, u.cluster k = s.cluster k ∧ (lossState s).cluster k = (lossStep u k).cluster k := by
  unfold lossState
  exact foldl_cluster lossStep_other (List.mem_range.mpr hk) List.nodup_range { s with regs := { s.regs with fwloss := true } }

theorem lossStep_low (hlevel : (s.cluster k).level ≠ 2) (hramp : (s.cluster k).ramping = false ∨ (s.cluster k).target ≠ 2) :
    (lossStep s k).cluster k = { s.cluster k with pvalid := false, pend := 0 } := by
  have hlow : ((s.cluster k).level == 2 || ((s.cluster k).ramping && (s.cluster k).target == 2)) = false := by
    rw [beq_false_of_ne hlevel, Bool.false_or]
    rcases hramp with h | h
    · rw [h, Bool.false_and]
    · rw [beq_false_of_ne h, Bool.and_false]
  rw [lossStep, hlow, if_neg Bool.false_ne_true, State.cluster_modCluster_self]

theorem lossStep_rising (htrip : (s.cluster k).tripped = false) (hramp : (s.cluster k).ramping = true) (htarget : (s.cluster k).target = 2) :
    (lossStep s k).cluster k = { s.cluster k with pend := 1, pvalid := true } := by
  have hhigh : ((s.cluster k).level == 2 || ((s.cluster k).ramping && (s.cluster k).target == 2)) = true := by
    rw [hramp, htarget]
    exact Bool.or_true _
  rw [lossStep, hhigh, if_pos rfl, levelRequest_accepted (by decide) (fun h => by rw [htrip] at h; cases h), if_pos hramp,
    State.cluster_modCluster_self]

theorem lossStep_high (htrip : (s.cluster k).tripped = false) (hramp : (s.cluster k).ramping = false) (hlevel : (s.cluster k).level = 2) :
    ((lossStep s k).cluster k).ramping = true ∧ ((lossStep s k).cluster k).target = 1 := by
  have hhigh : ((s.cluster k).level == 2 || ((s.cluster k).ramping && (s.cluster k).target == 2)) = true := by rw [hlevel]; rfl
  have hother : ((1 : BitVec 2) == (s.cluster k).level) = false := by rw [hlevel]; rfl
  rw [lossStep, hhigh, if_pos rfl, levelRequest_accepted (by decide) (fun h => by rw [htrip] at h; cases h), hramp, if_neg Bool.false_ne_true,
    hother, if_neg Bool.false_ne_true, startRamp, State.cluster_modCluster_self]
  exact ⟨rfl, rfl⟩

/-! ### The slew limiter (R425) -/

/-- A ready command is the candidate of its core. -/
theorem mCandidate_of_mem_readyStarts {x : Nat × (Nat × Nat)} (hx : x ∈ readyStarts s k) : mCandidate s x.1 = some x.2 := by
  have hall : x ∈ (clusterCores k).filterMap fun c => (mCandidate s c).map fun e => (c, e) := by
    rcases List.mem_append.mp hx with h | h
    · exact List.contains_iff_mem.mp (List.mem_filter.mp h).2
    · exact (List.mem_filter.mp h).1
  obtain ⟨c, -, hc⟩ := List.mem_filterMap.mp hall
  obtain ⟨e, he, rfl⟩ := Option.map_eq_some_iff.mp hc
  exact he

/-- Grant a command to the operator of its core. -/
def grantTo (t : State) (x : Nat × (Nat × Nat)) : State := t.modMat x.1 fun m => { m with grant := some x.2 }

/-- Where each core has one candidate, a core that is granted anything ends with its candidate. -/
theorem foldl_grantTo {cand : Nat → Option (Nat × Nat)} {n : Nat} {l : List (Nat × (Nat × Nat))} (hl : ∀ x ∈ l, cand x.1 = some x.2) (s : State)
    (h : n ∈ l.map Prod.fst ∨ (s.core n).mat.grant = cand n) : ((l.foldl grantTo s).core n).mat.grant = cand n := by
  induction l generalizing s with
  | nil => exact h.resolve_left List.not_mem_nil
  | cons x l ih =>
    refine ih (fun y hy => hl y (List.mem_cons_of_mem x hy)) _ ?_
    by_cases hn : n = x.1
    · subst hn
      refine Or.inr ?_
      rw [grantTo, State.modMat, State.core_modCore_self, hl x List.mem_cons_self]
    · rw [grantTo, State.modMat, State.core_modCore_other _ _ hn]
      exact h.imp_left fun hmem => (List.mem_cons.mp hmem).resolve_left hn

theorem foldl_grantTo_other {n : Nat} {l : List (Nat × (Nat × Nat))} (hn : n ∉ l.map Prod.fst) (s : State) :
    (l.foldl grantTo s).core n = s.core n := by
  induction l generalizing s with
  | nil => rfl
  | cons x l ih =>
    refine (ih (List.not_mem_of_not_mem_cons hn) _).trans ?_
    rw [grantTo, State.modMat, State.core_modCore_other _ _ (List.ne_of_not_mem_cons hn)]

/-- The operators of a cluster that run. -/
def busyOperators (s : State) (k : Nat) : Nat := ((clusterCores k).filter fun x => operatorBusy s x).length

/-- The commands that a step of the limiter grants. -/
def slewGrants (s : State) (k : Nat) : Nat :=
  min (readyStarts s k).length (min (rampUp (s.cluster k).ramptab (s.cluster k).a) (rampEntry (s.cluster k).ramptab 7) - busyOperators s k)

/-- The fillers that a step starts, so that activity falls no faster than the table allows. -/
def slewFillers (s : State) (k : Nat) : Nat :=
  rampDown (s.cluster k).ramptab (s.cluster k).a - (busyOperators s k + slewGrants s k)

/-- The operators once a step has granted. -/
def slewGranted (s : State) (k : Nat) : State := ((readyStarts s k).take (slewGrants s k)).foldl grantTo s

/-- A cluster once a step of the limiter has run. -/
def slewedCluster (s : State) (k : Nat) (c : Cluster) : Cluster :=
  { c with a := busyOperators s k + slewGrants s k + slewFillers s k, slewAt := s.pace + 1, seen := (readyStarts s k).drop (slewGrants s k),
           fillers := ((clusterCores k).filter fun x => !operatorBusy (slewGranted s k) x).take (slewFillers s k) }

theorem slewLimiterStep_steps (hk : k < 40) (hpace : s.pace.toNat % 4 = 0) (hslew : (s.cluster k).slewAt ≠ s.pace + 1) :
    exec (.slewLimiterStep k) s = .next (((slewGranted s k).modCluster k (slewedCluster s k)).count (k / 10) 3 (slewFillers s k)) := by
  have hgo : (decide (Config.clusters ≤ k) || decide (s.pace.toNat % 4 ≠ 0) || (s.cluster k).slewAt == s.pace + 1) = false := by
    rw [clusters_le_eq_false hk, beq_false_of_ne hslew, hpace]
    rfl
  show execSlewLimiterStep k s = _
  simp only [execSlewLimiterStep, hgo, Bool.false_eq_true, if_false]
  rfl

end

/-- Settles O56: each event by the branch that the clause's hypotheses leave open; what a step does over every cluster is, for one of them, its own
step. -/
theorem powerLevelsAndRamps : Obligations.PowerLevelsAndRamps := by
  unfold Obligations.PowerLevelsAndRamps
  refine ⟨?window, ?cluster⟩
  case window =>
    intro s hpast
    refine ⟨_, rfl, ?_, fun c p => ?_, fun k hk => ?_, ?_, ?_⟩ <;> rw [newWindow_begins hpast]
    · exact foldl_modCluster_keeps State.window (fun _ _ _ => rfl) _ _ _
    · rw [State.port, State.core, foldl_modCluster_keeps State.cores (fun _ _ _ => rfl)]
      exact windowBegun_port s c p
    · obtain ⟨u, hu, hcluster⟩ := foldl_cluster (f := fun t k => t.modCluster k windowCluster)
        (fun t j hj => State.cluster_modCluster_other t windowCluster (Ne.symm hj)) (List.mem_range.mpr hk) List.nodup_range (windowBegun s)
      rw [hcluster, State.cluster_modCluster_self, hu]
      exact ⟨rfl, rfl⟩
    · exact foldl_modCluster_keeps State.mem (fun _ _ _ => rfl) _ _ _
    · exact foldl_modCluster_keeps State.hostMem (fun _ _ _ => rfl) _ _ _
  case cluster =>
    intro s k hk c
    refine ⟨?request, fun r h => lvlreq_refused h, ?settle, levelRampSettle_stays, ?time,
      fun v hlock hlegal => ramptabWrite_writes hk hlock hlegal, fun v h => ramptabWrite_refused h, lock_locks hk, converterCurrentLimit_counts hk,
      ?clear, fun temp hlo hhi htrip => thermalTrip_trips hk hlo hhi htrip, fun temp h => thermalTrip_cool h, rfl, ?loss,
      fun update h => fwloss_stays h, ?slew⟩
    case request =>
      intro r hfw hr htrip
      have hexec := lvlreq_accepted hk hfw r
      rw [levelRequest_accepted hr htrip] at hexec
      refine ⟨fun hramp => ?_, fun hramp hlevel => ?_, fun hramp hlevel => ?_⟩ <;> rw [hexec]
      · rw [if_pos hramp]
      · rw [if_neg fun h => Bool.false_ne_true (hramp.symm.trans h), if_pos (beq_iff_eq.mpr hlevel)]
      · rw [if_neg fun h => Bool.false_ne_true (hramp.symm.trans h), if_neg fun h => hlevel (beq_iff_eq.mp h)]
        rfl
    case settle =>
      intro hramp hdue hpend
      rw [levelRampSettle_settles hramp hdue, settleRamp_idle hpend]
      rfl
    case time =>
      intro n hramp hpend hdue
      rw [passTime_settles hramp hpend hdue]
      exact ⟨rfl, rfl⟩
    case clear =>
      intro htrip
      show execThermalTripClear k s = _
      rw [execThermalTripClear, if_pos htrip]
    case loss =>
      intro update hfw hlost
      obtain ⟨u, hu, hcluster⟩ := lossState_cluster (s := s) hk
      refine ⟨_, fwloss_begins hfw hlost, ?_, fun hlevel hramp => ?_, fun htrip hramp htarget => ?_, fun htrip hramp hlevel => ?_⟩
      · rw [lossState, foldl_keeps State.regs lossStep_regs]
      · rw [hcluster, lossStep_low (by rw [hu]; exact hlevel) (by rw [hu]; exact hramp), hu]
        exact ⟨rfl, rfl⟩
      · rw [hcluster, lossStep_rising (by rw [hu]; exact htrip) (by rw [hu]; exact hramp) (by rw [hu]; exact htarget)]
        exact ⟨rfl, rfl⟩
      · rw [hcluster]
        exact lossStep_high (by rw [hu]; exact htrip) (by rw [hu]; exact hramp) (by rw [hu]; exact hlevel)
    case slew =>
      intro hpace hslew r g
      have hcand : ∀ y ∈ (readyStarts s k).take g, mCandidate s y.1 = some y.2 := fun y hy => mCandidate_of_mem_readyStarts (List.mem_of_mem_take hy)
      have hactive : ((((slewGranted s k).modCluster k (slewedCluster s k)).count (k / 10) 3 (slewFillers s k)).cluster k).a =
          r + g + (rampDown c.ramptab c.a - (r + g)) := by
        rw [State.cluster, State.count_clusters]
        exact congrArg Cluster.a (State.cluster_modCluster_self ..)
      refine ⟨_, slewLimiterStep_steps hk hpace hslew, hactive, by omega, fun x hx => ?_, fun n hn => ?_⟩ <;> rw [State.core, State.count_cores]
      · exact (foldl_grantTo hcand s (Or.inl (List.mem_map_of_mem hx))).trans (hcand x hx)
      · exact congrArg Core.mat (foldl_grantTo_other hn s)

end Sys2Proof.Machine
end

section
/-!
PROOFS. Acknowledgement and retransmission at the source of a stream (R262, R263, R264): O50.
-/

namespace Sys2Proof.Machine

/-- What a change of a die does depends on the die alone. -/
theorem State.modDie_congr {s : State} {d : Nat} {f g : Die → Die} (h : f (s.die d) = g (s.die d)) : s.modDie d f = s.modDie d g :=
  congrArg (fun x => { s with dies := tset Die.init s.dies d x }) h

/-! ### ACK and NACK (R262, R263) -/

/-- The wait that a NACK sets: 256 ticks, or twice the last wait for the same SEQ up to 4,096 (R262). -/
def backoffWait (old seq : Nat) : Nat := if old / 8192 == seq + 1 then min 4096 (2 * (old % 8192)) else 256

theorem backoffWait_fresh {old seq : Nat} (h : old / 8192 ≠ seq + 1) : backoffWait old seq = 256 := if_neg fun heq => h (beq_iff_eq.mp heq)

theorem backoffWait_again {old seq : Nat} (h : old / 8192 = seq + 1) : backoffWait old seq = min 4096 (2 * (old % 8192)) := if_pos (beq_iff_eq.mpr h)

section
variable {s : State} {die idx : Nat} {p : Packet} (harrived : (s.die die).arrived[idx]? = some p) (hsrc : (s.die p.src).removed = false)
  (hdie : (s.die die).removed = false) (hgen : p.gen = (s.die die).gen)
include harrived hsrc hdie hgen

/-- An ACK takes the packets up to its number of its stream out of the retry store, and lets waiting packets be stamped. -/
theorem ack_clears (htype : p.ptype = pACK) : exec (.ack die idx) s =
    .next (stampReady ((s.modDie die fun x => { x with arrived := x.arrived.eraseIdx idx }).modDie die fun x =>
      { x with retry := x.retry.filter fun y => !(y.stream y.dst == namedStream p && upTo y (namedSeq p)),
               ackTime := tset 0 x.ackTime (namedStream p) s.pace.toNat })) := by
  have hack : (p.ptype != pACK) = false := by rw [htype]; rfl
  show execAck die idx s = _
  simp only [execAck, harrived, hack, Bool.false_eq_true, if_false, takeArrived_takes hsrc hdie hgen]

/-- A NACK notes its time and its wait. -/
theorem nack_backs_off (htype : p.ptype = pNACK) : exec (.nack die idx) s =
    .next ((s.modDie die fun x => { x with arrived := x.arrived.eraseIdx idx }).modDie die fun x =>
      { x with nackWait := tset 0 x.nackWait (namedStream p)
                 (8192 * (namedSeq p + 1) + backoffWait (tget 0 (s.die die).nackWait (namedStream p)) (namedSeq p)),
               nackTime := tset 0 x.nackTime (namedStream p) (s.pace.toNat + 1) }) := by
  have hnack : (p.ptype != pNACK) = false := by rw [htype]; rfl
  show execNack die idx s = _
  simp only [execNack, harrived, hnack, Bool.false_eq_true, if_false, takeArrived_takes hsrc hdie hgen]
  refine congrArg Host.Outcome.next (State.modDie_congr ?_)
  rw [State.die_modDie_self]
  rfl

end

/-! ### The timers (R262, R263) -/

section
variable {s : State} {die st : Nat}

theorem ackTimer_sends (hset : tget 0 (s.die die).lastAck st ≠ 0) (hdue : tget 0 (s.die die).lastAck st - 1 + 200 ≤ s.pace.toNat) :
    exec (.ackTimer die st) s = .next (sendAck s die st) :=
  congrArg Host.Outcome.next (if_neg fun h => h.elim hset (Nat.not_lt.mpr hdue))

theorem ackTimer_waits (h : tget 0 (s.die die).lastAck st = 0 ∨ s.pace.toNat < tget 0 (s.die die).lastAck st - 1 + 200) :
    exec (.ackTimer die st) s = .next s :=
  congrArg Host.Outcome.next (if_pos h)

theorem nackBackoffExpiry_resends (hset : tget 0 (s.die die).nackTime st ≠ 0)
    (hdue : tget 0 (s.die die).nackTime st - 1 + tget 0 (s.die die).nackWait st % 8192 ≤ s.pace.toNat) :
    exec (.nackBackoffExpiry die st) s = .next (resend (s.modDie die fun x => { x with nackTime := tset 0 x.nackTime st 0 }) die st fun x =>
      x.seq.toNat == tget 0 (s.die die).nackWait st / 8192 - 1 || !upTo x (tget 0 (s.die die).nackWait st / 8192 - 1)) :=
  congrArg Host.Outcome.next (if_neg fun h => h.elim hset (Nat.not_lt.mpr hdue))

theorem nackBackoffExpiry_waits (h : tget 0 (s.die die).nackTime st = 0 ∨
    s.pace.toNat < tget 0 (s.die die).nackTime st - 1 + tget 0 (s.die die).nackWait st % 8192) : exec (.nackBackoffExpiry die st) s = .next s :=
  congrArg Host.Outcome.next (if_pos h)

theorem retransmitTimeout_resends (hkept : ∃ x ∈ (s.die die).retry, x.stream x.dst = st)
    (hdue : tget 0 (s.die die).ackTime st + 20000 ≤ s.pace.toNat) : exec (.retransmitTimeout die st) s =
      .next (resend (s.modDie die fun x => { x with ackTime := tset 0 x.ackTime st s.pace.toNat }) die st fun _ => true) := by
  have hany : ((s.die die).retry.any fun x => x.stream x.dst == st) = true := by simpa using hkept
  show execRetransmitTimeout die st s = _
  simp only [execRetransmitTimeout, hany, Nat.not_lt.mpr hdue, Bool.not_true, decide_false, Bool.or_self, Bool.false_eq_true, if_false]

theorem retransmitTimeout_waits (h : (∀ x ∈ (s.die die).retry, x.stream x.dst ≠ st) ∨ s.pace.toNat < tget 0 (s.die die).ackTime st + 20000) :
    exec (.retransmitTimeout die st) s = .next s := by
  refine congrArg Host.Outcome.next (if_pos ?_)
  simpa using h

end

/-- Settles O50: an ACK or NACK of the die's own generation is taken in, and each timer compares its time with the pace. -/
theorem packetsAcknowledged : Obligations.PacketsAcknowledged := by
  intro s die st d
  refine ⟨?packets, ⟨ackTimer_sends, ackTimer_waits⟩, ⟨nackBackoffExpiry_resends, nackBackoffExpiry_waits⟩, retransmitTimeout_resends,
    retransmitTimeout_waits⟩
  case packets =>
    intro idx p harrived hsrc hdie hgen t
    exact ⟨ack_clears harrived hsrc hdie hgen, fun htype =>
      ⟨_, nack_backs_off harrived hsrc hdie hgen htype, backoffWait_fresh, backoffWait_again⟩⟩

end Sys2Proof.Machine
end

section
/-!
PROOFS. Flits on the links (R265 to R269): the slot of a port by the interruption rule, the arrival of a flit, and the ways in which a link dies: O51.
-/

namespace Sys2Proof.Machine

theorem State.link_modLink_other (s : State) {p q : Nat} (f : LinkPort → LinkPort) (h : q ≠ p) : (s.modLink p f).link q = s.link q :=
  tget_tmod_other _ _ _ h

/-- What a change of a port does depends on the port alone. -/
theorem State.modLink_congr {s : State} {p : Nat} {f g : LinkPort → LinkPort} (h : f (s.link p) = g (s.link p)) : s.modLink p f = s.modLink p g :=
  congrArg (fun x => { s with links := tset LinkPort.init s.links p x }) h

theorem otherWay_ne (port : Nat) : otherWay port ≠ port := by
  unfold otherWay
  split <;> omega

/-! ### The slot of a flit boundary (R267, R269) -/

/-- The freight rules: the open freight packet goes on, or a new one starts. -/
def freightSlot (l : LinkPort) (now : BitVec 64) : LinkPort :=
  match l.openF with
  | some (p, n) => sendFreight l now p n
  | none =>
    match (pickChannel l [0, 1, 4] l.rrF).bind fun v => (openPacket l v).map fun x => (v, x) with
    | some (v, m, p) => sendFreight { m with rrF := v, openFVc := v } now p 0
    | none => emptySlot l

/-- Whether freight waits at a port. -/
def freightPending (l : LinkPort) : Bool := l.openF.isSome || (pickChannel l [0, 1, 4] l.rrF).isSome

section
variable {l m : LinkPort} {now : BitVec 64} {p : Packet} {n v : Nat}

theorem freightSlot_open (hopen : l.openF = some (p, n)) : freightSlot l now = sendFreight l now p n := by
  rw [freightSlot, hopen]

theorem freightSlot_starts (hopen : l.openF = none) (hpick : pickChannel l [0, 1, 4] l.rrF = some v) (hpacket : openPacket l v = some (m, p)) :
    freightSlot l now = sendFreight { m with rrF := v, openFVc := v } now p 0 := by
  simp only [freightSlot, hopen, hpick, hpacket, Option.bind_some, Option.map_some]

/-- A port that owes an acknowledgement sends it. -/
theorem flitSlot_owed {owed : Nat} (howed : owed ≠ 0) : flitSlot l now owed =
    { l with wire := l.wire ++ [{ vc := 7, ack := owed, last := true, head := true, pkt := Packet.init }] } :=
  if_pos howed

/-- A full replay buffer sends nothing. -/
theorem flitSlot_full (hfull : 512 ≤ l.sent.length) : flitSlot l now 0 = emptySlot l := by
  rw [flitSlot, if_neg (not_not.mpr rfl), if_pos hfull]

/-- The rules for packets, while the replay buffer has room. -/
theorem flitSlot_packet (hroom : l.sent.length < 512) : flitSlot l now 0 =
    match l.openX with
    | some (p, n) => sendExpress l now p n
    | none =>
      if freightPending l && l.hist.all fun b => !b then freightSlot l now
      else
        match (pickChannel l [2, 3, 5] l.rrX).bind fun v => (openPacket l v).map fun x => (v, x) with
        | some (v, m, p) => sendExpress { m with rrX := v, openXVc := v } now p 0
        | none => freightSlot l now := by
  rw [flitSlot, if_neg (not_not.mpr rfl), if_neg (Nat.not_le.mpr hroom), freightPending, freightSlot]
  cases l.openF <;> rfl

section
variable (hroom : l.sent.length < 512)
include hroom

theorem flitSlot_express_open (hopen : l.openX = some (p, n)) : flitSlot l now 0 = sendExpress l now p n := by
  rw [flitSlot_packet hroom, hopen]

variable (hopen : l.openX = none)
include hopen

/-- Freight has the slot when none of the last seven carried any, and when no express packet can start. -/
theorem flitSlot_freight (h : (freightPending l = true ∧ ∀ b ∈ l.hist, b = false) ∨ pickChannel l [2, 3, 5] l.rrX = none) :
    flitSlot l now 0 = freightSlot l now := by
  rw [flitSlot_packet hroom, hopen]
  rcases h with ⟨hpend, hhist⟩ | hpick
  · refine if_pos ?_
    rw [hpend, Bool.true_and, List.all_eq_true]
    exact fun b hb => by rw [hhist b hb]; rfl
  · dsimp only
    rw [hpick]
    exact ite_self _

/-- A new express packet starts unless freight is overdue. -/
theorem flitSlot_express_starts (h : freightPending l = false ∨ true ∈ l.hist) (hpick : pickChannel l [2, 3, 5] l.rrX = some v)
    (hpacket : openPacket l v = some (m, p)) : flitSlot l now 0 = sendExpress { m with rrX := v, openXVc := v } now p 0 := by
  have hturn : (freightPending l && l.hist.all fun b => !b) = false := by
    rcases h with h | h
    · rw [h, Bool.false_and]
    · rw [Bool.and_eq_false_iff, List.all_eq_false]
      exact Or.inr ⟨true, h, Bool.false_ne_true⟩
  rw [flitSlot_packet hroom, hopen, hturn]
  simp only [hpick, hpacket, Option.bind_some, Option.map_some, Bool.false_eq_true, if_false]

end
end

/-- What a counter leaves alone, as far as a slot is about it. -/
def besideCounters (s : State) : Tbl LinkPort × Tbl Core × Mem × List Access := (s.links, s.cores, s.mem, s.accs)

theorem count_besideCounters (s : State) (die i n : Nat) : besideCounters (s.count die i n) = besideCounters s := by
  simp [besideCounters]

/-- A port takes its slot, and the acknowledgement that its link owed is sent. -/
def slotTaken (s : State) (port : Nat) : State :=
  (s.modLink port fun l => flitSlot l s.pace (s.link (otherWay port)).got).modLink (otherWay port) fun x => { x with got := 0 }

/-- A working port whose die is out of reset takes its slot; beside it only counters move. -/
theorem flitBoundary_slot {s : State} {port : Nat} (hport : port < 16) (hdead : (s.link port).dead = false)
    (htrain : (s.link port).retraining = false) (hlive : (s.die (portFrom port)).live = true) :
    ∃ t, exec (.flitBoundary port) s = .next t ∧ besideCounters t = besideCounters (slotTaken s port) := by
  refine ⟨_, congrArg Host.Outcome.next (if_neg ?_), ?_⟩
  · simp [hport, hdead, htrain, hlive]
  · simp only [apply_ite besideCounters, count_besideCounters, ite_self]
    rfl

theorem slotTaken_link (s : State) (port : Nat) :
    (slotTaken s port).link port = flitSlot (s.link port) s.pace (s.link (otherWay port)).got ∧
    (slotTaken s port).link (otherWay port) = { s.link (otherWay port) with got := 0 } ∧
    ∀ q, q ≠ port → q ≠ otherWay port → (slotTaken s port).link q = s.link q := by
  have hway := otherWay_ne port
  refine ⟨?_, ?_, fun q hq hq' => ?_⟩
  · rw [slotTaken, State.link_modLink_other _ _ hway.symm, State.link_modLink_self]
  · rw [slotTaken, State.link_modLink_self, State.link_modLink_other _ _ hway]
  · rw [slotTaken, State.link_modLink_other _ _ hq', State.link_modLink_other _ _ hq]

theorem flitBoundary_reset {s : State} {port : Nat} (hlive : (s.die (portFrom port)).live = false) : exec (.flitBoundary port) s = .next s := by
  show execFlitBoundary port s = _
  simp only [execFlitBoundary, hlive, Bool.not_false, Bool.or_true, if_true]

/-! ### The arrival of a flit (R268, R269) -/

section
variable {s : State} {port : Nat} {f : Flit} {r : List Flit} (hwire : (s.link port).wire = f :: r) (hdead : (s.link port).dead = false)
  (htrain : (s.link port).retraining = false)
include hwire hdead htrain

theorem flitArrival_reset (hlive : (s.die (portTo port)).live = false) (corrupt : Bool) :
    exec (.flitArrival port corrupt) s = .next (s.modLink port fun l => { l with wire := r }) := by
  show execFlitArrival port corrupt s = _
  simp only [execFlitArrival, hwire, hdead, htrain, hlive, Bool.or_self, Bool.not_false, Bool.false_eq_true, if_false, if_true]

variable (hlive : (s.die (portTo port)).live = true)
include hlive

/-- A flit with an error is replayed, and the eighth replay that fails kills the link. -/
theorem flitArrival_corrupt : exec (.flitArrival port true) s = .next (
    if 8 ≤ (s.link port).replays then connect (killLink s (port / 2) 0 (portTo port))
    else s.modLink port fun l => { l with replays := l.replays + 1 }) := by
  show execFlitArrival port true s = _
  simp only [execFlitArrival, hwire, hdead, htrain, hlive, Bool.or_self, Bool.not_true, Bool.false_eq_true, if_false, if_true]

/-- A good flit leaves the wire: a link-management flit acknowledges, any other joins its slot. -/
theorem flitArrival_good : exec (.flitArrival port false) s = .next (
    if f.vc = 7 then (s.modLink port fun l => { l with wire := r, replays := 0 }).modLink (otherWay port) fun x => flitsAcked x s.pace f.ack
    else connect (flitIn (s.modLink port fun l => { l with wire := r, replays := 0 }) port f)) := by
  show execFlitArrival port false s = _
  simp only [execFlitArrival, hwire, hdead, htrain, hlive, Bool.or_self, Bool.not_true, Bool.false_eq_true, if_false]

end

/-- A port after a flit that has joined its slot. -/
def joinedSlot (f : Flit) (l : LinkPort) : LinkPort := { l with got := l.got + 1, reasm := tset [] l.reasm f.vc (tget [] l.reasm f.vc ++ [f]) }

/-- A port after the last flit of a packet: the slot is free, and the credits of the packet are back (log 65). -/
def freedSlot (f : Flit) (l : LinkPort) : LinkPort :=
  { l with reasm := tset [] l.reasm f.vc [], credits := l.credits.set f.vc (min (slotsOfVc f.vc) (l.credits.getD f.vc 0 + f.pkt.flits)) }

/-- A flit joins its slot; the last flit of a packet frees it, and the packet goes on or is discarded as malformed. -/
theorem flitIn_joins {s : State} {port : Nat} {f : Flit} (hslot : f.head = true → tget [] (s.link port).reasm f.vc = []) : flitIn s port f =
    if f.last then
      if malformed f.pkt then badPacket ((s.modLink port (joinedSlot f)).modLink port (freedSlot f)) port f.pkt
      else packetIn ((s.modLink port (joinedSlot f)).modLink port (freedSlot f)) (portTo port) f.pkt
    else s.modLink port (joinedSlot f) := by
  have hopen : (f.head && !(tget [] (s.link port).reasm f.vc).isEmpty) = false := by
    cases hhead : f.head with
    | false => rfl
    | true => rw [hslot hhead]; rfl
  unfold flitIn
  dsimp only
  rw [hopen, if_neg Bool.false_ne_true]
  cases f.last <;> rfl

/-! ### Training and death of a link (R252, R269, R270) -/

theorem linkRetrained_trains (s : State) (link : Nat) : ∃ t, exec (.linkRetrained link) s = .next t ∧
    t.link (2 * link) = { s.link (2 * link) with retraining := false } ∧
    t.link (2 * link + 1) = { s.link (2 * link + 1) with retraining := false } := by
  refine ⟨_, rfl, ?_, ?_⟩
  · rw [List.foldl_cons, List.foldl_cons, List.foldl_nil, State.link_modLink_other _ _ (by omega), State.link_modLink_self]
  · rw [List.foldl_cons, List.foldl_cons, List.foldl_nil, State.link_modLink_self, State.link_modLink_other _ _ (by omega)]

section
variable {s : State} {link : Nat}

theorem linkDead_stays (hdead : (s.link (2 * link)).dead = true) (cause : BitVec 2) : exec (.linkDead link cause) s = .next s := by
  show execLinkDead link cause s = _
  simp only [execLinkDead, hdead, Bool.or_true, if_true]

variable (hlink : link < 8) (hdead : (s.link (2 * link)).dead = false)
include hlink hdead

/-- A working link dies of the causes that no flit brings when they hold. -/
theorem linkDead_causes (cause : BitVec 2) : exec (.linkDead link cause) s = .next (
    if (cause == 1 && (s.link (2 * link)).retraining) || (cause == 2 && (ackOverdue s (2 * link) || ackOverdue s (2 * link + 1))) then
      connect (killLink s link cause.toNat (portFrom (if cause == 2 && !ackOverdue s (2 * link) then 2 * link + 1 else 2 * link)))
    else s) :=
  congrArg Host.Outcome.next (if_neg (by simp [hlink, hdead]))

theorem linkDead_retraining (htrain : (s.link (2 * link)).retraining = true) :
    exec (.linkDead link 1) s = .next (connect (killLink s link 1 (portFrom (2 * link)))) := by
  rw [linkDead_causes hlink hdead, htrain]
  rfl

theorem linkDead_overdue (h : ackOverdue s (2 * link) = true ∨ ackOverdue s (2 * link + 1) = true) :
    exec (.linkDead link 2) s =
      .next (connect (killLink s link 2 (portFrom (if ackOverdue s (2 * link) then 2 * link else 2 * link + 1)))) := by
  rw [linkDead_causes hlink hdead]
  cases hfirst : ackOverdue s (2 * link) with
  | true => rfl
  | false => rw [h.resolve_left (by rw [hfirst]; exact Bool.false_ne_true)]; rfl

theorem linkDead_acked (hfirst : ackOverdue s (2 * link) = false) (hsecond : ackOverdue s (2 * link + 1) = false) :
    exec (.linkDead link 2) s = .next s := by
  rw [linkDead_causes hlink hdead, hfirst, hsecond]
  rfl

end

/-- Settles O51: a slot by the first rule of R267 that applies; an arrival by the flit and what its port holds. -/
theorem linksCarryFlits : Obligations.LinksCarryFlits := by
  refine ⟨?slot, ?rules, ?arrival, ?reset, ?links⟩
  case slot =>
    intro s port hport hdead htrain hlive
    obtain ⟨t, hexec, hpart⟩ := flitBoundary_slot hport hdead htrain hlive
    obtain ⟨hlinks, hrest⟩ := Prod.ext_iff.mp hpart
    obtain ⟨hcores, hrest⟩ := Prod.ext_iff.mp hrest
    obtain ⟨hmem, haccs⟩ := Prod.ext_iff.mp hrest
    obtain ⟨hself, hway, hother⟩ := slotTaken_link s port
    have hlink (q : Nat) : t.link q = (slotTaken s port).link q := congrArg (fun x => tget LinkPort.init x q) hlinks
    exact ⟨t, hexec, (hlink _).trans hself, (hlink _).trans hway, fun q hq hq' => (hlink q).trans (hother q hq hq'), hcores, hmem, haccs⟩
  case rules =>
    intro l now fp
    refine ⟨fun owed => flitSlot_owed, flitSlot_full, fun hroom => ⟨fun p n => flitSlot_express_open hroom, ?_, ?_, ?_, ?_, ?_⟩⟩
    · intro p n hx hopen hhist
      have hpend : freightPending l = true := by rw [freightPending, hopen]; rfl
      rw [flitSlot_freight hroom hx (Or.inl ⟨hpend, hhist⟩), freightSlot_open hopen]
    · intro v m p hx hopen hhist hpick hpacket
      have hpend : freightPending l = true := by rw [freightPending, hpick]; exact Bool.or_true _
      rw [flitSlot_freight hroom hx (Or.inl ⟨hpend, hhist⟩), freightSlot_starts hopen hpick hpacket]
    · exact fun v m p hx hfreight hpick hpacket => flitSlot_express_starts hroom hx hfreight hpick hpacket
    · intro p n hx hpick hopen
      rw [flitSlot_freight hroom hx (Or.inr hpick), freightSlot_open hopen]
    · intro v m p hx hexpress hopen hpick hpacket
      rw [flitSlot_freight hroom hx (Or.inr hexpress), freightSlot_starts hopen hpick hpacket]
  case arrival =>
    intro s port f r hwire hdead htrain hlive slot s1 t u
    have hcorrupt := flitArrival_corrupt hwire hdead htrain hlive
    have hgood := flitArrival_good hwire hdead htrain hlive
    refine ⟨fun hmore => ?_, fun heighth => ?_, fun hmanage => ?_, fun hdata hhead => ?_⟩
    · rw [hcorrupt, if_neg (Nat.not_le.mpr hmore)]
    · rw [hcorrupt, if_pos heighth]
    · rw [hgood, if_pos hmanage]
    · have hslot : tget [] (s1.link port).reasm f.vc = slot := by rw [State.link_modLink_self]
      have hjoined : s1.modLink port (joinedSlot f) = t := State.modLink_congr (by rw [joinedSlot, hslot])
      rw [hgood, if_neg hdata, flitIn_joins fun h => hslot.trans (hhead h), hjoined]
      refine ⟨fun hlast => ?_, fun hlast hform => ?_, fun hlast hform => ?_⟩
      · rw [if_neg (Bool.eq_false_iff.mp hlast)]
      · rw [if_pos hlast, if_neg (Bool.eq_false_iff.mp hform)]
        rfl
      · rw [if_pos hlast, if_pos hform]
        rfl
  case reset =>
    intro s port
    exact ⟨flitBoundary_reset, fun hlive hdead htrain c f r hwire => flitArrival_reset hwire hdead htrain hlive c⟩
  case links =>
    intro s link
    refine ⟨linkRetrained_trains s link, fun hlink hdead => ?_, linkDead_stays⟩
    exact ⟨linkDead_retraining hlink hdead, linkDead_overdue hlink hdead, linkDead_acked hlink hdead⟩

end Sys2Proof.Machine
end

section
/-!
PROOFS. What a drop, a fault and the end of a plot leave of the dies (R273, R308, R398, R419), and what stamping leaves of them (R255, R274).
-/

namespace Sys2Proof.Machine

/-! ### Reading a die -/

theorem State.die_modDie_other (s : State) {d k : Nat} (f : Die → Die) (h : k ≠ d) : (s.modDie d f).die k = s.die k :=
  tget_tmod_other _ _ _ h

theorem State.die_congr {s t : State} (h : t.dies = s.dies) (d : Nat) : t.die d = s.die d := congrArg (tget Die.init · d) h

/-! ### Drops and faults leave the fabric

A dropped packet fails what waits for it; the fault may end a plot, which writes records and the nodes of its graph. None of this touches a die, a
link or the state of a RESYNC. -/

/-- The dies, the links and the RESYNC in progress. -/
def fabric (s : State) : Tbl Die × Tbl LinkPort × Resync := (s.dies, s.links, s.resync)

theorem fireWatches_fabric (s : State) (a n : Nat) : fabric (fireWatches s a n) = fabric s := by
  unfold fireWatches
  split <;> rfl

theorem count_fabric (s : State) (die i n : Nat) : fabric (s.count die i n) = fabric s := by
  unfold State.count
  split <;> rfl

theorem hbmStore_fabric (s : State) (a : Nat) (bs : List Byte) : fabric (hbmStore s a bs) = fabric s := by
  unfold hbmStore
  dsimp only
  rw [fireWatches_fabric, count_fabric]
  rfl

theorem hashStore_fabric (s : State) (pa : Nat) (bs : List Byte) : fabric (hashStore s pa bs) = fabric s :=
  foldl_keeps fabric (fun t _ => by rw [hbmStore_fabric]; rfl) _ s

theorem logRecord_fabric (s : State) (kind die unit : Nat) (detail : List Byte) : fabric (logRecord s kind die unit detail) = fabric s :=
  ringPut_keeps fabric hashStore_fabric s s.regs.lg _

theorem hbmWriteBy_fabric (byHost : Bool) (s : State) (a : Nat) (bs : List Byte) : fabric (hbmWriteBy byHost s a bs) = fabric s := by
  unfold hbmWriteBy logParts
  rw [foldl_keeps fabric (fun t _ => logRecord_fabric t _ _ _ _), hbmStore_fabric]
  split <;> rfl

theorem writeHash_fabric (s : State) (pa : Nat) (bs : List Byte) : fabric (writeHash s pa bs) = fabric s :=
  foldl_keeps fabric (fun t _ => hbmWriteBy_fabric false t _ _) _ s

theorem faultRecord_fabric (s : State) (bs : List Byte) : fabric (faultRecord s bs) = fabric s := ringPut_keeps fabric writeHash_fabric s s.regs.fq bs

theorem storeAt_fabric (s : State) (e : TcEntry) (va : Word) (bs : List Byte) : fabric (storeAt s e va bs) = fabric s := by
  unfold storeAt
  split
  · rw [count_fabric]
    rfl
  · exact hbmWriteBy_fabric false s _ _

/-- The fabric is `x`. -/
def fabricIs (x : Tbl Die × Tbl LinkPort × Resync) (s : State) : Bool := decide (fabric s = x)

theorem fabricIs_self (s : State) : fabricIs (fabric s) s = true := decide_eq_true rfl

theorem fabricIs_congr {x : Tbl Die × Tbl LinkPort × Resync} {s t : State} (h : fabric t = fabric s) (hs : fabricIs x s = true) :
    fabricIs x t = true := by
  rw [fabricIs, h]
  exact hs

section
variable {x : Tbl Die × Tbl LinkPort × Resync} {s : State} (h : fabricIs x s = true)
include h

theorem faultRecord_fabricIs (bs : List Byte) : fabricIs x (faultRecord s bs) = true := fabricIs_congr (faultRecord_fabric s bs) h

theorem writeVa_fabricIs (root va : Word) (bs : List Byte) : okAll (fabricIs x) (writeVa s root va bs) = true := by
  unfold writeVa
  split
  · rfl
  · refine foldl_holds (fabricIs x) (fun t p ht => ?_) _ h
    split
    · exact ht
    · exact fabricIs_congr (storeAt_fabric ..) ht

/-! The end of a plot (R390, R394, R398, R419) -/

theorem walkerRecord_fabricIs (node : Word) (code : Byte) (tval : Word) : fabricIs x (walkerRecord s node code tval) = true :=
  faultRecord_fabricIs h _

theorem setSt_fabricIs (node : Word) (st : BitVec 8) : okAll (fabricIs x) (setSt s node st) = true := okAll_allOk fun _ _ => writeVa_fabricIs h _ _ _

theorem nodeFault_fabricIs (node : Word) (code : Byte) (tval : Word) : fabricIs x (nodeFault s node code tval) = true := by
  unfold nodeFault
  split
  next e => exact walkerRecord_fabricIs (holds_of_ok e (setSt_fabricIs h _ _)) _ _ _
  next => exact walkerRecord_fabricIs h _ _ _

theorem enqueue_fabricIs (e : QEntry) : fabricIs x (enqueue s e) = true := holds_ite (fabricIs x) h h

theorem makeReady_fabricIs (node v : Word) : okAll (fabricIs x) (makeReady s node v) = true :=
  okAll_allOk fun _ ht => enqueue_fabricIs (holds_of_ok ht (writeVa_fabricIs h _ _ _)) _

theorem releaseOne_fabricIs (succ : Word) : okAll (fabricIs x) (releaseOne s succ) = true := by
  unfold releaseOne
  dsimp only
  split
  · rfl
  · refine holds_ite (okAll (fabricIs x)) (nodeFault_fabricIs h _ _ _) ?_
    split
    · rfl
    next e =>
      have ht := holds_of_ok e (writeVa_fabricIs h _ _ _)
      exact holds_ite (okAll (fabricIs x)) (makeReady_fabricIs ht _ _) ht

omit h in
theorem releaseAll_fabricIs {t : State} (ht : fabricIs x t = true) (node : Word) (succs : List Word) :
    fabricIs x (releaseAll t node succs) = true := by
  induction succs generalizing t with
  | nil => exact ht
  | cons a r ih =>
    unfold releaseAll
    refine holds_ite (fabricIs x) (ih ht) ?_
    split
    · exact nodeFault_fabricIs ht _ _ _
    next e => exact ih (holds_of_ok e (releaseOne_fabricIs ht _))

theorem nodeDone_fabricIs (node : Word) (succ : List Word) : fabricIs x (nodeDone s node succ) = true := by
  unfold nodeDone
  split
  · exact walkerRecord_fabricIs h _ _ _
  · split
    · exact nodeFault_fabricIs h _ _ _
    next e => exact releaseAll_fabricIs (holds_of_ok e (writeVa_fabricIs h _ _ _)) _ _

theorem launchFault_fabricIs (node : Word) (relf : Bool) : fabricIs x (launchFault s node relf) = true := by
  unfold launchFault
  split
  · exact walkerRecord_fabricIs h _ _ _
  next e =>
    have hset := holds_of_ok e (setSt_fabricIs h _ _)
    exact holds_ite (fabricIs x) (releaseAll_fabricIs hset _ _) hset

theorem launchEnd_fabricIs (r : LaunchRun) (ok : Bool) : fabricIs x (launchEnd s r ok) = true := by
  unfold launchEnd
  extract_lets word s1 done
  have h1 : fabricIs x s1 = true := h
  have hdone : okAll (fun p => fabricIs x p.1) done = true :=
    okAll_allOk fun donew _ => okAll_allOk fun _ _ => okAll_allOk fun t ht => by
      have hwrite : okAll (fabricIs x) (if donew == 0 then .ok s1 else gwrite s1 donew word) = true :=
        holds_ite (okAll (fabricIs x)) h1 (writeVa_fabricIs h1 _ _ _)
      exact holds_of_ok (p := fabricIs x) ht hwrite
  clear_value done
  split
  · exact nodeFault_fabricIs h1 _ _ _
  next => exact holds_ite (fabricIs x) (nodeDone_fabricIs hdone _ _) (launchFault_fabricIs hdone _ _)

theorem plotEnded_fabricIs (node : Word) (fatal : Option Byte) : fabricIs x (plotEnded s node fatal) = true := by
  unfold plotEnded
  split
  · exact h
  · exact holds_ite (fabricIs x) (launchEnd_fabricIs h _ _) h

theorem dissolveGroups_fabricIs (plot : Nat) : fabricIs x (dissolveGroups s plot) = true := by
  unfold dissolveGroups
  refine foldl_holds (fabricIs x) (fun t g ht => ?_) _ h
  exact foldl_holds (fabricIs x) (fun _ _ hu => by exact hu) _ (by exact ht)

theorem dropFollow_fabricIs (q : Plot) : fabricIs x (dropFollow s q) = true := by
  unfold dropFollow
  dsimp only
  split
  · exact h
  · split
    · exact holds_ite (fabricIs x) (by exact foldl_holds (fabricIs x) (fun _ _ hu => by exact hu) _ h)
        (enqueue_fabricIs (by exact foldl_holds (fabricIs x) (fun _ _ hu => by exact hu) _ h) _)
    · exact foldl_holds (fabricIs x) (fun _ _ hu => by exact hu) _ h

theorem fatalEnd_fabricIs (q : Plot) (code : Byte) (rec : List Byte) : fabricIs x (fatalEnd s q code rec) = true := by
  have hsweep : fabricIs x (sweepPlot s q code) = true :=
    foldl_holds (fabricIs x) (fun _ _ hu => by exact hu) _ (by exact dropFollow_fabricIs (dissolveGroups_fabricIs h _) _)
  exact plotEnded_fabricIs (faultRecord_fabricIs hsweep _) _ _

theorem plotFault_fabricIs (core : Nat) (code : Byte) (detail : Nat) (origin : Byte) (where_ tval : Word) (recoverable : Bool) :
    fabricIs x (plotFault s core code detail origin where_ tval recoverable) = true := by
  unfold plotFault
  split
  · exact h
  · exact holds_ite (fabricIs x) h (holds_ite (fabricIs x) (by exact faultRecord_fabricIs h _) (fatalEnd_fabricIs h _ _ _))

/-! The answer of an access (R218, R220, R225) -/

theorem modSlots_fabricIs (core id : Nat) (f : Slot → Slot) : fabricIs x (modSlots s core id f) = true :=
  foldl_holds (fabricIs x) (fun _ _ hu => by exact hu) _ h

theorem portFault_fabricIs (core p : Nat) (code : Byte) (detail : Nat) (tval : Word) (recoverable : Bool) :
    fabricIs x (portFault s core p code detail tval recoverable) = true := plotFault_fabricIs (by exact h) _ _ _ _ _ _ _

theorem sheafFault_fabricIs (a : Access) : fabricIs x (sheafFault s a) = true := by
  unfold sheafFault
  split
  · exact portFault_fabricIs h _ _ _ _ _ _
  · exact h

theorem tokenArrived_fabricIs (a : Access) (core id n tail : Nat) : fabricIs x (tokenArrived s a core id n tail) = true := by
  unfold tokenArrived
  refine holds_ite (fabricIs x) (modSlots_fabricIs h _ _ _) ?_
  split
  · exact h
  · split
    · exact modSlots_fabricIs h _ _ _
    · exact sheafFault_fabricIs h _

theorem arriveAtArc_fabricIs (a : Access) (core n tail id lane : Nat) (v : List Byte) (code : Byte) :
    fabricIs x (arriveAtArc s a core n tail id lane v code) = true := by
  unfold arriveAtArc
  extract_lets s1 s2
  have h1 : fabricIs x s1 = true := h
  have h2 : fabricIs x s2 = true := holds_ite (fabricIs x) h1 (modSlots_fabricIs h1 _ _ _)
  refine holds_ite (fabricIs x) ?_ (holds_ite (fabricIs x) (sheafFault_fabricIs h2 _)
    (holds_ite (fabricIs x) h2 (tokenArrived_fabricIs h2 _ _ _ _ _)))
  split
  · exact plotFault_fabricIs h1 _ _ _ _ _ _ _
  · exact portFault_fabricIs h1 _ _ _ _ _ _
  · exact h1

theorem settle_fabricIs (a : Access) (phase : AccPhase) (v : List Byte) (code : Byte) : fabricIs x (settle s a phase v code) = true := by
  unfold settle
  split
  · exact holds_ite (fabricIs x) (arriveAtArc_fabricIs h _ _ _ _ _ _ _ _) h
  · refine holds_ite (fabricIs x) ?_ h
    unfold hostCaches
    split
    · exact holds_ite (fabricIs x) h h
    · exact h

/-! Drops (R273, R308) -/

theorem failAccess_fabricIs (id : Nat) : fabricIs x (failAccess s id) = true := by
  unfold failAccess
  split
  · exact h
  · exact holds_ite (fabricIs x) (settle_fabricIs h _ _ _ _) h

theorem failProbe_fabricIs (tag : Nat) : fabricIs x (failProbe s tag) = true := by
  unfold failProbe
  dsimp only
  refine holds_ite (fabricIs x) ?_ h
  split <;> exact h

theorem failWaiter_fabricIs (w : Waiter) : fabricIs x (failWaiter s w) = true := h

theorem dropPacket_fabricIs (die : Nat) (p : Packet) : fabricIs x (dropPacket s die p) = true := by
  unfold dropPacket
  extract_lets s1 engine s2 s3 s4
  have h1 : fabricIs x s1 = true := fabricIs_congr (logRecord_fabric ..) h
  have h2 : fabricIs x s2 = true := holds_ite (fabricIs x) h1 h1
  have h3 : fabricIs x s3 = true := holds_ite (fabricIs x) (failAccess_fabricIs h2 _) h2
  refine holds_ite (fabricIs x) (failAccess_fabricIs h1 _) (holds_ite (fabricIs x) ?_ (holds_ite (fabricIs x) ?_ (holds_ite (fabricIs x)
    (holds_ite (fabricIs x) (holds_ite (fabricIs x) (failProbe_fabricIs h1 _) h1) ?_) h1)))
  · split
    · exact h3
    · exact plotFault_fabricIs h3 _ _ _ _ _ _ _
  · exact foldl_holds (fabricIs x) (fun _ _ hu => failWaiter_fabricIs hu _) _ h1
  · split <;> exact h1

end

theorem dropPacket_fabric (s : State) (die : Nat) (p : Packet) : fabric (dropPacket s die p) = fabric s :=
  of_decide_eq_true (dropPacket_fabricIs (fabricIs_self s) die p)

theorem dropAll_fabric (s : State) (die : Nat) (ps : List Packet) : fabric (dropAll s die ps) = fabric s :=
  foldl_keeps fabric (fun t p => dropPacket_fabric t die p) ps s

theorem dies_of_fabric {s t : State} (h : fabric t = fabric s) : t.dies = s.dies := congrArg Prod.fst h

/-- The dies and the progress of a RESYNC: what its controller has learnt. -/
def diesAndProgress (s : State) : Tbl Die × List (Nat × List Byte) × List Nat := (s.dies, s.resync.reports, s.resync.cleared)

theorem diesAndProgress_of_fabric {s t : State} (h : fabric t = fabric s) : diesAndProgress t = diesAndProgress s :=
  congrArg (fun x => (x.1, x.2.2.reports, x.2.2.cleared)) h

/-- A packet on its way changes no die; without a path it requests a RESYNC, which is no progress of the present one. -/
theorem sendPacket_diesAndProgress (s : State) (die : Nat) (p : Packet) : diesAndProgress (sendPacket s die p) = diesAndProgress s := by
  unfold sendPacket
  split
  · exact (diesAndProgress_of_fabric (dropPacket_fabric ..)).trans rfl
  · rfl

theorem sendPacket_dies (s : State) (die : Nat) (p : Packet) : (sendPacket s die p).dies = s.dies :=
  congrArg Prod.fst (sendPacket_diesAndProgress s die p)

/-! ### Stamping leaves the phase of a die (R255, R274) -/

/-- What a RESYNC sets at a die: the phase, and whether it may rejoin. -/
def Die.marks (x : Die) : Nat × Bool := (x.phase, x.mayRejoin)

/-- The marks of every die. -/
def resyncMarks (s : State) : Nat → Nat × Bool := fun d => (s.die d).marks

theorem resyncMarks_of_dies {s t : State} (h : t.dies = s.dies) : resyncMarks t = resyncMarks s :=
  funext fun d => congrArg Die.marks (State.die_congr h d)

theorem modDie_resyncMarks (s : State) (die : Nat) {f : Die → Die} (hf : ∀ x, (f x).marks = x.marks) :
    resyncMarks (s.modDie die f) = resyncMarks s := by
  funext d
  by_cases hd : d = die
  · rw [hd, resyncMarks, State.die_modDie_self, hf, resyncMarks]
  · rw [resyncMarks, State.die_modDie_other _ _ hd, resyncMarks]

theorem sendPacket_resyncMarks (s : State) (die : Nat) (p : Packet) : resyncMarks (sendPacket s die p) = resyncMarks s :=
  resyncMarks_of_dies (sendPacket_dies s die p)

theorem emitPacket_resyncMarks (s : State) (die : Nat) (p : Packet) : resyncMarks (emitPacket s die p) = resyncMarks s := by
  unfold emitPacket
  exact (sendPacket_resyncMarks ..).trans (modDie_resyncMarks _ _ fun _ => rfl)

theorem stampClock_resyncMarks (x : Die) (die st : Nat) (p : Packet) :
    (stampClock x die st p).marks = x.marks := by
  unfold stampClock
  split <;> rfl

theorem stampPacket_resyncMarks (s : State) (die : Nat) (p : Packet) : resyncMarks (stampPacket s die p) = resyncMarks s := by
  unfold stampPacket
  extract_lets p' st d incs
  split
  · exact resyncMarks_of_dies (dies_of_fabric (dropPacket_fabric ..))
  · split
    · exact modDie_resyncMarks _ _ fun _ => rfl
    · refine (emitPacket_resyncMarks ..).trans ((modDie_resyncMarks _ _ fun x => stampClock_resyncMarks x _ _ _).trans ?_)
      exact foldl_keeps resyncMarks (fun t c => emitPacket_resyncMarks t die c) _ s

theorem stampUnsent_resyncMarks (s : State) : resyncMarks (stampUnsent s) = resyncMarks s := by
  refine foldl_keeps resyncMarks (fun t d => ?_) _ s
  split
  · rfl
  · exact (foldl_keeps resyncMarks (fun u p => stampPacket_resyncMarks u d p) _ _).trans (modDie_resyncMarks _ _ fun _ => rfl)

theorem bridgeLeft_dies (s : State) (a : Access) : (bridgeLeft s a).dies = s.dies := by
  unfold bridgeLeft
  split
  · split <;> rfl
  · rfl

theorem setProbes_dies (s : State) (a : Agent) (v : ProbeView) : (setProbes s a v).dies = s.dies := by
  unfold setProbes
  split <;> rfl

theorem sendProbes_resyncMarks (s : State) (ag : Agent) (n : Nat) : resyncMarks (sendProbes s ag n) = resyncMarks s := by
  unfold sendProbes
  dsimp only
  rw [foldl_keeps resyncMarks fun t d => stampPacket_resyncMarks t _ _, resyncMarks_of_dies (setProbes_dies ..)]

theorem probeRelease_resyncMarks (s : State) (a : Access) : resyncMarks (probeRelease s a) = resyncMarks s := by
  unfold probeRelease
  split
  · split
    · exact sendProbes_resyncMarks ..
    · rfl
  · rfl

theorem noteDirty_dies (s : State) (a : Access) (home : Nat) : (noteDirty s a home).dies = s.dies := by
  unfold noteDirty
  split
  · split
    · exact setProbes_dies ..
    · rfl
  · rfl

theorem tryStamp_resyncMarks (s : State) (a : Access) : resyncMarks (tryStamp s a) = resyncMarks s := by
  unfold tryStamp
  extract_lets t die p st
  have ht : resyncMarks t = resyncMarks s := by
    unfold t
    split
    · exact probeRelease_resyncMarks ..
    · rfl
  split
  · rw [resyncMarks_of_dies (noteDirty_dies ..), stampPacket_resyncMarks, ← ht]
    exact resyncMarks_of_dies (bridgeLeft_dies t a)
  · exact ht

theorem sendArrivals_resyncMarks (s : State) : resyncMarks (sendArrivals s) = resyncMarks s := by
  refine foldl_keeps resyncMarks (fun t m => ?_) _ s
  split
  · unfold sendBar
    split
    · rfl
    · exact stampPacket_resyncMarks ..
  · rfl

theorem sendCommands_resyncMarks (s : State) : resyncMarks (sendCommands s) = resyncMarks s := by
  refine foldl_keeps resyncMarks (fun t x => ?_) _ s
  split
  · exact stampPacket_resyncMarks ..
  · rfl

theorem fenceStep_resyncMarks (s : State) (core : Nat) : resyncMarks (fenceStep s core) = resyncMarks s := by
  unfold fenceStep
  split
  · rfl
  · extract_lets k t ok
    have ht : resyncMarks t = resyncMarks s := by
      unfold t
      split
      · exact sendProbes_resyncMarks ..
      · rfl
    split <;> exact ht

/-- Stamping what may go sets no phase and lets no die rejoin. -/
theorem stampReady_resyncMarks (s : State) : resyncMarks (stampReady s) = resyncMarks s := by
  unfold stampReady sendFences
  rw [foldl_keeps resyncMarks fenceStep_resyncMarks, sendCommands_resyncMarks, sendArrivals_resyncMarks, foldl_keeps resyncMarks (fun t id => ?_),
    stampUnsent_resyncMarks]
  split
  · rfl
  · exact tryStamp_resyncMarks ..

end Sys2Proof.Machine
end

section
/-!
PROOFS. The removal of a die (R272, R273), its rejoining (R442) and the phases of a RESYNC (R274): O52.
-/

namespace Sys2Proof.Machine

/-! ### The removal of a die (R272, R273) -/

theorem mem_liveDies {s : State} {d : Nat} : d ∈ liveDies s ↔ d < 6 ∧ (s.die d).removed = false := by
  simp [liveDies]

theorem liveDies_nodup (s : State) : (liveDies s).Nodup := List.nodup_range.filter _

/-- What a live die `d` keeps when `die` is removed (R272, R273). -/
def sealedDie (die d : Nat) (x : Die) : Die :=
  { x with
    arrived := x.arrived.filter fun p => p.src != die
    early := x.early.filter fun e => !(x.early.filter fun e => e.decoded && (tget 0 x.d die).toNat < matrixAt e.pkt die d).contains e
    retry := x.retry.filter fun p => p.dst != die
    unsent := x.unsent.filter fun p => p.dst != die }

theorem sealFor_dies (s : State) (die d : Nat) : (sealFor s die d).dies = (s.modDie d (sealedDie die d)).dies :=
  dies_of_fabric (dropAll_fabric ..)

theorem foldl_sealFor_die (die : Nat) {l : List Nat} (hl : l.Nodup) (s : State) (d : Nat) :
    (l.foldl (fun t k => sealFor t die k) s).die d = if d ∈ l then sealedDie die d (s.die d) else s.die d := by
  induction l generalizing s with
  | nil => rfl
  | cons k l ih =>
    obtain ⟨hk, hl⟩ := List.nodup_cons.mp hl
    rw [List.foldl_cons, ih hl, State.die_congr (sealFor_dies s die k)]
    by_cases hd : d = k
    · subst hd
      rw [if_neg hk, if_pos List.mem_cons_self, State.die_modDie_self]
    · rw [State.die_modDie_other _ _ hd]
      simp only [List.mem_cons, hd, false_or]

/-- No waiting packet of a sealed die needs more writes of the removed one. -/
theorem sealedDie_early {die d : Nat} {x : Die} {e : Early} (he : e ∈ (sealedDie die d x).early) (hdecoded : e.decoded = true) :
    matrixAt e.pkt die d ≤ (tget 0 x.d die).toNat := by
  obtain ⟨hmem, hkept⟩ := List.mem_filter.mp he
  simpa [hmem, hdecoded] using hkept

/-- A die is marked as removed, and as in reset when that is the cause; no other die has noticed yet. -/
def removalBegun (s : State) (die cause : Nat) : State :=
  let s1 := logRecord (s.modDie die fun d => { d with removed := true, mayRejoin := false }) 6 (observer s die) die (natLe 1 cause)
  askResync (leaveInv (if cause = 0 then loseInside s1 die else s1) die)

/-- After the other dies have noticed, the end of what stood inside the die changes no die. -/
theorem removeDie_dies (s : State) (die cause : Nat) : (removeDie s die cause).dies =
    ((liveDies (removalBegun s die cause)).foldl (fun t d => sealFor t die d) (removalBegun s die cause)).dies := by
  unfold removeDie
  extract_lets s1 s2 s3 owed failed s4 s5
  have hfailed : fabricIs (fabric s3) failed = true :=
    foldl_holds (fabricIs (fabric s3)) (fun _ _ hu => failAccess_fabricIs hu _) _ (fabricIs_self s3)
  have h4 : fabricIs (fabric s3) s4 = true := foldl_holds (fabricIs (fabric s3)) (fun _ _ hu => failWaiter_fabricIs hu _) _ (by exact hfailed)
  have h5 : fabricIs (fabric s3) s5 = true := foldl_holds (fabricIs (fabric s3)) (fun _ _ hu => fatalEnd_fabricIs hu _ _ _) _ h4
  exact dies_of_fabric (of_decide_eq_true (holds_ite (fabricIs (fabric s3)) (by exact h5) h5))

theorem leaveInv_dies (s : State) (die : Nat) : (leaveInv s die).dies = s.dies := by
  unfold leaveInv
  dsimp only
  split
  · rfl
  · split <;> rfl

theorem loseInside_dies (s : State) (die : Nat) : (loseInside s die).dies =
    (s.modDie die fun d => { d with live := false, unsent := [], arrived := [], early := [], retry := [] }).dies := by
  unfold loseInside
  refine foldl_keeps State.dies (fun t p => ?_) _ _
  split
  · rfl
  · split <;> rfl

section
variable (s : State) (die cause : Nat)

theorem removalBegun_dies : (removalBegun s die cause).dies =
    (let t := s.modDie die fun d => { d with removed := true, mayRejoin := false }
     if cause = 0 then t.modDie die fun d => { d with live := false, unsent := [], arrived := [], early := [], retry := [] } else t).dies := by
  have hlog (t : State) (a b : Nat) (bs : List Byte) : (logRecord t 6 a b bs).dies = t.dies := logRecord_dies ..
  show (leaveInv _ die).dies = _
  rw [leaveInv_dies]
  split
  · rw [loseInside_dies, State.modDie, hlog]
    rfl
  · exact hlog ..

theorem removalBegun_other {d : Nat} (hd : d ≠ die) : (removalBegun s die cause).die d = s.die d := by
  rw [State.die_congr (removalBegun_dies s die cause)]
  dsimp only
  split
  · exact (State.die_modDie_other _ _ hd).trans (State.die_modDie_other _ _ hd)
  · exact State.die_modDie_other _ _ hd

theorem removalBegun_self : ((removalBegun s die cause).die die).removed = true ∧ ((removalBegun s die cause).die die).mayRejoin = false ∧
    ((removalBegun s die cause).die die).live = ((s.die die).live && cause != 0) := by
  rw [State.die_congr (removalBegun_dies s die cause)]
  dsimp only
  split
  next h =>
    subst h
    rw [State.die_modDie_self, State.die_modDie_self, bne_self_eq_false', Bool.and_false]
    exact ⟨rfl, rfl, rfl⟩
  next h =>
    rw [State.die_modDie_self, bne_iff_ne.mpr h, Bool.and_true]
    exact ⟨rfl, rfl, rfl⟩

/-- The removed die stays as it was marked. -/
theorem removeDie_self : (removeDie s die cause).die die = (removalBegun s die cause).die die := by
  obtain ⟨hremoved, -⟩ := removalBegun_self s die cause
  rw [State.die_congr (removeDie_dies s die cause), foldl_sealFor_die _ (liveDies_nodup _), if_neg]
  intro hlive
  rw [(mem_liveDies.mp hlive).2] at hremoved
  exact Bool.false_ne_true hremoved

/-- Every other live die seals its count. -/
theorem removeDie_other {d : Nat} (hlive : d ∈ liveDies s) (hd : d ≠ die) : (removeDie s die cause).die d = sealedDie die d (s.die d) := by
  have hsame := removalBegun_other s die cause hd
  have hmem : d ∈ liveDies (removalBegun s die cause) := by
    rw [mem_liveDies, hsame]
    exact mem_liveDies.mp hlive
  rw [State.die_congr (removeDie_dies s die cause), foldl_sealFor_die _ (liveDies_nodup _), if_pos hmem, hsame]

end

section
variable {s : State} {die : Nat}

/-- Of the causes of a removal, which R272 numbers, only a reset is told from the others. -/
theorem removalCause_ne_zero (cause : BitVec 2) : (min cause.toNat 2 != 0) = (cause != 0) := by
  revert cause
  decide

/-- A die whose cause holds is removed. -/
theorem dieRemoval_removes {cause : BitVec 2} (hdie : die < 6) (hremoved : (s.die die).removed = false)
    (hcause : cause ≠ 1 ∨ connected s die = false) : exec (.dieRemoval die cause) s = .next (removeDie s die (min cause.toNat 2)) := by
  refine congrArg Host.Outcome.next (if_neg ?_)
  simpa [hdie, hremoved, imp_iff_not_or] using hcause

theorem dieRemoval_stays {cause : BitVec 2} (h : (s.die die).removed = true ∨ cause = 1 ∧ connected s die = true) :
    exec (.dieRemoval die cause) s = .next s := by
  refine congrArg Host.Outcome.next (if_pos ?_)
  rcases h with h | ⟨hcause, hpath⟩
  · simp [h]
  · simp [hcause, hpath]

/-- A removed die that may rejoin starts afresh in the generation of the others, outside a RESYNC. -/
theorem dieRejoin_rejoins (hdie : die < 6) (hremoved : (s.die die).removed = true) (hmay : (s.die die).mayRejoin = true)
    (hidle : ∀ d ∈ liveDies s, (s.die d).phase = 0) : ∃ t, exec (.dieRejoin die) s = .next t ∧
      t.die die = { Die.init with gen := (s.die ((liveDies s).headD 0)).gen } := by
  have hgo : ¬(6 ≤ die || !(s.die die).removed || !(s.die die).mayRejoin || (liveDies s).any fun d => (s.die d).phase != 0) = true := by
    have hnone : ((liveDies s).any fun d => (s.die d).phase != 0) = false :=
      List.any_eq_false.mpr fun d hd h => bne_iff_ne.mp h (hidle d hd)
    simp [hdie, hremoved, hmay, hnone]
  exact ⟨_, congrArg Host.Outcome.next (if_neg hgo), State.die_modDie_self ..⟩

theorem dieRejoin_stays (hmay : (s.die die).mayRejoin = false) : exec (.dieRejoin die) s = .next s :=
  congrArg Host.Outcome.next (if_pos (by simp [hmay]))

end

/-! ### Packets of a RESYNC (R274) -/

theorem announce_diesAndProgress (s : State) (phase : Nat) : diesAndProgress (announce s phase) = diesAndProgress s :=
  foldl_keeps diesAndProgress (fun t _ => sendPacket_diesAndProgress t _ _) _ s

theorem announce_die (s : State) (phase d : Nat) : (announce s phase).die d = s.die d :=
  State.die_congr (congrArg Prod.fst (announce_diesAndProgress s phase)) d

/-- A RESYNC packet that has arrived stands at a live die. -/
theorem findResync_live {s : State} {phase d i : Nat} {p : Packet} (h : findResync s phase = some (d, i, p)) : (s.die d).removed = false := by
  obtain ⟨k, hk, hfound⟩ := List.exists_of_findSome?_eq_some h
  obtain ⟨y, -, hy⟩ := Option.map_eq_some_iff.mp hfound
  obtain rfl : k = d := congrArg Prod.fst hy
  exact (mem_liveDies.mp hk).2

section
variable {s : State} {phase d i : Nat} {p : Packet} (hfind : findResync s phase = some (d, i, p)) (hsrc : (s.die p.src).removed = false)
  (hgen : p.gen = (s.die d).gen)
include hfind hsrc hgen

theorem withResync_takes (f : State → Nat → Packet → State) :
    withResync s phase f = f (s.modDie d fun x => { x with arrived := x.arrived.eraseIdx i }) d p := by
  rw [withResync, hfind]
  exact takeArrived_takes hsrc (findResync_live hfind) hgen _

end

/-! ### Phase 1: quiescing -/

theorem resyncQuiesce_starts {s : State} (hstart : mayStart s = true) : exec .resyncQuiesce s =
    .next (announce (quiesce { s with resync := { s.resync with reports := [], cleared := [] } } (fabricDie s)) 1) :=
  congrArg Host.Outcome.next (if_pos hstart)

theorem resyncQuiesce_follows {s : State} (hstart : mayStart s = false) {d i : Nat} {p : Packet} (hfind : findResync s 1 = some (d, i, p))
    (hsrc : (s.die p.src).removed = false) (hgen : p.gen = (s.die d).gen) :
    exec .resyncQuiesce s = .next (quiesce (s.modDie d fun x => { x with arrived := x.arrived.eraseIdx i }) d) := by
  refine congrArg Host.Outcome.next ((if_neg (Bool.eq_false_iff.mp hstart)).trans ?_)
  exact withResync_takes hfind hsrc hgen _

/-! ### Phase 2: reports -/

/-- A report changes no die but its own, which has nothing left to be acknowledged. -/
theorem reportDie_dies (s : State) (d : Nat) : (reportDie s d).dies = (s.modDie d fun x => { x with retry := [], phase := 2 }).dies := by
  have hdrop := dies_of_fabric (dropAll_fabric (s.modDie d fun x => { x with retry := [], phase := 2 }) d (s.die d).retry)
  unfold reportDie
  dsimp only
  split
  · exact hdrop
  · exact (sendPacket_dies ..).trans hdrop

theorem logGaps_fabric (s : State) : fabric (logGaps s) = fabric s := by
  refine foldl_keeps fabric (fun t p => ?_) _ s
  dsimp only
  split
  · exact logRecord_fabric ..
  · rfl

section
variable {s : State}

theorem resyncExchange_reports {d : Nat} (hsettled : (liveDies s).find? (fun d => settledDie s d) = some d) :
    exec .resyncExchange s = .next (reportDie s d) := by
  show execResyncExchange s = _
  rw [execResyncExchange, hsettled]

variable (hnone : (liveDies s).find? (fun d => settledDie s d) = none)
include hnone

/-- With the last report the controller logs the gaps and announces phase 3. -/
theorem resyncExchange_announces (hlive : liveDies s ≠ []) (hall : allReported s = true) : exec .resyncExchange s =
    .next (announce (logGaps { s with resync := { s.resync with reports := [], cleared := [fabricDie s] } }) 3) := by
  have hsome : (!(liveDies s).isEmpty && allReported s) = true := by simp [hlive, hall]
  show execResyncExchange s = _
  simp only [execResyncExchange, hnone, hsome, if_true]

/-- The controller takes a report. -/
theorem resyncExchange_takes (hall : allReported s = false) {d i : Nat} {p : Packet} (hfind : findResync s 2 = some (d, i, p))
    (hsrc : (s.die p.src).removed = false) (hgen : p.gen = (s.die d).gen) : exec .resyncExchange s =
      .next { s.modDie d fun x => { x with arrived := x.arrived.eraseIdx i } with
        resync := { s.resync with reports := (p.src, p.data) :: s.resync.reports } } := by
  have hmore : (!(liveDies s).isEmpty && allReported s) = false := by rw [hall, Bool.and_false]
  show execResyncExchange s = _
  simp only [execResyncExchange, hnone, hmore, Bool.false_eq_true, if_false, withResync_takes hfind hsrc hgen]
  rfl

end

/-! ### Phase 3: clearing -/

/-- The clock state of a die in the next generation (R274 phase 3). -/
def ClockCleared (a b : Die) : Prop :=
  b.phase = 3 ∧ b.gen = a.gen + 1 ∧ b.v = [] ∧ b.d = [] ∧ b.lmat = [] ∧ b.rmat = [] ∧ b.sendSeq = [] ∧ b.recvSeq = [] ∧ b.early = []

theorem clearDie_cleared (s : State) (d : Nat) : ClockCleared (s.die d) ((clearDie s d).die d) := by
  unfold clearDie
  rw [State.die_congr (dies_of_fabric (dropAll_fabric ..)), State.die_modDie_self]
  exact ⟨rfl, rfl, rfl, rfl, rfl, rfl, rfl, rfl, rfl⟩

section
variable {s : State}

theorem resyncClear_controller (hphase : (s.die (fabricDie s)).phase = 2) (hcleared : fabricDie s ∈ s.resync.cleared) :
    exec .resyncClear s = .next (clearDie s (fabricDie s)) :=
  congrArg Host.Outcome.next (if_pos (by simp [hphase, hcleared]))

variable (hdone : (s.die (fabricDie s)).phase ≠ 2 ∨ fabricDie s ∉ s.resync.cleared) {d i : Nat} {p : Packet}
  (hfind : findResync s 3 = some (d, i, p)) (hsrc : (s.die p.src).removed = false) (hgen : p.gen = (s.die d).gen)
include hdone hfind hsrc hgen

/-- The packet of phase 3 tells a die to clear, and the controller that a die has cleared. -/
theorem resyncClear_takes : exec .resyncClear s = .next (
    let t := s.modDie d fun x => { x with arrived := x.arrived.eraseIdx i }
    if d == fabricDie s then { t with resync := { t.resync with cleared := p.src :: t.resync.cleared } }
    else sendPacket (clearDie t d) d (resyncPacket (clearDie t d) d (fabricDie s) 3 [])) := by
  have hpacket : ((s.die (fabricDie s)).phase == 2 && s.resync.cleared.contains (fabricDie s)) = false := by
    rcases hdone with h | h
    · simp [h]
    · simp [h]
  show execResyncClear s = _
  simp only [execResyncClear, hpacket, hfind, Bool.false_eq_true, if_false, takeArrived_takes hsrc (findResync_live hfind) hgen]

theorem resyncClear_other (hd : d ≠ fabricDie s) : ∃ t, exec .resyncClear s = .next t ∧ ClockCleared (s.die d) (t.die d) := by
  refine ⟨_, (resyncClear_takes hdone hfind hsrc hgen).trans (congrArg Host.Outcome.next (if_neg fun h => hd (beq_iff_eq.mp h))), ?_⟩
  have hcleared := clearDie_cleared (s.modDie d fun x => { x with arrived := x.arrived.eraseIdx i }) d
  rw [State.die_modDie_self] at hcleared
  rw [State.die_congr (sendPacket_dies ..)]
  exact hcleared

theorem resyncClear_notes (hd : d = fabricDie s) : ∃ t, exec .resyncClear s = .next t ∧ t.resync.cleared = p.src :: s.resync.cleared :=
  ⟨_, (resyncClear_takes hdone hfind hsrc hgen).trans (congrArg Host.Outcome.next (if_pos (beq_iff_eq.mpr hd))), rfl⟩

end

/-! ### Phase 4: resuming -/

/-- Every removed die may rejoin (R442). -/
def mayRejoinAll (s : State) : State :=
  (below 6 fun d => (s.die d).removed).foldl (fun u d => u.modDie d fun x => { x with mayRejoin := true }) s

theorem mayRejoinAll_removed {s : State} {d : Nat} (hd : d < 6) (hremoved : (s.die d).removed = true) :
    ((mayRejoinAll s).die d).mayRejoin = true := by
  have hmem : d ∈ below 6 fun d => (s.die d).removed := by simp [hd, hremoved]
  refine foldl_establishes (i := d) (P := fun u => (u.die d).mayRejoin = true) (fun u k hu => ?_) (fun u => ?_) hmem s
  · by_cases hk : d = k
    · subst hk
      rw [State.die_modDie_self]
    · rw [State.die_modDie_other _ _ hk, hu]
  · rw [State.die_modDie_self]

section
variable {s : State}

theorem die_of_resyncMarks {t u : State} (h : resyncMarks t = resyncMarks u) (d : Nat) :
    (t.die d).phase = (u.die d).phase ∧ (t.die d).mayRejoin = (u.die d).mayRejoin :=
  Prod.mk.inj (congrFun h d)

/-- When every live die has cleared, the controller resumes, and removed dies may rejoin. -/
theorem resyncResume_completes (hlive : liveDies s ≠ []) (hall : allCleared s = true) : ∃ t, exec .resyncResume s = .next t ∧
    resyncMarks t =
      resyncMarks ((mayRejoinAll (announce { s with resync := Resync.init } 4)).modDie (fabricDie s) fun x => { x with phase := 0 }) := by
  refine ⟨_, congrArg Host.Outcome.next (if_pos (by simp [hlive, hall])), ?_⟩
  exact (stampReady_resyncMarks _).trans (resyncMarks_of_dies (logRecord_dies ..))

theorem resyncResume_follows (hall : allCleared s = false) {d i : Nat} {p : Packet} (hfind : findResync s 4 = some (d, i, p))
    (hsrc : (s.die p.src).removed = false) (hgen : p.gen = (s.die d).gen) : ∃ t, exec .resyncResume s = .next t ∧
      resyncMarks t = resyncMarks ((s.modDie d fun x => { x with arrived := x.arrived.eraseIdx i }).modDie d fun x => { x with phase := 0 }) := by
  refine ⟨_, congrArg Host.Outcome.next (if_neg (by simp [hall])), ?_⟩
  rw [stampReady_resyncMarks, withResync_takes hfind hsrc hgen]

end

/-- Settles O52: removal seals the others and leaves the mark; each phase of a RESYNC changes its die by its packet, and no drop or stamping that
follows changes what the clause is about. -/
theorem diesRemovedAndResynchronised : Obligations.DiesRemovedAndResynchronised := by
  intro s live m clear comes
  refine ⟨?removal, fun die cause => dieRemoval_stays, ?start, ?quiesce, ?report, ?exchange, ?controller, ?clear, ?resume, ?follow, ?rejoin⟩
  case removal =>
    intro die cause hdie hremoved hcause
    obtain ⟨hmarked, hrejoin, hlive⟩ := removalBegun_self s die (min cause.toNat 2)
    refine ⟨_, dieRemoval_removes hdie hremoved hcause, ?_, ?_, ?_, fun d hd hother => ?_⟩
    · rw [removeDie_self, hmarked]
    · rw [removeDie_self, hlive, removalCause_ne_zero]
    · rw [removeDie_self, hrejoin]
    · rw [removeDie_other s die _ hd hother]
      refine ⟨rfl, (mem_liveDies.mp hd).2, fun p hp => ?_, fun p hp => ?_, fun e he hdecoded => sealedDie_early he hdecoded⟩
      · exact bne_iff_ne.mp (List.mem_filter.mp hp).2
      · exact bne_iff_ne.mp (List.mem_filter.mp hp).2
  case start =>
    intro hstart
    refine ⟨_, resyncQuiesce_starts hstart, ?_, fun d hd => ?_⟩
    · rw [announce_die, quiesce, State.die_modDie_self]
    · rw [announce_die, quiesce, State.die_modDie_other _ _ hd]
  case quiesce =>
    intro hstart d i p ⟨hfind, hsrc, hgen⟩
    refine ⟨_, resyncQuiesce_follows hstart hfind hsrc hgen, ?_⟩
    rw [quiesce, State.die_modDie_self, State.die_modDie_self]
    rfl
  case report =>
    intro d hsettled
    refine ⟨_, resyncExchange_reports hsettled, ?_⟩
    rw [State.die_congr (reportDie_dies s d), State.die_modDie_self]
    exact ⟨rfl, rfl, rfl⟩
  case exchange =>
    intro hnone
    refine ⟨fun hlive hall => ?_, fun hall d i p ⟨hfind, hsrc, hgen⟩ => ?_⟩
    · have hkept := (announce_diesAndProgress (logGaps { s with resync := { s.resync with reports := [], cleared := [m] } }) 3).trans
        (diesAndProgress_of_fabric (logGaps_fabric _))
      exact ⟨_, resyncExchange_announces hnone hlive hall, congrArg (fun x => x.2.2) hkept, State.die_congr (congrArg Prod.fst hkept)⟩
    · exact ⟨_, resyncExchange_takes hnone hall hfind hsrc hgen, List.mem_cons_self⟩
  case controller => exact fun hphase hcleared => ⟨_, resyncClear_controller hphase hcleared, clearDie_cleared s m⟩
  case clear =>
    intro hdone d i p ⟨hfind, hsrc, hgen⟩
    refine ⟨resyncClear_other hdone hfind hsrc hgen, fun hd => ?_⟩
    obtain ⟨t, hexec, hcleared⟩ := resyncClear_notes hdone hfind hsrc hgen hd
    exact ⟨t, hexec, by rw [hcleared]; exact List.mem_cons_self⟩
  case resume =>
    intro hlive hall
    obtain ⟨t, hexec, hmarks⟩ := resyncResume_completes hlive hall
    refine ⟨t, hexec, ?_, fun d hd hremoved => ?_⟩
    · rw [(die_of_resyncMarks hmarks m).1, State.die_modDie_self]
    · have hmay : ((mayRejoinAll (announce { s with resync := Resync.init } 4)).die d).mayRejoin = true :=
        mayRejoinAll_removed hd (by rw [announce_die]; exact hremoved)
      rw [(die_of_resyncMarks hmarks d).2]
      by_cases hm : d = m
      · rw [hm] at hmay ⊢
        rw [State.die_modDie_self, hmay]
      · rw [State.die_modDie_other _ _ hm, hmay]
  case follow =>
    intro hall d i p ⟨hfind, hsrc, hgen⟩
    obtain ⟨t, hexec, hmarks⟩ := resyncResume_follows hall hfind hsrc hgen
    exact ⟨t, hexec, by rw [(die_of_resyncMarks hmarks d).1, State.die_modDie_self]⟩
  case rejoin => exact fun die hdie hremoved => ⟨fun hidle hmay => dieRejoin_rejoins hdie hremoved hmay hidle, dieRejoin_stays⟩

end Sys2Proof.Machine
end

section
/-!
PROOFS. The arrival of a barrier (R284, R305, R306, R308): O11.
-/

namespace Sys2Proof.Machine

/-! ### Arrivals in the memory path (R284, R306) -/

/-- Once the accesses of a sequencer have reached the point of R284, so have those issued before any number. -/
theorem seqReachedBefore_of_seqReached {s : State} {c : Nat} (id : Nat) (h : seqReached s c 2 = true) : seqReachedBefore s c id = true := by
  rw [seqReached, List.all_eq_true] at h
  rw [seqReachedBefore, List.all_eq_true]
  intro x hx
  rcases Bool.or_eq_true _ _ ▸ h x hx with hother | hreached
  · rw [hother, Bool.true_or, Bool.true_or]
  · rw [hreached, Bool.or_true]

/-- An arrival behind which nothing is held leaves at once, to a square of its own die. -/
theorem sendArrivals_sole {s : State} {held : List BarMsg} {m : BarMsg} (hmsgs : s.barMsgs = held ++ [m]) (hop : m.op = 4)
    (hheld : ∀ x ∈ held, x.op ≠ 4 ∧ ¬(x.op = 2 ∧ x.n = 0 ∧ x.core = m.core)) (hreached : seqReachedBefore s m.core m.after = true)
    (hhome : m.square / 64 = m.die) : sendArrivals s = { s with barMsgs := held ++ [{ m with op := 0 }] } := by
  have hdue : s.barMsgs.filter (fun x => x.op == 4) = [m] := by
    have hnone : held.filter (fun x => x.op == 4) = [] := List.filter_eq_nil_iff.mpr fun x hx => by simp [(hheld x hx).1]
    rw [hmsgs, List.filter_append, hnone]
    simp [hop]
  have hmem : m ∉ held := fun hm => (hheld m hm).1 hop
  have hfirst : s.barMsgs.takeWhile (fun x => x != m) = held := by
    rw [hmsgs, List.takeWhile_append_of_pos fun x hx => bne_iff_ne.mpr (ne_of_mem_of_not_mem hx hmem)]
    simp
  have hfree : (held.any fun x => behindMsg x m) = false := List.any_eq_false.mpr fun x hx => by
    obtain ⟨harrival, hwithdrawal⟩ := hheld x hx
    simp [behindMsg, harrival, and_assoc, hwithdrawal]
  have hrest : s.barMsgs.erase m = held := by
    rw [hmsgs, List.erase_append_right _ hmem]
    simp
  rw [sendArrivals, hdue, List.foldl_cons, List.foldl_nil, hfirst, hfree, hreached, hrest, hhome]
  simp [sendBar]

/-! ### BARR (R305, R306) -/

/-- The checks of a BARR on its operand: reserved bits, the number of the square in 32 bits, a count of 0 (R306). -/
theorem barrMalformed_iff (v : Word) : v.extractLsb' 32 32 ≠ 0 ∨ v.extractLsb' 8 8 ≠ 0 ∨ v.extractLsb' 16 16 = 0 ↔
    2 ^ 32 ≤ v.toNat ∨ v.toNat / 256 % 256 ≠ 0 ∨ v.toNat / 65536 % 65536 = 0 := by
  have hhigh : v.extractLsb' 32 32 ≠ 0 ↔ 2 ^ 32 ≤ v.toNat := by rw [ne_eq, high_eq_zero_iff, Nat.not_lt]
  have hreserved : v.extractLsb' 8 8 ≠ 0 ↔ v.toNat / 256 % 256 ≠ 0 := field_ne_zero v 8 8
  have hcount : v.extractLsb' 16 16 = 0 ↔ v.toNat / 65536 % 65536 = 0 := not_iff_not.mp (field_ne_zero v 16 16)
  rw [hhigh, hreserved, hcount]

/-- The arrival that a BARR hands to the memory path. -/
def barrArrival (s : State) (v : Word) : BarMsg :=
  { op := 4, square := v.toNat % 256, die := dieOf s.cur.core, core := s.cur.core, chan := s.me.bank, n := v.toNat / 65536 % 65536, ok := false,
    after := s.nextId }

/-- The waiter that a BARR records. -/
def barrWaiter (s : State) (v : Word) : Waiter :=
  { v := v, square := v.toNat % 256, die := dieOf s.cur.core, core := s.cur.core, chan := s.me.bank, woken := false, refused := false }

section
variable {s : State} {a : Reg} (h : s.clear [a])
include h

theorem execBarr_malformed (hnone : myWaiter s = none)
    (hbad : 2 ^ 32 ≤ (s.rd a).toNat ∨ (s.rd a).toNat / 256 % 256 ≠ 0 ∨ (s.rd a).toNat / 65536 % 65536 = 0) :
    execBarr a s = .next (preciseFault s cILLEGAL 0 (s.rd a)) := by
  rw [execBarr, withRegs_clear h]
  simp only [hnone]
  rw [if_pos ((barrMalformed_iff _).mpr hbad)]

theorem execBarr_arrives (hnone : myWaiter s = none)
    (hgood : ¬(2 ^ 32 ≤ (s.rd a).toNat ∨ (s.rd a).toNat / 256 % 256 ≠ 0 ∨ (s.rd a).toNat / 65536 % 65536 = 0))
    (hacq : s.me.acq = none) (hfence : otherFence s.me = false) :
    execBarr a s = .next (stallOn (sendArrivals (raceRelease { s with
      waiters := s.waiters ++ [barrWaiter s (s.rd a)], barMsgs := s.barMsgs ++ [barrArrival s (s.rd a)] } s.cur.core 2)) .square) := by
  have hsquare : ((s.rd a).extractLsb' 0 8).toNat = (s.rd a).toNat % 256 := by simp
  have hcount : ((s.rd a).extractLsb' 16 16).toNat = (s.rd a).toNat / 65536 % 65536 := by simp [Nat.shiftRight_eq_div_pow]
  rw [execBarr, withRegs_clear h]
  simp only [hnone, hacq, hfence, Option.isSome_none, Bool.false_eq_true, if_false, hsquare, hcount]
  rw [if_neg (mt (barrMalformed_iff _).mp hgood)]
  rfl

variable {w : Waiter} (hw : myWaiter s = some w)
include hw

theorem execBarr_refused (hr : w.refused = true) :
    execBarr a s = .next (preciseFault { s with waiters := dropFirst (fun x => x == w) s.waiters } cILLEGAL 0 w.v) := by
  rw [execBarr, withRegs_clear h]
  simp only [hw, hr, if_true]

theorem execBarr_woken (hr : w.refused = false) (hk : w.woken = true) :
    execBarr a s = .next (advance { s with waiters := dropFirst (fun x => x == w) s.waiters } id) := by
  rw [execBarr, withRegs_clear h]
  simp only [hw, hr, hk, Bool.false_eq_true, if_false, if_true]

theorem execBarr_waits (hr : w.refused = false) (hk : w.woken = false) : execBarr a s = .next (stallOn s .square) := by
  rw [execBarr, withRegs_clear h]
  simp only [hw, hr, hk, Bool.false_eq_true, if_false]

end

/-- Settles O11: the checks of a first BARR, its arrival that nothing holds back, and the three ways in which it is executed again. -/
theorem barrierArrival : Obligations.BarrierArrival := by
  intro s a h c v sq n bad w m
  refine ⟨fun hnone => ⟨execBarr_malformed h hnone, fun hgood hacq hfence hreached hheld hhome => ?_⟩, fun x hx => ⟨?_, ?_, ?_⟩⟩
  · refine (execBarr_arrives h hnone hgood hacq hfence).trans (congrArg (fun t => Host.Outcome.next (stallOn t .square)) ?_)
    exact sendArrivals_sole (m := barrArrival s v) rfl rfl hheld (seqReachedBefore_of_seqReached _ hreached) hhome
  · exact execBarr_woken h hx
  · exact execBarr_refused h hx
  · exact execBarr_waits h hx

end Sys2Proof.Machine
end

section
/-!
PROOFS. Atomic commands: a REDV to a die that has been removed (R273, R298): O39; how they end and what each operation computes (R296, R299): O40.
-/

namespace Sys2Proof.Machine

/-! ### A REDV to a lost home (R273, R298) -/

/-- A writable 2 MiB page at address 0 whose bytes die 1 holds. -/
def pageOfDie1 : TcEntry :=
  { root := 0, page := 0, size := 2, pa := 0, host := false, place := 0, homedie := 1, sa := false, wb := false, ac := false, rw := false,
    wr := true, nf := false }

/-- A valid tile of one row that the sequencer may access. -/
def oneRowTile : Tile := { Tile.init with valid := true, rows := 1, rowb := 64 }

/-- Core 0 holds an armed plot, a tile under handle 3 and a translation to die 1, which has been removed. -/
def lostHome : State :=
  ((State.reset.withFetchWord 32 0).modCore 0 fun k => { k with tcache := [(0, [pageOfDie1])], tiles := [(3, oneRowTile)] }).modDie 1
    fun d => { d with removed := true }

theorem translate_lostHome : (translate lostHome 0 (coreRoot lostHome 0) 0 true false).1 = .hit pageOfDie1 := by decide +kernel

theorem translatePages_lostHome : (translatePages lostHome (pagesOf 0 64)).2.toOption = some [pageOfDie1] := by decide +kernel

/-- A check that passes answers with what it found. -/
theorem eq_ok_of_toOption {α ε β : Type} {x : α × Except ε β} {b : β} (h : x.2.toOption = some b) : ∃ a, x = (a, .ok b) := by
  obtain ⟨a, e | c⟩ := x
  · cases h
  · cases h
    exact ⟨a, rfl⟩

/-- The commands that the acting core has outstanding after an instruction. -/
def outstandingAfter (r : Res) : Option Nat :=
  match r with
  | .next t => some t.me.cmds.length
  | _ => none

/-- The packet of the row is dropped, which ends the plot with CAUSALGAP; the sweep abandons the command just accepted (R207, R273, R419). -/
theorem redv_lostHome : outstandingAfter (exec (.redv 0 0 3 0 0) lostHome) = some 0 := by decide +kernel

/-- Refutes O39: in `lostHome` a REDV whose checks all pass leaves no command outstanding, where the statement wants one more than before. -/
theorem not_atomicCommandsSent : ¬ Obligations.AtomicCommandsSent := by
  intro h
  obtain ⟨u, hpages⟩ := eq_ok_of_toOption translatePages_lostHome
  obtain ⟨-, -, -, -, hsent, -⟩ := h lostHome _ 0 false true 0 3 0 0 pageOfDie1 rfl rfl (Prod.ext translate_lostHome rfl)
  obtain ⟨v, hexec, hlength⟩ := hsent (by decide +kernel) (by decide +kernel) (by decide +kernel) rfl u _ hpages (by decide)
  have hnone := redv_lostHome
  rw [hexec] at hnone
  exact Nat.succ_ne_zero _ (hlength.symm.trans (Option.some.inj hnone))

/-! ### The end of AMO and AMOC (R299) -/

section
variable {s : State} {a : Access} (hone : cmdAccs s = [a]) (hphase : a.phase = .returned)
include hone hphase

theorem atomicDone_failed (back : Option Nat) (result : List Byte → Access → W32) (hcode : a.code ≠ 0) :
    atomicDone s back result = finishCmd (dropCmdAccs s) s.cur.core s.cur.slot a.code 0 := by
  simp only [atomicDone, hone, List.head?_cons, hphase, bne_self_eq_false, Bool.false_eq_true, if_false]
  exact if_pos hcode

variable (hcode : a.code = 0) (result : List Byte → Access → W32)
include hcode

theorem atomicDone_kept (addr : Nat) : atomicDone s (some addr) result =
    finishCmd ((dropCmdAccs s).modMe fun k => { k with lmem := mwrite k.lmem addr a.value }) s.cur.core s.cur.slot 0 (result a.value a) := by
  simp only [atomicDone, hone, List.head?_cons, hphase, bne_self_eq_false, Bool.false_eq_true, if_false]
  exact if_neg (not_not.mpr hcode)

theorem atomicDone_answered : atomicDone s none result = finishCmd (dropCmdAccs s) s.cur.core s.cur.slot 0 (result a.value a) := by
  simp only [atomicDone, hone, List.head?_cons, hphase, bne_self_eq_false, Bool.false_eq_true, if_false]
  exact if_neg (not_not.mpr hcode)

end

/-! ### The end of RED and REDV (R298, R299) -/

section
variable {s : State} {cmd : Cmd} (hcmd : (s.core s.cur.core).cmd s.cur.slot = some cmd) (hphase : cmd.phase = .accepted)
include hcmd hphase

/-- Every row has been performed without error. -/
theorem reduceDone_performed (hall : ∀ x ∈ cmdAccs s, accPerformed x = true ∧ x.code = 0) :
    reduceDone s = finishCmd (dropCmdAccs s) s.cur.core s.cur.slot cmd.code 0 := by
  have hgood : (cmdAccs s).find? (fun a => a.code ≠ 0) = none := List.find?_eq_none.mpr fun x hx => by simp [(hall x hx).2]
  have hperformed : (cmdAccs s).all accPerformed = true := List.all_eq_true.mpr fun x hx => (hall x hx).1
  simp only [reduceDone, hcmd, hphase, hgood, hperformed]
  rfl

/-- The first row that failed ends the command once the rows before it have been performed. -/
theorem reduceDone_failed {pre post : List Access} {bad : Access} (haccs : cmdAccs s = pre ++ bad :: post) (hbad : bad.code ≠ 0)
    (hpre : ∀ x ∈ pre, x.code = 0) :
    reduceDone s = if pre.all accPerformed then finishCmd (dropCmdAccs s) s.cur.core s.cur.slot bad.code 0 else s := by
  have hfirst : (cmdAccs s).find? (fun a => a.code ≠ 0) = some bad :=
    List.find?_eq_some_iff_append.mpr ⟨by simpa using hbad, pre, post, haccs, fun x hx => by simp [hpre x hx]⟩
  have hbefore : (cmdAccs s).takeWhile (fun x => x.code == 0) = pre := by
    rw [haccs, List.takeWhile_append_of_pos fun x hx => by simp [hpre x hx]]
    exact List.append_right_eq_self.mpr (List.takeWhile_cons_of_neg (mt eq_of_beq hbad))
  simp only [reduceDone, hcmd, hphase, hfirst, hbefore]
  rfl

end

/-! ### The operations (R296) -/

theorem atomicOp_smin (w old v : Nat) : signed w (atomicOp 2 w old v) = min (signed w old) (signed w v) := by
  rw [min_def, atomicOp, apply_ite (signed w)]

theorem atomicOp_smax (w old v : Nat) : signed w (atomicOp 3 w old v) = max (signed w old) (signed w v) := by
  rw [max_comm, max_def, atomicOp, apply_ite (signed w)]

theorem atomicOp_bits (w old v b : Nat) : (atomicOp 6 w old v).testBit b = (old.testBit b && v.testBit b) ∧
    (atomicOp 7 w old v).testBit b = (old.testBit b || v.testBit b) ∧ (atomicOp 8 w old v).testBit b = (old.testBit b ^^ v.testBit b) :=
  ⟨Nat.testBit_and .., Nat.testBit_or .., Nat.testBit_xor ..⟩

/-! ### An executor's turn on an atomic command -/

section
variable {s : State} (hslot : s.cur.slot ≠ 0) (ord : BitVec 2) (lm dw : Bool) (op : BitVec 4) (addr : Word) (b2 : BitVec 32)
include hslot

theorem issuing_eq_false : issuing s = false := beq_eq_false_iff_ne.mpr hslot

theorem exec_amo_turn : exec (.amo ord lm dw op addr b2) s =
    .next (atomicDone s (if lm then some b2.toNat else none) fun v _ => leBv 32 (v.take 4)) :=
  congrArg Host.Outcome.next (if_neg (by simp [issuing_eq_false hslot]))

theorem exec_amoc_turn : exec (.amoc ord dw addr b2) s = .next (atomicDone s (some b2.toNat) fun v a => if v = a.cmp then 1 else 0) :=
  congrArg Host.Outcome.next (if_neg (by simp [issuing_eq_false hslot]))

theorem exec_red_turn : exec (.red ord lm dw op addr b2) s = .next (reduceDone s) :=
  congrArg Host.Outcome.next (if_neg (by simp [issuing_eq_false hslot]))

theorem exec_redv_turn (h : BitVec 6) : exec (.redv ord op h addr b2) s = .next (reduceDone s) :=
  congrArg Host.Outcome.next (if_pos (by simp [issuing_eq_false hslot]))

end

/-- Settles O40: an executor's turn on an atomic command is `atomicDone` or `reduceDone`, and each operation is a case of `atomicOp`. -/
theorem atomicCommandsEnd : Obligations.AtomicCommandsEnd := by
  refine ⟨?ends, fun w old v c _ _ _ => ?operations⟩
  case ends =>
    intro s ord lm dw op h addr b2 a hslot c t kept
    rw [exec_amo_turn hslot, exec_amoc_turn hslot, exec_red_turn hslot, exec_redv_turn hslot]
    refine ⟨fun hone hphase => ⟨fun hcode => ⟨congrArg Host.Outcome.next ?amo, congrArg Host.Outcome.next ?amoc⟩, fun hcode => ?failed⟩,
      fun cmd hcmd hphase hall => ?reduced, fun cmd pre bad post hcmd hphase haccs hbad hpre => ?stopped⟩
    case amo =>
      cases lm with
      | false => exact atomicDone_answered hone hphase hcode _
      | true => exact atomicDone_kept hone hphase hcode _ _
    case amoc => exact atomicDone_kept hone hphase hcode _ _
    case failed =>
      exact ⟨congrArg Host.Outcome.next (atomicDone_failed hone hphase _ _ hcode),
        congrArg Host.Outcome.next (atomicDone_failed hone hphase _ _ hcode)⟩
    case reduced =>
      rw [reduceDone_performed hcmd hphase hall]
      exact ⟨rfl, rfl⟩
    case stopped =>
      rw [reduceDone_failed hcmd hphase haccs hbad hpre]
      refine ⟨fun hall => congrArg Host.Outcome.next (if_pos (List.all_eq_true.mpr hall)),
        fun ⟨x, hx, hout⟩ => congrArg Host.Outcome.next (if_neg fun hall => ?_)⟩
      exact Bool.false_ne_true (hout.symm.trans (List.all_eq_true.mp hall x hx))
  case operations =>
    exact ⟨rfl, rfl, atomicOp_smin w old v, atomicOp_smax w old v, rfl, rfl, atomicOp_bits w old v, rfl, if_pos rfl, fun hne => if_neg hne.symm⟩

end Sys2Proof.Machine
end

section
/-!
PROOFS. Matrix commands: acceptance (R314 to R316, R333), the start of a group (R315, R327, R329), its waves, and the commit (R322, R336): O33.
-/

namespace Sys2Proof.Machine

/-! ### Acceptance (R333) -/

theorem issuing_eq_true {s : State} (hslot : s.cur.slot = 0) : issuing s = true := beq_iff_eq.mpr hslot

/-- A matrix command of one core has that core for its group (R329). -/
theorem mGroup_single (s : State) (core : Nat) {i : MInfo} (hone : i.kind ≠ .mcoop) : mGroup s core i = some [core] :=
  if_pos (bne_iff_ne.mpr hone)

/-- The weight descriptor that the acceptance of a matrix command reads (R328). -/
abbrev weightDesc (s : State) (i : MInfo) : List Byte := if i.kind == .mmv then descriptor s (i.b.toNat % Config.localBytes) 16 else []

section
variable {s : State} {x : Instr} {i : MInfo} {b0 b2 : W32} (hslot : s.cur.slot = 0) (hi : mInfo x = some i)
include hslot hi

theorem matrixCmd_full {m : Nat} (hfull : matrixFull s s.cur.core i = some m) : matrixCmd s x b0 b2 = .next (acceptStall s (.matrix m)) := by
  simp only [matrixCmd, issuing_eq_true hslot, hi, hfull, Bool.not_true, Bool.false_eq_true, if_false]

variable (hroom : matrixFull s s.cur.core i = none)
include hroom

theorem matrixCmd_passes {t : State} (hcheck : matrixCheck s s.cur.core i b0 b2 (weightDesc s i) = .ok t) :
    matrixCmd s x b0 b2 = .next (matrixEnqueue (accept t (weightDesc s i) 0) s.cur.core (newId t) i) := by
  simp only [matrixCmd, issuing_eq_true hslot, hi, hroom, hcheck, Bool.not_true, Bool.false_eq_true, if_false]

theorem matrixCmd_fails {t : State} {code : Byte} {d : Nat} {v : Word} (hcheck : matrixCheck s s.cur.core i b0 b2 (weightDesc s i) = .bad t code d v) :
    matrixCmd s x b0 b2 = .next (acceptFault t code d v) := by
  simp only [matrixCmd, issuing_eq_true hslot, hi, hroom, hcheck, Bool.not_true, Bool.false_eq_true, if_false]

end

/-- What the acceptance of a matrix command answers (R333). -/
theorem matrixCmd_answers {s : State} {x : Instr} {i : MInfo} {b0 b2 : W32} (hslot : s.cur.slot = 0) (hi : mInfo x = some i)
    (hexec : exec x s = matrixCmd s x b0 b2) :
    ((∀ t, matrixFull s s.cur.core i = none → matrixCheck s s.cur.core i b0 b2 (weightDesc s i) = .ok t →
        exec x s = .next (matrixEnqueue (accept t (weightDesc s i) 0) s.cur.core (newId t) i)) ∧
      (∀ t code d v, matrixFull s s.cur.core i = none → matrixCheck s s.cur.core i b0 b2 (weightDesc s i) = .bad t code d v →
        exec x s = .next (acceptFault t code d v))) ∧
      ∀ m, matrixFull s s.cur.core i = some m → exec x s = .next (acceptStall s (.matrix m)) := by
  rw [hexec]
  exact ⟨⟨fun _ hroom hc => matrixCmd_passes hslot hi hroom hc, fun _ _ _ _ hroom hc => matrixCmd_fails hslot hi hroom hc⟩,
    fun _ hfull => matrixCmd_full hslot hi hfull⟩

/-! ### ACLR (R330) -/

/-- The fields of an ACLR. -/
def aclrFields (acc : BitVec 2) (b0 : W32) : MInfo := { MInfo.init with kind := .aclr, acc := acc.toNat, ver := b0.extractLsb' 12 8 }

theorem mGroup_aclr (s : State) (core : Nat) (acc : BitVec 2) (b0 : W32) : mGroup s core (aclrFields acc b0) = some [core] :=
  mGroup_single s core MKind.noConfusion

section
variable {s : State} {acc : BitVec 2} {b0 : W32}

theorem matrixFull_aclr (hroom : s.me.mat.queue.length < queueDepth) : matrixFull s s.cur.core (aclrFields acc b0) = none := by
  simpa [matrixFull, mGroup_aclr] using hroom

theorem matrixCheck_aclr (hb0 : b0 &&& ~~~0x000FF000#32 = 0) : matrixCheck s s.cur.core (aclrFields acc b0) b0 0 [] = .ok s := by
  have hfield : mFieldFault s.cur.core (aclrFields acc b0) b0 0 = none := if_neg (not_not_intro hb0)
  simp only [matrixCheck, hfield, mGroup_aclr]
  rfl

theorem exec_aclr_accepted (hslot : s.cur.slot = 0) (hroom : s.me.mat.queue.length < queueDepth) (hb0 : b0 &&& ~~~0x000FF000#32 = 0) :
    exec (.aclr acc b0) s = .next ((accept s [] 0).modMat s.cur.core fun m => { m with queue := m.queue ++ [(s.cur.core, newId s)] }) :=
  matrixCmd_passes (x := .aclr acc b0) hslot rfl (matrixFull_aclr hroom) (matrixCheck_aclr hb0)

end

/-- Acceptance adds one outstanding command to the acting core and leaves its operator alone. -/
theorem accept_cmds_mat (s : State) (desc : List Byte) (prog : Nat) :
    (accept s desc prog).me.cmds.length = s.me.cmds.length + 1 ∧ (accept s desc prog).me.mat = s.me.mat := by
  cases hr : s.cur.replay with
  | none =>
    rw [accept_me desc prog hr, Core.finish_cmds, Core.finish_frame]
    exact ⟨List.length_append, rfl⟩
  | some r =>
    simp only [accept, hr]
    rw [me_modMe]
    exact ⟨List.length_append, rfl⟩

theorem accept_cur (s : State) (desc : List Byte) (prog : Nat) : (accept s desc prog).cur = s.cur := by
  unfold accept
  split <;> rfl

/-- A matrix operator changed on the acting core. -/
theorem me_modMat {s : State} {c : Nat} (hc : s.cur.core = c) (f : Matrix → Matrix) : (s.modMat c f).me = { s.me with mat := f s.me.mat } := by
  subst hc
  exact State.core_modCore_self ..

/-- An accepted ACLR becomes outstanding and the youngest of its operator's queue (R314). -/
theorem aclr_enqueued {s : State} {acc : BitVec 2} {b0 : W32} (hslot : s.cur.slot = 0) (hroom : s.me.mat.queue.length < queueDepth)
    (hb0 : b0 &&& ~~~0x000FF000#32 = 0) :
    ∃ t, exec (.aclr acc b0) s = .next t ∧ t.me.cmds.length = s.me.cmds.length + 1 ∧
      t.me.mat = { s.me.mat with queue := s.me.mat.queue ++ [(s.cur.core, newId s)] } := by
  obtain ⟨hcmds, hmat⟩ := accept_cmds_mat s [] 0
  refine ⟨_, exec_aclr_accepted hslot hroom hb0, ?_, ?_⟩
  all_goals rw [me_modMat (congrArg Ctx.core (accept_cur s [] 0))]
  · exact hcmds
  · rw [hmat]

/-! ### The start of a group (R315, R327, R329) -/

section
variable {s : State} {core : Nat} {e : Nat × Nat} {c : Cmd} {i : MInfo} {group : List Nat} (hgrant : (s.core core).mat.grant = some e)
  (hcmd : mCommand s e = some (c, i)) (hgroup : mGroup s e.1 i = some group)

/-- Every core of a group holds the grant of its command and finds it ready. -/
def groupReady (s : State) (e : Nat × Nat) (group : List Nat) : Prop :=
  ∀ x ∈ group, (s.core x).mat.run = none ∧ (s.core x).mat.grant = some e ∧ mReady s x e = true

/-- Each stream that a command uses has its slot in the bay (R332). -/
def streamsFed (s : State) (core : Nat) (i : MInfo) : Prop :=
  (i.sa = true → findSlot s core 3 0 ≠ none) ∧ (i.sb = true → findSlot s core 4 0 ≠ none) ∧
    (i.kind = .ard → i.tile = false → findSlot s core 5 0 ≠ none)

/-- The state in which a granted command runs. -/
abbrev runningCmd (s : State) (e : Nat × Nat) : State := modCmd s e.1 e.2 fun y => { y with phase := .running }

theorem groupReady_iff : (group.all fun x => (s.core x).mat.run.isNone && (s.core x).mat.grant == some e && mReady s x e) = true ↔ groupReady s e group := by
  simp only [groupReady, List.all_eq_true, Bool.and_eq_true, Option.isNone_iff_eq_none, beq_iff_eq, and_assoc]

theorem streamsFed_iff : ((i.sa && (findSlot s core 3 0).isNone) || (i.sb && (findSlot s core 4 0).isNone) ||
    (i.kind == .ard && !i.tile && (findSlot s core 5 0).isNone)) = false ↔ streamsFed s core i := by
  simp only [streamsFed, Bool.or_eq_false_iff, Bool.and_eq_false_imp, Bool.and_eq_true, Bool.not_eq_true', beq_iff_eq, ne_eq,
    Option.isNone_eq_false_iff, Option.isSome_iff_ne_none, and_assoc, and_imp]

include hgrant hcmd hgroup

theorem matrixStart_waits (hnot : ¬groupReady s e group) : execMatrixStart core s = .next s := by
  simp only [execMatrixStart, hgrant, hcmd, hgroup, Option.getD_some, Bool.eq_false_iff.mpr fun h => hnot (groupReady_iff.mp h), Bool.not_false, if_true]

variable (hready : groupReady s e group)
include hready

theorem matrixStart_unfed (hnot : ¬streamsFed (runningCmd s e) core i) :
    execMatrixStart core s = .next (matrixFault (runningCmd s e) e.1 e.2 i cFORMAT 0 0) := by
  simp only [execMatrixStart, hgrant, hcmd, hgroup, Option.getD_some, groupReady_iff.mpr hready, Bool.not_true, Bool.false_eq_true, if_false,
    Bool.of_not_eq_false fun h => hnot (streamsFed_iff.mp h), if_true]

variable (hfed : streamsFed (runningCmd s e) core i)
include hfed

theorem matrixStart_runs {u : State} {arows crows : List (Option Nat)} (hrows : runRows (runningCmd s e) e.1 i = (u, .ok (arows, crows))) :
    execMatrixStart core s = .next (group.foldl (fun v x => startRun v x e i arows crows) u) := by
  simp only [execMatrixStart, hgrant, hcmd, hgroup, Option.getD_some, groupReady_iff.mpr hready, streamsFed_iff.mpr hfed, hrows, Bool.not_true,
    Bool.false_eq_true, if_false]

theorem matrixStart_rowFault {u : State} {f : OpFault} (hrows : runRows (runningCmd s e) e.1 i = (u, .error f)) :
    execMatrixStart core s = .next (matrixFault u e.1 e.2 i f.1 f.2.1 f.2.2) := by
  simp only [execMatrixStart, hgrant, hcmd, hgroup, Option.getD_some, groupReady_iff.mpr hready, streamsFed_iff.mpr hfed, hrows, Bool.not_true,
    Bool.false_eq_true, if_false]

end

theorem matrixStart_ungranted {s : State} {core : Nat} (hgrant : (s.core core).mat.grant = none) : execMatrixStart core s = .next s := by
  simp only [execMatrixStart, hgrant]

/-- A command without an index vector runs over the rows of its operand in order (R327). -/
theorem runRows_plain (s : State) (core : Nat) {i : MInfo} (hg : i.g = none) :
    runRows s core i = (s, .ok ((List.range 64).map fun x => some (opRow i.a + x), (List.range 64).map some)) := by
  simp only [runRows, hg]

/-- A command of one core without streams and index vectors starts there. -/
theorem matrixStart_single {s : State} {core : Nat} {e : Nat × Nat} {c : Cmd} {i : MInfo} (hgrant : (s.core core).mat.grant = some e)
    (hcore : e.1 = core) (hcmd : mCommand s e = some (c, i)) (hidle : (s.core core).mat.run = none) (hready : mReady s core e = true)
    (hone : i.kind ≠ .mcoop) (hsa : i.sa = false) (hsb : i.sb = false) (hard : i.kind ≠ .ard ∨ i.tile = true) (hg : i.g = none) :
    execMatrixStart core s = .next (startRun (modCmd s core e.2 fun y => { y with phase := .running }) core e i
      ((List.range 64).map fun x => some (opRow i.a + x)) ((List.range 64).map some)) := by
  subst hcore
  refine matrixStart_runs hgrant hcmd (mGroup_single s e.1 hone) (fun x hx => ?_) ⟨?_, ?_, fun hk ht => ?_⟩ (runRows_plain _ e.1 hg)
  · rw [List.mem_singleton.mp hx]
    exact ⟨hidle, hgrant, hready⟩
  · exact fun h => absurd (hsa.symm.trans h) Bool.false_ne_true
  · exact fun h => absurd (hsb.symm.trans h) Bool.false_ne_true
  · exact absurd (ht.symm.trans (hard.resolve_left (not_not_intro hk))) Bool.false_ne_true

/-! ### A wave step (R322) -/

theorem matrixWaveStep_idle {s : State} {core : Nat} (hrun : (s.core core).mat.run = none) : execMatrixWaveStep core s = .next s := by
  simp only [execMatrixWaveStep, hrun]

theorem matrixWaveStep_chunk {s : State} {core : Nat} {r : MRun} {c : Cmd} {i : MInfo} (hrun : (s.core core).mat.run = some r)
    (hcmd : mCommand s (r.core, r.id) = some (c, i)) (hout : r.out = []) (hsa : i.sa = false) (hsb : i.sb = false) (hchunk : r.chunk < chunks i) :
    execMatrixWaveStep core s = .next (waveStep s core r i) := by
  simp only [execMatrixWaveStep, hrun, hcmd, hout, hsa, hsb, hchunk, Bool.false_and, Bool.false_eq_true, if_false, if_true]

/-! ### The commit (R329, R336) -/

theorem matrixCommit_idle {s : State} {core : Nat} (hrun : (s.core core).mat.run = none) : execMatrixCommit core s = .next s := by
  simp only [execMatrixCommit, hrun]

/-- Core `x` has done its part `y` of the command that `r` works on. -/
def partDone (s : State) (r : MRun) (i : MInfo) (x : Nat) (y : MRun) : Prop :=
  (s.core x).mat.run = some y ∧ y.core = r.core ∧ y.id = r.id ∧ runDone y i = true

/-- The part of a core, once it is done. -/
def donePart (s : State) (r : MRun) (i : MInfo) (x : Nat) : Option (Nat × MRun) :=
  ((s.core x).mat.run.filter fun y => y.core == r.core && y.id == r.id && runDone y i).map fun y => (x, y)

theorem donePart_eq_some {s : State} {r : MRun} {i : MInfo} {x : Nat} {y : MRun} : donePart s r i x = some (x, y) ↔ partDone s r i x y := by
  simp [donePart, partDone, Option.filter_eq_some_iff, and_assoc]

theorem donePart_eq_none {s : State} {r : MRun} {i : MInfo} {x : Nat} : donePart s r i x = none ↔ ∀ y, ¬partDone s r i x y := by
  simp [donePart, partDone, Option.filter_eq_none_iff]

/-- Parts found for every element, in order. -/
theorem filterMap_eq_zip {α β : Type} {f : α → Option (α × β)} : ∀ {l : List α} {ys : List β}, ys.length = l.length →
    (∀ p ∈ l.zip ys, f p.1 = some p) → l.filterMap f = l.zip ys
  | [], [], _, _ => rfl
  | x :: xs, y :: ys, hlen, h => by
    rw [List.zip_cons_cons, List.filterMap_cons_some (h (x, y) List.mem_cons_self)]
    exact congrArg _ (filterMap_eq_zip (Nat.succ.inj hlen) fun p hp => h p (List.mem_cons_of_mem _ hp))

theorem donePart_all {s : State} {r : MRun} {i : MInfo} {group : List Nat} {runs : List MRun} (hlen : runs.length = group.length)
    (hdone : ∀ x ∈ group.zip runs, partDone s r i x.1 x.2) : group.filterMap (donePart s r i) = group.zip runs :=
  filterMap_eq_zip hlen fun p hp => donePart_eq_some.mpr (hdone p hp)

/-- The accumulators of a group become visible, its version counters advance, and its operators are free (R336). -/
def commitRuns (s : State) (core : Nat) (i : MInfo) (w : Tbl W32) (parts : List (Nat × MRun)) : State :=
  parts.foldl (fun v x => v.modMat x.1 fun m =>
    { m with accs := if x.1 = core then w else x.2.work, vers := tmod 0 m.vers i.acc (· + 1), run := none, grant := none }) s

section
variable {s : State} {core : Nat} {r : MRun} {c : Cmd} {i : MInfo} {group : List Nat} (hrun : (s.core core).mat.run = some r)
  (hcmd : mCommand s (r.core, r.id) = some (c, i)) (hgroup : mGroup s r.core i = some group)
include hrun hcmd hgroup

theorem matrixCommit_waits {x : Nat} (hx : x ∈ group) (hnot : ∀ y, ¬partDone s r i x y) : execMatrixCommit core s = .next s := by
  have hless : (group.filterMap (donePart s r i)).length < group.length :=
    List.length_filterMap_lt_length_iff_exists.mpr ⟨x, hx, donePart_eq_none.mpr hnot⟩
  simp only [execMatrixCommit, hrun, hcmd, hgroup, Option.getD_some]
  exact congrArg Host.Outcome.next (if_pos hless)

variable {runs : List MRun} (hlen : runs.length = group.length) (hdone : ∀ x ∈ group.zip runs, partDone s r i x.1 x.2)
include hlen hdone

theorem matrixCommit_fails {t : State} {f : OpFault} (htile : commitTile s core r i = (t, .error f)) :
    execMatrixCommit core s = .next (matrixFault t r.core r.id i f.1 f.2.1 f.2.2) := by
  have hall := donePart_all hlen hdone
  have hfull : ¬(group.zip runs).length < group.length := by simp [hlen]
  unfold donePart at hall
  simp only [execMatrixCommit, hrun, hcmd, hgroup, Option.getD_some, hall, hfull, htile, if_false]

theorem matrixCommit_done {t : State} {w : Tbl W32} (htile : commitTile s core r i = (t, .ok w)) :
    execMatrixCommit core s = .next (finishCmd (releaseHolds (commitRuns t core i w (group.zip runs)) r.core i.handles) r.core r.id 0
      (BitVec.ofNat 32 (if i.kind = .ard ∧ i.tile = true then 0 else (runs.map fun y => y.steps).sum))) := by
  have hall := donePart_all hlen hdone
  have hfull : ¬(group.zip runs).length < group.length := by simp [hlen]
  have hsteps : (group.zip runs).map (fun x => x.2.steps) = runs.map fun y => y.steps :=
    (List.map_map (l := group.zip runs) (f := Prod.snd) (g := MRun.steps)).symm.trans (congrArg _ (List.map_snd_zip hlen.le))
  unfold donePart at hall
  simp only [execMatrixCommit, hrun, hcmd, hgroup, Option.getD_some, hall, hfull, htile, hsteps, if_false, Bool.and_eq_true, beq_iff_eq]
  rfl

end

theorem runDone_iff {r : MRun} {i : MInfo} : runDone r i = true ↔ chunks i ≤ r.chunk ∧ r.out = [] := by
  simp [runDone]

/-- Only a command that moves tile rows at its commit does more there than make its work visible. -/
theorem commitTile_compute (s : State) (core : Nat) (r : MRun) {i : MInfo} (hkind : i.kind = .mma ∨ i.kind = .mmv ∨ i.kind = .aclr) :
    commitTile s core r i = (s, .ok r.work) := by
  obtain h | h | h := hkind <;> simp only [commitTile, h]

section
variable {s : State} {core : Nat} {r : MRun} {c : Cmd} {i : MInfo} (hrun : (s.core core).mat.run = some r) (hcore : r.core = core)
  (hcmd : mCommand s (core, r.id) = some (c, i)) (hone : i.kind ≠ .mcoop)
include hrun hcore hcmd hone

/-- A command of one core that has done its chunks and emptied its output commits. -/
theorem matrixCommit_single (hout : r.out = []) (hchunks : chunks i ≤ r.chunk) (hkind : i.kind = .mma ∨ i.kind = .mmv ∨ i.kind = .aclr) :
    execMatrixCommit core s = .next (finishCmd (releaseHolds (s.modMat core fun m =>
      { m with accs := r.work, vers := tmod 0 m.vers i.acc (· + 1), run := none, grant := none }) core i.handles) core r.id 0
      (BitVec.ofNat 32 r.steps)) := by
  subst hcore
  have hard : ¬(i.kind = .ard ∧ i.tile = true) := by
    obtain h | h | h := hkind <;> simp [h]
  have hpart : ∀ x ∈ [r.core].zip [r], partDone s r i x.1 x.2 := by
    simpa [partDone, hrun] using runDone_iff.mpr ⟨hchunks, hout⟩
  rw [matrixCommit_done hrun hcmd (mGroup_single s r.core hone) rfl hpart (commitTile_compute s r.core r hkind), if_neg hard]
  simp [commitRuns]

/-- While a token of its result is left the command does not commit. -/
theorem matrixCommit_unfinished (hout : r.out ≠ []) : execMatrixCommit core s = .next s := by
  subst hcore
  refine matrixCommit_waits hrun hcmd (mGroup_single s r.core hone) (List.mem_singleton_self r.core) fun y hy => ?_
  obtain ⟨hyrun, -, -, hydone⟩ := hy
  cases hrun.symm.trans hyrun
  exact hout (runDone_iff.mp hydone).2

end

/-- Settles O33, from what acceptance, MATRIX_START, MATRIX_WAVE_STEP and MATRIX_COMMIT each do. -/
theorem matrixCommands : Obligations.MatrixCommands := by
  refine ⟨?accept, ?single, ?start, ?commit⟩
  case accept =>
    intro s acc z sb sa scat gr bar eoi clr tile ty gc g sc b0 b1 b2 hslot c
    refine ⟨?_, fun hroom hb0 => aclr_enqueued hslot hroom hb0⟩
    simp only [List.forall_mem_cons]
    refine ⟨?_, ?_, ?_, ?_, ?_, ?_, ?_, List.forall_mem_nil _⟩ <;> exact ⟨_, rfl, rfl, rfl, matrixCmd_answers hslot rfl rfl⟩
  case single =>
    intro s core c i hone mat
    refine ⟨fun e hgrant hcore hcmd hidle hready hsa hsb hard hg => matrixStart_single hgrant hcore hcmd hidle hready hone hsa hsb hard hg,
      fun r hrun hcore hcmd => ⟨fun hout hsa hsb hchunk => ?_, fun hout hchunks hkind => matrixCommit_single hrun hcore hcmd hone hout hchunks hkind,
        fun _ hout => matrixCommit_unfinished hrun hcore hcmd hone hout⟩,
      fun hrun => ⟨matrixWaveStep_idle hrun, matrixCommit_idle hrun⟩, matrixStart_ungranted⟩
    subst hcore
    exact matrixWaveStep_chunk hrun hcmd hout hsa hsb hchunk
  case start =>
    intro s core e c i group hgrant hcmd hgroup t ready fed
    refine ⟨fun hone => ?_, matrixStart_waits hgrant hcmd hgroup, matrixStart_unfed hgrant hcmd hgroup, fun hready hfed =>
      ⟨fun u arows crows => matrixStart_runs hgrant hcmd hgroup hready hfed, fun u f => matrixStart_rowFault hgrant hcmd hgroup hready hfed⟩⟩
    exact Option.some.inj (hgroup.symm.trans (mGroup_single s e.1 hone))
  case commit =>
    intro s core r c i group hrun hcmd hgroup part
    refine ⟨fun ⟨x, hx, hnot⟩ => matrixCommit_waits hrun hcmd hgroup hx hnot, fun runs hlen hdone =>
      ⟨fun t w htile => matrixCommit_done hrun hcmd hgroup hlen hdone htile, fun t f htile => matrixCommit_fails hrun hcmd hgroup hlen hdone htile⟩⟩

end Sys2Proof.Machine
end

section
/-!
PROOFS. The accumulation of a chunk (R321 to R323, R326): O34.
-/

namespace Sys2Proof.Machine

/-! ### Folds of changes to different entries of a table -/

section
variable {α ι : Type} [DecidableEq α] (d : α) {key : ι → Nat} (f : ι → α → α)

theorem tget_foldl_changes_other {l : List ι} {k : Nat} (hk : ∀ p ∈ l, k ≠ key p) (t : Tbl α) :
    tget d (l.foldl (fun t p => tmod d t (key p) (f p)) t) k = tget d t k :=
  List.foldlRecOn l _ (motive := fun u => tget d u k = tget d t k) rfl fun _ hu p hp => (tget_tmod_other d _ _ (hk p hp)).trans hu

theorem tget_foldl_changes_self {l : List ι} (hl : (l.map key).Nodup) {p : ι} (hp : p ∈ l) (t : Tbl α) :
    tget d (l.foldl (fun t p => tmod d t (key p) (f p)) t) (key p) = f p (tget d t (key p)) := by
  obtain ⟨pre, post, rfl⟩ := List.append_of_mem hp
  rw [List.map_append, List.map_cons, List.nodup_middle, List.nodup_cons, ← List.map_append] at hl
  have hother : ∀ q ∈ pre ++ post, key p ≠ key q := fun q hq heq => hl.1 (heq ▸ List.mem_map_of_mem hq)
  rw [List.foldl_append, List.foldl_cons, tget_foldl_changes_other d f fun q hq => hother q (List.mem_append_right _ hq),
    tget_tmod_self, tget_foldl_changes_other d f fun q hq => hother q (List.mem_append_left _ hq)]

end

/-! ### The elements of a chunk (R322, R323) -/

/-- The accumulator element of a row and a column of a chunk. -/
def sumKey (acc : Nat) (p : (Nat × List Fv) × (Nat × List Fv)) : Nat := accKey acc p.1.1 p.2.1

/-- The element with the rounded chunk sum of its row and its column added. -/
def addChunk (p : (Nat × List Fv) × (Nat × List Fv)) (v : W32) : W32 :=
  BitVec.ofNat 32 (fp32.addW v.toNat (fp32.round (chunkSum p.1.2 p.2.2)))

/-- Without a scatter each product row stands in its own accumulator row. -/
theorem destOf_ownRows {i : MInfo} {r : MRun} (hkind : i.kind ≠ .mmv) (hown : r.crows = (List.range 64).map some) {row : Nat} (hrow : row < 64)
    (col : Nat) : destOf i r row col = some (accKey i.acc row col) := by
  simp [destOf, hkind, hown, hrow, List.getD]

section
variable {i : MInfo} {r : MRun} {rows cols : List (Nat × List Fv)}

theorem addSums_eq_foldl (hkind : i.kind ≠ .mmv) (hown : r.crows = (List.range 64).map some) (hrows : ∀ x ∈ rows, x.1 < 64) (w : Tbl W32) :
    addSums i r w rows cols = (rows ×ˢ cols).foldl (fun w p => tmod 0 w (sumKey i.acc p) (addChunk p)) w := by
  refine .trans (List.foldl_ext _ _ _ fun u x hx => ?_) List.foldl_flatMap.symm
  simp only [List.foldl_map, destOf_ownRows hkind hown (hrows x hx)]
  rfl

theorem accKey_inj {acc row col row' col' : Nat} (hcol : col < 64) (hcol' : col' < 64) (h : accKey acc row col = accKey acc row' col') :
    row = row' ∧ col = col' := by
  unfold accKey at h
  omega

theorem sumKey_nodup (acc : Nat) (hrows : (rows.map Prod.fst).Nodup) (hcols : (cols.map Prod.fst).Nodup) (hlt : ∀ y ∈ cols, y.1 < 64) :
    ((rows ×ˢ cols).map (sumKey acc)).Nodup := by
  refine List.Nodup.map_on (fun ⟨x, y⟩ hp ⟨x', y'⟩ hq heq => ?_) (hrows.of_map.product hcols.of_map)
  obtain ⟨hx, hy⟩ := List.mem_product.mp hp
  obtain ⟨hx', hy'⟩ := List.mem_product.mp hq
  obtain ⟨hrow, hcol⟩ := accKey_inj (hlt y hy) (hlt y' hy') heq
  rw [List.inj_on_of_nodup_map hrows hx hx' hrow, List.inj_on_of_nodup_map hcols hy hy' hcol]

end

/-- Settles O34: the sums of a chunk are changes to different elements, so that each is made once, on the old value. -/
theorem matrixAccumulates : Obligations.MatrixAccumulates := by
  intro i r w rows cols hkind _ hown hrows hcols hrow hcol
  rw [addSums_eq_foldl hkind hown hrow]
  refine ⟨fun x hx y hy => ?_, fun k hk => ?_⟩
  · exact tget_foldl_changes_self 0 addChunk (sumKey_nodup i.acc hrows hcols hcol) (List.mem_product.mpr ⟨hx, hy⟩ : (x, y) ∈ rows ×ˢ cols) w
  · refine tget_foldl_changes_other 0 addChunk (fun p hp => ?_) w
    obtain ⟨hx, hy⟩ := List.mem_product.mp hp
    exact hk p.1 hx p.2 hy

end Sys2Proof.Machine
end

section
/-!
PROOFS. Copy commands: acceptance (R357, R358, R361, R371), completion, follow-on and fault (R338, R372, R373), and the affine nest (R361, R362): O37.
-/

namespace Sys2Proof.Machine

/-! ### Acceptance (R358, R371) -/

/-- The descriptor that the acceptance of a copy command reads (R361). -/
abbrev copyDesc (s : State) (i : CInfo) : List Byte := descriptor s (i.ldesc.toNat % Config.localBytes) 128

/-- A copy command that has passed its checks joins the queue of engine `e`, and a packet takes it to the engine's die (R358). -/
def copyAccepted (t : State) (core e : Nat) (i : CInfo) (desc : List Byte) : State :=
  sendCommands (modCmd (holdAll ((accept t desc (savedProgress t)).modEngine e fun g => { g with queue := g.queue ++ [(core, newId t)] }) core
    ((copyHandles i desc).map (·.2))) core (newId t) fun y => { y with home := 4 + e / 24, ctl := .held })

/-- ENG 12 to 14 names no engine (R357). -/
theorem engineSet_reserved (die : Nat) {eng : Nat} (hlow : 12 ≤ eng) (hany : eng ≠ 15) : engineSet die eng = [] := by
  rw [engineSet, if_neg hany, if_neg (Nat.not_lt.mpr hlow)]

section
variable {s : State} {x : Instr} {i : CInfo} (hslot : s.cur.slot = 0) (hi : cInfo x = some i)
include hslot hi

theorem copyCmd_accepts {e : Nat} {t : State} (hroom : (engineSet (dieOf s.cur.core) i.eng).find? (copyRoom s) = some e)
    (hcheck : copyCheck s s.cur.core i (copyDesc s i) = .ok t) : copyCmd s x = .next (copyAccepted t s.cur.core e i (copyDesc s i)) := by
  simp only [copyCmd, issuing_eq_true hslot, hi, hroom, hcheck, Bool.not_true, Bool.false_eq_true, if_false]
  rfl

theorem copyCmd_fails {e : Nat} {t : State} {code : Byte} {d : Nat} {v : Word}
    (hroom : (engineSet (dieOf s.cur.core) i.eng).find? (copyRoom s) = some e)
    (hcheck : copyCheck s s.cur.core i (copyDesc s i) = .bad t code d v) : copyCmd s x = .next (acceptFault t code d v) := by
  simp only [copyCmd, issuing_eq_true hslot, hi, hroom, hcheck, Bool.not_true, Bool.false_eq_true, if_false]

theorem copyCmd_stalls (hset : engineSet (dieOf s.cur.core) i.eng ≠ [])
    (hfull : ∀ e ∈ engineSet (dieOf s.cur.core) i.eng, copyRoom s e = false) :
    copyCmd s x = .next (acceptStall s (.copy (engineSet (dieOf s.cur.core) i.eng))) := by
  have hroom : (engineSet (dieOf s.cur.core) i.eng).find? (copyRoom s) = none :=
    List.find?_eq_none.mpr fun e he => Bool.not_eq_true _ ▸ hfull e he
  have hsome : (engineSet (dieOf s.cur.core) i.eng).isEmpty = false := List.isEmpty_eq_false_iff.mpr hset
  simp only [copyCmd, issuing_eq_true hslot, hi, hroom, hsome, Bool.not_true, Bool.false_eq_true, if_false]

/-- A reserved engine is reported before every other field of check 2 of R371, as the model reads it (log 27). -/
theorem copyCmd_reserved (hlow : 12 ≤ i.eng) (hany : i.eng ≠ 15) (halign : i.ldesc.toNat % 64 = 0) (hlocal : i.ldesc.toNat + 127 ≤ 0x7FFF) :
    copyCmd s x = .next (acceptFault s cFORMAT 0 0) := by
  have hformat : copyFormat s s.cur.core i (copyDesc s i) = some 0 := by
    rw [copyFormat, engineSet_reserved 0 hlow hany]
    rfl
  have hcheck : copyCheck s s.cur.core i (copyDesc s i) = .bad s cFORMAT 0 0 := by
    rw [copyCheck, if_neg (not_not_intro halign), if_neg (Nat.not_lt.mpr hlocal), hformat]
    rfl
  simp only [copyCmd, issuing_eq_true hslot, hi, engineSet_reserved _ hlow hany, hcheck, Bool.not_true, Bool.false_eq_true, if_false,
    List.find?_nil, List.isEmpty_nil, if_true]

end

/-- What the acceptance of a copy command answers (R358, R371). -/
theorem copyCmd_answers {s : State} {x : Instr} {i : CInfo} (hslot : s.cur.slot = 0) (hi : cInfo x = some i) (hexec : exec x s = copyCmd s x) :
    (∀ e, (engineSet (dieOf s.cur.core) i.eng).find? (copyRoom s) = some e →
      (∀ t, copyCheck s s.cur.core i (copyDesc s i) = .ok t → exec x s = .next (copyAccepted t s.cur.core e i (copyDesc s i))) ∧
      ∀ t code d v, copyCheck s s.cur.core i (copyDesc s i) = .bad t code d v → exec x s = .next (acceptFault t code d v)) ∧
    (engineSet (dieOf s.cur.core) i.eng ≠ [] → (∀ e ∈ engineSet (dieOf s.cur.core) i.eng, copyRoom s e = false) →
      exec x s = .next (acceptStall s (.copy (engineSet (dieOf s.cur.core) i.eng)))) ∧
    (12 ≤ i.eng → i.eng ≠ 15 → i.ldesc.toNat % 64 = 0 → i.ldesc.toNat + 127 ≤ 0x7FFF → exec x s = .next (acceptFault s cFORMAT 0 0)) := by
  rw [hexec]
  exact ⟨fun _ hroom => ⟨fun _ hc => copyCmd_accepts hslot hi hroom hc, fun _ _ _ _ hc => copyCmd_fails hslot hi hroom hc⟩,
    copyCmd_stalls hslot hi, copyCmd_reserved hslot hi⟩

/-! ### Completion (R364, R373) -/

/-- A copy command has done everything: its bytes, its accesses and its flag are performed and its rings may move (R373). -/
def copyDone (s : State) (e core : Nat) (cmd : Cmd) (i : CInfo) : Prop :=
  (s.engine e).waited = true ∧ (i.dst cmd.desc).total ≤ cmd.prog ∧ accsOf s core cmd.id = [] ∧
    ((s.engine e).flagged = true ∨ i.fn ≠ .csig ∧ i.eoi = false) ∧ copyFault s e core cmd i = none ∧
    ∀ x ∈ ringNeeds s core i cmd.desc (s.engine e).index, pointersHeld s core x.1 = false

/-- What a CPYF's command entry becomes when its follow-on goes to the matrix operator (R338). -/
def followEntry (s : State) (e core : Nat) (cmd : Cmd) (i : CInfo) (desc : List Byte) : State :=
  modCmd ((enginePop s e).count (4 + e / 24) 1 1) core cmd.id fun y =>
    { y with cmd := followCmd i cmd.desc, follow := true, phase := .accepted, desc := desc, prog := 0, home := dieOf core, ctl := .here }

/-- The weight descriptor of a follow-on. -/
abbrev followDesc (s : State) (core : Nat) (m : MInfo) : List Byte :=
  if m.kind == .mmv then mread (s.core core).lmem (m.b.toNat % Config.localBytes) 16 else []

/-- The checks of a follow-on (R333, R338). -/
abbrev followCheck (s : State) (core : Nat) (cmd : Cmd) (i : CInfo) (m : MInfo) : MCheck :=
  matrixCheck s core m ((followCmd i cmd.desc).extractLsb' 0 32) ((followCmd i cmd.desc).extractLsb' 64 32) (followDesc s core m)

section
variable {s : State} {e core : Nat} {cmd : Cmd} {i : CInfo}

theorem copyDone_iff : (!(s.engine e).waited || cmd.prog < (i.dst cmd.desc).total || !(accsOf s core cmd.id).isEmpty ||
    (!(s.engine e).flagged && (i.fn == .csig || i.eoi)) || (copyFault s e core cmd i).isSome ||
    (ringNeeds s core i cmd.desc (s.engine e).index).any fun x => pointersHeld s core x.1) = false ↔ copyDone s e core cmd i := by
  simp only [copyDone, Bool.or_eq_false_iff, Bool.not_eq_false', decide_eq_false_iff_not, Nat.not_lt, List.isEmpty_iff, Bool.and_eq_false_iff,
    beq_eq_false_iff_ne, ne_eq, Option.isSome_eq_false_iff, Option.isNone_iff_eq_none, List.any_eq_false, Bool.not_eq_true, and_assoc]

section
variable (hrun : engineRun s e = some (core, cmd, i))
include hrun

theorem copyComplete_waits (hnot : ¬copyDone s e core cmd i) : execCopyComplete e s = .next s := by
  simp only [execCopyComplete, hrun, Bool.of_not_eq_false fun h => hnot (copyDone_iff.mp h), if_true]

theorem copyComplete_done (hdone : copyDone s e core cmd i) (hfn : i.fn ≠ .cpyf) :
    execCopyComplete e s = .next (completeFrom (releaseHolds (enginePop ((advanceRings s e core cmd i).count (4 + e / 24) 1 1) e) core
      ((copyHandles i cmd.desc).map (·.2))) core cmd.id 0 (BitVec.ofNat 32 (i.dst cmd.desc).total)) := by
  simp only [execCopyComplete, hrun, copyDone_iff.mpr hdone, beq_false_of_ne hfn, Bool.false_eq_true, if_false]

theorem copyComplete_hands (hdone : copyDone s e core cmd i) (hfn : i.fn = .cpyf) : execCopyComplete e s = .next (handOver s e core cmd i) := by
  simp only [execCopyComplete, hrun, copyDone_iff.mpr hdone, beq_iff_eq.mpr hfn, Bool.false_eq_true, if_false, if_true]

theorem copyFault_ends {p : Nat} {code : Byte} {d : Nat} {v : Word} (hfault : copyFault s e core cmd i = some (p, code, d, v)) (hsk : i.sk ≠ 2)
    (hdk : i.dk ≠ 2) : execCopyExecutionFault e s = .next (faultCommand (releaseHolds (enginePop (letGo s core cmd.id) e) core
      ((copyHandles i cmd.desc).map (·.2))) core cmd.id code d v p true) := by
  simp only [execCopyExecutionFault, hrun, hfault, hsk, hdk, decide_false, Bool.or_false, Bool.false_eq_true, if_false]

theorem copyFault_none (hfault : copyFault s e core cmd i = none) : execCopyExecutionFault e s = .next s := by
  simp only [execCopyExecutionFault, hrun, hfault]

end

/-! ### The follow-on of a CPYF (R338, R369) -/

variable {x : Instr} {m : MInfo} (hdecode : decodeCommand (followCmd i cmd.desc) = .ok x) (hm : mInfo x = some m)
include hdecode hm

theorem handOver_waits {w : Nat} (hfull : matrixFull s core m = some w) : handOver s e core cmd i = s := by
  simp only [handOver, hdecode, hm, hfull, Option.isSome_some, if_true]

theorem handOver_accepts {t : State} (hroom : matrixFull s core m = none) (hcheck : followCheck s core cmd i m = .ok t) :
    handOver s e core cmd i = releaseHolds (matrixEnqueue (followEntry t e core cmd i (followDesc s core m)) core cmd.id m) core
      ((copyHandles i cmd.desc).map (·.2)) := by
  simp only [handOver, hdecode, hm, hroom, hcheck, Option.isSome_none, Bool.false_eq_true, if_false]
  rfl

theorem handOver_fails {t : State} {code : Byte} {d : Nat} {v : Word} (hroom : matrixFull s core m = none)
    (hcheck : followCheck s core cmd i m = .bad t code d v) :
    handOver s e core cmd i = faultCommand (releaseHolds (followEntry t e core cmd i (followDesc s core m)) core
      ((copyHandles i cmd.desc).map (·.2))) core cmd.id code d v 0 false := by
  simp only [handOver, hdecode, hm, hroom, hcheck, Option.isSome_none, Bool.false_eq_true, if_false]
  rfl

end

/-! ### The affine nest (R361, R362) -/

/-- An index times its stride lies between the ends of its dimension. -/
theorem stride_within {i c : Nat} (hi : i < c) (s : Int) : min 0 (((c : Int) - 1) * s) ≤ i * s ∧ (i : Int) * s ≤ max 0 (((c : Int) - 1) * s) := by
  have hle : (i : Int) ≤ (c : Int) - 1 := by omega
  obtain hs | hs := le_total 0 s
  · exact ⟨(min_le_left _ _).trans (mul_nonneg i.cast_nonneg hs), (mul_le_mul_of_nonneg_right hle hs).trans (le_max_right _ _)⟩
  · exact ⟨(min_le_right _ _).trans (mul_le_mul_of_nonpos_right hle hs), (mul_nonpos_of_nonneg_of_nonpos i.cast_nonneg hs).trans (le_max_left _ _)⟩

section
variable {d : Side} {c1 c2 c3 : Nat} {s1 s2 s3 : Int} (hcnt : d.cnt = [c1, c2, c3]) (hstr : d.str = [s1, s2, s3])

include hcnt in
theorem Side.runs_eq : d.runs = c1 * (c2 * c3) := by
  simp [Side.runs, hcnt, Nat.mul_assoc]

include hcnt in
/-- A run of a nest is named by three indices. -/
theorem Side.exists_indices {n : Nat} (hn : n < d.runs) : ∃ i1 < c1, ∃ i2 < c2, ∃ i3 < c3, n = i1 + c1 * (i2 + c2 * i3) := by
  rw [Side.runs_eq hcnt] at hn
  have hc1 : 0 < c1 := Nat.pos_of_mul_pos_right (Nat.zero_lt_of_lt hn)
  have hrest : n / c1 < c2 * c3 := Nat.div_lt_of_lt_mul hn
  have hc2 : 0 < c2 := Nat.pos_of_mul_pos_right (Nat.zero_lt_of_lt hrest)
  exact ⟨n % c1, Nat.mod_lt _ hc1, n / c1 % c2, Nat.mod_lt _ hc2, n / c1 / c2, Nat.div_lt_of_lt_mul hrest, by rw [Nat.mod_add_div, Nat.mod_add_div]⟩

include hcnt hstr

/-- A run starts at the base and its strided indices (R362). -/
theorem Side.start_indices {i1 i2 : Nat} (h1 : i1 < c1) (h2 : i2 < c2) (i3 : Nat) :
    d.start (i1 + c1 * (i2 + c2 * i3)) = d.base + i1 * s1 + i2 * s2 + i3 * s3 := by
  have hc1 : max c1 1 = c1 := max_eq_left (Nat.zero_lt_of_lt h1)
  have hc2 : max c2 1 = c2 := max_eq_left (Nat.zero_lt_of_lt h2)
  have hmod1 : (i1 + c1 * (i2 + c2 * i3)) % c1 = i1 := by rw [Nat.add_mul_mod_self_left, Nat.mod_eq_of_lt h1]
  have hdiv1 : (i1 + c1 * (i2 + c2 * i3)) / c1 = i2 + c2 * i3 := by
    rw [Nat.add_mul_div_left _ _ (Nat.zero_lt_of_lt h1), Nat.div_eq_of_lt h1, Nat.zero_add]
  have hmod2 : (i2 + c2 * i3) % c2 = i2 := by rw [Nat.add_mul_mod_self_left, Nat.mod_eq_of_lt h2]
  have hdiv2 : (i2 + c2 * i3) / c2 = i3 := by
    rw [Nat.add_mul_div_left _ _ (Nat.zero_lt_of_lt h2), Nat.div_eq_of_lt h2, Nat.zero_add]
  simp only [Side.start, hcnt, hstr, List.getD_cons_zero, List.getD_cons_succ, hc1, hc2, hmod1, hdiv1, hmod2, hdiv2]

omit hcnt hstr in
/-- A byte of a run stands at its place in the run. -/
theorem Side.at_run (d : Side) {x : Nat} (hx : x < d.run) (n : Nat) : d.at_ (n * d.run + x) = d.start n + x := by
  have hrun : 0 < d.run := Nat.zero_lt_of_lt hx
  rw [Side.at_, max_eq_left (Nat.succ_le_of_lt hrun), Nat.mul_comm, Nat.mul_add_div hrun, Nat.div_eq_of_lt hx, Nat.add_zero, Nat.mul_add_mod,
    Nat.mod_eq_of_lt hx]

/-- Every run lies within the span (R362). -/
theorem Side.run_in_span {i1 i2 i3 : Nat} (h1 : i1 < c1) (h2 : i2 < c2) (h3 : i3 < c3) :
    d.span.1 ≤ d.start (i1 + c1 * (i2 + c2 * i3)) ∧ d.start (i1 + c1 * (i2 + c2 * i3)) + d.run ≤ d.span.2 := by
  obtain ⟨lo1, hi1⟩ := stride_within h1 s1
  obtain ⟨lo2, hi2⟩ := stride_within h2 s2
  obtain ⟨lo3, hi3⟩ := stride_within h3 s3
  rw [Side.start_indices hcnt hstr h1 h2]
  simp only [Side.span, hcnt, hstr, List.zip_cons_cons, List.zip_nil_right, List.map_cons, List.map_nil, List.sum_cons, List.sum_nil]
  omega

/-- The three conditions of an ascending nest that has bytes (R362). -/
theorem Side.ascending_iff (hbytes : d.total ≠ 0) : d.ascending = true ↔ (c1 ≤ 1 ∨ (d.run : Int) ≤ s1) ∧
    (c2 ≤ 1 ∨ (d.run : Int) ≤ s2 - ((c1 : Int) - 1) * s1) ∧
    (c3 ≤ 1 ∨ (d.run : Int) ≤ s3 - ((c1 : Int) - 1) * s1 - ((c2 : Int) - 1) * s2) := by
  simp [Side.ascending, hcnt, hstr, hbytes, and_assoc]

/-- In an ascending nest a run ends before the next one starts (R362). -/
theorem Side.start_succ (hasc : d.ascending = true) (hrun : 0 < d.run) {n : Nat} (hn : n + 1 < d.runs) : d.start n + d.run ≤ d.start (n + 1) := by
  have hbytes : d.total ≠ 0 := Nat.mul_ne_zero hrun.ne' (Nat.zero_lt_of_lt hn).ne'
  obtain ⟨asc1, asc2, asc3⟩ := (Side.ascending_iff hcnt hstr hbytes).mp hasc
  obtain ⟨i1, h1, i2, h2, i3, h3, rfl⟩ := Side.exists_indices hcnt (Nat.lt_of_succ_lt hn)
  rw [Side.start_indices hcnt hstr h1 h2]
  by_cases hnext1 : i1 + 1 < c1
  · have hsucc : i1 + c1 * (i2 + c2 * i3) + 1 = (i1 + 1) + c1 * (i2 + c2 * i3) := by omega
    have hgap := asc1.resolve_left (by omega)
    rw [hsucc, Side.start_indices hcnt hstr hnext1 h2]
    push_cast
    linarith
  obtain rfl : c1 = i1 + 1 := by omega
  by_cases hnext2 : i2 + 1 < c2
  · have hsucc : i1 + (i1 + 1) * (i2 + c2 * i3) + 1 = 0 + (i1 + 1) * ((i2 + 1) + c2 * i3) := by ring
    have hgap := asc2.resolve_left (by omega)
    rw [hsucc, Side.start_indices hcnt hstr i1.succ_pos hnext2]
    push_cast at hgap ⊢
    linarith
  obtain rfl : c2 = i2 + 1 := by omega
  have hsucc : i1 + (i1 + 1) * (i2 + (i2 + 1) * i3) + 1 = 0 + (i1 + 1) * (0 + (i2 + 1) * (i3 + 1)) := by ring
  rw [hsucc, Side.runs_eq hcnt, Nat.zero_add, Nat.zero_add] at hn
  have hnext3 : i3 + 1 < c3 := Nat.lt_of_mul_lt_mul_left (Nat.lt_of_mul_lt_mul_left hn)
  have hgap := asc3.resolve_left (by omega)
  rw [hsucc, Side.start_indices hcnt hstr i1.succ_pos i2.succ_pos]
  push_cast at hgap ⊢
  linarith

end

/-- Settles O37: what acceptance and COPY_COMPLETE do, and the nest by the three indices of a run. -/
theorem copyCommandsAndNests : Obligations.CopyCommandsAndNests := by
  refine ⟨fun s sk dk sidx eng eoi adv fb sys b0 b1 b2 => ⟨fun hslot => ?accept, fun e core cmd i hrun => ?complete⟩, ?nest, ?ascending⟩
  case accept =>
    simp only [List.forall_mem_cons]
    refine ⟨?_, ?_, ?_, ?_, List.forall_mem_nil _⟩ <;> exact ⟨_, rfl, rfl, rfl, rfl, copyCmd_answers hslot rfl rfl⟩
  case complete =>
    refine ⟨fun hwaited hbytes haccs hflag hfault hrings => ?done, fun hopen => ?waits,
      fun p code d v hfault hsk hdk => copyFault_ends hrun hfault hsk hdk, copyFault_none hrun⟩
    case done =>
      have hdone : copyDone s e core cmd i := ⟨hwaited, hbytes, haccs, hflag, hfault, hrings⟩
      refine ⟨copyComplete_done hrun hdone, fun x m hfn hdecode hm => ?_⟩
      have hexec : exec (.copyComplete e) s = .next (handOver s e core cmd i) := copyComplete_hands hrun hdone hfn
      rw [hexec]
      exact ⟨fun ⟨w, hfull⟩ => congrArg Host.Outcome.next (handOver_waits hdecode hm hfull), fun hroom =>
        ⟨fun t hcheck => congrArg Host.Outcome.next (handOver_accepts hdecode hm hroom hcheck),
          fun t code d v hcheck => congrArg Host.Outcome.next (handOver_fails hdecode hm hroom hcheck)⟩⟩
    case waits =>
      refine copyComplete_waits hrun fun ⟨hwaited, hbytes, haccs, _⟩ => ?_
      obtain h | h | h := hopen
      · exact Bool.false_ne_true (h.symm.trans hwaited)
      · exact Nat.not_le.mpr h hbytes
      · exact h haccs
  case nest =>
    intro d c1 c2 c3 s1 s2 s3 i1 i2 i3 x hcnt hstr h1 h2 h3 hx n
    have hn : n < d.runs := Side.runs_eq hcnt ▸ Nat.add_mul_lt_mul_of_lt_of_lt h1 (Nat.add_mul_lt_mul_of_lt_of_lt h2 h3)
    exact ⟨hn, Side.start_indices hcnt hstr h1 h2 i3, Side.at_run d hx n, Side.run_in_span hcnt hstr h1 h2 h3⟩
  case ascending =>
    exact fun d c1 c2 c3 s1 s2 s3 hcnt hstr hasc hrun n hn => Side.start_succ hcnt hstr hasc hrun hn

end Sys2Proof.Machine
end

section
/-!
PROOFS. Key commands: acceptance (R342, R344, R352), start, effect, completion and fault (R353, R354): O35.
-/

namespace Sys2Proof.Machine

/-! ### Acceptance (R352) -/

/-- The descriptor that the acceptance of a key command reads (R344). -/
abbrev keyDesc (s : State) (i : KInfo) : List Byte := descriptor s (i.ldesc.toNat % Config.localBytes) 64

/-- A key command that has passed its checks joins the queue of its engine and holds its tiles (R352). -/
def keyAccepted (s : State) (i : KInfo) : State :=
  holdAll ((accept s (keyDesc s i) 0).modKey s.cur.core fun k => { k with queue := k.queue ++ [newId s] }) s.cur.core (descHandles (keyDesc s i))

section
variable {s : State} {x : Instr} {i : KInfo} (hslot : s.cur.slot = 0) (hi : kInfo x = some i)
include hslot hi

theorem keyCmd_stalls (hfull : queueDepth ≤ keyLoad s.me) : keyCmd s x = .next (acceptStall s .key) := by
  simp only [keyCmd, issuing_eq_true hslot, hi, ge_iff_le, hfull, Bool.not_true, Bool.false_eq_true, if_false, if_true]

variable (hroom : keyLoad s.me < queueDepth)
include hroom

theorem keyCmd_accepts (hcheck : keyCheck s s.cur.core i (keyDesc s i) = none) : keyCmd s x = .next (keyAccepted s i) := by
  simp only [keyCmd, issuing_eq_true hslot, hi, ge_iff_le, Nat.not_le.mpr hroom, hcheck, Bool.not_true, Bool.false_eq_true, if_false]
  rfl

theorem keyCmd_fails {f : Byte × Word} (hcheck : keyCheck s s.cur.core i (keyDesc s i) = some f) :
    keyCmd s x = .next (acceptFault s f.1 0 f.2) := by
  simp only [keyCmd, issuing_eq_true hslot, hi, ge_iff_le, Nat.not_le.mpr hroom, hcheck, Bool.not_true, Bool.false_eq_true, if_false]

end

/-- What the acceptance of a key command answers (R352). -/
theorem keyCmd_answers {s : State} {x : Instr} {i : KInfo} (hslot : s.cur.slot = 0) (hi : kInfo x = some i) (hexec : exec x s = keyCmd s x) :
    (keyLoad s.me < queueDepth →
      (keyCheck s s.cur.core i (keyDesc s i) = none → exec x s = .next (keyAccepted s i)) ∧
      ∀ f, keyCheck s s.cur.core i (keyDesc s i) = some f → exec x s = .next (acceptFault s f.1 0 f.2)) ∧
    (queueDepth ≤ keyLoad s.me → exec x s = .next (acceptStall s .key)) := by
  rw [hexec]
  exact ⟨fun hroom => ⟨keyCmd_accepts hslot hi hroom, fun _ => keyCmd_fails hslot hi hroom⟩, keyCmd_stalls hslot hi⟩

/-! ### Execution (R353, R354) -/

/-- With a command at its executor, every key instruction is a turn of the engine. -/
theorem keyCmd_works {s : State} (x : Instr) (hslot : s.cur.slot ≠ 0) : keyCmd s x = .next (keyWork s) := by
  simp only [keyCmd, issuing_eq_false hslot, Bool.not_false, if_true]

/-- The writes of a command: its first output, where it has one, before the others. -/
def keyWrites (i : KInfo) (desc : List Byte) (first : List W32) (ws : List KWrite) : List KWrite :=
  let o := slotRef desc i.outSlot
  if refNone o || first.isEmpty then ws else (refHandle o, refOffset o, first) :: ws

section
variable {s : State} {core id : Nat} {rest : List Nat} {cmd : Cmd} {i : KInfo} (hq : (s.core core).key.queue = id :: rest)
  (hcmd : kCommand s core id = some (cmd, i))
include hq hcmd

section
variable (hslot : s.cur.slot = id) (hcore : s.cur.core = core)
include hslot hcore

/-- The oldest command starts with an empty engine when its tiles are ready (R353). -/
theorem keyWork_starts (hsi : i.si = false) (hso : i.so = false) (hstarted : (s.core core).key.started = false)
    (hready : keyReady s core cmd i = true) :
    keyWork s = modCmd (s.modKey core fun k => { KeyEng.init with queue := k.queue, started := true }) core id
      fun y => { y with phase := .running } := by
  subst hslot hcore
  have habsent : slotAbsent s s.cur.core i = none := by simp only [slotAbsent, hsi, hso, Bool.false_and, Bool.false_eq_true, if_false]
  simp only [keyWork, hq, hcmd, hstarted, hready, habsent, bne_self_eq_false, Bool.not_false, Bool.false_eq_true, if_false, if_true]
  rfl

/-- A started command that has its input performs its function once (R353, log 35). -/
theorem keyWork_performs (hsi : i.si = false) (hso : i.so = false) (hstarted : (s.core core).key.started = true)
    (hperf : (s.core core).key.performed = false) {t : State} {first : List W32} {ws : List KWrite} {res : W32}
    (hfault : keyFault s core cmd i = none) (heffect : keyEffect s core i cmd.desc = (t, .ok (first, ws, res))) :
    keyWork s = (writeOut core (keyWrites i cmd.desc first ws) t).1.modKey core fun k => { k with performed := true, result := res, out := [] } := by
  subst hslot hcore
  have hin : inTokens i = 0 := by simp only [inTokens, hsi, Bool.false_eq_true, if_false]
  simp only [keyWork, hq, hcmd, hstarted, hperf, hfault, heffect, hin, hso, bne_self_eq_false, Bool.not_true, Option.isSome_none, Nat.not_lt_zero,
    Bool.false_or, Bool.false_eq_true, if_false]
  rfl

end

theorem keyCommandComplete_done (hstarted : (s.core core).key.started = true) (hperf : (s.core core).key.performed = true)
    (hout : (s.core core).key.out = []) : execKeyCommandComplete core s =
      .next (finishCmd (releaseHolds (keyPop s core) core (descHandles cmd.desc)) core id 0 (s.core core).key.result) := by
  simp only [execKeyCommandComplete, hq, hcmd, hstarted, hperf, hout, List.isEmpty_nil, Bool.and_true, if_true]

theorem keyCommandComplete_waits (hperf : (s.core core).key.performed = false) : execKeyCommandComplete core s = .next s := by
  simp only [execKeyCommandComplete, hq, hcmd, hperf, Bool.and_false, Bool.false_and, Bool.false_eq_true, if_false]

theorem keyExecutionFault_ends (hsi : i.si = false) (hso : i.so = false) (hstarted : (s.core core).key.started = true) {t : State} {code : Byte}
    {v : Word} (hfault : keyFault s core cmd i = some (t, code, v)) : execKeyExecutionFault core s =
      .next (faultCommand (releaseHolds (keyPop t core) core (descHandles cmd.desc)) core id code 0 v 0 false) := by
  simp only [execKeyExecutionFault, hq, hcmd, hstarted, hfault, hsi, hso, Bool.not_true, Bool.or_false, Bool.false_eq_true, if_false]

theorem keyExecutionFault_unstarted (hstarted : (s.core core).key.started = false) : execKeyExecutionFault core s = .next s := by
  simp only [execKeyExecutionFault, hq, hcmd, hstarted, Bool.not_false, if_true]

end

/-- Settles O35: acceptance by `keyCmd_answers`, then each move of the engine on its oldest command. -/
theorem keyCommandsRun : Obligations.KeyCommandsRun := by
  refine fun s si so fl kt fn b0 b1 b2 => ⟨fun hslot => ?accept, fun core id rest cmd i hq hcmd => ⟨?work, ?complete, ?fault, ?waits, ?unstarted⟩⟩
  case accept =>
    simp only [List.forall_mem_cons]
    refine ⟨?_, ?_, ?_, ?_, ?_, ?_, ?_, List.forall_mem_nil _⟩ <;> exact ⟨_, rfl, rfl, rfl, rfl, keyCmd_answers hslot rfl rfl⟩
  case work =>
    intro hslot hid hcore hsi hso hperf _
    have hexec : exec (.ksort si so fl kt b0 b1 b2) s = .next (keyWork s) :=
      keyCmd_works (.ksort si so fl kt b0 b1 b2) (hslot ▸ hid)
    rw [hexec]
    exact ⟨fun hstarted hready => congrArg Host.Outcome.next (keyWork_starts hq hcmd hslot hcore hsi hso hstarted hready),
      fun t first ws res hstarted hfault heffect =>
        congrArg Host.Outcome.next (keyWork_performs hq hcmd hslot hcore hsi hso hstarted hperf hfault heffect)⟩
  case complete => exact keyCommandComplete_done hq hcmd
  case fault => exact fun t code v hstarted hfault hsi hso => keyExecutionFault_ends hq hcmd hsi hso hstarted hfault
  case waits => exact fun _ => keyCommandComplete_waits hq hcmd
  case unstarted => exact keyExecutionFault_unstarted hq hcmd

end Sys2Proof.Machine
end

section
/-!
PROOFS. The order of keys (R346): unsigned, signed, and FP32 through the exact values of its codes (R78).
-/

namespace Sys2Proof.Machine

/-! ### The top bit of a word -/

theorem toNat_xor_top (x : W32) : (x ^^^ 0x80000000).toNat = x.toNat % 2 ^ 31 + 2 ^ 31 * (1 - x.toNat / 2 ^ 31) := by
  have hmod : (x.toNat ^^^ 2 ^ 31) % 2 ^ 31 = x.toNat % 2 ^ 31 := by rw [Nat.xor_mod_two_pow, Nat.mod_self, Nat.xor_zero]
  have hdiv : (x.toNat ^^^ 2 ^ 31) / 2 ^ 31 = x.toNat / 2 ^ 31 ^^^ 1 := by rw [Nat.xor_div_two_pow, Nat.div_self (Nat.two_pow_pos 31)]
  have hflip : ∀ q < 2, q ^^^ 1 = 1 - q := by decide
  have hq : x.toNat / 2 ^ 31 < 2 := Nat.div_lt_of_lt_mul x.isLt
  rw [hflip _ hq] at hdiv
  rw [BitVec.toNat_xor, ← hmod, ← hdiv]
  exact (Nat.mod_add_div _ _).symm

theorem toNat_or_top (x : W32) : (x ||| 0x80000000).toNat = x.toNat % 2 ^ 31 + 2 ^ 31 := by
  have hmod : (x.toNat ||| 2 ^ 31) % 2 ^ 31 = x.toNat % 2 ^ 31 := by rw [Nat.or_mod_two_pow, Nat.mod_self, Nat.or_zero]
  have hdiv : (x.toNat ||| 2 ^ 31) / 2 ^ 31 = x.toNat / 2 ^ 31 ||| 1 := by rw [Nat.or_div_two_pow, Nat.div_self (Nat.two_pow_pos 31)]
  have hset : ∀ q < 2, q ||| 1 = 1 := by decide
  have hq : x.toNat / 2 ^ 31 < 2 := Nat.div_lt_of_lt_mul x.isLt
  rw [hset _ hq] at hdiv
  have hsplit := Nat.mod_add_div (x.toNat ||| 2 ^ 31) (2 ^ 31)
  rw [hmod, hdiv, Nat.mul_one] at hsplit
  exact (BitVec.toNat_or ..).trans hsplit.symm

theorem top_bit_iff (x : W32) : x.getLsbD 31 = true ↔ 2 ^ 31 ≤ x.toNat := by
  rw [← BitVec.msb_eq_getLsbD_last (w := 32), BitVec.msb_eq_decide, decide_eq_true_iff]

/-! ### The value of a code (R78) -/

/-- The magnitude of a code in units of the smallest subnormal. -/
def Fmt.units (f : Fmt) (c : Nat) : Nat := (f.magOf c).1 * 2 ^ ((f.magOf c).2 - f.low).toNat

theorem Fmt.units_eq (f : Fmt) (c : Nat) :
    f.units c = if c < 2 ^ f.mb then c else (2 ^ f.mb + c % 2 ^ f.mb) * 2 ^ (c / 2 ^ f.mb - 1) := by
  unfold Fmt.units Fmt.magOf
  split
  · simp
  · congr 2
    omega

/-- Magnitudes rise with their codes (R78): within a binade by the fraction, from one to the next by the exponent. -/
theorem Fmt.units_strictMono (f : Fmt) : StrictMono f.units := by
  intro c d hcd
  have hP : 0 < 2 ^ f.mb := Nat.two_pow_pos _
  simp only [Fmt.units_eq]
  generalize 2 ^ f.mb = P at hP
  have hd := Nat.mod_lt d hP
  by_cases hdsub : d < P
  · rwa [if_pos (hcd.trans hdsub), if_pos hdsub]
  rw [if_neg hdsub]
  by_cases hcsub : c < P
  · rw [if_pos hcsub]
    calc c < P := hcsub
      _ ≤ P + d % P := Nat.le_add_right _ _
      _ ≤ (P + d % P) * 2 ^ (d / P - 1) := Nat.le_mul_of_pos_right _ (Nat.two_pow_pos _)
  rw [if_neg hcsub]
  have hqc : 0 < c / P := Nat.div_pos (Nat.le_of_not_lt hcsub) hP
  obtain hq | hq := (Nat.div_le_div_right (c := P) hcd.le).eq_or_lt
  · have hr : c % P < d % P := by
      have := Nat.mod_add_div c P
      have := Nat.mod_add_div d P
      rw [hq] at *
      omega
    rw [hq]
    exact Nat.mul_lt_mul_of_pos_right (Nat.add_lt_add_left hr P) (Nat.two_pow_pos _)
  · calc (P + c % P) * 2 ^ (c / P - 1) < (P + P) * 2 ^ (c / P - 1) :=
          Nat.mul_lt_mul_of_pos_right (Nat.add_lt_add_left (Nat.mod_lt _ hP) P) (Nat.two_pow_pos _)
      _ = P * 2 ^ (c / P - 1 + 1) := by ring
      _ ≤ P * 2 ^ (d / P - 1) := Nat.mul_le_mul_left _ (Nat.pow_le_pow_right (by decide) (by omega))
      _ ≤ (P + d % P) * 2 ^ (d / P - 1) := Nat.mul_le_mul_right _ (Nat.le_add_right _ _)

theorem Fmt.magOf_low (f : Fmt) (c : Nat) : f.low ≤ (f.magOf c).2 := by
  unfold Fmt.magOf
  split
  · exact le_rfl
  · have := Nat.div_pos (Nat.le_of_not_lt ‹_›) (Nat.two_pow_pos f.mb)
    dsimp only
    omega

/-- A number as a signed count of units. -/
def signedUnits (neg : Bool) (u : Nat) : Int := if neg then -u else u

theorem signedUnits_bounds (neg : Bool) (u : Nat) : -(u : Int) ≤ signedUnits neg u ∧ signedUnits neg u ≤ u := by
  cases neg <;> simp [signedUnits]

theorem Fmt.scaleInt_units (f : Fmt) (neg : Bool) (c : Nat) {b : Int} (hlow : f.low ≤ b) (hb : b ≤ (f.magOf c).2) :
    scaleInt neg (f.magOf c).1 (f.magOf c).2 b * 2 ^ (b - f.low).toNat = signedUnits neg (f.units c) := by
  have hexp : ((f.magOf c).2 - f.low).toNat = ((f.magOf c).2 - b).toNat + (b - f.low).toNat := by omega
  simp only [scaleInt, signedUnits, Fmt.units, hexp, pow_add]
  push_cast
  split <;> ring

/-- The sign of a code (R78). -/
abbrev Fmt.neg (f : Fmt) (w : Nat) : Bool := w / 2 ^ (f.width - 1) % 2 == 1
/-- The magnitude code of a code (R78). -/
abbrev Fmt.mag (f : Fmt) (w : Nat) : Nat := w % 2 ^ (f.width - 1)

/-- A code is that of a number, of an infinity or of a NaN (R78). -/
theorem Fmt.value_cases (f : Fmt) (w : Nat) :
    (f.mag w ≤ f.maxCode ∧ f.value w = .num (f.neg w) (f.magOf (f.mag w)).1 (f.magOf (f.mag w)).2) ∨
    (f.mag w = f.maxCode + 1 ∧ f.value w = .inf (f.neg w)) ∨ (f.maxCode + 1 < f.mag w ∧ f.value w = .nan) := by
  obtain h | h | h : f.mag w ≤ f.maxCode ∨ f.mag w = f.maxCode + 1 ∨ f.maxCode + 1 < f.mag w := by omega
  · exact .inl ⟨h, if_pos h⟩
  · exact .inr (.inl ⟨h, (if_neg (Nat.not_le.mpr (Nat.lt_of_succ_le h.ge))).trans (if_pos (beq_iff_eq.mpr h))⟩)
  · exact .inr (.inr ⟨h, (if_neg (Nat.not_le.mpr (Nat.lt_of_succ_lt h))).trans (if_neg fun heq => h.ne' (beq_iff_eq.mp heq))⟩)

theorem Fmt.isNan_iff (f : Fmt) (w : Nat) : f.isNan w = true ↔ f.maxCode + 1 < f.mag w := by
  rw [Fmt.isNan, beq_iff_eq]
  obtain ⟨h, hv⟩ | ⟨h, hv⟩ | ⟨h, hv⟩ := f.value_cases w <;> rw [hv]
  · exact ⟨Fv.noConfusion, fun h' => by omega⟩
  · exact ⟨Fv.noConfusion, fun h' => by omega⟩
  · exact ⟨fun _ => h, fun _ => rfl⟩

/-- The number or infinity of a code as a signed count of units: an infinity counts as the code after the largest number. -/
def Fmt.signed (f : Fmt) (w : Nat) : Int := signedUnits (f.neg w) (f.units (f.mag w))

/-- What compares below has fewer units (R152). -/
theorem Fmt.signed_lt_of_cmp (f : Fmt) {a b : Nat} (h : (f.value a).cmp (f.value b) = some .lt) :
    f.isNan a = false ∧ f.isNan b = false ∧ f.signed a < f.signed b := by
  simp only [Bool.eq_false_iff, ne_eq, Fmt.isNan_iff, Nat.not_lt, Fmt.signed]
  have habs := fun x => signedUnits_bounds (f.neg x) (f.units (f.mag x))
  have hbelow : ∀ x, f.mag x ≤ f.maxCode → (f.units (f.mag x) : Int) < f.units (f.maxCode + 1) :=
    fun x hx => Int.ofNat_lt.mpr (f.units_strictMono (Nat.lt_succ_of_le hx))
  have hpos : (0 : Int) < f.units (f.maxCode + 1) := Int.ofNat_lt.mpr ((Nat.zero_le _).trans_lt (f.units_strictMono (Nat.zero_lt_succ _)))
  obtain ⟨ha, va⟩ | ⟨ha, va⟩ | ⟨ha, va⟩ := f.value_cases a <;> obtain ⟨hb, vb⟩ | ⟨hb, vb⟩ | ⟨hb, vb⟩ := f.value_cases b <;>
    rw [va, vb] at h
  case inl.inl =>
    refine ⟨ha.trans (Nat.le_succ _), hb.trans (Nat.le_succ _), ?_⟩
    have hlow := le_min (f.magOf_low (f.mag a)) (f.magOf_low (f.mag b))
    rw [← f.scaleInt_units (f.neg a) (f.mag a) hlow (min_le_left _ _), ← f.scaleInt_units (f.neg b) (f.mag b) hlow (min_le_right _ _)]
    exact mul_lt_mul_of_pos_right (compare_lt_iff_lt.mp (Option.some.inj h)) (by positivity)
  case inl.inr.inl =>
    have hneg : f.neg b = false := by cases hb : f.neg b <;> simp [Fv.cmp, hb] at h ⊢
    refine ⟨ha.trans (Nat.le_succ _), hb.le, (habs a).2.trans_lt ?_⟩
    rw [hneg, hb]
    exact hbelow a ha
  case inr.inl.inl =>
    have hneg : f.neg a = true := by cases ha : f.neg a <;> simp [Fv.cmp, ha] at h ⊢
    refine ⟨ha.le, hb.trans (Nat.le_succ _), lt_of_lt_of_le ?_ (habs b).1⟩
    rw [hneg, ha]
    exact neg_lt_neg (hbelow b hb)
  case inr.inl.inr.inl =>
    have hneg : f.neg a = true ∧ f.neg b = false := by cases ha : f.neg a <;> cases hb : f.neg b <;> simp [Fv.cmp, ha, hb] at h ⊢
    rw [hneg.1, hneg.2, ha, hb]
    exact ⟨le_rfl, le_rfl, (neg_neg_of_pos hpos).trans hpos⟩
  all_goals cases h

/-! ### The order of keys (R346) -/

theorem fp32_neg_iff (x : W32) : fp32.neg x.toNat = true ↔ 2 ^ 31 ≤ x.toNat := by
  rw [beq_iff_eq]
  have := x.isLt
  show x.toNat / 2 ^ 31 % 2 = 1 ↔ _
  omega

/-- The key of an FP32 word that is no NaN: words below zero in reverse, then the others. -/
theorem keyOrder_fp {x : W32} (hx : fp32.isNan x.toNat = false) :
    keyOrder 2 x = if 2 ^ 31 ≤ x.toNat then 2 ^ 32 - 1 - x.toNat else 2 ^ 31 + x.toNat := by
  simp only [keyOrder, hx, top_bit_iff, BitVec.toNat_not, toNat_or_top, Bool.false_eq_true, if_false, OfNat.ofNat_ne_zero, OfNat.ofNat_ne_one]
  split <;> omega

theorem keyOrder_nan {x : W32} (hx : fp32.isNan x.toNat = true) : keyOrder 2 x = 0xFFFFFFFF := by
  simp only [keyOrder, hx, OfNat.ofNat_ne_zero, OfNat.ofNat_ne_one, if_false, if_true]

theorem fp32_isNan_eq_false {x : W32} : fp32.isNan x.toNat = false ↔ x.toNat % 2 ^ 31 ≤ 0x7F800000 := by
  rw [Bool.eq_false_iff, ne_eq, Fmt.isNan_iff, Nat.not_lt]
  rfl

/-- Fewer units, a lower key. -/
theorem keyOrder_lt_of_signed {a b : W32} (ha : fp32.isNan a.toNat = false) (hb : fp32.isNan b.toNat = false)
    (h : fp32.signed a.toNat < fp32.signed b.toNat) : keyOrder 2 a < keyOrder 2 b := by
  rw [keyOrder_fp ha, keyOrder_fp hb]
  have hmono := fp32.units_strictMono.le_iff_le (a := fp32.mag a.toNat) (b := fp32.mag b.toNat)
  have hmono' := fp32.units_strictMono.le_iff_le (a := fp32.mag b.toNat) (b := fp32.mag a.toNat)
  simp only [Fmt.signed, signedUnits, fp32_neg_iff] at h
  simp only [show ∀ w, fp32.mag w = w % 2 ^ 31 from fun _ => rfl] at h hmono hmono'
  have := a.isLt
  have := b.isLt
  by_cases hna : 2 ^ 31 ≤ a.toNat <;> by_cases hnb : 2 ^ 31 ≤ b.toNat <;> simp only [hna, hnb, if_true, if_false] at h ⊢ <;> omega

theorem keyOrder_signed_lt_iff (a b : W32) : keyOrder 1 a < keyOrder 1 b ↔ a.toInt < b.toInt := by
  have h : ∀ x, keyOrder 1 x = x.toNat % 2 ^ 31 + 2 ^ 31 * (1 - x.toNat / 2 ^ 31) := toNat_xor_top
  rw [h, h, BitVec.toInt_eq_toNat_cond, BitVec.toInt_eq_toNat_cond]
  split <;> split <;> omega

/-- What compares below has the lower key (R346). -/
theorem keyOrder_lt_of_cmp {a b : W32} (h : (fp32.value a.toNat).cmp (fp32.value b.toNat) = some .lt) : keyOrder 2 a < keyOrder 2 b := by
  obtain ⟨ha, hb, hlt⟩ := fp32.signed_lt_of_cmp h
  exact keyOrder_lt_of_signed ha hb hlt

theorem keyOrder_number_lt {a : W32} (ha : fp32.isNan a.toNat = false) : keyOrder 2 a < 0xFFFFFFFF := by
  have hmag := fp32_isNan_eq_false.mp ha
  rw [keyOrder_fp ha]
  split <;> omega

theorem keyOrder_inj {a b : W32} (ha : fp32.isNan a.toNat = false) (hb : fp32.isNan b.toNat = false) : keyOrder 2 a = keyOrder 2 b ↔ a = b := by
  refine ⟨fun h => BitVec.eq_of_toNat_eq ?_, congrArg _⟩
  rw [keyOrder_fp ha, keyOrder_fp hb] at h
  have := a.isLt
  have := b.isLt
  split at h <;> split at h <;> omega

theorem keyOrder_between_infinities {a : W32} (ha : fp32.isNan a.toNat = false) :
    keyOrder 2 0xFF800000 ≤ keyOrder 2 a ∧ keyOrder 2 a ≤ keyOrder 2 0x7F800000 := by
  have hmag := fp32_isNan_eq_false.mp ha
  have hlow : keyOrder 2 0xFF800000 = 0x7FFFFF := by decide
  have hhigh : keyOrder 2 0x7F800000 = 0xFF800000 := by decide
  rw [keyOrder_fp ha, hlow, hhigh]
  have := a.isLt
  split <;> omega

/-- The order of keys follows the orders of R346. -/
theorem keyOrder_orders (a b : W32) :
    (keyOrder 0 a < keyOrder 0 b ↔ a.toNat < b.toNat) ∧ (keyOrder 1 a < keyOrder 1 b ↔ a.toInt < b.toInt) ∧
      (fp32.isNan a.toNat = true → keyOrder 2 a = 0xFFFFFFFF) ∧ (fp32.isNan a.toNat = false → keyOrder 2 a < 0xFFFFFFFF) ∧
      ((fp32.value a.toNat).cmp (fp32.value b.toNat) = some .lt → keyOrder 2 a < keyOrder 2 b) ∧
      (fp32.isNan a.toNat = false → fp32.isNan b.toNat = false → (keyOrder 2 a = keyOrder 2 b ↔ a = b)) ∧
      keyOrder 2 0x80000000 < keyOrder 2 0 ∧
      (fp32.isNan a.toNat = false → keyOrder 2 0xFF800000 ≤ keyOrder 2 a ∧ keyOrder 2 a ≤ keyOrder 2 0x7F800000) :=
  ⟨Iff.rfl, keyOrder_signed_lt_iff a b, keyOrder_nan, keyOrder_number_lt, keyOrder_lt_of_cmp, keyOrder_inj, by decide,
    keyOrder_between_infinities⟩

end Sys2Proof.Machine
end

section
/-!
PROOFS. The results of the key engine (R346 to R349, R351): O36.
-/

namespace Sys2Proof.Machine

/-! ### The stable sort (R346, R347) -/

section
variable {α : Type} (ahead : α → α → Bool)

theorem insertKey_perm (x : α) (l : List α) : (insertKey ahead x l).Perm (x :: l) := by
  induction l with
  | nil => exact .refl _
  | cons y r ih =>
    rw [insertKey]
    split
    · exact (ih.cons y).trans (.swap x y r)
    · exact .refl _

theorem stableSort_perm (l : List α) : (stableSort ahead l).Perm l := by
  induction l with
  | nil => exact .refl _
  | cons x r ih => exact (insertKey_perm ahead x _).trans (ih.cons x)

theorem stableSort_length (l : List α) : (stableSort ahead l).length = l.length := (stableSort_perm ahead l).length_eq

/-- Inserting passes only entries that stand ahead: those that tie with the new one keep their places behind it. -/
theorem insertKey_filter (p : α → Bool) (x : α) (l : List α) (htie : ∀ y ∈ l, p x = true → p y = true → ahead y x = false) :
    (insertKey ahead x l).filter p = (x :: l).filter p := by
  induction l with
  | nil => rfl
  | cons y r ih =>
    have ih := ih fun z hz => htie z (List.mem_cons_of_mem _ hz)
    rw [insertKey]
    split
    · next hy =>
      rw [List.filter_cons, ih]
      cases hx : p x <;> cases hpy : p y <;> simp only [hx, hpy, List.filter_cons, Bool.false_eq_true, if_false, if_true]
      exact absurd ((htie y List.mem_cons_self hx hpy).symm.trans hy) Bool.false_ne_true
    · rfl

/-- A stable sort keeps the order of entries that tie. -/
theorem stableSort_filter (p : α → Bool) (l : List α) (htie : ∀ x ∈ l, ∀ y ∈ l, p x = true → p y = true → ahead y x = false) :
    (stableSort ahead l).filter p = l.filter p := by
  induction l with
  | nil => rfl
  | cons x r ih =>
    rw [stableSort, insertKey_filter, List.filter_cons, List.filter_cons, ih]
    · exact fun a ha b hb => htie a (List.mem_cons_of_mem _ ha) b (List.mem_cons_of_mem _ hb)
    · exact fun y hy => htie x List.mem_cons_self y (List.mem_cons_of_mem _ ((stableSort_perm ahead r).subset hy))

end

/-! ### Sorting by a measure -/

section
variable {α β : Type} [LinearOrder β] {ahead : α → α → Bool} {m : α → β} (hahead : ∀ a b, ahead a b = true ↔ m a < m b)
include hahead

theorem insertKey_pairwise {R : α → α → Prop} {x : α} {l : List α} (hx : ∀ y ∈ l, R x y)
    (hl : l.Pairwise fun a b => m a < m b ∨ m a = m b ∧ R a b) :
    (insertKey ahead x l).Pairwise fun a b => m a < m b ∨ m a = m b ∧ R a b := by
  induction l with
  | nil => exact List.pairwise_singleton _ _
  | cons y r ih =>
    have hyr := List.pairwise_cons.mp hl
    rw [insertKey]
    split
    · next hy =>
      refine List.pairwise_cons.mpr ⟨fun z hz => ?_, ih (fun z hz => hx z (List.mem_cons_of_mem _ hz)) hyr.2⟩
      obtain rfl | hz := List.mem_cons.mp ((insertKey_perm ahead x r).subset hz)
      · exact .inl ((hahead y z).mp hy)
      · exact hyr.1 z hz
    · next hy =>
      have hxy : m x ≤ m y := not_lt.mp fun h => hy ((hahead y x).mpr h)
      refine List.pairwise_cons.mpr ⟨fun z hz => ?_, hl⟩
      have hyz : m y ≤ m z := by
        obtain rfl | hz := List.mem_cons.mp hz
        · exact le_rfl
        · exact (hyr.1 z hz).elim le_of_lt fun h => h.1.le
      exact (hxy.trans hyz).lt_or_eq.imp_right fun h => ⟨h, hx z hz⟩

/-- A sorted list rises in the measure, and what ties keeps any order that the list had. -/
theorem stableSort_pairwise {R : α → α → Prop} {l : List α} (hl : l.Pairwise R) :
    (stableSort ahead l).Pairwise fun a b => m a < m b ∨ m a = m b ∧ R a b := by
  induction l with
  | nil => exact .nil
  | cons x r ih =>
    obtain ⟨hx, hr⟩ := List.pairwise_cons.mp hl
    exact insertKey_pairwise hahead (fun y hy => hx y ((stableSort_perm ahead r).subset hy)) (ih hr)

theorem stableSort_rises (l : List α) : (stableSort ahead l).Pairwise fun a b => m a ≤ m b :=
  (stableSort_pairwise hahead (R := fun _ _ => True) (List.pairwise_of_forall fun _ _ => trivial)).imp fun h => h.elim le_of_lt fun h => h.1.le

end

/-! ### KTOPK (R346) -/

/-- The numbered keys of a token. -/
theorem numbered_keys (keys : List W32) : let l := keys.zipIdx.map fun x => (x.2, x.1)
    l.length = keys.length ∧ (l.Pairwise fun a b => a.1 < b.1) ∧ ∀ n v, (n, v) ∈ l ↔ keys[n]? = some v := by
  refine ⟨by simp, ?_, fun n v => ?_⟩
  · rw [List.pairwise_map]
    exact List.pairwise_iff_getElem.mpr fun i j hi hj hij => by simpa using hij
  · rw [List.mem_map]
    exact ⟨fun ⟨x, hx, heq⟩ => by cases heq; exact List.mem_zipIdx_iff_getElem?.mp hx,
      fun h => ⟨(v, n), List.mem_zipIdx_iff_getElem?.mpr h, rfl⟩⟩

/-- The order in which KTOPK takes the entries of a token. -/
def topkBefore (kt : Nat) (a b : Nat × W32) : Prop := keyOrder kt b.2 < keyOrder kt a.2 ∨ keyOrder kt b.2 = keyOrder kt a.2 ∧ a.1 < b.1

theorem topkToken_spec (kt k : Nat) (keys : List W32) : let r := topkToken kt k keys
    r.length = min k keys.length ∧ (r.map Prod.fst).Nodup ∧ (∀ x ∈ r, keys[x.1]? = some x.2) ∧ r.Pairwise (topkBefore kt) ∧
      ∀ n v, keys[n]? = some v → (n, v) ∉ r → ∀ x ∈ r, topkBefore kt x (n, v) := by
  obtain ⟨hlen, hasc, hmem⟩ := numbered_keys keys
  generalize hl : (keys.zipIdx.map fun x => (x.2, x.1)) = l at hlen hasc hmem
  have hsorted : (stableSort (fun a b : Nat × W32 => keyOrder kt b.2 < keyOrder kt a.2) l).Pairwise (topkBefore kt) :=
    (stableSort_pairwise (m := fun a : Nat × W32 => OrderDual.toDual (keyOrder kt a.2)) (fun _ _ => decide_eq_true_iff) hasc).imp
      fun h => h.imp_right fun h => ⟨h.1.symm, h.2⟩
  have hperm := stableSort_perm (fun a b : Nat × W32 => keyOrder kt b.2 < keyOrder kt a.2) l
  simp only [topkToken, hl]
  generalize stableSort (fun a b : Nat × W32 => decide (keyOrder kt b.2 < keyOrder kt a.2)) l = t at hsorted hperm
  have hnodup : (t.map Prod.fst).Nodup :=
    ((hperm.map _).nodup_iff).mpr (List.Nodup.of_map id (by simpa [List.Nodup, List.pairwise_map] using hasc.imp Nat.ne_of_lt))
  refine ⟨by rw [List.length_take, hperm.length_eq, hlen], hnodup.sublist ((List.take_sublist k t).map _),
    fun x hx => (hmem x.1 x.2).mp (hperm.subset (List.mem_of_mem_take hx)), hsorted.sublist (List.take_sublist k t), fun n v hv hout x hx => ?_⟩
  rw [← List.take_append_drop k t, List.pairwise_append] at hsorted
  have hin := hperm.mem_iff.mpr ((hmem n v).mpr hv)
  rw [← List.take_append_drop k t, List.mem_append] at hin
  exact hsorted.2.2 x hx _ (hin.resolve_left hout)

/-! ### Segments (R343) -/

section
variable {α β : Type} {l : Nat} (hl : 0 < l) {g : List α → List β} (hg : ∀ x, x ≠ [] → (g x).length = x.length)

theorem segments_cons (l fuel : Nat) {xs : List α} (hxs : xs ≠ []) : segments l (fuel + 1) xs = xs.take l :: segments l fuel (xs.drop l) :=
  if_neg (by simpa using hxs)

theorem segments_nil (l fuel : Nat) : segments l fuel ([] : List α) = [] := by cases fuel <;> rfl

include hl

theorem take_segment_ne_nil {xs : List α} (hxs : xs ≠ []) : xs.take l ≠ [] := by
  rw [ne_eq, List.take_eq_nil_iff]
  exact not_or_intro (Nat.ne_of_gt hl) hxs

theorem drop_segment_lt {xs : List α} (hxs : xs ≠ []) : (xs.drop l).length < xs.length := by
  have := List.length_pos_iff.mpr hxs
  rw [List.length_drop]
  omega

include hg

theorem length_flatMap_segments : ∀ (fuel : Nat) (xs : List α), xs.length < fuel → ((segments l fuel xs).flatMap g).length = xs.length := by
  intro fuel
  induction fuel with
  | zero => exact fun xs h => absurd h (Nat.not_lt_zero _)
  | succ k ih =>
    intro xs hfuel
    by_cases hxs : xs = []
    · subst hxs; rfl
    rw [segments_cons l k hxs, List.flatMap_cons, List.length_append, hg _ (take_segment_ne_nil hl hxs),
      ih _ (Nat.lt_of_lt_of_le (drop_segment_lt hl hxs) (Nat.le_of_lt_succ hfuel)), ← List.length_append, List.take_append_drop]

/-- Segment `n` of what is made segment by segment is made of segment `n`. -/
theorem flatMap_segments_segment : ∀ (fuel : Nat) (xs : List α), xs.length < fuel → ∀ n, n * l < xs.length →
    (((segments l fuel xs).flatMap g).drop (n * l)).take l = g ((xs.drop (n * l)).take l) := by
  intro fuel
  induction fuel with
  | zero => exact fun xs h => absurd h (Nat.not_lt_zero _)
  | succ k ih =>
    intro xs hfuel n hn
    have hxs : xs ≠ [] := List.length_pos_iff.mp (Nat.zero_lt_of_lt hn)
    have hrest := Nat.lt_of_lt_of_le (drop_segment_lt hl hxs) (Nat.le_of_lt_succ hfuel)
    have hfirst := hg _ (take_segment_ne_nil hl hxs)
    rw [segments_cons l k hxs, List.flatMap_cons]
    by_cases hlong : xs.length ≤ l
    · obtain rfl : n = 0 := by
        by_contra h
        have := Nat.le_mul_of_pos_left l (Nat.pos_of_ne_zero h)
        omega
      rw [List.drop_eq_nil_of_le hlong, segments_nil, List.flatMap_nil, List.append_nil, Nat.zero_mul, List.drop_zero, List.drop_zero,
        List.take_of_length_le (hfirst.le.trans (List.length_take_le _ _))]
    have hfull : (g (xs.take l)).length = l := by rw [hfirst, List.length_take, Nat.min_eq_left (Nat.le_of_not_le hlong)]
    cases n with
    | zero => rw [Nat.zero_mul, List.drop_zero, List.drop_zero, List.take_left' hfull]
    | succ n =>
      rw [Nat.succ_mul, Nat.add_comm, ← List.drop_drop, ← List.drop_drop, List.drop_left' hfull]
      exact ih _ hrest n (by rw [List.length_drop]; rw [Nat.succ_mul] at hn; omega)

end

/-- The length of a segment of a command that has elements (R343). -/
abbrev cutLen (i : KInfo) : Nat := if i.param = 0 ∨ i.n.toNat < i.param.toNat then i.n.toNat else i.param.toNat

theorem segLen_eq {i : KInfo} {n : Nat} (hn : n = i.n.toNat) (hpos : 0 < n) : segLen i = cutLen i ∧ 0 < segLen i := by
  subst hn
  have hpar : i.param ≠ 0 → 0 < i.param.toNat := fun h => Nat.pos_of_ne_zero fun h0 => h (BitVec.eq_of_toNat_eq h0)
  unfold segLen
  rw [Nat.max_eq_left hpos]
  refine ⟨rfl, ?_⟩
  split
  · exact hpos
  · next h => exact hpar (not_or.mp h).1

/-! ### KSORT (R347) -/

/-- The measure that KSORT sorts by. -/
def sortAhead (i : KInfo) (a b : W32 × W32) : Bool := if i.flag then keyOrder i.kt b.1 < keyOrder i.kt a.1 else keyOrder i.kt a.1 < keyOrder i.kt b.1

theorem sortAhead_tie {i : KInfo} {m : Nat} {a b : W32 × W32} (ha : (keyOrder i.kt a.1 == m) = true) (hb : (keyOrder i.kt b.1 == m) = true) :
    sortAhead i b a = false := by
  rw [beq_iff_eq] at ha hb
  simp [sortAhead, ha, hb]

theorem sortPairs_eq (i : KInfo) (ps : List (W32 × W32)) :
    sortPairs i ps = (segments (segLen i) (ps.length + 1) ps).flatMap (stableSort (sortAhead i)) := rfl

theorem sortPairs_length {i : KInfo} {ps : List (W32 × W32)} (hps : ps.length = i.n.toNat) : (sortPairs i ps).length = ps.length := by
  obtain hnil | hpos := ps.length.eq_zero_or_pos
  · rw [List.length_eq_zero_iff.mp hnil]
    rfl
  · exact length_flatMap_segments (segLen_eq hps hpos).2 (fun x _ => stableSort_length _ x) _ _ (Nat.lt_succ_self _)

/-- KSORT sorts segment by segment. -/
theorem sortPairs_segment {i : KInfo} {ps : List (W32 × W32)} (hps : ps.length = i.n.toNat) (n : Nat) :
    ((sortPairs i ps).drop (n * cutLen i)).take (cutLen i) = stableSort (sortAhead i) ((ps.drop (n * cutLen i)).take (cutLen i)) := by
  by_cases hn : n * cutLen i < ps.length
  · obtain ⟨hlen, hpos⟩ := segLen_eq hps (Nat.zero_lt_of_lt hn)
    have hseg := flatMap_segments_segment hpos (fun x _ => stableSort_length (sortAhead i) x) _ _ (Nat.lt_succ_self _) n (by rwa [hlen])
    rw [hlen] at hseg
    rw [sortPairs_eq, hlen]
    exact hseg
  · rw [List.drop_eq_nil_of_le (Nat.le_of_not_lt hn), List.drop_eq_nil_of_le ((sortPairs_length hps).le.trans (Nat.le_of_not_lt hn)), List.take_nil]
    rfl

/-- A segment of KSORT's result: a stable permutation of the segment, in order or in reverse order (R347). -/
theorem sortSegment_spec (i : KInfo) (l : List (W32 × W32)) : let r := stableSort (sortAhead i) l
    r.Perm l ∧ (i.flag = false → r.Pairwise fun a b => keyOrder i.kt a.1 ≤ keyOrder i.kt b.1) ∧
      (i.flag = true → r.Pairwise fun a b => keyOrder i.kt b.1 ≤ keyOrder i.kt a.1) ∧
      ∀ m, r.filter (fun x => keyOrder i.kt x.1 == m) = l.filter (fun x => keyOrder i.kt x.1 == m) := by
  refine ⟨stableSort_perm _ l, fun hflag => ?_, fun hflag => ?_, fun m => stableSort_filter _ _ _ fun _ _ _ _ => sortAhead_tie⟩
  · exact stableSort_rises (m := fun a : W32 × W32 => keyOrder i.kt a.1) (fun a b => by simp [sortAhead, hflag]) l
  · exact stableSort_rises (m := fun a : W32 × W32 => OrderDual.toDual (keyOrder i.kt a.1)) (fun a b => by simp [sortAhead, hflag]) l

/-! ### KHIST (R348) -/

theorem histCounts_spec {bins shift : Nat} {start keys : List W32} {b : Nat} (hb : b < bins) :
    (histCounts bins shift start keys).1[b]? =
      some (start.getD b 0 + BitVec.ofNat 32 (keys.countP fun x => x.toNat / 2 ^ shift == b)) ∧
    (histCounts bins shift start keys).2 = BitVec.ofNat 32 (keys.countP fun x => Nat.ble bins (x.toNat / 2 ^ shift)) := by
  simp only [histCounts, List.countP_eq_length_filter, List.getElem?_map, List.getElem?_range hb]
  refine ⟨rfl, congrArg (fun p => BitVec.ofNat 32 (keys.filter p).length) (funext fun x => ?_)⟩
  rw [Bool.eq_iff_iff, decide_eq_true_iff, Nat.ble_eq]

/-! ### KSCAN (R349) -/

theorem scanFrom_length (kt : Nat) (acc : W32) (l : List W32) : (scanFrom kt acc l).length = l.length := by
  induction l generalizing acc with
  | nil => rfl
  | cons x r ih => rw [scanFrom, List.length_cons, ih, List.length_cons]

theorem scanSegment_length (kt : Nat) (l : List W32) : (scanSegment kt l).length = l.length := by
  cases l with
  | nil => rfl
  | cons x r => rw [scanSegment, List.length_cons, scanFrom_length, List.length_cons]

theorem scanFrom_getElem? {kt : Nat} {acc : W32} {l : List W32} {m : Nat} (hm : m < l.length) :
    (scanFrom kt acc l)[m]? = some ((l.take (m + 1)).foldl (keyAdd kt) acc) := by
  induction l generalizing acc m with
  | nil => exact absurd hm (Nat.not_lt_zero _)
  | cons x r ih =>
    cases m with
    | zero => rfl
    | succ m => exact ih (Nat.lt_of_succ_lt_succ hm)

/-- The sum of a segment up to and with element `m`. -/
def sumUpTo (kt : Nat) (l : List W32) (m : Nat) : W32 := ((l.drop 1).take m).foldl (keyAdd kt) (l.getD 0 0)

theorem scanSegment_getElem? {kt : Nat} {l : List W32} {m : Nat} (hm : m < l.length) : (scanSegment kt l)[m]? = some (sumUpTo kt l m) := by
  cases l with
  | nil => exact absurd hm (Nat.not_lt_zero _)
  | cons x r =>
    cases m with
    | zero => rfl
    | succ m => exact scanFrom_getElem? (Nat.lt_of_succ_lt_succ hm)

/-- The output of a segment: its sums, or those before each element. -/
def scanOut (i : KInfo) (l : List W32) : List W32 := if i.flag then 0 :: (scanSegment i.kt l).dropLast else scanSegment i.kt l

theorem scanOut_length (i : KInfo) {l : List W32} (hl : l ≠ []) : (scanOut i l).length = l.length := by
  have := List.length_pos_iff.mpr hl
  unfold scanOut
  split
  · rw [List.length_cons, List.length_dropLast, scanSegment_length]
    omega
  · exact scanSegment_length ..

theorem scanOut_getElem? {i : KInfo} {l : List W32} {m : Nat} (hm : m < l.length) :
    (scanOut i l)[m]? = some (if i.flag then (if m = 0 then 0 else sumUpTo i.kt l (m - 1)) else sumUpTo i.kt l m) := by
  unfold scanOut
  split
  · cases m with
    | zero => rfl
    | succ m =>
      rw [List.getElem?_cons_succ, List.getElem?_dropLast, scanSegment_length, if_pos (by omega), scanSegment_getElem? (by omega)]
      rfl
  · exact scanSegment_getElem? hm

theorem scanAll_out (i : KInfo) (xs : List W32) : (scanAll i xs).1 = (segments (segLen i) (xs.length + 1) xs).flatMap (scanOut i) := by
  simp only [scanAll, List.flatMap_map]
  rfl

theorem getLast?_flatten_of_ne_nil {α : Type} {l : List (List α)} (h : ∀ x ∈ l, x ≠ []) : l.getLast?.bind List.getLast? = l.flatten.getLast? := by
  obtain rfl | ⟨r, x, rfl⟩ := List.eq_nil_or_concat l
  · rfl
  · have hx : x ≠ [] := h x (by simp)
    simp [List.getLast?_eq_some_getLast hx]

/-- Every segment has elements. -/
theorem segments_ne_nil {α : Type} {l : Nat} (hl : 0 < l) : ∀ (fuel : Nat) (xs : List α), ∀ x ∈ segments l fuel xs, x ≠ [] := by
  intro fuel
  induction fuel with
  | zero => exact fun xs x h => absurd h List.not_mem_nil
  | succ k ih =>
    intro xs x hx
    by_cases hxs : xs = []
    · rw [hxs, segments_nil] at hx
      exact absurd hx List.not_mem_nil
    · rw [segments_cons l k hxs] at hx
      obtain rfl | hx := List.mem_cons.mp hx
      · exact take_segment_ne_nil hl hxs
      · exact ih _ x hx

theorem scanAll_last {i : KInfo} (hpos : 0 < segLen i) (xs : List W32) :
    (scanAll i xs).2 = ((segments (segLen i) (xs.length + 1) xs).flatMap (scanSegment i.kt)).getLast?.getD 0 := by
  simp only [scanAll, List.flatMap_def]
  rw [getLast?_flatten_of_ne_nil]
  intro x hx
  obtain ⟨y, hy, rfl⟩ := List.mem_map.mp hx
  have := List.length_pos_iff.mpr (segments_ne_nil hpos _ _ y hy)
  exact List.length_pos_iff.mp (by rwa [scanSegment_length])

/-- Element `n` of what is made segment by segment is made of its segment. -/
theorem flatMap_segments_getElem? {α β : Type} {l fuel : Nat} (hl : 0 < l) {g : List α → List β} (hg : ∀ x, x ≠ [] → (g x).length = x.length)
    {xs : List α} (hfuel : xs.length < fuel) {n : Nat} (hn : n < xs.length) :
    ((segments l fuel xs).flatMap g)[n]? = (g ((xs.drop (n / l * l)).take l))[n - n / l * l]? := by
  have hfirst := Nat.div_mul_le_self n l
  have hmod : n - n / l * l < l := by
    have := Nat.mod_lt n hl
    have := Nat.mod_add_div' n l
    omega
  rw [← flatMap_segments_segment hl hg fuel xs hfuel _ (Nat.lt_of_le_of_lt hfirst hn), List.getElem?_take, if_pos hmod, List.getElem?_drop,
    Nat.add_sub_cancel' hfirst]

/-- The sum of a list from its element `first` on, over `m` further elements. -/
def sumFrom (kt : Nat) (xs : List W32) (first m : Nat) : W32 := ((xs.drop (first + 1)).take m).foldl (keyAdd kt) (xs.getD first 0)

/-- The sums of a segment are sums of the list. -/
theorem sumUpTo_segment {kt : Nat} {xs : List W32} {first l m : Nat} (hm : m < l) :
    sumUpTo kt ((xs.drop first).take l) m = sumFrom kt xs first m := by
  have hhead : ((xs.drop first).take l).getD 0 0 = xs.getD first 0 := by
    rw [List.getD_eq_getElem?_getD, List.getElem?_take, if_pos (Nat.zero_lt_of_lt hm), List.getElem?_drop, Nat.add_zero, List.getD_eq_getElem?_getD]
  rw [sumUpTo, sumFrom, hhead, List.drop_take, List.take_take, List.drop_drop, Nat.min_eq_left (Nat.le_sub_one_of_lt hm)]

theorem scanAll_spec {i : KInfo} {xs : List W32} (hxs : xs.length = i.n.toNat) {n : Nat} (hn : n < xs.length) :
    let first := n / cutLen i * cutLen i
    (scanAll i xs).1[n]? = some (if i.flag then (if n = first then 0 else sumFrom i.kt xs first (n - first - 1))
      else sumFrom i.kt xs first (n - first)) ∧
    (n + 1 = xs.length → (scanAll i xs).2 = sumFrom i.kt xs first (n - first)) := by
  obtain ⟨hlen, hpos⟩ := segLen_eq hxs (Nat.zero_lt_of_lt hn)
  generalize cutLen i = len at *
  intro first
  have hfirst : first ≤ n := Nat.div_mul_le_self n len
  have hin : n - first < len := by
    have := Nat.mod_lt n (hlen ▸ hpos)
    have : n % len + first = n := Nat.mod_add_div' n len
    omega
  have hseg : n - first < ((xs.drop first).take len).length := by
    rw [List.length_take, List.length_drop]
    omega
  refine ⟨?_, fun hlast => ?_⟩
  · rw [scanAll_out, flatMap_segments_getElem? hpos (fun x => scanOut_length i) (Nat.lt_succ_self _) hn, hlen, scanOut_getElem? hseg,
      sumUpTo_segment hin, sumUpTo_segment (Nat.lt_of_le_of_lt (Nat.sub_le _ _) hin)]
    simp only [Nat.sub_eq_zero_iff_le, hfirst.ge_iff_eq']
  · rw [scanAll_last hpos, List.getLast?_eq_getElem?, length_flatMap_segments hpos (fun x _ => scanSegment_length _ x) _ _ (Nat.lt_succ_self _),
      Nat.sub_eq_of_eq_add hlast.symm,
      flatMap_segments_getElem? hpos (fun x _ => scanSegment_length i.kt x) (Nat.lt_succ_self _) hn, hlen, scanSegment_getElem? hseg,
      sumUpTo_segment hin]
    rfl

/-! ### KMERGE (R351) -/

/-- The keys of a list rise strictly. -/
abbrev risingKeys (l : List (W32 × W32)) : Prop := (l.map Prod.fst).Pairwise fun a b => a.ult b = true

/-- What KMERGE makes of two lists: keys of one list with their values, and common keys with the values combined unless that is a zero to be
dropped. -/
def inUnion (i : KInfo) (as bs : List (W32 × W32)) (n v : W32) : Prop :=
  ((n, v) ∈ as ∧ n ∉ bs.map Prod.fst) ∨ ((n, v) ∈ bs ∧ n ∉ as.map Prod.fst) ∨
    ∃ x y, (n, x) ∈ as ∧ (n, y) ∈ bs ∧ v = keyCombine i.kt i.comb x y ∧ (i.flag = true ∨ keyZero i.kt v = false)

section
variable {i : KInfo} {a b : W32 × W32} {as bs : List (W32 × W32)} {n v : W32}

theorem mem_keys {l : List (W32 × W32)} {n v : W32} (h : (n, v) ∈ l) : n ∈ l.map Prod.fst := List.mem_map_of_mem h

theorem inUnion_keys (h : inUnion i as bs n v) : n ∈ as.map Prod.fst ∨ n ∈ bs.map Prod.fst := by
  obtain ⟨h, -⟩ | ⟨h, -⟩ | ⟨x, -, h, -⟩ := h
  · exact .inl (mem_keys h)
  · exact .inr (mem_keys h)
  · exact .inl (mem_keys h)

theorem inUnion_nil_left : inUnion i [] bs n v ↔ (n, v) ∈ bs := by simp [inUnion]
theorem inUnion_nil_right : inUnion i as [] n v ↔ (n, v) ∈ as := by simp [inUnion]

/-- A key of the left list that the right one lacks. -/
theorem inUnion_cons_left (ha : a.1 ∉ bs.map Prod.fst) : inUnion i (a :: as) bs n v ↔ (n, v) = a ∨ inUnion i as bs n v := by
  have hb : ∀ {y}, (n, y) ∈ bs → n ≠ a.1 := fun hy heq => ha (heq ▸ mem_keys hy)
  by_cases hn : n = a.1
  · have hout : ∀ y, (n, y) ∉ bs := fun y hy => hb hy hn
    simp only [inUnion, hout, List.mem_cons, hn ▸ ha, not_false_eq_true, and_true, false_and, and_false, exists_false, or_false]
  · have hne : ∀ x, (n, x) ≠ a := fun x heq => hn (congrArg Prod.fst heq)
    simp only [inUnion, List.mem_cons, List.map_cons, hne, hn, false_or]

/-- A key of the right list that the left one lacks. -/
theorem inUnion_cons_right (hb : b.1 ∉ as.map Prod.fst) : inUnion i as (b :: bs) n v ↔ (n, v) = b ∨ inUnion i as bs n v := by
  by_cases hn : n = b.1
  · have hout : ∀ x, (n, x) ∉ as := fun x hx => hb (hn ▸ mem_keys hx)
    simp only [inUnion, hout, List.mem_cons, hn ▸ hb, not_false_eq_true, and_true, false_and, exists_false, or_false, false_or]
  · have hne : ∀ x, (n, x) ≠ b := fun x heq => hn (congrArg Prod.fst heq)
    simp only [inUnion, List.mem_cons, List.map_cons, hne, hn, false_or]

/-- A key that both lists have. -/
theorem inUnion_cons_both (hab : b.1 = a.1) (ha : a.1 ∉ as.map Prod.fst) (hb : a.1 ∉ bs.map Prod.fst) :
    inUnion i (a :: as) (b :: bs) n v ↔
      (n = a.1 ∧ v = keyCombine i.kt i.comb a.2 b.2 ∧ (i.flag = true ∨ keyZero i.kt v = false)) ∨ inUnion i as bs n v := by
  by_cases hn : n = a.1
  · subst hn
    have houta : ∀ x, (a.1, x) ∉ as := fun x hx => ha (mem_keys hx)
    have houtb : ∀ y, (a.1, y) ∉ bs := fun y hy => hb (mem_keys hy)
    have hma : ∀ x, (a.1, x) = a ↔ x = a.2 := fun x => Prod.ext_iff.trans (and_iff_right rfl)
    have hmb : ∀ y, (a.1, y) = b ↔ y = b.2 := fun y => Prod.ext_iff.trans (and_iff_right hab.symm)
    simp [inUnion, houta, houtb, hma, hmb, hab]
  · have hnea : ∀ x, (n, x) ≠ a := fun x heq => hn (congrArg Prod.fst heq)
    have hneb : ∀ x, (n, x) ≠ b := fun x heq => hn ((congrArg Prod.fst heq).trans hab)
    simp only [inUnion, List.mem_cons, List.map_cons, hnea, hneb, hab, hn, false_or, false_and]

/-- The first key of a rising list is below every other. -/
theorem risingKeys_cons {l : List (W32 × W32)} : risingKeys (a :: l) ↔ (∀ n ∈ l.map Prod.fst, a.1.ult n = true) ∧ risingKeys l := List.pairwise_cons

theorem ult_trans {x y z : W32} (hxy : x.ult y = true) (hyz : y.ult z = true) : x.ult z = true := by
  rw [BitVec.ult_iff_lt] at *
  exact BitVec.lt_trans hxy hyz

theorem ult_irrefl (x : W32) : x.ult x ≠ true := fun h => BitVec.lt_irrefl x (BitVec.ult_iff_lt.mp h)

theorem eq_of_not_ult {x y : W32} (hxy : ¬x.ult y = true) (hyx : ¬y.ult x = true) : y = x := by
  rw [BitVec.ult_iff_lt, BitVec.not_lt] at *
  exact BitVec.le_antisymm hxy hyx

theorem not_mem_of_below {l : List W32} {k : W32} (hk : ∀ n ∈ l, k.ult n = true) : k ∉ l := fun h => ult_irrefl k (hk k h)

end

/-- A list that holds the union of two lists, rising. -/
def isUnion (i : KInfo) (as bs r : List (W32 × W32)) : Prop := risingKeys r ∧ ∀ n v, (n, v) ∈ r ↔ inUnion i as bs n v

/-- A key below both lists may stand before their union. -/
theorem isUnion_rising_cons {i : KInfo} {as bs r : List (W32 × W32)} {x : W32 × W32} (hr : isUnion i as bs r)
    (ha : ∀ n ∈ as.map Prod.fst, x.1.ult n = true) (hb : ∀ n ∈ bs.map Prod.fst, x.1.ult n = true) : risingKeys (x :: r) := by
  refine risingKeys_cons.mpr ⟨fun n hn => ?_, hr.1⟩
  obtain ⟨⟨n, v⟩, hnv, rfl⟩ := List.mem_map.mp hn
  exact (inUnion_keys ((hr.2 n v).mp hnv)).elim (ha n) (hb n)

/-- KMERGE yields the union of two rising lists, rising (R351). -/
theorem mergeLists_isUnion (i : KInfo) (fuel : Nat) (as bs : List (W32 × W32)) (hfuel : as.length + bs.length < fuel) (ha : risingKeys as)
    (hb : risingKeys bs) : isUnion i as bs (mergeLists i fuel as bs) := by
  fun_induction mergeLists i fuel as bs with
  | case1 => exact absurd hfuel (Nat.not_lt_zero _)
  | case2 => exact ⟨hb, fun _ _ => inUnion_nil_left.symm⟩
  | case3 => exact ⟨ha, fun _ _ => inUnion_nil_right.symm⟩
  | case4 fuel a as b bs hlt ih =>
    obtain ⟨hlow, has⟩ := risingKeys_cons.mp ha
    have ih := ih (by simp only [List.length_cons] at hfuel ⊢; omega) has hb
    have hbelow : ∀ n ∈ (b :: bs).map Prod.fst, a.1.ult n = true :=
      List.forall_mem_cons.mpr ⟨hlt, fun n hn => ult_trans hlt ((risingKeys_cons.mp hb).1 n hn)⟩
    exact ⟨isUnion_rising_cons ih hlow hbelow, fun n v =>
      List.mem_cons.trans ((or_congr_right (ih.2 n v)).trans (inUnion_cons_left (not_mem_of_below hbelow)).symm)⟩
  | case5 fuel a as b bs hnlt hlt ih =>
    obtain ⟨hlow, hbs⟩ := risingKeys_cons.mp hb
    have ih := ih (by simp only [List.length_cons] at hfuel ⊢; omega) ha hbs
    have hbelow : ∀ n ∈ (a :: as).map Prod.fst, b.1.ult n = true :=
      List.forall_mem_cons.mpr ⟨hlt, fun n hn => ult_trans hlt ((risingKeys_cons.mp ha).1 n hn)⟩
    exact ⟨isUnion_rising_cons ih hbelow hlow, fun n v =>
      List.mem_cons.trans ((or_congr_right (ih.2 n v)).trans (inUnion_cons_right (not_mem_of_below hbelow)).symm)⟩
  | case6 fuel a as b bs hnab hnba v hkeep ih =>
    obtain ⟨hlowa, has⟩ := risingKeys_cons.mp ha
    obtain ⟨hlowb, hbs⟩ := risingKeys_cons.mp hb
    have hab := eq_of_not_ult hnab hnba
    have ih := ih (by simp only [List.length_cons] at hfuel; omega) has hbs
    refine ⟨isUnion_rising_cons ih hlowa (hab ▸ hlowb), fun n w => List.mem_cons.trans ?_⟩
    have hkeep : i.flag = true ∨ keyZero i.kt v = false := by simpa using hkeep
    rw [ih.2 n w, inUnion_cons_both hab (not_mem_of_below hlowa) (hab ▸ not_mem_of_below hlowb), Prod.mk.injEq]
    exact or_congr_left (and_congr_right fun _ => ⟨fun hw => ⟨hw, hw ▸ hkeep⟩, And.left⟩)
  | case7 fuel a as b bs hnab hnba v hdrop ih =>
    obtain ⟨hlowa, has⟩ := risingKeys_cons.mp ha
    obtain ⟨hlowb, hbs⟩ := risingKeys_cons.mp hb
    have hab := eq_of_not_ult hnab hnba
    have ih := ih (by simp only [List.length_cons] at hfuel; omega) has hbs
    refine ⟨ih.1, fun n w => ?_⟩
    have hdrop : ¬(i.flag = true ∨ keyZero i.kt v = false) := by simpa using hdrop
    rw [ih.2 n w, inUnion_cons_both hab (not_mem_of_below hlowa) (hab ▸ not_mem_of_below hlowb)]
    exact (or_iff_right fun ⟨_, hw, hk⟩ => hdrop (by rwa [hw] at hk)).symm

/-- Settles O36: the order of keys, then each function by the lemma about its lists. -/
theorem keyResults : Obligations.KeyResults := by
  refine ⟨⟨keyOrder_orders, fun i ps n _ hps => ?sort, topkToken_spec⟩, fun bins shift start keys b hb => histCounts_spec hb,
    fun i xs n _ hxs => ?scan, fun i as bs _ ha hb => ?merge⟩
  case sort =>
    obtain ⟨hperm, hup, hdown, htie⟩ := sortSegment_spec i ((ps.drop (n * cutLen i)).take (cutLen i))
    rw [← sortPairs_segment hps n] at hperm hup hdown htie
    exact ⟨sortPairs_length hps, hperm, hup, hdown, htie⟩
  case scan =>
    exact ⟨fun hn => (scanAll_spec hxs hn).1, fun hlast => (scanAll_spec hxs (Nat.lt_of_succ_le hlast.le)).2 hlast, fun hnil => hnil ▸ rfl⟩
  case merge => exact mergeLists_isUnion i _ as bs (Nat.lt_succ_self _) ha hb

end Sys2Proof.Machine
end

section
/-!
PROOFS. What the writes to device memory leave alone: all but that memory, its errors, the watches on it, the host's view of it and the device registers
(R238, R245, R393, R431).
-/

namespace Sys2Proof.Machine

/-- The state with all that a write to device memory may change wiped out. -/
def besideHbm (s : State) : State :=
  { s with mem := [], poisoned := [], waits := [], hostLines := [], hostOut := [], regs := DevRegs.init }

theorem count_besideHbm (s : State) (die i n : Nat) : besideHbm (s.count die i n) = besideHbm s := by
  unfold State.count
  split <;> rfl

theorem fireWatches_besideHbm (s : State) (a n : Nat) : besideHbm (fireWatches s a n) = besideHbm s := by
  unfold fireWatches
  split <;> rfl

theorem hbmStore_besideHbm (s : State) (a : Nat) (bs : List Byte) : besideHbm (hbmStore s a bs) = besideHbm s := by
  unfold hbmStore
  dsimp only
  rw [fireWatches_besideHbm, count_besideHbm]
  rfl

theorem hashStore_besideHbm (s : State) (pa : Nat) (bs : List Byte) : besideHbm (hashStore s pa bs) = besideHbm s := by
  unfold hashStore
  exact foldl_keeps besideHbm (fun t p => by rw [hbmStore_besideHbm]; rfl) _ s

theorem logRecord_besideHbm (s : State) (kind die unit : Nat) (detail : List Byte) : besideHbm (logRecord s kind die unit detail) = besideHbm s :=
  ringPut_keeps besideHbm hashStore_besideHbm s s.regs.lg _

theorem hbmWriteBy_besideHbm (byHost : Bool) (s : State) (a : Nat) (bs : List Byte) : besideHbm (hbmWriteBy byHost s a bs) = besideHbm s := by
  unfold hbmWriteBy logParts
  rw [foldl_keeps besideHbm fun t _ => logRecord_besideHbm t _ _ _ _, hbmStore_besideHbm]
  split <;> rfl

theorem writeHash_besideHbm (s : State) (pa : Nat) (bs : List Byte) : besideHbm (writeHash s pa bs) = besideHbm s := by
  unfold writeHash
  exact foldl_keeps besideHbm (fun t _ => hbmWriteBy_besideHbm false t _ _) _ s

theorem faultRecord_besideHbm (s : State) (bs : List Byte) : besideHbm (faultRecord s bs) = besideHbm s :=
  ringPut_keeps besideHbm writeHash_besideHbm s s.regs.fq bs

end Sys2Proof.Machine
end

section
/-!
PROOFS. Power-on reset, the boot from flash, device reset (R440 to R443), reports and counters (R439, R444): O57.
-/

namespace Sys2Proof.Machine

/-! ### Images (R443) -/

theorem bootSlot_verifies {s : State} {k i : Nat} (h : bootSlot s k = some i) : imageVerifies s k (Config.flash k i) = true :=
  List.find?_some (p := fun i => imageVerifies s k (Config.flash k i)) h

theorem bootSlot_none {s : State} {k : Nat} (h : bootSlot s k = none) :
    imageVerifies s k (Config.flash k 0) = false ∧ imageVerifies s k (Config.flash k 1) = false := by
  rw [bootSlot, List.find?_eq_none] at h
  exact ⟨Bool.eq_false_iff.mpr (h 0 (by decide)), Bool.eq_false_iff.mpr (h 1 (by decide))⟩

theorem imageVerifies_bounds {s : State} {k : Nat} {img : List Byte} (h : imageVerifies s k img = true) :
    rollbackOf s k ≤ imageVersion img ∧ Config.sha384 (slice img 64 1984) = Config.keyHash := by
  simp only [imageVerifies, Bool.and_eq_true, beq_iff_eq] at h
  obtain ⟨⟨⟨⟨-, hhash⟩, -⟩, -⟩, hversion⟩ := h
  exact ⟨BitVec.ule_iff_le.mp hversion, hhash⟩

theorem rollbackOf_bootImage (s : State) (k i : Nat) : rollbackOf (bootImage s k i) k =
    if leAt (Config.flash k i) 6 2 % 2 = 1 then imageVersion (Config.flash k i) else rollbackOf s k := by
  simp only [rollbackOf, bootImage, beq_iff_eq]
  split
  · rw [List.lookup_cons, beq_self_eq_true, Option.getD_some]
  · rfl

/-- A boot that stops names a KIND of its list. -/
theorem bootImages_failed {s : State} {ks : List Nat} {k : Nat} (h : (bootImages s ks).2 = some k) : k ∈ ks := by
  induction ks generalizing s with
  | nil => cases h
  | cons j ks ih =>
    rw [bootImages] at h
    split at h
    · cases h
      exact List.mem_cons_self
    · exact List.mem_cons_of_mem _ (ih h)

/-! ### What the boot steps leave alone -/

/-- The part of the package that the steps of R440 do not touch: memories, cores, plots, the time and which security processor serves. -/
def pastBoot (s : State) : Mem × Mem × Tbl Core × List Plot × BitVec 64 × Bool := (s.mem, s.hostMem, s.cores, s.plots, s.pace, s.regs.secM1)

theorem bootImages_pastBoot (ks : List Nat) (s : State) : pastBoot (bootImages s ks).1 = pastBoot s := by
  induction ks generalizing s with
  | nil => rfl
  | cons k ks ih =>
    rw [bootImages]
    split
    · rfl
    · exact ih _

/-- What is past the boot is as it was, field by field. -/
theorem pastBoot_eq {s t : State} (h : pastBoot t = pastBoot s) :
    t.mem = s.mem ∧ t.hostMem = s.hostMem ∧ t.cores = s.cores ∧ t.plots = s.plots ∧ t.pace = s.pace ∧ t.regs.secM1 = s.regs.secM1 := by
  simpa only [pastBoot, Prod.mk.injEq] using h

/-! ### BOOTSTAT (R441) -/

theorem bootWord_toNat (failover : Bool) (unit step code : BitVec 8) :
    (bootWord failover unit step code).toNat = (if failover then 2 ^ 24 else 0) + 2 ^ 16 * unit.toNat + 2 ^ 8 * step.toNat + code.toNat := by
  have happend : ∀ {w : Nat} (a : BitVec w) (b : BitVec 8), (a ++ b).toNat = a.toNat * 2 ^ 8 + b.toNat := fun a b => by
    rw [BitVec.toNat_append, ← Nat.shiftLeft_add_eq_or_of_lt b.isLt, Nat.shiftLeft_eq]
  simp only [bootWord, happend]
  cases failover <;> simp <;> omega

/-! ### Ramp tables (R440 step 3) -/

/-- A cluster after step 3: locked, with the table at its number where there is a legal one. -/
def rampLoaded (tabs : List Word) (k : Nat) (c : Cluster) : Cluster :=
  { c with lock := true, ramptab := match tabs[k]? with | some v => if rampLegal v then v else c.ramptab | none => c.ramptab }

theorem loadRamps_eq (s : State) (tabs : List Word) :
    loadRamps s tabs = (List.range 40).foldl (fun t k => t.modCluster k (rampLoaded tabs k)) s := rfl

theorem loadRamps_pastBoot (s : State) (tabs : List Word) : pastBoot (loadRamps s tabs) = pastBoot s := by
  rw [loadRamps_eq]
  generalize List.range 40 = ks
  exact foldl_keeps (f := fun t k => t.modCluster k (rampLoaded tabs k)) pastBoot (fun _ _ => rfl) ks s

theorem loadRamps_cluster (s : State) (tabs : List Word) {k : Nat} (hk : k < 40) :
    ∃ c, (loadRamps s tabs).cluster k = rampLoaded tabs k c := by
  obtain ⟨u, -, h⟩ := foldl_cluster (f := fun t k => t.modCluster k (rampLoaded tabs k))
    (fun t j hj => State.cluster_modCluster_other t _ hj.symm) (List.mem_range.mpr hk) List.nodup_range s
  exact ⟨u.cluster k, h.trans (State.cluster_modCluster_self u k _)⟩

theorem State.cluster_congr {s t : State} (h : t.clusters = s.clusters) (k : Nat) : t.cluster k = s.cluster k := congrArg (tget Cluster.init · k) h

theorem rampLoaded_spec {tabs : List Word} {k : Nat} (c : Cluster) : (rampLoaded tabs k c).lock = true ∧
    ∀ v, tabs[k]? = some v → rampLegal v = true → (rampLoaded tabs k c).ramptab = v := by
  refine ⟨rfl, fun v hv hlegal => ?_⟩
  simp only [rampLoaded, hv, hlegal, if_true]

/-! ### Steps 2 to 6 (R440) -/

section
variable (d : State) (failover : Bool) (tabs : List Word)

theorem bootFrom3_complete : bootFrom3 d failover none tabs =
    { loadRamps d tabs with powered := true, regs := { d.regs with bootstat := bootWord failover 0 6 1 } } := rfl

theorem bootFrom3_spec {t : State} (ht : bootFrom3 d failover none tabs = t) : pastBoot t = pastBoot d ∧ t.powered = true ∧
    t.regs.bootstat = bootWord failover 0 6 1 ∧
    ∀ k, k < 40 → (t.cluster k).lock = true ∧ ∀ v, tabs[k]? = some v → rampLegal v = true → (t.cluster k).ramptab = v := by
  rw [bootFrom3_complete] at ht
  subst ht
  refine ⟨?_, rfl, rfl, fun k hk => ?_⟩
  · obtain ⟨hmem, hhost, hcores, hplots, hpace, -⟩ := pastBoot_eq (loadRamps_pastBoot d tabs)
    simp only [pastBoot, hmem, hhost, hcores, hplots, hpace]
  · obtain ⟨c, hc⟩ := loadRamps_cluster d tabs hk
    rw [State.cluster_congr (s := loadRamps d tabs) rfl, hc]
    exact rampLoaded_spec c

theorem bootFrom2_flash : bootFrom2 d failover none tabs = match bootImages d [1, 2, 3, 4] with
    | (t, some k) => bootStops t failover (2, 0x10, BitVec.ofNat 8 k)
    | (t, none) => bootFrom3 t failover none tabs := rfl

/-- Steps 2 to 6: the package has power exactly when an image of each KIND has booted. -/
theorem bootFrom2_spec {t : State} (ht : bootFrom2 d failover none tabs = t) :
    pastBoot t = pastBoot d ∧ t.powered = (bootImages d [1, 2, 3, 4]).2.isNone ∧
    t.regs.bootstat.toNat =
      (if failover then 2 ^ 24 else 0) + (match (bootImages d [1, 2, 3, 4]).2 with | none => 0x0601 | some k => 2 ^ 16 * k + 0x0210) ∧
    (t.powered = true →
      ∀ k, k < 40 → (t.cluster k).lock = true ∧ ∀ v, tabs[k]? = some v → rampLegal v = true → (t.cluster k).ramptab = v) := by
  have hpast := bootImages_pastBoot [1, 2, 3, 4] d
  have hfailed := @bootImages_failed d [1, 2, 3, 4]
  rw [bootFrom2_flash] at ht
  generalize bootImages d [1, 2, 3, 4] = r at hpast hfailed ht
  obtain ⟨u, stop⟩ := r
  cases stop with
  | none =>
    obtain ⟨hkeep, hpower, hstat, hcl⟩ := bootFrom3_spec u failover tabs ht
    refine ⟨hkeep.trans hpast, hpower, ?_, fun _ => hcl⟩
    rw [hstat, bootWord_toNat]
    exact Nat.add_assoc _ _ _
  | some k =>
    subst ht
    refine ⟨hpast, rfl, ?_, fun h => absurd h Bool.false_ne_true⟩
    have hk : k ∈ [1, 2, 3, 4] := hfailed rfl
    have hbyte : (BitVec.ofNat 8 k).toNat = k := Nat.mod_eq_of_lt (lt_of_le_of_lt ((by decide : ∀ x ∈ [1, 2, 3, 4], x ≤ 4) k hk) (by decide))
    have hstat : (bootStops u failover (2, 0x10, BitVec.ofNat 8 k)).regs.bootstat = bootWord failover (BitVec.ofNat 8 k) 2 0x10 := rfl
    rw [hstat, bootWord_toNat, hbyte]
    show _ = _ + (2 ^ 16 * k + 0x210)
    have hcode : 2 ^ 8 * (2 : BitVec 8).toNat + (0x10 : BitVec 8).toNat = 0x210 := by decide
    omega

end

/-! ### Resets (R440, R442) -/

theorem powerOnReset_boots (s : State) (tabs : List Word) {m0 m1 : Bool} (h : m0 = true ∨ m1 = true) : exec (.powerOnReset m0 m1 none tabs) s =
    .next (bootFrom2 { darkPackage s with regs := { (darkPackage s).regs with kept := s.regs.kept, secM1 := !m0 } } (!m0) none tabs) := by
  have hworks : (!m0 && !m1) = false := by rcases h with rfl | rfl <;> simp
  show execPowerOnReset m0 m1 none tabs s = _
  simp only [execPowerOnReset, hworks, Option.map_none, Option.getD_none, Bool.not_true, Bool.false_eq_true, if_false]

theorem powerOnReset_dark (s : State) (tabs : List Word) :
    ∃ t, exec (.powerOnReset false false none tabs) s = .next t ∧ t.powered = false ∧ t.regs.bootstat = 0x0211 := ⟨_, rfl, rfl, rfl⟩

theorem devrst_ignored {s : State} (h : startedUp s = false) (f : Option BootFail) (tabs : List Word) : exec (.devrst f tabs) s = .next s := by
  show execDevrst f tabs s = _
  simp only [execDevrst, h, Bool.not_false, Bool.true_or, if_true]

/-- The package that a device reset boots: memory and the choice of security processor stay (R442). -/
def deviceReset (s : State) : State :=
  { darkPackage s with mem := s.mem, poisoned := s.poisoned, images := s.images, regs := { (darkPackage s).regs with kept := s.regs.kept, secM1 := s.regs.secM1 } }

theorem devrst_resets {s : State} (h : startedUp s = true) (tabs : List Word) :
    exec (.devrst none tabs) s = .next (bootFrom3 (deviceReset s) false none tabs) := by
  show execDevrst none tabs s = _
  simp only [execDevrst, h, Option.map_none, Option.getD_none, Bool.not_true, Bool.or_self, Bool.false_eq_true, if_false]
  rfl

theorem fabricDie_congr {s t : State} (h : t.regs.secM1 = s.regs.secM1) : fabricDie t = fabricDie s := by
  rw [fabricDie, h]
  rfl

/-! ### Reports (R444) -/

/-- A report that is due is written at ATADDR (R444). -/
theorem attestationReportDone_writes {s : State} (h : s.regs.atdone = false) : ∃ t, exec .attestationReportDone s = .next t ∧ t.regs.atdone = true ∧
    t.cores = s.cores ∧ t.hostMem = s.hostMem ∧
    t.mem = (writeHash s s.regs.ataddr.toNat (reportBytes s (readHash s s.regs.ataddr.toNat 32))).mem := by
  have hexec : exec .attestationReportDone s = execAttestationReportDone s := rfl
  have hbeside := writeHash_besideHbm s s.regs.ataddr.toNat (reportBytes s (readHash s s.regs.ataddr.toNat 32))
  rw [hexec, execAttestationReportDone, h, if_neg Bool.false_ne_true]
  dsimp only
  generalize writeHash s s.regs.ataddr.toNat (reportBytes s (readHash s s.regs.ataddr.toNat 32)) = t at hbeside
  have hcores : t.cores = s.cores := (congrArg State.cores hbeside :)
  have hhost : t.hostMem = s.hostMem := (congrArg State.hostMem hbeside :)
  exact ⟨_, rfl, rfl, hcores, hhost, rfl⟩

/-- Settles O57: the steps of the boot by what each leaves and sets, the images one by one, then reports and counters. -/
theorem resetBootAndReports : Obligations.ResetBootAndReports := by
  intro s tabs
  refine ⟨fun m0 m1 hm => ?power, fun u k i => ⟨bootSlot_verifies, bootSlot_none, imageVerifies_bounds, rollbackOf_bootImage u k i⟩,
    powerOnReset_dark s tabs, fun hup => ?device, fun hdown f => devrst_ignored hdown f tabs, fun hdone => ?atgo, fun hbusy => ?report,
    fun hdone => ?done, fun die => rfl⟩
  case power =>
    obtain ⟨hpast, hpower, hstat, hcl⟩ := bootFrom2_spec
      { darkPackage s with regs := { (darkPackage s).regs with kept := s.regs.kept, secM1 := !m0 } } (!m0) tabs rfl
    obtain ⟨hmem, hhost, hcores, hplots, hpace, -⟩ := pastBoot_eq hpast
    refine ⟨_, powerOnReset_boots s tabs hm, hmem, hcores, hplots, hpace, hhost, hpower, hstat.trans ?_, hcl⟩
    cases m0 <;> rfl
  case device =>
    obtain ⟨hpast, hpower, hstat, -⟩ := bootFrom3_spec (deviceReset s) false tabs rfl
    obtain ⟨hmem, hhost, hcores, hplots, -, hsec⟩ := pastBoot_eq hpast
    exact ⟨_, devrst_resets hup tabs, hpower, hmem, hhost, hcores, hplots, hstat, fabricDie_congr hsec⟩
  case atgo =>
    have hexec : exec .atgo s = execAtgo s := rfl
    rw [hexec, execAtgo, hdone]
    rfl
  case report =>
    have hexec : exec .atgo s = execAtgo s := rfl
    rw [hexec, execAtgo, hbusy]
    exact ⟨rfl, attestationReportDone_writes hbusy⟩
  case done =>
    have hexec : exec .attestationReportDone s = execAttestationReportDone s := rfl
    rw [hexec, execAttestationReportDone, hdone]
    rfl

end Sys2Proof.Machine
end

section
/-!
PROOFS. Writes to the control space, the debug window and the size of BAR2 (R395, R420, R428, R430 to R433, R436, R440): O55.
-/

namespace Sys2Proof.Machine

section
variable (s : State) (v : Word)

/-! ### The windows (R430) -/

theorem controlWrite_reaches (hup : portsUp s = true) {off : Nat} (halign : off % 8 = 0) :
    exec (.registerWrite .control off v) s = .next (bar0Write s off v) := by
  show execRegisterWrite .control off v s = _
  simp only [execRegisterWrite, halign, hup, ne_eq, not_true_eq_false, decide_false, Bool.not_true, Bool.or_self, Bool.false_eq_true, if_false]

theorem controlWrite_untrained (hup : portsUp s = false) (off : Nat) : exec (.registerWrite .control off v) s = .next s := by
  show execRegisterWrite .control off v s = _
  simp only [execRegisterWrite, hup, Bool.not_false, Bool.or_true, if_true]

theorem debugWrite_reaches (hpower : s.powered = true) {off : Nat} (halign : off % 8 = 0) :
    exec (.registerWrite .debug off v) s = .next (bar4Write s off v) := by
  show execRegisterWrite .debug off v s = _
  simp only [execRegisterWrite, halign, hpower, ne_eq, not_true_eq_false, decide_false, Bool.not_true, Bool.or_self, Bool.false_eq_true, if_false]

theorem debugWrite_unpowered (hpower : s.powered = false) (off : Nat) : exec (.registerWrite .debug off v) s = .next s := by
  show execRegisterWrite .debug off v s = _
  simp only [execRegisterWrite, hpower, Bool.not_false, Bool.or_true, if_true]

theorem windowWrite_misaligned (bar4 : Bool) {off : Nat} (halign : off % 8 ≠ 0) :
    exec (.registerWrite (if bar4 then .debug else .control) off v) s = .next s := by
  show execRegisterWrite (if bar4 then .debug else .control) off v s = _
  cases bar4 <;> simp only [execRegisterWrite, halign, ne_eq, not_false_eq_true, decide_true, Bool.true_or, Bool.false_eq_true, if_true, if_false]

theorem memoryWrite_resizes (hpower : s.powered = true) {f : Nat} (hf : f < 2) (hlo : 30 ≤ v.toNat) (hhi : v.toNat ≤ 39) :
    exec (.registerWrite .memory f v) s = .next { s with regs := { s.regs with bar2 := tset 39 s.regs.bar2 f v.toNat } } := by
  have hok : (decide (2 ≤ f) || decide (v.toNat < 30) || decide (39 < v.toNat)) = false := by
    rw [decide_eq_false (Nat.not_le.mpr hf), decide_eq_false (Nat.not_lt.mpr hlo), decide_eq_false (Nat.not_lt.mpr hhi)]
    rfl
  show Host.Outcome.next (if s.powered then bar2Write s f v else s) = _
  rw [if_pos hpower, bar2Write, hok]
  rfl

/-! ### Registers of clusters (R420) -/

theorem bar0Write_cluster {k j : Nat} (hk : k < 40) (hj : j < 64) : bar0Write s (0x400 + 64 * k + j) v = clusterWrite s k j v := by
  have hlow : ¬0x400 + 64 * k + j < 0x400 := by omega
  have hhigh : 0x400 + 64 * k + j < 0xE00 := by omega
  have hnum : (0x400 + 64 * k + j - 0x400) / 64 = k := by omega
  have hreg : (0x400 + 64 * k + j - 0x400) % 64 = j := by omega
  rw [bar0Write, if_neg hlow, if_pos hhigh, hnum, hreg]

theorem clusterWrite_lock {k : Nat} (hk : k < 40) (hcount : v.extractLsb' 16 32 = 0) (hlock : v.getLsbD 0 = true) :
    .next (clusterWrite s k 0x38 v) = exec (.lock k) s := by
  rw [lock_locks hk]
  show Host.Outcome.next (if v.getLsbD 0 then (if v.extractLsb' 16 32 == 0 then s else _).modCluster k _ else _) = _
  rw [hlock, hcount]
  rfl

/-! ### Registers of queue pairs (R436) -/

theorem bar0Write_qp {port q i : Nat} (hport : port < 4) (hq : q < 4096) (hi : i < 32) :
    bar0Write s (0x1010000 + 0x400000 * port + 256 * q + 8 * i) v = qpWrite s port q i v := by
  generalize hoff : 0x1010000 + 0x400000 * port + 256 * q + 8 * i = off
  have hnum : (off - 0x1000000) / 0x400000 = port := by omega
  have hblock : off % 0x400000 = 0x10000 + 256 * q + 8 * i := by omega
  have hctl : bar0Write s off v = ethBlockWrite s port (0x10000 + 256 * q + 8 * i) v := by
    have hlow : ¬off < 0x400 := by omega
    have hcluster : ¬off < 0xE00 := by omega
    have haddr : (off == 0x1000) = false := beq_false_of_ne (by omega)
    have hgo : (off == 0x1008) = false := beq_false_of_ne (by omega)
    have hdie : decide (off < 0x1700) = false := decide_eq_false (by omega)
    have heth : (decide (0x1000000 ≤ off) && decide (off < 0x2000000)) = true := by
      rw [decide_eq_true (by omega), decide_eq_true (by omega), Bool.true_and]
    simp only [bar0Write, hlow, hcluster, haddr, hgo, hdie, heth, hnum, hblock, Bool.and_false, Bool.false_and, Bool.false_eq_true, if_false, if_true]
  have hbase : 0x10000 + 256 * q + 8 * i - 0x10000 = 256 * q + 8 * i := by rw [Nat.add_assoc, Nat.add_sub_cancel_left]
  have hpair : (256 * q + 8 * i) / 256 = q := by omega
  have hreg : (256 * q + 8 * i) % 256 / 8 = i := by omega
  rw [hctl, ethBlockWrite, if_neg (by omega), if_pos (by omega), hbase, hpair, hreg]

/-! ### The debug window (R140, R433) -/

theorem bar4Write_locked (hsession : s.regs.session = false) {off : Nat} (hoff : off ≠ 0) : bar4Write s off v = s := by
  simp only [bar4Write, hsession, beq_false_of_ne hoff, Bool.not_false, Bool.false_eq_true, if_false, if_true]

theorem bar4Write_register (hsession : s.regs.session = true) {c r : Nat} (hc : c < 320) (hr : r < 32) :
    bar4Write s (0x100000 + 0x1000 * c + 0x100 + 8 * r) v = s.modCore c fun k => debugReg k r v := by
  generalize hoff : 0x100000 + 0x1000 * c + 0x100 + 8 * r = off
  have hcore : (off - 0x100000) / 0x1000 = c := by omega
  have hblock : (off - 0x100000) % 0x1000 = 0x100 + 8 * r := by omega
  have hreg : (0x100 + 8 * r - 0x100) / 8 = r := by rw [Nat.add_sub_cancel_left, Nat.mul_div_cancel_left r (by decide)]
  have hwin : bar4Write s off v = coreWrite s c (0x100 + 8 * r) v := by
    have hctl : (off == 0) = false := beq_false_of_ne (by omega)
    have hblocks : (decide (0x100000 ≤ off) && decide (off < 0x240000)) = true := by
      rw [decide_eq_true (by omega), decide_eq_true (by omega), Bool.true_and]
    simp only [bar4Write, hctl, hsession, hblocks, hcore, hblock, Bool.not_true, Bool.false_eq_true, if_false, if_true]
  rw [hwin]
  generalize hoff : 0x100 + 8 * r = off at hreg
  have hbp : ¬off < 0x80 := by omega
  have hother : ∀ n ∈ [0x88, 0x90, 0x98, 0xA0], (off == n) = false := by
    simp only [List.forall_mem_cons, beq_eq_false_iff_ne]
    refine ⟨?_, ?_, ?_, ?_, List.forall_mem_nil _⟩ <;> omega
  obtain ⟨h1, h2, h3, h4, -⟩ := by simpa only [List.forall_mem_cons] using hother
  have hregs : (decide (0x100 ≤ off) && decide (off < 0x200)) = true := by
    rw [decide_eq_true (by omega), decide_eq_true (by omega), Bool.true_and]
  simp only [coreWrite, hbp, h1, h2, h3, h4, hregs, hreg, Bool.false_eq_true, if_false, if_true]

theorem debugReg_running {k : Core} (h : k.stopped = false) (r : Nat) : debugReg k r v = k := by
  simp only [debugReg, h, Bool.not_false, Bool.true_or, if_true]

theorem debugReg_zero (k : Core) : debugReg k 0 v = k := by
  simp only [debugReg, beq_self_eq_true, Bool.or_true, Bool.true_or, if_true]

end

/-- Settles O55: each window by what its offset names. -/
theorem deviceRegisterWrites : Obligations.DeviceRegisterWrites := by
  intro s v w regs
  refine ⟨controlWrite_untrained s v, fun hup => ?control, fun bar4 off => windowWrite_misaligned s v bar4, fun off hpower => debugWrite_unpowered s v hpower off,
    fun f hf hpower hlo hhi => memoryWrite_resizes s v hpower hf hlo hhi, fun off => rfl, fun off hpower hsession hoff => ?locked,
    fun hpower => debugWrite_reaches s v hpower rfl, fun c r hc hr hpower hsession => ?register⟩
  case control =>
    have hreach : ∀ off, off % 8 = 0 → w false off = .next (bar0Write s off v) := fun off => controlWrite_reaches s v hup
    refine ⟨hreach _ rfl, hreach _ rfl, hreach _ rfl, hreach _ rfl, hreach _ rfl, hreach _ rfl, hreach _ rfl, fun hset => ?_, hreach _ rfl,
      fun k hk => ?_, fun port q hport hq => ?_⟩
    · have hbit : ∀ x y : State, (if v.getLsbD 0 then x else y) = x := fun x y => if_pos hset
      exact ⟨(hreach _ rfl).trans (congrArg _ (hbit _ s)), (hreach _ rfl).trans (congrArg _ (hbit _ s)), (hreach _ rfl).trans (congrArg _ (hbit _ s))⟩
    · have hcluster : ∀ j, j < 64 → j % 8 = 0 → w false (0x400 + 64 * k + j) = .next (clusterWrite s k j v) := fun j hj halign =>
        (hreach _ (by omega)).trans (congrArg _ (bar0Write_cluster s v hk hj))
      exact ⟨hcluster 0x08 (by decide) rfl, hcluster 0x30 (by decide) rfl, fun hcount hlock =>
        (hcluster 0x38 (by decide) rfl).trans (clusterWrite_lock s v hk hcount hlock)⟩
    · have hpair : ∀ i, i < 32 → w false (0x1010000 + 0x400000 * port + 256 * q + 8 * i) = .next (qpWrite s port q i v) := fun i hi =>
        (hreach _ (by omega)).trans (congrArg _ (bar0Write_qp s v hport hq hi))
      exact ⟨hpair 0 (by decide), hpair 20 (by decide), hpair 21 (by decide), hpair 22 (by decide)⟩
  case locked =>
    by_cases halign : off % 8 = 0
    · exact (debugWrite_reaches s v hpower halign).trans (congrArg _ (bar4Write_locked s v hsession hoff))
    · exact windowWrite_misaligned s v true halign
  case register =>
    exact ⟨(debugWrite_reaches s v hpower (by omega)).trans (congrArg _ (bar4Write_register s v hsession hc hr)), fun h => debugReg_running v h r,
      debugReg_zero v _⟩

end Sys2Proof.Machine
end

section
/-!
PROOFS. The nodes of a task graph, the queue set, GO and the waits (R389 to R401): O45.
-/

namespace Sys2Proof.Machine

/-! ### Fields of STATE words (R389) -/

/-- ST and PENDING are written alone. -/
theorem stateWord_fields (v : Word) (st : BitVec 8) (p : BitVec 16) : nodeSt (withSt v st) = st ∧ nodePending (withSt v st) = nodePending v ∧
    nodePending (withPending v p) = p ∧ nodeSt (withPending v p) = nodeSt v ∧ nodeInit (withPending v p) = nodeInit v := by
  unfold withSt withPending nodeSt nodePending nodeInit
  refine ⟨?_, ?_, ?_, ?_, ?_⟩
  · rw [fld_app_hi _ _ _ _ (by decide), fld_app_lo _ _ _ _ (by decide)]
    exact fld_all st
  · rw [fld_app_hi _ _ _ _ (by decide), fld_app_hi _ _ _ _ (by decide)]
    exact fld_fld v 16 48 0 16 (by decide)
  · rw [fld_app_hi _ _ _ _ (by decide), fld_app_lo _ _ _ _ (by decide)]
    exact fld_all p
  · rw [fld_app_lo _ _ _ _ (by decide)]
    exact fld_fld v 0 16 8 8 (by decide)
  · rw [fld_app_hi _ _ _ _ (by decide), fld_app_hi _ _ _ _ (by decide)]
    exact fld_fld v 32 32 0 16 (by decide)

theorem field_beq_zero {w : Nat} {b : BitVec w} {lo len : Nat} (h : b.toNat / 2 ^ lo % 2 ^ len = 0) : (b.extractLsb' lo len == 0) = true :=
  beq_iff_eq.mpr (not_ne_iff.mp fun hne => (field_ne_zero b lo len).mp hne h)

theorem mult8_of_mod {a : Word} (h : a.toNat % 8 = 0) : mult8 a = true :=
  field_beq_zero (by omega)

/-! ### Nodes (R391 to R394) -/

section
variable {s : State} {n : GraphFields}

theorem graphNode_broken (hbad : nodeOk n = false) (ok : Bool) (f : State → State) :
    graphNode s n ok f = .next (nodeFault (freeWalker s) s.cur.node cFORMAT s.cur.node) := by
  simp only [graphNode, hbad, Bool.false_and, Bool.false_eq_true, if_false]

theorem nodeRead_ok {t : State} {node va v : Word} (h : gread t va = .ok v) (f : Word → State) : nodeRead t node va f = f v := by
  simp only [nodeRead, h]

theorem signalWord_ok {t u : State} {node v : Word} (hread : n.body2.getLsbD 0 = true → gread t n.body0 = .ok v)
    (hstore : n.body2.getLsbD 0 = false → v = 0) (hwrite : gwrite t n.body0 (v + n.body1) = .ok u) (f : State → State) :
    signalWord t node n f = f u := by
  cases hadd : n.body2.getLsbD 0 with
  | false =>
    rw [hstore hadd] at hwrite
    simp only [signalWord, hadd, Bool.false_eq_true, if_false, hwrite]
  | true => simp only [signalWord, hadd, if_true, hread hadd, hwrite]

theorem signalOk_of (haddr : n.body0.toNat % 8 = 0) (hmode : n.body2.toNat < 2) : signalOk n = true := by
  rw [signalOk, mult8_of_mod haddr, field_beq_zero (by omega)]
  rfl

theorem waitOk_of (haddr : n.body0.toNat % 8 = 0) (hmode : n.body2.toNat < 4) : waitOk n = true := by
  rw [waitOk, mult8_of_mod haddr, field_beq_zero (by omega)]
  rfl

section
variable (hok : nodeOk n = true)
include hok

theorem graphNode_runs {ok : Bool} (hfields : ok = true) (f : State → State) : graphNode s n ok f = .next (f (freeWalker s)) := by
  simp only [graphNode, hok, hfields, Bool.and_self, if_true]

theorem graphCond_tests (haddr : n.body0.toNat % 8 = 0) (hzero : n.body2 = 0) {v : Word} (hv : gread (freeWalker s) n.body0 = .ok v) :
    execGraphCond n s = .next (nodeDone (freeWalker s) s.cur.node [if v &&& n.body1 ≠ 0 then n.succ0 else n.succ1, n.succ2, n.succ3]) := by
  have hfields : (mult8 n.body0 && n.body2 == 0) = true := by rw [mult8_of_mod haddr, hzero]; rfl
  rw [execGraphCond, graphNode_runs hok hfields, nodeRead_ok hv]
  simp only [bne_iff_ne]

theorem graphJoin_releases (h0 : n.body0 = 0) (h1 : n.body1 = 0) (h2 : n.body2 = 0) :
    execGraphJoin n s = .next (nodeDone (freeWalker s) s.cur.node (succsOf n)) := by
  have hfields : (n.body0 == 0 && n.body1 == 0 && n.body2 == 0) = true := by rw [h0, h1, h2]; rfl
  rw [execGraphJoin, graphNode_runs hok hfields]

section
variable (haddr : n.body0.toNat % 8 = 0) {v : Word} {u : State} (hread : n.body2.getLsbD 0 = true → gread (freeWalker s) n.body0 = .ok v)
  (hstore : n.body2.getLsbD 0 = false → v = 0) (hwrite : gwrite (freeWalker s) n.body0 (v + n.body1) = .ok u) (hmode : n.body2.toNat < 2)
include haddr hread hstore hwrite hmode

theorem signal_releases : execSignal n s = .next (nodeDone u s.cur.node (succsOf n)) := by
  rw [execSignal, graphNode_runs hok (signalOk_of haddr hmode), signalWord_ok hread hstore hwrite]

/-- END writes its word, becomes DONE and is counted (R391). -/
theorem graphEnd_counts (hsuccs : ∀ a ∈ succsOf n, a = 0) {x : Word} {w : State} (hnode : gread u s.cur.node = .ok x)
    (hdone : gwrite u s.cur.node (withSt x stDONE) = .ok w) :
    execGraphEnd n s = .next { w with regs := { w.regs with gdone := w.regs.gdone + 1 } } := by
  have hfields : (signalOk n && (succsOf n).all fun a => a == 0) = true := by
    rw [signalOk_of haddr hmode, List.all_eq_true.mpr fun a ha => beq_iff_eq.mpr (hsuccs a ha)]
    rfl
  rw [execGraphEnd, graphNode_runs hok hfields, signalWord_ok hread hstore hwrite]
  simp only [hnode, hdone]

end

end

/-! ### WAITM (R391, R393) -/

/-- The condition of a WAITM, case by case (R391). -/
def waitCond (c : Nat) (v w : Word) : Prop := c = 0 ∧ v = w ∨ c = 1 ∧ v ≠ w ∨ c = 2 ∧ w.toNat ≤ v.toNat ∨ c = 3 ∧ v ≠ 0

theorem waitHolds_iff (c : BitVec 2) (v w : Word) : waitHolds c v w = true ↔ waitCond c.toNat v w := by
  have hc : ∀ c : BitVec 2, c = 0 ∨ c = 1 ∨ c = 2 ∨ c = 3 := by decide
  obtain rfl | rfl | rfl | rfl := hc c <;> simp [waitHolds, waitCond]

theorem low_code {b : Word} (h : b.toNat < 4) : (b.extractLsb' 0 2).toNat = b.toNat := by
  rw [BitVec.extractLsb'_toNat, Nat.shiftRight_zero]
  exact Nat.mod_eq_of_lt h

section
variable (hok : nodeOk n = true) (haddr : n.body0.toNat % 8 = 0) (hmode : n.body2.toNat < 4) {v : Word} (hv : gread (freeWalker s) n.body0 = .ok v)
include hok haddr hmode hv

theorem waitm_waits (hnot : ¬waitCond n.body2.toNat v n.body1) : execWaitm n s = .next { freeWalker s with waits := s.waits ++
    [{ node := s.cur.node, qp := none, line := freeLine (freeWalker s) n.body0, since := s.pace, fired := false }] } := by
  rw [← low_code hmode, ← waitHolds_iff, Bool.not_eq_true] at hnot
  rw [execWaitm, graphNode_runs hok (waitOk_of haddr hmode), waitTest, nodeRead_ok hv]
  simp only [hnot, Bool.not_false, if_true]
  rfl

theorem waitm_releases (hholds : waitCond n.body2.toNat v n.body1) (hplain : n.body2.toNat ≠ 3) :
    execWaitm n s = .next (nodeDone (freeWalker s) s.cur.node (succsOf n)) := by
  have hcode : (n.body2.extractLsb' 0 2 == 3) = false := beq_false_of_ne fun h => hplain ((low_code hmode).symm.trans (congrArg BitVec.toNat h))
  rw [← low_code hmode, ← waitHolds_iff] at hholds
  rw [execWaitm, graphNode_runs hok (waitOk_of haddr hmode), waitTest, nodeRead_ok hv]
  simp only [hholds, hcode, Bool.not_true, Bool.false_and, Bool.false_eq_true, if_false, List.append_nil]

/-- A node that waits for an address releases the node at it too (R391). -/
theorem waitm_releases_found (hholds : waitCond n.body2.toNat v n.body1) (hfound : n.body2.toNat = 3) (halign : v.toNat % 64 = 0) :
    execWaitm n s = .next (nodeDone (freeWalker s) s.cur.node (succsOf n ++ [v])) := by
  have hcode : (n.body2.extractLsb' 0 2 == 3) = true := beq_iff_eq.mpr (BitVec.eq_of_toNat_eq ((low_code hmode).trans hfound))
  have hfield : (v.extractLsb' 0 6 != 0) = false := by rw [bne, field_beq_zero (by omega)]; rfl
  rw [← low_code hmode, ← waitHolds_iff] at hholds
  rw [execWaitm, graphNode_runs hok (waitOk_of haddr hmode), waitTest, nodeRead_ok hv]
  simp only [hholds, hcode, hfield, Bool.not_true, Bool.and_false, Bool.false_eq_true, if_false, if_true]

end

/-! ### WHILE (R391, R392) -/

section
variable (hok : nodeOk n = true) (haddr : n.body0.toNat % 8 = 0) (hlow : 1 ≤ n.body2.toNat) (hhigh : n.body2.toNat ≤ 4096) (h2 : n.succ2 = 0)
  (h3 : n.succ3 = 0) (hinit : n.state.extractLsb' 24 16 = 1) {v : Word} (hv : gread (freeWalker s) n.body0 = .ok v)

include hhigh in
theorem while_count : (n.body2.extractLsb' 0 16).toNat = n.body2.toNat := by
  rw [BitVec.extractLsb'_toNat, Nat.shiftRight_zero]
  exact Nat.mod_eq_of_lt (hhigh.trans_lt (by decide))

include haddr hlow hhigh h2 h3 hinit

theorem while_fields : (mult8 n.body0 && n.body2.extractLsb' 16 48 == 0 && 1 ≤ (n.body2.extractLsb' 0 16).toNat &&
    (n.body2.extractLsb' 0 16).toNat ≤ 4096 && n.succ2 == 0 && n.succ3 == 0 && n.state.extractLsb' 24 16 == 1) = true := by
  rw [mult8_of_mod haddr, field_beq_zero (by omega), while_count hhigh, decide_eq_true hlow, decide_eq_true hhigh, h2, h3, hinit]
  rfl

include hok hv

theorem graphWhile_ends (htest : v &&& n.body1 = 0) : execGraphWhile n s = .next (nodeDone (freeWalker s) s.cur.node [n.succ1]) := by
  rw [execGraphWhile, graphNode_runs hok (while_fields haddr hlow hhigh h2 h3 hinit), nodeRead_ok hv]
  simp only [htest, beq_self_eq_true, if_true]

/-- While its test holds, a WHILE resets its body, waits for it again and releases it (R392). -/
theorem graphWhile_repeats {r u : State} {w : Word} (htest : v &&& n.body1 ≠ 0)
    (hreset : resetBodies (freeWalker s) s.cur.node n.succ0 n.body2.toNat = (r, true)) (hnode : gread r s.cur.node = .ok w)
    (hwait : gwrite r s.cur.node (withPending (withSt w stWAITING) 1) = .ok u) : execGraphWhile n s = .next (releaseAll u s.cur.node [n.succ0]) := by
  rw [execGraphWhile, graphNode_runs hok (while_fields haddr hlow hhigh h2 h3 hinit), nodeRead_ok hv, while_count hhigh]
  simp only [beq_false_of_ne htest, hreset, Bool.not_true, Bool.false_eq_true, if_false, nodeRead_ok hnode, hwait]

end

/-! ### LAUNCH (R391, R396 to R398) -/

/-- A record without FOLLOW names no predecessor for its plots. -/
theorem misfit_eq_false {t : State} {node : Word} {r : List Byte} {level : Nat} {ready : BitVec 64} {aging : Bool} (hfollow : recFollow r = false) :
    misfit t ((recordPlots t node r level ready).map fun q => { q with aging := aging }) = false := by
  rw [misfit, List.any_eq_false]
  intro q hq
  obtain ⟨p, hp, rfl⟩ := List.mem_map.mp hq
  obtain ⟨k, -, rfl⟩ := List.mem_map.mp hp
  simp only [followable, hfollow, Bool.false_eq_true, if_false, not_false_eq_true]

/-- The queue entry of the LAUNCH that a walker runs, which gives its plots their level and age. -/
def launchEntry (s : State) : QEntry := (s.queue.find? fun e => e.launch && e.restored.isNone && e.node == s.cur.node).getD
  { node := s.cur.node, level := 0, ready := s.pace, aging := false, launch := true, restored := none, rises := 0 }

theorem launch_starts (hok : nodeOk n = true) {r : List Byte} (hres : n.state.extractLsb' 40 9 = 0) (hrec : n.body0.toNat % 64 = 0) (hdone : n.body1.toNat % 8 = 0)
    (hrelf : n.body2.toNat < 2) (hread : readVa (freeWalker s) (freeWalker s).regs.gptr n.body0 128 = .ok r) (hrecord : recordOk r = true)
    (hfollow : recFollow r = false) : execLaunch n s = .next (startLaunch s (freeWalker s) s.cur.node
      ((recordPlots (freeWalker s) s.cur.node r (launchEntry s).level (launchEntry s).ready).map fun q => { q with aging := (launchEntry s).aging })) := by
  have hpred : predOk (freeWalker s) r = .ok true := by rw [predOk, hfollow]; rfl
  have hfields : (nodeOk n && n.state.extractLsb' 40 9 == 0 && n.body0.extractLsb' 0 6 == 0 && mult8 n.body1 && n.body2.extractLsb' 1 63 == 0) = true := by
    rw [hok, hres, field_beq_zero (b := n.body0) (by omega), mult8_of_mod hdone, field_beq_zero (by omega)]
    rfl
  simp only [execLaunch, hfields, Bool.not_true, Bool.false_eq_true, if_false, graphNode_runs hok rfl, hread, hrecord, hpred, misfit_eq_false hfollow]
  rfl

end

/-! ### The queue set (R390, R400, R401) -/

section
variable {s : State}

section
variable {die : Nat} {e : QEntry} {v : Word} (hdie : die < 4) (hfree : ∀ x ∈ s.claimed, x.1 ≠ die)
include hdie hfree

theorem walkerClaim_free : (decide (4 ≤ die) || s.claimed.any fun x => x.1 == die) = false := by
  rw [decide_eq_false (Nat.not_le.mpr hdie), Bool.false_or, List.any_eq_false]
  exact fun x hx => by simpa using hfree x hx

variable (hnext : nextEntry s = some e) (hread : gread s e.node = .ok v)
include hnext hread

theorem walkerClaim_claims {t : State} (hst : nodeSt v = stREADY) (hwrite : gwrite s e.node (withSt v stCLAIMED) = .ok t) :
    execWalkerClaim die s = .next (if e.launch then { t with claimed := t.claimed ++ [(die, e.node)] }
      else dequeue { t with claimed := t.claimed ++ [(die, e.node)] } fun x => x == e) := by
  simp only [execWalkerClaim, walkerClaim_free hdie hfree, hnext, hread, hst, hwrite, bne_self_eq_false, Bool.false_eq_true, if_false]

theorem walkerClaim_drops (hst : nodeSt v ≠ stREADY) : execWalkerClaim die s = .next (dequeue s fun x => x == e) := by
  simp only [execWalkerClaim, walkerClaim_free hdie hfree, hnext, hread, bne_iff_ne.mpr hst, Bool.false_eq_true, if_false, if_true]

end

theorem walkerClaim_idle (hnext : nextEntry s = none) (die : Nat) : execWalkerClaim die s = .next s := by
  simp only [execWalkerClaim, hnext, ite_self]

theorem foldl_max_le_iff {l : List Nat} {b n : Nat} : l.foldl max b ≤ n ↔ b ≤ n ∧ ∀ x ∈ l, x ≤ n := by
  induction l generalizing b with
  | nil => simp
  | cons x l ih => rw [List.foldl_cons, ih, Nat.max_le, List.forall_mem_cons, and_assoc]

/-- The level to which an entry may rise, as a bound on the other entries (R401). -/
theorem top_le_iff {es : List QEntry} {n : Nat} : (es.map QEntry.level).foldl max 0 ≤ n ↔ ∀ x ∈ es, x.level ≤ n := by
  rw [foldl_max_le_iff, List.forall_mem_map]
  exact and_iff_right (Nat.zero_le n)

section
variable {idx : Nat} {e : QEntry} (he : s.queue[idx]? = some e)
include he

theorem queueAging_rises (haging : e.aging = true) (hbelow : ∃ x ∈ s.queue.eraseIdx idx, e.level < x.level)
    (hdue : tickAge * (e.rises + 1) ≤ (s.pace - e.ready).toNat) :
    execQueueAging idx s = .next { s with queue := s.queue.set idx { e with level := e.level + 1, rises := e.rises + 1 } } := by
  have htop : ¬((s.queue.eraseIdx idx).map QEntry.level).foldl max 0 ≤ e.level := fun h => by
    obtain ⟨x, hx, hlt⟩ := hbelow
    exact Nat.not_le.mpr hlt (top_le_iff.mp h x hx)
  simp only [execQueueAging, he, haging, htop, Nat.not_lt.mpr hdue, Bool.not_true, decide_false, Bool.or_self, Bool.false_eq_true, if_false]

theorem queueAging_stays (h : e.aging = false ∨ (∀ x ∈ s.queue.eraseIdx idx, x.level ≤ e.level) ∨ (s.pace - e.ready).toNat < tickAge * (e.rises + 1)) :
    execQueueAging idx s = .next s := by
  rw [← top_le_iff] at h
  have hstay : (!e.aging || decide (((s.queue.eraseIdx idx).map QEntry.level).foldl max 0 ≤ e.level) ||
      decide ((s.pace - e.ready).toNat < tickAge * (e.rises + 1))) = true := by
    simpa [or_assoc] using h
  simp only [execQueueAging, he, hstay, if_true]

end

/-! ### GO (R395) -/

section
variable {v : Word} (hroot : s.regs.groot ≠ 0) (hread : gread s s.regs.groot = .ok v)
include hroot hread

theorem go_starts (hpending : nodePending v = 0) : execGo s = .next (startNode s s.regs.groot v) := by
  simp only [execGo, beq_false_of_ne hroot, hread, hpending, beq_self_eq_true, Bool.false_eq_true, if_false, if_true]

theorem go_waits (hpending : nodePending v ≠ 0) : execGo s = .next s := by
  simp only [execGo, beq_false_of_ne hroot, hread, beq_false_of_ne hpending, Bool.false_eq_true, if_false]

end

theorem startNode_ready {node v : Word} {t : State} (h : makeReady s node v = .ok t) : startNode s node v = t := by
  simp only [startNode, h]

/-! ### Waits (R393) -/

section
variable {idx : Nat} {w : GWait} (hw : s.waits[idx]? = some w)
include hw

theorem waitmRetest_early (hearly : (s.pace - w.since).toNat < if w.line.isSome then 1000000 else 10000) : execWaitmRetest idx s = .next s := by
  simp only [execWaitmRetest, hw, hearly, decide_true, Bool.or_true, if_true]

variable (hqp : w.qp = none)
include hqp

theorem waitmRetest_due (hdue : (if w.line.isSome then 1000000 else 10000) ≤ (s.pace - w.since).toNat) :
    execWaitmRetest idx s = .next (waitAgain s w) := by
  simp only [execWaitmRetest, hw, hqp, Nat.not_lt.mpr hdue, Option.isSome_none, decide_false, Bool.or_self, Bool.false_eq_true, if_false]

theorem lineWatchFire_retests (hfired : w.fired = true) : execLineWatchFire idx s = .next (waitAgain s w) := by
  simp only [execLineWatchFire, hw, hfired, hqp, Bool.not_true, Bool.false_eq_true, if_false]

end

/-! ### Release (R390) -/

/-- A waiting node whose PENDING is above 1 counts down, and one at 1 becomes READY. -/
theorem releaseOne_counts {succ v : Word} {t : State} (hread : gread s succ = .ok v) (hst : nodeSt v = stWAITING) (hpending : nodePending v ≠ 0)
    (hwrite : gwrite s succ (withPending v (nodePending v - 1)) = .ok t) : releaseOne s succ =
    if nodePending v = 1 then makeReady t succ (withPending v (nodePending v - 1)) else .ok t := by
  have hcount : (nodePending (withPending v (nodePending v - 1)) == 0) = true ↔ nodePending v = 1 := by
    rw [(stateWord_fields v 0 (nodePending v - 1)).2.2.1, beq_iff_eq, sub_eq_zero]
  simp only [releaseOne, hread, hst, beq_false_of_ne hpending, bne_self_eq_false, Bool.or_self, Bool.false_eq_true, if_false, hwrite, hcount]

theorem releaseAll_single {succ : Word} {u : State} (hsucc : succ ≠ 0) (node : Word) (h : releaseOne s succ = .ok u) :
    releaseAll s node [succ] = u := by
  simp only [releaseAll, beq_false_of_ne hsucc, h, Bool.false_eq_true, if_false]

end

/-- Settles O45: each node type by its test, then the queue, GO, the waits and the release of a successor. -/
theorem graphNodesAndQueue : Obligations.GraphNodesAndQueue := by
  refine ⟨fun s n => ⟨fun hok => ?nodes, fun hbad => ?broken⟩, fun s => ⟨?claim, walkerClaim_idle, ?rise, ?stay, ?go, ?waits, ?release, stateWord_fields⟩⟩
  case nodes =>
    refine ⟨fun haddr hzero v hv => graphCond_tests hok haddr hzero hv, fun haddr hmode v u hread hstore hwrite => ⟨?_, fun h0 h1 h2 h3 x w hnode hdone => ?_⟩,
      graphJoin_releases hok, fun haddr hmode v hv => ⟨?_, ?_, ?_⟩, fun haddr hlow hhigh h2 h3 hinit v hv => ⟨?_, fun r w u => ?_⟩,
      fun r hres hrec hdone hrelf hread hrecord hfollow e he => ?_⟩
    · exact signal_releases hok haddr hread hstore hwrite hmode
    · exact graphEnd_counts hok haddr hread hstore hwrite hmode (by simp [succsOf, h0, h1, h2, h3]) hnode hdone
    · exact waitm_releases hok haddr hmode hv
    · exact waitm_releases_found hok haddr hmode hv
    · exact waitm_waits hok haddr hmode hv
    · exact graphWhile_ends hok haddr hlow hhigh h2 h3 hinit hv
    · exact graphWhile_repeats hok haddr hlow hhigh h2 h3 hinit hv
    · obtain rfl : e = launchEntry s := List.mem_singleton.mp he
      exact launch_starts hok hres hrec hdone hrelf hread hrecord hfollow
  case broken =>
    simp only [List.forall_mem_cons]
    refine ⟨(graphNode_broken hbad _ _ : execGraphCond n s = _), (graphNode_broken hbad _ _ : execSignal n s = _),
      (graphNode_broken hbad _ _ : execGraphEnd n s = _), (graphNode_broken hbad _ _ : execGraphJoin n s = _),
      (graphNode_broken hbad _ _ : execWaitm n s = _), ?_, List.forall_mem_nil _⟩
    show execGraphWhile n s = _
    rw [execGraphWhile]
    exact graphNode_broken hbad _ _
  case claim =>
    exact fun die e v t hdie hfree hnext hread =>
      ⟨fun hst hwrite => walkerClaim_claims hdie hfree hnext hread hst hwrite, walkerClaim_drops hdie hfree hnext hread⟩
  case rise => exact fun idx e he haging hbelow hdue => queueAging_rises he haging hbelow hdue
  case stay => exact fun idx e he h => queueAging_stays he h
  case go =>
    exact fun v hroot hread => ⟨fun hpending => ⟨go_starts hroot hread hpending, fun t ht =>
      (go_starts hroot hread hpending).trans (congrArg _ (startNode_ready ht))⟩, go_waits hroot hread⟩
  case waits => exact fun idx w hw hqp => ⟨waitmRetest_due hw hqp, waitmRetest_early hw, lineWatchFire_retests hw hqp⟩
  case release =>
    intro node succ v t hsucc hread hst hpending hwrite
    have hone := releaseOne_counts hread hst hpending hwrite
    exact ⟨fun h => releaseAll_single hsucc node (hone.trans (if_neg h)), fun h u hu => releaseAll_single hsucc node (hone.trans ((if_pos h).trans hu))⟩

end Sys2Proof.Machine
end
section
/-!
PROOFS. The queue pairs of the Ethernet ports (R386 to R388, R435 to R437): O58.
-/

namespace Sys2Proof.Machine

/-! ### A queue pair after a change -/

theorem State.qp_modQp_self (s : State) (port q : Nat) (f : Qp → Qp) : (s.modQp port q f).qp port q = f (s.qp port q) := by
  simp only [State.qp, State.modQp, State.modEth, State.ethPort, tget_tmod_self]

theorem State.modQp_congr {s : State} {port q : Nat} {f g : Qp → Qp} (h : f (s.qp port q) = g (s.qp port q)) :
    s.modQp port q f = s.modQp port q g := by
  simp only [State.modQp, State.modEth, tmod]
  rw [show f (tget Qp.init (tget EthPort.init s.eth port).qps q) = g (tget Qp.init (tget EthPort.init s.eth port).qps q) from h]

variable {s : State} {port q : Nat}

/-! ### The state and the doorbells (R434, R436, R437) -/

theorem ethernetLinkState_sets (hport : port < 4) (up : Bool) :
    exec (.ethernetLinkState port up) s = .next (s.modEth port fun e => { e with linkup := up && e.speed != 0 }) := by
  show execEthernetLinkState port up s = _
  rw [execEthernetLinkState, if_neg (Nat.not_le.mpr hport)]

theorem qpStateWrite_disabled (hen : (s.ethPort port).en = false) (v : BitVec 3) : exec (.qpStateWrite port q v) s = .next s := by
  show execQpStateWrite port q v s = _
  simp only [execQpStateWrite, hen, Bool.not_false, Bool.or_true, if_true]

section
variable (hport : port < 4) (hq : q < 4096)
include hport hq

theorem qp_inRange : (decide (4 ≤ port) || decide (4096 ≤ q)) = false := by
  rw [decide_eq_false (Nat.not_le.mpr hport), decide_eq_false (Nat.not_le.mpr hq)]
  rfl

section
variable (hen : (s.ethPort port).en = true)
include hen

theorem qpStateWrite_reset : exec (.qpStateWrite port q 0) s = .next (resetQp s port q) := by
  show execQpStateWrite port q 0 s = _
  simp only [execQpStateWrite, qp_inRange hport hq, hen, Bool.not_true, Bool.or_self, Bool.false_eq_true, if_false, beq_self_eq_true, if_true]

theorem qpStateWrite_error : exec (.qpStateWrite port q 4) s = .next (s.modQp port q fun y => { y with state := 4 }) := by
  show execQpStateWrite port q 4 s = _
  simp only [execQpStateWrite, qp_inRange hport hq, hen, Bool.not_true, Bool.or_self, Bool.false_eq_true, if_false,
    show ((4 : BitVec 3) == 0) = false from rfl, beq_self_eq_true, if_true]

/-- A write of a state that is neither RESET nor ERROR: the next one in order, or nothing. -/
theorem qpStateWrite_ordered {v : BitVec 3} (h0 : v ≠ 0) (h4 : v ≠ 4) :
    exec (.qpStateWrite port q v) s = .next (if v.toNat < 4 && v.toNat == (s.qp port q).state.toNat + 1 then
      (let t := s.modQp port q fun x => { x with state := v, epsn := if v == 2 then x.rpsn else x.epsn, psn := if v == 3 then x.spsn else x.psn }
       if v == 2 then watchDoorbell t port q else t) else s) := by
  show execQpStateWrite port q v s = _
  simp only [execQpStateWrite, qp_inRange hport hq, hen, Bool.not_true, Bool.or_self, Bool.false_eq_true, if_false,
    beq_false_of_ne h0, beq_false_of_ne h4]

theorem qpStateWrite_outOfOrder {v : BitVec 3} (h0 : v ≠ 0) (h4 : v ≠ 4) (hv : v.toNat ≠ (s.qp port q).state.toNat + 1) :
    exec (.qpStateWrite port q v) s = .next s := by
  rw [qpStateWrite_ordered hport hq hen h0 h4, beq_false_of_ne hv, Bool.and_false]
  rfl

theorem qpStateWrite_next {v : BitVec 3} (h0 : v ≠ 0) (hlt : v.toNat < 4) (hv : v.toNat = (s.qp port q).state.toNat + 1) :
    exec (.qpStateWrite port q v) s = .next
      (let t := s.modQp port q fun x => { x with state := v, epsn := if v == 2 then x.rpsn else x.epsn, psn := if v == 3 then x.spsn else x.psn }
       if v == 2 then watchDoorbell t port q else t) := by
  have h4 : v ≠ 4 := fun h => absurd hlt (by rw [h]; decide)
  rw [qpStateWrite_ordered hport hq hen h0 h4, hv, beq_self_eq_true, Bool.and_true, if_pos (decide_eq_true (hv ▸ hlt))]

end

/-- A doorbell register write is a store to the line; the engine takes the index outside RESET. -/
theorem doorbell_writesLine {i : Instr} {off n : Nat} {w : Word} {set set' : Qp → Qp}
    (hexec : exec i s = .next (doorbellWrite s port q off w set)) (hw : w.toNat = n) (hset : set = set') :
    let line := engWrite s port ((s.qp port q).dbva + BitVec.ofNat 64 off) (natLe 8 n)
    (∀ u, line = .ok u → exec i s = .next (if (s.qp port q).state = 0 then u else u.modQp port q set')) ∧
    (∀ c, line = .error (some c) → exec i s = .next s) ∧
    (line = .error none →
      ∃ t, exec i s = .next t ∧ (t.qp port q).stores.length = (s.qp port q).stores.length + 1 ∧ t.mem = s.mem) := by
  subst hw hset
  rw [hexec, doorbellWrite, qp_inRange hport hq, if_neg Bool.false_ne_true]
  refine ⟨fun u hline => ?_, fun c hline => by rw [hline], fun hline => ?_⟩
  · simp only [hline, beq_iff_eq]
  · rw [hline]
    refine ⟨_, rfl, ?_, rfl⟩
    rw [State.qp_modQp_self, List.length_append]
    rfl

end

section
variable (hport : port < 4)
include hport

theorem doorbellLineReread_store (h : (s.qp port q).stores ≠ []) : exec (.doorbellLineReread port q) s = .next (doorbellAgain s port q) := by
  show execDoorbellLineReread port q s = _
  have hne : (s.qp port q).stores.isEmpty = false := List.isEmpty_eq_false_iff.mpr h
  simp only [execDoorbellLineReread, hne, decide_eq_true hport, Bool.not_false, Bool.and_true, if_true]

/-- Without a waiting store the line is read again when no watch stands and the interval is over. -/
theorem doorbellLineReread_line (h : (s.qp port q).stores = []) :
    exec (.doorbellLineReread port q) s = .next (if (s.qp port q).state.toNat < 2 ∨ (s.qp port q).watched = true ∨
      (s.pace - (s.qp port q).lastRead).toNat < 10000 then s else readDoorbell s port q) := by
  show execDoorbellLineReread port q s = _
  simp only [execDoorbellLineReread, h, List.isEmpty_nil, Bool.not_true, Bool.and_false, Bool.false_eq_true, if_false,
    decide_eq_false (Nat.not_le.mpr hport), Bool.false_or, Bool.or_eq_true, decide_eq_true_eq, or_assoc]

/-! ### The send queue (R387, R388, R437) -/

section
variable {x : Qp} {t : State} {bs : List Byte} (hx : s.qp port q = x) (hmay : maySend x = true) (hidle : x.inflight = [])
  (hread : engRead s port (x.sqbase + BitVec.ofNat 64 (64 * x.sqci)) 64 = .ok (t, bs)) (hok : (sendEntry bs).ok = true)
include hx hmay hidle hread hok

omit hport hx hmay hidle hread in
theorem sendEntry_op_lt : (sendEntry bs).op < 4 := by
  simp only [sendEntry, Bool.and_eq_true, decide_eq_true_eq] at hok
  exact hok.1.1.1.1

theorem sendOp_read (hop : (sendEntry bs).op = 3) : sendOp s port q 3 = started t port q (sendOf s port q (sendEntry bs) []) := by
  simp only [sendOp, hx, hmay, hidle, hread, hok, hop, decide_eq_false (Nat.not_le.mpr hport), Bool.not_true, Bool.or_self, Bool.false_eq_true,
    if_false, List.any_nil, Bool.and_false, Nat.reduceLT, if_true, ne_eq, not_true_eq_false, beq_self_eq_true]

theorem sendOp_data {op : Nat} (hop : (sendEntry bs).op = op) (hne : op ≠ 3) {u : State} {d : List Byte}
    (hdata : engRead t port (sendEntry bs).lva (sendEntry bs).len = .ok (u, d)) :
    sendOp s port q op = started (u.count (ethDie port) 7 (sendEntry bs).len) port q (sendOf s port q (sendEntry bs) d) := by
  have hlt : op < 4 := hop ▸ sendEntry_op_lt hok
  simp only [sendOp, hx, hmay, hidle, hread, hok, hop, decide_eq_false (Nat.not_le.mpr hport), Bool.not_true, Bool.or_self, Bool.false_eq_true,
    if_false, List.any_nil, Bool.and_false, hlt, if_true, ne_eq, not_true_eq_false, beq_false_of_ne hne, hdata]

end

omit hport in
theorem sendOp_idle (hmay : maySend (s.qp port q) = false) (want : Nat) : sendOp s port q want = s := by
  simp only [sendOp, hmay, Bool.not_false, Bool.or_true, if_true]

section
variable {x : Qp} {o : SendOp} {r : List SendOp} (hx : s.qp port q = x) (hfly : x.inflight = o :: r) (hfull : cqFull x = false)
include hx hfly hfull

/-- A status of the remote side completes the oldest entry. -/
theorem roceCompletion_completes (hstate : x.state ≠ 4) (hgood : o.status = 0) {c : Byte} (hready : (c.extractLsb' 5 3 == 1) = false)
    (hremote : remoteStatus c = true) (data : List Byte) :
    exec (.roceCompletion port q c data) s = .next ((completeOldest s port q o r c data).getD s) := by
  show execRoceCompletion port q c data s = _
  simp only [execRoceCompletion, hx, hfull, hfly, hgood, hready, hremote, beq_false_of_ne hstate, decide_eq_false (Nat.not_le.mpr hport),
    Bool.or_self, Bool.false_eq_true, if_false, bne_self_eq_false, if_true]

theorem roceCompletion_flushes (hstate : x.state = 4) (c : Byte) (data : List Byte) : exec (.roceCompletion port q c data) s =
    .next ((complete (s.modQp port q fun y => { y with inflight := r }) port q o.idx cCAUSALGAP false none 0).getD s) := by
  show execRoceCompletion port q c data s = _
  simp only [execRoceCompletion, hx, hfull, hstate, decide_eq_false (Nat.not_le.mpr hport), Bool.or_self, Bool.false_eq_true, if_false,
    beq_self_eq_true, if_true, flushOne, hfly]

end

omit hport in
theorem completeOldest_noRead {o : SendOp} (hop : o.op ≠ 3) (r : List SendOp) (c : Byte) (data : List Byte) :
    completeOldest s port q o r c data =
      (let t := s.modQp port q fun y => { y with inflight := r, retries := 0, unready := 0, notReady := none, since := s.pace }
       if c == 0 && !o.comp then some t else complete t port q o.idx c false none (if c == 0 then o.len else 0)) := by
  simp only [completeOldest, beq_false_of_ne hop, Bool.and_false, Bool.false_eq_true, if_false]

/-- The expiry of the timer that runs: one more try, or the entry fails. -/
theorem roceAckTimeout_expired {x : Qp} {o : SendOp} {r : List SendOp} (hx : s.qp port q = x) (hfly : x.inflight = o :: r)
    (hstate : x.state = 3) (hgood : o.status = 0) (hdue : x.notReady.getD (ackTimeout x) ≤ (s.pace - x.since).toNat) :
    exec (.roceAckTimeout port q) s = .next (
      if (if x.notReady.isSome then x.unready else x.retries) <
          (if x.notReady.isSome then (x.retryCfg.extractLsb' 12 3).toNat else (x.retryCfg.extractLsb' 8 3).toNat) then
        (s.modQp port q fun y =>
          { y with retries := y.retries + (if y.notReady.isSome then 0 else 1), unready := y.unready + (if y.notReady.isSome then 1 else 0)
                   notReady := none, since := s.pace }).count (ethDie port) 9 1
      else s.modQp port q fun y => { y with inflight := { o with status := cCAUSALGAP } :: r }) := by
  show execRoceAckTimeout port q s = _
  simp only [execRoceAckTimeout, hx, hfly, hstate, hgood, decide_eq_false (Nat.not_le.mpr hport), decide_eq_false (Nat.not_lt.mpr hdue),
    bne_self_eq_false, Bool.or_self, Bool.false_eq_true, if_false]

omit hport in
theorem roceAckTimeout_idle (h : (s.qp port q).inflight = []) : exec (.roceAckTimeout port q) s = .next s := by
  show execRoceAckTimeout port q s = _
  simp only [execRoceAckTimeout, h]

end

/-! ### Incoming operations (R435, R437) -/

section
variable (hmay : mayReceive s port q = true)
include hmay

theorem incomingSend_lands (hposted : (s.qp port q).rqci ≠ (s.qp port q).rqpi) {t : State} {e : Except Byte (Word × Nat)}
    (hentry : recvEntry s port (s.qp port q) = some (t, e)) (data : List Byte) :
    exec (.incomingSend port q data) s = .next ((landSend t port q e data).getD s) := by
  show execIncomingSend port q data s = _
  simp only [execIncomingSend, hmay, Bool.not_true, Bool.false_eq_true, if_false, beq_false_of_ne hposted, hentry, Option.bind_some]

theorem incomingSend_notReady (hempty : (s.qp port q).rqci = (s.qp port q).rqpi) (data : List Byte) :
    exec (.incomingSend port q data) s = .next (answer s port q .notReady data.length []) := by
  show execIncomingSend port q data s = _
  simp only [execIncomingSend, hmay, Bool.not_true, Bool.false_eq_true, if_false, hempty, beq_self_eq_true, if_true]

variable {key : BitVec 32} {t : State} (hkey : keyRead s port key = some t)
include hkey

theorem incomingRdmaWrite_checked {addr : Word} {data : List Byte} {imm : Option (BitVec 32)}
    (hready : imm = none ∨ (s.qp port q).rqci ≠ (s.qp port q).rqpi) : exec (.incomingRdmaWrite port q key addr data imm) s =
      .next ((if keyAllows s port q key 2 addr data.length then landWrite t port q addr data imm
        else some (answer t port q .accessError data.length [])).getD s) := by
  show execIncomingRdmaWrite port q key addr data imm s = _
  have hrnr : (imm.isSome && (s.qp port q).rqci == (s.qp port q).rqpi) = false := by
    rcases hready with rfl | hne
    · rfl
    · rw [beq_false_of_ne hne, Bool.and_false]
  simp only [execIncomingRdmaWrite, hmay, hrnr, hkey, Bool.not_true, Bool.false_eq_true, if_false, Option.bind_some]

theorem incomingRdmaRead_allowed {addr : Word} {len : Nat} (hallow : keyAllows s port q key 1 addr len = true) {u : State} {d : List Byte}
    (hread : engRead t port addr len = .ok (u, d)) :
    exec (.incomingRdmaRead port q key addr len) s = .next (answer (u.count (ethDie port) 7 len) port q .readData len d) := by
  show execIncomingRdmaRead port q key addr len s = _
  simp only [execIncomingRdmaRead, hmay, hkey, hallow, hread, Bool.not_true, Bool.false_eq_true, if_false, Option.bind_some, Option.getD_some]

theorem incomingRdmaRead_refused {addr : Word} {len : Nat} (hallow : keyAllows s port q key 1 addr len = false) :
    exec (.incomingRdmaRead port q key addr len) s = .next (answer t port q .accessError len []) := by
  show execIncomingRdmaRead port q key addr len s = _
  simp only [execIncomingRdmaRead, hmay, hkey, hallow, Bool.not_true, Bool.not_false, Bool.false_eq_true, if_false, if_true, Option.bind_some,
    Option.getD_some]

end

theorem incoming_ignored (hmay : mayReceive s port q = false) (key : BitVec 32) (addr : Word) (data : List Byte) (imm : Option (BitVec 32))
    (len : Nat) : exec (.incomingSend port q data) s = .next s ∧ exec (.incomingRdmaWrite port q key addr data imm) s = .next s ∧
      exec (.incomingRdmaRead port q key addr len) s = .next s := by
  refine ⟨show execIncomingSend port q data s = _ from ?_, show execIncomingRdmaWrite port q key addr data imm s = _ from ?_,
    show execIncomingRdmaRead port q key addr len s = _ from ?_⟩
  · simp only [execIncomingSend, hmay, Bool.not_false, if_true]
  · simp only [execIncomingRdmaWrite, hmay, Bool.not_false, if_true]
  · simp only [execIncomingRdmaRead, hmay, Bool.not_false, if_true]

/-! ### The parts of O58 -/

theorem qpStateWrite_inOrder (hport : port < 4) (hq : q < 4096) (hen : (s.ethPort port).en = true) :
    ((s.qp port q).state = 0 → exec (.qpStateWrite port q 1) s = .next (s.modQp port q fun y => { y with state := 1 })) ∧
    ((s.qp port q).state = 1 →
      exec (.qpStateWrite port q 2) s = .next (watchDoorbell (s.modQp port q fun y => { y with state := 2, epsn := y.rpsn }) port q)) ∧
    ((s.qp port q).state = 2 → exec (.qpStateWrite port q 3) s = .next (s.modQp port q fun y => { y with state := 3, psn := y.spsn })) := by
  refine ⟨fun hst => ?_, fun hst => ?_, fun hst => ?_⟩ <;>
    exact qpStateWrite_next hport hq hen (by decide) (by decide) (by rw [hst]; rfl)

theorem doorbells_writeLines (hport : port < 4) (hq : q < 4096) (v : Word) :
    ∀ e ∈ [(Instr.sqdb port q v, 0, v.toNat % 65536, fun (y : Qp) => { y with sqpi := v.toNat % 65536 % 2 ^ y.sqlog.toNat }),
        (.rqdb port q v, 8, v.toNat % 65536, fun (y : Qp) => { y with rqpi := v.toNat % 65536 % 2 ^ y.rqlog.toNat }),
        (.cqdb port q v, 16, v.toNat % 2 ^ 20, fun (y : Qp) => { y with cqci := v.toNat % 2 ^ 20 % 2 ^ y.cqlog.toNat })],
      let line := engWrite s port ((s.qp port q).dbva + BitVec.ofNat 64 e.2.1) (natLe 8 e.2.2.1)
      (∀ u, line = .ok u → exec e.1 s = .next (if (s.qp port q).state = 0 then u else u.modQp port q e.2.2.2)) ∧
      (∀ c, line = .error (some c) → exec e.1 s = .next s) ∧
      (line = .error none →
        ∃ t, exec e.1 s = .next t ∧ (t.qp port q).stores.length = (s.qp port q).stores.length + 1 ∧ t.mem = s.mem) := by
  have h16 : (v.setWidth 16 |>.setWidth 64).toNat = v.toNat % 65536 := by simp only [BitVec.toNat_setWidth]; omega
  have h20 : (v.setWidth 20 |>.setWidth 64).toNat = v.toNat % 2 ^ 20 := by simp only [BitVec.toNat_setWidth]; omega
  simp only [List.forall_mem_cons, List.not_mem_nil, false_implies, implies_true, and_true]
  refine ⟨?_, ?_, ?_⟩
  · exact doorbell_writesLine hport hq (i := .sqdb port q v) rfl h16 (by simp only [BitVec.toNat_setWidth, Nat.reducePow])
  · exact doorbell_writesLine hport hq (i := .rqdb port q v) rfl h16 (by simp only [BitVec.toNat_setWidth, Nat.reducePow])
  · exact doorbell_writesLine hport hq (i := .cqdb port q v) rfl h20 (by simp only [BitVec.toNat_setWidth])

theorem sendEntry_starts (hport : port < 4) {t : State} {bs : List Byte} (hmay : maySend (s.qp port q) = true)
    (hidle : (s.qp port q).inflight = [])
    (hread : engRead s port ((s.qp port q).sqbase + BitVec.ofNat 64 (64 * (s.qp port q).sqci)) 64 = .ok (t, bs))
    (hok : (sendEntry bs).ok = true) :
    let e := sendEntry bs
    (e.op = 3 → exec (.roceRead port q) s = .next (started t port q (sendOf s port q e []))) ∧
    ∀ u d, engRead t port e.lva e.len = .ok (u, d) → ∀ i, (e.op, i) ∈ [(0, Instr.roceSend port q), (1, .roceWrite port q), (2, .roceWriteImm port q)] →
      exec i s = .next (started (u.count (ethDie port) 7 e.len) port q (sendOf s port q e d)) := by
  refine ⟨fun hop => congrArg Host.Outcome.next (sendOp_read hport rfl hmay hidle hread hok hop), fun u d hdata i hi => ?_⟩
  have hsends {op : Nat} (hop : (sendEntry bs).op = op) (hne : op ≠ 3) := sendOp_data hport rfl hmay hidle hread hok hop hne hdata
  simp only [List.mem_cons, Prod.mk.injEq, List.not_mem_nil, or_false] at hi
  obtain ⟨hop, rfl⟩ | ⟨hop, rfl⟩ | ⟨hop, rfl⟩ := hi
  · exact congrArg Host.Outcome.next (hsends hop (by decide))
  · exact congrArg Host.Outcome.next (hsends hop (by decide))
  · exact congrArg Host.Outcome.next (hsends hop (by decide))

theorem sends_idle (hmay : maySend (s.qp port q) = false) :
    ∀ i ∈ [Instr.roceSend port q, .roceWrite port q, .roceWriteImm port q, .roceRead port q], exec i s = .next s := by
  simp only [List.forall_mem_cons, List.not_mem_nil, false_implies, implies_true, and_true]
  exact ⟨congrArg Host.Outcome.next (sendOp_idle hmay 0), congrArg Host.Outcome.next (sendOp_idle hmay 1), congrArg Host.Outcome.next (sendOp_idle hmay 2),
    congrArg Host.Outcome.next (sendOp_idle hmay 3)⟩

theorem roceCompletion_acknowledges (hport : port < 4) {o : SendOp} {r : List SendOp} (hfly : (s.qp port q).inflight = o :: r)
    (hstate : (s.qp port q).state ≠ 4) (hfull : cqFull (s.qp port q) = false) (hgood : o.status = 0) (hop : o.op ≠ 3) :
    let t := s.modQp port q fun y => { y with inflight := r, retries := 0, unready := 0, notReady := none, since := s.pace }
    (o.comp = true → exec (.roceCompletion port q 0 []) s = .next ((complete t port q o.idx 0 false none o.len).getD s)) ∧
    (o.comp = false → exec (.roceCompletion port q 0 []) s = .next t) ∧
    exec (.roceCompletion port q cPERMISSION []) s = .next ((complete t port q o.idx cPERMISSION false none 0).getD s) := by
  have hcompletes {c : Byte} (hready : (c.extractLsb' 5 3 == 1) = false) (hremote : remoteStatus c = true) :=
    roceCompletion_completes hport rfl hfly hfull hstate hgood hready hremote []
  refine ⟨fun hcomp => ?_, fun hcomp => ?_, ?_⟩
  · rw [hcompletes (by decide) (by decide), completeOldest_noRead hop]
    simp only [hcomp, Bool.not_true, Bool.and_false, Bool.false_eq_true, if_false, beq_self_eq_true, if_true]
  · rw [hcompletes (by decide) (by decide), completeOldest_noRead hop]
    simp only [hcomp, Bool.not_false, beq_self_eq_true, Bool.and_self, if_true, Option.getD_some]
  · rw [hcompletes (by decide) (by decide), completeOldest_noRead hop]
    simp only [show (cPERMISSION == 0) = false from rfl, Bool.false_and, Bool.false_eq_true, if_false]

theorem roceAckTimeout_retries (hport : port < 4) {o : SendOp} {r : List SendOp} (hfly : (s.qp port q).inflight = o :: r)
    (hstate : (s.qp port q).state = 3) (hgood : o.status = 0) :
    let x := s.qp port q
    let failed := s.modQp port q fun y => { y with inflight := { o with status := cCAUSALGAP } :: r }
    (x.notReady = none → ackTimeout x ≤ (s.pace - x.since).toNat →
      (x.retries < (x.retryCfg.extractLsb' 8 3).toNat → exec (.roceAckTimeout port q) s =
        .next ((s.modQp port q fun _ => { x with retries := x.retries + 1, since := s.pace }).count (ethDie port) 9 1)) ∧
      ((x.retryCfg.extractLsb' 8 3).toNat ≤ x.retries → exec (.roceAckTimeout port q) s = .next failed)) ∧
    (∀ n, x.notReady = some n → n ≤ (s.pace - x.since).toNat →
      (x.unready < (x.retryCfg.extractLsb' 12 3).toNat → exec (.roceAckTimeout port q) s =
        .next ((s.modQp port q fun _ => { x with unready := x.unready + 1, notReady := none, since := s.pace }).count (ethDie port) 9 1)) ∧
      ((x.retryCfg.extractLsb' 12 3).toNat ≤ x.unready → exec (.roceAckTimeout port q) s = .next failed)) := by
  have hexpired (hdue : (s.qp port q).notReady.getD (ackTimeout (s.qp port q)) ≤ (s.pace - (s.qp port q).since).toNat) :=
    roceAckTimeout_expired hport rfl hfly hstate hgood hdue
  refine ⟨fun hrun hdue => ?_, fun n hrun hdue => ?_⟩
  · rw [hexpired (by rw [hrun]; exact hdue)]
    simp only [hrun, Option.isSome_none, Bool.false_eq_true, if_false]
    refine ⟨fun hlt => ?_, fun hle => by rw [if_neg (Nat.not_lt.mpr hle)]⟩
    rw [if_pos hlt]
    refine congrArg (fun t : State => Host.Outcome.next (t.count (ethDie port) 9 1)) (State.modQp_congr ?_)
    generalize s.qp port q = y at hrun ⊢
    cases y
    cases hrun
    rfl
  · rw [hexpired (by rw [hrun]; exact hdue)]
    simp only [hrun, Option.isSome_some, if_true]
    refine ⟨fun hlt => ?_, fun hle => by rw [if_neg (Nat.not_lt.mpr hle)]⟩
    rw [if_pos hlt]
    refine congrArg (fun t : State => Host.Outcome.next (t.count (ethDie port) 9 1)) (State.modQp_congr ?_)
    simp only [hrun, Option.isSome_some, if_true, Nat.add_zero]

theorem incomingSend_consumes (hmay : mayReceive s port q = true) :
    let x := s.qp port q
    (∀ lva len t u (data : List Byte), x.rqci ≠ x.rqpi → recvEntry s port x = some (t, .ok (lva, len)) → data.length ≤ len →
      engWrite t port lva data = .ok u → exec (.incomingSend port q data) s =
        .next (((consumeRecv (u.count (ethDie port) 8 data.length) port q 0 none data.length).map fun w => answer w port q .ack data.length []).getD s)) ∧
    (∀ lva len t (data : List Byte), x.rqci ≠ x.rqpi → recvEntry s port x = some (t, .ok (lva, len)) → len < data.length →
      exec (.incomingSend port q data) s =
        .next (((consumeRecv t port q cFORMAT none 0).map fun w => answer w port q .refused data.length []).getD s)) ∧
    (∀ data, x.rqci = x.rqpi → exec (.incomingSend port q data) s = .next (answer s port q .notReady data.length [])) := by
  refine ⟨fun lva len t u data hposted hentry hlen hwrite => ?_, fun lva len t data hposted hentry hlen => ?_,
    fun data hempty => incomingSend_notReady hmay hempty data⟩
  · rw [incomingSend_lands hmay hposted hentry, landSend]
    simp only [if_neg (Nat.not_lt.mpr hlen), hwrite]
  · rw [incomingSend_lands hmay hposted hentry, landSend]
    simp only [if_pos hlen]

theorem incomingRdma_checked (hmay : mayReceive s port q = true) {key : BitVec 32} {t : State} (hkey : keyRead s port key = some t) :
    let x := s.qp port q
    (∀ addr data u, keyAllows s port q key 2 addr data.length = true → engWrite t port addr data = .ok u →
      exec (.incomingRdmaWrite port q key addr data none) s = .next (answer (u.count (ethDie port) 8 data.length) port q .ack data.length [])) ∧
    (∀ addr data imm, keyAllows s port q key 2 addr data.length = false → (imm = none ∨ x.rqci ≠ x.rqpi) →
      exec (.incomingRdmaWrite port q key addr data imm) s = .next (answer t port q .accessError data.length [])) ∧
    (∀ addr len u d, keyAllows s port q key 1 addr len = true → engRead t port addr len = .ok (u, d) →
      exec (.incomingRdmaRead port q key addr len) s = .next (answer (u.count (ethDie port) 7 len) port q .readData len d)) ∧
    (∀ addr len, keyAllows s port q key 1 addr len = false →
      exec (.incomingRdmaRead port q key addr len) s = .next (answer t port q .accessError len [])) := by
  refine ⟨fun addr data u hallow hwrite => ?_, fun addr data imm hallow hready => ?_,
    fun addr len u d hallow hread => incomingRdmaRead_allowed hmay hkey hallow hread,
    fun addr len hallow => incomingRdmaRead_refused hmay hkey hallow⟩
  · rw [incomingRdmaWrite_checked hmay hkey (.inl rfl), if_pos hallow]
    simp only [landWrite, hwrite, Option.map_some, Option.getD_some]
  · rw [incomingRdmaWrite_checked hmay hkey hready, hallow, if_neg Bool.false_ne_true, Option.getD_some]

/-- Settles O58: one lemma per event of a queue pair, each with the test that decides it. -/
theorem queuePairs : Obligations.QueuePairs := by
  refine ⟨fun s port q hport hq => ?_, fun s port q hport => ?_⟩
  · refine ⟨ethernetLinkState_sets hport, fun hen => ?_, qpStateWrite_disabled, doorbells_writeLines hport hq, doorbellLineReread_store hport,
      fun h => ?_⟩
    · obtain ⟨hinit, hrtr, hrts⟩ := qpStateWrite_inOrder hport hq hen
      exact ⟨qpStateWrite_reset hport hq hen, qpStateWrite_error hport hq hen, hinit, hrtr, hrts,
        fun v h0 h4 hv => qpStateWrite_outOfOrder hport hq hen h0 h4 hv⟩
    · rw [doorbellLineReread_line hport h]
      refine ⟨fun hstate hwatch hdue => ?_, fun hwait => if_pos ?_ ▸ rfl⟩
      · rw [if_neg]
        rintro (hlt | hw | hlt)
        · exact absurd hlt (Nat.not_lt.mpr hstate)
        · exact absurd hw (by rw [hwatch]; decide)
        · exact absurd hlt (Nat.not_lt.mpr hdue)
      · tauto
  · refine ⟨fun t bs hmay hidle hread hok => sendEntry_starts hport hmay hidle hread hok, sends_idle,
      fun o r hfly hstate hfull hgood hop => roceCompletion_acknowledges hport hfly hstate hfull hgood hop,
      fun o r c data hfly hstate hfull => roceCompletion_flushes hport rfl hfly hfull hstate c data,
      fun o r hfly hstate hgood => roceAckTimeout_retries hport hfly hstate hgood, roceAckTimeout_idle, fun hmay => ?_,
      incoming_ignored⟩
    obtain ⟨hlands, hlong, hempty⟩ := incomingSend_consumes hmay
    exact ⟨hlands, hlong, hempty, fun key t hkey => incomingRdma_checked hmay hkey⟩

end Sys2Proof.Machine
end
section
/-!
PROOFS. Which plots there are: no access to memory, no fault, no end of a plot and no withdrawal of a command adds, drops or renumbers one (R196, R416,
R419).
-/

namespace Sys2Proof.Machine

/-- The numbers of the plots, in order. -/
def State.plotIds (s : State) : List Nat := s.plots.map Plot.id

theorem plotIds_of_findPlot {s : State} {id : Nat} {q : Plot} (h : s.findPlot id = some q) : id ∈ s.plotIds :=
  List.mem_map.mpr ⟨q, List.mem_of_find?_eq_some h, beq_iff_eq.mp (List.find?_some h :)⟩

theorem findPlot_of_plotIds {s : State} {id : Nat} (h : id ∈ s.plotIds) : ∃ q, s.findPlot id = some q := by
  obtain ⟨q, hq, rfl⟩ := List.mem_map.mp h
  exact Option.isSome_iff_exists.mp (List.find?_isSome.mpr ⟨q, hq, beq_self_eq_true _⟩)

theorem map_mapFirst {α β : Type} {p : α → Bool} {f : α → α} {g : α → β} (hf : ∀ x, p x = true → g (f x) = g x) (l : List α) :
    (mapFirst p f l).map g = l.map g := by
  induction l with
  | nil => rfl
  | cons x r ih =>
    unfold mapFirst
    split
    next hp => rw [List.map_cons, List.map_cons, hf x hp]
    next => rw [List.map_cons, List.map_cons, ih]

theorem modPlot_plotIds (s : State) (id : Nat) {f : Plot → Plot} (hf : ∀ p, p.id = id → (f p).id = p.id) : (s.modPlot id f).plotIds = s.plotIds :=
  map_mapFirst (fun p hp => hf p (beq_iff_eq.mp hp)) s.plots

theorem plotIds_of_besideHbm {s t : State} (h : besideHbm t = besideHbm s) : t.plotIds = s.plotIds :=
  (congrArg State.plotIds h :)

theorem foldlBind_plotIds {α : Type} {f : State → α → Option State} (hf : ∀ {s x t}, f s x = some t → t.plotIds = s.plotIds) {l : List α} {s t : State}
    (h : l.foldl (fun acc x => acc.bind fun u => f u x) (some s) = some t) : t.plotIds = s.plotIds := by
  refine List.foldlRecOn (motive := fun o : Option State => ∀ u, o = some u → u.plotIds = s.plotIds) l _ (fun u hu => ?_) (fun o ho x _ u hu => ?_) t h
  · rw [Option.some.inj hu]
  · obtain ⟨v, hv, hx⟩ := Option.bind_eq_some_iff.mp hu
    exact (hf hx).trans (ho v hv)

theorem foldlOk_error {ε α : Type} {f : State → α → Except ε State} (e : ε) (l : List α) {t : State} :
    l.foldl (fun acc x => allOk acc fun u => f u x) (.error e) ≠ .ok t := by
  induction l with
  | nil => exact fun h => nomatch h
  | cons x r ih => exact ih

theorem foldlOk_plotIds {ε α : Type} {f : State → α → Except ε State} (hf : ∀ {s x t}, f s x = .ok t → t.plotIds = s.plotIds) {l : List α}
    {s t : State} (h : l.foldl (fun acc x => allOk acc fun u => f u x) (.ok s) = .ok t) : t.plotIds = s.plotIds := by
  induction l generalizing s with
  | nil => injection h with h; rw [h]
  | cons x r ih =>
    rw [List.foldl_cons] at h
    cases hx : f s x with
    | ok u =>
      rw [show allOk (.ok s) (fun u => f u x) = .ok u from hx] at h
      exact (ih h).trans (hf hx)
    | error e =>
      rw [show allOk (.ok s) (fun u => f u x) = .error e from hx] at h
      exact absurd h (foldlOk_error e r)

theorem ite_plotIds {c : Prop} [Decidable c] {s t u : State} (ht : t.plotIds = s.plotIds) (hu : u.plotIds = s.plotIds) :
    (if c then t else u).plotIds = s.plotIds := by
  split
  · exact ht
  · exact hu

/-! ### Memory -/

theorem count_plotIds (s : State) (die i n : Nat) : (s.count die i n).plotIds = s.plotIds := plotIds_of_besideHbm (count_besideHbm s die i n)

theorem storeAt_plotIds (s : State) (e : TcEntry) (va : Word) (bs : List Byte) : (storeAt s e va bs).plotIds = s.plotIds := by
  unfold storeAt
  exact ite_plotIds ((count_plotIds ..).trans rfl) (plotIds_of_besideHbm (hbmWriteBy_besideHbm ..))

theorem writeVa_plotIds {s t : State} {root va : Word} {bs : List Byte} (h : writeVa s root va bs = .ok t) : t.plotIds = s.plotIds := by
  unfold writeVa at h
  split at h
  · cases h
  · injection h with h
    rw [← h]
    refine foldl_keeps State.plotIds (fun u p => ?_) _ s
    split
    · rfl
    · exact storeAt_plotIds ..

theorem logWritten_plotIds (s : State) (r : Ring) (bs : List Byte) : (ringAppend s r bs).1.plotIds = s.plotIds :=
  ringPut_keeps State.plotIds (fun u pa b => plotIds_of_besideHbm (writeHash_besideHbm u pa b)) s r bs

theorem faultRecord_plotIds (s : State) (bs : List Byte) : (faultRecord s bs).plotIds = s.plotIds :=
  plotIds_of_besideHbm (faultRecord_besideHbm s bs)

theorem raceWatch_plotIds (s : State) (die frame : Nat) : (raceWatch s die frame).2.plotIds = s.plotIds := by
  unfold raceWatch
  dsimp only
  split
  · rfl
  · split <;> rfl

theorem countAccess_plotIds (s : State) (agent : Nat) (host : Bool) (pa : Nat) (write : Bool) :
    (countAccess s agent host pa write).plotIds = s.plotIds := by
  unfold countAccess
  dsimp only
  split
  · rfl
  · split
    · exact logWritten_plotIds ..
    · rfl

theorem countLines_plotIds (s : State) (host : Bool) (addr pa n : Nat) (write : Bool) : (countLines s host addr pa n write).plotIds = s.plotIds := by
  unfold countLines
  exact foldl_keeps State.plotIds (fun _ _ => countAccess_plotIds ..) _ s

theorem countVa_plotIds (s : State) (root va : Word) (n : Nat) (write : Bool) : (countVa s root va n write).plotIds = s.plotIds := by
  unfold countVa
  refine foldl_keeps State.plotIds (fun t p => ?_) _ s
  dsimp only
  split
  case h_2 => rfl
  case h_1 e _ =>
    have hwatch : (if e.rw && !e.host then (raceWatch t (keyDie (e.key (BitVec.ofNat 64 p.1))) (e.addr (BitVec.ofNat 64 p.1) / 4096)).2
        else t).plotIds = t.plotIds := ite_plotIds (raceWatch_plotIds ..) rfl
    have hlines := fun (u : State) => countLines_plotIds u e.host (e.key (BitVec.ofNat 64 p.1)) (e.addr (BitVec.ofNat 64 p.1)) p.2 write
    generalize (if e.rw && !e.host then _ else t : State) = u at hwatch ⊢
    have hu : (if e.ac then countLines u e.host (e.key (BitVec.ofNat 64 p.1)) (e.addr (BitVec.ofNat 64 p.1)) p.2 write else u).plotIds =
        t.plotIds := (ite_plotIds (hlines u) rfl).trans hwatch
    refine (ite_plotIds rfl (ite_plotIds ?_ ?_)).trans hu <;> exact count_plotIds ..

/-! ### Nodes of a task graph -/

theorem walkerRecord_plotIds (s : State) (node : Word) (code : Byte) (tval : Word) : (walkerRecord s node code tval).plotIds = s.plotIds :=
  faultRecord_plotIds ..

theorem setSt_plotIds {s t : State} {node : Word} {st : BitVec 8} (h : setSt s node st = .ok t) : t.plotIds = s.plotIds := by
  obtain ⟨v, -, hw⟩ := allOk_ok h
  exact writeVa_plotIds hw

theorem nodeFault_plotIds (s : State) (node : Word) (code : Byte) (tval : Word) : (nodeFault s node code tval).plotIds = s.plotIds := by
  unfold nodeFault
  split
  next t ht => exact (walkerRecord_plotIds ..).trans (setSt_plotIds ht)
  next => exact walkerRecord_plotIds ..

theorem enqueue_plotIds (s : State) (e : QEntry) : (enqueue s e).plotIds = s.plotIds := by
  unfold enqueue
  split <;> rfl

theorem makeReady_plotIds {s t : State} {node v : Word} (h : makeReady s node v = .ok t) : t.plotIds = s.plotIds := by
  obtain ⟨u, hu, ht⟩ := allOk_ok h
  injection ht with ht
  rw [← ht]
  exact (enqueue_plotIds ..).trans (writeVa_plotIds hu)

theorem releaseOne_plotIds {s t : State} {succ : Word} (h : releaseOne s succ = .ok t) : t.plotIds = s.plotIds := by
  unfold releaseOne at h
  split at h
  · cases h
  · split at h
    · injection h with h
      rw [← h]
      exact nodeFault_plotIds ..
    · dsimp only at h
      split at h
      · cases h
      next u hu =>
        split at h
        · exact (makeReady_plotIds h).trans (writeVa_plotIds hu)
        · injection h with h
          rw [← h]
          exact writeVa_plotIds hu

theorem releaseAll_plotIds (s : State) (node : Word) (l : List Word) : (releaseAll s node l).plotIds = s.plotIds := by
  induction l generalizing s with
  | nil => rfl
  | cons a r ih =>
    unfold releaseAll
    split
    · exact ih s
    · split
      next => exact nodeFault_plotIds ..
      next t ht => exact (ih t).trans (releaseOne_plotIds ht)

theorem nodeDone_plotIds (s : State) (node : Word) (succ : List Word) : (nodeDone s node succ).plotIds = s.plotIds := by
  unfold nodeDone
  split
  · exact walkerRecord_plotIds ..
  · split
    next => exact nodeFault_plotIds ..
    next t ht => exact (releaseAll_plotIds ..).trans (writeVa_plotIds ht)

theorem launchFault_plotIds (s : State) (node : Word) (relf : Bool) : (launchFault s node relf).plotIds = s.plotIds := by
  unfold launchFault
  split
  · exact walkerRecord_plotIds ..
  next t ht => exact (ite_plotIds (releaseAll_plotIds ..) rfl).trans (setSt_plotIds ht)

theorem launchEnd_plotIds (s : State) (r : LaunchRun) (ok : Bool) : (launchEnd s r ok).plotIds = s.plotIds := by
  unfold launchEnd
  dsimp only
  split
  · exact nodeFault_plotIds ..
  next t relf ht =>
    obtain ⟨donew, -, ht⟩ := allOk_ok ht
    obtain ⟨w, -, ht⟩ := allOk_ok ht
    obtain ⟨u, hu, ht⟩ := allOk_ok ht
    injection ht with ht
    injection ht with ht
    have hs : u.plotIds = s.plotIds := by
      split at hu
      · injection hu with hu
        rw [← hu]
        rfl
      · exact (writeVa_plotIds hu :)
    rw [← ht, ← hs]
    exact ite_plotIds (nodeDone_plotIds ..) (launchFault_plotIds ..)

/-! ### Faults of a plot -/

theorem finishCmd_plotIds (s : State) (core id : Nat) (code : Byte) (result : W32) : (finishCmd s core id code result).plotIds = s.plotIds := rfl

theorem dissolveGroups_plotIds (s : State) (plot : Nat) : (dissolveGroups s plot).plotIds = s.plotIds := by
  unfold dissolveGroups
  refine foldl_keeps State.plotIds (fun t g => ?_) _ s
  dsimp only
  rw [foldl_keeps State.plotIds (f := fun u (x : Nat × Nat) => finishCmd u x.1 x.2 cCAUSALGAP 0) fun _ _ => rfl]
  rfl

theorem requeue_plotIds (s : State) (f : Plot) : (requeue s f).plotIds = s.plotIds := by
  unfold requeue
  exact ite_plotIds rfl (enqueue_plotIds ..)

theorem dropFollow_plotIds (s : State) (q : Plot) : (dropFollow s q).plotIds = s.plotIds := by
  unfold dropFollow
  split
  · rfl
  next f _ =>
    dsimp only
    have hfree := foldl_keeps State.plotIds (f := fun t c => (t.setLease c .free).modCore c fun k => { emptyCore k with plot := none })
      (fun _ _ => rfl) (q.cores.filter fun c => s.leaseOf c == .loading f) s
    generalize List.foldl (fun (t : State) c => _) s _ = u at hfree ⊢
    have hplots : ((u.modPlot f fun p => { p with state := .waiting, drained := [] }).modPlot q.id fun p => { p with follow := none }).plotIds =
        s.plotIds := by
      rw [modPlot_plotIds _ _ (by exact fun _ _ => rfl), modPlot_plotIds _ _ (by exact fun _ _ => rfl), hfree]
    split
    · exact (requeue_plotIds ..).trans hplots
    · exact hplots

theorem sweepPlot_plotIds (s : State) (q : Plot) (code : Byte) : (sweepPlot s q code).plotIds = s.plotIds := by
  unfold sweepPlot
  dsimp only
  rw [modPlot_plotIds _ _ (by exact fun _ _ => rfl)]
  refine (foldl_keeps State.plotIds (fun t c => ?_) _ _).trans ((dropFollow_plotIds ..).trans (dissolveGroups_plotIds ..))
  rfl

theorem plotEnded_plotIds (s : State) (node : Word) (fatal : Option Byte) : (plotEnded s node fatal).plotIds = s.plotIds := by
  unfold plotEnded
  split
  · rfl
  · exact ite_plotIds (launchEnd_plotIds ..) rfl

theorem fatalEnd_plotIds (s : State) (q : Plot) (code : Byte) (rec : List Byte) : (fatalEnd s q code rec).plotIds = s.plotIds :=
  (plotEnded_plotIds ..).trans ((faultRecord_plotIds ..).trans (sweepPlot_plotIds ..))

theorem plotFault_plotIds (s : State) (core : Nat) (code : Byte) (detail : Nat) (origin : Byte) (where_ tval : Word) (recoverable : Bool) :
    (plotFault s core code detail origin where_ tval recoverable).plotIds = s.plotIds := by
  unfold plotFault
  split
  · rfl
  · refine ite_plotIds rfl (ite_plotIds ?_ (fatalEnd_plotIds ..))
    rw [modPlot_plotIds _ _ (by exact fun _ _ => rfl)]
    exact faultRecord_plotIds ..

theorem portFault_plotIds (s : State) (core p : Nat) (code : Byte) (detail : Nat) (tval : Word) (recoverable : Bool) :
    (portFault s core p code detail tval recoverable).plotIds = s.plotIds :=
  (plotFault_plotIds ..).trans rfl

/-! ### Accesses at their home (R281, R309) -/

theorem raceLog_plotIds (s : State) (where_ : Word) (core : Nat) (write : Bool) (c : Conflict) : (raceLog s where_ core write c).plotIds = s.plotIds := by
  unfold raceLog
  split
  exact logWritten_plotIds ..

theorem raceReport_plotIds (s : State) (agent : Agent) (iaddr va where_ : Word) (write : Bool) (c : Conflict) :
    (raceReport s agent iaddr va where_ write c).plotIds = s.plotIds := by
  unfold raceReport
  split
  · exact raceLog_plotIds ..
  · refine ite_plotIds (raceLog_plotIds ..) ?_
    split
    · exact plotFault_plotIds ..
    · exact plotFault_plotIds ..
    · rfl

theorem raceSector_plotIds (s : State) (a : Access) (k : Nat) : (raceSector s a k).plotIds = s.plotIds := by
  unfold raceSector
  refine ite_plotIds rfl ?_
  have hmark (u : State) (hu : u.plotIds = s.plotIds) :
      (if raceWrites a then raceMark u (shadowDevice k) (agentCore a.agent) a.wint else u).plotIds = s.plotIds := by
    split
    · exact hu
    · exact hu
  refine hmark _ ?_
  split
  · rfl
  · exact raceReport_plotIds ..

theorem raceAccess_plotIds (s : State) (a : Access) : (raceAccess s a).plotIds = s.plotIds := by
  unfold raceAccess
  refine ite_plotIds rfl ?_
  dsimp only
  have hsectors (u : State) : ((sectorsOf a.addr a.len).foldl (fun u k => raceSector u a k) u).plotIds = u.plotIds :=
    foldl_keeps State.plotIds (fun _ _ => raceSector_plotIds ..) _ u
  cases a.agent.isHost with
  | true => exact ite_plotIds (hsectors s) rfl
  | false => exact (ite_plotIds (hsectors _) rfl).trans (raceWatch_plotIds ..)

theorem homeWrite_plotIds (s : State) (byHost host : Bool) (addr : Nat) (bs : List Byte) : (homeWrite s byHost host addr bs).plotIds = s.plotIds := by
  unfold homeWrite
  exact ite_plotIds rfl (plotIds_of_besideHbm (hbmWriteBy_besideHbm ..))

theorem collide_plotIds (s : State) (key n w : Nat) : (collide s key n w).plotIds = s.plotIds :=
  ite_plotIds rfl rfl

theorem countHome_plotIds (s : State) (a : Access) : (countHome s a).plotIds = s.plotIds :=
  ite_plotIds (count_plotIds ..) (ite_plotIds rfl (count_plotIds ..))

theorem homeEffect_plotIds (s : State) (a : Access) : (homeEffect s a).1.plotIds = s.plotIds := by
  unfold homeEffect
  dsimp only
  have hcounted : (countHome (if a.ac && !a.sub then countLines (raceAccess s a) a.host a.addr a.pa a.len (a.kind != .read) else raceAccess s a)
      a).plotIds = s.plotIds :=
    (countHome_plotIds ..).trans ((ite_plotIds (countLines_plotIds ..) rfl).trans (raceAccess_plotIds ..))
  generalize countHome _ a = u at hcounted ⊢
  have hhit (w : Nat) : (if a.host || a.agent.isHost then u else collide u a.addr a.len w).plotIds = s.plotIds :=
    (ite_plotIds rfl (collide_plotIds ..)).trans hcounted
  split
  · exact hcounted
  · exact (foldl_keeps State.plotIds (fun _ _ => homeWrite_plotIds ..) _ _).trans hcounted
  · split
    · exact hcounted
    · exact (homeWrite_plotIds ..).trans (hhit _)
  · split
    · exact hcounted
    · exact (homeWrite_plotIds ..).trans (hhit _)

theorem modSlots_plotIds (s : State) (core id : Nat) (f : Slot → Slot) : (modSlots s core id f).plotIds = s.plotIds := by
  unfold modSlots
  refine foldl_keeps State.plotIds (fun t c => ?_) _ s
  rfl

theorem sheafFault_plotIds (s : State) (a : Access) : (sheafFault s a).plotIds = s.plotIds := by
  unfold sheafFault
  split
  · exact portFault_plotIds ..
  · rfl

theorem tokenArrived_plotIds (s : State) (a : Access) (core id n tail : Nat) : (tokenArrived s a core id n tail).plotIds = s.plotIds := by
  unfold tokenArrived
  refine ite_plotIds (modSlots_plotIds ..) ?_
  split
  · rfl
  · split
    · exact modSlots_plotIds ..
    · exact sheafFault_plotIds ..

theorem arriveAtArc_plotIds (s : State) (a : Access) (core n tail id lane : Nat) (v : List Byte) (code : Byte) :
    (arriveAtArc s a core n tail id lane v code).plotIds = s.plotIds := by
  unfold arriveAtArc
  dsimp only
  split
  · split
    · exact (plotFault_plotIds ..).trans rfl
    · exact (portFault_plotIds ..).trans rfl
    · rfl
  · refine (ite_plotIds (sheafFault_plotIds ..) (ite_plotIds rfl (tokenArrived_plotIds ..))).trans ?_
    exact ite_plotIds rfl ((modSlots_plotIds ..).trans rfl)

theorem hostCaches_plotIds (s : State) (a : Access) : (hostCaches s a).plotIds = s.plotIds := by
  unfold hostCaches
  split
  · exact ite_plotIds rfl rfl
  · rfl

theorem settle_plotIds (s : State) (a : Access) (phase : AccPhase) (v : List Byte) (code : Byte) : (settle s a phase v code).plotIds = s.plotIds := by
  unfold settle
  split
  · exact ite_plotIds (arriveAtArc_plotIds ..) rfl
  · exact ite_plotIds ((hostCaches_plotIds ..).trans rfl) rfl

theorem performNow_plotIds (s : State) (a : Access) (phase : AccPhase) : (performNow s a phase).plotIds = s.plotIds :=
  (settle_plotIds ..).trans (homeEffect_plotIds s a)

theorem flushHost_plotIds (s : State) : (flushHost s).plotIds = s.plotIds := by
  unfold flushHost
  refine foldl_keeps State.plotIds (fun t id => ?_) _ s
  split
  · rfl
  · exact performNow_plotIds ..

theorem touchVa_plotIds (s : State) (root va : Word) (n : Nat) (write : Bool) : (touchVa s root va n write).plotIds = s.plotIds :=
  (countVa_plotIds ..).trans (ite_plotIds (flushHost_plotIds s) rfl)

/-! ### Packets between dies -/

theorem checkCount_plotIds (s : State) (die : Nat) : (checkCount s die).plotIds = s.plotIds :=
  ite_plotIds rfl rfl

theorem countHops_plotIds (n b fuel a : Nat) (s : State) : (countHops n b fuel a s).plotIds = s.plotIds := by
  induction fuel generalizing a s with
  | zero => rfl
  | succ fuel ih =>
    unfold countHops
    refine ite_plotIds rfl ?_
    split
    · rfl
    · exact (ih ..).trans (count_plotIds ..)

theorem cross_plotIds {s t : State} {a b : Nat} {p : Packet} (h : cross s a b p = some t) : t.plotIds = s.plotIds := by
  unfold cross at h
  dsimp only at h
  split at h
  · cases h
  · rw [← Option.some.inj h, countHops_plotIds, checkCount_plotIds]
    rfl

theorem walkerSend_plotIds {s t : State} {a b : Nat} {op : Byte} (h : walkerSend s a b op = some t) : t.plotIds = s.plotIds := by
  unfold walkerSend at h
  split at h
  · rw [← Option.some.inj h]
  · exact cross_plotIds h

theorem crossRead_plotIds {s t : State} {a b n : Nat} (h : crossRead s a b n = some t) : t.plotIds = s.plotIds := by
  unfold crossRead at h
  split at h
  · rw [← Option.some.inj h]
  · obtain ⟨u, hu, ht⟩ := Option.bind_eq_some_iff.mp h
    exact (cross_plotIds ht).trans (cross_plotIds hu)

theorem crossWrite_plotIds {s t : State} {a b n : Nat} {trail : Bool} (h : crossWrite s a b n trail = some t) : t.plotIds = s.plotIds := by
  unfold crossWrite at h
  split at h
  · rw [← Option.some.inj h]
  · exact cross_plotIds h

theorem crossVa_plotIds {s t : State} {die : Nat} {root va : Word} {n : Nat} {write : Bool} (h : crossVa s die root va n write = some t) :
    t.plotIds = s.plotIds := by
  unfold crossVa at h
  refine foldlBind_plotIds (fun {u p v} hstep => ?_) h
  dsimp only at hstep
  split at hstep
  · rw [← Option.some.inj hstep]
  · split at hstep
    · rw [← Option.some.inj hstep]
    · split at hstep
      · exact crossWrite_plotIds hstep
      · exact crossRead_plotIds hstep

theorem saveTraffic_plotIds {s t : State} {q : Plot} {n : Nat} {write : Bool} (h : saveTraffic s q n write = some t) : t.plotIds = s.plotIds := by
  unfold saveTraffic at h
  refine foldlBind_plotIds (fun {u r v} hstep => ?_) h
  obtain ⟨w, hw, hv⟩ := Option.map_eq_some_iff.mp hstep
  rw [← hv, touchVa_plotIds]
  exact crossVa_plotIds hw

/-! ### A save (R405, R407) -/

theorem releaseTile_plotIds (s : State) (core h : Nat) : (releaseTile s core h).plotIds = s.plotIds := by
  unfold releaseTile
  exact ite_plotIds rfl (ite_plotIds rfl rfl)

theorem releaseHolds_plotIds (s : State) (core : Nat) (hs : List Nat) : (releaseHolds s core hs).plotIds = s.plotIds :=
  foldl_keeps State.plotIds (fun _ _ => releaseTile_plotIds ..) _ s

theorem withdraw_plotIds (s : State) (core : Nat) (c : Cmd) : (withdraw s core c).plotIds = s.plotIds := by
  unfold withdraw
  dsimp only
  split
  · rfl
  · split
    · exact (releaseHolds_plotIds ..).trans rfl
    · exact (releaseHolds_plotIds ..).trans rfl
    · split
      · rfl
      · split
        · exact (releaseHolds_plotIds ..).trans rfl
        · exact (releaseHolds_plotIds ..).trans rfl
    · rfl

theorem writeImage_plotIds {s t : State} {q : Plot} (h : writeImage s q = .ok t) : t.plotIds = s.plotIds := by
  unfold writeImage at h
  split at h
  · cases h
  · obtain ⟨t0, h0, h⟩ := allOk_ok h
    obtain ⟨t1, h1, ht⟩ := allOk_ok h
    rw [writeVa_plotIds ht, ← writeVa_plotIds h0]
    refine foldlOk_plotIds (fun {u c v} hstep => ?_) h1
    obtain ⟨w, hw, hv⟩ := allOk_ok hstep
    rw [writeVa_plotIds hv, writeVa_plotIds hw]

theorem freeCores_plotIds (s : State) (cores : List Nat) : (freeCores s cores).plotIds = s.plotIds := by
  refine foldl_keeps State.plotIds (fun t c => ?_) cores s
  rfl

end Sys2Proof.Machine
end
section
/-!
PROOFS. Pre-emption, the save image and the restore of a context, the watchdog and the save budget (R402 to R410): O47.
-/

namespace Sys2Proof.Machine

/-! ### Requests (R402, R403, R405, R406) -/

section
variable {s : State} {q : Plot}

theorem sendRequest_sends {u : State} (hopen : q.closing = false) (hvictim : q.id ∈ victims s)
    (hsend : walkerSend s 0 q.die ctlPreempt = some u) : sendRequest s q = u.modPlot q.id fun p => { p with saveHeld := true } := by
  simp only [sendRequest, hopen, List.contains_iff_mem.mpr hvictim, hsend, Bool.not_true, Bool.or_self, Bool.false_eq_true, if_false]

theorem sendRequest_blocked (hsend : walkerSend s 0 q.die ctlPreempt = none) : sendRequest s q = s := by
  simp only [sendRequest, hsend, ite_self]

theorem sendRequest_spared (hvictim : q.id ∉ victims s) : sendRequest s q = s := by
  have hout : (victims s).contains q.id = false := Bool.eq_false_iff.mpr fun h => hvictim (List.contains_iff_mem.mp h)
  simp only [sendRequest, hout, Bool.not_false, Bool.or_true, if_true]

theorem requestSave_begun (h : lastBegun s q = true) : requestSave s q = s.modPlot q.id fun p => { p with saveHeld := false } := by
  simp only [requestSave, h, Bool.or_true, if_true]

/-- A request closes an armed plot that does not trap, and waits for one that does. -/
theorem requestSave_armed (hopen : q.closing = false) (hbegun : lastBegun s q = false) (harmed : q.state = .armed) :
    requestSave s q = if plotTraps s q then s else s.modPlot q.id fun p =>
      { p with closing := true, saveHeld := false, bound := if p.decision.isSome then p.bound else begunWid s q, budget := some s.pace } := by
  simp only [requestSave, hopen, hbegun, harmed, Bool.or_self, Bool.false_eq_true, if_false, show (PlotState.armed == .loading) = false from rfl,
    bne_self_eq_false, Bool.or_false]

variable (hq : s.findPlot q.id = some q)
include hq

theorem preemptRequest_held (h : q.saveHeld = true) : exec (.preemptRequest q.id) s = .next (requestSave s q) := by
  show execPreemptRequest q.id s = _
  simp only [execPreemptRequest, hq, h, if_true]

theorem preemptRequest_new (h : q.saveHeld = false) : exec (.preemptRequest q.id) s = .next (sendRequest s q) := by
  show execPreemptRequest q.id s = _
  simp only [execPreemptRequest, hq, h, Bool.false_eq_true, if_false]

theorem sliceExpiry_used (harmed : q.state = .armed) (hused : usedSlice s q = true) :
    exec (.sliceExpiry q.id) s = .next (sendRequest s q) := by
  show execSliceExpiry q.id s = _
  simp only [execSliceExpiry, hq, harmed, hused, beq_self_eq_true, Bool.and_self, if_true]

theorem sliceExpiry_unsent (h : sendRequest s q = s) : exec (.sliceExpiry q.id) s = .next s := by
  show execSliceExpiry q.id s = _
  simp only [execSliceExpiry, hq, h, ite_self]

/-! ### The watchdog and the save budget (R409, R410) -/

variable (hlive : q.live = true)
include hlive

/-- The watchdog ends a plot exactly when it runs and its time is over. -/
theorem watchdogExpiry_eq : exec (.watchdogExpiry q.id) s = .next (if q.wdog = 0 ∨ q.budget ≠ none ∨ plotHalted s q = true ∨
    (s.pace - q.lastRetire).toNat - q.wdStop < 1000 * q.wdog then s else walkerEnd s q cWATCHDOG) := by
  show execWatchdogExpiry q.id s = _
  simp only [execWatchdogExpiry, hq, hlive, Bool.not_true, Option.isSome_iff_ne_none, Bool.false_or, Bool.or_eq_true,
    decide_eq_true_eq, or_assoc]

theorem saveTimeout_eq {b : BitVec 64} (hb : q.budget = some b) :
    exec (.saveTimeout q.id) s = .next (if 2000000 ≤ (s.pace - b).toNat then walkerEnd s q cSAVETIMEOUT else s) := by
  show execSaveTimeout q.id s = _
  simp only [execSaveTimeout, hq, hb, hlive, Bool.true_and, decide_eq_true_eq]

omit hlive in
theorem saveTimeout_none (hb : q.budget = none) : exec (.saveTimeout q.id) s = .next s := by
  show execSaveTimeout q.id s = _
  simp only [execSaveTimeout, hq, hb]

end

/-! ### The save (R405, R407) -/

/-- A plot that `f` replaces by `r`, of the same number. -/
theorem findPlot_modPlot_const {s : State} {r : Plot} (h : r.id ∈ s.plotIds) : (s.modPlot r.id fun _ => r).findPlot r.id = some r := by
  obtain ⟨q, hq⟩ := findPlot_of_plotIds h
  exact (find_mapFirst (p := fun p : Plot => p.id == r.id) (f := fun _ => r) (fun _ _ => beq_self_eq_true r.id) s.plots).trans
    (congrArg (Option.map fun _ => r) hq)

theorem enqueue_besideQueue (s : State) (e : QEntry) :
    (enqueue s e).plots = s.plots ∧ (enqueue s e).lease = s.lease ∧ (enqueue s e).cores = s.cores := by
  unfold enqueue
  split <;> exact ⟨rfl, rfl, rfl⟩

/-- The commands of the cores of a plot withdrawn and its sequencers stopped (R405 steps 3 and 4). -/
def stoppedCores (s : State) (q : Plot) : State :=
  (heldCores s q).foldl (fun t c => t.modCore c stopCore)
    ((heldCores s q).foldl (fun t c => ((t.core c).cmds).foldl (fun u x => withdraw u c x) t) s)

theorem stoppedCores_plotIds (s : State) (q : Plot) : (stoppedCores s q).plotIds = s.plotIds := by
  unfold stoppedCores
  rw [foldl_keeps State.plotIds (f := fun t c => t.modCore c stopCore) fun _ _ => rfl]
  exact foldl_keeps State.plotIds (fun t c => foldl_keeps State.plotIds (fun u x => withdraw_plotIds u c x) _ t) _ s

/-- The plot as its save leaves it. -/
def Plot.saved (now : BitVec 64) (image : List (Nat × Core)) (p : Plot) : Plot :=
  { p with state := .saved, closing := false, saveHeld := false, bound := none, budget := none, ts := (now - (p.budget.getD now)).toNat, image407 := image }

/-- The entry of a saved context in the queue. -/
def savedEntry (s : State) (q : Plot) : QEntry :=
  { node := q.node, level := q.prio, ready := q.ageTime, aging := q.aging, launch := false, restored := some q.id
    rises := if q.aging then (s.pace - q.ageTime).toNat / tickAge else 0 }

section
variable {s u s3 : State} {q : Plot} (hq : s.findPlot q.id = some q) (hready : saveReady s q = true) (hbarr : barrWaiters s q = [])
  (hheld : imageHeld (stoppedCores s q) q (tileBytesOf (stoppedCores s q) (savedTiles (stoppedCores s q) q)) = false)
  (hsend : saveTraffic (stoppedCores s q) q (tileBytesOf (stoppedCores s q) (savedTiles (stoppedCores s q) q)) true = some u)
  (hwrite : writeImage u q = .ok s3)
include hq hready hbarr hheld hsend hwrite

/-- A quiet closing plot is saved: its cores are freed, the plot keeps its image and its context enters the queue. -/
theorem contextSave_saves : exec (.contextSave q.id) s =
    .next (enqueue ((freeCores (parkWords (dropFollow s3 q) q) (heldCores s q)).modPlot q.id
      (Plot.saved s.pace (q.cores.map fun c => (q.index c, imageCore s3 q c)))) (savedEntry s q)) := by
  show execContextSave q.id s = _
  unfold stoppedCores at hheld hsend
  simp only [execContextSave, hq, hready, hbarr, Bool.not_true, Bool.false_eq_true, if_false, List.isEmpty_nil, hheld, hsend, hwrite]
  rfl

theorem contextSave_frees : ∃ t p, exec (.contextSave q.id) s = .next t ∧ t.findPlot q.id = some p ∧ p.state = .saved ∧ p.closing = false ∧
    p.budget = none ∧ p.image407 = q.cores.map (fun c => (q.index c, imageCore s3 q c)) ∧
    ∀ c ∈ heldCores s q, t.leaseOf c = .free ∧ (t.core c).plot = none := by
  obtain ⟨hplots, hlease, hcores⟩ := enqueue_besideQueue ((freeCores (parkWords (dropFollow s3 q) q) (heldCores s q)).modPlot q.id
    (Plot.saved s.pace (q.cores.map fun c => (q.index c, imageCore s3 q c)))) (savedEntry s q)
  have hids : (freeCores (parkWords (dropFollow s3 q) q) (heldCores s q)).plotIds = s.plotIds := by
    rw [freeCores_plotIds, show (parkWords (dropFollow s3 q) q).plotIds = (dropFollow s3 q).plotIds from rfl, dropFollow_plotIds,
      writeImage_plotIds hwrite, saveTraffic_plotIds hsend, stoppedCores_plotIds]
  obtain ⟨p, hp⟩ := findPlot_of_plotIds (hids ▸ plotIds_of_findPlot hq)
  refine ⟨_, Plot.saved s.pace (q.cores.map fun c => (q.index c, imageCore s3 q c)) p,
    contextSave_saves hq hready hbarr hheld hsend hwrite, ?_, rfl, rfl, rfl, rfl, fun c hc => ?_⟩
  · rw [State.findPlot, hplots]
    exact findPlot_modPlot (fun _ => rfl) hp
  · rw [State.leaseOf, State.core, hlease, hcores]
    exact freeCores_mem (parkWords (dropFollow s3 q) q) hc

end

/-! ### The restore: its place (R408) -/

section
variable {s : State} {q : Plot} {e : QEntry} (hq : s.findPlot q.id = some q) (he : entryOf s q = some e) (hst : q.state = .saved)
include hq he hst

theorem contextRestore_searches {t : State} {img : List Byte} (hcand : q.cand = none) (hhead : isHead s e = true)
    (hsend : imageTraffic s q.die q.ptroot q.image = some t) (hfetch : fetchImage t q.ptroot q.image (fun _ => true) = .ok img) :
    exec (.contextRestore q.id) s = .next (askOffset t q img (firstFit t img)) := by
  show execContextRestore q.id s = _
  simp only [execContextRestore, hq, hst, he, hcand, searchSaved, hhead, hsend, hfetch, show (PlotState.saved == .loading) = false from rfl,
    Bool.false_and, Bool.false_eq_true, if_false, bne_self_eq_false, Bool.not_true]

theorem contextRestore_reserves {o : Nat × Nat × Nat} (hcand : q.cand = some o) :
    exec (.contextRestore q.id) s = .next (reserveAt s q o fun t => placeSaved t q e o) := by
  show execContextRestore q.id s = _
  simp only [execContextRestore, hq, hst, he, hcand, show (PlotState.saved == .loading) = false from rfl,
    Bool.false_and, Bool.false_eq_true, if_false, bne_self_eq_false]

end

theorem dequeue_plotIds (s : State) (p : QEntry → Bool) : (dequeue s p).plotIds = s.plotIds := by
  unfold dequeue
  dsimp only
  split
  · rfl
  · split <;> rfl

/-- The plot at the offset that its restore takes. -/
def Plot.placed (now : BitVec 64) (q : Plot) (e : QEntry) (o : Nat × Nat × Nat) : Plot :=
  { withImage q q.img with
    die := o.1, col := o.2.1, row := o.2.2, bay := q.bay, prio := e.level, restored := true, sliceUsed := false, state := .loading, cand := none
    runStart := now, wdStop := 0, runStop := 0, drained := [], bayStart := q.wid }

theorem placeSaved_eq (s : State) (q : Plot) (e : QEntry) (o : Nat × Nat × Nat) : placeSaved s q e o =
    (q.placed s.pace e o).cores.foldl (fun t c => t.setLease c (.loading q.id))
      ((dequeue s fun x => x == e).modPlot q.id fun _ => q.placed s.pace e o) := rfl

theorem placeSaved_loads {s : State} {q : Plot} (hq : q.id ∈ s.plotIds) (e : QEntry) (o : Nat × Nat × Nat) :
    (placeSaved s q e o).findPlot q.id = some (q.placed s.pace e o) ∧
    ∀ c ∈ (q.placed s.pace e o).cores, (placeSaved s q e o).leaseOf c = .loading q.id := by
  rw [placeSaved_eq]
  refine ⟨?_, fun c hc => leaseOf_foldl_setLease _ _ hc⟩
  rw [State.findPlot, foldl_keeps State.plots (f := fun t c => t.setLease c (.loading q.id)) fun _ _ => rfl]
  exact findPlot_modPlot_const (r := q.placed s.pace e o) ((dequeue_plotIds ..).symm ▸ hq)

/-! ### The restore: its end (R408) -/

/-- The cells, sequencers and ports of a restored plot written anew. -/
def reloaded (s : State) (q : Plot) : State := loadCoresOf (s.modPlot q.id fun _ => { q with duals := dualCells q, fed := fedSlots q }) q

/-- The saved core of a place of the plot. -/
def savedAt (q : Plot) (ks : List (Nat × Core)) (c : Nat) : Core :=
  { (((ks.find? fun x => x.1 == q.index c).map (·.2)).getD Core.init) with plot := some q.id }

/-- The state with the saved cores at their new places, from which tiles and registers are taken. -/
def withSaved (s : State) (q : Plot) (ks : List (Nat × Core)) : State :=
  q.cores.foldl (fun t c => t.modCore c fun _ => savedAt q ks c) (reloaded s q)

/-- The cores restored, before tiles and arming. -/
def restoredCores (s : State) (q : Plot) (ks : List (Nat × Core)) : State :=
  q.cores.foldl (fun t c => t.modCore c fun k => restoreCore k ((withSaved s q ks).core c)) (reloaded s q)

theorem writeCells_plots (s : State) (q : Plot) (cores : List Nat) : (writeCells s q cores).plots = s.plots := by
  unfold writeCells
  dsimp only
  rw [foldl_keeps State.plots (f := fun t (x : Nat × Nat × Cell) => t.modCell x.1 x.2.1 fun _ => x.2.2) fun _ _ => rfl]
  refine foldl_keeps State.plots (fun t c => ?_) _ s
  rfl

theorem loadCoresOf_plots (s : State) (q : Plot) : (loadCoresOf s q).plots = s.plots := by
  unfold loadCoresOf
  rw [writeCells_plots]
  refine foldl_keeps State.plots (fun t c => ?_) _ s
  rfl

theorem restoredCores_plots (s : State) (q : Plot) (ks : List (Nat × Core)) :
    (restoredCores s q ks).plots = (s.modPlot q.id fun _ => { q with duals := dualCells q, fed := fedSlots q }).plots := by
  unfold restoredCores reloaded
  rw [foldl_keeps State.plots (f := fun t c => t.modCore c fun k => restoreCore k ((withSaved s q ks).core c)) fun _ _ => rfl, loadCoresOf_plots]

/-- A core that a fold over the cores sets by its number. -/
theorem core_foldl_modCore {cores : List Nat} {c : Nat} (hc : c ∈ cores) {f : Nat → Core → Core} {P : Core → Prop} (hf : ∀ k, P (f c k)) (s : State) :
    P ((cores.foldl (fun t c => t.modCore c (f c)) s).core c) := by
  refine foldl_establishes (P := fun t : State => P (t.core c)) (fun t d ht => ?_) (fun t => ?_) hc s
  · by_cases hd : c = d
    · subst hd
      rw [State.core_modCore_self]
      exact hf _
    · rwa [State.core_modCore_other _ _ hd]
  · rw [State.core_modCore_self]
    exact hf _

theorem core_withSaved (s : State) {q : Plot} (ks : List (Nat × Core)) {c : Nat} (hc : c ∈ q.cores) : (withSaved s q ks).core c = savedAt q ks c :=
  core_foldl_modCore hc (f := fun c _ => savedAt q ks c) (P := fun k => k = savedAt q ks c) (fun _ => rfl) _

/-- What a restored core takes from the save area. -/
def Core.restores (k saved : Core) : Prop :=
  k.regs = saved.regs ∧ k.lmem = saved.lmem ∧ k.handlers = saved.handlers ∧ k.mat.accs = saved.mat.accs ∧ k.reinj = saved.replay

theorem core_restoredCores (s : State) {q : Plot} (ks : List (Nat × Core)) {c : Nat} (hc : c ∈ q.cores) :
    ((restoredCores s q ks).core c).restores (savedAt q ks c) := by
  refine core_foldl_modCore hc (f := fun c k => restoreCore k ((withSaved s q ks).core c)) (P := fun k => k.restores (savedAt q ks c)) (fun k => ?_) _
  rw [core_withSaved s ks hc]
  exact ⟨rfl, rfl, rfl, rfl, rfl⟩

theorem savedTiles_withSaved (s : State) {q : Plot} {ks : List (Nat × Core)} (htiles : ∀ x ∈ ks, ∀ e ∈ x.2.tiles, e.2.valid = false) :
    savedTiles (withSaved s q ks) q = [] := by
  refine List.flatMap_eq_nil_iff.mpr fun c hc => List.map_eq_nil_iff.mpr (List.filter_eq_nil_iff.mpr fun e he => ?_)
  rw [core_withSaved s ks (List.mem_of_mem_filter hc), savedAt] at he
  have hinvalid : e.2.valid = false := by
    cases hfind : ks.find? fun x => x.1 == q.index c with
    | none =>
      rw [hfind] at he
      exact absurd he (List.not_mem_nil)
    | some x =>
      rw [hfind] at he
      exact htiles x (List.mem_of_find?_eq_some hfind) e he
  rw [hinvalid]
  exact Bool.false_ne_true

theorem readVa_nothing (s : State) (root va : Word) : readVa s root va 0 = .ok [] := rfl

/-- What its pre-emption request, or its start event, adds to a restored plot. -/
def restoreEnd (now : BitVec 64) (s : State) (q : Plot) : State :=
  if q.closing then s.modPlot q.id fun p => { p with budget := some now, bound := begunWid s q }
  else if q.startPend then startEvent (s.modPlot q.id fun p => { p with startPend := false }) q
  else s

theorem finishRestore_noTiles (s : State) {q : Plot} {ks : List (Nat × Core)} (htiles : ∀ x ∈ ks, ∀ e ∈ x.2.tiles, e.2.valid = false) :
    finishRestore s q ks = restoreEnd s.pace (rebase (armPlot (restoredCores s q ks) q) q) q := by
  have hnone : (readVa s q.ptroot (saveTiles q) (tileBytesOf (withSaved s q ks) (savedTiles (withSaved s q ks) q))).toOption.bind (fun data =>
      restoreTiles (withSaved s q ks) (restoredCores s q ks) data (savedTiles (withSaved s q ks) q)) = some (restoredCores s q ks) := by
    rw [savedTiles_withSaved s htiles]
    rfl
  unfold withSaved restoredCores withSaved reloaded savedAt at hnone
  unfold finishRestore restoredCores withSaved reloaded savedAt
  simp only [hnone]
  rfl

theorem startEvent_plots (s : State) (q : Plot) : (startEvent s q).plots = s.plots := by
  refine foldl_keeps State.plots (fun t c => ?_) _ s
  split <;> rfl

theorem startEvent_cores (s : State) (q : Plot) : (startEvent s q).cores = s.cores := by
  refine foldl_keeps State.cores (fun t c => ?_) _ s
  split <;> rfl

/-- Two records of a plot with the same rectangle, bay and position. -/
structure SameContext (p q : Plot) : Prop where
  die : p.die = q.die
  col : p.col = q.col
  row : p.row = q.row
  w : p.w = q.w
  h : p.h = q.h
  bay : p.bay = q.bay
  wid : p.wid = q.wid
  restored : p.restored = q.restored

theorem SameContext.trans {p q r : Plot} (hpq : SameContext p q) (hqr : SameContext q r) : SameContext p r :=
  ⟨hpq.die.trans hqr.die, hpq.col.trans hqr.col, hpq.row.trans hqr.row, hpq.w.trans hqr.w, hpq.h.trans hqr.h, hpq.bay.trans hqr.bay,
    hpq.wid.trans hqr.wid, hpq.restored.trans hqr.restored⟩

theorem SameContext.cores {p q : Plot} (h : SameContext p q) : p.cores = q.cores := by
  rw [Plot.cores, Plot.cores, h.die, h.col, h.row, h.w, h.h]

theorem SameContext.index {p q : Plot} (h : SameContext p q) (c : Nat) : p.index c = q.index c := by
  rw [Plot.index, Plot.index, Plot.pos, Plot.pos, h.row, h.col, h.w]

/-- The end of a restore changes neither leases nor cores nor the place of the plot. -/
theorem restoreEnd_keeps {s : State} {q p : Plot} (hp : s.findPlot q.id = some p) (now : BitVec 64) :
    (restoreEnd now s q).lease = s.lease ∧ (restoreEnd now s q).cores = s.cores ∧
    ∃ p', (restoreEnd now s q).findPlot q.id = some p' ∧ p'.state = p.state ∧ SameContext p' p := by
  unfold restoreEnd
  split
  · exact ⟨rfl, rfl, _, findPlot_modPlot (fun _ => rfl) hp, rfl, ⟨rfl, rfl, rfl, rfl, rfl, rfl, rfl, rfl⟩⟩
  · split
    · refine ⟨startEvent_lease .., startEvent_cores .., { p with startPend := false }, ?_, rfl, ⟨rfl, rfl, rfl, rfl, rfl, rfl, rfl, rfl⟩⟩
      rw [State.findPlot, startEvent_plots]
      exact findPlot_modPlot (fun _ => rfl) hp
    · exact ⟨rfl, rfl, p, hp, rfl, ⟨rfl, rfl, rfl, rfl, rfl, rfl, rfl, rfl⟩⟩

theorem armPlot_cores (s : State) (q : Plot) : (armPlot s q).cores = s.cores := by
  unfold armPlot
  exact (foldl_keeps State.cores (f := fun t c => t.setLease c (.armed q.id)) (fun _ _ => rfl) q.cores _ :)

theorem armPlot_findPlot {s : State} {q p : Plot} (hp : s.findPlot q.id = some p) :
    ∃ p', (armPlot s q).findPlot q.id = some p' ∧ p'.state = .armed ∧ SameContext p' p := by
  unfold armPlot
  refine ⟨_, findPlot_modPlot (fun _ => rfl) (q := p) ?_, rfl, ⟨rfl, rfl, rfl, rfl, rfl, rfl, rfl, rfl⟩⟩
  rw [State.findPlot, foldl_keeps State.plots (f := fun t c => t.setLease c (.armed q.id)) fun _ _ => rfl]
  exact hp

/-- A restore without tiles arms the plot in place, its cores as the save area gives them. -/
theorem finishRestore_arms {s : State} {q : Plot} {ks : List (Nat × Core)} (hq : q.id ∈ s.plotIds)
    (htiles : ∀ x ∈ ks, ∀ e ∈ x.2.tiles, e.2.valid = false) :
    (∃ p, (finishRestore s q ks).findPlot q.id = some p ∧ p.state = .armed ∧ SameContext p q) ∧
    ∀ c ∈ q.cores, (finishRestore s q ks).leaseOf c = .armed q.id ∧ ((finishRestore s q ks).core c).restores (savedAt q ks c) := by
  rw [finishRestore_noTiles s htiles]
  have hfound : (restoredCores s q ks).findPlot q.id = some { q with duals := dualCells q, fed := fedSlots q } := by
    rw [State.findPlot, restoredCores_plots]
    exact findPlot_modPlot_const (r := { q with duals := dualCells q, fed := fedSlots q }) hq
  obtain ⟨p, hp, harmed, hpq⟩ := armPlot_findPlot hfound
  obtain ⟨hlease, hcores, p', hp', hstate, hpp'⟩ := restoreEnd_keeps (s := rebase (armPlot (restoredCores s q ks) q) q) (q := q) (p := p) hp s.pace
  refine ⟨⟨p', hp', hstate.trans harmed, hpp'.trans (hpq.trans ⟨rfl, rfl, rfl, rfl, rfl, rfl, rfl, rfl⟩)⟩, fun c hc => ⟨?_, ?_⟩⟩
  · show tget Lease.free (restoreEnd s.pace (rebase (armPlot (restoredCores s q ks) q) q) q).lease c = _
    rw [hlease]
    exact leaseOf_armPlot _ hc
  · show (tget Core.init (restoreEnd s.pace (rebase (armPlot (restoredCores s q ks) q) q) q).cores c).restores _
    rw [hcores, show (rebase (armPlot (restoredCores s q ks) q) q).cores = (restoredCores s q ks).cores from armPlot_cores ..]
    exact core_restoredCores s ks hc

section
variable {s t : State} {q : Plot} {hd : List Byte} {ks : List (Nat × Core)} (hq : s.findPlot q.id = some q) (hst : q.state = .loading)
  (hres : q.restored = true) (hall : allLoading s q = true)
  (hsend : saveTraffic s q ((q.image407.flatMap fun x => x.2.tiles.map fun e => if e.2.valid then e.2.size else 0)).sum false = some t)
  (hcheck : checkImage q.img (fun i => isBridge (q.cores.getD i 0)) = none) (hhd : readVa t q.ptroot (saveBase q) 4096 = .ok hd)
  (hks : savedCores t q q.image407 = .ok ks)
include hq hst hres hall hsend hcheck hhd hks

theorem contextRestore_finishes : exec (.contextRestore q.id) s = .next (finishRestore t (headerFrom q hd) ks) := by
  show execContextRestore q.id s = _
  simp only [execContextRestore, hq, hst, hres, hall, beq_self_eq_true, Bool.and_self, if_true, restorePlot, hsend, hcheck, hhd, hks]

theorem contextRestore_arms (htiles : ∀ x ∈ ks, ∀ e ∈ x.2.tiles, e.2.valid = false) :
    ∃ u p, exec (.contextRestore q.id) s = .next u ∧ u.findPlot q.id = some p ∧ p.state = .armed ∧ p.bay = leAt hd 4 1 ∧
      p.wid = leBv 64 (slice hd 8 8) ∧ p.restored = true ∧ p.cores = q.cores ∧
      ∀ c ∈ p.cores, u.leaseOf c = .armed q.id ∧
        ∀ x, ks.find? (fun x => x.1 == p.index c) = some x → (u.core c).regs = x.2.regs ∧ (u.core c).lmem = x.2.lmem ∧
          (u.core c).handlers = x.2.handlers ∧ (u.core c).mat.accs = x.2.mat.accs ∧ (u.core c).reinj = x.2.replay := by
  have hids : (headerFrom q hd).id ∈ t.plotIds := saveTraffic_plotIds hsend ▸ plotIds_of_findPlot hq
  obtain ⟨⟨p, hp, harmed, hsame⟩, hcores⟩ := finishRestore_arms hids htiles
  have heq : p.cores = q.cores := hsame.cores
  refine ⟨_, p, contextRestore_finishes hq hst hres hall hsend hcheck hhd hks, hp, harmed, hsame.bay, hsame.wid, hsame.restored.trans hres, heq,
    fun c hc => ?_⟩
  obtain ⟨hlease, hsaved⟩ := hcores c (heq ▸ hc)
  refine ⟨hlease, fun x hx => ?_⟩
  rw [hsame.index c] at hx
  unfold savedAt at hsaved
  rw [hx] at hsaved
  exact hsaved

end

/-! ### A core read from its block (R407) -/

theorem tget_foldl_tset_self {α ι : Type} [DecidableEq α] (d : α) {key : ι → Nat} (v : ι → α) {l : List ι} (hl : (l.map key).Nodup) {p : ι} (hp : p ∈ l)
    (t : Tbl α) : tget d (l.foldl (fun t p => tset d t (key p) (v p)) t) (key p) = v p :=
  tget_foldl_changes_self d (fun p _ => v p) hl hp t

theorem tget_foldl_tset_other {α ι : Type} [DecidableEq α] (d : α) {key : ι → Nat} (v : ι → α) {l : List ι} {k : Nat} (hk : ∀ p ∈ l, k ≠ key p)
    (t : Tbl α) : tget d (l.foldl (fun t p => tset d t (key p) (v p)) t) k = tget d t k :=
  tget_foldl_changes_other d (fun p _ => v p) hk t

theorem slice_slice {α : Type} (l : List α) {a m o n : Nat} (h : o + n ≤ m) : slice (slice l a m) o n = slice l (a + o) n := by
  rw [slice, slice, slice, List.drop_take, List.drop_drop, List.take_take, Nat.min_eq_left (by omega)]

/-- The banked registers: channel and number. -/
def bankedRegs : List (Nat × Nat) := (List.range 16).flatMap fun c => (List.range 8).map fun i => (c, i)

theorem mem_bankedRegs {p : Nat × Nat} : p ∈ bankedRegs ↔ p.1 < 16 ∧ p.2 < 8 := by
  simp only [bankedRegs, List.mem_flatMap, List.mem_map, List.mem_range, Prod.ext_iff]
  constructor
  · rintro ⟨c, hc, i, hi, rfl, rfl⟩
    exact ⟨hc, hi⟩
  · exact fun ⟨hc, hi⟩ => ⟨_, hc, _, hi, rfl, rfl⟩

theorem bankedRegs_nodup : (bankedRegs.map fun p => 24 + 8 * p.1 + p.2).Nodup := by
  have hpairs : bankedRegs.Nodup := (List.nodup_range (n := 16)).product (List.nodup_range (n := 8))
  refine hpairs.map_on fun a ha b hb hab => ?_
  have ha2 := (mem_bankedRegs.mp ha).2
  have hb2 := (mem_bankedRegs.mp hb).2
  exact Prod.ext (by omega) (by omega)

/-- The number of the register that place `i` of the saved low registers holds: x1 to x23, then those of bank 16. -/
def lowReg (i : Nat) : Nat := if i < 23 then i + 1 else 24 + 8 * 16 + (i - 23)

theorem lowReg_nodup : ((List.range 31).map lowReg).Nodup := by
  refine List.nodup_range.map_on fun a _ b _ hab => ?_
  unfold lowReg at hab
  split at hab <;> split at hab <;> omega

section
variable (k : Core) (bs : List Byte)

/-- The low registers of a block. -/
def lowRegsFrom : Tbl Word := (List.range 31).foldl (fun t i => tset 0 t (lowReg i) (leBv 64 (slice bs (0x18000 + 8 * i) 8))) []

theorem coreFrom_regs : (coreFrom k bs).regs = bankedRegs.foldl (fun t x => tset 0 t (24 + 8 * x.1 + x.2)
    (leBv 64 (slice (slice bs (0x18400 + 256 * x.1) 256) (128 + 8 * x.2) 8))) (lowRegsFrom bs) := by
  simp only [coreFrom, lowRegsFrom, bankedRegs, lowReg]

theorem coreFrom_reg_low {r : Nat} (hr : r < 23) : tget 0 (coreFrom k bs).regs (r + 1) = leBv 64 (slice bs (0x18000 + 8 * r) 8) := by
  rw [coreFrom_regs, tget_foldl_tset_other 0 (key := fun x : Nat × Nat => 24 + 8 * x.1 + x.2) _ fun p _ => by omega]
  have h := tget_foldl_tset_self (0 : Word) (fun i => leBv 64 (slice bs (0x18000 + 8 * i) 8)) lowReg_nodup (List.mem_range.mpr (by omega : r < 31)) []
  rwa [lowReg, if_pos hr] at h

theorem coreFrom_reg_banked {c i : Nat} (hc : c < 16) (hi : i < 8) : tget 0 (coreFrom k bs).regs (24 + 8 * c + i) =
    leBv 64 (slice bs (0x18400 + 256 * c + 128 + 8 * i) 8) := by
  rw [coreFrom_regs, Nat.add_assoc (0x18400 + 256 * c), ← slice_slice bs (m := 256) (by omega)]
  exact tget_foldl_tset_self (0 : Word) (fun x : Nat × Nat => leBv 64 (slice (slice bs (0x18400 + 256 * x.1) 256) (128 + 8 * x.2) 8))
    bankedRegs_nodup (p := (c, i)) (mem_bankedRegs.mpr ⟨hc, hi⟩) _

theorem coreFrom_handler {c : Nat} (hc : c < 16) : (coreFrom k bs).handler c = handlerFrom (slice bs (0x18400 + 256 * c) 256) :=
  tget_foldl_tset_self Handler.init (key := id) (fun c => handlerFrom (slice bs (0x18400 + 256 * c) 256))
    (by rw [List.map_id]; exact List.nodup_range) (List.mem_range.mpr hc) _

end

theorem readBlock_ok {s : State} {q : Plot} {i : Nat} {k k' : Core} (h : readBlock s q i k = .ok k') :
    ∃ low high, readVa s q.ptroot (saveBase q + BitVec.ofNat 64 (4096 + 131072 * i)) 0x19400 = .ok low ∧
      readVa s q.ptroot (saveBase q + BitVec.ofNat 64 (4096 + 131072 * i) + 0x19800) 0x5C00 = .ok high ∧
      k' = coreFrom k (low ++ List.replicate 0x400 0 ++ high) := by
  unfold readBlock at h
  obtain ⟨low, hlow, h⟩ := allOk_ok h
  obtain ⟨high, hhigh, h⟩ := allOk_ok h
  exact ⟨low, high, hlow, hhigh, (Except.ok.inj h).symm⟩

theorem savedCores_ok {s : State} {q : Plot} {xs ks : List (Nat × Core)} (h : savedCores s q xs = .ok ks) : ks.length = xs.length ∧
    ∀ (n : Nat) (x y : Nat × Core), xs[n]? = some x → ks[n]? = some y → y.1 = x.1 ∧ readBlock s q x.1 x.2 = .ok y.2 := by
  obtain ⟨hlen, hall⟩ := collect_ok _ xs ks h
  refine ⟨hlen, fun n x y hx hy => ?_⟩
  obtain ⟨k, hk, hy⟩ := allOk_ok (hall n x y hx hy)
  rw [← Except.ok.inj hy]
  exact ⟨rfl, hk⟩

/-! ### O47 -/

theorem requests_handled {s : State} {q : Plot} (hq : s.findPlot q.id = some q) :
    (∀ u, q.saveHeld = false → q.closing = false → q.id ∈ victims s → walkerSend s 0 q.die ctlPreempt = some u →
      let asked := u.modPlot q.id fun p => { p with saveHeld := true }
      exec (.preemptRequest q.id) s = .next asked ∧
      (q.state = .armed → usedSlice s q = true → exec (.sliceExpiry q.id) s = .next asked)) ∧
    (walkerSend s 0 q.die ctlPreempt = none → (q.saveHeld = false → exec (.preemptRequest q.id) s = .next s) ∧ exec (.sliceExpiry q.id) s = .next s) ∧
    (q.id ∉ victims s → (q.saveHeld = false → exec (.preemptRequest q.id) s = .next s) ∧ exec (.sliceExpiry q.id) s = .next s) := by
  have hunsent (h : sendRequest s q = s) :
      (q.saveHeld = false → exec (.preemptRequest q.id) s = .next s) ∧ exec (.sliceExpiry q.id) s = .next s :=
    ⟨fun hnew => (preemptRequest_new hq hnew).trans (congrArg _ h), sliceExpiry_unsent hq h⟩
  refine ⟨fun u hnew hopen hvictim hsend => ?_, fun hsend => hunsent (sendRequest_blocked hsend), fun hvictim => hunsent (sendRequest_spared hvictim)⟩
  have hsent := sendRequest_sends hopen hvictim hsend
  exact ⟨(preemptRequest_new hq hnew).trans (congrArg _ hsent), fun harmed hused => (sliceExpiry_used hq harmed hused).trans (congrArg _ hsent)⟩

theorem contextRestore_places {s u : State} {q : Plot} {e : QEntry} {die col row : Nat} (hq : s.findPlot q.id = some q) (he : entryOf s q = some e)
    (hst : q.state = .saved) (hcand : q.cand = some (die, col, row)) (hserved : served s q die = true)
    (hsend : ((walkerSend s 0 die ctlReserve).bind fun t => walkerSend t die 0 ctlReserve) = some u) (hfree : freeAt u q.img (die, col, row) = true) :
    ∃ t p, exec (.contextRestore q.id) s = .next t ∧ t.findPlot q.id = some p ∧ p.state = .loading ∧ p.restored = true ∧ p.bay = q.bay ∧
      p.wid = q.wid ∧ p.die = die ∧ p.col = col ∧ p.row = row ∧ ∀ c ∈ p.cores, t.leaseOf c = .loading q.id := by
  have hids : q.id ∈ (u.modPlot q.id fun p => { p with cand := none }).plotIds := by
    obtain ⟨v, hv, hu⟩ := Option.bind_eq_some_iff.mp hsend
    rw [modPlot_plotIds _ _ (by exact fun _ _ => rfl), walkerSend_plotIds hu, walkerSend_plotIds hv]
    exact plotIds_of_findPlot hq
  obtain ⟨hplot, hlease⟩ := placeSaved_loads hids e (die, col, row)
  refine ⟨_, _, ?_, hplot, rfl, rfl, rfl, rfl, rfl, rfl, rfl, hlease⟩
  rw [contextRestore_reserves hq he hst hcand, reserveAt_served hserved hsend, if_pos hfree]

theorem watchdog_ends {s : State} {q : Plot} (hq : s.findPlot q.id = some q) (hlive : q.live = true) :
    (q.wdog ≠ 0 → q.budget = none → plotHalted s q = false → 1000 * q.wdog ≤ (s.pace - q.lastRetire).toNat - q.wdStop →
      exec (.watchdogExpiry q.id) s = .next (walkerEnd s q cWATCHDOG)) ∧
    ((q.wdog = 0 ∨ q.budget ≠ none ∨ (s.pace - q.lastRetire).toNat - q.wdStop < 1000 * q.wdog) → exec (.watchdogExpiry q.id) s = .next s) := by
  rw [watchdogExpiry_eq hq hlive]
  refine ⟨fun hset hrun hhalt hdue => ?_, fun h => ?_⟩
  · rw [if_neg]
    rintro (h | h | h | h)
    · exact hset h
    · exact h hrun
    · exact Bool.false_ne_true (hhalt.symm.trans h)
    · exact Nat.not_lt.mpr hdue h
  · rw [if_pos]
    rcases h with h | h | h
    · exact .inl h
    · exact .inr (.inl h)
    · exact .inr (.inr (.inr h))

/-- Settles O47: requests, the save, the place and the end of a restore, the save area read back, and the two timers, each by its own lemma. -/
theorem contextsSavedAndRestored : Obligations.ContextsSavedAndRestored := by
  refine ⟨fun s q hq => ?requests, fun s q u s3 hq hready hbarr => ?save, fun s q e hq he hst => ?place,
    fun s t q hd ks hq hst hres hall hsend hcheck hhd hks htiles => contextRestore_arms hq hst hres hall hsend hcheck hhd hks htiles,
    fun s q xs ks h => ?area, fun s q hq hlive => ?timers⟩
  case requests =>
    obtain ⟨hsends, hblocked, hspared⟩ := requests_handled hq
    refine ⟨hsends, hblocked, hspared, preemptRequest_held hq, fun hopen hbegun harmed => ?_, requestSave_begun⟩
    rw [requestSave_armed hopen hbegun harmed]
    exact ⟨fun hfree => if_neg (Bool.eq_false_iff.mp hfree), fun htraps => if_pos htraps⟩
  case save => exact fun hheld hsend hwrite => contextSave_frees hq hready hbarr hheld hsend hwrite
  case place =>
    exact ⟨fun t img hcand hhead hsend hfetch => contextRestore_searches hq he hst hcand hhead hsend hfetch,
      fun die col row u hcand hserved hsend hfree => contextRestore_places hq he hst hcand hserved hsend hfree⟩
  case area =>
    obtain ⟨hlen, hblocks⟩ := savedCores_ok h
    refine ⟨hlen, fun n x y hx hy => ?_⟩
    obtain ⟨hnum, hblock⟩ := hblocks n x y hx hy
    obtain ⟨low, high, hlow, hhigh, hcore⟩ := readBlock_ok hblock
    rw [hcore]
    exact ⟨hnum, low, high, hlow, hhigh, rfl, fun r hr => coreFrom_reg_low _ _ hr,
      fun c hc => ⟨coreFrom_handler _ _ hc, fun i hi => coreFrom_reg_banked _ _ hc hi⟩, rfl⟩
  case timers =>
    obtain ⟨hends, hkeeps⟩ := watchdog_ends hq hlive
    refine ⟨hends, hkeeps, fun b hb => ?_, saveTimeout_none hq⟩
    rw [saveTimeout_eq hq hlive hb]
    exact ⟨fun h => if_pos h ▸ rfl, fun h => if_neg (Nat.not_le.mpr h) ▸ rfl⟩

end Sys2Proof.Machine
end
section
/-!
PROOFS. Groups, collective commands, their rendezvous and completion, and the fold of a reduction (R375 to R382): O38.
-/

namespace Sys2Proof.Machine

/-! ### CGRP and CGRP.FREE at their ISSUE (R60, R376) -/

section
variable {s : State} {devs : Bool} {p rank : W32} (hslot : s.cur.slot = 0)
include hslot

theorem cgrpCmd_accepts (hlead : leadPlot s s.cur.core ≠ none) (hp : 0 < p.toNat) (hmax : p.toNat ≤ if devs then 192 else 320)
    (hrank : rank.toNat < p.toNat) (free : Bool) (g : BitVec 6) : cgrpCmd s devs free g p rank = .next (sendCommands
      (modCmd (accept s [] 0) s.cur.core (s.nextId + 1) fun y => { y with home := marketOf s.cur.core, ctl := .held })) := by
  have hnone : (leadPlot s s.cur.core).isNone = false := Bool.eq_false_iff.mpr fun h => hlead (Option.isNone_iff_eq_none.mp h)
  have hok : ¬(p = 0 ∨ (if devs then 192 else 320) < p.toNat) := by
    rintro (rfl | h)
    · exact absurd hp (by decide)
    · omega
  have hlt : rank.ult p = true := decide_eq_true hrank
  simp only [cgrpCmd, issuing_eq_true hslot, hnone, gt_iff_lt, hok, hlt, Bool.not_true, Bool.false_eq_true, if_true, if_false]

theorem cgrpCmd_badRank (hlead : leadPlot s s.cur.core ≠ none) (hp : 0 < p.toNat) (hmax : p.toNat ≤ if devs then 192 else 320)
    (hrank : p.toNat ≤ rank.toNat) (free : Bool) (g : BitVec 6) :
    cgrpCmd s devs free g p rank = .next (acceptFault s cFORMAT 0 (rank.setWidth 64)) := by
  have hnone : (leadPlot s s.cur.core).isNone = false := Bool.eq_false_iff.mpr fun h => hlead (Option.isNone_iff_eq_none.mp h)
  have hok : ¬(p = 0 ∨ (if devs then 192 else 320) < p.toNat) := by
    rintro (rfl | h)
    · exact absurd hp (by decide)
    · omega
  have hlt : rank.ult p = false := decide_eq_false (Nat.not_lt.mpr hrank)
  simp only [cgrpCmd, issuing_eq_true hslot, hnone, gt_iff_lt, hok, hlt, Bool.not_false, Bool.false_eq_true, if_true, if_false]

theorem cgrpCmd_badSize (hbad : leadPlot s s.cur.core = none ∨ p.toNat = 0 ∨ (if devs then 192 else 320) < p.toNat) (free : Bool) (g : BitVec 6) :
    cgrpCmd s devs free g p rank = .next (acceptFault s cFORMAT 0 (p.setWidth 64)) := by
  simp only [cgrpCmd, issuing_eq_true hslot, if_true, gt_iff_lt]
  rcases hbad with hlead | hsize
  · rw [hlead]
    rfl
  · have hbad : p = 0 ∨ (if devs then 192 else 320) < p.toNat := hsize.imp_left fun h => BitVec.eq_of_toNat_eq h
    rw [if_pos hbad, ite_self]

end

/-! ### CGRP and CGRP.FREE at the collective logic (R376) -/

section
variable {s : State} {devs : Bool} {g : BitVec 6} {p rank : W32} {me : Cmd} {q : Plot} (hslot : s.cur.slot ≠ 0)
  (hme : (s.core s.cur.core).cmd s.cur.slot = some me) (hphase : me.phase = .accepted) (hlead : leadPlot s s.cur.core = some q)
include hslot hme hphase hlead

omit hphase in
theorem cgrpCmd_away (haway : atExecutor me = false) (free : Bool) : cgrpCmd s devs free g p rank = .next s := by
  unfold atExecutor at haway
  simp only [cgrpCmd, issuing_eq_false hslot, hme, hlead, haway, Bool.not_false, Bool.or_true, Bool.false_eq_true, if_false, if_true]

variable (hhere : atExecutor me = true)
include hhere

theorem cgrp_registers : exec (.cgrp devs g p rank) s = .next (register s s.cur.core me.id q.id devs g.toNat p.toNat rank.toNat) := by
  show cgrpCmd s devs false g p rank = _
  unfold atExecutor at hhere
  simp only [cgrpCmd, issuing_eq_false hslot, hme, hphase, hlead, hhere, bne_self_eq_false, Bool.not_true, Bool.or_self, Bool.false_eq_true, if_false]

theorem cgrpFree_frees : exec (.cgrpFree devs g p rank) s = .next (freeGroup s s.cur.core me.id q.id g.toNat) := by
  show cgrpCmd s devs true g p rank = _
  unfold atExecutor at hhere
  simp only [cgrpCmd, issuing_eq_false hslot, hme, hphase, hlead, hhere, bne_self_eq_false, Bool.not_true, Bool.or_self, Bool.false_eq_true, if_false,
    if_true]

end

section
variable {s : State} {core id plot g p rank : Nat} {devs : Bool}

theorem register_first (hempty : (s.group g).members = []) (hp : 2 ≤ p) : register s core id plot devs g p rank =
    modCmd (s.modGroup g fun _ => { s.group g with
      devs := devs, p := p, members := [{ plot := plot, rank := rank, core := core, pending := [id], freed := none }] }) core id
      fun y => { y with phase := .running } := by
  have hpart : (p != 0 && [({ plot := plot, rank := rank, core := core, pending := [id], freed := none } : Member)].length == p) = false := by
    rw [beq_false_of_ne (by rw [List.length_singleton]; omega), Bool.and_false]
  simp only [register, hempty, List.isEmpty_nil, Bool.not_true, Bool.false_and, Bool.false_eq_true, if_false, List.nil_append, Group.whole, hpart]

theorem register_refused (hsome : (s.group g).members ≠ [])
    (hbad : (s.group g).devs ≠ devs ∨ (s.group g).p ≠ p ∨ ∃ m ∈ (s.group g).members, m.rank = rank) :
    register s core id plot devs g p rank = completeFrom s core id cFORMAT 0 := by
  refine if_pos ?_
  simpa [hsome, or_assoc] using hbad

theorem register_last (hdevs : (s.group g).devs = devs) (hp : (s.group g).p = p)
    (hrank : ∀ m ∈ (s.group g).members, m.rank ≠ rank) (hlast : (s.group g).members.length + 1 = (s.group g).p) :
    let mine : Member := { plot := plot, rank := rank, core := core, pending := [id], freed := none }
    register s core id plot devs g p rank = (finishAll (modCmd (s.modGroup g fun _ =>
        { s.group g with devs := devs, p := p, members := (s.group g).members ++ [mine] }) core id fun y => { y with phase := .running })
      ((s.group g).members ++ [mine]) 0 (BitVec.ofNat 32 p)).modGroup g fun x => { x with members := x.members.map fun m => { m with pending := [] } } := by
  intro mine
  have hok : (!(s.group g).members.isEmpty && ((s.group g).devs != devs || (s.group g).p != p || (s.group g).members.any fun m => m.rank == rank)) =
      false := by
    simpa [hdevs, hp] using fun _ => hrank
  have hwhole : ({ s.group g with devs := devs, p := p, members := (s.group g).members ++ [mine] } : Group).whole = true := by
    rw [Group.whole, List.length_append, List.length_singleton, hlast, hp, beq_self_eq_true, Bool.and_true, bne_iff_ne, ← hp, ← hlast]
    exact Nat.succ_ne_zero _
  unfold register
  dsimp only
  rw [hok, if_neg Bool.false_ne_true]
  exact if_pos hwhole

theorem freeGroup_refused (hnone : (s.group g).whole = false ∨ (s.group g).memberOf plot = none) :
    freeGroup s core id plot g = completeFrom s core id cFORMAT 0 := by
  have hmember : (if (s.group g).whole then (s.group g).memberOf plot else none) = none := by
    rcases hnone with h | h
    · rw [h, if_neg Bool.false_ne_true]
    · rw [h, ite_self]
  simp only [freeGroup, hmember]

theorem freeGroup_member {m : Member} (hwhole : (s.group g).whole = true) (hmember : (s.group g).memberOf plot = some m) (hnew : m.freed = none) :
    let ms := mapFirst (fun x => x.plot == plot) (fun x => { x with freed := some id }) (s.group g).members
    freeGroup s core id plot g = if ms.all fun x => x.freed.isSome then { finishFreed s ms with groups := tdel s.groups g }
      else modCmd (s.modGroup g fun x => { x with members := ms }) core id fun y => { y with phase := .running } := by
  simp only [freeGroup, hwhole, hmember, hnew, if_true, Option.isSome_none, Bool.false_eq_true, if_false]

end

/-! ### Collective commands at their ISSUE (R376, R377) -/

section
variable {s : State} {x : Instr} {i : GInfo} (hslot : s.cur.slot = 0) (hinfo : gInfo x = some i)
include hslot hinfo

theorem collectiveCmd_accepts (hcheck : collectiveCheck s s.cur.core i (descriptor s (i.ldesc.toNat % Config.localBytes) 64) = none) :
    collectiveCmd s x = .next (sendCommands ((modCmd (accept s (descriptor s (i.ldesc.toNat % Config.localBytes) 64) 0) s.cur.core (s.nextId + 1)
      fun y => { y with home := marketOf s.cur.core, ctl := .held }).modGroup i.g fun gr =>
        { gr with members := mapFirst (fun m => m.core == s.cur.core) (fun m => { m with pending := m.pending ++ [s.nextId + 1] }) gr.members })) := by
  simp only [collectiveCmd, issuing_eq_true hslot, hinfo, hcheck, Bool.not_true, Bool.false_eq_true, if_false]

theorem collectiveCmd_faults {f : Byte × Word}
    (hcheck : collectiveCheck s s.cur.core i (descriptor s (i.ldesc.toNat % Config.localBytes) 64) = some f) :
    collectiveCmd s x = .next (acceptFault s f.1 0 f.2) := by
  simp only [collectiveCmd, issuing_eq_true hslot, hinfo, hcheck, Bool.not_true, Bool.false_eq_true, if_false]

theorem collectiveCmd_misaligned (halign : i.ldesc.toNat % 64 ≠ 0) :
    collectiveCmd s x = .next (acceptFault s cALIGN 0 ((i.ldesc.extractLsb' 0 15).setWidth 64)) :=
  collectiveCmd_faults hslot hinfo (f := (cALIGN, (i.ldesc.extractLsb' 0 15).setWidth 64)) (if_pos halign)

end

/-! ### The rendezvous (R378) -/

/-- Two parties have issued the same command. -/
def Party.matches (a b : Party) : Prop :=
  a.i.fn = b.i.fn ∧ a.i.e = b.i.e ∧ a.i.kt = b.i.kt ∧ a.i.op = b.i.op ∧ a.i.count = b.i.count

/-- The test of the rendezvous finds a party that differs from the first. -/
theorem anyDiffers_iff (ps : List Party) (p0 : Party) :
    (ps.any fun q => q.i.fn != p0.i.fn || q.i.e != p0.i.e || q.i.kt != p0.i.kt || q.i.op != p0.i.op || q.i.count != p0.i.count) = true ↔
      ∃ q ∈ ps, ¬q.matches p0 := by
  simp only [List.any_eq_true, Bool.or_eq_true, bne_iff_ne, Party.matches, not_and_or, ne_eq, or_assoc]

theorem exists_differs {ps : List Party} {p0 a b : Party} (ha : a ∈ ps) (hb : b ∈ ps) (hab : ¬a.matches b) : ∃ q ∈ ps, ¬q.matches p0 := by
  by_contra hall
  push Not at hall
  obtain ⟨h1, h2, h3, h4, h5⟩ := hall a ha
  obtain ⟨k1, k2, k3, k4, k5⟩ := hall b hb
  exact hab ⟨h1.trans k1.symm, h2.trans k2.symm, h3.trans k3.symm, h4.trans k4.symm, h5.trans k5.symm⟩

section
variable {s : State} {g : Nat} {ps : List Party} (hps : parties s (s.group g) = ps)
include hps

theorem rendezvous_waits (h : (s.group g).whole = false ∨ (s.group g).met = true ∨ ps.length < (s.group g).p) :
    exec (.collectiveRendezvous g) s = .next s := by
  show execCollectiveRendezvous g s = _
  have hwait : (!(s.group g).whole || (s.group g).met || decide (ps.length < (s.group g).p) || ps.any fun q => !atExecutor q.cmd) = true := by
    rcases h with h | h | h
    · simp [h]
    · simp [h]
    · simp [h]
  cases ps with
  | nil => simp only [execCollectiveRendezvous, hps]
  | cons p0 r => simp only [execCollectiveRendezvous, hps, hwait, if_true]

variable (hlen : ps.length = (s.group g).p) (hp : (s.group g).p ≠ 0) (hwhole : (s.group g).whole = true) (hmet : (s.group g).met = false)
  (hcome : ∀ q ∈ ps, atExecutor q.cmd = true)
include hlen hp hwhole hmet hcome

omit hps hp in
/-- A whole group whose commands have all come meets. -/
theorem rendezvous_ready : (!(s.group g).whole || (s.group g).met || decide (ps.length < (s.group g).p) || ps.any fun q => !atExecutor q.cmd) =
    false := by
  have hhere : (ps.any fun q => !atExecutor q.cmd) = false := by
    rw [List.any_eq_false]
    exact fun q hq => by rw [hcome q hq]; decide
  rw [hwhole, hmet, hhere, decide_eq_false (Nat.not_lt.mpr hlen.ge)]
  rfl

omit hps hwhole hmet hcome in
theorem parties_ne_nil : ∃ p0 r, ps = p0 :: r :=
  List.exists_cons_of_length_pos (hlen ▸ Nat.pos_of_ne_zero hp)

theorem rendezvous_mismatch (hbad : ∃ a ∈ ps, ∃ b ∈ ps, ¬a.matches b) : exec (.collectiveRendezvous g) s =
    .next (groupNext (ps.foldl (fun t q => completeFrom t q.core q.cmd.id cFORMAT 0) s) g) := by
  have hready := rendezvous_ready hlen hwhole hmet hcome
  obtain ⟨a, ha, b, hb, hab⟩ := hbad
  obtain ⟨p0, r, rfl⟩ := parties_ne_nil hlen hp
  have hdiffers := (anyDiffers_iff (p0 :: r) p0).mpr (exists_differs ha hb hab)
  show execCollectiveRendezvous g s = _
  simp only [execCollectiveRendezvous, hps, hready, hdiffers, Bool.false_eq_true, if_false, if_true]

theorem rendezvous_transfers (hgood : ∀ a ∈ ps, ∀ b ∈ ps, a.matches b) (hfree : ∀ t ∈ transfers s ps, blockedDest s ps t = false) {u : State}
    (hu : meetTraffic s ps = some u) : exec (.collectiveRendezvous g) s = .next ((transfers s ps).foldl (doTransfer ps)
      (ps.foldl (fun t q => setOutcome t q 0 0) (u.modGroup g fun x => { x with met := true, done := [] }))) := by
  have hready := rendezvous_ready hlen hwhole hmet hcome
  have hnone : ((transfers s ps).any fun t => blockedDest s ps t) = false :=
    List.any_eq_false.mpr fun t ht => Bool.eq_false_iff.mp (hfree t ht)
  obtain ⟨p0, r, rfl⟩ := parties_ne_nil hlen hp
  have hsame := Bool.eq_false_iff.mpr fun h =>
    let ⟨a, ha, hdiffers⟩ := (anyDiffers_iff (p0 :: r) p0).mp h
    hdiffers (hgood a ha p0 List.mem_cons_self)
  show execCollectiveRendezvous g s = _
  simp only [execCollectiveRendezvous, hps, hready, hsame, hnone, hu, Bool.false_eq_true, if_false]

end

/-! ### Completion (R382) -/

theorem parties_dropTrailing (s : State) (gr : Group) : parties (dropTrailing s) gr = parties s gr := rfl

section
variable {s : State} {g rank : Nat} {q : Party} (hq : (parties s (s.group g)).find? (fun x => x.rank == rank) = some q)
  (hmet : (s.group g).met = true) (hdone : rank ∉ (s.group g).done)
include hq hmet hdone

/-- A member completes when nothing that it waits for is open. -/
theorem collectiveComplete_eq : exec (.collectiveComplete g rank) s = .next (
    if (partyAccs (dropTrailing s) q).any fun a => a.phase != .returned then stampReady (dropTrailing s)
    else
      let t := if (partyAccs (dropTrailing s) q).isEmpty then completeFrom (dropTrailing s) q.core q.cmd.id q.cmd.code q.cmd.result
        else completeFrom (dropTrailing s) q.core q.cmd.id cCAUSALGAP 0
      if (rank :: (s.group g).done).length ≥ (s.group g).p then
        let ids := (s.group g).members.flatMap fun m => (m.pending.take 1).map fun id => (m.core, id)
        groupNext { t with accs := t.accs.filter fun a => !(a.phase == .returned && ids.any fun x => a.dest == .cmd x.1 x.2) } g
      else t.modGroup g fun x => { x with done := rank :: x.done }) := by
  have hq' : (parties (dropTrailing s) ((dropTrailing s).group g)).find? (fun x => x.rank == rank) = some q := hq
  have hgo : (!((dropTrailing s).group g).met || ((dropTrailing s).group g).done.contains rank) = false := by
    rw [show ((dropTrailing s).group g).met = true from hmet]
    exact Bool.eq_false_iff.mpr fun h => hdone (List.contains_iff_mem.mp h)
  show execCollectiveComplete g rank s = _
  simp only [execCollectiveComplete, hq', hgo, Bool.false_eq_true, if_false]
  rfl

theorem collectiveComplete_waits (hopen : ∃ a ∈ partyAccs (dropTrailing s) q, a.phase ≠ .returned) :
    exec (.collectiveComplete g rank) s = .next (stampReady (dropTrailing s)) := by
  rw [collectiveComplete_eq hq hmet hdone, if_pos]
  obtain ⟨a, ha, hphase⟩ := hopen
  exact List.any_eq_true.mpr ⟨a, ha, bne_iff_ne.mpr hphase⟩

variable (hmore : (s.group g).done.length + 1 < (s.group g).p)
include hmore

theorem collectiveComplete_performed (hnone : partyAccs (dropTrailing s) q = []) : exec (.collectiveComplete g rank) s =
    .next ((completeFrom (dropTrailing s) q.core q.cmd.id q.cmd.code q.cmd.result).modGroup g fun x => { x with done := rank :: x.done }) := by
  have hlt : ¬(rank :: (s.group g).done).length ≥ (s.group g).p := Nat.not_le.mpr hmore
  rw [collectiveComplete_eq hq hmet hdone]
  simp only [hnone, List.any_nil, List.isEmpty_nil, hlt, Bool.false_eq_true, if_false, if_true]

theorem collectiveComplete_lost (hsome : partyAccs (dropTrailing s) q ≠ []) (hback : ∀ a ∈ partyAccs (dropTrailing s) q, a.phase = .returned) :
    exec (.collectiveComplete g rank) s =
      .next ((completeFrom (dropTrailing s) q.core q.cmd.id cCAUSALGAP 0).modGroup g fun x => { x with done := rank :: x.done }) := by
  have hlt : ¬(rank :: (s.group g).done).length ≥ (s.group g).p := Nat.not_le.mpr hmore
  have hquiet : ((partyAccs (dropTrailing s) q).any fun a => a.phase != .returned) = false :=
    List.any_eq_false.mpr fun a ha => by rw [hback a ha]; decide
  rw [collectiveComplete_eq hq hmet hdone]
  simp only [hquiet, List.isEmpty_eq_false_iff.mpr hsome, hlt, Bool.false_eq_true, if_false]

end

theorem dropTrailing_whole {s : State} {a : Access} (ha : a ∈ (dropTrailing s).accs) (hrel : a.rel = true) (hphase : a.phase = .issued)
    (hxfer : a.xfer ≠ 0) : ∀ b ∈ s.accs, b.id < a.id → failedPart b a = false := by
  intro b hb hlt
  have hkept := (List.mem_filter.mp ha).2
  rw [hrel, hphase, bne_iff_ne.mpr hxfer] at hkept
  have hnone : (s.accs.any fun b => Nat.blt b.id a.id && failedPart b a) = false := by simpa using hkept
  have hb := List.any_eq_false.mp hnone b hb
  rw [Nat.blt_eq.mpr hlt, Bool.true_and] at hb
  exact Bool.eq_false_iff.mpr hb

/-! ### The words of a reduction (R380) -/

theorem wordsOf_length (n : Nat) (bs : List Byte) : (wordsOf n bs).length = n := by
  induction n generalizing bs with
  | zero => rfl
  | succ n ih => rw [wordsOf, List.length_cons, ih]

/-- A block of four bytes of the words written out. -/
theorem slice_flatMap_natLe (ws : List W32) {j : Nat} (hj : j < ws.length) :
    slice (ws.flatMap fun w => natLe 4 w.toNat) (4 * j) 4 = natLe 4 (ws.getD j 0).toNat := by
  induction ws generalizing j with
  | nil => exact absurd hj (Nat.not_lt_zero j)
  | cons w r ih =>
    have hlen : (natLe 4 w.toNat).length = 4 := natLe_length 4 _
    rw [List.flatMap_cons]
    cases j with
    | zero => rw [slice_append_left _ (by rw [hlen])]; exact List.take_of_length_le hlen.le
    | succ j =>
      rw [slice_append_right _ (by omega), hlen, show 4 * (j + 1) - 4 = 4 * j from by omega, ih (Nat.lt_of_succ_lt_succ hj)]
      rfl

/-- Word `j` of the running fold over blocks of `n` words. -/
theorem foldWords_getD (f : W32 → W32 → W32) {n j : Nat} (hj : j < n) (bs : List (List Byte)) (hbs : ∀ x ∈ bs, x.length = 4 * n) (acc : List W32)
    (hacc : acc.length = n) : (bs.foldl (fun a b => List.zipWith f a (wordsOf (b.length / 4) b)) acc).length = n ∧
      (bs.foldl (fun a b => List.zipWith f a (wordsOf (b.length / 4) b)) acc).getD j 0 =
        bs.foldl (fun a b => f a ((wordsOf n b).getD j 0)) (acc.getD j 0) := by
  induction bs generalizing acc with
  | nil => exact ⟨hacc, rfl⟩
  | cons b r ih =>
    have hb : b.length / 4 = n := by rw [hbs b List.mem_cons_self]; omega
    have hzip : (List.zipWith f acc (wordsOf n b)).length = n := by rw [List.length_zipWith, wordsOf_length, hacc, Nat.min_self]
    obtain ⟨hlen, hword⟩ := ih (fun x hx => hbs x (List.mem_cons_of_mem b hx)) _ hzip
    rw [List.foldl_cons, List.foldl_cons, hb]
    refine ⟨hlen, hword.trans ?_⟩
    have hj1 : j < acc.length := hacc ▸ hj
    have hj2 : j < (wordsOf n b).length := (wordsOf_length n b).symm ▸ hj
    rw [List.getD_eq_getElem _ _ (hzip.symm ▸ hj), List.getElem_zipWith, List.getD_eq_getElem _ _ hj1, List.getD_eq_getElem _ _ hj2]

theorem foldBlocks_word (kt op : Nat) (b : List Byte) (bs : List (List Byte)) (n j : Nat) (hb : b.length = 4 * n) (hbs : ∀ x ∈ bs, x.length = 4 * n)
    (hj : j < n) : slice (foldBlocks kt op (b :: bs)) (4 * j) 4 =
      natLe 4 (bs.foldl (fun a x => keyCombine kt op a ((wordsOf n x).getD j 0)) ((wordsOf n b).getD j 0)).toNat := by
  have hn : b.length / 4 = n := by omega
  obtain ⟨hlen, hword⟩ := foldWords_getD (keyCombine kt op) hj bs hbs (wordsOf n b) (wordsOf_length n b)
  rw [foldBlocks, hn, slice_flatMap_natLe _ (hlen.symm ▸ hj), hword]

/-! ### O38 -/

theorem collectives_issued {s : State} (esz kt op : BitVec 2) (g : BitVec 6) (l n : BitVec 32) :
    ∀ x ∈ [Instr.a2av esz g l, .agth esz g l n, .rsct kt op g l n, .ared kt op g l n], exec x s = collectiveCmd s x ∧
      ∃ i, gInfo x = some i ∧ i.g = g.toNat ∧ i.ldesc = l := by
  simp only [List.forall_mem_cons, List.not_mem_nil, false_implies, implies_true, and_true]
  exact ⟨⟨rfl, _, rfl, rfl, rfl⟩, ⟨rfl, _, rfl, rfl, rfl⟩, ⟨rfl, _, rfl, rfl, rfl⟩, ⟨rfl, _, rfl, rfl, rfl⟩⟩

/-- Settles O38: registration and freeing, the ISSUE of a collective, the rendezvous, the completion and the fold, each by its own lemmas. -/
theorem collectives : Obligations.Collectives := by
  refine ⟨fun s devs g p rank => ⟨fun hslot => ?issue, fun me q hslot hme hphase hlead => ?logic⟩,
    fun s esz kt op g l n hslot x hx => ?collective, fun s g => ?meeting,
    fun kt op b bs n j hb hbs hj => foldBlocks_word kt op b bs n j hb hbs hj⟩
  case issue =>
    refine ⟨fun hlead hp hmax => ⟨fun hrank => ?_, fun hrank => ?_⟩, fun hbad => ?_⟩
    · exact ⟨cgrpCmd_accepts hslot hlead hp hmax hrank false g, cgrpCmd_accepts hslot hlead hp hmax hrank true g⟩
    · exact ⟨cgrpCmd_badRank hslot hlead hp hmax hrank false g, cgrpCmd_badRank hslot hlead hp hmax hrank true g⟩
    · exact ⟨cgrpCmd_badSize hslot hbad false g, cgrpCmd_badSize hslot hbad true g⟩
  case logic =>
    have hregister := cgrp_registers (devs := devs) (g := g) (p := p) (rank := rank) hslot hme hphase hlead
    have hfree := cgrpFree_frees (devs := devs) (g := g) (p := p) (rank := rank) hslot hme hphase hlead
    refine ⟨fun haway => ⟨cgrpCmd_away hslot hme hlead haway false, cgrpCmd_away hslot hme hlead haway true⟩, fun hhere hempty hp => ?_,
      fun hhere hsome hbad => ?_, fun hhere hsome hdevs hp hrank hlast => ?_, fun hhere hnone => ?_, fun m hhere hwhole hmember hnew => ?_⟩
    · rw [hregister hhere, register_first hempty hp]
    · rw [hregister hhere, register_refused hsome hbad]
    · rw [hregister hhere, register_last hdevs hp hrank hlast, BitVec.ofNat_toNat, BitVec.setWidth_eq]
    · rw [hfree hhere, freeGroup_refused hnone]
    · rw [hfree hhere, freeGroup_member hwhole hmember hnew]
      refine ⟨fun hall => ?_, fun hsome => ?_⟩
      · rw [if_pos (List.all_eq_true.mpr fun x hx => Option.isSome_iff_ne_none.mpr (hall x hx))]
      · obtain ⟨x, hx, hnone⟩ := hsome
        rw [if_neg]
        exact fun hall => by simpa [hnone] using List.all_eq_true.mp hall x hx
  case collective =>
    obtain ⟨hexec, i, hinfo, hg, hl⟩ := collectives_issued esz kt op g l n x hx
    rw [hexec]
    subst hl
    rw [← hg]
    exact ⟨i, hinfo, rfl, rfl, ⟨collectiveCmd_accepts hslot hinfo, fun f => collectiveCmd_faults hslot hinfo⟩, collectiveCmd_misaligned hslot hinfo⟩
  case meeting =>
    refine ⟨fun hlen hp hwhole hmet hcome => ⟨fun hbad => ?_, fun hgood hfree u hu => ?_⟩, rendezvous_waits rfl,
      fun rank q hq hmet hdone => ⟨fun hmore => ?_, collectiveComplete_waits hq hmet hdone, fun a => dropTrailing_whole⟩⟩
    · refine rendezvous_mismatch rfl hlen hp hwhole hmet hcome ?_
      simpa only [Party.matches, not_and_or] using hbad
    · exact rendezvous_transfers rfl hlen hp hwhole hmet hcome hgood hfree hu
    · exact ⟨collectiveComplete_performed hq hmet hdone hmore, collectiveComplete_lost hq hmet hdone hmore⟩

end Sys2Proof.Machine
end
